-- ==== Sys2Proof/Word.lean ====
section
/-! DEFINITION. The words the manual counts in (R5: bit 0 is the least significant bit). -/

namespace Sys2Proof

/-- A 32-bit little-endian word of a register, a packet or a descriptor (R5). -/
abbrev Word := BitVec 32

/-- A byte of a store. -/
abbrev Byte := BitVec 8

end Sys2Proof
end

