-- ==== Sys2Proof/Syntax.lean ====
section
/-! DEFINITION. The commands of the block: one constructor of `Instr` per row of spec/opcode_table.json, with the
operands the row's rule gives it. What the outside world contributes to an event (a stamp's payload, an upset, an
ECC outcome) is an operand. -/

namespace Sys2Proof

/-- Command ports that carry packets (R447). Port M carries none. -/
inductive Port where
  | H | S | D
  deriving DecidableEq, Repr, Inhabited

/-- A command packet of one opcode (R450), without the words its constructor fixes: OPCODE, SUBOP and LENGTH
follow from the row and `params`; the CRC is right. -/
structure Pkt where
  port : Port
  tag : BitVec 16
  seq : BitVec 16
  params : List Word
  deriving DecidableEq, Repr, Inhabited

/-- What becomes of a read of a protection unit: what its store's decoder or the DRAM link finds (R225, R226, R229), or
that its request times out (R219). `asStored` follows the stored poison. -/
inductive Ecc where
  | asStored
  | corrected
  | uncorrectable
  | linkCorrected
  | linkRetried (n : Nat)
  | linkFailed
  | timedOut
  deriving DecidableEq, Repr, Inhabited

/-- An error that a decoder finds inside an engine: in a word of its Ledge's staging region or of its buffers, by its
place among those the attempt holds, or in a word of the Basin, by its row (R100, R170, R208, R229, R232). -/
inductive EngErr where
  | buffer (word : Nat) (uncorrectable : Bool)
  | basin (row : Nat) (uncorrectable : Bool)
  deriving DecidableEq, Repr, Inhabited

/-- Who may access the register space (R478). -/
inductive Requester where
  | pairA | pairB | headland | pcie
  deriving DecidableEq, Repr, Inhabited

/-- An access of the register bus (R474, R478): a write of a word with its byte enables, or a read. -/
structure BusAcc where
  who : Requester
  off : Nat
  wr : Option (BitVec 4 × Word)
  deriving DecidableEq, Repr, Inhabited

/-- How a CSI-2 packet header decodes (R281). -/
inductive HdrEcc where
  | clean | corrected | bad
  deriving DecidableEq, Repr, Inhabited

/-- The header fields of a PTP message that its rules use (R319, R320). -/
structure PtpHdr where
  domain : Nat
  transport : Nat
  seq : Nat
  deriving DecidableEq, Repr, Inhabited

/-- PTP messages (R319, R321); stamps are nanoseconds, already corrected where the sender stamped them. A one-step
response to a peer delay request gives the time that its sender took over it. -/
inductive PtpMsg where
  | syncOneStep (t1 : Int)
  | syncTwoStep
  | followUp (t1 : Int)
  | delayReq
  | delayResp (t4 : Int)
  | pdelayReq
  | pdelayRespOneStep (took : Int)
  | pdelayRespTwoStep (t2 : Int)
  | pdelayRespFollowUp (t3 : Int)
  | other
  deriving DecidableEq, Repr, Inhabited

/-- The header fields of a received Mapin frame (R329) that its type's rules use. -/
structure MHdr where
  src : BitVec 16
  lseq : Word
  ack : Word
  gen : BitVec 8
  credits : Nat
  reqId : Word
  arg : Word
  nak : Bool
  deriving DecidableEq, Repr, Inhabited

/-- What a clock monitor reports (R525). -/
inductive ClockEvent where
  | refSysLost
  | refSysDeviates
  | derivedDeviates
  | pllUnlocked
  deriving DecidableEq, Repr, Inhabited

/-- Rails whose collapse resets the device, and the others (R522). -/
inductive Rail where
  | core | sram | io18 | other
  deriving DecidableEq, Repr, Inhabited

/-- Tamper sensors (R511, SEC.KEYS.TAMPER) and a fuse-row parity failure. -/
inductive TamperKind where
  | supply | clock | light | shield | fuseParity
  deriving DecidableEq, Repr, Inhabited

/-- What a host configuration write sets (R470, R471): a BAR of 64 bits whole (0, 2, 4) or its upper half (1, 3, 5), bus
mastering, MSI-X, the power state, the codes of Max_Payload_Size and Max_Read_Request_Size, ASPM L1, ECRC. -/
inductive CfgWrite where
  | bar (n : Nat) (base : Nat)
  | busMaster (on : Bool)
  | msixEnable (on : Bool)
  | powerState (d3hot : Bool)
  | maxPayload (code : Nat)
  | maxReadRequest (code : Nat)
  | aspmL1 (on : Bool)
  | ecrc (generate check : Bool)
  deriving DecidableEq, Repr, Inhabited

/-- A start-up slice that meets an upset: its engine, its place among those of the engine's kind, its cycles, and the lanes
and output bytes that are upset (R378, R387). -/
structure SliceUpset where
  e : Nat
  slice : Nat
  cycles : Nat
  lanes : List (Nat × (Nat × Nat × Word))
  flips : List (Nat × Byte)
  deriving DecidableEq, Repr, Inhabited

/-- One command of the table. An operand with a default says what a decoder met (none: nothing), who accessed the bus or
which header a message had. -/
inductive Instr where
  -- opcodes of R465
  | echo (k : Pkt)
  | getInfo (k : Pkt)
  | getStatus (k : Pkt)
  | loadFirmware (k : Pkt)
  | firmwareLoadDone (ups : List SliceUpset := []) (ecc : List (Nat × Ecc) := [])
  | fuseProgrammingDone
  | loadObject (k : Pkt)
  | verifyObject (k : Pkt)
  | verifyObjectDone (slot : Bool) (ecc : List (Nat × Ecc) := [])
  | commitShadow (k : Pkt)
  | commitShadowDone (slot : Bool) (ecc : List (Nat × Ecc) := [])
  | swapSets (k : Pkt)
  | readSetInfo (k : Pkt) (ecc : List (Nat × Ecc) := [])
  | runCtlStart (k : Pkt)
  | runCtlStop (k : Pkt)
  | runCtlStartGroup (k : Pkt)
  | runCtlJoin (k : Pkt) (idle : List (BitVec 16) := [])
  | runCtlRearm (k : Pkt)
  | runJob (k : Pkt) (t4 : Bool) (ecc : List (Nat × Ecc) := [])
  | abortJob (k : Pkt)
  | queryJob (k : Pkt)
  | kvMap (k : Pkt) (ecc : List (Nat × Ecc) := [])
  | kvUnmap (k : Pkt) (ecc : List (Nat × Ecc) := [])
  | kvEdit (k : Pkt) (ecc : List (Nat × Ecc) := [])
  | timeSet (k : Pkt)
  | timeAdj (k : Pkt)
  | triggerCfg (k : Pkt)
  | scrubRange (k : Pkt)
  | readFaults (k : Pkt)
  | clearFaults (k : Pkt)
  | runSelftest (k : Pkt)
  | loadTestPack (k : Pkt)
  | resetDomain (k : Pkt)
  | guiltReplay (k : Pkt)
  | attest (k : Pkt)
  | getCerts (k : Pkt)
  | recordCtlStart (k : Pkt)
  | recordCtlStop (k : Pkt)
  | recordCtlQuery (k : Pkt)
  | replayCtlStart (k : Pkt) (ecc : List (Nat × Ecc) := [])
  | replayCtlStop (k : Pkt)
  | replayCtlQuery (k : Pkt)
  -- the window handshake and event packets
  | packetWordWrite (p : Port) (idx : Nat) (w : Word)
  | sspShortTransaction
  | replyBufferRead (p : Port) (idx : Nat) (framing : Byte := 0x5A)
  | faultEvent (p : Port)
  | announce
  | peerLostEvent
  | verdictEvent
  | commandTimeout (p : Port)
  | cmdDrUpdate (framing : Byte) (w : Word)
  -- the frame and its jobs
  | frameStart
  | schedulerWatchdog
  | outCommit
  | slackStart (ecc : List (Nat × Ecc) := [])
  | reservationOpen (job : Nat)
  | jobStart (job : Nat)
  | jobDeadline (job : Nat)
  | jobBudgetExpire (token : Word)
  | runJobTimeout (token : Word)
  | tileDispatch (e : Nat) (e2 : Option Nat)
  | tileDrainEnd (e : Nat) (cycles : Nat) (upsets : List (Nat × Nat × Word)) (errs : List EngErr := [])
  | operandPoisonConsumed (e : Nat)
  | taskEnd (e : Nat) (cycles : Nat) (upsets : List (Nat × Byte)) (errs : List EngErr := [])
  | attentionTaskEnd (e : Nat) (cycles : Nat) (upsets : List (Nat × Byte)) (errs : List EngErr := []) (ecc : List (Nat × Ecc) := [])
  | fallbackDecision (token : Word) (layer : BitVec 16) (ecc : List (Nat × Ecc) := [])
  | completionRecordCollect (input : Nat)
  | completionRecordConsume (ecc : List (Nat × Ecc) := [])
  -- the key/value store
  | walkLockGrant (seqId : Nat) (ecc : List (Nat × Ecc) := [])
  | pageFetchDone (seqId entry : Nat) (ecc : List Ecc := []) (cs : List (Nat × Ecc) := [])
  | pageSpillDone (seqId entry : Nat) (ecc : List Ecc := []) (cs : List (Nat × Ecc) := [])
  | streamResume (e : Nat) (ecc : List (Nat × Ecc) := [])
  -- the drift ring, the fabric and the stores
  | ringShiftStart
  | ringShiftEnd (ecc : List (Nat × Ecc) := [])
  | residentLoadDone (ecc : List (Nat × Ecc) := [])
  | fabricTimeout (req : Nat)
  | lateResponse (req : Nat)
  | creditEpochCheck (pool : Nat)
  | scrubPassResume
  | scrubUnitCheck (ecc : List Ecc)
  | bar2Write (off : Nat) (bytes : List Byte) (ecc : List Ecc)
  | bar4Write (off : Nat) (bytes : List Byte) (ecc : List Ecc)
  | barMemoryRead (bar4 : Bool) (off len : Nat) (ecc : List Ecc)
  | dramApertureHiWrite (w : Word)
  | bar0UnassignedAccess (off : Nat) (write : Bool)
  | registerWrite (off : Nat) (be : BitVec 4) (w : Word) (who : Requester := .pcie) (also : List BusAcc := [])
  | rcRegisterRead (off : Nat) (who : Requester := .pcie)
  | tbNsRead
  | ptpTxNsRead (mac : Nat)
  | addendHiWrite (w : Word)
  | servoCtrlWrite (w : Word)
  | capPop (w : Word)
  | nodeIdWrite (w : Word)
  | cciGo (port : Nat) (w : Word)
  | cciDone (port : Nat) (nack : Bool) (bytes : List Byte)
  | cciTimeout (port : Nat)
  -- time
  | servoSample (e : Int)
  | servoSampleTimeout
  | ptpMessageReceive (m : PtpMsg) (h : PtpHdr := ⟨0, 0, 0⟩)
  | ptpSyncInterval
  | ppsInEdge (rising : Bool)
  | capEdge (ch : Nat)
  | triggerFire (ch : Nat)
  | fsyncPulseEnd (n : Nat)
  | ppsOutEnd
  -- the sensor front
  | csi2FrameStart (port vc : Nat)
  | csi2Line (port vc dt : Nat) (hdr : HdrEcc) (crcOk : Bool) (payload : List Byte) (ovr : Bool) (lb : Ecc) (word : Nat := 0)
  | csi2FrameEnd (port vc : Nat) (ecc : List (Nat × Ecc) := [])
  | ethFrameReceive (mac : Nat) (fcsOk : Bool) (bytes : List Byte)
  | ethTimeClose (stream : Nat)
  | sensorFrameComplete (stream : Nat)
  | txForwardPacket (port : Nat) (dt : Nat) (fits : Bool) (payload : List Byte)
  | replayInject (ecc : List (Nat × Ecc) := [])
  | spLinkChange (port : Nat) (up : Bool) (gear : Nat)
  | ethLinkChange (mac : Nat) (up : Bool)
  -- Mapin
  | mapinHello (h : MHdr)
  | mapinLink (h : MHdr)
  | mapinWriteReq (h : MHdr) (addr : Nat) (data : List Byte)
  | mapinWriteReply (h : MHdr)
  | mapinReadReq (h : MHdr) (addr : Nat) (ecc : List (Nat × Ecc) := [])
  | mapinReadReply (h : MHdr) (data : List Byte) (poisoned : List Nat)
  | mapinArrive (h : MHdr) (seq : Word) (sec ns : Nat)
  | mapinRelease (h : MHdr) (seq : Word) (sec ns : Nat)
  | mapinTimeReq (h : MHdr)
  | mapinTimeResp (h : MHdr) (t2 t3 : Int)
  | mapinLost (h : MHdr)
  | mapinBadFrame (src : BitVec 16)
  | mapinFrameSend (dst : BitVec 16) (ecc : List (Nat × Ecc) := [])
  | mapinResendTimeout (dst : BitVec 16)
  | mapinLinkKeepalive (dst : BitVec 16)
  | mapinTimeReqInterval
  | mapinReqTimeout (reqId : Word)
  | mapinMemberSilent (node : BitVec 16)
  | barrierTimeout
  -- Headland and the SAFE outputs
  | ruleEvaluate (n : Nat)
  | evidenceCopy (n : Nat) (ecc : List (Nat × Ecc) := [])
  | mirrorRecordBin
  | verdictWrite
  | trustLeaseExpire
  | safeToggle
  | safeMonitorTrip
  | katSliceStart (e : Nat)
  | katSliceEnd (e : Nat) (cycles : Nat) (lanes : List (Nat × (Nat × Nat × Word))) (flips : List (Nat × Byte)) (errs : List EngErr := [])
  -- hangs and resets
  | hangOverrun (e : Nat)
  | hangNoAck (e : Nat)
  | domainResetComplete
  | resetStepTimeout
  | chipWarmReset
  | warmResetDone (ups : List SliceUpset := []) (ecc : List (Nat × Ecc) := [])
  | controlPairMismatch (pairB : Bool)
  | headlandLockstepFault (corrected : Bool := false)
  -- the electrical boundary
  | voltageMonitorTrip (rail : Rail) (collapsed : Bool)
  | clockMonitorTrip (k : ClockEvent)
  | refclkEthLoss
  | tempWarning (celsius : Int)
  | tempShutdown
  | flowOkLow (low : Bool)
  | tamperTrip (k : TamperKind)
  | pcieAerError (uncorrectable : Bool)
  | powerOn
  | powerLoss
  | resetNPulse (ns : Nat)
  | resetRelease (refSysPresent : Bool)
  | dramTrainingDone (failed : List Nat)
  | memoryFillDone
  | startupInjectionDone (failed : List Nat) (badEngines : List Nat)
  | perstNChange (low : Bool)
  -- debug and lifecycle
  | jtagInstructionUpdate (code : Byte) (tapReset : Bool)
  | tokenDrWord (w : Word)
  | debugUnlock
  | lcAdvance
  | addOwner
  -- completions and links
  | loadTestPackDone (ecc : List (Nat × Ecc) := [])
  | fabricResponse (req : Nat) (ecc : List Ecc) (also : List (Nat × Ecc) := [])
  | secondsCarry
  | pcieLinkChange (up : Bool) (speed width : Nat) (reversed : Bool)
  | pcieConfigWrite (c : CfgWrite)
  deriving DecidableEq, Repr, Inhabited

end Sys2Proof
end

