-- ==== Sys2Proof/Config.lean ====
section
/-! DEFINITION. What an implementation fixes and what the manual leaves free. The opaque constants have no body: a
statement that mentions one holds for every value of it. -/

namespace Sys2Proof.Config

/-- A free word: the `n`-th value the device draws at random (boot nonce R508, generation R335, keys R508).
The argument is `State.free`, which every draw advances. -/
opaque freeWord : Nat → Word

/-- SHA-384 of a byte string, as a number (FIPS 180, named by R37, R498, R509; not defined in the manual). -/
opaque sha384 : List Byte → Nat

/-- ECDSA P-384 verification: public key bytes, message, signature (FIPS 186-5, named by R498). -/
opaque ecdsaOk : List Byte → List Byte → List Byte → Bool

/-- LMS verification: public key bytes, message, signature (SP 800-208, named by R498). -/
opaque lmsOk : List Byte → List Byte → List Byte → Bool

/-- The ECDSA signature the key block makes with the key numbered by its first argument (R508, R510). -/
opaque ecdsaSign : Nat → List Byte → List Byte

/-- The public key bytes of the P-384 key with a number (FIPS 186-5, named by R508). -/
opaque publicKey : Nat → List Byte

/-- The boot ROM's four Evaneri anchor digests (R508). -/
opaque evaneriAnchor : Nat → Nat

/-- The four digests that a set manifest's body holds; the body's layout is not in the manual (R37, R499 item 9). -/
opaque manifestDigests : List Byte → List Nat

/-- The fixed approximations of R86 (SIGMOID, TANH, GELU, SILU by ACT code), on FP32 bit patterns. -/
opaque actApprox : Nat → Word → Word

/-- The fixed approximations of exp and ln of R185, on FP32 bit patterns. -/
opaque expApprox : Word → Word
opaque lnApprox : Word → Word

/-- The sections of a plan object's body or of a job image, each a list of entries of words. The container that holds
them is not in the manual (R37, R466); the entries' own layouts are. -/
opaque planSection : List Byte → Nat → List (List Word)

/-- DEMOSAIC's sample of a colour that no pixel of its window has: by the CFA, the image's width and height, its pixels, the
place and the colour (R289, R344). -/
opaque demosaicSample : Nat → Nat → Nat → List Nat → Nat → Nat → Nat → Nat

/-- The fixed receive latency of a gear, in nanoseconds (R284). -/
opaque gearLatency : Nat → Nat

/-- The four check bytes that make a codeword of 64 data bytes: the manual names the code, Reed–Solomon over GF(2^8), not
its generator (R225). DESIGN CHOICE (log 46). -/
opaque rsCheck : List Byte → Word

/-- The SEC-DED check bits of a 256-bit word and of a CSRAM byte, whose code the manual does not give, and those that stand
with a byte that is uncorrectable (R211, R229). DESIGN CHOICE (log 46). -/
opaque secded256 : List Byte → BitVec 10
opaque secded8 : Byte → BitVec 5
opaque secdedBad : Nat → BitVec 5

end Sys2Proof.Config
end

