-- ==== Sys2Proof/Machine/State.lean ====
section
/-! DEFINITION. The state of Thoig 16 as plain data. Every field's default is its reset value: the value the cited
rule gives, or, where none is given, the value named in notes/assumptions/1.md. -/

namespace Sys2Proof.Machine

/-- A store's bytes, sorted by address, no entry equal to the value an unlisted address reads as, 0 (R236). -/
abbrev Mem := List (Nat × BitVec 8)

/-- Run states (R16). -/
inductive RunState where
  | idle | armed | running | halted
  deriving DecidableEq, Repr, Inhabited

/-- Trust states (R370). -/
inductive Trust where
  | notArmed | awaiting | trusted | withdrawn
  deriving DecidableEq, Repr, Inhabited

/-- Set slot states (R38). -/
inductive SlotState where
  | empty | loading | loaded | verified | committed | active | failed
  deriving DecidableEq, Repr, Inhabited

/-- Phases of a frame (R17); `none` outside RUNNING. -/
inductive FrPhase where
  | none | compute | judge | slack
  deriving DecidableEq, Repr, Inhabited

/-- Lifecycle states (R503). -/
inductive Lifecycle where
  | manufacture | provisioned | field | retired
  deriving DecidableEq, Repr, Inhabited

/-- How far power-up has come (R491, R493, R520): no power; powered and held before reset release; released and
training; filling; injecting; boot ROM answering; firmware running; stuck for want of REFCLK_SYS (R525) or of a
trained channel (R228). -/
inductive Boot where
  | off | held | training | filling | injecting | rom | firmware | noClock | untrained
  deriving DecidableEq, Repr, Inhabited

/-- The two ordering codes (R1). -/
inductive Part where
  | a48 | a96
  deriving DecidableEq, Repr, Inhabited

/-- Engine kinds (R26, R385). -/
inductive EngKind where
  | me | ve | ae | warp | crop | pcl | sort
  deriving DecidableEq, Repr, Inhabited

/-- Job outcome codes (R35). -/
inductive JobEnd where
  | done | aborted | killedBudget | killedDeadline | killedPoison | killedUpstream | killedReset
  | skippedNoStart | skippedUpstream
  deriving DecidableEq, Repr, Inhabited

/-- Reply status codes (R453). -/
inductive Status where
  | ok | busy | badCrc | badOpcode | notPermitted | badParam | sigFail | notReady | aborted | alreadyDone
  | timeout | poisoned | noSpace | wrongState | accepted | badShape | peerLost
  deriving DecidableEq, Repr, Inhabited

/-- Servo sources (R316). -/
inductive ServoSrc where
  | free | pps | ptp | host | mapin
  deriving DecidableEq, Repr, Inhabited

/-- An exact floating value: a NaN, an infinity, or (-1)^neg * m * 2^e (R106). -/
inductive FV where
  | nan
  | inf (neg : Bool)
  | fin (neg : Bool) (m : Nat) (e : Int)
  deriving DecidableEq, Repr, Inhabited

/-- An accumulator or drain value: an integer, or a float (R74, R86). -/
inductive Num where
  | i (v : Int)
  | f (v : FV)
  deriving DecidableEq, Repr, Inhabited

/-- The time base, its servo, captures and pulses (R311 to R327, registers R348). `freeAddend` is the addend that was
written last, while a servo source steers another (R316). -/
structure TimeBase where
  sec : Nat := 0
  ns : Nat := 0
  frac : Nat := 0
  addend : Nat := 0x8_0000_0000
  latched : Nat := 0
  heldFrac : Nat := 0
  clamped : Bool := false
  locked : Bool := false
  integral : Int := 0
  good : Nat := 0
  bad : Nat := 0
  lockLost : Bool := false
  src : ServoSrc := .free
  lockThr : Nat := 0x064
  stepThr : Nat := 0x64
  sampleTimeout : Nat := 0x32
  kp : Nat := 0x0100_0000
  ki : Nat := 0x0040_0000
  lastE : Int := 0
  samples : Nat := 0
  trigFired : BitVec 32 := 0
  capFifo : List (List (Nat × Nat)) := List.replicate 8 []
  capOvf : BitVec 8 := 0
  capSel : Nat := 0
  ppsInPol : Bool := false
  ppsOutEn : Bool := false
  ppsOutSrc : Bool := false
  widthMs : Nat := 0x64
  capEn : BitVec 8 := 0
  lastPps : Option Nat := none
  freeAddend : Nat := 0x8_0000_0000
  freeClamped : Bool := false
  ppsRose : Option Nat := none
  deriving DecidableEq, Repr, Inhabited

/-- Time service of control pair B: TRIGGER_CFG words (R320) and the exchanges in progress (R321, R322): the last whole
Sync, one that waits for its Follow_Up, the delay request sent and a response to it that waits for its Follow_Up, each
with its sequence number, the mean path delay, the numbers of the next Sync and request, and t1 of the last TIME_REQ. -/
structure TimeService where
  cfg : List Word := List.replicate 10 0
  sync : Option (Int × Int) := none
  pendSync : Option (Nat × Int) := none
  req : Option (Nat × Int) := none
  pendResp : Option (Nat × Int × Int) := none
  pathDelay : Option Int := none
  nextSync : Nat := 0
  nextReq : Nat := 0
  mapinT1 : List (Word × BitVec 16 × Int) := []
  deriving DecidableEq, Repr, Inhabited

/-- A descriptor of a plan's array: its engine kind and its words (R70, R150, R155, R158, R163, R189, R297). -/
structure Desc where
  kind : EngKind
  words : List Word
  deriving DecidableEq, Repr, Inhabited

/-- A receive window that a plan grants to a sender (R334). -/
structure Window where
  node : BitVec 16
  base : Nat
  len : Nat
  deriving DecidableEq, Repr, Inhabited

/-- A plan or a job image, as the device reads it: descriptor array, convolution records (R132), fallback entries
(R123), stream records (R245), layer groups as stripe chains of items (each item a list of descriptor ordinals,
R57, R145), the tensors it writes (tensor references, R59), which of them are its outputs, the resident image
(R250), the Mapin group (R335), the receive windows (R334) and its transfers to and from members: node and direction,
the remote address, the local reference (R201, R334). -/
structure Plan where
  descs : List Desc := []
  convs : List (List Word) := []
  fbs : List (List Word) := []
  streams : List (List Word) := []
  groups : List (List (List (List Nat))) := []
  tensors : List (List Word) := []
  outputs : List Nat := []
  resAddr : Nat := 0
  resBytes : Nat := 0
  members : List (BitVec 16) := []
  windows : List Window := []
  xfers : List (List Word) := []
  deriving DecidableEq, Repr, Inhabited

/-- A Tide Table: header words and entries of sixteen words (R23, R24). -/
structure TideTable where
  hdr : List Word := []
  entries : List (List Word) := []
  bodyLen : Nat := 0
  deriving DecidableEq, Repr, Inhabited

/-- The sensor and trigger configuration: header, stream, port, MAC, ISP context and trigger entries (R270, R271,
R282, R293, R288, R323). -/
structure SensorCfg where
  hdr : List Word := []
  streams : List (List Word) := []
  ports : List (List Word) := []
  macs : List (List Word) := []
  isps : List (List Word) := []
  trigs : List (List Word) := []
  deriving DecidableEq, Repr, Inhabited

/-- The plausibility program: header, lidar, evidence and rule entries (R359 to R362). -/
structure Program where
  hdr : List Word := []
  lidars : List (List Word) := []
  evids : List (List Word) := []
  rules : List (List Word) := []
  bodyLen : Nat := 0
  deriving DecidableEq, Repr, Inhabited

/-- An object of a slot: KIND (R467) and the DRAM region that holds it (R39). -/
structure ObjRef where
  kind : Nat
  addr : Nat
  len : Nat
  deriving DecidableEq, Repr, Inhabited

/-- A set slot (R37 to R40). -/
structure Slot where
  st : SlotState := .empty
  objs : List ObjRef := []
  prot : Bool := false
  verTok : Option Word := none
  comTok : Option Word := none
  tide : TideTable := {}
  plan : Plan := {}
  sensor : SensorCfg := {}
  prog : Program := {}
  unanchored : Bool := false
  deriving DecidableEq, Repr, Inhabited

/-- The SET block and both slots (R53, R54, R487). -/
structure Sets where
  slot0 : Slot := {}
  slot1 : Slot := {}
  activeSlot : Bool := false
  swapPending : Bool := false
  swapSeq : Word := 0
  taken : Nat := 0
  cancelled : Nat := 0
  deriving DecidableEq, Repr, Inhabited

/-- Where a Tide Table entry stands in the current frame (R28, R31, R33 to R35). -/
structure TtStat where
  token : Option Word := none
  ended : Option JobEnd := none
  rsvOpen : Bool := false
  endNs : Nat := 0
  deriving DecidableEq, Repr, Inhabited

/-- The rows of one tensor of the active plan or of a RUN_JOB image that stand: elements standing per row (R144).
`owner` is 0 for the active set, else the job's token. `pads` are the rows of a padded buffer whose PAD task has ended
(R141). -/
structure RowCtr where
  owner : Word
  base : Nat
  stood : List Nat
  pads : List Nat := []
  deriving DecidableEq, Repr, Inhabited

/-- A substitution in force (R126): the replaced ordinal and its replacement. -/
structure Subst where
  owner : Word
  ord : Nat
  desc : Desc
  deriving DecidableEq, Repr, Inhabited

/-- A completion record (R422). -/
structure CRec where
  token : Word
  outcome : JobEnd
  cls : Bool
  runJob : Bool
  jobId : Nat
  ctx : Nat
  frameSeq : Word
  cycles : Nat
  deriving DecidableEq, Repr, Inhabited

/-- The SCH block and the scheduler's frame state (R13 to R22, R49 to R52, R130, R131, R279, R486). `arrNs` holds the
arrival entries that have fired in the frame with their offsets from its start (R274, R362). -/
structure Sched where
  run : RunState := .idle
  phase : FrPhase := .none
  seq : Word := 0
  startAt : Nat := 0
  firstSeq : Word := 0
  frames : Nat := 0
  t : Nat := 0
  stopReq : Bool := false
  portSStop : Bool := false
  arrived : BitVec 64 := 0
  arrNs : List (Nat × Nat) := []
  rsvWaitMax : Nat := 0
  consCredit : Bool := false
  consToken : Bool := false
  consSensor : Bool := false
  consMapin : Bool := false
  fbIdx : Nat := 0
  fbWraps : Nat := 0
  fbRecords : Nat := 0
  fbAbandoned : Nat := 0
  dropIdx : Nat := 0
  dropWraps : Nat := 0
  endsDone : Nat := 0
  endsNot : Nat := 0
  tt : List TtStat := []
  ctxSeq : List (Nat × Nat) := []
  cmdSeq : Nat := 1
  invalid : List Nat := []
  rows : List RowCtr := []
  subst : List Subst := []
  ttRecs : List CRec := []
  deriving DecidableEq, Repr, Inhabited

/-- Where an item of a job stands: not dispatched, in an engine, to be retried, its writes outstanding, standing
(R57, R83, R145, R218). -/
inductive ItemSt where
  | waiting | running | retry | acking | stood
  deriving DecidableEq, Repr, Inhabited

/-- An item of a job: its place in the plan, its descriptors, the engines that ran it (R57, R83, R145). `rerun` marks
an item of a fallback self list (R125), `prefetch` a stream of a prefetch list (R247). `rows` are the addresses of the
output rows its standing attempt wrote, `waitClk` the cycle since which it waits for a Q-class tile (R51). -/
structure Item where
  grp : Nat
  chain : Nat
  pos : Nat
  ords : List Nat
  ds : List Desc
  st : ItemSt
  ran : List Nat
  retried : Bool
  rerun : Bool
  prefetch : Bool
  rows : List Nat := []
  waitClk : Option Nat := none
  deriving DecidableEq, Repr, Inhabited

/-- A layer count of a job (R121, R122, R125, R128). -/
structure LayerCnt where
  layer : Nat
  count : Nat
  decided : Bool
  fell : Bool
  rerun : Nat
  decClk : Nat
  decSeq : Word
  recorded : Bool
  deriving DecidableEq, Repr, Inhabited

/-- Who submitted a job (R422, R427). -/
inductive Origin where
  | tide | runJob | replay
  deriving DecidableEq, Repr, Inhabited

/-- A live job (R28 to R36, R420, R427). `sent` lists the plan's Mapin transfers it has begun. -/
structure Job where
  token : Word
  origin : Origin
  jobId : Nat
  cls : Bool
  ctx : Nat
  mask : Nat
  budget : Nat
  startClk : Nat
  halted : Bool
  haltClk : Nat
  paused : Nat
  timeoutAt : Option Nat
  plan : Plan
  items : List Item
  layers : List LayerCnt
  port : Port
  timeoutUs : Nat
  ctxT4 : Bool
  sent : List Nat := []
  deriving DecidableEq, Repr, Inhabited

/-- The final result a token keeps, or that it is live (R464). `code` is the outcome of its job (R35, R418). -/
structure TokRec where
  token : Word
  port : Port
  live : Bool
  status : Status
  payload : List Word
  code : Nat := 0
  deriving DecidableEq, Repr, Inhabited

/-- The raw contents of a Basin bank and its checking lanes: data accumulators by rows, lane (512, j), lane (i, 128),
ones column, absolute lanes (R55, R58, R78, R81). -/
structure Basin where
  m : Nat := 0
  n : Nat := 0
  acc : List Num := []
  colX : List Num := []
  rowX : List Num := []
  ones : List Num := []
  colA : List Num := []
  rowA : List Num := []
  deriving DecidableEq, Repr, Inhabited

/-- What an attempt left when its run ended: output writes, its comparison and its saturation events (R84, R91); `ecc` is what
the reads come to that an APPEND makes at its end (R196, R225). -/
structure RunOut where
  writes : List (Nat × List Byte)
  mism : Bool
  wrap : Nat
  sat : Nat
  ecc : List (Nat × Ecc) := []
  deriving DecidableEq, Repr, Inhabited

/-- Bytes that a stream unit has brought for an item, by the address that was read; `bad` where a sector of them came
poisoned, `slot` where they lie in a Ledge's staging region (R231, R242). -/
structure Piece where
  addr : Nat
  bytes : List Byte
  bad : Bool
  slot : Nat := 0
  deriving DecidableEq, Repr, Inhabited

/-- A page descriptor (R193); `seq` is the sequence its walk reads. -/
structure PDesc where
  seq : Nat
  ent : Nat
  frame : Nat := 0
  hold : Bool := false
  glob : Bool := false
  pad : Bool := false
  last : Bool := false
  y0 : Nat := 0
  x0 : Nat := 0
  age : Nat := 0
  deriving DecidableEq, Repr, Inhabited

/-- Operands in a Ledge's staging region: of the tile staged ahead, or of the previous tile (R242). `refs` are the
references that are complete. -/
structure Staged where
  token : Word
  item : Nat
  grp : Nat
  refs : List (List Word)
  data : List Piece
  deriving DecidableEq, Repr, Inhabited

/-- An attempt in an engine (R57, R166). `partner` is the other engine of a dual attempt; `first` the first run of a
repeated task (R154), `t4` that its requests name no context (R426), `stopClk` when it was told to stop (R424); `done` this engine's finished run while the partner's goes on; `desc` holds its record's
fields; `bank1` that a one-bank tile is in bank 1. `data` is what its stream unit has brought; `pages` are the
descriptors its walk has still to emit, `queue` those in the page queue and not yet consumed, `todo` those of them, at its end, whose pages the held stream has not
asked for (R192, R196). -/
structure Attempt where
  token : Word
  item : Nat
  desc : Desc
  retry : Bool
  partner : Option Nat
  writer : Bool
  startClk : Nat
  first : Option RunOut
  done : Option RunOut
  hold : Bool
  holdClk : Nat
  stopping : Bool
  basin : Basin
  banks : Nat
  poison : Bool
  pages : List PDesc
  version : Word
  t4 : Bool := false
  stopClk : Nat := 0
  bank1 : Bool := false
  data : List Piece := []
  queue : List PDesc := []
  todo : List PDesc := []
  block : List PDesc := []
  deriving DecidableEq, Repr, Inhabited

/-- Why a slice runs (R376, R379, R382, R387). -/
inductive KatWhy where
  | periodic | armed | immediate | startup | commanded (token : Word)
  deriving DecidableEq, Repr, Inhabited

/-- An engine of R26: what it holds, its block's registers (R97 to R102, R169 to R173, R209, R210), its tag and
hang count (R430, R432), the slice entry and pack base of the slice it runs, its slice rotation, the frames in which it passed, and whether a slice of it has been deferred in
this frame (R378, R380, R381, R406). `stg` is the tile staged ahead, `prev` what is still staged of the tile before,
`stgOff` where the staging region is filled next (R242). -/
structure Engine where
  arr : Option Attempt := none
  drn : Option Attempt := none
  quar : Bool := false
  wdr : Bool := false
  kat : Option KatWhy := none
  katDue : List KatWhy := []
  katEnt : List Word := []
  katBase : Nat := 0
  rot : Nat := 0
  passed : List Nat := []
  lastPass : Word := 0xFFFF_FFFF
  chkMis : Nat := 0
  wrap : Nat := 0
  retry : Nat := 0
  dualMis : Nat := 0
  sat : Nat := 0
  ce : Nat := 0
  uc : Nat := 0
  count : Nat := 0
  lastTok : Word := 0
  pages : Nat := 0
  holds : Nat := 0
  holdCyc : Nat := 0
  gen : Nat := 0
  hangs : Nat := 0
  resetting : Bool := false
  deferred : Bool := false
  stg : Option Staged := none
  prev : Option Staged := none
  stgOff : Nat := 0
  deriving DecidableEq, Repr, Inhabited

/-- What a transfer of a stream unit serves (R218, R232, R241 to R247): an item's operand, a page of an attention task,
an item's output rows, row `row` of a prefetch stream (`none`: its auxiliary array). -/
inductive XUse where
  | operand (token : Word) (item : Nat)
  | page (token : Word) (item : Nat) (key : Nat)
  | output (token : Word) (item : Nat)
  | prefetch (token : Word) (item : Nat) (row : Option Nat)
  deriving DecidableEq, Repr, Inhabited

/-- A transfer (R241): up to 4 KiB of one row, moved by stream unit `unit`, its priority (R243), the bytes requested; `copy` are pieces of a copy that have been read and not yet written, by offset. `begun` from its first
request on, in epoch `epoch`; `held` while it reads data marked absent (R244). -/
structure Xfer where
  id : Nat
  unit : Nat
  prio : Nat
  use : XUse
  src : Nat
  dst : Nat
  len : Nat
  iss : Nat := 0
  copy : List (Nat × List Byte × Bool) := []
  begun : Bool := false
  held : Bool := false
  epoch : Bool := false
  deriving DecidableEq, Repr, Inhabited

/-- What a fabric request is for: nothing that waits for it, a piece of a transfer at offset `off`, a sensor frame's data,
rows that a Mapin member lands (R218, R219, R232, R241, R273, R334). -/
inductive ReqUse where
  | passed
  | xfer (id off : Nat)
  | ingress (stream : Nat) (seq : Word)
  | landing (id : Nat)
  deriving DecidableEq, Repr, Inhabited

/-- Pool classes (R220). -/
inductive PoolKind where
  | cove | ledge | dram | csram | ring | stream
  deriving DecidableEq, Repr, Inhabited

/-- An outstanding request, or one whose response may still come late (R219, R222): source port, destination pool, ring
links it passes, domain tag and arbitration level (R217, R220, R252, R430). -/
structure Req where
  id : Nat
  src : Nat
  kind : PoolKind
  idx : Nat
  write : Bool
  addr : Nat
  len : Nat
  epoch : Bool
  gen : Nat
  purpose : ReqUse
  links : List Nat := []
  level : Nat := 3
  deriving DecidableEq, Repr, Inhabited

/-- A write request of a source port that waits for a credit (R220). -/
structure PortReq where
  src : Nat
  addr : Nat
  len : Nat
  purpose : ReqUse
  deriving DecidableEq, Repr, Inhabited

/-- A credit pool's issued and returned counts, per epoch (R220, R221). -/
structure Pool where
  src : Nat
  kind : PoolKind
  idx : Nat
  iss0 : Nat
  ret0 : Nat
  iss1 : Nat
  ret1 : Nat
  deriving DecidableEq, Repr, Inhabited

/-- A scrub pass and its summary (R237 to R240). -/
structure Scrub where
  token : Word
  addr : Nat
  units : Nat
  done : Nat
  ce : Nat
  uc : Nat
  firstUc : Option Nat
  running : Bool
  deriving DecidableEq, Repr, Inhabited

/-- The fabric, the stream units' transfers, oldest first, the port writes that wait, the DRAM controllers with the check lines each channel has
cached, newest first (R224), the drift ring, scrub, and the MEM and COVE blocks (R219 to R269). -/
structure MemSys where
  fillDone : Bool := false
  trained : Bool := false
  resLoaded : Bool := false
  shiftQ : List Nat := []
  shiftOn : Bool := false
  phase : Nat := 0
  scrubs : List Scrub := []
  eccCe : Nat := 0
  eccUc : Nat := 0
  linkCorr : Nat := 0
  linkRetry : Nat := 0
  chUc : BitVec 24 := 0
  timeouts : Nat := 0
  lateDrop : Nat := 0
  strHolds : Nat := 0
  strAborts : Nat := 0
  shifts : Nat := 0
  repairs : Nat := 0
  markRead : Nat := 0
  markWrite : Nat := 0
  coveCe : Nat := 0
  coveUc : Nat := 0
  csCe : Nat := 0
  csUc : Nat := 0
  secWrite : Nat := 0
  secRead : Nat := 0
  conflict : Nat := 0
  epoch : Bool := false
  nextReq : Nat := 0
  reqs : List Req := []
  xfers : List Xfer := []
  portQ : List PortReq := []
  chkCache : List (Nat × List Nat) := []
  deriving DecidableEq, Repr, Inhabited

/-- The credit pools and the requests timed out or reclaimed whose response may still arrive (R219, R221, R222). -/
structure Credits where
  pools : List Pool := []
  timedOut : List Req := []
  reclaimed : List Req := []
  deriving DecidableEq, Repr, Inhabited

/-- A waiting or held walk of the key/value store (R192, R195): a read walk, an APPEND or a KV_EDIT. -/
structure Walk where
  seqId : Nat
  append : Bool
  e : Nat
  granted : Bool
  deriving DecidableEq, Repr, Inhabited

/-- The walks, in order of request, and the page copies in flight, `kept` those spilled pages that a walk has pinned
meanwhile (R195, R196, R205, R207). Headers and page entries
themselves live in CSRAM (R176, R180). -/
structure Kv where
  walks : List Walk := []
  fetches : List (Nat × Nat) := []
  spills : List (Nat × Nat) := []
  kept : List (Nat × Nat) := []
  deriving DecidableEq, Repr, Inhabited

/-- Drop reasons (R277). -/
inductive Drop where
  | late | noConsumer | setSwap | surplus | noBuffer | crc | linkLoss | format | overrun | writeFail
  deriving DecidableEq, Repr, Inhabited

/-- A sensor frame in reception or delivered (R272 to R276). `raw` holds the lines an ISP context has
buffered, `bad` the words of their line buffers that were uncorrectable, as line and word (R292); `closed` that its last data came, `complete` that all
of it stands. -/
structure SFrame where
  seq : Word
  buf : Nat
  fseq : Word
  ns : Nat
  sec : Nat
  lines : Nat
  pkts : Nat
  used : Nat
  closed : Bool
  delivered : Bool
  claimed : Bool
  raw : List (List Nat)
  complete : Bool := false
  bad : List (Nat × Nat) := []
  deriving DecidableEq, Repr, Inhabited

/-- What a stream still discards of a dropped sensor frame: its packets and lines so far, and the stream entry whose close
condition it meets (R277). -/
structure Discard where
  pkts : Nat
  fseq : Word
  seq : Word
  lines : Nat := 0
  entry : List Word := []
  deriving DecidableEq, Repr, Inhabited

/-- A stream's run state (R272 to R277). -/
structure Stream where
  next : Word := 0
  cur : Option SFrame := none
  kept : List SFrame := []
  disc : Option Discard := none
  delivered : Option Nat := none
  deriving DecidableEq, Repr, Inhabited

/-- A sensor port's registers, its frame-sync output with the instant at which its pulse began, and the packets that it has
still to forward, each its data type and payload (R285 to R287, R306 to R308). -/
structure SpPort where
  up : Bool := false
  gear : Nat := 0
  seen : Bool := false
  crc : Nat := 0
  loss : Nat := 0
  hdrCorr : Nat := 0
  drops : Nat := 0
  fwdDrops : Nat := 0
  dev : Nat := 0
  wlen : Nat := 0
  rlen : Nat := 0
  go : Bool := false
  done : Bool := false
  nack : Bool := false
  timeout : Bool := false
  data : List Word := [0, 0, 0, 0]
  fsync : Bool := false
  fsAt : Option Nat := none
  fwdOn : Bool := false
  fwdCut : Bool := false
  fwdQ : List (Nat × List Byte) := []
  deriving DecidableEq, Repr, Inhabited

/-- An Ethernet MAC's registers (R309, R349). -/
structure EthMac where
  up : Bool := false
  seen : Bool := false
  fcs : Nat := 0
  loss : Nat := 0
  oversize : Nat := 0
  unmatched : Nat := 0
  badhdr : Nat := 0
  mirrored : Nat := 0
  mdrops : Nat := 0
  rx : Nat := 0
  txNs : Nat := 0
  txSec : Nat := 0
  txSecLatch : Nat := 0
  deriving DecidableEq, Repr, Inhabited

/-- An ISP's registers (R310), reset tag and ladder state (R429, R430). -/
structure Isp where
  busy : Bool := false
  ctx : Nat := 0
  ce : Nat := 0
  uc : Nat := 0
  overrun : Nat := 0
  format : Nat := 0
  pix : Nat := 0
  gen : Nat := 0
  resetting : Bool := false
  deriving DecidableEq, Repr, Inhabited

/-- Record control (R301). -/
structure Recorder where
  state : Nat := 0
  base : Nat := 0
  len : Nat := 0
  mask : BitVec 64 := 0
  written : Nat := 0
  lost : Nat := 0
  armed : Bool := false
  stopping : Bool := false
  deriving DecidableEq, Repr, Inhabited

/-- Replay control (R303). -/
structure Replayer where
  state : Nat := 0
  base : Nat := 0
  len : Nat := 0
  mask : BitVec 64 := 0
  pos : Nat := 0
  frames : Nat := 0
  diverged : Nat := 0
  shift : Option Int := none
  mark : Word := 0
  inFrame : Bool := false
  stopping : Bool := false
  deriving DecidableEq, Repr, Inhabited

/-- The sensor front (R270 to R310, R324). `trigFires` are a channel's firings of this run, newest first, each its instant
and its frame, `trigNext` the firings it has made in this frame; `accepted`, `claimed` and `dropped` are the counters of R45. -/
structure Sensors where
  streams : List Stream := List.replicate 64 {}
  sp : List SpPort := List.replicate 16 {}
  eth : List EthMac := List.replicate 8 {}
  isp : List Isp := List.replicate 2 {}
  recorder : Recorder := {}
  replayer : Replayer := {}
  trigFires : List (List (Nat × Word)) := List.replicate 32 []
  trigNext : List Nat := List.replicate 32 0
  accepted : Nat := 0
  claimed : Nat := 0
  dropped : Nat := 0
  deriving DecidableEq, Repr, Inhabited

/-- Mapin message types (R330). -/
inductive MType where
  | hello | link | writeReq | writeReply | readReq | readReply | arrive | release | timeReq | timeResp | lost
  deriving DecidableEq, Repr, Inhabited

/-- A Mapin frame to be sent or sent and not acknowledged (R329, R331). `flagged` are the offsets of the poisoned
sectors of a READ_REPLY (R334), `port` is the bonded port that it left by (R328). -/
structure MFrame where
  typ : MType
  dst : BitVec 16
  lseq : Word
  reqId : Word
  arg : Word
  payload : List Byte
  ack : Word := 0
  gen : BitVec 8 := 0
  credits : Nat := 0
  nak : Bool := false
  flagged : List Nat := []
  port : Nat := 0
  deriving DecidableEq, Repr, Inhabited

/-- A received message of the link sequence, without its header (R330). -/
inductive MMsg where
  | hello
  | writeReq (addr : Nat) (data : List Byte)
  | writeReply
  | readReq (addr : Nat) (ecc : List (Nat × Ecc) := [])
  | readReply (data : List Byte) (poisoned : List Nat)
  | arrive (t : Nat)
  | release (seq : Word) (t : Nat)
  | timeReq
  | timeResp (t2 t3 : Int)
  deriving DecidableEq, Repr, Inhabited

/-- A received frame that waits for those before it in LSEQ order (R328): its header, its message, the port it came by
and when. -/
structure MHeld where
  h : MHdr
  m : MMsg
  port : Nat
  at_ : Nat
  deriving DecidableEq, Repr, Inhabited

/-- Rows that a member's message has brought and whose writes are not all acknowledged: the plan's owner and the frame
whose counters they advance, where they start, the WRITE_REQ to answer, whether a write of them timed out (R218, R219,
R334). -/
structure Land where
  id : Nat
  owner : Word
  seq : Word
  rows : List Nat
  reply : Option (BitVec 16 × Word)
  bad : Bool := false
  deriving DecidableEq, Repr, Inhabited

/-- A link to a member: sequences, credits free at the receiver, credits to return, a NAK owed (R329, R331, R332), when a
frame last came (R336), whether the member has rejoined while this device ran (R340), frames that came ahead of their
turn (R328), whether HELLO has gone out on it (R337). -/
structure MLink where
  node : BitVec 16
  gen : BitVec 8
  txSeq : Word
  rxSeq : Word
  free : Nat
  owed : Nat
  nak : Bool
  unacked : List MFrame
  lastNs : Nat := 0
  fresh : Bool := false
  held : List MHeld := []
  greeted : Bool := false
  deriving DecidableEq, Repr, Inhabited

/-- A Mapin request (R333), the job it serves, whether it carries the end of a row, when it was sent, and the bytes of the
reply that are wanted. -/
structure MReq where
  id : Word
  dst : BitVec 16
  write : Bool
  addr : Nat
  token : Option Word
  rowEnd : Bool := false
  sentNs : Nat := 0
  len : Nat := 2048
  deriving DecidableEq, Repr, Inhabited

/-- A barrier in progress (R339 to R341); `idle` are members that do not run, beside those that this node has seen stop
(R340). -/
structure Barrier where
  id : Nat
  token : Word
  join : Bool
  seq : Word
  lead : Nat
  arrived : List (BitVec 16 × Nat)
  startNs : Nat := 0
  idle : List (BitVec 16) := []
  deriving DecidableEq, Repr, Inhabited

/-- The MAPIN block and its group (R328 to R343, R350). `waitQ` and `waitReqs` are frames, and the requests among them,
not yet sent; `early` are ARRIVE messages that came before this leader's own RUN_CTL, with their generation; `reissue` are
jobs of RUN_JOB to run again (R338); `turn` is the port whose turn it is to send (R328); `lands` are rows that have landed
and do not stand yet; `cut` says that this node was declared lost since its last barrier (R337, R338). -/
structure Mapin where
  nodeId : BitVec 16 := 0
  valid : Bool := false
  reqTimeout : Nat := 100000
  barTimeout : Nat := 1000000
  etherType : BitVec 16 := 0x88B5
  crc : Nat := 0
  lost : Nat := 0
  barFails : Nat := 0
  stale : Nat := 0
  timeouts : Nat := 0
  gen : BitVec 8 := 1
  links : List MLink := []
  reqs : List MReq := []
  waitQ : List MFrame := []
  barriers : List Barrier := []
  early : List (Nat × Bool × BitVec 16 × BitVec 8 × Nat) := []
  waitReqs : List MReq := []
  nextReq : Word := 0
  sent : Nat := 0
  replied : Nat := 0
  timedOut : Nat := 0
  everFormed : Bool := false
  reissue : List (Word × Job) := []
  turn : Nat := 0
  lands : List Land := []
  cut : Bool := false
  deriving DecidableEq, Repr, Inhabited

/-- A test pack (R385): PACK_ID, region, BODY_DIGEST, slice entries. -/
structure Pack where
  id : Word := 0
  addr : Nat := 0
  len : Nat := 0
  digest : Nat := 0
  slices : List (List Word) := []
  deriving DecidableEq, Repr, Inhabited

/-- A procedure of R376: the frame of the disagreement, suspects, who passed, who failed, the engines disputed as
mismatching. -/
structure Guilt where
  seq : Word
  suspects : List Nat
  passed : List Nat
  failed : List Nat
  mism : List Nat
  deriving DecidableEq, Repr, Inhabited

/-- A RUN_SELFTEST in progress (R382): engines passed, failed, and the slices each has still to run. -/
structure SelfTest where
  token : Word
  passed : List Nat
  failed : List Nat
  todo : List (Nat × Nat)
  deriving DecidableEq, Repr, Inhabited

/-- A record of the tile-record ring as Headland reads it: its index, token, layer, engine and CHECK (R91, R166). -/
structure TRec where
  idx : Nat
  token : Word
  layer : Nat
  eng : Nat
  check : Nat
  deriving DecidableEq, Repr, Inhabited

/-- The SAF block and the safety logic (R365 to R408, R532). `holds` is the HOLD history of the run, newest first.
`trecs` are the tile-record ring's records of the current frame, newest first, `lostRecs` the tokens of those of the
frame that the ring has overwritten (R376). -/
structure Safety where
  trust : Trust := .notArmed
  injDone : Bool := false
  injFail : Bool := false
  injMask : BitVec 17 := 0
  lease : Option Nat := none
  passes : Nat := 0
  holdRun : Nat := 0
  holdWin : Nat := 0
  holds : List Bool := []
  vIdx : Nat := 0
  vWraps : Nat := 0
  tIdx : Nat := 0
  tWraps : Nat := 0
  katPassed : Nat := 0
  katFailed : Nat := 0
  katDeferred : Nat := 0
  disagree : Nat := 0
  hlCe : Nat := 0
  sspLost : Nat := 0
  katSel : Nat := 0
  wCause : Nat := 0
  wSeq : Word := 0
  clamp : Bool := false
  pack : Pack := {}
  basePack : Pack := {}
  packNext : Option Pack := none
  packLoad : Option (Word × Nat × Nat) := none
  guilt : Option Guilt := none
  guiltDone : Option (Nat × Guilt) := none
  tests : List SelfTest := []
  trecs : List TRec := []
  lostRecs : List Word := []
  deriving DecidableEq, Repr, Inhabited

/-- A rule's result in the current frame (R362): its position, whether it is violated, its evidence words. -/
structure RuleRes where
  i : Nat
  violated : Bool
  words : List Word
  deriving DecidableEq, Repr, Inhabited

/-- Headland (R354 to R365): its memory, the mirror ring's pointers, the grid of the frame, evidence of this and of
the previous frame, rule results, whether the frame's record is written, and the last record. -/
structure Headland where
  stopped : Bool := false
  mem : Mem := []
  rd : Nat := 0
  wr : Nat := 0
  gap : Bool := false
  grid : List Nat := []
  evid : List (Option (List Byte)) := []
  prevEvid : List (Option (List Byte)) := []
  res : List RuleRes := []
  holdSeen : Bool := false
  written : Bool := true
  tested : List Nat := []
  lastSeq : Word := 0
  lastVerdict : Nat := 0
  newSet : Bool := true
  deriving DecidableEq, Repr, Inhabited

/-- A request the reset controller works on (R431): the domain asked for, the step in work, whether a hang or a
command or an escalation started it, the command's token, and when the step began. -/
structure Ladder where
  dom : Nat
  step : Nat
  byHang : Bool
  token : Option Word
  startNs : Nat := 0
  deriving DecidableEq, Repr, Inhabited

/-- An end or a skip that a stalled input of the completion collector has yet to commit (R421). -/
inductive EndWait where
  | job (token : Word) (o : JobEnd) (inp : Nat)
  | skip (i : Nat) (o : JobEnd)
  deriving DecidableEq, Repr, Inhabited

/-- The fault collector, the completion collector and the reset controller (R411 to R446). -/
structure FaultColl where
  fsw : BitVec 128 := 0
  pre : BitVec 128 := 0
  ceEvt : Bool := false
  hDomain : Nat := 0
  hCause : Nat := 0
  hUnnamed : Bool := false
  hSuspects : Nat := 0
  hReplay : Bool := false
  hCtx : Nat := 0
  hStep : Nat := 0
  hTok0 : Word := 0
  hTok1 : Word := 0
  hTok2 : Word := 0
  hJobs : List Job := []
  rDomain : Nat := 0
  rStep : Nat := 0
  rOrigin : Nat := 0
  rFailed : Bool := false
  warmCount : Nat := 0
  genSel : Nat := 0
  sets : Nat := 0
  resets : Nat := 0
  escal : Nat := 0
  cWr : Nat := 0
  cRd : Nat := 0
  cWraps : Nat := 0
  stall : Nat := 0
  hangs : Nat := 0
  replays : Nat := 0
  skid : List (Nat × CRec) := []
  waits : List EndWait := []
  deriving DecidableEq, Repr, Inhabited

/-- The reset controller's work and the stopped control pairs (R417, R431, R435, R438). -/
structure Resets where
  ladder : Option Ladder := none
  hangQ : List Nat := []
  pairA : Bool := false
  pairB : Bool := false
  liveToks : List Word := []
  deriving DecidableEq, Repr, Inhabited

/-- A packet a port has taken and whose command is in process (R456): opcode, flags, and the packet. -/
structure Taken where
  opcode : Nat
  flags : Nat
  pkt : Pkt
  deriving DecidableEq, Repr, Inhabited

/-- A command port (R447 to R460): packet-in words written so far, the packet taken, the reply buffer with its read
pointer, replies and events that wait, the last packet executed and its reply. `lost` are the words still to come on
port D of a packet that was dropped (R456). -/
structure PortSt where
  inBuf : List (Nat × Word) := []
  lost : Nat := 0
  taken : Option Taken := none
  placed : List Word := []
  rd : Nat := 0
  lastSeq : Option (BitVec 16) := none
  lastTag : BitVec 16 := 0
  lastReply : List Word := []
  evtSeq : BitVec 16 := 0
  annPend : Bool := false
  pend : BitVec 128 := 0
  deriving DecidableEq, Repr, Inhabited

/-- The CMD block, ports H, S and D, and the events of one port only (R368, R460, R469). `order` are the ports whose
packets are in process, in the order in which they took them, each with its cycle (R461). -/
structure CmdPorts where
  h : PortSt := {}
  s : PortSt := {}
  d : PortSt := {}
  order : List (Port × Nat) := []
  dropH : Nat := 0
  dropS : Nat := 0
  dropD : Nat := 0
  badCrc : Nat := 0
  seqErr : Nat := 0
  short : Nat := 0
  replayed : Nat := 0
  timeouts : Nat := 0
  lastOp : Nat := 0
  lastSt : Nat := 0
  lastTagH : BitVec 16 := 0
  lostEvt : List Word := []
  verdict : List Word := []
  tokens : List TokRec := []
  deriving DecidableEq, Repr, Inhabited

/-- The GLB block (R485). -/
structure Glb where
  scratch : Word := 0
  unassigned : Nat := 0
  narrow : Nat := 0
  inReset : Nat := 0
  errAddr : Nat := 0
  errWrite : Bool := false
  stallMax : Nat := 0
  deriving DecidableEq, Repr, Inhabited

/-- One MSI-X table entry (R489). -/
structure MsixEntry where
  addr : Word := 0
  uaddr : Word := 0
  data : Word := 0
  mask : Bool := true
  deriving DecidableEq, Repr, Inhabited

/-- The PCIE block and the function's configuration space (R470, R471, R488, R489, R526); `mps` and `mrrs` are the codes of
Max_Payload_Size and Max_Read_Request_Size. -/
structure Pcie where
  vendorId : Nat := 0x1F3E
  deviceId : Nat := 0x1620
  up : Bool := false
  speed : Nat := 0
  width : Nat := 0
  reversed : Bool := false
  perst : Bool := false
  apBase : Nat := 0x10_0000_0000
  apHeld : Nat := 0
  outside : Nat := 0
  badBase : Nat := 0
  aerCe : Nat := 0
  aerUc : Nat := 0
  ledgeDrop : Nat := 0
  protDrop : Nat := 0
  msix : List MsixEntry := List.replicate 16 {}
  pba : BitVec 16 := 0
  bar0 : Nat := 0
  bar2 : Nat := 0
  bar4 : Nat := 0
  busMaster : Bool := false
  msixEn : Bool := false
  d3hot : Bool := false
  mps : Nat := 0
  mrrs : Nat := 2
  l1 : Bool := false
  ecrcGen : Bool := false
  ecrcCheck : Bool := false
  deriving DecidableEq, Repr, Inhabited

/-- Fuses being programmed (R502, R504): the thermometer's new value, keys to revoke, a lifecycle target, owner slots
to write, the identity certificate, UDS read-disable. -/
structure FuseJob where
  svn : Nat := 0
  revoke : BitVec 4 := 0
  target : Option Lifecycle := none
  owner0 : Option Nat := none
  owner1 : Option Nat := none
  cert : List Byte := []
  retire : Bool := false
  deriving DecidableEq, Repr, Inhabited

/-- A firmware load in work (R494): token, region, the detail row it failed on (0: none), and whether its sections are
copied and its fuses asked for. -/
structure FwLoad where
  token : Word
  addr : Nat
  len : Nat
  row : Nat
  copied : Bool := false
  deriving DecidableEq, Repr, Inhabited

/-- A verified debug or lifecycle token that waits for its action (R506). -/
structure DbgToken where
  typ : Nat
  target : Nat
  portD : Bool
  bscan : Bool
  newOwner : Nat
  keyDigest : Nat
  cert : List Byte
  deriving DecidableEq, Repr, Inhabited

/-- The SEC block, fuses, keys, the TAP and TOKEN_DR (R494 to R515). `uds` is the fused secret and `udsDis` its read-disable
fuse (R503, R504, R508); `unlocked` that a debug token is in force (R507). -/
structure Security where
  lifecycle : Lifecycle := .field
  fwRunning : Bool := false
  dUnlock : Bool := false
  bUnlock : Bool := false
  unlocked : Bool := false
  uds : Option Nat := some 0
  udsDis : Bool := false
  keysReady : Bool := false
  erased : Bool := false
  fwVersion : Word := 0
  fwSvn : Nat := 0
  fwSvnMin : Nat := 0
  serial : BitVec 64 := 1
  nonce : List Word := List.replicate 8 0
  verified : Nat := 0
  failed : Nat := 0
  bar4 : Nat := 0
  tokFailed : Nat := 0
  revoked : BitVec 4 := 0
  owner0 : Option Nat := some 0
  owner1 : Option Nat := none
  tamper : BitVec 4 := 0
  fwRegion : Option (Nat × Nat) := none
  fwProt : List (Nat × Nat) := []
  fwDigest : Nat := 0
  load : Option FwLoad := none
  fuse : Option FuseJob := none
  minSvn : List Nat := [0, 0, 0, 0, 0, 0]
  idCert : List Byte := []
  aliasCert : List Byte := []
  aliasKey : Nat := 0
  tap : BitVec 8 := 0x02
  tokBuf : List Word := []
  tokStat : Nat := 0
  deriving DecidableEq, Repr, Inhabited

/-- The token the TAP has verified, and the reset that waits for fuse programming to end (R504, R513). -/
structure SecWork where
  tok : Option DbgToken := none
  resetAfter : Bool := false
  udsOff : Bool := false
  dr : BitVec 40 := 0xB162_0A3F
  deriving DecidableEq, Repr, Inhabited

/-- Output pins, monitored inputs and the clocks and latches of the electrical boundary (R369, R520 to R538). -/
structure Pins where
  safeA : Bool := false
  safeB : Bool := false
  ppsOut : Bool := false
  thermtrip : Bool := false
  flowLow : Bool := false
  hot : Bool := false
  refSys : Bool := true
  refEth : Bool := true
  clocksOff : Bool := false
  deriving DecidableEq, Repr, Inhabited

/-- A PTP message that is sent (R319). -/
inductive PtpSend where
  | sync
  | followUp (t1 : Int)
  | delayReq
  | delayResp (t4 : Int)
  | pdelayReq
  | pdelayResp (t2 : Int)
  | pdelayRespFollowUp (t3 : Int)
  deriving DecidableEq, Repr, Inhabited

/-- A PTP message with the domain, transport and sequence number of its header (R319, R320). -/
structure PtpSent where
  domain : Nat
  transport : Nat
  seq : Nat
  msg : PtpSend
  deriving DecidableEq, Repr, Inhabited

/-- What left the device: data of the last host read and its poisoned sectors, MSI-X vectors signalled, Mapin frames
put on the wire and their bytes by port, PTP messages sent and how many of them were event messages, upstream GPIO messages (port, GPIO number,
level), the last packet forwarded by a TX port, the last camera-control write. -/
structure Outputs where
  rdata : List Word := []
  rbytes : List Byte := []
  rpoison : Bool := false
  msix : List Nat := []
  mapin : List MFrame := []
  mapinWire : List (Nat × List Byte) := []
  ptp : Nat := 0
  ptpMsgs : List PtpSent := []
  gpio : List (Nat × Nat × Bool) := []
  forwarded : List Byte := []
  cci : List Byte := []
  deriving DecidableEq, Repr, Inhabited

/-- The machine. `pending` is the queue of waiting commands, first in, first out. `clk` counts CLK_ARR cycles and
`free` counts draws of free values: both are the model's own. -/
structure State where
  pending : List Instr := []
  part : Part := .a48
  boot : Boot := .held
  warm : Bool := false
  clk : Nat := 0
  free : Nat := 0
  tb : TimeBase := {}
  ts : TimeService := {}
  sch : Sched := {}
  sets : Sets := {}
  eng : List Engine := List.replicate 26 {}
  jobs : List Job := []
  mem : Mem := []
  poison : List Nat := []
  csramBad : List Nat := []
  ms : MemSys := {}
  cr : Credits := {}
  kv : Kv := {}
  sens : Sensors := {}
  map : Mapin := {}
  saf : Safety := {}
  hl : Headland := {}
  fc : FaultColl := {}
  rst : Resets := {}
  cmd : CmdPorts := {}
  glb : Glb := {}
  pcie : Pcie := {}
  sec : Security := {}
  secw : SecWork := {}
  pins : Pins := {}
  out : Outputs := {}
  deriving DecidableEq, Repr, Inhabited

/-- Why a step stops. No rule of the manual stops the block; see notes/assumptions. -/
inductive Fault where
  /-- Raised by no command: every bus access of the manual completes (R473, R477). Safe: never raised. -/
  | unreachable
  deriving DecidableEq, Repr

/-- Why a command has no meaning. -/
inductive Refusal where
  /-- Raised by an arm of `exec` for a row the model does not give a meaning. Safe: the machine stops. -/
  | notModelled (mnemonic : String)
  deriving DecidableEq, Repr

/-- The device right after power-on, before reset release: every field at its reset value (R519, R520). -/
def State.reset : State := {}

end Sys2Proof.Machine
end

