-- ==== Sys2Proof/Machine/Operands.lean ====
section
/-! DEFINITION. Operand forms: bit fields of words, little-endian words and bytes, tensor references (R59 to R67),
the descriptors' fields and the tensors they read and write. -/

namespace Sys2Proof.Machine

/-- Field [hi:lo] of a word (R5). -/
def bits (w : Word) (hi lo : Nat) : Nat := w.toNat / 2 ^ lo % 2 ^ (hi + 1 - lo)

/-- Bit `i` of a word. -/
def bit (w : Word) (i : Nat) : Bool := w.toNat / 2 ^ i % 2 == 1

/-- A flag as a number. -/
def b2n (b : Bool) : Nat := if b then 1 else 0

/-- Word `i` of a packed structure; a word beyond its end reads 0. -/
def wd (ws : List Word) (i : Nat) : Word := ws.getD i 0

/-- Field [hi:lo] of word `i`. -/
def fld (ws : List Word) (i hi lo : Nat) : Nat := bits (wd ws i) hi lo

/-- An address pair: low word first, high word in [15:0] (R466). -/
def pair48 (lo hi : Word) : Nat := lo.toNat + bits hi 15 0 * 2 ^ 32

/-- The two words of an address pair. -/
def addrLo (a : Nat) : Word := BitVec.ofNat 32 a
def addrHi (a : Nat) : Word := BitVec.ofNat 32 (a / 2 ^ 32)

/-- Four little-endian bytes of a word (R5). -/
def wordBytes (w : Word) : List Byte :=
  [w.extractLsb' 0 8, w.extractLsb' 8 8, w.extractLsb' 16 8, w.extractLsb' 24 8]

def wordsBytes (ws : List Word) : List Byte := ws.flatMap wordBytes

/-- A little-endian number from bytes. -/
def leNat : List Byte → Nat
  | [] => 0
  | b :: r => b.toNat + 256 * leNat r

/-- The words of a byte string, the last one zero-padded; fuelled by the number of words. -/
def bytesWordsAux : Nat → List Byte → List Word
  | 0, _ => []
  | n + 1, bs => BitVec.ofNat 32 (leNat (bs.take 4)) :: bytesWordsAux n (bs.drop 4)

def bytesWords (bs : List Byte) : List Word := bytesWordsAux ((bs.length + 3) / 4) bs

/-- The `n` low bytes of a number, little-endian. -/
def natBytes : Nat → Nat → List Byte
  | 0, _ => []
  | n + 1, v => BitVec.ofNat 8 v :: natBytes n (v / 256)

/-- A big-endian number from bytes (keys and digests, R497). -/
def beNat (bs : List Byte) : Nat := bs.foldl (fun a b => a * 256 + b.toNat) 0

/-- The `n` bytes of a number, big-endian. -/
def natBytesBE (n v : Nat) : List Byte := (natBytes n v).reverse

/-- A two's-complement number of `n` bits. -/
def sext (n v : Nat) : Int := if v % 2 ^ n < 2 ^ (n - 1) then Int.ofNat (v % 2 ^ n) else Int.ofNat (v % 2 ^ n) - 2 ^ n

/-- A word's signed value. -/
def sword (w : Word) : Int := w.toInt

/-- Replace entry `i` of a list; a list too short is unchanged. -/
def setAt {α : Type} : List α → Nat → α → List α
  | [], _, _ => []
  | _ :: r, 0, a => a :: r
  | x :: r, i + 1, a => x :: setAt r i a

/-- Change entry `i` of a list by a function. -/
def modAt {α : Type} : List α → Nat → (α → α) → List α
  | [], _, _ => []
  | x :: r, 0, f => f x :: r
  | x :: r, i + 1, f => x :: modAt r i f

/-- Add to a counter that saturates at `mx`. -/
def satAdd (mx n k : Nat) : Nat := min mx (n + k)

/-- The engine kind of an engine bit number (R26). -/
def engKind (e : Nat) : EngKind :=
  if e < 16 then .me else if e < 20 then .ve else if e < 22 then .ae
  else if e = 22 then .warp else if e = 23 then .crop else if e = 24 then .pcl else .sort

/-- Slice KIND codes (R385). -/
def kindCode : EngKind → Nat
  | .me => 0 | .ve => 1 | .ae => 2 | .warp => 3 | .crop => 4 | .pcl => 5 | .sort => 6

/-- The engines of a mask (R26), in bit order. -/
def maskEngs (m : Nat) : List Nat := (List.range 26).filter (fun e => m / 2 ^ e % 2 == 1)

def engsMask (l : List Nat) : Nat := (List.range 26).foldl (fun a e => if l.contains e then a + 2 ^ e else a) 0

-- Tensor references (R59)
def refBase (r : List Word) : Nat := pair48 (wd r 0) (wd r 1)
def refFmt (r : List Word) : Nat := fld r 1 19 16
def refLayout (r : List Word) : Nat := fld r 1 23 20
def refGroup (r : List Word) : Nat := fld r 1 25 24
def refScaleFp16 (r : List Word) : Bool := bit (wd r 1) 26
def refZpMode (r : List Word) : Nat := fld r 1 28 27
def refD0 (r : List Word) : Nat := fld r 2 15 0
def refD1 (r : List Word) : Nat := fld r 2 31 16
def refD2 (r : List Word) : Nat := fld r 3 15 0
def refD3 (r : List Word) : Nat := fld r 3 23 16
def refZp (r : List Word) : Nat := fld r 3 31 24
def refS1 (r : List Word) : Nat := (wd r 4).toNat
def refS2 (r : List Word) : Nat := (wd r 5).toNat
def refS3 (r : List Word) : Nat := (wd r 6).toNat
def refAux (r : List Word) : Nat := (wd r 7).toNat

/-- Rows of a tensor in the order of R67, d1 fastest. -/
def refRows (r : List Word) : Nat := refD1 r * refD2 r * refD3 r

/-- Elements of a tensor. -/
def refElems (r : List Word) : Nat := refD0 r * refRows r

/-- Byte address of row `i`, in the order of R67 (R60). -/
def refRowAddr (r : List Word) (i : Nat) : Nat :=
  refBase r + i % refD1 r * refS1 r + i / refD1 r % refD2 r * refS2 r + i / (refD1 r * refD2 r) * refS3 r

/-- Width in bits of a format (R103). -/
def fmtBits (f : Nat) : Nat := [4, 8, 8, 16, 32, 4, 6, 8, 8, 16, 16, 32].getD f 8

/-- Bytes of a packed row (R60, R63). -/
def rowBytes (r : List Word) : Nat :=
  let d := if refLayout r = 2 then refD0 r / 2 else refD0 r
  (d * fmtBits (refFmt r) + 7) / 8

/-- Bytes a tensor spans. -/
def refSpan (r : List Word) : Nat := max (max (refD3 r * refS3 r) (refD2 r * refS2 r)) (max (refD1 r * refS1 r) (rowBytes r))

/-- Row of a tensor that an address falls in (R60, R67). -/
def rowOf (t : List Word) (a : Nat) : Nat :=
  let o := a - refBase t
  let d3 := if refD3 t ≤ 1 then 0 else o / refS3 t
  let o := if refD3 t ≤ 1 then o else o % refS3 t
  let d2 := if refD2 t ≤ 1 then 0 else o / refS2 t
  let o := if refD2 t ≤ 1 then o else o % refS2 t
  let d1 := if refD1 t ≤ 1 then 0 else o / refS1 t
  (d3 * refD2 t + d2) * refD1 t + d1

/-- The tensor of a list that a reference lies in. -/
def tensorIn (ts : List (List Word)) (r : List Word) : Option (List Word) :=
  ts.find? (fun t => refBase t ≤ refBase r && refBase r < refBase t + refSpan t)

/-- The tensor reference at word `i` of a descriptor. -/
def dref (d : Desc) (i : Nat) : List Word := (d.words.drop i).take 8

-- Vector descriptors and convolution records (R132, R150)
def vdOp (d : Desc) : Nat := fld d.words 0 7 0
def vdP0 (d : Desc) : Word := wd d.words 1
def vdP1 (d : Desc) : Word := wd d.words 2
/-- The convolution record of a layer (R132). -/
def convOf (p : Plan) (layer : Nat) : List Word := (p.convs.find? (fun c => fld c 0 15 0 == layer)).getD []

-- Convolution record fields (R132)
def cvKind (c : List Word) : Nat := fld c 0 19 16
def cvPad (c : List Word) : Nat := fld c 0 23 20
def cvCount (c : List Word) : Bool := bit (wd c 0) 24
def cvHin (c : List Word) : Nat := fld c 1 15 0
def cvWin (c : List Word) : Nat := fld c 1 31 16
def cvKH (c : List Word) : Nat := fld c 2 3 0
def cvKW (c : List Word) : Nat := fld c 2 7 4
def cvSH (c : List Word) : Nat := fld c 2 11 8
def cvSW (c : List Word) : Nat := fld c 2 15 12
def cvDH (c : List Word) : Nat := fld c 2 19 16
def cvDW (c : List Word) : Nat := fld c 2 23 20
def cvPT (c : List Word) : Nat := fld c 3 7 0
def cvPB (c : List Word) : Nat := fld c 3 15 8
def cvPL (c : List Word) : Nat := fld c 3 23 16
def cvPR (c : List Word) : Nat := fld c 3 31 24
def cvHout (c : List Word) : Nat := fld c 4 15 0
def cvWout (c : List Word) : Nat := fld c 4 31 16
def cvCin (c : List Word) : Nat := fld c 5 15 0
def cvCout (c : List Word) : Nat := fld c 5 31 16
def cvIn (c : List Word) : List Word := (c.drop 8).take 8

/-- Row number of position (d1, d2, d3) of a reference (R67). -/
def rowIx (r : List Word) (x y w : Nat) : Nat := (w * refD2 r + y) * refD1 r + x

/-- Coordinates of row `i` (R67). -/
def rowX (r : List Word) (i : Nat) : Nat := i % refD1 r
def rowY (r : List Word) (i : Nat) : Nat := i / refD1 r % refD2 r
def rowW (r : List Word) (i : Nat) : Nat := i / (refD1 r * refD2 r)

/-- A padded position holds real data (R134). -/
def isReal (c : List Word) (px py : Nat) : Bool :=
  cvPL c ≤ px && px < cvPL c + cvWin c && cvPT c ≤ py && py < cvPT c + cvHin c

/-- The real coordinate that a padding coordinate takes (R134). -/
def padCoord (mode : Nat) (v : Int) (n : Nat) : Nat :=
  if mode = 3 then (max 0 (min v ((n : Int) - 1))).toNat
  else (if v < 0 then -v else if (n : Int) ≤ v then 2 * ((n : Int) - 1) - v else v).toNat

/-- LAYER_ID (R70, R150, R155, R158, R163, R189, R297). -/
def Desc.layer (d : Desc) : Nat := match d.kind with
  | .me => fld d.words 3 15 0
  | _ => fld d.words 0 31 16

/-- TILE_INDEX. -/
def Desc.tile (d : Desc) : Word := match d.kind with
  | .me | .crop | .sort | .pcl => wd d.words 6
  | .ve | .ae => wd d.words 5
  | .warp => wd d.words 2

/-- DUAL (R70, R150, R189). -/
def Desc.dual (d : Desc) : Bool := match d.kind with
  | .me => bit (wd d.words 0) 5
  | .ve => bit (wd d.words 0) 8
  | .ae => bit (wd d.words 0) 4
  | _ => false

/-- RPT (R154, R297). -/
def Desc.rpt (d : Desc) : Bool := match d.kind with
  | .warp | .crop | .pcl => bit (wd d.words 0) 0
  | .sort => bit (wd d.words 0) 4
  | _ => false

/-- LAST of a matrix task (R70). -/
def Desc.last (d : Desc) : Bool := bit (wd d.words 0) 8

/-- The tensors a descriptor writes. -/
def Desc.outs (d : Desc) : List (List Word) := match d.kind with
  | .me => if d.last then [dref d 24] else []
  | .ve => [dref d 24]
  | .warp => if bit (wd d.words 0) 6 then [dref d 24, dref d 32] else [dref d 24]
  | .crop => [dref d 16]
  | .sort => [dref d 32, dref d 40]
  | .pcl => [dref d 32, dref d 40]
  | .ae => match fld d.words 0 3 0 with
    | 1 | 2 => if bit (wd d.words 0) 8 then [dref d 24, dref d 32] else [dref d 24]
    | 3 | 4 => [dref d 48, dref d 56]
    | 6 => [dref d 32, dref d 40]
    | _ => []

/-- The tensors a descriptor reads. -/
def Desc.ins (d : Desc) : List (List Word) := match d.kind with
  | .me => [dref d 8, dref d 16]
  | .ve => if vdOp d = 7 then [] else if [1, 2, 3, 4, 6, 9].contains (vdOp d) then [dref d 8, dref d 16] else [dref d 8]
  | .warp => [dref d 8, dref d 16]
  | .crop => [dref d 8]
  | .sort => if fld d.words 0 3 0 = 2 then
      (if bit (wd d.words 0) 5 then [dref d 8, dref d 16, dref d 24] else [dref d 8, dref d 16]) else [dref d 8]
  | .pcl => []
  | .ae => match fld d.words 0 3 0 with
    | 1 => [dref d 16]
    | 2 => [dref d 16, dref d 40]
    | 3 | 4 => [dref d 16, dref d 24, dref d 32, dref d 40]
    | 5 | 6 => [dref d 16, dref d 24]
    | _ => []

/-- The tensors a descriptor of a plan reads and writes: PAD reads and writes the padded buffer of its record (R140). -/
def Desc.insIn (p : Plan) (d : Desc) : List (List Word) :=
  if d.kind == .ve && vdOp d == 7 then [cvIn (convOf p d.layer)] else d.ins
def Desc.outsIn (p : Plan) (d : Desc) : List (List Word) :=
  if d.kind == .ve && vdOp d == 7 then [cvIn (convOf p d.layer)] else d.outs

/-- The descriptor that carries a tile's layer fields (R72). -/
def Item.desc (i : Item) : Desc := i.ds.getLastD default

-- Tide Table (R23, R24)
def ttPeriod (t : TideTable) : Nat := (wd t.hdr 1).toNat
def ttOutCommit (t : TideTable) : Nat := fld t.hdr 2 26 0
def ttSlackStart (t : TideTable) : Nat := fld t.hdr 3 26 0
def teSClass (e : List Word) : Bool := bit (wd e 0) 10
def teMode (e : List Word) : Nat := fld e 0 12 11
def teCtx (e : List Word) : Nat := fld e 0 31 20
def teMask (e : List Word) : Nat := (wd e 1).toNat
def teRsv (e : List Word) : Nat := (wd e 2).toNat
def teStart (e : List Word) : Nat := fld e 3 26 0
def teRsvOpen (e : List Word) : Nat := fld e 4 26 0
def teDeadline (e : List Word) : Nat := fld e 5 26 0
def teBudget (e : List Word) : Nat := (wd e 6).toNat
def teLgFirst (e : List Word) : Nat := fld e 7 15 0
def teLgCount (e : List Word) : Nat := fld e 7 31 16
def teArr (e : List Word) : BitVec 64 := (wd e 9) ++ (wd e 8)

-- Stream entries (R271)
def stValid (e : List Word) : Bool := bit (wd e 0) 6
def stEth (e : List Word) : Bool := bit (wd e 0) 7
def stPort (e : List Word) : Nat := fld e 0 11 8
def stSlotNo (e : List Word) : Nat := fld e 0 12 12
def stIsp (e : List Word) : Bool := bit (wd e 0) 13
def stIspNo (e : List Word) : Nat := fld e 0 14 14
def stCtx (e : List Word) : Nat := fld e 0 18 15
def stArrival (e : List Word) : Nat := fld e 0 24 19
def stStamps (e : List Word) : Bool := bit (wd e 0) 25
def stTriggered (e : List Word) : Bool := bit (wd e 0) 26
def stNbuf (e : List Word) : Nat := fld e 0 29 27 + 1
def stTrig (e : List Word) : Nat := fld e 1 4 0
def stDt (e : List Word) : Nat := fld e 1 13 8
def stClose (e : List Word) : Nat := fld e 1 15 14
def stWidth (e : List Word) : Nat := fld e 2 15 0
def stLines (e : List Word) : Nat := fld e 2 31 16
def stCloseArg (e : List Word) : Word := wd e 3
def stBuf (e : List Word) : Nat := pair48 (wd e 4) (wd e 5)
def stStride (e : List Word) : Nat := (wd e 6).toNat

/-- Outcome codes (R35). -/
def JobEnd.code : JobEnd → Nat
  | .done => 0 | .aborted => 1 | .killedBudget => 2 | .killedDeadline => 3 | .killedPoison => 4
  | .killedUpstream => 5 | .killedReset => 6 | .skippedNoStart => 8 | .skippedUpstream => 9

/-- Status codes (R453). -/
def Status.code : Status → Nat
  | .ok => 0x00 | .busy => 0x01 | .badCrc => 0x02 | .badOpcode => 0x03 | .notPermitted => 0x04
  | .badParam => 0x05 | .sigFail => 0x06 | .notReady => 0x07 | .aborted => 0x08 | .alreadyDone => 0x09
  | .timeout => 0x0A | .poisoned => 0x0B | .noSpace => 0x0C | .wrongState => 0x0D | .accepted => 0x0E
  | .badShape => 0x0F | .peerLost => 0x10

/-- Run state codes (R16), trust codes (R370), slot codes (R38), lifecycle codes (R503), servo sources (R316). -/
def RunState.code : RunState → Nat
  | .idle => 0 | .armed => 1 | .running => 2 | .halted => 3
def Trust.code : Trust → Nat
  | .notArmed => 0 | .awaiting => 1 | .trusted => 2 | .withdrawn => 3
def SlotState.code : SlotState → Nat
  | .empty => 0 | .loading => 1 | .loaded => 2 | .verified => 3 | .committed => 4 | .active => 5 | .failed => 6
def Lifecycle.code : Lifecycle → Nat
  | .manufacture => 0 | .provisioned => 1 | .field => 2 | .retired => 3

end Sys2Proof.Machine
end

