-- ==== Sys2Proof/Machine/Flags.lean ====
section
/-! DEFINITION. Fault sources: their classes (R412), what sets and reads them, and the level sources' conditions. -/

namespace Sys2Proof.Machine

/-- Corrected sources (R409, R412). -/
def srcCE (n : Nat) : Bool :=
  (16 ≤ n && n ≤ 31) || (48 ≤ n && n ≤ 51) || n == 56 || n == 57 || n == 60 || n == 61 || (64 ≤ n && n ≤ 67)
  || n == 72 || n == 74 || n == 76 || n == 78 || n == 84 || n == 93 || n == 96 || n == 98 || n == 100 || n == 112

/-- Fatal sources (R409, R412). -/
def srcFA (n : Nat) : Bool :=
  n == 79 || n == 82 || (88 ≤ n && n ≤ 92) || n == 94 || n == 106 || n == 107 || n == 109 || n == 120 || n == 122

/-- Reserved bits (R412). -/
def srcReserved (n : Nat) : Bool :=
  n == 80 || n == 81 || (85 ≤ n && n ≤ 87) || n == 102 || n == 103 || n == 110 || n == 111
  || (116 ≤ n && n ≤ 119) || (123 ≤ n && n ≤ 127)

/-- Uncorrected, contained sources (R409, R412). -/
def srcUC (n : Nat) : Bool := n < 128 && !srcCE n && !srcFA n && !srcReserved n

/-- Sources that CLEAR_FAULTS on port S may clear (R412). -/
def srcPortS (n : Nat) : Bool := n == 93 || (srcUC n && n != 101 && n != 121)

/-- A set of sources as a mask of 128 bits, from a predicate. -/
def srcMask (p : Nat → Bool) : BitVec 128 :=
  BitVec.ofNat 128 ((List.range 128).foldl (fun a n => if p n then a + 2 ^ n else a) 0)

def maskCE : BitVec 128 := srcMask srcCE
def maskFA : BitVec 128 := srcMask srcFA
def maskUC : BitVec 128 := srcMask srcUC
def maskReserved : BitVec 128 := srcMask srcReserved
def maskPortS : BitVec 128 := srcMask srcPortS

/-- One source as a mask. -/
def srcBit (n : Nat) : BitVec 128 := BitVec.ofNat 128 (2 ^ n)

def hasSrc (s : State) (n : Nat) : Bool := s.fc.fsw.getLsbD n

/-- Some fatal source is set. -/
def anyFA (s : State) : Bool := (s.fc.fsw &&& maskFA) != 0

/-- A source's condition occurs: its bit sets on the first occurrence (R411), and the transition joins the pending
masks of ports H and S (R416). The reaction to a fatal source is `settle`'s. -/
def setSrc (s : State) (n : Nat) : State :=
  if hasSrc s n || srcReserved n || 128 ≤ n then s else
  { s with
    fc := { s.fc with fsw := s.fc.fsw ||| srcBit n, sets := satAdd 0xFFFF s.fc.sets 1 }
    cmd := { s.cmd with
      h := { s.cmd.h with pend := if srcCE n && !s.fc.ceEvt then s.cmd.h.pend else s.cmd.h.pend ||| srcBit n }
      s := { s.cmd.s with pend := if srcFA n then s.cmd.s.pend ||| srcBit n else s.cmd.s.pend } } }

def setSrcs (s : State) (l : List Nat) : State := l.foldl setSrc s

/-- The k-th word of a 128-bit mask. -/
def maskWord (m : BitVec 128) (k : Nat) : Word := m.extractLsb' (32 * k) 32

def maskWords (m : BitVec 128) : List Word := [maskWord m 0, maskWord m 1, maskWord m 2, maskWord m 3]

/-- FC.SUMMARY (R438). -/
def fcSummary (s : State) : Nat :=
  b2n ((s.fc.fsw &&& maskCE) != 0) + 2 * b2n ((s.fc.fsw &&& maskUC) != 0) + 4 * b2n (anyFA s)
  + 8 * b2n s.rst.pairA + 16 * b2n s.rst.pairB + 32 * b2n s.hl.stopped + 64 * b2n s.rst.ladder.isSome

/-- FC.HANG_INFO (R440). -/
def hangInfo (s : State) : Nat :=
  s.fc.hDomain % 64 + 64 * (s.fc.hCause % 4) + 256 * b2n s.fc.hUnnamed + 512 * (s.fc.hSuspects % 4)
  + 2048 * b2n s.fc.hReplay + 4096 * (s.fc.hCtx % 4096) + 2 ^ 24 * (s.fc.hStep % 4)

/-- The thirteen words of READ_FAULTS (R413). -/
def faultWords (s : State) : List Word :=
  maskWords s.fc.fsw ++ maskWords s.fc.pre ++
    [BitVec.ofNat 32 (fcSummary s), BitVec.ofNat 32 (hangInfo s), s.fc.hTok0, s.fc.hTok1, s.fc.hTok2]

/-- The slots by number, and the active set's slot when there is one (R38). -/
def slotOf (s : State) (b : Bool) : Slot := if b then s.sets.slot1 else s.sets.slot0
def setSlot (s : State) (b : Bool) (x : Slot) : State :=
  if b then { s with sets := { s.sets with slot1 := x } } else { s with sets := { s.sets with slot0 := x } }
def hasActive (s : State) : Bool := (slotOf s s.sets.activeSlot).st == .active
def activeSet (s : State) : Slot := if hasActive s then slotOf s s.sets.activeSlot else {}

/-- Port entry `p` of the active set's port section (R282): MODE [1:0], 0 OFF, 1 RX, 2 TX. -/
def spMode (s : State) (p : Nat) : Nat := fld ((activeSet s).sensor.ports.getD p []) 0 1 0

/-- The condition of a level source (R412, R414, R318, R537, R538). -/
def levelCond (s : State) (n : Nat) : Bool :=
  if n == 93 then s.pins.hot
  else if n == 95 then s.pins.flowLow
  else if n == 97 then (List.range 16).any (fun p =>
    let x := s.sens.sp.getD p {}
    (spMode s p == 1 || spMode s p == 2) && x.seen && !x.up)
  else if n == 99 then hasActive s && s.sens.eth.any (fun x => x.seen && !x.up)
  else if n == 115 then s.tb.lockLost
  else false

/-- Level sources whose condition holds set, once start-up injection has ended (R414). -/
def levelSources (s : State) : State :=
  if s.saf.injDone then
    [93, 95, 97, 99, 115].foldl (fun s n => if levelCond s n then setSrc s n else s) s
  else s

end Sys2Proof.Machine
end

