-- ==== Sys2Proof/Machine/Store.lean ====
section
/-! DEFINITION. The stores and the clock: memory and poison, CRC-32C, the passage of time, the engines by number (R5,
R211, R225 to R236, R311, R451). -/

namespace Sys2Proof.Machine

/-- What every meaning answers. -/
abbrev Out := Host.Outcome State Fault Refusal

-- Memory

/-- One byte; an unlisted address reads 0 (R236). -/
def Mem.get : Mem → Nat → Byte
  | [], _ => 0
  | (k, v) :: r, a => if a = k then v else Mem.get r a

/-- Write one byte and keep the canonical form. -/
def Mem.set : Mem → Nat → Byte → Mem
  | [], a, v => if v = 0 then [] else [(a, v)]
  | (k, w) :: r, a, v =>
    if a < k then (if v = 0 then (k, w) :: r else (a, v) :: (k, w) :: r)
    else if a = k then (if v = 0 then r else (a, v) :: r)
    else (k, w) :: Mem.set r a v

/-- The canonical form: addresses strictly rising, no entry 0. -/
def Mem.wf : Mem → Bool
  | [] => true
  | (_, v) :: [] => v != 0
  | (k, v) :: (k', v') :: r => v != 0 && k < k' && Mem.wf ((k', v') :: r)

/-- `n` bytes from an address. -/
def Mem.read (m : Mem) (a : Nat) : Nat → List Byte
  | 0 => []
  | n + 1 => m.get a :: Mem.read m (a + 1) n

/-- Bytes from an address on. -/
def Mem.write : Mem → Nat → List Byte → Mem
  | m, _, [] => m
  | m, a, b :: r => Mem.write (m.set a b) (a + 1) r

/-- Words at an address. -/
def Mem.words (m : Mem) (a : Nat) : Nat → List Word
  | 0 => []
  | n + 1 => BitVec.ofNat 32 (leNat (m.read a 4)) :: Mem.words m (a + 4) n

-- The address map (R1, R211)
def isCove (a : Nat) : Bool := a < 0x0400_0000
def isLedge (a : Nat) : Bool := 0x0400_0000 ≤ a && a < 0x0600_0000
def isCsram (a : Nat) : Bool := 0x0800_0000 ≤ a && a < 0x0840_0000
def dramBase : Nat := 0x10_0000_0000
/-- Bytes of usable DRAM (R1). -/
def dramBytes : Part → Nat
  | .a48 => 0xB_4000_0000
  | .a96 => 0x16_8000_0000
def dramEnd (s : State) : Nat := dramBase + dramBytes s.part
def isDram (s : State) (a : Nat) : Bool := dramBase ≤ a && a < dramEnd s

/-- A region lies in usable DRAM (R1, R466). -/
def inDram (s : State) (a n : Nat) : Bool := dramBase ≤ a && a + n ≤ dramEnd s

/-- Two regions share a byte. -/
def overlaps (a n b m : Nat) : Bool := decide (0 < n) && decide (0 < m) && decide (a < b + m) && decide (b < a + n)

/-- Size of the poison unit at an address: a 32-byte sector of Cove or a Ledge, a 64-byte line of DRAM (R211, R225). -/
def unitSize (a : Nat) : Nat := if a < 0x0600_0000 then 32 else 64
def unitBase (a : Nat) : Nat := a / unitSize a * unitSize a

/-- Bases of the poison units that `n` bytes at `a` touch. -/
def unitsOf (a n : Nat) : List Nat :=
  if n = 0 then [] else
  let u := unitSize a
  (List.range ((a + n - 1) / u + 1 - a / u)).map (fun i => (a / u + i) * u)

/-- Some unit that `n` bytes at `a` touch is poisoned, or a byte of CSRAM is uncorrectable (R229, R233). -/
def poisoned (s : State) (a n : Nat) : Bool :=
  if isCsram a then s.csramBad.any (fun b => a ≤ b && b < a + n)
  else s.poison.any (fun b => overlaps b (unitSize b) a n)

/-- Poison a unit. -/
def addPoison (s : State) (u : Nat) : State :=
  if s.poison.contains u then s else { s with poison := u :: s.poison }

/-- Poison a unit as it is written, counting sectors of Cove and lines of DRAM (R225, R231). -/
def markUnit (s : State) (u : Nat) : State :=
  let s := addPoison s u
  if isCove u then { s with ms := { s.ms with secWrite := satAdd 0xFFFF s.ms.secWrite 1 } }
  else if isDram s u then { s with ms := { s.ms with markWrite := satAdd 0xFFFF s.ms.markWrite 1 } }
  else s

/-- A write of bytes: units wholly overwritten become clean, units partly overwritten keep their poison (R234); a
CSRAM byte written is good again (R229). -/
def store (s : State) (a : Nat) (bs : List Byte) : State :=
  { s with
    mem := s.mem.write a bs
    poison := s.poison.filter (fun u => !(decide (a ≤ u) && decide (u + unitSize u ≤ a + bs.length)))
    csramBad := s.csramBad.filter (fun b => !(decide (a ≤ b) && decide (b < a + bs.length))) }

/-- A write of poisoned data: the bytes are stored and every unit touched is poisoned (R231); in CSRAM nothing holds
the poison. -/
def storePoisoned (s : State) (a : Nat) (bs : List Byte) : State :=
  let s1 := store s a bs
  if isCsram a then s1 else (unitsOf a bs.length).foldl markUnit s1

def storeWords (s : State) (a : Nat) (ws : List Word) : State := store s a (wordsBytes ws)

-- CRC-32C (R451)
def crcStep : Nat → Nat → Nat
  | 0, c => c
  | n + 1, c => crcStep n (if c % 2 = 1 then Nat.xor (c / 2) 0x82F6_3B78 else c / 2)

def crcByte (c : Nat) (b : Byte) : Nat := crcStep 8 (Nat.xor c b.toNat)

/-- CRC-32C, reflected, initial value and final XOR 0xFFFF_FFFF (R451). -/
def crc32c (bs : List Byte) : Word := BitVec.ofNat 32 (Nat.xor (bs.foldl crcByte 0xFFFF_FFFF) 0xFFFF_FFFF)

def crcWords (ws : List Word) : Word := crc32c (wordsBytes ws)

-- Time

/-- The time base as one count of nanoseconds (R311). -/
def now (s : State) : Nat := s.tb.sec * 1000000000 + s.tb.ns

/-- An event due at time-base instant `t`: the time base, if it lags, stands at `t` with no fraction, and the cycle
count advances by the cycle edges that lie between. -/
def advanceTo (s : State) (t : Nat) : State :=
  if t ≤ now s then s else
  { s with
    clk := s.clk + (t / 4 - now s / 4)
    tb := { s.tb with sec := t / 1000000000 % 2 ^ 48, ns := t % 1000000000, frac := 0 } }

/-- The current frame's instants (R17). -/
def frameNs (s : State) : Nat := now s - s.sch.t
def tide (s : State) : TideTable := (activeSet s).tide

-- Engines

def engOf (s : State) (e : Nat) : Engine := s.eng.getD e {}
def modEng (s : State) (e : Nat) (f : Engine → Engine) : State := { s with eng := modAt s.eng e f }

/-- Engines with a property, as a mask (R26). -/
def engMask (s : State) (p : Engine → Bool) : Nat := engsMask ((List.range 26).filter (fun e => p (engOf s e)))

def quarMask (s : State) : Nat := engMask s (fun x => x.quar)
def wdrMask (s : State) : Nat := engMask s (fun x => x.wdr)

end Sys2Proof.Machine
end

