-- ==== Sys2Proof/Machine/Credits.lean ====
section
/-! DEFINITION. The stores' places and check bits, the fabric's source ports, credits and requests, what a read of a
store finds, and the transfers of the stream units (R211, R212, R216, R217, R219 to R226, R229 to R231, R241). -/

namespace Sys2Proof.Machine

-- Places (R212, R223, R224)

/-- Cove bank of an address, and the offset within it from bits [25:13] and [7:0] (R212). -/
def coveBank (a : Nat) : Nat := Nat.xor (a / 2 ^ 8) (a / 2 ^ 13) % 32
def coveOffset (a : Nat) : Nat := a / 2 ^ 13 % 2 ^ 13 * 2 ^ 8 + a % 2 ^ 8

/-- DRAM channel of an address, the offset within it, and the address of an offset (R223). -/
def dramChan (a : Nat) : Nat := (a - dramBase) / 2048 % 24
def dramOffset (a : Nat) : Nat := (a - dramBase) / 2048 / 24 * 2048 + (a - dramBase) % 2048
def dramAddr (ch off : Nat) : Nat := dramBase + (off / 2048 * 24 + ch) * 2048 + off % 2048

/-- Raw line of data line `l` of a channel, the check line of its group, and the place of its check bytes there
(R224). -/
def rawLine (l : Nat) : Nat := 16 * (l / 15) + l % 15
def checkLineOf (l : Nat) : Nat := 16 * (l / 15) + 15
def checkPlace (l : Nat) : Nat := 4 * (l % 15)

/-- The poison mark: what the check bytes of a marked line differ by from the right ones (R225). -/
def poisonMark : Word := 0x9D26_4BF1

/-- The check bytes that stand with the DRAM line at `a` (R225). -/
def lineCheck (s : State) (a : Nat) : Word :=
  Config.rsCheck (s.mem.read a 64) ^^^ (if s.poison.contains a then poisonMark else 0)

/-- A byte of a channel's raw array: data lines, and check lines whose bytes 60 to 63 are 0 (R224). -/
def rawByte (s : State) (ch raw : Nat) : Byte :=
  let r := raw / 64
  let k := raw % 64
  if r % 16 = 15 then
    (if 60 ≤ k then 0 else (wordBytes (lineCheck s (dramAddr ch ((r / 16 * 15 + k / 4) * 64)))).getD (k % 4) 0)
  else s.mem.get (dramAddr ch ((r / 16 * 15 + r % 16) * 64 + k))

/-- Check bits of the 256-bit word at `a` of Cove or a Ledge, and of a byte of CSRAM (R211). -/
def wordCheck (s : State) (a : Nat) : BitVec 10 := Config.secded256 (s.mem.read a 32)
def byteCheck (s : State) (a : Nat) : BitVec 5 :=
  if s.csramBad.contains a then Config.secdedBad a else Config.secded8 (s.mem.get a)

/-- An access to DRAM brings the check line of its group into its channel's cache of 64 (R224); the one longest unused
leaves. -/
def touchCheck (s : State) (a : Nat) : State :=
  if !isDram s a then s else
  let c := dramChan a
  let l := checkLineOf (dramOffset a / 64)
  let old := (s.ms.chkCache.find? (fun x => x.1 == c)).elim [] (fun x => x.2)
  { s with ms := { s.ms with
      chkCache := (c, (l :: old.filter (fun x => x != l)).take 64) :: s.ms.chkCache.filter (fun x => x.1 != c) } }

-- Source ports and pools (R216, R220)

/-- Source ports beyond the engines and ISPs (R216). -/
def srcIngress : Nat := 28
def srcPcie : Nat := 29
def srcPairA : Nat := 30
def srcPairB : Nat := 31
def srcScrub : Nat := 32

/-- Bytes that a source port reads and writes in a CLK_FAB cycle (R216). -/
def portWidth (src : Nat) : Nat × Nat :=
  if src < 16 then (128, 64) else if src < 28 then (64, 64) else if src = 28 then (0, 64)
  else if src = 32 then (0, 32) else (32, 32)

/-- The pool that a request to an address draws on (R212, R220, R223). -/
def destPool (s : State) (a : Nat) : PoolKind × Nat :=
  if isCove a then (.cove, coveBank a)
  else if isLedge a then (.ledge, (a - 0x0400_0000) / 0x20_0000)
  else if isDram s a then (.dram, dramChan a)
  else (.csram, 0)

/-- Engine whose Ledge holds an address. -/
def ledgeOf (a : Nat) : Nat := (a - 0x0400_0000) / 0x20_0000

/-- The ring links from Ledge `h` to matrix engine `n` (R252). -/
def ringLinks (h n : Nat) : List Nat := (List.range ((n + 16 - h % 16) % 16)).map (fun k => (h + k) % 16)

/-- The links that a source port's read of an address passes. -/
def reqLinks (src a : Nat) : List Nat := if src < 16 && isLedge a then ringLinks (ledgeOf a) src else []

/-- Credits of a pool (R220). -/
def poolCap : PoolKind → Nat
  | .cove => 4 | .ledge => 4 | .dram => 16 | .csram => 4 | .ring => 8 | .stream => 6

/-- Generation tag of a source domain (R430). -/
def domGen (s : State) (src : Nat) : Nat :=
  if src < 26 then (engOf s src).gen else if src < 28 then (s.sens.isp.getD (src - 26) {}).gen else 0

def isPool (src : Nat) (k : PoolKind) (i : Nat) (p : Pool) : Bool := p.src == src && p.kind == k && p.idx == i

/-- Change a pool, made on first use. -/
def modPool (s : State) (src : Nat) (k : PoolKind) (i : Nat) (f : Pool → Pool) : State :=
  let ps := s.cr.pools
  let ps := if ps.any (isPool src k i) then ps else
    ps ++ [{ src := src, kind := k, idx := i, iss0 := 0, ret0 := 0, iss1 := 0, ret1 := 0 }]
  { s with cr := { s.cr with pools := ps.map (fun p => if isPool src k i p then f p else p) } }

/-- A pool has a credit free (R220). -/
def poolFree (s : State) (src : Nat) (k : PoolKind) (i : Nat) : Bool :=
  match s.cr.pools.find? (isPool src k i) with
  | some p => decide ((p.iss0 - p.ret0) + (p.iss1 - p.ret1) < poolCap k)
  | none => true

/-- A credit is issued in the present epoch (R220, R221). -/
def takeCredit (s : State) (src : Nat) (k : PoolKind) (i : Nat) : State :=
  modPool s src k i (fun p => if s.ms.epoch then { p with iss1 := p.iss1 + 1 } else { p with iss0 := p.iss0 + 1 })

/-- A credit conservation violation (R45, R46). DESIGN CHOICE (log 41): it sets the bit and the source also while
the promise is void (R48, R52). -/
def creditViolation (s : State) : State := setSrc { s with sch := { s.sch with consCredit := true } } 82

/-- A pool has a credit of an epoch outstanding (R221). -/
def owes (ep : Bool) (p : Pool) : Bool := if ep then decide (p.ret1 < p.iss1) else decide (p.ret0 < p.iss0)

/-- A credit returns to its pool in its epoch; with none outstanding there it is a violation (R221). -/
def giveOne (s : State) (src : Nat) (k : PoolKind) (i : Nat) (ep : Bool) : State :=
  let ps := s.cr.pools.filter (isPool src k i)
  if !ps.isEmpty && ps.all (owes ep) then modPool s src k i
    (fun p => if ep then { p with ret1 := p.ret1 + 1 } else { p with ret0 := p.ret0 + 1 })
  else creditViolation s

/-- A request's credits return: its destination's, and one for each ring link it passed (R220, R252). -/
def giveCredit (s : State) (r : Req) : State :=
  r.links.foldl (fun s l => giveOne s l .ring l r.epoch) (giveOne s r.src r.kind r.idx r.epoch)

/-- A request to an address could take its credits now (R220, R252). -/
def mayIssue (s : State) (src a : Nat) : Bool :=
  poolFree s src (destPool s a).1 (destPool s a).2 && (reqLinks src a).all (fun l => poolFree s l .ring l)

/-- A request is issued with its credits, its domain's tag and its level (R217, R220, R430). -/
def issueReq (s : State) (src : Nat) (write : Bool) (a len level : Nat) (u : ReqUse) : State :=
  let p := destPool s a
  let ls := reqLinks src a
  let r : Req :=
    { id := s.ms.nextReq, src := src, kind := p.1, idx := p.2, write := write, addr := a, len := len
      epoch := s.ms.epoch, gen := domGen s src, purpose := u, links := ls, level := level }
  let s := touchCheck (ls.foldl (fun s l => takeCredit s l .ring l) (takeCredit s src p.1 p.2)) a
  { s with ms := { s.ms with reqs := s.ms.reqs ++ [r], nextReq := s.ms.nextReq + 1 } }

/-- The length of the piece that starts at `a`, of `n` bytes, and ends at a multiple of `u`. -/
def cutLen (u a n : Nat) : Nat := min n (u - a % u)

/-- `n` bytes at `a` cut at multiples of `u`; fuelled by the bytes. -/
def cutsOf (u : Nat) : Nat → Nat → Nat → List (Nat × Nat)
  | 0, _, _ => []
  | f + 1, a, n => if n = 0 then [] else (a, cutLen u a n) :: cutsOf u f (a + cutLen u a n) (n - cutLen u a n)

/-- The length of the request of at most 64 bytes that starts at `a`, of `n` bytes, and the requests that they make (R216). -/
def reqLen (a n : Nat) : Nat := cutLen 64 a n
def reqsOf (a n : Nat) : List (Nat × Nat) := cutsOf 64 n a n

/-- The 32-byte sectors of `n` bytes at `a`, each with a poison flag of its own on the fabric (R231). -/
def sectorsOf (a n : Nat) : List (Nat × Nat) := cutsOf 32 n a n

/-- An access of a port that waits for nothing else here takes its credit and returns it (R216, R220). -/
def passReq (s : State) (src a : Nat) : State :=
  let p := destPool s a
  touchCheck (giveOne (takeCredit s src p.1 p.2) src p.1 p.2 s.ms.epoch) a

/-- Such accesses to `n` bytes. -/
def passReqs (s : State) (src a n : Nat) : State := (reqsOf a n).foldl (fun s x => passReq s src x.1) s

/-- Port writes that wait are issued, oldest first, where their credits are free. DESIGN CHOICE (log 44): one that can be
issued does not wait behind one that cannot. -/
def pumpPorts (s : State) : State :=
  s.ms.portQ.foldl (fun s r =>
    if mayIssue s r.src r.addr then
      issueReq { s with ms := { s.ms with portQ := s.ms.portQ.erase r } } r.src true r.addr r.len 3 r.purpose
    else s) s

/-- A port writes `n` bytes at `a`, in requests of at most 64 bytes that wait for their credits (R216, R217, R220). -/
def portWrite (s : State) (src a n : Nat) (u : ReqUse) : State :=
  pumpPorts { s with ms := { s.ms with portQ := s.ms.portQ ++ (reqsOf a n).map (fun x => PortReq.mk src x.1 x.2 u) } }

/-- Some write that serves `u` waits or is outstanding (R218). -/
def portOut (s : State) (u : ReqUse) : Bool :=
  s.ms.reqs.any (fun r => r.purpose == u) || s.ms.portQ.any (fun r => r.purpose == u)

-- What a read finds

/-- Count a matrix engine's corrected or uncorrected errors (R100). -/
def bumpCe (s : State) (e : Nat) : State := modEng s e (fun x => { x with ce := satAdd 0xFFFF x.ce 1 })
def bumpUc (s : State) (e : Nat) : State := modEng s e (fun x => { x with uc := satAdd 0xFFFF x.uc 1 })

/-- A poisoned unit is read: a marked line of DRAM or a poisoned sector of Cove is counted (R225, R268). -/
def countPoisonRead (s : State) (a : Nat) : State :=
  if !s.poison.contains (unitBase a) then s
  else if isDram s a then { s with ms := { s.ms with markRead := satAdd 0xFFFF s.ms.markRead 1 } }
  else if isCove a then { s with ms := { s.ms with secRead := satAdd 0xFFFF s.ms.secRead 1 } }
  else s

/-- What a read of the unit at `a` comes to (R225, R226, R229, R230); a time-out is its request's (R219). -/
def eccRead (s : State) (a : Nat) (ecc : Ecc) : State :=
  let d := isDram s a
  let ms := s.ms
  match ecc with
  | .asStored | .timedOut => countPoisonRead s a
  | .corrected =>
    if d then setSrc { s with ms := { ms with eccCe := satAdd 0xFFFF ms.eccCe 1 } } 76
    else if isCove a then setSrc { s with ms := { ms with coveCe := satAdd 0xFFFF ms.coveCe 1 } } 72
    else if isLedge a then setSrc (bumpCe s (ledgeOf a)) (16 + ledgeOf a)
    else if isCsram a then setSrc { s with ms := { ms with csCe := satAdd 0xFFFF ms.csCe 1 } } 74
    else s
  | .uncorrectable =>
    if d then
      setSrc (addPoison { s with ms := { ms with
        eccUc := satAdd 0xFFFF ms.eccUc 1, markWrite := satAdd 0xFFFF ms.markWrite 1
        chUc := ms.chUc ||| BitVec.ofNat 24 (2 ^ dramChan a) } } (unitBase a)) 77
    else if isCove a then setSrc (addPoison { s with ms := { ms with coveUc := satAdd 0xFFFF ms.coveUc 1 } } (unitBase a)) 73
    else if isLedge a then setSrc (addPoison (bumpUc s (ledgeOf a)) (unitBase a)) (32 + ledgeOf a)
    else if isCsram a then
      setSrc { s with ms := { ms with csUc := satAdd 0xFFFF ms.csUc 1 }
                      csramBad := if s.csramBad.contains a then s.csramBad else a :: s.csramBad } 75
    else s
  | .linkCorrected => countPoisonRead (if d then { s with ms := { ms with linkCorr := satAdd 0xFFFF ms.linkCorr 1 } } else s) a
  | .linkRetried n =>
    countPoisonRead (if d && 1 ≤ n && n ≤ 2 then
      setSrc { s with ms := { ms with linkRetry := satAdd 0xFFFF ms.linkRetry n } } 78 else s) a
  | .linkFailed =>
    if d then setSrc (setSrc { s with ms := { ms with linkRetry := satAdd 0xFFFF ms.linkRetry 2 } } 78) 77 else s

/-- The protection units of `n` bytes at `a`: bytes of CSRAM, sectors, lines (R229, R238). -/
def protOf (a n : Nat) : List Nat := if isCsram a then (List.range n).map (a + ·) else unitsOf a n

/-- The outcome of a unit's read, given by its place among some units, or by its address; as it is stored where none is
given. -/
def eccAt (us : List Nat) (ecc : List Ecc) (u : Nat) : Ecc :=
  match us.findIdx? (fun v => v == u) with
  | some i => ecc.getD i .asStored
  | none => .asStored

def eccFor (ecc : List (Nat × Ecc)) (u : Nat) : Ecc :=
  match ecc.find? (fun x => x.1 == u) with
  | some x => x.2
  | none => .asStored

/-- The protection units of `n` bytes at `a` are read with the outcomes `o`; an uncorrectable CSRAM byte is detected again
at each read (R225, R229, R233). -/
def readUnits (s : State) (a n : Nat) (o : Nat → Ecc) : State :=
  (protOf a n).foldl (fun s u => eccRead s u (if s.csramBad.contains u then .uncorrectable else o u)) s

/-- A request to `n` bytes at `a` times out: so does each of its units (R219). -/
def reqTimed (o : Nat → Ecc) (a n : Nat) : Bool := (protOf a n).any (fun u => o u == .timedOut)

/-- Units whose data does not come though the store holds it: the read's request times out, or its third try on the DRAM
link fails (R219, R226). -/
def lostUnits (s : State) (a n : Nat) (o : Nat → Ecc) : List Nat :=
  (reqsOf a n).flatMap (fun x => (protOf x.1 x.2).filter (fun u =>
    reqTimed o x.1 x.2 || (o u == .linkFailed && isDram s u)))

/-- Some of `n` bytes at `a` come with poison: they are stored so, or lie in a unit that is lost. -/
def badAt (s : State) (lost : List Nat) (a n : Nat) : Bool :=
  poisoned s a n || lost.any (fun u => overlaps u (if isCsram u then 1 else unitSize u) a n)

/-- A request of a port times out: it is counted, and its response will come late (R219). -/
def passTimeout (s : State) (src : Nat) (write : Bool) (a n : Nat) : State :=
  let p := destPool s a
  let r : Req :=
    { id := s.ms.nextReq, src := src, kind := p.1, idx := p.2, write := write, addr := a, len := n, epoch := s.ms.epoch
      gen := domGen s src, purpose := .passed }
  setSrc { s with ms := { s.ms with timeouts := satAdd 0xFFFF s.ms.timeouts 1, nextReq := s.ms.nextReq + 1 }
                  cr := { s.cr with timedOut := s.cr.timedOut ++ [r] } } 83

/-- A port reads `n` bytes at `a`, in requests of at most 64 bytes; `o` says what becomes of each protection unit (R216,
R219, R220, R225, R226, R229). -/
def portRead (s : State) (src a n : Nat) (o : Nat → Ecc) : State :=
  (reqsOf a n).foldl (fun s x =>
    let s1 := passReq s src x.1
    if reqTimed o x.1 x.2 then passTimeout s1 src false x.1 x.2 else readUnits s1 x.1 x.2 o) s

/-- What a port has read comes with poison. -/
def readBad (s : State) (a n : Nat) (o : Nat → Ecc) : Bool := badAt s (lostUnits s a n o) a n

/-- Write data that was read elsewhere, poison moving with it: a unit written is poisoned where a source sector that it
takes data from was (R231). `bad` says which bytes, by offset, came poisoned. -/
def storeMoved (s : State) (dst : Nat) (bs : List Byte) (bad : Nat → Nat → Bool) : State :=
  let s1 := store s dst bs
  if isCsram dst then s1 else
  ((unitsOf dst bs.length).filter (fun u =>
    bad (u - dst) (min (u + unitSize u) (dst + bs.length) - dst))).foldl markUnit s1

/-- Move `n` bytes by a copy of port `p`: the source is read as `o` says, and poison moves (R216, R220, R225, R226, R231). -/
def moveBytes (s : State) (p src dst n : Nat) (o : Nat → Ecc) : State :=
  let s1 := passReqs (portRead s p src n o) p dst n
  let lost := lostUnits s1 src n o
  storeMoved s1 dst (s1.mem.read src n) (fun i j => badAt s1 lost (src + i) (j - i))

-- Transfers (R241)

def XUse.token : XUse → Word
  | .operand t _ | .page t _ _ | .output t _ | .prefetch t _ _ => t
def XUse.item : XUse → Nat
  | .operand _ n | .page _ n _ | .output _ n | .prefetch _ n _ => n

/-- A transfer brings an operand or a page of an item. -/
def XUse.isInput : XUse → Bool
  | .operand _ _ | .page _ _ _ => true
  | .output _ _ | .prefetch _ _ _ => false

def XUse.isOutput : XUse → Bool
  | .output _ _ => true
  | .operand _ _ | .page _ _ _ | .prefetch _ _ _ => false

def XUse.isOperand : XUse → Bool
  | .operand _ _ => true
  | .page _ _ _ | .output _ _ | .prefetch _ _ _ => false

def XUse.isPage : XUse → Bool
  | .page _ _ _ => true
  | .operand _ _ | .output _ _ | .prefetch _ _ _ => false

def XUse.isPrefetch : XUse → Bool
  | .prefetch _ _ _ => true
  | .operand _ _ | .page _ _ _ | .output _ _ => false

def xferOf (s : State) (id : Nat) : Option Xfer := s.ms.xfers.find? (fun x => x.id == id)
def modXfer (s : State) (id : Nat) (f : Xfer → Xfer) : State :=
  { s with ms := { s.ms with xfers := s.ms.xfers.map (fun x => if x.id == id then f x else x) } }

/-- Requests of a transfer are outstanding. -/
def xferOut (s : State) (id : Nat) : Bool :=
  s.ms.reqs.any (fun r => match r.purpose with | .xfer i _ => i == id | _ => false)

/-- All of a transfer's requests have been issued and answered. -/
def xferOver (s : State) (x : Xfer) : Bool := x.iss == x.len && x.copy.isEmpty && !xferOut s x.id

/-- A transfer ends: its STREAM credit returns (R220, R241). -/
def closeXfer (s : State) (x : Xfer) : State :=
  let s1 := { s with ms := { s.ms with xfers := s.ms.xfers.filter (fun y => y.id != x.id) } }
  if x.begun then giveOne s1 x.unit .stream x.unit x.epoch else s1

/-- Transfers that have not begun issue nothing; those outstanding complete, but for one that is halted, which ends
without resuming (R256). -/
def trimIf (s : State) (p : Xfer → Bool) : State :=
  (s.ms.xfers.filter p).foldl (fun s x =>
    if x.begun && !x.held then s else
    let y := { x with len := x.iss, held := false }
    if xferOver s y then closeXfer s x else modXfer s x.id (fun _ => y)) s

/-- A job has ended (R247, R256). -/
def trimXfers (s : State) (t : Word) : State := trimIf s (fun x => x.use.token == t)

/-- A transfer of at most 4 KiB joins those that wait. -/
def addXfer (s : State) (unit prio : Nat) (use : XUse) (src dst len : Nat) : State :=
  let x : Xfer := { id := s.ms.nextReq, unit := unit, prio := prio, use := use, src := src, dst := dst, len := len }
  { s with ms := { s.ms with xfers := s.ms.xfers ++ [x], nextReq := s.ms.nextReq + 1 } }

/-- A row as transfers of up to 4 KiB (R241). -/
def queueRow (s : State) (unit prio : Nat) (use : XUse) (src dst len : Nat) : State :=
  (List.range ((len + 4095) / 4096)).foldl (fun s k =>
    addXfer s unit prio use (src + 4096 * k) (dst + 4096 * k) (min 4096 (len - 4096 * k))) s

/-- The outstanding credits of a domain are counted as returned, its transfers end; late responses to come carry its old
tag (R222, R429). -/
def reclaim (s : State) (dom : Nat) : State :=
  let mine := s.ms.reqs.filter (fun r => r.src == dom)
  let s := mine.foldl giveCredit s
  let s := { s with
    ms := { s.ms with reqs := s.ms.reqs.filter (fun r => r.src != dom)
                      portQ := s.ms.portQ.filter (fun r => r.src != dom) }
    cr := { s.cr with reclaimed := s.cr.reclaimed ++ mine } }
  (s.ms.xfers.filter (fun x => x.unit == dom)).foldl closeXfer s

end Sys2Proof.Machine
end

