-- ==== Sys2Proof/Machine/Pages.lean ====
section
/-! DEFINITION. Sequence headers, page entries, frames and pins of the key/value store (R176 to R181, R195, R196). -/

namespace Sys2Proof.Machine

def hdrAddr (id : Nat) : Nat := 0x0820_0000 + 64 * id
def kvHdr (s : State) (id : Nat) : List Word := s.mem.words (hdrAddr id) 16
def setHdr (s : State) (id i : Nat) (w : Word) : State := storeWords s (hdrAddr id + 4 * i) [w]

-- Fields of a sequence header (R176)
def kvMapped (h : List Word) : Bool := bit (wd h 15) 0
def kvLinear (h : List Word) : Bool := bit (wd h 0) 6
def kvByPos (h : List Word) : Bool := bit (wd h 0) 7
def kvNH (h : List Word) : Nat := fld h 0 11 8 + 1
def kvDH (h : List Word) : Nat := 32 * 2 ^ fld h 0 13 12
def kvFmt (h : List Word) : Nat := fld h 0 17 14
def kvTD (h : List Word) : Nat := fld h 0 21 18 + 1
def kvRes (h : List Word) : Nat := fld h 0 26 22
def kvGH (h : List Word) : Nat := fld h 1 15 0
def kvGW (h : List Word) : Nat := fld h 1 31 16
def kvPR (h : List Word) : Nat := (kvGH h + 7) / 8
def kvPC (h : List Word) : Nat := (kvGW h + 7) / 8
def kvLP (h : List Word) : Nat := kvGH h / 64
def kvNF (h : List Word) : Nat := fld h 2 15 0
def kvLead (h : List Word) : Nat := fld h 2 22 16
def kvNG (h : List Word) : Nat := fld h 2 30 24
def kvCove (h : List Word) : Nat := (wd h 3).toNat
def kvShoal (h : List Word) : Nat := pair48 (wd h 4) (wd h 5)
def kvPartFirst (h : List Word) : Nat := fld h 6 15 0
def kvPartCount (h : List Word) : Nat := fld h 6 31 16
def kvVersion (h : List Word) : Word := wd h 7
def kvHead (h : List Word) : Nat := fld h 8 3 0
def kvLockCount (h : List Word) : Nat := fld h 8 7 4
def kvLocked (h : List Word) : Bool := bit (wd h 8) 8
def kvAppendHeld (h : List Word) : Bool := bit (wd h 8) 9
def kvLength (h : List Word) : Nat := fld h 9 15 0
def kvEntBase (h : List Word) : Nat := (wd h 10).toNat

/-- Word 8: HEAD_SLOT and the lock fields (R176). -/
def kvWord8 (head cnt : Nat) (locked app : Bool) : Word :=
  BitVec.ofNat 32 (head % 16 + 16 * (cnt % 16) + 256 * b2n locked + 512 * b2n app)

/-- PAGE_BYTES (R178): FMT 0xA is 2 bytes wide, the FP8 formats one. -/
def pageBytes (h : List Word) : Nat := 2 * 64 * kvDH h * (if kvFmt h = 10 then 2 else 1)

/-- The first global entry, and E (R179). -/
def kvGlobal0 (h : List Word) : Nat := if kvLinear h then kvNH h * kvLP h else kvNH h * kvTD h * kvPR h * kvPC h
def kvE (h : List Word) : Nat := kvGlobal0 h + kvNH h

/-- Entry numbers (R179). -/
def gridEntry (h : List Word) (hd sl pr pc : Nat) : Nat := ((hd * kvTD h + sl) * kvPR h + pr) * kvPC h + pc
def linEntry (h : List Word) (hd k : Nat) : Nat := hd * kvLP h + k
def globEntry (h : List Word) (hd : Nat) : Nat := kvGlobal0 h + hd

-- Page entries (R180)
def entAddr (h : List Word) (e : Nat) : Nat := kvEntBase h + 8 * e
def kvEnt (s : State) (h : List Word) (e : Nat) : List Word := s.mem.words (entAddr h e) 2
def setEnt (s : State) (h : List Word) (e : Nat) (w0 w1 : Word) : State := storeWords s (entAddr h e) [w0, w1]
def entState (x : List Word) : Nat := fld x 0 1 0
def entPinned (x : List Word) : Bool := bit (wd x 0) 2
def entPoison (x : List Word) : Bool := bit (wd x 0) 3
def entClean (x : List Word) : Bool := bit (wd x 0) 4
def entFrame (x : List Word) : Nat := fld x 0 31 16
def entWord (st : Nat) (pin poi cl : Bool) (fr : Nat) : Word :=
  BitVec.ofNat 32 (st + 4 * b2n pin + 8 * b2n poi + 16 * b2n cl + fr % 2 ^ 16 * 2 ^ 16)

/-- Age of a non-global entry (R181). A LINEAR sequence keeps its newest page in HEAD_SLOT. -/
def entAge (h : List Word) (e : Nat) : Nat :=
  if kvLinear h then (kvHead h + kvLP h - e % kvLP h) % kvLP h
  else (kvHead h + kvTD h - e / (kvPR h * kvPC h) % kvTD h) % kvTD h

def frameAddr (h : List Word) (f : Nat) : Nat := kvCove h + f * pageBytes h
def homeAddr (h : List Word) (e : Nat) : Nat := kvShoal h + e * pageBytes h

/-- Every unit is read as it is stored. -/
def asIs : Nat → Ecc := fun _ => .asStored

/-- Control pair A copies a page's bytes, its units read as `ecc` says in turn, else as `o` says by address; poison moves with
the data (R196, R225, R226, R231). -/
def copyBytes (s : State) (src dst n : Nat) (ecc : List Ecc) (o : Nat → Ecc := asIs) : State :=
  moveBytes s srcPairA src dst n (fun u => match eccAt (protOf src n) ecc u with | .asStored => o u | x => x)

/-- Add 1 to a wrapping counter word of a header. -/
def bumpHdr (s : State) (id i : Nat) : State := setHdr s id i (wd (kvHdr s id) i + 1)

/-- POISON_PAGES counts the entries with POISON set (R176). -/
def fixPoisonPages (s : State) (id : Nat) : State :=
  let h := kvHdr s id
  setHdr s id 14 (BitVec.ofNat 32 ((List.range (kvE h)).filter (fun e => entPoison (kvEnt s h e))).length)

/-- Frames in use: of pages in Cove or being fetched (R196). -/
def usedFrames (s : State) (h : List Word) : List Nat :=
  (List.range (kvE h)).filterMap (fun e =>
    let x := kvEnt s h e
    if entState x = 1 || entState x = 3 then some (entFrame x) else none)

/-- The page that gives up its frame: unpinned, not global, in Cove, of greatest age, lowest entry on a tie (R196). -/
def victim (s : State) (h : List Word) : Option Nat :=
  (List.range (kvGlobal0 h)).foldl (fun b e =>
    let x := kvEnt s h e
    if entState x = 1 && !entPinned x then
      match b with
      | none => some e
      | some v => if entAge h v < entAge h e then some e else b
    else b) none

/-- Copy a page to its Shoal home (R196). -/
def copyHome (s : State) (id : Nat) (h : List Word) (e : Nat) (ecc : List Ecc) (o : Nat → Ecc := asIs) : State :=
  bumpHdr (copyBytes s (frameAddr h (entFrame (kvEnt s h e))) (homeAddr h e) (pageBytes h) ecc o) id 11

/-- A copy in flight of a page that is rewritten, invalid or evicted meanwhile goes with it (R196). -/
def dropCopy (s : State) (id e : Nat) : State :=
  let others (l : List (Nat × Nat)) : List (Nat × Nat) := l.filter (fun y => y != (id, e))
  { s with kv := { s.kv with spills := others s.kv.spills, kept := others s.kv.kept, fetches := others s.kv.fetches } }

/-- Allocate a frame: the lowest free one, else the victim's, its page copied home first unless it is clean (R196). -/
def allocFrame (s : State) (id : Nat) (o : Nat → Ecc := asIs) : Option (Nat × State) :=
  let h := kvHdr s id
  let used := usedFrames s h
  match (List.range (kvNF h)).find? (fun f => !used.contains f) with
  | some f => some (f, s)
  | none => match victim s h with
    | none => none
    | some v =>
      let x := kvEnt s h v
      let s1 := if entClean x then s else copyHome s id h v [] o
      some (entFrame x, setEnt (dropCopy s1 id v) h v (entWord 2 false (entPoison x) true 0) (wd x 1))

/-- A page becomes INVALID: its frame is freed and POISON cleared. -/
def invalidate (s : State) (h : List Word) (e : Nat) : State :=
  setEnt (dropCopy s (fld h 0 5 0) e) h e 0 (wd (kvEnt s h e) 1)

/-- A page of a sequence as one number. -/
def pageKey (id ent : Nat) : Nat := id * 2 ^ 16 + ent
def pageSeq (k : Nat) : Nat := k / 2 ^ 16
def pageEnt (k : Nat) : Nat := k % 2 ^ 16
def PDesc.key (p : PDesc) : Nat := pageKey p.seq p.ent

/-- The four words of a page descriptor (R193). -/
def PDesc.words (p : PDesc) : List Word :=
  [BitVec.ofNat 32 p.ent,
   BitVec.ofNat 32 (p.frame % 2 ^ 16 + 2 ^ 16 * b2n p.hold + 2 ^ 17 * b2n p.glob + 2 ^ 18 * b2n p.pad + 2 ^ 19 * b2n p.last),
   BitVec.ofNat 32 (p.y0 % 2 ^ 16 + 2 ^ 16 * (p.x0 % 2 ^ 16)), BitVec.ofNat 32 (p.age % 32)]

/-- The attempt of the walk that engine `e` owns, and the page queues it feeds: its own and its partner's (R195). -/
def walkAtt (s : State) (e : Nat) : Option Attempt := (engOf s e).arr
def walkQueue (s : State) (e : Nat) : List PDesc :=
  match walkAtt s e with
  | none => []
  | some a => a.queue ++ (match a.partner with
    | some f => (match (engOf s f).arr with | some b => b.queue | none => [])
    | none => [])

/-- The key block of a walk of which only the first page has been emitted (R192, R193). -/
def blockPartial (a : Attempt) : Bool := a.block.length == 1 && !a.pages.isEmpty

/-- The walk of engine `e` holds a page pinned: an engine has still to finish its key block, or it lies among those next
to be emitted (R195, R196). -/
def holdsPage (s : State) (e k : Nat) : Bool :=
  match walkAtt s e with
  | some a =>
    ((if blockPartial a || !(walkQueue s e).isEmpty then a.block else []) ++ walkQueue s e
      ++ a.pages.take (kvLead (kvHdr s (pageSeq k)))).any (fun p => !p.pad && p.key == k)
  | none => false

/-- Some walk holds the page. -/
def heldPage (s : State) (k : Nat) : Bool := s.kv.walks.any (fun w => w.granted && !w.append && holdsPage s w.e k)

/-- Pin or unpin entries; a page pinned while it is copied home stays in Cove (R196, R207). -/
def pinEnt (s : State) (h : List Word) (e : Nat) (p : Bool) : State :=
  let x := kvEnt s h e
  setEnt s h e (entWord (entState x) p (entPoison x) (entClean x) (entFrame x)) (wd x 1)

def pinPage (s : State) (k : Nat) (p : Bool) : State :=
  let y := (pageSeq k, pageEnt k)
  let s := if p && s.kv.spills.contains y then { s with kv := { s.kv with kept := y :: s.kv.kept } } else s
  pinEnt s (kvHdr s (pageSeq k)) (pageEnt k) p

/-- Pages of a sequence that no walk holds any more are unpinned (R195, R207). -/
def freePins (s : State) (id : Nat) : State :=
  let h := kvHdr s id
  if !kvMapped h then s else
  ((List.range (kvE h)).filter (fun e => entPinned (kvEnt s h e) && !heldPage s (pageKey id e))).foldl
    (fun s e => pinPage s (pageKey id e) false) s

/-- One walk's lock is released. -/
def unlockWalk (s : State) (w : Walk) : State :=
  let h := kvHdr s w.seqId
  if w.granted && kvMapped h then
    let cnt := if w.append then kvLockCount h else kvLockCount h - 1
    let app := kvAppendHeld h && !w.append
    setHdr s w.seqId 8 (kvWord8 (kvHead h) cnt (decide (cnt ≠ 0) || app) app)
  else s

/-- The walk of engine `e` ends, in any way: its locks and its pins are released (R195, R207). -/
def releaseWalk (s : State) (e : Nat) : State :=
  let ws := s.kv.walks.filter (fun w => w.e == e)
  if ws.isEmpty then s else
  let s := ws.foldl unlockWalk s
  let s := { s with kv := { s.kv with walks := s.kv.walks.filter (fun x => x.e != e) } }
  (ws.filter (fun w => w.granted && !w.append)).foldl (fun s w => freePins s w.seqId) s

end Sys2Proof.Machine
end

