-- ==== Sys2Proof/Machine/Ops.lean ====
section
/-! DEFINITION. The named operations that the commands' meanings share: rings, tokens, completion records and the ends
of jobs, trust, verdict records, and the reaction to a fatal source (R410). -/

namespace Sys2Proof.Machine

-- Tokens (R29, R463, R464)

/-- Keep what is live and the last 1,024 issued (R464). The list is newest first. -/
def trimToks (l : List TokRec) : List TokRec := l.take 1024 ++ (l.drop 1024).filter (fun t => t.live)

/-- Issue a token: it is live until its final result is set. -/
def addTok (s : State) (t : Word) (p : Port) : State :=
  { s with cmd := { s.cmd with tokens := trimToks ({ token := t, port := p, live := true, status := .ok, payload := [] }
    :: s.cmd.tokens.filter (fun x => x.token != t)) } }

/-- The next command token (R463). -/
def issueCmd (s : State) (p : Port) : Word × State :=
  let t : Word := BitVec.ofNat 32 s.sch.cmdSeq
  (t, addTok { s with sch := { s.sch with cmdSeq := if s.sch.cmdSeq = 0xF_FFFF then 1 else s.sch.cmdSeq + 1 } } t p)

/-- The next sequence value of a context, and the sequences after taking it (R29). -/
def takeCtx (l : List (Nat × Nat)) (c : Nat) : Nat × List (Nat × Nat) :=
  match l.find? (fun x => x.1 == c) with
  | some x => (x.2, (c, (x.2 + 1) % 2 ^ 20) :: l.filter (fun y => y.1 != c))
  | none => (1, (c, 2) :: l)

/-- The next token of a context (R29). -/
def issueCtx (s : State) (c : Nat) : Word × State :=
  let r := takeCtx s.sch.ctxSeq c
  (BitVec.ofNat 32 (c * 2 ^ 20 + r.1), { s with sch := { s.sch with ctxSeq := r.2 } })

/-- The final result of a token; one older than the last 1,024 was kept for its work alone (R464). -/
def finishTok (s : State) (t : Word) (st : Status) (pl : List Word) : State :=
  { s with cmd := { s.cmd with tokens := trimToks (s.cmd.tokens.map (fun x =>
    if x.token == t && x.live then { x with live := false, status := st, payload := pl } else x)) } }

/-- The outcome of a token's job is kept beside its result (R418). -/
def setTokCode (s : State) (t : Word) (c : Nat) : State :=
  { s with cmd := { s.cmd with tokens := s.cmd.tokens.map (fun x => if x.token == t then { x with code := c } else x) } }

-- Rings in CSRAM

/-- Advance a ring index modulo `n`, counting wraps modulo `2^w` (R129). -/
def ringNext (n w idx wraps : Nat) : Nat × Nat :=
  if idx + 1 = n then (0, (wraps + 1) % 2 ^ w) else (idx + 1, wraps)

/-- A record of the tile-record ring (R375), kept also as Headland reads it; the frame's oldest falls out of a full
ring (R376). -/
def writeTrec (s : State) (r : TRec) (ws : List Word) : State :=
  let nx := ringNext 32768 17 s.saf.tIdx s.saf.tWraps
  let s := storeWords s (0x0830_0000 + 16 * s.saf.tIdx) ws
  let lost := (s.saf.trecs.drop 32767).map (fun x => x.token)
  { s with saf := { s.saf with
      tIdx := nx.1, tWraps := nx.2, trecs := { r with idx := s.saf.tIdx } :: s.saf.trecs.take 32767
      lostRecs := lost ++ s.saf.lostRecs } }

/-- A tile record or a task record of engine `e` (R91, R166). -/
def recWords (e : Nat) (tok : Word) (d : Desc) (check wrap sat : Nat) : List Word :=
  [tok,
   BitVec.ofNat 32 (if e < 16 then d.layer + e * 2 ^ 16 + check * 2 ^ 20 + wrap * 2 ^ 23
     else d.layer + e * 2 ^ 16 + check * 2 ^ 21),
   d.tile, BitVec.ofNat 32 (min sat 0xFFFF)]

/-- A fallback record (R128, R129). -/
def writeFb (s : State) (j : Job) (l : LayerCnt) (outcome : Nat) : State :=
  let d : Desc := (j.items.flatMap (fun i => i.ds)).find? (fun d => d.kind == .me && d.last && d.layer == l.layer)
    |>.getD { kind := .me, words := [] }
  let ws : List Word :=
    [l.decSeq, j.token,
     BitVec.ofNat 32 (l.layer + fld d.words 5 19 16 * 2 ^ 16 + outcome * 2 ^ 20),
     BitVec.ofNat 32 (fld d.words 3 31 16), BitVec.ofNat 32 l.count, BitVec.ofNat 32 (min l.rerun 0xFFFF_FFFF),
     BitVec.ofNat 32 (s.clk - l.decClk), 0]
  let r := ringNext 512 23 s.sch.fbIdx s.sch.fbWraps
  let s := storeWords s (0x083F_C000 + 32 * s.sch.fbIdx) ws
  { s with sch := { s.sch with fbIdx := r.1, fbWraps := r.2, fbRecords := satAdd 0xFFFF s.sch.fbRecords 1
                               fbAbandoned := if outcome = 2 then satAdd 0xFFFF s.sch.fbAbandoned 1 else s.sch.fbAbandoned } }

-- Completion records (R421 to R423)

/-- The four words of a completion record (R422). -/
def crecWords (r : CRec) : List Word :=
  let skip := r.outcome == .skippedNoStart || r.outcome == .skippedUpstream
  [if skip then 0 else r.token,
   BitVec.ofNat 32 (r.outcome.code + 16 * b2n r.cls + 32 * b2n r.runJob + 64 * b2n (!skip)
     + 256 * (if r.runJob then 0 else r.jobId) + 2 ^ 20 * r.ctx),
   r.frameSeq, if skip then 0 else BitVec.ofNat 32 (min r.cycles 0xFFFF_FFFF)]

/-- Entries of a collector input's skid buffer. -/
def skidCount (s : State) (inp : Nat) : Nat := (s.fc.skid.filter (fun x => x.1 == inp)).length

/-- The ring holds no free record: the record at WR has not been passed by RD. -/
def ringFull (s : State) : Bool := (s.fc.cWr + 1) % 256 == s.fc.cRd

/-- Remove the first entry that meets `p`. -/
def dropFirst {α : Type} (p : α → Bool) : List α → List α
  | [] => []
  | x :: r => if p x then r else x :: dropFirst p r

/-- The collector takes the oldest record of an input into the ring; with the ring full the input stalls (R421,
R423). The token check of R45 is made as the record leaves its skid buffer; a violation sets source 82 (R46), DESIGN
CHOICE (log 41): also while the promise is void. -/
def collectOne (s : State) (inp : Nat) : State :=
  match s.fc.skid.find? (fun x => x.1 == inp) with
  | none => s
  | some x =>
    if ringFull s then { s with fc := { s.fc with stall := satAdd 0xFFFF_FFFF s.fc.stall 1 } } else
    let r := x.2
    let skip := r.outcome == .skippedNoStart || r.outcome == .skippedUpstream
    let ok := skip || s.rst.liveToks.contains r.token
    let nx := ringNext 256 16 s.fc.cWr s.fc.cWraps
    let s := storeWords s (0x083F_8000 + 16 * s.fc.cWr) (crecWords r)
    let s := { s with
      fc := { s.fc with cWr := nx.1, cWraps := nx.2, skid := dropFirst (fun y => y.1 == inp) s.fc.skid }
      rst := { s.rst with liveToks := s.rst.liveToks.filter (fun t => skip || t != r.token) }
      sch := { s.sch with
        endsDone := if r.outcome == .done then satAdd 0xFFFF s.sch.endsDone 1 else s.sch.endsDone
        endsNot := if r.outcome == .done then s.sch.endsNot else satAdd 0xFFFF s.sch.endsNot 1 } }
    if ok then s else setSrc { s with sch := { s.sch with consToken := true } } 82

/-- A record reaches a collector input: a skid buffer of two entries is emptied by one first (R421). -/
def pushRec (s : State) (inp : Nat) (r : CRec) : State :=
  let s := if 2 ≤ skidCount s inp then collectOne s inp else s
  { s with fc := { s.fc with skid := s.fc.skid ++ [(inp, r)] } }

/-- Two waiting ends of one job, or skips of one entry; and the input an end comes by. -/
def EndWait.same : EndWait → EndWait → Bool
  | .job t _ _, .job u _ _ => t == u
  | .skip i _, .skip j _ => i == j
  | .job _ _ _, .skip _ _ | .skip _ _, .job _ _ _ => false
def EndWait.input : EndWait → Nat
  | .job _ _ inp => inp
  | .skip _ _ => 26

/-- An input of the collector stalls: its skid buffer is full and so is the ring (R421). -/
def inputStalled (s : State) (inp : Nat) : Bool := decide (2 ≤ skidCount s inp) && ringFull s

/-- An end waits for its input, which commits no further end until an entry frees (R421). Of two ends of one job that wait,
the first stands (R418). -/
def waitEnd (s : State) (w : EndWait) : State :=
  if s.fc.waits.any (EndWait.same w) then s else { s with fc := { s.fc with
    waits := s.fc.waits ++ [w], stall := satAdd 0xFFFF_FFFF s.fc.stall 1 } }

-- Jobs

/-- Budget cycles that a job has consumed (R20, R32). -/
def budgetUsed (s : State) (j : Job) : Nat :=
  (if j.halted then j.haltClk else s.clk) - j.startClk - j.paused

def jobOf (s : State) (t : Word) : Option Job := s.jobs.find? (fun j => j.token == t)
def modJob (s : State) (t : Word) (f : Job → Job) : State :=
  { s with jobs := s.jobs.map (fun j => if j.token == t then f j else j) }

/-- FRAME_SEQ of a record (R422). -/
def recSeq (s : State) (runJob : Bool) : Word :=
  if runJob && (s.sch.run == .idle || s.sch.run == .armed) then 0 else s.sch.seq

/-- The plan that an owner's counters belong to. -/
def ownerPlan (s : State) (owner : Word) : Plan :=
  if owner == 0 then (activeSet s).plan else match jobOf s owner with
    | some j => j.plan
    | none => {}

/-- The tensor of the owner's plan that a reference lies in, by its base; the reference's own base when it lies in none. -/
def tensorBase (s : State) (owner : Word) (r : List Word) : Nat :=
  match tensorIn (ownerPlan s owner).tensors r with
  | some t => refBase t
  | none => refBase r

/-- The record of the padded buffer that a tensor is (R140). -/
def padRec (p : Plan) (t : List Word) : Option (List Word) :=
  p.convs.find? (fun c => refBase (cvIn c) == refBase t && (wd c 3) != 0)

/-- Row `i` of a tensor stands; in a padded buffer only once a PAD task that covers its padded row has ended (R141,
R144). -/
def rowStands (pr : Option (List Word)) (t : List Word) (c : RowCtr) (i : Nat) : Bool :=
  decide (refD0 t ≤ c.stood.getD i 0) && (match pr with | some r => c.pads.contains (rowY (cvIn r) i) | none => true)

/-- A counter's value: the rows of the longest standing prefix (R144). -/
def ctrVal (p : Plan) (t : List Word) (c : RowCtr) : Nat :=
  ((List.range c.stood.length).takeWhile (rowStands (padRec p t) t c)).length

/-- The counter of a tensor. -/
def ctrOf (s : State) (owner : Word) (t : List Word) : Option RowCtr :=
  s.sch.rows.find? (fun c => c.owner == owner && c.base == refBase t)

/-- The counter of the tensor that a reference lies in covers the last row it reads; a tensor without a counter is not
waited on (R144, R146). -/
def refReady (s : State) (owner : Word) (r : List Word) : Bool :=
  match tensorIn (ownerPlan s owner).tensors r with
  | none => true
  | some t => match ctrOf s owner t with
    | none => true
    | some c => decide (rowOf t (refRowAddr r (refRows r - 1)) < ctrVal (ownerPlan s owner) t c)

/-- The last real row that a PAD task of padded rows `a` to `b` reads or borders, if there is one (R134, R141). DESIGN CHOICE
(log 47): the real row just below a band is bordered by it. -/
def padReach (c : List Word) (a b : Nat) : Option Nat :=
  let n : Int := cvHin c
  let of (py : Nat) : List Int :=
    let y : Int := (py : Int) - cvPT c
    [y - 1, y, y + 1] ++ (if cvPad c = 3 then [max 0 (min y (n - 1))] else [])
      ++ (if cvPad c = 4 then [if y < 0 then -y else if n ≤ y then 2 * (n - 1) - y else y] else [])
  let ys := ((((List.range (b + 1)).filter (a ≤ ·)).flatMap of).filter (fun y => 0 ≤ y && y < n)).map Int.toNat
  ys.foldl (fun m y => some (match m with | some k => max k y | none => y)) none

/-- A PAD task waits until its producer's rows stand up to the last real row it reads or borders, not for the padded
counter (R141). -/
def padReady (s : State) (owner : Word) (d : Desc) : Bool :=
  let c := convOf (ownerPlan s owner) d.layer
  let r := cvIn c
  match tensorIn (ownerPlan s owner).tensors r, padReach c (bits (vdP0 d) 15 0) (bits (vdP0 d) 31 16) with
  | some t, some y => (match ctrOf s owner t with
    | none => true
    | some x => (List.range (refRows r)).all (fun i =>
        !(isReal c (rowX r i) (rowY r i) && rowY r i ≤ cvPT c + y) ||
          refD0 r ≤ x.stood.getD (rowOf t (refRowAddr r i)) 0))
  | _, _ => true

/-- The inputs of one descriptor stand (R141, R144, R146). -/
def descReady (s : State) (owner : Word) (d : Desc) : Bool :=
  if d.kind == .ve && vdOp d == 7 then padReady s owner d else d.ins.all (refReady s owner)

def ownerOf (j : Job) : Word := if j.origin == .tide then 0 else j.token

/-- A descriptor reads, or writes, a tensor marked invalid (R34, R140). -/
def readsInvalid (s : State) (p : Plan) (d : Desc) : Bool :=
  (d.insIn p).any (fun r => s.sch.invalid.contains (tensorBase s 0 r))

/-- An item waits on a row counter of a tensor marked invalid (R34). -/
def waitsInvalid (s : State) (j : Job) : Bool :=
  j.origin == .tide && !s.fc.waits.any (EndWait.same (.job j.token .done 0)) && j.items.any (fun i => (i.st == .waiting || i.st == .retry) &&
    i.ds.any (fun d => if d.kind == .ve && vdOp d == 7 then readsInvalid s j.plan d && !padReady s 0 d
      else d.ins.any (fun r => s.sch.invalid.contains (tensorBase s 0 r) && !refReady s 0 r)))

/-- Attempts of a job are told to stop, one that waits for its partner's drain among them (R92). -/
def stopAttempt (clk : Nat) (t : Word) (a : Option Attempt) : Option Attempt :=
  a.map (fun x => if x.token == t && !x.stopping then { x with stopping := true, stopClk := clk, done := none } else x)

/-- The result word of GUILT_REPLAY (R427). -/
def replayResult (o : JobEnd) : Word :=
  match o with
  | .done => 0
  | .killedReset => 1
  | _ => 2

/-- A job's walks end with it: pins and locks are released (R207). -/
def releaseWalks (s : State) (t : Word) : State :=
  (List.range 26).foldl (fun s e =>
    match (engOf s e).arr with
    | some a => if a.token == t then releaseWalk s e else s
    | none => s) s

/-- Tokens of the jobs that have an attempt on an engine, without repeats. -/
def attemptToks (x : Engine) : List Word :=
  (match x.arr with | some a => [a.token] | none => []) ++ (match x.drn with | some a => [a.token] | none => [])

/-- Requests of a job that have not been sent go with it. -/
def dropWaiting (s : State) (t : Word) : State :=
  let gone := (s.map.waitReqs.filter (fun r => r.token == some t)).map (fun r => r.id)
  let req (f : MFrame) : Bool := (f.typ == .writeReq || f.typ == .readReq) && gone.contains f.reqId
  { s with map := { s.map with
      waitReqs := s.map.waitReqs.filter (fun r => r.token != some t), waitQ := s.map.waitQ.filter (fun f => !req f) } }

/-- What is staged for a job goes with it (R242). -/
def keepStg (t : Word) (x : Option Staged) : Option Staged := x.filter (fun y => y.token != t)

/-- References that the active plan's layer groups read of tensors that a job with a plan of its own writes. -/
def readsOf (s : State) (outs : List (List Word)) : List (List Word) :=
  let p := (activeSet s).plan
  (p.descs.flatMap (Desc.insIn p)).filter (fun r => outs.any (fun t => (tensorIn [t] r).isSome))

/-- The bases of the tensors that a job writes, as the active plan knows them (R34). -/
def writtenBases (s : State) (j : Job) : List Nat :=
  let refs := j.items.flatMap (fun i => i.ds.flatMap (Desc.outsIn j.plan))
  if j.origin == .tide then refs.map (tensorBase s 0)
  else (refs ++ readsOf s (refs ++ refs.filterMap (tensorIn j.plan.tensors))).map (tensorBase s 0)

/-- A job's end commits (R35, R418): its one completion record is formed, its token's final result is set, its
tensors become invalid unless it is DONE (R34), its attempts are told to stop, a re-run in progress is recorded
abandoned (R128), its reservation closes (R31). While an engine still holds an attempt of it, what a hang report or a
replay would name of it is kept (R425, R427). -/
def endJob (s : State) (t : Word) (o : JobEnd) (inp : Nat) : State :=
  if inputStalled s inp && (jobOf s t).isSome then waitEnd s (.job t o inp) else
  match jobOf s t with
  | none => s
  | some j =>
    let rec_ : CRec :=
      { token := t, outcome := o, cls := j.cls, runJob := j.origin != .tide, jobId := j.jobId, ctx := j.ctx
        frameSeq := recSeq s (j.origin != .tide), cycles := budgetUsed s j }
    let s := (j.layers.filter (fun l => l.fell && !l.recorded)).foldl (fun s l => writeFb s j l 2) s
    let s := dropWaiting s t
    let busy := s.eng.flatMap attemptToks
    let kept := (if busy.contains t then j :: s.fc.hJobs else s.fc.hJobs).filter (fun k =>
      busy.contains k.token || [s.fc.hTok0, s.fc.hTok1, s.fc.hTok2].contains k.token)
    let outs := writtenBases s j
    let s := trimXfers s t
    let s := { s with
      jobs := s.jobs.filter (fun x => x.token != t)
      fc := { s.fc with hJobs := kept }
      eng := s.eng.map (fun x => { x with
        arr := stopAttempt s.clk t x.arr
        drn := stopAttempt s.clk t x.drn
        stg := keepStg t x.stg
        prev := keepStg t x.prev })
      sch := { s.sch with
        invalid := if o != .done then outs ++ s.sch.invalid else s.sch.invalid
        rows := if j.origin == .tide then s.sch.rows else s.sch.rows.filter (fun c => c.owner != t)
        subst := s.sch.subst.filter (fun c => c.owner != t)
        tt := if j.origin == .tide then modAt s.sch.tt j.jobId
          (fun x => { x with ended := some o, rsvOpen := false, endNs := frameNs s }) else s.sch.tt
        ttRecs := if j.origin == .tide then rec_ :: s.sch.ttRecs else s.sch.ttRecs } }
    let s := match j.origin with
      | .tide => s
      | .runJob => finishTok s t .ok (crecWords rec_)
      | .replay => finishTok { s with fc := { s.fc with replays := satAdd 0xFFFF s.fc.replays 1 } } t .ok [replayResult o]
    pushRec (releaseWalks (setTokCode s t o.code) t) inp rec_

/-- A skip record: SKIPPED_NO_START or SKIPPED_UPSTREAM of entry `i` (R33, R34). -/
def skipEntry (s : State) (i : Nat) (o : JobEnd) : State :=
  if inputStalled s 26 then waitEnd s (.skip i o) else
  let e := (tide s).entries.getD i []
  let rec_ : CRec := { token := 0, outcome := o, cls := teSClass e, runJob := false, jobId := i, ctx := teCtx e
                       frameSeq := s.sch.seq, cycles := 0 }
  let s := { s with sch := { s.sch with
    tt := modAt s.sch.tt i (fun x => { x with ended := some o, rsvOpen := false, endNs := frameNs s })
    ttRecs := rec_ :: s.sch.ttRecs } }
  pushRec s 26 rec_

/-- The tensors that an entry's layer groups read. -/
def entryIns (s : State) (e : List Word) : List (List Word) :=
  let p := (activeSet s).plan
  let ords := ((p.groups.drop (teLgFirst e)).take (teLgCount e)).flatten.flatten.flatten
  ords.flatMap (fun o => (p.descs.getD o { kind := .me, words := [] }).insIn p)

/-- An entry neither started nor ended whose layer groups read an invalid tensor (R34). -/
def entrySkipped (s : State) (i : Nat) : Bool :=
  match s.sch.tt[i]? with
  | some x => x.token.isNone && x.ended.isNone && !s.fc.waits.any (EndWait.same (.skip i .done)) &&
      (entryIns s ((tide s).entries.getD i [])).any (fun r => s.sch.invalid.contains (tensorBase s 0 r))
  | none => false

/-- What invalid tensors end, until nothing more follows (R34); fuelled by the jobs and entries there are. -/
def cascade : Nat → State → State
  | 0, s => s
  | n + 1, s =>
    match s.jobs.find? (waitsInvalid s) with
    | some j => cascade n (endJob s j.token .killedUpstream 26)
    | none =>
      match (List.range s.sch.tt.length).find? (entrySkipped s) with
      | some i => cascade n (skipEntry s i .skippedUpstream)
      | none => s

/-- All that follows from the tensors that are invalid (R34). -/
def cascadeAll (s : State) : State :=
  if s.sch.invalid.isEmpty then s else cascade (s.jobs.length + s.sch.tt.length) s

/-- Kill or abort a job, or several in one cycle, with all that follows from their invalid tensors (R34, R418). -/
def killJob (s : State) (t : Word) (o : JobEnd) (inp : Nat) : State := cascadeAll (endJob s t o inp)

def killJobs (s : State) (ts : List Word) (o : JobEnd) (inp : Nat) : State :=
  cascadeAll (ts.foldl (fun s t => endJob s t o inp) s)

/-- Ends and skips that wait reach the commit point, in their order, where their inputs have room (R421). -/
def commitWaits (s : State) : State :=
  cascadeAll (s.fc.waits.foldl (fun s w =>
    if inputStalled s w.input then s else
    let s1 := { s with fc := { s.fc with waits := s.fc.waits.erase w } }
    match w with
    | .job t o inp => endJob s1 t o inp
    | .skip i o => skipEntry s1 i o) s)

-- Trust (R370, R371)

/-- Trust is withdrawn, if it was awaited or granted: the outputs fall, the lease ends, cause and frame are kept. -/
def withdraw (s : State) (cause : Nat) : State :=
  if s.saf.trust == .trusted || s.saf.trust == .awaiting then
    { s with
      saf := { s.saf with trust := .withdrawn, wCause := cause, wSeq := s.sch.seq, lease := none, passes := 0 }
      pins := { s.pins with safeA := false, safeB := false } }
  else s

/-- The run ends: trust returns to NOT_ARMED (R370). -/
def disarm (s : State) : State :=
  { s with
    saf := { s.saf with trust := .notArmed, lease := none, passes := 0 }
    pins := { s.pins with safeA := false, safeB := false } }

/-- A run enters ARMED, or REARM: AWAITING with the count of PASS verdicts to come, the outputs low (R369, R370). -/
def await (s : State) : State :=
  { s with saf := { s.saf with trust := .awaiting, passes := fld (activeSet s).prog.hdr 2 23 16 }
           pins := { s.pins with safeA := false, safeB := false } }

-- Verdict records (R365 to R368)

/-- Consecutive HOLD frames ending with the current one, and those in the window (R372). -/
def holdRunOf (s : State) : Nat := (s.saf.holds.takeWhile id).length
def holdWinOf (s : State) : Nat := ((s.saf.holds.take (fld (activeSet s).prog.hdr 2 15 8)).filter id).length

/-- S-class entries of the frame that have not ended DONE, by position. -/
def badJobs (s : State) : List Nat :=
  (List.range (tide s).entries.length).filter (fun i => teSClass ((tide s).entries.getD i []) &&
    (s.sch.tt.getD i {}).ended != some .done)

/-- The guilt words of a record: result, frame and engines (R376, R377). -/
def guiltOf (s : State) : Nat × Word × Nat :=
  match s.saf.guiltDone with
  | some (r, g) => (r, g.seq, engsMask g.suspects)
  | none => match s.saf.guilt with
    | some g => (4, g.seq, engsMask g.suspects)
    | none => (0, 0, 0)

/-- Words 0 to 30 of a verdict record (R366). -/
def verdictWords (s : State) (verdict cause rule writer : Nat) (ev : List Word) : List Word :=
  let g := guiltOf s
  let bad := badJobs s
  let fb := bad.headD 0
  let oc := match bad with
    | [] => 0
    | i :: _ => match (s.sch.tt.getD i {}).ended with
      | some o => o.code
      | none => bits (Config.freeWord s.free) 3 0
  let hd : List Word :=
    [s.sch.seq,
     BitVec.ofNat 32 (verdict + 4 * cause + 16 * b2n (s.saf.trust == .trusted) + 32 * writer + 2 ^ 16 * rule),
     BitVec.ofNat 32 (holdRunOf s % 256 + 256 * (holdWinOf s % 256)
       + 2 ^ 16 * min 255 (s.hl.res.filter (fun r => r.violated)).length),
     BitVec.ofNat 32 (g.1 + 8 * b2n s.sets.activeSlot),
     g.2.1, BitVec.ofNat 32 g.2.2, BitVec.ofNat 32 (engsMask s.hl.tested), BitVec.ofNat 32 (wdrMask s),
     BitVec.ofNat 32 (fb + oc * 2 ^ 10 + bad.length % 2 ^ 16 * 2 ^ 16),
     BitVec.ofNat 32 s.tb.ns, BitVec.ofNat 32 s.tb.sec, 0, 0, 0, 0, 0]
  hd ++ (ev ++ List.replicate 15 0).take 15

/-- Write the frame's verdict record, queue it for port S, and keep what later records and registers show (R366 to
R368). A record that waits already is discarded. -/
def writeVerdict (s : State) (verdict cause rule writer : Nat) (ev : List Word) : State :=
  let ws := verdictWords s verdict cause rule writer ev
  let rec_ := ws ++ [crcWords ws]
  let nx := ringNext 256 24 s.saf.vIdx s.saf.vWraps
  let lost := !s.cmd.verdict.isEmpty
  let s := storeWords s (0x083F_0000 + 128 * s.saf.vIdx) rec_
  { s with
    free := s.free + 1
    saf := { s.saf with
      vIdx := nx.1, vWraps := nx.2, holdRun := holdRunOf s % 256, holdWin := holdWinOf s % 256, guiltDone := none
      sspLost := if lost then satAdd 0xFF s.saf.sspLost 1 else s.saf.sspLost }
    hl := { s.hl with written := true, lastSeq := s.sch.seq, lastVerdict := verdict }
    cmd := { s.cmd with verdict := rec_ } }

-- Swaps (R43)

/-- A pending swap is cancelled; the resident image must be loaded again (R43, R254). -/
def cancelSwap (s : State) : State :=
  if s.sets.swapPending then
    { s with sets := { s.sets with swapPending := false, cancelled := satAdd 0xFFFF s.sets.cancelled 1 }
             ms := { s.ms with resLoaded := false } }
  else s

/-- A pending procedure of R376 ends at a fatal source (R376). -/
def guiltFatal (s : State) : State :=
  match s.saf.guilt with
  | none => s
  | some g =>
    let hw := g.suspects.any (fun e => g.failed.contains e || ((engOf s e).quar && !g.passed.contains e))
    { s with saf := { s.saf with guilt := none, guiltDone := some (if hw then 3 else 5, g) } }

/-- Work of a run that ends: the sensor frames in its buffers go, the ISPs with them (R272, R310); what a stream still
discards of a dropped sensor frame it goes on discarding, but for one that ends with its frame's time (R277). -/
def clearRun (s : State) : State :=
  { s with sens := { s.sens with streams := s.sens.streams.map (fun x => {
    next := x.next, disc := x.disc.filter (fun d => !(stEth d.entry && stClose d.entry == 2)) })
                                 isp := s.sens.isp.map (fun x => { x with busy := false }) } }

/-- The reaction to a fatal source (R410): trust withdrawn with cause FATAL_FAULT, procedures, slices and swaps end,
attempts stop and their jobs end KILLED_RESET, the frame's verdict is FAIL with cause FAULT, the run halts. DESIGN CHOICE
(log 43): IN_SLACK and IN_JUDGE of R49 then read 0. -/
def faReact (s : State) : State :=
  let s := withdraw s 4
  let s := guiltFatal s
  let s := { s with eng := s.eng.map (fun x => { x with kat := none, katDue := [], deferred := false }) }
  let s := cancelSwap s
  let s := killJobs s (s.eng.flatMap attemptToks) .killedReset 29
  let s := if s.sch.run == .running && !s.hl.written then
      writeVerdict s 3 3 0 (b2n s.hl.stopped) [] else s
  if s.sch.run == .running || s.sch.run == .armed then
    disarm (clearRun { s with sch := { s.sch with run := .halted, phase := .none, stopReq := false, portSStop := false } })
  else s

/-- Control pair A reads poisoned data: it stops with source 88 (R233, R390). -/
def stopPairA (s : State) : State := setSrc { s with rst := { s.rst with pairA := true } } 88

/-- The end of every meaning that may set sources: if a fatal source set that was not set before, R410 follows. -/
def settle (s0 s1 : State) : State :=
  if (s1.fc.fsw &&& maskFA &&& ~~~s0.fc.fsw) != 0 then faReact s1 else s1

-- Message-signalled interrupts (R459, R489)

/-- Vector `v` is signalled, or pends while it is masked. -/
def msix (s : State) (v : Nat) : State :=
  if !s.pcie.msixEn then s
  else if (s.pcie.msix.getD v {}).mask then { s with pcie := { s.pcie with pba := s.pcie.pba ||| BitVec.ofNat 16 (2 ^ v) } }
  else if s.pcie.busMaster then { s with out := { s.out with msix := s.out.msix ++ [v] } }
  else s

end Sys2Proof.Machine
end

