-- ==== Sys2Proof/Machine/Ports.lean ====
section
/-! DEFINITION. The command ports: readiness, the checks of a packet, replies, events (R447 to R460, R493, R417), and
the meanings of the window handshake's rows. -/

namespace Sys2Proof.Machine

def portSt (s : State) : Port → PortSt
  | .H => s.cmd.h
  | .S => s.cmd.s
  | .D => s.cmd.d

def modPort (s : State) (p : Port) (f : PortSt → PortSt) : State :=
  match p with
  | .H => { s with cmd := { s.cmd with h := f s.cmd.h } }
  | .S => { s with cmd := { s.cmd with s := f s.cmd.s } }
  | .D => { s with cmd := { s.cmd with d := f s.cmd.d } }

/-- Port D is available (R447, R503, R507). -/
def dOpen (s : State) : Bool := s.sec.lifecycle == .manufacture || s.sec.lifecycle == .retired || s.sec.dUnlock

/-- Boundary scan is open (R503). -/
def bscanOpen (s : State) : Bool := s.sec.lifecycle != .field || s.sec.bUnlock

/-- The collector's responder answers (R417). -/
def responder (s : State) : Bool :=
  s.rst.pairA || s.boot == .untrained || s.boot == .noClock || s.pins.clocksOff || s.pins.thermtrip

/-- The derived clocks have stopped, or all but CLK_PER; then no reset runs and the responder answers (R417, R525, R537). -/
def halted (s : State) : Bool := s.pins.clocksOff || s.pins.thermtrip

/-- A port answers at all (R447, R417, R482, R491). -/
def portUp (s : State) (p : Port) : Bool :=
  if s.warm && !halted s then false else
  if responder s then
    match p with
    | .H => !s.pins.thermtrip
    | .S => true
    | .D => false
  else (s.boot == .rom || s.boot == .firmware) &&
    (match p with | .H | .S => true | .D => dOpen s)

/-- An event waits to be placed on a port (R458). -/
def waiting (s : State) (p : Port) : Bool :=
  (portSt s p).annPend || (match p with
    | .H => (portSt s p).pend != 0 || !s.cmd.lostEvt.isEmpty
    | .S => (portSt s p).pend != 0 || !s.cmd.verdict.isEmpty
    | .D => false)

/-- A port's ready indication: HOST_RDY, SSP_RDY, or bit 0 of port D's status byte (R456). -/
def ready (s : State) (p : Port) : Bool :=
  portUp s p && (portSt s p).taken.isNone && (portSt s p).placed.isEmpty && !waiting s p

/-- Opcodes of R465. -/
def opKnown (op : Nat) : Bool :=
  (1 ≤ op && op ≤ 3) || (0x10 ≤ op && op ≤ 0x15) || (0x20 ≤ op && op ≤ 0x23) || (0x30 ≤ op && op ≤ 0x32)
  || (0x40 ≤ op && op ≤ 0x42) || (0x50 ≤ op && op ≤ 0x54) || op == 0x60 || op == 0x61 || op == 0x70 || op == 0x71
  || op == 0x78 || op == 0x79

/-- Opcodes that a port permits (R448, R465). -/
def opPermit (p : Port) (op flags : Nat) : Bool :=
  match p with
  | .H | .D => true
  | .S => op == 0x03 || op == 0x23 || op == 0x51 || op == 0x52 || op == 0x53 || (op == 0x20 && flags % 16 == 1)

/-- FLAGS bits and SUBOP values that an opcode may carry (R450, R466). -/
def flagsOk (op flags : Nat) : Bool :=
  if op == 0x20 then flags ≤ 4
  else if op == 0x78 || op == 0x79 then flags ≤ 2
  else if op == 0x21 then flags ≤ 1
  else flags == 0

/-- Numbers of parameter words (R466). -/
def lenOk (op flags n : Nat) : Bool :=
  if op == 0x01 then n ≤ 1021
  else if op == 0x32 then 3 ≤ n && n ≤ 129 && n % 2 == 1
  else if op == 0x20 then
    (if flags == 0 then n == 4 else if flags == 2 then n == 3 else if flags == 3 then n == 2 else n == 0)
  else if op == 0x78 || op == 0x79 then (if flags == 0 then n == 6 else n == 0)
  else if op == 0x10 || op == 0x40 || op == 0x50 || op == 0x54 then n == 3
  else if op == 0x11 || op == 0x52 then n == 4
  else if op == 0x14 || op == 0x61 || op == 0x71 then n == 2
  else if op == 0x21 || op == 0x30 then n == 7
  else if op == 0x42 then n == 10
  else if op == 0x70 then n == 8
  else if op == 0x02 || op == 0x03 || op == 0x51 then n == 0
  else n == 1

/-- The detail words of R452. -/
def detail (struct_ row idx : Nat) : List Word := [BitVec.ofNat 32 (struct_ + 256 * row), BitVec.ofNat 32 idx]

/-- Payload that a status lets a reply carry (R452). -/
def payloadOf (st : Status) (pl : List Word) : List Word :=
  match st with
  | .ok | .accepted | .alreadyDone | .notReady | .peerLost | .badParam | .badShape | .sigFail => pl
  | _ => []

/-- A reply's or event's words (R452, R460). -/
def replyWords (op : Nat) (st : Status) (tag seq : BitVec 16) (pl : List Word) : List Word :=
  let ws := BitVec.ofNat 32 (op * 2 ^ 24 + st.code * 2 ^ 16 + (pl.length + 3)) ::
    BitVec.ofNat 32 (tag.toNat * 2 ^ 16 + seq.toNat) :: pl
  ws ++ [crcWords ws]

/-- Place words in a port's reply buffer; port H signals vector `v` (R449, R459). -/
def place (s : State) (p : Port) (ws : List Word) (v : Nat) : State :=
  let s := modPort s p (fun x => { x with placed := ws, rd := 0 })
  if p == .H then msix s v else s

/-- Place a reply, and keep what CMD.LAST_H shows (R469). -/
def placeReply (s : State) (p : Port) (op : Nat) (st : Status) (tag seq : BitVec 16) (pl : List Word) : State :=
  let s := place s p (replyWords op st tag seq (payloadOf st pl)) 0
  if p == .H then { s with cmd := { s.cmd with lastOp := op, lastSt := st.code, lastTagH := tag } } else s

/-- A packet's fate under R455 and R454. -/
inductive Admit where
  | refuse (st : Status) (pl : List Word)
  | seqRefuse
  | again
  | run
  deriving DecidableEq, Repr

/-- The checks of R455 after the CRC. The responder keeps no command state, so it applies no sequence rule (R417). -/
def admission (s : State) (op flags : Nat) (k : Pkt) : Admit :=
  let ps := portSt s k.port
  if !opKnown op then .refuse .badOpcode []
  else if !opPermit k.port op flags then .refuse .notPermitted []
  else if k.tag == 0 then .refuse .badParam (detail 0 0 1)
  else if !flagsOk op flags then .refuse .badParam (detail 0 0 0)
  else if !lenOk op flags k.params.length then .refuse .badParam (detail 0 0 0)
  else if responder s then .run
  else match ps.lastSeq with
    | none => .run
    | some q => if k.seq == q && k.tag == ps.lastTag then .again
      else if k.seq == q + 1 then .run
      else .seqRefuse

/-- Whoever answers takes the opcode: the firmware takes all, the boot ROM and the responder those of R493 and R417. -/
def served (s : State) (op : Nat) (k : Pkt) : Bool :=
  if responder s then
    op == 0x03 || op == 0x51 || (op == 0x60 && k.port == .H && wd k.params 0 == 63)
  else if s.boot == .firmware then true
  else match k.port with
    | .S => op == 0x03 || op == 0x51
    | _ => op == 0x01 || op == 0x02 || op == 0x03 || op == 0x10 || op == 0x23 || op == 0x51 || op == 0x52 || op == 0x71

/-- What a command's own rule answers: the state after it, and its reply, if it sends one. -/
abbrev Ans := State × Option (Status × List Word)

/-- A reply with the state unchanged: refusals. -/
def refuse (s : State) (st : Status) (pl : List Word) : Ans := (s, some (st, pl))

/-- BAD_PARAM for parameter word `i` of the packet (R544 stage 1). -/
def badWord (s : State) (i : Nat) : Ans := refuse s .badParam (detail 0 0 i)

/-- Ports in the order of R461 where two take packets in one cycle. -/
def portRank : Port → Nat
  | .S => 0 | .H => 1 | .D => 2

/-- A port takes its place among those whose packets are in process (R461). DESIGN CHOICE (log 48): packets taken with no
time between them are taken in one cycle. -/
def takeTurn (l : List (Port × Nat)) (p : Port) (clk : Nat) : List (Port × Nat) :=
  let before (x : Port × Nat) : Bool := x.2 < clk || (x.2 == clk && portRank x.1 ≤ portRank p)
  l.filter before ++ (p, clk) :: l.filter (fun x => !before x)

/-- A packet of a port is in process. -/
def setTaken (s : State) (p : Port) (t : Taken) : State :=
  let s1 := modPort s p (fun x => { x with taken := some t })
  { s1 with cmd := { s1.cmd with order := takeTurn s1.cmd.order p s1.clk } }

/-- A packet of a port is in process no longer. -/
def clearTaken (s : State) (p : Port) : State :=
  let s1 := modPort s p (fun x => { x with taken := none })
  { s1 with cmd := { s1.cmd with order := s1.cmd.order.filter (fun x => x.1 != p) } }

/-- A packet of another port is to be executed before this port's (R461). -/
def mustWait (s : State) (p : Port) : Bool :=
  match s.cmd.order with
  | [] => false
  | x :: _ => x.1 != p

/-- A reply to an executed packet is placed and kept with its packet; the responder keeps nothing (R417, R454). -/
def giveReply (resp : Bool) (op : Nat) (k : Pkt) (st : Status) (pl : List Word) (s : State) : State :=
  let s1 := placeReply s k.port op st k.tag k.seq pl
  if resp then s1 else
  modPort s1 k.port (fun x => { x with lastSeq := some k.seq, lastTag := k.tag
                                       lastReply := replyWords op st k.tag k.seq (payloadOf st pl) })

/-- Execute a packet that passed R455: its command's answer becomes the port's reply and its last packet (R454). One whose
execution stops control pair A stays in process until its bound passes (R419). -/
def serve (op flags : Nat) (k : Pkt) (body : State → Ans) (s : State) : State :=
  let a : Ans := if served s op k then body s else refuse s .notReady []
  match a.2 with
  | none => if a.1.rst.pairA && !s.rst.pairA then setTaken a.1 k.port { opcode := op, flags := flags, pkt := k } else a.1
  | some (st, pl) => giveReply (responder s) op k st pl a.1

/-- A packet that arrives while the port is not ready is dropped and counted: words on port H, packets on S and D
(R448, R456, R469). -/
def dropPacket (s : State) (k : Pkt) : State :=
  match k.port with
  | .H => { s with cmd := { s.cmd with dropH := satAdd 0xFFFF s.cmd.dropH (k.params.length + 3) } }
  | .S => { s with cmd := { s.cmd with dropS := satAdd 0xFF s.cmd.dropS 1 } }
  | .D => if dOpen s then { s with cmd := { s.cmd with dropD := satAdd 0xFF s.cmd.dropD 1 } } else s

/-- The retained reply is placed again, bit-identical (R454, R469). -/
def replayReply (s : State) (p : Port) : State :=
  let ws := (portSt s p).lastReply
  let s1 := place s p ws 0
  let s2 := if p == .H then { s1 with cmd := { s1.cmd with
    lastOp := fld ws 0 31 24, lastSt := fld ws 0 23 16, lastTagH := (wd ws 1).extractLsb' 16 16 } } else s1
  { s2 with cmd := { s2.cmd with replayed := satAdd 0xFF s.cmd.replayed 1 } }

/-- A packet refused before it is executed (R454, R455). -/
def refusePacket (s : State) (op : Nat) (k : Pkt) (st : Status) (pl : List Word) : State :=
  placeReply s k.port op st k.tag k.seq pl

def seqRefusal (s : State) (op : Nat) (k : Pkt) : State :=
  let s := { s with cmd := { s.cmd with seqErr := satAdd 0xFF s.cmd.seqErr 1 } }
  refusePacket s op k .badParam (detail 0 0 1)

/-- A command of an opcode's row: the packet in process on the port, or a whole packet that a ready port takes. While a
packet taken before it is in process it waits (R461). -/
def command (op flags : Nat) (k : Pkt) (body : State → Ans) (s : State) : State :=
  match (portSt s k.port).taken with
  | some t =>
    if t = { opcode := op, flags := flags, pkt := k } then
      (if mustWait s k.port then s else settle s (serve op flags k body (clearTaken s k.port)))
    else dropPacket s k
  | none =>
    if ready s k.port then
      match admission s op flags k with
      | .refuse st pl => refusePacket s op k st pl
      | .seqRefuse => seqRefusal s op k
      | .again => replayReply s k.port
      | .run => if mustWait s k.port then setTaken s k.port { opcode := op, flags := flags, pkt := k }
        else settle s (serve op flags k body s)
    else dropPacket s k

-- Events

/-- The next event that R458 places: 1 announcement, 2 fault, 3 peer lost, 4 verdict, 0 none. -/
def nextEvent (s : State) (p : Port) : Nat :=
  let ps := portSt s p
  if !ps.placed.isEmpty || ps.taken.isSome then 0
  else if ps.annPend then 1
  else match p with
    | .H => if ps.pend != 0 then 2 else if !s.cmd.lostEvt.isEmpty then 3 else 0
    | .S => if ps.pend != 0 then 2 else if !s.cmd.verdict.isEmpty then 4 else 0
    | .D => 0

/-- Place an event packet and count it (R460). -/
def placeEvent (s : State) (p : Port) (op : Nat) (st : Status) (pl : List Word) (v : Nat) : State :=
  let s1 := place s p (replyWords op st 0 (portSt s p).evtSeq pl) v
  modPort s1 p (fun x => { x with evtSeq := x.evtSeq + 1 })

/-- The payload of ANNOUNCE (R460). -/
def announceWords (s : State) : List Word :=
  BitVec.ofNat 32 (s.fc.rOrigin % 4 + 256 * (s.fc.warmCount % 256)) :: maskWords s.fc.pre

/-- Place the event of a kind, if it is the one due on the port, and take it off the waiting ones. -/
def placeDue (s : State) (p : Port) (kind : Nat) : State :=
  if nextEvent s p != kind then s
  else if kind == 1 then
    modPort (placeEvent s p 0xE1 .ok (announceWords s) 3) p (fun x => { x with annPend := false, pend := 0 })
  else if kind == 2 then
    modPort (placeEvent s p 0xE0 .ok (maskWords (portSt s p).pend) 2) p (fun x => { x with pend := 0 })
  else if kind == 3 then
    let s1 := placeEvent s p 0xE2 .peerLost (BitVec.ofNat 32 s.cmd.lostEvt.length :: s.cmd.lostEvt) 4
    { s1 with cmd := { s1.cmd with lostEvt := [] } }
  else if kind == 4 then
    let s1 := placeEvent s p 0xE3 .ok s.cmd.verdict 0
    { s1 with cmd := { s1.cmd with verdict := [] } }
  else s

/-- FAULT_EVENT (R416). -/
def execFaultEvent (p : Port) (s : State) : Out := .next (if portUp s p then placeDue s p 2 else s)

/-- ANNOUNCE (R48, R460): on ports H and S, before either takes a command; it ends the chip warm reset (R434). -/
def execAnnounce (s : State) : Out :=
  .next (if s.cmd.h.annPend || s.cmd.s.annPend then
    { placeDue (placeDue s .H 1) .S 1 with warm := false } else s)

/-- PEER_LOST_EVENT (R460). -/
def execPeerLostEvent (s : State) : Out := .next (if portUp s .H then placeDue s .H 3 else s)

/-- VERDICT_EVENT (R368). -/
def execVerdictEvent (s : State) : Out := .next (if portUp s .S then placeDue s .S 4 else s)

-- The window handshake

/-- Words 0 to n - 1 of the packet-in buffer. -/
def bufWords (b : List (Nat × Word)) (n : Nat) : List Word :=
  (List.range n).map (fun i => match b.find? (fun x => x.1 == i) with | some x => x.2 | none => 0)

def bufPut (b : List (Nat × Word)) (i : Nat) (w : Word) : List (Nat × Word) :=
  (i, w) :: b.filter (fun x => x.1 != i)

/-- The packet that words spell. -/
def pktOf (p : Port) (ws : List Word) : Pkt :=
  { port := p, tag := (wd ws 1).extractLsb' 16 16, seq := (wd ws 1).extractLsb' 0 16
    params := (ws.drop 2).take (ws.length - 3) }

/-- The port takes a packet: word 0, then the CRC, then R455 and R454 (R456). A packet that passes is in process. -/
def takePacket (s : State) (p : Port) (ws : List Word) : State :=
  let op := fld ws 0 31 24
  let flags := fld ws 0 23 16
  let len := fld ws 0 15 0
  let k := pktOf p ws
  if len < 3 || 1024 < len then refusePacket s op k .badParam (detail 0 0 0)
  else if wd ws (len - 1) != crcWords (ws.take (len - 1)) then
    refusePacket { s with cmd := { s.cmd with badCrc := satAdd 0xFF s.cmd.badCrc 1 } } op k .badCrc []
  else match admission s op flags k with
    | .refuse st pl => refusePacket s op k st pl
    | .seqRefuse => seqRefusal s op k
    | .again => replayReply s p
    | .run => setTaken s p { opcode := op, flags := flags, pkt := k }

/-- A word that a ready port takes; one that completes its packet has the port take that. -/
def putWord (s : State) (p : Port) (idx : Nat) (w : Word) : State :=
  let b := bufPut (portSt s p).inBuf idx w
  let s := modPort s p (fun x => { x with inBuf := b })
  let len := fld (bufWords b 1) 0 15 0
  if idx == 0 && (len < 3 || 1024 < len) then takePacket s p (bufWords b 2)
  else if idx + 1 == len && 3 ≤ len && len ≤ 1024 then takePacket s p (bufWords b len)
  else s

/-- What is written of a packet leaves the buffer once the port has taken the packet, on the ports that count words from
the packet's first. -/
def freeIn (s : State) (p : Port) : State :=
  if (portSt s p).taken.isSome || !(portSt s p).placed.isEmpty then modPort s p (fun x => { x with inBuf := [] }) else s

/-- A word written on port S, at its place in the packet. A packet that meets the port not ready, at its first word or
later, is dropped and counted once; what follows of it goes with it (R456, R469). -/
def writeS (s : State) (idx : Nat) (w : Word) : State :=
  if idx ≠ 0 && s.cmd.s.inBuf.isEmpty then s
  else if ready s .S then freeIn (putWord s .S idx w) .S
  else { s with cmd := { s.cmd with s := { s.cmd.s with inBuf := [] }, dropS := satAdd 0xFF s.cmd.dropS 1 } }

/-- A word written on port D, the next of its packet; the like. -/
def writeD (s : State) (w : Word) : State :=
  let d := s.cmd.d
  let n := d.inBuf.length
  if !dOpen s then s
  else if 0 < d.lost then { s with cmd := { s.cmd with d := { d with lost := d.lost - 1 } } }
  else if ready s .D then freeIn (putWord s .D n w) .D
  else
    let len := if n = 0 then bits w 15 0 else fld (bufWords d.inBuf 1) 0 15 0
    { s with cmd := { s.cmd with
        d := { d with inBuf := [], lost := if len < 3 || 1024 < len then 0 else len - n - 1 }
        dropD := satAdd 0xFF s.cmd.dropD 1 } }

/-- A word written to a port's packet-in buffer (R456); a word written to port H while it is not ready is dropped and
counted. -/
def writeWord (s : State) (p : Port) (idx : Nat) (w : Word) : State :=
  match p with
  | .H => if ready s .H then putWord s .H idx w else { s with cmd := { s.cmd with dropH := satAdd 0xFFFF s.cmd.dropH 1 } }
  | .S => writeS s idx w
  | .D => writeD s w

/-- A write that ends before its packet's last word: the partial packet is discarded and counted (R449). -/
def shortWrite (s : State) (p : Port) : State :=
  if (portSt s p).inBuf.isEmpty then s else
  let s1 := modPort s p (fun x => { x with inBuf := [] })
  { s1 with cmd := { s1.cmd with short := satAdd 0xFF s.cmd.short 1 } }

/-- SSP_SHORT_TRANSACTION (R449). -/
def execSspShortTransaction (s : State) : Out := .next (shortWrite s .S)

/-- The next waiting packet is placed as the buffer frees, or the ready indication rises (R456, R458, R459). -/
def afterFree (s : State) (p : Port) : State :=
  let k := nextEvent s p
  if k != 0 then placeDue s p k else if p == .H then msix s 1 else s

/-- A read of a port's reply buffer: word `idx` through BAR0, the word at the read pointer on S and D (R449, R457). -/
def readReply (s : State) (p : Port) (idx : Nat) : State :=
  let ps := portSt s p
  let i := if p == .H then idx else ps.rd
  let s := { s with out := { s.out with rdata := [wd ps.placed i] } }
  let s := modPort s p (fun x => { x with rd := x.rd + 1 })
  if i + 1 == ps.placed.length then afterFree (modPort s p (fun x => { x with placed := [], rd := 0 })) p else s

/-- The status byte of R449. -/
def statusByte (s : State) (p : Port) : Nat := b2n (ready s p) + 2 * b2n (!(portSt s p).placed.isEmpty)

/-- CMD_DR_UPDATE (R449, R505): the framing byte's operation on port D, one word for each scan; the next capture holds
the word read or the status byte. A scan with another framing byte ends a write begun: its partial packet is
discarded and counted. -/
def execCmdDrUpdate (framing : Byte) (w : Word) (s : State) : Out :=
  .next (
    if s.sec.tap != 0x10 || !dOpen s then { s with secw := { s.secw with dr := 0 } }
    else if framing == 0xA5 then writeD s w
    else
      let s := if framing == 0x5A || framing == 0x3C then
        modPort (shortWrite s .D) .D (fun x => { x with lost := 0 }) else s
      if framing == 0x5A then
        let v := wd s.cmd.d.placed s.cmd.d.rd
        { readReply s .D 0 with secw := { s.secw with dr := BitVec.ofNat 40 v.toNat } }
      else if framing == 0x3C then { s with secw := { s.secw with dr := BitVec.ofNat 40 (statusByte s .D) } }
      else s)

/-- COMMAND_TIMEOUT (R419): the bound of the command in process passes before its commit point; its effects are
discarded, the reply is TIMEOUT and source 108 sets. -/
def execCommandTimeout (p : Port) (s : State) : Out :=
  .next (match (portSt s p).taken with
    | none => s
    | some t =>
      let s := setSrc (clearTaken s p) 108
      let s := { s with cmd := { s.cmd with timeouts := satAdd 0xFFFF s.cmd.timeouts 1 } }
      giveReply (responder s) t.opcode t.pkt .timeout [] s)

end Sys2Proof.Machine
end

