-- ==== Sys2Proof/Machine/Kv.lean ====
section
/-! DEFINITION. The key/value store: sequence headers, page entries, frames, and the commands KV_MAP, KV_UNMAP and
KV_EDIT (R176 to R181, R194 to R197, R204 to R207). -/

namespace Sys2Proof.Machine

/-- A spill copy ends: a page that a walk has pinned meanwhile stays in Cove, clean; any other leaves its frame (R196,
R207). -/
def spillDone (s : State) (id e : Nat) (ecc : List Ecc) (o : Nat → Ecc := asIs) : State :=
  let h := kvHdr s id
  let x := kvEnt s h e
  let kept := s.kv.kept.contains (id, e)
  let s := { s with kv := { s.kv with spills := s.kv.spills.filter (fun y => y != (id, e))
                                      kept := s.kv.kept.filter (fun y => y != (id, e)) } }
  if entState x = 1 then
    let s := copyHome s id h e ecc o
    if kept || entPinned x then setEnt s h e (entWord 1 (entPinned x) (entPoison x) true (entFrame x)) (wd x 1)
    else setEnt s h e (entWord 2 false (entPoison x) true 0) (wd x 1)
  else s

/-- A fetch copy ends: the page is in Cove, clean (R196). -/
def fetchDone (s : State) (id e : Nat) (ecc : List Ecc) (o : Nat → Ecc := asIs) : State :=
  let h := kvHdr s id
  let x := kvEnt s h e
  let s := { s with kv := { s.kv with fetches := s.kv.fetches.filter (fun y => y != (id, e)) } }
  if entState x = 3 then
    let s := copyBytes s (homeAddr h e) (frameAddr h (entFrame x)) (pageBytes h) ecc o
    let s := bumpHdr s id 12
    setEnt s h e (entWord 1 (entPinned x) (entPoison x) true (entFrame x)) (wd x 1)
  else s

/-- Copies in flight of a sequence complete (R205). -/
def finishCopies (s : State) (id : Nat) (o : Nat → Ecc := asIs) : State :=
  let s := (s.kv.spills.filter (fun y => y.1 == id)).foldl (fun s y => spillDone s id y.2 [] o) s
  (s.kv.fetches.filter (fun y => y.1 == id)).foldl (fun s y => fetchDone s id y.2 [] o) s

/-- A byte of CSRAM is of a sequence's header or page entries (R176, R180). -/
def kvByte (s : State) (id b : Nat) : Bool :=
  let h := kvHdr s id
  (hdrAddr id ≤ b && b < hdrAddr id + 64) || (kvMapped h && kvEntBase h ≤ b && b < kvEntBase h + 8 * kvE h)

/-- Uncorrectable bytes of a sequence's header and page entries (R233). -/
def kvBadBytes (s : State) (id : Nat) : List Nat := s.csramBad.filter (kvByte s id)

/-- Control pair A reads the headers and entries of sequences; `cs` says what becomes of the reads of some bytes, and an
uncorrectable one is detected again (R229, R233). -/
def kvRead (s : State) (ids : List Nat) (cs : List (Nat × Ecc)) : State :=
  let new := cs.filter (fun x => ids.any (fun i => kvByte s i x.1) && !s.csramBad.contains x.1)
  ((ids.flatMap (kvBadBytes s)).map (fun b => (b, Ecc.uncorrectable)) ++ new).foldl (fun s x => eccRead s x.1 x.2) s

/-- Some byte of the sequences is uncorrectable: the pair that reads it stops (R233). -/
def kvDirty (s : State) (ids : List Nat) : Bool := ids.any (fun i => !(kvBadBytes s i).isEmpty)

/-- Control pair A works on sequences, if it runs. -/
def kvWork (s : State) (ids : List Nat) (f : State → State) (cs : List (Nat × Ecc) := []) : State :=
  if s.rst.pairA then s else
  let s1 := kvRead s ids cs
  if kvDirty s1 ids then stopPairA s1 else f s1

/-- A command that control pair A answers from sequences. -/
def kvAnswer (s : State) (ids : List Nat) (f : State → Ans) (cs : List (Nat × Ecc) := []) : Ans :=
  let s1 := kvRead s ids cs
  if kvDirty s1 ids then (stopPairA s1, none) else f s1

/-- Bytes of memory are cleared to 0. -/
def clearMem (s : State) (a n : Nat) : State :=
  { s with mem := s.mem.filter (fun c => !(decide (a ≤ c.1) && decide (c.1 < a + n)))
           csramBad := s.csramBad.filter (fun b => !(decide (a ≤ b) && decide (b < a + n))) }

/-- The header is cleared and the entries are free (R205). -/
def unmapSeq (s : State) (id : Nat) : State :=
  if kvMapped (kvHdr s id) then clearMem s (hdrAddr id) 64 else s

/-- Every sequence is unmapped (R205, R434). -/
def unmapAll (s : State) : State :=
  { (List.range 64).foldl unmapSeq s with kv := {} }

/-- Identifiers of the mapped sequences. -/
def mappedSeqs (s : State) : List Nat := (List.range 64).filter (fun i => kvMapped (kvHdr s i))

/-- Regions of a set slot's objects. -/
def slotRegions (x : Slot) : List (Nat × Nat) := x.objs.map (fun o => (o.addr, o.len))
def setRegions (s : State) : List (Nat × Nat) := slotRegions s.sets.slot0 ++ slotRegions s.sets.slot1

/-- A region overlaps one of a list. -/
def hits (l : List (Nat × Nat)) (a n : Nat) : Bool := l.any (fun r => overlaps r.1 r.2 a n)

/-- The firmware images' regions (R501). -/
def fwRegions (s : State) : List (Nat × Nat) := s.sec.fwProt

/-- Regions that mapped sequences hold. -/
def seqRegions (s : State) : List (Nat × Nat) :=
  (mappedSeqs s).flatMap (fun i =>
    let h := kvHdr s i
    [(kvCove h, kvNF h * pageBytes h), (kvShoal h, kvE h * pageBytes h)])

/-- The lowest free run of `8·E` bytes for page entries (R204). -/
def findRun (s : State) (n : Nat) : Option Nat :=
  let used := (mappedSeqs s).map (fun i => (kvEntBase (kvHdr s i), 8 * kvE (kvHdr s i)))
  let cands := 0x0820_1000 :: used.map (fun r => r.1 + r.2)
  let ok := cands.filter (fun c => !hits used c (8 * n) && c + 8 * n ≤ 0x0830_0000)
  ok.foldl (fun b c => match b with | none => some c | some x => some (min x c)) none

/-- The first header word of KV_MAP with a field out of range, taken alone (R176, R204). -/
def kvBadWord (w : List Word) : Option Nat :=
  let lin := kvLinear w
  if fld w 0 31 27 != 0 || fld w 0 13 12 == 3 || !(kvFmt w == 7 || kvFmt w == 8 || kvFmt w == 10)
    || (lin && fld w 0 21 18 != 0) || kvRes w == 0 || (if lin then 16 < kvRes w else kvTD w < kvRes w) then some 2
  else if (if lin then kvGH w % 64 != 0 || kvGH w == 0 || 1024 < kvGH w || kvGW w != 1
      else kvGH w == 0 || 256 < kvGH w || kvGW w == 0 || 256 < kvGW w) then some 3
  else if kvNF w == 0 || kvLead w < 4 || 64 < kvLead w || bit (wd w 2) 23 || bit (wd w 2) 31 || 64 < kvNG w then some 4
  else if (wd w 3).toNat % 32 != 0 then some 5
  else if (wd w 4).toNat % 64 != 0 then some 6
  else if fld w 5 31 16 != 0 then some 7
  else none

/-- The first packet word at fault among the checks of R204 that relate fields to each other and to the device. -/
def kvBadMap (s : State) (w : List Word) : Option Nat :=
  let part := if kvByPos w then (if kvLinear w then kvLP w else kvPR w) else kvNH w
  if 65535 < kvE w then some 3
  else if kvNF w < kvNH w + 2 * (kvLead w + 2) then some 4
  else if kvPartCount w != 0 && part < kvPartFirst w + kvPartCount w then some 8
  else if 0x0400_0000 < kvCove w + kvNF w * pageBytes w then some 5
  else if !inDram s (kvShoal w) (kvE w * pageBytes w) then some 6
  else if hits (seqRegions s ++ setRegions s ++ fwRegions s) (kvCove w) (kvNF w * pageBytes w) then some 5
  else if hits (seqRegions s ++ setRegions s ++ fwRegions s) (kvShoal w) (kvE w * pageBytes w) then some 6
  else none

/-- KV_MAP (R204). ENTRY_BASE names the run taken. -/
def doKvMap (k : Pkt) (s : State) (ecc : List (Nat × Ecc) := []) : Ans :=
  let w := k.params.take 7
  let id := fld w 0 5 0
  match kvBadWord w with
  | some i => badWord s i
  | none => kvAnswer s (id :: mappedSeqs s) (cs := ecc) fun s =>
    if kvMapped (kvHdr s id) then refuse s .wrongState [] else
    match kvBadMap s w with
    | some i => badWord s i
    | none => match findRun s (kvE w) with
      | none => refuse s .noSpace []
      | some b =>
        let s1 := clearMem s b (8 * kvE w)
        let hdr := w ++ [0, 0, 0, BitVec.ofNat 32 b, 0, 0, 0, 0, 1]
        (storeWords s1 (hdrAddr id) hdr, some (.ok, []))

def execKvMap (k : Pkt) (s : State) (ecc : List (Nat × Ecc) := []) : Out :=
  .next (command 0x30 0 k (fun s => doKvMap k s ecc) s)

/-- KV_UNMAP (R205). -/
def doKvUnmap (k : Pkt) (s : State) (ecc : List (Nat × Ecc) := []) : Ans :=
  let id := fld k.params 0 5 0
  let h := kvHdr s id
  if fld k.params 0 31 6 != 0 then badWord s 2 else
  kvAnswer s [id] (cs := ecc) fun s =>
    if kvMapped h && kvLocked h then refuse s .busy []
    else if !kvMapped h then badWord s 2
    else (unmapSeq (finishCopies s id (eccFor ecc)) id, some (.ok, []))

def execKvUnmap (k : Pkt) (s : State) (ecc : List (Nat × Ecc) := []) : Out :=
  .next (command 0x31 0 k (fun s => doKvUnmap k s ecc) s)

/-- One edit record's effect, or none when its arguments are out of range for the sequence as it stands (R206). -/
def editOne (id : Nat) (s : State) (code a0 a1 : Nat) : Option State :=
  let h := kvHdr s id
  if code = 1 then
    if a0 + a1 ≤ kvE h then some ((List.range a1).foldl (fun s i => invalidate s h (a0 + i)) s) else none
  else if code = 2 then
    if kvLinear h || kvTD h ≤ a0 then none else
    let sl := (kvHead h + kvTD h - a0) % kvTD h
    some ((List.range (kvNH h)).foldl (fun s hd =>
      (List.range (kvPR h * kvPC h)).foldl (fun s i => invalidate s h (gridEntry h hd sl 0 0 + i)) s) s)
  else if code = 3 then
    if !kvLinear h || kvLength h < a0 then none else
    let np := (kvLength h + 63) / 64
    let keep := (a0 + 63) / 64
    let first := (kvHead h + kvLP h - (np - 1)) % kvLP h
    let s1 := (List.range (kvNH h)).foldl (fun s hd => (List.range (np - keep)).foldl (fun s i =>
      invalidate s h (linEntry h hd ((first + keep + i) % kvLP h))) s) s
    let head := if keep = 0 then kvHead h else (first + keep - 1) % kvLP h
    some (setHdr (setHdr s1 id 9 (BitVec.ofNat 32 a0)) id 8
      (kvWord8 head (kvLockCount h) (kvLocked h) (kvAppendHeld h)))
  else if code = 4 then
    let s1 := (List.range (kvE h)).foldl (fun s e => invalidate s h e) s
    some (setHdr (setHdr s1 id 9 0) id 8 (kvWord8 0 (kvLockCount h) (kvLocked h) (kvAppendHeld h)))
  else if code = 5 then
    if a0 = 0 || (if kvLinear h then 16 < a0 else kvTD h < a0) then none else
    some (setHdr s id 0 (BitVec.ofNat 32 ((wd h 0).toNat - kvRes h * 2 ^ 22 + a0 * 2 ^ 22)))
  else none

/-- The edit records of KV_EDIT in order, from packet word `i`: all applied, or the word of the first at fault. -/
def editAll (id : Nat) : List Word → Nat → State → Except Nat State
  | c :: a :: r, i, s =>
    match editOne id s (bits c 3 0) (bits a 15 0) (bits a 31 16) with
    | some s' => editAll id r (i + 2) s'
    | none => .error (i + 1)
  | _, _, s => .ok s

/-- The first edit word with a reserved code or bit (R206). -/
def editBadWord : List Word → Nat → Option Nat
  | c :: _ :: r, i => if bits c 31 4 != 0 || bits c 3 0 == 0 || 5 < bits c 3 0 then some i else editBadWord r (i + 2)
  | _, _ => none

/-- KV_EDIT (R206). -/
def doKvEdit (k : Pkt) (s : State) (ecc : List (Nat × Ecc) := []) : Ans :=
  let id := fld k.params 0 5 0
  let h := kvHdr s id
  let rs := k.params.drop 1
  if fld k.params 0 31 6 != 0 then badWord s 2 else
  match editBadWord rs 3 with
  | some i => badWord s i
  | none => kvAnswer s [id] (cs := ecc) fun s =>
    if kvMapped h && kvLocked h then refuse s .busy []
    else if !kvMapped h then badWord s 2
    else match editAll id rs 3 s with
      | .error i => badWord s i
      | .ok s1 => (fixPoisonPages (bumpHdr s1 id 7) id, some (.ok, []))

def execKvEdit (k : Pkt) (s : State) (ecc : List (Nat × Ecc) := []) : Out :=
  .next (command 0x32 0 k (fun s => doKvEdit k s ecc) s)

/-- PAGE_FETCH_DONE (R196, R225, R226, R233). -/
def execPageFetchDone (seqId entry : Nat) (s : State) (ecc : List Ecc := []) (cs : List (Nat × Ecc) := []) : Out :=
  .next (settle s (kvWork s [seqId] (cs := cs) fun s =>
    if s.kv.fetches.contains (seqId, entry) then fetchDone s seqId entry ecc else s))

/-- PAGE_SPILL_DONE (R196, R207, R229, R233). -/
def execPageSpillDone (seqId entry : Nat) (s : State) (ecc : List Ecc := []) (cs : List (Nat × Ecc) := []) : Out :=
  .next (settle s (kvWork s [seqId] (cs := cs) fun s =>
    if s.kv.spills.contains (seqId, entry) then spillDone s seqId entry ecc else s))

end Sys2Proof.Machine
end

