-- ==== Sys2Proof/Machine/Time.lean ====
section
/-! DEFINITION. The time base, its servo, PTP, captures, pulses and triggers (R311 to R327). -/

namespace Sys2Proof.Machine

/-- A quotient rounded to the nearest integer, ties to even (R110). -/
def rneDiv (n : Int) (d : Nat) : Int :=
  let q := n / (d : Int)
  let r := (n % (d : Int)).toNat
  if 2 * r < d then q else if d < 2 * r then q + 1 else if q % 2 = 0 then q else q + 1

def nominalAddend : Nat := 0x8_0000_0000
def addendL : Nat := 0x0100_0000

def clampL (x : Int) : Int := max (-(addendL : Int)) (min (addendL : Int) x)

/-- Put an addend in force, clamped to nominal ± L (R312). -/
def setAddend (s : State) (a : Int) : State :=
  let c := clampL (a - nominalAddend)
  { s with tb := { s.tb with addend := (nominalAddend + c).toNat, clamped := decide (c ≠ a - nominalAddend) } }

/-- Replace the time-base value, the fraction kept (R315, R317). -/
def setNow (s : State) (t : Nat) : State :=
  { s with tb := { s.tb with sec := t / 1000000000 % 2 ^ 48, ns := t % 1000000000 } }

/-- The entry of a trigger channel in the active set (R323). -/
def trigEntry (s : State) (ch : Nat) : List Word := (activeSet s).sensor.trigs.getD ch []
def trigValid (s : State) (ch : Nat) : Bool := hasActive s && bit (wd (trigEntry s ch) 0) 0
def trigMode (s : State) (ch : Nat) : Nat := fld (trigEntry s ch) 0 2 1

/-- The word of a port entry that holds its frame sync (R282). -/
def fsWord (s : State) (p : Nat) : Word := wd ((activeSet s).sensor.ports.getD p []) 2

/-- Level of an FSYNC pin between pulses (R287). -/
def fsIdle (s : State) (p : Nat) : Bool := hasActive s && bit (fsWord s p) 5 && bit (fsWord s p) 7

/-- The tunnelled edges of a frame sync go to the far end as GPIO messages (R282, R287). -/
def fsTunnel (s : State) (p : Nat) : Bool := hasActive s && bit (fsWord s p) 6
def fsGpio (s : State) (p : Nat) : Nat := fld ((activeSet s).sensor.ports.getD p []) 3 3 0

/-- The active level of a port's frame sync (R282). -/
def fsLevel (s : State) (p : Nat) : Bool := !bit (fsWord s p) 7

/-- PPS_OUT rises, or its width starts again, when it is enabled and the event is the one chosen (R327). -/
def ppsRise (s : State) (trig : Bool) : State :=
  if s.tb.ppsOutEn && s.tb.ppsOutSrc == trig then
    { s with pins := { s.pins with ppsOut := true }, tb := { s.tb with ppsRose := some (now s) } }
  else s

/-- Ports whose frame sync a channel drives, by pin or by message. -/
def fsPorts (s : State) (ch : Nat) : List Nat :=
  (List.range 16).filter (fun p => hasActive s && (bit (fsWord s p) 5 || bit (fsWord s p) 6) && bits (fsWord s p) 4 0 == ch)

/-- A trigger channel fires: its bit in TB.TRIG_FIRED, the frame syncs it drives, PPS_OUT (R272, R282, R287, R324, R327). -/
def fire (s : State) (ch : Nat) : State :=
  let ps := fsPorts s ch
  let s := { s with
    tb := { s.tb with trigFired := s.tb.trigFired ||| BitVec.ofNat 32 (2 ^ ch) }
    sens := { s.sens with
      trigFires := if s.sch.run == .running then modAt s.sens.trigFires ch (fun l => (now s, s.sch.seq) :: l) else s.sens.trigFires
      sp := (s.sens.sp.zipIdx).map (fun x =>
        if ps.contains x.2 then
          { x.1 with fsync := if bit (fsWord s x.2) 5 then fsLevel s x.2 else x.1.fsync, fsAt := some (now s) }
        else x.1) }
    out := { s.out with gpio := s.out.gpio ++ (ps.filter (fsTunnel s)).map (fun p => (p, fsGpio s p, fsLevel s p)) } }
  if bit (wd (trigEntry s ch) 0) 3 then ppsRise s true else s

/-- What the carry into a second does: SECOND channels fire, PPS_OUT may rise (R324, R327). -/
def carryEffects (s : State) : State :=
  let chs := (List.range 32).filter (fun c => trigValid s c && trigMode s c == 2)
  ppsRise (chs.foldl fire s) false

/-- The next `n` carries into a second, each with its effects at that second. -/
def passSecs (n : Nat) (s : State) : State :=
  (List.range n).foldl (fun s _ => carryEffects (advanceTo s ((s.tb.sec + 1) * 1000000000))) s

/-- The time base reaches an instant; each carry into a second on the way has its effects at that second (R311, R324,
R327). -/
def passTo (s : State) (t : Nat) : State := advanceTo (passSecs (t / 1000000000 - s.tb.sec) s) t

/-- `n` CLK_ARR cycles of work pass (4 ns each). -/
def elapse (s : State) (n : Nat) : State := passTo s (now s + 4 * n)

/-- One CLK_PER edge (R311). -/
def tbEdge (t : TimeBase) : TimeBase :=
  let x := t.ns * 2 ^ 32 + t.frac + t.addend
  let n := x / 2 ^ 32
  if n < 1000000000 then { t with ns := n, frac := x % 2 ^ 32 }
  else { t with ns := n - 1000000000, frac := x % 2 ^ 32, sec := (t.sec + 1) % 2 ^ 48 }

/-- The clocks that the time base needs run (R525, R537). -/
def clocked (s : State) : Bool := s.boot != .off && s.boot != .held && s.boot != .noClock && !s.pins.clocksOff

/-- The block with no command waiting: one CLK_PER edge passes, two CLK_ARR cycles, with the effects of a carry. -/
def idleTick (s : State) : State :=
  if clocked s then
    let s1 := { s with tb := tbEdge s.tb, clk := s.clk + 2 }
    if s1.tb.sec == s.tb.sec then s1 else carryEffects s1
  else s

/-- SECONDS_CARRY (R311, R324, R327). -/
def execSecondsCarry (s : State) : Out :=
  .next (if clocked s then passTo s ((s.tb.sec + 1) * 1000000000) else s)

/-- Where a pulse of PPS_OUT that rose at `t` ends (R327). -/
def ppsFall (s : State) (t : Nat) : Nat := t + s.tb.widthMs * 1000000

/-- PPS_OUT_END (R327): the pin falls WIDTH_MS after the event at which it rose; an event on the way starts the width
again. -/
def execPpsOutEnd (s : State) : Out :=
  .next (match s.tb.ppsRose with
    | none => { s with pins := { s.pins with ppsOut := false } }
    | some t =>
      let s1 := passTo s (ppsFall s t)
      if s1.tb.ppsRose == some t then
        { s1 with pins := { s1.pins with ppsOut := false }, tb := { s1.tb with ppsRose := none } } else s1)

/-- A sample saturated to ±(2^31 − 1) (R316). -/
def satSample (e : Int) : Int := max (-(2 ^ 31 - 1)) (min (2 ^ 31 - 1) e)

/-- Lock logic of R318. -/
def servoLock (s : State) (e : Int) : State :=
  let t := s.tb
  if e.natAbs ≤ t.lockThr then
    let g := min 8 (t.good + 1)
    if g = 8 then { s with tb := { t with good := g, bad := 0, locked := true, lockLost := false } }
    else { s with tb := { t with good := g, bad := 0 } }
  else
    let b := min 3 (t.bad + 1)
    if b = 3 && t.locked then setSrc { s with tb := { t with good := 0, bad := b, locked := false, lockLost := true } } 115
    else { s with tb := { t with good := 0, bad := b } }

/-- The servo takes a sample (R317, R318). -/
def takeSample (s : State) (e0 : Int) : State :=
  let e := satSample e0
  let s := { s with tb := { s.tb with lastE := e, samples := (s.tb.samples + 1) % 2 ^ 32 } }
  let s := servoLock s e
  if (s.sch.run == .idle || s.sch.run == .halted) && s.tb.stepThr * 1000 ≤ e.natAbs then
    let t := ((now s : Int) + e) % ((2 ^ 48 * 1000000000 : Nat) : Int)
    let s := setNow s t.toNat
    { s with tb := { s.tb with integral := 0 } }
  else
    let i := clampL (s.tb.integral + rneDiv (s.tb.ki * e) 65536)
    let s := { s with tb := { s.tb with integral := i } }
    setAddend s (nominalAddend + (rneDiv (s.tb.kp * e) 65536 + i))

/-- SERVO_SAMPLE (R317): the source named in SRC gives a sample; FREE has none. -/
def execServoSample (e : Int) (s : State) : Out :=
  .next (if s.tb.src == .free || s.pins.clocksOff then s else settle s (takeSample s e))

/-- SERVO_SAMPLE_TIMEOUT (R318). -/
def execServoSampleTimeout (s : State) : Out :=
  .next (if s.tb.src == .free || s.tb.src == .host || s.tb.sampleTimeout == 0 || !s.tb.locked || s.pins.clocksOff then s
    else setSrc { s with tb := { s.tb with locked := false, lockLost := true, good := 0, bad := 0 } } 115)

/-- SRC codes (R316). -/
def srcOf (n : Nat) : Option ServoSrc :=
  if n = 0 then some .free else if n = 1 then some .pps else if n = 2 then some .ptp
  else if n = 3 then some .host else if n = 4 then some .mapin else none
def ServoSrc.code : ServoSrc → Nat
  | .free => 0 | .pps => 1 | .ptp => 2 | .host => 3 | .mapin => 4

/-- The addend of a source that steers from now on: with FREE, the one last written (R316). -/
def srcAddend (t : TimeBase) (src : ServoSrc) : TimeBase :=
  if src == .free then { t with addend := t.freeAddend, clamped := t.freeClamped }
  else if t.src == .free then { t with freeAddend := t.addend, freeClamped := t.clamped }
  else t

/-- A write of TB.SERVO_CTRL (R316, R348): a reserved SRC leaves SRC, a change of SRC clears the integral and LOCKED
without a source. -/
def writeServoCtrl (s : State) (w : Word) : State :=
  let src := (srcOf (bits w 2 0)).getD s.tb.src
  let t := { s.tb with lockThr := bits w 15 4, stepThr := bits w 23 16, sampleTimeout := bits w 31 24 }
  if src == s.tb.src then { s with tb := t }
  else { s with tb := { srcAddend t src with src := src, integral := 0, locked := false, lockLost := false, good := 0, bad := 0 } }

/-- A write of TB.ADDEND_HI: both halves, clamped, while SRC is FREE (R312, R348). -/
def writeAddendHi (s : State) (w : Word) : State :=
  if s.tb.src == .free then setAddend s ((bits w 3 0 * 2 ^ 32 + s.tb.heldFrac : Nat) : Int) else s

/-- The stamp of an edge on PPS_IN or CAP: the time base less 16 ns (R326). -/
def edgeStamp (s : State) : Nat := now s - 16

/-- PPS_IN_EDGE (R327): an edge of the other polarity, or within 0.5 s of the last one taken, does nothing. -/
def execPpsInEdge (rising : Bool) (s : State) : Out :=
  let t := edgeStamp s
  let near := match s.tb.lastPps with
    | some l => decide (s.clk < l + 125000000)
    | none => false
  .next (if !clocked s || rising == s.tb.ppsInPol || near then s else
    let s := { s with tb := { s.tb with lastPps := some s.clk } }
    if s.tb.src == .pps then
      let n : Int := (t % 1000000000 : Nat)
      settle s (takeSample s (if n < 500000000 then -n else 1000000000 - n))
    else s)

/-- CAP_EDGE (R326). -/
def execCapEdge (ch : Nat) (s : State) : Out :=
  .next (if !clocked s || !s.tb.capEn.getLsbD ch then s else
    let f := s.tb.capFifo.getD ch []
    if f.length < 16 then
      let t := edgeStamp s
      { s with tb := { s.tb with capFifo := setAt s.tb.capFifo ch (f ++ [(t / 1000000000, t % 1000000000)]) } }
    else { s with tb := { s.tb with capOvf := s.tb.capOvf ||| BitVec.ofNat 8 (2 ^ ch) } })

/-- A write of TB.CAP_STATUS (R348): OVERFLOW bits clear, POP removes the entry that was shown, SEL is set. -/
def writeCapStatus (s : State) (w : Word) : State :=
  let t := s.tb
  { s with tb := { t with
      capOvf := t.capOvf &&& ~~~(w.extractLsb' 8 8)
      capFifo := if bit w 19 then modAt t.capFifo t.capSel List.tail else t.capFifo
      capSel := bits w 18 16 } }

/-- TIME_SET (R14, R315, R466). -/
def doTimeSet (k : Pkt) (s : State) : Ans :=
  if fld k.params 1 31 16 != 0 then badWord s 3
  else if 1000000000 ≤ (wd k.params 2).toNat then badWord s 4
  else if !(s.sch.run == .idle || s.sch.run == .halted) then refuse s .wrongState []
  else ({ s with tb := { s.tb with sec := pair48 (wd k.params 0) (wd k.params 1), ns := (wd k.params 2).toNat
                                   frac := 0, integral := 0 } }, some (.ok, []))

def execTimeSet (k : Pkt) (s : State) : Out := .next (command 0x40 0 k (doTimeSet k) s)

/-- TIME_ADJ (R315). -/
def doTimeAdj (k : Pkt) (s : State) : Ans :=
  if s.tb.src != .host then refuse s .wrongState []
  else (takeSample s (sword (wd k.params 0)), some (.ok, []))

def execTimeAdj (k : Pkt) (s : State) : Out := .next (command 0x41 0 k (doTimeAdj k) s)

/-- The first word of TRIGGER_CFG with a reserved code or bit (R320). -/
def tcfgBad (w : List Word) : Option Nat :=
  if fld w 0 7 7 != 0 || fld w 0 31 19 != 0 || fld w 0 6 5 == 3 || (fld w 0 4 4 == 0 && fld w 0 6 5 != 0) then some 2
  else if fld w 1 31 16 != 0 then some 3
  else none

/-- TRIGGER_CFG (R320). -/
def doTriggerCfg (k : Pkt) (s : State) : Ans :=
  match tcfgBad k.params with
  | some i => badWord s i
  | none =>
    if !(s.sch.run == .idle || s.sch.run == .halted) then refuse s .wrongState []
    else ({ s with ts := { s.ts with cfg := k.params.take 10 } }, some (.ok, []))

def execTriggerCfg (k : Pkt) (s : State) : Out := .next (command 0x42 0 k (doTriggerCfg k) s)

/-- TRIGGER_FIRE (R324): a ONCE or REPEAT channel fires in RUNNING at its next instant of the frame. -/
def execTriggerFire (ch : Nat) (s : State) : Out :=
  let e := trigEntry s ch
  let k := s.sens.trigNext.getD ch 0
  let n := if trigMode s ch == 0 then 1 else fld e 3 15 0
  .next (if s.sch.run == .running && trigValid s ch && trigMode s ch ≤ 1 && k < n then
    let t := s.sch.t + fld e 1 26 0 + k * fld e 2 26 0
    let s := passTo s t
    fire { s with sens := { s.sens with trigNext := setAt s.sens.trigNext ch (k + 1) } } ch
  else s)

/-- FSYNC_PULSE_END (R282, R287): WIDTH cycles of 8 ns after its edge the pulse is released; the pin returns to its inactive
level. -/
def execFsyncPulseEnd (n : Nat) (s : State) : Out :=
  let p := s.sens.sp.getD n {}
  let s1 := match p.fsAt with
    | some t => passTo s (t + 8 * bits (fsWord s n) 23 8)
    | none => s
  let msg := if p.fsAt.isSome && fsTunnel s n then [(n, fsGpio s n, !fsLevel s n)] else []
  .next { s1 with
    sens := { s1.sens with sp := modAt s1.sens.sp n (fun x => { x with fsync := fsIdle s n, fsAt := none }) }
    out := { s1.out with gpio := s1.out.gpio ++ msg } }

-- PTP (R319, R321)

def ptpPort (s : State) : Nat := fld s.ts.cfg 0 2 0
def ptpMaster (s : State) : Bool := bit (wd s.ts.cfg 0) 3
def ptp1588 (s : State) : Bool := bit (wd s.ts.cfg 0) 4
def ingLat (s : State) (m : Nat) : Nat := fld s.ts.cfg (2 + m) 15 0
def egrLat (s : State) (m : Nat) : Nat := fld s.ts.cfg (2 + m) 31 16

/-- A corrected ingress stamp of MAC `m` (R284, R321). -/
def ingress (s : State) (m : Nat) : Int := (now s : Int) - (ingLat s m : Int)

/-- A message goes out with the service's domain and transport (R319, R320). -/
def ptpPut (s : State) (seq : Nat) (m : PtpSend) : State :=
  { s with out := { s.out with ptpMsgs := s.out.ptpMsgs ++
    [{ domain := fld s.ts.cfg 0 15 8, transport := fld s.ts.cfg 0 6 5, seq := seq, msg := m }] } }

/-- The corrected egress stamp of a message sent now (R321). -/
def egress (s : State) : Nat := now s + egrLat s (ptpPort s)

/-- An egress event message: its corrected stamp is latched in ETH.PTP_TX_NS (R321, R349). -/
def ptpEvent (s : State) (seq : Nat) (m : PtpSend) : State :=
  let p := ptpPort s
  let t := egress s
  let s1 := ptpPut s seq m
  { s1 with
    sens := { s1.sens with eth := modAt s1.sens.eth p (fun x =>
      { x with txNs := t % 1000000000, txSec := t / 1000000000 % 2 ^ 32 }) }
    out := { s1.out with ptp := s1.out.ptp + 1 } }

/-- A master's two-step Sync (R319). -/
def sendSync (s : State) : State :=
  let n := s.ts.nextSync
  let s1 := ptpPut (ptpEvent s n .sync) n (.followUp (egress s))
  { s1 with ts := { s1.ts with nextSync := (n + 1) % 2 ^ 16 } }

/-- The delay request of the profile's mechanism; its stamp is kept for the response (R319, R321). -/
def sendReq (s : State) : State :=
  let n := s.ts.nextReq
  let s1 := ptpEvent s n (if ptp1588 s then .delayReq else .pdelayReq)
  { s1 with ts := { s1.ts with nextReq := (n + 1) % 2 ^ 16, req := some (n, (egress s : Int)), pendResp := none } }

/-- A Sync's corrected t1 and t2 with the mean path delay in hand: one sample while SRC is PTP (R316, R321). -/
def syncSample (s : State) (t1 t2 : Int) : State :=
  let s := { s with ts := { s.ts with sync := some (t1, t2), pendSync := none } }
  match s.ts.pathDelay with
  | some d => if s.tb.src == .ptp then takeSample s (t1 - t2 + d) else s
  | none => s

def setDelay (s : State) (d : Int) : State :=
  { s with ts := { s.ts with pathDelay := some d, req := none, pendResp := none } }

/-- What a slave does with a Sync or its Follow_Up; a Follow_Up counts for the Sync of its number alone. -/
def onSync (s : State) (seq : Nat) (t : Int) (m : PtpMsg) : State :=
  match m with
  | .syncOneStep t1 => syncSample s t1 t
  | .syncTwoStep => { s with ts := { s.ts with pendSync := some (seq, t) } }
  | .followUp t1 => match s.ts.pendSync with
    | some (n, t2) => if n == seq then syncSample s t1 t2 else s
    | none => s
  | _ => s

/-- The end-to-end mechanism: a master answers a request, a slave takes the response to its own (R319, R321). -/
def onE2e (s : State) (seq : Nat) (t : Int) (m : PtpMsg) : State :=
  match m with
  | .delayReq => if ptpMaster s then ptpPut s seq (.delayResp t) else s
  | .delayResp t4 => match s.ts.sync, s.ts.req with
    | some (t1, t2), some (n, t3) => if n == seq && !ptpMaster s then setDelay s (((t2 - t1) + (t4 - t3)) / 2) else s
    | _, _ => s
  | _ => s

/-- The peer-to-peer mechanism, the same in either role (R319). -/
def onP2p (s : State) (seq : Nat) (t : Int) (m : PtpMsg) : State :=
  match m with
  | .pdelayReq => ptpPut (ptpEvent s seq (.pdelayResp t)) seq (.pdelayRespFollowUp (egress s))
  | .pdelayRespOneStep took => match s.ts.req with
    | some (n, t1) => if n == seq then setDelay s (((t - t1) - took) / 2) else s
    | none => s
  | .pdelayRespTwoStep t2 => match s.ts.req with
    | some (n, _) => if n == seq then { s with ts := { s.ts with pendResp := some (seq, t2, t) } } else s
    | none => s
  | .pdelayRespFollowUp t3 => match s.ts.req, s.ts.pendResp with
    | some (n, t1), some (k, t2, t4) => if n == seq && k == seq then setDelay s (((t4 - t1) - (t3 - t2)) / 2) else s
    | _, _ => s
  | _ => s

/-- PTP_MESSAGE_RECEIVE (R319 to R321): a message of another domain or transport is none of this clock's. -/
def execPtpMessageReceive (m : PtpMsg) (s : State) (h : PtpHdr := ⟨0, 0, 0⟩) : Out :=
  let t := ingress s (ptpPort s)
  .next (if s.rst.pairB || !clocked s || h.domain != fld s.ts.cfg 0 15 8 || h.transport != fld s.ts.cfg 0 6 5 then s else
    let s1 := if ptpMaster s then s else onSync s h.seq t m
    settle s (if ptp1588 s then onE2e s1 h.seq t m else onP2p s1 h.seq t m))

/-- PTP_SYNC_INTERVAL (R319, R321): a master sends Sync; a slave, and either role of the peer-to-peer mechanism, sends its
delay request. -/
def execPtpSyncInterval (s : State) : Out :=
  .next (if s.rst.pairB || !clocked s then s else
    let s1 := if ptpMaster s then sendSync s else s
    if ptpMaster s && ptp1588 s then s1 else sendReq s1)

end Sys2Proof.Machine
end

