-- ==== Sys2Proof/Machine/Boot.lean ====
section
/-! DEFINITION. Chip warm reset, power-up and the events of the electrical boundary (R434, R482, R491 to R493, R513,
R519 to R526, R531, R532, R537, R538). -/

namespace Sys2Proof.Machine

/-- A random word, and the draws after it (R335, R508). -/
def draw (s : State) : Word × State := (Config.freeWord s.free, { s with free := s.free + 1 })

/-- A new boot nonce (R508). -/
def newNonce (s : State) : State :=
  { s with sec := { s.sec with nonce := (List.range 8).map (fun i => Config.freeWord (s.free + i)) }, free := s.free + 8 }

/-- The next generation, skipping 0 (R335). -/
def nextGen (g : BitVec 8) : BitVec 8 := if g + 1 = 0 then 1 else g + 1

/-- A random generation, never 0 (R335). -/
def genOf (w : Word) : BitVec 8 := if w.extractLsb' 0 8 = 0 then 1 else w.extractLsb' 0 8

/-- What a chip warm reset makes of the state (R434, R482): the fault word moves to PRE, work, tokens, counters, slots,
sequences and the links of sensor ports and MACs go, tags and the Mapin generation advance, GLB, PCIE, the fuses, the stores
and their poison stay. A response that is outstanding comes late, with its old tag (R430). -/
def warmState (s : State) (origin : Nat) : State :=
  let u := unmapAll s
  newNonce {
    pending := s.pending, part := s.part, boot := s.boot, warm := true, clk := s.clk, free := s.free
    eng := s.eng.map (fun x => { gen := (x.gen + 1) % 256 })
    mem := u.mem, poison := s.poison, csramBad := u.csramBad
    ms := { fillDone := s.ms.fillDone, trained := s.ms.trained, nextReq := s.ms.nextReq }
    cr := { timedOut := s.cr.timedOut, reclaimed := s.cr.reclaimed ++ s.ms.reqs }
    sens := { isp := s.sens.isp.map (fun x => { gen := (x.gen + 1) % 256 }) }
    map := { gen := nextGen s.map.gen }
    saf := { basePack := s.saf.basePack, pack := s.saf.basePack }
    hl := { mem := s.hl.mem }
    fc := { pre := s.fc.fsw, rDomain := 63, rStep := 3, rOrigin := origin
            warmCount := satAdd 0xFF s.fc.warmCount 1 }
    glb := s.glb, pcie := s.pcie
    sec := { s.sec with fwRunning := false, dUnlock := false, bUnlock := false, unlocked := false, keysReady := false, verified := 0
                        failed := 0, bar4 := 0, tokFailed := 0, load := none, fuse := none, aliasCert := []
                        tokBuf := [], tokStat := 0, fwVersion := 0, fwSvn := 0 }
    secw := { udsOff := s.secw.udsOff, dr := s.secw.dr }
    pins := { s.pins with safeA := false, safeB := false, ppsOut := false }
    out := s.out }

/-- A chip warm reset starts; one that falls due while fuses are programmed waits for their end (R513). -/
def startWarm (s : State) (origin : Nat) : State :=
  if s.boot == .off || s.boot == .held || halted s then s
  else if s.sec.fuse.isSome then { s with secw := { s.secw with resetAfter := true } }
  else warmState s origin

/-- CHIP_WARM_RESET (R434). -/
def execChipWarmReset (s : State) : Out := .next (startWarm s 2)

-- Firmware sections (R494, R496)

/-- Offset and length of section `i` of the image header. -/
def secOfs (h : List Word) (i : Nat) : Nat := (wd h (4 + 2 * i)).toNat
def secLen (h : List Word) (i : Nat) : Nat := (wd h (5 + 2 * i)).toNat

/-- The sections of the image at `a` are copied: pairs A and B to CSRAM, Headland's to its own memory (R494, R513). -/
def copySections (s : State) (a : Nat) : State :=
  let h := s.mem.words a 32
  let s := store s 0x0800_0000 (s.mem.read (a + secOfs h 0) (secLen h 0))
  let s := store s 0x0810_0000 (s.mem.read (a + secOfs h 1) (secLen h 1))
  { s with hl := { s.hl with mem := s.hl.mem.write 0 (s.mem.read (a + secOfs h 2) (secLen h 2)) } }

/-- The alias certificate's signed part and the identity key's signature over it (R509). -/
def certWords (kind len : Nat) (s : State) (svn : Nat) (dig : Nat) (nonce : List Word) (key : List Byte) : List Word :=
  [BitVec.ofNat 32 (kind + 256), BitVec.ofNat 32 len, s.sec.serial.extractLsb' 0 32, s.sec.serial.extractLsb' 32 32,
   BitVec.ofNat 32 s.sec.lifecycle.code, BitVec.ofNat 32 svn, 0, 0] ++ bytesWords (natBytesBE 48 dig) ++ nonce
   ++ bytesWords ((key ++ List.replicate 96 0).take 96) ++ List.replicate 12 0

/-- HMAC-SHA-384 (FIPS 198, named by R508); the key is at most a block long. -/
def hmac384 (key msg : List Byte) : Nat :=
  let k := key ++ List.replicate (128 - key.length) 0
  let mix (x : Byte) : List Byte := k.map (fun b => b ^^^ x)
  Config.sha384 (mix 0x5C ++ natBytesBE 48 (Config.sha384 (mix 0x36 ++ msg)))

/-- "THOIG16-IDENTITY". -/
def identityLabel : List Byte :=
  [0x54, 0x48, 0x4F, 0x49, 0x47, 0x31, 0x36, 0x2D, 0x49, 0x44, 0x45, 0x4E, 0x54, 0x49, 0x54, 0x59]

/-- The order of the group of P-384 (FIPS 186-5). -/
def p384Order : Nat :=
  0xFFFF_FFFF_FFFF_FFFF_FFFF_FFFF_FFFF_FFFF_FFFF_FFFF_FFFF_FFFF_C763_4D81_F437_2DDF_581A_0DB2_48B0_A77A_ECEC_196A_CCC5_2973

/-- The identity key of a UDS: the counter-mode derivation of SP 800-108 with HMAC-SHA-384, 512 bits, reduced to a private
key (R508). PRESUMED (log 49): counter and length as 32-bit big-endian numbers, an empty context. -/
def identityKey (uds : Nat) : Nat :=
  let block (i : Nat) : List Byte := natBytesBE 48 (hmac384 (natBytesBE 32 uds)
    (natBytesBE 4 i ++ identityLabel ++ [0] ++ natBytesBE 4 512))
  beNat ((block 1 ++ block 2).take 64) % (p384Order - 1) + 1

/-- The identity key of the part, where its UDS can be sensed (R503, R504, R508, R511). -/
def partKey (s : State) : Option Nat :=
  if s.sec.erased || s.secw.udsOff || s.sec.udsDis || s.sec.lifecycle == .retired then none else s.sec.uds.map identityKey

/-- 96 bytes of a signature (R509, R510). -/
def sigBytes (key : Nat) (msg : List Byte) : List Byte := (Config.ecdsaSign key msg ++ List.replicate 96 0).take 96

/-- A new alias key and its certificate for the image at `a`, signed by the identity key where there is one (R494, R508,
R509). The keys stay erased after tamper. -/
def makeAlias (s : State) (a : Nat) : State :=
  match partKey s with
  | none => s
  | some d =>
    let r := draw s
    let s := r.2
    let key := r.1.toNat
    let svn := fld (s.mem.words a 32) 2 6 0
    let part := wordsBytes (certWords 1 352 s svn s.sec.fwDigest s.sec.nonce (Config.publicKey key))
    { s with sec := { s.sec with aliasKey := key, aliasCert := part ++ sigBytes d part } }

/-- The firmware of the image at `a` runs, with the image's numbers in force (R494). -/
def runFirmware (s : State) (a : Nat) : State :=
  let h := s.mem.words a 32
  { s with
    boot := .firmware
    sec := { s.sec with
      fwRunning := true, fwVersion := wd h 1, fwSvn := fld h 2 6 0
      minSvn := [fld h 12 7 0, fld h 12 15 8, fld h 12 23 16, fld h 12 31 24, fld h 13 7 0, fld h 13 15 8] } }

/-- The image in the protected region still has the digest that LOAD_FIRMWARE verified (R513). -/
def fwIntact (s : State) : Bool :=
  match s.sec.fwRegion with
  | some (a, n) => Config.sha384 (s.mem.read a (n - 2240)) == s.sec.fwDigest
  | none => false

/-- The identity key exists unless it was erased or the UDS is unreadable (R503, R508, R511). -/
def deriveKey (s : State) : State := { s with sec := { s.sec with keysReady := (partKey s).isSome } }

/-- Announcements become due on ports H and S (R48, R460). -/
def dueAnnounce (s : State) : State :=
  { s with cmd := { s.cmd with h := { s.cmd.h with annPend := true }, s := { s.cmd.s with annPend := true } } }

-- Power-up (R491, R519 to R523)

/-- The device as power-on leaves it: the fuses alone survive; the thermal latch clears only with the rails (R520,
R523, R537). -/
def coldState (s : State) (boot : Boot) (keepLatch : Bool) : State :=
  { pending := s.pending, part := s.part, boot := boot, clk := s.clk, free := s.free
    sec := { lifecycle := s.sec.lifecycle, fwSvnMin := s.sec.fwSvnMin, serial := s.sec.serial, revoked := s.sec.revoked
             owner0 := s.sec.owner0, owner1 := s.sec.owner1, idCert := s.sec.idCert
             uds := s.sec.uds, udsDis := s.sec.udsDis }
    pcie := { perst := s.pcie.perst }
    pins := { flowLow := s.pins.flowLow, hot := s.pins.hot, refSys := s.pins.refSys, refEth := s.pins.refEth
              thermtrip := keepLatch && s.pins.thermtrip }
    hl := {} }

/-- A part in MANUFACTURE without a UDS makes one from its DRBG (R503, R508). -/
def makeUds (s : State) : State :=
  if s.sec.lifecycle == .manufacture && s.sec.uds.isNone then
    { s with sec := { s.sec with uds := some (beNat (wordsBytes ((List.range 8).map (fun i => Config.freeWord (s.free + i))))) }
             free := s.free + 8 }
  else s

/-- POWER_ON (R519): the rails are up and RESET_N is low; the output pins drive low (R531). -/
def execPowerOn (s : State) : Out := .next (if s.boot == .off then makeUds (coldState s .held false) else s)

/-- Fuses being programmed end blown or not as power is lost (R502, R504): each choice is a free value. -/
def fusesCut (s : State) : State :=
  match s.sec.fuse with
  | none => s
  | some f =>
    let w := Config.freeWord s.free
    let lc := match f.target with
      | some t => if bit w 7 then t else s.sec.lifecycle
      | none => s.sec.lifecycle
    let part (o : Option Nat) (old : Option Nat) (i : Nat) : Option Nat :=
      match o with
      | some d => if bit w i then (if bit w (i + 1) then some d else some (2 ^ 384)) else old
      | none => old
    { s with
      free := s.free + 1
      sec := { s.sec with
        fuse := none, lifecycle := lc
        fwSvnMin := if s.sec.fwSvnMin < f.svn then s.sec.fwSvnMin + bits w 31 16 % (f.svn - s.sec.fwSvnMin + 1)
          else s.sec.fwSvnMin
        revoked := s.sec.revoked ||| (f.revoke &&& w.extractLsb' 0 4)
        owner0 := part f.owner0 s.sec.owner0 8
        owner1 := part f.owner1 s.sec.owner1 10
        udsDis := s.sec.udsDis || (f.retire && bit w 13)
        idCert := if f.cert.isEmpty || !bit w 12 then s.sec.idCert else f.cert } }

/-- POWER_LOSS (R521): everything but the fuses is lost. -/
def execPowerLoss (s : State) : Out := .next (coldState (fusesCut s) .off false)

/-- The device resets as at a power-on; the thermal latch, if the rail of its flip-flop holds, and its source stay (R520,
R522, R537). -/
def resetAll (s : State) (keepLatch : Bool) : State :=
  let s1 := coldState (fusesCut s) .held keepLatch
  if keepLatch && s.pins.thermtrip then { s1 with fc := { s1.fc with fsw := s.fc.fsw &&& srcBit 94 } } else s1

/-- RESET_N_PULSE (R520): at least 10 µs resets as a power-on; under 1 µs nothing; between, a free value decides. With
the thermal latch set the device does not restart (R542). -/
def execResetNPulse (ns : Nat) (s : State) : Out :=
  let go := decide (10000 ≤ ns) || (decide (1000 ≤ ns) && bit (Config.freeWord s.free) 0)
  let s1 := if decide (1000 ≤ ns) && decide (ns < 10000) then { s with free := s.free + 1 } else s
  .next (if s.boot == .off || !go then s1 else resetAll s1 true)

/-- RESET_RELEASE (R335, R491, R525): with REFCLK_SYS absent step 2 does not complete and source 91 sets; else training
begins, with the Mapin generation drawn. -/
def execResetRelease (refSysPresent : Bool) (s : State) : Out :=
  .next (if s.boot != .held || s.pins.thermtrip then s else
    let s := { s with pins := { s.pins with refSys := refSysPresent } }
    if !refSysPresent then settle s (setSrc { s with boot := .noClock } 91) else
    let r := draw s
    { r.2 with boot := .training, map := { r.2.map with gen := genOf r.1 } })

/-- DRAM_TRAINING_DONE (R228): a failed channel sets source 79 and keeps the control cores unreleased. -/
def execDramTrainingDone (failed : List Nat) (s : State) : Out :=
  .next (if s.boot != .training || halted s then s
    else if failed.isEmpty then { s with boot := .filling, ms := { s.ms with trained := true } }
    else settle s (setSrc { s with boot := .untrained } 79))

/-- MEMORY_FILL_DONE (R236, R491): every store reads 0 with no poison; the identity key is derived and the boot nonce drawn,
and the control cores are released. -/
def execMemoryFillDone (s : State) : Out :=
  .next (if s.boot != .filling || halted s then s else
    let s := newNonce (deriveKey s)
    { s with boot := .injecting, mem := [], poison := [], csramBad := [], hl := { s.hl with mem := [] }
             ms := { s.ms with fillDone := true } })

/-- STARTUP_INJECTION_DONE (R387, R388, R383): the checkers that failed show in SAF.INJ_STATUS, engines that failed a
slice are quarantined, the counters return to 0, the level sources that hold set, the ready indications rise. -/
def execStartupInjectionDone (failed badEngines : List Nat) (s : State) : Out :=
  .next (if (s.boot != .injecting && !s.warm) || halted s then s else
    let m := (List.range 17).foldl (fun a i => if failed.contains i then a + 2 ^ i else a) 0
    let s1 := { s with
      boot := if s.boot == .injecting then .rom else s.boot
      saf := { s.saf with injDone := true, injFail := decide (m ≠ 0), injMask := BitVec.ofNat 17 m }
      eng := s.eng.zipIdx.map (fun x => { x.1 with quar := x.1.quar || badEngines.contains x.2 }) }
    let s2 := settle s (levelSources s1)
    if s.boot == .injecting && ready s2 .H then msix s2 1 else s2)

-- The electrical boundary

/-- VOLTAGE_MONITOR_TRIP (R522): a collapse of VDD_CORE, VDD_SRAM or VDD_IO18 resets the device and prevails over
source 92; the thermal latch holds until VDD_IO18 itself falls (R537). -/
def execVoltageMonitorTrip (rail : Rail) (collapsed : Bool) (s : State) : Out :=
  .next (if s.boot == .off then s
    else if collapsed && rail != .other then resetAll s (rail != .io18)
    else settle s (setSrc s 92))

/-- CLOCK_MONITOR_TRIP (R525): source 91, the SAFE outputs clamped low; with REFCLK_SYS lost the derived clocks stop. -/
def execClockMonitorTrip (k : ClockEvent) (s : State) : Out :=
  .next (if s.boot == .off then s else
    let s1 := settle s (setSrc s 91)
    { s1 with
      saf := { s1.saf with clamp := true }
      pins := { s1.pins with safeA := false, safeB := false
                             clocksOff := s1.pins.clocksOff || k == .refSysLost
                             refSys := s1.pins.refSys && k != .refSysLost } })

/-- TEMP_WARNING (R537): at 105 °C the condition of source 93 begins, below 100 °C it ends. "It clears below 100 °C". -/
def execTempWarning (celsius : Int) (s : State) : Out :=
  .next (
    if 105 ≤ celsius then levelSources { s with pins := { s.pins with hot := true } }
    else if celsius < 100 then { s with pins := { s.pins with hot := false } }
    else s)

/-- TEMP_SHUTDOWN (R537): sources 93 and 94, THERMTRIP_N low, PCIe down. -/
def execTempShutdown (s : State) : Out :=
  .next (if s.boot == .off then s else
    let s1 := levelSources { s with pins := { s.pins with hot := true } }
    let s2 := settle s (setSrc s1 94)
    let s3 := fusesCut s2
    { s3 with pins := { s3.pins with thermtrip := true }, pcie := { s3.pcie with up := false, speed := 0 } })

/-- FLOW_OK_LOW (R538). -/
def execFlowOkLow (low : Bool) (s : State) : Out :=
  .next (levelSources { s with pins := { s.pins with flowLow := low } })

/-- TAMPER_TRIP (R511): source 120, or 122 for a fuse row's parity; the keys are erased and UDS sensing blocked until
power-on; a firmware load is abandoned (R514). -/
def execTamperTrip (k : TamperKind) (s : State) : Out :=
  let b : BitVec 4 := match k with
    | .supply => 1 | .clock => 2 | .light => 4 | .shield => 8 | .fuseParity => 0
  .next (if s.boot == .off then s else
    let s1 := match s.sec.load with
      | some l => finishTok s l.token .aborted []
      | none => s
    let s2 := { s1 with
      sec := { s1.sec with tamper := s1.sec.tamper ||| b, erased := true, keysReady := false, aliasCert := []
                           aliasKey := 0, load := none }
      secw := { s1.secw with udsOff := true } }
    settle s (setSrc s2 (if k == .fuseParity then 122 else 120)))

/-- SAFE_MONITOR_TRIP (R532): both outputs clamp low; the trust state and the sources are unaffected. -/
def execSafeMonitorTrip (s : State) : Out :=
  .next { s with saf := { s.saf with clamp := true }, pins := { s.pins with safeA := false, safeB := false } }

/-- SAFE_TOGGLE (R369): while TRUSTED and not clamped the outputs change level in antiphase. -/
def execSafeToggle (s : State) : Out :=
  .next (if s.saf.trust == .trusted && !s.saf.clamp && !s.pins.clocksOff then
    { s with pins := { s.pins with safeA := !s.pins.safeA, safeB := s.pins.safeA } }
  else { s with pins := { s.pins with safeA := false, safeB := false } })

/-- PCIE_AER_ERROR (R470): sources 100 and 101. -/
def execPcieAerError (uncorrectable : Bool) (s : State) : Out :=
  .next (if uncorrectable then
      setSrc { s with pcie := { s.pcie with aerUc := satAdd 0xFFFF s.pcie.aerUc 1 } } 101
    else setSrc { s with pcie := { s.pcie with aerCe := satAdd 0xFFFF s.pcie.aerCe 1 } } 100)

/-- Words of the configuration header, by dword: IDs, class code with revision, the BARs with their types, subsystem IDs (R2,
R470, R471). -/
def configWord (x : Pcie) (i : Nat) : Word :=
  if i = 0 then BitVec.ofNat 32 (x.vendorId + 65536 * x.deviceId)
  else if i = 2 then 0x1200_00B1
  else if i = 4 then BitVec.ofNat 32 (x.bar0 % 2 ^ 32 + 4)
  else if i = 6 then BitVec.ofNat 32 (x.bar2 % 2 ^ 32 + 0xC)
  else if i = 8 then BitVec.ofNat 32 (x.bar4 % 2 ^ 32 + 0xC)
  else if i = 5 then BitVec.ofNat 32 (x.bar0 / 2 ^ 32)
  else if i = 7 then BitVec.ofNat 32 (x.bar2 / 2 ^ 32)
  else if i = 9 then BitVec.ofNat 32 (x.bar4 / 2 ^ 32)
  else if i = 11 then 0x0016_1F3E
  else 0

/-- The MSI-X capability's control word, and the places of its table and its pending bits in BAR0 (R489). PRESUMED (log 50):
its layout is the base specification's. -/
def msixCap (x : Pcie) : List Word := [BitVec.ofNat 32 (0x11 + 65536 * (15 + 32768 * b2n x.msixEn)), 0x000A_0800, 0x000A_0C00]

/-- Device control, link control and the AER control that the function offers (R470); layouts as the base specification
gives them. PRESUMED (log 50). -/
def devCtl (x : Pcie) : Nat := 32 * x.mps + 4096 * x.mrrs
def linkCtl (x : Pcie) : Nat := 2 * b2n x.l1
def aerCtl (x : Pcie) : Nat := 0xA0 + 64 * b2n x.ecrcGen + 256 * b2n x.ecrcCheck

/-- The configuration space at its defaults: BARs unassigned, bus mastering and MSI-X off (R526). -/
def pcieDefaults (x : Pcie) : Pcie :=
  { x with vendorId := 0x1F3E, deviceId := 0x1620, bar0 := 0, bar2 := 0, bar4 := 0, busMaster := false, msixEn := false, d3hot := false,
           mps := 0, mrrs := 2, l1 := false, ecrcGen := false, ecrcCheck := false }

/-- PERST_N_CHANGE (R526). -/
def execPerstNChange (low : Bool) (s : State) : Out :=
  .next (if low then { s with pcie := { pcieDefaults s.pcie with perst := true, up := false, speed := 0 } }
    else { s with pcie := { s.pcie with perst := false } })

/-- PCIE_LINK_CHANGE (R488, R491). -/
def execPcieLinkChange (up : Bool) (speed width : Nat) (reversed : Bool) (s : State) : Out :=
  .next (if up && (s.pcie.perst || s.pins.thermtrip || s.boot == .off || s.boot == .held || s.boot == .noClock) then s else
    { s with pcie := { s.pcie with up := up, speed := if up then speed else 0, width := width, reversed := reversed } })

/-- Pending vectors are signalled once MSI-X is enabled and they are not masked (R489). -/
def msixDrain (s : State) : State :=
  (List.range 16).foldl (fun s v =>
    if s.pcie.pba.getLsbD v && s.pcie.msixEn && !(s.pcie.msix.getD v {}).mask && s.pcie.busMaster then
      { s with pcie := { s.pcie with pba := s.pcie.pba &&& ~~~(BitVec.ofNat 16 (2 ^ v)) }
               out := { s.out with msix := s.out.msix ++ [v] } }
    else s) s

/-- The base that a BAR of `2 ^ k` bytes holds after a write of all of it, or of its upper half (R471). -/
def barBase (k old b : Nat) (upper : Bool) : Nat :=
  if upper then old % 2 ^ 32 + b % 2 ^ 32 * 2 ^ 32 else b % 2 ^ 64 / 2 ^ k * 2 ^ k

/-- PCIE_CONFIG_WRITE (R470, R471, R526). -/
def execPcieConfigWrite (c : CfgWrite) (s : State) : Out :=
  .next (if s.pcie.perst then s else match c with
    | .bar n b => { s with pcie := { s.pcie with
        bar0 := if n / 2 == 0 then barBase 24 s.pcie.bar0 b (n % 2 == 1) else s.pcie.bar0
        bar2 := if n / 2 == 1 then barBase 27 s.pcie.bar2 b (n % 2 == 1) else s.pcie.bar2
        bar4 := if n / 2 == 2 then barBase 32 s.pcie.bar4 b (n % 2 == 1) else s.pcie.bar4 } }
    | .maxPayload c => if c ≤ 2 then { s with pcie := { s.pcie with mps := c } } else s
    | .maxReadRequest c => if c ≤ 5 then { s with pcie := { s.pcie with mrrs := c } } else s
    | .aspmL1 on => { s with pcie := { s.pcie with l1 := on } }
    | .ecrc g c => { s with pcie := { s.pcie with ecrcGen := g, ecrcCheck := c } }
    | .busMaster on => msixDrain { s with pcie := { s.pcie with busMaster := on } }
    | .msixEnable on => msixDrain { s with pcie := { s.pcie with msixEn := on } }
    | .powerState d => { s with pcie := { s.pcie with d3hot := d } })

end Sys2Proof.Machine
end

