-- ==== Sys2Proof/Machine/Fp.lean ====
section
/-! DEFINITION. Element formats and arithmetic: decoding and conversion (R103 to R112), exact sums and products, and
rounding to nearest, ties to even (R110). -/

namespace Sys2Proof.Machine

/-- Signed or unsigned integer formats (R103). -/
def fmtInt (f : Nat) : Bool := f ≤ 4

/-- Exponent bits, mantissa bits and bias of a float format (R105). -/
def fmtParm (f : Nat) : Nat × Nat × Nat :=
  if f = 5 then (2, 1, 1) else if f = 6 then (3, 2, 3) else if f = 7 then (4, 3, 7) else if f = 8 then (5, 2, 15)
  else if f = 9 then (5, 10, 15) else if f = 10 then (8, 7, 127) else (8, 23, 127)

/-- Least and greatest value of an integer format (R103). -/
def fmtMin (f : Nat) : Int := if f = 2 then 0 else -(2 ^ (fmtBits f - 1))
def fmtMax (f : Nat) : Int := if f = 2 then 255 else 2 ^ (fmtBits f - 1) - 1

/-- Largest finite magnitude of a float format, as mantissa and exponent (R105). -/
def fmtTop (f : Nat) : Nat × Int :=
  if f = 5 then (3, 1) else if f = 6 then (7, 2) else if f = 7 then (14, 5) else if f = 8 then (7, 13)
  else if f = 9 then (2047, 5) else if f = 10 then (255, 120) else (2 ^ 24 - 1, 104)

-- Exact values

def FV.zero : FV := .fin false 0 0

/-- An integer as a value. -/
def FV.ofInt (v : Int) : FV := .fin (decide (v < 0)) v.natAbs 0

def FV.neg : FV → FV
  | .nan => .nan
  | .inf n => .inf (!n)
  | .fin n m e => .fin (!n) m e

def FV.abs : FV → FV
  | .nan => .nan
  | .inf _ => .inf false
  | .fin _ m e => .fin false m e

/-- Sign and magnitude as one signed integer at exponent `q`, at most the value's own. -/
def FV.sig (n : Bool) (m : Nat) (e q : Int) : Int :=
  let v : Int := Int.ofNat (m * 2 ^ (e - q).toNat)
  if n then -v else v

/-- The exact sum; two zeros give −0 only when both are −0 (R107). -/
def FV.add : FV → FV → FV
  | .nan, _ | _, .nan => .nan
  | .inf a, .inf b => if a == b then .inf a else .nan
  | .inf a, _ => .inf a
  | _, .inf b => .inf b
  | .fin n m e, .fin n' m' e' =>
    let q := min e e'
    let t := FV.sig n m e q + FV.sig n' m' e' q
    if t = 0 then .fin (n && n') 0 q else .fin (decide (t < 0)) t.natAbs q

def FV.sub (a b : FV) : FV := FV.add a b.neg

/-- The exact product. -/
def FV.mul : FV → FV → FV
  | .nan, _ | _, .nan => .nan
  | .inf a, .inf b => .inf (a != b)
  | .inf a, .fin n m _ | .fin n m _, .inf a => if m = 0 then .nan else .inf (a != n)
  | .fin n m e, .fin n' m' e' => .fin (n != n') (m * m') (e + e')

/-- The exact sum of a list, from +0. -/
def FV.sum (l : List FV) : FV := l.foldl FV.add FV.zero

/-- `a < b`; false for a NaN. -/
def FV.lt : FV → FV → Bool
  | .nan, _ | _, .nan => false
  | .inf a, .inf b => a && !b
  | .inf a, _ => a
  | _, .inf b => !b
  | .fin n m e, .fin n' m' e' =>
    let q := min e e'
    decide (FV.sig n m e q < FV.sig n' m' e' q)

def FV.isNan : FV → Bool
  | .nan => true
  | _ => false

def FV.finite : FV → Bool
  | .fin _ _ _ => true
  | _ => false

/-- max and min keep a NaN (R108). -/
def FV.max (a b : FV) : FV := if a.isNan || b.isNan then .nan else if FV.lt a b then b else a
def FV.min (a b : FV) : FV := if a.isNan || b.isNan then .nan else if FV.lt b a then b else a

/-- A quotient of naturals rounded to nearest, ties to even. -/
def rneNat (n d : Nat) : Nat :=
  let q := n / d
  let r := n % d
  if 2 * r < d then q else if d < 2 * r then q + 1 else if q % 2 = 0 then q else q + 1

/-- Rounding to a precision of `p` bits with no bit below `2^emin` (R110). -/
def roundMag (p : Nat) (emin : Int) (m : Nat) (e : Int) : Nat × Int :=
  if m = 0 then (0, e) else
  let q := max (e + (Nat.log2 m + 1) - p) emin
  if q ≤ e then (m, e) else (rneNat m (2 ^ (q - e).toNat), q)

/-- A magnitude exceeds another. -/
def magLt (m : Nat) (e : Int) (m' : Nat) (e' : Int) : Bool :=
  let q := min e e'
  decide (m * 2 ^ (e - q).toNat < m' * 2 ^ (e' - q).toNat)

/-- Rounding into FP32 in an accumulator or an operation: beyond range it becomes an infinity (R114, R115). -/
def fp32 : FV → FV
  | .fin n m e =>
    let r := roundMag 24 (-149) m e
    if magLt (2 ^ 24 - 1) 104 r.1 r.2 then .inf n else .fin n r.1 r.2
  | x => x

/-- Rounding into the 48-bit significand of the 64-bit accumulators (R74, R114). DESIGN CHOICE (log 42): the exponent
range, which no rule gives, has no bound that FP32 products can reach. -/
def fp48 : FV → FV
  | .fin n m e => let r := roundMag 48 (-100000) m e; .fin n r.1 r.2
  | x => x

def add32 (a b : FV) : FV := fp32 (FV.add a b)
def sub32 (a b : FV) : FV := fp32 (FV.sub a b)
def mul32 (a b : FV) : FV := fp32 (FV.mul a b)

/-- One correctly rounded FP32 division. -/
def div32 : FV → FV → FV
  | .nan, _ | _, .nan => .nan
  | .inf _, .inf _ => .nan
  | .inf a, .fin n _ _ => .inf (a != n)
  | .fin n _ _, .inf a => .fin (a != n) 0 0
  | .fin n m e, .fin n' m' e' =>
    if m' = 0 then (if m = 0 then .nan else .inf (n != n')) else
    let k := 64 + Nat.log2 m'
    let q := m * 2 ^ k / m'
    let st := if m * 2 ^ k % m' = 0 then 0 else 1
    fp32 (.fin (n != n') (2 * q + st) (e - e' - k - 1))

/-- Decode an element of a float format (R105, R106). -/
def decodeFloat (f v : Nat) : FV :=
  let p := fmtParm f
  let eb := p.1
  let mb := p.2.1
  let m := v % 2 ^ mb
  let e := v / 2 ^ mb % 2 ^ eb
  let n := decide (v / 2 ^ (mb + eb) % 2 = 1)
  if 8 ≤ f && e = 2 ^ eb - 1 then (if m = 0 then .inf n else .nan)
  else if f = 7 && e = 15 && m = 7 then .nan
  else if e = 0 then .fin n m (1 - (p.2.2 : Int) - mb)
  else .fin n (2 ^ mb + m) ((e : Int) - p.2.2 - mb)

/-- Decode an element (R104, R106). -/
def decodeElem (f v : Nat) : Num :=
  if f = 2 then .i (Int.ofNat (v % 256))
  else if fmtInt f then .i (sext (fmtBits f) v)
  else .f (decodeFloat f v)

/-- A number as a float value. -/
def Num.fv : Num → FV
  | .i v => FV.ofInt v
  | .f x => x

/-- A number as an integer; floats do not occur where this is used. -/
def Num.int : Num → Int
  | .i v => v
  | .f _ => 0

/-- The canonical NaN of a float format; FP4 and FP6 have none and take +0 (R108, R111). -/
def canonNan (f : Nat) : Nat :=
  if f = 7 then 0x7F else if f = 8 then 0x7E else if f = 9 then 0x7E00 else if f = 10 then 0x7FC0
  else if f = 11 then 0x7FC0_0000 else 0

/-- Encode a magnitude that has at most the precision of the format and is in range. -/
def encodeMag (f : Nat) (n : Bool) (m : Nat) (e : Int) : Nat :=
  let p := fmtParm f
  let eb := p.1
  let mb := p.2.1
  let emin : Int := 1 - (p.2.2 : Int) - mb
  let s := if n then 2 ^ (mb + eb) else 0
  if m = 0 then s else
  let top : Int := e + Nat.log2 m
  if top < emin + mb then s + (if emin ≤ e then m * 2 ^ (e - emin).toNat else m / 2 ^ (emin - e).toNat)
  else
    let q := top - mb
    let mm := if q ≤ e then m * 2 ^ (e - q).toNat else m / 2 ^ (q - e).toNat
    s + (top + p.2.2).toNat * 2 ^ mb + (mm - 2 ^ mb)

/-- Conversion of a float value into a float format, and whether it counts a saturation event (R111, R112). -/
def toFloat (f : Nat) : FV → Nat × Bool
  | .nan => (canonNan f, true)
  | .inf n => (encodeMag f n (fmtTop f).1 (fmtTop f).2, true)
  | .fin n m e =>
    let p := fmtParm f
    let r := roundMag (p.2.1 + 1) (1 - (p.2.2 : Int) - p.2.1) m e
    if magLt (fmtTop f).1 (fmtTop f).2 r.1 r.2 then (encodeMag f n (fmtTop f).1 (fmtTop f).2, true)
    else (encodeMag f n r.1 r.2, false)

/-- A finite value rounded to an integer, ties to even. -/
def roundInt (n : Bool) (m : Nat) (e : Int) : Int :=
  let v : Int := if 0 ≤ e then Int.ofNat (m * 2 ^ e.toNat) else Int.ofNat (rneNat m (2 ^ (-e).toNat))
  if n then -v else v

/-- Saturation of an integer to a format. -/
def satInt (f : Nat) (v : Int) : Int × Bool :=
  if v < fmtMin f then (fmtMin f, true) else if fmtMax f < v then (fmtMax f, true) else (v, false)

/-- The bits of an integer in a format. -/
def intBits (f : Nat) (v : Int) : Nat := (v % (2 ^ fmtBits f : Nat)).toNat

/-- Conversion into any format with a zero point added before saturation (R89, R111). -/
def convert (f : Nat) (zp : Int) (x : Num) : Nat × Bool :=
  if fmtInt f then
    match x with
    | .i v => let r := satInt f (v + zp); (intBits f r.1, r.2)
    | .f .nan => (0, true)
    | .f (.inf n) => (intBits f (if n then fmtMin f else fmtMax f), true)
    | .f (.fin n m e) => let r := satInt f (roundInt n m e + zp); (intBits f r.1, r.2)
  else toFloat f x.fv

/-- A value converted to FP32: beyond range it is the largest finite magnitude (R111). -/
def toFp32 (x : FV) : FV :=
  match x with
  | .fin _ _ _ => decodeFloat 11 (toFloat 11 x).1
  | x => x

/-- The code with which an element is written again in its own format: a NaN is canonical, an infinity the largest
finite magnitude (R108, R111). -/
def recode (f v : Nat) : Nat := (convert f 0 (decodeElem f v)).1

/-- FP32 bit pattern of a value, and back. -/
def enc32 (x : FV) : Word := match x with
  | .inf n => if n then 0xFF80_0000 else 0x7F80_0000
  | .nan => 0x7FC0_0000
  | .fin _ _ _ => BitVec.ofNat 32 (toFloat 11 x).1
def dec32 (w : Word) : FV := decodeFloat 11 w.toNat

-- The elementary functions, to about 2^-88, against which the bounds of R86 and R185 are held

/-- A quotient of finite values. -/
def divFix : FV → FV → FV
  | .fin n m e, .fin n' m' e' => .fin (n != n') (m * 2 ^ 200 / m') (e - e' - 200)
  | _, _ => .nan

/-- ln 2 in units of 2^-96. -/
def ln2Fix : Nat := 54916777467707473351141471128

/-- exp(-r) for `r` in units of 2^-96, below ln 2, by its series. -/
def expSeries (r : Int) : Int :=
  ((List.range 40).foldl (fun (a : Int × Int) k => let t := a.2 * (-r) / (2 ^ 96 * (k + 1)); (a.1 + t, t)) (2 ^ 96, 2 ^ 96)).1

/-- e^-v of a value's magnitude v; 0 from 4,096 on. -/
def expNeg : FV → FV
  | .fin _ m e =>
    if !magLt m e 4096 0 then FV.zero else
    let a : Nat := if -96 ≤ e then m * 2 ^ (e + 96).toNat else m / 2 ^ (-96 - e).toNat
    .fin false (expSeries (a % ln2Fix : Nat)).toNat (-96 - (a / ln2Fix : Nat))
  | _ => .nan

/-- ln of a positive finite value: its exponent's part and twice the series of artanh. -/
def lnFix : FV → FV
  | .fin _ m e =>
    let k := Nat.log2 m
    let z : Int := ((m : Int) - 2 ^ k) * 2 ^ 96 / (m + 2 ^ k)
    let s := ((List.range 40).foldl (fun (a : Int × Int) i =>
      (a.1 + a.2 / (2 * (i : Int) + 1), a.2 * z / 2 ^ 96 * z / 2 ^ 96)) (0, z)).1
    let v : Int := (e + k) * ln2Fix + 2 * s
    .fin (decide (v < 0)) v.natAbs (-96)
  | _ => .nan

/-- 1 / (1 + e^-x). -/
def sigmoidFix (x : FV) : FV :=
  let t := expNeg x
  let d := FV.add (.fin false 1 0) t
  if FV.lt x FV.zero then divFix t d else divFix (.fin false 1 0) d

/-- The exact functions of R86, by ACT code, on a finite value. -/
def actExact (code : Nat) (x : FV) : FV :=
  let two (y : FV) : FV := FV.mul (.fin false 2 0) y
  if code = 5 then sigmoidFix x
  else if code = 6 then
    (let t := expNeg (two x)
     let y := divFix (FV.sub (.fin false 1 0) t) (FV.add (.fin false 1 0) t)
     if FV.lt x FV.zero then y.neg else y)
  else if code = 7 then
    (let c := divFix (FV.mul (FV.ofInt 44715) (FV.mul x (FV.mul x x))) (FV.ofInt 1000000)
     FV.mul x (sigmoidFix (two (divFix (FV.mul (FV.ofInt 797884561) (FV.add x c)) (FV.ofInt 1000000000)))))
  else FV.mul x (sigmoidFix x)

/-- The distance between neighbours of FP32 at a value of FP32. -/
def spacing32 : FV → FV
  | .fin _ m e => .fin false 1 (if m = 0 then -149 else max (-149) (e + Nat.log2 m - 23))
  | _ => FV.zero

/-- An approximation whose bound is given: the part's own value where it keeps the bound, else the nearest. DESIGN CHOICE
(log 37): where no FP32 value keeps the bound, the part's own value lies within one spacing of FP32. -/
def bounded (own exact bound : FV) : FV :=
  let within (b y : FV) : Bool := y.finite && !FV.lt b (FV.abs (FV.sub y exact))
  let near := fp32 exact
  let b := if within bound near then bound else spacing32 near
  if within b own then own else near

/-- The fixed approximations of R86, within 2^-16 of the exact function, which has a value at an infinity but for GELU and
SILU at -∞ (log 37). -/
def actOf (code : Nat) (x : FV) : FV :=
  let own := dec32 (Config.actApprox code (enc32 x))
  let e := FV.fin false (2 ^ 40 + 1) (-56)
  let one (n : Bool) : FV := .fin n 1 0
  match x with
  | .nan => .nan
  | .fin _ _ _ => bounded own (actExact code x) e
  | .inf n =>
    if code = 5 then bounded own (if n then FV.zero else one false) e
    else if code = 6 then bounded own (one n) e
    else if n then own else x

/-- The fixed approximation of exp, of relative error at most 2^-22 for arguments at most 0 (R185). -/
def expF (x : FV) : FV :=
  let own := dec32 (Config.expApprox (enc32 x))
  if x.isNan then .nan
  else if x.finite && !FV.lt FV.zero x then
    (let y := expNeg x
     bounded own y (FV.mul y (.fin false (2 ^ 40 + 1) (-62))))
  else own

/-- The fixed approximation of ln, of absolute error at most 2^-22 (R185). -/
def lnF (x : FV) : FV :=
  let own := dec32 (Config.lnApprox (enc32 x))
  if x.isNan then .nan
  else if x.finite && FV.lt FV.zero x then bounded own (lnFix x) (.fin false (2 ^ 40 + 1) (-62)) else own

/-- Bits of element `d0` of the packed row at `a` (R60). -/
def elemBits (m : Nat → Byte) (a b d0 : Nat) : Nat :=
  let o := b * d0
  let n := (o % 8 + b + 7) / 8
  let bs := (List.range n).map (fun i => m (a + o / 8 + i))
  leNat bs / 2 ^ (o % 8) % 2 ^ b

/-- A packed row's bytes, zero-filled to a multiple of `u` (R60, R69). -/
def packRow (b u : Nat) (codes : List Nat) : List Byte :=
  let v := (codes.zipIdx).foldl (fun a x => a + x.1 % 2 ^ b * 2 ^ (b * x.2)) 0
  let n := ((codes.length * b + 7) / 8 + u - 1) / u * u
  natBytes n v

/-- Integer view modulo `2^n` as a signed value. -/
def wrapInt (n : Nat) (v : Int) : Int := sext n (v % (2 ^ n : Nat)).toNat

end Sys2Proof.Machine
end

