-- ==== Sys2Proof/Machine/Tensor.lean ====
section
/-! DEFINITION. Reading and writing tensors: slices of the drift ring, elements, group entries, operand formation,
whole-sector rows, and the row counters (R59 to R69, R109, R113, R144, R251). -/

namespace Sys2Proof.Machine

/-- A stream entry of the active set (R271). -/
def stEntry (s : State) (i : Nat) : List Word := (activeSet s).sensor.streams.getD i []

/-- The stream whose buffer 0 holds an address (R276). -/
def streamAt (s : State) (a : Nat) : Option Nat :=
  (List.range 64).find? (fun i => let e := stEntry s i; stValid e && stBuf e ≤ a && a < stBuf e + stStride e)

/-- Physical address of a reference's byte: an address in the Ledge range names a byte of a resident slice (R251), one
in buffer 0 of a stream the buffer delivered in the current frame (R276). -/
def physOf (s : State) (a : Nat) : Nat :=
  if isLedge a then
    let sl := (a - 0x0400_0000) / 0x20_0000
    let o := (a - 0x0400_0000) % 0x20_0000
    0x0400_0000 + (sl + s.ms.phase) % 16 * 0x20_0000 + 0x20_0000 - (activeSet s).plan.resBytes + o
  else match streamAt s a with
    | some i => a + ((s.sens.streams.getD i {}).delivered.getD 0) * stStride (stEntry s i)
    | none => a

/-- A read of `n` bytes at `a` meets a stream that has not delivered in the current frame (R276). -/
def undelivered (s : State) (a n : Nat) : Bool :=
  [a, a + n - 1].any (fun x => match streamAt s x with
    | some i => (s.sens.streams.getD i {}).delivered.isNone
    | none => false)

/-- A byte, and words, as an engine reads them. -/
def engByte (s : State) (a : Nat) : Byte := s.mem.get (physOf s a)
def engRead (s : State) (a n : Nat) : List Byte := (List.range n).map (fun i => engByte s (a + i))
def engWords (s : State) (a n : Nat) : List Word := (List.range n).map (fun i => BitVec.ofNat 32 (leNat (engRead s (a + 4 * i) 4)))

/-- The stores as an engine sees them: what its stream unit has brought lies over them (R242). -/
def viewOf (s : State) (data : List Piece) : State :=
  { s with mem := data.foldl (fun m p => m.write (physOf s p.addr) p.bytes) s.mem }

/-- Offsets of the parts of the auxiliary array (R62, R63, R65). -/
def auxBase (r : List Word) : Nat := refBase r + refAux r
def metaRow (r : List Word) : Nat := (refD0 r + 255) / 256 * 32
def metaBytes (r : List Word) : Nat := if refLayout r = 2 then refRows r * metaRow r else 0
def sumBase (r : List Word) : Nat := auxBase r + metaBytes r
def groupBase (r : List Word) : Nat :=
  sumBase r + (if refLayout r = 2 then (4 * refD0 r + 31) / 32 * 32 else 0)

/-- Elements of a reduction group, the reduction extent, and the group count (R59, R66). -/
def groupLen (r : List Word) : Nat := 16 * 2 ^ refGroup r
def redLen (r : List Word) : Nat := if refLayout r = 1 then refD1 r else refD0 r
def groupCnt (r : List Word) : Nat := (redLen r + groupLen r - 1) / groupLen r
def entryBytes (r : List Word) : Nat := (if refScaleFp16 r then 2 else 1) + (if refZpMode r = 2 then 1 else 0)
def groupBytes (r : List Word) : Nat :=
  if refGroup r = 0 then 0 else
  groupCnt r * (if refLayout r = 1 then refD0 r * refD2 r * refD3 r else refRows r) * entryBytes r

/-- An 8-bit zero point as the tensor's format reads it (R104). -/
def zpValue (f v : Nat) : Int := if f = 2 then Int.ofNat (v % 256) else sext 8 v

/-- The per-tensor zero point of a reference, 0 unless ZP_MODE is 0b01. -/
def refZpInt (r : List Word) : Int := if refZpMode r = 1 then zpValue (refFmt r) (refZp r) else 0

/-- Scale and zero point of group `g` at other-index `o` (R66, R109). -/
def groupEntry (s : State) (r : List Word) (g o : Nat) : FV × Int :=
  let a := groupBase r + (g + groupCnt r * o) * entryBytes r
  let b (i : Nat) : Nat := (engByte s (a + i)).toNat
  let sc := if refScaleFp16 r then decodeFloat 9 (b 0 + 256 * b 1)
    else if b 0 = 255 then .nan else .fin false 1 ((b 0 : Int) - 127)
  let z := if refZpMode r = 2 then zpValue (refFmt r) (b (entryBytes r - 1)) else refZpInt r
  (sc, z)

/-- Element `d0` of row `i` (R60). -/
def refElem (s : State) (r : List Word) (d0 i : Nat) : Num :=
  decodeElem (refFmt r) (elemBits (engByte s) (refRowAddr r i) (fmtBits (refFmt r)) d0)

/-- An element with its group's scale and zero point applied (R113); a NaN or infinite scale makes it a NaN. -/
def formElem (s : State) (r : List Word) (k o : Nat) (q : Num) : Num :=
  if refGroup r = 0 then q else
  let e := groupEntry s r (k / groupLen r) o
  if !e.1.finite then .f .nan else
  match q with
  | .i v => .f (FV.mul e.1 (FV.ofInt (v - e.2)))
  | .f v => .f (FV.mul e.1 v)

/-- The kept elements that the metadata of a 2:4 sparse reference, as given, place at `k` of row `o`, each formed: none at a
pruned position (R63, R64, R75, R113). -/
def sparseKept (s : State) (r : List Word) (k o : Nat) : List Num :=
  let g := k / 4
  let e := elemBits (engByte s) (auxBase r + o * metaRow r) 4 g
  let kept (p j : Nat) : List Num := if p = k % 4 then [formElem s r k o (refElem s r (2 * g + j) o)] else []
  kept (e % 4) 0 ++ kept (e / 4) 1

/-- A dense operand's value at reduction index `k` and other index `o` as it enters the array (R67, R113, R117). -/
def opVal (s : State) (r : List Word) (k o : Nat) : Num :=
  formElem s r k o (if refLayout r = 1 then refElem s r o k else refElem s r k o)

/-- The values of B with which a lane takes a product at `k`: one, or, by its column's metadata, those kept there (R75). -/
def laneTerms (s : State) (r : List Word) (k o : Nat) : List Num :=
  if refLayout r = 2 then sparseKept s r k o else [opVal s r k o]

/-- The stored sum over the columns of a sparse operand at `k` (R65). -/
def sparseSum (s : State) (r : List Word) (k : Nat) : Num :=
  let a := sumBase r + 4 * k
  let v := leNat [engByte s a, engByte s (a + 1), engByte s (a + 2), engByte s (a + 3)]
  if fmtInt (refFmt r) then .i (sext 32 v) else .f (decodeFloat 11 v)

/-- Bytes of a reference's auxiliary array (R62). -/
def auxBytes (r : List Word) : Nat :=
  if refGroup r != 0 || refLayout r == 2 then groupBase r + groupBytes r - auxBase r else 0

/-- The bytes that a task reads under a reference: its rows and its auxiliary array (R60, R62). -/
def refRegions (r : List Word) : List (Nat × Nat) :=
  (List.range (refRows r)).map (fun i => (refRowAddr r i, rowBytes r)) ++
    (if auxBytes r = 0 then [] else [(auxBase r, auxBytes r)])

/-- Some byte that a reference reads lies in the Ledge range. -/
def refInRing (r : List Word) : Bool := isLedge (refBase r)

/-- Write granularity: 32-byte sectors of Cove, 64-byte lines of DRAM (R69, R225). -/
def writeUnit (a : Nat) : Nat := if a < 0x0600_0000 then 32 else 64

/-- The address and bytes of output row `i` with the given codes (R69). -/
def rowWrite (r : List Word) (i : Nat) (codes : List Nat) : Nat × List Byte :=
  (refRowAddr r i, packRow (fmtBits (refFmt r)) (writeUnit (refBase r)) codes)

/-- Perform writes in order; a poisoned output poisons every unit written (R83, R232). -/
def doWrites (s : State) (ws : List (Nat × List Byte)) (poison : Bool) : State :=
  ws.foldl (fun s w => if poison then storePoisoned s w.1 w.2 else store s w.1 w.2) s

-- Row counters

/-- Fresh counters of a plan's tensors. -/
def freshRows (owner : Word) (p : Plan) : List RowCtr :=
  p.tensors.map (fun t => { owner := owner, base := refBase t, stood := List.replicate (refRows t) 0 })

/-- The value of a tensor's counter (R144). -/
def counterAt (s : State) (owner : Word) (t : List Word) : Nat :=
  match ctrOf s owner t with
  | some c => ctrVal (ownerPlan s owner) t c
  | none => 0

end Sys2Proof.Machine
end

