-- ==== Sys2Proof/Machine/Matrix.lean ====
section
/-! DEFINITION. Matrix tiles: the array's accumulation and checking lanes, the checksum comparison, and the drain
(R55, R70 to R90, R113 to R119). -/

namespace Sys2Proof.Machine

-- Matrix task descriptor (R70)
def mdMode (d : Desc) : Nat := fld d.words 0 3 0
def mdSparse (d : Desc) : Bool := bit (wd d.words 0) 4
def mdInit (d : Desc) : Nat := fld d.words 0 7 6
def mdBias (d : Desc) : Bool := bit (wd d.words 0) 9
def mdScale (d : Desc) : Bool := bit (wd d.words 0) 10
def mdZpc (d : Desc) : Bool := bit (wd d.words 0) 11
def mdRot (d : Desc) : Bool := bit (wd d.words 0) 12
def mdRotSize (d : Desc) : Nat := 32 * 2 ^ fld d.words 0 14 13
def mdAct (d : Desc) : Nat := fld d.words 0 19 16
def mdM (d : Desc) : Nat := fld d.words 1 9 0
def mdN (d : Desc) : Nat := fld d.words 1 23 16
def mdK (d : Desc) : Nat := fld d.words 2 19 0
def mdThresh (d : Desc) : Nat := fld d.words 3 31 16
def mdParam (d : Desc) : Nat := pair48 (wd d.words 4) (wd d.words 5)
def mdFb (d : Desc) : Nat := fld d.words 5 19 16
def mdA (d : Desc) : List Word := dref d 8
def mdB (d : Desc) : List Word := dref d 16
def mdC (d : Desc) : List Word := dref d 24

/-- Formats 8-bit integer, and FP8 or FP6 (R75). -/
def isI8 (f : Nat) : Bool := f == 1 || f == 2
def isF8 (f : Nat) : Bool := f == 7 || f == 8
def isF68 (f : Nat) : Bool := f == 6 || isF8 f

/-- Quarter cycles for each reduction step of a permitted MAC pair (R75). -/
def macQuarter (a b : Nat) (sparse : Bool) : Option Nat :=
  if sparse then
    if isI8 a && b == 1 then some 2 else if isF8 a && isF8 b then some 2
    else if (a == 0 && b == 0) || (a == 5 && b == 5) then some 1 else none
  else if isI8 a && (isI8 b || b == 0) || a == 0 && isI8 b then some 4
  else if isF68 a && (isF68 b || b == 5) || a == 5 && isF68 b then some 4
  else if (a == 0 && b == 0) || (a == 5 && b == 5) then some 2
  else if (a == 3 && (isI8 b || b == 0)) || (b == 3 && (isI8 a || a == 0)) then some 8
  else if (a == 3 && b == 3) || (a == 9 && b == 9) || (a == 10 && b == 10) then some 16
  else if a == 11 && b == 11 then some 64
  else none

/-- Quarter cycles of a distance or comparison mode with permitted formats (R78, R79). -/
def distQuarter (mode a b : Nat) : Option Nat :=
  if mode = 1 || mode = 2 || mode = 6 then (if isI8 a && a == b then some (if mode = 2 then 8 else 4) else none)
  else if mode = 3 then (if a == 2 && b == 2 then some 4 else none)
  else if mode = 4 || mode = 5 then (if a == 3 && b == 3 then some 16 else none)
  else none

def taskQuarter (d : Desc) : Option Nat :=
  if mdMode d = 0 then macQuarter (refFmt (mdA d)) (refFmt (mdB d)) (mdSparse d)
  else distQuarter (mdMode d) (refFmt (mdA d)) (refFmt (mdB d))

/-- Steps of a task: ceil(K·c) (R76). -/
def taskSteps (d : Desc) : Nat := (mdK d * (taskQuarter d).getD 4 + 3) / 4

/-- A tile's nominal cycle count (R77). -/
def tileCycles (ds : List Desc) : Nat := 24 + (ds.map taskSteps).sum + mdM (ds.headD default) + 16

/-- A pair accumulates in a float format, and in the 64-bit format (R74). -/
def accFloat (d : Desc) : Bool :=
  mdMode d = 0 && (!(fmtInt (refFmt (mdA d)) && fmtInt (refFmt (mdB d))) || refGroup (mdA d) != 0 || refGroup (mdB d) != 0)
/-- DESIGN CHOICE (log 42): an FP32 pair with group scales, for which R74 names both formats, takes the 64-bit one. -/
def accWide (d : Desc) : Bool := mdMode d = 0 && refFmt (mdA d) = 11

/-- Rounding of a float accumulator (R114). -/
def accRound (d : Desc) : FV → FV := if accWide d then fp48 else fp32

/-- Reduction indices consumed in one array cycle (R114). -/
def perCycle (d : Desc) : Nat :=
  match taskQuarter d with
  | some 1 => 4
  | some 2 => 2
  | _ => 1

/-- A float lane: the exact sum of each cycle's products joins the accumulator with one rounding (R114). DESIGN CHOICE
(log 42): that sum starts from +0, so products that are all -0 leave a -0 accumulator at +0 (R107). -/
def laneF (rnd : FV → FV) (per k : Nat) (f : Nat → FV) (x : FV) : FV :=
  (List.range ((k + per - 1) / per)).foldl (fun acc t =>
    rnd (FV.add acc (FV.sum (((List.range per).filter (fun u => t * per + u < k)).map (fun u => f (t * per + u)))))) x

/-- An integer lane of `w` bits (R74, R114). -/
def laneI (w k : Nat) (f : Nat → Int) (x : Int) : Int :=
  wrapInt w ((List.range k).foldl (fun a i => a + f i) x)

/-- Ones set in a byte. -/
def popcount8 (b : Nat) : Nat := (List.range 8).foldl (fun a i => a + b / 2 ^ i % 2) 0

/-- One step of a distance or comparison lane (R78). -/
def distStep (mode : Nat) (acc a b : Int) : Int :=
  if mode = 1 then wrapInt 32 (acc + (a - b).natAbs)
  else if mode = 2 then wrapInt 32 (acc + (a - b) * (a - b))
  else if mode = 3 then wrapInt 32 (acc + popcount8 (Nat.xor (a % 256).toNat (b % 256).toNat))
  else if mode = 4 then min acc (a + b)
  else if mode = 5 then max acc (a + b)
  else if b < a then wrapInt 32 (acc + 1) else acc

/-- The identity of a mode (R78, R107). -/
def accIdentity (d : Desc) : Num :=
  if mdMode d = 4 then .i 0x7FFF_FFFF else if mdMode d = 5 then .i (-0x8000_0000)
  else if accFloat d then .f FV.zero else .i 0

/-- Sum of numbers, exactly. -/
def numSum (fl : Bool) (l : List Num) : Num :=
  if fl then .f (FV.sum (l.map Num.fv)) else .i (l.foldl (fun a x => a + x.int) 0)

/-- A lane of either kind: at each index the products of a value with those that the lane takes there. DESIGN CHOICE (log 42): the kind is that of the
task, also where the tasks of a tile differ in GROUP; a float lane opened over integers begins with their values, an
integer one over floats with 0. -/
def lane (d : Desc) (w : Nat) (f : Nat → Num) (g : Nat → List Num) (x : Num) : Num :=
  if accFloat d then
    .f (laneF (accRound d) (perCycle d) (mdK d) (fun k => FV.sum ((g k).map (fun y => FV.mul (f k).fv y.fv))) x.fv)
  else .i (laneI w (mdK d) (fun k => (g k).foldl (fun a y => a + (f k).int * y.int) 0) x.int)

/-- The Basin as ACC_INIT = ZERO opens it. -/
def openBasin (d : Desc) : Basin :=
  let m := mdM d
  let n := mdN d
  let z := accIdentity d
  { m := m, n := n, acc := List.replicate (m * n) z, colX := List.replicate n z, rowX := List.replicate m z
    ones := List.replicate m z, colA := List.replicate n z, rowA := List.replicate m z }

/-- One task's steps on an open tile (R55, R56, R75, R78, R81): with a sparse B the lanes of a column take the products that
its metadata select, the checksum column takes all. -/
def runTask (s : State) (b0 : Basin) (d : Desc) : Basin :=
  let b := if mdInit d = 0 then openBasin d else b0
  let m := b.m
  let n := b.n
  let fl := accFloat d
  let A (k i : Nat) : Num := opVal s (mdA d) k i
  let B (k j : Nat) : Num := opVal s (mdB d) k j
  let terms (j k : Nat) : List Num := laneTerms s (mdB d) k j
  let absN (x : Num) : Num := .f (FV.abs x.fv)
  let sumA (k : Nat) : Num := numSum fl ((List.range m).map (A k))
  let sumB (k : Nat) : Num := if mdSparse d then sparseSum s (mdB d) k else numSum fl ((List.range n).map (B k))
  let absA (k : Nat) : Num := numSum true ((List.range m).map (fun i => absN (A k i)))
  let absB (k : Nat) : Num := numSum true (((List.range n).flatMap (terms · k)).map absN)
  if mdMode d = 0 then
    { b with
      acc := b.acc.zipIdx.map (fun x => lane d 32 (fun k => A k (x.2 / n)) (terms (x.2 % n)) x.1)
      colX := b.colX.zipIdx.map (fun x => lane d 48 sumA (terms x.2) x.1)
      rowX := b.rowX.zipIdx.map (fun x => lane d 48 (fun k => A k x.2) (fun k => [sumB k]) x.1)
      ones := b.ones.zipIdx.map (fun x => lane d 48 (fun k => A k x.2) (fun _ => [.i 1]) x.1)
      colA := if fl then b.colA.zipIdx.map (fun x => lane d 48 absA (fun k => (terms x.2 k).map absN) x.1) else b.colA
      rowA := if fl then b.rowA.zipIdx.map (fun x => lane d 48 (fun k => absN (A k x.2)) (fun k => [absB k]) x.1) else b.rowA }
  else
    { b with acc := b.acc.zipIdx.map (fun x => .i ((List.range (mdK d)).foldl (fun a k =>
        distStep (mdMode d) a (A k (x.2 / n)).int (B k (x.2 % n)).int) x.1.int)) }

/-- All tasks of a tile's chain. -/
def runTile (s : State) (ds : List Desc) : Basin := ds.foldl (runTask s) {}

/-- An upset of an accumulator: the bits of a word flip in the lane's value. -/
def flipNum (n : Nat) (w : Word) : Num → Num
  | .i v => .i (wrapInt n (Int.ofNat (Nat.xor (v % 2 ^ 48).toNat w.toNat)))
  | .f v => .f (dec32 (enc32 v ^^^ w))

/-- Upset lane (i, j) of the array (R55). -/
def upsetLane (b : Basin) (u : Nat × Nat × Word) : Basin :=
  if u.1 < 512 && u.2.1 < 128 then
    (if u.1 < b.m && u.2.1 < b.n then { b with acc := modAt b.acc (u.1 * b.n + u.2.1) (flipNum 32 u.2.2) } else b)
  else if u.1 == 512 then { b with colX := modAt b.colX u.2.1 (flipNum 48 u.2.2) }
  else if u.2.1 == 128 then { b with rowX := modAt b.rowX u.1 (flipNum 48 u.2.2) }
  else { b with ones := modAt b.ones u.1 (flipNum 48 u.2.2) }

/-- How a row's or column's comparison ends: mismatch, wrap (R80, R81). -/
def checkInt (sum x : Int) : Bool × Bool :=
  let a := wrapInt 48 sum
  let c := wrapInt 48 x
  let lo := decide (a % 2 ^ 32 = c % 2 ^ 32)
  (!lo, lo && decide (a ≠ c))

def checkFloat (d : Desc) (sum x a : FV) : Bool × Bool :=
  if !(sum.finite && x.finite && a.finite) then (true, false) else
  let t : FV := if accWide d then .fin false 1 (-20) else .fin false 1 (-10)
  (FV.lt (accRound d (FV.mul t a)) (FV.abs (FV.sub sum x)), false)

/-- One row's or column's comparison. DESIGN CHOICE (log 42): a float sum adds in index order and rounds at each addition,
and the difference is exact. -/
def checkLine (d : Desc) (l : List Num) (x a : Num) : Bool × Bool :=
  if accFloat d then
    checkFloat d (l.foldl (fun acc v => accRound d (FV.add acc v.fv)) FV.zero) x.fv a.fv
  else checkInt (l.foldl (fun acc v => acc + wrapInt 32 v.int) 0) x.int

/-- The comparison of a tile: mismatched, and the rows and columns that wrapped (R80, R81). -/
def checkTile (d : Desc) (b : Basin) : Bool × Nat :=
  if mdMode d != 0 then (false, 0) else
  let z : Num := .i 0
  let cols := (List.range b.n).map (fun j =>
    checkLine d ((List.range b.m).map (fun i => b.acc.getD (i * b.n + j) z)) (b.colX.getD j z) (b.colA.getD j z))
  let rows := (List.range b.m).map (fun i =>
    checkLine d ((b.acc.drop (i * b.n)).take b.n) (b.rowX.getD i z) (b.rowA.getD i z))
  ((cols ++ rows).any (fun r => r.1), ((cols ++ rows).filter (fun r => r.2)).length)

-- The drain

/-- A word of the drain parameter block (R90). -/
def paramWord (s : State) (d : Desc) (o : Nat) : Word := wd (engWords s (mdParam d + o) 1) 0

/-- The parts of the parameter block that a LAST task's enabled stages need (R90). DESIGN CHOICE (log 42): a poisoned word of
them is a poisoned operand. -/
def paramParts (d : Desc) : List (Nat × Nat) :=
  let p := mdParam d
  let n := 4 * mdN d
  (if mdAct d = 3 then [(p, 4)] else if mdAct d = 4 then [(p, 8)] else []) ++
    (if mdBias d then [(p + 32, n)] else []) ++ (if mdScale d then [(p + 544, n)] else []) ++
    (if mdZpc d then [(p + 1056, n)] else [])

/-- An activation (R86), each FP32 operation rounded. -/
def actFn (code : Nat) (p0 p1 x : FV) : FV :=
  let six : FV := .fin false 6 0
  if code = 1 then FV.max x FV.zero
  else if code = 2 then FV.min (FV.max x FV.zero) six
  else if code = 3 then (if x.isNan then .nan else if FV.lt x FV.zero then mul32 p0 x else x)
  else if code = 4 then FV.min (FV.max x p0) p1
  else if code = 9 then div32 (mul32 x (FV.min (FV.max (add32 x (.fin false 3 0)) FV.zero) six)) six
  else if 5 ≤ code && code ≤ 8 then
    actOf code x
  else x

/-- One butterfly stage of span `h` (R88). -/
def butterfly (h : Nat) (l : List FV) : List FV :=
  l.zipIdx.map (fun x =>
    if x.2 / h % 2 = 0 then add32 x.1 (l.getD (x.2 + h) FV.zero) else sub32 (l.getD (x.2 - h) FV.zero) x.1)

/-- The FP32 value nearest 1/√R (R88). -/
def rotScale (r : Nat) : FV :=
  if r = 32 then .fin false 0xB504F3 (-26) else if r = 64 then .fin false 1 (-3) else .fin false 0xB504F3 (-27)

/-- The rotation of one run of R values. -/
def rotRun (r : Nat) (l : List FV) : List FV :=
  ((List.range (Nat.log2 r)).foldl (fun l st => butterfly (2 ^ st) l) l).map (fun x => mul32 x (rotScale r))

/-- Consecutive runs of a list, fuelled by their number. -/
def runsOf {α : Type} (r : Nat) : Nat → List α → List (List α)
  | 0, _ => []
  | n + 1, l => l.take r :: runsOf r n (l.drop r)

/-- The zero-point correction of element (i, j); a formed operand has no term, and with both formed the value is
unchanged (R87, R117, R118). DESIGN CHOICE (log 42): the zero points are those of the LAST task's references. -/
def zpcFn (s : State) (ds : List Desc) (d : Desc) (j : Nat) (h c : Num) : Num :=
  let fa := refGroup (mdA d) != 0
  let fb := refGroup (mdB d) != 0
  let za := if fa then 0 else refZpInt (mdA d)
  let zb := if fb then 0 else refZpInt (mdB d)
  let kt : Int := Int.ofNat (ds.map mdK).sum
  let w := paramWord s d (1056 + 4 * j)
  if accFloat d then
    if fa && fb then c else
    let t1 := if fb then fp32 c.fv else sub32 c.fv (mul32 (FV.ofInt zb) h.fv)
    let t2 := if fa then t1 else sub32 t1 (mul32 (FV.ofInt za) (dec32 w))
    .f (if fa || fb then t2 else add32 t2 (fp32 (FV.ofInt (kt * za * zb))))
  else .i (c.int - zb * h.int - za * sword w + kt * za * zb)

/-- Stages 2 to 5 on element (i, j) (R85 to R87). DESIGN CHOICE (log 42): the sum of BIAS and a float value is rounded as the
tile's accumulators are. The values of an INT32 tile drained to INT32 with no rotation and ACT of
NONE or RELU stay integer; DEDUCED (log 11): a scale multiplies them exactly, and the product becomes an integer as OUTQ
rounds it. -/
def drainElem (s : State) (ds : List Desc) (d : Desc) (j : Nat) (h c : Num) : Num :=
  let c1 := if mdZpc d then zpcFn s ds d j h c else c
  let bw := paramWord s d (32 + 4 * j)
  let c2 : Num := if mdBias d then
      (if accFloat d then .f (accRound d (FV.add c1.fv (dec32 bw))) else .i (c1.int + sword bw)) else c1
  let p0 := dec32 (paramWord s d 0)
  let p1 := dec32 (paramWord s d 4)
  let sc := dec32 (paramWord s d (544 + 4 * j))
  if !accFloat d && refFmt (mdC d) = 4 && mdAct d ≤ 1 && !mdRot d then
    if mdScale d then (let y := FV.mul c2.fv sc; .f (if mdAct d = 1 then FV.max y FV.zero else y))
    else .i (if mdAct d = 1 then max c2.int 0 else c2.int)
  else
    let x := toFp32 c2.fv
    .f (actFn (mdAct d) p0 p1 (if mdScale d then mul32 x sc else x))

/-- The rows that a tile's drain writes and its saturation events (R85 to R89). -/
def drainTile (s : State) (ds : List Desc) (b : Basin) : List (Nat × List Byte) × Nat :=
  let d := ds.getLastD default
  let z : Num := .i 0
  let c := mdC d
  let rows := (List.range b.m).map (fun i =>
    let vs := (List.range b.n).map (fun j => drainElem s ds d j (b.ones.getD i z) (b.acc.getD (i * b.n + j) z))
    let vs := if mdRot d then
        ((runsOf (mdRotSize d) (b.n / mdRotSize d) (vs.map Num.fv)).flatMap (rotRun (mdRotSize d))).map Num.f else vs
    vs.map (convert (refFmt c) (refZpInt c)))
  ((rows.zipIdx).map (fun x => rowWrite c x.2 (x.1.map (fun v => v.1))),
   (rows.map (fun r => (r.filter (fun v => v.2)).length)).sum)

end Sys2Proof.Machine
end

