-- ==== Sys2Proof/Machine/Vector.lean ====
section
/-! DEFINITION. Vector tasks (R132 to R151, R161, R162). -/

namespace Sys2Proof.Machine

def vdParam (d : Desc) : Nat := pair48 (wd d.words 3) (wd d.words 4)
def vdX (d : Desc) : List Word := dref d 8
def vdY (d : Desc) : List Word := dref d 16
def vdZ (d : Desc) : List Word := dref d 24

/-- Bits of an element, undecoded. -/
def refCode (s : State) (r : List Word) (d0 i : Nat) : Nat :=
  elemBits (engByte s) (refRowAddr r i) (fmtBits (refFmt r)) d0

/-- Exact integer or rounded FP32 arithmetic on two elements (R151). -/
def numOp (fi : Int → Int → Int) (ff : FV → FV → FV) (a b : Num) : Num :=
  match a, b with
  | .i x, .i y => .i (fi x y)
  | a, b => .f (ff (fp32 a.fv) (fp32 b.fv))

/-- The element of `y` at a position of `x`, broadcast along extents of 1 (R151). -/
def bcast (s : State) (z y : List Word) (d0 i : Nat) : Num :=
  let p (n v : Nat) : Nat := if n = 1 then 0 else v
  refElem s y (p (refD0 y) d0) (rowIx y (p (refD1 y) (rowX z i)) (p (refD2 y) (rowY z i)) (p (refD3 y) (rowW z i)))

/-- The parts of the parameter block that a vector task's stages need (R90, R151). -/
def vecParts (d : Desc) : List (Nat × Nat) :=
  if !(vdOp d == 6 || vdOp d == 9 || vdOp d == 11) then [] else
  let p := vdParam d
  let n := 4 * refD0 (vdZ d)
  let act := bits (vdP0 d) 7 4
  (if act = 3 then [(p, 4)] else if act = 4 then [(p, 8)] else []) ++
    (if bit (vdP0 d) 0 then [(p + 32, n)] else []) ++ (if bit (vdP0 d) 1 then [(p + 544, n)] else [])

/-- Stages BIAS, SCALE, ACT and OUTQ of a vector task on channel `j` (R85, R86, R151). DESIGN CHOICE (log 47): a channel
beyond the 128 of R90 takes the words at the same stride. -/
def vecStages (s : State) (d : Desc) (j : Nat) (v : Num) : Nat × Bool :=
  let p (o : Nat) : Word := wd (engWords s (vdParam d + o) 1) 0
  let act := bits (vdP0 d) 7 4
  let zf := refFmt (vdZ d)
  let v1 : Num := if bit (vdP0 d) 0 then
      (match v with
       | .i x => .i (x + sword (p (32 + 4 * j)))
       | .f x => .f (add32 x (dec32 (p (32 + 4 * j))))) else v
  let toF (v : Num) : Num :=
    let x := toFp32 v.fv
    let y := if bit (vdP0 d) 1 then mul32 x (dec32 (p (544 + 4 * j))) else x
    .f (actFn act (dec32 (p 0)) (dec32 (p 4)) y)
  let v2 : Num := match v1 with
    | .i x =>
      if zf = 4 && act ≤ 1 then
        (if bit (vdP0 d) 1 then
           (let y := FV.mul (FV.ofInt x) (dec32 (p (544 + 4 * j))); .f (if act = 1 then FV.max y FV.zero else y))
         else .i (if act = 1 then max x 0 else x))
      else toF v1
    | .f _ => toF v1
  convert zf (refZpInt (vdZ d)) v2

/-- The rows of Z that `keep` names by a function of channel and row (R69). -/
def mapRowsIf (z : List Word) (keep : Nat → Bool) (f : Nat → Nat → Nat × Bool) : List (Nat × List Byte) × Nat :=
  let rows := ((List.range (refRows z)).filter keep).map (fun i => (i, (List.range (refD0 z)).map (fun c => f c i)))
  (rows.map (fun x => rowWrite z x.1 (x.2.map (fun v => v.1))),
   (rows.map (fun r => (r.2.filter (fun v => v.2)).length)).sum)

/-- Every row of Z. -/
def mapRows (z : List Word) (f : Nat → Nat → Nat × Bool) : List (Nat × List Byte) × Nat := mapRowsIf z (fun _ => true) f

/-- A converted element without a zero point (R111). -/
def conv0 (z : List Word) (v : Num) : Nat × Bool := convert (refFmt z) 0 v

/-- Window positions in row-major order, and the row of X under output position (u, v) (R137). -/
def window (c : List Word) : List (Nat × Nat) :=
  (List.range (cvKH c)).flatMap (fun ky => (List.range (cvKW c)).map (fun kx => (ky, kx)))
def winRow (c x z : List Word) (i : Nat) (k : Nat × Nat) : Nat :=
  rowIx x (rowX z i * cvSW c + k.2 * cvDW c) (rowY z i * cvSH c + k.1 * cvDH c) (rowW z i)

/-- POOL (R148). -/
def poolElem (s : State) (c x z : List Word) (ch i : Nat) : Nat × Bool :=
  let vs := (window c).map (fun k => (k, refElem s x ch (winRow c x z i k)))
  let hd := (vs.headD ((0, 0), .i 0)).2
  if cvKind c = 3 then
    conv0 z (vs.foldl (fun a v => numOp max FV.max a v.2) hd)
  else
    let tot := vs.tail.foldl (fun a v => numOp (· + ·) add32 a v.2) hd
    let real := vs.filter (fun v =>
      let t := rowOf (cvIn c) (refRowAddr x (winRow c x z i v.1))
      isReal c (rowX (cvIn c) t) (rowY (cvIn c) t))
    let n := if cvCount c then cvKH c * cvKW c else real.length
    conv0 z (.f (div32 (fp32 tot.fv) (.fin false n 0)))

/-- DWCONV before its stages (R149). DESIGN CHOICE (log 47): the weights of channel `ch` are those of D0 = `ch`, its rows
the window in row-major order; an INT32 sum wraps modulo 2^32. -/
def dwElem (s : State) (c x y z : List Word) (ch i : Nat) : Num :=
  let ps := (window c).map (fun k =>
    (refElem s x ch (winRow c x z i k), refElem s y ch (k.1 * cvKW c + k.2)))
  if ps.all (fun p => match p with | (.i _, .i _) => true | _ => false) then
    .i (wrapInt 32 (ps.foldl (fun a p => a + p.1.int * p.2.int) 0))
  else .f (ps.foldl (fun a p => fp32 (FV.add a (FV.mul p.1.fv p.2.fv))) FV.zero)

/-- CENSUS: byte `ch` of the descriptor of row `i` (R161). -/
def censusByte (s : State) (c x z : List Word) (ch i : Nat) : Nat × Bool :=
  let mid := (cvKH c / 2, cvKW c / 2)
  let ctr := (refElem s x 0 (winRow c x z i mid)).int
  let ns := ((window c).filter (fun k => k != mid)).map (fun k => decide ((refElem s x 0 (winRow c x z i k)).int < ctr))
  (((ns.drop (8 * ch)).take 8).zipIdx.foldl (fun a b => a + b2n b.1 * 2 ^ b.2) 0, false)

/-- The code of channel `ch` at a padding position (R134), before it is written. -/
def padRaw (s : State) (c : List Word) (ch i : Nat) : Nat :=
  let r := cvIn c
  let y : Int := (rowY r i : Int) - cvPT c
  let x : Int := (rowX r i : Int) - cvPL c
  let m := cvPad c
  if m = 1 then
    (if fmtInt (refFmt r) then
      intBits (refFmt r) (if refZpMode r = 2 then (groupEntry s r (ch / groupLen r) i).2 else refZpInt r) else 0)
  else if m = 2 then (wd c 6).toNat % 2 ^ fmtBits (refFmt r)
  else refCode s r ch (rowIx r (padCoord m x (cvWin c) + cvPL c) (padCoord m y (cvHin c) + cvPT c) (rowW r i))

/-- PAD: the padding positions of padded rows a to b (R108, R140). -/
def padWrites (s : State) (c : List Word) (a b : Nat) : List (Nat × List Byte) :=
  let r := cvIn c
  let is := (List.range (refRows r)).filter (fun i => a ≤ rowY r i && rowY r i ≤ b && !isReal c (rowX r i) (rowY r i))
  is.map (fun i => rowWrite r i ((List.range (refD0 r)).map (fun ch => recode (refFmt r) (padRaw s c ch i))))

-- Winograd (R142, R143)
def winoBt : List (List Int) :=
  [[4, 0, -5, 0, 1, 0], [0, -4, -4, 1, 1, 0], [0, 4, -4, -1, 1, 0], [0, -2, -1, 2, 1, 0], [0, 2, -1, -2, 1, 0],
   [0, 4, 0, -5, 0, 1]]
def winoAt : List (List Int) :=
  [[1, 1, 1, 1, 1, 0], [0, 1, -1, 2, -2, 0], [0, 1, 1, 4, 4, 0], [0, 1, -1, 8, -8, 1]]

/-- A dot product in increasing order, one rounding for each addition (R143). -/
def dot32 (w : List Int) (v : List FV) : FV :=
  (w.zip v).foldl (fun a x => fp32 (FV.add a (FV.mul (FV.ofInt x.1) x.2))) FV.zero

/-- T·X·Tᵀ, the left matrix first. -/
def winoXform (t : List (List Int)) (x : List (List FV)) : List (List FV) :=
  let n := (x.headD []).length
  let u := t.map (fun row => (List.range n).map (fun j => dot32 row (x.map (fun r => r.getD j FV.zero))))
  u.map (fun row => t.map (fun tr => dot32 tr row))

/-- Winograd tiles in one row of the output (R142). -/
def winoAcross (c : List Word) : Nat := (cvWout c + 3) / 4

/-- WINO_IN (R142). DESIGN CHOICE (log 47): tiles stand in row-major order, t = ty·across + tx, the 36 points as p = 6a + b. -/
def winoIn (s : State) (c x z : List Word) (ch i : Nat) : Nat × Bool :=
  let t := rowX z i
  let p := rowY z i
  let tx := t % winoAcross c
  let ty := t / winoAcross c
  let d := (List.range 6).map (fun a => (List.range 6).map (fun b =>
    if tx * 4 + b < refD1 x && ty * 4 + a < refD2 x then (refElem s x ch (rowIx x (tx * 4 + b) (ty * 4 + a) 0)).fv
    else FV.zero))
  conv0 z (.f (((winoXform winoBt d).getD (p / 6) []).getD (p % 6) FV.zero))

/-- WINO_OUT before a row is chosen (R143); tiles and points as in WINO_IN. -/
def winoOut (s : State) (d : Desc) (c x z : List Word) (ch i : Nat) : Nat × Bool :=
  let u := rowX z i
  let v := rowY z i
  let t := v / 4 * winoAcross c + u / 4
  let m := (List.range 6).map (fun a => (List.range 6).map (fun b => (refElem s x ch (rowIx x t (6 * a + b) 0)).fv))
  vecStages s d ch (.f (((winoXform winoAt m).getD (v % 4) []).getD (u % 4) FV.zero))

/-- BAND (R162): the tile at left pixel x0 has its rows from x0 − (D − 1); each further tile lies N pixels on.
DESIGN CHOICE (log 47): they are written in the first row of Z's reference. -/
def bandWrites (s : State) (d : Desc) : List (Nat × List Byte) × Nat :=
  let x := vdX d
  let z := vdZ d
  let nd := bits (vdP0 d) 15 0
  let x0 := bits (vdP1 d) 15 0
  let n := refD0 x
  let pos := (List.range (n * refD2 x)).filter (fun q => x0 + q < refD1 z)
  let rows := pos.map (fun q => (x0 + q, (List.range nd).map (fun dd =>
    if x0 + q < dd then (if fmtInt (refFmt z) then (intBits (refFmt z) (fmtMax (refFmt z)), false)
      else (encodeMag (refFmt z) false (fmtTop (refFmt z)).1 (fmtTop (refFmt z)).2, false))
    else conv0 z (refElem s x (q % n) (rowIx x (q % n + nd - 1 - dd) (q / n) 0)))))
  (rows.map (fun r => rowWrite z r.1 (r.2.map (fun v => v.1))),
   (rows.map (fun r => (r.2.filter (fun v => v.2)).length)).sum)

/-- REDUCE (R151). -/
def reduceElem (s : State) (d : Desc) (ch : Nat) : Nat × Bool :=
  let x := vdX d
  let vs := (List.range (refRows x)).map (fun i => refElem s x ch i)
  let hd := vs.headD (.i 0)
  if bit (vdP0 d) 0 then conv0 (vdZ d) (vs.tail.foldl (numOp max FV.max) hd)
  else
    let t := vs.tail.foldl (numOp (· + ·) add32) hd
    conv0 (vdZ d) (.f (mul32 (fp32 t.fv) (dec32 (vdP1 d))))

/-- A vector task's output and saturation events (R151). DESIGN CHOICE (log 47): WINO_OUT counts W_OUT and H_OUT from the
first pixel and row of Z's reference. -/
def vecRun (s : State) (p : Plan) (d : Desc) : List (Nat × List Byte) × Nat :=
  let x := vdX d
  let y := vdY d
  let z := vdZ d
  let c := convOf p d.layer
  let el (fi : Int → Int → Int) (ff : FV → FV → FV) : List (Nat × List Byte) × Nat :=
    mapRows z (fun ch i => conv0 z (numOp fi ff (bcast s z x ch i) (bcast s z y ch i)))
  let op := vdOp d
  if op = 1 then el (· + ·) add32
  else if op = 2 then el (· * ·) mul32
  else if op = 3 then el max FV.max
  else if op = 4 then el min FV.min
  else if op = 5 then mapRows z (fun ch i => conv0 z (refElem s x ch i))
  else if op = 6 then mapRows z (fun ch i => vecStages s d ch (numOp (· + ·) add32 (refElem s x ch i) (refElem s y ch i)))
  else if op = 7 then (padWrites s c (bits (vdP0 d) 15 0) (bits (vdP0 d) 31 16), 0)
  else if op = 8 then mapRows z (poolElem s c x z)
  else if op = 9 then mapRows z (fun ch i => vecStages s d ch (dwElem s c x y z ch i))
  else if op = 10 then mapRows z (winoIn s c x z)
  else if op = 11 then mapRowsIf z (fun i => rowX z i < cvWout c && rowY z i < cvHout c) (winoOut s d c x z)
  else if op = 12 then mapRows z (censusByte s c x z)
  else if op = 13 then bandWrites s d
  else mapRows z (fun ch _ => reduceElem s d ch)

end Sys2Proof.Machine
end

