-- ==== Sys2Proof/Machine/Image.lean ====
section
/-! DEFINITION. Tasks of the warp, crop-and-resize, sort/select and point-cloud engines (R155 to R165, R295 to
R300). -/

namespace Sys2Proof.Machine

/-- floor of a finite value (R156). -/
def FV.floor : FV → Int
  | .fin n m e =>
    let v : Int := if n then -(m : Int) else m
    if 0 ≤ e then v * 2 ^ e.toNat else v / (2 ^ (-e).toNat : Nat)
  | _ => 0

/-- A finite value rounded to an integer (R110). -/
def FV.round : FV → Int
  | .fin n m e => roundInt n m e
  | _ => 0

def fvNat (n : Nat) : FV := .fin false n 0

/-- a·(1 − w) + b·w, each operation rounded; with w exactly 0 the second value is not read (R156). -/
def lerp (a b : FV) (w : FV) : FV :=
  if FV.lt FV.zero w then add32 (mul32 a (sub32 (fvNat 1) w)) (mul32 b w) else a

/-- 0 ≤ x ≤ n − 1 (R157). -/
def inRange (x : FV) (n : Nat) : Bool := x.finite && !FV.lt x FV.zero && !FV.lt (fvNat (n - 1)) x

/-- One channel of an image at (x, y), bilinear (R156). -/
def sample (s : State) (r : List Word) (ch im : Nat) (xs ys : FV) : FV :=
  let x0 := xs.floor.toNat
  let y0 := ys.floor.toNat
  let fx := sub32 xs (fvNat x0)
  let fy := sub32 ys (fvNat y0)
  let at_ (x y : Nat) : FV := fp32 (refElem s r ch (rowIx r x y im)).fv
  lerp (lerp (at_ x0 y0) (at_ (x0 + 1) y0) fx) (lerp (at_ x0 (y0 + 1)) (at_ (x0 + 1) (y0 + 1)) fx) fy

/-- The pixels that a bilinear sample reads: a neighbour of weight 0 is not among them (R156). -/
def samplePixels (xs ys : FV) : List (Nat × Nat) :=
  let x0 := xs.floor.toNat
  let y0 := ys.floor.toNat
  let more (w : FV) (n : Nat) : List Nat := if FV.lt FV.zero w then [n, n + 1] else [n]
  (more (sub32 ys (fvNat y0)) y0).flatMap (fun y => (more (sub32 xs (fvNat x0)) x0).map (fun x => (x, y)))

-- Warp (R155 to R157)

/-- The interpolated source coordinate of output pixel (u, v), or none when a node is a NaN. -/
def warpCoord (s : State) (d : Desc) (u v : Nat) : Option (FV × FV) :=
  let g := 2 ^ fld d.words 0 5 3
  let m := dref d 16
  let node (c x y : Nat) : FV := (refElem s m c (rowIx m (min x (refD1 m - 1)) (min y (refD2 m - 1)) 0)).fv
  let x := u / g
  let y := v / g
  let bad := [node 0 x y, node 1 x y, node 0 (x + 1) y, node 1 (x + 1) y, node 0 x (y + 1), node 1 x (y + 1),
    node 0 (x + 1) (y + 1), node 1 (x + 1) (y + 1)].any FV.isNan
  if bad then none else
  let wu : FV := fp32 (.fin false (u % g) (-(fld d.words 0 5 3 : Int)))
  let wv : FV := fp32 (.fin false (v % g) (-(fld d.words 0 5 3 : Int)))
  let c (k : Nat) : FV := lerp (lerp (node k x y) (node k (x + 1) y) wu) (lerp (node k x (y + 1)) (node k (x + 1) (y + 1)) wu) wv
  some (c 0, c 1)

/-- A valid pixel's source coordinate (R157). -/
def warpValid (s : State) (d : Desc) (u v : Nat) : Option (FV × FV) :=
  match warpCoord s d u v with
  | some (x, y) => if inRange x (refD1 (dref d 8)) && inRange y (refD2 (dref d 8)) then some (x, y) else none
  | none => none

/-- Ordinals of the source rows that a warp samples (R156, R157). -/
def warpPixels (s : State) (d : Desc) : List Nat :=
  let src := dref d 8
  let dst := dref d 24
  ((List.range (refRows dst)).flatMap (fun i =>
    match warpValid s d (rowX dst i) (rowY dst i) with
    | none => []
    | some (x, y) => (if fld d.words 0 2 1 = 0 then [(x.round.toNat, y.round.toNat)] else samplePixels x y).map
        (fun p => rowIx src p.1 p.2 0))).eraseDups

def warpRun (s : State) (d : Desc) : List (Nat × List Byte) × Nat :=
  let src := dref d 8
  let dst := dref d 24
  let fill := dec32 (wd d.words 1)
  let a := mapRows dst (fun ch i =>
    match warpValid s d (rowX dst i) (rowY dst i) with
    | none => conv0 dst (.f fill)
    | some (x, y) =>
      if fld d.words 0 2 1 = 0 then conv0 dst (refElem s src ch (rowIx src x.round.toNat y.round.toNat 0))
      else conv0 dst (.f (sample s src ch 0 x y)))
  let mk := dref d 32
  let b := if bit (wd d.words 0) 6 then
      (mapRows mk (fun _ i => (b2n (warpValid s d (rowX mk i) (rowY mk i)).isSome, false))).1 else []
  (a.1 ++ b, a.2)

-- Crop and resize (R158 to R160)

/-- The source coordinate of output index `u` of `n` along one axis from box edges `a`, `b` (R159). -/
def cropCoord (align : Bool) (a b : FV) (n u : Nat) : FV :=
  let half : FV := .fin false 1 (-1)
  if align then
    if n = 1 then mul32 (add32 a b) half
    else
      let step := div32 (sub32 b a) (fvNat (n - 1))
      add32 a (mul32 (fvNat u) step)
  else
    let step := div32 (sub32 b a) (fvNat n)
    sub32 (add32 a (mul32 (add32 (fvNat u) half) step)) half

def clampFV (x : FV) (n : Nat) : FV := FV.min (FV.max x FV.zero) (fvNat (n - 1))

/-- A box entry's words. -/
def boxWords (s : State) (d : Desc) (k : Nat) : List Word :=
  engWords s (pair48 (wd d.words 4) (wd d.words 5) + 32 * k) 8

/-- A box that gives status 3 (R160). -/
def boxBad (d : Desc) (b : List Word) : Bool :=
  refD3 (dref d 8) ≤ (wd b 0).toNat || [1, 2, 3, 4].any (fun i => !(dec32 (wd b i)).finite)

/-- Source coordinates of a box's sample (u, v). -/
def boxCoord (d : Desc) (b : List Word) (u v : Nat) : FV × FV :=
  let al := bit (wd d.words 0) 1
  (cropCoord al (dec32 (wd b 2)) (dec32 (wd b 4)) (fld d.words 3 8 0) u,
   cropCoord al (dec32 (wd b 1)) (dec32 (wd b 3)) (fld d.words 3 24 16) v)

/-- Ordinals of the image rows that the boxes' samples read (R156, R160). -/
def cropPixels (s : State) (d : Desc) : List Nat :=
  let img := dref d 8
  let out := dref d 16
  ((List.range (refRows out)).flatMap (fun i =>
    let b := boxWords s d (rowW out i)
    let c := boxCoord d b (rowX out i) (rowY out i)
    let at_ (x y : FV) : List Nat := (samplePixels x y).map (fun p => rowIx img p.1 p.2 (wd b 0).toNat)
    if boxBad d b then []
    else if bit (wd d.words 0) 2 then at_ (clampFV c.1 (refD1 img)) (clampFV c.2 (refD2 img))
    else if inRange c.1 (refD1 img) && inRange c.2 (refD2 img) then at_ c.1 c.2 else [])).eraseDups

def cropRun (s : State) (d : Desc) : List (Nat × List Byte) × Nat :=
  let img := dref d 8
  let out := dref d 16
  let inside (c : FV × FV) : Bool := inRange c.1 (refD1 img) && inRange c.2 (refD2 img)
  let a := mapRows out (fun ch i =>
    let b := boxWords s d (rowW out i)
    let c := boxCoord d b (rowX out i) (rowY out i)
    let fill := conv0 out (.f (dec32 (wd d.words 1)))
    if boxBad d b then fill
    else if bit (wd d.words 0) 2 then
      conv0 out (.f (sample s img ch (wd b 0).toNat (clampFV c.1 (refD1 img)) (clampFV c.2 (refD2 img))))
    else if inside c then conv0 out (.f (sample s img ch (wd b 0).toNat c.1 c.2))
    else fill)
  let st (k : Nat) : Nat :=
    let b := boxWords s d k
    if boxBad d b then 3 else
    let l := (List.range (fld d.words 3 24 16)).flatMap (fun v => (List.range (fld d.words 3 8 0)).map (fun u =>
      inside (boxCoord d b u v)))
    if l.all id then 0 else if l.any id then 1 else 2
  let sa := pair48 (wd d.words 7) (wd d.words 24)
  let sb := packRow 8 32 ((List.range (fld d.words 2 7 0)).map st)
  (a.1 ++ [(sa, sb)], a.2)

-- Sort and select (R163 to R165)

/-- Insert by an order, stably. -/
def insertBy {α : Type} (before : α → α → Bool) (x : α) : List α → List α
  | [] => [x]
  | y :: r => if before x y then x :: y :: r else y :: insertBy before x r

/-- The order of TOPK: higher score first, lower index first, a NaN below every number (R164). -/
def scoreBefore (a b : FV × Nat) : Bool :=
  if a.1.isNan then b.1.isNan && decide (a.2 < b.2)
  else b.1.isNan || FV.lt b.1 a.1 || (!FV.lt a.1 b.1 && decide (a.2 < b.2))

def sortScores (l : List (FV × Nat)) : List (FV × Nat) := l.foldr (insertBy scoreBefore) []

/-- Scores with their ordinals. -/
def scoresOf (s : State) (r : List Word) : List (FV × Nat) :=
  (List.range (refElems r)).map (fun q => ((refElem s r (q % refD0 r) (q / refD0 r)).fv, q))

/-- IoU of two boxes (y1, x1, y2, x2) (R165). -/
def iou (a b : List FV) : FV :=
  let g (l : List FV) (i : Nat) : FV := l.getD i FV.zero
  let pos (x : FV) : FV := FV.max FV.zero x
  let area (l : List FV) : FV := mul32 (pos (sub32 (g l 2) (g l 0))) (pos (sub32 (g l 3) (g l 1)))
  let ih := pos (sub32 (FV.min (g a 2) (g b 2)) (FV.max (g a 0) (g b 0)))
  let iw := pos (sub32 (FV.min (g a 3) (g b 3)) (FV.max (g a 1) (g b 1)))
  let it := mul32 ih iw
  let un := sub32 (add32 (area a) (area b)) it
  match un with
  | .fin _ 0 _ => FV.zero
  | _ => div32 it un

/-- `a` is at most `b`; no NaN is. -/
def atMost (a b : FV) : Bool := !a.isNan && !b.isNan && !FV.lt b a

/-- Ordinals and scores that a sort/select task keeps (R164, R165). DESIGN CHOICE (log 47): a NaN is not below SCORE_THR. -/
def sortKept (s : State) (d : Desc) : List (FV × Nat) :=
  let k := fld d.words 1 12 0
  let sc := scoresOf s (dref d 8)
  if fld d.words 0 3 0 = 1 then (sortScores sc).take k
  else
    let bx := dref d 16
    let box (i : Nat) : List FV := (List.range 4).map (fun c => (refElem s bx c i).fv)
    let cls (i : Nat) : Int := if bit (wd d.words 0) 5 then (refElem s (dref d 24) (i % refD0 (dref d 24)) 0).int else 0
    let cand := sc.filter (fun x => !FV.lt x.1 (dec32 (wd d.words 3)) && !(box x.2).any FV.isNan)
    let thr := dec32 (wd d.words 2)
    let step (kept : List (FV × Nat)) (x : FV × Nat) : List (FV × Nat) :=
      if k ≤ kept.length then kept
      else if kept.all (fun y => cls y.2 != cls x.2 || atMost (iou (box x.2) (box y.2)) thr) then kept ++ [x] else kept
    (sortScores cand).foldl step []

def sortRun (s : State) (d : Desc) : List (Nat × List Byte) × Nat :=
  let kept := sortKept s d
  let sr := dref d 8
  let oi := dref d 32
  let os := dref d 40
  let ca := pair48 (wd d.words 4) (wd d.words 5)
  ([rowWrite oi 0 (kept.map (fun x => x.2)),
    rowWrite os 0 (kept.map (fun x => recode (refFmt sr) (refCode s sr (x.2 % refD0 sr) (x.2 / refD0 sr)))),
    (ca, packRow 32 32 [kept.length])], 0)

-- Point cloud (R295 to R299)

/-- A packet record at `a`: nanoseconds from the frame's start to its stamp, whose seconds are the low 32 bits of the time
base's (R273, R295, R299), and the length of its payload. -/
def pktAge (s : State) (a : Nat) : Int :=
  let w := s.mem.words a 2
  sext 32 ((wd w 1).toNat + 2 ^ 32 - s.sch.t / 1000000000 % 2 ^ 32) * 1000000000
    + ((fld w 0 29 0 : Nat) : Int) - ((s.sch.t % 1000000000 : Nat) : Int)
def pktLen (s : State) (a : Nat) : Nat := fld (s.mem.words (a + 8) 1) 0 15 0

/-- Addresses of the first `n` packet records from `a`. -/
def pktAddrs (s : State) : Nat → Nat → List Nat
  | 0, _ => []
  | n + 1, a => a :: pktAddrs s n (a + (16 + pktLen s a + 63) / 64 * 64)

/-- A coordinate field (R297). -/
def pclField (s : State) (d : Desc) (a : Nat) : FV :=
  let c := fld d.words 0 2 1
  if c = 0 then FV.ofInt (sext 16 (leNat (s.mem.read a 2)))
  else if c = 1 then fp32 (FV.ofInt (sext 32 (leNat (s.mem.read a 4))))
  else decodeFloat 11 (leNat (s.mem.read a 4))

def isZeroFV : FV → Bool
  | .fin _ 0 _ => true
  | _ => false

/-- A cell being filled: its indices and its points' features in order. -/
structure PclCell where
  ix : Nat
  iy : Nat
  iz : Nat
  pts : List (List FV)

structure PclAcc where
  cells : List PclCell
  binned : Nat
  outside : Nat
  lost : Nat

/-- One point: transformed, placed in its cell, or discarded (R298, R299). -/
def pclPoint (s : State) (d : Desc) (age : Int) (acc : PclAcc) (a : Nat) : PclAcc :=
  let o (h l : Nat) : Nat := a + fld d.words 4 h l
  let x := pclField s d (o 7 0)
  let y := pclField s d (o 15 8)
  let z := pclField s d (o 23 16)
  if isZeroFV x && isZeroFV y && isZeroFV z then acc else
  let u := dec32 (wd d.words 5)
  let e (i : Nat) : FV := dec32 (wd d.words (8 + i))
  let vx := mul32 x u
  let vy := mul32 y u
  let vz := mul32 z u
  let p (r : Nat) : FV :=
    add32 (add32 (add32 (mul32 (e (4 * r)) vx) (mul32 (e (4 * r + 1)) vy)) (mul32 (e (4 * r + 2)) vz)) (e (4 * r + 3))
  let mn (i : Nat) : FV := dec32 (wd d.words (20 + i))
  let cs (i : Nat) : FV := dec32 (wd d.words (23 + i))
  let q (i : Nat) : FV := div32 (sub32 (p i) (mn i)) (cs i)
  let n (i : Nat) : Nat := if i = 0 then fld d.words 26 15 0 else if i = 1 then fld d.words 26 31 16 else fld d.words 27 15 0
  let ok := [0, 1, 2].all (fun i => (q i).finite && decide (0 ≤ (q i).floor) && decide ((q i).floor < n i))
  if !ok then { acc with outside := acc.outside + 1 } else
  let ix (i : Nat) : Nat := (q i).floor.toNat
  let inten : FV := if bit (wd d.words 0) 3 then fvNat (leNat (s.mem.read (o 31 24) 2)) else fvNat (s.mem.get (o 31 24)).toNat
  let ctr (i : Nat) : FV := add32 (mn i) (mul32 (add32 (fvNat (ix i)) (.fin false 1 (-1))) (cs i))
  let ms := div32 (fp32 (FV.ofInt age)) (fvNat 1000000)
  let ft := [p 0, p 1, p 2, inten, sub32 (p 0) (ctr 0), sub32 (p 1) (ctr 1), sub32 (p 2) (ctr 2), ms]
  match acc.cells.findIdx? (fun c => c.ix == ix 0 && c.iy == ix 1 && c.iz == ix 2) with
  | some k =>
    if (acc.cells.getD k (PclCell.mk 0 0 0 [])).pts.length < fld d.words 7 23 16 then
      { acc with cells := modAt acc.cells k (fun c => { c with pts := c.pts ++ [ft] }), binned := acc.binned + 1 }
    else { acc with lost := acc.lost + 1 }
  | none =>
    if acc.cells.length < fld d.words 7 15 0 then
      { acc with cells := acc.cells ++ [PclCell.mk (ix 0) (ix 1) (ix 2) [ft]], binned := acc.binned + 1 }
    else { acc with lost := acc.lost + 1 }

/-- The delivered sensor frame of a stream. -/
def deliveredOf (s : State) (i : Nat) : Option SFrame :=
  (s.sens.streams.getD i {}).kept.find? (fun f => f.delivered && f.fseq == s.sch.seq)

/-- A point-cloud task (R298, R299). -/
def pclRun (s : State) (d : Desc) : List (Nat × List Byte) × Nat :=
  let st := fld d.words 1 5 0
  let e := stEntry s st
  let base := stBuf e + ((s.sens.streams.getD st {}).delivered.getD 0) * stStride e
  let n := match deliveredOf s st with | some f => f.pkts | none => 0
  let acc := (pktAddrs s n base).foldl (fun acc a =>
    let pts := (List.range (fld d.words 3 15 0)).map (fun k => fld d.words 2 15 0 + k * fld d.words 2 23 16)
    let pts := pts.filter (fun o => o + fld d.words 2 23 16 ≤ pktLen s a)
    pts.foldl (fun acc o => pclPoint s d (pktAge s a) acc (a + 16 + o)) acc) (PclAcc.mk [] 0 0 0)
  let ft := dref d 32
  let cl := dref d 40
  let dflt := PclCell.mk 0 0 0 []
  let feat := mapRows ft (fun ch i =>
    match (acc.cells.getD (rowY ft i) dflt).pts[rowX ft i]? with
    | some f => conv0 ft (.f (f.getD ch FV.zero))
    | none => (0, false))
  let cells := mapRows cl (fun ch i =>
    let c := acc.cells.getD (rowX cl i) dflt
    (([c.ix, c.iy, c.iz, c.pts.length].getD ch 0), false))
  let ca := pair48 (wd d.words 28) (wd d.words 29)
  (feat.1 ++ cells.1 ++ [(ca, packRow 32 32 [acc.cells.length, acc.binned, acc.outside, acc.lost])], feat.2)

/-- A vector, warp, crop, sort/select or point-cloud task's output and saturation events. -/
def taskRun (s : State) (p : Plan) (d : Desc) : List (Nat × List Byte) × Nat :=
  match d.kind with
  | .ve => vecRun s p d
  | .warp => warpRun s d
  | .crop => cropRun s d
  | .sort => sortRun s d
  | .pcl => pclRun s d
  | .me | .ae => ([], 0)

end Sys2Proof.Machine
end

