-- ==== Sys2Proof/Machine/Attention.lean ====
section
/-! DEFINITION. Attention tasks: masks, the online softmax, the backward passes, MERGE, APPEND, and the walks over page
tables (R182 to R203). -/

namespace Sys2Proof.Machine

def adOp (d : Desc) : Nat := fld d.words 0 3 0
def adAdvance (d : Desc) : Bool := bit (wd d.words 0) 5
def adGlobal (d : Desc) : Bool := bit (wd d.words 0) 6
def adCausal (d : Desc) : Bool := bit (wd d.words 0) 7
def adStats (d : Desc) : Bool := bit (wd d.words 0) 8
def adSeq (d : Desc) : Nat := fld d.words 1 5 0
def adHead (d : Desc) : Nat := fld d.words 1 11 8
def adMask (d : Desc) : Nat := fld d.words 1 31 16
def adScale (d : Desc) : FV := dec32 (wd d.words 2)
def adQY (d : Desc) : Nat := fld d.words 3 15 0
def adQX (d : Desc) : Nat := fld d.words 3 31 16
def adWU (d : Desc) : Nat := fld d.words 4 4 0
def adWD (d : Desc) : Nat := fld d.words 4 9 5
def adWL (d : Desc) : Nat := fld d.words 4 14 10
def adWR (d : Desc) : Nat := fld d.words 4 19 15
def adNQ (d : Desc) : Nat := fld d.words 6 15 0
def adRef (d : Desc) (i : Nat) : List Word := dref d (16 + 8 * i)

/-- A page descriptor of the sequence with header `h`, not yet emitted (R193). -/
def pageDesc (h : List Word) (e y0 x0 age : Nat) (glob : Bool) : PDesc :=
  { seq := fld h 0 5 0, ent := e, glob := glob, y0 := y0, x0 := x0, age := age }

/-- The device holds a page of head `hd`, page row or ring page `pr` (R201). -/
def partHolds (h : List Word) (hd pr : Nat) : Bool :=
  if kvPartCount h = 0 then true
  else
    let i := if kvByPos h then pr else hd
    kvPartFirst h ≤ i && i < kvPartFirst h + kvPartCount h

def entValid (s : State) (h : List Word) (e : Nat) : Bool := entState (kvEnt s h e) != 0

/-- The head's global page, when it is walked (R192). -/
def globPage (s : State) (h : List Word) (hd : Nat) (on : Bool) : List PDesc :=
  if on && 1 ≤ kvNG h && partHolds h hd 0 && entValid s h (globEntry h hd) then [pageDesc h (globEntry h hd) 0 0 0 true] else []

/-- The pages of a GRID walk: each selected slot's pages that meet the block's windows (R192). -/
def gridPages (s : State) (h : List Word) (d : Desc) (qy qx : Nat) : List PDesc :=
  let rlo := (qy - adWU d) / 8
  let rhi := min (qy + 7 + adWD d) (kvGH h - 1) / 8
  let clo := (qx - adWL d) / 8
  let chi := min (qx + 15 + adWR d) (kvGW h - 1) / 8
  ((List.range (kvTD h)).filter (fun a => adMask d / 2 ^ a % 2 == 1)).flatMap (fun a =>
    let sl := (kvHead h + kvTD h - a) % kvTD h
    ((List.range (rhi + 1)).filter (rlo ≤ ·)).flatMap (fun pr =>
      ((List.range (chi + 1)).filter (clo ≤ ·)).filterMap (fun pc =>
        let e := gridEntry h (adHead d) sl pr pc
        if pr < kvPR h && pc < kvPC h && partHolds h (adHead d) pr && entValid s h e then
          some (pageDesc h e (8 * pr) (8 * pc) a false) else none)))

/-- The pages of a LINEAR walk of head `hd` in position order (R192). -/
def linPages (s : State) (h : List Word) (hd : Nat) : List PDesc :=
  let np := (kvLength h + 63) / 64
  let first := (kvHead h + kvLP h - (np - 1)) % kvLP h
  (List.range np).filterMap (fun i =>
    let k := (first + i) % kvLP h
    let e := linEntry h hd k
    if partHolds h hd k && entValid s h e then some (pageDesc h e (64 * i) 0 (np - 1 - i) false) else none)

/-- A forward walk (R192). -/
def fwdPages (s : State) (h : List Word) (d : Desc) (hd : Nat) : List PDesc :=
  globPage s h hd (adGlobal d) ++ (if kvLinear h then linPages s h hd else gridPages s h d (adQY d) (adQX d))

/-- The page named by a BWD_DKV entry, with the place it has in its sequence. -/
def namedPage (h : List Word) (e : Nat) : PDesc :=
  if kvGlobal0 h ≤ e then pageDesc h e 0 0 0 true
  else if kvLinear h then
    let np := (kvLength h + 63) / 64
    let first := (kvHead h + kvLP h - (np - 1)) % kvLP h
    pageDesc h e (64 * ((e % kvLP h + kvLP h - first) % kvLP h)) 0 (entAge h e) false
  else pageDesc h e (8 * (e / kvPC h % kvPR h)) (8 * (e % kvPC h)) (entAge h e) false

/-- Position `r` of a page is visible to query row (R183, R184): GRID queries are grid positions, LINEAR ones row
numbers of `nq`. -/
def visible (s : State) (h : List Word) (d : Desc) (p : PDesc) (r qy qx i nq : Nat) (cau : Bool) : Bool :=
  if p.pad || !entValid s h p.ent then false
  else if p.glob then adGlobal d && r < kvNG h
  else if kvLinear h then
    let pos := p.y0 + r
    pos < kvLength h && (!cau || pos + nq ≤ kvLength h + i)
  else
    let ky := p.y0 + r / 8
    let kx := p.x0 + r % 8
    adMask d / 2 ^ p.age % 2 == 1 && qy ≤ ky + adWU d && ky ≤ qy + adWD d && qx ≤ kx + adWL d && kx ≤ qx + adWR d
      && ky < kvGH h && kx < kvGW h && qy < kvGH h && qx < kvGW h

/-- Address of a page's bytes: its frame, or its home while it has none (R178, R179). -/
def pageAddr (s : State) (h : List Word) (e : Nat) : Nat :=
  let x := kvEnt s h e
  if entState x = 1 then frameAddr h (entFrame x) else homeAddr h e

/-- Row `r` of a page's keys (`v` false) or values (R178). -/
def pageRow (s : State) (h : List Word) (e : Nat) (v : Bool) (r : Nat) : List FV :=
  let a := pageAddr s h e + (r + (if v then 64 else 0)) * (kvDH h * fmtBits (kvFmt h) / 8)
  (List.range (kvDH h)).map (fun c => decodeFloat (kvFmt h) (elemBits s.mem.get a (fmtBits (kvFmt h)) c))

/-- dot(q, k) on a tile: one reduction index in a cycle (R114, R185). -/
def tileDot (x : FV) (a b : List FV) : FV := (a.zip b).foldl (fun acc p => fp32 (FV.add acc (FV.mul p.1 p.2))) x

/-- Conversion to the page format and back (R185). -/
def cvt (h : List Word) (x : FV) : FV := decodeFloat (kvFmt h) (toFloat (kvFmt h) x).1

def maxf : FV := .fin false (2 ^ 24 - 1) 104
def isNegInf : FV → Bool
  | .inf n => n
  | _ => false

/-- A reference's row as values. -/
def refRow (s : State) (r : List Word) (i : Nat) : List FV :=
  (List.range (refD0 r)).map (fun c => (refElem s r c i).fv)

/-- The state of one query row of the online softmax. -/
structure SoftRow where
  m : FV
  l : FV
  o : List FV

/-- One key block: its (key, value, visible) positions (R185). -/
def softBlock (h : List Word) (scale : FV) (q : List FV) (ks : List (List FV × List FV × Bool)) (x : SoftRow) : SoftRow :=
  let sc := ks.map (fun k => if k.2.2 then mul32 scale (tileDot FV.zero q k.1) else .inf true)
  let mn := sc.foldl FV.max x.m
  if isNegInf mn then x else
  let alpha := if isNegInf x.m then FV.zero else expF (sub32 x.m mn)
  let ps := sc.map (fun v => if isNegInf v then FV.zero else cvt h (expF (sub32 v mn)))
  SoftRow.mk mn (add32 (mul32 alpha x.l) (ps.foldl add32 FV.zero))
    (x.o.zipIdx.map (fun o => tileDot (mul32 alpha o.1) ps (ks.map (fun k => k.2.1.getD o.2 FV.zero))))

/-- Consecutive descriptors pair into key blocks of 128 keys (R192). -/
def keyBlocks (s : State) (h : List Word) (ps : List PDesc) (vis : PDesc → Nat → Bool) : List (List (List FV × List FV × Bool)) :=
  let one (p : PDesc) : List (List FV × List FV × Bool) := (List.range 64).map (fun r =>
    if vis p r then (pageRow s h p.ent false r, pageRow s h p.ent true r, true) else ([], [], false))
  (runsOf 2 ((ps.length + 1) / 2) ps).map (fun b => b.flatMap one)

/-- A query row's result: its output values, M and LSE (R185). -/
def softResult (h : List Word) (scale : FV) (q : List FV) (bs : List (List (List FV × List FV × Bool))) : List FV × FV × FV :=
  let x := bs.foldl (fun x b => softBlock h scale q b x)
    (SoftRow.mk (.inf true) FV.zero (List.replicate (kvDH h) FV.zero))
  if isZeroFV x.l then (List.replicate (kvDH h) FV.zero, maxf.neg, maxf.neg)
  else (x.o.map (fun o => div32 o x.l), x.m, add32 x.m (lnF x.l))

/-- An output row and its saturation events. -/
def outRow (r : List Word) (i : Nat) (vs : List FV) : (Nat × List Byte) × Nat :=
  let cs := vs.map (fun v => convert (refFmt r) 0 (.f v))
  (rowWrite r i (cs.map (fun c => c.1)), (cs.filter (fun c => c.2)).length)

/-- A STATS row (R186). -/
def statRow (r : List Word) (i : Nat) (m lse : FV) (ver : Word) : Nat × List Byte :=
  rowWrite r i [(toFloat 11 m).1, (toFloat 11 lse).1, ver.toNat, 0]

/-- Query rows of a GRID block inside the grid: row number in the references, y and x (R182). -/
def gridRows (h : List Word) (r : List Word) (qy0 qx0 : Nat) : List (Nat × Nat × Nat) :=
  ((List.range 128).map (fun i => (qy0 + i / 16, qx0 + i % 16))).filterMap (fun p =>
    if p.1 < kvGH h && p.2 < kvGW h then some (rowIx r p.2 p.1 0, p.1, p.2) else none)

/-- Query rows of a task: reference row, y, x, index in the block (R182, R184). -/
def queryRows (h : List Word) (d : Desc) : List (Nat × Nat × Nat × Nat) :=
  if kvLinear h then (List.range (adNQ d)).map (fun i => (i, 0, 0, i))
  else (gridRows h (adRef d 0) (adQY d) (adQX d)).map (fun x => (x.1, x.2.1, x.2.2, 0))

/-- What a task's run yields: writes, saturation events, and whether a STATS row is of another VERSION (R188). -/
structure AttOut where
  writes : List (Nat × List Byte)
  sat : Nat
  stale : Bool

def joinOut (l : List ((Nat × List Byte) × Nat)) : List (Nat × List Byte) × Nat :=
  (l.map (fun x => x.1), (l.map (fun x => x.2)).sum)

/-- FWD (R185, R186). -/
def fwdRun (s : State) (d : Desc) (ver : Word) : AttOut :=
  let h := kvHdr s (adSeq d)
  let ps := fwdPages s h d (adHead d)
  let rs := (queryRows h d).map (fun q =>
    let bs := keyBlocks s h ps (fun p r => visible s h d p r q.2.1 q.2.2.1 q.2.2.2 (adNQ d) (adCausal d))
    let x := softResult h (adScale d) (refRow s (adRef d 0) q.1) bs
    (outRow (adRef d 1) q.1 x.1, statRow (adRef d 2) q.1 x.2.1 x.2.2 ver))
  let o := joinOut (rs.map (fun x => x.1))
  AttOut.mk (o.1 ++ (if adStats d then rs.map (fun x => x.2) else [])) o.2 false

/-- The entries of a batch list: SEQ_ID, HEAD, QROW, count (R199). -/
def batchList (s : State) (d : Desc) : List (Nat × Nat × Nat × Nat) :=
  (List.range (adNQ d)).map (fun i =>
    let w := engWords s (refRowAddr (adRef d 3) i) 4
    (fld w 0 5 0, fld w 0 11 8, fld w 1 15 0, fld w 1 31 16))

/-- FWD_BATCH: each entry's rows depend on its own sequence alone (R199, R200). `vers` gives each sequence's VERSION. -/
def batchRun (s : State) (d : Desc) (vers : Nat → Word) : AttOut :=
  let rs := (batchList s d).flatMap (fun e =>
    let h := kvHdr s e.1
    let ps := globPage s h e.2.1 (adGlobal d) ++ linPages s h e.2.1
    (List.range e.2.2.2).map (fun i =>
      let bs := keyBlocks s h ps (fun p r => visible s h d p r 0 0 i e.2.2.2 (adCausal d))
      let x := softResult h (adScale d) (refRow s (adRef d 0) (e.2.2.1 + i)) bs
      (outRow (adRef d 1) (e.2.2.1 + i) x.1, statRow (adRef d 2) (e.2.2.1 + i) x.2.1 x.2.2 (vers e.1))))
  let o := joinOut (rs.map (fun x => x.1))
  AttOut.mk (o.1 ++ (if adStats d then rs.map (fun x => x.2) else [])) o.2 false

/-- p, ds of one query row and key (R187). -/
def bwdPair (h : List Word) (scale : FV) (q dO k v : List FV) (lse delta : FV) (vis : Bool) : FV × FV :=
  let p := if vis then cvt h (expF (sub32 (mul32 scale (tileDot FV.zero q k)) lse)) else FV.zero
  let dp := tileDot FV.zero dO v
  (p, cvt h (mul32 p (sub32 dp delta)))

/-- BWD_DQ (R187). -/
def dqRun (s : State) (d : Desc) : AttOut :=
  let h := kvHdr s (adSeq d)
  let ps := fwdPages s h d (adHead d)
  let rs := (queryRows h d).map (fun q =>
    let qv := refRow s (adRef d 0) q.1
    let o := refRow s (adRef d 1) q.1
    let dO := refRow s (adRef d 2) q.1
    let lse := (refElem s (adRef d 3) 1 q.1).fv
    let delta := (dO.zip o).foldl (fun a x => add32 a (mul32 x.1 x.2)) FV.zero
    let bs := keyBlocks s h ps (fun p r => visible s h d p r q.2.1 q.2.2.1 q.2.2.2 (adNQ d) (adCausal d))
    let dq := bs.foldl (fun dq b =>
      let ds := b.map (fun k => if k.2.2 then (bwdPair h (adScale d) qv dO k.1 k.2.1 lse delta true).2 else FV.zero)
      dq.zipIdx.map (fun x => add32 x.1 (mul32 (adScale d) (tileDot FV.zero ds (b.map (fun k => k.1.getD x.2 FV.zero))))))
      (List.replicate (kvDH h) FV.zero)
    (outRow (adRef d 4) q.1 dq, outRow (adRef d 5) q.1 [delta]))
  let a := joinOut (rs.map (fun x => x.1))
  let b := joinOut (rs.map (fun x => x.2))
  let stale := (queryRows h d).any (fun q => refCode s (adRef d 3) 2 q.1 != (kvVersion h).toNat)
  AttOut.mk (a.1 ++ b.1) (a.2 + b.2) stale

/-- Query blocks that BWD_DKV visits, in row-major order, for a page (R187). -/
def dkvRows (s : State) (h : List Word) (d : Desc) (p : PDesc) : List (Nat × Nat × Nat × Nat) :=
  if kvLinear h then (List.range (refRows (adRef d 0))).map (fun i => (i, 0, 0, i))
  else
    let blocks := (List.range ((kvGH h + 7) / 8)).flatMap (fun by_ => (List.range ((kvGW h + 15) / 16)).map (fun bx => (8 * by_, 16 * bx)))
    let meets := blocks.filter (fun b => p.glob || (gridPages s h d b.1 b.2).any (fun x => x.ent == p.ent))
    meets.flatMap (fun b => (gridRows h (adRef d 0) b.1 b.2).map (fun x => (x.1, x.2.1, x.2.2, 0)))

/-- BWD_DKV (R187). -/
def dkvRun (s : State) (d : Desc) : AttOut :=
  let h := kvHdr s (adSeq d)
  let es := (wd d.words 7).toNat :: (if wd d.words 8 = 0xFFFF_FFFF then [] else [(wd d.words 8).toNat])
  let q (i : Nat) := refRow s (adRef d 0) i
  let dO (i : Nat) := refRow s (adRef d 1) i
  let lse (i : Nat) := (refElem s (adRef d 2) 1 i).fv
  let delta (i : Nat) := (refElem s (adRef d 3) 0 i).fv
  let z := List.replicate (kvDH h) FV.zero
  let rs := es.flatMap (fun e =>
    let p := namedPage h e
    let rows := dkvRows s h d p
    (List.range 64).map (fun r =>
      let k := pageRow s h e false r
      let v := pageRow s h e true r
      let g := rows.foldl (fun g x =>
        let vis := visible s h d p r x.2.1 x.2.2.1 x.2.2.2 (refRows (adRef d 0)) (adCausal d)
        if !vis then g else
        let pd := bwdPair h (adScale d) (q x.1) (dO x.1) k v (lse x.1) (delta x.1) true
        let sd := mul32 (adScale d) pd.2
        ((g.1.zip (q x.1)).map (fun y => add32 y.1 (mul32 sd y.2)), (g.2.zip (dO x.1)).map (fun y => add32 y.1 (mul32 pd.1 y.2))))
        (z, z)
      (outRow (adRef d 4) (rowIx (adRef d 4) r e 0) g.1, outRow (adRef d 5) (rowIx (adRef d 5) r e 0) g.2)))
  let a := joinOut (rs.map (fun x => x.1))
  let b := joinOut (rs.map (fun x => x.2))
  let stale := es.any (fun e => (dkvRows s h d (namedPage h e)).any (fun x => refCode s (adRef d 2) 2 x.1 != (kvVersion h).toNat))
  AttOut.mk (a.1 ++ b.1) (a.2 + b.2) stale

/-- MERGE (R202). -/
def mergeRun (s : State) (d : Desc) : AttOut :=
  let po := adRef d 0
  let pst := adRef d 1
  let n := adNQ d
  let rs := (List.range (refD1 po * refD2 po)).map (fun i =>
    let ix (r : List Word) (c : Nat) : Nat := c * (refD1 r * refD2 r) + i
    let parts : List (FV × FV × List FV) := (List.range n).filterMap (fun c =>
      let m := (refElem s pst 0 (ix pst c)).fv
      if FV.lt maxf.neg m || FV.lt m maxf.neg || m.isNan then
        some (m, (refElem s pst 1 (ix pst c)).fv, refRow s po (ix po c)) else none)
    let ver : Word := BitVec.ofNat 32 (refCode s pst 2 (ix pst 0))
    match parts with
    | [] => (outRow (adRef d 2) i (List.replicate (refD0 po) FV.zero), statRow (adRef d 3) i maxf.neg maxf.neg ver)
    | f :: r =>
      let lmax := r.foldl (fun (a : FV) (x : FV × FV × List FV) => FV.max a x.2.1) f.2.1
      let mm := r.foldl (fun (a : FV) (x : FV × FV × List FV) => FV.max a x.1) f.1
      let zz := parts.foldl (fun (a : FV) (x : FV × FV × List FV) => add32 a (expF (sub32 x.2.1 lmax))) FV.zero
      let lo := add32 lmax (lnF zz)
      let out := parts.foldl (fun (o : List FV) (x : FV × FV × List FV) =>
        let w := expF (sub32 x.2.1 lo)
        (List.zip o x.2.2).map (fun (y : FV × FV) => add32 y.1 (mul32 w y.2))) (List.replicate (refD0 po) FV.zero)
      (outRow (adRef d 2) i out, statRow (adRef d 3) i mm lo ver))
  let o := joinOut (rs.map (fun x => x.1))
  AttOut.mk (o.1 ++ rs.map (fun x => x.2)) o.2 false

/-- A forward or backward task's run. -/
def attRun (s : State) (d : Desc) (ver : Word) : AttOut :=
  let op := adOp d
  if op = 1 then fwdRun s d ver
  else if op = 2 then batchRun s d (fun i => kvVersion (kvHdr s i))
  else if op = 3 then dqRun s d
  else if op = 4 then dkvRun s d
  else if op = 6 then mergeRun s d
  else AttOut.mk [] 0 false

-- APPEND (R189, R194, R196)

/-- WSEQ of a page written now (R180). -/
def wseqNow (s : State) : Word := if s.sch.run == .idle || s.sch.run == .armed then 0 else s.sch.seq

/-- A page is to be written: it gets a frame, its bytes from home when it has any, and it is no longer clean nor
poisoned. None when every frame is pinned, or while the page is still being fetched. -/
def openPage (s : State) (id e : Nat) (fresh : Bool) (o : Nat → Ecc := asIs) : Option State :=
  let h := kvHdr s id
  let x := kvEnt s h e
  let done (s : State) (f : Nat) : State := setEnt (dropCopy s id e) h e (entWord 1 false false false f) (wseqNow s)
  if entState x = 1 then some (done s (entFrame x))
  else if entState x = 3 then none
  else match allocFrame s id o with
    | none => none
    | some (f, s1) =>
      let s2 := if entState x = 2 && !fresh then
          bumpHdr (copyBytes s1 (homeAddr h e) (frameAddr h f) (pageBytes h) [] o) id 12
        else store s1 (frameAddr h f) (List.replicate (pageBytes h) 0)
      some (done s2 f)

/-- Write row `r` of a page's keys and values from row `i` of the K and V references, poisoned where the task's output is
(R203). -/
def putRow (s : State) (bad : Bool) (id e r : Nat) (k v : List Word) (i : Nat) : State :=
  let h := kvHdr s id
  let w := kvDH h * fmtBits (kvFmt h) / 8
  let a := frameAddr h (entFrame (kvEnt s h e))
  let codes (t : List Word) : List Nat := (List.range (kvDH h)).map (fun c => (convert (kvFmt h) 0 (refElem s t c i)).1)
  let bytes (t : List Word) : List Byte := (packRow (fmtBits (kvFmt h)) 1 (codes t)).take w
  doWrites s [(a + r * w, bytes k), (a + (64 + r) * w, bytes v)] bad

/-- Write rows of a page: (page row, reference row) pairs. -/
def putRows (s : State) (bad : Bool) (id e : Nat) (fresh : Bool) (k v : List Word) (rs : List (Nat × Nat))
    (o : Nat → Ecc := asIs) : Option State :=
  (openPage s id e fresh o).map (fun s => rs.foldl (fun s x => putRow s bad id e x.1 k v x.2) s)

/-- Fold that stops when a page finds no frame. -/
def foldPages (s : State) {α : Type} (l : List α) (f : State → α → Option State) : Option State :=
  l.foldl (fun s x => s.bind (fun s => f s x)) (some s)

/-- Drop whole pages of the oldest positions until `n` more fit (R196). -/
def dropOld : Nat → State → Nat → Nat → State
  | 0, s, _, _ => s
  | f + 1, s, id, n =>
    let h := kvHdr s id
    if kvLength h + n ≤ kvGH h || kvLength h = 0 then s else
    let np := (kvLength h + 63) / 64
    let first := (kvHead h + kvLP h - (np - 1)) % kvLP h
    let s1 := (List.range (kvNH h)).foldl (fun s hd => invalidate s h (linEntry h hd first)) s
    dropOld f (setHdr s1 id 9 (BitVec.ofNat 32 (kvLength h - min (kvLength h) 64))) id n

/-- A new slot is opened: the slot that becomes age 0 has every page invalid (R196). -/
def advanceSlot (s : State) (id : Nat) : State :=
  let h := kvHdr s id
  let hd := (kvHead h + 1) % kvTD h
  let s := setHdr s id 8 (kvWord8 hd (kvLockCount h) (kvLocked h) (kvAppendHeld h))
  (List.range (kvNH h)).foldl (fun s hh =>
    (List.range (kvPR h * kvPC h)).foldl (fun s i => invalidate s h (gridEntry h hh hd 0 0 + i)) s) s

/-- The rows of an APPEND go to their pages, or none while a frame is awaited; `bad` writes them poisoned (R189, R196,
R203). -/
def appendRows (s : State) (d : Desc) (bad : Bool) (o : Nat → Ecc := asIs) : Option State :=
  let id := adSeq d
  let h := kvHdr s id
  let k := adRef d 0
  let v := adRef d 1
  let heads := (List.range (refD3 k)).filter (fun i => adHead d + i < kvNH h)
  if adGlobal d then
    foldPages s heads (fun s i =>
      if partHolds h (adHead d + i) 0 then
        putRows s bad id (globEntry h (adHead d + i)) true k v ((List.range (min (refD1 k) 64)).map (fun r => (r, rowIx k r 0 i))) o
      else some s)
  else if kvLinear h then
    let n := refD1 k
    let s1 := dropOld (kvLP h + 1) s id n
    let h1 := kvHdr s1 id
    let l0 := kvLength h1
    let np := (l0 + 63) / 64
    let np' := (l0 + n + 63) / 64
    let first := if np = 0 then kvHead h1 else (kvHead h1 + kvLP h1 - (np - 1)) % kvLP h1
    let pages := (List.range np').filter (fun g => l0 < 64 * (g + 1))
    let r := foldPages s1 (heads.flatMap (fun i => pages.map (fun g => (i, g)))) (fun s x =>
      let ring := (first + x.2) % kvLP h1
      if partHolds h1 (adHead d + x.1) ring then
        putRows s bad id (linEntry h1 (adHead d + x.1) ring) (decide (l0 ≤ 64 * x.2)) k v
          (((List.range 64).filter (fun r => l0 ≤ 64 * x.2 + r && 64 * x.2 + r < l0 + n)).map
            (fun r => (r, rowIx k (64 * x.2 + r - l0) 0 x.1))) o
      else some s)
    r.map (fun s =>
      let s := setHdr s id 9 (BitVec.ofNat 32 (l0 + n))
      let h2 := kvHdr s id
      setHdr s id 8 (kvWord8 ((first + (np' - 1)) % kvLP h1) (kvLockCount h2) (kvLocked h2) (kvAppendHeld h2)))
  else
    let pages := heads.flatMap (fun i => (List.range (kvPR h)).flatMap (fun pr =>
      (List.range (kvPC h)).map (fun pc => (i, pr, pc))))
    foldPages s pages (fun s x =>
      let pr := x.2.1
      let pc := x.2.2
      if partHolds h (adHead d + x.1) pr then
        putRows s bad id (gridEntry h (adHead d + x.1) (kvHead h) pr pc) true k v
          ((List.range 64).filterMap (fun r =>
            let y := 8 * pr + r / 8
            let xx := 8 * pc + r % 8
            if y < kvGH h && xx < kvGW h then some (r, rowIx k xx y x.1) else none)) o
      else some s)

/-- APPEND's effect on the store: with ADVANCE a new slot is opened first (R189, R196). -/
def doAppend (s : State) (d : Desc) (bad : Bool) (o : Nat → Ecc := asIs) : Option State :=
  appendRows (if !kvLinear (kvHdr s (adSeq d)) && adAdvance d then advanceSlot s (adSeq d) else s) d bad o

/-- After a completed APPEND: VERSION rises, and pages beyond RES_DEPTH begin their copies home (R194, R196). -/
def afterAppend (s : State) (id : Nat) : State :=
  let s := fixPoisonPages (bumpHdr s id 7) id
  let h := kvHdr s id
  let out := (List.range (kvGlobal0 h)).filter (fun e =>
    let x := kvEnt s h e
    entState x = 1 && !entClean x && kvRes h ≤ entAge h e && !s.kv.spills.contains (id, e))
  { s with kv := { s.kv with spills := s.kv.spills ++ out.map (fun e => (id, e)) } }

-- Walks (R192, R195, R196)

/-- The sequences that a task walks. -/
def attSeqs (s : State) (d : Desc) : List Nat :=
  if adOp d = 6 then [] else if adOp d = 2 then ((batchList s d).map (fun e => e.1)).eraseDups else [adSeq d]

/-- A task names what its sequence does not have (R207). -/
def attBad (s : State) (d : Desc) : Bool :=
  let op := adOp d
  if op = 6 then false else
  let one (id hd : Nat) : Bool :=
    let h := kvHdr s id
    !kvMapped h || kvNH h ≤ hd || (!kvByPos h && !partHolds h hd 0) || (op == 2 && !kvLinear h)
      || (op != 5 && (refD0 (adRef d 0) != kvDH h || refFmt (adRef d 0) != kvFmt h))
      || (op == 3 && (refD0 (adRef d 2) != kvDH h || refFmt (adRef d 2) != kvFmt h))
      || (op == 4 && (refD0 (adRef d 1) != kvDH h || refFmt (adRef d 1) != kvFmt h))
      || (op == 5 && kvLinear h && (adAdvance d || (!adGlobal d && kvGH h < refD1 (adRef d 0))))
      || (adCausal d && !kvLinear h) || (op == 1 && kvLinear h && adNQ d == 0)
  if op = 2 then (batchList s d).any (fun e => one e.1 e.2.1) else one (adSeq d) (adHead d)

/-- The bucket of a sequence (R200). -/
def bucket (n : Nat) : Nat := if n ≤ 64 then 64 else if n ≤ 128 then 128 else if n ≤ 256 then 256 else if n ≤ 512 then 512 else 1024

/-- The query blocks of a batch list in the order in which they run: by increasing bucket, in list order within one; two
consecutive entries of bucket 64 with at most 64 queries each share one (R200). -/
def pairBlocks : List (Nat × Nat × Nat × Nat × Nat) → List (List (Nat × Nat × Nat × Nat × Nat))
  | x :: y :: r =>
    if x.1 = 64 && y.1 = 64 && x.2.2.2.2 ≤ 64 && y.2.2.2.2 ≤ 64 then [x, y] :: pairBlocks r else [x] :: pairBlocks (y :: r)
  | [x] => [[x]]
  | [] => []

def batchBlocks (s : State) (d : Desc) : List (List (Nat × Nat × Nat × Nat × Nat)) :=
  let l := (batchList s d).map (fun e => (bucket (kvLength (kvHdr s e.1)), e))
  pairBlocks ([64, 128, 256, 512, 1024].flatMap (fun b => l.filter (fun x => x.1 = b)))

/-- The descriptors of one entry of a batch: its real pages, then padding (R200). -/
def entryDescs (s : State) (e : Nat × Nat × Nat × Nat × Nat) : List PDesc :=
  let h := kvHdr s e.2.1
  let ps := linPages s h e.2.2.1
  ps ++ List.replicate (e.1 / 64 - ps.length) { seq := e.2.1, ent := 0, pad := true }

/-- The descriptors of a query block: one global page, then its entries'. DESIGN CHOICE (log 45): a shared block's global
descriptor names the page of the first of its entries that has one. -/
def blockDescs (s : State) (d : Desc) (b : List (Nat × Nat × Nat × Nat × Nat)) : List PDesc :=
  (b.flatMap (fun e => globPage s (kvHdr s e.2.1) e.2.2.1 (adGlobal d))).take 1 ++ b.flatMap (entryDescs s)

/-- The descriptors of a task in walk order (R192, R200); the last one carries LAST (R193). -/
def taskWalk (s : State) (d : Desc) : List PDesc :=
  let op := adOp d
  let h := kvHdr s (adSeq d)
  let l := if op = 1 || op = 3 then fwdPages s h d (adHead d)
    else if op = 2 then (batchBlocks s d).flatMap (blockDescs s d)
    else if op = 4 then
      ((wd d.words 7).toNat :: (if wd d.words 8 = 0xFFFF_FFFF then [] else [(wd d.words 8).toNat])).filterMap (fun e =>
        if entValid s h e then some (namedPage h e) else none)
    else []
  l.zipIdx.map (fun x => { x.1 with last := decide (x.2 + 1 = l.length) })

/-- Look ahead: pages in Shoal get a frame, a pin and a copy in flight; those in Cove are pinned (R196). -/
def lookAhead (s : State) (ps : List PDesc) (o : Nat → Ecc := asIs) : State :=
  (ps.filter (fun p => !p.pad)).foldl (fun s p =>
    let h := kvHdr s p.seq
    let x := kvEnt s h p.ent
    if entState x = 2 then
      match allocFrame s p.seq o with
      | none => s
      | some (f, s1) =>
        let s2 := setEnt s1 h p.ent (entWord 3 true (entPoison x) true f) (wd x 1)
        { s2 with kv := { s2.kv with fetches := s2.kv.fetches ++ [(p.seq, p.ent)] } }
    else if !entPinned x then pinPage s p.key true
    else s) s

/-- Bring the pages of an engine's queue up to the first that is still being fetched: there the stream halts (R193, R196,
R241, R244). -/
def fetchQueue : List PDesc → State → Nat → Attempt → State
  | [], s, _, _ => s
  | p :: r, s, e, a =>
    if p.pad then fetchQueue r s e a else
    let h := kvHdr s p.seq
    if entState (kvEnt s h p.ent) = 3 then
      modEng { s with ms := { s.ms with strHolds := satAdd 0xFFFF s.ms.strHolds 1 } } e
        (fun g => { g with arr := g.arr.map (fun b => { b with hold := true, holdClk := s.clk, todo := p :: r }) })
    else fetchQueue r (queueRow s e 0 (.page a.token a.item p.key) (frameAddr h (entFrame (kvEnt s h p.ent))) 0 (pageBytes h)) e a

/-- A descriptor as it is emitted now; none while its page has no frame (R193). -/
def emitDesc (s : State) (p : PDesc) : Option PDesc :=
  if p.pad then some p else
  let x := kvEnt s (kvHdr s p.seq) p.ent
  if entState x = 1 || entState x = 3 then some { p with frame := entFrame x, hold := entState x == 3 } else none

/-- The descriptors at the front of a list that can be emitted. -/
def emitDescs (s : State) : List PDesc → List PDesc
  | [] => []
  | p :: r => match emitDesc s p with
    | some q => q :: emitDescs s r
    | none => []

/-- Engine `f` takes descriptors of a walk's key block into its queue, if it runs the walk's task; the walk's own engine, `own`,
has so many fewer to emit. -/
def joinQueue (f : Nat) (own : Bool) (a : Attempt) (ps : List PDesc) (s : State) : State :=
  match (engOf s f).arr with
  | none => s
  | some b =>
    if b.token == a.token && b.item == a.item then
      fetchQueue ps (modEng s f (fun g => { g with arr := some { b with
        queue := b.queue ++ ps, pages := if own then b.pages.drop ps.length else b.pages
        block := if own && blockPartial b then b.block ++ ps else ps } })) f b
    else s

/-- The walk of engine `e` emits the descriptors of its next key block into the page queue, of both engines for a dual
task, once the block before is consumed (R192, R193, R195, R196). -/
def emitBlock (s : State) (e : Nat) (o : Nat → Ecc := asIs) : State :=
  match walkAtt s e with
  | none => s
  | some a =>
    if a.pages.isEmpty || a.stopping || !(walkQueue s e).isEmpty
      || (s.kv.walks.filter (fun w => w.e == e)).any (fun w => !w.granted) then s else
    let lead := kvLead (kvHdr s ((a.pages.headD default).seq))
    let n := if blockPartial a then 1 else 2
    let s := lookAhead s (a.pages.take (lead + n)) o
    let ps := emitDescs s (a.pages.take n)
    if ps.isEmpty then s else
    let s := (ps.filter (fun p => p.hold)).foldl (fun s p => bumpHdr s p.seq 13) s
    let s := joinQueue e true a ps s
    match a.partner with
    | some f => joinQueue f false a ps s
    | none => s

/-- Page `p` of engine `e`'s queue has come with poison, or its entry's POISON bit is set (R207). -/
def pageBad (s : State) (a : Attempt) (p : PDesc) : Bool :=
  if p.pad then false else
  let h := kvHdr s p.seq
  entPoison (kvEnt s h p.ent) ||
    a.data.any (fun d => d.bad && frameAddr h p.frame ≤ d.addr && d.addr < frameAddr h p.frame + pageBytes h)

/-- Engine `e` consumes the pages that have come, in order, up to one it must wait for or that is poisoned; each is counted
(R196, R207, R209). Fuelled by the queue. -/
def consumePages : Nat → State → Nat → State
  | 0, s, _ => s
  | n + 1, s, e =>
    match (engOf s e).arr with
    | none => s
    | some a =>
      match a.queue with
      | [] => s
      | p :: r =>
        let waits := decide (a.queue.length ≤ a.todo.length) ||
          (!p.pad && s.ms.xfers.any (fun x => x.unit == e && x.use == .page a.token a.item p.key))
        if waits then s
        else if pageBad s a p then modEng s e (fun g => { g with arr := some { a with poison := true } })
        else consumePages n (modEng s e (fun g => { g with
          arr := some { a with queue := r }, pages := satAdd 0xFFFF g.pages 1
          holds := if p.hold then satAdd 0xFFFF g.holds 1 else g.holds })) e

/-- Engine that owns the walk of the task in engine `e`. -/
def walkOwner (s : State) (e : Nat) : Nat :=
  match (engOf s e).arr with
  | some a => if a.writer then e else a.partner.getD e
  | none => e

/-- Engine `e` consumes what has come. -/
def consumeAll (s : State) (e : Nat) : State :=
  consumePages (match (engOf s e).arr with | some a => a.queue.length + 1 | none => 0) s e

/-- The walk of engine `w` goes on by a key block: each engine consumes what has come, pages that no engine has still to
consume are unpinned, and the next block is emitted (R195, R196). -/
def turnPages (s : State) (w : Nat) (o : Nat → Ecc := asIs) : State :=
  match walkAtt s w with
  | none => s
  | some a =>
    if a.stopping then s else
    let s := consumeAll s w
    let s := match a.partner with | some f => consumeAll s f | none => s
    let ids := (s.kv.walks.filter (fun x => x.e == w && !x.append)).map (fun x => x.seqId)
    emitBlock (ids.foldl freePins s) w o

/-- Page transfers that are over leave, and the walk goes on as far as it can. -/
def stepPages (s : State) (e : Nat) (o : Nat → Ecc := asIs) : State :=
  let s := (s.ms.xfers.filter (fun x => x.unit == e && x.use.isPage && xferOver s x)).foldl closeXfer s
  let w := walkOwner s e
  let n := match walkAtt s w with | some a => a.pages.length + 2 | none => 0
  (List.range n).foldl (fun s _ => turnPages s w o) s

/-- The first waiting walk of a sequence, when the lock can be granted to it (R195). -/
def grantable (s : State) (id : Nat) : Option Walk :=
  match s.kv.walks.find? (fun w => w.seqId == id && !w.granted) with
  | none => none
  | some w =>
    let h := kvHdr s id
    if !kvMapped h then some w
    else if w.append then (if kvLockCount h = 0 && !kvAppendHeld h then some w else none)
    else if kvLockCount h < 2 && !kvAppendHeld h then some w else none

end Sys2Proof.Machine
end

