-- ==== Sys2Proof/Machine/Fabric.lean ====
section
/-! DEFINITION. The stream units: the transfers of operands, pages, outputs and prefetch streams, their order and their
requests, the staging region of a matrix engine's Ledge, and stream faults (R216, R218, R220, R241 to R244, R252). -/

namespace Sys2Proof.Machine

-- What a task reads

/-- Padded position `p` along one axis lies in a window of some output index (R137, R138). -/
def inWin (n st k d p : Nat) : Bool := (List.range k).any (fun t => t * d ≤ p && (p - t * d) % st = 0 && (p - t * d) / st < n)

/-- The rows of X that a windowed vector task reads: those in a window of an output row of Z (R137, R138). -/
def winRegions (c x z : List Word) : List (Nat × Nat) :=
  ((List.range (refRows x)).filter (fun i =>
    inWin (refD1 z) (cvSW c) (cvKW c) (cvDW c) (rowX x i) && inWin (refD2 z) (cvSH c) (cvKH c) (cvDH c) (rowY x i))).map
    (fun i => (refRowAddr x i, rowBytes x))

/-- The real rows that a PAD task reads, with the group entries of a zero point (R134, R140). -/
def padRegions (c : List Word) (a b : Nat) : List (Nat × Nat) :=
  let r := cvIn c
  let m := cvPad c
  if m = 3 || m = 4 then
    (((List.range (refRows r)).filter (fun i => a ≤ rowY r i && rowY r i ≤ b && !isReal c (rowX r i) (rowY r i))).map (fun i =>
      (refRowAddr r (rowIx r (padCoord m ((rowX r i : Int) - cvPL c) (cvWin c) + cvPL c)
        (padCoord m ((rowY r i : Int) - cvPT c) (cvHin c) + cvPT c) (rowW r i)), rowBytes r))).eraseDups
  else if m = 1 && refZpMode r = 2 then [(auxBase r, auxBytes r)] else []

/-- Bytes of the packet records in the delivered buffer of a stream, the first at its start (R295, R298). -/
def pclRegion (s : State) (d : Desc) : List (Nat × Nat) :=
  let st := fld d.words 1 5 0
  let e := stEntry s st
  let n := match deliveredOf s st with | some f => f.pkts | none => 0
  let b := physOf s (stBuf e)
  let ends := (pktAddrs s n b).map (fun a => (a + (16 + pktLen s a + 63) / 64 * 64) - b)
  [(stBuf e, max 1 (ends.foldl max 0))]

/-- Rows of an image, by their ordinals, with its auxiliary array where group entries are needed. -/
def pixelRegions (r : List Word) (ps : List Nat) : List (Nat × Nat) :=
  ps.map (fun i => (refRowAddr r i, rowBytes r)) ++ (if auxBytes r = 0 || ps.isEmpty then [] else [(auxBase r, auxBytes r)])

/-- The bytes that the stream unit brings for a descriptor, by the addresses that it names (R60, R62, R90, R138, R242).
Pages of an attention task come by its page queue. DESIGN CHOICE (log 44): a map or a list is brought whole; of an image
come the rows that the task samples, by the map or the boxes as they stand then (R156, R160). -/
def descRegions (s : State) (p : Plan) (d : Desc) : List (Nat × Nat) :=
  match d.kind with
  | .me => refRegions (mdA d) ++ refRegions (mdB d) ++ (if d.last then paramParts d else [])
  | .ve =>
    let c := convOf p d.layer
    if vdOp d = 7 then padRegions c (bits (vdP0 d) 15 0) (bits (vdP0 d) 31 16)
    else if vdOp d = 8 || vdOp d = 9 || vdOp d = 12 then
      winRegions c (vdX d) (vdZ d) ++ (if vdOp d = 9 then refRegions (vdY d) else []) ++ vecParts d
    else d.ins.flatMap refRegions ++ vecParts d
  | .crop => pixelRegions (dref d 8) (cropPixels s d) ++ [(pair48 (wd d.words 4) (wd d.words 5), 32 * fld d.words 2 7 0)]
  | .warp => pixelRegions (dref d 8) (warpPixels s d) ++ refRegions (dref d 16)
  | .pcl => pclRegion s d
  | .sort | .ae => d.ins.flatMap refRegions

def itemRegions (s : State) (p : Plan) (i : Item) : List (Nat × Nat) := i.ds.flatMap (descRegions s p)

/-- An item reads a stream that has not delivered in the current frame (R276). -/
def itemUndelivered (s : State) (p : Plan) (i : Item) : Bool :=
  (itemRegions s p i).any (fun r => undelivered s r.1 r.2)

-- The state of transfers

/-- A read of the Ledge range must wait: a shift is pending or running, or the resident image is not loaded (R244, R253,
R254). -/
def sliceAbsent (s : State) (a : Nat) : Bool := isLedge a && (s.ms.shiftOn || !s.ms.shiftQ.isEmpty || !s.ms.resLoaded)

/-- Level of the requests of a job (R217). -/
def jobLevel (s : State) (t : Word) : Nat := match jobOf s t with | some j => if j.cls then 2 else 3 | none => 3

/-- Bytes of a Ledge's staging region (R250). -/
def stageSize (s : State) : Nat := 0x20_0000 - (activeSet s).plan.resBytes

/-- The attempt in an engine's array that a transfer serves. -/
def servesArr (x : Engine) (u : XUse) : Bool :=
  match x.arr with | some a => a.token == u.token && a.item == u.item | none => false

/-- A piece that a transfer brought joins the data of the item that it serves. -/
def givePiece (s : State) (x : Xfer) (p : Piece) : State :=
  modEng s x.unit (fun g =>
    if servesArr g x.use then { g with arr := g.arr.map (fun a => { a with data := a.data ++ [p], poison := a.poison || p.bad }) }
    else { g with stg := g.stg.map (fun t =>
      if t.token == x.use.token && t.item == x.use.item then { t with data := t.data ++ [p] } else t) })

/-- Bytes of one sector arrive for the item that a transfer serves: into the staging region of a matrix engine's Ledge, else
into the engine's buffers (R242). DESIGN CHOICE (log 44): the region fills in order of arrival, from its start again when
it is full. -/
def deliver (s : State) (x : Xfer) (off : Nat) (bs : List Byte) (bad : Bool) : State :=
  let e := x.unit
  let size := stageSize s
  let n := (bs.length + 31) / 32 * 32
  let o := if (engOf s e).stgOff + n ≤ size then (engOf s e).stgOff else 0
  let me := decide (e < 16) && decide (n ≤ size)
  let slot := if me then 0x0400_0000 + e * 0x20_0000 + o else 0
  let s1 := if me then
      modEng (if bad then storePoisoned s slot bs else store s slot bs) e (fun g => { g with stgOff := o + n }) else s
  givePiece s1 x { addr := x.src + off, bytes := if x.use.isPage then [] else bs, bad := bad, slot := slot }

/-- Transfers that bring the operands of the task in engine `e` (R243). -/
def operandXfers (s : State) (e : Nat) : List Xfer :=
  s.ms.xfers.filter (fun x => x.unit == e && x.prio == 0 && x.use.isInput && servesArr (engOf s e) x.use)

/-- Operands or pages of the task in an engine's array are still to come. -/
def operandsOut (s : State) (e : Nat) : Bool := !(operandXfers s e).isEmpty

/-- A stream meets absent data: its transfers that read the ring halt; the fault is counted once for the stream (R244). -/
def holdStream (s : State) (x : Xfer) : State :=
  let same (y : Xfer) : Bool := y.unit == x.unit && y.use.token == x.use.token && y.use.item == x.use.item
  let s1 := if s.ms.xfers.any (fun y => same y && y.held) then s
    else { s with ms := { s.ms with strHolds := satAdd 0xFFFF s.ms.strHolds 1 } }
  { s1 with ms := { s1.ms with xfers := s1.ms.xfers.map (fun y =>
      if same y && isLedge y.src && y.iss < y.len then { y with held := true } else y) } }

/-- ON_FAULT of the stream descriptor that a prefetch transfer serves (R246); an operand stream holds. -/
def holdsOnFault (s : State) (u : XUse) : Bool :=
  !u.isPrefetch || (match jobOf s u.token with
    | some j => (match j.items[u.item]? with | some i => bit (wd i.desc.words 0) 0 | none => true)
    | none => true)

/-- A read meets absent data: the stream halts, or its job ends KILLED_UPSTREAM (R244). -/
def streamFault (s : State) (x : Xfer) : State :=
  if holdsOnFault s x.use then holdStream s x
  else killJob { s with ms := { s.ms with strAborts := satAdd 0xFFFF s.ms.strAborts 1 } } x.use.token .killedUpstream 26

/-- The first request of a transfer: it holds a STREAM credit from then on (R220, R241). -/
def beginXferReq (s : State) (x : Xfer) : State :=
  if x.begun then s else
  modXfer (takeCredit s x.unit .stream x.unit) x.id (fun y => { y with begun := true, epoch := s.ms.epoch })

/-- A request of a transfer of at most 64 bytes is issued (R216, R217, R241). -/
def xferReq (s : State) (x : Xfer) (write : Bool) (a n off : Nat) : State :=
  issueReq (beginXferReq s x) x.unit write a n (jobLevel s x.use.token) (.xfer x.id off)

/-- A transfer may issue a request to an address now. -/
def xferMay (s : State) (x : Xfer) (a : Nat) : Bool :=
  mayIssue s x.unit a && (x.begun || poolFree s x.unit .stream x.unit)

-- A copy is written on in whole sectors or lines of its destination (R69, R213, R231)

/-- The write request of a copy that takes the byte at an offset: its offset and length. -/
def chunkAt (x : Xfer) (off : Nat) : Nat × Nat :=
  let st := off - min off ((x.dst + off) % 64)
  (st, reqLen (x.dst + st) (x.len - st))

/-- Pieces that have been read for a write request, and whether they are all of it. -/
def chunkPieces (x : Xfer) (c : Nat × Nat) : List (Nat × List Byte × Bool) :=
  x.copy.filter (fun p => c.1 ≤ p.1 && p.1 < c.1 + c.2)
def chunkReady (x : Xfer) (c : Nat × Nat) : Bool := ((chunkPieces x c).map (fun p => p.2.1.length)).sum == c.2

/-- A write request's bytes in order; the last of a row is filled with zeros up to the write unit. -/
def chunkBytes (x : Xfer) (c : Nat × Nat) : List Byte :=
  let ps := chunkPieces x c
  let bs := (List.range c.2).flatMap (fun k => (ps.filter (fun p => p.1 == c.1 + k)).flatMap (fun p => p.2.1))
  let u := writeUnit x.dst
  if c.1 + c.2 = x.len then bs ++ List.replicate ((u - (x.dst + x.len) % u) % u) 0 else bs

/-- A copy's write request, if one is complete and can be issued. -/
def copyStep (s : State) (x : Xfer) : Option State :=
  match (x.copy.map (fun p => chunkAt x p.1)).find? (chunkReady x) with
  | none => none
  | some c =>
    let a := x.dst + c.1
    let ps := chunkPieces x c
    let bs := chunkBytes x c
    if !xferMay s x a then none else
    let s1 := storeMoved s a bs (fun i j => ps.any (fun p => p.2.2 && overlaps p.1 p.2.1.length (c.1 + i) (j - i)))
    some (xferReq (modXfer s1 x.id (fun y => { y with copy := y.copy.filter (fun p => !(c.1 ≤ p.1 && p.1 < c.1 + c.2)) }))
      x true a bs.length c.1)

/-- The array reads what lies in its own engine's Ledge where it is, without a request (R252). -/
def ownRead (s : State) (x : Xfer) (a n : Nat) : State :=
  (sectorsOf a n).foldl (fun s g =>
    givePiece s x { addr := x.src + (x.iss + (g.1 - a)), bytes := s.mem.read g.1 g.2, bad := poisoned s g.1 g.2, slot := g.1 }) s

/-- One step of a transfer, if it can make one: what it has read is written on, a write of its output or its next read is
issued. DESIGN CHOICE (log 44): a prefetch from its own Ledge reads it by requests as any other. A prefetch of a stream that has not delivered ends its job (R220, R241, R244, R252, R276). -/
def xferStep (s : State) (x : Xfer) : Option State :=
  match copyStep s x with
  | some s1 => some s1
  | none =>
    if x.held || x.len ≤ x.iss then none
    else if x.use.isOutput then
      (let a := x.dst + x.iss
       let n := reqLen a (x.len - x.iss)
       if xferMay s x a then some (modXfer (xferReq s x true a n x.iss) x.id (fun y => { y with iss := x.iss + n })) else none)
    else if sliceAbsent s (x.src + x.iss) then some (streamFault s x)
    else if x.use.isPrefetch && (jobOf s x.use.token).isSome && undelivered s (x.src + x.iss) 1 then
      some (killJob s x.use.token .killedUpstream 26)
    else
      let a := physOf s (x.src + x.iss)
      let n := reqLen a (x.len - x.iss)
      if isLedge a && ledgeOf a == x.unit && !x.use.isPrefetch then some (modXfer (ownRead s x a n) x.id (fun y => { y with iss := x.iss + n }))
      else if xferMay s x a then some (modXfer (xferReq s x false a n x.iss) x.id (fun y => { y with iss := x.iss + n }))
      else none

/-- The transfers of a stream unit in the order in which it issues: those of its task, staging, prefetch, each oldest
first (R243). -/
def unitOrder (s : State) (e : Nat) : List Xfer :=
  let l := s.ms.xfers.filter (fun x => x.unit == e)
  [0, 1, 2].flatMap (fun p => l.filter (fun x => x.prio == p))

/-- A stream unit issues all that it can; fuelled. -/
def pumpUnit (e : Nat) : Nat → State → State
  | 0, s => s
  | n + 1, s => match (unitOrder s e).findSome? (xferStep s) with
    | some s1 => pumpUnit e n s1
    | none => s

/-- The array has all that its tile reads: the Basin holds what the array leaves there (R55, R242). -/
def runArray (s : State) (e : Nat) : State :=
  if 16 ≤ e then s else
  modEng s e (fun g => { g with arr := g.arr.map (fun a =>
    match jobOf s a.token with
    | some j => (match j.items[a.item]? with
      | some i => { a with basin := runTile (viewOf s a.data) i.ds }
      | none => a)
    | none => a) })

/-- Operand transfers that are over leave; with the last one of a tile the array runs. -/
def closeOperands (s : State) (e : Nat) : State :=
  let ended := s.ms.xfers.filter (fun x => x.unit == e && x.use.isOperand && xferOver s x)
  let s1 := ended.foldl closeXfer s
  if ended.any (fun x => x.prio == 0 && servesArr (engOf s1 e) x.use) && !operandsOut s1 e then runArray s1 e else s1

/-- An upper bound of the steps that a unit's transfers have still to make. -/
def unitWork (s : State) (e : Nat) : Nat :=
  (((s.ms.xfers.filter (fun x => x.unit == e))).map (fun x => 2 * (x.len - x.iss) + x.copy.length + 2)).sum

/-- The stream unit of engine `e` works. -/
def pump (s : State) (e : Nat) : State := closeOperands (pumpUnit e (unitWork s e) s) e

/-- All stream units work. -/
def pumpAll (s : State) : State :=
  if s.ms.xfers.isEmpty then s else
  ((List.range 26).filter (fun e => s.ms.xfers.any (fun x => x.unit == e))).foldl pump s

end Sys2Proof.Machine
end

