-- ==== Sys2Proof/Machine/Sign.lean ====
section
/-! DEFINITION. Signature blocks and their verification (R497 to R502). -/

namespace Sys2Proof.Machine

/-- All of a list of bytes are zero. -/
def allZero (bs : List Byte) : Bool := bs.all (· == 0)

def slice (bs : List Byte) (o n : Nat) : List Byte := (bs.drop o).take n

/-- The key digest: SHA-384 over the 96 ECDSA key bytes and the 56 LMS key bytes (R499 item 3). -/
def keyDigest (blk : List Byte) : Nat := Config.sha384 (slice blk 128 96 ++ slice blk 256 56)

/-- Words of the signed header (R498). -/
def hdrWords (blk : List Byte) : List Word := bytesWords (blk.take 128)

def sigSigner (blk : List Byte) : Nat := fld (hdrWords blk) 3 9 8
def sigSvn (blk : List Byte) : Nat := fld (hdrWords blk) 3 7 0

/-- Signers accepted for a kind in a lifecycle state (R500). -/
def signerOk (l : Lifecycle) (kind signer : Nat) : Bool :=
  if kind = 8 || kind = 9 then signer == 0
  else if kind = 10 then
    match l with
    | .manufacture => signer == 0
    | .provisioned => signer == 0 || signer == 2
    | .field => signer == 1
    | .retired => false
  else match l with
    | .manufacture | .provisioned => signer == 0 || signer == 2
    | .field => signer == 1
    | .retired => signer == 0

/-- The anchor matches (R499 item 3). -/
def anchorOk (s : State) (blk : List Byte) : Bool :=
  let i := fld (hdrWords blk) 3 11 10
  let d := keyDigest blk
  if sigSigner blk = 0 then Config.evaneriAnchor i == d && !s.sec.revoked.getLsbD i
  else if sigSigner blk = 1 then
    (if i = 0 then s.sec.owner0 == some d else if i = 1 then s.sec.owner1 == some d else false)
  else true

/-- Minimum SVN of a kind (R502). -/
def minSvnOf (s : State) (kind : Nat) : Nat :=
  if kind = 8 then s.sec.fwSvnMin
  else if kind = 9 then s.sec.minSvn.getD 5 0
  else if kind < 5 then s.sec.minSvn.getD kind 0
  else 0

/-- Items 1 to 8 of R499 on an object's bytes: 0 when all hold, else the first item that fails. -/
def sigRow (s : State) (kind : Nat) (bs : List Byte) : Nat :=
  let bl := bs.length - 2240
  let blk := bs.drop bl
  let body := bs.take bl
  let h := hdrWords blk
  let bad1 := bs.length < 2240 || fld h 0 15 0 != 0x5347 || fld h 0 23 16 != 1 || fld h 0 31 24 != kind
    || (wd h 1).toNat + fld h 2 15 0 * 2 ^ 32 != bl || fld h 2 31 16 != 0 || fld h 3 31 12 != 0
    || !(h.drop 18).all (· == 0) || !allZero (slice blk 224 32) || !allZero (slice blk 312 8)
    || !allZero (slice blk 2188 52)
  if bad1 then 1
  else if !signerOk s.sec.lifecycle kind (sigSigner blk) then 2
  else if !anchorOk s blk then 3
  else if !((wd h 4 == 0 && wd h 5 == 0 && kind != 10) || (wd h 5 ++ wd h 4) == s.sec.serial
      && !(wd h 4 == 0 && wd h 5 == 0)) then 4
  else if beNat (slice blk 24 48) != Config.sha384 body then 5
  else if !Config.ecdsaOk (slice blk 128 96) (blk.take 128) (slice blk 320 96) then 6
  else if !(slice blk 256 8 == [0, 0, 0, 8, 0, 0, 0, 4] && Config.lmsOk (slice blk 256 56) (blk.take 128) (slice blk 416 1772))
    then 7
  else if sigSvn blk < minSvnOf s kind then 8
  else 0

/-- An object passed or failed R499: SEC.SIG_COUNTS, and source 121 for a failure (R515). -/
def sigCount (s : State) (ok : Bool) : State :=
  if ok then { s with sec := { s.sec with verified := satAdd 0xFFFF s.sec.verified 1 } }
  else setSrc { s with sec := { s.sec with failed := satAdd 0xFFFF s.sec.failed 1 } } 121

/-- Control pair B stops with source 89, and the scrub pass that runs with it (R389, R390, R412). -/
def stopPairB (s : State) : State :=
  setSrc { s with rst := { s.rst with pairB := true }
                  ms := { s.ms with scrubs := s.ms.scrubs.map (fun x => { x with running := false }) } } 89

/-- Control pair A reads regions as `o` says for a command; what comes poisoned stops it, and no reply is sent (R216, R220,
R225, R226, R390). -/
def pairAReads (s : State) (rs : List (Nat × Nat)) (o : Nat → Ecc) (f : State → State × Option (Status × List Word)) :
    State × Option (Status × List Word) :=
  let s1 := rs.foldl (fun s x => portRead s srcPairA x.1 x.2 o) s
  if rs.any (fun x => readBad s1 x.1 x.2 o) then (stopPairA s1, none) else f s1

/-- The like for its other work. -/
def pairAGo (s : State) (rs : List (Nat × Nat)) (o : Nat → Ecc) (f : State → State) : State :=
  (pairAReads s rs o (fun s => (f s, none))).1

/-- A test pack's slice entries and numbers, from its bytes (R385). -/
def parsePack (addr len : Nat) (bs : List Byte) : Pack :=
  let h := bytesWords (bs.take 64)
  { id := wd h 1, addr := addr, len := len, digest := Config.sha384 bs
    slices := (List.range ((wd h 2).toNat % 2048)).map (fun i =>
      bytesWords (slice bs ((wd h 3).toNat + 32 * i) 32)) }

/-- Slices of a kind in a pack (R378, R385). -/
def packSlices (p : Pack) (k : Nat) : List (List Word) := p.slices.filter (fun x => fld x 0 2 0 == k)
def sliceLen (x : List Word) : Nat := fld x 0 31 16

/-- A pack becomes active: every rotation restarts at slice 0 (R386); a self-test in progress goes on with the new
pack's slices (R382). -/
def activatePack (s : State) (p : Pack) : State :=
  let redo (x : SelfTest) : SelfTest :=
    { x with todo := ((x.todo.map (fun y => y.1)).eraseDups).flatMap (fun e =>
        (List.range (packSlices p (kindCode (engKind e))).length).map (fun i => (e, i))) }
  { s with saf := { s.saf with pack := p, packNext := none, tests := s.saf.tests.map redo }
           eng := s.eng.map (fun x => { x with rot := 0 }) }

end Sys2Proof.Machine
end

