-- ==== Sys2Proof/Machine/Jobs.lean ====
section
/-! DEFINITION. Jobs and their items: plans as the device reads them, readiness and eligibility, standing outputs,
layer counts and fallback, prefetch, and the start and end of a job (R28 to R36, R57, R83, R121 to R128, R144 to R146,
R245 to R254). -/

namespace Sys2Proof.Machine

/-- The parts of a plan's container, whose layout the manual does not give: from an object's body, section 0
descriptors behind a kind code, 1 convolution records, 2 fallback entries, 3 stream records, 4 items as group, chain
and ordinals, 5 tensors written, 6 outputs, 7 the resident image, 8 group members, 9 receive windows, 10 Mapin transfers. -/
def kindOf (n : Nat) : EngKind :=
  if n = 0 then .me else if n = 1 then .ve else if n = 2 then .ae else if n = 3 then .warp
  else if n = 4 then .crop else if n = 5 then .pcl else .sort

/-- Items of one chain, chains of one group, groups in order. -/
def planGroups (ngroups : Nat) (its : List (List Word)) : List (List (List (List Nat))) :=
  (List.range ngroups).map (fun g =>
    let mine := its.filter (fun x => (wd x 0).toNat == g)
    let chains := (mine.map (fun x => (wd x 1).toNat)).eraseDups
    chains.map (fun c => (mine.filter (fun x => (wd x 1).toNat == c)).map (fun x => (x.drop 2).map BitVec.toNat)))

def parsePlan (bs : List Byte) : Plan :=
  let sec (i : Nat) : List (List Word) := Config.planSection bs i
  let ri := (sec 7).headD []
  { descs := (sec 0).map (fun x => { kind := kindOf (wd x 0).toNat, words := x.drop 1 })
    convs := sec 1, fbs := sec 2, streams := sec 3
    groups := planGroups (sec 3).length (sec 4)
    tensors := sec 5, outputs := (sec 6).flatten.map BitVec.toNat
    resAddr := pair48 (wd ri 0) (wd ri 1), resBytes := (wd ri 2).toNat
    members := ((sec 8).headD []).map (fun w => w.extractLsb' 0 16)
    windows := (sec 9).map (fun x => { node := (wd x 0).extractLsb' 0 16, base := pair48 (wd x 1) (wd x 2), len := (wd x 3).toNat })
    xfers := sec 10 }

/-- Words of a descriptor by engine kind (R70, R150, R155, R158, R163, R189, R297). -/
def descWords : EngKind → Nat
  | .me | .ve | .crop => 32
  | .warp => 40
  | .sort | .pcl => 48
  | .ae => 64

-- Jobs' items

/-- The prefetch list of a stream record (R245, R246); each stream reads SRC and writes DST. -/
def prefetchOf (s : State) (rec_ : List Word) : List Desc :=
  let n := fld rec_ 1 6 0
  let a := pair48 (wd rec_ 2) (wd rec_ 3)
  (List.range n).map (fun i => { kind := .crop, words := s.mem.words (a + 96 * i) 24 })

/-- The items of layer group `g` of a plan (R145, R247). -/
def groupItems (s : State) (p : Plan) (g : Nat) : List Item :=
  let pf := (prefetchOf s (p.streams.getD g [])).zipIdx.map (fun x =>
    ({ grp := g, chain := 0, pos := x.2, ords := [], ds := [x.1], st := .waiting, ran := [], retried := false
       rerun := false, prefetch := true } : Item))
  let its := ((p.groups.getD g []).zipIdx).flatMap (fun c => c.1.zipIdx.map (fun x =>
    ({ grp := g, chain := c.2, pos := x.2, ords := x.1, ds := x.1.map (fun o => p.descs.getD o default), st := .waiting
       ran := [], retried := false, rerun := false, prefetch := false } : Item)))
  pf ++ its

/-- Substitutions in force replace an item's descriptors (R126). -/
def substItem (s : State) (owner : Word) (i : Item) : Item :=
  if i.st == .waiting && !i.rerun && !i.prefetch then
    { i with ds := (i.ords.zip i.ds).map (fun x =>
        match s.sch.subst.find? (fun c => c.owner == owner && c.ord == x.1) with
        | some c => c.desc
        | none => x.2) }
  else i

/-- One layer count for each LAYER_ID (R121). -/
def layerCounts (its : List Item) : List LayerCnt :=
  let ls := (its.flatMap (fun i => i.ds)).filter (fun d => d.kind == .me && d.last)
  ((ls.map Desc.layer).eraseDups).map (fun l =>
    { layer := l, count := 0, decided := false, fell := false, rerun := 0, decClk := 0, decSeq := 0, recorded := false })

/-- The item's layer is fallback-enabled and the item is not of a re-run (R122). -/
def itemFb (i : Item) : Bool := i.desc.kind == .me && !i.prefetch && !i.rerun && mdFb i.desc != 0xF

def isWaiting (i : Item) : Bool := i.st == .waiting || i.st == .retry

/-- An item may be dispatched as far as its data goes: the previous item of its chain stands and its inputs stand. -/
def itemReady (s : State) (j : Job) (i : Item) : Bool :=
  isWaiting i && !j.halted && !i.prefetch &&
  j.items.all (fun x => !(x.grp == i.grp && x.chain == i.chain && x.rerun == i.rerun && !x.prefetch && x.pos + 1 == i.pos)
    || x.st == .stood) &&
  i.ds.all (descReady s (ownerOf j))

-- Reservations and eligibility (R30, R31, R36)

/-- An open reservation covers an engine. -/
def reserved (s : State) (e : Nat) : Bool :=
  s.sch.tt.zipIdx.any (fun x => x.1.rsvOpen && teRsv ((tide s).entries.getD x.2 []) / 2 ^ e % 2 == 1)

-- Known-answer slices (R376 to R382, R384)

/-- The slice that engine `e` runs next for a reason: of its rotation, or the next one that a RUN_SELFTEST owes it
(R378, R382). -/
def nextSlice (s : State) (e : Nat) (why : KatWhy) : List Word :=
  let l := packSlices s.saf.pack (kindCode (engKind e))
  let i := match why with
    | .commanded t => ((s.saf.tests.filter (fun x => x.token == t)).flatMap (fun x => x.todo)).findSome?
        (fun y => if y.1 == e then some y.2 else none)
    | .periodic | .armed | .immediate | .startup => none
  l.getD (match i with | some k => k | none => (engOf s e).rot % max 1 l.length) []

/-- Why engine `e` runs its next slice: an immediate test, then the slice of the frame or of the run's start, then the
oldest RUN_SELFTEST that names it (R376, R379, R382, R384). -/
def katNext (s : State) (e : Nat) : Option KatWhy :=
  let d := (engOf s e).katDue
  if d.contains .immediate then some .immediate
  else match d with
    | w :: _ => some w
    | [] => (s.saf.tests.find? (fun x => x.todo.any (fun y => y.1 == e))).map (fun x => .commanded x.token)

/-- No reservation covering engine `e` opens within `d` ns (R376, R380). -/
def rsvClear (s : State) (e d : Nat) : Bool :=
  s.sch.tt.zipIdx.all (fun x =>
    let r := (tide s).entries.getD x.2 []
    !(teSClass r && teRsv r / 2 ^ e % 2 == 1 && x.1.ended.isNone && !x.1.rsvOpen && decide (s.sch.t + teRsvOpen r < now s + d)))

/-- Where a slice of `len` cycles stands: it may start, it waits, or it is deferred to the next frame. -/
inductive KatFit where
  | go | wait | defer
  deriving DecidableEq, Repr

/-- Admission of a slice on engine `e` (R376, R379, R380, R382, R384). -/
def katFit (s : State) (e : Nat) (why : KatWhy) : KatFit :=
  let d := 4 * sliceLen (nextSlice s e why) + 20000
  match s.sch.run with
  | .idle | .halted => .go
  | .armed => if now s + d ≤ s.sch.startAt then .go else .defer
  | .running =>
    if s.sch.phase == .slack then
      if now s + d ≤ s.sch.t + ttPeriod (tide s) && rsvClear s e d then .go else .defer
    else if why == .immediate && !reserved s e && rsvClear s e d then .go
    else .wait

/-- A slice of the engine has been deferred: none runs on it before the next frame, in a run (R380, R382). -/
def sliceHeld (s : State) (e : Nat) : Bool := (engOf s e).deferred && (s.sch.run == .armed || s.sch.run == .running)

/-- A test is due on engine `e` and would start were it idle: its jobs' further items go elsewhere (R376, R382). -/
def testDue (s : State) (e : Nat) : Bool :=
  match katNext s e with
  | none => false
  | some w => !(engOf s e).quar && !sliceHeld s e && katFit s e w == .go

/-- A GUILT_REPLAY runs (R427). -/
def replaying (s : State) : Bool := s.jobs.any (fun j => j.origin == .replay)

/-- A replayed job runs alone: no item of another job starts beside it, nor one of it while an engine still holds another
job's attempt (R427). -/
def aloneOk (s : State) (j : Job) : Bool :=
  if j.origin == .replay then (s.eng.flatMap attemptToks).all (fun t => t == j.token) else !replaying s

/-- The engine may take an item of the job (R20, R30, R31, R36, R376, R382, R383, R427, R432). -/
def eligible (s : State) (j : Job) (i : Item) (e : Nat) : Bool :=
  let x := engOf s e
  e < 26 && engKind e == i.desc.kind && j.mask / 2 ^ e % 2 == 1 && !x.quar && !(x.wdr && j.cls) && x.kat.isNone && !testDue s e
    && !x.resetting && (j.cls || !reserved s e) && !(j.origin != .tide && s.sch.phase == .slack)
    && !(anyFA s) && aloneOk s j

/-- Banks that an item needs (R58). -/
def itemBanks (i : Item) : Nat := if i.desc.kind == .me && i.ds.any accWide then 2 else 1

/-- The engine's array is free for an item: a matrix engine may begin a tile while another drains (R58). -/
def engFree (s : State) (e : Nat) (banks : Nat) : Bool :=
  let x := engOf s e
  match x.arr, x.drn with
  | none, none => true
  | none, some b => e < 16 && b.banks + banks ≤ 2
  | some a, none => e < 16 && a.banks + banks ≤ 2 && !operandsOut s e && !a.hold && a.first.isNone && !a.poison && !a.stopping
  | some _, some _ => false

/-- The pipeline drains at a layer-group boundary on each engine; a prefetch stream is no item in it (R249). -/
def groupDrained (j : Job) (i : Item) (e : Nat) : Bool :=
  j.items.all (fun x => x.grp == i.grp || x.prefetch || !x.ran.contains e || !(x.st == .running || x.st == .acking))

/-- The engine that holds the slice an item's B operand names (R252). -/
def homeEng (s : State) (i : Item) : Option Nat :=
  (i.ds.find? (fun d => d.kind == .me && refInRing (mdB d))).map (fun d =>
    ((refBase (mdB d) - 0x0400_0000) / 0x20_0000 + s.ms.phase) % 16)

/-- A retry of a matrix tile or vector task runs on an engine that did not run it (R83, R152). -/
def ranRetry (i : Item) (e : Nat) : Bool :=
  i.st == .retry && (i.desc.kind == .me || i.desc.kind == .ve) && i.ran.contains e

/-- Engine `e` can take the item now. An engine whose input of the collector stalls starts no further item (R421); a retry
takes the lowest-numbered free engine (R83, R152). -/
def canTake (s : State) (j : Job) (i : Item) (e : Nat) : Bool :=
  eligible s j i e && engFree s e (itemBanks i) && groupDrained j i e && !ranRetry i e && !inputStalled s e

/-- The single item goes to engine `e` by the retry choice of R83, or by the placement preference of R252. -/
def placeOk (s : State) (j : Job) (i : Item) (e : Nat) : Bool :=
  if i.st == .retry then !(List.range e).any (canTake s j i)
  else match homeEng s i with
    | some h => h == e || !canTake s j i h
    | none => true

/-- The same choices for the two engines of a dual item: a retry takes the two lowest-numbered, in order, and the home of
its B operand is one of them where it can be (R83, R84, R152, R203, R252). -/
def placePair (s : State) (j : Job) (i : Item) (e f : Nat) : Bool :=
  if i.desc.kind == .ae then (if i.st == .retry then e == 21 && f == 20 else e == 20 && f == 21)
  else if i.st == .retry then
    decide (e < f) && (List.range f).all (fun x => x == e || !canTake s j i x)
  else match homeEng s i with
    | some h => h == e || h == f || !canTake s j i h
    | none => true

/-- The engines named by a dispatch suit an item: one, or two distinct ones for a dual item (R84, R203). -/
def pairOk (s : State) (j : Job) (i : Item) (e : Nat) (e2 : Option Nat) : Bool :=
  itemReady s j i && canTake s j i e &&
  (match e2 with
   | none => !i.desc.dual && placeOk s j i e
   | some f => i.desc.dual && f != e && canTake s j i f && placePair s j i e f)

/-- The scheduler could give engine `e` the item now, alone or with another engine. -/
def couldTake (s : State) (j : Job) (e : Nat) (i : Item) : Bool :=
  if i.desc.dual then (List.range 26).any (fun f => pairOk s j i e (some f) || pairOk s j i f (some e)) else pairOk s j i e none

/-- Jobs in the order of R28: S-class entries, Q-class entries, then RUN_JOB jobs. -/
def jobOrder (s : State) : List Job :=
  let td := (List.range s.sch.tt.length).filterMap (fun k => s.jobs.find? (fun j => j.origin == .tide && j.jobId == k))
  td.filter (fun j => j.cls) ++ td.filter (fun j => !j.cls) ++ s.jobs.filter (fun j => j.origin != .tide)

/-- The job and item index that the engines of a dispatch take: the first in order that any of them could be given (R28). -/
def pickItem (s : State) (e : Nat) (e2 : Option Nat) : Option (Job × Nat) :=
  match (jobOrder s).findSome? (fun j =>
    (j.items.findIdx? (fun i => couldTake s j e i || e2.any (fun f => couldTake s j f i))).map (fun n => (j, n))) with
  | none => none
  | some (j, n) => match j.items[n]? with
    | some i => if pairOk s j i e e2 then some (j, n) else none
    | none => none

def modItem (s : State) (t : Word) (n : Nat) (f : Item → Item) : State :=
  modJob s t (fun j => { j with items := modAt j.items n f })

/-- An attempt is of Q-class or RUN_JOB work, also while it stops after its job's end. -/
def qAttempt (s : State) (a : Option Attempt) : Bool :=
  match a with
  | some a => (match (s.jobs ++ s.fc.hJobs).find? (fun k => k.token == a.token) with | some k => !k.cls | none => false)
  | none => false

/-- S-class tiles that wait for a Q-class or RUN_JOB item on an engine of their job's open reservation, on which they could
run, begin to count their wait (R51). -/
def markWaits (s : State) : State :=
  let qEng (j : Job) (i : Item) : Bool := (List.range 26).any (fun e =>
    let x := engOf s e
    eligible s j i e && !ranRetry i e
      && (s.sch.tt.getD j.jobId {}).rsvOpen && teRsv ((tide s).entries.getD j.jobId []) / 2 ^ e % 2 == 1
      && (qAttempt s x.arr || qAttempt s x.drn))
  { s with jobs := s.jobs.map (fun j =>
      if j.origin == .tide && j.cls then
        { j with items := j.items.map (fun i =>
            if i.waitClk.isNone && itemReady s j i && qEng j i then { i with waitClk := some s.clk } else i) }
      else j) }

-- The start and the end of items

/-- The unit an ended job's KILLED_POISON names as input: the consuming engine's collector input (R421). -/
def ucSource (e : Nat) : Nat := if e < 16 then 32 + e else if e < 20 then 52 + (e - 16) else if e < 22 then 58 + (e - 20) else 68 + (e - 22)

/-- Every item of a layer group stands: its shift is requested (R253). -/
def groupEnds (s : State) (j : Job) (g : Nat) : State :=
  let k := fld (j.plan.streams.getD g []) 0 19 16
  let decided (i : Item) : Bool := !itemFb i ||
    j.layers.any (fun l => l.layer == i.desc.layer && l.decided && (!l.fell || l.recorded))
  if k != 0 && (j.items.filter (fun i => i.grp == g)).all (fun i => i.st == .stood && decided i) then
    { s with ms := { s.ms with shiftQ := s.ms.shiftQ ++ [k] } }
  else s

-- Mapin transfers (R201, R332 to R334)

/-- Node, direction, remote address and local reference of a transfer. -/
def xfNode (x : List Word) : BitVec 16 := (wd x 0).extractLsb' 0 16
def xfWrite (x : List Word) : Bool := bit (wd x 0) 16
def xfRemote (x : List Word) : Nat := pair48 (wd x 1) (wd x 2)
def xfRef (x : List Word) : List Word := (x.drop 3).take 8

/-- The transfer moves a tensor that the job writes, or one that it reads. -/
def xfMine (j : Job) (x : List Word) : Bool :=
  let t := xfRef x
  j.items.any (fun i => (i.ds.flatMap (if xfWrite x then Desc.outs else Desc.ins)).any (fun r => (tensorIn [t] r).isSome))

/-- Every transfer of the job has begun and ended. -/
def xfersDone (s : State) (j : Job) : Bool :=
  (List.range j.plan.xfers.length).all (fun k => !xfMine j (j.plan.xfers.getD k []) || j.sent.contains k) &&
    !(s.map.reqs ++ s.map.waitReqs).any (fun r => r.token == some j.token) &&
    !s.map.lands.any (fun l => l.reply.isNone && l.owner == ownerOf j)

/-- The group's members, and each one's allotment of credits at a receiver (R332, R335). -/
def groupOf (s : State) : List (BitVec 16) := (activeSet s).plan.members
def allot (s : State) : Nat := 1024 / max 1 (groupOf s).length

/-- The link to a node; one never used has no generation and a whole allotment. -/
def freshLink (s : State) (n : BitVec 16) : MLink :=
  { node := n, gen := 0, txSeq := 0, rxSeq := 0, free := allot s, owed := 0, nak := false, unacked := [], lastNs := now s }
def linkOf (s : State) (n : BitVec 16) : MLink := (s.map.links.find? (fun l => l.node == n)).getD (freshLink s n)
def putLink (s : State) (l : MLink) : State :=
  { s with map := { s.map with links := l :: s.map.links.filter (fun x => x.node != l.node) } }

/-- A node's entry of the generation vector; 0 is unknown or lost (R335). -/
def genEntry (s : State) (n : BitVec 16) : BitVec 8 := if n == s.map.nodeId then s.map.gen else (linkOf s n).gen

/-- The other members. -/
def peers (s : State) : List (BitVec 16) := (groupOf s).filter (fun n => n != s.map.nodeId)

/-- Tensors of the active plan in a node's windows, not all of whose rows stand, are invalid (R336, R343). -/
def windowsInvalid (s : State) (n : BitVec 16) : State :=
  if s.sch.run != .running then s else
  let p := (activeSet s).plan
  let ts := p.tensors.filter (fun t =>
    p.windows.any (fun w => w.node == n && overlaps w.base w.len (refBase t) (refSpan t)) &&
    counterAt s 0 t != refRows t)
  { s with sch := { s.sch with invalid := ts.map refBase ++ s.sch.invalid } }

/-- A member of a group that was whole is away: it is lost, or it, or this node, was lost and has not come to a join
barrier since (R338). -/
def away (s : State) (n : BitVec 16) : Bool :=
  s.map.everFormed && (s.map.cut || genEntry s n == 0 || (linkOf s n).fresh)

/-- In each frame the tensors that members who are away would write are invalid (R338). -/
def awayInvalid (s : State) : State := ((peers s).filter (away s)).foldl windowsInvalid s

/-- The most payload bytes of a frame (R329, R332). -/
def frameCap (s : State) : Nat := min 2048 (256 * allot s - 32)

/-- Pieces of `n` bytes, `m` at a time: offset and length; fuelled by the bytes. -/
def pieces : Nat → Nat → Nat → Nat → List (Nat × Nat)
  | 0, _, _, _ => []
  | f + 1, m, o, n => if n = 0 then [] else (o, min m n) :: pieces f m (o + min m n) (n - min m n)

/-- A piece of an `n`-byte row as READ_REQ may name it, at least 64 bytes: it starts earlier in the row, or goes on beyond
its end (R330). DESIGN CHOICE (log 33). -/
def readPiece (n : Nat) (p : Nat × Nat) : Nat × Nat := if 64 ≤ p.2 then p else (n - 64, min 64 n)

/-- A request joins the frames that wait (R333). -/
def queueReq (s : State) (t : Word) (x : List Word) (p : Nat × Nat × Nat × Bool) : State :=
  let id := s.map.nextReq
  let n := p.2.2.1
  let adr := natBytes 8 (xfRemote x + p.2.1)
  let f : MFrame :=
    if xfWrite x then
      { typ := .writeReq, dst := xfNode x, lseq := 0, reqId := id, arg := BitVec.ofNat 32 (b2n p.2.2.2)
        payload := adr ++ s.mem.read p.1 n }
    else { typ := .readReq, dst := xfNode x, lseq := 0, reqId := id, arg := BitVec.ofNat 32 (max 64 n), payload := adr }
  let r : MReq := { id := id, dst := xfNode x, write := xfWrite x, addr := p.1, token := some t, rowEnd := p.2.2.2, len := n }
  { s with map := { s.map with nextReq := id + 1, waitQ := s.map.waitQ ++ [f], waitReqs := s.map.waitReqs ++ [r] } }

/-- A transfer begins: a request for each row, or for each piece of a row under the cap (R332). -/
def beginXfer (s : State) (t : Word) (k : Nat) (x : List Word) : State :=
  let r := xfRef x
  let cap := if xfWrite x then frameCap s - 8 else frameCap s
  let ps := (List.range (refRows r)).flatMap (fun i =>
    let a := refRowAddr r i
    (pieces (rowBytes r) cap 0 (rowBytes r)).map (fun q =>
      let p := if xfWrite x then q else readPiece (rowBytes r) q
      (a + p.1, a - refBase r + p.1, p.2, decide (p.1 + p.2 = rowBytes r))))
  modJob (ps.foldl (fun s p => queueReq s t x p) s) t (fun j => { j with sent := k :: j.sent })

/-- Transfers whose rows stand, and those that bring rows to a started job, begin. -/
def startXfers (s : State) : State :=
  s.jobs.foldl (fun s j => (j.plan.xfers.zipIdx).foldl (fun s x =>
    match jobOf s j.token with
    | none => s
    | some j =>
      let ready := match tensorIn (ownerPlan s (ownerOf j)).tensors (xfRef x.1) with
        | some t => counterAt s (ownerOf j) t == refRows t
        | none => true
      if !j.sent.contains x.2 && xfMine j x.1 && (!xfWrite x.1 || ready) then beginXfer s j.token x.2 x.1 else s) s) s

/-- A job is complete: every item stands and every fallback decision is taken and recorded (R35, R122, R125). -/
def jobComplete (j : Job) : Bool :=
  j.items.all (fun i => i.st == .stood) &&
  j.layers.all (fun l =>
    !(j.items.any (fun i => itemFb i && i.desc.layer == l.layer)) || (l.decided && (!l.fell || l.recorded)))

/-- Rows of a reference written at the given addresses stand (R144). -/
def standRows (s : State) (owner : Word) (addrs : List Nat) (r : List Word) : State :=
  match tensorIn (ownerPlan s owner).tensors r with
  | none => s
  | some t =>
    let mine := addrs.filter (fun a => refBase r ≤ a && a < refBase r + refSpan r)
    let add (l : List Nat) : List Nat := mine.foldl (fun l a => modAt l (rowOf t a) (· + refD0 r)) l
    { s with sch := { s.sch with rows := s.sch.rows.map (fun c =>
      if c.owner == owner && c.base == refBase t then { c with stood := add c.stood } else c) } }

/-- References that an item's writes stand under: PAD writes the padded buffer of its record (R141). -/
def itemOutRefs (j : Job) (i : Item) : List (List Word) := i.ds.flatMap (Desc.outsIn j.plan)

/-- The padded rows of a PAD task that has ended are covered (R141). -/
def standPad (s : State) (owner : Word) (p : Plan) (d : Desc) : State :=
  if !(d.kind == .ve && vdOp d == 7) then s else
  match tensorIn (ownerPlan s owner).tensors (cvIn (convOf p d.layer)) with
  | none => s
  | some t =>
    let ys := (List.range (bits (vdP0 d) 31 16 + 1)).filter (bits (vdP0 d) 15 0 ≤ ·)
    { s with sch := { s.sch with rows := s.sch.rows.map (fun c =>
      if c.owner == owner && c.base == refBase t then { c with pads := c.pads ++ ys } else c) } }

def standItemRows (s : State) (j : Job) (i : Item) : State :=
  i.ds.foldl (fun s d => standPad s (ownerOf j) j.plan d)
    ((itemOutRefs j i).foldl (fun s r => standRows s (ownerOf j) i.rows r) s)

/-- The first item of a group is ready but for what its own prefetch list brings (R141, R247). -/
def groupReached (s : State) (j : Job) (g : Nat) : Bool :=
  let pf := j.items.filter (fun i => i.prefetch && i.grp == g)
  let dsts := pf.flatMap (fun i => (i.ds.flatMap (Desc.outsIn j.plan)).map (tensorBase s (ownerOf j)))
  match j.items.find? (fun i => !i.prefetch && i.grp == g) with
  | none => true
  | some i =>
    let here (r : List Word) : Bool := dsts.contains (tensorBase s (ownerOf j) r)
    i.ds.all (fun d => descReady s (ownerOf j) d ||
      (if d.kind == .ve && vdOp d == 7 then here (cvIn (convOf j.plan d.layer))
       else d.ins.all (fun r => here r || refReady s (ownerOf j) r)))

/-- The engine that the scheduler gives a prefetch stream: the eligible one of the job's mask with the fewest transfers
outstanding, the lowest-numbered on a tie (R247). -/
def prefetchEng (s : State) (j : Job) : Option Nat :=
  let n (e : Nat) : Nat := (s.ms.xfers.filter (fun x => x.unit == e && x.begun)).length
  ((List.range 26).filter (fun e =>
    let x := engOf s e
    j.mask / 2 ^ e % 2 == 1 && !x.quar && !(x.wdr && j.cls) && !x.resetting)).foldl
    (fun b e => match b with
      | none => some e
      | some c => if n e < n c then some e else b) none

/-- A prefetch stream whose group is reached is given to an engine: its auxiliary array, then its rows (R246, R247). -/
def runPrefetch (s : State) (t : Word) (n : Nat) : State :=
  match jobOf s t with
  | none => s
  | some j =>
    match j.items[n]? with
    | none => s
    | some i =>
      if !(i.prefetch && i.st == .waiting && groupReached s j i.grp) then s else
      match prefetchEng s j with
      | none => s
      | some e =>
        let src := dref i.desc 8
        let dst := dref i.desc 16
        let s := modItem s t n (fun i => { i with st := .running, ran := e :: i.ran })
        let s := queueRow s e 2 (.prefetch t n none) (auxBase src) (auxBase dst) (auxBytes src)
        pump ((List.range (refRows src)).foldl (fun s k =>
          queueRow s e 2 (.prefetch t n (some k)) (refRowAddr src k) (refRowAddr dst k) (rowBytes src)) s) e

/-- All prefetch streams that can run. -/
def startPrefetch (s : State) : State :=
  s.jobs.foldl (fun s j => (List.range j.items.length).foldl (fun s n => runPrefetch s j.token n) s) s

/-- After a change of what stands: streams and transfers start, and waits are counted. -/
def afterStand (s : State) : State := markWaits (startXfers (startPrefetch s))

/-- The job ends DONE on input `inp` once it is complete. -/
def tryDone (s : State) (t : Word) (inp : Nat) : State :=
  match jobOf s t with
  | none => s
  | some j => if jobComplete j && xfersDone s j then endJob s t .done inp else s

/-- A re-run's layer, when all its items stand, is recorded (R128). -/
def recordRerun (s : State) (t : Word) (layer : Nat) : State :=
  match jobOf s t with
  | none => s
  | some j =>
    match j.layers.find? (fun l => l.layer == layer) with
    | none => s
    | some l =>
      if l.fell && !l.recorded && (j.items.filter (fun i => i.rerun && i.desc.layer == layer)).all (fun i => i.st == .stood) then
        let th := match (j.items.flatMap (fun i => i.ds)).find? (fun d => d.kind == .me && d.last && d.layer == layer) with
          | some d => mdThresh d
          | none => 0
        let s := writeFb s j l (if l.rerun ≤ th then 0 else 1)
        modJob s t (fun j => { j with layers := j.layers.map (fun x => if x.layer == layer then { x with recorded := true } else x) })
      else s

/-- An item's writes are all acknowledged: its output stands (R83, R122, R218). -/
def itemStands (s : State) (t : Word) (n : Nat) (inp : Nat) : State :=
  match jobOf s t with
  | none => s
  | some j =>
    match j.items[n]? with
    | none => s
    | some i =>
      let s := modItem s t n (fun i => { i with st := .stood })
      let s := if itemFb i then s else standItemRows s j i
      let s := if i.rerun then recordRerun s t i.desc.layer else s
      let s := match jobOf s t with | some j => groupEnds s j i.grp | none => s
      afterStand (tryDone s t inp)

/-- An attempt's output is good: its rows wait for their acknowledgements, its events join the layer's count (R121,
R125, R218). -/
def itemGood (s : State) (t : Word) (n e : Nat) (sat : Nat) (writes : List (Nat × List Byte)) : State :=
  match jobOf s t with
  | none => s
  | some j =>
    match j.items[n]? with
    | none => s
    | some i =>
      let s := doWrites s writes false
      let s := modItem s t n (fun i => { i with st := .acking, rows := writes.map (fun w => w.1) })
      let s := if i.desc.kind == .me then
          modJob s t (fun j => { j with layers := j.layers.map (fun l =>
            if l.layer == i.desc.layer then
              (if i.rerun then { l with rerun := satAdd 0xFFFF_FFFF l.rerun sat } else { l with count := satAdd 0xFFFF_FFFF l.count sat })
            else l) })
        else s
      if writes.isEmpty then itemStands s t n e
      else pump (writes.foldl (fun s w => queueRow s e 0 (.output t n) w.1 w.1 w.2.length) s) e

/-- Writes of an item were acknowledged: with none left, the item stands. -/
def ackOutput (s : State) (t : Word) (n e : Nat) : State :=
  let more := s.ms.xfers.any (fun x => x.use == .output t n)
  match jobOf s t with
  | none => s
  | some j => match j.items[n]? with
    | none => s
    | some i => if i.st == .acking && !more then itemStands s t n e else s

/-- Rows of a prefetch stream whose writes are acknowledged stand, none before the auxiliary array; with the last of them
the stream's item stands (R218, R246, R247). -/
def ackPrefetch (s : State) (t : Word) (n : Nat) (row : Option Nat) (e : Nat) : State :=
  let mine (x : Xfer) : Bool := x.use.isPrefetch && x.use.token == t && x.use.item == n
  match jobOf s t with
  | none => s
  | some j => match j.items[n]? with
    | none => s
    | some i =>
      let dst := dref i.desc 16
      let s := match row with
        | some k => if s.ms.xfers.any (fun x => x.use == .prefetch t n row) then s
          else modItem s t n (fun i => { i with rows := refRowAddr dst k :: i.rows })
        | none => s
      if s.ms.xfers.any (fun x => x.use == .prefetch t n none) then s else
      match (jobOf s t).bind (fun j => j.items[n]?) with
      | none => s
      | some i =>
        let s := modItem (standRows s (ownerOf j) i.rows dst) t n (fun i => { i with rows := [] })
        if s.ms.xfers.any mine then afterStand s else
        let s := modItem s t n (fun i => { i with st := .stood })
        let s := match jobOf s t with | some j => groupEnds s j i.grp | none => s
        afterStand (tryDone s t e)

/-- A transfer is over: what it serves goes on (R218, R241); `o` is what the reads come to that control pair A then makes for
pages (R196, R225). -/
def xferEnds (s : State) (x : Xfer) (o : Nat → Ecc := asIs) : State :=
  match x.use with
  | .operand _ _ => closeOperands s x.unit
  | .page _ _ _ => stepPages s x.unit o
  | .output t n => ackOutput (closeXfer s x) t n x.unit
  | .prefetch t n row => ackPrefetch (closeXfer s x) t n row x.unit

/-- An item returns for its one retry (R83, R84, R152, R154, R203). -/
def itemRetry (s : State) (t : Word) (n : Nat) : State :=
  afterStand (modItem s t n (fun i => { i with st := .retry, retried := true }))

-- Starting jobs

/-- A job begins: its items, counts and token (R28, R29, R32). -/
def startJob (s : State) (j : Job) : State :=
  let its := j.items.map (substItem s (ownerOf j))
  let s := { s with
    jobs := s.jobs ++ [{ j with items := its, layers := layerCounts its }]
    rst := { s.rst with liveToks := s.rst.liveToks ++ [j.token] }
    sch := { s.sch with rows := if j.origin == .tide then s.sch.rows else s.sch.rows ++ freshRows j.token j.plan } }
  afterStand s

/-- The job's claim of the sensor frames delivered to its arrival entries' streams (R275). -/
def claimFrames (s : State) (mask : BitVec 64) : State :=
  let hit (i : Nat) : Bool := stValid (stEntry s i) && mask.getLsbD (stArrival (stEntry s i))
  let mine (f : SFrame) : Bool := f.delivered && !f.claimed && f.fseq == s.sch.seq
  let n := ((List.range 64).filter hit).map (fun i => ((s.sens.streams.getD i {}).kept.filter mine).length)
  { s with sens := { s.sens with
      claimed := s.sens.claimed + n.sum
      streams := s.sens.streams.zipIdx.map (fun x =>
        if hit x.2 then { x.1 with kept := x.1.kept.map (fun f => if mine f then { f with claimed := true } else f) } else x.1) } }

end Sys2Proof.Machine
end

