-- ==== Sys2Proof/Machine/Engines.lean ====
section
/-! DEFINITION. The engines' rows: dispatch, the ends of tiles and tasks, poison, fallback decisions, walks and held
streams (R28, R83, R84, R91 to R93, R122, R125, R126, R152, R154, R166, R195, R203, R232, R244). -/

namespace Sys2Proof.Machine

/-- A fresh attempt of an item on an engine. -/
def newAttempt (s : State) (t : Word) (n : Nat) (i : Item) (partner : Option Nat) (writer : Bool) : Attempt :=
  { token := t, item := n, desc := i.desc, retry := i.st == .retry, partner := partner, writer := writer, startClk := s.clk
    first := none, done := none, hold := false, holdClk := s.clk, stopping := false
    basin := {}, banks := itemBanks i, poison := false, pages := [], version := 0
    t4 := match jobOf s t with | some j => j.ctxT4 | none => false }

def itemOf (s : State) (a : Attempt) : Option (Job × Item) :=
  match jobOf s a.token with
  | none => none
  | some j => (j.items[a.item]?).map (fun i => (j, i))

-- Staging (R242)

/-- The A and B references of an item. -/
def abRefs (i : Item) : List (List Word) :=
  if i.desc.kind == .me then (i.ds.flatMap (fun d => [mdA d, mdB d])).eraseDups else []

/-- Staging bytes that references take. -/
def stageBytes (rs : List (List Word)) : Nat :=
  ((rs.flatMap refRegions).map (fun r => (r.2 + 31) / 32 * 32)).sum

/-- What of a tile's operands is still staged when it leaves the array; of a tile that did not fit, nothing. -/
def stagedOf (s : State) (a : Attempt) : Option Staged :=
  match itemOf s a with
  | none => none
  | some (_, i) =>
    if i.desc.kind == .me && !a.stopping && stageBytes (abRefs i) ≤ stageSize s then
      some { token := a.token, item := a.item, grp := i.grp, refs := abRefs i, data := a.data }
    else none

/-- An engine takes an attempt; a matrix tile whose array phase has ended moves to the drain (R58, R77). -/
def placeAttempt (s : State) (e : Nat) (a : Attempt) : State :=
  modEng s e (fun x =>
    let drn := match x.arr with | some b => some b | none => x.drn
    let other := match drn with | some b => !b.bank1 | none => false
    { x with arr := some { a with bank1 := other }, drn := drn
             prev := match x.arr with | some b => stagedOf s b | none => x.prev
             retry := if a.retry then satAdd 0xFF x.retry 1 else x.retry })

/-- The pieces of a reference among some. -/
def piecesOf (ps : List Piece) (r : List Word) : List Piece :=
  ps.filter (fun p => (refRegions r).any (fun g => g.1 ≤ p.addr && p.addr < g.1 + g.2))

/-- References of an item that are staged on an engine, with their pieces: staged ahead for this item, or left by the
previous tile of the same job and layer group. DESIGN CHOICE (log 44): nothing is reused from another job's tile. -/
def reuseOf (x : Engine) (t : Word) (n : Nat) (i : Item) : List (List Word) × List Piece :=
  let g := match x.stg with
    | some g => if g.token == t && g.item == n then (g.refs, g.data) else ([], [])
    | none => ([], [])
  let p := match x.prev with
    | some p => if p.token == t && p.grp == i.grp then
        (let rs := p.refs.filter (fun r => (abRefs i).contains r && !g.1.contains r); (rs, rs.flatMap (piecesOf p.data)))
      else ([], [])
    | none => ([], [])
  (g.1 ++ p.1, g.2 ++ p.2)

/-- The bytes that an item on an engine has still to be brought. -/
def fetchList (s : State) (p : Plan) (i : Item) (have_ : List (List Word)) : List (Nat × Nat) :=
  if i.desc.kind == .me then
    ((abRefs i).filter (fun r => !have_.contains r)).flatMap refRegions
      ++ i.ds.flatMap (fun d => if d.last then paramParts d else [])
  else itemRegions s p i

/-- Operand transfers of an item begin on an engine: what is staged already is used, and staging for another item ends
(R242, R243). -/
def startReads (s : State) (e : Nat) (j : Job) (n : Nat) (i : Item) : State :=
  let u := reuseOf (engOf s e) j.token n i
  let mine (x : Xfer) : Bool := x.unit == e && x.prio == 1
  let s := trimIf s (fun x => mine x && !(x.use == .operand j.token n))
  let s := { s with ms := { s.ms with xfers := s.ms.xfers.map (fun x =>
    if mine x && x.use == .operand j.token n then { x with prio := 0 } else x) } }
  let s := modEng s e (fun x => { x with
    stg := none, prev := none, arr := x.arr.map (fun a => { a with data := u.2, poison := u.2.any (fun p => p.bad) }) })
  let s := (fetchList s j.plan i u.1).foldl (fun s r => queueRow s e 0 (.operand j.token n) r.1 0 r.2) s
  let s := pump s e
  if operandsOut s e then s else runArray s e

/-- Other engines that stage for an item. -/
def stagers (s : State) (e : Nat) (t : Word) (n : Nat) : Nat :=
  (s.eng.zipIdx.filter (fun g => g.2 != e && g.1.stg.any (fun x => x.token == t && x.item == n))).length

/-- The item that the unit of engine `e` stages for while a tile is in the array: the first in the order of dispatch that
this engine may take next; a dual tile is staged on two engines. DESIGN CHOICE (log 44). -/
def nextItem (s : State) (e : Nat) : Option (Job × Nat × Item) :=
  (jobOrder s).findSome? (fun j => (j.items.zipIdx.find? (fun x =>
    let i := x.1
    i.desc.kind == .me && itemReady s j i && eligible s j i e && !ranRetry i e
      && (i.desc.dual || (homeEng s i).all (fun h => h == e)) && !itemUndelivered s j.plan i
      && decide (stagers s e j.token x.2 < (if i.desc.dual then 2 else 1)))).map (fun x => (j, x.2, x.1)))

/-- The item for which an engine stages still waits for it. -/
def stgWaits (s : State) (e : Nat) (g : Staged) : Bool :=
  match (jobOf s g.token).bind (fun j => j.items[g.item]?) with
  | some i => isWaiting i && !ranRetry i e
  | none => false

/-- What an engine stages for an item that another has taken goes (R242). -/
def clearStaged (s : State) (e : Nat) : State :=
  match (engOf s e).stg with
  | none => s
  | some g => if stgWaits s e g then s else
    modEng (trimIf s (fun x => x.unit == e && x.prio == 1)) e (fun x => { x with stg := none })

/-- References of a list that fit in a number of bytes, in order. -/
def fitRefs : Nat → List (List Word) → List (List Word)
  | _, [] => []
  | n, r :: l => if stageBytes [r] ≤ n then r :: fitRefs (n - stageBytes [r]) l else []

/-- The unit of a matrix engine stages the next tile's operands, as far as space allows (R242, R243). -/
def stageAhead (s : State) (e : Nat) : State :=
  let s := clearStaged s e
  let x := engOf s e
  match x.arr with
  | none => s
  | some a =>
    if 16 ≤ e || x.stg.isSome || a.stopping || operandsOut s e then s else
    match nextItem s e with
    | none => s
    | some (j, n, i) =>
      let cur := match stagedOf s a with | some g => if g.token == j.token && g.grp == i.grp then g.refs else [] | none => []
      let used := (a.data.map (fun p => (p.bytes.length + 31) / 32 * 32)).sum
      let rs := fitRefs (stageSize s - used) ((abRefs i).filter (fun r => !cur.contains r))
      if rs.isEmpty then s else
      let s := modEng s e (fun x => { x with stg := some { token := j.token, item := n, grp := i.grp, refs := rs, data := [] } })
      pump ((rs.flatMap refRegions).foldl (fun s r => queueRow s e 1 (.operand j.token n) r.1 0 r.2) s) e

/-- All matrix engines stage ahead. -/
def stageAll (s : State) : State := (List.range 16).foldl stageAhead s

/-- The stream units issue what they can (R241, R243). -/
def units (s : State) : State := stageAll (pumpAll s)

/-- The end of a meaning that lets stream units work: they issue what they can, then sources are answered (R410, R241). -/
def settleUnits (s0 s1 : State) : State := settle s0 (units s1)

/-- The item's attempt starts on engine `e`, a dual one also on `e2`; one that reads a stream which has not delivered
ends its job (R276); an attention task requests its walk (R192). -/
def doDispatch (s : State) (e : Nat) (e2 : Option Nat) : State :=
  match pickItem s e e2 with
  | none => s
  | some (j, n) =>
    match j.items[n]? with
    | none => s
    | some i =>
      let s := match i.waitClk with
        | some c => { s with sch := { s.sch with rsvWaitMax := max s.sch.rsvWaitMax (min (s.clk - c) 0xFFFF_FFFF) } }
        | none => s
      let s1 := placeAttempt s e (newAttempt s j.token n i e2 true)
      let s1 := match e2 with
        | some f => placeAttempt s1 f (newAttempt s j.token n i (some e) false)
        | none => s1
      let s1 := modItem s1 j.token n (fun i => { i with st := .running, waitClk := none
                                                        ran := e :: (match e2 with | some f => [f] | none => []) ++ i.ran })
      if itemUndelivered s j.plan i then killJob s1 j.token .killedUpstream 26 else
      let s1 := startReads s1 e j n i
      let s1 := match e2 with | some f => startReads s1 f j n i | none => s1
      if i.desc.kind == .ae then
        let ws : List Walk := (attSeqs s1 i.desc).map (fun q => { seqId := q, append := adOp i.desc == 5, e := e, granted := false })
        { s1 with kv := { s1.kv with walks := s1.kv.walks ++ ws } }
      else s1

/-- TILE_DISPATCH (R28, R30, R31, R83, R84, R249, R252). -/
def execTileDispatch (e : Nat) (e2 : Option Nat) (s : State) : Out := .next (settleUnits s (markWaits (doDispatch s e e2)))

-- The ends of attempts

/-- The attempt whose drain ends: the one in the drain, else the one in the array. -/
def endingAttempt (s : State) (e : Nat) : Option Attempt :=
  let x := engOf s e
  match x.drn with
  | some a => some a
  | none => x.arr

/-- In slack water a RUN_JOB or GUILT_REPLAY job is halted once none of its tiles is in an array or a drain (R20). -/
def haltIdle (s : State) : State :=
  if s.sch.phase == .slack then
    { s with jobs := s.jobs.map (fun j =>
        if j.origin != .tide && !j.halted && !(s.eng.flatMap attemptToks).contains j.token then
          { j with halted := true, haltClk := s.clk } else j) }
  else s

/-- The attempt leaves the engine; cycles for which its stream was halted on a page count (R210). -/
def freeAttempt (s : State) (e : Nat) (a : Attempt) : State :=
  let is (x : Option Attempt) : Option Attempt := match x with
    | some b => if b.token == a.token && b.item == a.item then none else x
    | none => none
  haltIdle (modEng s e (fun x => { x with
    arr := is x.arr, drn := is x.drn
    prev := match is x.arr with
      | none => (match x.arr with | some b => stagedOf s b | none => x.prev)
      | some _ => x.prev
    holdCyc := if a.hold then satAdd 0xFFFF_FFFF x.holdCyc (s.clk - a.holdClk) else x.holdCyc }))

/-- A tile or task record is written (R91, R166); attempts not DISCARDED are counted (R101, R172). -/
def noteRec (s : State) (e : Nat) (tok : Word) (d : Desc) (check wrap sat : Nat) : State :=
  let s := writeTrec s (TRec.mk 0 tok d.layer e check) (recWords e tok d check wrap sat)
  modEng s e (fun x => { x with lastTok := tok, count := if check = 6 then x.count else (x.count + 1) % 2 ^ 64 })

/-- An attempt of an ended job stops: its record is DISCARDED and its engine is free (R92, R207). -/
def discard (s : State) (e : Nat) (a : Attempt) : State :=
  freeAttempt (releaseWalk (noteRec s e a.token a.desc 6 0 0) e) e a

/-- The source that a mismatch on an engine sets (R83, R152, R154, R203). -/
def misSource (e : Nat) : Nat := if e < 16 then e else ucSource e

def bumpDual (s : State) (e : Nat) : State := modEng s e (fun x => { x with dualMis := satAdd 0xFF x.dualMis 1 })

/-- A good item also takes the effect that is not a write to a tensor: an APPEND's (R196). -/
def finishGood (s : State) (e : Nat) (a : Attempt) (i : Item) (o : RunOut) : State :=
  let s := if i.desc.kind == .ae && adOp i.desc == 5 then
      (match doAppend s i.desc false (eccFor o.ecc) with | some s => afterAppend s (adSeq i.desc) | none => s) else s
  let s := releaseWalk s e
  itemGood s a.token a.item e o.sat (if i.desc.kind == .ae && adOp i.desc == 5 then [] else o.writes)

/-- A failed retry's output is written poisoned, an APPEND's rows in their pages, and its job ends KILLED_POISON (R83, R84,
R152, R154, R176, R203). -/
def finishPoison (s : State) (e : Nat) (a : Attempt) (i : Item) (o : RunOut) : State :=
  let s1 := if i.desc.kind == .ae && adOp i.desc == 5 then
      fixPoisonPages ((doAppend s i.desc true (eccFor o.ecc)).getD s) (adSeq i.desc) else doWrites s o.writes true
  killJob s1 a.token .killedPoison e

/-- Both engines of a dual attempt have ended, `f` before `e`; their records stand in that order (R84, R91, R152, R203). -/
def resolveDual (s : State) (i : Item) (e f : Nat) (a b : Attempt) (oa ob : RunOut) : State :=
  let eq := oa.writes == ob.writes
  let fail := !eq || oa.mism || ob.mism
  let code (o : RunOut) (w : Bool) : Nat :=
    if fail && a.retry && w then 2 else if o.mism then 1 else if !eq then 5 else 4
  let s := noteRec s f b.token i.desc (code ob b.writer) (b2n (ob.wrap != 0)) ob.sat
  let s := noteRec s e a.token i.desc (code oa a.writer) (b2n (oa.wrap != 0)) oa.sat
  let s := if eq then s else setSrcs (bumpDual (bumpDual s e) f) [misSource e, misSource f]
  let w := if a.writer then e else f
  let o : RunOut := { (if a.writer then oa else ob) with ecc := oa.ecc }
  let rel (s : State) : State := freeAttempt (freeAttempt (releaseWalk (releaseWalk s e) f) e a) f b
  if !fail then finishGood (rel s) w a i o
  else if a.retry then rel (finishPoison s w a i o)
  else itemRetry (if i.desc.kind == .me then doWrites (rel s) o.writes false else rel s) a.token a.item

/-- Wraps, saturation events and a mismatch of a drained attempt are counted; the mismatch sets its source (R83, R98,
R99). -/
def noteRun (s : State) (e : Nat) (o : RunOut) : State :=
  let s := modEng s e (fun x => { x with wrap := satAdd 0xFFFF x.wrap o.wrap, sat := satAdd 0xFFFF x.sat o.sat
                                         chkMis := if o.mism then satAdd 0xFFFF x.chkMis 1 else x.chkMis })
  if o.mism then setSrc s e else s

/-- A run of an attempt ends on engine `e` (R83, R84, R154, R166). -/
def endRun (s : State) (e : Nat) (a : Attempt) (i : Item) (o : RunOut) : State :=
  let d := i.desc
  let s := noteRun s e o
  match a.partner with
  | some f =>
    let other : Option Attempt := [(engOf s f).arr, (engOf s f).drn].findSome? (fun x => match x with
      | some b => if b.token == a.token && b.item == a.item then some b else none
      | none => none)
    (match other with
     | some b => (match b.done with
       | some ob => resolveDual s i e f a b o ob
       | none =>
         let put (x : Option Attempt) : Option Attempt := x.map (fun y =>
           if y.token == a.token && y.item == a.item then { y with done := some o } else y)
         modEng s e (fun x => { x with arr := put x.arr, drn := put x.drn }))
     | none => s)
  | none =>
    if d.rpt then
      match a.first with
      | none => modEng s e (fun x => { x with arr := x.arr.map (fun y => { y with first := some o, startClk := s.clk }) })
      | some o1 =>
        let eq := o1.writes == o.writes
        let s := noteRec s e a.token d (if eq then 4 else if a.retry then 2 else 5) 0 (o1.sat + o.sat)
        let s := if eq then s else setSrc (bumpDual s e) (misSource e)
        let s := freeAttempt s e a
        if eq then finishGood s e a i o1
        else if a.retry then finishPoison s e a i o
        else itemRetry s a.token a.item
    else
      let cov := d.kind == .me && mdMode d == 0
      let code := if !cov then 3 else if !o.mism then 0 else if a.retry then 2 else 1
      let s := noteRec s e a.token d code (b2n (o.wrap != 0)) o.sat
      let s := freeAttempt s e a
      if !o.mism then finishGood s e a i o
      else if a.retry then finishPoison s e a i o
      else itemRetry (doWrites s o.writes false) a.token a.item

/-- Poison reaches the engine: the task stops with a DISCARDED record, the engine's UC source sets and the job ends
KILLED_POISON (R93, R207, R232). -/
def consumePoison (s : State) (e : Nat) (a : Attempt) : State :=
  let s := setSrc (bumpUc s e) (ucSource e)
  let d := discard s e a
  killJob d a.token .killedPoison e

/-- The entry's POISON bit is set of every page in the queue from which poison is consumed (R207). -/
def markPages (s : State) (a : Attempt) : State :=
  let bad := a.queue.filter (pageBad s a)
  let s1 := bad.foldl (fun s p =>
    let h := kvHdr s p.seq
    let x := kvEnt s h p.ent
    setEnt s h p.ent (entWord (entState x) (entPinned x) true (entClean x) (entFrame x)) (wd x 1)) s
  (bad.map (fun p => p.seq)).eraseDups.foldl fixPoisonPages s1

def consumeItem (s : State) (e : Nat) (a : Attempt) (i : Item) : State :=
  consumePoison (if i.desc.kind == .ae then markPages s a else s) e a

-- Errors in the engines' own stores (R100, R170, R208, R229, R232)

/-- Fault source of corrected errors in an engine. -/
def ceSource (e : Nat) : Nat := if e < 16 then 16 + e else if e < 20 then 48 + (e - 16) else if e < 22 then 56 + (e - 20) else 64 + (e - 22)

/-- The 32-byte words that hold what an attempt's stream unit has brought. -/
def heldWords (a : Attempt) : List Nat :=
  a.data.flatMap (fun p =>
    (List.range ((p.slot % 32 + p.bytes.length + 31) / 32)).map (fun i => p.slot / 32 * 32 + 32 * i))

/-- A decoder in engine `e` finds an error in a word that exists: it is counted with its source; an uncorrectable one in the
staging region poisons its sector. -/
def noteErr (s : State) (e : Nat) (a : Attempt) (x : EngErr) : State :=
  match x with
  | .buffer k uc => match (heldWords a)[k]? with
    | none => s
    | some u => if uc then
        (let s1 := setSrc (bumpUc s e) (ucSource e); if e < 16 then addPoison s1 u else s1)
      else setSrc (bumpCe s e) (ceSource e)
  | .basin r uc =>
    if 16 ≤ e || a.basin.m ≤ r then s
    else if uc then setSrc (bumpUc s e) (ucSource e) else setSrc (bumpCe s e) (ceSource e)

/-- An operand word of the attempt is uncorrectable as it is read. -/
def bufferBad (a : Attempt) (errs : List EngErr) : Bool :=
  errs.any (fun x => match x with | .buffer k uc => uc && decide (k < (heldWords a).length) | .basin _ _ => false)

/-- A Basin word of the tile is uncorrectable at its drain. -/
def basinBad (a : Attempt) (errs : List EngErr) : Bool :=
  errs.any (fun x => match x with | .basin r uc => uc && decide (r < a.basin.m) | .buffer _ _ => false)

def noteErrs (s : State) (e : Nat) (a : Attempt) (errs : List EngErr) : State := errs.foldl (fun s x => noteErr s e a x) s

/-- A tile of an ended job in the drain is completed: its rows are written but stand nowhere, its DISCARDED record and the
engine's counters have its wraps and saturation events. A mismatch found in the cycle of the kill sets its source and
counter (R91, R92, R98, R99, R232). -/
def stopTile (s : State) (e cycles : Nat) (a : Attempt) (o : RunOut) (bad : Bool) : State :=
  let s := noteRun s e { o with mism := o.mism && cycles == 0 && s.clk == a.stopClk }
  let s := if a.writer then doWrites s o.writes bad else s
  freeAttempt (releaseWalk (noteRec s e a.token a.desc 6 (b2n (o.wrap != 0)) o.sat) e) e a

/-- A tile of an ended job had left the array as its job ended: it is in the drain beside another tile, or its array phase
was over. DESIGN CHOICE (log 44): a lone tile's is over once the nominal cycles of R77 before the drain have passed with its operands there. -/
def pastArray (s : State) (e : Nat) (a : Attempt) (i : Item) : Bool :=
  (engOf s e).drn.isSome || (!operandsOut s e && decide (tileCycles i.ds - (mdM a.desc + 16) ≤ a.stopClk - a.startClk))

/-- A Basin word was uncorrectable at the drain: the tile's rows are written poisoned, and its job ends KILLED_POISON with
no retry (R232). -/
def drainBad (s : State) (e : Nat) (a : Attempt) (o : RunOut) : State :=
  let code := if mdMode a.desc != 0 then 3 else if o.mism then 1 else 0
  let s := noteRun s e o
  let s := freeAttempt (noteRec s e a.token a.desc code (b2n (o.wrap != 0)) o.sat) e a
  killJob (if a.writer then doWrites s o.writes true else s) a.token .killedPoison e

/-- TILE_DRAIN_END (R80 to R93, R100, R229, R232): the drain of the tile on ME `e` ends. -/
def execTileDrainEnd (e : Nat) (cycles : Nat) (upsets : List (Nat × Nat × Word)) (s : State) (errs : List EngErr := []) : Out :=
  .next (match endingAttempt s e with
    | none => s
    | some a =>
      if 16 ≤ e || (engOf s e).kat.isSome || a.done.isSome then s
      else
        let inDrain := (engOf s e).drn.isSome
        let b := upsets.foldl upsetLane a.basin
        let c := checkTile a.desc b
        let run (s1 : State) (i : Item) : RunOut :=
          let o := drainTile (viewOf s1 a.data) i.ds b
          { writes := o.1, mism := c.1, wrap := c.2, sat := o.2 + c.2 }
        if a.stopping then
          (let s1 := noteErrs (elapse s cycles) e a errs
           match s.fc.hJobs.findSome? (fun k => if k.token == a.token then k.items[a.item]? else none) with
           | some i =>
             if pastArray s e a i && !a.poison && !bufferBad a errs then
               settleUnits s (stopTile s1 e cycles a (run s1 i) (basinBad a errs))
             else settleUnits s (discard s1 e a)
           | none => settleUnits s (discard s1 e a))
        else if !inDrain && operandsOut s e then s
        else match itemOf s a with
          | none => s
          | some (_, i) =>
            let s1 := noteErrs (elapse s cycles) e a errs
            if a.poison || bufferBad a errs then settleUnits s (consumeItem s1 e a i) else
            settleUnits s (if basinBad a errs then drainBad s1 e a (run s1 i) else endRun s1 e a i (run s1 i)))

/-- OPERAND_POISON_CONSUMED (R93, R232). -/
def execOperandPoisonConsumed (e : Nat) (s : State) : Out :=
  .next (match (engOf s e).arr with
    | none => s
    | some a => match itemOf s a with
      | none => s
      | some (_, i) => if !a.stopping && a.poison then settleUnits s (consumeItem s e a i) else s)

/-- Upset bytes of an output, numbered through its writes. -/
def flipWrites : List (Nat × List Byte) → Nat → Byte → List (Nat × List Byte)
  | [], _, _ => []
  | (a, bs) :: r, n, b =>
    if n < bs.length then (a, modAt bs n (fun x => x ^^^ b)) :: r else (a, bs) :: flipWrites r (n - bs.length) b

def applyUpsets (ws : List (Nat × List Byte)) (ups : List (Nat × Byte)) : List (Nat × List Byte) :=
  ups.foldl (fun ws u => flipWrites ws u.1 u.2) ws

/-- TASK_END (R152, R154, R166, R170): a run of a vector, warp, crop, point-cloud or sort task ends. -/
def execTaskEnd (e : Nat) (cycles : Nat) (upsets : List (Nat × Byte)) (s : State) (errs : List EngErr := []) : Out :=
  .next (match (engOf s e).arr with
    | none => s
    | some a =>
      if e < 16 || e == 20 || e == 21 || (engOf s e).kat.isSome || a.done.isSome then s
      else if a.stopping then settleUnits s (discard (noteErrs (elapse s cycles) e a errs) e a)
      else if operandsOut s e then s
      else match itemOf s a with
        | none => s
        | some (j, i) =>
          let s1 := noteErrs (elapse s cycles) e a errs
          if a.poison || bufferBad a errs then settleUnits s (consumeItem s1 e a i) else
          let o := taskRun (viewOf s1 a.data) j.plan i.desc
          settleUnits s (endRun s1 e a i { writes := applyUpsets o.1 upsets, mism := false, wrap := 0, sat := o.2 }))

/-- An attention task can end: its walks are granted, every page is emitted and consumed (R195, R196). -/
def walkOver (s : State) (e : Nat) (a : Attempt) : Bool :=
  let w := walkOwner s e
  a.queue.isEmpty && (s.kv.walks.filter (fun x => x.e == w)).all (fun x => x.granted) &&
    (match (engOf s w).arr with | some b => b.pages.isEmpty | none => true)

/-- ATTENTION_TASK_END (R185 to R188, R194 to R196, R202, R203, R208, R229, R233). `ecc` says what becomes of the reads that
control pair A makes for an APPEND. -/
def execAttentionTaskEnd (e : Nat) (cycles : Nat) (upsets : List (Nat × Byte)) (s : State) (errs : List EngErr := [])
    (ecc : List (Nat × Ecc) := []) : Out :=
  .next (match (engOf s e).arr with
    | none => s
    | some a =>
      if (e != 20 && e != 21) || (engOf s e).kat.isSome || a.done.isSome then s
      else if a.stopping then settleUnits s (discard (noteErrs (elapse s cycles) e a errs) e a)
      else match itemOf s a with
        | none => s
        | some (_, i) =>
          let d := i.desc
          if a.poison then settleUnits s (consumeItem (elapse s cycles) e a i)
          else if a.hold || operandsOut s e || !walkOver s e a then s
          else
            let s1 := noteErrs (elapse s cycles) e a errs
            if bufferBad a errs then settleUnits s (consumeItem s1 e a i)
            else if adOp d == 5 then
              if s.rst.pairA || (doAppend s1 d false (eccFor ecc)).isNone then s
              else settleUnits s (kvWork s1 [adSeq d] (cs := ecc) fun s2 =>
                endRun s2 e a i { writes := if upsets.isEmpty then [] else [(0, upsets.map (fun u => u.2))]
                                  mism := false, wrap := 0, sat := 0, ecc := ecc })
            else
              let o := attRun (viewOf s1 a.data) d a.version
              if o.stale then
                settleUnits s (killJob (freeAttempt (releaseWalk (noteRec s1 e a.token d 6 0 0) e) e a) a.token .killedUpstream 26)
              else settleUnits s (endRun s1 e a i { writes := applyUpsets o.writes upsets, mism := false, wrap := 0, sat := o.sat }))

-- Fallback (R122, R125, R126)

/-- Chains of a self list: each ends with its LAST task (R124). -/
def splitChains : List Desc → List Desc → List (List Desc)
  | [], cur => if cur.isEmpty then [] else [cur.reverse]
  | d :: r, cur => if d.last then (d :: cur).reverse :: splitChains r [] else splitChains r (d :: cur)

/-- The self list's tiles as items of the job (R125). -/
def rerunItems (s : State) (p : Plan) (layer g : Nat) : List Item :=
  match p.fbs.find? (fun f => fld f 0 15 0 == layer) with
  | none => []
  | some f =>
    let a := pair48 (wd f 2) (wd f 3)
    let ds : List Desc := (List.range (wd f 1).toNat).map (fun i => { kind := .me, words := s.mem.words (a + 128 * i) 32 })
    ((splitChains ds []).zipIdx).map (fun c =>
      { grp := g, chain := c.2, pos := 0, ords := [], ds := c.1, st := .waiting, ran := [], retried := false, rerun := true
        prefetch := false })

/-- The substitution records of a layer (R123, R126). -/
def substsOf (s : State) (owner : Word) (p : Plan) (layer : Nat) : List Subst :=
  match p.fbs.find? (fun f => fld f 0 15 0 == layer) with
  | none => []
  | some f =>
    let a := pair48 (wd f 5) (wd f 6)
    (List.range (wd f 4).toNat).map (fun i =>
      let w := s.mem.words (a + 16 * i) 4
      let k := (p.descs.getD (wd w 0).toNat default).kind
      { owner := owner, ord := (wd w 0).toNat, desc := { kind := k, words := s.mem.words (pair48 (wd w 1) (wd w 2)) (descWords k) } })

/-- The decision is due: every tile of the layer in the job stands. -/
def decisionDue (j : Job) (layer : Nat) : Bool :=
  let its := j.items.filter (fun i => itemFb i && i.desc.layer == layer)
  !its.isEmpty && its.all (fun i => i.st == .stood) && j.layers.any (fun l => l.layer == layer && !l.decided)

/-- The decision on one layer of one job. -/
def decide_ (s : State) (j : Job) (layer : Nat) : State :=
  let its := j.items.filter (fun i => itemFb i && i.desc.layer == layer)
  let th := mdThresh ((its.headD default).desc)
  let cnt := match j.layers.find? (fun l => l.layer == layer) with | some l => l.count | none => 0
  let setL (f : LayerCnt → LayerCnt) (s : State) : State :=
    modJob s j.token (fun j => { j with layers := j.layers.map (fun l => if l.layer == layer then f l else l) })
  if cnt ≤ th then
    let s := setL (fun l => { l with decided := true }) s
    let s := its.foldl (fun s i => standItemRows s j i) s
    let s := match jobOf s j.token with | some j => groupEnds s j ((its.headD default).grp) | none => s
    let inp := ((its.getLastD default).ran.headD 26)
    afterStand (tryDone s j.token inp)
  else
    let g := (its.headD default).grp
    let s := setL (fun l => { l with decided := true, fell := true, decClk := s.clk, decSeq := wseqNow s }) s
    let sub := substsOf s (ownerOf j) j.plan layer
    let s := { s with sch := { s.sch with subst := sub ++ s.sch.subst } }
    let s := modJob s j.token (fun x => { x with items := x.items ++ rerunItems s j.plan layer g })
    let s := { s with jobs := s.jobs.map (fun x =>
      if ownerOf x == ownerOf j then { x with items := x.items.map (substItem s (ownerOf x)) } else x) }
    afterStand s

/-- What control pair A reads as a layer falls back: its self list, its substitution records and their descriptors. -/
def fallLists (s : State) (j : Job) (layer : Nat) : List (Nat × Nat) :=
  let its := j.items.filter (fun i => itemFb i && i.desc.layer == layer)
  let cnt := match j.layers.find? (fun l => l.layer == layer) with | some l => l.count | none => 0
  match j.plan.fbs.find? (fun f => fld f 0 15 0 == layer) with
  | none => []
  | some f =>
    if cnt ≤ mdThresh ((its.headD default).desc) then [] else
      (pair48 (wd f 2) (wd f 3), 128 * (wd f 1).toNat) :: (pair48 (wd f 5) (wd f 6), 16 * (wd f 4).toNat)
        :: (List.range (wd f 4).toNat).map (fun i =>
          let w := s.mem.words (pair48 (wd f 5) (wd f 6) + 16 * i) 4
          (pair48 (wd w 1) (wd w 2), 4 * descWords (j.plan.descs.getD (wd w 0).toNat default).kind))

/-- FALLBACK_DECISION (R122, R125, R126); the lists come through control pair A, and poison in one stops it (R390). -/
def execFallbackDecision (token : Word) (layer : BitVec 16) (s : State) (ecc : List (Nat × Ecc) := []) : Out :=
  .next (match jobOf s token with
    | none => s
    | some j =>
      if decisionDue j layer.toNat then
        settleUnits s (pairAGo s (fallLists s j layer.toNat) (eccFor ecc) (fun s => decide_ s j layer.toNat))
      else s)

-- Walks and held streams

/-- The walk of engine `e` may emit once all its locks are held. -/
def startWalk (s : State) (e : Nat) (o : Nat → Ecc := asIs) : State :=
  if (s.kv.walks.filter (fun w => w.e == e)).all (fun w => w.granted) then
    match (engOf s e).arr with
    | none => s
    | some a => match itemOf s a with
      | none => s
      | some (_, i) =>
        let ps := taskWalk s i.desc
        let ver := kvVersion (kvHdr s ((attSeqs s i.desc).headD 0))
        let upd (x : Option Attempt) : Option Attempt := x.map (fun y => { y with version := ver })
        let s := modEng s e (fun x => { x with arr := some { a with pages := ps, version := ver } })
        let s := match a.partner with | some f => modEng s f (fun x => { x with arr := upd x.arr }) | none => s
        stepPages s e o
  else s

/-- A walk takes its lock; one that names what the sequence does not have ends its job (R192, R195, R207). -/
def grantWalk (s : State) (w : Walk) (o : Nat → Ecc := asIs) : State :=
  let bad := match (engOf s w.e).arr with
    | some a => (match itemOf s a with | some (_, i) => if attBad s i.desc then some a.token else none | none => none)
    | none => none
  match bad with
  | some t => killJob s t .killedUpstream 26
  | none =>
    let h := kvHdr s w.seqId
    let s1 := setHdr s w.seqId 8 (kvWord8 (kvHead h) (kvLockCount h + b2n (!w.append)) true w.append)
    let mark (l : List Walk) : List Walk :=
      match l.findIdx? (fun x => x.seqId == w.seqId && !x.granted) with
      | some k => modAt l k (fun x => { x with granted := true })
      | none => l
    startWalk { s1 with kv := { s1.kv with walks := mark s1.kv.walks } } w.e o

/-- WALK_LOCK_GRANT (R192, R195, R207, R233). `ecc` says what becomes of the reads that control pair A makes. -/
def execWalkLockGrant (seqId : Nat) (s : State) (ecc : List (Nat × Ecc) := []) : Out :=
  .next (match grantable s seqId with
    | none => s
    | some w => settleUnits s (kvWork s [seqId] (cs := ecc) fun s => grantWalk s w (eccFor ecc)))

/-- The page at which the stream of engine `e` is halted is present: the stream goes on (R196, R210, R244). -/
def resumePages (s : State) (e : Nat) : State :=
  match (engOf s e).arr with
  | none => s
  | some a =>
    match a.todo with
    | [] => s
    | p :: _ =>
      if !a.hold || a.stopping || entState (kvEnt s (kvHdr s p.seq) p.ent) == 3 then s else
      let b := { a with hold := false, todo := [] }
      fetchQueue a.todo (modEng s e (fun x => { x with
        arr := some b, holdCyc := satAdd 0xFFFF_FFFF x.holdCyc (s.clk - a.holdClk) })) e b

/-- Transfers that the ring held go on, if the slices are there (R244, R253, R254). -/
def resumeRing (s : State) (e : Nat) : State :=
  { s with ms := { s.ms with xfers := s.ms.xfers.map (fun x =>
    if x.unit == e && x.held && !sliceAbsent s x.src then { x with held := false } else x) } }

/-- STREAM_RESUME (R196, R244): the data of the held stream of engine `e` are present, or a page has a frame now. `ecc` says
what becomes of the reads that control pair A makes. -/
def execStreamResume (e : Nat) (s : State) (ecc : List (Nat × Ecc) := []) : Out :=
  .next (settleUnits s (
    let s1 := resumePages (resumeRing s e) e
    if e == 20 || e == 21 then stepPages s1 e (eccFor ecc) else s1))

end Sys2Proof.Machine
end

