-- ==== Sys2Proof/Machine/Isp.lean ====
section
/-! DEFINITION. Camera pixels: unpacking of CSI-2 lines, the row formats of raw streams, and the ISP stages (R283, R288
to R292). The packings inside a CSI-2 line are the MIPI standard's (PRESUMED). -/

namespace Sys2Proof.Machine

/-- Bits of a pixel of a data type that a port accepts (R281); 0 for the others. -/
def dtBits (dt : Nat) : Nat :=
  if dt = 0x2B then 10 else if dt = 0x2C then 12 else if dt = 0x2D then 14 else if dt = 0x2E then 16
  else if dt = 0x2F then 20 else if dt = 0x1E then 16 else 0

def isYuv (dt : Nat) : Bool := dt == 0x1E

/-- Bytes of a line of `w` pixels. -/
def lineBytes (dt w : Nat) : Nat := w * dtBits dt / 8

def byteAt (bs : List Byte) (i : Nat) : Nat := (bs.getD i 0).toNat

/-- Ten-bit sample `i`: four high bytes, then the four low pairs. -/
def raw10 (bs : List Byte) (i : Nat) : Nat :=
  let g := i / 4 * 5
  byteAt bs (g + i % 4) * 4 + byteAt bs (g + 4) / 4 ^ (i % 4) % 4

/-- Sample `i` of a line (RAW types). -/
def rawPixel (dt : Nat) (bs : List Byte) (i : Nat) : Nat :=
  if dt = 0x2B then raw10 bs i
  else if dt = 0x2C then byteAt bs (i / 2 * 3 + i % 2) * 16 + byteAt bs (i / 2 * 3 + 2) / 16 ^ (i % 2) % 16
  else if dt = 0x2D then
    let g := i / 4 * 7
    let low := byteAt bs (g + 4) + byteAt bs (g + 5) * 256 + byteAt bs (g + 6) * 65536
    byteAt bs (g + i % 4) * 64 + low / 64 ^ (i % 4) % 64
  else if dt = 0x2E then byteAt bs (2 * i) * 256 + byteAt bs (2 * i + 1)
  else raw10 bs (2 * i) * 1024 + raw10 bs (2 * i + 1)

/-- Samples of a line: of RAW types one a pixel; of YUV422 two, Y and the chroma of the pixel (R283). -/
def lineSamples (dt w : Nat) (bs : List Byte) : List Nat :=
  if isYuv dt then (List.range w).flatMap (fun i => [byteAt bs (2 * i + 1), byteAt bs (i / 2 * 4 + 2 * (i % 2))])
  else (List.range w).map (rawPixel dt bs)

/-- Format of a raw stream's samples: UINT8 pairs, INT16 or INT32 (R283). -/
def rawFmt (dt : Nat) : Nat := if isYuv dt then 2 else if dt = 0x2E || dt = 0x2F then 4 else 3

-- ISP contexts (R288)
def ispCtx (s : State) (e : List Word) : List Word := (activeSet s).sensor.isps.getD (stIspNo e * 16 + stCtx e) []
def icStage (c : List Word) (i : Nat) : Bool := bit (wd c 0) i
def icMono (c : List Word) : Bool := bit (wd c 0) 12
def icExpo (c : List Word) : Nat := fld c 0 14 13
def icFmt (c : List Word) : Nat := [2, 3, 9, 10].getD (fld c 0 16 15) 2
def icCh (c : List Word) : Nat := if bit (wd c 0) 17 then 3 else 1

/-- Values are clamped to 0 to 2^20 − 1 after each stage (R289). -/
def clamp20 (v : Int) : Nat := (max 0 (min (2 ^ 20 - 1) v)).toNat

/-- Colour of a CFA position: 0 R, 1 G, 2 B. -/
def cfaColour (cfa x y : Nat) : Nat :=
  (([[0, 1, 1, 2], [1, 0, 2, 1], [1, 2, 0, 1], [2, 1, 1, 0]] : List (List Nat)).getD cfa []).getD (y % 2 * 2 + x % 2) 1

/-- An image in raster order, its edge pixels replicated beyond it (R289). -/
def px (w h : Nat) (im : List Nat) (x y : Int) : Nat :=
  let cx := (max 0 (min ((w : Int) - 1) x)).toNat
  let cy := (max 0 (min ((h : Int) - 1) y)).toNat
  im.getD (cy * w + cx) 0

def mapPx (w : Nat) (im : List Nat) (f : Nat → Nat → Nat → Nat) : List Nat :=
  im.zipIdx.map (fun p => f (p.2 % w) (p.2 / w) p.1)

/-- BLC. -/
def ispBlc (c : List Word) (w : Nat) (im : List Nat) : List Nat :=
  mapPx w im (fun x y v =>
    let p := y % 2 * 2 + x % 2
    clamp20 ((v : Int) - (fld c (1 + p / 2) (16 * (p % 2) + 15) (16 * (p % 2)) : Int)))

/-- NUC (R291). -/
def ispNuc (s : State) (c : List Word) (w : Nat) (im : List Nat) : List Nat :=
  let a := pair48 (wd c 18) (wd c 19)
  im.zipIdx.map (fun p =>
    let t := s.mem.words (a + 4 * p.2) 1
    let v := rneDiv (((p.1 : Int) - sext 16 (fld t 0 31 16)) * (fld t 0 15 0 : Int)) 16384
    if w = 0 then p.1 else (max 0 (min 16383 v)).toNat)

/-- DPC. -/
def ispDpc (c : List Word) (w h : Nat) (im : List Nat) : List Nat :=
  let thr := fld c 3 31 20
  mapPx w im (fun x y v =>
    let ns := ([(-2, -2), (0, -2), (2, -2), (-2, 0), (2, 0), (-2, 2), (0, 2), (2, 2)] : List (Int × Int)).map
      (fun d => px w h im ((x : Int) + d.1) ((y : Int) + d.2))
    let hi := ns.foldl max 0
    let lo := ns.foldl min (2 ^ 20)
    if hi + thr < v then hi else if v + thr < lo then lo else v)

/-- HDR (R290): the longest exposure below KNEE, or the shortest, by its ratio. -/
def ispHdr (c : List Word) (ims : List (List Nat)) : List Nat :=
  let gain (i : Nat) : Int := if i = 0 then 256 else fld c 4 (16 * (i - 1) + 15) (16 * (i - 1))
  let n := ims.length
  (List.range ((ims.headD []).length)).map (fun k =>
    let v (i : Nat) : Nat := (ims.getD i []).getD k 0
    let i := ((List.range n).find? (fun i => v i < fld c 3 19 0)).getD (n - 1)
    clamp20 (rneDiv ((v i : Int) * gain i) 256))

/-- LSC: the gain of the CFA position, interpolated bilinearly between the grid's 33 × 33 nodes. -/
def ispLsc (s : State) (c : List Word) (w h : Nat) (im : List Nat) : List Nat :=
  let a := pair48 (wd c 14) (wd c 15)
  let node (gx gy p : Nat) : Int := (leNat (s.mem.read (a + (gy * 33 + gx) * 8 + 2 * p) 2) : Int)
  mapPx w im (fun x y v =>
    let p := y % 2 * 2 + x % 2
    let dx := max 1 (w - 1)
    let dy := max 1 (h - 1)
    let gx := min 31 (x * 32 / dx)
    let gy := min 31 (y * 32 / dy)
    let fx : Int := (x * 32 - gx * dx : Nat)
    let fy : Int := (y * 32 - gy * dy : Nat)
    let g := (node gx gy p * (dx - fx) + node (gx + 1) gy p * fx) * (dy - fy)
      + (node gx (gy + 1) p * (dx - fx) + node (gx + 1) (gy + 1) p * fx) * fy
    clamp20 (rneDiv ((v : Int) * g) (4096 * dx * dy)))

/-- A missing colour: the mean of the nearest pixels of that colour in the 3 × 3 window; a free value of the image where the
window has none (R344). -/
def ispColour (cfa w h : Nat) (im : List Nat) (x y col : Nat) : Nat :=
  let cl (v : Int) (n : Nat) : Nat := (max 0 (min ((n : Int) - 1) v)).toNat
  let ring (ds : List (Int × Int)) : List Nat := ds.filterMap (fun d =>
    let qx := cl ((x : Int) + d.1) w
    let qy := cl ((y : Int) + d.2) h
    if cfaColour cfa qx qy = col then some (im.getD (qy * w + qx) 0) else none)
  let near := ring [(0, -1), (-1, 0), (1, 0), (0, 1)]
  let far := ring [(-1, -1), (1, -1), (-1, 1), (1, 1)]
  let l := if near.isEmpty then far else near
  if cfaColour cfa x y = col then im.getD (y * w + x) 0
  else if l.isEmpty then Config.demosaicSample cfa w h im x y col % 2 ^ 20
  else clamp20 (rneDiv (l.sum : Nat) l.length)

/-- DEMOSAIC: a pixel's R, G and B. -/
def ispDemosaic (c : List Word) (w h : Nat) (im : List Nat) : List (List Nat) :=
  im.zipIdx.map (fun p =>
    if icStage c 5 then (List.range 3).map (ispColour (fld c 0 11 10) w h im (p.2 % w) (p.2 / w))
    else [p.1, p.1, p.1])

/-- WB; without DEMOSAIC a pixel takes the gain of its own colour. -/
def ispWb (c : List Word) (w : Nat) (im : List (List Nat)) : List (List Nat) :=
  let gain (k : Nat) : Int := if k = 0 then fld c 5 15 0 else if k = 1 then fld c 5 31 16 else fld c 6 15 0
  im.zipIdx.map (fun p => p.1.zipIdx.map (fun v =>
    clamp20 (rneDiv ((v.1 : Int) * gain (if icStage c 5 then v.2 else cfaColour (fld c 0 11 10) (p.2 % w) (p.2 / w))) 4096)))

/-- CCM. -/
def ispCcm (c : List Word) (im : List (List Nat)) : List (List Nat) :=
  let coef (i : Nat) : Int := sext 16 (fld c (7 + i / 2) (16 * (i % 2) + 15) (16 * (i % 2)))
  let ofs (i : Nat) : Int := sext 16 (fld c (12 + i / 2) (16 * (i % 2) + 15) (16 * (i % 2)))
  im.map (fun v => (List.range 3).map (fun r =>
    clamp20 (((List.range 3).map (fun k => rneDiv (coef (3 * r + k) * (v.getD k 0 : Int)) 4096)).sum + ofs r)))

/-- TONE. -/
def ispTone (s : State) (c : List Word) (v : Nat) : Nat :=
  if icStage c 8 then
    let a := pair48 (wd c 16) (wd c 17)
    let t (i : Nat) : Int := (leNat (s.mem.read (a + 2 * i) 2) : Int)
    let i := v / 1024
    clamp20 (t i + rneDiv ((t (i + 1) - t i) * (v % 1024 : Nat)) 1024)
  else clamp20 (rneDiv (v : Int) 32)

/-- The matrix of ITU-R BT.709, full range, that R289 names, each row's coefficients over one divisor (Kr 0.2126, Kb
0.0722): Y, Cb = (B - Y) / 1.8556, Cr = (R - Y) / 1.5748. PRESUMED (log 37): the values are the standard's, taken exact. -/
def bt709 : List (List Int × Nat) :=
  [([2126, 7152, 722], 10000), ([-2126, -7152, 9278], 18556), ([7874, -7152, -722], 15748)]

/-- CSC: Y, Cb, Cr, the last two offset by 16,384 (R289). -/
def ispCsc (v : List Nat) : List Nat :=
  bt709.zipIdx.map (fun r =>
    clamp20 (((List.range 3).map (fun k => rneDiv (r.1.1.getD k 0 * (v.getD k 0 : Int)) r.1.2)).sum
      + (if r.2 = 0 then 0 else 16384)))

/-- v / 32,767 to 61 fractional bits, the last one set where more would follow: a conversion rounds it as the exact ratio. -/
def ispRatio (v : Nat) : FV :=
  let q := v * 2 ^ 60
  if v = 0 then FV.zero else .fin false (2 * (q / 32767) + (if q % 32767 = 0 then 0 else 1)) (-61)

/-- OUT: a value as the output format's code, rounded once (R289, R111). -/
def ispOut (fmt v : Nat) : Nat :=
  if fmt = 2 then (convert 2 0 (.i (rneDiv (v : Int) 128))).1
  else if fmt = 3 then (convert 3 0 (.i (v : Int))).1
  else (convert fmt 0 (.f (ispRatio v))).1

/-- The exposures of an ISP frame: image `i` has lines i, i + e, i + 2e, … (R290). -/
def exposures (e : Nat) (lines : List (List Nat)) : List (List Nat) :=
  (List.range e).map (fun i => (lines.zipIdx.filter (fun l => l.2 % e == i)).flatMap (fun l => l.1))

/-- The channel codes of every pixel of a frame, in raster order (R289). -/
def ispRun (s : State) (c : List Word) (dt w h : Nat) (lines : List (List Nat)) : List (List Nat) :=
  if isYuv dt then
    lines.flatMap (fun l => (List.range w).map (fun i =>
      let y := l.getD (2 * i) 0
      let cb := l.getD (4 * (i / 2) + 1) 0
      let cr := l.getD (4 * (i / 2) + 3) 0
      ((if icCh c = 3 then [y, cb, cr] else [y]).map (fun v => ispOut (icFmt c) (128 * v)))))
  else
    let ims := exposures (icExpo c) lines
    let st (b : Bool) (f : List Nat → List Nat) (x : List Nat) : List Nat := if b then f x else x
    let ims := ims.map (fun im => st (icStage c 2) (ispDpc c w h) (st (icStage c 1) (ispNuc s c w) (st (icStage c 0) (ispBlc c w) im)))
    let im := if icStage c 3 then ispHdr c ims else ims.headD []
    let im := st (icStage c 4) (ispLsc s c w h) im
    let rgb := ispDemosaic c w h im
    let rgb := if icStage c 6 then ispWb c w rgb else rgb
    let rgb := if icStage c 7 then ispCcm c rgb else rgb
    let rgb := rgb.map (fun v => v.map (ispTone s c))
    let csc := icStage c 9
    let rgb := if csc then rgb.map ispCsc else rgb
    rgb.map (fun v =>
      let chs := if icCh c = 3 then v else if icMono c || csc then [v.getD 0 0] else [v.getD 1 0]
      chs.map (ispOut (icFmt c)))

/-- Bytes of an output row of `n` codes, and of the row's place, a multiple of 64 (R283). -/
def rowPitch (fmt n : Nat) : Nat := (n * fmtBits fmt / 8 + 63) / 64 * 64

/-- Row pitch of a camera stream (R283). -/
def camPitch (s : State) (e : List Word) : Nat :=
  if stIsp e then rowPitch (icFmt (ispCtx s e)) (stWidth e * icCh (ispCtx s e))
  else rowPitch (rawFmt (stDt e)) (stWidth e * (if isYuv (stDt e) then 2 else 1))

/-- Line-buffer bytes that the active set allots on an ISP (R292). -/
def lbUsed (s : State) (isp : Nat) : Nat :=
  ((List.range 16).map (fun k =>
    match (List.range 64).find? (fun i => let e := stEntry s i; stValid e && !stEth e && stIsp e && stIspNo e == isp && stCtx e == k) with
    | some i => 4 * stWidth (stEntry s i) * (5 + icExpo (ispCtx s (stEntry s i)))
    | none => 0)).sum

end Sys2Proof.Machine
end

