-- ==== Sys2Proof/Machine/Sensors.lean ====
section
/-! DEFINITION. The sensor front: acceptance, completion and drops of sensor frames, camera ports, Ethernet ingress, the
Headland mirror, and camera control (R272 to R296, R305, R357). -/

namespace Sys2Proof.Machine

/-- Drop reason codes (R277). -/
def Drop.code : Drop → Nat
  | .late => 1 | .noConsumer => 2 | .setSwap => 3 | .surplus => 4 | .noBuffer => 5 | .crc => 6 | .linkLoss => 7
  | .format => 8 | .overrun => 9 | .writeFail => 10

def dropOf (n : Nat) : Drop :=
  if n = 1 then .late else if n = 2 then .noConsumer else if n = 3 then .setSwap else if n = 4 then .surplus
  else if n = 5 then .noBuffer else if n = 6 then .crc else if n = 7 then .linkLoss else if n = 8 then .format
  else if n = 9 then .overrun else .writeFail

def streamOf (s : State) (i : Nat) : Stream := s.sens.streams.getD i {}
def modStream (s : State) (i : Nat) (f : Stream → Stream) : State :=
  { s with sens := { s.sens with streams := modAt s.sens.streams i f } }
def modSp (s : State) (p : Nat) (f : SpPort → SpPort) : State :=
  { s with sens := { s.sens with sp := modAt s.sens.sp p f } }
def modEth (s : State) (m : Nat) (f : EthMac → EthMac) : State :=
  { s with sens := { s.sens with eth := modAt s.sens.eth m f } }
def modIsp (s : State) (n : Nat) (f : Isp → Isp) : State :=
  { s with sens := { s.sens with isp := modAt s.sens.isp n f } }

-- Recording (R301, R302)

/-- A record of the recording: it is written whole, or the region is full and it is lost. -/
def putRec (s : State) (typ i : Nat) (fseq seq : Word) (ns sec aux : Nat) (pl : List Byte) : State :=
  let r := s.sens.recorder
  if r.state = 0 || r.armed then s else
  let hd : List Word :=
    [BitVec.ofNat 32 (typ + 256 * i), BitVec.ofNat 32 pl.length, fseq, seq, BitVec.ofNat 32 ns, BitVec.ofNat 32 sec,
     BitVec.ofNat 32 aux]
  let n := 32 + (pl.length + 31) / 32 * 32
  if r.state = 1 && r.written + n ≤ r.len then
    let bs := wordsBytes hd ++ wordBytes (crc32c (wordsBytes hd ++ pl)) ++ pl ++ List.replicate (n - 32 - pl.length) 0
    { store s (r.base + r.written) bs with sens := { s.sens with recorder := { r with written := r.written + n } } }
  else { s with sens := { s.sens with recorder := { r with state := 2, lost := r.lost + 1 } } }

/-- A record of a stream, when the mask names it. -/
def recStream (s : State) (typ i : Nat) (fseq seq : Word) (ns sec aux : Nat) (pl : List Byte) : State :=
  if s.sens.recorder.mask.getLsbD i then putRec s typ i fseq seq ns sec aux pl else s

/-- A stream under replay (R303). -/
def underReplay (s : State) (i : Nat) : Bool := s.sens.replayer.state == 1 && s.sens.replayer.mask.getLsbD i

/-- Bytes that a record takes, by its header (R302). -/
def recSize (hd : List Word) : Nat := 32 + ((wd hd 1).toNat + 31) / 32 * 32

/-- The headers of the records that lie from one offset of the replayed region up to another, fuelled by the region's
length. -/
def recHeads (s : State) : Nat → Nat → Nat → List (List Word)
  | 0, _, _ => []
  | n + 1, o, e =>
    let hd := s.mem.words (s.sens.replayer.base + o) 8
    if e < o + 32 || e < o + recSize hd then [] else hd :: recHeads s n (o + recSize hd) e

/-- FRAME_SEQ as the recording has it, for a frame of this run (R303). -/
def recFseq (s : State) (fseq : Word) : Word := fseq - s.sch.seq + s.sens.replayer.mark

/-- A record is of a type and of one sensor frame of a stream. -/
def isRec (hd : List Word) (typ i : Nat) (fseq seq : Word) : Bool :=
  fld hd 0 7 0 == typ && fld hd 0 13 8 == i && wd hd 2 == fseq && wd hd 3 == seq

/-- The drop that the recording still has to come for a sensor frame under replay (R303). -/
def recordedDrop (s : State) (i : Nat) (fseq seq : Word) : Option Drop :=
  let r := s.sens.replayer
  if !underReplay s i then none else
  ((recHeads s (r.len / 32) r.pos r.len).find? (fun hd => isRec hd 7 i (recFseq s fseq) seq)).map
    (fun hd => dropOf (wd hd 6).toNat)

/-- A sensor frame of the recording began before the present record. -/
def recordedStart (s : State) (i : Nat) (fseq seq : Word) : Bool :=
  (recHeads s (s.sens.replayer.len / 32) 0 s.sens.replayer.pos).any (fun hd => isRec hd 2 i (recFseq s fseq) seq)

-- Drops (R277, R278)

/-- A line is in an ISP's pipeline while a sensor frame in reception has lines there (R310). -/
def ispHolds (s : State) (n : Nat) : List Nat :=
  ((List.range 64).filter (fun i =>
    let e := stEntry s i
    !stEth e && stIsp e && stIspNo e == n && (match (streamOf s i).cur with | some f => !f.raw.isEmpty | none => false))).map
    (fun i => stCtx (stEntry s i))

/-- BUSY and CTX follow the contexts that still have lines. -/
def ispRest (s : State) (n : Nat) : State :=
  let l := ispHolds s n
  modIsp s n (fun x => { x with busy := !l.isEmpty, ctx := if l.contains x.ctx then x.ctx else l.headD x.ctx })

/-- A sensor frame is dropped: its record, its counters, its place in a recording. In replay a drop that the recording has
takes its reason there, and one that it lacks diverges (`recorded`: the recording's own drop is being reproduced). -/
def dropFrame (s : State) (i : Nat) (f : SFrame) (r0 : Drop) (recorded : Bool) : State :=
  let e := stEntry s i
  let old := if recorded then none else recordedDrop s i f.fseq f.seq
  let r := old.getD r0
  let ws : List Word := [f.fseq, f.seq, BitVec.ofNat 32 (i + 256 * r.code), BitVec.ofNat 32 f.ns]
  let nx := ringNext 256 24 s.sch.dropIdx s.sch.dropWraps
  let s := storeWords s (0x083F_B000 + 16 * s.sch.dropIdx) ws
  let s := { s with sch := { s.sch with dropIdx := nx.1, dropWraps := nx.2 }
                    sens := { s.sens with dropped := s.sens.dropped + 1 } }
  let s := if stEth e then s else modSp s (stPort e) (fun x => { x with drops := satAdd 0xFFFF x.drops 1 })
  let s := if !stEth e && stIsp e then modIsp s (stIspNo e) (fun x =>
      { x with overrun := if r = .overrun then satAdd 0xFFFF x.overrun 1 else x.overrun
               format := if r = .format then satAdd 0xFFFF x.format 1 else x.format }) else s
  let s := recStream s 7 i f.fseq f.seq f.ns f.sec r.code []
  if underReplay s i && !recorded && old.isNone then
    { s with sens := { s.sens with replayer := { s.sens.replayer with diverged := s.sens.replayer.diverged + 1 } } }
  else s

/-- The sensor frame in reception is dropped; its later data is discarded. -/
def dropCur (s : State) (i : Nat) (r : Drop) (recorded : Bool) : State :=
  match (streamOf s i).cur with
  | none => s
  | some f =>
    let s1 := modStream (dropFrame s i f r recorded) i
      (fun x => { x with cur := none, disc := some (Discard.mk f.pkts f.fseq f.seq f.lines (stEntry s i)) })
    if !stEth (stEntry s i) && stIsp (stEntry s i) then ispRest s1 (stIspNo (stEntry s i)) else s1

/-- Sensor frames of a stream received and not delivered that meet `p` are dropped. -/
def dropKept (s : State) (i : Nat) (p : SFrame → Bool) (r : SFrame → Drop) : State :=
  let fs := (streamOf s i).kept.filter p
  let s := fs.foldl (fun s f => dropFrame s i f (r f) false) s
  modStream s i (fun x => { x with kept := x.kept.filter (fun f => !p f) })

/-- LATE, or SET_SWAP in the frame before a swap (R44, R277). -/
def lateReason (s : State) (fseq : Word) : Drop :=
  if fseq == s.sch.seq && s.sets.swapPending && s.sets.swapSeq == s.sch.seq + 1 then .setSwap else .late

-- Acceptance (R272, R274, R276)

/-- The lowest free buffer. -/
def freeBuf (s : State) (i : Nat) : Option Nat :=
  let x := streamOf s i
  let used := x.kept.map (fun f => f.buf) ++ (match x.cur with | some f => [f.buf] | none => [])
  (List.range (stNbuf (stEntry s i))).find? (fun b => !used.contains b)

/-- Frame of a live sensor frame by its first stamp, or by the last firing of its trigger before that stamp. -/
def memberOf (s : State) (i t : Nat) : Word :=
  let e := stEntry s i
  let here := if t < s.sch.t then s.sch.seq - 1 else s.sch.seq
  if stTriggered e then
    (match (s.sens.trigFires.getD (stTrig e) []).find? (fun x => x.1 < t) with
     | some x => x.2
     | none => here)
  else here

/-- A sensor frame is accepted, or accepted and dropped at once. -/
def acceptFrame (s : State) (i : Nat) (seq fseq : Word) (ns sec : Nat) : State :=
  let s := { s with sens := { s.sens with accepted := s.sens.accepted + 1 } }
  let mk (b : Nat) : SFrame :=
    { seq := seq, buf := b, fseq := fseq, ns := ns, sec := sec, lines := 0, pkts := 0, used := 0, closed := false
      delivered := false, claimed := false, raw := [] }
  let away (r : Drop) : State :=
    modStream (dropFrame s i (mk 0) r false) i (fun x => { x with cur := none, disc := some (Discard.mk 0 fseq seq 0 (stEntry s i)) })
  if fseq != s.sch.seq || s.sch.phase == .slack then away (lateReason s fseq)
  else if (streamOf s i).delivered.isSome then away .surplus
  else match freeBuf s i with
    | none => away .noBuffer
    | some b =>
      let s := recStream s 2 i fseq seq ns sec 0 []
      modStream s i (fun x => { x with cur := some (mk b), disc := none })

/-- A live sensor frame takes the stream's next sequence number. -/
def acceptLive (s : State) (i t : Nat) : State :=
  let seq := (streamOf s i).next
  let s := modStream s i (fun x => { x with next := x.next + 1 })
  acceptFrame s i seq (memberOf s i t) (t % 1000000000) (t / 1000000000 % 2 ^ 32)

/-- The last data of the sensor frame in reception has come. -/
def closeFrame (s : State) (i : Nat) : State :=
  match (streamOf s i).cur with
  | none => s
  | some f =>
    let s := recStream s 6 i f.fseq f.seq f.ns f.sec 0 []
    modStream s i (fun x => { x with cur := none, kept := x.kept ++ [{ f with closed := true }] })

/-- Base address of a sensor frame's buffer. -/
def bufAddr (s : State) (i b : Nat) : Nat := stBuf (stEntry s i) + b * stStride (stEntry s i)

/-- Data of a stream's sensor frame is stored: write requests of the source port that carries it (R216, R218). -/
def ingressStore (s : State) (i : Nat) (seq : Word) (src a : Nat) (bs : List Byte) : State :=
  portWrite (store s a bs) src a bs.length (.ingress i seq)

-- Camera ports (R281 to R285, R290)

def portEntry (s : State) (p : Nat) : List Word := (activeSet s).sensor.ports.getD p []

/-- The port receives (R282). -/
def portRx (s : State) (p : Nat) : Bool := spMode s p == 1 && (s.sens.sp.getD p {}).up

/-- The VC slot of a port that a virtual channel names. -/
def vcSlot (s : State) (p vc : Nat) : Option Nat :=
  if vc = fld (portEntry s p) 0 8 5 then some 0 else if vc = fld (portEntry s p) 0 12 9 then some 1 else none

/-- The camera stream of a port's slot. -/
def camStream (s : State) (p slot : Nat) : Option Nat :=
  (List.range 64).find? (fun i => let e := stEntry s i; stValid e && !stEth e && stPort e == p && stSlotNo e == slot)

/-- Instant of a stamp at a camera port (R284). -/
def camStamp (s : State) (p : Nat) : Nat := now s - Config.gearLatency (s.sens.sp.getD p {}).gear

/-- Change the TX ports that forward a slot of a source port, its packets (kind 0) or its replayed lines (kind 1). -/
def modTx (s : State) (p slot kind : Nat) (f : SpPort → SpPort) : State :=
  { s with sens := { s.sens with sp := s.sens.sp.zipIdx.map (fun x =>
      let e := portEntry s x.2
      if spMode s x.2 == 2 && fld e 1 3 0 == p && fld e 1 4 4 == slot && fld e 1 5 5 == kind then f x.1 else x.1) } }

/-- A packet of the slot waits in the TX ports that forward it; a Frame Start (0x00) is where they begin (R285). -/
def forward (s : State) (p slot kind dt : Nat) (pl : List Byte) : State :=
  modTx s p slot kind (fun x =>
    let on := x.fwdOn || dt == 0
    let cut := x.fwdCut && dt != 0
    { x with fwdOn := on, fwdCut := cut, fwdQ := if on && !cut then x.fwdQ ++ [(dt, pl)] else x.fwdQ })

/-- A Frame Start of a camera stream; one before the Frame End drops the sensor frame in reception (R277). -/
def camBegin (s : State) (i : Nat) : State :=
  modStream (dropCur s i .format false) i (fun x => { x with disc := none })

/-- CSI2_FRAME_START (R272, R284). -/
def execCsi2FrameStart (port vc : Nat) (s : State) : Out :=
  .next (if !portRx s port then s else
    match vcSlot s port vc with
    | none => s
    | some sl =>
      let s1 := forward s port sl 0 0x00 []
      match camStream s port sl with
      | none => s1
      | some i => if s.sch.run != .running || underReplay s i then s1
        else acceptLive (camBegin s1 i) i (camStamp s port))

/-- Exposures of a camera stream (R273). -/
def expoOf (s : State) (e : List Word) : Nat := if stIsp e then icExpo (ispCtx s e) else 1

/-- The stamp array of a stream with STAMPS (R283). -/
def lineStamp (s : State) (i : Nat) (f : SFrame) (y t : Nat) : State :=
  let e := stEntry s i
  if stStamps e then
    let a := bufAddr s i f.buf + stLines e * camPitch s e + 8 * y
    ingressStore s i f.seq srcIngress a (wordsBytes [BitVec.ofNat 32 (t % 1000000000), BitVec.ofNat 32 (t / 1000000000)])
  else s

/-- A line joins the ISP's line buffer, 4 bytes a pixel; `lb` is what becomes of the 64-bit word `word` of it (R288, R292). -/
def ispLine (s : State) (i : Nat) (f : SFrame) (vals : List Nat) (lb : Ecc) (word : Nat) : State :=
  let e := stEntry s i
  let n := stIspNo e
  let s := modIsp s n (fun x =>
    { x with busy := true, ctx := stCtx e, pix := (x.pix + stWidth e) % 2 ^ 64
             ce := if lb = .corrected then satAdd 0xFFFF x.ce 1 else x.ce
             uc := if lb = .uncorrectable then satAdd 0xFFFF x.uc 1 else x.uc })
  let s := if lb = .corrected then setSrc s (60 + n) else if lb = .uncorrectable then setSrc s (62 + n) else s
  modStream s i (fun x => { x with cur := some { f with
    lines := f.lines + 1, raw := f.raw ++ [vals], bad := if lb = .uncorrectable then f.bad ++ [(f.lines, word)] else f.bad } })

/-- A line, or an embedded data line, is recorded at the line it has reached in its sensor frame, also in one that is being
discarded (R281, R301, R302). -/
def recLine (s : State) (i dt vc t : Nat) (pl : List Byte) : State :=
  let put (fseq seq : Word) (n : Nat) : State :=
    recStream s (if dt = 0x12 then 4 else 3) i fseq seq (t % 1000000000) (t / 1000000000)
      (n % 65536 + 65536 * dt + 2 ^ 22 * vc) pl
  match (streamOf s i).cur, (streamOf s i).disc with
  | some f, _ => put f.fseq f.seq f.lines
  | none, some d => if stEth d.entry then s else put d.fseq d.seq d.lines
  | none, none => s

/-- One more line of a sensor frame that is being discarded. -/
def discardLine (s : State) (i : Nat) : State :=
  modStream s i (fun x => { x with disc := x.disc.map (fun d => { d with lines := d.lines + 1 }) })

/-- The ISP of a stream is being reset (R429, R483). -/
def ispResetting (s : State) (e : List Word) : Bool := stIsp e && (s.sens.isp.getD (stIspNo e) {}).resetting

/-- A line of the sensor frame in reception (R273, R283). DESIGN CHOICE (log 48): an ISP in reset takes no line, and the sensor
frame is dropped OVERRUN. -/
def lineIn (s : State) (i dt vc t : Nat) (pl : List Byte) (ovr : Bool) (lb : Ecc) (word : Nat := 0) : State :=
  let e := stEntry s i
  let s := recLine s i dt vc t pl
  match (streamOf s i).cur with
  | none => discardLine s i
  | some f =>
    if (ovr && stIsp e) || ispResetting s e then discardLine (dropCur s i .overrun false) i
    else if pl.length != lineBytes dt (stWidth e) || expoOf s e * stLines e ≤ f.lines then
      discardLine (dropCur s i .format false) i
    else
      let vals := lineSamples dt (stWidth e) pl
      if stIsp e then
        let s := if f.lines % expoOf s e = 0 then lineStamp s i f (f.lines / expoOf s e) t else s
        ispLine s i f vals lb word
      else
        let bs := packRow (fmtBits (rawFmt dt)) 64 vals
        let s := ingressStore (lineStamp s i f f.lines t) i f.seq srcIngress (bufAddr s i f.buf + f.lines * camPitch s e) bs
        modStream s i (fun x => { x with cur := some { f with lines := f.lines + 1 } })

/-- A header or line error at a port: counted, source 96, the sensor frame dropped CRC (R277, R305). -/
def lineError (s : State) (p : Nat) (i : Option Nat) : State :=
  let s := setSrc (modSp s p (fun x => { x with crc := satAdd 0xFFFF x.crc 1 })) 96
  match i with
  | some i => if underReplay s i then s else dropCur s i .crc false
  | none => s

/-- A line whose payload has a CRC error: it is recorded, and counted among its sensor frame's lines, which is dropped (R277,
R301, R302, R305). -/
def badLine (s : State) (p i dt vc t : Nat) (pl : List Byte) : State :=
  if underReplay s i then lineError s p (some i) else
  let mine := dt == stDt (stEntry s i)
  let s1 := lineError (if mine || dt = 0x12 then recLine s i dt vc t pl else s) p (some i)
  if mine then discardLine s1 i else s1

/-- CSI2_LINE (R281, R283, R292). -/
def execCsi2Line (port vc dt : Nat) (hdr : HdrEcc) (crcOk : Bool) (payload : List Byte) (ovr : Bool) (lb : Ecc) (s : State)
    (word : Nat := 0) : Out :=
  .next (if !portRx s port then s else
    let i := (vcSlot s port vc).bind (camStream s port)
    let s1 := if hdr = .corrected then modSp s port (fun x => { x with hdrCorr := satAdd 0xFF x.hdrCorr 1 }) else s
    let s1 := match vcSlot s port vc with
      | some sl => if hdr != .bad && (dt = 0x12 || dtBits dt != 0) then forward s1 port sl 0 dt payload else s1
      | none => s1
    if hdr = .bad then settle s (lineError s1 port i)
    else match i with
      | none => if crcOk then s1 else settle s (lineError s1 port none)
      | some i =>
        let t := camStamp s port
        if !crcOk then settle s (badLine s1 port i dt vc t payload)
        else if underReplay s i then s1
        else if dt = 0x12 then recLine s1 i dt vc t payload
        else if dt = stDt (stEntry s i) then settle s (lineIn s1 i dt vc t payload ovr lb word)
        else s1)

/-- The tables of a context's enabled stages that a frame is corrected by: gain grid, curve and NUC table (R288, R289, R291). -/
def ispTables (c : List Word) (dt w h : Nat) : List (Nat × Nat) :=
  if isYuv dt then [] else
    (if icStage c 1 then [(pair48 (wd c 18) (wd c 19), 4 * w * h)] else [])
    ++ (if icStage c 4 then [(pair48 (wd c 14) (wd c 15), 8712)] else [])
    ++ (if icStage c 8 then [(pair48 (wd c 16) (wd c 17), 2050)] else [])

/-- An ISP's rows are written; its tables come through its port, and one that comes poisoned makes every row poisoned: DESIGN
CHOICE, the spec names no consumer's stop for an ISP (log 48). An uncorrectable word of the line buffer, two pixels, poisons the sector that its first pixel's
output begins in (R289, R292). -/
def ispWrite (s : State) (i : Nat) (f : SFrame) (o : Nat → Ecc) : State :=
  let e := stEntry s i
  let c := ispCtx s e
  let w := stWidth e
  let codes := ispRun s c (stDt e) w (stLines e) f.raw
  let bits_ := icCh c * fmtBits (icFmt c)
  let ts := ispTables c (stDt e) w (stLines e)
  let s := ts.foldl (fun s x => portRead s (26 + stIspNo e) x.1 x.2 o) s
  let spoilt := ts.any (fun x => readBad s x.1 x.2 o)
  (List.range (stLines e)).foldl (fun s y =>
    let a := bufAddr s i f.buf + y * camPitch s e
    let bs := packRow (fmtBits (icFmt c)) 64 ((codes.drop (y * w)).take w).flatten
    let s := ingressStore s i f.seq (26 + stIspNo e) a bs
    let s := if spoilt then (unitsOf a bs.length).foldl markUnit s else s
    (f.bad.filter (fun l => l.1 / expoOf s e == y)).foldl (fun s l =>
      markUnit s (unitBase (a + min (2 * l.2) (w - 1) * bits_ / 8))) s) s

/-- The Frame End of a camera stream (R273). -/
def camEnd (s : State) (i : Nat) (o : Nat → Ecc) : State :=
  let e := stEntry s i
  match (streamOf s i).cur with
  | none => modStream s i (fun x => { x with disc := none })
  | some f =>
    if f.lines = expoOf s e * stLines e then
      if stIsp e then ispRest (closeFrame (ispWrite s i f o) i) (stIspNo e) else closeFrame s i
    else modStream (dropCur s i .format false) i (fun x => { x with disc := none })

/-- CSI2_FRAME_END (R273); `ecc` says what becomes of an ISP's reads of some lines of its tables. -/
def execCsi2FrameEnd (port vc : Nat) (s : State) (ecc : List (Nat × Ecc) := []) : Out :=
  .next (if !portRx s port then s else
    match vcSlot s port vc with
    | none => s
    | some sl =>
      let s1 := forward s port sl 0 0x01 []
      match camStream s port sl with
      | none => s1
      | some i => if underReplay s i then s1 else camEnd s1 i (eccFor ecc))

-- Completion (R273, R274)

/-- Writes of a sensor frame's data are outstanding. -/
def writesOut (s : State) (i : Nat) (f : SFrame) : Bool := portOut s (.ingress i f.seq)

/-- Arrival entries that fire: every valid stream of the entry has delivered (R274). -/
def fireArrival (s : State) (a : Nat) : State :=
  let all := (List.range 64).all (fun i =>
    !(stValid (stEntry s i) && stArrival (stEntry s i) == a) || (streamOf s i).delivered.isSome)
  if all then
    let sch : Sched := { s.sch with
      arrived := s.sch.arrived ||| BitVec.ofNat 64 (2 ^ a)
      arrNs := s.sch.arrNs ++ [(a, frameNs s)] }
    { s with sch := sch }
  else s

/-- SENSOR_FRAME_COMPLETE (R273, R274): the first of the stream in the frame is delivered; one that the recording dropped is
not (R303). -/
def execSensorFrameComplete (stream : Nat) (s : State) : Out :=
  .next (match (streamOf s stream).kept.findIdx? (fun f => f.closed && !f.complete && !writesOut s stream f) with
    | none => s
    | some k =>
      let f := (streamOf s stream).kept.getD k default
      let first := (streamOf s stream).delivered.isNone && f.fseq == s.sch.seq && s.sch.run == .running
        && (recordedDrop s stream f.fseq f.seq).isNone
      let s1 := modStream s stream (fun x => { x with
        kept := modAt x.kept k (fun f => { f with complete := true, delivered := first })
        delivered := if first then some f.buf else x.delivered })
      if first then fireArrival s1 (stArrival (stEntry s stream)) else s1)

-- Ethernet ingress (R293 to R296)

def macSec (s : State) (m : Nat) : List Word := (activeSet s).sensor.macs.getD m []
def macFilter (s : State) (m k : Nat) : List Word := ((macSec s m).drop (4 + 4 * k)).take 4

def be (bs : List Byte) (o n : Nat) : Nat := beNat (slice bs o n)

/-- Sum of a byte string's big-endian 16-bit words. -/
def sum16 : List Byte → Nat
  | a :: b :: r => a.toNat * 256 + b.toNat + sum16 r
  | [a] => a.toNat * 256
  | [] => 0

/-- The one's-complement sum of a checked string is −0. -/
def sumOk (bs : List Byte) : Bool := sum16 bs % 65535 == 0

/-- The layer-3 offset, type and VLAN ID of an Ethernet frame. -/
def ethL3 (bs : List Byte) : Nat × Nat × Option Nat :=
  if be bs 12 2 = 0x8100 then (18, be bs 16 2, some (be bs 14 2 % 4096)) else (14, be bs 12 2, none)

/-- Offset of the UDP header, when the frame carries UDP. -/
def udpAt (bs : List Byte) : Option Nat :=
  let l := ethL3 bs
  if l.2.1 = 0x0800 then (if be bs (l.1 + 9) 1 = 17 then some (l.1 + be bs l.1 1 % 16 * 4) else none)
  else if l.2.1 = 0x86DD then (if be bs (l.1 + 6) 1 = 17 then some (l.1 + 40) else none)
  else none

def isV6 (bs : List Byte) : Bool := (ethL3 bs).2.1 == 0x86DD

/-- PTP by EtherType or UDP port (R294). -/
def isPtp (bs : List Byte) : Bool :=
  (ethL3 bs).2.1 == 0x88F7 || (match udpAt bs with | some u => be bs (u + 2) 2 == 319 || be bs (u + 2) 2 == 320 | none => false)

/-- UDP payload. -/
def udpData (bs : List Byte) (u : Nat) : List Byte := slice bs (u + 8) (be bs (u + 4) 2 - 8)

/-- Step 4 of R294. -/
def badHdr (bs : List Byte) : Bool :=
  let o := (ethL3 bs).1
  let frag := be bs (o + 6) 2 % 0x4000 % 0x2000 != 0 || be bs (o + 6) 2 / 0x2000 % 2 == 1
  let udp (u : Nat) (pseudo : List Byte) (v6 : Bool) : Bool :=
    let n := be bs (u + 4) 2
    if be bs (u + 6) 2 = 0 then v6 else !sumOk (pseudo ++ slice bs u n)
  if (ethL3 bs).2.1 = 0x0800 then
    frag || !sumOk (slice bs o (be bs o 1 % 16 * 4)) ||
      (match udpAt bs with
       | some u => udp u (slice bs (o + 12) 8 ++ [0, 17] ++ slice bs (u + 4) 2) false
       | none => false)
  else if isV6 bs then
    (match udpAt bs with
     | some u => udp u (slice bs (o + 8) 32 ++ [0, 0] ++ slice bs (u + 4) 2 ++ [0, 0, 0, 17]) true
     | none => false)
  else false

/-- A filter matches (R293). -/
def filterHit (f : List Word) (bs : List Byte) (u : Nat) : Bool :=
  let l := ethL3 bs
  let src := if isV6 bs then be bs (l.1 + 20) 4 else be bs (l.1 + 12) 4
  bit (wd f 0) 0 && (bit (wd f 0) 1 == isV6 bs)
    && (if bit (wd f 0) 2 then l.2.2 == some (fld f 0 21 10) else l.2.2.isNone)
    && fld f 1 15 0 == be bs (u + 2) 2 && (fld f 1 31 16 == 0 || fld f 1 31 16 == be bs u 2)
    && Nat.land src (wd f 3).toNat == Nat.land (wd f 2).toNat (wd f 3).toNat

/-- The first filter of a MAC that matches a frame. -/
def matchFilter (s : State) (m : Nat) (bs : List Byte) : Option Nat :=
  match udpAt bs with
  | none => none
  | some u => (List.range 16).find? (fun k => filterHit (macFilter s m k) bs u)

/-- Unicast to another station address; the address's first byte is the lowest of its word. -/
def otherStation (s : State) (m : Nat) (bs : List Byte) : Bool :=
  let own := (wordsBytes (((macSec s m).drop 1).take 2)).take 6
  (bs.getD 0 0).toNat % 2 == 0 && bs.take 6 != own

/-- A packet record (R295). -/
def packetRec (t mac filt idx : Nat) (pl : List Byte) : List Byte :=
  let hd := wordsBytes [BitVec.ofNat 32 (t % 1000000000), BitVec.ofNat 32 (t / 1000000000),
    BitVec.ofNat 32 (pl.length % 65536 + 65536 * mac + 2 ^ 19 * filt), BitVec.ofNat 32 idx]
  let n := (16 + pl.length + 63) / 64 * 64
  hd ++ pl ++ List.replicate (n - 16 - pl.length) 0

/-- Bytes of the mirror ring (R355). -/
def mirrorSize : Nat := 0x8_0000

/-- Bytes written to the mirror ring from a write pointer on, wrapping byte by byte (R357). -/
def mirrorPut (m : Mem) (w : Nat) : List Byte → Mem
  | [] => m
  | b :: r => mirrorPut (m.set (0x8_0000 + w % mirrorSize) b) (w + 1) r

/-- The mirror copy of a packet (R296, R357). -/
def mirror (s : State) (mac : Nat) (rec_ : List Byte) : State :=
  if s.hl.wr + rec_.length ≤ s.hl.rd + mirrorSize then
    modEth { s with hl := { s.hl with mem := mirrorPut s.hl.mem s.hl.wr rec_, wr := s.hl.wr + rec_.length } } mac
      (fun x => { x with mirrored := satAdd 0xFFFF x.mirrored 1 })
  else
    let t := leNat ((rec_.drop 4).take 4) * 1000000000 + leNat (rec_.take 4)
    let inWin := s.sch.t ≤ t && t < s.sch.t + ttOutCommit (tide s) && s.sch.run == .running
    modEth { s with hl := { s.hl with gap := s.hl.gap || inWin } } mac (fun x => { x with mdrops := satAdd 0xFFFF x.mdrops 1 })

/-- CLOSE_AT of the frame `fseq` has been reached (R273). -/
def closeReached (s : State) (e : List Word) (fseq : Word) (t : Nat) : Bool :=
  fseq != s.sch.seq || s.sch.t + bits (stCloseArg e) 26 0 ≤ t

/-- The close condition that the `n`-th packet of a sensor frame meets (R273). -/
def closes (s : State) (e : List Word) (fseq : Word) (n t : Nat) (pl : List Byte) : Bool :=
  let a := stCloseArg e
  if stClose e = 0 then stWidth e ≤ n
  else if stClose e = 1 then bits a 15 0 < pl.length && Nat.land (byteAt pl (bits a 15 0)) (bits a 23 16) == bits a 31 24
  else closeReached s e fseq t

/-- A packet of a sensor frame being discarded, by the close condition that it had (R277). -/
def discardPacket (s : State) (i t : Nat) (pl : List Byte) : State :=
  match (streamOf s i).disc with
  | none => s
  | some d => modStream s i (fun x => { x with
      disc := if closes s d.entry d.fseq (d.pkts + 1) t pl then none else some { d with pkts := d.pkts + 1 } })

/-- A packet of the sensor frame in reception is stored (R295). -/
def storePacket (s : State) (i t mac filt : Nat) (pl : List Byte) : State :=
  let e := stEntry s i
  match (streamOf s i).cur with
  | none => s
  | some f =>
    let r := packetRec t mac filt f.pkts pl
    if stLines e < f.pkts + 1 || stStride e < f.used + r.length then discardPacket (dropCur s i .overrun false) i t pl
    else
      let s := ingressStore s i f.seq srcIngress (bufAddr s i f.buf + f.used) r
      let s := modStream s i (fun x => { x with cur := some { f with pkts := f.pkts + 1, used := f.used + r.length } })
      if closes s e f.fseq (f.pkts + 1) t pl then closeFrame s i else s

/-- What TIME has closed by a packet's stamp is closed before the packet (R273). -/
def timeDue (s : State) (i t : Nat) : State :=
  let e := stEntry s i
  let s := match (streamOf s i).cur with
    | some f => if stClose e == 2 && 1 ≤ f.pkts && closeReached s e f.fseq t then closeFrame s i else s
    | none => s
  modStream s i (fun x => { x with disc := match x.disc with
    | some d => if !stEth d.entry || (stClose d.entry == 2 && closeReached s d.entry d.fseq t) then none else some d
    | none => none })

/-- A packet reaches its stream (R272, R294). -/
def packetIn (s : State) (i t mac filt : Nat) (pl frame : List Byte) : State :=
  let s := timeDue s i t
  let s := if (streamOf s i).cur.isNone && (streamOf s i).disc.isNone then acceptLive s i t else s
  let aux := mac + 8 * filt
  match (streamOf s i).cur, (streamOf s i).disc with
  | some f, _ => storePacket (recStream s 5 i f.fseq f.seq (t % 1000000000) (t / 1000000000) aux frame) i t mac filt pl
  | none, some d => discardPacket (recStream s 5 i d.fseq d.seq (t % 1000000000) (t / 1000000000) aux frame) i t pl
  | none, none => s

/-- The index that the next packet of a stream has in its sensor frame. -/
def nextIndex (s : State) (i : Nat) : Nat :=
  match (streamOf s i).cur, (streamOf s i).disc with
  | some f, _ => f.pkts
  | none, some d => d.pkts
  | none, none => 0

/-- Steps 5 and 6 of R294: filters, mirror, stream. -/
def ethMatched (s : State) (m k : Nat) (bs : List Byte) : State :=
  let f := macFilter s m k
  let i := fld f 0 9 4
  let pl := match udpAt bs with | some u => udpData bs u | none => []
  let t := (ingress s m).toNat
  if underReplay s i then s else
  let s := if bit (wd f 0) 3 then mirror s m (packetRec t m k (nextIndex (timeDue s i t) i) pl) else s
  if s.sch.run == .running && stValid (stEntry s i) then packetIn s i t m k pl bs else s

/-- A bad FCS within a sensor frame drops it (R277). -/
def badFcs (s : State) (m : Nat) (bs : List Byte) : State :=
  let s := setSrc (modEth s m (fun x => { x with fcs := satAdd 0xFFFF x.fcs 1 })) 98
  match matchFilter s m bs with
  | some k =>
    let i := fld (macFilter s m k) 0 9 4
    if underReplay s i then s else dropCur s i .crc false
  | none => s

/-- ETH_TIME_CLOSE (R273): CLOSE_AT of the current frame is reached. -/
def execEthTimeClose (stream : Nat) (s : State) : Out :=
  let e := stEntry s stream
  .next (if s.sch.run == .running && stValid e && stEth e && stClose e == 2 then
    let t := s.sch.t + bits (stCloseArg e) 26 0
    timeDue (passTo s t) stream t
  else s)

-- Links and camera control (R285, R286, R305)

/-- Streams of a port or MAC whose sensor frame in reception is lost with the link. -/
def loseLink (s : State) (eth : Bool) (p : Nat) : State :=
  ((List.range 64).filter (fun i => let e := stEntry s i; stValid e && stEth e == eth && stPort e == p)).foldl
    (fun s i => if underReplay s i then s else dropCur s i .linkLoss false) s

/-- SP_LINK_CHANGE (R305, R412). -/
def execSpLinkChange (port : Nat) (up : Bool) (gear : Nat) (s : State) : Out :=
  let x := s.sens.sp.getD port {}
  .next (if up then (if s.warm then s else modSp s port (fun x => { x with up := true, gear := gear, seen := true }))
    else if !x.up then s
    else
      let s1 := modSp s port (fun x => { x with up := false, gear := 0, loss := satAdd 0xFF x.loss 1 })
      settle s (levelSources (loseLink s1 false port)))

/-- An Ethernet link goes down (R305). -/
def ethDown (s : State) (m : Nat) : State :=
  if (s.sens.eth.getD m {}).up then
    loseLink (modEth s m (fun x => { x with up := false, loss := satAdd 0xFF x.loss 1 })) true m
  else s

/-- ETH_LINK_CHANGE (R305, R343, R525). DEDUCED (log 48): a link that comes up shows that REFCLK_ETH is there. -/
def execEthLinkChange (mac : Nat) (up : Bool) (s : State) : Out :=
  .next (if up then (if s.warm then s else
      modEth { s with pins := { s.pins with refEth := true } } mac (fun x => { x with up := true, seen := true }))
    else settle s (levelSources (ethDown s mac)))

/-- REFCLK_ETH_LOSS (R525): every Ethernet link goes down; source 99 sets as a level source. -/
def execRefclkEthLoss (s : State) : Out :=
  .next (settle s (levelSources
    ((List.range 8).foldl ethDown { s with pins := { s.pins with refEth := false } })))

/-- The packets of the next sensor frame, from its Frame Start on. -/
def nextFrame (q : List (Nat × List Byte)) : List (Nat × List Byte) := q.dropWhile (fun x => x.1 != 0)

/-- TX_FORWARD_PACKET (R285): the oldest packet that waits leaves, its virtual channel TX_VC, its data type and payload as
they came (a packet that is not the oldest is not sent, log 4); a sensor frame that does not fit, or meets a link that is
down, is not sent from there on. -/
def execTxForwardPacket (port : Nat) (dt : Nat) (fits : Bool) (payload : List Byte) (s : State) : Out :=
  let x := s.sens.sp.getD port {}
  .next (match x.fwdQ with
    | [] => s
    | p :: r =>
      if spMode s port != 2 || p != (dt, payload) then s
      else if fits && x.up then
        let s1 := modSp s port (fun x => { x with fwdQ := r })
        { s1 with out := { s1.out with
            forwarded := [BitVec.ofNat 8 (fld (portEntry s port) 1 9 6), BitVec.ofNat 8 dt] ++ payload } }
      else
        let q := nextFrame r
        modSp s port (fun x => { x with fwdQ := q, fwdCut := q.isEmpty, fwdDrops := satAdd 0xFFFF x.fwdDrops 1 }))

/-- Bytes 0 to 15 of the mailbox's data registers. -/
def cciBytes (x : SpPort) : List Byte := wordsBytes x.data

/-- A write of SP.CCI_CTRL (R286, R308): dropped while GO is pending; GO starts the transaction, or, with the link
down, ends it at once with TIMEOUT. -/
def writeCci (s : State) (p : Nat) (w : Word) : State :=
  let x := s.sens.sp.getD p {}
  if x.go then s else
  let s := modSp s p (fun x => { x with dev := bits w 6 0, wlen := bits w 12 8, rlen := bits w 17 13 })
  if !bit w 24 then s
  else if !x.up then modSp s p (fun x => { x with done := true, nack := false, timeout := true })
  else { modSp s p (fun x => { x with go := true, done := false, nack := false, timeout := false }) with
    out := { s.out with cci := BitVec.ofNat 8 (bits w 6 0) :: (cciBytes x).take (bits w 12 8) } }

/-- CCI_DONE (R286): a read's bytes replace the data registers from byte 0. -/
def execCciDone (port : Nat) (nack : Bool) (bytes : List Byte) (s : State) : Out :=
  .next (if (s.sens.sp.getD port {}).go then
    modSp s port (fun x =>
      let n := if nack then 0 else min x.rlen (min 16 bytes.length)
      { x with go := false, done := true, nack := nack
               data := bytesWords (bytes.take n ++ (cciBytes x).drop n) })
  else s)

/-- CCI_TIMEOUT (R286). -/
def execCciTimeout (port : Nat) (s : State) : Out :=
  .next (if (s.sens.sp.getD port {}).go then
    modSp s port (fun x => { x with go := false, done := true, timeout := true }) else s)

end Sys2Proof.Machine
end

