-- ==== Sys2Proof/Machine/Replay.lean ====
section
/-! DEFINITION. Record and replay (R301 to R303). -/

namespace Sys2Proof.Machine

/-- The first parameter word at fault of RECORD_CTL START and REPLAY_CTL START, taken alone (R301, R466). -/
def regionBad (k : Pkt) : Option Nat :=
  if (wd k.params 0).toNat % 64 != 0 then some 2
  else if fld k.params 1 31 16 != 0 then some 3
  else if (wd k.params 2).toNat % 64 != 0 then some 4
  else if fld k.params 3 31 16 != 0 then some 5
  else none

def regionBase (k : Pkt) : Nat := pair48 (wd k.params 0) (wd k.params 1)
def regionLen (k : Pkt) : Nat := pair48 (wd k.params 2) (wd k.params 3)
def regionMask (k : Pkt) : BitVec 64 := wd k.params 5 ++ wd k.params 4

/-- RECORD_CTL START (R301): recording begins at the next frame start. While control pair B is stopped, record and replay
control take no START and no STOP (R412). DESIGN CHOICE (log 48): they reply NOT_READY. -/
def doRecordStart (k : Pkt) (s : State) : Ans :=
  match regionBad k with
  | some i => badWord s i
  | none =>
    if s.sens.recorder.state = 1 then refuse s .wrongState []
    else if s.rst.pairB then refuse s .notReady []
    else if !inDram s (regionBase k) (regionLen k) || hits (fwRegions s) (regionBase k) (regionLen k) then badWord s 2
    else ({ s with sens := { s.sens with recorder :=
        { state := 1, base := regionBase k, len := regionLen k, mask := regionMask k, armed := true } } }, some (.ok, []))

def execRecordCtlStart (k : Pkt) (s : State) : Out := .next (command 0x78 0 k (doRecordStart k) s)

/-- RECORD_CTL STOP (R301): at the end of the current frame; with no frame running, at once. -/
def doRecordStop (_k : Pkt) (s : State) : Ans :=
  let r := s.sens.recorder
  if s.rst.pairB then refuse s .notReady []
  else if r.state != 1 then refuse s .alreadyDone []
  else if s.sch.run == .running then
    ({ s with sens := { s.sens with recorder := { r with stopping := true } } }, some (.ok, []))
  else ({ s with sens := { s.sens with recorder := { r with state := 0, armed := false, stopping := false } } }, some (.ok, []))

def execRecordCtlStop (k : Pkt) (s : State) : Out := .next (command 0x78 1 k (doRecordStop k) s)

/-- RECORD_CTL QUERY (R466). -/
def doRecordQuery (_k : Pkt) (s : State) : Ans :=
  let r := s.sens.recorder
  (s, some (.ok, [BitVec.ofNat 32 r.state, addrLo r.written, BitVec.ofNat 32 (r.written / 2 ^ 32), BitVec.ofNat 32 r.lost]))

def execRecordCtlQuery (k : Pkt) (s : State) : Out := .next (command 0x78 2 k (doRecordQuery k) s)

/-- A recording that was to stop at the end of the frame stops. -/
def recordEnd (s : State) : State :=
  let r := s.sens.recorder
  if r.stopping then
    { s with sens := { s.sens with recorder := { r with state := 0, armed := false, stopping := false } } }
  else s

/-- Recording at a frame start: it begins or ends, and the frame is marked (R301, R302). -/
def recordFrame (s : State) : State :=
  let s := recordEnd s
  let s := { s with sens := { s.sens with recorder := { s.sens.recorder with armed := false } } }
  putRec s 1 0 s.sch.seq 0 (s.sch.t % 1000000000) (s.sch.t / 1000000000) (ttPeriod (tide s)) []

-- Replay

/-- A record as it lies in memory: its eight words, its payload, whether its CRC holds. -/
structure RecIn where
  hd : List Word
  pl : List Byte
  ok : Bool

def recAt (s : State) (a : Nat) : RecIn :=
  let hd := s.mem.words a 8
  let pl := s.mem.read (a + 32) (wd hd 1).toNat
  RecIn.mk hd pl (crc32c (wordsBytes (hd.take 7) ++ pl) == wd hd 7)

/-- Streams that records of a region name, fuelled by its length. -/
def recStreams (s : State) : Nat → Nat → Nat → BitVec 64 → BitVec 64
  | 0, _, _, m => m
  | n + 1, a, e, m =>
    let hd := s.mem.words a 8
    if e < a + 32 || e < a + recSize hd || fld hd 0 7 0 = 0 then m
    else recStreams s n (a + recSize hd) e (if fld hd 0 7 0 = 1 then m else m ||| BitVec.ofNat 64 (2 ^ fld hd 0 13 8))

/-- Control pair B reads `n` bytes at `a` as `o` says; what comes poisoned stops it (R216, R220, R225, R226, R390). -/
def pairBRead (s : State) (a n : Nat) (o : Nat → Ecc) (f : State → State) : State :=
  let s1 := portRead s srcPairB a n o
  if readBad s1 a n o then stopPairB s1 else f s1

/-- REPLAY_CTL START (R303, R390). `ecc` says what becomes of the reads of some lines. -/
def doReplayStart (k : Pkt) (s : State) (ecc : List (Nat × Ecc) := []) : Ans :=
  match regionBad k with
  | some i => badWord s i
  | none =>
    if !(s.sch.run == .idle || s.sch.run == .armed) then refuse s .wrongState []
    else if s.rst.pairB then refuse s .notReady []
    else if !inDram s (regionBase k) (regionLen k) then badWord s 2
    else
      let s := portRead s srcPairB (regionBase k) (regionLen k) (eccFor ecc)
      if readBad s (regionBase k) (regionLen k) (eccFor ecc) then (stopPairB s, none) else
      let have_ := recStreams s (regionLen k / 32) (regionBase k) (regionBase k + regionLen k) 0
      let extra := regionMask k &&& ~~~have_
      if extra.extractLsb' 0 32 != 0 then badWord s 6
      else if extra != 0 then badWord s 7
      else ({ s with sens := { s.sens with replayer :=
          { state := 1, base := regionBase k, len := regionLen k, mask := regionMask k } } }, some (.ok, []))

def execReplayCtlStart (k : Pkt) (s : State) (ecc : List (Nat × Ecc) := []) : Out :=
  .next (command 0x79 0 k (fun s => doReplayStart k s ecc) s)

/-- REPLAY_CTL STOP (R466): live input is accepted again from the next frame start. -/
def doReplayStop (_k : Pkt) (s : State) : Ans :=
  let r := s.sens.replayer
  if s.rst.pairB then refuse s .notReady []
  else if r.state != 1 then refuse s .alreadyDone []
  else if s.sch.run == .running then
    ({ s with sens := { s.sens with replayer := { r with stopping := true } } }, some (.ok, []))
  else ({ s with sens := { s.sens with replayer := { r with state := 0, stopping := false } } }, some (.ok, []))

def execReplayCtlStop (k : Pkt) (s : State) : Out := .next (command 0x79 1 k (doReplayStop k) s)

/-- REPLAY_CTL QUERY (R466). -/
def doReplayQuery (_k : Pkt) (s : State) : Ans :=
  let r := s.sens.replayer
  (s, some (.ok, [BitVec.ofNat 32 r.state, BitVec.ofNat 32 r.frames, BitVec.ofNat 32 r.diverged]))

def execReplayCtlQuery (k : Pkt) (s : State) : Out := .next (command 0x79 2 k (doReplayQuery k) s)

/-- The offset of the next FRAME_MARK at or after an offset, fuelled by the region's records. -/
def nextMark (s : State) : Nat → Nat → Option Nat
  | 0, _ => none
  | n + 1, o =>
    let r := s.sens.replayer
    let hd := s.mem.words (r.base + o) 8
    if r.len < o + 32 || r.len < o + recSize hd then none
    else if fld hd 0 7 0 = 1 then some o
    else nextMark s n (o + recSize hd)

/-- A recorded stamp as one count of nanoseconds. -/
def recNs (hd : List Word) : Nat := (wd hd 5).toNat * 1000000000 + (wd hd 4).toNat

/-- Replay at a frame start: the recording's next FRAME_MARK maps to this frame, the first fixes the shift D; without
one the replay is done (R303). -/
def replayFrame (s : State) : State :=
  let r := s.sens.replayer
  let put (x : Replayer) : State := { s with sens := { s.sens with replayer := x } }
  if r.state != 1 then s
  else if r.stopping then put { r with state := 0, stopping := false }
  else match nextMark s (r.len / 32 + 1) r.pos with
    | none => put { r with state := 2, inFrame := false }
    | some o =>
      let x := recAt s (r.base + o)
      if !x.ok then put { r with state := 3, inFrame := false }
      else put { r with pos := o + 32, frames := r.frames + 1, mark := wd x.hd 2, inFrame := true
                        shift := some (r.shift.getD ((s.sch.t : Int) - (recNs x.hd : Int))) }

/-- A recorded packet enters its stream, and is mirrored by the filter at its recorded index. -/
def injectPacket (s : State) (i t aux : Nat) (frame : List Byte) : State :=
  let mac := aux % 8
  let k := aux / 8 % 16
  let pl := match udpAt frame with | some u => udpData frame u | none => []
  let s := if bit (wd (macFilter s mac k) 0) 3 then mirror s mac (packetRec t mac k (nextIndex s i) pl) else s
  match (streamOf s i).cur with
  | some f => storePacket (recStream s 5 i f.fseq f.seq (t % 1000000000) (t / 1000000000) aux frame) i t mac k pl
  | none => match (streamOf s i).disc with
    | some d => discardPacket (recStream s 5 i d.fseq d.seq (t % 1000000000) (t / 1000000000) aux frame) i t pl
    | none => s

/-- A recorded drop is reproduced with its reason: of the sensor frame in reception or received, or of one that was dropped
at its acceptance; one that the replay has dropped already is not dropped again. -/
def injectDrop (s : State) (i : Nat) (seq fseq : Word) (t : Nat) (r : Drop) : State :=
  let mine (f : SFrame) : Bool := f.seq == seq && f.fseq == fseq
  if (streamOf s i).cur.any mine then dropCur s i r true
  else if (streamOf s i).kept.any mine then
    modStream (((streamOf s i).kept.filter mine).foldl (fun s f => dropFrame s i f r true) s) i
      (fun x => { x with kept := x.kept.filter (fun f => !mine f) })
  else if recordedStart s i fseq seq then s
  else
    let f : SFrame := { seq := seq, buf := 0, fseq := fseq, ns := t % 1000000000, sec := t / 1000000000 % 2 ^ 32, lines := 0
                        pkts := 0, used := 0, closed := false, delivered := false, claimed := false, raw := [] }
    let s := { s with sens := { s.sens with accepted := s.sens.accepted + 1 } }
    modStream (dropFrame s i f r true) i (fun x => { x with disc := some (Discard.mk 0 fseq seq 0 (stEntry s i)) })

/-- A replayed line goes to the TX ports that forward it, and to its stream (R285, R303). -/
def injectLine (s : State) (i dt vc t : Nat) (pl : List Byte) : State :=
  let s := forward s (stPort (stEntry s i)) (stSlotNo (stEntry s i)) 1 dt pl
  if dt = 0x12 then recLine s i dt vc t pl else lineIn s i dt vc t pl false .asStored

/-- One record of a masked stream. -/
def inject (s : State) (x : RecIn) (o : Nat → Ecc) : State :=
  let r := s.sens.replayer
  let i := fld x.hd 0 13 8
  let e := stEntry s i
  let aux := wd x.hd 6
  let fseq := s.sch.seq + (wd x.hd 2 - r.mark)
  let t := ((recNs x.hd : Int) + r.shift.getD 0).toNat
  let typ := fld x.hd 0 7 0
  if !stValid e then s
  else if typ = 2 then
    let s := if stEth e then closeFrame s i else camBegin (forward s (stPort e) (stSlotNo e) 1 0x00 []) i
    let s := modStream s i (fun y => { y with disc := none })
    acceptFrame s i (wd x.hd 3) fseq (t % 1000000000) (t / 1000000000 % 2 ^ 32)
  else if (typ = 3 || typ = 4) && !stEth e then injectLine s i (bits aux 21 16) (bits aux 25 22) t x.pl
  else if typ = 5 && stEth e then injectPacket s i t aux.toNat x.pl
  else if typ = 6 then
    (if stEth e then closeFrame s i else camEnd (forward s (stPort e) (stSlotNo e) 1 0x01 []) i o)
  else if typ = 7 then injectDrop s i (wd x.hd 3) fseq t (dropOf aux.toNat)
  else s

/-- REPLAY_INJECT (R303, R390): the next record of the frame; a bad CRC stops the replay in state ERROR, poison control pair
B. `ecc` says what becomes of the reads of some lines. -/
def execReplayInject (s : State) (ecc : List (Nat × Ecc) := []) : Out :=
  let r := s.sens.replayer
  .next (if r.state != 1 || !r.inFrame || s.sch.run != .running || r.len < r.pos + 32 then s else
    let x := recAt s (r.base + r.pos)
    if r.len < r.pos + recSize x.hd then s
    else settle s (pairBRead s (r.base + r.pos) (recSize x.hd) (eccFor ecc) fun s =>
      if !x.ok then { s with sens := { s.sens with replayer := { r with state := 3, inFrame := false } } }
      else if fld x.hd 0 7 0 = 1 then s
      else
        let s1 := { s with sens := { s.sens with replayer := { r with pos := r.pos + recSize x.hd } } }
        if r.mask.getLsbD (fld x.hd 0 13 8) then inject s1 x (eccFor ecc) else s1))

end Sys2Proof.Machine
end

