-- ==== Sys2Proof/Machine/Memory.lean ====
section
/-! DEFINITION. The drift ring, fabric responses, credit checks, scrub passes, and the host's accesses through BAR2, BAR4
and unassigned BAR0 offsets (R213 to R255, R470 to R477, R482, R488, R492). -/

namespace Sys2Proof.Machine

-- Reads and writes of units

/-- The runs of consecutive bytes that `keep` lets through. -/
def runsKept (keep : Nat → Bool) : Nat → List Byte → List (Nat × List Byte)
  | _, [] => []
  | a, b :: r =>
    let t := runsKept keep (a + 1) r
    if keep a then
      match t with
      | (x, bs) :: u => if x = a + 1 then (a, b :: bs) :: u else (a, [b]) :: (x, bs) :: u
      | [] => [(a, [b])]
    else t

/-- Bytes move to another place of memory; the source stays. -/
def copyRegion (m : Mem) (src dst n : Nat) : Mem :=
  (m.filter (fun c => decide (src ≤ c.1) && decide (c.1 < src + n))).foldl (fun m c => m.set (c.1 - src + dst) c.2)
    (m.filter (fun c => !(decide (dst ≤ c.1) && decide (c.1 < dst + n))))

/-- One write request of the host: a sector or line partly overwritten is read, merged and written back, and stays poisoned if
it was, or if its read fails (R213, R227, R234); whether one that times out is written is a free value (R219). -/
def mergeReq (o : Nat → Ecc) (s : State) (x : Nat × List Byte) : State :=
  let a := x.1
  let n := x.2.length
  let part (u : Nat) : Bool := !isCsram a && !(decide (a ≤ u) && decide (u + unitSize u ≤ a + n))
  let parts := (unitsOf a n).filter part
  let late := (unitsOf a n).any (fun u => o u == .timedOut)
  let s1 := passReq s srcPcie a
  let s2 := if late then passTimeout { s1 with free := s1.free + 1 } srcPcie true a n
    else parts.foldl (fun s u => eccRead s u (o u)) s1
  if late && !bit (Config.freeWord s1.free) 0 then s2 else
  (parts.filter (fun u => s2.poison.contains u || (!late && o u == .linkFailed && isDram s u))).foldl markUnit
    (store s2 a x.2)

/-- A write of the host in requests of at most 64 bytes; `ecc` gives what becomes of each sector or line in turn (R216). -/
def mergeStore (s : State) (a : Nat) (bs : List Byte) (ecc : List Ecc) : State :=
  ((reqsOf a bs.length).map (fun x => (x.1, slice bs (x.1 - a) x.2))).foldl
    (mergeReq (eccAt (unitsOf a bs.length) ecc)) s

-- The host's accesses

/-- Accesses of the host reach the device (R417, R470, R491, R526, R542). -/
def hostUp (s : State) : Bool :=
  s.pcie.up && !s.pcie.perst && s.boot != .off && s.boot != .held && !s.pcie.d3hot && !s.pins.thermtrip

/-- BAR2 and BAR4 are served (R482, R492). -/
def memServed (s : State) : Bool := hostUp s && !s.warm && (s.boot == .rom || s.boot == .firmware) && !s.pins.clocksOff

def countInReset (s : State) : State := { s with glb := { s.glb with inReset := satAdd 0xFF s.glb.inReset 1 } }
def countOutside (s : State) : State := { s with pcie := { s.pcie with outside := satAdd 0xFFFF s.pcie.outside 1 } }

/-- Device physical address of a BAR2 offset (R472). -/
def bar2Addr (o : Nat) : Option Nat :=
  if o < 0x600_0000 then some o else if o < 0x640_0000 then some (0x800_0000 + (o - 0x600_0000)) else none

/-- CSRAM regions that the host may not write (R177, R367, R423). -/
def csProtected (a : Nat) : Bool :=
  (0x800_0000 ≤ a && a < 0x830_0000) || (0x830_0000 ≤ a && a < 0x838_0000) || (0x83F_0000 ≤ a && a < 0x83F_9000)

/-- Runs of bytes in turn; the outcomes go to their sectors and lines in order. -/
def storeRuns (s : State) : List (Nat × List Byte) → List Ecc → State
  | [], _ => s
  | x :: r, ecc => storeRuns (mergeStore s x.1 x.2 ecc) r (ecc.drop (unitsOf x.1 x.2.length).length)

/-- A write of bytes through BAR2 (R213, R215, R472). -/
def bar2Store (s : State) (off : Nat) (bs : List Byte) (ecc : List Ecc) : State :=
  let at_ (i : Nat) : Option Nat := bar2Addr (off + i)
  let idx := List.range bs.length
  let hit (p : Nat → Bool) : Bool := idx.any (fun i => match at_ i with | some a => p a | none => false)
  let noLedge := s.sch.run != .idle
  let s1 := if idx.any (fun i => (at_ i).isNone) then countOutside s else s
  let s2 := if noLedge && hit isLedge then
      { s1 with pcie := { s1.pcie with ledgeDrop := satAdd 0xFFFF s1.pcie.ledgeDrop 1 } } else s1
  let s3 := if hit csProtected then
      { s2 with pcie := { s2.pcie with protDrop := satAdd 0xFFFF s2.pcie.protDrop 1 } } else s2
  let keep (o : Nat) : Bool := match bar2Addr o with
    | some a => !(noLedge && isLedge a) && !csProtected a
    | none => false
  storeRuns s3 ((runsKept keep off bs).map (fun x => ((bar2Addr x.1).getD 0, x.2))) ecc

/-- BAR2_WRITE (R213, R215, R234, R470 to R472, R482). -/
def execBar2Write (off : Nat) (bytes : List Byte) (ecc : List Ecc) (s : State) : Out :=
  .next (if bytes.isEmpty || !hostUp s then s
    else if memServed s then settle s (bar2Store s off bytes ecc) else countInReset s)

/-- DRAM that the host may not write: firmware images, objects under verification or verified, test packs (R386, R501). -/
def dramProtected (s : State) : List (Nat × Nat) :=
  let sl (x : Slot) : List (Nat × Nat) := if x.prot then slotRegions x else []
  let pk (p : Pack) : List (Nat × Nat) := [(p.addr, p.len)]
  s.sec.fwProt ++ sl s.sets.slot0 ++ sl s.sets.slot1 ++ pk s.saf.pack
    ++ (match s.saf.packNext with | some p => pk p | none => [])
    ++ (match s.saf.packLoad with | some p => [(p.2.1, p.2.2)] | none => [])

/-- A write of bytes through BAR4 (R227, R473, R501). -/
def bar4Store (s : State) (off : Nat) (bs : List Byte) (ecc : List Ecc) : State :=
  let a := s.pcie.apBase + off
  let s1 := if inDram s a bs.length then s else countOutside s
  let prot := dramProtected s
  let s2 := if hits prot a bs.length then { s1 with sec := { s1.sec with bar4 := satAdd 0xFFFF s1.sec.bar4 1 } } else s1
  storeRuns s2 (runsKept (fun x => isDram s x && !hits prot x 1) a bs) ecc

/-- BAR4_WRITE (R227, R234, R473, R482, R501). -/
def execBar4Write (off : Nat) (bytes : List Byte) (ecc : List Ecc) (s : State) : Out :=
  .next (if bytes.isEmpty || !hostUp s then s
    else if memServed s then settle s (bar4Store s off bytes ecc) else countInReset s)

/-- The poison of the sector that holds an address, as a host read meets it (R229, R235). -/
def sectorBad (s : State) (a : Nat) : Bool :=
  if isCsram a then s.csramBad.any (fun b => b / 32 == a / 32) else s.poison.contains (unitBase a)

/-- The requests of a read that names these addresses: those in one 64-byte block, by the first and their number (R216). -/
def hostReqs (as : List Nat) : List (Nat × Nat) :=
  ((as.map (· / 64)).eraseDups).map (fun b =>
    let ys := as.filter (fun a => a / 64 == b)
    (ys.headD 0, ys.length))

/-- A lost protection unit lies in the sector that holds an address. -/
def sectorLost (lost : List Nat) (a : Nat) : Bool :=
  lost.any (fun u => if isCsram u then u / 32 == a / 32 else u == unitBase a)

/-- The bytes that a host read returns: 0xFF in poisoned sectors, 0 where there is no memory. -/
def hostByte (s : State) (lost : List Nat) (a : Option Nat) : Byte :=
  match a with
  | none => 0
  | some a => if sectorBad s a || sectorLost lost a then 0xFF else s.mem.get a

/-- A host read of `n` bytes whose targets `at_` gives, in requests of at most 64 bytes; `ecc` gives what becomes of each
protection unit in turn (R216, R219, R225, R226, R229, R235). -/
def hostRead (s : State) (n : Nat) (at_ : Nat → Option Nat) (ecc : List Ecc) : State :=
  let as := (List.range n).map at_
  let rs := hostReqs (as.filterMap id)
  let o := eccAt (rs.flatMap (fun x => protOf x.1 x.2)) ecc
  let s1 := if as.any (fun x => x.isNone) then countOutside s else s
  let s3 := rs.foldl (fun s x => portRead s srcPcie x.1 x.2 o) s1
  let lost := rs.flatMap (fun x => lostUnits s3 x.1 x.2 o)
  { s3 with out := { s3.out with
      rbytes := as.map (hostByte s3 lost)
      rpoison := as.any (fun x => match x with | some a => sectorBad s3 a || sectorLost lost a | none => false) } }

/-- BAR_MEMORY_READ (R235, R470, R472, R473, R482). -/
def execBarMemoryRead (bar4 : Bool) (off len : Nat) (ecc : List Ecc) (s : State) : Out :=
  .next (if !hostUp s then s
    else if !memServed s then { s with out := { s.out with rbytes := List.replicate len 0, rpoison := false } }
    else settle s (if bar4 then
        hostRead s len (fun i => if isDram s (s.pcie.apBase + off + i) then some (s.pcie.apBase + off + i) else none) ecc
      else hostRead s len (fun i => bar2Addr (off + i)) ecc))

/-- A write of PCIE.DRAM_APERTURE_HI (R479, R488): the held base is applied, or the write is refused. -/
def writeApHi (s : State) (w : Word) : State :=
  let b := bits w 15 0 * 2 ^ 32 + s.pcie.apHeld
  if isDram s b then { s with pcie := { s.pcie with apBase := b } }
  else { s with pcie := { s.pcie with badBase := satAdd 0xFFFF s.pcie.badBase 1 } }

/-- DRAM_APERTURE_HI_WRITE (R479, R488): the PCIE block is accessible throughout (R482, R492). -/
def execDramApertureHiWrite (w : Word) (s : State) : Out := .next (if hostUp s then writeApHi s w else s)

/-- BAR0 offsets in no block (R477). -/
def unassigned (f : Nat) : Bool :=
  (0x0B_0000 ≤ f && f < 0x10_0000) || (0x2C_0000 ≤ f && f < 0x30_0000) || (0x49_0000 ≤ f && f < 0x80_0000)
  || (0x81_0000 ≤ f && f < 0x100_0000)

/-- Writes to the reply buffer (R476). -/
def replyWindow (f : Nat) : Bool := 0x80_0000 ≤ f && f < 0x81_0000 && f / 0x1000 % 2 == 1

/-- An access that reaches nothing is counted and its offset kept (R476, R477, R485). -/
def countUnassigned (s : State) (f : Nat) (write : Bool) : State :=
  { s with glb := { s.glb with unassigned := satAdd 0xFF s.glb.unassigned 1, errAddr := f, errWrite := write } }

/-- BAR0_UNASSIGNED_ACCESS (R476, R477): reads return 0, writes are dropped. -/
def execBar0UnassignedAccess (off : Nat) (write : Bool) (s : State) : Out :=
  .next (if !hostUp s || !(unassigned off || (write && replyWindow off)) then s else
    let s1 := countUnassigned s off write
    if write then s1 else { s1 with out := { s1.out with rdata := [0] } })

-- The fabric (R218 to R222)

def reqOf (s : State) (id : Nat) : Option Req := s.ms.reqs.find? (fun r => r.id == id)
def dropReq (s : State) (id : Nat) : State :=
  { s with ms := { s.ms with reqs := s.ms.reqs.filter (fun r => r.id != id) } }

-- Rows that land from Mapin (R218, R219, R334)

/-- A frame joins those that wait. -/
def queueFrame (s : State) (typ : MType) (dst : BitVec 16) (reqId arg : Word) (payload : List Byte) : State :=
  { s with map := { s.map with
      waitQ := s.map.waitQ ++ [{ typ := typ, dst := dst, lseq := 0, reqId := reqId, arg := arg, payload := payload }] } }

/-- The tensor of a plan that holds an address. -/
def tensorAt (p : Plan) (a : Nat) : Option (List Word) :=
  p.tensors.find? (fun t => refBase t ≤ a && a < refBase t + refSpan t)

/-- Rows written at addresses of a tensor stand. -/
def standAt (s : State) (owner : Word) (p : Plan) (as : List Nat) : State :=
  as.foldl (fun s a => match tensorAt p a with
    | some t => standRows s owner [a] t
    | none => s) s

/-- The rows that landed belong to what still runs: a job, or the frame whose counters they advance. -/
def landLives (s : State) (l : Land) : Bool :=
  if l.owner == 0 then l.seq == s.sch.seq else (jobOf s l.owner).isSome

/-- Rows of READ_REPLYs that have landed wait for those that came before them. -/
def landBefore (s : State) (l : Land) : Option Land :=
  if l.reply.isSome then none
  else s.map.lands.find? (fun x => x.owner == l.owner && x.reply.isNone && decide (x.id < l.id))

/-- Jobs of an owner end DONE once complete. -/
def ownerDone (s : State) (o : Word) : State :=
  ((s.jobs.filter (fun j => ownerOf j == o)).map (fun j => j.token)).foldl (fun s t => tryDone s t 28) s

/-- Every write of some landed rows has ended: they stand, or, where one timed out, their tensor is invalid and a job that
owns it ends KILLED_POISON; a WRITE_REQ is answered (R218, R219, R334). DEDUCED (log 33): ABORTED answers one whose write
timed out. -/
def landEnds (s : State) (l : Land) : State :=
  let s1 := { s with map := { s.map with lands := s.map.lands.filter (fun x => x.id != l.id) } }
  match landBefore s l with
  | some b => { s1 with map := { s1.map with lands := s1.map.lands.map (fun x =>
      if x.id == b.id then { x with rows := x.rows ++ l.rows, bad := x.bad || l.bad } else x) } }
  | none =>
  let p := ownerPlan s1 l.owner
  let s2 := if !landLives s1 l then s1
    else if !l.bad then afterStand (standAt s1 l.owner p l.rows)
    else if l.owner == 0 then
      let ts := (l.rows.filterMap (tensorAt p)).map refBase
      cascadeAll { s1 with sch := { s1.sch with invalid := ts ++ s1.sch.invalid } }
    else killJob s1 l.owner .killedPoison 28
  match l.reply with
  | some r => queueFrame s2 .writeReply r.1 r.2 (BitVec.ofNat 32 (if l.bad then Status.aborted else Status.ok).code) []
  | none => ownerDone s2 l.owner

/-- Landed rows end once no write of theirs is outstanding. -/
def landCheck (s : State) (id : Nat) : State :=
  if portOut s (.landing id) then s else
  match s.map.lands.find? (fun l => l.id == id) with
  | some l => landEnds s l
  | none => s

/-- A write of landed rows has ended. -/
def landAck (s : State) (id : Nat) (bad : Bool) : State :=
  landCheck { s with map := { s.map with lands := s.map.lands.map (fun l =>
    if l.id == id then { l with bad := l.bad || bad } else l) } } id

/-- Data land at an address: they are written by the ingress port, flagged sectors poisoned, and `rows` are to stand once
the writes are acknowledged (R216, R218, R231, R334). DESIGN CHOICE (log 33): the port. -/
def land (s : State) (owner : Word) (rows : List Nat) (reply : Option (BitVec 16 × Word)) (a : Nat) (data : List Byte)
    (poisoned : List Nat) : State :=
  let id := (s.map.lands.map (fun l => l.id)).foldl max 0 + 1
  let s1 := poisoned.foldl (fun s o => markUnit s (unitBase (a + o))) (store s a data)
  let s2 := portWrite { s1 with map := { s1.map with
    lands := s1.map.lands ++ [{ id := id, owner := owner, seq := s1.sch.seq, rows := rows, reply := reply }] } }
    srcIngress a data.length (.landing id)
  landCheck s2 id

-- Responses

/-- Free bytes: what a read that timed out returns (R219). -/
def freeBytes (s : State) (n : Nat) : List Byte := (List.range n).map (fun k => (Config.freeWord (s.free + k)).extractLsb' 0 8)

/-- Bytes of one sector arrive for a transfer: for its engine, or to be written on, also when their job has ended (R242, R246,
R256). -/
def arrive (s : State) (x : Xfer) (off : Nat) (bs : List Byte) (bad : Bool) : State :=
  if x.use.isPrefetch then modXfer s x.id (fun y => { y with copy := y.copy ++ [(off, bs, bad)] })
  else deliver s x off bs bad

/-- A read request's data arrive sector by sector, each with its own poison flag (R231). -/
def arriveAll (s : State) (id off : Nat) (r : Req) (data : Nat → Nat → List Byte) (bad : Nat → Nat → Bool) : State :=
  (sectorsOf r.addr r.len).foldl (fun s g => match xferOf s id with
    | some x => arrive s x (off + (g.1 - r.addr)) (data g.1 g.2) (bad g.1 g.2)
    | none => s) s

/-- A transfer with nothing more to come or to go ends. -/
def xferCheck (s : State) (id : Nat) (o : Nat → Ecc := asIs) : State :=
  match xferOf s id with
  | some x => if xferOver s x then xferEnds s x o else s
  | none => s

/-- A response to an outstanding request: its credits return, and its purpose is served. -/
def respond (s : State) (r : Req) (ecc : List Ecc) (also : List (Nat × Ecc) := []) : State :=
  let s1 := giveCredit (dropReq s r.id) r
  match r.purpose with
  | .xfer id off =>
    let o := eccAt (protOf r.addr r.len) ecc
    let s2 := if r.write then s1 else
      let s2 := readUnits s1 r.addr r.len o
      let lost := (protOf r.addr r.len).filter (fun u => o u == .linkFailed && isDram s2 u)
      arriveAll s2 id off r (fun a n => s2.mem.read a n) (badAt s2 lost)
    xferCheck s2 id (eccFor also)
  | .ingress _ _ | .passed => s1
  | .landing id => landAck s1 id false

/-- A late response: one to a timed-out request is dropped and counted, one with an old tag sets source 84; neither
returns a credit (R219, R222). -/
def lateAnswer (s : State) (id : Nat) : Option State :=
  if s.cr.timedOut.any (fun r => r.id == id) then
    some { s with cr := { s.cr with timedOut := s.cr.timedOut.filter (fun r => r.id != id) }
                  ms := { s.ms with lateDrop := satAdd 0xFFFF s.ms.lateDrop 1 } }
  else if s.cr.reclaimed.any (fun r => r.id == id) then
    some (setSrc { s with cr := { s.cr with reclaimed := s.cr.reclaimed.filter (fun r => r.id != id) } } 84)
  else none

/-- FABRIC_RESPONSE (R218, R220, R221, R225, R226, R229): a return to a pool with no such credit outstanding is a
violation. `also` is what the reads come to that control pair A makes for a walk that goes on (R196). -/
def execFabricResponse (req : Nat) (ecc : List Ecc) (s : State) (also : List (Nat × Ecc) := []) : Out :=
  .next (settleUnits s (match reqOf s req with
    | some r => pumpPorts (respond s r ecc also)
    | none => (lateAnswer s req).getD (creditViolation s)))

/-- LATE_RESPONSE (R219, R222). -/
def execLateResponse (req : Nat) (s : State) : Out := .next ((lateAnswer s req).getD s)

/-- A sensor frame of a stream that has not been delivered loses a write (R219, R277). -/
def failIngress (s : State) (i : Nat) (seq : Word) : State :=
  let s1 := match (streamOf s i).cur with
    | some f => if f.seq == seq then dropCur s i .writeFail false else s
    | none => s
  dropKept s1 i (fun f => f.seq == seq && !f.delivered) (fun _ => .writeFail)

/-- What a request that timed out was for (R219, R232): a read completes poisoned, its data a free value; a failed write of a
task's output, or of a row that it prefetches, ends the job KILLED_POISON; a sensor frame that loses a write is dropped. -/
def timeOut (s : State) (r : Req) : State :=
  match r.purpose with
  | .xfer id off =>
    (match xferOf s id with
     | none => s
     | some x =>
       if r.write then xferCheck (killJob s x.use.token .killedPoison x.unit) id
       else xferCheck (arriveAll { s with free := s.free + r.len } id off r
         (fun a n => slice (freeBytes s r.len) (a - r.addr) n) (fun _ _ => true)) id)
  | .passed => s
  | .ingress i seq => failIngress s i seq
  | .landing id => landAck s id true

/-- FABRIC_TIMEOUT (R219, R232, R277). -/
def execFabricTimeout (req : Nat) (s : State) : Out :=
  .next (match reqOf s req with
    | none => s
    | some r =>
      let s1 := giveCredit (dropReq s r.id) r
      let s2 := setSrc { s1 with
        ms := { s1.ms with timeouts := satAdd 0xFFFF s1.ms.timeouts 1 }
        cr := { s1.cr with timedOut := s1.cr.timedOut ++ [r] } } 83
      settleUnits s (pumpPorts (timeOut s2 r)))

/-- The old epoch's counts of a pool (R221). -/
def oldIss (s : State) (p : Pool) : Nat := if s.ms.epoch then p.iss0 else p.iss1
def oldRet (s : State) (p : Pool) : Nat := if s.ms.epoch then p.ret0 else p.ret1

/-- Credits of the old epoch are outstanding in a pool: requests, ring beats, transfers (R220, R221). -/
def poolOld (s : State) (p : Pool) : Bool :=
  match p.kind with
  | .ring => s.ms.reqs.any (fun r => r.links.contains p.idx && r.epoch != s.ms.epoch)
  | .stream => s.ms.xfers.any (fun x => x.begun && x.unit == p.idx && x.epoch != s.ms.epoch)
  | .cove | .ledge | .dram | .csram =>
    s.ms.reqs.any (fun r => r.src == p.src && r.kind == p.kind && r.idx == p.idx && r.epoch != s.ms.epoch)

/-- CREDIT_EPOCH_CHECK (R221): with nothing of the old epoch outstanding in it, the pool compares its counts and
clears them. -/
def execCreditEpochCheck (pool : Nat) (s : State) : Out :=
  .next (match s.cr.pools[pool]? with
    | none => s
    | some p =>
      if poolOld s p then s else
      let clr (q : Pool) : Pool := if s.ms.epoch then { q with iss0 := 0, ret0 := 0 } else { q with iss1 := 0, ret1 := 0 }
      let s1 := { s with cr := { s.cr with pools := modAt s.cr.pools pool clr } }
      if oldIss s p = oldRet s p then s1 else settle s (creditViolation s1))

/-- Every pool has been checked for the old epoch. -/
def epochDone (s : State) : Bool := s.cr.pools.all (fun p => oldIss s p == 0 && oldRet s p == 0)

-- Scrub (R237 to R240)

/-- A range lies in one of Cove, one Ledge, CSRAM, usable DRAM. -/
def inOneStore (s : State) (a n : Nat) : Bool :=
  a + n ≤ 0x400_0000 || (isLedge a && (a - 0x400_0000) / 0x20_0000 == (a + n - 1 - 0x400_0000) / 0x20_0000)
  || (isCsram a && a + n ≤ 0x840_0000) || inDram s a n

/-- The summary of a pass. -/
def scrubWords (x : Scrub) : List Word :=
  let f := x.firstUc.getD 0xFFFF_FFFF_FFFF
  [BitVec.ofNat 32 x.ce, BitVec.ofNat 32 x.uc, addrLo f, BitVec.ofNat 32 (f / 2 ^ 32 % 2 ^ 16), BitVec.ofNat 32 x.done]

/-- SCRUB_RANGE (R237). -/
def doScrubRange (k : Pkt) (s : State) : Ans :=
  let a := pair48 (wd k.params 0) (wd k.params 1)
  let n := (wd k.params 2).toNat
  if fld k.params 0 5 0 != 0 then badWord s 2
  else if fld k.params 1 31 16 != 0 then badWord s 3
  else if n = 0 then badWord s 4
  else if 4 ≤ s.ms.scrubs.length then refuse s .busy []
  else if !inOneStore s a (64 * n) then badWord s 2
  else
    let t := issueCmd s k.port
    let x : Scrub := { token := t.1, addr := a, units := n, done := 0, ce := 0, uc := 0, firstUc := none, running := false }
    ({ t.2 with ms := { t.2.ms with scrubs := t.2.ms.scrubs ++ [x] } }, some (.accepted, [t.1]))

def execScrubRange (k : Pkt) (s : State) : Out := .next (command 0x50 0 k (doScrubRange k) s)

/-- The pass at the head of the queue may read (R239). -/
def scrubMay (s : State) (x : Scrub) : Bool :=
  (if s.sch.run == .running then
    s.sch.phase == .slack && s.eng.all (fun e => e.kat.isNone && e.katDue.isEmpty) && epochDone s
  else !(anyFA s && s.rst.pairB)) &&
  !(isLedge x.addr && (engOf s (ledgeOf x.addr)).kat.isSome)

def setHeadScrub (s : State) (x : Scrub) : State := { s with ms := { s.ms with scrubs := x :: s.ms.scrubs.drop 1 } }

/-- SCRUB_PASS_RESUME (R239). -/
def execScrubPassResume (s : State) : Out :=
  .next (match s.ms.scrubs with
    | [] => s
    | x :: _ => if scrubMay s x then setHeadScrub s { x with running := true } else s)

/-- Protection units of a 64-byte unit (R238). -/
def protUnits (a : Nat) : List Nat :=
  if isCsram a then (List.range 64).map (a + ·) else if a < 0x600_0000 then [a, a + 32] else [a]

/-- One protection unit is checked: the state, and whether it counts as corrected or as poisoned or uncorrectable. -/
def checkUnit (s : State) (u : Nat) (ecc : Ecc) : State × Bool × Bool :=
  if isCsram u then
    if s.csramBad.contains u || ecc == .uncorrectable then (eccRead s u .uncorrectable, false, true)
    else (eccRead s u ecc, ecc == .corrected, false)
  else if s.poison.contains u then (eccRead s u .asStored, false, true)
  else (eccRead s u ecc, ecc == .corrected, ecc == .uncorrectable || (ecc == .linkFailed && isDram s u))

def minOpt (o : Option Nat) (n : Nat) : Option Nat := some (match o with | some m => min m n | none => n)

/-- The protection units of a unit in turn with their outcomes. -/
def checkUnits : List Nat → List Ecc → State → Scrub → State × Scrub
  | [], _, s, x => (s, x)
  | u :: r, ecc, s, x =>
    let c := checkUnit s u (ecc.headD .asStored)
    checkUnits r ecc.tail c.1
      { x with ce := if c.2.1 then satAdd 0xFFFF_FFFF x.ce 1 else x.ce
               uc := if c.2.2 then satAdd 0xFFFF_FFFF x.uc 1 else x.uc
               firstUc := if c.2.2 then minOpt x.firstUc u else x.firstUc }

/-- SCRUB_UNIT_CHECK (R219, R238 to R240): one 64-byte unit of the running pass; a pass that meets a frame start pauses after
the unit, a pass that ends reports its summary. DEDUCED (log 48): a check request that times out returns no outcome to
count. -/
def execScrubUnitCheck (ecc : List Ecc) (s : State) : Out :=
  .next (match s.ms.scrubs with
    | [] => s
    | x :: _ =>
      if !x.running || halted s then s else
      let a := x.addr + 64 * x.done
      let s0 := passReq s srcScrub a
      let r := if ecc.contains .timedOut then (passTimeout s0 srcScrub false a 64, x) else checkUnits (protUnits a) ecc s0 x
      let y : Scrub := { r.2 with done := x.done + 1 }
      let s1 := r.1
      settle s (if y.units ≤ y.done then
          finishTok { s1 with ms := { s1.ms with scrubs := s1.ms.scrubs.drop 1 } } y.token .ok (scrubWords y)
        else setHeadScrub s1 { y with running := scrubMay s1 y }))

-- The drift ring (R250 to R255)

/-- Physical base of the resident region of engine `n`'s Ledge. -/
def resBase (rb n : Nat) : Nat := 0x400_0000 + n * 0x20_0000 + 0x20_0000 - rb

/-- Engine whose resident region holds an address. -/
def resEng (rb a : Nat) : Option Nat :=
  if isLedge a && decide (0x20_0000 - rb ≤ (a - 0x400_0000) % 0x20_0000) then some (ledgeOf a) else none

/-- An address of a resident region moves `k` links on. -/
def shiftAddr (rb k a : Nat) : Nat :=
  match resEng rb a with
  | some n => a - n * 0x20_0000 + (n + k) % 16 * 0x20_0000
  | none => a

/-- Every slice moves `k` links at once, poison with it (R231, R253). -/
def rotateRing (s : State) (k : Nat) : State :=
  let rb := (activeSet s).plan.resBytes
  let inRes (a : Nat) : Bool := (resEng rb a).isSome
  { s with
    mem := (s.mem.filter (fun c => inRes c.1)).foldl (fun m c => m.set (shiftAddr rb k c.1) c.2)
      (s.mem.filter (fun c => !inRes c.1))
    poison := s.poison.map (shiftAddr rb k) }

/-- RING_SHIFT_START (R253): once no ring read is outstanding. -/
def execRingShiftStart (s : State) : Out :=
  .next (if s.ms.shiftQ.isEmpty || s.ms.shiftOn || s.ms.reqs.any (fun r => r.kind == .ledge && !r.write) then s
    else { s with ms := { s.ms with shiftOn := true } })

/-- RING_SHIFT_END (R229, R253, R264). `ecc` is what becomes of the shift's reads of some resident sectors. -/
def execRingShiftEnd (s : State) (ecc : List (Nat × Ecc) := []) : Out :=
  .next (match s.ms.shiftQ with
    | [] => s
    | k :: r =>
      if !s.ms.shiftOn then s else
      let rb := (activeSet s).plan.resBytes
      let s1 := rotateRing ((ecc.filter (fun x => (resEng rb x.1).isSome && unitBase x.1 == x.1)).foldl
        (fun s x => eccRead s x.1 x.2) s) k
      settleUnits s (afterStand { s1 with ms := { s1.ms with
        shiftQ := r, shiftOn := false, phase := (s1.ms.phase + k) % 16, shifts := satAdd 0xFFFF s1.ms.shifts 1 } }))

/-- The set whose image is to be loaded: the new one from SLACK_START before a swap's frame, or, in ARMED, before a
first frame that the swap names; else the ACTIVE one (R254). -/
def loadSet (s : State) : Option Slot :=
  let new := slotOf s (!s.sets.activeSlot)
  let due := s.sets.swapPending &&
    ((s.sch.run == .running && s.sch.phase == .slack && s.sets.swapSeq == s.sch.seq + 1)
      || (s.sch.run == .armed && s.sets.swapSeq == s.sch.firstSeq))
  if due then some (if hasActive s then new else if s.sets.slot0.st == .committed then s.sets.slot0 else s.sets.slot1)
  else if hasActive s then some (activeSet s) else none

/-- Stream unit `n` reads `m` bytes of the image in a transfer of at most 4 KiB, with a STREAM credit (R216, R220, R241). -/
def loadPiece (o : Nat → Ecc) (n : Nat) (s : State) (x : Nat × Nat) : State :=
  giveOne (portRead (takeCredit s n .stream n) n x.1 x.2 o) n .stream n s.ms.epoch

/-- One slice is copied from the image by its engine's stream unit, poison with it: a poisoned DRAM line fills two sectors
(R219, R225, R226, R231, R254). `ecc` gives what becomes of the reads of some lines. -/
def loadSlice (p : Plan) (ecc : List (Nat × Ecc)) (s : State) (n : Nat) : State :=
  let rb := p.resBytes
  let src := p.resAddr + n * rb
  let dst := resBase rb n
  let o := eccFor ecc
  let s2 := ((List.range ((rb + 4095) / 4096)).map (fun k => (src + 4096 * k, min 4096 (rb - 4096 * k)))).foldl (loadPiece o n) s
  let inSrc (u : Nat) : Bool := decide (src ≤ u) && decide (u < src + rb)
  let lost := if ecc.any (fun x => inSrc x.1) then lostUnits s2 src rb o else []
  let clean := s2.poison.filter (fun u => !(decide (dst ≤ u) && decide (u < dst + rb)))
  let bad := s2.poison.filter inSrc ++ lost.filter (fun u => !s2.poison.contains u)
  { s2 with mem := copyRegion s2.mem src dst rb
            poison := bad.flatMap (fun u => [u - src + dst, u - src + dst + 32]) ++ clean }

/-- RESIDENT_LOAD_DONE (R254): every slice is in its Ledge, the phase is 0. -/
def execResidentLoadDone (s : State) (ecc : List (Nat × Ecc) := []) : Out :=
  .next (if s.ms.resLoaded then s else
    match loadSet s with
    | none => s
    | some x =>
      let s1 := (List.range 16).foldl (loadSlice x.plan ecc) s
      settleUnits s (afterStand { s1 with ms := { s1.ms with resLoaded := true, phase := 0 } }))

/-- At SLACK_START every poisoned resident sector is written again from the image, by the scrubber's port; `o` is what
becomes of the reads of the image (R216, R225, R255). DESIGN CHOICE (log 44): the same port reads it. -/
def repairRing (s : State) (o : Nat → Ecc := asIs) : State :=
  let p := (activeSet s).plan
  if !s.ms.resLoaded then s else
  (s.poison.filter (fun u => (resEng p.resBytes u).isSome)).foldl (fun s u =>
    let n := ledgeOf u
    let sl := (n + 16 - s.ms.phase % 16) % 16
    let src := p.resAddr + sl * p.resBytes + (u - resBase p.resBytes n)
    moveBytes { s with ms := { s.ms with repairs := satAdd 0xFFFF s.ms.repairs 1 } } srcScrub src u 32 o) s

end Sys2Proof.Machine
end

