-- ==== Sys2Proof/Machine/Checks.lean ====
section
/-! DEFINITION. The acceptance checks of COMMIT_SHADOW, RUN_JOB and test packs, in the order of R543 (R27, R73, R124,
R136, R153, R154, R191, R248, R250, R300, R304, R325, R363, R385). A check answers the status, and the STRUCT, ROW and
INDEX of the detail words (R452). -/

namespace Sys2Proof.Machine

/-- A failure: status, STRUCT, ROW, INDEX. -/
abbrev Bad := Option (Status × Nat × Nat × Nat)

/-- The first of a list of rows that fails: each row is its number, whether it fails, and its status. -/
def firstRow (st idx : Nat) : List (Nat × Bool × Status) → Bad
  | [] => none
  | r :: l => if r.2.1 then some (r.2.2, st, r.1, idx) else firstRow st idx l

/-- The first failure among checks in order. -/
def firstBad {α : Type} (f : α → Bad) (l : List α) : Bad := l.findSome? f

-- Objects as the device reads them

/-- The Tide Table of an object's body (R23, R24). -/
def parseTide (bs : List Byte) : TideTable :=
  let h := bytesWords (bs.take 64)
  { hdr := h, bodyLen := bs.length
    entries := (List.range (fld h 0 31 16)).map (fun i => bytesWords (slice bs (64 + 64 * i) 64)) }

/-- `n` entries of `w` words at a byte offset. -/
def entriesAt (bs : List Byte) (ofs n w : Nat) : List (List Word) :=
  (List.range n).map (fun i => bytesWords (slice bs (ofs + 4 * w * i) (4 * w)))

/-- The sensor and trigger configuration of an object's body (R270). -/
def parseSensor (bs : List Byte) : SensorCfg :=
  let h := bytesWords (bs.take 64)
  let o (i : Nat) : Nat := (wd h i).toNat
  { hdr := h, streams := entriesAt bs (o 1) 64 8, ports := entriesAt bs (o 2) 16 4, macs := entriesAt bs (o 3) 8 68
    isps := entriesAt bs (o 4) 32 24, trigs := entriesAt bs (o 5) 32 4 }

/-- The plausibility program of an object's body (R359). -/
def parseProg (bs : List Byte) : Program :=
  let h := bytesWords (bs.take 64)
  let nl := fld h 1 7 5
  let ne := fld h 1 4 0
  { hdr := h, bodyLen := bs.length, lidars := entriesAt bs 64 nl 20, evids := entriesAt bs (64 + 80 * nl) ne 12
    rules := entriesAt bs (64 + 80 * nl + 48 * ne) (fld h 0 31 16) 8 }

/-- A field of a word is 0. -/
def zero (ws : List Word) (i hi lo : Nat) : Bool := fld ws i hi lo == 0

/-- Words i to j − 1 are 0. -/
def zeros (ws : List Word) (i j : Nat) : Bool := (List.range (j - i)).all (fun k => wd ws (i + k) == 0)

-- The Tide Table (R27)

def tideHdrBad (t : TideTable) : Bad :=
  let n := fld t.hdr 0 31 16
  let p := ttPeriod t
  firstRow 1 0 [
    (1, !(fld t.hdr 0 15 0 == 1 && 1 ≤ n && n ≤ 1024 && 10000000 ≤ p && p ≤ 100000000 && zero t.hdr 2 31 27
      && zero t.hdr 3 31 27 && zeros t.hdr 4 16 && t.bodyLen == 64 + 64 * n), .badParam),
    (2, !(ttOutCommit t + 200000 ≤ ttSlackStart t && ttSlackStart t + 500000 ≤ p), .badParam)]

def tideEntryBad (t : TideTable) (groups : Nat) (x : List Word × Nat) : Bad :=
  let e := x.1
  let sc := teSClass e
  let rsv := teRsv e
  let arr := teArr e != 0
  firstRow 1 x.2 [
    (3, !(fld e 0 9 0 == x.2 && teMode e != 3 && zero e 0 19 13 && zero e 1 31 26 && zero e 2 31 26 && zero e 3 31 27
      && zero e 4 31 27 && zero e 5 31 27 && zeros e 10 16), .badParam),
    (4, teMask e == 0 || teCtx e == 0 || teCtx e == 0xFFF, .badParam),
    (5, !(if teMode e = 0 then !arr else arr && (teMode e != 1 || teStart e == 0)), .badParam),
    (6, !(teStart e < teDeadline e && 1 ≤ teBudget e && teBudget e ≤ (teDeadline e - teStart e) / 4), .badParam),
    (7, sc && !(teDeadline e ≤ ttOutCommit t && Nat.land rsv (teMask e) == rsv), .badParam),
    (8, sc && rsv != 0 && !(teRsvOpen e == 0 || teRsvOpen e + 100000 ≤ teStart e), .badParam),
    (9, !sc && !(teDeadline e ≤ ttSlackStart t && rsv == 0 && teRsvOpen e == 0), .badParam),
    (10, !(1 ≤ teLgCount e && teLgFirst e + teLgCount e ≤ groups), .badParam)]

def tideBad (t : TideTable) (groups : Nat) : Bad :=
  match tideHdrBad t with
  | some b => some b
  | none => firstBad (tideEntryBad t groups) t.entries.zipIdx

-- References (R59, R60, R68)

/-- Codes and reserved bits of a reference. -/
def refCodes (r : List Word) : Bool :=
  refFmt r ≤ 11 && refLayout r ≤ 2 && refZpMode r != 3 && zero r 1 31 29

/-- Alignment of base, strides and auxiliary array; the row length is that of the dense extent D0 (R60, R61). -/
def refAligned (s : State) (r : List Word) (written : Bool) : Bool :=
  let rl := ((refD0 r * fmtBits (refFmt r) + 7) / 8 + 31) / 32 * 32
  let sOk (d st : Nat) : Bool := st % 32 == 0 && (rl ≤ st || (st == 0 && d == 1))
  let u := if written && isDram s (refBase r) then 64 else 32
  refBase r % u == 0 && sOk (refD1 r) (refS1 r) && sOk (refD2 r) (refS2 r) && sOk (refD3 r) (refS3 r)
    && refS1 r % u == 0 && refS2 r % u == 0 && refS3 r % u == 0
    && ((refGroup r == 0 && refLayout r != 2) || refAux r % 32 == 0)

/-- Bytes from the base to the end of the last row. -/
def refEnd (r : List Word) : Nat :=
  (refD1 r - 1) * refS1 r + (refD2 r - 1) * refS2 r + (refD3 r - 1) * refS3 r + rowBytes r

/-- The bytes of a reference lie in Cove, in usable DRAM, or, for an operand, in the Ledge range below the resident
bytes of its slice (R68, R250). DESIGN CHOICE (log 42): an image of RUN_JOB is held to its own RES_BYTES. -/
def refPlaced (s : State) (res : Nat) (r : List Word) (operand : Bool) : Bool :=
  let n := max (refEnd r) (if refGroup r != 0 || refLayout r == 2 then groupBase r + groupBytes r - refBase r else 0)
  let b := refBase r
  b + n ≤ 0x0400_0000 || inDram s b n
    || (operand && isLedge b && (b - 0x0400_0000) % 0x20_0000 + n ≤ res)

/-- Every extent is at least 1. -/
def refExtents (r : List Word) : Bool := 1 ≤ refD0 r && 1 ≤ refD1 r && 1 ≤ refD2 r && 1 ≤ refD3 r

/-- ZP_MODE rules of R73. -/
def refZpOk (r : List Word) : Bool :=
  (fmtInt (refFmt r) || refZpMode r == 0) && (refZpMode r != 2 || refGroup r != 0)

/-- A checked plan: of a set or of RUN_JOB, with the ordinals that S-class jobs run, those of each job, and the sensor
configuration. -/
structure PlanCtx where
  s : State
  p : Plan
  inSet : Bool
  sOrds : List Nat
  jobOrds : List (List Nat)
  sensor : SensorCfg

/-- Ordinals of the groups that an entry of a table runs. -/
def entryOrds (p : Plan) (e : List Word) : List Nat :=
  ((p.groups.drop (teLgFirst e)).take (teLgCount e)).flatten.flatten.flatten

/-- Ordinals of the groups that S-class entries of a table run. -/
def sClassOrds (t : TideTable) (p : Plan) : List Nat := (t.entries.filter teSClass).flatMap (entryOrds p)

-- Matrix descriptors (R73)

/-- The tile that a descriptor belongs to: its chain, and its place in it. -/
def chainOf (p : Plan) (o : Nat) : List Desc × Nat :=
  match (p.groups.flatten.flatten).find? (fun it => it.contains o) with
  | some it => (it.map (fun k => p.descs.getD k default), (it.findIdx? (· == o)).getD 0)
  | none => ([p.descs.getD o default], 0)

/-- Chain rules of R72 for the task at place `k`. -/
def chainOk (ds : List Desc) (k : Nat) : Bool :=
  let h := ds.headD default
  let d := ds.getD k default
  (if k = 0 then mdInit d == 0 else mdInit d == 1) && (d.last == (k + 1 == ds.length)) && d.kind == .me
    && mdM d == mdM h && mdN d == mdN h && mdMode d == mdMode h && mdSparse d == mdSparse h && d.dual == h.dual
    && refFmt (mdA d) == refFmt (mdA h) && refFmt (mdB d) == refFmt (mdB h)

/-- The shapes of A, B and C agree (R61, R65, R67). DESIGN CHOICE (log 42): a SPARSE_D0 extent D0 that is no multiple of 4
fails here, as BAD_SHAPE. -/
def shapesOk (d : Desc) : Bool :=
  let a := mdA d
  let b := mdB d
  let c := mdC d
  let k := mdK d
  (if refLayout a = 0 then refD0 a == k && refRows a == mdM d
   else refLayout a == 1 && refD1 a == k && refD0 a == mdM d && refD2 a == 1 && refD3 a == 1)
  && (if refLayout b = 1 then refD1 b == k && refD0 b == mdN d && refD2 b == 1 && refD3 b == 1
      else refD0 b == k && refD1 b == mdN d && refD2 b == 1 && refD3 b == 1 && (refLayout b != 2 || refD0 b % 4 == 0))
  && (!d.last || (refLayout c == 0 && refD0 c == mdN d && refRows c == mdM d))

/-- The rows of R73 on one task: codes and reserved fields in every task; what R72 takes from the LAST task, and the tile's
sums, in it alone. DESIGN CHOICE (log 42): a SPARSE_D0 A, or a SPARSE_D0 B with SPARSE = 0, fails row 2. -/
def meBadIn (x : PlanCtx) (d : Desc) (ds : List Desc) (k : Nat) (o : Nat) (sRun : Bool) : Bad :=
  let w := d.words
  let a := mdA d
  let b := mdB d
  let c := mdC d
  let l := d.last
  let dist := mdMode d != 0
  firstRow 2 o [
    (1, !(zero w 0 15 15 && zero w 0 31 20 && zero w 1 15 10 && zero w 1 31 24 && zero w 2 31 20 && zero w 5 31 20 && zeros w 7 8
      && mdMode d ≤ 6 && mdInit d ≤ 1 && refCodes a && refCodes b && refCodes c
      && fld w 0 14 13 != 3 && mdAct d ≤ 9 && (mdFb d == 3 || mdFb d == 10 || mdFb d == 15)), .badParam),
    (2, (taskQuarter d).isNone || (mdSparse d && (macQuarter (refFmt a) (refFmt b) true).isNone)
      || mdSparse d != (refLayout b == 2) || refLayout a == 2, .badParam),
    (3, !(refAligned x.s a false && refAligned x.s b false && refPlaced x.s x.p.resBytes a true
      && refPlaced x.s x.p.resBytes b true
      && (!l || (refAligned x.s c true && refPlaced x.s 0 c false && mdParam d % 32 == 0))), .badParam),
    (4, !(refZpOk a && refZpOk b && (!l || (refZpOk c && refGroup c == 0 && refZpMode c ≤ 1))), .badParam),
    (5, dist && !(!mdSparse d && refGroup a == 0 && refGroup b == 0 && refZpMode a == 0 && refZpMode b == 0
      && (!l || (!mdZpc d && !mdRot d))), .badParam),
    (6, !chainOk ds k, .badParam),
    (7, x.inSet && sRun && dist && !d.dual, .badParam),
    (8, !(refExtents a && refExtents b && (!l || refExtents c) && 1 ≤ mdM d && mdM d ≤ 512 && 1 ≤ mdN d && mdN d ≤ 128
      && 1 ≤ mdK d), .badShape),
    (9, !shapesOk d, .badShape),
    (10, l && mdRot d && mdN d % mdRotSize d != 0, .badShape),
    (11, l && accFloat d && 8192 < (ds.map mdK).sum, .badShape),
    (12, l && 25000 < tileCycles ds, .badShape)]

/-- At COMMIT_SHADOW every failure of R73 replies BAD_PARAM. -/
def setStatus (x : PlanCtx) (b : Bad) : Bad := b.map (fun r => if x.inSet then (.badParam, r.2) else r)

-- Vector and fixed-function descriptors (R153, R154, R300)

/-- A reference of these engines: codes, alignment and place; then its extents. -/
def ioBad (x : PlanCtx) (r : List Word) (written : Bool) : Bool :=
  !(refCodes r && refAligned x.s r written && refPlaced x.s 0 r false && refZpOk r)

def sameDims (r t : List Word) : Bool := refD0 r == refD0 t && refD1 r == refD1 t && refD2 r == refD2 t && refD3 r == refD3 t

/-- The output extents of R135 on a stored input: a band of rows, or the whole of a padded buffer. -/
def windowed (c x z : List Word) : Bool :=
  let n (m k d st : Nat) : Nat := if m < d * (k - 1) + 1 then 0 else (m - (d * (k - 1) + 1)) / max 1 st + 1
  refD1 z == n (refD1 x) (cvKW c) (cvDW c) (cvSW c) && refD2 z == n (refD2 x) (cvKH c) (cvDH c) (cvSH c)
    && refD3 x == refD3 z

/-- Extent agreement of a vector operation (R137, R142, R148, R149, R151, R161, R162). -/
def veShape (x : PlanCtx) (d : Desc) : Bool :=
  let c := convOf x.p d.layer
  let X := vdX d
  let Y := vdY d
  let Z := vdZ d
  let op := vdOp d
  let bc (y z : Nat) : Bool := y == z || y == 1
  if op ≤ 4 then sameDims X Z && bc (refD0 Y) (refD0 Z) && bc (refD1 Y) (refD1 Z) && bc (refD2 Y) (refD2 Z) && bc (refD3 Y) (refD3 Z)
  else if op = 5 then sameDims X Z
  else if op = 6 then sameDims X Z && sameDims Y Z
  else if op = 7 then bits (vdP0 d) 15 0 ≤ bits (vdP0 d) 31 16 && bits (vdP0 d) 31 16 < refD2 (cvIn c)
  else if op = 8 then refD0 X == refD0 Z && refD0 Z == cvCout c && windowed c X Z
  else if op = 9 then refD0 Z == cvCout c && refD0 X == refD0 Z && refD0 Y == refD0 Z && refRows Y == cvKH c * cvKW c && windowed c X Z
  else if op = 10 then refD0 Z == cvCin c && refD0 X == cvCin c && refD1 X == refD1 (cvIn c) && refD3 X == 1
    && refD1 Z == winoAcross c * ((refD2 X - 2 + 3) / 4) && refD2 Z == 36 && refD3 Z == 1
  else if op = 11 then refD0 X == refD0 Z && refD0 Z == cvCout c && refD1 Z == cvWout c && refD3 Z == 1
    && refD1 X == winoAcross c * ((refD2 Z + 3) / 4) && refD2 X == 36 && refD3 X == 1
  else if op = 12 then refD0 X == cvCin c && refD0 Z == (cvKH c * cvKW c - 1 + 7) / 8 && windowed c X Z
  else if op = 13 then refD0 Z == bits (vdP0 d) 15 0 && refD1 X + 1 == refD0 X + bits (vdP0 d) 15 0 && refD3 X == 1
    && bits (vdP1 d) 15 0 < refD1 Z && refD3 Z == 1
  else refD0 X == refD0 Z && refRows Z == 1

/-- Operations that need a convolution record, and those with stages (R151). -/
def veConv (op : Nat) : Bool := (7 ≤ op && op ≤ 12)
def veStages (op : Nat) : Bool := op == 6 || op == 9 || op == 11
def veUsesY (op : Nat) : Bool := op ≤ 4 || op == 6 || op == 9

/-- The rows of R153 on a vector task. DESIGN CHOICE (log 47): an element format that an operation does not take is a
BAD_SHAPE; R153 names no status for it. -/
def veBad (x : PlanCtx) (d : Desc) (o : Nat) (sRun : Bool) : Bad :=
  let w := d.words
  let op := vdOp d
  let pad := op == 7
  firstRow 5 o [
    (0, !(1 ≤ op && op ≤ 14 && zero w 0 15 9 && zero w 4 31 16 && zeros w 6 8 && (!veStages op || bits (vdP0 d) 7 4 ≤ 9)
      && vdParam d % 32 == 0), .badParam),
    (0, veConv op && !(x.p.convs.any (fun c => fld c 0 15 0 == d.layer)), .badParam),
    (0, x.inSet && sRun && !d.dual, .badParam),
    (0, if pad then ioBad x (cvIn (convOf x.p d.layer)) true
      else ioBad x (vdX d) false || ioBad x (vdZ d) true || (veUsesY op && ioBad x (vdY d) false), .badParam),
    (0, !pad && !(refExtents (vdX d) && refExtents (vdZ d) && (!veUsesY op || refExtents (vdY d))), .badShape),
    (0, (op == 6 && !((refFmt (vdX d) == 4 || refFmt (vdX d) == 11) && refFmt (vdY d) == refFmt (vdX d)))
      || (op == 12 && !(refFmt (vdZ d) == 2 && (refFmt (vdX d) == 2 || refFmt (vdX d) == 3))), .badShape),
    (0, !veShape x d, .badShape)]

/-- The rows of R153 and R154 on a warp task, an element format as in `veBad` (log 47). -/
def warpBad (x : PlanCtx) (d : Desc) (o : Nat) (sRun : Bool) : Bad :=
  let w := d.words
  let src := dref d 8
  let map_ := dref d 16
  let dst := dref d 24
  let mask := dref d 32
  let me := bit (wd w 0) 6
  let g := 2 ^ fld w 0 5 3
  let nodes (n : Nat) : Nat := (n - 1 + g - 1) / g + 1
  firstRow 5 o [
    (0, !(fld w 0 2 1 ≤ 1 && fld w 0 5 3 ≤ 4 && zero w 0 15 7 && zeros w 3 8), .badParam),
    (0, x.inSet && sRun && !d.rpt, .badParam),
    (0, ioBad x src false || ioBad x map_ false || ioBad x dst true || (me && ioBad x mask true), .badParam),
    (0, !(refExtents src && refExtents map_ && refExtents dst && refD0 dst == refD0 src && refFmt map_ == 11
      && refD0 map_ == 2 && refD1 map_ == nodes (refD1 dst) && refD2 map_ == nodes (refD2 dst)
      && (!me || (refExtents mask && refFmt mask == 2 && refD0 mask == 1 && refD1 mask == refD1 dst && refD2 mask == refD2 dst))), .badShape)]

/-- The rows of R153 and R154 on a crop-and-resize task. -/
def cropBad (x : PlanCtx) (d : Desc) (o : Nat) (sRun : Bool) : Bad :=
  let w := d.words
  let img := dref d 8
  let out := dref d 16
  firstRow 5 o [
    (0, !(zero w 0 15 3 && zero w 2 31 8 && zero w 3 15 9 && zero w 3 31 25 && zero w 5 31 16 && zero w 24 31 16
      && zeros w 25 32 && fld w 4 4 0 == 0 && fld w 7 4 0 == 0), .badParam),
    (0, x.inSet && sRun && !d.rpt, .badParam),
    (0, ioBad x img false || ioBad x out true, .badParam),
    (0, !(refExtents img && refExtents out && 1 ≤ fld w 2 7 0 && 1 ≤ fld w 3 8 0 && fld w 3 8 0 ≤ 256 && 1 ≤ fld w 3 24 16
      && fld w 3 24 16 ≤ 256 && refD0 out == refD0 img && refD1 out == fld w 3 8 0 && refD2 out == fld w 3 24 16
      && refD3 out == fld w 2 7 0), .badShape)]

/-- The rows of R153 and R154 on a sort or select task, an element format as in `veBad` (log 47). -/
def sortBad (x : PlanCtx) (d : Desc) (o : Nat) (sRun : Bool) : Bad :=
  let w := d.words
  let sc := dref d 8
  let bx := dref d 16
  let cl := dref d 24
  let oi := dref d 32
  let os := dref d 40
  let k := fld w 1 12 0
  let nms := fld w 0 3 0 == 2
  let ce := nms && bit (wd w 0) 5
  let n := refElems sc
  firstRow 5 o [
    (0, !((fld w 0 3 0 == 1 || nms) && zero w 0 15 6 && zero w 1 31 13 && fld w 4 4 0 == 0 && zero w 5 31 16 && zeros w 7 8), .badParam),
    (0, x.inSet && sRun && !d.rpt, .badParam),
    (0, ioBad x sc false || ioBad x oi true || ioBad x os true || (nms && ioBad x bx false) || (ce && ioBad x cl false), .badParam),
    (0, !(refExtents sc && refExtents oi && refExtents os && 1 ≤ k && k ≤ 4096 && n ≤ (if nms then 16384 else 1048576)
      && refFmt oi == 4 && refD0 oi == k && refD0 os == k && refFmt os == refFmt sc
      && (!nms || (refExtents bx && refFmt bx == 11 && refD0 bx == 4 && refD1 bx == n))
      && (!ce || (refExtents cl && (refFmt cl == 3 || refFmt cl == 4) && refD0 cl == n))), .badShape)]

/-- Points that a point-cloud task reads at most (R300). -/
def pclPoints (x : PlanCtx) (d : Desc) : Nat :=
  let e := x.sensor.streams.getD (fld d.words 1 5 0) []
  fld d.words 3 15 0 * (if stClose e = 0 then stWidth e else stLines e)

/-- Bytes of a tensor with its rows' padding (R167), and without it (R300). -/
def padBytes (r : List Word) : Nat := refRows r * ((rowBytes r + 31) / 32 * 32)
def refBytes (r : List Word) : Nat := refRows r * rowBytes r

/-- The rows of R153, R154 and R300 on a point-cloud task. -/
def pclBad (x : PlanCtx) (d : Desc) (o : Nat) (sRun : Bool) : Bad :=
  let w := d.words
  let ft := dref d 32
  let cl := dref d 40
  let mc := fld w 7 15 0
  let mp := fld w 7 23 16
  firstRow 5 o [
    (0, !(fld w 0 2 1 != 3 && zero w 0 15 4 && zero w 1 31 6 && zero w 2 31 24 && zero w 3 31 16 && zero w 7 31 24
      && zero w 27 31 16 && fld w 28 4 0 == 0 && zero w 29 31 16 && zeros w 30 32), .badParam),
    (0, x.inSet && sRun && !d.rpt, .badParam),
    (0, ioBad x ft true || ioBad x cl true, .badParam),
    (0, !(1 ≤ mc && 1 ≤ mp && mp ≤ 64 && refExtents ft && refExtents cl && refFmt ft == 9 && refD0 ft == 8 && refD1 ft == mp
      && refD2 ft == mc && refFmt cl == 4 && refD0 cl == 4 && refD1 cl == mc), .badShape),
    (0, 25000 < 32 + (pclPoints x d + 3) / 4 + (refBytes ft + 63) / 64 + (refBytes cl + 63) / 64, .badShape)]

-- Attention descriptors (R191)

/-- References that an operation uses, and whether it writes them (R189). -/
def adUsed (d : Desc) : List (Nat × Bool) :=
  let st := if adStats d then [(2, true)] else []
  match adOp d with
  | 1 => [(0, false), (1, true)] ++ st
  | 2 => [(0, false), (1, true), (3, false)] ++ st
  | 3 => [(0, false), (1, false), (2, false), (3, false), (4, true), (5, true)]
  | 4 => [(0, false), (1, false), (2, false), (3, false), (4, true), (5, true)]
  | 5 => [(0, false), (1, false)]
  | _ => [(0, false), (1, false), (2, true), (3, true)]

/-- References that must be FP32, page-format tensors, and float tensors (R191). -/
def adFmts (d : Desc) : Bool :=
  let f (i : Nat) : Nat := refFmt (adRef d i)
  let q (i : Nat) : Bool := f i == 7 || f i == 8 || f i == 10
  let fl (i : Nat) : Bool := 5 ≤ f i && f i ≤ 11
  match adOp d with
  | 1 | 2 => q 0 && fl 1 && (!adStats d || f 2 == 11)
  | 3 => q 0 && fl 1 && q 2 && f 3 == 11 && f 4 == 11 && f 5 == 11
  | 4 => q 0 && q 1 && f 2 == 11 && f 3 == 11 && f 4 == 11 && f 5 == 11
  | 6 => fl 0 && f 1 == 11 && fl 2 && f 3 == 11
  | _ => true

/-- NQ in its range for the operation (R189). -/
def adNqOk (d : Desc) : Bool :=
  match adOp d with
  | 1 => adNQ d ≤ 128
  | 2 => 1 ≤ adNQ d && adNQ d ≤ 256
  | 6 => 2 ≤ adNQ d && adNQ d ≤ 8
  | _ => true

/-- The worst-case nominal cycle count (R190, R191). -/
def adWorst (d : Desc) : Nat :=
  let c := if refFmt (adRef d 0) = 10 then 2 else 1
  let up (n k : Nat) : Nat := (n + k - 1) / k
  let slots := ((List.range 16).filter (fun a => adMask d / 2 ^ a % 2 == 1)).length
  let pages := (up (adWU d) 8 + 1 + up (adWD d) 8) * (up (adWL d) 8 + 2 + up (adWR d) 8) * slots + 1
  let nb := up pages 2
  match adOp d with
  | 1 => 40 + nb * 128 * c + 144
  | 2 => adNQ d * (40 + 9 * 128 * c + 144)
  | 3 => 40 + nb * 256 * c + 144
  | 4 => (up (adWU d) 8 + 1 + up (adWD d) 8) * ((adWL d + 15) / 16 + 1 + (adWR d + 15) / 16) * (40 + 256 * c + 272)
  | 5 => 40 + refRows (adRef d 0) + 16
  | _ => up (refRows (adRef d 0) / max 1 (adNQ d)) 128 * (40 + 128 * adNQ d + 144)

def aeBad (x : PlanCtx) (d : Desc) (o : Nat) (sRun : Bool) : Bad :=
  let w := d.words
  firstRow 6 o [
    (1, !(1 ≤ adOp d && adOp d ≤ 6 && zero w 0 15 9 && zero w 1 7 6 && zero w 1 15 12 && zero w 4 31 20 && zero w 6 31 16
      && zeros w 9 16 && (adUsed d).all (fun u => zero (adRef d u.1) 1 31 29)), .badParam),
    (2, !((adUsed d).all (fun u => !ioBad x (adRef d u.1) u.2) && adFmts d), .badParam),
    (3, x.inSet && sRun && !d.dual, .badParam),
    (4, !(adWU d + adWD d ≤ 31 && adWL d + adWR d ≤ 31 && adQY d % 8 == 0 && adQX d % 16 == 0 && adNqOk d
      && (adUsed d).all (fun u => refExtents (adRef d u.1))), .badShape),
    (5, 25000 < adWorst d, .badShape)]

/-- One descriptor by its engine kind (R543, first stage). -/
def descBad (x : PlanCtx) (y : Desc × Nat) : Bad :=
  let d := y.1
  let o := y.2
  let sr := x.sOrds.contains o
  match d.kind with
  | .me => let c := chainOf x.p o
           setStatus x (meBadIn x d c.1 c.2 o sr)
  | .ve => veBad x d o sr
  | .warp => warpBad x d o sr
  | .crop => cropBad x d o sr
  | .sort => sortBad x d o sr
  | .pcl => pclBad x d o sr
  | .ae => aeBad x d o sr

-- Convolution records (R136)

/-- An extent of R135; 0 for an extent that is not positive. -/
def convOut (n a b d k st : Nat) : Nat :=
  if n + a + b < d * (k - 1) + 1 then 0 else (n + a + b - (d * (k - 1) + 1)) / st + 1

/-- The layer of the tile that a matrix task belongs to: that of its LAST task (R72). -/
def tapLayer (p : Plan) (o : Nat) : Nat := ((chainOf p o).1.getLastD default).layer

/-- The rows of R136, then the place of IN in the Ledge range (R250). -/
def convBad (x : PlanCtx) (y : List Word × Nat) : Bad :=
  let c := y.1
  let k := cvKind c
  let r := cvIn c
  let pt := cvPT c
  let pb := cvPB c
  let pl := cvPL c
  let pr := cvPR c
  let layerOf (d : Desc × Nat) : Nat := if d.1.kind == .me then tapLayer x.p d.2 else d.1.layer
  let sRun := x.p.descs.zipIdx.any (fun d => x.sOrds.contains d.2 && layerOf d == fld c 0 15 0)
  let ho := convOut (cvHin c) pt pb (cvDH c) (cvKH c) (max 1 (cvSH c))
  let wo := convOut (cvWin c) pl pr (cvDW c) (cvKW c) (max 1 (cvSW c))
  firstRow 4 y.2 [
    (1, !(zero c 0 31 25 && zero c 2 31 24 && wd c 7 == 0 && k ≤ 5 && cvPad c ≤ 4 && refCodes r), .badParam),
    (2, !(1 ≤ cvKH c && 1 ≤ cvKW c && 1 ≤ cvSH c && 1 ≤ cvSW c && 1 ≤ cvDH c && 1 ≤ cvDW c && 1 ≤ cvHin c && 1 ≤ cvWin c
      && 1 ≤ cvCin c && 1 ≤ cvCout c), .badShape),
    (3, !(1 ≤ ho && 1 ≤ wo && cvHout c == ho && cvWout c == wo), .badShape),
    (4, !((cvPad c == 0) == (pt == 0 && pb == 0 && pl == 0 && pr == 0) && pt ≤ cvDH c * (cvKH c - 1)
      && pb ≤ cvDH c * (cvKH c - 1) && pl ≤ cvDW c * (cvKW c - 1) && pr ≤ cvDW c * (cvKW c - 1)), .badShape),
    (5, cvPad c == 4 && !(pt < cvHin c && pb < cvHin c && pl < cvWin c && pr < cvWin c), .badShape),
    (6, !(refD0 r == cvCin c && refD1 r == cvWin c + pl + pr && refD2 r == cvHin c + pt + pb && refLayout r == 0), .badShape),
    (7, 2 ≤ k && k ≤ 5 && cvCout c != cvCin c, .badShape),
    (8, k == 5 && !(cvKH c % 2 == 1 && cvKW c % 2 == 1 && cvKH c * cvKW c ≤ 257 && (refFmt r == 2 || refFmt r == 3)), .badShape),
    (9, k == 1 && !(cvKH c == 3 && cvKW c == 3 && cvSH c == 1 && cvSW c == 1 && cvDH c == 1 && cvDW c == 1
      && (refFmt r == 9 || refFmt r == 10)), .badParam),
    (10, k == 1 && x.inSet && sRun, .badParam),
    (11, k == 0 && x.p.descs.zipIdx.any (fun d => d.1.kind == .me && tapLayer x.p d.2 == fld c 0 15 0
      && !(decide (refBase r ≤ refBase (mdA d.1)) && decide (refBase (mdA d.1) + refEnd (mdA d.1) ≤ refBase r + refEnd r))), .badParam),
    (0, isLedge (refBase r) && decide (x.p.resBytes < (refBase r - 0x0400_0000) % 0x20_0000 + refEnd r), .badParam)]

-- Fallback (R124)

/-- LAST descriptors of a layer. -/
def lastsOf (p : Plan) (l : Nat) : List Desc := p.descs.filter (fun d => d.kind == .me && d.last && d.layer == l)

/-- LAYER_IDs of the plan's matrix layers, rising. -/
def meLayers (p : Plan) : List Nat :=
  let ls := ((p.descs.filter (fun d => d.kind == .me && d.last)).map Desc.layer).eraseDups
  (List.range 65536).filter (fun l => ls.contains l)

def fbOf (p : Plan) (l : Nat) : Option (List Word) := p.fbs.find? (fun f => fld f 0 15 0 == l)

/-- Ordinal of a layer's fallback entry, 0 without one. -/
def fbIndex (p : Plan) (l : Nat) : Nat := (p.fbs.findIdx? (fun f => fld f 0 15 0 == l)).getD 0

/-- The tiles of a layer: chains that end with a LAST descriptor of it. -/
def tilesOf (p : Plan) (l : Nat) : List (List Desc) :=
  ((p.groups.flatten.flatten).map (fun it => it.map (fun k => p.descs.getD k default))).filter (fun ds =>
    let d := ds.getLastD default
    d.kind == .me && d.last && d.layer == l)

/-- Two tiles agree on all that R124 compares. -/
def tileLike (fmt : Nat) (t u : List Desc) : Bool :=
  let a := t.getLastD default
  let b := u.getLastD default
  t.length == u.length && a.tile == b.tile && a.layer == b.layer && mdFb b == 15 && refFmt (mdC b) == fmt
    && (t.zip u).all (fun x => mdM x.1 == mdM x.2 && mdN x.1 == mdN x.2 && mdK x.1 == mdK x.2 && mdMode x.1 == mdMode x.2
      && mdA x.1 == mdA x.2 && mdB x.1 == mdB x.2)

def selfList (s : State) (f : List Word) : List Desc :=
  (List.range (wd f 1).toNat).map (fun i => { kind := .me, words := s.mem.words (pair48 (wd f 2) (wd f 3) + 128 * i) 32 })

def altList (s : State) (f : List Word) : List (List Word) :=
  (List.range (wd f 4).toNat).map (fun i => s.mem.words (pair48 (wd f 5) (wd f 6) + 16 * i) 4)

/-- The tensors of a layer's output, by base. -/
def layerOuts (p : Plan) (l : Nat) : List Nat := (lastsOf p l).map (fun d => match tensorIn p.tensors (mdC d) with
  | some t => refBase t
  | none => refBase (mdC d))

/-- A task reads one of these tensors; a PAD task reads its buffer's rows for REPLICATE and REFLECT alone (R140). -/
def readsOut (p : Plan) (outs : List Nat) (d : Desc) : Bool :=
  let pad := d.kind == .ve && vdOp d == 7
  (!pad || 3 ≤ cvPad (convOf p d.layer)) && (d.insIn p).any (fun r => outs.contains (match tensorIn p.tensors r with | some t => refBase t | none => refBase r))

/-- The layer is the last of its group: no later item of the group is of another layer. -/
def lastInGroup (p : Plan) (l : Nat) : Bool :=
  p.groups.all (fun g => g.all (fun ch =>
    let ls := ch.map (fun it => (p.descs.getD (it.getLastD 0) default).layer)
    !ls.contains l || ls.getLastD 0 == l))

/-- The items of R124 in list order, each over its subjects in increasing LAYER_ID or ordinal (R543). -/
def fbBad (x : PlanCtx) : Bad :=
  let p := x.p
  let ls := meLayers p
  let en (l : Nat) : Bool := (lastsOf p l).any (fun d => mdFb d != 15)
  let fb (l : Nat) : Nat := mdFb ((lastsOf p l).headD default)
  let fbl := ls.filter en
  let each (row : Nat) (f : Nat → Bool) (l : List Nat) : Bad :=
    match l.find? (fun k => !f k) with
    | some k => some (.badParam, 3, row, fbIndex p k)
    | none => none
  let descs (row : Nat) (f : Desc → Bool) : Bad :=
    match p.descs.findIdx? (fun d => d.kind == .me && d.last && !f d) with
    | some o => some (.badParam, 3, row, o)
    | none => none
  let int8 (f : Nat) : Bool := f == 0 || f == 1 || f == 2
  let entryOk (f : List Word) : Bool := ls.contains (fld f 0 15 0) && fb (fld f 0 15 0) == fld f 0 19 16 && fld f 0 19 16 != 15
    && zero f 0 31 20 && zero f 3 31 16 && zero f 6 31 16 && wd f 7 == 0 && fld f 2 4 0 == 0 && fld f 5 4 0 == 0
  [each 1 (fun l => x.jobOrds.all (fun os =>
     let ds := (os.map (fun o => p.descs.getD o default)).filter (fun d => d.kind == .me && d.last && d.layer == l)
     ds.all (fun d => mdFb d == mdFb (ds.headD default) && mdThresh d == mdThresh (ds.headD default)))) ls,
   ((List.range 65536).filter (fun l => fbl.contains l || (fbOf p l).isSome)).findSome? (fun l =>
     match p.fbs.findIdx? (fun f => fld f 0 15 0 == l && !entryOk f) with
     | some i => some (.badParam, 3, 2, i)
     | none => if (fbOf p l).isSome then none else some (.badParam, 3, 2, 0)),
   descs 3 (fun d => mdFb d != 3 || int8 (refFmt (mdC d))),
   descs 4 (fun d => mdFb d != 10 || (mdMode d == 0 && (int8 (refFmt (mdC d)) || (5 ≤ refFmt (mdC d) && refFmt (mdC d) ≤ 8)))),
   each 5 (fun l => match fbOf p l with
     | some f =>
       let u := splitChains (selfList x.s f) []
       let t := tilesOf p l
       u.length == t.length && t.all (fun a => (u.filter (tileLike (fb l) a)).length == 1)
     | none => true) fbl,
   each 6 (fun l => lastInGroup p l && (layerOuts p l).all (fun b =>
     !(p.outputs.any (fun k => refBase (p.tensors.getD k []) == b)))) fbl,
   (match p.descs.zipIdx.find? (fun d =>
       let outs := fbl.filter (fun l => readsOut p (layerOuts p l) d.1)
       1 < outs.length || outs.any (fun l => match fbOf p l with
         | some f => ((altList x.s f).filter (fun w => (wd w 0).toNat == d.2)).length != 1
         | none => true)) with
    | some d => some (.badParam, 3, 7, d.2)
    | none => none)].findSome? id

-- Streams (R248, R250)

def streamDescBad (x : PlanCtx) (y : Desc × Nat) : Bad :=
  let d := y.1
  let src := dref d 8
  let dst := dref d 16
  firstRow 7 y.2 [
    (0, !(zero d.words 0 31 1 && zeros d.words 1 8 && refCodes src && refCodes dst && refAligned x.s src false
      && refAligned x.s dst true && refPlaced x.s x.p.resBytes src true && refPlaced x.s 0 dst false
      && fld src 1 31 16 == fld dst 1 31 16 && wd src 2 == wd dst 2 && wd src 3 == wd dst 3), .badParam),
    (0, !refExtents src, .badShape)]

def streamRecBad (x : PlanCtx) (y : List Word × Nat) : Bad :=
  let r := y.1
  match firstRow 7 y.2 [
    (0, !(fld r 0 15 0 == y.2 && zero r 0 31 20 && zero r 1 31 7 && fld r 1 6 0 ≤ 64 && fld r 2 4 0 == 0 && zero r 3 31 16
      && zeros r 4 8), .badParam)] with
  | some b => some b
  | none => firstBad (streamDescBad x) (prefetchOf x.s r).zipIdx

/-- The resident image (R250). -/
def residentBad (x : PlanCtx) : Bad :=
  if x.p.resBytes % 65536 == 0 && x.p.resBytes ≤ 0x18_0000 then none else some (.badParam, 7, 0, 0)

/-- A set's plan with a Mapin group that lacks this node (R335). -/
def groupBad (x : PlanCtx) : Bad :=
  if x.inSet && !x.p.members.isEmpty && !(x.s.map.valid && x.p.members.contains x.s.map.nodeId) then some (.badParam, 0, 0, 0)
  else none

/-- A plan or a job image in the four stages of R543. -/
def planBad (x : PlanCtx) : Bad :=
  [residentBad x, firstBad (descBad x) x.p.descs.zipIdx, firstBad (convBad x) x.p.convs.zipIdx, fbBad x,
   firstBad (streamRecBad x) x.p.streams.zipIdx, groupBad x].findSome? id

-- Sensor configuration (R304, R325)

def idxOf {α : Type} (st row : Nat) (f : α → Bool) (l : List α) (status : Status) : Bad :=
  (l.findIdx? f).map (fun i => (status, st, row, i))

/-- Filters with their MAC and index. -/
def filtersOf (c : SensorCfg) : List (List Word × Nat × Nat) :=
  c.macs.zipIdx.flatMap (fun m => (List.range 16).map (fun k => ((m.1.drop (4 + 4 * k)).take 4, m.2, k)))

def validStreams (c : SensorCfg) : List (List Word × Nat) := c.streams.zipIdx.filter (fun e => stValid e.1)

def streamCodes (e : List Word × Nat) : Bool :=
  let w := e.1
  fld w 0 5 0 == e.2 && zero w 0 31 30 && zero w 1 7 5 && zero w 1 31 16 && wd w 7 == 0 && fld w 0 29 27 != 0
    && zero w 5 31 16
    && (if stEth w then stPort w < 8 && stSlotNo w == 0 && stClose w != 3
          && (match stClose w with
              | 0 => stCloseArg w == 0
              | 2 => bits (stCloseArg w) 31 27 == 0
              | _ => true)
        else stCloseArg w == 0)

def portCodes (w : List Word) : Bool :=
  let m := fld w 0 1 0
  if m = 0 then true else
  m != 3 && (let g := fld w 0 4 2; 1 ≤ g && g ≤ (if m = 1 then 5 else 4)) && zero w 0 31 13 && zero w 1 31 10 && zero w 2 31 24
    && zero w 3 31 4

def macCodes (w : List Word) : Bool := zero w 0 31 3 && zero w 2 31 16 && wd w 3 == 0
def filterCodes (w : List Word) : Bool := !bit (wd w 0) 0 || zero w 0 31 22

def ispCodes (s : State) (w : List Word) : Bool :=
  let adr (i : Nat) : Bool := let a := pair48 (wd w i) (wd w (i + 1))
                              zero w (i + 1) 31 16 && a % 64 == 0 && (a < 0x0400_0000 || isDram s a)
  zero w 0 31 18 && icExpo w != 0 && zero w 6 31 16 && zero w 11 31 16 && zero w 13 31 16 && zeros w 20 24
    && (!icMono w || (!icStage w 5 && !icStage w 6 && !icStage w 7))
    && (!icStage w 4 || adr 14) && (!icStage w 8 || adr 16) && (!icStage w 1 || adr 18)

/-- The ISP context of a stream entry in a configuration. -/
def cfgCtx (c : SensorCfg) (e : List Word) : List Word := c.isps.getD (stIspNo e * 16 + stCtx e) []

/-- Bytes of a camera stream's rows and stamp array (R283). -/
def camBytes (c : SensorCfg) (e : List Word) : Nat :=
  let p := if stIsp e then rowPitch (icFmt (cfgCtx c e)) (stWidth e * icCh (cfgCtx c e))
    else rowPitch (rawFmt (stDt e)) (stWidth e * (if isYuv (stDt e) then 2 else 1))
  stLines e * p + (if stStamps e then 8 * stLines e else 0)

/-- Line-buffer bytes of an ISP's contexts in use (R292). -/
def cfgLb (c : SensorCfg) (isp : Nat) : Nat :=
  ((List.range 16).map (fun k =>
    match (validStreams c).find? (fun e => !stEth e.1 && stIsp e.1 && stIspNo e.1 == isp && stCtx e.1 == k) with
    | some e => 4 * stWidth e.1 * (5 + icExpo (cfgCtx c e.1))
    | none => 0)).sum

def sensorRow2 (c : SensorCfg) : Bad :=
  let vs := validStreams c
  let mode (p : Nat) : Nat := fld (c.ports.getD p []) 0 1 0
  match vs.find? (fun e =>
    if stEth e.1 then !(filtersOf c).any (fun f => bit (wd f.1 0) 0 && fld f.1 0 9 4 == e.2 && !bit (wd (c.macs.getD f.2.1 []) 0) 2)
    else mode (stPort e.1) != 1 || vs.any (fun g => decide (g.2 < e.2) && !stEth g.1 && stPort g.1 == stPort e.1 && stSlotNo g.1 == stSlotNo e.1)) with
  | some e => some (.badParam, 8, 2, e.2)
  | none => ((filtersOf c).find? (fun f => bit (wd f.1 0) 0 &&
      !vs.any (fun e => stEth e.1 && e.2 == fld f.1 0 9 4))).map (fun f => (.badParam, 8, 2, 16 * f.2.1 + f.2.2))

def bufRegion (e : List Word) : Nat × Nat := (stBuf e, stNbuf e * stStride e)

def sensorRow3 (s : State) (c : SensorCfg) : Bad :=
  let vs := validStreams c
  (vs.find? (fun e =>
    let r := bufRegion e.1
    !(stBuf e.1 % 64 == 0 && stStride e.1 % 64 == 0 && (r.1 + r.2 ≤ 0x0400_0000 || inDram s r.1 r.2))
      || vs.any (fun g => decide (g.2 < e.2) && overlaps r.1 r.2 (bufRegion g.1).1 (bufRegion g.1).2))).map (fun e => (.badParam, 8, 3, e.2))

def sensorBad (s : State) (t : TideTable) (p : Plan) (c : SensorCfg) : Bad :=
  let vs := validStreams c
  let row1 : Bad := [
    (if fld c.hdr 0 15 0 == 1 && zero c.hdr 0 31 16 && zeros c.hdr 6 16 then none else some (.badParam, 8, 1, 0)),
    (vs.find? (fun e => !streamCodes e)).map (fun e => (.badParam, 8, 1, e.2)),
    idxOf 8 1 (fun w => !portCodes w) c.ports .badParam,
    c.macs.zipIdx.findSome? (fun m =>
      if !macCodes m.1 then some (.badParam, 8, 1, m.2)
      else ((filtersOf c).find? (fun f => f.2.1 == m.2 && !filterCodes f.1)).map (fun f => (.badParam, 8, 1, 16 * f.2.1 + f.2.2))),
    idxOf 8 1 (fun w => !ispCodes s w) c.isps .badParam].findSome? id
  let row4 : Bad := (vs.find? (fun e => !stEth e.1 && decide (stStride e.1 < camBytes c e.1))).map (fun e => (.badShape, 8, 4, e.2))
  let noStream (a : Nat) : Bool := !vs.any (fun e => stArrival e.1 == a)
  let row5 : Bad := idxOf 8 5 (fun e => (List.range 64).any (fun a => (teArr e).getLsbD a && noStream a)) t.entries .badParam
  let row6 : Bad := [
    (vs.find? (fun e => !stEth e.1 && stIsp e.1 && ((dtBits (stDt e.1) == 0)
      || (icStage (cfgCtx c e.1) 1 && stDt e.1 != 0x2D)))).map (fun e => (.badParam, 8, 6, e.2)),
    ((List.range 2).find? (fun n => decide (3145728 < cfgLb c n))).map (fun n => (.badParam, 8, 6, 16 * n))].findSome? id
  let row7 : Bad := idxOf 8 7 (fun w => fld w 0 1 0 == 2 &&
    !(fld (c.ports.getD (fld w 1 3 0) []) 0 1 0 == 1 &&
      vs.any (fun e => !stEth e.1 && stPort e.1 == fld w 1 3 0 && stSlotNo e.1 == fld w 1 4 4))) c.ports .badParam
  let row8 : Bad := idxOf 8 8 (fun d => d.kind == .pcl && !vs.any (fun e => stEth e.1 && e.2 == fld d.words 1 5 0)) p.descs .badParam
  let tv (ch : Nat) : Bool := bit (wd (c.trigs.getD ch []) 0) 0
  let t1 : Bad := idxOf 9 1 (fun w => !(fld w 0 2 1 != 3 && zero w 0 31 4 && zero w 1 31 27 && zero w 2 31 27 && zero w 3 31 16)
    || (bit (wd w 0) 0 && fld w 0 2 1 == 1 && (decide (fld w 2 26 0 < 10000) || fld w 3 15 0 == 0))) c.trigs .badParam
  let t2 : Bad := idxOf 9 2 (fun w => bit (wd w 0) 0 && fld w 0 2 1 ≤ 1 &&
    decide (ttPeriod t ≤ fld w 1 26 0 + (if fld w 0 2 1 = 1 then (fld w 3 15 0 - 1) * fld w 2 26 0 else 0))) c.trigs .badParam
  let pps := (List.range 32).filter (fun ch => tv ch && bit (wd (c.trigs.getD ch []) 0) 3)
  let t3 : Bad := match pps with
    | _ :: b :: _ => some (.badParam, 9, 3, b)
    | _ => none
  let named := (vs.filter (fun e => stTriggered e.1)).map (fun e => stTrig e.1)
    ++ (c.ports.filter (fun w => fld w 0 1 0 != 0 && (bit (wd w 2) 5 || bit (wd w 2) 6))).map (fun w => fld w 2 4 0)
  let t4 : Bad := ((List.range 32).find? (fun ch => named.contains ch && !tv ch)).map (fun ch => (.badParam, 9, 4, ch))
  [row1, sensorRow2 c, sensorRow3 s c, row4, row5, row6, row7, row8, t1, t2, t3, t4].findSome? id

-- The plausibility program (R363)

def ruleKind (r : List Word) : Nat := fld r 0 7 0
def ruleEvid (r : List Word) : Nat := fld r 1 3 0
def evRef (e : List Word) : List Word := (e.drop 4).take 8

/-- Bytes of an evidence entry's rows. -/
def evBytes (e : List Word) : Nat := refRows (evRef e) * rowBytes (evRef e)

/-- The position at which the running total first exceeds a limit. -/
def overAt (limit : Nat) (l : List Nat) : Option Nat :=
  (List.range l.length).find? (fun i => limit < (l.take (i + 1)).sum)

def progBad (t : TideTable) (sc : SensorCfg) (g : Program) : Bad :=
  let h := g.hdr
  let nr := fld h 0 31 16
  let ne := fld h 1 4 0
  let nl := fld h 1 7 5
  let jobs := t.entries.length
  let evs (r : List Word) : List Word := g.evids.getD (ruleEvid r) []
  let f32 (i : Nat) : FV := dec32 (wd h i)
  let sJob (j : Nat) : Bool := decide (j < jobs) && teSClass (t.entries.getD j [])
  let rres (r : List Word) : Bool :=
    let used : List Nat := match ruleKind r with
      | 1 => [2] | 2 => [2, 3, 4] | 3 => [2, 3] | 4 => [2, 3, 4] | 5 => [2, 3] | _ => [2, 3]
    1 ≤ ruleKind r && ruleKind r ≤ 6 && zero r 0 15 9 && zero r 1 31 4
      && (List.range 6).all (fun i => used.contains (i + 2) || wd r (i + 2) == 0)
      && (match ruleKind r with
          | 2 => zero r 4 31 27
          | 3 => zero r 2 31 10 && zero r 3 31 27
          | 6 => zero r 2 31 24 && 1 ≤ fld r 2 7 0 && fld r 2 7 0 ≤ 16 && fld r 2 15 8 ≤ 8
          | _ => true)
  let rep (x : List Word × Nat) : Bool := fld x.1 0 31 16 == 0
    || (g.rules.take x.2).any (fun y => fld y 0 31 16 == fld x.1 0 31 16)
  let deltaBytes (x : List Word × Nat) : Nat :=
    if ruleKind x.1 == 5 && !(g.rules.take x.2).any (fun y => ruleKind y == 5 && ruleEvid y == ruleEvid x.1) then evBytes (evs x.1) else 0
  [(if fld h 0 15 0 == 1 && 1 ≤ nr && nr ≤ 256 && ne ≤ 16 && nl ≤ 4 && 1 ≤ fld h 3 15 0 && fld h 3 15 0 ≤ 256 && 1 ≤ fld h 3 31 16
        && fld h 3 31 16 ≤ 256 && g.bodyLen == 64 + 80 * nl + 48 * ne + 32 * nr && FV.lt FV.zero (f32 6) && !FV.lt (f32 8) (f32 7)
        && !(f32 7).isNan && !(f32 8).isNan then none else some (.badParam, 10, 1, 0)),
   (if 1 ≤ fld h 2 15 8 && 1 ≤ fld h 2 23 16 && 1 ≤ fld h 9 7 0 then none else some (.badParam, 10, 2, 0)),
   (if zero h 1 31 8 && zero h 2 31 24 && zero h 9 31 8 && zeros h 10 16 then none else some (.badParam, 10, 3, 0)),
   idxOf 10 3 (fun l => !(zero l 0 31 8 && fld l 0 7 6 != 3 && zero l 1 31 24 && zero l 2 31 16 && zero l 3 31 24 && zeros l 17 20)) g.lidars .badParam,
   idxOf 10 3 (fun e => !(zero e 0 15 10 && zeros e 1 4 && zero (evRef e) 1 31 29)) g.evids .badParam,
   (g.rules.zipIdx.find? (fun x => !rres x.1 || rep x)).map (fun x => (.badParam, 10, 3, x.2)),
   idxOf 10 4 (fun l => let e := sc.streams.getD (fld l 0 5 0) []; !(stValid e && stEth e)) g.lidars .badParam,
   idxOf 10 5 (fun e : List Word × Nat => !sJob (fld e.1 0 9 0) || decide (393216 < ((g.evids.take (e.2 + 1)).map evBytes).sum)) g.evids.zipIdx .badParam,
   idxOf 10 6 (fun r => 4 ≤ ruleKind r && ne ≤ ruleEvid r) g.rules .badParam,
   (overAt 131072 (g.rules.zipIdx.map deltaBytes)).map (fun i => (.badParam, 10, 7, i)),
   idxOf 10 8 (fun r => ruleKind r == 6 && !(
     let e := evRef (evs r)
     1 ≤ nl && refFmt e == 2 && refD0 e == fld h 3 15 0 * fld r 2 7 0 && refD1 e == fld h 3 31 16 * fld r 2 7 0
       && refD2 e == 1 && refD3 e == 1)) g.rules .badParam,
   idxOf 10 9 (fun r => (ruleKind r == 3 && jobs ≤ fld r 2 9 0) || (ruleKind r == 1 && jobs < fld r 2 15 0 + fld r 2 31 16)) g.rules .badParam].findSome? id

/-- The commit checks of a slot's four objects, in KIND order (R543). -/
def setBad (s : State) (t : TideTable) (p : Plan) (c : SensorCfg) (g : Program) : Bad :=
  [tideBad t p.streams.length, planBad (PlanCtx.mk s p true (sClassOrds t p) (t.entries.map (entryOrds p)) c), sensorBad s t p c, progBad t c g].findSome? id

/-- The checks of a RUN_JOB image (R466). -/
def imageBad (s : State) (p : Plan) : Bad := planBad (PlanCtx.mk s p false [] [List.range p.descs.length] (activeSet s).sensor)

-- Test packs (R385, R386)

/-- Places of the address pairs in a descriptor, beside those of its references. -/
def addrWords : EngKind → List (Nat × Nat) × List Nat
  | .me => ([(4, 5)], [8, 16, 24])
  | .ve => ([(3, 4)], [8, 16, 24])
  | .ae => ([], [16, 24, 32, 40, 48, 56])
  | .warp => ([], [8, 16, 24, 32])
  | .crop => ([(4, 5), (7, 24)], [8, 16])
  | .pcl => ([(28, 29)], [32, 40])
  | .sort => ([(4, 5)], [8, 16, 24, 32, 40])

/-- The pack's base is added to a pair of words; other bits of the high word stay. -/
def relocPair (base : Nat) (w : List Word) (x : Nat × Nat) : List Word :=
  let a := pair48 (wd w x.1) (wd w x.2) + base
  setAt (setAt w x.1 (addrLo a)) x.2 (BitVec.ofNat 32 (a / 2 ^ 32 % 65536) ||| (wd w x.2 &&& 0xFFFF_0000))

/-- A descriptor with the pack's base added to every address (R385). -/
def relocate (base : Nat) (d : Desc) : Desc :=
  let a := addrWords d.kind
  { d with words := (a.1 ++ a.2.map (fun i => (i, i + 1))).foldl (relocPair base) d.words }

/-- Descriptors of a slice. -/
def sliceDescs (p : Pack) (bs : List Byte) (x : List Word) : List Desc :=
  let k := kindOf (fld x 0 2 0)
  (List.range (wd x 2).toNat).map (fun i =>
    relocate p.addr { kind := k, words := bytesWords (slice bs ((wd x 1).toNat + 4 * descWords k * i) (4 * descWords k)) })

/-- A pack's structure, the lengths of its slices and their descriptors: status, ROW and INDEX of the first failure (R378,
R385, R386). -/
def packBad (s : State) (p : Pack) (bs : List Byte) : Option (Status × Nat × Nat) :=
  let h := bytesWords (bs.take 64)
  let n := (wd h 2).toNat
  let slBad (x : List Word × Nat) : Bool :=
    let w := x.1
    let k := kindOf (fld w 0 2 0)
    fld w 0 2 0 == 7 || !zero w 0 15 3 || !zeros w 6 8 || decide (12500 < fld w 0 31 16) || decide (bs.length < (wd w 1).toNat + 4 * descWords k * (wd w 2).toNat)
      || decide (bs.length < (wd w 4).toNat + (wd w 5).toNat)
  if !(bs.length ≥ 64 && fld h 0 15 0 == 1 && zero h 0 31 16 && 1 ≤ n && n ≤ 1024 && (wd h 4).toNat == bs.length && zeros h 5 16
      && (wd h 3).toNat + 32 * n ≤ bs.length) then some (.badParam, 0, 0)
  else match p.slices.zipIdx.find? slBad with
    | some x => some (.badParam, 0, x.2)
    | none =>
      if !(List.range 7).all (fun k => p.slices.any (fun x => fld x 0 2 0 == k)) then some (.badParam, 0, 0)
      else p.slices.zipIdx.findSome? (fun x =>
        let ds := sliceDescs p bs x.1
        let pl : Plan := { descs := ds, groups := [[splitChains ds [] |>.foldl (fun (a : List (List Nat) × Nat) c =>
          (a.1 ++ [(List.range c.length).map (· + a.2)], a.2 + c.length)) ([], 0) |>.1]] }
        (firstBad (descBad (PlanCtx.mk s pl false [] [] {})) ds.zipIdx).map (fun _ => (.badParam, 0, x.2)))

end Sys2Proof.Machine
end

