-- ==== Sys2Proof/Machine/Security.lean ====
section
/-! DEFINITION. Firmware load, fuses, lifecycle, debug, attestation, and the commands ECHO, GET_INFO and GET_STATUS
(R466, R494 to R510, R514). -/

namespace Sys2Proof.Machine

/-- SET.SLOT_STATE (R53). -/
def slotStateWord (s : State) : Nat :=
  s.sets.slot0.st.code + 16 * s.sets.slot1.st.code + 256 * b2n s.sets.activeSlot + 512 * b2n s.sets.swapPending

def inSlack (s : State) : Bool := s.sch.phase == .slack
def inJudge (s : State) : Bool := s.sch.phase == .judge

/-- GET_STATUS word 0 (R466). -/
def statusWord (s : State) : Nat :=
  s.sch.run.code + 4 * s.saf.trust.code + 16 * b2n (inSlack s) + 32 * b2n (inJudge s)
  + 64 * (slotStateWord s % 1024) + 2 ^ 16 * b2n s.saf.injFail + 2 ^ 17 * (fcSummary s % 8)

/-- ECHO (R466). -/
def doEcho (k : Pkt) (s : State) : Ans := (s, some (.ok, k.params))
def execEcho (k : Pkt) (s : State) : Out := .next (command 0x01 0 k (doEcho k) s)

/-- GET_INFO (R2, R466). -/
def doGetInfo (_k : Pkt) (s : State) : Ans :=
  (s, some (.ok, [0x1620_00B1, match s.part with | .a48 => 48 | .a96 => 96,
    addrLo (dramBytes s.part), addrHi (dramBytes s.part), s.sec.fwVersion,
    BitVec.ofNat 32 s.sec.lifecycle.code, BitVec.ofNat 32 (s.map.nodeId.toNat + 2 ^ 16 * b2n s.map.valid), s.saf.pack.id]))
def execGetInfo (k : Pkt) (s : State) : Out := .next (command 0x02 0 k (doGetInfo k) s)

/-- GET_STATUS (R466). -/
def doGetStatus (_k : Pkt) (s : State) : Ans :=
  (s, some (.ok, [BitVec.ofNat 32 (statusWord s), s.sch.seq, s.hl.lastSeq, BitVec.ofNat 32 s.hl.lastVerdict]))
def execGetStatus (k : Pkt) (s : State) : Out := .next (command 0x03 0 k (doGetStatus k) s)

-- Firmware (R494 to R496)

/-- Items 9 to 13 of the firmware checks (R496): 0 when all hold. -/
def imageRow (s : State) (addr len : Nat) (bs : List Byte) : Nat :=
  let body := bs.take (len - 2240)
  let blk := bs.drop (len - 2240)
  let h := bytesWords (body.take 128)
  let secs := (List.range 4).map (fun i => (secOfs h i, secLen h i))
  let mx := [0x10_0000, 0x10_0000, 0x4_0000, 0x100_0000]
  let inBody := (secs.zip mx).all (fun x => x.1.1 % 64 == 0 && 1 ≤ x.1.2 && x.1.2 ≤ x.2 && x.1.1 + x.1.2 ≤ body.length)
  let apart := (List.range 4).all (fun i => (List.range i).all (fun j =>
    !overlaps (secs.getD i (0, 0)).1 (secs.getD i (0, 0)).2 (secs.getD j (0, 0)).1 (secs.getD j (0, 0)).2))
  let pk := slice body (secOfs h 3) (secLen h 3)
  if fld h 0 15 0 != 1 || fld h 0 31 16 != 0 || fld h 2 7 7 != 0 || fld h 2 11 9 != 0 || fld h 2 31 16 != 0
    || wd h 3 != 0 || fld h 13 31 16 != 0 || !((h.drop 14).all (· == 0)) then 9
  else if addr % 64 != 0 || !inDram s addr len || 0x400_0000 < len then 10
  else if !inBody || !apart then 11
  else if (packBad s (parsePack (addr + secOfs h 3) (secLen h 3) pk) pk).isSome then 12
  else if sigSigner blk = 0 && bit (wd h 2) (12 + fld (hdrWords blk) 3 11 10) then 13
  else 0

/-- LOAD_FIRMWARE (R494, R496, R501): the region is protected from acceptance, before every read of it. -/
def doLoadFirmware (k : Pkt) (s : State) : Ans :=
  let addr := pair48 (wd k.params 0) (wd k.params 1)
  let len := (wd k.params 2).toNat
  if fld k.params 1 31 16 != 0 then badWord s 3
  else if s.sec.fwRunning then refuse s .wrongState []
  else if s.sec.load.isSome then refuse s .busy []
  else
    let bs := s.mem.read addr len
    let row0 := sigRow s 8 bs
    let row := if row0 = 0 then imageRow s addr len bs else row0
    let t := issueCmd s k.port
    let s := t.2
    let s := { s with sec := { s.sec with
      load := some { token := t.1, addr := addr, len := len, row := row }
      fwProt := (addr, len) :: s.sec.fwProt } }
    (s, some (.accepted, [t.1]))

def execLoadFirmware (k : Pkt) (s : State) : Out := .next (command 0x10 0 k (doLoadFirmware k) s)

/-- The fuses that an image asks for: the thermometer up to its SVN, within its 64 fuses, and the keys to revoke (R502). -/
def imageFuses (s : State) (a : Nat) : Option FuseJob :=
  let h := s.mem.words a 32
  let svn := if fld h 2 8 8 = 1 && s.sec.fwSvnMin < fld h 2 6 0 then min 64 (fld h 2 6 0) else 0
  let rev := (wd h 2).extractLsb' 12 4
  if svn = 0 && rev = 0 then none else some { svn := svn, revoke := rev }

/-- FUSE_PROGRAMMING_DONE (R502, R504): the fuses are blown; a chip warm reset that waited for it follows (R513). -/
def execFuseProgrammingDone (s : State) : Out :=
  .next (if halted s then s else match s.sec.fuse with
    | none => s
    | some f =>
      let s1 := { s with
        sec := { s.sec with
          fuse := none
          fwSvnMin := max s.sec.fwSvnMin f.svn
          udsDis := s.sec.udsDis || f.retire
          revoked := s.sec.revoked ||| f.revoke
          lifecycle := f.target.getD s.sec.lifecycle
          owner0 := match f.owner0 with | some d => some d | none => s.sec.owner0
          owner1 := match f.owner1 with | some d => some d | none => s.sec.owner1
          idCert := if f.cert.isEmpty then s.sec.idCert else f.cert }
        secw := { s.secw with resetAfter := false } }
      if s.secw.resetAfter then startWarm s1 2 else s1)

-- Debug and lifecycle tokens (R503 to R507)

/-- The transition that a lifecycle token asks for is one of R504's, by its signer. -/
def lcOk (l : Lifecycle) (target signer : Nat) : Bool :=
  match l with
  | .manufacture => (target == 1 || target == 3) && signer == 0
  | .provisioned => (target == 2 && signer == 2) || (target == 3 && signer == 0)
  | .field => target == 3 && signer == 1
  | .retired => false

/-- The state conditions of R504 and R507. -/
def lcState (s : State) : Bool := s.sch.run == .idle && s.saf.trust == .notArmed

/-- A token's row of failure after items 1 to 8 (R506): 10 body, 11 nonce, 12 state, 13 slot 1 fused; 0 none. -/
def tokenRow (s : State) (bs : List Byte) : Nat :=
  let bl := bs.length - 2240
  let body := bs.take bl
  let blk := bs.drop bl
  let w := bytesWords (body.take 128)
  let typ := fld w 0 7 0
  let target := fld w 0 9 8
  let prov := typ == 2 && s.sec.lifecycle == .manufacture && target == 1
  let badBody := !(1 ≤ typ && typ ≤ 3) || fld w 0 15 10 != 0 || fld w 0 31 18 != 0
    || (typ != 3 && !((w.drop 9).take 12).all (· == 0)) || !(w.drop 21).all (· == 0)
    || (typ != 2 && target != 0) || (typ != 1 && fld w 0 17 16 != 0)
    || bl != (if prov then 128 + 2124 else 128)
  if badBody then 10
  else if (w.drop 1).take 8 != s.sec.nonce then 11
  else if typ = 1 then (if s.sch.run == .idle then 0 else 12)
  else if !lcState s then 12
  else if typ = 2 then (if lcOk s.sec.lifecycle target (sigSigner blk) then 0 else 12)
  else if s.sec.lifecycle != .field || sigSigner blk != 1 || fld (hdrWords blk) 3 11 10 != 0 then 12
  else if s.sec.owner1.isSome then 13
  else 0

/-- TOKEN_DR status: [0] BUSY, [1] ACCEPTED, [2] FAILED, [11:4] ROW (R506). -/
def tokenFail (s : State) (row : Nat) : State :=
  { s with sec := { s.sec with tokBuf := [], tokStat := 4 + 16 * row, tokFailed := satAdd 0xFFFF s.sec.tokFailed 1 }
           secw := { s.secw with tok := none } }

/-- A whole token is verified; a verified one waits for its action's row of the table. -/
def verifyToken (s : State) (bs : List Byte) : State :=
  let row0 := sigRow s 10 bs
  if row0 != 0 then tokenFail (sigCount s false) row0 else
  let row := tokenRow s bs
  let s := sigCount s true
  if row != 0 then tokenFail s row else
  let bl := bs.length - 2240
  let w := bytesWords (bs.take 128)
  { s with
    sec := { s.sec with tokBuf := [], tokStat := 1 }
    secw := { s.secw with tok := some (DbgToken.mk (fld w 0 7 0) (fld w 0 9 8) (bit (wd w 0) 16) (bit (wd w 0) 17)
      (beNat (slice bs 36 48)) (keyDigest (bs.drop bl)) (slice bs 128 (bl - 128))) } }

/-- The instruction in force for the code loaded in the TAP (R505): one whose condition is not met acts as BYPASS. -/
def tapInstr (s : State) (c : Byte) : Byte :=
  if c == 0 || c == 3 || c == 4 then (if bscanOpen s && lcState s then c else 0xFF)
  else if c == 0x10 then (if dOpen s then c else 0xFF)
  else if c == 1 || c == 2 || c == 0x11 then c else 0xFF

/-- What the next Capture-DR holds: the IDCODE, the status of a token, or a word that CMD_DR has put there (R505, R506). -/
def captureDr (s : State) : State :=
  let c := tapInstr s s.sec.tap
  if c == 0x10 then s
  else { s with secw := { s.secw with
    dr := if c == 2 then 0xB162_0A3F else if c == 0x11 then BitVec.ofNat 40 s.sec.tokStat else 0 } }

/-- TOKEN_DR_WORD (R505, R506): one word of a token; a length beyond the 8 KiB buffer fails item 1. -/
def execTokenDrWord (w : Word) (s : State) : Out :=
  .next (if s.sec.tap != 0x11 || s.boot == .off || s.boot == .held then s else
    let buf := s.sec.tokBuf ++ [w]
    let len := (wd buf 0).toNat
    captureDr (
      if 8188 < len then settle s (tokenFail (sigCount s false) 1)
      else if len ≤ 4 * (buf.length - 1) then settle s (verifyToken s ((wordsBytes (buf.drop 1)).take len))
      else { s with sec := { s.sec with tokBuf := buf, tokStat := 0 } }))

def tokenDone (s : State) : State :=
  { s with sec := { s.sec with tokStat := 2 }, secw := { s.secw with tok := none } }

/-- DEBUG_UNLOCK (R507): the token is in force, and port D or boundary scan opens, until power-on or chip warm reset. -/
def execDebugUnlock (s : State) : Out :=
  .next (match s.secw.tok with
    | none => s
    | some t =>
      if t.typ != 1 then s
      else if s.sch.run != .idle then tokenFail s 12
      else tokenDone { s with sec := { s.sec with unlocked := true
                                                  dUnlock := s.sec.dUnlock || t.portD
                                                  bUnlock := s.sec.bUnlock || t.bscan } })

/-- LC_ADVANCE (R504): the fuses of the transition are programmed, and a chip warm reset follows. -/
def execLcAdvance (s : State) : Out :=
  .next (match s.secw.tok with
    | none => s
    | some t =>
      if t.typ != 2 || s.sec.fuse.isSome then s
      else if !lcState s then tokenFail s 12
      else
        let s1 := tokenDone s
        let f : FuseJob :=
          { target := some (if t.target = 1 then .provisioned else if t.target = 2 then .field else .retired)
            owner0 := if t.target = 2 then some t.keyDigest else none
            cert := if t.target = 1 then t.cert else [], retire := decide (t.target = 3) }
        { s1 with sec := { s1.sec with fuse := some f }, secw := { s1.secw with resetAfter := true } })

/-- ADD_OWNER (R504): owner slot 1 is fused, once; a chip warm reset follows. -/
def execAddOwner (s : State) : Out :=
  .next (match s.secw.tok with
    | none => s
    | some t =>
      if t.typ != 3 || s.sec.fuse.isSome then s
      else if !lcState s then tokenFail s 12
      else if s.sec.owner1.isSome then tokenFail s 13
      else
        let s1 := tokenDone s
        { s1 with sec := { s1.sec with fuse := some { owner1 := some t.newOwner } }
                  secw := { s1.secw with resetAfter := true } })

/-- JTAG_INSTRUCTION_UPDATE (R505): leaving EXTEST, CLAMP or HIGHZ starts a chip warm reset. -/
def execJtagInstructionUpdate (code : Byte) (tapReset : Bool) (s : State) : Out :=
  let old := tapInstr s s.sec.tap
  let s1 := captureDr { s with sec := { s.sec with tap := if tapReset then 0x02 else code } }
  let leaves := (old == 0 || old == 3 || old == 4) && tapInstr s s1.sec.tap != old
  .next (if leaves then startWarm s1 2 else s1)

-- Certificates and attestation (R509, R510)

/-- GET_CERTS (R466, R509). -/
def doGetCerts (k : Pkt) (s : State) : Ans :=
  let c := fld k.params 0 3 0
  if fld k.params 0 31 4 != 0 || 1 < c then badWord s 2 else
  let cert := if c = 0 then s.sec.idCert else if s.sec.fwRunning then s.sec.aliasCert else []
  let ofs := (wd k.params 1).toNat
  if cert.isEmpty then badWord s 2
  else if cert.length ≤ ofs then badWord s 3
  else (s, some (.ok, BitVec.ofNat 32 cert.length :: bytesWords (slice cert ofs 4080)))

def execGetCerts (k : Pkt) (s : State) : Out := .next (command 0x71 0 k (doGetCerts k) s)

/-- An object of a slot by KIND (R467). -/
def objOf (x : Slot) (kind : Nat) : Option ObjRef := x.objs.find? (fun o => o.kind == kind)

/-- SHA-384 of a slot's manifest body as memory holds it; 0 when absent. -/
def manifestDigest (s : State) (x : Slot) : Nat :=
  match objOf x 4 with
  | some o => Config.sha384 (s.mem.read o.addr (o.len - 2240))
  | none => 0

def digestWords (d : Nat) : List Word := bytesWords (natBytesBE 48 d)

/-- Words 0 to 79 of the attestation report (R510). -/
def attestWords (nonce : List Word) (s : State) : List Word :=
  let act := slotOf s s.sets.activeSlot
  let oth := slotOf s (!s.sets.activeSlot)
  [0x1620_00B1,
   BitVec.ofNat 32 (s.sec.lifecycle.code + 4 * b2n s.sec.dUnlock + 8 * b2n s.sec.bUnlock
     + 16 * b2n (hasActive s && act.unanchored) + 32 * s.sec.fwSvnMin),
   s.sec.serial.extractLsb' 0 32, s.sec.serial.extractLsb' 32 32] ++ nonce ++ digestWords s.sec.fwDigest
  ++ [s.sec.fwVersion, BitVec.ofNat 32 s.sec.fwSvn]
  ++ digestWords (if hasActive s then manifestDigest s act else 0)
  ++ digestWords (if oth.st == .committed then manifestDigest s oth else 0)
  ++ [BitVec.ofNat 32 (slotStateWord s), s.saf.pack.id] ++ digestWords s.saf.pack.digest
  ++ [s.sch.seq, BitVec.ofNat 32 s.tb.ns, addrLo s.tb.sec, addrHi s.tb.sec, BitVec.ofNat 32 (statusWord s)]
  ++ maskWords s.fc.fsw ++ List.replicate 7 0

/-- ATTEST (R510): signed by the alias key; not permitted in RETIRED, nor after an erase until power-on. -/
def doAttest (k : Pkt) (s : State) : Ans :=
  if s.sec.lifecycle == .retired || s.sec.erased then refuse s .notPermitted [] else
  let w := attestWords (k.params.take 8) s
  let sig := (Config.ecdsaSign s.sec.aliasKey (wordsBytes w) ++ List.replicate 96 0).take 96
  (s, some (.ok, w ++ bytesWords sig))

def execAttest (k : Pkt) (s : State) : Out := .next (command 0x70 0 k (doAttest k) s)

end Sys2Proof.Machine
end

