-- ==== Sys2Proof/Machine/Sets.lean ====
section
/-! DEFINITION. Configuration sets: LOAD_OBJECT, VERIFY_OBJECT, COMMIT_SHADOW, SWAP_SETS and READ_SET_INFO, and the swap
itself (R37 to R44, R254, R466, R499, R501, R543). -/

namespace Sys2Proof.Machine

/-- The slot word of LOAD_OBJECT, VERIFY_OBJECT, COMMIT_SHADOW and READ_SET_INFO. -/
def slotArg (k : Pkt) : Bool := bit (wd k.params 0) 0

/-- The ACTIVE slot, or the shadow slot while a swap is pending (R40). -/
def slotLocked (s : State) (b : Bool) : Bool :=
  (slotOf s b).st == .active || (s.sets.swapPending && b != s.sets.activeSlot)

/-- Accepted work on a slot is live (R40). -/
def slotBusy (s : State) (b : Bool) : Bool := (slotOf s b).verTok.isSome || (slotOf s b).comTok.isSome

/-- An object joins a slot (R38, R39). -/
def putObj (x : Slot) (o : ObjRef) : Slot :=
  let y : Slot := if x.st == .loading then x else { st := .loading }
  let objs := o :: y.objs.filter (fun p => p.kind != o.kind)
  { y with objs := objs, st := if objs.length = 5 then .loaded else .loading }

/-- LOAD_OBJECT (R38 to R40, R466, R467, R501). -/
def doLoadObject (k : Pkt) (s : State) : Ans :=
  let b := slotArg k
  let kind := fld k.params 0 7 4
  let a := pair48 (wd k.params 1) (wd k.params 2)
  let n := (wd k.params 3).toNat
  if fld k.params 0 3 1 != 0 || fld k.params 0 31 8 != 0 || 5 ≤ kind then badWord s 2
  else if a % 64 != 0 || !isDram s a then badWord s 3
  else if fld k.params 2 31 16 != 0 then badWord s 4
  else if n = 0 then badWord s 5
  else if slotLocked s b then refuse s .wrongState []
  else if slotBusy s b then refuse s .busy []
  else if !inDram s a n then badWord s 5
  else if hits (slotRegions (slotOf s (!b)) ++ fwRegions s) a n then badWord s 3
  else (setSlot s b (putObj (slotOf s b) { kind := kind, addr := a, len := n }), some (.ok, []))

def execLoadObject (k : Pkt) (s : State) : Out := .next (command 0x11 0 k (doLoadObject k) s)

/-- VERIFY_OBJECT (R40, R466, R501): the regions are protected from acceptance. -/
def doVerifyObject (k : Pkt) (s : State) : Ans :=
  let b := slotArg k
  if fld k.params 0 31 1 != 0 then badWord s 2
  else if slotLocked s b || (slotOf s b).st != .loaded then refuse s .wrongState []
  else if slotBusy s b then refuse s .busy []
  else
    let t := issueCmd s k.port
    (setSlot t.2 b { slotOf t.2 b with verTok := some t.1, prot := true }, some (.accepted, [t.1]))

def execVerifyObject (k : Pkt) (s : State) : Out := .next (command 0x12 0 k (doVerifyObject k) s)

/-- Bytes of an object as memory holds them, and of its body. -/
def objBytes (s : State) (x : Slot) (kind : Nat) : List Byte :=
  match objOf x kind with
  | some o => s.mem.read o.addr o.len
  | none => []
def objBody (s : State) (x : Slot) (kind : Nat) : List Byte :=
  (objBytes s x kind).take ((objBytes s x kind).length - 2240)
def objBlock (s : State) (x : Slot) (kind : Nat) : List Byte :=
  (objBytes s x kind).drop ((objBytes s x kind).length - 2240)

/-- Item 9 of R499. -/
def manifestOk (s : State) (x : Slot) : Bool :=
  Config.manifestDigests (objBody s x 4) == (List.range 4).map (fun i => Config.sha384 (objBody s x i)) &&
  (List.range 4).all (fun i => sigSigner (objBlock s x i) == sigSigner (objBlock s x 4) &&
    keyDigest (objBlock s x i) == keyDigest (objBlock s x 4))

/-- Verification of a slot in the order of R499: objects of the kinds listed pass or the first failure is answered. -/
def verifyKinds (x : Slot) : List Nat → State → State × Option (Nat × Nat)
  | [], s => (s, none)
  | i :: r, s =>
    let row := sigRow s i (objBytes s x i)
    if row != 0 then (sigCount s false, some (row, i))
    else verifyKinds x r (if i = 4 then s else sigCount s true)

/-- Control pair A reads the slot's objects, and goes on unless one comes poisoned (R216, R220, R225, R390). -/
def readSlot (s : State) (x : Slot) (o : Nat → Ecc) (f : State → State) : State :=
  pairAGo s (x.objs.map (fun r => (r.addr, r.len))) o f

/-- The verification of a slot whose objects are read ends (R38, R466, R499). -/
def verifyDone (s : State) (b : Bool) : State :=
  let x := slotOf s b
  match x.verTok with
  | none => s
  | some t =>
    let r0 := verifyKinds x [0, 1, 2, 3, 4] s
    let r : State × Option (Nat × Nat) := match r0.2 with
      | some f => (r0.1, some f)
      | none => if manifestOk s x then (sigCount r0.1 true, none) else (sigCount r0.1 false, some (9, 4))
    match r.2 with
    | some f => finishTok (setSlot r.1 b { x with st := .failed, verTok := none }) t .sigFail (detail 0x0B f.1 f.2)
    | none => finishTok (setSlot r.1 b { x with st := .verified, verTok := none
                                                unanchored := sigSigner (objBlock s x 4) == 2 }) t .ok []

/-- VERIFY_OBJECT_DONE (R38, R390, R499): the work of control pair A ends, while it runs. `ecc` says what becomes of the
reads of some lines. -/
def execVerifyObjectDone (slot : Bool) (s : State) (ecc : List (Nat × Ecc) := []) : Out :=
  .next (if s.rst.pairA || (slotOf s slot).verTok.isNone then s
    else settle s (readSlot s (slotOf s slot) (eccFor ecc) (fun s => verifyDone s slot)))

/-- COMMIT_SHADOW (R40, R466). -/
def doCommitShadow (k : Pkt) (s : State) : Ans :=
  let b := slotArg k
  if fld k.params 0 31 1 != 0 then badWord s 2
  else if slotLocked s b || (slotOf s b).st != .verified then refuse s .wrongState []
  else if slotBusy s b then refuse s .busy []
  else
    let t := issueCmd s k.port
    (setSlot t.2 b { slotOf t.2 b with comTok := some t.1 }, some (.accepted, [t.1]))

def execCommitShadow (k : Pkt) (s : State) : Out := .next (command 0x13 0 k (doCommitShadow k) s)

/-- Where Headland keeps a slot's program in its memory (R355). -/
def progAddr (b : Bool) : Nat := 0x4_0000 + b2n b * 0x2_0000

/-- The plausibility program goes to Headland's memory (R390). -/
def loadProg (s : State) (b : Bool) (bs : List Byte) : State :=
  { s with hl := { s.hl with mem := s.hl.mem.write (progAddr b) bs } }

/-- The lists that a plan's records name: prefetch lists of layer groups, self lists and substitution lists (R124, R245). -/
def streamList (r : List Word) : Nat × Nat := (pair48 (wd r 2) (wd r 3), 96 * fld r 1 6 0)
def planLists (p : Plan) : List (Nat × Nat) :=
  p.streams.map streamList ++ p.fbs.flatMap (fun f =>
    [(pair48 (wd f 2) (wd f 3), 128 * (wd f 1).toNat), (pair48 (wd f 5) (wd f 6), 16 * (wd f 4).toNat)])

/-- The commit checks of a slot whose objects are read end; they read the plan's lists (R38, R390, R452, R543). -/
def commitDone (s : State) (b : Bool) (o : Nat → Ecc := asIs) : State :=
  let x := slotOf s b
  match x.comTok with
  | none => s
  | some t =>
    let td := parseTide (objBody s x 0)
    let p := parsePlan (objBody s x 1)
    let c := parseSensor (objBody s x 2)
    let g := parseProg (objBody s x 3)
    pairAGo s (planLists p) o fun s =>
    match setBad s td p c g with
    | some f => finishTok (setSlot s b { x with st := .failed, comTok := none }) t f.1 (detail f.2.1 f.2.2.1 f.2.2.2)
    | none =>
      let s1 := setSlot s b { x with st := .committed, comTok := none, tide := td, plan := p, sensor := c, prog := g }
      finishTok (loadProg s1 b (objBody s x 3)) t .ok []

/-- COMMIT_SHADOW_DONE (R27, R38, R390, R543), `ecc` as in VERIFY_OBJECT_DONE. -/
def execCommitShadowDone (slot : Bool) (s : State) (ecc : List (Nat × Ecc) := []) : Out :=
  .next (if s.rst.pairA || (slotOf s slot).comTok.isNone then s
    else settle s (readSlot s (slotOf s slot) (eccFor ecc) (fun s => commitDone s slot (eccFor ecc))))

-- Swaps (R41 to R44)

/-- The shadow slot: the one that is not ACTIVE; with none ACTIVE, the COMMITTED one, slot 0 if both are. -/
def shadowSlot (s : State) : Bool :=
  if hasActive s then !s.sets.activeSlot else s.sets.slot0.st != .committed

/-- A set becomes active: the old one is COMMITTED again, the frame-sync pins stand at their inactive level, and
whether a port's link has come up under the set starts afresh; a set with another Mapin group begins its links anew.
What is still discarded of dropped sensor frames stays to be discarded (R42, R277, R287, R305, R335, R412). -/
def takeSwap (s : State) (b : Bool) : State :=
  let s1 := if hasActive s then setSlot s s.sets.activeSlot { slotOf s s.sets.activeSlot with st := .committed } else s
  let s2 := setSlot s1 b { slotOf s1 b with st := .active }
  let same := (activeSet s).plan.members == (slotOf s b).plan.members
  let s3 := { s2 with
    map := { s2.map with
      links := if same then s2.map.links else [], everFormed := same && s2.map.everFormed
      gen := s2.map.gen }
    sets := { s2.sets with activeSlot := b, swapPending := false, taken := satAdd 0xFFFF s2.sets.taken 1 }
    hl := { s2.hl with newSet := true } }
  levelSources { s3 with sens := { s3.sens with
      sp := s3.sens.sp.zipIdx.map (fun x =>
        { x.1 with fsync := fsIdle s3 x.2, fwdOn := false, fwdCut := false, fwdQ := [], seen := x.1.up })
      streams := s3.sens.streams.map (fun x => { next := x.next, disc := x.disc }) } }

/-- Frame of a swap named in RUNNING or ARMED, or none when it is refused (R41). -/
def swapFrame (s : State) (en : Bool) (t : Word) : Option Word :=
  if s.sch.run == .armed then
    if en then (if (t - s.sch.firstSeq).toNat < 2 ^ 31 then some t else none) else some s.sch.firstSeq
  else
    let d := (t - s.sch.seq).toNat
    let late := s.sch.phase == .slack || decide (s.sch.t + ttSlackStart (tide s) ≤ now s)
    if en then (if (2 ≤ d && d < 2 ^ 31) || (d == 1 && !late) then some t else none)
    else some (if late then s.sch.seq + 2 else s.sch.seq + 1)

/-- SLACK_START of the set that the next frame uses (R373). -/
def nextSlackStart (s : State) : Nat :=
  if s.sets.swapPending && s.sets.swapSeq == s.sch.seq + 1 then ttSlackStart (slotOf s (shadowSlot s)).tide
  else ttSlackStart (tide s)

/-- When a lease that this frame's verdict sets expires (R373). -/
def leaseEnd (s : State) : Nat := s.sch.t + ttPeriod (tide s) + nextSlackStart s + 1000000

/-- A swap that falls due at the next frame start sets the end of the lease that this frame's verdict has set (R373). -/
def swapLease (s : State) : State :=
  if s.hl.written && s.saf.lease.isSome then { s with saf := { s.saf with lease := some (leaseEnd s) } } else s

/-- SWAP_SETS (R41, R54, R254, R373). -/
def doSwapSets (k : Pkt) (s : State) : Ans :=
  let en := bit (wd k.params 0) 0
  let sh := shadowSlot s
  if fld k.params 0 31 1 != 0 then badWord s 2
  else if s.sch.run == .halted || s.sets.swapPending || (slotOf s sh).st != .committed then refuse s .wrongState []
  else if s.sch.run == .idle then
    let s1 := takeSwap s sh
    ({ s1 with sets := { s1.sets with swapSeq := 0 }, ms := { s1.ms with resLoaded := false } }, some (.ok, [0]))
  else match swapFrame s en (wd k.params 1) with
    | none => refuse s .wrongState []
    | some f =>
      (swapLease { s with
         sets := { s.sets with swapPending := true, swapSeq := f }
         ms := { s.ms with resLoaded := s.ms.resLoaded && !(s.sch.run == .armed && f == s.sch.firstSeq) } },
       some (.ok, [f]))

def execSwapSets (k : Pkt) (s : State) : Out := .next (command 0x14 0 k (doSwapSets k) s)

/-- What READ_SET_INFO reads of a slot's objects: the Tide Table's first words, and the manifest's body. -/
def infoReads (x : Slot) : List (Nat × Nat) :=
  (match objOf x 0 with | some o => [(o.addr, min 8 o.len)] | none => [])
  ++ (match objOf x 4 with | some o => [(o.addr, o.len - 2240)] | none => [])

/-- READ_SET_INFO (R466): words of the objects as they are stored, `ecc` as in VERIFY_OBJECT_DONE. -/
def doReadSetInfo (k : Pkt) (s : State) (ecc : List (Nat × Ecc) := []) : Ans :=
  let x := slotOf s (slotArg k)
  if fld k.params 0 31 1 != 0 then badWord s 2
  else pairAReads s (infoReads x) (eccFor ecc) fun s =>
    let present := (List.range 5).foldl (fun a i => if (objOf x i).isSome then a + 2 ^ i else a) 0
    let w0 := x.st.code + 8 * b2n (x.st == .active) + 16 * present
    let td := objBody s x 0
    let w1 : Word := if td.length < 8 then 0 else wd (bytesWords (td.take 8)) 1
    let dg := if (objOf x 4).isSome then digestWords (manifestDigest s x) else List.replicate 12 0
    (s, some (.ok, BitVec.ofNat 32 w0 :: w1 :: dg))

def execReadSetInfo (k : Pkt) (s : State) (ecc : List (Nat × Ecc) := []) : Out :=
  .next (command 0x15 0 k (fun s => doReadSetInfo k s ecc) s)

end Sys2Proof.Machine
end

