-- ==== Sys2Proof/Machine/Frame.lean ====
section
/-! DEFINITION. The run, its frames and its jobs: RUN_CTL, the frame's phases, reservations, starts and ends of jobs,
RUN_JOB, ABORT_JOB, QUERY_JOB and the completion ring (R13 to R36, R45, R370, R379, R381, R410, R418 to R423, R464). -/

namespace Sys2Proof.Machine

-- Runs (R14, R16, R370, R462)

/-- A run enters ARMED: trust is awaited, and every engine not quarantined owes a slice (R16, R370, R372, R379). -/
def armRun (s : State) (start : Nat) (first : Word) : State :=
  let s1 := { s with
    sch := { s.sch with run := .armed, startAt := start, firstSeq := first, frames := 0, stopReq := false, portSStop := false }
    saf := { s.saf with holds := [], guiltDone := none }
    eng := s.eng.map (fun x => if x.quar then x else { x with katDue := x.katDue ++ [.armed], passed := [], deferred := false }) }
  await s1

/-- RUN_CTL START (R14, R16, R388, R410, R466). -/
def doRunCtlStart (k : Pkt) (s : State) : Ans :=
  let t := pair48 (wd k.params 0) (wd k.params 1) * 1000000000 + (wd k.params 2).toNat
  if fld k.params 1 31 16 != 0 then badWord s 3
  else if 1000000000 ≤ (wd k.params 2).toNat then badWord s 4
  else if s.sch.run != .idle || !hasActive s || s.saf.injFail || anyFA s then refuse s .wrongState []
  else if t < now s + 1000000 then badWord s 2
  else (armRun s t (wd k.params 3), some (.ok, []))

def execRunCtlStart (k : Pkt) (s : State) : Out := .next (command 0x20 0 k (doRunCtlStart k) s)

/-- Jobs of RUN_JOB that were halted run on (R20). -/
def resumeJobs (s : State) : State :=
  { s with jobs := s.jobs.map (fun j =>
      if j.halted then { j with halted := false, paused := j.paused + (s.clk - j.haltClk) } else j) }

/-- Suspects of a pending procedure that have not passed their test: from the end of its frame's slack water on they are
withdrawn from S-class work (R376). -/
def owing (s : State) : List Nat :=
  match s.saf.guilt with
  | some g => g.suspects.filter (fun e => !g.passed.contains e)
  | none => []

/-- The run ends by a stop (R16, R43, R370, R376): IDLE, its swap cancelled, its frames' work gone. -/
def endRunStop (s : State) : State :=
  let s1 := if s.sch.run == .running && !s.sch.portSStop then withdraw s 7 else s
  let s2 := disarm (cancelSwap s1)
  resumeJobs (recordEnd (clearRun { s2 with
    sch := { s2.sch with run := .idle, phase := .none, stopReq := false, portSStop := false }
    saf := { s2.saf with guiltDone := none }
    eng := s2.eng.zipIdx.map (fun x => { x.1 with
      wdr := x.1.wdr || (s.sch.run == .running && (owing s).contains x.2), deferred := false
      katDue := x.1.katDue.filter (fun w => w != .periodic && w != .armed) }) }))

/-- RUN_CTL STOP (R16, R371, R466). -/
def doRunCtlStop (k : Pkt) (s : State) : Ans :=
  if s.sch.run == .idle || s.sch.run == .halted then refuse s .alreadyDone [] else
  let s1 := if k.port == .S then
      { withdraw s 6 with sch := { s.sch with portSStop := true } } else s
  if s.sch.run == .armed then (endRunStop s1, some (.ok, []))
  else ({ s1 with sch := { s1.sch with stopReq := true } }, some (.ok, []))

def execRunCtlStop (k : Pkt) (s : State) : Out := .next (command 0x20 1 k (doRunCtlStop k) s)

/-- RUN_CTL REARM (R370, R462). -/
def doRunCtlRearm (k : Pkt) (s : State) : Ans :=
  if k.port != .H || s.sch.run != .running || s.saf.trust != .withdrawn || anyFA s || s.sch.portSStop then
    refuse s .wrongState []
  else (await s, some (.ok, []))

def execRunCtlRearm (k : Pkt) (s : State) : Out := .next (command 0x20 4 k (doRunCtlRearm k) s)

-- The frame start (R13, R15, R17, R21, R42, R144, R276, R358, R381)

/-- An engine passed a slice in one of the frames that R381 looks back on from frame `m`. -/
def passedLately (e : Nat) (x : Engine) (m : Word) : Bool :=
  let back := if e < 22 then 2 else 16
  (List.range back).any (fun i => x.passed.contains (m - BitVec.ofNat 32 (i + 1)).toNat)

/-- Withdrawals at the start of frame `m` (R376, R381); a deferred slice is due again in it (R380). -/
def frameEngines (s : State) (m : Word) : State :=
  { s with eng := s.eng.zipIdx.map (fun x => { x.1 with
      wdr := x.1.wdr || !passedLately x.2 x.1 m || (s.sch.run == .running && (owing s).contains x.2)
      katDue := x.1.katDue.filter (fun w => (w != .periodic || x.1.deferred) && w != .armed)
      passed := x.1.passed.take 32, deferred := false }) }

/-- Headland at a frame start: a clear grid, no evidence yet, last frame's kept for DELTA but not across a run's or a
set's first frame (R358, R362). -/
def frameHeadland (s : State) (first : Bool) : State :=
  let g := (activeSet s).prog
  { s with
    hl := { s.hl with
      grid := List.replicate (fld g.hdr 3 15 0 * fld g.hdr 3 31 16) 0
      prevEvid := if first || s.hl.newSet then [] else s.hl.evid
      evid := List.replicate g.evids.length none
      res := [], holdSeen := false, written := false, tested := [], gap := false, newSet := false }
    saf := { s.saf with holds := (false :: s.saf.holds).take 256, trecs := [], lostRecs := [] } }

/-- The sensor front at a frame start: delivered buffers are free, triggers count anew; a run's first frame restarts
the sequence numbers (R272, R276, R324). -/
def frameSensors (s : State) (first : Bool) : State :=
  { s with sens := { s.sens with
      streams := s.sens.streams.map (fun x => { x with
        next := if first then 0 else x.next
        kept := x.kept.filter (fun f => !f.delivered), delivered := none })
      trigNext := List.replicate 32 0
      trigFires := if first then List.replicate 32 [] else s.sens.trigFires
      accepted := 0, claimed := 0, dropped := 0 } }

/-- The scheduler at a frame start: entries, counters and substitutions of the new frame (R15, R21, R34, R126, R144). -/
def frameSched (s : State) (seq : Word) (t : Nat) : State :=
  let es := (tide s).entries
  { s with sch := { s.sch with
      run := .running, phase := .compute, seq := seq, t := t, frames := s.sch.frames + 1, arrived := 0, arrNs := []
      tt := es.map (fun e => { rsvOpen := teSClass e && teRsv e != 0 && teRsvOpen e == 0 })
      ttRecs := s.sch.ttRecs.filter (fun r => r.frameSeq == s.sch.seq)
      invalid := []
      rows := freshRows 0 (activeSet s).plan ++ s.sch.rows.filter (fun c => c.owner != 0)
      subst := s.sch.subst.filter (fun c => c.owner != 0) } }

/-- A frame starts at time-base value `t` (R13, R42). -/
def enterFrame (s : State) (seq : Word) (t : Nat) (first : Bool) : State :=
  let s := passTo s t
  let s := frameEngines s seq
  let s := if s.sets.swapPending && s.sets.swapSeq == seq then takeSwap s (shadowSlot s) else s
  let s := awayInvalid (frameSched s seq t)
  let s := frameSensors s first
  let s := frameHeadland s first
  units (afterStand (resumeJobs (replayFrame (recordFrame s))))

/-- FRAME_START (R13, R15, R16): the first frame at the start time, each later one a period after the last; after a stop
the run ends instead. -/
def execFrameStart (s : State) : Out :=
  .next (
    if s.sch.run == .armed then enterFrame s s.sch.firstSeq s.sch.startAt true
    else if s.sch.run == .running && s.sch.phase == .slack then
      let t := s.sch.t + ttPeriod (tide s)
      if s.sch.stopReq then endRunStop (passTo s t)
      else enterFrame s (s.sch.seq + 1) t false
    else s)

/-- SCHEDULER_WATCHDOG (R389): no frame start within 10 µs of its instant. -/
def execSchedulerWatchdog (s : State) : Out :=
  .next (
    if s.sch.run == .armed then settle s (setSrc (passTo s (s.sch.startAt + 10000)) 106)
    else if s.sch.run == .running && s.sch.phase == .slack && !s.sch.stopReq then
      settle s (setSrc (passTo s (s.sch.t + ttPeriod (tide s) + 10000)) 106)
    else s)

/-- OUT_COMMIT (R17). -/
def execOutCommit (s : State) : Out :=
  .next (if s.sch.run == .running && s.sch.phase == .compute then
    let s1 := passTo s (s.sch.t + ttOutCommit (tide s))
    { s1 with sch := { s1.sch with phase := .judge } }
  else s)

-- SLACK_START (R17 to R20, R22, R45, R221, R255, R379, R386)

/-- No record of the frame exists: timing supervision writes it (R19, R371, R389). -/
def missingVerdict (s : State) : State :=
  if s.hl.written then s
  else writeVerdict (withdraw s 3) 3 (if s.hl.stopped then 3 else 2) 0 1 []

/-- Accepted and unclaimed sensor frames are dropped (R22, R44, R277). -/
def dropUnclaimed (s : State) : State :=
  (List.range 64).foldl (fun s i =>
    let s1 := dropKept s i (fun f => !f.claimed)
      (fun f => if f.complete then .noConsumer else lateReason s f.fseq)
    match (streamOf s1 i).cur with
    | some f => dropCur s1 i (lateReason s1 f.fseq) false
    | none => s1) s

/-- The checks of R45 that are made at SLACK_START. DESIGN CHOICE (log 41): while the promise is void (R48) they are not
made. -/
def conserve (s : State) : State :=
  if anyFA s then s else
  let tok := s.jobs.any (fun j => j.origin == .tide)
  let sen := s.sens.accepted != s.sens.claimed + s.sens.dropped
  let mp := s.map.sent != s.map.replied + s.map.timedOut + s.map.reqs.length
  if tok || sen || mp then
    setSrc { s with sch := { s.sch with
      consToken := s.sch.consToken || tok, consSensor := s.sch.consSensor || sen, consMapin := s.sch.consMapin || mp } } 82
  else s

/-- The periodic slices of the frame fall due (R379, R384). -/
def dueSlices (s : State) : State :=
  let seq := s.sch.seq.toNat
  let turn (e : Nat) : Bool := e < 22 || seq % 8 == 2 * (e - 22) + 1
  { s with eng := s.eng.zipIdx.map (fun x =>
      let imm := x.1.katDue.contains .immediate || x.1.kat == some .immediate
      let rest := x.1.katDue.filter (· != .periodic)
      if (turn x.2 || x.1.katDue.contains .periodic) && !x.1.quar && !x.1.passed.contains seq && !imm
      then { x.1 with katDue := .periodic :: rest } else { x.1 with katDue := rest }) }

/-- SLACK_START; `ecc` says what becomes of the reads of the resident image that repairs make (R255). -/
def execSlackStart (s : State) (ecc : List (Nat × Ecc) := []) : Out :=
  .next (if s.sch.run == .running && (s.sch.phase == .compute || s.sch.phase == .judge) then
    let s1 := passTo s (s.sch.t + ttSlackStart (tide s))
    let s1 := missingVerdict s1
    let s1 := dropUnclaimed s1
    let s1 := haltIdle { s1 with sch := { s1.sch with phase := .slack } }
    let s1 := conserve s1
    let s1 := repairRing { s1 with ms := { s1.ms with epoch := !s1.ms.epoch } } (eccFor ecc)
    let s1 := match s1.saf.packNext with
      | some p => activatePack s1 p
      | none => s1
    let due := s1.sets.swapPending && s1.sets.swapSeq == s1.sch.seq + 1
    let s1 := if due then { s1 with ms := { s1.ms with resLoaded := false } } else s1
    settleUnits s (dueSlices s1)
  else s)

-- Reservations and starts (R25, R28 to R34, R275)

/-- RESERVATION_OPEN (R31). -/
def execReservationOpen (job : Nat) (s : State) : Out :=
  let e := (tide s).entries.getD job []
  .next (match s.sch.tt[job]? with
    | none => s
    | some x =>
      if s.sch.run != .running || s.sch.phase == .slack || !teSClass e || teRsv e == 0 || x.ended.isSome || x.rsvOpen then s
      else
        let s1 := passTo s (s.sch.t + teRsvOpen e)
        markWaits { s1 with sch := { s1.sch with tt := modAt s1.sch.tt job (fun x => { x with rsvOpen := true }) } })

/-- The start condition of an entry holds now, before its deadline, and it has neither started nor ended (R25, R33). -/
def canStart (s : State) (i : Nat) : Bool :=
  let e := (tide s).entries.getD i []
  let off := frameNs s
  let timeOk := teStart e ≤ off
  let arrOk := s.sch.arrived &&& teArr e == teArr e
  match s.sch.tt[i]? with
  | none => false
  | some x => x.token.isNone && x.ended.isNone && off < teDeadline e &&
      (if teMode e = 0 then timeOk else if teMode e = 1 then arrOk else timeOk && arrOk)

/-- Entry `i` is the first in the order of R28 among those that can start now. -/
def firstToStart (s : State) (i : Nat) : Bool :=
  let es := (tide s).entries
  let cls (k : Nat) : Bool := teSClass (es.getD k [])
  (List.range es.length).all (fun k => k == i || !canStart s k ||
    (if cls i == cls k then decide (i < k) else cls i))

/-- A job as its entry describes it. -/
def tideJob (s : State) (i : Nat) (t : Word) : Job :=
  let e := (tide s).entries.getD i []
  let p := (activeSet s).plan
  { token := t, origin := .tide, jobId := i, cls := teSClass e, ctx := teCtx e, mask := teMask e, budget := teBudget e
    startClk := s.clk, halted := false, haltClk := 0, paused := 0, timeoutAt := none, plan := p
    items := (List.range (teLgCount e)).flatMap (fun g => groupItems s p (teLgFirst e + g)), layers := []
    port := .H, timeoutUs := 0, ctxT4 := false }

/-- Entry `i` starts: its token, its claim, its items (R28, R29, R275). -/
def startEntry (s : State) (i : Nat) : State :=
  let e := (tide s).entries.getD i []
  let r := issueCtx s (teCtx e)
  let s1 := { r.2 with sch := { r.2.sch with tt := modAt r.2.sch.tt i (fun x => { x with token := some r.1 }) } }
  let s1 := claimFrames s1 (if teMode e = 0 then 0 else teArr e)
  tryDone (startJob s1 (tideJob s1 i r.1)) r.1 26

/-- The prefetch lists that entry `i`'s groups name (R245). -/
def entryLists (s : State) (i : Nat) : List (Nat × Nat) :=
  let e := (tide s).entries.getD i []
  (((activeSet s).plan.streams.drop (teLgFirst e)).take (teLgCount e)).map streamList

/-- JOB_START (R25, R28, R33, R34, R390): for an entry with a start time the time base stands at it. -/
def execJobStart (job : Nat) (s : State) : Out :=
  let e := (tide s).entries.getD job []
  .next (
    if s.sch.run != .running || s.sch.phase == .slack || s.sch.phase == .none then s else
    let s1 := if teMode e = 1 then s else passTo s (s.sch.t + teStart e)
    if !canStart s1 job || !firstToStart s1 job then s
    else if entrySkipped s1 job then settleUnits s (skipEntry s1 job .skippedUpstream)
    else settleUnits s (pairAGo s1 (entryLists s1 job) asIs (fun s1 => startEntry s1 job)))

-- Ends by time (R32, R33, R418, R420)

/-- When the deadline or the timeout of a job falls due (R32, R420). -/
def deadlineAt (s : State) (j : Job) : Option Nat :=
  if j.origin == .tide then some (s.sch.t + teDeadline ((tide s).entries.getD j.jobId [])) else j.timeoutAt

/-- The kills by time that have reached the commit point by the present cycle: the one that commits, and the sources of both (R32,
R418, R420). -/
def timedEnd (s : State) (j : Job) : Option (JobEnd × List Nat) :=
  let b := !j.halted && decide (j.budget ≤ budgetUsed s j)
  let d := match deadlineAt s j with
    | some t => decide (t / 4 ≤ now s / 4)
    | none => false
  if b then some (.killedBudget, if d then [104, 105] else [104])
  else if d then some (.killedDeadline, [105])
  else none

/-- Such a kill, if there is one. -/
def killTimed (s : State) (j : Job) : State :=
  match timedEnd s j with
  | some x => killJob (setSrcs s x.2) j.token x.1 26
  | none => s

/-- JOB_DEADLINE (R32, R33): an entry that has not started is skipped, a live job is killed; a budget that ends in the
same cycle prevails. -/
def execJobDeadline (job : Nat) (s : State) : Out :=
  let e := (tide s).entries.getD job []
  .next (match s.sch.tt[job]? with
    | none => s
    | some x =>
      if s.sch.run != .running || x.ended.isSome then s else
      let s1 := passTo s (s.sch.t + teDeadline e)
      match x.token with
      | none => settleUnits s (skipEntry s1 job .skippedNoStart)
      | some t => match jobOf s1 t with
        | none => s1
        | some j => settleUnits s (killTimed s1 j))

/-- JOB_BUDGET_EXPIRE (R32, R418): the cycle in which the job's budget is reached; a deadline or timeout in the same cycle
sets its source too. -/
def execJobBudgetExpire (token : Word) (s : State) : Out :=
  .next (match jobOf s token with
    | none => s
    | some j =>
      if j.halted then s else
      settleUnits s (killTimed (elapse s (j.budget - budgetUsed s j)) j))

-- RUN_JOB, ABORT_JOB, QUERY_JOB

/-- A job as a job image describes it. -/
def imageJob (s : State) (p : Plan) (t : Word) (o : Origin) (ctx mask budget us : Nat) (port : Port) (t4 : Bool) : Job :=
  { token := t, origin := o, jobId := 0, cls := false, ctx := ctx, mask := mask, budget := budget
    startClk := s.clk, halted := false, haltClk := 0, paused := 0, timeoutAt := some (now s + 1000 * us), plan := p
    items := (List.range p.groups.length).flatMap (fun g => groupItems s p g), layers := []
    port := port, timeoutUs := us, ctxT4 := t4 }

/-- A job of RUN_JOB or GUILT_REPLAY begins with a token of its context (R463). -/
def beginImage (s : State) (p : Plan) (o : Origin) (ctx mask budget us : Nat) (port : Port) (t4 : Bool) : Word × State :=
  let r := issueCtx s ctx
  let s1 := addTok r.2 r.1 port
  (r.1, units (tryDone (haltIdle (startJob s1 (imageJob s1 p r.1 o ctx mask budget us port t4))) r.1 26))

/-- RUN_JOB (R36, R410, R420, R426, R466, R544); control pair A reads the image and its lists as `ecc` says (R390). -/
def doRunJob (k : Pkt) (t4 : Bool) (s : State) (ecc : List (Nat × Ecc) := []) : Ans :=
  let w := k.params
  let ctx := fld w 0 11 0
  let a := pair48 (wd w 4) (wd w 5)
  let n := (wd w 6).toNat
  if fld w 0 31 12 != 0 || ctx = 0 || ctx = 0xFFF then badWord s 2
  else if fld w 1 31 26 != 0 then badWord s 3
  else if wd w 3 == 0 then badWord s 5
  else if fld w 5 31 16 != 0 then badWord s 7
  else if s.sch.run == .halted || anyFA s then refuse s .wrongState []
  else if replaying s then refuse s .busy []
  else if !inDram s a n then badWord s 6
  else pairAReads s [(a, n)] (eccFor ecc) fun s =>
    let p := parsePlan (s.mem.read a n)
    pairAReads s (planLists p) (eccFor ecc) fun s =>
    match imageBad s p with
    | some f => refuse s f.1 (detail f.2.1 f.2.2.1 f.2.2.2)
    | none =>
      if 64 ≤ (s.jobs.filter (fun j => j.origin == .runJob)).length then refuse s .noSpace []
      else
        let r := beginImage s p .runJob ctx (wd w 1).toNat (wd w 2).toNat (wd w 3).toNat k.port t4
        (r.2, some (.accepted, [r.1]))

def execRunJob (k : Pkt) (t4 : Bool) (s : State) (ecc : List (Nat × Ecc) := []) : Out :=
  .next (command 0x21 (b2n t4) k (fun s => doRunJob k t4 s ecc) s)

/-- RUN_JOB_TIMEOUT (R420); a budget that ends in the same cycle prevails (R418). -/
def execRunJobTimeout (token : Word) (s : State) : Out :=
  .next (match jobOf s token with
    | none => s
    | some j => match j.timeoutAt with
      | none => s
      | some t => settleUnits s (killTimed (passTo s t) j))

/-- The token is one of a Tide Table job that is live or whose record is retained (R464). -/
def tideTok (s : State) (t : Word) : Bool :=
  s.jobs.any (fun j => j.origin == .tide && j.token == t) || s.sch.ttRecs.any (fun r => r.token == t && t != 0)

/-- The abort of a live job is presented in the first CLK_ARR cycle after the command; a kill by time by then commits
first (R418, R435). -/
def abortJob (s : State) (j : Job) : Ans :=
  let s := elapse s 1
  match timedEnd s j with
  | some x => refuse (units (killJob (setSrcs s x.2) j.token x.1 26)) .alreadyDone [BitVec.ofNat 32 x.1.code]
  | none => (units (killJob s j.token .aborted 27), some (.ok, []))

/-- ABORT_JOB (R35, R418). -/
def doAbortJob (k : Pkt) (s : State) : Ans :=
  let t := wd k.params 0
  if tideTok s t || bits t 31 20 = 0 then refuse s .notPermitted [] else
  match jobOf s t with
  | some j => abortJob s j
  | none => match s.cmd.tokens.find? (fun x => x.token == t) with
    | some x => refuse s .alreadyDone [BitVec.ofNat 32 (x.code % 16)]
    | none => badWord s 2

def execAbortJob (k : Pkt) (s : State) : Out := .next (command 0x22 0 k (doAbortJob k) s)

/-- The three masks of RUN_SELFTEST (R382). -/
def testWords (x : SelfTest) : List Word :=
  [BitVec.ofNat 32 (engsMask x.passed), BitVec.ofNat 32 (engsMask x.failed),
   BitVec.ofNat 32 (engsMask (x.todo.map (fun y => y.1)))]

/-- The partial payload of live work (R240, R382, R464). -/
def partialOf (s : State) (t : Word) : List Word :=
  match s.ms.scrubs.find? (fun x => x.token == t) with
  | some x => scrubWords x
  | none => match s.saf.tests.find? (fun x => x.token == t) with
    | some x => testWords x
    | none => []

/-- QUERY_JOB (R464). -/
def doQueryJob (k : Pkt) (s : State) : Ans :=
  let t := wd k.params 0
  let mine := s.cmd.tokens.find? (fun x => x.token == t)
  if k.port == .S && !(match mine with | some x => x.port == .S | none => false) then refuse s .notPermitted [] else
  match mine with
  | some x => if x.live then refuse s .notReady (partialOf s t) else refuse s x.status x.payload
  | none =>
    if s.jobs.any (fun j => j.origin == .tide && j.token == t) then refuse s .notReady []
    else match s.sch.ttRecs.find? (fun r => r.token == t && t != 0) with
      | some r => (s, some (.ok, crecWords r))
      | none => badWord s 2

def execQueryJob (k : Pkt) (s : State) : Out := .next (command 0x23 0 k (doQueryJob k) s)

-- The completion ring (R421, R423)

/-- COMPLETION_RECORD_COLLECT (R421, R423, R45); ends that the full input held back follow. -/
def execCompletionRecordCollect (input : Nat) (s : State) : Out :=
  .next (settleUnits s (commitWaits (collectOne s input)))

/-- COMPLETION_RECORD_CONSUME (R423): control pair A reads the next record, as `ecc` says, and takes it, while it runs; an
uncorrectable byte stops it (R233, R390). -/
def execCompletionRecordConsume (s : State) (ecc : List (Nat × Ecc) := []) : Out :=
  .next (if s.rst.pairA || s.fc.cRd == s.fc.cWr then s
    else settleUnits s (pairAGo s [(0x083F_8000 + 16 * s.fc.cRd, 16)] (eccFor ecc) (fun s =>
      commitWaits { s with fc := { s.fc with cRd := (s.fc.cRd + 1) % 256 } })))

end Sys2Proof.Machine
end

