-- ==== Sys2Proof/Machine/Headland.lean ====
section
/-! DEFINITION. Headland and the safety logic: mirror records, evidence, rules, the guilt procedure, verdicts, trust,
known-answer slices, RUN_SELFTEST and test packs (R354 to R386, R405). -/

namespace Sys2Proof.Machine

/-- Headland judges: a run is in a frame and Headland has not stopped (R354). -/
def judging (s : State) : Bool :=
  s.sch.run == .running && !s.hl.stopped && !s.hl.written && (s.sch.phase == .compute || s.sch.phase == .judge)

-- The grid (R357, R358)

/-- A byte of the mirror ring at an offset from the read pointer. -/
def ringByte (s : State) (o : Nat) : Byte := s.hl.mem.get (0x8_0000 + (s.hl.rd + o) % mirrorSize)
def ringNat (s : State) (o n : Nat) : Nat := leNat ((List.range n).map (fun i => ringByte s (o + i)))

/-- Stamp, payload length and stream of the record at an offset from the read pointer (R295). -/
def ringStamp (s : State) (o : Nat) : Nat := ringNat s (o + 4) 4 * 1000000000 + ringNat s o 4
def ringLen (s : State) (o : Nat) : Nat := ringNat s (o + 8) 2
def ringStream (s : State) (o : Nat) : Nat :=
  let w := BitVec.ofNat 32 (ringNat s (o + 8) 4)
  fld (macFilter s (bits w 18 16) (bits w 22 19)) 0 9 4

/-- Bytes of a record. -/
def ringSize (s : State) (o : Nat) : Nat := (16 + ringLen s o + 63) / 64 * 64

/-- Nanoseconds in the seconds that a record's stamp tells apart. -/
def stampRange : Nat := 2 ^ 32 * 1000000000

/-- A stamp, of 32 bits of the seconds (R295), lies in the frame's window (R358). -/
def inWindow (s : State) (t : Nat) : Bool :=
  decide ((t + stampRange - s.sch.t % stampRange) % stampRange < ttOutCommit (tide s))

/-- A coordinate of a point of the record at the read pointer, by COORD (R297, R360). -/
def ringCoord (s : State) (coord o : Nat) : FV :=
  if coord = 0 then FV.ofInt (sext 16 (ringNat s o 2))
  else if coord = 1 then fp32 (FV.ofInt (sext 32 (ringNat s o 4)))
  else decodeFloat 11 (ringNat s o 4)

/-- The cell of a point, if it is kept (R298, R358). `l` is the lidar entry, `o` the point's offset. -/
def pointCell (s : State) (l : List Word) (o : Nat) : Option Nat :=
  let h := (activeSet s).prog.hdr
  let c (hi lo : Nat) : FV := ringCoord s (fld l 0 7 6) (o + fld l 3 hi lo)
  let x := c 7 0
  let y := c 15 8
  let z := c 23 16
  if isZeroFV x && isZeroFV y && isZeroFV z then none else
  let u := dec32 (wd l 4)
  let e (i : Nat) : FV := dec32 (wd l (5 + i))
  let p (r : Nat) : FV :=
    add32 (add32 (add32 (mul32 (e (4 * r)) (mul32 x u)) (mul32 (e (4 * r + 1)) (mul32 y u)))
      (mul32 (e (4 * r + 2)) (mul32 z u))) (e (4 * r + 3))
  let q (r : Nat) : FV := div32 (sub32 (p r) (dec32 (wd h (4 + r)))) (dec32 (wd h 6))
  let n (r : Nat) : Nat := if r = 0 then fld h 3 15 0 else fld h 3 31 16
  let ok (r : Nat) : Bool := (q r).finite && decide (0 ≤ (q r).floor) && decide ((q r).floor < n r)
  if ok 0 && ok 1 && !(p 2).isNan && !FV.lt (p 2) (dec32 (wd h 7)) && !FV.lt (dec32 (wd h 8)) (p 2)
  then some ((q 1).floor.toNat * fld h 3 15 0 + (q 0).floor.toNat) else none

/-- MIRROR_RECORD_BIN (R357, R358, R360): Headland consumes the record at the ring's read pointer. -/
def binRecord (s : State) : State :=
  let h := s.hl
  let lid := (activeSet s).prog.lidars.find? (fun l => fld l 0 5 0 == ringStream s 0)
  let grid := match lid with
    | some l =>
      if s.sch.run == .running && inWindow s (ringStamp s 0) then
        let pts := (List.range (fld l 2 15 0)).map (fun k => fld l 1 15 0 + k * fld l 1 23 16)
        (pts.filter (fun o => o + fld l 1 23 16 ≤ ringLen s 0)).foldl (fun (g : List Nat) (o : Nat) =>
          match pointCell s l (16 + o) with
          | some c => modAt g c (· + 1)
          | none => g) h.grid
      else h.grid
    | none => h.grid
  { s with hl := { h with grid := grid, rd := h.rd + ringSize s 0 } }

def execMirrorRecordBin (s : State) : Out :=
  .next (if halted s || s.hl.stopped || s.hl.wr ≤ s.hl.rd then s else binRecord s)

-- Evidence (R361)

/-- The tensor reference of an evidence entry, its job and its rows' bytes. -/
def evidRef (x : List Word) : List Word := (x.drop 4).take 8
def evidJob (x : List Word) : Nat := fld x 0 9 0
def evidBytes (x : List Word) : Nat := refRows (evidRef x) * rowBytes (evidRef x)

/-- EVIDENCE_COPY (R356, R361, R367): once its job has ended DONE the rows of entry `i` are read through control pair B's
source port, as `o` says, and copied; otherwise, or with a sector read poisoned, the evidence is missing, an empty string
here. -/
def copyEvidence (s : State) (i : Nat) (x : List Word) (o : Nat → Ecc := asIs) : State :=
  let r := evidRef x
  let rows := (List.range (refRows r)).map (fun k => physOf s (refRowAddr r k))
  if (s.sch.tt.getD (evidJob x) {}).ended != some .done then { s with hl := { s.hl with evid := setAt s.hl.evid i (some []) } }
  else
    let s := rows.foldl (fun s a => portRead s srcPairB a (rowBytes r) o) s
    if rows.any (fun a => readBad s a (rowBytes r) o) then { s with hl := { s.hl with evid := setAt s.hl.evid i (some []) } }
    else
      let bs := rows.flatMap (fun a => s.mem.read a (rowBytes r))
      let at_ := 0x1A_0000 + (((activeSet s).prog.evids.take i).map evidBytes).sum
      { s with hl := { s.hl with evid := setAt s.hl.evid i (some bs), mem := s.hl.mem.write at_ bs } }

def execEvidenceCopy (i : Nat) (s : State) (ecc : List (Nat × Ecc) := []) : Out :=
  .next (match (activeSet s).prog.evids[i]? with
    | none => s
    | some x =>
      if judging s && s.hl.evid.getD i none == none && (s.sch.tt.getD (evidJob x) {}).ended.isSome then
        settle s (copyEvidence s i x (eccFor ecc))
      else s)

/-- Element `k` of evidence bytes: packed rows, one after the other (R67, R362). -/
def evidElem (r : List Word) (bs : List Byte) (k : Nat) : FV :=
  let b := fmtBits (refFmt r)
  (decodeElem (refFmt r) (elemBits (fun a => bs.getD a 0) (k / refD0 r * rowBytes r) b (k % refD0 r))).fv

/-- A value as FP32 under R111. -/
def fpWord (x : FV) : Word := BitVec.ofNat 32 (toFloat 11 x).1

-- The rules (R362)

/-- What a rule's evaluation finds: whether it is violated, its evidence words, whether it is a disagreement. -/
structure Finding where
  bad : Bool
  words : List Word
  dis : Bool
  deriving DecidableEq, Repr

/-- The rule's inputs do not exist yet, or its finding, with the state after it has waited for an instant. -/
abbrev Eval := State × Option Finding

def w32 (n : Nat) : Word := BitVec.ofNat 32 n

/-- Missing evidence violates a rule. -/
def missing : Finding := { bad := true, words := [0xFFFF_FFFE], dis := false }

/-- The jobs of a JOBS_DONE rule. -/
def ruleJobs (r : List Word) : List Nat := (List.range (fld r 2 31 16)).map (· + fld r 2 15 0)

/-- How a job of the frame ended, if it has. -/
def jobEnd (s : State) (j : Nat) : Option JobEnd := (s.sch.tt.getD j {}).ended

/-- Those that have ended other than DONE. -/
def jobsBad (s : State) (r : List Word) : List Nat :=
  (ruleJobs r).filter (fun j => (jobEnd s j).isSome && jobEnd s j != some .done)

/-- Evidence words of a JOBS_DONE rule. -/
def jobsWords (s : State) (r : List Word) : List Word :=
  let bad := jobsBad s r
  let code := match jobEnd s (bad.headD 0) with | some o => o.code | none => 0
  if bad.isEmpty then [0, 0, 0] else [w32 (bad.headD 0), w32 code, w32 bad.length]

/-- JOBS_DONE: violated as soon as one job of the range has ended other than DONE, and not once all have ended. -/
def evalJobsDone (s : State) (r : List Word) : Eval :=
  let bad := !(jobsBad s r).isEmpty
  if !bad && (ruleJobs r).any (fun j => (jobEnd s j).isNone) then (s, none)
  else (s, some { bad := bad, words := jobsWords s r, dis := false })

/-- ARRIVED: once every entry of the mask has fired, else at T(n) + BY; one due after SLACK_START finds no time
to be evaluated in its frame. -/
def evalArrived (s : State) (r : List Word) : Eval :=
  let m : BitVec 64 := wd r 3 ++ wd r 2
  let by_ := fld r 4 26 0
  if s.sch.arrived &&& m != m && ttSlackStart (tide s) < by_ then (s, none) else
  let s1 := if s.sch.arrived &&& m == m then s else passTo s (s.sch.t + by_)
  let inTime (a : Nat) : Bool := s1.sch.arrNs.any (fun x => x.1 == a && x.2 ≤ by_)
  let miss := (List.range 64).filter (fun a => m.getLsbD a && !inTime a)
  let part (lo : Nat) : Word := w32 ((miss.filter (fun a => lo ≤ a && a < lo + 32)).map (fun a => 2 ^ (a - lo))).sum
  (s1, some { bad := !miss.isEmpty, words := [part 0, part 32], dis := false })

/-- FINISH_BY: once the job has ended, else at T(n) + BY. The outcome of a job that has not ended is a free value. -/
def evalFinishBy (s : State) (r : List Word) : Eval :=
  let by_ := fld r 3 26 0
  let x := s.sch.tt.getD (fld r 2 9 0) {}
  match x.ended with
  | some o => (s, some { bad := !(o == .done && x.endNs ≤ by_), words := [w32 x.endNs, w32 o.code], dis := false })
  | none =>
    if ttSlackStart (tide s) < by_ then (s, none) else
    let s1 := passTo s (s.sch.t + by_)
    ({ s1 with free := s1.free + 1 },
     some { bad := true, words := [0xFFFF_FFFF, Config.freeWord s1.free], dis := false })

/-- RANGE. -/
def evalRange (s : State) (r ref : List Word) (bs : List Byte) : Eval :=
  let out (x : FV) : Bool := x.isNan || FV.lt x (dec32 (wd r 2)) || FV.lt (dec32 (wd r 3)) x
  let hits := (List.range (refElems ref)).filter (fun k => out (evidElem ref bs k))
  let k := hits.headD 0
  (s, some { bad := (wd r 4).toNat < hits.length, words := [w32 hits.length, w32 k, fpWord (evidElem ref bs k)], dis := true })

/-- DELTA, against the previous frame's evidence; whether two elements differ by more than the limit when one of them
is a NaN is a free value for each such element. -/
def evalDelta (s : State) (r ref : List Word) (bs old : List Byte) : Eval :=
  let d (k : Nat) : FV := FV.sub (evidElem ref bs k) (evidElem ref old k)
  let hit (k : Nat) : Bool :=
    if (d k).isNan then bit (Config.freeWord (s.free + k)) 0 else FV.lt (dec32 (wd r 2)) (d k).abs
  let hits := (List.range (refElems ref)).filter hit
  ({ s with free := s.free + refElems ref },
   some { bad := (wd r 3).toNat < hits.length
          words := [w32 hits.length, w32 (hits.headD 0), fpWord (d (hits.headD 0))], dis := true })

/-- The grid of the frame is complete: OUT_COMMIT has come, or every lidar stream has delivered; and no record waits
in the ring. -/
def gridDone (s : State) : Bool :=
  (s.sch.phase == .judge || (activeSet s).prog.lidars.all (fun l => (streamOf s (fld l 0 5 0)).delivered.isSome))
    && s.hl.wr ≤ s.hl.rd

/-- OCC_AGREE. -/
def evalOcc (s : State) (r ref : List Word) (bs : List Byte) : Eval :=
  if !gridDone s then (s, none) else
  let h := (activeSet s).prog.hdr
  let nx := fld h 3 15 0
  let sc := fld r 2 7 0
  let ra := fld r 2 15 8
  let pts (c : Nat) : Nat := s.hl.grid.getD c 0
  let plan (x y : Nat) : Nat := (bs.getD (y * rowBytes ref + x) 0).toNat
  let span (i d : Nat) : List Nat :=
    let lo := i * sc - ra
    let hi := min d ((i + 1) * sc + ra)
    (List.range (hi - lo)).map (· + lo)
  let occ := (List.range (nx * fld h 3 31 16)).filter (fun c => fld h 9 7 0 ≤ pts c)
  let miss := occ.filter (fun c =>
    (span (c / nx) (refD1 ref)).all (fun y => (span (c % nx) (refD0 ref)).all (fun x => decide (plan x y < fld r 2 23 16))))
  let f := miss.headD 0
  let first : List Word := if miss.isEmpty then [0, 0] else [w32 (f % nx + f / nx * 65536), w32 (pts f)]
  (s, some { bad := s.hl.gap || decide ((wd r 3).toNat < miss.length)
             words := (if s.hl.gap then 0xFFFF_FFFF else w32 miss.length) :: w32 occ.length :: first, dis := true })

/-- The previous frame's evidence of an entry; none in a run's or a set's first frame, and after a frame that lacked it. -/
def evidBefore (s : State) (i : Nat) : Option (List Byte) :=
  match s.hl.prevEvid.getD i none with
  | some bs => if bs.isEmpty then none else some bs
  | none => none

/-- A rule of a kind that reads evidence waits for it, and missing evidence violates it; a DELTA rule without the evidence
of the frame before is not evaluated and not violated. -/
def evalEvidence (s : State) (r : List Word) : Eval :=
  let i := fld r 1 3 0
  let ref := evidRef ((activeSet s).prog.evids.getD i [])
  let old := evidBefore s i
  if fld r 0 7 0 = 5 && old.isNone then (s, some { bad := false, words := [], dis := false }) else
  match s.hl.evid.getD i none with
  | none => (s, none)
  | some bs =>
    if bs.isEmpty then (s, some missing)
    else if fld r 0 7 0 = 4 then evalRange s r ref bs
    else if fld r 0 7 0 = 5 then evalDelta s r ref bs (old.getD [])
    else evalOcc s r ref bs

def evalRule (s : State) (r : List Word) : Eval :=
  let k := fld r 0 7 0
  if k = 1 then evalJobsDone s r
  else if k = 2 then evalArrived s r
  else if k = 3 then evalFinishBy s r
  else evalEvidence s r

-- Tolerance (R371, R372)

/-- The first HOLD-action violation of a frame: the frame counts as a HOLD frame, and trust is withdrawn beyond the
tolerance. -/
def holdFound (s : State) : State :=
  if s.hl.holdSeen then s else
  let s1 := { s with hl := { s.hl with holdSeen := true }, saf := { s.saf with holds := true :: s.saf.holds.drop 1 } }
  let w := wd (activeSet s).prog.hdr 2
  if holdRunOf s1 ≤ bits w 3 0 && holdWinOf s1 ≤ bits w 7 4 then s1 else withdraw s1 2

def violated (s : State) (r : List Word) : State :=
  if bit (wd r 0) 8 then withdraw s 1 else holdFound s

-- Guilt (R376, R377)

/-- Every suspect's test has ended: the procedure's result. -/
def conclude (s : State) : State :=
  match s.saf.guilt with
  | none => s
  | some g =>
    if !g.suspects.all (fun e => g.passed.contains e || g.failed.contains e) then s else
    let res := if !g.failed.isEmpty then 3 else if !g.mism.isEmpty then 2 else 1
    { s with saf := { s.saf with
        guilt := none, guiltDone := if s.sch.run == .running then some (res, g) else none
        disagree := if res = 3 then s.saf.disagree else satAdd 0xFFFF s.saf.disagree 1 } }

/-- The disputed records of a disagreement over an evidence entry: those Headland does not read poisoned. -/
def disputed (s : State) (x : List Word) : List TRec :=
  let tok := (s.sch.tt.getD (evidJob x) {}).token
  s.saf.trecs.filter (fun t => some t.token == tok && (fld x 0 31 16 == 0xFFFF || fld x 0 31 16 == t.layer)
    && !poisoned s (0x0830_0000 + 16 * t.idx) 16)

/-- A disagreement starts the procedure or joins the pending one: each new suspect owes an immediate test; one that is
quarantined counts as having failed it (R376). One that joins after the frame of the procedure is withdrawn from S-class
work: its test has not passed by that frame's end. -/
def startGuilt (s : State) (x : List Word) : State :=
  let ds := disputed s x
  let lost := match (s.sch.tt.getD (evidJob x) {}).token with
    | some t => s.saf.lostRecs.contains t
    | none => false
  let named := (ds.filter (fun t => t.check = 0 || t.check = 1 || t.check = 4 || t.check = 5)).map (fun t => t.eng)
  let sus := (if lost then maskEngs (teMask ((tide s).entries.getD (evidJob x) [])) else named).eraseDups
  let mis := ((ds.filter (fun t => t.check = 1 || t.check = 5)).map (fun t => t.eng)).eraseDups
  let g0 : Guilt := match s.saf.guilt with
    | some g => g
    | none => { seq := s.sch.seq, suspects := [], passed := [], failed := [], mism := [] }
  let new := sus.filter (fun e => !g0.suspects.contains e)
  let gone := new.filter (fun e => (engOf s e).quar)
  let g : Guilt := { g0 with
    suspects := g0.suspects ++ new, failed := g0.failed ++ gone
    mism := g0.mism ++ mis.filter (fun e => !g0.mism.contains e) }
  let s1 := { s with
    saf := { s.saf with guilt := some g }
    eng := s.eng.zipIdx.map (fun y =>
      if new.contains y.2 then { y.1 with
        wdr := y.1.wdr || g0.seq != s.sch.seq
        katDue := if y.1.quar || y.1.katDue.contains .immediate then y.1.katDue else y.1.katDue ++ [.immediate] }
      else y.1) }
  conclude s1

/-- RULE_EVALUATE (R362, R365, R371, R372, R374): the rule at position `i`, once its inputs exist. -/
def evaluate (s : State) (i : Nat) (r : List Word) : State :=
  let e := evalRule s r
  match e.2 with
  | none => s
  | some f =>
    let s1 := e.1
    let s2 := { s1 with hl := { s1.hl with res := s1.hl.res ++ [RuleRes.mk i f.bad f.words] } }
    if !f.bad then s2 else
    let s3 := violated s2 r
    if f.dis then startGuilt s3 ((activeSet s).prog.evids.getD (fld r 1 3 0) []) else s3

def execRuleEvaluate (i : Nat) (s : State) : Out :=
  .next (match (activeSet s).prog.rules[i]? with
    | none => s
    | some r => if judging s && !s.hl.res.any (fun x => x.i == i) then evaluate s i r else s)

-- Verdicts (R365, R366, R370, R373)

/-- Every S-class job has ended and every rule is evaluated. -/
def verdictDue (s : State) : Bool :=
  (List.range (tide s).entries.length).all (fun i => !teSClass ((tide s).entries.getD i [])
    || (s.sch.tt.getD i {}).ended.isSome) &&
  (List.range (activeSet s).prog.rules.length).all (fun i => s.hl.res.any (fun x => x.i == i))

/-- The lowest-numbered violated rule of an action, with its evidence words; those of JOBS_DONE are of the instant of
writing. -/
def deciding (s : State) (fail : Bool) : Option (Nat × List Word) :=
  let rs := (s.hl.res.filter (fun x => x.violated)).filterMap (fun x =>
    let r := (activeSet s).prog.rules.getD x.i []
    if bit (wd r 0) 8 == fail then some (fld r 0 31 16, if fld r 0 7 0 = 1 then jobsWords s r else x.words) else none)
  rs.foldl (fun (b : Option (Nat × List Word)) (x : Nat × List Word) => match b with
    | none => some x
    | some y => if x.1 < y.1 then some x else some y) none

/-- Trust is granted: SAFE_A rises (R369). -/
def grant (s : State) : State :=
  { s with saf := { s.saf with trust := .trusted, passes := 0 }
           pins := if s.saf.clamp then s.pins else { s.pins with safeA := true, safeB := false } }

/-- What a verdict does to trust: FAIL withdraws it, if the violation has not yet; PASS and HOLD count where it is awaited
(R370, R371). -/
def judgeTrust (s : State) (v : Nat) : State :=
  if v = 3 then withdraw s 1
  else if s.saf.trust != .awaiting then s
  else if v = 1 then
    if s.saf.passes ≤ 1 then grant s else { s with saf := { s.saf with passes := s.saf.passes - 1 } }
  else await s

/-- A verdict that leaves trust TRUSTED sets the lease (R373). -/
def renewLease (s : State) : State :=
  if s.saf.trust == .trusted then
    { s with saf := { s.saf with lease := some (leaseEnd s) } }
  else s

/-- VERDICT_WRITE. -/
def giveVerdict (s : State) : State :=
  let r : Nat × Nat × Nat × List Word := match deciding s true with
    | some x => (3, 1, x.1, x.2)
    | none => match deciding s false with
      | some x => (2, 1, x.1, x.2)
      | none => (1, 0, 0, [])
  let s1 := judgeTrust s r.1
  renewLease (writeVerdict s1 r.1 r.2.1 r.2.2.1 0 r.2.2.2)

def execVerdictWrite (s : State) : Out := .next (if judging s && verdictDue s then giveVerdict s else s)

/-- TRUST_LEASE_EXPIRE (R371, R373). -/
def execTrustLeaseExpire (s : State) : Out :=
  .next (match s.saf.lease with
    | none => s
    | some t =>
      let s1 := passTo s t
      if s1.saf.trust == .trusted then settle s (setSrc (withdraw s1 5) 106)
      else { s1 with saf := { s1.saf with lease := none } })

-- Known-answer slices (R378 to R384)

/-- A self-test that owes no more slices has its result (R382). -/
def finishTests (s : State) : State :=
  let s1 := (s.saf.tests.filter (fun x => x.todo.isEmpty)).foldl
    (fun (s : State) (x : SelfTest) => finishTok s x.token .ok (testWords x)) s
  { s1 with saf := { s1.saf with tests := s1.saf.tests.filter (fun x => !x.todo.isEmpty) } }

/-- An engine is quarantined (R383, R432): it owes no slice, and counts as failed where one was awaited of it (R376,
R382). -/
def quarantine (s : State) (e : Nat) : State :=
  let s1 := modEng s e (fun x => { x with quar := true, kat := none, katDue := [] })
  let g := s1.saf.guilt.map (fun g =>
    if g.suspects.contains e && !g.passed.contains e && !g.failed.contains e then { g with failed := g.failed ++ [e] } else g)
  let ts := s1.saf.tests.map (fun x =>
    if x.todo.any (fun y => y.1 == e) then
      { x with todo := x.todo.filter (fun y => y.1 != e), failed := x.failed ++ [e] } else x)
  finishTests (conclude { s1 with saf := { s1.saf with guilt := g, tests := ts } })

/-- A slice is deferred: the engine's slice is due again in the next frame (R380, R384). -/
def deferSlice (s : State) (e : Nat) (w : KatWhy) : State :=
  let again := (s.sch.run == .armed || s.sch.run == .running) && (match w with | .commanded _ => false | _ => true)
  let s1 := modEng s e (fun x => { x with
    kat := none, deferred := true
    katDue := x.katDue.filter (fun w => w != .periodic && w != .armed) ++ (if again then [.periodic] else []) })
  { s1 with saf := { s1.saf with katDeferred := satAdd 0xFF s1.saf.katDeferred 1 } }

/-- KAT_SLICE_START (R94, R376, R379, R380, R382, R384). -/
def startSlice (s : State) (e : Nat) (w : KatWhy) : State :=
  let ent := nextSlice s e w
  modEng s e (fun x => { x with
    kat := some w, katEnt := ent, katBase := s.saf.pack.addr
    katDue := if w == .immediate then x.katDue.filter (fun k => k != .immediate && k != .periodic)
      else x.katDue.filter (fun k => k != w) })

def execKatSliceStart (e : Nat) (s : State) : Out :=
  let x := engOf s e
  .next (if 26 ≤ e || x.arr.isSome || x.drn.isSome || x.kat.isSome || x.resetting || x.quar || sliceHeld s e || s.warm || halted s
    then s
    else match katNext s e with
    | none => s
    | some w => match katFit s e w with
      | .go => startSlice s e w
      | .wait => s
      | .defer => deferSlice s e w)

/-- What a slice's tasks have done so far: the state, the bytes written, whether every matrix tile passed, whether
poison was consumed. -/
structure SliceRun where
  s : State
  bytes : List Byte
  pass : Bool
  bad : Bool

/-- The bytes of a write that fall into `n` bytes at `a`: a slice writes only into its scratch area (R378). -/
def clipWrite (a n : Nat) (w : Nat × List Byte) : Nat × List Byte :=
  let lo := max a w.1
  (lo, (w.2.drop (lo - w.1)).take (a + n - lo))

/-- One tile or task of a slice runs on engine `e`: its output goes to the scratch area, its record names no job, so
its token is a free sequence of context 0 (R91, R166, R375, R378); a poisoned operand discards it (R93, R384). -/
def sliceItem (e : Nat) (lanes : List (Nat × (Nat × Nat × Word))) (flips : List (Nat × Byte)) (r : SliceRun)
    (it : List Desc × Nat) : SliceRun :=
  if r.bad then r else
  let s := r.s
  let ds := it.1
  let d := ds.getLastD default
  let me := d.kind == .me
  let tok := BitVec.ofNat 32 (bits (Config.freeWord s.free) 19 0)
  if (ds.flatMap (descRegions s {})).any (fun g => poisoned s g.1 g.2) then
    { r with s := noteRec { s with free := s.free + 1 } e tok d 6 0 0, bad := true } else
  let b := ((lanes.filter (fun u => u.1 == it.2)).map (fun u => u.2)).foldl upsetLane (if me then runTile s ds else {})
  let c := if me then checkTile d b else (false, 0)
  let o : List (Nat × List Byte) × Nat :=
    if me then drainTile s ds b
    else if d.kind == .ae then
      (let a := attRun s d (kvVersion (kvHdr s ((attSeqs s d).headD 0))); (a.writes, a.sat))
    else taskRun s {} d
  let n := r.bytes.length
  let ws := applyUpsets o.1 ((flips.filter (fun u => n ≤ u.1)).map (fun u => (u.1 - n, u.2)))
  let code := if me then (if mdMode d != 0 then 3 else if c.1 then 1 else 0)
    else if d.rpt then (if ws == o.1 then 4 else 5) else 3
  let s1 := noteRec { s with free := s.free + 1 } e tok d code (b2n (c.2 != 0)) (o.2 + c.2)
  let s2 := modEng s1 e (fun x => { x with
    wrap := satAdd 0xFFFF x.wrap c.2, sat := satAdd 0xFFFF x.sat (o.2 + c.2)
    chkMis := if c.1 then satAdd 0xFFFF x.chkMis 1 else x.chkMis
    dualMis := if code = 5 then satAdd 0xFF x.dualMis 1 else x.dualMis })
  let s3 := if c.1 || code = 5 then setSrc s2 (misSource e) else s2
  let x := engOf s e
  let scratch := x.katBase + (wd x.katEnt 4).toNat
  { s := doWrites s3 ((ws.map (clipWrite scratch (wd x.katEnt 5).toNat)).filter (fun w => !w.2.isEmpty)) false, bytes := r.bytes ++ ws.flatMap (fun x => x.2)
    pass := r.pass && (!me || code = 0), bad := false }

/-- The descriptors of the slice that engine `e` runs, and its tiles or tasks in order. -/
def sliceItems (s : State) (e : Nat) : List (List Desc) :=
  let x := engOf s e
  let n := (wd x.katEnt 1).toNat + 4 * descWords (engKind e) * (wd x.katEnt 2).toNat
  let ds := sliceDescs { addr := x.katBase } (s.mem.read x.katBase n) x.katEnt
  if e < 16 then splitChains ds [] else ds.map (fun d => [d])

/-- The slice's descriptors lie in poisoned memory (R384). -/
def slicePoisoned (s : State) (e : Nat) : Bool :=
  let x := engOf s e
  poisoned s (x.katBase + (wd x.katEnt 1).toNat) (4 * descWords (engKind e) * (wd x.katEnt 2).toNat)

/-- A slice passes (R378, R379, R381, R387, R404, R406). -/
def slicePass (s : State) (e : Nat) (w : KatWhy) : State :=
  let f := if s.sch.run == .armed then s.sch.firstSeq - 1 else s.sch.seq
  let inRun := s.sch.run == .armed || s.sch.run == .running
  let s1 := modEng s e (fun x => { x with
    kat := none, wdr := false, lastPass := f, passed := if inRun then f.toNat :: x.passed else x.passed
    rot := match w with
      | .commanded _ => x.rot
      | .periodic | .armed | .immediate | .startup => x.rot + 1 })
  let s2 := { s1 with
    saf := { s1.saf with katPassed := satAdd 0xFFFF s1.saf.katPassed 1 }
    hl := { s1.hl with tested := if s.sch.run == .running && !s1.hl.tested.contains e then e :: s1.hl.tested else s1.hl.tested } }
  match w with
  | .immediate =>
    conclude { s2 with saf := { s2.saf with guilt := s2.saf.guilt.map (fun g =>
      if g.suspects.contains e then { g with passed := g.passed ++ [e] } else g) } }
  | .commanded t =>
    let ts := s2.saf.tests.map (fun x =>
      if x.token == t then
        let todo := dropFirst (fun y => y.1 == e) x.todo
        { x with todo := todo, passed := if todo.any (fun y => y.1 == e) then x.passed else x.passed ++ [e] }
      else x)
    finishTests { s2 with saf := { s2.saf with tests := ts } }
  | .periodic | .armed | .startup => s2

/-- A slice consumes poison: it ends without a result and counts as deferred; a test of R376 is still owed (R384). -/
def slicePoison (s : State) (e : Nat) (w : KatWhy) : State :=
  let s1 := setSrc (bumpUc s e) (ucSource e)
  deferSlice (modEng s1 e (fun x => { x with katDue := if w == .immediate then .immediate :: x.katDue else x.katDue })) e w

/-- A decoder in engine `e` finds an error while a slice runs (R100, R170). -/
def sliceErr (e : Nat) (s : State) (x : EngErr) : State :=
  match x with
  | .buffer _ uc => if uc then s else setSrc (bumpCe s e) (ceSource e)
  | .basin _ uc => if 16 ≤ e then s else if uc then setSrc (bumpUc s e) (ucSource e) else setSrc (bumpCe s e) (ceSource e)

/-- A slice's operands come with an uncorrectable word, which is poison; or its tiles' sums do, and the slice does not pass:
DESIGN CHOICE (log 48). -/
def sliceUc (errs : List EngErr) : Bool := errs.any (fun x => match x with | .buffer _ uc => uc | .basin _ _ => false)
def sliceSpoilt (e : Nat) (errs : List EngErr) : Bool :=
  decide (e < 16) && errs.any (fun x => match x with | .basin _ uc => uc | .buffer _ _ => false)

/-- The slice that engine `e` holds runs: what its tasks do, and whether it passes (R378). -/
def runSlice (s : State) (e : Nat) (lanes : List (Nat × (Nat × Nat × Word))) (flips : List (Nat × Byte)) : SliceRun :=
  let r := (sliceItems s e).zipIdx.foldl (sliceItem e lanes flips) { s := s, bytes := [], pass := true, bad := slicePoisoned s e }
  { r with pass := r.pass && crc32c r.bytes == wd (engOf s e).katEnt 3 }

/-- KAT_SLICE_END (R378, R381, R383, R384): the slice's tasks have run for `cycles` cycles. -/
def endSlice (s : State) (e cycles : Nat) (lanes : List (Nat × (Nat × Nat × Word))) (flips : List (Nat × Byte)) (w : KatWhy)
    (errs : List EngErr := []) : State :=
  let r := runSlice (errs.foldl (sliceErr e) (elapse s cycles)) e lanes flips
  if r.bad || sliceUc errs then slicePoison r.s e w
  else if cycles ≤ sliceLen (engOf s e).katEnt && r.pass && !sliceSpoilt e errs then slicePass r.s e w
  else
    let s2 := quarantine r.s e
    setSrc { s2 with saf := { s2.saf with katFailed := satAdd 0xFF s2.saf.katFailed 1 } } 107

def execKatSliceEnd (e : Nat) (cycles : Nat) (lanes : List (Nat × (Nat × Nat × Word))) (flips : List (Nat × Byte)) (s : State)
    (errs : List EngErr := []) : Out :=
  .next (if halted s then s else match (engOf s e).kat with
    | none => s
    | some w => settle s (endSlice s e cycles lanes flips w errs))

-- RUN_SELFTEST (R382, R466)

def doRunSelftest (k : Pkt) (s : State) : Ans :=
  let m := (wd k.params 0).toNat
  let es := maskEngs m
  if m = 0 || 2 ^ 26 ≤ m then badWord s 2
  else if es.any (fun e => (engOf s e).quar) then badWord s 2
  else
    let t := issueCmd s k.port
    let todo := es.flatMap (fun e => (List.range (packSlices s.saf.pack (kindCode (engKind e))).length).map (fun i => (e, i)))
    (finishTests { t.2 with saf := { t.2.saf with tests := t.2.saf.tests ++ [SelfTest.mk t.1 [] [] todo] } },
     some (.accepted, [t.1]))

def execRunSelftest (k : Pkt) (s : State) : Out := .next (command 0x53 0 k (doRunSelftest k) s)

-- LOAD_TEST_PACK (R385, R386, R466, R501)

def doLoadTestPack (k : Pkt) (s : State) : Ans :=
  let a := pair48 (wd k.params 0) (wd k.params 1)
  let n := (wd k.params 2).toNat
  if fld k.params 1 31 16 != 0 then badWord s 3
  else if s.saf.packLoad.isSome || s.saf.packNext.isSome then refuse s .busy []
  else if !inDram s a n || hits (setRegions s ++ seqRegions s ++ fwRegions s) a n then badWord s 2
  else
    let t := issueCmd s k.port
    ({ t.2 with saf := { t.2.saf with packLoad := some (t.1, a, n) } }, some (.accepted, [t.1]))

def execLoadTestPack (k : Pkt) (s : State) : Out := .next (command 0x54 0 k (doLoadTestPack k) s)

/-- The verification of a test pack that control pair A has read ends (R386, R452, R499). -/
def packDone (s : State) (t : Word) (a n : Nat) : State :=
  let bs := s.mem.read a n
  let s0 := { s with saf := { s.saf with packLoad := none } }
  let row := sigRow s 9 bs
  if row != 0 then finishTok (sigCount s0 false) t .sigFail (detail 0x0B row 9) else
  let s1 := sigCount s0 true
  let body := bs.take (n - 2240)
  let p := parsePack a n body
  match packBad s1 p body with
  | some f => finishTok s1 t f.1 (detail 0x0C f.2.1 f.2.2)
  | none =>
    let s2 := if s1.sch.run == .running then { s1 with saf := { s1.saf with packNext := some p } } else activatePack s1 p
    finishTok s2 t .ok []

/-- LOAD_TEST_PACK_DONE (R386, R390); `ecc` says what becomes of the reads of some lines. -/
def execLoadTestPackDone (s : State) (ecc : List (Nat × Ecc) := []) : Out :=
  .next (match s.saf.packLoad with
    | none => s
    | some x => if s.rst.pairA then s
      else settle s (pairAGo s [(x.2.1, x.2.2)] (eccFor ecc) (fun s => packDone s x.1 x.2.1 x.2.2)))

end Sys2Proof.Machine
end

