-- ==== Sys2Proof/Machine/Recovery.lean ====
section
/-! DEFINITION. Fault commands, hangs, the escalation ladder, GUILT_REPLAY and the stops of the control pairs and of
Headland (R354, R389, R390, R413 to R415, R424 to R435). -/

namespace Sys2Proof.Machine

-- READ_FAULTS and CLEAR_FAULTS (R413 to R415)

def doReadFaults (_k : Pkt) (s : State) : Ans := (s, some (.ok, faultWords s))
def execReadFaults (k : Pkt) (s : State) : Out := .next (command 0x51 0 k (doReadFaults k) s)

/-- The mask of a CLEAR_FAULTS packet, FSW0 first. -/
def clearMask (k : Pkt) : BitVec 128 := wd k.params 3 ++ wd k.params 2 ++ wd k.params 1 ++ wd k.params 0

/-- CLEAR_FAULTS: nothing is cleared by a refusal; a level source whose condition holds sets again. -/
def doClearFaults (k : Pkt) (s : State) : Ans :=
  let m := clearMask k
  match (List.range 4).find? (fun i => maskWord (m &&& maskReserved) i != 0) with
  | some i => badWord s (2 + i)
  | none =>
    if (m &&& maskFA) != 0 || (k.port == .S && (m &&& ~~~maskPortS) != 0) then refuse s .notPermitted []
    else (levelSources { s with fc := { s.fc with fsw := s.fc.fsw &&& ~~~m } }, some (.ok, []))

def execClearFaults (k : Pkt) (s : State) : Out := .next (command 0x52 0 k (doClearFaults k) s)

-- Domains and the ladder (R428 to R433)

/-- Tokens of the jobs with an item in an engine, in the order array, drain, staging (R426). -/
def heldToks (x : Engine) : List Word := attemptToks x ++ (match x.stg with | some g => [g.token] | none => [])

/-- The cluster of an engine or ISP domain, and the domains that a domain or cluster contains (R428). -/
def clusterOf (d : Nat) : Nat := if d < 16 then 32 + d / 4 else if d < 22 then 36 else 37
def members (d : Nat) : List Nat :=
  if d < 28 then [d]
  else if d < 36 then [4 * (d - 32), 4 * (d - 32) + 1, 4 * (d - 32) + 2, 4 * (d - 32) + 3]
  else if d = 36 then [16, 17, 18, 19, 20, 21]
  else [22, 23, 24, 25, 26, 27]

/-- The domain that a step of the ladder resets (R431). -/
def stepDom (l : Ladder) : Nat := if l.step = 2 && l.dom < 28 then clusterOf l.dom else l.dom

/-- Tokens of the jobs with an item on a domain: in an engine, staged, or with transfers of its stream unit (R426, R429). -/
def domToks (s : State) (d : Nat) : List Word :=
  (if d < 26 then heldToks (engOf s d) else []) ++ (s.ms.xfers.filter (fun x => x.unit == d)).map (fun x => x.use.token)

/-- An engine domain is cleared: its attempts, what it has staged and its slice go, it is withdrawn until it passes one, its
tag advances (R429). -/
def clearEngine (s : State) (e : Nat) : State :=
  modEng (reclaim s e) e (fun x => { x with
    arr := none, drn := none, stg := none, prev := none, stgOff := 0, kat := none, wdr := true, gen := (x.gen + 1) % 256, resetting := true
    katDue := match x.kat with
      | some (.commanded _) | none => x.katDue
      | some w => w :: x.katDue })

/-- An ISP domain is cleared: the sensor frames in its pipeline are dropped OVERRUN (R429). -/
def clearIsp (s : State) (n : Nat) : State :=
  let s1 := (List.range 64).foldl (fun s i =>
    let e := stEntry s i
    if stValid e && !stEth e && stIsp e && stIspNo e == n then
      dropCur (dropKept s i (fun f => f.closed && !f.complete && writesOut s i f) (fun _ => .overrun)) i .overrun false
    else s) s
  modIsp (reclaim s1 (26 + n)) n (fun x => { x with busy := false, resetting := true, gen := (x.gen + 1) % 256 })

/-- The resets of a step are applied: jobs with an item on the domains end KILLED_RESET first (R429). -/
def applyReset (s : State) (ds : List Nat) : State :=
  let s1 := killJobs s (ds.flatMap (domToks s)) .killedReset 29
  haltIdle (ds.foldl (fun s d => if d < 26 then clearEngine s d else clearIsp s (d - 26)) s1)

/-- ORIGIN of a step (R442): escalation for the cluster of a domain whose step 1 failed, else hang or command. -/
def stepOrigin (l : Ladder) : Nat := if l.step = 2 && l.dom < 28 then 3 else if l.byHang then 1 else 2

/-- A step that has ended is recorded in FC.RESET_INFO, with FAILED when it took more than 1 ms (R431, R442). -/
def recordStep (l : Ladder) (failed : Bool) (s : State) : State :=
  { s with fc := { s.fc with
      rDomain := stepDom l, rStep := l.step, rOrigin := stepOrigin l, rFailed := failed } }

/-- A step of the ladder starts; the hang that the report names has reached it if the step resets its domain for a
hang (R431, R440). -/
def startStep (s : State) (l : Ladder) : State :=
  let d := stepDom l
  let s1 := { s with
    rst := { s.rst with ladder := some { l with startNs := now s } }
    fc := { s.fc with hStep := if l.byHang && (members d).contains s.fc.hDomain then l.step else s.fc.hStep } }
  applyReset s1 (members d)

/-- The reset controller takes the next hang that waits (R435). -/
def nextHang (s : State) : State :=
  match s.rst.hangQ with
  | [] => { s with rst := { s.rst with ladder := none } }
  | x :: r => startStep { s with rst := { s.rst with hangQ := r } }
      { dom := x, step := 1, byHang := true, token := none }

/-- DOMAIN_RESET_COMPLETE (R429, R431 to R433). -/
def resetDone (s : State) (l : Ladder) : State :=
  let ds := (members (stepDom l)).filter (fun d => d < 26)
  let s0 := ((members (stepDom l)).filter (fun d => 26 ≤ d)).foldl (fun s d => modIsp s (d - 26) (fun x => { x with resetting := false })) s
  let s1 := ds.foldl (fun s d => modEng s d (fun x => { x with resetting := false })) s0
  let bad := ds.filter (fun d => (l.step = 2 && l.dom == d) || decide (2 ≤ (engOf s d).hangs))
  let s2 := (bad.filter (fun d => !(engOf s d).quar)).foldl quarantine s1
  let s3 := recordStep l false { s2 with fc := { s2.fc with resets := satAdd 0xFF s2.fc.resets 1 } }
  let s4 := match l.token with
    | some t => finishTok s3 t .ok []
    | none => s3
  nextHang s4

def execDomainResetComplete (s : State) : Out :=
  .next (match s.rst.ladder with
    | none => s
    | some l => settleUnits s (resetDone s l))

/-- RESET_STEP_TIMEOUT (R431): source 109, FAILED, and the next step. -/
def execResetStepTimeout (s : State) : Out :=
  .next (match s.rst.ladder with
    | none => s
    | some l =>
      let s1 := passTo s (l.startNs + 1000000)
      let s2 := setSrc (recordStep l true { s1 with fc := { s1.fc with escal := satAdd 0xFF s1.fc.escal 1 } }) 109
      let s3 := settle s1 (match l.token with
        | some t => finishTok s2 t .timeout []
        | none => s2)
      if l.step = 1 then startStep s3 { l with step := 2, token := none } else startWarm s3 3)

/-- RESET_DOMAIN (R417, R433, R466). -/
def doResetDomain (k : Pkt) (s : State) : Ans :=
  let d := (wd k.params 0).toNat
  if !(d < 28 || (32 ≤ d && d ≤ 37) || d = 63) then badWord s 2
  else if s.pins.clocksOff then refuse s .wrongState []
  else if s.rst.ladder.isSome then refuse s .busy []
  else if d = 63 then (startWarm s 2, none)
  else
    let t := issueCmd s k.port
    (startStep t.2 { dom := d, step := if d < 28 then 1 else 2, byHang := false, token := some t.1 },
     some (.accepted, [t.1]))

def execResetDomain (k : Pkt) (s : State) : Out := .next (command 0x60 0 k (doResetDomain k) s)

-- Hangs (R424 to R426, R432, R435)

/-- Bytes of a row as fetched and written, padding included (R167). -/
def padRow (r : List Word) : Nat := (rowBytes r + 31) / 32 * 32

/-- Fetches of WINO_IN: for each tile the positions of its window that lie within the buffer (R142, R167). -/
def winoFetches (c x z : List Word) : Nat :=
  ((List.range (refD1 z)).map (fun t =>
    min 6 (refD1 x - t % winoAcross c * 4) * min 6 (refD2 x - t / winoAcross c * 4))).sum

/-- Nominal cycles of a vector task: the bytes it fetches, each fetch counted, and those it writes (R140, R143, R162, R167).
DESIGN CHOICE (log 44): BAND fetches its X once. -/
def vecCycles (s : State) (p : Plan) (d : Desc) : Nat :=
  let c := convOf p d.layer
  let z := vdZ d
  let n := refRows z
  let win := (window c).length
  let op := vdOp d
  let pad := (padWrites s c (bits (vdP0 d) 15 0) (bits (vdP0 d) 31 16)).length * padRow (cvIn c)
  let rd :=
    if op ≤ 4 || op = 6 then n * (padRow (vdX d) + padRow (vdY d))
    else if op = 7 then (if cvPad c = 3 || cvPad c = 4 then pad
      else ((padRegions c (bits (vdP0 d) 15 0) (bits (vdP0 d) 31 16)).map (fun g => g.2)).sum)
    else if op = 8 || op = 12 then n * win * padRow (vdX d)
    else if op = 9 then n * win * (padRow (vdX d) + padRow (vdY d))
    else if op = 10 then winoFetches c (vdX d) z * padRow (vdX d)
    else if op = 11 then 36 * (winoAcross c * ((min (refD2 z) (cvHout c) + 3) / 4)) * padRow (vdX d)
    else if op = 13 || op = 14 then padBytes (vdX d)
    else n * padRow (vdX d)
  let wr := if op = 7 then pad
    else if op = 11 then min (refD1 z) (cvWout c) * min (refD2 z) (cvHout c) * padRow z
    else if op = 13 then min (refD0 (vdX d) * refD2 (vdX d)) (refD1 z - bits (vdP1 d) 15 0) * padRow z
    else padBytes z
  let par := ((vecParts d).map (fun g => g.2)).sum
  32 + (rd + par + 255) / 256 + (wr + 255) / 256

/-- Nominal cycles of a task whose count may exceed 25,000 (R167). -/
def longCycles (s : State) (p : Plan) (d : Desc) : Nat :=
  match d.kind with
  | .ve => vecCycles s p d
  | .warp => 32 + (padBytes (dref d 24) + 15) / 16 + (if bit (wd d.words 0) 6 then (padBytes (dref d 32) + 15) / 16 else 0)
  | .crop => 32 + (padBytes (dref d 16) + 15) / 16 + fld d.words 2 7 0
  | .sort =>
    let n := refElems (dref d 8)
    let k := fld d.words 1 12 0
    if fld d.words 0 3 0 = 1 then 32 + n + 4 * k else 32 + n + 4 * min n 4096 + (n * k + 15) / 16
  | .me | .ae | .pcl => 0

/-- The job of a token, live or kept for a report. -/
def jobKept (s : State) (t : Word) : Option Job :=
  match jobOf s t with
  | some j => some j
  | none => s.fc.hJobs.find? (fun j => j.token == t)

/-- The hang limit (R424). -/
def hangLimit (s : State) (a : Attempt) : Nat :=
  let p := match jobKept s a.token with
    | some j => j.plan
    | none => (activeSet s).plan
  let n := longCycles s p a.desc
  if n ≤ 25000 then 125000 else 5 * n

/-- The context of a token (R29). -/
def tokCtx (t : Word) : Nat := bits t 31 20

/-- A replay that hangs after it has ended has hung (R427). -/
def replayHung (s : State) (t : Word) : State :=
  { s with cmd := { s.cmd with tokens := s.cmd.tokens.map (fun x => if x.token == t && !x.live then { x with payload := [1] } else x) } }

/-- A hang on engine `e` is declared for attempt `a` (R424 to R426, R432, R435). -/
def declareHang (s : State) (e cause : Nat) (a : Attempt) : State :=
  let x := engOf s e
  let sus := if a.t4 then (heldToks x).eraseDups else [a.token]
  let repl : Bool := match jobKept s a.token with | some j => j.origin == .replay | none => false
  let jobs := s.jobs.filter (fun j => sus.contains j.token)
  let s1 := { s with fc := { s.fc with
    hDomain := e, hCause := cause, hUnnamed := a.t4, hSuspects := sus.length, hReplay := repl
    hCtx := if a.t4 then 0 else tokCtx a.token, hStep := 0
    hTok0 := wd sus 0, hTok1 := wd sus 1, hTok2 := wd sus 2
    hJobs := jobs ++ s.fc.hJobs.filter (fun j => !jobs.any (fun k => k.token == j.token))
    hangs := satAdd 0xFFFF s.fc.hangs 1 } }
  let s2 := setSrc (if repl then replayHung s1 a.token else modEng s1 e (fun x => { x with hangs := x.hangs + 1 })) 104
  match s2.rst.ladder with
  | none => startStep s2 { dom := e, step := 1, byHang := true, token := none }
  | some l =>
    if (members (stepDom l)).contains e then { s2 with fc := { s2.fc with hStep := l.step } }
    else { s2 with rst := { s2.rst with hangQ := s2.rst.hangQ ++ [e] } }

/-- HANG_OVERRUN (R424): the attempt in the array has spent its limit; the time stands at that cycle. One told to stop
before reaches its limit too, unless its acknowledgement is overdue first. -/
def execHangOverrun (e : Nat) (s : State) : Out :=
  .next (if halted s then s else match (engOf s e).arr with
    | none => s
    | some a =>
      if (a.stopping && decide (a.stopClk + 2500 < a.startClk + hangLimit s a)) || a.done.isSome || s.rst.hangQ.contains e then s else
      let s1 := elapse s (hangLimit s a - (s.clk - a.startClk))
      settleUnits s (declareHang s1 e 1 a))

/-- HANG_NO_ACK: an attempt told to stop is still there 2,500 cycles later. -/
def execHangNoAck (e : Nat) (s : State) : Out :=
  let x := engOf s e
  let l := (match x.arr with | some a => [a] | none => []) ++ (match x.drn with | some a => [a] | none => [])
  .next (if halted s then s else match l.find? (fun a => a.stopping) with
    | none => s
    | some a =>
      if s.rst.hangQ.contains e then s else
      let s1 := elapse s (2500 - (s.clk - a.stopClk))
      settleUnits s (declareHang s1 e 2 a))

-- GUILT_REPLAY (R427)

/-- The plan of a replayed job: only what it writes itself is waited on, since it runs alone. -/
def replayPlan (j : Job) : Plan :=
  let outs := j.items.flatMap (itemOutRefs j)
  let mine (t : List Word) : Bool := outs.any (fun r => (tensorIn [t] r).isSome)
  { j.plan with tensors := j.plan.tensors.filter mine }

/-- The job again, from the descriptors of its submission, with one engine. -/
def replayJob (s : State) (j : Job) (t : Word) (e : Nat) : Job :=
  let grps := (j.items.map (fun i => i.grp)).eraseDups
  { j with
    token := t, origin := .replay, jobId := 0, cls := false, mask := 2 ^ e, startClk := s.clk, halted := false
    haltClk := 0, paused := 0, layers := [], plan := replayPlan j
    timeoutAt := if j.timeoutUs = 0 then none else some (now s + 1000 * j.timeoutUs)
    items := grps.flatMap (groupItems s j.plan) }

def doGuiltReplay (k : Pkt) (s : State) : Ans :=
  let t := wd k.params 0
  let e := (wd k.params 1).toNat
  if 26 ≤ e then badWord s 3
  else if s.sch.run != .idle || anyFA s then refuse s .wrongState []
  else if replaying s || s.rst.ladder.isSome then refuse s .busy []
  else if t == 0 || !([s.fc.hTok0, s.fc.hTok1, s.fc.hTok2].contains t) then badWord s 2
  else match jobKept s t with
    | none => badWord s 2
    | some j =>
      if (engOf s e).quar || !j.items.any (fun i => !i.prefetch && i.desc.kind == engKind e) then badWord s 3
      else
        let r := issueCtx s j.ctx
        let s1 := addTok r.2 r.1 k.port
        (units (tryDone (startJob s1 (replayJob s1 j r.1 e)) r.1 26), some (.accepted, [r.1]))

def execGuiltReplay (k : Pkt) (s : State) : Out := .next (command 0x61 0 k (doGuiltReplay k) s)

-- The control cores (R354, R389, R390)

/-- The control cores run (R491). -/
def coresUp (s : State) : Bool := (s.boot == .rom || s.boot == .firmware) && !s.warm

/-- CONTROL_PAIR_MISMATCH (R389). -/
def execControlPairMismatch (pairB : Bool) (s : State) : Out :=
  .next (if !coresUp s || halted s || (if pairB then s.rst.pairB else s.rst.pairA) then s
    else settle s (if pairB then stopPairB s else stopPairA s))

/-- HEADLAND_LOCKSTEP_FAULT (R354): with `corrected` the fault is a corrected error in Headland's memory, which is written
back and counted alone. -/
def execHeadlandLockstepFault (s : State) (corrected : Bool := false) : Out :=
  .next (if !coresUp s || halted s || s.hl.stopped then s
    else if corrected then { s with saf := { s.saf with hlCe := satAdd 0xFF s.saf.hlCe 1 } }
    else settle s (setSrc { s with hl := { s.hl with stopped := true } } 90))

end Sys2Proof.Machine
end

