-- ==== Sys2Proof/Machine/Mapin.lean ====
section
/-! DEFINITION. The Mapin peer link: frames, credits and sequence, key/value transfers, the group and its generations,
barriers, and time exchange (R322, R328 to R343). -/

namespace Sys2Proof.Machine

-- Links

/-- The bonded MACs that are up; at most four are bonded (R293, R328). -/
def bonded (s : State) : List Nat :=
  (((List.range 8).filter (fun m => bit (wd (macSec s m) 0) 2)).take 4).filter (fun m => (s.sens.eth.getD m {}).up)

/-- Mapin works: a node ID, control pair B, a bonded port (R328, R412, R447). -/
def mapinUp (s : State) : Bool := s.map.valid && !s.rst.pairB && coresUp s && !halted s && !(bonded s).isEmpty

/-- MAPIN.STATUS.GROUP (R335, R350). -/
def groupState (s : State) : Nat :=
  if (groupOf s).isEmpty then 0
  else if (groupOf s).all (fun n => genEntry s n != 0) then 2
  else if s.map.everFormed then 3 else 1
def formed (s : State) : Bool := groupState s == 2

/-- Credits that a frame takes of its receiver's allotment (R332). -/
def frameCost (f : MFrame) : Nat := (32 + f.payload.length + 255) / 256

-- The wire (R328 to R330)

/-- TYPE codes (R330). -/
def MType.code : MType → Nat
  | .hello => 1 | .link => 2 | .writeReq => 3 | .writeReply => 4 | .readReq => 5 | .readReply => 6 | .arrive => 7
  | .release => 8 | .timeReq => 9 | .timeResp => 10 | .lost => 11

/-- Words 0 to 6 of a frame's header (R329). -/
def headWords (s : State) (f : MFrame) : List Word :=
  [BitVec.ofNat 32 (f.typ.code + 256 * b2n f.nak + 65536 * f.payload.length),
   BitVec.ofNat 32 (s.map.nodeId.toNat + 65536 * f.dst.toNat), f.lseq, f.ack,
   BitVec.ofNat 32 (f.gen.toNat + 65536 * f.credits), f.reqId, f.arg]

/-- The Ethernet address of a node, 02-00-00-00-hh-ll (R328). -/
def nodeAddr (n : BitVec 16) : List Byte := [2, 0, 0, 0] ++ natBytesBE 2 n.toNat

/-- A frame on the wire, from its destination address to the end of its payload; word 7 is the CRC-32C of the words before
it and the payload (R328, R329). -/
def frameBytes (s : State) (f : MFrame) : List Byte :=
  let h := wordsBytes (headWords s f)
  nodeAddr f.dst ++ nodeAddr s.map.nodeId ++ natBytesBE 2 s.map.etherType.toNat ++ h
    ++ wordBytes (crc32c (h ++ f.payload)) ++ f.payload

/-- The bonded port whose turn it is (R328). -/
def nextPort (s : State) : Nat :=
  let ps := bonded s
  (ps.find? (fun m => s.map.turn ≤ m)).getD (ps.headD 0)

/-- A frame goes on the wire by the port whose turn it is, with the link's acknowledgement, credits and NAK (R328, R329,
R331, R332). -/
def emit (s : State) (f : MFrame) : State :=
  let l := linkOf s f.dst
  let g : MFrame := { f with ack := l.rxSeq, gen := s.map.gen, credits := l.owed, nak := l.nak, port := nextPort s }
  let s1 := putLink s { l with owed := 0, nak := false }
  { s1 with
    map := { s1.map with turn := g.port + 1 }
    out := { s1.out with mapin := s1.out.mapin ++ [g], mapinWire := s1.out.mapinWire ++ [(g.port, frameBytes s g)] } }

/-- An instant as it travels in a time message: nanoseconds, then seconds. DESIGN CHOICE (log 33). -/
def stampBytes (t : Nat) : List Byte := wordsBytes [BitVec.ofNat 32 (t % 1000000000), BitVec.ofNat 32 (t / 1000000000)]

/-- The stamp of a time message at its start-of-frame delimiter: t1 is kept with its request, t3 goes with it (R322). A message sent again
keeps the stamp of the port that it used first. -/
def stamp (s : State) (f : MFrame) : State × MFrame :=
  let t := now s + egrLat s (nextPort s)
  match f.typ with
  | .timeReq => ({ s with ts := { s.ts with mapinT1 := s.ts.mapinT1 ++ [(f.reqId, f.dst, (t : Int))] } }, f)
  | .timeResp => (s, { f with payload := f.payload.take 8 ++ stampBytes t })
  | .hello | .link | .writeReq | .writeReply | .readReq | .readReply | .arrive | .release | .lost => (s, f)

/-- A frame takes its sequence and its credits and is sent; a request is outstanding from then on (R333). -/
def sendFrame (s : State) (f0 : MFrame) : State :=
  let r := stamp s f0
  let s := r.1
  let l := linkOf s f0.dst
  let g : MFrame := { r.2 with lseq := l.txSeq + 1 }
  let s1 := emit (putLink s { l with
    txSeq := l.txSeq + 1, free := l.free - frameCost g, unacked := l.unacked ++ [g], greeted := l.greeted || g.typ == .hello }) g
  if g.typ == .writeReq || g.typ == .readReq then
    let mine := s1.map.waitReqs.filter (fun r => r.id == g.reqId)
    { s1 with map := { s1.map with
        sent := s1.map.sent + mine.length
        reqs := s1.map.reqs ++ mine.map (fun r => { r with sentNs := now s1 })
        waitReqs := s1.map.waitReqs.filter (fun r => r.id != g.reqId) } }
  else s1

/-- The rows that a WRITE_REQ carries are read as it goes, by the port of control pair B (R216, R220). DESIGN CHOICE (log 33):
they go as they stood when the request was made, whatever the read comes to. -/
def readRows (s : State) (f : MFrame) (o : Nat → Ecc) : State :=
  match s.map.waitReqs.find? (fun r => r.id == f.reqId) with
  | some r => if f.typ == .writeReq then portRead s srcPairB r.addr r.len o else s
  | none => s

/-- A frame that waits goes, if the allotment has its credits (R332). -/
def trySend (s : State) (f : MFrame) (o : Nat → Ecc := asIs) : State :=
  if frameCost f ≤ (linkOf s f.dst).free then
    (let s1 := readRows s f o
     sendFrame { s1 with map := { s1.map with waitQ := s1.map.waitQ.erase f } } f)
  else s

/-- This node's rank in its group. -/
def myRank (s : State) : Nat := (groupOf s).findIdx (fun n => n == s.map.nodeId)

/-- HELLO carries this node's rank (R330). -/
def helloTo (s : State) (dst : BitVec 16) : MFrame :=
  { typ := .hello, dst := dst, lseq := 0, reqId := 0, arg := BitVec.ofNat 32 (myRank s), payload := [] }

/-- A member has still to be sent HELLO, which precedes all but LOST (R335, R337). -/
def owesHello (s : State) (dst : BitVec 16) : Bool := (peers s).contains dst && !(linkOf s dst).greeted

/-- MAPIN_FRAME_SEND (R332): the first waiting frame for a node, once the allotment has enough credits; a member that has
still to be sent HELLO gets that first. `ecc` says what becomes of the reads of some lines. -/
def execMapinFrameSend (dst : BitVec 16) (s : State) (ecc : List (Nat × Ecc) := []) : Out :=
  .next (if !mapinUp s then s else
    match s.map.waitQ.find? (fun f => f.dst == dst) with
    | none => s
    | some f => settle s (trySend s (if owesHello s dst && f.typ != .lost then helloTo s dst else f) (eccFor ecc)))

/-- MAPIN_RESEND_TIMEOUT (R331). -/
def resend (s : State) (dst : BitVec 16) : State := (linkOf s dst).unacked.foldl emit s

def execMapinResendTimeout (dst : BitVec 16) (s : State) : Out := .next (if mapinUp s then resend s dst else s)

/-- MAPIN_LINK_KEEPALIVE (R331, R332, R335): a LINK frame, outside the link sequence; HELLO to a member that has still to be
sent one. -/
def execMapinLinkKeepalive (dst : BitVec 16) (s : State) : Out :=
  .next (if !mapinUp s || !(peers s).contains dst then s
    else if owesHello s dst then trySend s (helloTo s dst)
    else
      let l := linkOf s dst
      let f : MFrame := { typ := .link, dst := dst, lseq := 0, reqId := 0, arg := 0, payload := [] }
      if frameCost f ≤ l.free then emit (putLink s { l with free := l.free - frameCost f }) f else s)

-- Loss (R336, R337)

/-- A job waits on rows that a node writes into its receive windows. -/
def waitsWindow (s : State) (n : BitVec 16) (j : Job) : Bool :=
  let ws := j.plan.windows.filter (fun w => w.node == n)
  j.items.any (fun i => isWaiting i && (i.ds.flatMap Desc.ins).any (fun r =>
    ws.any (fun w => overlaps w.base w.len (refBase r) (refSpan r)) && !refReady s (ownerOf j) r))

/-- Jobs that the loss of a node ends. -/
def lossHits (s : State) (n : BitVec 16) (j : Job) : Bool :=
  (s.map.reqs ++ s.map.waitReqs).any (fun r => r.dst == n && r.token == some j.token) || waitsWindow s n j

/-- The requests to a node end by timeout, and what waits for it goes. -/
def endReqs (s : State) (n : BitVec 16) : State :=
  let k := (s.map.reqs.filter (fun r => r.dst == n)).length
  { s with map := { s.map with
      reqs := s.map.reqs.filter (fun r => r.dst != n), waitReqs := s.map.waitReqs.filter (fun r => r.dst != n)
      waitQ := s.map.waitQ.filter (fun f => f.dst != n)
      timedOut := s.map.timedOut + k, timeouts := satAdd 0xFFFF s.map.timeouts k } }

/-- Jobs end KILLED_UPSTREAM on the MAPIN input, those of RUN_JOB to be issued again (R336, R338). -/
def killLost (s : State) (n : BitVec 16) : State :=
  let js := s.jobs.filter (lossHits s n)
  let again := (js.filter (fun j => j.origin == .runJob)).map (fun j => (j.token, j))
  let s1 := killJobs (windowsInvalid (endReqs s n) n) (js.map (fun j => j.token)) .killedUpstream 28
  let s2 := if s1.sch.invalid.isEmpty then s1 else cascade (s1.jobs.length + s1.sch.tt.length) s1
  { s2 with map := { s2.map with reissue := s2.map.reissue ++ again } }

/-- Every barrier in progress fails (R341). -/
def failBarriers (s : State) (st : Status) : State :=
  let k := s.map.barriers.length
  if k = 0 then s else
  let s1 := s.map.barriers.foldl (fun (s : State) (b : Barrier) => finishTok s b.token st []) s
  setSrc { s1 with map := { s1.map with barriers := [], barFails := satAdd 0xFF s1.map.barFails k } } 114

/-- A member is lost (R336): its link starts afresh; an ARRIVE of it counts no more (R339). -/
def memberLost (s : State) (n : BitVec 16) : State :=
  let g := (linkOf s n).gen
  if g == 0 then s else
  let s1 := setSrc { s with
    map := { s.map with lost := satAdd 0xFF s.map.lost 1 }
    cmd := { s.cmd with lostEvt := s.cmd.lostEvt ++ [BitVec.ofNat 32 (n.toNat + 65536 * g.toNat)] } } 113
  let s2 := failBarriers (killLost (putLink { s1 with map := { s1.map with early := s1.map.early.filter (fun x => x.2.2.1 != n) } }
    (freshLink s1 n)) n) .peerLost
  queueFrame s2 .lost n 0 0 []

/-- MAPIN_REQ_TIMEOUT (R333, R336). -/
def execMapinReqTimeout (reqId : Word) (s : State) : Out :=
  .next (match s.map.reqs.find? (fun r => r.id == reqId) with
    | none => s
    | some r =>
      if s.rst.pairB then s else
      let s1 := passTo s (r.sentNs + s.map.reqTimeout)
      settleUnits s (if genEntry s1 r.dst == 0 then killLost s1 r.dst else memberLost s1 r.dst))

/-- MAPIN_MEMBER_SILENT (R336). -/
def execMapinMemberSilent (node : BitVec 16) (s : State) : Out :=
  .next (if s.rst.pairB || !(peers s).contains node || genEntry s node == 0 then s
    else settleUnits s (memberLost (passTo s ((linkOf s node).lastNs + s.map.reqTimeout)) node))

/-- Jobs ended by a loss are issued again once the group is FORMED; the old token answers PEER_LOST with the new one
(R338, R464). -/
def reissueOne (s : State) (x : Word × Job) : State :=
  let j := x.2
  let r := issueCtx s j.ctx
  let s1 := addTok r.2 r.1 j.port
  let grps := (j.items.map (fun i => i.grp)).eraseDups
  let k : Job := { j with
    token := r.1, startClk := s.clk, halted := false, haltClk := 0, paused := 0, layers := [], sent := []
    timeoutAt := some (now s + 1000 * j.timeoutUs), items := grps.flatMap (groupItems s j.plan) }
  let s2 := tryDone (startJob s1 k) r.1 26
  { s2 with cmd := { s2.cmd with tokens := s2.cmd.tokens.map (fun y =>
      if y.token == x.1 then { y with live := false, status := .peerLost, payload := [r.1] } else y) } }

def reissueJobs (s : State) : State :=
  if formed s && s.sch.run != .halted && !anyFA s then
    s.map.reissue.foldl reissueOne { s with map := { s.map with reissue := [] } }
  else s

-- Receipt (R331, R335)

/-- A frame with a bad CRC or out of order is discarded with source 112, and a NAK is owed (R331). -/
def badFrame (s : State) (n : BitVec 16) : State :=
  let s1 := setSrc { s with map := { s.map with crc := satAdd 0xFFFF s.map.crc 1 } } 112
  putLink s1 { linkOf s1 n with nak := true }

/-- MAPIN_BAD_FRAME. -/
def execMapinBadFrame (src : BitVec 16) (s : State) : Out := .next (if mapinUp s then badFrame s src else s)

/-- Acknowledgements and credits of a frame; a credit too many is a violation, also while the promise is void (R45, R331,
R332; log 41). -/
def takeAcks (s : State) (h : MHdr) : State :=
  let l := linkOf s h.src
  let free := l.free + h.credits
  let s1 := putLink s { l with
    free := min free (allot s), lastNs := now s
    unacked := l.unacked.filter (fun f => !((h.ack - f.lseq).toNat < 2 ^ 31)) }
  let s2 := if allot s < free then creditViolation s1 else s1
  if h.nak then resend s2 h.src else s2

/-- A frame in order leaves the buffer: its credits are owed (R331, R332). -/
def inOrder (s : State) (h : MHdr) (len : Nat) : State :=
  let l := linkOf s h.src
  putLink s { l with rxSeq := h.lseq, owed := l.owed + (32 + len + 255) / 256 }

/-- A message of a wrong generation is dropped (R335). -/
def staleGen (s : State) (h : MHdr) : Bool := (groupOf s).contains h.src && h.gen != genEntry s h.src
def dropStale (s : State) : State :=
  setSrc { s with map := { s.map with stale := satAdd 0xFFFF s.map.stale 1 } } 84

/-- A member's entry takes the generation of its HELLO; its link begins with that frame. -/
def takeHello (s : State) (h : MHdr) : State :=
  let l := linkOf s h.src
  let s1 := putLink s { freshLink s h.src with
    gen := h.gen, rxSeq := h.lseq, owed := 1, fresh := l.fresh || s.sch.run == .running }
  reissueJobs { s1 with map := { s1.map with everFormed := s1.map.everFormed || formed s1 } }

/-- LOST: a new generation, every request to the group ended, the jobs they touch ended; the links start afresh, each with
HELLO (R337). -/
def selfLost (s : State) : State :=
  let s1 := (peers s).foldl killLost { s with map := { s.map with
    gen := nextGen s.map.gen, early := [], cut := s.map.cut || s.sch.run == .running } }
  let s2 := (peers s).foldl (fun (s : State) (n : BitVec 16) =>
    let l := linkOf s n
    queueFrame (putLink s { freshLink s n with gen := l.gen, lastNs := l.lastNs, fresh := l.fresh })
      .hello n 0 (BitVec.ofNat 32 (myRank s)) []) s1
  reissueJobs (failBarriers s2 .peerLost)

-- Transfers (R334)

/-- The plans that grant windows, with their owners: the active set's and those of job images. -/
def planOwners (s : State) : List (Word × Plan) :=
  (0, (activeSet s).plan) :: (s.jobs.filter (fun j => j.origin != .tide)).map (fun j => (j.token, j.plan))

/-- The plan that grants a sender a region. -/
def windowFor (s : State) (n : BitVec 16) (a len : Nat) : Option (Word × Plan) :=
  (planOwners s).find? (fun x => x.2.windows.any (fun w => w.node == n && w.base ≤ a && a + len ≤ w.base + w.len))

/-- WRITE_REQ: its rows land and are answered OK when they stand; outside every window, or into an invalid tensor, nothing is
written. -/
def onWriteReq (s : State) (h : MHdr) (a : Nat) (data : List Byte) : State :=
  let answer (x : Status) : State := queueFrame s .writeReply h.src h.reqId (BitVec.ofNat 32 x.code) []
  match windowFor s h.src a data.length with
  | none => answer .notPermitted
  | some x =>
    let inv := x.1 == 0 && s.sch.run == .running &&
      (match tensorAt x.2 a with | some t => s.sch.invalid.contains (refBase t) | none => false)
    if inv then answer .aborted else
    let n := h.arg.toNat
    land s x.1 ((List.range n).map (fun k => a + k * (data.length / n))) (some (h.src, h.reqId)) a data []

/-- Offsets of the poisoned sectors of a region. -/
def poisonOffs (s : State) (a n : Nat) : List Nat :=
  ((unitsOf a n).filter (fun u => poisoned s u 1)).map (fun u => u - a)

/-- READ_REQ: the reply flags the sectors that come poisoned; a region of no window is not permitted. DESIGN CHOICE (log 33):
the port of control pair B reads, as `o` says. -/
def onReadReq (s : State) (h : MHdr) (a : Nat) (o : Nat → Ecc := asIs) : State :=
  let n := h.arg.toNat
  match windowFor s h.src a n with
  | none => queueFrame s .readReply h.src h.reqId (BitVec.ofNat 32 Status.notPermitted.code) []
  | some _ =>
    let s1 := portRead s srcPairB a n o
    let lost := lostUnits s1 a n o
    let bad := poisonOffs s1 a n ++ ((unitsOf a n).filter (fun u => lost.contains u && !poisoned s1 u 1)).map (fun u => u - a)
    let st := if bad.isEmpty then Status.ok else Status.poisoned
    let f : MFrame := { typ := .readReply, dst := h.src, lseq := 0, reqId := h.reqId, arg := BitVec.ofNat 32 st.code
                        payload := s.mem.read a n, flagged := bad }
    { s1 with map := { s1.map with waitQ := s1.map.waitQ ++ [f] } }

/-- A reply ends its request; one that matches none is a conservation violation, also while the promise is void (R45, R333;
log 41). -/
def takeReply (s : State) (h : MHdr) (write : Bool) (body : State → MReq → State) : State :=
  match s.map.reqs.find? (fun r => r.id == h.reqId && r.dst == h.src && r.write == write) with
  | none => setSrc { s with sch := { s.sch with consMapin := true } } 82
  | some r =>
    let s1 := { s with map := { s.map with
      replied := s.map.replied + 1, reqs := s.map.reqs.filter (fun x => x.id != r.id) } }
    let s2 := body s1 r
    match r.token with
    | some t => tryDone s2 t 28
    | none => s2

/-- READ_REPLY: the data land, poisoned where flagged (R231, R334). -/
def onReadReply (s : State) (h : MHdr) (data : List Byte) (poisoned : List Nat) : State :=
  takeReply s h false (fun s r => match jobOf s (r.token.getD 0) with
    | some j => land s (ownerOf j) (if r.rowEnd then [r.addr] else []) none r.addr (data.take r.len) poisoned
    | none => s)

-- Barriers (R339 to R341)

/-- The node that leads a barrier: rank 0, or the lowest-ranked running member (R339, R340). A member not running takes
every other to run; a running one takes those to run that have not rejoined since its run began. DESIGN CHOICE (log 33):
`idle` names the members that RUN_CTL JOIN finds stopped beside those. -/
def leaderOf (s : State) (join : Bool) (idle : List (BitVec 16) := []) : BitVec 16 :=
  if !join then (groupOf s).headD 0
  else if s.sch.run == .running then
    ((groupOf s).find? (fun n => n == s.map.nodeId || (!(linkOf s n).fresh && !idle.contains n))).getD 0
  else ((peers s).filter (fun n => !idle.contains n)).headD s.map.nodeId

/-- Seconds and nanoseconds as they travel: FRAME_SEQ, seconds in eight bytes, nanoseconds (R330). -/
def barrierPayload (seq : Word) (t : Nat) : List Byte :=
  wordBytes seq ++ natBytes 8 (t / 1000000000) ++ natBytes 4 (t % 1000000000)

/-- The final payload of START_GROUP and JOIN (R466). -/
def releaseWords (seq : Word) (t : Nat) : List Word :=
  [addrLo (t / 1000000000), addrHi (t / 1000000000), BitVec.ofNat 32 (t % 1000000000), seq]

/-- A member accepts a release: outside a run it enters ARMED with the release time as its start time; running members
keep their frames (R339, R340). -/
def acceptRelease (s : State) (b : Barrier) (seq : Word) (t : Nat) : State :=
  let s1 := { s with map := { s.map with
    barriers := s.map.barriers.filter (fun x => x.token != b.token), links := s.map.links.map (fun l => { l with fresh := false })
    cut := false } }
  let s2 := finishTok s1 b.token .ok (releaseWords seq t)
  if s.sch.run == .idle then armRun s2 t seq else s2

/-- The barrier's release time and frame, from its proposals (R339, R340). -/
def releaseAt (s : State) (b : Barrier) : Nat × Word :=
  let top := (b.arrived.map (fun x => x.2)).foldl max (now s + 1000000)
  if b.join then
    let p := max 1 (ttPeriod (tide s))
    let k := max 1 ((top - s.sch.t + p - 1) / p)
    (s.sch.t + k * p, s.sch.seq + BitVec.ofNat 32 k)
  else ((top + 999) / 1000 * 1000, b.seq)

/-- The leader releases a barrier at which every member has arrived. -/
def tryRelease (s : State) (b : Barrier) : State :=
  if leaderOf s b.join b.idle == s.map.nodeId && (groupOf s).all (fun n => b.arrived.any (fun x => x.1 == n)) then
    let r := releaseAt s b
    let s1 := (peers s).foldl (fun (s : State) (n : BitVec 16) =>
      queueFrame s .release n 0 (BitVec.ofNat 32 b.id) (barrierPayload r.2 r.1)) s
    acceptRelease s1 b r.2 r.1
  else s

/-- A member comes to a barrier with its own RUN_CTL: it sends ARRIVE to the leader, or counts as arrived there. -/
def openBarrier (s : State) (k : Pkt) (join : Bool) (id : Nat) (seq : Word) (lead : Nat) (idle : List (BitVec 16) := []) : Ans :=
  let t := issueCmd s k.port
  let s1 := t.2
  let prop := now s1 + lead
  let early := (s1.map.early.filter (fun x => x.1 == id && x.2.1 == join && x.2.2.2.1 == genEntry s1 x.2.2.1)).map
    (fun x => (x.2.2.1, x.2.2.2.2))
  let ld := leaderOf s1 join idle
  let b : Barrier :=
    { id := id, token := t.1, join := join, seq := seq, lead := lead, startNs := now s1, idle := idle
      arrived := if ld == s1.map.nodeId then (s1.map.nodeId, prop) :: early else [] }
  let s2 := { s1 with map := { s1.map with
    barriers := s1.map.barriers ++ [b], early := s1.map.early.filter (fun x => !(x.1 == id && x.2.1 == join)) } }
  let s3 := if ld == s2.map.nodeId then tryRelease s2 b
    else queueFrame s2 .arrive ld 0 (BitVec.ofNat 32 (id + 65536 * b2n join)) (barrierPayload seq prop)
  (s3, some (.accepted, [t.1]))

/-- A member that is not running may start: the conditions of a start hold (R388, R410, R466). -/
def mayArm (s : State) : Bool := s.sch.run == .idle && hasActive s && !s.saf.injFail && !anyFA s

/-- RUN_CTL START_GROUP (R339, R466, R544). -/
def doStartGroup (k : Pkt) (s : State) : Ans :=
  if fld k.params 0 31 16 != 0 then badWord s 2
  else if (wd k.params 2).toNat < 1000000 then badWord s 4
  else if !mayArm s then refuse s .wrongState []
  else if !formed s then refuse s .notReady []
  else openBarrier s k false (fld k.params 0 15 0) (wd k.params 1) (wd k.params 2).toNat

def execRunCtlStartGroup (k : Pkt) (s : State) : Out := .next (command 0x20 2 k (doStartGroup k) s)

/-- RUN_CTL JOIN (R340, R466, R544): in IDLE the conditions of a start hold too. -/
def doJoin (k : Pkt) (s : State) (idle : List (BitVec 16) := []) : Ans :=
  if fld k.params 0 31 16 != 0 then badWord s 2
  else if (wd k.params 1).toNat < 1000000 then badWord s 3
  else if !(s.sch.run == .running || mayArm s) then refuse s .wrongState []
  else if !formed s then refuse s .notReady []
  else openBarrier s k true (fld k.params 0 15 0) s.sch.seq (wd k.params 1).toNat idle

def execRunCtlJoin (k : Pkt) (s : State) (idle : List (BitVec 16) := []) : Out :=
  .next (command 0x20 3 k (fun s => doJoin k s idle) s)

/-- ARRIVE (R339, R340): the leader counts the member in; one before the leader's own RUN_CTL is kept. -/
def onArrive (s : State) (h : MHdr) (t : Nat) : State :=
  let id := bits h.arg 15 0
  let join := bit h.arg 16
  match s.map.barriers.find? (fun b => b.id == id && b.join == join) with
  | none => { s with map := { s.map with early := s.map.early ++ [(id, join, h.src, h.gen, t)] } }
  | some b =>
    let b1 : Barrier := { b with arrived := (h.src, t) :: b.arrived.filter (fun x => x.1 != h.src) }
    tryRelease { s with map := { s.map with
      barriers := s.map.barriers.map (fun x => if x.token == b.token then b1 else x) } } b1

/-- One barrier fails (R341). -/
def failBarrier (s : State) (b : Barrier) : State :=
  let s1 := finishTok s b.token .timeout []
  setSrc { s1 with map := { s1.map with
    barriers := s1.map.barriers.filter (fun x => x.token != b.token), barFails := satAdd 0xFF s1.map.barFails 1 } } 114

/-- RELEASE (R339 to R341): one that comes at or after the release time fails the barrier. -/
def onRelease (s : State) (h : MHdr) (seq : Word) (t : Nat) : State :=
  match s.map.barriers.find? (fun b => b.id == bits h.arg 15 0) with
  | none => s
  | some b => if t ≤ now s then failBarrier s b else acceptRelease s b seq t

/-- BARRIER_TIMEOUT (R341): for the oldest barrier in progress. -/
def execBarrierTimeout (s : State) : Out :=
  .next (match s.map.barriers with
    | [] => s
    | b :: _ => if s.rst.pairB then s else failBarrier (passTo s (b.startNs + 1000 * s.map.barTimeout)) b)

-- Time (R322)

/-- A stamp of arrival is corrected by its port's latency (R320, R322). -/
def arrivedAt (s : State) (m at_ : Nat) : Int := (at_ : Int) - (ingLat s m : Int)

/-- TIME_REQ: the source answers with its stamps of arrival and departure; the latter is set when the answer is sent. -/
def onTimeReq (s : State) (h : MHdr) (m at_ : Nat) : State :=
  queueFrame s .timeResp h.src h.reqId 0 (stampBytes (arrivedAt s m at_).toNat ++ stampBytes 0)

/-- MAPIN_TIME_REQ_INTERVAL: with SRC MAPIN, TIME_REQ goes to MAPIN_SRC, with a REQ_ID of its own (R322, R330). -/
def execMapinTimeReqInterval (s : State) : Out :=
  .next (if s.tb.src == .mapin && mapinUp s then
      (let s1 := queueFrame s .timeReq ((wd s.ts.cfg 1).extractLsb' 0 16) s.map.nextReq 0 []
       { s1 with map := { s1.map with nextReq := s.map.nextReq + 1 } })
    else s)

/-- TIME_RESP, to a request that this node has sent its sender: the sample ((t2 - t1) - (t4 - t3)) / 2. -/
def onTimeResp (s : State) (h : MHdr) (m at_ : Nat) (t2 t3 : Int) : State :=
  match s.ts.mapinT1.find? (fun x => x.1 == h.reqId && x.2.1 == h.src) with
  | none => s
  | some x =>
    let s1 := { s with ts := { s.ts with mapinT1 := s.ts.mapinT1.filter (fun y => y.1 != h.reqId) } }
    if s.tb.src == .mapin then takeSample s1 (((t2 - x.2.2) - (arrivedAt s m at_ - t3)) / 2) else s1

-- Receipt of the messages in sequence (R328, R331)

/-- Payload bytes of a message (R330). -/
def MMsg.len : MMsg → Nat
  | .hello | .writeReply | .timeReq => 0
  | .writeReq _ d => 8 + d.length
  | .readReq _ _ => 8
  | .readReply d _ => d.length
  | .arrive _ | .release _ _ | .timeResp _ _ => 16

/-- A message in order is acted on. -/
def onMsg (s : State) (x : MHeld) : State :=
  match x.m with
  | .hello => s
  | .writeReq a d => onWriteReq s x.h a d
  | .writeReply => takeReply s x.h true (fun s _ => s)
  | .readReq a e => onReadReq s x.h a (eccFor e)
  | .readReply d p => onReadReply s x.h d p
  | .arrive t => onArrive s x.h t
  | .release q t => onRelease s x.h q t
  | .timeReq => onTimeReq s x.h x.port x.at_
  | .timeResp t2 t3 => onTimeResp s x.h x.port x.at_ t2 t3

/-- A frame whose turn it is leaves the buffer and is acted on. -/
def acceptMsg (s : State) (x : MHeld) : State := onMsg (inOrder s x.h x.m.len) x

/-- Held frames whose turn has come; fuelled by their number. -/
def drain : Nat → BitVec 16 → State → State
  | 0, _, s => s
  | k + 1, n, s =>
    let l := linkOf s n
    match l.held.find? (fun x => x.h.lseq == l.rxSeq + 1) with
    | none => s
    | some x => drain k n (acceptMsg (putLink s { l with held := l.held.erase x }) x)

/-- Messages of a member, and those of time service from any node (R328). -/
def mayMsg (s : State) (n : BitVec 16) (m : MMsg) : Bool :=
  (peers s).contains n || (match m with
    | .timeReq | .timeResp _ _ => true
    | .hello | .writeReq _ _ | .writeReply | .readReq _ _ | .readReply _ _ | .arrive _ | .release _ _ => false)

/-- Receipt of a message of the link sequence by port `m`, now (R328, R331, R335). DESIGN CHOICE (log 33): while more than one
bonded port is up, a frame ahead of its turn waits for those before it; otherwise it is out of order. -/
def receive (s : State) (h : MHdr) (port : Nat) (m : MMsg) : State :=
  if !mapinUp s then s
  else settleUnits s (
    let l := linkOf s h.src
    let x : MHeld := { h := h, m := m, port := port, at_ := now s }
    if staleGen s h then dropStale s
    else if !mayMsg s h.src m then s
    else if h.lseq == l.rxSeq + 1 then
      (let s1 := acceptMsg (takeAcks s h) x
       drain l.held.length h.src s1)
    else if 1 < (bonded s).length && (h.lseq - l.rxSeq).toNat < 2 ^ 31 && h.lseq != l.rxSeq
        && !l.held.any (fun y => y.h.lseq == h.lseq) then
      (let s1 := takeAcks s h
       let l1 := linkOf s1 h.src
       putLink s1 { l1 with held := l1.held ++ [x] })
    else badFrame s h.src)

/-- The port by which a message came whose row names none: the first bonded one (R322). -/
def firstPort (s : State) : Nat := (bonded s).headD 0

/-- LINK: acknowledgement and credits, outside the sequence; it leaves the buffer at once (R329 to R332). -/
def onLink (s : State) (h : MHdr) : State :=
  if !mapinUp s then s else settleUnits s (if staleGen s h then dropStale s else
    let s1 := takeAcks s h
    let l := linkOf s1 h.src
    putLink s1 { l with owed := l.owed + 1 })

/-- HELLO (R335, R336, R343): a generation other than the entry declares the old one lost first. -/
def onHello (s : State) (h : MHdr) (port : Nat) : State :=
  if !mapinUp s || !(peers s).contains h.src || h.gen == 0 then s
  else
    let g := genEntry s h.src
    if g == h.gen then receive s h port .hello
    else settleUnits s (takeHello (if g == 0 then s else memberLost s h.src) h)

/-- LOST (R337), taken out of LSEQ order (log 33). -/
def onLost (s : State) (h : MHdr) : State :=
  if !mapinUp s then s else settleUnits s (if staleGen s h || !(groupOf s).contains h.src then dropStale s
    else selfLost (inOrder s h 0))

def execMapinHello (h : MHdr) (s : State) : Out := .next (onHello s h (firstPort s))
def execMapinLink (h : MHdr) (s : State) : Out := .next (onLink s h)
def execMapinWriteReq (h : MHdr) (addr : Nat) (data : List Byte) (s : State) : Out :=
  .next (receive s h (firstPort s) (.writeReq addr data))
def execMapinWriteReply (h : MHdr) (s : State) : Out := .next (receive s h (firstPort s) .writeReply)
def execMapinReadReq (h : MHdr) (addr : Nat) (s : State) (ecc : List (Nat × Ecc) := []) : Out :=
  .next (receive s h (firstPort s) (.readReq addr ecc))
def execMapinReadReply (h : MHdr) (data : List Byte) (poisoned : List Nat) (s : State) : Out :=
  .next (receive s h (firstPort s) (.readReply data poisoned))
def execMapinArrive (h : MHdr) (_seq : Word) (sec ns : Nat) (s : State) : Out :=
  .next (receive s h (firstPort s) (.arrive (sec * 1000000000 + ns)))
def execMapinRelease (h : MHdr) (seq : Word) (sec ns : Nat) (s : State) : Out :=
  .next (receive s h (firstPort s) (.release seq (sec * 1000000000 + ns)))
def execMapinTimeReq (h : MHdr) (s : State) : Out := .next (receive s h (firstPort s) .timeReq)
def execMapinTimeResp (h : MHdr) (t2 t3 : Int) (s : State) : Out := .next (receive s h (firstPort s) (.timeResp t2 t3))
def execMapinLost (h : MHdr) (s : State) : Out := .next (onLost s h)

-- Frames as bytes (R328 to R331)

/-- The sectors of a READ_REPLY that its frame flags: the header has no place for the flags, so which they are is a free
value (log 33). -/
def flagOffs (s : State) (n : Nat) : List Nat :=
  ((List.range ((n + 31) / 32)).filter (fun i => bit (Config.freeWord (s.free + i)) 0)).map (32 * ·)

/-- A frame of the link sequence by its TYPE (R330). -/
def msgOf (s : State) (typ : Nat) (h : MHdr) (pl : List Byte) : Option MMsg :=
  let t (k : Nat) : Nat := leNat (slice pl k 8) * 1000000000 + leNat (slice pl (k + 8) 4)
  let stampAt (k : Nat) : Int := ((leNat (slice pl (k + 4) 4) * 1000000000 + leNat (slice pl k 4) : Nat) : Int)
  if typ = 3 then some (.writeReq (leNat (pl.take 8)) (pl.drop 8))
  else if typ = 4 then some .writeReply
  else if typ = 5 then some (.readReq (leNat (pl.take 8)))
  else if typ = 6 then some (.readReply pl (if h.arg.toNat == Status.poisoned.code then flagOffs s pl.length else []))
  else if typ = 7 then some (.arrive (t 4))
  else if typ = 8 then some (.release (BitVec.ofNat 32 (leNat (pl.take 4))) (t 4))
  else if typ = 9 then some .timeReq
  else if typ = 10 then some (.timeResp (stampAt 0) (stampAt 8))
  else none

/-- The header words of a Mapin frame, and its payload with whatever pads the Ethernet frame. -/
def mapinWords (bs : List Byte) : List Word := bytesWords (slice bs (ethL3 bs).1 32)
def mapinTail (bs : List Byte) : List Byte := bs.drop ((ethL3 bs).1 + 32)

/-- A bad frame is discarded and its sender owed a NAK (R331). -/
def mapinBad (s : State) (bs : List Byte) : State :=
  if mapinUp s then badFrame s ((wd (mapinWords bs) 1).extractLsb' 0 16) else s

/-- A Mapin frame for this node is checked and acted on by its TYPE; a reserved one counts as a CRC error (R328 to R331). -/
def mapinBytes (s : State) (port : Nat) (bs : List Byte) : State :=
  let w := mapinWords bs
  let n := fld w 0 31 16
  let pl := (mapinTail bs).take n
  let typ := fld w 0 7 0
  let h : MHdr :=
    { src := (wd w 1).extractLsb' 0 16, lseq := wd w 2, ack := wd w 3, gen := (wd w 4).extractLsb' 0 8
      credits := fld w 4 31 16, reqId := wd w 5, arg := wd w 6, nak := bit (wd w 0) 8 }
  if bs.take 6 != nodeAddr s.map.nodeId || fld w 1 31 16 != s.map.nodeId.toNat then s
  else if (mapinTail bs).length < n || 2048 < n || crc32c (wordsBytes (w.take 7) ++ pl) != wd w 7 then mapinBad s bs
  else if typ = 1 then onHello s h port
  else if typ = 2 then onLink s h
  else if typ = 11 then onLost s h
  else match msgOf s typ h pl with
    | some m => receive (if typ = 6 && h.arg.toNat == Status.poisoned.code then { s with free := s.free + (n + 31) / 32 } else s) h port m
    | none => mapinBad s bs

/-- ETH_FRAME_RECEIVE (R294, R328 to R331). `bytes` runs from the destination address to the end of the payload. -/
def execEthFrameReceive (mac : Nat) (fcsOk : Bool) (bytes : List Byte) (s : State) : Out :=
  .next (if !(s.sens.eth.getD mac {}).up || s.warm || halted s then s else
    let s1 := modEth s mac (fun x => { x with rx := (x.rx + 1) % 2 ^ 64 })
    let mapin := bit (wd (macSec s mac) 0) 2 && (ethL3 bytes).2.1 == s.map.etherType.toNat
    if !fcsOk then settle s (let s2 := badFcs s1 mac bytes; if mapin then mapinBad s2 bytes else s2)
    else if 9018 < bytes.length + 4 then modEth s1 mac (fun x => { x with oversize := satAdd 0xFF x.oversize 1 })
    else if isPtp bytes then s1
    else if mapin then settleUnits s (mapinBytes s1 mac bytes)
    else if badHdr bytes then modEth s1 mac (fun x => { x with badhdr := satAdd 0xFFFF x.badhdr 1 })
    else if otherStation s mac bytes then s1
    else match matchFilter s mac bytes with
      | none => modEth s1 mac (fun x => { x with unmatched := satAdd 0xFFFF x.unmatched 1 })
      | some k => ethMatched s1 mac k bytes)


end Sys2Proof.Machine
end

