-- ==== Sys2Proof/Machine/Registers.lean ====
section
/-! DEFINITION. The register space: decode and aliasing, what each register reads, what reads clear and latch, what
writes do, and the rows of single registers (R7, R470 to R492, and the registers of every block). A block is its BAR0
offset's upper bits (R484), a register its word index in the block after aliasing (R475). -/

namespace Sys2Proof.Machine

/-- Decode width W of the block at `b`·0x1_0000 (R484); the command window is not one of them. -/
def blockW (b : Nat) : Option Nat :=
  if b = 0x00 || b = 0x01 || b = 0x06 then some 3
  else if b = 0x02 then some 5
  else if b = 0x03 || b = 0x04 || b = 0x08 || b = 0x09 then some 4
  else if b = 0x05 || b = 0x07 then some 2
  else if b = 0x0A then some 10
  else if (0x10 ≤ b && b ≤ 0x2B) || (0x30 ≤ b && b ≤ 0x48) then some 3
  else none

/-- Block of a BAR0 offset, and the word an access reaches in it (R475). -/
def blockOf (f : Nat) : Nat := f / 0x1_0000
def regIdx (f : Nat) : Nat :=
  match blockW (blockOf f) with
  | some w => f % 0x1000 / 4 % 2 ^ w
  | none => f % 0x1000 / 4

/-- The command window, and its reply half (R476). -/
def isWindow (f : Nat) : Bool := blockOf f == 0x80
def isReply (f : Nat) : Bool := f / 0x1000 % 2 == 1

/-- Engine of an engine block (R26, R484). -/
def engBlock (b : Nat) : Option Nat :=
  if 0x10 ≤ b && b ≤ 0x25 then some (b - 0x10) else if 0x28 ≤ b && b ≤ 0x2B then some (b - 0x28 + 22) else none

/-- A block takes accesses: GLB and PCIE always; with the clocks stopped FC and the command window beside them; SEC but
during a chip warm reset; the others once power-up has ended (R482, R492, R525); the window also while the responder
answers (R417). -/
def blockOpen (s : State) (b : Nat) : Bool :=
  if b = 0x00 || b = 0x0A then true
  else if s.pins.clocksOff then b == 0x02 || b == 0x80
  else if s.warm then false
  else if b = 0x08 then true
  else s.boot == .rom || s.boot == .firmware || (b == 0x80 && responder s)

-- What the registers read

def two (lo hi : Nat) : Nat := lo + 2 ^ 16 * hi
def lo32 (n : Nat) : Nat := n % 2 ^ 32
def hi32 (n : Nat) : Nat := n / 2 ^ 32 % 2 ^ 32

/-- GLB (R485). -/
def glbReg (s : State) (i : Nat) : Nat :=
  [0x1620_00B1, s.glb.scratch.toNat, s.glb.unassigned + 2 ^ 8 * s.glb.narrow + 2 ^ 16 * s.glb.inReset,
   s.glb.errAddr + 2 ^ 24 * b2n s.glb.errWrite, s.glb.stallMax].getD i 0

/-- A port's last executed SEQ, and whether there is one (R469). -/
def seqReg (p : PortSt) : Nat :=
  match p.lastSeq with
  | some q => q.toNat + 2 ^ 16
  | none => 0

/-- CMD (R469). -/
def cmdReg (s : State) (i : Nat) : Nat :=
  [b2n (ready s .H) + 2 * b2n s.cmd.h.taken.isSome + 4 * b2n (!s.cmd.h.placed.isEmpty) + 8 * b2n (ready s .S)
     + 16 * b2n (!s.cmd.s.placed.isEmpty) + 32 * b2n (dOpen s) + 64 * b2n (responder s),
   s.cmd.dropH + 2 ^ 16 * s.cmd.dropS + 2 ^ 24 * s.cmd.dropD,
   s.cmd.badCrc + 2 ^ 8 * s.cmd.seqErr + 2 ^ 16 * s.cmd.short + 2 ^ 24 * s.cmd.replayed,
   s.cmd.timeouts,
   s.cmd.lastOp + 2 ^ 8 * s.cmd.lastSt + 2 ^ 16 * s.cmd.lastTagH.toNat,
   seqReg s.cmd.h, seqReg s.cmd.s].getD i 0

/-- FC (R437 to R446). -/
def fcReg (s : State) (i : Nat) : Nat :=
  let f := s.fc
  ((faultWords s).take 8 |>.map (·.toNat)).getD i
    ([fcSummary s, b2n f.ceEvt, hangInfo s, f.hTok0.toNat, f.hTok1.toNat, f.hTok2.toNat,
      f.rDomain + 2 ^ 6 * f.rStep + 2 ^ 8 * f.rOrigin + 2 ^ 10 * b2n f.rFailed + 2 ^ 16 * f.warmCount,
      f.genSel + 2 ^ 8 * domGen s f.genSel,
      f.sets + 2 ^ 16 * f.resets + 2 ^ 24 * f.escal,
      f.cWr + 2 ^ 8 * f.cRd + 2 ^ 16 * f.cWraps,
      f.stall, two f.hangs f.replays].getD (i - 8) 0)

/-- The shown entry of a capture FIFO: its oldest stamp, nanoseconds or seconds (R348). -/
def capShown (t : TimeBase) : Nat × Nat := (t.capFifo.getD t.capSel []).headD (0, 0)

/-- TB (R348); the addend's words read what is in force (R479). -/
def tbReg (s : State) (i : Nat) : Nat :=
  let t := s.tb
  [b2n t.locked + 2 * b2n t.clamped, t.ns, lo32 t.latched, hi32 t.latched, lo32 t.addend, hi32 t.addend,
   t.src.code + 2 ^ 4 * t.lockThr + 2 ^ 16 * t.stepThr + 2 ^ 24 * t.sampleTimeout,
   t.kp, t.ki, (BitVec.ofInt 32 t.lastE).toNat, t.samples, t.trigFired.toNat,
   (t.capFifo.zipIdx.map (fun x => if x.1.isEmpty then 0 else 2 ^ x.2)).sum + 2 ^ 8 * t.capOvf.toNat + 2 ^ 16 * t.capSel,
   (capShown t).2, lo32 (capShown t).1,
   b2n t.ppsInPol + 2 * b2n t.ppsOutEn + 4 * b2n t.ppsOutSrc + 2 ^ 8 * t.widthMs + 2 ^ 24 * t.capEn.toNat].getD i 0

/-- An engine holds a tile or task, a slice's among them (R97, R169). -/
def engBusy (x : Engine) : Bool := !x.resetting && (x.arr.isSome || x.drn.isSome || x.kat.isSome)

/-- SCH (R49 to R52, R130, R131, R279, R486). -/
def schReg (s : State) (i : Nat) : Nat :=
  let h := s.sch
  [(s.jobs.filter (fun j => j.origin == .tide)).length + 2 ^ 16 * (s.jobs.filter (fun j => j.origin == .runJob)).length,
   engMask s engBusy, lo32 h.arrived.toNat, hi32 h.arrived.toNat,
   h.run.code + 4 * b2n (inSlack s) + 8 * b2n (inJudge s), h.seq.toNat, h.rsvWaitMax,
   b2n h.consCredit + 2 * b2n h.consToken + 4 * b2n h.consSensor + 8 * b2n h.consMapin,
   h.fbIdx + 2 ^ 9 * h.fbWraps, two h.fbRecords h.fbAbandoned, h.dropIdx + 2 ^ 8 * h.dropWraps,
   two h.endsDone h.endsNot].getD i 0

/-- SET (R53, R54, R487). -/
def setReg (s : State) (i : Nat) : Nat :=
  [slotStateWord s, s.sets.swapSeq.toNat, two s.sets.taken s.sets.cancelled].getD i 0

/-- MEM (R258 to R265). -/
def memReg (s : State) (i : Nat) : Nat :=
  let m := s.ms
  [b2n m.fillDone + 2 * b2n m.trained + 4 * b2n m.resLoaded + 8 * b2n (m.shiftOn || !m.shiftQ.isEmpty) + 2 ^ 4 * m.phase
     + 2 ^ 8 * m.scrubs.length + 2 ^ 11 * b2n (m.scrubs.any (fun x => x.running)),
   two m.eccCe m.eccUc, two m.linkCorr m.linkRetry, m.chUc.toNat, two m.timeouts m.lateDrop,
   two m.strHolds m.strAborts, two m.shifts m.repairs, two m.markRead m.markWrite].getD i 0

/-- COVE (R266 to R269). -/
def coveReg (s : State) (i : Nat) : Nat :=
  [two s.ms.coveCe s.ms.coveUc, two s.ms.csCe s.ms.csUc, two s.ms.secWrite s.ms.secRead, s.ms.conflict].getD i 0

/-- SEC (R515). -/
def secReg (s : State) (i : Nat) : Nat :=
  let x := s.sec
  ([x.lifecycle.code + 4 * b2n x.fwRunning + 8 * b2n (dOpen s) + 16 * b2n (bscanOpen s) + 32 * b2n x.unlocked
      + 64 * b2n x.keysReady + 128 * b2n x.erased,
    x.fwVersion.toNat, x.fwSvn + 2 ^ 8 * x.fwSvnMin, lo32 x.serial.toNat, hi32 x.serial.toNat]
   ++ (List.range 8).map (fun k => (wd x.nonce k).toNat)
   ++ [two x.verified x.failed, two x.bar4 x.tokFailed,
       x.revoked.toNat + 2 ^ 4 * b2n x.owner0.isSome + 2 ^ 5 * b2n x.owner1.isSome + 2 ^ 8 * x.tamper.toNat]).getD i 0

/-- SAF (R399 to R408). -/
def safReg (s : State) (i : Nat) : Nat :=
  let x := s.saf
  [x.trust.code + 4 * b2n x.injDone + 8 * b2n x.injFail + 16 * b2n x.lease.isSome + 32 * b2n x.guilt.isSome
     + 2 ^ 8 * x.passes + 2 ^ 16 * x.holdRun + 2 ^ 24 * x.holdWin,
   x.injMask.toNat, x.vIdx + 2 ^ 8 * x.vWraps, x.tIdx + 2 ^ 15 * x.tWraps, wdrMask s, quarMask s,
   x.katPassed + 2 ^ 16 * x.katFailed + 2 ^ 24 * x.katDeferred,
   x.disagree + 2 ^ 16 * x.hlCe + 2 ^ 24 * x.sspLost,
   x.katSel, if x.katSel < 26 then (engOf s x.katSel).lastPass.toNat else 0xFFFF_FFFF,
   x.pack.id.toNat, x.wCause, x.wSeq.toNat].getD i 0

/-- One word of an MSI-X entry (R489). -/
def msixReg (e : MsixEntry) (k : Nat) : Nat :=
  if k = 0 then e.addr.toNat else if k = 1 then e.uaddr.toNat else if k = 2 then e.data.toNat else b2n e.mask

/-- PCIE (R488, R489). -/
def pcieReg (s : State) (i : Nat) : Nat :=
  let x := s.pcie
  if 0x200 ≤ i && i < 0x240 then msixReg (x.msix.getD ((i - 0x200) / 4) {}) (i % 4)
  else if i = 0x300 then x.pba.toNat
  else [b2n x.up + 2 * x.speed + 2 ^ 4 * x.width + 2 ^ 8 * b2n x.reversed, lo32 x.apBase, hi32 x.apBase,
        two x.outside x.badBase, two x.aerCe x.aerUc, two x.ledgeDrop x.protDrop].getD i 0

/-- Context of the attempt in an engine; 0 when idle, testing or in reset (R97, R169, R483). -/
def engCtx (x : Engine) : Nat :=
  if x.resetting || x.kat.isSome then 0 else
  match x.arr with
  | some a => tokCtx a.token
  | none => 0

/-- A Basin bank is held by a tile in the array or the drain (R58, R97). DESIGN CHOICE (log 48): a slice's tiles hold
bank 0. -/
def bankHeld (x : Engine) (b : Bool) : Bool :=
  let h (a : Option Attempt) : Bool := match a with | some a => a.banks == 2 || a.bank1 == b | none => false
  h x.arr || h x.drn || (x.kat.isSome && !x.resetting && !b)

/-- ME0 to ME15 (R96 to R102). -/
def meReg (x : Engine) (i : Nat) : Nat :=
  [b2n (engBusy x) + 2 * b2n (bankHeld x false) + 4 * b2n (bankHeld x true) + 8 * b2n x.quar + 16 * b2n x.wdr
     + 32 * b2n x.kat.isSome + 2 ^ 8 * engCtx x,
   two x.chkMis x.wrap, x.retry + 2 ^ 8 * x.dualMis + 2 ^ 16 * x.sat, two x.ce x.uc,
   lo32 x.count, hi32 x.count, x.lastTok.toNat].getD i 0

/-- VE, WARP, CROP, PCL, SORT and AE (R168 to R173, R208 to R210). -/
def taskReg (x : Engine) (ae : Bool) (i : Nat) : Nat :=
  ([b2n (engBusy x) + 2 * b2n x.quar + 4 * b2n x.wdr + 8 * b2n x.kat.isSome + 2 ^ 8 * engCtx x,
    two x.ce x.uc, x.retry + 2 ^ 8 * x.dualMis + 2 ^ 16 * x.sat, lo32 x.count, hi32 x.count, x.lastTok.toNat]
   ++ (if ae then [two x.pages x.holds, x.holdCyc] else [])).getD i 0

/-- ISP0 and ISP1 (R310). -/
def ispReg (s : State) (n i : Nat) : Nat :=
  let x := s.sens.isp.getD n {}
  let on := x.busy && !x.resetting
  [b2n on + 2 * (if on then x.ctx else 0), two x.ce x.uc, two x.overrun x.format, lo32 x.pix, hi32 x.pix,
   lbUsed s n].getD i 0

/-- SP0 to SP15 (R306 to R308). -/
def spReg (s : State) (p i : Nat) : Nat :=
  let x := s.sens.sp.getD p {}
  ([b2n x.up + 2 * x.gear + 2 ^ 4 * spMode s p, x.crc + 2 ^ 16 * x.loss + 2 ^ 24 * x.hdrCorr, two x.drops x.fwdDrops,
    x.dev + 2 ^ 8 * x.wlen + 2 ^ 13 * x.rlen + 2 ^ 24 * b2n x.go + 2 ^ 25 * b2n x.done + 2 ^ 26 * b2n x.nack
      + 2 ^ 27 * b2n x.timeout] ++ (List.range 4).map (fun k => (wd x.data k).toNat)).getD i 0

/-- ETH0 to ETH7 (R309, R349). -/
def ethReg (s : State) (m i : Nat) : Nat :=
  let x := s.sens.eth.getD m {}
  [b2n x.up + 2 * fld (macSec s m) 0 1 0 + 8 * fld (macSec s m) 0 2 2, x.fcs + 2 ^ 16 * x.loss + 2 ^ 24 * x.oversize,
   two x.unmatched x.badhdr, two x.mirrored x.mdrops, lo32 x.rx, hi32 x.rx, x.txNs, x.txSecLatch].getD i 0

/-- The MACs bonded to Mapin, in order; at most four (R293, R328). -/
def bondMacs (s : State) : List Nat := ((List.range 8).filter (fun m => bit (wd (macSec s m) 0) 2)).take 4

/-- MAPIN (R350). -/
def mapinReg (s : State) (i : Nat) : Nat :=
  let x := s.map
  [((bondMacs s).zipIdx.map (fun m => if (s.sens.eth.getD m.1 {}).up then 2 ^ m.2 else 0)).sum + 2 ^ 4 * groupState s
     + 2 ^ 8 * x.gen.toNat,
   x.nodeId.toNat + 2 ^ 16 * b2n x.valid, x.reqTimeout, x.barTimeout, x.etherType.toNat,
   x.crc + 2 ^ 16 * x.lost + 2 ^ 24 * x.barFails, two x.stale x.timeouts, x.reqs.length].getD i 0

/-- What register `i` of block `b` reads (R7, R484). -/
def regVal (s : State) (b i : Nat) : Nat :=
  if b = 0x00 then glbReg s i else if b = 0x01 then cmdReg s i else if b = 0x02 then fcReg s i
  else if b = 0x03 then tbReg s i else if b = 0x04 then schReg s i else if b = 0x05 then setReg s i
  else if b = 0x06 then memReg s i else if b = 0x07 then coveReg s i else if b = 0x08 then secReg s i
  else if b = 0x09 then safReg s i else if b = 0x0A then pcieReg s i
  else if b = 0x26 || b = 0x27 then ispReg s (b - 0x26) i
  else if 0x30 ≤ b && b < 0x40 then spReg s (b - 0x30) i
  else if 0x40 ≤ b && b < 0x48 then ethReg s (b - 0x40) i
  else if b = 0x48 then mapinReg s i
  else match engBlock b with
    | some e => if e < 16 then meReg (engOf s e) i else taskReg (engOf s e) (e == 20 || e == 21) i
    | none => 0

-- What a read changes: RC registers clear, two reads latch (R7, R313, R349)

/-- Reads of an engine's RC registers. -/
def engClear (e i : Nat) (x : Engine) : Engine :=
  if e < 16 then
    if i = 1 then { x with chkMis := 0, wrap := 0 }
    else if i = 2 then { x with retry := 0, dualMis := 0, sat := 0 }
    else if i = 3 then { x with ce := 0, uc := 0 } else x
  else
    if i = 1 then { x with ce := 0, uc := 0 }
    else if i = 2 then { x with retry := 0, dualMis := 0, sat := 0 }
    else if (e == 20 || e == 21) && i == 6 then { x with pages := 0, holds := 0 }
    else if (e == 20 || e == 21) && i == 7 then { x with holdCyc := 0 } else x

/-- Reads of the MEM and COVE blocks' RC registers. -/
def memClear (m : MemSys) (i : Nat) : MemSys :=
  if i = 1 then { m with eccCe := 0, eccUc := 0 } else if i = 2 then { m with linkCorr := 0, linkRetry := 0 }
  else if i = 3 then { m with chUc := 0 } else if i = 4 then { m with timeouts := 0, lateDrop := 0 }
  else if i = 5 then { m with strHolds := 0, strAborts := 0 } else if i = 6 then { m with shifts := 0, repairs := 0 }
  else if i = 7 then { m with markRead := 0, markWrite := 0 } else m
def coveClear (m : MemSys) (i : Nat) : MemSys :=
  if i = 0 then { m with coveCe := 0, coveUc := 0 } else if i = 1 then { m with csCe := 0, csUc := 0 }
  else if i = 2 then { m with secWrite := 0, secRead := 0 } else if i = 3 then { m with conflict := 0 } else m

def ispClear (x : Isp) (i : Nat) : Isp :=
  if i = 1 then { x with ce := 0, uc := 0 } else if i = 2 then { x with overrun := 0, format := 0 } else x
def spClear (x : SpPort) (i : Nat) : SpPort :=
  if i = 1 then { x with crc := 0, loss := 0, hdrCorr := 0 } else if i = 2 then { x with drops := 0, fwdDrops := 0 } else x
def ethClear (x : EthMac) (i : Nat) : EthMac :=
  if i = 1 then { x with fcs := 0, loss := 0, oversize := 0 } else if i = 2 then { x with unmatched := 0, badhdr := 0 }
  else if i = 3 then { x with mirrored := 0, mdrops := 0 } else if i = 6 then { x with txSecLatch := x.txSec } else x

/-- What a read of register `i` of block `b` leaves. -/
def afterRead (s : State) (b i : Nat) : State :=
  if b = 0x00 then
    if i = 2 then { s with glb := { s.glb with unassigned := 0, narrow := 0, inReset := 0 } }
    else if i = 4 then { s with glb := { s.glb with stallMax := 0 } } else s
  else if b = 0x01 then
    if i = 1 then { s with cmd := { s.cmd with dropH := 0, dropS := 0, dropD := 0 } }
    else if i = 2 then { s with cmd := { s.cmd with badCrc := 0, seqErr := 0, short := 0, replayed := 0 } }
    else if i = 3 then { s with cmd := { s.cmd with timeouts := 0 } } else s
  else if b = 0x02 then
    if i = 16 then { s with fc := { s.fc with sets := 0, resets := 0, escal := 0 } }
    else if i = 18 then { s with fc := { s.fc with stall := 0 } }
    else if i = 19 then { s with fc := { s.fc with hangs := 0, replays := 0 } } else s
  else if b = 0x03 then
    if i = 1 then { s with tb := { s.tb with latched := s.tb.sec } } else s
  else if b = 0x04 then
    if i = 6 then { s with sch := { s.sch with rsvWaitMax := 0 } }
    else if i = 9 then { s with sch := { s.sch with fbRecords := 0, fbAbandoned := 0 } }
    else if i = 11 then { s with sch := { s.sch with endsDone := 0, endsNot := 0 } } else s
  else if b = 0x05 then
    if i = 2 then { s with sets := { s.sets with taken := 0, cancelled := 0 } } else s
  else if b = 0x06 then { s with ms := memClear s.ms i }
  else if b = 0x07 then { s with ms := coveClear s.ms i }
  else if b = 0x08 then
    if i = 13 then { s with sec := { s.sec with verified := 0, failed := 0 } }
    else if i = 14 then { s with sec := { s.sec with bar4 := 0, tokFailed := 0 } } else s
  else if b = 0x09 then
    if i = 6 then { s with saf := { s.saf with katPassed := 0, katFailed := 0, katDeferred := 0 } }
    else if i = 7 then { s with saf := { s.saf with disagree := 0, hlCe := 0, sspLost := 0 } } else s
  else if b = 0x0A then
    if i = 3 then { s with pcie := { s.pcie with outside := 0, badBase := 0 } }
    else if i = 4 then { s with pcie := { s.pcie with aerCe := 0, aerUc := 0 } }
    else if i = 5 then { s with pcie := { s.pcie with ledgeDrop := 0, protDrop := 0 } } else s
  else if b = 0x26 || b = 0x27 then modIsp s (b - 0x26) (fun x => ispClear x i)
  else if 0x30 ≤ b && b < 0x40 then modSp s (b - 0x30) (fun x => spClear x i)
  else if 0x40 ≤ b && b < 0x48 then modEth s (b - 0x40) (fun x => ethClear x i)
  else if b = 0x48 then
    if i = 5 then { s with map := { s.map with crc := 0, lost := 0, barFails := 0 } }
    else if i = 6 then { s with map := { s.map with stale := 0, timeouts := 0 } } else s
  else match engBlock b with
    | some e => modEng s e (engClear e i)
    | none => s

/-- Read data leaves the device. -/
def putData (s : State) (v : Nat) : State := { s with out := { s.out with rdata := [BitVec.ofNat 32 v] } }

/-- A read of a word of the register space (R474 to R478, R482, R492). A read is executed whole, whatever its byte
enables. -/
def accRead (s : State) (f : Nat) : State :=
  if unassigned f then putData (countUnassigned s f false) 0
  else if !blockOpen s (blockOf f) then putData s 0
  else if isWindow f then
    if isReply f then (if portUp s .H then readReply s .H (regIdx f) else putData s 0) else putData s 0
  else putData (afterRead s (blockOf f) (regIdx f)) (regVal s (blockOf f) (regIdx f))

/-- A read of a BAR0 word by the host. -/
def busRead (s : State) (f : Nat) : State := if hostUp s then accRead s f else s

-- What a write does

/-- Writes of TB registers (R312, R316, R326, R348). -/
def tbWrite (s : State) (i : Nat) (w : Word) : State :=
  if i = 4 then { s with tb := { s.tb with heldFrac := w.toNat } }
  else if i = 5 then writeAddendHi s w
  else if i = 6 then writeServoCtrl s w
  else if i = 7 then { s with tb := { s.tb with kp := w.toNat } }
  else if i = 8 then { s with tb := { s.tb with ki := w.toNat } }
  else if i = 11 then { s with tb := { s.tb with trigFired := s.tb.trigFired &&& ~~~w } }
  else if i = 12 then writeCapStatus s w
  else if i = 15 then
    { s with
      tb := { s.tb with ppsInPol := bit w 0, ppsOutEn := bit w 1, ppsOutSrc := bit w 2, widthMs := bits w 15 8
                        capEn := w.extractLsb' 24 8 }
      pins := { s.pins with ppsOut := s.pins.ppsOut && bit w 1 } }
  else s

/-- A write of one word of an MSI-X entry (R489). -/
def msixWrite (e : MsixEntry) (k : Nat) (w : Word) : MsixEntry :=
  if k = 0 then { e with addr := w } else if k = 1 then { e with uaddr := w }
  else if k = 2 then { e with data := w } else { e with mask := bit w 0 }

/-- Writes of PCIE registers (R479, R488, R489): an unmasked vector that is pending is signalled. -/
def pcieWrite (s : State) (i : Nat) (w : Word) : State :=
  if i = 1 then { s with pcie := { s.pcie with apHeld := bits w 31 20 * 2 ^ 20 } }
  else if i = 2 then writeApHi s w
  else if 0x200 ≤ i && i < 0x240 then
    msixDrain { s with pcie := { s.pcie with msix := modAt s.pcie.msix ((i - 0x200) / 4) (fun e => msixWrite e (i % 4) w) } }
  else s

/-- Writes of MAPIN registers (R350). -/
def mapinWrite (s : State) (i : Nat) (w : Word) : State :=
  if i = 1 then
    if s.sch.run == .idle then { s with map := { s.map with nodeId := w.extractLsb' 0 16, valid := true } } else s
  else if i = 2 then { s with map := { s.map with reqTimeout := max 10000 (min 10000000 w.toNat) } }
  else if i = 3 then { s with map := { s.map with barTimeout := w.toNat } }
  else if i = 4 then
    if s.sch.run == .idle then { s with map := { s.map with etherType := w.extractLsb' 0 16 } } else s
  else s

/-- Writes of a port's camera-control mailbox: dropped while GO is pending (R286, R308). -/
def spWrite (s : State) (p i : Nat) (w : Word) : State :=
  if i = 3 then writeCci s p w
  else if 4 ≤ i then modSp s p (fun x => if x.go then x else { x with data := setAt x.data (i - 4) w })
  else s

/-- What a write of register `i` of block `b` does: RW, W1C and W1S fields act, RO registers ignore it (R7, R475). -/
def regWrite (s : State) (b i : Nat) (w : Word) : State :=
  if b = 0x00 then (if i = 1 then { s with glb := { s.glb with scratch := w } } else s)
  else if b = 0x02 then
    if i = 9 then { s with fc := { s.fc with ceEvt := bit w 0 } }
    else if i = 15 then { s with fc := { s.fc with genSel := bits w 5 0 } } else s
  else if b = 0x03 then tbWrite s i w
  else if b = 0x09 then (if i = 8 then { s with saf := { s.saf with katSel := bits w 4 0 } } else s)
  else if b = 0x0A then pcieWrite s i w
  else if 0x30 ≤ b && b < 0x40 then spWrite s (b - 0x30) i w
  else if b = 0x48 then mapinWrite s i w
  else s

/-- A write dropped for want of a byte enable, or because its block is closed (R474, R482, R485). -/
def countNarrow (s : State) (f : Nat) : State :=
  { s with glb := { s.glb with narrow := satAdd 0xFF s.glb.narrow 1, errAddr := f, errWrite := true } }
def countClosed (s : State) (f : Nat) : State :=
  { countInReset s with glb := { (countInReset s).glb with errAddr := f, errWrite := true } }

/-- A write of a whole word of the register space (R475 to R478, R482, R492). -/
def accWrite (s : State) (f : Nat) (w : Word) : State :=
  if unassigned f || replyWindow f then countUnassigned s f true
  else if !blockOpen s (blockOf f) then countClosed s f
  else if isWindow f then writeWord s .H (regIdx f) w
  else settle s (regWrite s (blockOf f) (regIdx f) w)

/-- A write of a whole BAR0 word by the host. -/
def busWrite (s : State) (f : Nat) (w : Word) : State := if hostUp s then accWrite s f w else s

/-- The word that a byte offset lies in. -/
def wordOf (f : Nat) : Nat := f / 4 * 4

-- The register bus (R478)

/-- A requester of the register bus can make accesses. -/
def requesterUp (s : State) : Requester → Bool
  | .pairA => coresUp s && !halted s && !s.rst.pairA
  | .pairB => coresUp s && !halted s && !s.rst.pairB
  | .headland => coresUp s && !halted s && !s.hl.stopped
  | .pcie => hostUp s

/-- One access: a read, whose data follow those read before it, or a write, dropped for want of a byte enable. -/
def access (s : State) (x : BusAcc) : State :=
  if !requesterUp s x.who then s else
  match x.wr with
  | none =>
    let s1 := accRead s (wordOf x.off)
    { s1 with out := { s1.out with rdata := s.out.rdata ++ s1.out.rdata } }
  | some (be, w) => if be != 15 then countNarrow s (wordOf x.off) else accWrite s (wordOf x.off) w

/-- The accesses of one cycle in the order control pair A, control pair B, Headland, PCIe (R478). -/
def inTurn (l : List BusAcc) : List BusAcc :=
  [Requester.pairA, .pairB, .headland, .pcie].flatMap (fun r => l.filter (fun x => x.who == r))

/-- The accesses of one cycle are executed in turn. -/
def accesses (l : List BusAcc) (s : State) : State :=
  (inTurn l).foldl access (if l.any (fun x => x.wr.isNone && requesterUp s x.who) then
    { s with out := { s.out with rdata := [] } } else s)

/-- REGISTER_WRITE (R7, R474, R475, R478), with the other accesses of the same CLK_PER cycle. -/
def execRegisterWrite (off : Nat) (be : BitVec 4) (w : Word) (s : State) (who : Requester := .pcie) (also : List BusAcc := []) : Out :=
  .next (accesses ({ who := who, off := off, wr := some (be, w) } :: also) s)

/-- RC_REGISTER_READ (R7, R474, R475, R478). -/
def execRcRegisterRead (off : Nat) (s : State) (who : Requester := .pcie) : Out :=
  .next (accesses [{ who := who, off := off, wr := none }] s)

/-- PACKET_WORD_WRITE (R449, R455, R456, R476): on port H through the command window. -/
def execPacketWordWrite (p : Port) (idx : Nat) (w : Word) (s : State) : Out :=
  .next (if 1024 ≤ idx then s else
    match p with
    | .H => busWrite s (0x80_0000 + 4 * idx) w
    | .S => writeWord s .S idx w
    | .D => writeWord s .D idx w)

/-- REPLY_BUFFER_READ (R449, R457, R458, R476): on port H through the command window; on port S the framing byte says
whether a word or the status byte is read, and any other is ignored. -/
def execReplyBufferRead (p : Port) (idx : Nat) (s : State) (framing : Byte := 0x5A) : Out :=
  .next (match p with
    | .H => if 1024 ≤ idx then s else busRead s (0x80_1000 + 4 * idx)
    | .S => if framing == 0x3C then putData s (statusByte s .S)
      else if framing != 0x5A then s
      else if portUp s .S then readReply s .S idx else putData s 0
    | .D => if portUp s .D then readReply s .D idx else putData s 0)

/-- TB_NS_READ (R313). -/
def execTbNsRead (s : State) : Out := .next (busRead s 0x03_0004)

/-- PTP_TX_NS_READ (R349). -/
def execPtpTxNsRead (mac : Nat) (s : State) : Out :=
  .next (if mac < 8 then busRead s (0x40_0000 + mac * 0x1_0000 + 0x18) else s)

/-- ADDEND_HI_WRITE (R312). -/
def execAddendHiWrite (w : Word) (s : State) : Out := .next (busWrite s 0x03_0014 w)

/-- SERVO_CTRL_WRITE (R316, R318). -/
def execServoCtrlWrite (w : Word) (s : State) : Out := .next (busWrite s 0x03_0018 w)

/-- CAP_POP (R326). -/
def execCapPop (w : Word) (s : State) : Out := .next (busWrite s 0x03_0030 (w ||| 0x0008_0000))

/-- NODE_ID_WRITE (R328, R350). -/
def execNodeIdWrite (w : Word) (s : State) : Out := .next (busWrite s 0x48_0004 w)

/-- CCI_GO (R286). -/
def execCciGo (port : Nat) (w : Word) (s : State) : Out :=
  .next (if port < 16 then busWrite s (0x30_0000 + port * 0x1_0000 + 0xC) (w ||| 0x0100_0000) else s)

end Sys2Proof.Machine
end

