-- ==== Sys2Proof/Machine/Startup.lean ====
section
/-! DEFINITION. Firmware starts: the end of LOAD_FIRMWARE and of a chip warm reset, with the base pack's slices that both run
(R387, R494, R496, R513, R515). -/

namespace Sys2Proof.Machine

/-- One slice of the base pack runs on one engine as firmware starts (R383, R387, R494). DEDUCED (log 48): its records and
counts are those of any slice, and one that fails counts in SAF.KAT_COUNTS.FAILED; it sets no source 107. -/
def startupSlice (ups : List SliceUpset) (s : State) (e k : Nat) : State :=
  if (engOf s e).quar then s else
  let s1 := modEng s e (fun x => { x with
    katEnt := (packSlices s.saf.pack (kindCode (engKind e))).getD k [], katBase := s.saf.pack.addr })
  let us := ups.filter (fun u => u.e == e && u.slice == k)
  let r := runSlice s1 e (us.flatMap (fun u => u.lanes)) (us.flatMap (fun u => u.flips))
  if r.bad then slicePoison r.s e .startup
  else if r.pass && us.all (fun u => decide (u.cycles ≤ sliceLen (engOf s1 e).katEnt)) then slicePass r.s e .startup
  else
    let s2 := quarantine r.s e
    { s2 with saf := { s2.saf with katFailed := satAdd 0xFF s2.saf.katFailed 1 } }

/-- Every engine that is not quarantined runs every slice of its kind in the active pack (R387, R494). -/
def startupSlices (ups : List SliceUpset) (s : State) : State :=
  (List.range 26).foldl (fun s e =>
    (List.range (packSlices s.saf.pack (kindCode (engKind e))).length).foldl (fun s k => startupSlice ups s e k) s) s

/-- The image at `a`, whose sections are copied and whose digest is known, starts: alias key and certificate, slices,
firmware (R494, R513). -/
def startFirmware (ups : List SliceUpset) (s : State) (a : Nat) : State :=
  runFirmware (startupSlices ups (makeAlias s a)) a

/-- Steps 5 to 7 of R494, and the final status. -/
def finishLoad (s : State) (l : FwLoad) (ups : List SliceUpset) : State :=
  let h := s.mem.words l.addr 32
  let at_ := l.addr + secOfs h 3
  let pk := parsePack at_ (secLen h 3) (s.mem.read at_ (secLen h 3))
  let s1 := { s with sec := { s.sec with
    load := none, fwRegion := some (l.addr, l.len), fwDigest := Config.sha384 (s.mem.read l.addr (l.len - 2240)) } }
  let s2 := activatePack { s1 with saf := { s1.saf with basePack := pk } } pk
  let s3 := startFirmware ups s2 l.addr
  finishTok s3 l.token .ok [s3.sec.fwVersion]

/-- An image that control pair A has read: a failed check ends the load; else its sections are copied, and its fuses asked
for, if it asks for any (R494 steps 2 to 4, R499, R515). -/
def loadChecked (s : State) (l : FwLoad) (ups : List SliceUpset) : State :=
  if l.row != 0 then
    let s1 := sigCount s (decide (8 < l.row))
    finishTok { s1 with sec := { s1.sec with load := none } } l.token
      (if l.row ≤ 8 then .sigFail else .badParam) (detail 0x0D l.row 0)
  else
    let s1 := copySections (sigCount s true) l.addr
    match imageFuses s1 l.addr with
    | some f => { s1 with sec := { s1.sec with load := some { l with copied := true }, fuse := some f } }
    | none => finishLoad s1 l ups

/-- FIRMWARE_LOAD_DONE (R494): the load goes on as far as it can: to its fuse programming, or to its end. `ups` upsets slices
of the base pack, `ecc` says what becomes of the reads of some lines. -/
def execFirmwareLoadDone (s : State) (ups : List SliceUpset := []) (ecc : List (Nat × Ecc) := []) : Out :=
  .next (if halted s || s.rst.pairA || s.warm || s.sec.fuse.isSome then s else
    match s.sec.load with
    | none => s
    | some l =>
      if l.copied then settle s (finishLoad s l ups)
      else settle s (pairAGo s [(l.addr, l.len)] (eccFor ecc) (fun s => loadChecked s l ups)))

/-- What WARM_RESET_DONE makes of the protected image: intact, its sections are loaded again and it starts; else source 121
sets and the boot ROM awaits LOAD_FIRMWARE (R513). -/
def restart (s : State) (ups : List SliceUpset) (o : Nat → Ecc) : State :=
  match s.sec.fwRegion with
  | none => { s with boot := .rom }
  | some r => pairAGo s [r] o fun s =>
    if fwIntact s then startFirmware ups (copySections s r.1) r.1
    else setSrc { s with boot := .rom, sec := { s.sec with fwRegion := none } } 121

/-- WARM_RESET_DONE (R434, R513): the identity key is derived, the image starts again, and ANNOUNCE becomes due; start-up
injection has ended, so the level sources that hold set (R414). Power-up that had not ended goes on instead; a failed
channel's or a missing clock's source sets again (R228, R525). -/
def execWarmResetDone (s : State) (ups : List SliceUpset := []) (ecc : List (Nat × Ecc) := []) : Out :=
  .next (if !s.warm || halted s then s else
    if s.boot == .training || s.boot == .filling then { s with warm := false } else
    let s1 := { deriveKey s with saf := { s.saf with injDone := true } }
    let s2 := if s.boot == .untrained then setSrc s1 79
      else if s.boot == .noClock then setSrc s1 91
      else restart s1 ups (eccFor ecc)
    settle s (dueAnnounce (levelSources s2)))

end Sys2Proof.Machine
end

