-- ==== Sys2Proof/Machine/Dispatch.lean ====
section
/-! DEFINITION. The dispatch of the block's commands: one arm per constructor of `Instr`, one direct call of its
meaning. -/

namespace Sys2Proof.Machine

/-- The effect of a command on everything but the queue. -/
def exec (i : Instr) (s : State) : Host.Outcome State Fault Refusal :=
  match i with
  | .echo k => Sys2Proof.Machine.execEcho k s
  | .getInfo k => Sys2Proof.Machine.execGetInfo k s
  | .getStatus k => Sys2Proof.Machine.execGetStatus k s
  | .loadFirmware k => Sys2Proof.Machine.execLoadFirmware k s
  | .firmwareLoadDone ups ecc => Sys2Proof.Machine.execFirmwareLoadDone s ups ecc
  | .fuseProgrammingDone => Sys2Proof.Machine.execFuseProgrammingDone s
  | .loadObject k => Sys2Proof.Machine.execLoadObject k s
  | .verifyObject k => Sys2Proof.Machine.execVerifyObject k s
  | .verifyObjectDone slot ecc => Sys2Proof.Machine.execVerifyObjectDone slot s ecc
  | .commitShadow k => Sys2Proof.Machine.execCommitShadow k s
  | .commitShadowDone slot ecc => Sys2Proof.Machine.execCommitShadowDone slot s ecc
  | .swapSets k => Sys2Proof.Machine.execSwapSets k s
  | .readSetInfo k ecc => Sys2Proof.Machine.execReadSetInfo k s ecc
  | .runCtlStart k => Sys2Proof.Machine.execRunCtlStart k s
  | .runCtlStop k => Sys2Proof.Machine.execRunCtlStop k s
  | .runCtlStartGroup k => Sys2Proof.Machine.execRunCtlStartGroup k s
  | .runCtlJoin k idle => Sys2Proof.Machine.execRunCtlJoin k s idle
  | .runCtlRearm k => Sys2Proof.Machine.execRunCtlRearm k s
  | .runJob k t4 ecc => Sys2Proof.Machine.execRunJob k t4 s ecc
  | .abortJob k => Sys2Proof.Machine.execAbortJob k s
  | .queryJob k => Sys2Proof.Machine.execQueryJob k s
  | .kvMap k ecc => Sys2Proof.Machine.execKvMap k s ecc
  | .kvUnmap k ecc => Sys2Proof.Machine.execKvUnmap k s ecc
  | .kvEdit k ecc => Sys2Proof.Machine.execKvEdit k s ecc
  | .timeSet k => Sys2Proof.Machine.execTimeSet k s
  | .timeAdj k => Sys2Proof.Machine.execTimeAdj k s
  | .triggerCfg k => Sys2Proof.Machine.execTriggerCfg k s
  | .scrubRange k => Sys2Proof.Machine.execScrubRange k s
  | .readFaults k => Sys2Proof.Machine.execReadFaults k s
  | .clearFaults k => Sys2Proof.Machine.execClearFaults k s
  | .runSelftest k => Sys2Proof.Machine.execRunSelftest k s
  | .loadTestPack k => Sys2Proof.Machine.execLoadTestPack k s
  | .resetDomain k => Sys2Proof.Machine.execResetDomain k s
  | .guiltReplay k => Sys2Proof.Machine.execGuiltReplay k s
  | .attest k => Sys2Proof.Machine.execAttest k s
  | .getCerts k => Sys2Proof.Machine.execGetCerts k s
  | .recordCtlStart k => Sys2Proof.Machine.execRecordCtlStart k s
  | .recordCtlStop k => Sys2Proof.Machine.execRecordCtlStop k s
  | .recordCtlQuery k => Sys2Proof.Machine.execRecordCtlQuery k s
  | .replayCtlStart k ecc => Sys2Proof.Machine.execReplayCtlStart k s ecc
  | .replayCtlStop k => Sys2Proof.Machine.execReplayCtlStop k s
  | .replayCtlQuery k => Sys2Proof.Machine.execReplayCtlQuery k s
  | .packetWordWrite p idx w => Sys2Proof.Machine.execPacketWordWrite p idx w s
  | .sspShortTransaction => Sys2Proof.Machine.execSspShortTransaction s
  | .replyBufferRead p idx framing => Sys2Proof.Machine.execReplyBufferRead p idx s framing
  | .faultEvent p => Sys2Proof.Machine.execFaultEvent p s
  | .announce => Sys2Proof.Machine.execAnnounce s
  | .peerLostEvent => Sys2Proof.Machine.execPeerLostEvent s
  | .verdictEvent => Sys2Proof.Machine.execVerdictEvent s
  | .commandTimeout p => Sys2Proof.Machine.execCommandTimeout p s
  | .cmdDrUpdate framing w => Sys2Proof.Machine.execCmdDrUpdate framing w s
  | .frameStart => Sys2Proof.Machine.execFrameStart s
  | .schedulerWatchdog => Sys2Proof.Machine.execSchedulerWatchdog s
  | .outCommit => Sys2Proof.Machine.execOutCommit s
  | .slackStart ecc => Sys2Proof.Machine.execSlackStart s ecc
  | .reservationOpen job => Sys2Proof.Machine.execReservationOpen job s
  | .jobStart job => Sys2Proof.Machine.execJobStart job s
  | .jobDeadline job => Sys2Proof.Machine.execJobDeadline job s
  | .jobBudgetExpire token => Sys2Proof.Machine.execJobBudgetExpire token s
  | .runJobTimeout token => Sys2Proof.Machine.execRunJobTimeout token s
  | .tileDispatch e e2 => Sys2Proof.Machine.execTileDispatch e e2 s
  | .tileDrainEnd e cycles upsets errs => Sys2Proof.Machine.execTileDrainEnd e cycles upsets s errs
  | .operandPoisonConsumed e => Sys2Proof.Machine.execOperandPoisonConsumed e s
  | .taskEnd e cycles upsets errs => Sys2Proof.Machine.execTaskEnd e cycles upsets s errs
  | .attentionTaskEnd e cycles upsets errs ecc => Sys2Proof.Machine.execAttentionTaskEnd e cycles upsets s errs ecc
  | .fallbackDecision token layer ecc => Sys2Proof.Machine.execFallbackDecision token layer s ecc
  | .completionRecordCollect input => Sys2Proof.Machine.execCompletionRecordCollect input s
  | .completionRecordConsume ecc => Sys2Proof.Machine.execCompletionRecordConsume s ecc
  | .walkLockGrant seqId ecc => Sys2Proof.Machine.execWalkLockGrant seqId s ecc
  | .pageFetchDone seqId entry ecc cs => Sys2Proof.Machine.execPageFetchDone seqId entry s ecc cs
  | .pageSpillDone seqId entry ecc cs => Sys2Proof.Machine.execPageSpillDone seqId entry s ecc cs
  | .streamResume e ecc => Sys2Proof.Machine.execStreamResume e s ecc
  | .ringShiftStart => Sys2Proof.Machine.execRingShiftStart s
  | .ringShiftEnd ecc => Sys2Proof.Machine.execRingShiftEnd s ecc
  | .residentLoadDone ecc => Sys2Proof.Machine.execResidentLoadDone s ecc
  | .fabricTimeout req => Sys2Proof.Machine.execFabricTimeout req s
  | .lateResponse req => Sys2Proof.Machine.execLateResponse req s
  | .creditEpochCheck pool => Sys2Proof.Machine.execCreditEpochCheck pool s
  | .scrubPassResume => Sys2Proof.Machine.execScrubPassResume s
  | .scrubUnitCheck ecc => Sys2Proof.Machine.execScrubUnitCheck ecc s
  | .bar2Write off bytes ecc => Sys2Proof.Machine.execBar2Write off bytes ecc s
  | .bar4Write off bytes ecc => Sys2Proof.Machine.execBar4Write off bytes ecc s
  | .barMemoryRead bar4 off len ecc => Sys2Proof.Machine.execBarMemoryRead bar4 off len ecc s
  | .dramApertureHiWrite w => Sys2Proof.Machine.execDramApertureHiWrite w s
  | .bar0UnassignedAccess off write => Sys2Proof.Machine.execBar0UnassignedAccess off write s
  | .registerWrite off be w who also => Sys2Proof.Machine.execRegisterWrite off be w s who also
  | .rcRegisterRead off who => Sys2Proof.Machine.execRcRegisterRead off s who
  | .tbNsRead => Sys2Proof.Machine.execTbNsRead s
  | .ptpTxNsRead mac => Sys2Proof.Machine.execPtpTxNsRead mac s
  | .addendHiWrite w => Sys2Proof.Machine.execAddendHiWrite w s
  | .servoCtrlWrite w => Sys2Proof.Machine.execServoCtrlWrite w s
  | .capPop w => Sys2Proof.Machine.execCapPop w s
  | .nodeIdWrite w => Sys2Proof.Machine.execNodeIdWrite w s
  | .cciGo port w => Sys2Proof.Machine.execCciGo port w s
  | .cciDone port nack bytes => Sys2Proof.Machine.execCciDone port nack bytes s
  | .cciTimeout port => Sys2Proof.Machine.execCciTimeout port s
  | .servoSample e => Sys2Proof.Machine.execServoSample e s
  | .servoSampleTimeout => Sys2Proof.Machine.execServoSampleTimeout s
  | .ptpMessageReceive m h => Sys2Proof.Machine.execPtpMessageReceive m s h
  | .ptpSyncInterval => Sys2Proof.Machine.execPtpSyncInterval s
  | .ppsInEdge rising => Sys2Proof.Machine.execPpsInEdge rising s
  | .capEdge ch => Sys2Proof.Machine.execCapEdge ch s
  | .triggerFire ch => Sys2Proof.Machine.execTriggerFire ch s
  | .fsyncPulseEnd n => Sys2Proof.Machine.execFsyncPulseEnd n s
  | .ppsOutEnd => Sys2Proof.Machine.execPpsOutEnd s
  | .csi2FrameStart port vc => Sys2Proof.Machine.execCsi2FrameStart port vc s
  | .csi2Line port vc dt hdr crcOk payload ovr lb word => Sys2Proof.Machine.execCsi2Line port vc dt hdr crcOk payload ovr lb s word
  | .csi2FrameEnd port vc ecc => Sys2Proof.Machine.execCsi2FrameEnd port vc s ecc
  | .ethFrameReceive mac fcsOk bytes => Sys2Proof.Machine.execEthFrameReceive mac fcsOk bytes s
  | .ethTimeClose stream => Sys2Proof.Machine.execEthTimeClose stream s
  | .sensorFrameComplete stream => Sys2Proof.Machine.execSensorFrameComplete stream s
  | .txForwardPacket port dt fits payload => Sys2Proof.Machine.execTxForwardPacket port dt fits payload s
  | .replayInject ecc => Sys2Proof.Machine.execReplayInject s ecc
  | .spLinkChange port up gear => Sys2Proof.Machine.execSpLinkChange port up gear s
  | .ethLinkChange mac up => Sys2Proof.Machine.execEthLinkChange mac up s
  | .mapinHello h => Sys2Proof.Machine.execMapinHello h s
  | .mapinLink h => Sys2Proof.Machine.execMapinLink h s
  | .mapinWriteReq h addr data => Sys2Proof.Machine.execMapinWriteReq h addr data s
  | .mapinWriteReply h => Sys2Proof.Machine.execMapinWriteReply h s
  | .mapinReadReq h addr ecc => Sys2Proof.Machine.execMapinReadReq h addr s ecc
  | .mapinReadReply h data poisoned => Sys2Proof.Machine.execMapinReadReply h data poisoned s
  | .mapinArrive h seq sec ns => Sys2Proof.Machine.execMapinArrive h seq sec ns s
  | .mapinRelease h seq sec ns => Sys2Proof.Machine.execMapinRelease h seq sec ns s
  | .mapinTimeReq h => Sys2Proof.Machine.execMapinTimeReq h s
  | .mapinTimeResp h t2 t3 => Sys2Proof.Machine.execMapinTimeResp h t2 t3 s
  | .mapinLost h => Sys2Proof.Machine.execMapinLost h s
  | .mapinBadFrame src => Sys2Proof.Machine.execMapinBadFrame src s
  | .mapinFrameSend dst ecc => Sys2Proof.Machine.execMapinFrameSend dst s ecc
  | .mapinResendTimeout dst => Sys2Proof.Machine.execMapinResendTimeout dst s
  | .mapinLinkKeepalive dst => Sys2Proof.Machine.execMapinLinkKeepalive dst s
  | .mapinTimeReqInterval => Sys2Proof.Machine.execMapinTimeReqInterval s
  | .mapinReqTimeout reqId => Sys2Proof.Machine.execMapinReqTimeout reqId s
  | .mapinMemberSilent node => Sys2Proof.Machine.execMapinMemberSilent node s
  | .barrierTimeout => Sys2Proof.Machine.execBarrierTimeout s
  | .ruleEvaluate n => Sys2Proof.Machine.execRuleEvaluate n s
  | .evidenceCopy n ecc => Sys2Proof.Machine.execEvidenceCopy n s ecc
  | .mirrorRecordBin => Sys2Proof.Machine.execMirrorRecordBin s
  | .verdictWrite => Sys2Proof.Machine.execVerdictWrite s
  | .trustLeaseExpire => Sys2Proof.Machine.execTrustLeaseExpire s
  | .safeToggle => Sys2Proof.Machine.execSafeToggle s
  | .safeMonitorTrip => Sys2Proof.Machine.execSafeMonitorTrip s
  | .katSliceStart e => Sys2Proof.Machine.execKatSliceStart e s
  | .katSliceEnd e cycles lanes flips errs => Sys2Proof.Machine.execKatSliceEnd e cycles lanes flips s errs
  | .hangOverrun e => Sys2Proof.Machine.execHangOverrun e s
  | .hangNoAck e => Sys2Proof.Machine.execHangNoAck e s
  | .domainResetComplete => Sys2Proof.Machine.execDomainResetComplete s
  | .resetStepTimeout => Sys2Proof.Machine.execResetStepTimeout s
  | .chipWarmReset => Sys2Proof.Machine.execChipWarmReset s
  | .warmResetDone ups ecc => Sys2Proof.Machine.execWarmResetDone s ups ecc
  | .controlPairMismatch pairB => Sys2Proof.Machine.execControlPairMismatch pairB s
  | .headlandLockstepFault corrected => Sys2Proof.Machine.execHeadlandLockstepFault s corrected
  | .voltageMonitorTrip rail collapsed => Sys2Proof.Machine.execVoltageMonitorTrip rail collapsed s
  | .clockMonitorTrip k => Sys2Proof.Machine.execClockMonitorTrip k s
  | .refclkEthLoss => Sys2Proof.Machine.execRefclkEthLoss s
  | .tempWarning celsius => Sys2Proof.Machine.execTempWarning celsius s
  | .tempShutdown => Sys2Proof.Machine.execTempShutdown s
  | .flowOkLow low => Sys2Proof.Machine.execFlowOkLow low s
  | .tamperTrip k => Sys2Proof.Machine.execTamperTrip k s
  | .pcieAerError uncorrectable => Sys2Proof.Machine.execPcieAerError uncorrectable s
  | .powerOn => Sys2Proof.Machine.execPowerOn s
  | .powerLoss => Sys2Proof.Machine.execPowerLoss s
  | .resetNPulse ns => Sys2Proof.Machine.execResetNPulse ns s
  | .resetRelease refSysPresent => Sys2Proof.Machine.execResetRelease refSysPresent s
  | .dramTrainingDone failed => Sys2Proof.Machine.execDramTrainingDone failed s
  | .memoryFillDone => Sys2Proof.Machine.execMemoryFillDone s
  | .startupInjectionDone failed badEngines => Sys2Proof.Machine.execStartupInjectionDone failed badEngines s
  | .perstNChange low => Sys2Proof.Machine.execPerstNChange low s
  | .jtagInstructionUpdate code tapReset => Sys2Proof.Machine.execJtagInstructionUpdate code tapReset s
  | .tokenDrWord w => Sys2Proof.Machine.execTokenDrWord w s
  | .debugUnlock => Sys2Proof.Machine.execDebugUnlock s
  | .lcAdvance => Sys2Proof.Machine.execLcAdvance s
  | .addOwner => Sys2Proof.Machine.execAddOwner s
  | .loadTestPackDone ecc => Sys2Proof.Machine.execLoadTestPackDone s ecc
  | .fabricResponse req ecc also => Sys2Proof.Machine.execFabricResponse req ecc s also
  | .secondsCarry => Sys2Proof.Machine.execSecondsCarry s
  | .pcieLinkChange up speed width reversed => Sys2Proof.Machine.execPcieLinkChange up speed width reversed s
  | .pcieConfigWrite c => Sys2Proof.Machine.execPcieConfigWrite c s

end Sys2Proof.Machine
end

