-- ==== Sys2Proof/Safety.lean ====
section
/-! DEFINITION. What counts as a sound state, and the words that statements about commands share: the packet a row
carries, the state in which its command executes, and the state after its reply. -/

namespace Sys2Proof.Machine

/-- The rule of the SAFE outputs (R369): one of them is high only while trust is TRUSTED and the output stage is not
clamped, and never both at once. -/
def safeOk (s : State) : Bool :=
  (!(s.pins.safeA || s.pins.safeB) || (s.saf.trust == .trusted && !s.saf.clamp)) && !(s.pins.safeA && s.pins.safeB)

/-- No credit pool has had more credits returned than it issued, in either epoch (R220, R221). -/
def poolsFit (l : List Pool) : Bool := l.all (fun p => decide (p.ret0 ≤ p.iss0) && decide (p.ret1 ≤ p.iss1))

/-- A sound state: both memories are in canonical form, the SAFE outputs follow their rule, and the credit pools fit. -/
def Inv (s : State) : Bool := s.mem.wf && s.hl.mem.wf && safeOk s && poolsFit s.cr.pools

/-- OPCODE, FLAGS and packet of a row that is a whole command packet (R450, R465, R466). -/
def packetOf : Instr → Option (Nat × Nat × Pkt)
  | .echo k => some (0x01, 0, k)
  | .getInfo k => some (0x02, 0, k)
  | .getStatus k => some (0x03, 0, k)
  | .loadFirmware k => some (0x10, 0, k)
  | .loadObject k => some (0x11, 0, k)
  | .verifyObject k => some (0x12, 0, k)
  | .commitShadow k => some (0x13, 0, k)
  | .swapSets k => some (0x14, 0, k)
  | .readSetInfo k _ => some (0x15, 0, k)
  | .runCtlStart k => some (0x20, 0, k)
  | .runCtlStop k => some (0x20, 1, k)
  | .runCtlStartGroup k => some (0x20, 2, k)
  | .runCtlJoin k _ => some (0x20, 3, k)
  | .runCtlRearm k => some (0x20, 4, k)
  | .runJob k t4 _ => some (0x21, b2n t4, k)
  | .abortJob k => some (0x22, 0, k)
  | .queryJob k => some (0x23, 0, k)
  | .kvMap k _ => some (0x30, 0, k)
  | .kvUnmap k _ => some (0x31, 0, k)
  | .kvEdit k _ => some (0x32, 0, k)
  | .timeSet k => some (0x40, 0, k)
  | .timeAdj k => some (0x41, 0, k)
  | .triggerCfg k => some (0x42, 0, k)
  | .scrubRange k => some (0x50, 0, k)
  | .readFaults k => some (0x51, 0, k)
  | .clearFaults k => some (0x52, 0, k)
  | .runSelftest k => some (0x53, 0, k)
  | .loadTestPack k => some (0x54, 0, k)
  | .resetDomain k => some (0x60, 0, k)
  | .guiltReplay k => some (0x61, 0, k)
  | .attest k => some (0x70, 0, k)
  | .getCerts k => some (0x71, 0, k)
  | .recordCtlStart k => some (0x78, 0, k)
  | .recordCtlStop k => some (0x78, 1, k)
  | .recordCtlQuery k => some (0x78, 2, k)
  | .replayCtlStart k _ => some (0x79, 0, k)
  | .replayCtlStop k => some (0x79, 1, k)
  | .replayCtlQuery k => some (0x79, 2, k)
  | _ => none

/-- The state in which a command's own rule executes: its packet is the one in process, which then is so no longer, or
a ready port takes it and it passes R455 and R454; and whoever answers takes its opcode. -/
def starts (s : State) (op flags : Nat) (k : Pkt) : Option State :=
  if responder s || !served s op k then none else
  match (portSt s k.port).taken with
  | some t => if t = { opcode := op, flags := flags, pkt := k } && !mustWait s k.port then some (clearTaken s k.port) else none
  | none => if ready s k.port && admission s op flags k == .run && !mustWait s k.port then some s else none

/-- A state with a reply placed on the packet's port and kept as that of its last executed packet (R452, R454). -/
def answered (s : State) (op : Nat) (k : Pkt) (st : Status) (pl : List Word) : State :=
  modPort (placeReply s k.port op st k.tag k.seq pl) k.port
    (fun x => { x with lastSeq := some k.seq, lastTag := k.tag, lastReply := replyWords op st k.tag k.seq (payloadOf st pl) })

/-- A Mapin frame of a member that its receiver takes: the link works, the generation is the entry's, the frame is the link's
next with none held behind it, asks for no repetition and returns no credit too many (R328, R331, R332, R335). -/
def framed (s : State) (h : MHdr) : Bool :=
  mapinUp s && (peers s).contains h.src && !staleGen s h && h.lseq == (linkOf s h.src).rxSeq + 1
    && (linkOf s h.src).held.isEmpty && !h.nak
    && decide ((linkOf s h.src).free + h.credits ≤ allot s)

/-- The link after such a frame of `len` payload bytes: its sequence, acknowledgement and credits (R331, R332). -/
def afterFrame (s : State) (h : MHdr) (len : Nat) : State :=
  putLink s { linkOf s h.src with
    rxSeq := h.lseq, free := (linkOf s h.src).free + h.credits, lastNs := now s
    owed := (linkOf s h.src).owed + (32 + len + 255) / 256
    unacked := (linkOf s h.src).unacked.filter (fun f => !((h.ack - f.lseq).toNat < 2 ^ 31)) }

/-- What a host write of whole sectors or lines at `a` leaves (R213, R219, R234): its bytes stand there, except that those of
a request that timed out are all written or not at all; no other byte changes and nothing is poisoned. -/
def hostStored (s t : State) (a : Nat) (bs : List Byte) (ecc : List Ecc) : Prop :=
  (∀ x ∈ reqsOf a bs.length,
    (reqTimed (eccAt (unitsOf a bs.length) ecc) x.1 x.2 = false → ∀ i < x.2, t.mem.get (x.1 + i) = bs.getD (x.1 - a + i) 0)
    ∧ (reqTimed (eccAt (unitsOf a bs.length) ecc) x.1 x.2 = true → t.fc.fsw.getLsbD 83 = true
      ∧ ((∀ i < x.2, t.mem.get (x.1 + i) = bs.getD (x.1 - a + i) 0)
        ∨ (∀ i < x.2, t.mem.get (x.1 + i) = s.mem.get (x.1 + i)))))
  ∧ (∀ x, (x < a ∨ a + bs.length ≤ x) → t.mem.get x = s.mem.get x)
  ∧ (∀ u ∈ t.poison, u ∈ s.poison)
  ∧ (.timedOut ∉ ecc → t.mem = (store s a bs).mem ∧ t.poison = (store s a bs).poison ∧ t.fc = s.fc ∧ t.cmd = s.cmd)
  ∧ t.sch = s.sch ∧ t.glb = s.glb ∧ t.jobs = s.jobs ∧ t.hl = s.hl

/-- The state after a source port has read regions, some lines with the outcomes that `ecc` gives (R216, R220, R225, R226). -/
def readAll (s : State) (src : Nat) (rs : List (Nat × Nat)) (ecc : List (Nat × Ecc)) : State :=
  rs.foldl (fun s x => portRead s src x.1 x.2 (eccFor ecc)) s

/-- Nothing that a source port reads comes poisoned or not at all (R219, R225, R226, R233). -/
def readsGood (s : State) (src : Nat) (rs : List (Nat × Nat)) (ecc : List (Nat × Ecc)) : Bool :=
  rs.all (fun x => !readBad (readAll s src rs ecc) x.1 x.2 (eccFor ecc))

/-- Nothing but the counts of the credit pools and the caches of check lines differs (R220, R224). -/
def onlyReads (s t : State) : Prop :=
  t = { s with cr := { s.cr with pools := t.cr.pools }, ms := { s.ms with chkCache := t.ms.chkCache } }

/-- Nothing else is due with a command: no end waits for its collector input, no tensor is invalid, no transfer is
outstanding, and no engine holds or stages an item (R34, R241, R242, R421). -/
def calm (s : State) : Bool :=
  s.fc.waits.isEmpty && s.sch.invalid.isEmpty && s.ms.xfers.isEmpty
    && s.eng.all (fun g => g.arr.isNone && g.stg.isNone)

/-- Where the objects of a slot stand. -/
def objRegions (x : Slot) : List (Nat × Nat) := x.objs.map (fun o => (o.addr, o.len))

/-- No job waits for a prefetch stream. -/
def noPrefetch (s : State) : Bool := s.jobs.all (fun j => j.items.all (fun i => !i.prefetch))

/-- Commands that only move registers, packets, pins, time or links: accesses of registers and ports, events, edges, the
sending side of Mapin, and the housekeeping of queues; an evidence copy and a Mapin frame where no read meets an error. -/
def quiet : Instr → Bool
  | .registerWrite _ _ _ _ _ | .rcRegisterRead _ _ | .bar0UnassignedAccess _ _ | .tbNsRead | .ptpTxNsRead _ | .addendHiWrite _
  | .servoCtrlWrite _ | .capPop _ | .nodeIdWrite _ | .cciGo _ _ | .dramApertureHiWrite _ | .packetWordWrite _ _ _
  | .replyBufferRead _ _ _ | .sspShortTransaction | .cmdDrUpdate _ _ | .faultEvent _ | .announce | .peerLostEvent
  | .verdictEvent | .servoSample _ | .servoSampleTimeout | .ppsInEdge _ | .capEdge _ | .ppsOutEnd | .fsyncPulseEnd _
  | .triggerFire _ | .secondsCarry | .ptpMessageReceive _ _ | .ptpSyncInterval | .cciDone _ _ _ | .cciTimeout _
  | .txForwardPacket _ _ _ _ | .mirrorRecordBin | .evidenceCopy _ [] | .safeMonitorTrip | .safeToggle | .katSliceStart _
  | .mapinFrameSend _ [] | .mapinResendTimeout _ | .mapinLinkKeepalive _ | .mapinBadFrame _ | .mapinTimeReqInterval
  | .scrubPassResume | .ringShiftStart | .outCommit | .pcieLinkChange _ _ _ _ | .perstNChange _
  | .pcieConfigWrite _ | .pcieAerError _ => true
  | _ => false

/-- Those of them that read memory through a source port, with its credits (R216, R220). -/
def quietReads : Instr → Bool
  | .evidenceCopy _ _ | .mapinFrameSend _ _ => true
  | _ => false

/-- A register word that a host write may change: every RW, W1C or W1S field lies in one (R7, R485 to R489 and the
tables of the other blocks). The command window is no register block. -/
def writable (b i : Nat) : Bool :=
  (b == 0x00 && i == 1) || (b == 0x02 && (i == 9 || i == 15))
  || (b == 0x03 && (i == 4 || i == 5 || i == 6 || i == 7 || i == 8 || i == 11 || i == 12 || i == 15))
  || (b == 0x09 && i == 8) || (b == 0x0A && (i == 1 || i == 2 || (0x200 ≤ i && i < 0x240)))
  || (0x30 ≤ b && b < 0x40 && 3 ≤ i) || (b == 0x48 && 1 ≤ i && i ≤ 4)

/-- The words whose fields are RC: a read returns them and clears them (R7). -/
def readClears : List (Nat × Nat) :=
  [(0x00, 2), (0x00, 4), (0x01, 1), (0x01, 2), (0x01, 3), (0x02, 16), (0x02, 18), (0x02, 19), (0x04, 6), (0x04, 9),
   (0x04, 11), (0x05, 2), (0x06, 1), (0x06, 2), (0x06, 3), (0x06, 4), (0x06, 5), (0x06, 6), (0x06, 7), (0x07, 0),
   (0x07, 1), (0x07, 2), (0x07, 3), (0x08, 13), (0x08, 14), (0x09, 6), (0x09, 7), (0x0A, 3), (0x0A, 4), (0x0A, 5),
   (0x48, 5), (0x48, 6)]
  ++ (List.range 22).flatMap (fun n => [(0x10 + n, 1), (0x10 + n, 2)])
  ++ (List.range 16).map (fun n => (0x10 + n, 3))
  ++ (List.range 4).flatMap (fun n => [(0x28 + n, 1), (0x28 + n, 2)])
  ++ [(0x24, 6), (0x24, 7), (0x25, 6), (0x25, 7), (0x26, 1), (0x26, 2), (0x27, 1), (0x27, 2)]
  ++ (List.range 16).flatMap (fun n => [(0x30 + n, 1), (0x30 + n, 2)])
  ++ (List.range 8).flatMap (fun n => [(0x40 + n, 1), (0x40 + n, 2), (0x40 + n, 3)])

end Sys2Proof.Machine
end

