-- ==== Sys2Proof/Certificates/Slice0/Obligations.lean ====
section
/-! DEFINITION. The statements about the block, for the provers. -/

open Sys2Proof Sys2Proof.Machine

/-- A step takes the command at the front of the queue and is `exec` of it with the queue's rest. -/
def Obligations.StepRunsFrontCommand : Prop :=
  ∀ (c : Instr) (s : State), step { s with pending := c :: s.pending } = exec c s

/-- Every command completes: from every state it answers a next state, never a fault and never a refusal, and it
leaves the queue and the ordering code as they were. -/
def Obligations.EveryCommandCompletes : Prop :=
  ∀ (c : Instr) (s : State), ∃ t, exec c s = .next t ∧ t.pending = s.pending ∧ t.part = s.part

/-- Memory stays in canonical form, the SAFE outputs follow R369, and no credit pool has had more credits returned than
issued in an epoch (R220, R221), over every step. -/
def Obligations.StepKeepsInv : Prop :=
  ∀ (s t : State), Inv s = true → step s = .next t → Inv t = true

/-- The frame of the commands that only move registers, packets, pins, time or links, `quiet` of Safety.lean, reads that
meet an error left out: every byte of memory and its
poison stay, no job changes, the run and its frame go on, both slots stay as they are with any pending swap, trust
stays, and no fault source clears (R7, R311, R329, R369, R449). Those that read memory through a source port do so where
no credit pool has had more returned than issued, as the invariant has it (R220). -/
def Obligations.QuietCommandsLeaveWorkAlone : Prop :=
  ∀ (c : Instr) (s : State), quiet c = true → (quietReads c = true → poolsFit s.cr.pools = true) → ∃ t, exec c s = .next t
    ∧ (∀ a, t.mem.get a = s.mem.get a) ∧ t.poison = s.poison ∧ t.csramBad = s.csramBad ∧ t.jobs = s.jobs
    ∧ t.sch.run = s.sch.run ∧ t.sch.seq = s.sch.seq ∧ t.sch.t = s.sch.t ∧ t.saf.trust = s.saf.trust
    ∧ t.sets.slot0 = s.sets.slot0 ∧ t.sets.slot1 = s.sets.slot1 ∧ t.sets.activeSlot = s.sets.activeSlot
    ∧ t.sets.swapPending = s.sets.swapPending
    ∧ (∀ n < 128, s.fc.fsw.getLsbD n = true → t.fc.fsw.getLsbD n = true)

/-- The invariant holds right after reset: canonical memory, SAFE outputs as R369 has them, no credit returned that was
not issued (R220). -/
def Obligations.ResetMeetsInv : Prop := Inv State.reset = true

/-- Reset values that the spec gives: run state IDLE, trust NOT_ARMED, both slots EMPTY, addend 0x8_0000_0000, the
time base 0, servo gains, thresholds and source, the aperture, time-outs, EtherType and generation of Mapin, masked
MSI-X entries, no fault source set, SAFE outputs low, TAP instruction IDCODE. -/
def Obligations.ResetValues : Prop :=
  State.reset.sch.run = .idle ∧ State.reset.saf.trust = .notArmed
  ∧ State.reset.sets.slot0.st = .empty ∧ State.reset.sets.slot1.st = .empty
  ∧ State.reset.tb.addend = 0x8_0000_0000 ∧ State.reset.tb.sec = 0 ∧ State.reset.tb.ns = 0
  ∧ State.reset.tb.kp = 0x0100_0000 ∧ State.reset.tb.ki = 0x0040_0000
  ∧ State.reset.tb.lockThr = 0x064 ∧ State.reset.tb.stepThr = 0x64 ∧ State.reset.tb.sampleTimeout = 0x32
  ∧ State.reset.tb.src = .free ∧ State.reset.tb.widthMs = 0x64
  ∧ State.reset.pcie.apBase = 0x10_0000_0000 ∧ State.reset.map.reqTimeout = 100000
  ∧ State.reset.map.barTimeout = 1000000 ∧ State.reset.map.etherType = 0x88B5
  ∧ (∀ e ∈ State.reset.pcie.msix, e.mask = true) ∧ State.reset.fc.fsw = 0
  ∧ State.reset.pins.safeA = false ∧ State.reset.pins.safeB = false ∧ State.reset.sec.tap = 0x02

/-- With no command waiting and its clocks running, the block's time base takes one CLK_PER edge: the addend joins the
fraction, and a carry out of the nanoseconds goes into the seconds (R311). That a step on an empty queue is such an
edge is the model's choice (log entry 3). Where no second is completed nothing else but the model's cycle count
changes. -/
def Obligations.IdleStepCountsTheTimeBase : Prop :=
  ∀ (s : State), s.pending = [] → clocked s = true → s.tb.ns < 1000000000 → s.tb.addend < 2 ^ 36 →
    ∃ t, step s = .next t
      ∧ (t.tb.sec * 1000000000 + t.tb.ns) * 2 ^ 32 + t.tb.frac
          = (s.tb.sec * 1000000000 + s.tb.ns) * 2 ^ 32 + s.tb.frac + s.tb.addend
            - (if s.tb.sec + 1 = 2 ^ 48 ∧ t.tb.sec = 0 then 2 ^ 48 * 1000000000 * 2 ^ 32 else 0)
      ∧ t.tb.ns < 1000000000 ∧ t.tb.frac < 2 ^ 32 ∧ t.clk = s.clk + 2
      ∧ (t.tb.sec = s.tb.sec → t = { s with tb := { s.tb with ns := t.tb.ns, frac := t.tb.frac }, clk := s.clk + 2 })

/-- An access to a register block reaches the word that the offset's bits up to W + 1 name: two offsets of one block
that agree there have exactly the same effect, and a write that reaches a read-only register or a reserved offset
changes nothing (R475). -/
def Obligations.RegisterOffsetsAlias : Prop :=
  (∀ (s : State) (f g W : Nat) (w : Word) (p : Requester), blockW (f / 0x1_0000) = some W → f / 0x1_0000 = g / 0x1_0000 →
    blockOpen s (f / 0x1_0000) = true → f % 0x1_0000 % (4 * 2 ^ W) / 4 = g % 0x1_0000 % (4 * 2 ^ W) / 4 →
    exec (.registerWrite f 15 w p []) s = exec (.registerWrite g 15 w p []) s
      ∧ exec (.rcRegisterRead f p) s = exec (.rcRegisterRead g p) s)
  ∧ (∀ (s : State) (f W : Nat) (w : Word) (p : Requester), blockW (f / 0x1_0000) = some W →
    blockOpen s (f / 0x1_0000) = true → writable (f / 0x1_0000) (f % 0x1_0000 % (4 * 2 ^ W) / 4) = false →
    exec (.registerWrite f 15 w p []) s = .next s)

/-- The command window decodes offset bits 12 and [11:2] alone: offsets that agree there have the same effect but for
the offset that a write to the reply buffer leaves in GLB.BUS_ERR_ADDR. A read of the packet-in buffer returns 0, a
write to the reply buffer is dropped and counted (R476). -/
def Obligations.WindowDecode : Prop :=
  (∀ (s : State) (f g : Nat) (w : Word) (p : Requester), 0x80_0000 ≤ f → f < 0x81_0000 → 0x80_0000 ≤ g → g < 0x81_0000 →
    f % 0x2000 / 4 = g % 0x2000 / 4 →
    exec (.rcRegisterRead f p) s = exec (.rcRegisterRead g p) s
      ∧ (f / 0x1000 % 2 = 0 → blockOpen s 0x80 = true →
          exec (.registerWrite f 15 w p []) s = exec (.registerWrite g 15 w p []) s))
  ∧ (∀ (s : State) (f : Nat) (p : Requester), 0x80_0000 ≤ f → f < 0x81_0000 → f / 0x1000 % 2 = 0 →
    requesterUp s p = true → exec (.rcRegisterRead f p) s = .next { s with out := { s.out with rdata := [0] } })
  ∧ (∀ (s : State) (f : Nat) (w : Word) (p : Requester), 0x80_0000 ≤ f → f < 0x81_0000 → f / 0x1000 % 2 = 1 →
    requesterUp s p = true → exec (.registerWrite f 15 w p []) s = .next { s with glb := { s.glb with
      unassigned := satAdd 0xFF s.glb.unassigned 1, errAddr := f / 4 * 4, errWrite := true } })

/-- An access to a BAR0 offset in no block completes: a read returns 0, a write is dropped, and either counts in
GLB.BUS_ERR_COUNTS.UNASSIGNED and leaves its offset in GLB.BUS_ERR_ADDR; nothing else changes, no fault source is set
(R477). -/
def Obligations.UnassignedOffsets : Prop :=
  ∀ (s : State) (f : Nat), hostUp s = true →
    ((0x0B_0000 ≤ f ∧ f < 0x10_0000) ∨ (0x2C_0000 ≤ f ∧ f < 0x30_0000) ∨ (0x49_0000 ≤ f ∧ f < 0x80_0000)
      ∨ (0x81_0000 ≤ f ∧ f < 0x100_0000)) →
    exec (.bar0UnassignedAccess f true) s = .next { s with glb := { s.glb with
        unassigned := satAdd 0xFF s.glb.unassigned 1, errAddr := f, errWrite := true } }
    ∧ exec (.bar0UnassignedAccess f false) s = .next { s with
        glb := { s.glb with unassigned := satAdd 0xFF s.glb.unassigned 1, errAddr := f, errWrite := false }
        out := { s.out with rdata := [0] } }

/-- A write with a byte enable clear is dropped and counts in PARTIAL, whatever it addresses; a write to a block that
power-up or a chip warm reset keeps closed is dropped and counts in IN_RESET; a read of a closed block returns 0
(R474, R482, R492). Either count leaves the offset in GLB.BUS_ERR_ADDR. -/
def Obligations.DroppedRegisterAccesses : Prop :=
  (∀ (s : State) (f : Nat) (be : BitVec 4) (w : Word) (p : Requester), requesterUp s p = true → be ≠ 15 →
    exec (.registerWrite f be w p []) s = .next { s with glb := { s.glb with
      narrow := satAdd 0xFF s.glb.narrow 1, errAddr := f / 4 * 4, errWrite := true } })
  ∧ (∀ (s : State) (f W : Nat) (w : Word) (p : Requester), requesterUp s p = true → blockW (f / 0x1_0000) = some W →
    blockOpen s (f / 0x1_0000) = false →
    exec (.registerWrite f 15 w p []) s = .next { s with glb := { s.glb with
        inReset := satAdd 0xFF s.glb.inReset 1, errAddr := f / 4 * 4, errWrite := true } }
      ∧ exec (.rcRegisterRead f p) s = .next { s with out := { s.out with rdata := [0] } })

/-- A read of a word with RC fields returns its value and clears it, so that the next read returns 0 (R7). -/
def Obligations.ReadsOfRcRegistersClear : Prop :=
  ∀ (s : State) (b i : Nat) (p : Requester), (b, i) ∈ readClears → requesterUp s p = true → blockOpen s b = true →
    ∃ t, exec (.rcRegisterRead (b * 0x1_0000 + 4 * i) p) s = .next t
      ∧ t.out.rdata = [BitVec.ofNat 32 (regVal s b i)] ∧ regVal t b i = 0
      ∧ t.fc.fsw = s.fc.fsw ∧ t.mem = s.mem ∧ t.tb = s.tb ∧ t.cmd.tokens = s.cmd.tokens ∧ t.jobs = s.jobs

/-- GLB.ID reads 0x1620_00B1; RW registers take the written value and read it back, and nothing else changes: SCRATCH,
TB.KP, TB.KI, FC.GEN_SEL, SAF.KAT_SEL and MAPIN.BARRIER_TIMEOUT (R7, R485). Accesses that reach the register bus in one
cycle are executed in the order control pair A, control pair B, Headland, PCI Express: of two writes of SCRATCH the later
requester's stands (R478). -/
def Obligations.RwRegistersHoldWhatIsWritten : Prop :=
  (∀ (s : State) (w : Word) (p : Requester), requesterUp s p = true →
    exec (.rcRegisterRead 0 p) s = .next { s with out := { s.out with rdata := [0x1620_00B1] } }
    ∧ exec (.registerWrite 0x4 15 w p []) s = .next { s with glb := { s.glb with scratch := w } }
    ∧ exec (.rcRegisterRead 0x4 p) { s with glb := { s.glb with scratch := w } }
        = .next { s with glb := { s.glb with scratch := w }, out := { s.out with rdata := [w] } }
    ∧ (blockOpen s 0x03 = true →
        exec (.registerWrite 0x03_001C 15 w p []) s = .next { s with tb := { s.tb with kp := w.toNat } }
        ∧ exec (.registerWrite 0x03_0020 15 w p []) s = .next { s with tb := { s.tb with ki := w.toNat } }
        ∧ exec (.rcRegisterRead 0x03_001C p) { s with tb := { s.tb with kp := w.toNat } }
            = .next { s with tb := { s.tb with kp := w.toNat }, out := { s.out with rdata := [w] } })
    ∧ (blockOpen s 0x02 = true →
        exec (.registerWrite 0x02_003C 15 w p []) s = .next { s with fc := { s.fc with genSel := w.toNat % 64 } })
    ∧ (blockOpen s 0x09 = true →
        exec (.registerWrite 0x09_0020 15 w p []) s = .next { s with saf := { s.saf with katSel := w.toNat % 32 } })
    ∧ (blockOpen s 0x48 = true →
        exec (.registerWrite 0x48_000C 15 w p []) s = .next { s with map := { s.map with barTimeout := w.toNat } }))
  ∧ (∀ (s : State) (v w : Word) (p q : Requester), requesterUp s p = true → requesterUp s q = true →
      (p, q) ∈ [(.pairA, .pairB), (.pairA, .headland), (.pairA, .pcie), (.pairB, .headland), (.pairB, .pcie),
        (.headland, .pcie)] →
      exec (.registerWrite 0x4 15 v p [{ who := q, off := 0x4, wr := some (15, w) }]) s
          = .next { s with glb := { s.glb with scratch := w } }
      ∧ exec (.registerWrite 0x4 15 w q [{ who := p, off := 0x4, wr := some (15, v) }]) s
          = .next { s with glb := { s.glb with scratch := w } })

/-- Rows of the time registers. A read of TB.NS returns the nanoseconds and latches the seconds (R313). A write of
TB.ADDEND_HI takes effect only while SRC is FREE, with both halves, within the limits that the nominal addend sets
(R312). A write of TB.SERVO_CTRL that keeps SRC sets the thresholds; one that names another source also clears the
integral and LOCKED, and with FREE the addend is again as last written (R316). A write of TB.CAP_STATUS with POP removes the oldest stamp of the FIFO shown, clears the
OVERFLOW bits written 1 and sets SEL (R326). -/
def Obligations.TimeRegisterRows : Prop :=
  ∀ (s : State) (w : Word), hostUp s = true → blockOpen s 0x03 = true →
    exec .tbNsRead s = .next { s with
        tb := { s.tb with latched := s.tb.sec }, out := { s.out with rdata := [BitVec.ofNat 32 s.tb.ns] } }
    ∧ (s.tb.src ≠ .free → exec (.addendHiWrite w) s = .next s)
    ∧ (s.tb.src = .free → ∀ a : Int, a = (w.toNat % 16 * 2 ^ 32 + s.tb.heldFrac : Nat) →
        exec (.addendHiWrite w) s = .next (setAddend s a)
        ∧ (clampL (a - nominalAddend) = a - nominalAddend →
            exec (.addendHiWrite w) s = .next { s with tb := { s.tb with addend := a.toNat, clamped := false } }))
    ∧ (∀ src, srcOf (w.toNat % 8) = some src →
        ∀ x y : TimeBase, x = { s.tb with lockThr := w.toNat / 16 % 4096, stepThr := w.toNat / 65536 % 256
                                          sampleTimeout := w.toNat / 2 ^ 24 } →
          y = { x with src := src, integral := 0, locked := false, lockLost := false, good := 0, bad := 0 } →
        exec (.servoCtrlWrite w) s = .next { s with tb :=
          if src = s.tb.src then x
          else if src = .free then { y with addend := s.tb.freeAddend, clamped := s.tb.freeClamped }
          else if s.tb.src = .free then { y with freeAddend := s.tb.addend, freeClamped := s.tb.clamped }
          else y })
    ∧ exec (.capPop w) s = .next { s with tb := { s.tb with
        capOvf := s.tb.capOvf &&& ~~~(w.extractLsb' 8 8)
        capFifo := modAt s.tb.capFifo s.tb.capSel List.tail
        capSel := w.toNat / 65536 % 8 } }

/-- Rows of single registers of other blocks. A read of ETH.PTP_TX_NS returns it and latches the seconds (R349). A
write of MAPIN.NODE_ID sets the node number in IDLE and is ignored else (R350). A write of PCIE.DRAM_APERTURE_HI
applies the held low half with it where the base lies in usable DRAM, else it is refused and counted (R479, R488). GO
with the link up sends the device address and the bytes of a write, and the mailbox is busy; with the link down it
ends at once with TIMEOUT; while GO is pending the write is dropped (R286, R308). A camera-control transaction ends: a
read's bytes, at most RLEN of them, replace the data registers from byte 0 unless the device refused the transaction,
DONE sets and GO clears; a transaction without an end also sets TIMEOUT (R286). -/
def Obligations.OtherRegisterRows : Prop :=
  ((∀ (s : State) (m : Nat), hostUp s = true → m < 8 → blockOpen s (0x40 + m) = true → s.sens.eth.length = 8 →
     exec (.ptpTxNsRead m) s = .next { s with
       sens := { s.sens with eth := modAt s.sens.eth m (fun x => { x with txSecLatch := x.txSec }) }
       out := { s.out with rdata := [BitVec.ofNat 32 (s.sens.eth.getD m {}).txNs] } })
   ∧ (∀ (s : State) (w : Word), hostUp s = true → blockOpen s 0x48 = true →
     exec (.nodeIdWrite w) s = .next (if s.sch.run = .idle
       then { s with map := { s.map with nodeId := w.extractLsb' 0 16, valid := true } } else s))
   ∧ (∀ (s : State) (w : Word), hostUp s = true →
     exec (.dramApertureHiWrite w) s = .next (if isDram s (w.toNat % 65536 * 2 ^ 32 + s.pcie.apHeld)
       then { s with pcie := { s.pcie with apBase := w.toNat % 65536 * 2 ^ 32 + s.pcie.apHeld } }
       else { s with pcie := { s.pcie with badBase := satAdd 0xFFFF s.pcie.badBase 1 } }))
   ∧ (∀ (s : State) (p : Nat) (w : Word) (x : SpPort), hostUp s = true → p < 16 → blockOpen s (0x30 + p) = true →
     s.sens.sp[p]? = some x →
     ∃ t, exec (.cciGo p w) s = .next t
       ∧ (x.go = true → t = s)
       ∧ (x.go = false → x.up = false → t = { s with sens := { s.sens with sp := modAt s.sens.sp p (fun y => { y with
             dev := w.toNat % 128, wlen := w.toNat / 256 % 32, rlen := w.toNat / 8192 % 32
             done := true, nack := false, timeout := true }) } })
       ∧ (x.go = false → x.up = true → t = { s with
           sens := { s.sens with sp := modAt s.sens.sp p (fun y => { y with
             dev := w.toNat % 128, wlen := w.toNat / 256 % 32, rlen := w.toNat / 8192 % 32
             go := true, done := false, nack := false, timeout := false }) }
           out := { s.out with cci := BitVec.ofNat 8 (w.toNat % 128) :: (cciBytes x).take (w.toNat / 256 % 32) } })))
  ∧ ((∀ (s : State) (p : Nat) (x : SpPort) (nack : Bool) (bytes got : List Byte), s.sens.sp[p]? = some x → x.go = true →
       got = (if nack then [] else (bytes.take 16).take x.rlen) →
       exec (.cciDone p nack bytes) s = .next { s with sens := { s.sens with sp := setAt s.sens.sp p { x with
         go := false, done := true, nack := nack, data := bytesWords (got ++ (cciBytes x).drop got.length) } } })
     ∧ (∀ (s : State) (p : Nat) (x : SpPort), s.sens.sp[p]? = some x → x.go = true →
       exec (.cciTimeout p) s = .next { s with sens := { s.sens with
         sp := setAt s.sens.sp p { x with go := false, done := true, timeout := true } } }))

/-- What happens to a packet before its command executes, for every opcode row. While the port is not ready and no
packet of it is in process, the packet is dropped and counted: as so many words on port H, as one packet on ports S
and D (R448, R456, R469). On a ready port the first failing check of R455 answers: an unknown opcode BAD_OPCODE, one
the port does not permit NOT_PERMITTED, tag 0 or a wrong FLAGS or LENGTH BAD_PARAM with STRUCT 0, ROW 0 and the word's
index. A packet that passes and repeats the SEQ and TAG of the last executed packet places the retained reply again
and counts it; one whose SEQ is not the next is refused BAD_PARAM and counted (R454). None of them executes. While the
boot ROM answers on port H, an opcode it does not serve is answered NOT_READY, and nothing else happens (R493). While
the collector's responder answers, an opcode it does not serve is answered NOT_READY without becoming the port's last
packet (R417). No other port's packet was taken before. -/
def Obligations.PacketsNotExecuted : Prop :=
  (∀ (c : Instr) (op flags : Nat) (k : Pkt) (s : State), packetOf c = some (op, flags, k) →
     (portSt s k.port).taken = none →
     (ready s k.port = false → exec c s = .next (match k.port with
         | .H => { s with cmd := { s.cmd with dropH := satAdd 0xFFFF s.cmd.dropH (k.params.length + 3) } }
         | .S => { s with cmd := { s.cmd with dropS := satAdd 0xFF s.cmd.dropS 1 } }
         | .D => if dOpen s then { s with cmd := { s.cmd with dropD := satAdd 0xFF s.cmd.dropD 1 } } else s))
     ∧ (ready s k.port = true → opPermit k.port op flags = false →
         exec c s = .next (placeReply s k.port op .notPermitted k.tag k.seq []))
     ∧ (ready s k.port = true → opPermit k.port op flags = true → k.tag = 0 →
         exec c s = .next (placeReply s k.port op .badParam k.tag k.seq [0, 1]))
     ∧ (ready s k.port = true → opPermit k.port op flags = true → k.tag ≠ 0 → lenOk op flags k.params.length = false →
         exec c s = .next (placeReply s k.port op .badParam k.tag k.seq [0, 0]))
     ∧ (∀ q, ready s k.port = true → opPermit k.port op flags = true → k.tag ≠ 0 →
         lenOk op flags k.params.length = true → responder s = false → (portSt s k.port).lastSeq = some q →
         (k.seq = q → k.tag = (portSt s k.port).lastTag → ∃ t, exec c s = .next t
           ∧ (portSt t k.port).placed = (portSt s k.port).lastReply ∧ (portSt t k.port).rd = 0
           ∧ t.cmd.replayed = satAdd 0xFF s.cmd.replayed 1
           ∧ t.mem = s.mem ∧ t.jobs = s.jobs ∧ t.sch = s.sch ∧ t.sets = s.sets ∧ t.tb = s.tb)
         ∧ (k.seq ≠ q → k.seq ≠ q + 1 → exec c s = .next (placeReply
             { s with cmd := { s.cmd with seqErr := satAdd 0xFF s.cmd.seqErr 1 } } k.port op .badParam k.tag k.seq [0, 1]))
         ∧ (k.seq = q → k.tag ≠ (portSt s k.port).lastTag → exec c s = .next (placeReply
             { s with cmd := { s.cmd with seqErr := satAdd 0xFF s.cmd.seqErr 1 } } k.port op .badParam k.tag k.seq [0, 1]))))
  ∧ (∀ (c : Instr) (op flags : Nat) (k : Pkt) (s : State), packetOf c = some (op, flags, k) →
       (portSt s k.port).taken = none → ready s k.port = true → admission s op flags k = .run → mustWait s k.port = false →
       (s.boot = .rom → responder s = false → k.port = .H →
           (op ≠ 0x01 ∧ op ≠ 0x02 ∧ op ≠ 0x03 ∧ op ≠ 0x10 ∧ op ≠ 0x23 ∧ op ≠ 0x51 ∧ op ≠ 0x52 ∧ op ≠ 0x71) →
           exec c s = .next (answered s op k .notReady []))
       ∧ (responder s = true → op ≠ 0x03 → op ≠ 0x51 → op ≠ 0x60 →
           exec c s = .next (placeReply s k.port op .notReady k.tag k.seq [])))

/-- Words written to ready port H's packet-in buffer are kept until the last word that LENGTH names is there; then a
right CRC puts a packet that passes R455 and R454 in process, in its turn (R461), with nothing executed yet, and a wrong CRC
is answered BAD_CRC and counted (R455, R456). A word written while port H is not ready is dropped and counted; on port S
the packet is counted once, at its first word or where the port ceased to be ready, and what follows of it goes with it
(R456, R469). A read of port H's reply buffer returns the word asked for; only the read of the packet's last word frees the
buffer, and then, with no event waiting, nothing else is placed. On port S the framing byte 0x5A reads the word at the read
pointer, which advances, 0x3C the status byte, bit 0 ready, bit 1 a packet placed; any other is ignored (R449, R457). -/
def Obligations.PacketWordsAndReplies : Prop :=
  ((∀ (s : State) (idx : Nat) (w : Word), idx < 1024 → hostUp s = true → blockOpen s 0x80 = true →
     (ready s .H = false → exec (.packetWordWrite .H idx w) s = .next { s with cmd := { s.cmd with
       dropH := satAdd 0xFFFF s.cmd.dropH 1 } })
     ∧ (∀ b len, ready s .H = true → b = bufPut s.cmd.h.inBuf idx w → len = (wd (bufWords b 1) 0).toNat % 65536 →
         3 ≤ len → len ≤ 1024 →
         (idx + 1 ≠ len → exec (.packetWordWrite .H idx w) s = .next { s with cmd := { s.cmd with
             h := { s.cmd.h with inBuf := b } } })
         ∧ (idx + 1 = len → wd (bufWords b len) (len - 1) = crcWords ((bufWords b len).take (len - 1)) →
             ∀ op flags k, op = fld (bufWords b len) 0 31 24 → flags = fld (bufWords b len) 0 23 16 →
               k = pktOf .H (bufWords b len) →
               admission { s with cmd := { s.cmd with h := { s.cmd.h with inBuf := b } } } op flags k = .run →
             exec (.packetWordWrite .H idx w) s = .next { s with cmd := { s.cmd with
               h := { s.cmd.h with inBuf := b, taken := some { opcode := op, flags := flags, pkt := k } }
               order := takeTurn s.cmd.order .H s.clk } })
         ∧ (idx + 1 = len → wd (bufWords b len) (len - 1) ≠ crcWords ((bufWords b len).take (len - 1)) →
             exec (.packetWordWrite .H idx w) s = .next (placeReply
               { s with cmd := { s.cmd with h := { s.cmd.h with inBuf := b }, badCrc := satAdd 0xFF s.cmd.badCrc 1 } }
               .H (fld (bufWords b len) 0 31 24) .badCrc (pktOf .H (bufWords b len)).tag (pktOf .H (bufWords b len)).seq [])))
     )
   ∧ (∀ (s : State) (idx : Nat) (w : Word), idx < 1024 → ready s .S = false →
       exec (.packetWordWrite .S idx w) s = .next (if idx ≠ 0 ∧ s.cmd.s.inBuf = [] then s
         else { s with cmd := { s.cmd with s := { s.cmd.s with inBuf := [] }, dropS := satAdd 0xFF s.cmd.dropS 1 } })))
  ∧ ((∀ (s : State) (idx : Nat) (f : Byte), idx < 1024 → hostUp s = true → blockOpen s 0x80 = true → portUp s .H = true →
       ∃ t, exec (.replyBufferRead .H idx f) s = .next t ∧ t.out.rdata = [wd s.cmd.h.placed idx]
         ∧ (idx + 1 ≠ s.cmd.h.placed.length → t.cmd.h.placed = s.cmd.h.placed)
         ∧ (idx + 1 = s.cmd.h.placed.length → waiting s .H = false → t.cmd.h.placed = [] ∧ t.cmd.h.rd = 0)
         ∧ t.cmd.s = s.cmd.s ∧ t.cmd.d = s.cmd.d ∧ t.cmd.h.lastReply = s.cmd.h.lastReply ∧ t.mem = s.mem ∧ t.fc = s.fc)
     ∧ (∀ (s : State) (idx : Nat), portUp s .S = true → s.cmd.s.rd + 1 ≠ s.cmd.s.placed.length →
       exec (.replyBufferRead .S idx 0x5A) s = .next { s with
         cmd := { s.cmd with s := { s.cmd.s with rd := s.cmd.s.rd + 1 } }
         out := { s.out with rdata := [wd s.cmd.s.placed s.cmd.s.rd] } })
     ∧ (∀ (s : State) (idx : Nat),
       exec (.replyBufferRead .S idx 0x3C) s = .next { s with out := { s.out with
         rdata := [BitVec.ofNat 32 (b2n (ready s .S) + 2 * b2n (!s.cmd.s.placed.isEmpty))] } }
       ∧ ∀ f : Byte, f ≠ 0x3C → f ≠ 0x5A → exec (.replyBufferRead .S idx f) s = .next s))

/-- Event packets. With its reply buffer empty and no packet in process, a port places the announcement first; port H
then the pending fault transitions, then lost peers; port S the pending fault transitions, then the verdict: an event
that another goes before is not placed, nor is one while the reply buffer holds a packet. The event has tag 0 and the
port's event count as SEQ, which advances; what it reports waits no longer, and an announcement discards the pending fault
transitions (R416, R458, R460, R368, R434). -/
def Obligations.EventsArePlacedInOrder : Prop :=
  (∀ (s : State), portUp s .H = true → s.cmd.h.placed = [] → s.cmd.h.taken = none → s.cmd.h.annPend = false →
    s.cmd.h.pend ≠ 0 → ∃ t, exec (.faultEvent .H) s = .next t
      ∧ t.cmd.h.placed = replyWords 0xE0 .ok 0 s.cmd.h.evtSeq (maskWords s.cmd.h.pend) ∧ t.cmd.h.pend = 0
      ∧ t.cmd.h.evtSeq = s.cmd.h.evtSeq + 1 ∧ t.fc = s.fc ∧ t.cmd.s = s.cmd.s)
  ∧ (∀ (s : State), portUp s .S = true → s.cmd.s.placed = [] → s.cmd.s.taken = none → s.cmd.s.annPend = false →
    s.cmd.s.pend ≠ 0 → ∃ t, exec (.faultEvent .S) s = .next t
      ∧ t.cmd.s.placed = replyWords 0xE0 .ok 0 s.cmd.s.evtSeq (maskWords s.cmd.s.pend) ∧ t.cmd.s.pend = 0
      ∧ t.cmd.s.evtSeq = s.cmd.s.evtSeq + 1 ∧ t.cmd.verdict = s.cmd.verdict ∧ t.fc = s.fc ∧ t.cmd.h = s.cmd.h)
  ∧ (∀ (s : State) (p : Port), ((portSt s p).annPend = true ∨ (portSt s p).placed ≠ []) →
      exec (.faultEvent p) s = .next s)
  ∧ (∀ (s : State), (s.cmd.h.annPend = true ∨ s.cmd.h.placed ≠ [] ∨ s.cmd.h.pend ≠ 0) → exec .peerLostEvent s = .next s)
  ∧ (∀ (s : State), (s.cmd.s.annPend = true ∨ s.cmd.s.placed ≠ [] ∨ s.cmd.s.pend ≠ 0) → exec .verdictEvent s = .next s)
  ∧ (∀ (s : State), s.cmd.h.annPend = true → s.cmd.s.annPend = false → s.cmd.h.placed = [] → s.cmd.h.taken = none →
      ∃ t, exec .announce s = .next t
      ∧ t.cmd.h.placed = replyWords 0xE1 .ok 0 s.cmd.h.evtSeq (announceWords s) ∧ t.cmd.h.annPend = false
      ∧ t.cmd.h.pend = 0 ∧ t.cmd.h.evtSeq = s.cmd.h.evtSeq + 1 ∧ t.cmd.s = s.cmd.s ∧ t.warm = false ∧ t.fc = s.fc)
  ∧ (∀ (s : State), s.cmd.s.annPend = true → s.cmd.h.annPend = false → s.cmd.s.placed = [] → s.cmd.s.taken = none →
      ∃ t, exec .announce s = .next t
      ∧ t.cmd.s.placed = replyWords 0xE1 .ok 0 s.cmd.s.evtSeq (announceWords s) ∧ t.cmd.s.annPend = false
      ∧ t.cmd.s.pend = 0 ∧ t.cmd.s.evtSeq = s.cmd.s.evtSeq + 1 ∧ t.cmd.h = s.cmd.h ∧ t.warm = false ∧ t.fc = s.fc)
  ∧ (∀ (s : State), s.cmd.h.annPend = true → s.cmd.s.annPend = true → s.cmd.h.placed = [] → s.cmd.s.placed = [] →
      s.cmd.h.taken = none → s.cmd.s.taken = none → ∃ t, exec .announce s = .next t
      ∧ t.cmd.h.placed = replyWords 0xE1 .ok 0 s.cmd.h.evtSeq (announceWords s)
      ∧ t.cmd.s.placed = replyWords 0xE1 .ok 0 s.cmd.s.evtSeq (announceWords s)
      ∧ t.cmd.h.annPend = false ∧ t.cmd.s.annPend = false ∧ t.cmd.h.pend = 0 ∧ t.cmd.s.pend = 0
      ∧ t.cmd.h.evtSeq = s.cmd.h.evtSeq + 1 ∧ t.cmd.s.evtSeq = s.cmd.s.evtSeq + 1 ∧ t.warm = false ∧ t.fc = s.fc)
  ∧ (∀ (s : State), portUp s .H = true → s.cmd.h.placed = [] → s.cmd.h.taken = none → s.cmd.h.annPend = false →
      s.cmd.h.pend = 0 → s.cmd.lostEvt ≠ [] → ∃ t, exec .peerLostEvent s = .next t
      ∧ t.cmd.h.placed = replyWords 0xE2 .peerLost 0 s.cmd.h.evtSeq
          (BitVec.ofNat 32 s.cmd.lostEvt.length :: s.cmd.lostEvt)
      ∧ t.cmd.lostEvt = [] ∧ t.cmd.h.evtSeq = s.cmd.h.evtSeq + 1 ∧ t.cmd.s = s.cmd.s ∧ t.fc = s.fc)
  ∧ (∀ (s : State), portUp s .S = true → s.cmd.s.placed = [] → s.cmd.s.taken = none → s.cmd.s.annPend = false →
      s.cmd.s.pend = 0 → s.cmd.verdict ≠ [] → ∃ t, exec .verdictEvent s = .next t
      ∧ t.cmd.s.placed = replyWords 0xE3 .ok 0 s.cmd.s.evtSeq s.cmd.verdict ∧ t.cmd.verdict = [] ∧ t.cmd.h = s.cmd.h
      ∧ t.cmd.s.evtSeq = s.cmd.s.evtSeq + 1 ∧ t.fc = s.fc)

/-- A command whose bound passes before its commit point is answered TIMEOUT, counted, and sets source 108; nothing of
it takes effect (R419). A partial packet on port S is discarded and counted (R449). CMD_DR serves port D while it is
available and the TAP's instruction is CMD_DR: framing 0x3C captures the status byte, bit 0 ready, bit 1 a packet
placed; 0xA5 writes the next word of the packet; otherwise the register captures 0 (R449, R505). -/
def Obligations.CommandTimeoutsAndFraming : Prop :=
  ((∀ (s : State) (p : Port) (x : Taken), (portSt s p).taken = some x → x.pkt.port = p → responder s = false →
     served s x.opcode x.pkt = true → s.fc.fsw.getLsbD 108 = true →
     exec (.commandTimeout p) s = .next (answered
       { clearTaken s p with cmd := { (clearTaken s p).cmd with timeouts := satAdd 0xFFFF s.cmd.timeouts 1 } }
       x.opcode x.pkt .timeout []))
   ∧ (∀ (s : State) (p : Port) (x : Taken), (portSt s p).taken = some x → x.pkt.port = p → responder s = false →
     served s x.opcode x.pkt = true → ∃ t, exec (.commandTimeout p) s = .next t ∧ t.fc.fsw.getLsbD 108 = true
       ∧ (portSt t p).taken = none ∧ t.mem = s.mem ∧ t.jobs = s.jobs ∧ t.sch = s.sch ∧ t.sets = s.sets ∧ t.tb = s.tb)
   ∧ (∀ (s : State), exec .sspShortTransaction s = .next (if s.cmd.s.inBuf = [] then s else { s with cmd := { s.cmd with
       s := { s.cmd.s with inBuf := [] }, short := satAdd 0xFF s.cmd.short 1 } })))
  ∧ (∀ (s : State) (w : Word),
       ((s.sec.tap ≠ 0x10 ∨ dOpen s = false) → ∀ b,
           exec (.cmdDrUpdate b w) s = .next { s with secw := { s.secw with dr := 0 } })
       ∧ (s.sec.tap = 0x10 → dOpen s = true → s.cmd.d.inBuf = [] → s.cmd.d.lost = 0 →
           exec (.cmdDrUpdate 0x3C w) s = .next { s with secw := { s.secw with
             dr := BitVec.ofNat 40 (b2n (ready s .D) + 2 * b2n (!s.cmd.d.placed.isEmpty)) } })
       ∧ (s.sec.tap = 0x10 → dOpen s = true → ready s .D = true → s.cmd.d.inBuf = [] → s.cmd.d.lost = 0 →
           3 < w.toNat % 65536 →
           w.toNat % 65536 ≤ 1024 →
           exec (.cmdDrUpdate 0xA5 w) s = .next { s with cmd := { s.cmd with d := { s.cmd.d with inBuf := [(0, w)] } } }))

/-- TIME_SET puts the parameter's seconds and nanoseconds into the time base, with the fraction and the servo's
integral 0, in IDLE and HALTED; reserved bits and a nanosecond count of a second or more are refused BAD_PARAM at
their word, and ARMED and RUNNING answer WRONG_STATE (R14, R315, R466). TRIGGER_CFG stores its ten words under the
same states and is refused WRONG_STATE under the others; a reserved TRANSPORT, one other than L2 with PROFILE 802.1AS, and
reserved bits are refused BAD_PARAM at their word (R320). A trigger channel in ONCE or REPEAT mode fires in RUNNING, for the
k-th time of the frame at T + OFFSET + k · PERIOD, and its bit in TB.TRIG_FIRED sets, with no other unless a second is
completed on the way; outside RUNNING, or if the channel is not valid, nothing happens (R323, R324). A carry into the
seconds puts the time base at the next second, fires every valid SECOND channel in every run state, and raises PPS_OUT
where that is its source (R311, R324, R327). -/
def Obligations.TimeSettingAndTriggers : Prop :=
  ((∀ (k : Pkt) (s s0 : State), starts s 0x40 0 k = some s0 →
     (wd k.params 1).toNat < 65536 → (wd k.params 2).toNat < 1000000000 →
     ((s0.sch.run = .idle ∨ s0.sch.run = .halted) → exec (.timeSet k) s = .next (answered { s0 with tb := { s0.tb with
         sec := (wd k.params 0).toNat + (wd k.params 1).toNat * 2 ^ 32, ns := (wd k.params 2).toNat
         frac := 0, integral := 0 } } 0x40 k .ok []))
     ∧ ((s0.sch.run = .armed ∨ s0.sch.run = .running) →
         exec (.timeSet k) s = .next (answered s0 0x40 k .wrongState [])))
   ∧ (∀ (k : Pkt) (s s0 : State), starts s 0x40 0 k = some s0 → 65536 ≤ (wd k.params 1).toNat →
       exec (.timeSet k) s = .next (answered s0 0x40 k .badParam [0, 3]))
   ∧ (∀ (k : Pkt) (s s0 : State), starts s 0x40 0 k = some s0 → (wd k.params 1).toNat < 65536 →
       1000000000 ≤ (wd k.params 2).toNat → exec (.timeSet k) s = .next (answered s0 0x40 k .badParam [0, 4]))
   ∧ (∀ (k : Pkt) (s s0 : State) (w0 w1 : Nat), starts s 0x42 0 k = some s0 → w0 = (wd k.params 0).toNat →
       w1 = (wd k.params 1).toNat →
       ((w0 / 32 % 4 = 3 ∨ (w0 / 16 % 2 = 0 ∧ w0 / 32 % 4 ≠ 0) ∨ w0 / 128 % 2 = 1 ∨ 2 ^ 19 ≤ w0) →
         exec (.triggerCfg k) s = .next (answered s0 0x42 k .badParam [0, 2]))
       ∧ (w0 / 32 % 4 ≠ 3 → (w0 / 16 % 2 = 1 ∨ w0 / 32 % 4 = 0) → w0 / 128 % 2 = 0 → w0 < 2 ^ 19 →
         (65536 ≤ w1 → exec (.triggerCfg k) s = .next (answered s0 0x42 k .badParam [0, 3]))
         ∧ (w1 < 65536 → (s0.sch.run = .idle ∨ s0.sch.run = .halted) → exec (.triggerCfg k) s = .next (answered
             { s0 with ts := { s0.ts with cfg := k.params.take 10 } } 0x42 k .ok []))
         ∧ (w1 < 65536 → (s0.sch.run = .armed ∨ s0.sch.run = .running) →
             exec (.triggerCfg k) s = .next (answered s0 0x42 k .wrongState [])))))
  ∧ ((∀ (s : State) (ch : Nat), s.sch.run = .running → trigValid s ch = true → trigMode s ch ≤ 1 → ch < 32 →
         s.sens.trigNext.getD ch 0 < (if trigMode s ch = 0 then 1 else (wd (trigEntry s ch) 3).toNat % 65536) →
         ∃ t, exec (.triggerFire ch) s = .next t ∧ t.tb.trigFired.getLsbD ch = true
           ∧ (s.sch.t + (wd (trigEntry s ch) 1).toNat % 2 ^ 27
                 + s.sens.trigNext.getD ch 0 * ((wd (trigEntry s ch) 2).toNat % 2 ^ 27) < (s.tb.sec + 1) * 1000000000 →
               t.tb.trigFired = s.tb.trigFired ||| BitVec.ofNat 32 (2 ^ ch))
           ∧ (∀ c, c < 32 → c ≠ ch → (trigValid s c = false ∨ trigMode s c ≠ 2) →
               t.tb.trigFired.getLsbD c = s.tb.trigFired.getLsbD c)
           ∧ now t % (2 ^ 48 * 1000000000) = max (now s) (s.sch.t + (wd (trigEntry s ch) 1).toNat % 2 ^ 27
               + s.sens.trigNext.getD ch 0 * ((wd (trigEntry s ch) 2).toNat % 2 ^ 27)) % (2 ^ 48 * 1000000000)
           ∧ t.sens.trigNext = setAt s.sens.trigNext ch (s.sens.trigNext.getD ch 0 + 1)
           ∧ t.sch = s.sch ∧ t.fc = s.fc ∧ t.mem = s.mem ∧ t.jobs = s.jobs)
     ∧ (∀ (s : State) (ch : Nat), (s.sch.run ≠ .running ∨ trigValid s ch = false) →
         exec (.triggerFire ch) s = .next s)
     ∧ (∀ (s : State), clocked s = true → ∃ t, exec .secondsCarry s = .next t
         ∧ (∀ ch, ch < 32 → trigValid s ch = true → trigMode s ch = 2 → t.tb.trigFired.getLsbD ch = true)
         ∧ (∀ ch, ch < 32 → (trigValid s ch = false ∨ trigMode s ch ≠ 2) →
             t.tb.trigFired.getLsbD ch = s.tb.trigFired.getLsbD ch)
         ∧ (s.tb.ppsOutEn = true → s.tb.ppsOutSrc = false → t.pins.ppsOut = true)
         ∧ (s.tb.ns < 1000000000 → t.tb.sec = (s.tb.sec + 1) % 2 ^ 48 ∧ t.tb.ns = 0)
         ∧ t.sch = s.sch ∧ t.fc = s.fc ∧ t.mem = s.mem ∧ t.jobs = s.jobs))

/-- A servo sample in IDLE or HALTED whose magnitude reaches STEP_THR microseconds steps the time base by it and
clears the integral; any other sample adds KI of it to the integral and sets the addend to nominal plus KP of it plus
the integral, both clamped to ±L (R317). The sample is saturated, kept, and counted (R316). LOCKED sets at the eighth
consecutive sample within LOCK_THR and clears, with source 115, at the third consecutive sample beyond it (R318).
TIME_ADJ gives the servo a sample of the source HOST and is refused WRONG_STATE under any other (R315). A missing
sample clears LOCKED with source 115 while SRC is neither FREE nor HOST (R318). The clocks run (R525). -/
def Obligations.ServoSamplesAndLock : Prop :=
  (∀ (s : State) (e0 e : Int), s.tb.src ≠ .free → s.pins.clocksOff = false → e = max (-(2 ^ 31 - 1)) (min (2 ^ 31 - 1) e0) →
     ∃ t, exec (.servoSample e0) s = .next t ∧ t.tb.lastE = e ∧ t.tb.samples = (s.tb.samples + 1) % 2 ^ 32
       ∧ ((s.sch.run = .idle ∨ s.sch.run = .halted) → s.tb.stepThr * 1000 ≤ e.natAbs →
           0 ≤ (now s : Int) + e → (now s : Int) + e < 2 ^ 48 * 1000000000 → s.tb.ns < 1000000000 →
           (now t : Int) = now s + e ∧ t.tb.integral = 0 ∧ t.tb.addend = s.tb.addend ∧ t.tb.frac = s.tb.frac)
       ∧ ((s.sch.run = .armed ∨ s.sch.run = .running ∨ e.natAbs < s.tb.stepThr * 1000) →
           t.tb.sec = s.tb.sec ∧ t.tb.ns = s.tb.ns
           ∧ t.tb.integral = max (-0x0100_0000) (min 0x0100_0000 (s.tb.integral + rneDiv (s.tb.ki * e) 65536))
           ∧ (t.tb.addend : Int) = 0x8_0000_0000
               + max (-0x0100_0000) (min 0x0100_0000 (rneDiv (s.tb.kp * e) 65536 + t.tb.integral)))
       ∧ t.mem = s.mem ∧ t.sch = s.sch ∧ t.sets = s.sets ∧ t.jobs = s.jobs ∧ t.tb.capFifo = s.tb.capFifo)
  ∧ ((∀ (s : State) (e : Int), s.tb.src ≠ .free → s.pins.clocksOff = false → e.natAbs < 2 ^ 31 → ∃ t, exec (.servoSample e) s = .next t
         ∧ (e.natAbs ≤ s.tb.lockThr → s.tb.good + 1 < 8 →
             t.tb.good = s.tb.good + 1 ∧ t.tb.bad = 0 ∧ t.tb.locked = s.tb.locked)
         ∧ (e.natAbs ≤ s.tb.lockThr → 8 ≤ s.tb.good + 1 → t.tb.locked = true ∧ t.tb.lockLost = false ∧ t.tb.bad = 0)
         ∧ (s.tb.lockThr < e.natAbs → s.tb.bad + 1 < 3 →
             t.tb.bad = s.tb.bad + 1 ∧ t.tb.good = 0 ∧ t.tb.locked = s.tb.locked)
         ∧ (s.tb.lockThr < e.natAbs → 3 ≤ s.tb.bad + 1 → s.tb.locked = true →
             t.tb.locked = false ∧ t.tb.lockLost = true ∧ t.fc.fsw.getLsbD 115 = true))
     ∧ (∀ (k : Pkt) (s s0 : State), starts s 0x41 0 k = some s0 →
         (s0.tb.src ≠ .host → exec (.timeAdj k) s = .next (answered s0 0x41 k .wrongState []))
         ∧ (s0.tb.src = .host → (s0.tb.locked = false ∨ (satSample (sword (wd k.params 0))).natAbs ≤ s0.tb.lockThr) →
             exec (.timeAdj k) s = .next (answered (takeSample s0 (sword (wd k.params 0))) 0x41 k .ok [])))
     ∧ (∀ (s : State), (s.tb.src = .pps ∨ s.tb.src = .ptp ∨ s.tb.src = .mapin) → s.tb.sampleTimeout ≠ 0 →
         s.tb.locked = true → s.pins.clocksOff = false → ∃ t, exec .servoSampleTimeout s = .next t
           ∧ t.tb = { s.tb with locked := false, lockLost := true, good := 0, bad := 0 } ∧ t.fc.fsw.getLsbD 115 = true
           ∧ t.saf = s.saf ∧ t.sch = s.sch))

/-- The time inputs. A taken edge on PPS_IN is stamped 16 ns back; with SRC PPS it gives the servo a sample, the
distance to the nearest second; an edge of the other polarity or within half a second of the last one taken does
nothing (R327). A rising edge on an enabled capture input appends its stamp to the channel's FIFO, or, with sixteen
stamps there, sets the channel's OVERFLOW bit and is discarded (R326). PPS_OUT falls WIDTH_MS milliseconds after it rose;
a second completed on the way, where that is its source, starts the width again (R327). A frame sync is released at its
inactive level, and where its edges are tunnelled the release is sent upstream as a GPIO message (R282, R287). -/
def Obligations.EdgesAndPulses : Prop :=
  (∀ (s : State) (rising : Bool), rising = s.tb.ppsInPol → exec (.ppsInEdge rising) s = .next s)
  ∧ (∀ (s : State) (rising : Bool) (l : Nat), s.tb.lastPps = some l → s.clk < l + 125000000 →
      exec (.ppsInEdge rising) s = .next s)
  ∧ (∀ (s : State) (rising : Bool), clocked s = true → rising ≠ s.tb.ppsInPol →
      (∀ l, s.tb.lastPps = some l → l + 125000000 ≤ s.clk) → s.tb.src ≠ .pps →
      exec (.ppsInEdge rising) s = .next { s with tb := { s.tb with lastPps := some s.clk } })
  ∧ (∀ (s : State) (rising : Bool), clocked s = true → rising ≠ s.tb.ppsInPol →
      (∀ l, s.tb.lastPps = some l → l + 125000000 ≤ s.clk) → s.tb.src = .pps → ∃ t,
      exec (.ppsInEdge rising) s = .next t ∧ t.tb.lastPps = some s.clk
      ∧ t.tb.lastE = (if (now s - 16) % 1000000000 < 500000000 then -(((now s - 16) % 1000000000 : Nat) : Int)
          else 1000000000 - (((now s - 16) % 1000000000 : Nat) : Int)))
  ∧ (∀ (s : State) (ch : Nat) (f : List (Nat × Nat)), clocked s = true → s.tb.capEn.getLsbD ch = true →
      s.tb.capFifo[ch]? = some f →
      (f.length < 16 → exec (.capEdge ch) s = .next { s with tb := { s.tb with
          capFifo := setAt s.tb.capFifo ch (f ++ [((now s - 16) / 1000000000, (now s - 16) % 1000000000)]) } })
      ∧ (16 ≤ f.length → exec (.capEdge ch) s =
          .next { s with tb := { s.tb with capOvf := s.tb.capOvf ||| BitVec.ofNat 8 (2 ^ ch) } }))
  ∧ (∀ (s : State), s.tb.ppsRose = none → exec .ppsOutEnd s = .next { s with pins := { s.pins with ppsOut := false } })
  ∧ (∀ (s : State) (t0 e : Nat), s.tb.ppsRose = some t0 → e = t0 + s.tb.widthMs * 1000000 →
      ∃ t, exec .ppsOutEnd s = .next t
        ∧ now t % (2 ^ 48 * 1000000000) = max (now s) e % (2 ^ 48 * 1000000000)
        ∧ ((e < (s.tb.sec + 1) * 1000000000 ∨ s.tb.ppsOutEn = false) → t.pins.ppsOut = false ∧ t.tb.ppsRose = none)
        ∧ ((s.tb.sec + 1) * 1000000000 ≤ e → e < 2 ^ 48 * 1000000000 → s.tb.ns < 1000000000 →
            t0 < e / 1000000000 * 1000000000 → s.tb.ppsOutEn = true → s.tb.ppsOutSrc = false →
            t.pins.ppsOut = true ∧ t.tb.ppsRose = some (e / 1000000000 * 1000000000))
        ∧ t.sch = s.sch ∧ t.fc = s.fc ∧ t.mem = s.mem ∧ t.jobs = s.jobs)
  ∧ (∀ (s : State) (n : Nat), n < s.sens.sp.length → ∃ t, exec (.fsyncPulseEnd n) s = .next t
      ∧ (t.sens.sp.getD n {}).fsync = (hasActive s && bit (fsWord s n) 5 && bit (fsWord s n) 7)
      ∧ (t.sens.sp.getD n {}).fsAt = none
      ∧ ((s.sens.sp.getD n {}).fsAt = none → t.out = s.out ∧ t.tb = s.tb
          ∧ ∀ p, p ≠ n → t.sens.sp.getD p {} = s.sens.sp.getD p {})
      ∧ ((s.sens.sp.getD n {}).fsAt.isSome = true → hasActive s = true → bit (fsWord s n) 6 = true →
          t.out.gpio.getLast? = some (n, fld ((activeSet s).sensor.ports.getD n []) 3 3 0, bit (fsWord s n) 7))
      ∧ t.sch = s.sch ∧ t.fc = s.fc ∧ t.mem = s.mem ∧ t.jobs = s.jobs)

/-- PTP. A message of another domain or transport is none of this clock's (R320). As a slave, a one-step Sync gives, with
the mean path delay known and SRC PTP, one sample of t1 − t2 + delay, t2 being the ingress stamp less ING_LAT; a two-step
Sync waits for the Follow_Up of its number; without a path delay only the stamps are kept. The delay mechanism in force
sets the path delay from its four stamps, by the response to the request in hand. A master answers a delay request, and
either role a peer's, in two steps. At its interval a master sends Sync and Follow_Up, and a slave, and either role of
the peer-to-peer mechanism, its delay request; each egress stamp, plus EGR_LAT, is latched in the port's PTP_TX
registers (R319, R321, R349). That no sample is taken before a path delay is known, and that halves round down, is the
model's reading (log entry 18). -/
def Obligations.PtpExchange : Prop :=
  (∀ (s : State) (h : PtpHdr) (m : PtpMsg), (h.domain ≠ fld s.ts.cfg 0 15 8 ∨ h.transport ≠ fld s.ts.cfg 0 6 5) →
    exec (.ptpMessageReceive m h) s = .next s)
  ∧ (∀ (s : State) (h : PtpHdr), s.rst.pairB = false → clocked s = true → h.domain = fld s.ts.cfg 0 15 8 →
    h.transport = fld s.ts.cfg 0 6 5 → ∀ r : Int, r = ingress s (ptpPort s) →
    (ptpMaster s = false →
      (∀ t1, s.ts.pathDelay = none → exec (.ptpMessageReceive (.syncOneStep t1) h) s = .next { s with ts := { s.ts with
          sync := some (t1, r), pendSync := none } })
      ∧ (∀ t1 d, s.ts.pathDelay = some d → s.tb.src = .ptp → (t1 - r + d).natAbs < 2 ^ 31 →
          ∃ t, exec (.ptpMessageReceive (.syncOneStep t1) h) s = .next t
            ∧ t.tb.lastE = t1 - r + d ∧ t.tb.samples = (s.tb.samples + 1) % 2 ^ 32)
      ∧ exec (.ptpMessageReceive .syncTwoStep h) s = .next { s with ts := { s.ts with pendSync := some (h.seq, r) } }
      ∧ (∀ t1 t2 d, s.ts.pendSync = some (h.seq, t2) → s.ts.pathDelay = some d → s.tb.src = .ptp →
          (t1 - t2 + d).natAbs < 2 ^ 31 → ∃ t, exec (.ptpMessageReceive (.followUp t1) h) s = .next t
            ∧ t.tb.lastE = t1 - t2 + d ∧ t.tb.samples = (s.tb.samples + 1) % 2 ^ 32 ∧ t.ts.pendSync = none)
      ∧ (∀ t1 n t2, s.ts.pendSync = some (n, t2) → n ≠ h.seq → exec (.ptpMessageReceive (.followUp t1) h) s = .next s)
      ∧ (∀ t1 t2 t3 t4 n, ptp1588 s = true → s.ts.sync = some (t1, t2) → s.ts.req = some (n, t3) →
          (n = h.seq → exec (.ptpMessageReceive (.delayResp t4) h) s = .next { s with ts := { s.ts with
            pathDelay := some (((t2 - t1) + (t4 - t3)) / 2), req := none, pendResp := none } })
          ∧ (n ≠ h.seq → exec (.ptpMessageReceive (.delayResp t4) h) s = .next s)))
    ∧ (ptpMaster s = true → ptp1588 s = true → exec (.ptpMessageReceive .delayReq h) s = .next { s with out := { s.out with
        ptpMsgs := s.out.ptpMsgs ++ [{ domain := h.domain, transport := h.transport, seq := h.seq, msg := .delayResp r }] } })
    ∧ (ptp1588 s = false →
      (∀ took t1, s.ts.req = some (h.seq, t1) → exec (.ptpMessageReceive (.pdelayRespOneStep took) h) s =
          .next { s with ts := { s.ts with pathDelay := some (((r - t1) - took) / 2), req := none, pendResp := none } })
      ∧ (∀ t2 t1, s.ts.req = some (h.seq, t1) → exec (.ptpMessageReceive (.pdelayRespTwoStep t2) h) s =
          .next { s with ts := { s.ts with pendResp := some (h.seq, t2, r) } })
      ∧ (∀ t1 t2 t3 t4, s.ts.req = some (h.seq, t1) → s.ts.pendResp = some (h.seq, t2, t4) →
          exec (.ptpMessageReceive (.pdelayRespFollowUp t3) h) s = .next { s with ts := { s.ts with
            pathDelay := some (((t4 - t1) - (t3 - t2)) / 2), req := none, pendResp := none } })
      ∧ (∃ t, exec (.ptpMessageReceive .pdelayReq h) s = .next t ∧ t.ts = s.ts ∧ t.tb = s.tb
          ∧ t.out.ptpMsgs.map (fun x => (x.seq, x.msg)) = s.out.ptpMsgs.map (fun x => (x.seq, x.msg))
            ++ [(h.seq, .pdelayResp r), (h.seq, .pdelayRespFollowUp ((now s + egrLat s (ptpPort s) : Nat) : Int))])))
  ∧ (∀ (s : State) (x : EthMac) (e : Nat), s.rst.pairB = false → clocked s = true → s.sens.eth[ptpPort s]? = some x →
      e = now s + egrLat s (ptpPort s) → ∃ t, exec .ptpSyncInterval s = .next t
        ∧ t.sens.eth[ptpPort s]? = some { x with txNs := e % 1000000000, txSec := e / 1000000000 % 2 ^ 32 }
        ∧ (∀ n, n ≠ ptpPort s → t.sens.eth[n]? = s.sens.eth[n]?)
        ∧ t.out.ptpMsgs.map (fun x => (x.seq, x.msg)) = s.out.ptpMsgs.map (fun x => (x.seq, x.msg))
          ++ (if ptpMaster s then [(s.ts.nextSync, .sync), (s.ts.nextSync, .followUp (e : Int))] else [])
          ++ (if ptp1588 s then (if ptpMaster s then [] else [(s.ts.nextReq, .delayReq)]) else [(s.ts.nextReq, .pdelayReq)])
        ∧ (ptpMaster s = true → t.ts.nextSync = (s.ts.nextSync + 1) % 2 ^ 16)
        ∧ (ptpMaster s = true → ptp1588 s = true → t.ts.req = s.ts.req)
        ∧ ((ptpMaster s = false ∨ ptp1588 s = false) → t.ts.req = some (s.ts.nextReq, (e : Int)))
        ∧ t.ts.pathDelay = s.ts.pathDelay ∧ t.tb = s.tb)

/-- ECHO answers its parameter words; GET_INFO the device word, the ordering code, the DRAM bytes, the firmware
version, the lifecycle state, the node number with its VALID bit and the active PACK_ID; GET_STATUS the status word,
the frame number and the last verdict's frame and code; READ_FAULTS the 128 source bits, the first fault sources of
the last reset, FC.SUMMARY, FC.HANG_INFO and the three hang tokens. Nothing but the reply changes (R413, R466).
QUERY_JOB answers NOT_READY for a live token, with what its result has so far, and the final result for one that is
not live; a token nobody issued is refused BAD_PARAM, and on port S a token of another port is NOT_PERMITTED (R448,
R464, R466). GET_CERTS answers a certificate's length and up to 4,080 bytes from an offset; RETIRED and an erased
device answer ATTEST NOT_PERMITTED (R509, R510). The queries of recording and replay answer their states and counts
(R301, R303). -/
def Obligations.InformationAndQueries : Prop :=
  ((∀ (k : Pkt) (s s0 : State), starts s 0x01 0 k = some s0 → exec (.echo k) s = .next (answered s0 0x01 k .ok k.params))
   ∧ (∀ (k : Pkt) (s s0 : State), starts s 0x02 0 k = some s0 → ∀ g d : Nat,
       (s.part = .a48 → g = 48 ∧ d = 0xB_4000_0000) → (s.part = .a96 → g = 96 ∧ d = 0x16_8000_0000) →
       exec (.getInfo k) s = .next (answered s0 0x02 k .ok [0x1620_00B1, BitVec.ofNat 32 g, BitVec.ofNat 32 d,
         BitVec.ofNat 32 (d / 2 ^ 32), s.sec.fwVersion, BitVec.ofNat 32 s.sec.lifecycle.code,
         BitVec.ofNat 32 (s.map.nodeId.toNat + 65536 * b2n s.map.valid), s.saf.pack.id]))
   ∧ (∀ (k : Pkt) (s s0 : State), starts s 0x03 0 k = some s0 → exec (.getStatus k) s = .next (answered s0 0x03 k .ok
       [BitVec.ofNat 32 (s.sch.run.code + 4 * s.saf.trust.code + 16 * b2n (s.sch.phase == .slack)
         + 32 * b2n (s.sch.phase == .judge)
         + 64 * ((s.sets.slot0.st.code + 16 * s.sets.slot1.st.code + 256 * b2n s.sets.activeSlot
             + 512 * b2n s.sets.swapPending) % 1024)
         + 65536 * b2n s.saf.injFail + 131072 * (fcSummary s % 8)),
        s.sch.seq, s.hl.lastSeq, BitVec.ofNat 32 s.hl.lastVerdict]))
   ∧ (∀ (k : Pkt) (s s0 : State), starts s 0x51 0 k = some s0 → exec (.readFaults k) s = .next (answered s0 0x51 k .ok
       [s.fc.fsw.extractLsb' 0 32, s.fc.fsw.extractLsb' 32 32, s.fc.fsw.extractLsb' 64 32, s.fc.fsw.extractLsb' 96 32,
        s.fc.pre.extractLsb' 0 32, s.fc.pre.extractLsb' 32 32, s.fc.pre.extractLsb' 64 32, s.fc.pre.extractLsb' 96 32,
        BitVec.ofNat 32 (fcSummary s), BitVec.ofNat 32 (hangInfo s), s.fc.hTok0, s.fc.hTok1, s.fc.hTok2])))
  ∧ ((∀ (k : Pkt) (s s0 : State) (x : TokRec), starts s 0x23 0 k = some s0 → k.port ≠ .S →
       s.cmd.tokens.find? (fun y => y.token == wd k.params 0) = some x →
       (x.live = true → exec (.queryJob k) s =
           .next (answered s0 0x23 k .notReady (partialOf s0 (wd k.params 0))))
       ∧ (x.live = false → exec (.queryJob k) s = .next (answered s0 0x23 k x.status x.payload)))
     ∧ (∀ (k : Pkt) (s s0 : State), starts s 0x23 0 k = some s0 → k.port = .S →
         (∀ x, s.cmd.tokens.find? (fun y => y.token == wd k.params 0) = some x → x.port ≠ .S) →
         exec (.queryJob k) s = .next (answered s0 0x23 k .notPermitted []))
     ∧ (∀ (k : Pkt) (s s0 : State), starts s 0x23 0 k = some s0 → k.port ≠ .S →
         s.cmd.tokens.find? (fun y => y.token == wd k.params 0) = none →
         (∀ j ∈ s.jobs, j.token ≠ wd k.params 0) → (∀ r ∈ s.sch.ttRecs, r.token ≠ wd k.params 0) →
         exec (.queryJob k) s = .next (answered s0 0x23 k .badParam [0, 2]))
     ∧ (∀ (k : Pkt) (s s0 : State) (c : List Byte), starts s 0x71 0 k = some s0 → (wd k.params 0 = 0 ∨ wd k.params 0 = 1) →
         c = (if wd k.params 0 = 0 then s.sec.idCert else if s.sec.fwRunning then s.sec.aliasCert else []) →
         (c ≠ [] → (wd k.params 1).toNat < c.length → exec (.getCerts k) s = .next (answered s0 0x71 k .ok
             (BitVec.ofNat 32 c.length :: bytesWords ((c.drop (wd k.params 1).toNat).take 4080))))
         ∧ (c = [] → exec (.getCerts k) s = .next (answered s0 0x71 k .badParam [0, 2])))
     ∧ (∀ (k : Pkt) (s s0 : State), starts s 0x70 0 k = some s0 →
         ((s.sec.lifecycle = .retired ∨ s.sec.erased = true) →
           exec (.attest k) s = .next (answered s0 0x70 k .notPermitted []))
         ∧ (s.sec.lifecycle ≠ .retired → s.sec.erased = false → exec (.attest k) s = .next (answered s0 0x70 k .ok
             (attestWords (k.params.take 8) s0 ++ bytesWords
               ((Config.ecdsaSign s.sec.aliasKey (wordsBytes (attestWords (k.params.take 8) s0))
                 ++ List.replicate 96 0).take 96)))))
     ∧ (∀ (k : Pkt) (s s0 : State), starts s 0x78 2 k = some s0 → exec (.recordCtlQuery k) s = .next (answered s0 0x78 k .ok
         [BitVec.ofNat 32 s.sens.recorder.state, BitVec.ofNat 32 s.sens.recorder.written,
          BitVec.ofNat 32 (s.sens.recorder.written / 2 ^ 32), BitVec.ofNat 32 s.sens.recorder.lost]))
     ∧ (∀ (k : Pkt) (s s0 : State), starts s 0x79 2 k = some s0 → exec (.replayCtlQuery k) s = .next (answered s0 0x79 k .ok
         [BitVec.ofNat 32 s.sens.replayer.state, BitVec.ofNat 32 s.sens.replayer.frames,
          BitVec.ofNat 32 s.sens.replayer.diverged])))

/-- LOAD_OBJECT names an object of a slot that is neither ACTIVE nor, with a swap pending, the shadow: a slot in
LOADING keeps its other objects, a slot in any other state starts again with this one; with all five kinds named the
slot is LOADED, else LOADING (R38 to R40). READ_SET_INFO answers a slot's state, ACTIVE bit and objects present where its
reads of the stored objects come good, and, where no credit pool has had more returned than issued, changes nothing but
what they count (R466, R220); poison stops control pair A,
without a reply (R390). SWAP_SETS with a COMMITTED shadow set. In IDLE the swap is taken at once: the shadow is
ACTIVE, the old set COMMITTED again, the swap's frame number 0. In RUNNING without a named frame it becomes pending
for the next frame, or, from SLACK_START on, for the one after it; a lease that the frame's verdict has set then ends by the SLACK_START of the set
of its next frame (R373). In HALTED, with a swap pending, or with no COMMITTED set it is refused WRONG_STATE (R41, R42). -/
def Obligations.LoadReadAndSwapSets : Prop :=
  ((∀ (k : Pkt) (s s0 : State) (b : Bool) (kind a n : Nat), starts s 0x11 0 k = some s0 →
     wd k.params 0 = BitVec.ofNat 32 (b2n b + 16 * kind) → kind < 5 →
     a = (wd k.params 1).toNat + (wd k.params 2).toNat * 2 ^ 32 → (wd k.params 2).toNat < 65536 →
     n = (wd k.params 3).toNat → 0 < n → a % 64 = 0 → isDram s a = true → inDram s a n = true →
     slotLocked s b = false → (slotOf s b).verTok = none → (slotOf s b).comTok = none →
     hits (slotRegions (slotOf s (!b)) ++ fwRegions s) a n = false →
     ∃ x, exec (.loadObject k) s = .next (answered (setSlot s0 b x) 0x11 k .ok [])
       ∧ objOf x kind = some { kind := kind, addr := a, len := n }
       ∧ (x.st = .loaded ↔ x.objs.length = 5) ∧ (x.st ≠ .loaded → x.st = .loading)
       ∧ ((slotOf s b).st = .loading → ∀ i, i ≠ kind → objOf x i = objOf (slotOf s b) i)
       ∧ ((slotOf s b).st ≠ .loading → x.objs = [{ kind := kind, addr := a, len := n }]))
   ∧ (∀ (k : Pkt) (s s0 : State) (b : Bool) (ecc : List (Nat × Ecc)) (rs : List (Nat × Nat)), starts s 0x15 0 k = some s0 →
       wd k.params 0 = BitVec.ofNat 32 (b2n b) → rs = infoReads (slotOf s b) →
       (readsGood s0 srcPairA rs ecc = true → ∃ u w1 dg present,
         exec (.readSetInfo k ecc) s = .next (settle s0 (answered u 0x15 k .ok
           (BitVec.ofNat 32 ((slotOf s b).st.code + 8 * b2n ((slotOf s b).st == .active) + 16 * present) :: w1 :: dg)))
         ∧ (∀ i < 5, present.testBit i = ((slotOf s b).objs.any (fun o => o.kind == i))) ∧ present < 32
         ∧ u = readAll s0 srcPairA rs ecc ∧ (ecc = [] → poolsFit s.cr.pools = true → onlyReads s0 u))
       ∧ (readsGood s0 srcPairA rs ecc = false → ∃ t, exec (.readSetInfo k ecc) s = .next t ∧ t.rst.pairA = true
         ∧ (portSt t k.port).placed = (portSt s0 k.port).placed)))
  ∧ ((∀ (k : Pkt) (s s0 : State), starts s 0x14 0 k = some s0 → (wd k.params 0).toNat ≤ 1 →
       ((s.sch.run = .halted ∨ s.sets.swapPending = true ∨ (slotOf s (shadowSlot s)).st ≠ .committed) →
         exec (.swapSets k) s = .next (answered s0 0x14 k .wrongState []))
       ∧ (s.sets.swapPending = false → (slotOf s (shadowSlot s)).st = .committed →
         (s.sch.run = .running → wd k.params 0 = 0 →
           ∀ f, f = (if s.sch.phase = .slack ∨ s.sch.t + ttSlackStart (tide s) ≤ now s then s.sch.seq + 2 else s.sch.seq + 1) →
           ∀ l, l = s.sch.t + ttPeriod (tide s) + 1000000
               + ttSlackStart (if f = s.sch.seq + 1 then (slotOf s (shadowSlot s)).tide else tide s) →
           exec (.swapSets k) s = .next (answered
             { s0 with
               sets := { s0.sets with swapPending := true, swapSeq := f }
               saf := { s0.saf with lease := if s.hl.written && s.saf.lease.isSome then some l else s0.saf.lease } }
             0x14 k .ok [f]))
         ∧ (s.sch.run = .armed → wd k.params 0 = 0 → (s.hl.written = false ∨ s.saf.lease = none) →
           exec (.swapSets k) s = .next (answered
             { s0 with
               sets := { s0.sets with swapPending := true, swapSeq := s.sch.firstSeq }
               ms := { s0.ms with resLoaded := false } } 0x14 k .ok [s.sch.firstSeq]))
         ∧ (s.sch.run = .idle → ∃ t, exec (.swapSets k) s = .next (answered t 0x14 k .ok [0])
           ∧ t.sets.activeSlot = shadowSlot s ∧ (slotOf t (shadowSlot s)).st = .active ∧ hasActive t = true
           ∧ (hasActive s = true → (slotOf t s.sets.activeSlot).st = .committed)
           ∧ t.sets.swapSeq = 0 ∧ t.sets.taken = satAdd 0xFFFF s.sets.taken 1 ∧ t.ms.resLoaded = false))))

/-- VERIFY_OBJECT is accepted with a token for a slot in LOADED, whose regions the host may not write from then on (R38, R40,
R501). When the verification ends, the objects taken in KIND order, the slot is VERIFIED and the token's final result OK if
items 1 to 8 hold of every object and then item 9; else the slot is FAILED, source 121 sets, and the result is SIG_FAIL with
the first item that fails and its object's KIND (R499). COMMIT_SHADOW is accepted with a token for a slot in VERIFIED; when
its checks end the slot is COMMITTED and its token's result OK, or FAILED with the failed check's status and detail (R38,
R40, R543). A slot in another state answers WRONG_STATE (R40). The objects, and at a commit the lists that its plan names, are
read through control pair A's port, no credit pool having had more returned than issued (R216, R220): poisoned bytes of one stop control pair A, and the work of a stopped pair
does not end (R390). -/
def Obligations.VerifyAndCommitSets : Prop :=
  (∀ (k : Pkt) (s s0 : State) (b : Bool), starts s 0x12 0 k = some s0 → wd k.params 0 = BitVec.ofNat 32 (b2n b) →
    (slotLocked s b = false → (slotOf s b).st = .loaded → (slotOf s b).verTok = none → (slotOf s b).comTok = none → ∃ u,
      exec (.verifyObject k) s = .next (answered u 0x12 k .accepted [BitVec.ofNat 32 s.sch.cmdSeq])
      ∧ u = setSlot (issueCmd s0 k.port).2 b { slotOf s b with verTok := some (BitVec.ofNat 32 s.sch.cmdSeq), prot := true }
      ∧ (∀ o ∈ (slotOf s b).objs, (o.addr, o.len) ∈ dramProtected u))
    ∧ ((slotOf s b).st ≠ .loaded → exec (.verifyObject k) s = .next (answered s0 0x12 k .wrongState [])))
  ∧ (∀ (k : Pkt) (s s0 : State) (b : Bool), starts s 0x13 0 k = some s0 → wd k.params 0 = BitVec.ofNat 32 (b2n b) →
    (slotLocked s b = false → (slotOf s b).st = .verified → (slotOf s b).verTok = none → (slotOf s b).comTok = none →
      exec (.commitShadow k) s = .next (answered (setSlot (issueCmd s0 k.port).2 b { slotOf s b with
        comTok := some (BitVec.ofNat 32 s.sch.cmdSeq) }) 0x13 k .accepted [BitVec.ofNat 32 s.sch.cmdSeq]))
    ∧ ((slotOf s b).st ≠ .verified → exec (.commitShadow k) s = .next (answered s0 0x13 k .wrongState [])))
  ∧ (∀ (s : State) (b : Bool) (ecc : List (Nat × Ecc)) (tok : Word) (x : Slot), s.rst.pairA = false → x = slotOf s b →
      x.verTok = some tok → readsGood s srcPairA (objRegions x) ecc = true → poolsFit s.cr.pools = true → ∃ t, exec (.verifyObjectDone b ecc) s = .next t
        ∧ (slotOf t b).verTok = none ∧ slotOf t (!b) = slotOf s (!b) ∧ (slotOf t b).objs = x.objs
        ∧ ((∀ i < 5, sigRow s i (objBytes s x i) = 0) → manifestOk s x = true →
            (slotOf t b).st = .verified ∧ t.cmd.tokens = (finishTok s tok .ok []).cmd.tokens
            ∧ t.fc = (readAll s srcPairA (objRegions x) ecc).fc ∧ (ecc = [] → t.fc = s.fc))
        ∧ ((∀ i < 5, sigRow s i (objBytes s x i) = 0) → manifestOk s x = false →
            (slotOf t b).st = .failed ∧ t.cmd.tokens = (finishTok s tok .sigFail (detail 0x0B 9 4)).cmd.tokens
            ∧ t.fc.fsw.getLsbD 121 = true)
        ∧ (∀ i < 5, (∀ j < i, sigRow s j (objBytes s x j) = 0) → sigRow s i (objBytes s x i) ≠ 0 →
            (slotOf t b).st = .failed
            ∧ t.cmd.tokens = (finishTok s tok .sigFail (detail 0x0B (sigRow s i (objBytes s x i)) i)).cmd.tokens
            ∧ t.fc.fsw.getLsbD 121 = true)
        ∧ t.jobs = s.jobs ∧ t.mem = s.mem)
  ∧ (∀ (s u v : State) (b : Bool) (ecc : List (Nat × Ecc)) (tok : Word) (x : Slot), s.rst.pairA = false → x = slotOf s b →
      x.comTok = some tok → poolsFit s.cr.pools = true → readsGood s srcPairA (objRegions x) ecc = true → u = readAll s srcPairA (objRegions x) ecc →
      readsGood u srcPairA (planLists (parsePlan (objBody s x 1))) ecc = true →
      v = readAll u srcPairA (planLists (parsePlan (objBody s x 1))) ecc → ∃ t, exec (.commitShadowDone b ecc) s = .next t
        ∧ (slotOf t b).comTok = none ∧ slotOf t (!b) = slotOf s (!b) ∧ (slotOf t b).objs = x.objs
        ∧ (∀ f, setBad v (parseTide (objBody s x 0)) (parsePlan (objBody s x 1)) (parseSensor (objBody s x 2))
            (parseProg (objBody s x 3)) = some f → (slotOf t b).st = .failed
            ∧ t.cmd.tokens = (finishTok s tok f.1 (detail f.2.1 f.2.2.1 f.2.2.2)).cmd.tokens)
        ∧ (setBad v (parseTide (objBody s x 0)) (parsePlan (objBody s x 1)) (parseSensor (objBody s x 2))
            (parseProg (objBody s x 3)) = none → (slotOf t b).st = .committed
            ∧ (slotOf t b).tide = parseTide (objBody s x 0) ∧ (slotOf t b).plan = parsePlan (objBody s x 1)
            ∧ (slotOf t b).sensor = parseSensor (objBody s x 2) ∧ (slotOf t b).prog = parseProg (objBody s x 3)
            ∧ t.cmd.tokens = (finishTok s tok .ok []).cmd.tokens)
        ∧ t.jobs = s.jobs ∧ t.mem = s.mem ∧ t.fc = v.fc ∧ (ecc = [] → t.fc = s.fc))
  ∧ (∀ (s : State) (b : Bool) (ecc : List (Nat × Ecc)), s.rst.pairA = false →
      (readsGood s srcPairA (objRegions (slotOf s b)) ecc = false →
        ((slotOf s b).verTok.isSome = true → ∃ t, exec (.verifyObjectDone b ecc) s = .next t ∧ t.rst.pairA = true
          ∧ t.fc.fsw.getLsbD 88 = true ∧ slotOf t b = slotOf s b)
        ∧ ((slotOf s b).comTok.isSome = true → ∃ t, exec (.commitShadowDone b ecc) s = .next t ∧ t.rst.pairA = true
          ∧ t.fc.fsw.getLsbD 88 = true ∧ (slotOf t b).st = (slotOf s b).st)))
  ∧ (∀ (s : State) (b : Bool) (ecc : List (Nat × Ecc)), s.rst.pairA = true → exec (.verifyObjectDone b ecc) s = .next s
      ∧ exec (.commitShadowDone b ecc) s = .next s)

/-- RUN_CTL START in IDLE with an ACTIVE set, start-up injection passed, no fatal source set and a start time at least
1 ms ahead arms the run: start time and first frame are kept, trust is AWAITING with the set's count of PASS verdicts
to come, the SAFE outputs are low, and every engine that is not quarantined owes a slice (R14, R16, R370, R379). In
any other run state it is refused WRONG_STATE, and with a start time nearer than that BAD_PARAM. RUN_CTL STOP answers
ALREADY_DONE in IDLE and HALTED. In RUNNING on port H or D it is kept for the frame's end, with nothing else changed;
on port S trust is withdrawn at once with cause 6, and the SAFE outputs fall. In ARMED the run ends at once: IDLE,
trust NOT_ARMED, outputs low, a pending swap cancelled (R16, R43, R370, R371). RUN_CTL REARM on port H, in RUNNING
with trust WITHDRAWN, no fatal source and no stop from port S, awaits trust again; in any other case it is refused
WRONG_STATE (R370, R462). -/
def Obligations.RunStartsStopsAndRearms : Prop :=
  (∀ (k : Pkt) (s s0 : State) (start : Nat), starts s 0x20 0 k = some s0 → (wd k.params 1).toNat < 65536 →
     (wd k.params 2).toNat < 1000000000 →
     start = ((wd k.params 0).toNat + (wd k.params 1).toNat * 2 ^ 32) * 1000000000 + (wd k.params 2).toNat →
     (s.sch.run ≠ .idle → exec (.runCtlStart k) s = .next (answered s0 0x20 k .wrongState []))
     ∧ (s.sch.run = .idle → hasActive s = true → s.saf.injFail = false → anyFA s = false →
       (start < now s + 1000000 → exec (.runCtlStart k) s = .next (answered s0 0x20 k .badParam [0, 2]))
       ∧ (now s + 1000000 ≤ start → ∃ t, exec (.runCtlStart k) s = .next (answered t 0x20 k .ok [])
         ∧ t.sch = { s.sch with
             run := .armed, startAt := start, firstSeq := wd k.params 3, frames := 0, stopReq := false
             portSStop := false }
         ∧ t.saf.trust = .awaiting ∧ t.saf.passes = (wd (activeSet s).prog.hdr 2).toNat / 65536 % 256
         ∧ t.saf.holds = [] ∧ t.pins = { s.pins with safeA := false, safeB := false }
         ∧ (∀ (e : Nat) (x : Engine), s.eng[e]? = some x → ∃ y : Engine, t.eng[e]? = some y ∧ (x.quar = true → y = x)
             ∧ (x.quar = false → y = { x with katDue := x.katDue ++ [.armed], passed := [], deferred := false }))
         ∧ t.mem = s.mem ∧ t.sets = s.sets ∧ t.jobs = s.jobs ∧ t.tb = s.tb ∧ t.fc = s.fc)))
  ∧ ((∀ (k : Pkt) (s s0 : State), starts s 0x20 1 k = some s0 →
       ((s.sch.run = .idle ∨ s.sch.run = .halted) → exec (.runCtlStop k) s = .next (answered s0 0x20 k .alreadyDone []))
       ∧ (s.sch.run = .running → k.port ≠ .S → exec (.runCtlStop k) s = .next (answered
           { s0 with sch := { s0.sch with stopReq := true } } 0x20 k .ok []))
       ∧ (s.sch.run = .running → k.port = .S → (s.saf.trust = .trusted ∨ s.saf.trust = .awaiting) →
           exec (.runCtlStop k) s = .next (answered { s0 with
             saf := { s0.saf with trust := .withdrawn, wCause := 6, wSeq := s0.sch.seq, lease := none, passes := 0 }
             pins := { s0.pins with safeA := false, safeB := false }
             sch := { s0.sch with portSStop := true, stopReq := true } } 0x20 k .ok []))
       ∧ (s.sch.run = .armed → ∃ t, exec (.runCtlStop k) s = .next (answered t 0x20 k .ok [])
           ∧ t.sch.run = .idle ∧ t.saf.trust = .notArmed ∧ t.pins.safeA = false ∧ t.pins.safeB = false
           ∧ t.sets.swapPending = false ∧ t.sch.stopReq = false ∧ t.sch.portSStop = false ∧ t.mem = s.mem
           ∧ (s.sets.swapPending = true → t.sets.cancelled = satAdd 0xFFFF s.sets.cancelled 1)))
     ∧ (∀ (k : Pkt) (s s0 : State), starts s 0x20 4 k = some s0 →
       (k.port = .H → s.sch.run = .running → s.saf.trust = .withdrawn → anyFA s = false → s.sch.portSStop = false →
         exec (.runCtlRearm k) s = .next (answered { s0 with
           saf := { s0.saf with trust := .awaiting, passes := (wd (activeSet s).prog.hdr 2).toNat / 65536 % 256 }
           pins := { s0.pins with safeA := false, safeB := false } } 0x20 k .ok []))
       ∧ ((k.port ≠ .H ∨ s.sch.run ≠ .running ∨ s.saf.trust ≠ .withdrawn ∨ anyFA s = true ∨ s.sch.portSStop = true) →
         exec (.runCtlRearm k) s = .next (answered s0 0x20 k .wrongState []))))

/-- RUN_CTL START_GROUP and JOIN, in states that allow them and with the group formed, are accepted with a token, and
a member that does not lead the barrier sends ARRIVE to the leader with the barrier's identity, its frame and its
proposed time; the one that leads it keeps its own arrival. In a state that cannot start, which for START_GROUP is the
model's reading (log 33), they answer WRONG_STATE, and in one that can, with the group not formed, NOT_READY (R339, R340,
R388, R466, R544). Which members a JOIN finds stopped is its operand (log 33). -/
def Obligations.RunBarriers : Prop :=
  (∀ (k : Pkt) (s s0 : State), starts s 0x20 2 k = some s0 → (wd k.params 0).toNat < 65536 →
    1000000 ≤ (wd k.params 2).toNat →
    (s.sch.run ≠ .idle → exec (.runCtlStartGroup k) s = .next (answered s0 0x20 k .wrongState []))
    ∧ (s.sch.run = .idle → hasActive s = true → s.saf.injFail = false → anyFA s = false → formed s = false →
        exec (.runCtlStartGroup k) s = .next (answered s0 0x20 k .notReady []))
    ∧ (s.sch.run = .idle → hasActive s = true → s.saf.injFail = false → anyFA s = false → formed s = true →
        (leaderOf s false = s.map.nodeId → (groupOf s).any (fun n => n != s.map.nodeId
            && !s.map.early.any (fun x => x.1 == (wd k.params 0).toNat && x.2.1 == false && x.2.2.1 == n)) = true → ∃ t,
          exec (.runCtlStartGroup k) s = .next (answered t 0x20 k .accepted [BitVec.ofNat 32 s.sch.cmdSeq])
          ∧ (∃ b ∈ t.map.barriers, b.id = (wd k.params 0).toNat ∧ b.join = false ∧ b.seq = wd k.params 1
              ∧ (s.map.nodeId, now s + (wd k.params 2).toNat) ∈ b.arrived)
          ∧ t.sch.run = .idle ∧ t.mem = s.mem ∧ t.jobs = s.jobs ∧ t.tb = s.tb ∧ t.fc = s.fc)
        ∧ (leaderOf s false ≠ s.map.nodeId → ∃ t,
          exec (.runCtlStartGroup k) s = .next (answered t 0x20 k .accepted [BitVec.ofNat 32 s.sch.cmdSeq])
          ∧ (∃ b ∈ t.map.barriers, b.id = (wd k.params 0).toNat ∧ b.join = false ∧ b.seq = wd k.params 1
              ∧ b.token = BitVec.ofNat 32 s.sch.cmdSeq)
          ∧ (∃ f ∈ t.map.waitQ, f.typ = .arrive ∧ f.dst = leaderOf s false
              ∧ f.payload = barrierPayload (wd k.params 1) (now s + (wd k.params 2).toNat))
          ∧ t.sch.run = .idle ∧ t.mem = s.mem ∧ t.jobs = s.jobs ∧ t.tb = s.tb ∧ t.fc = s.fc)))
  ∧ (∀ (k : Pkt) (idle : List (BitVec 16)) (s s0 : State), starts s 0x20 3 k = some s0 → (wd k.params 0).toNat < 65536 →
    1000000 ≤ (wd k.params 1).toNat →
    ((s.sch.run = .armed ∨ s.sch.run = .halted) → exec (.runCtlJoin k idle) s = .next (answered s0 0x20 k .wrongState []))
    ∧ (s.sch.run = .running → formed s = false → exec (.runCtlJoin k idle) s = .next (answered s0 0x20 k .notReady []))
    ∧ ((s.sch.run = .running ∨ (s.sch.run = .idle ∧ hasActive s = true ∧ s.saf.injFail = false ∧ anyFA s = false)) →
        formed s = true → leaderOf s true idle ≠ s.map.nodeId → ∃ t,
          exec (.runCtlJoin k idle) s = .next (answered t 0x20 k .accepted [BitVec.ofNat 32 s.sch.cmdSeq])
          ∧ (∃ b ∈ t.map.barriers, b.id = (wd k.params 0).toNat ∧ b.join = true ∧ b.token = BitVec.ofNat 32 s.sch.cmdSeq)
          ∧ (∃ f ∈ t.map.waitQ, f.typ = .arrive ∧ f.dst = leaderOf s true idle
              ∧ f.payload = barrierPayload s.sch.seq (now s + (wd k.params 1).toNat))
          ∧ t.sch.run = s.sch.run ∧ t.mem = s.mem ∧ t.jobs = s.jobs ∧ t.tb = s.tb ∧ t.fc = s.fc))

/-- Frames. From ARMED the run's first frame starts at the start time with the frame number given; in SLACK, with no
stop requested, the next frame starts a period after the last, with the next number; with a stop requested the run
ends there instead: IDLE, trust NOT_ARMED, outputs low. A frame starts in its compute phase with nothing arrived and
no verdict written (R13, R15 to R17, R370). At OUT_COMMIT the judging phase begins (R17). At SLACK_START the phase is
slack, the credit epoch turns, and a frame whose verdict record is missing gets one from timing supervision with trust
withdrawn for cause 3 (R17, R19, R221, R371). A frame start that does not come in time sets the fatal source 106: the
run halts, trust returns to NOT_ARMED, and the SAFE outputs are low (R389, R410). -/
def Obligations.FramesAndWatchdog : Prop :=
  ((∀ (s : State), s.sch.run = .armed → ∃ t, exec .frameStart s = .next t ∧ t.sch.run = .running
       ∧ t.sch.phase = .compute ∧ t.sch.seq = s.sch.firstSeq ∧ t.sch.t = s.sch.startAt ∧ t.sch.frames = s.sch.frames + 1
       ∧ t.sch.arrived = 0 ∧ t.hl.written = false ∧ t.sets.swapPending = (s.sets.swapPending && s.sets.swapSeq != s.sch.firstSeq))
   ∧ (∀ (s : State), s.sch.run = .running → s.sch.phase = .slack → s.sch.stopReq = false → ∃ t,
       exec .frameStart s = .next t ∧ t.sch.run = .running ∧ t.sch.phase = .compute ∧ t.sch.seq = s.sch.seq + 1
       ∧ t.sch.t = s.sch.t + ttPeriod (tide s) ∧ t.sch.frames = s.sch.frames + 1 ∧ t.sch.arrived = 0
       ∧ t.hl.written = false)
   ∧ (∀ (s : State), s.sch.run = .running → s.sch.phase = .slack → s.sch.stopReq = true → ∃ t,
       exec .frameStart s = .next t ∧ t.sch.run = .idle ∧ t.sch.phase = .none ∧ t.saf.trust = .notArmed
       ∧ t.pins.safeA = false ∧ t.pins.safeB = false ∧ t.sets.swapPending = false)
   ∧ (∀ (s : State), s.sch.run = .running → s.sch.phase = .compute → ∃ t, exec .outCommit s = .next t
       ∧ t.sch = { s.sch with phase := .judge }
       ∧ now t % (2 ^ 48 * 1000000000) = max (now s) (s.sch.t + ttOutCommit (tide s)) % (2 ^ 48 * 1000000000)
       ∧ t.mem = s.mem ∧ t.jobs = s.jobs ∧ t.fc = s.fc ∧ t.saf = s.saf ∧ t.hl = s.hl ∧ t.eng = s.eng)
   ∧ (∀ (s : State), s.sch.run ≠ .armed → (s.sch.run ≠ .running ∨ s.sch.phase ≠ .slack) → exec .frameStart s = .next s))
  ∧ ((∀ (s : State), s.sch.run = .running → (s.sch.phase = .compute ∨ s.sch.phase = .judge) → ∃ t,
         exec .slackStart s = .next t ∧ t.ms.epoch = !s.ms.epoch ∧ t.hl.written = true
         ∧ (s.hl.written = false → (s.saf.trust = .trusted ∨ s.saf.trust = .awaiting) →
             t.saf.wCause = 3 ∧ t.saf.wSeq = s.sch.seq ∧ t.pins.safeA = false ∧ t.pins.safeB = false)
         ∧ (t.sch.run = .running → t.sch.phase = .slack))
     ∧ (∀ (s : State), s.sch.run = .armed → s.fc.fsw.getLsbD 106 = false → ∃ t, exec .schedulerWatchdog s = .next t
         ∧ t.fc.fsw.getLsbD 106 = true ∧ t.sch.run = .halted ∧ t.sch.phase = .none ∧ t.saf.trust = .notArmed
         ∧ t.pins.safeA = false ∧ t.pins.safeB = false)
     ∧ (∀ (s : State), s.sch.run = .idle → exec .schedulerWatchdog s = .next s))

/-- RUN_JOB outside HALTED, with no fatal source, no replay running, an image and lists that control pair A reads without
poison and that pass their checks and fewer than 64 such jobs live, is accepted with the next token of its context,
CTX · 2^20 + SEQ, and its job begins; poison in them stops control pair A (R390); in
HALTED, or with a fatal source set, it is refused WRONG_STATE, for the context 0 or 0xFFF BAD_PARAM at word 2, and
with 64 jobs live NO_SPACE (R29, R36, R410, R463, R466). ABORT_JOB ends a live job of RUN_JOB or GUILT_REPLAY as
ABORTED in the CLK_ARR cycle after it, with its one completion record; a budget or a deadline that falls due by then ends
the job first, and the command is answered ALREADY_DONE with that outcome (R418). The token of a Tide Table job or of a command without a job is NOT_PERMITTED,
that of an ended job is answered ALREADY_DONE with its outcome, and one that nobody issued is refused BAD_PARAM (R35,
R418, R464). -/
def Obligations.RunAndAbortJob : Prop :=
  (∀ (k : Pkt) (t4 : Bool) (s s0 : State) (ctx a n : Nat), starts s 0x21 (b2n t4) k = some s0 →
     wd k.params 0 = BitVec.ofNat 32 ctx → ctx < 4096 → (wd k.params 1).toNat < 2 ^ 26 → wd k.params 3 ≠ 0 →
     (wd k.params 5).toNat < 65536 → a = (wd k.params 4).toNat + (wd k.params 5).toNat * 2 ^ 32 →
     n = (wd k.params 6).toNat →
     ((ctx = 0 ∨ ctx = 0xFFF) → exec (.runJob k t4) s = .next (answered s0 0x21 k .badParam [0, 2]))
     ∧ (ctx ≠ 0 → ctx ≠ 0xFFF →
       ((s.sch.run = .halted ∨ anyFA s = true) → exec (.runJob k t4) s = .next (answered s0 0x21 k .wrongState []))
       ∧ (s.sch.run ≠ .halted → anyFA s = false → replaying s = true →
           exec (.runJob k t4) s = .next (answered s0 0x21 k .busy []))
       ∧ (∀ (ecc : List (Nat × Ecc)) (u v : State) (p : Plan), s.sch.run ≠ .halted → anyFA s = false → replaying s = false →
           inDram s a n = true → u = readAll s0 srcPairA [(a, n)] ecc → p = parsePlan (s.mem.read a n) →
           v = readAll u srcPairA (planLists p) ecc →
           ((readsGood s0 srcPairA [(a, n)] ecc = false ∨ readsGood u srcPairA (planLists p) ecc = false) →
             ∃ t, exec (.runJob k t4 ecc) s = .next t ∧ t.rst.pairA = true)
           ∧ (readsGood s0 srcPairA [(a, n)] ecc = true → readsGood u srcPairA (planLists p) ecc = true →
             (∀ st x row i, imageBad v p = some (st, x, row, i) →
               exec (.runJob k t4 ecc) s = .next (settle s0 (answered v 0x21 k st (detail x row i))))
             ∧ (imageBad v p = none → 64 ≤ (s.jobs.filter (fun j => j.origin == .runJob)).length →
               exec (.runJob k t4 ecc) s = .next (settle s0 (answered v 0x21 k .noSpace [])))
             ∧ (∀ r, imageBad v p = none → (s.jobs.filter (fun j => j.origin == .runJob)).length < 64 →
               r = beginImage v p .runJob ctx (wd k.params 1).toNat (wd k.params 2).toNat (wd k.params 3).toNat k.port t4 →
               r.1 = BitVec.ofNat 32 (ctx * 2 ^ 20 + (takeCtx s.sch.ctxSeq ctx).1)
               ∧ exec (.runJob k t4 ecc) s = .next (settle s0 (answered r.2 0x21 k .accepted [r.1])))))))
  ∧ (∀ (k : Pkt) (s s0 : State) (tok : Word), starts s 0x22 0 k = some s0 → tok = wd k.params 0 →
       ((tideTok s tok = true ∨ tok.toNat < 2 ^ 20) → exec (.abortJob k) s = .next (answered s0 0x22 k .notPermitted []))
       ∧ (tideTok s tok = false → 2 ^ 20 ≤ tok.toNat →
         (∀ j u, jobOf s tok = some j → u = elapse s0 1 → ∀ B D : Bool,
             B = (!j.halted && decide (j.budget ≤ budgetUsed u j)) →
             D = (match deadlineAt u j with | some x => decide (x / 4 ≤ now u / 4) | none => false) →
             (B = false → D = false → ∃ t, exec (.abortJob k) s = .next t ∧ (inputStalled s 27 = false → jobOf t tok = none)
               ∧ t = settle s0 (answered (units (killJob u tok .aborted 27)) 0x22 k .ok []))
             ∧ (B = true → ∃ t, exec (.abortJob k) s = .next t ∧ (inputStalled s 26 = false → jobOf t tok = none)
               ∧ t.fc.fsw.getLsbD 104 = true ∧ (D = true → t.fc.fsw.getLsbD 105 = true)
               ∧ (portSt t k.port).lastReply = replyWords 0x22 .alreadyDone k.tag k.seq [BitVec.ofNat 32 JobEnd.killedBudget.code])
             ∧ (B = false → D = true → ∃ t, exec (.abortJob k) s = .next t ∧ (inputStalled s 26 = false → jobOf t tok = none)
               ∧ t.fc.fsw.getLsbD 105 = true
               ∧ (portSt t k.port).lastReply
                 = replyWords 0x22 .alreadyDone k.tag k.seq [BitVec.ofNat 32 JobEnd.killedDeadline.code]))
         ∧ (jobOf s tok = none → ∀ x, s.cmd.tokens.find? (fun y => y.token == tok) = some x →
             exec (.abortJob k) s = .next (answered s0 0x22 k .alreadyDone [BitVec.ofNat 32 (x.code % 16)]))
         ∧ (jobOf s tok = none → s.cmd.tokens.find? (fun y => y.token == tok) = none →
             exec (.abortJob k) s = .next (answered s0 0x22 k .badParam [0, 2]))))

/-- In RUNNING, before slack water, an S-class entry's reservation opens at its instant (R31). An entry that is the
first in the order of R28 among those whose start conditions hold starts, with the next token of its context, if it
reads nothing invalid, and is skipped else (R25, R28, R29, R34); control pair A reads its groups' prefetch lists, and poison
there stops it instead (R390). The ends of jobs by time. A job that reaches its budget
is killed with source 104, and 105 too if its deadline or time-out has come by then; one that reaches its deadline with
source 105, and 104 too if its budget ends with it; one of
RUN_JOB that reaches its time-out with source 105; none of them is live any more where the collector's input has room
(R421). An entry that has not started by its deadline is skipped: it ends SKIPPED_NO_START and sets no
source (R32, R33, R420). -/
def Obligations.JobsStartAndEndByTime : Prop :=
  ((∀ (s : State) (i : Nat) (x : TtStat) (e : List Word), s.sch.run = .running → s.sch.phase ≠ .slack →
       s.sch.tt[i]? = some x → e = (tide s).entries.getD i [] → teSClass e = true → teRsv e ≠ 0 → x.ended = none →
       x.rsvOpen = false → ∃ t, exec (.reservationOpen i) s = .next t
         ∧ t.sch = { s.sch with tt := setAt s.sch.tt i { x with rsvOpen := true } }
         ∧ t.tb = (passTo s (s.sch.t + teRsvOpen e)).tb ∧ t.mem = s.mem ∧ t.eng = s.eng ∧ t.saf = s.saf)
   ∧ (∀ (s : State) (i : Nat), (s.sch.run ≠ .running ∨ s.sch.phase = .slack) →
       exec (.reservationOpen i) s = .next s ∧ exec (.jobStart i) s = .next s)
   ∧ (∀ (s s1 : State) (i : Nat) (e : List Word), s.sch.run = .running → (s.sch.phase = .compute ∨ s.sch.phase = .judge) →
       e = (tide s).entries.getD i [] → s1 = (if teMode e = 1 then s else passTo s (s.sch.t + teStart e)) →
       canStart s1 i = true → firstToStart s1 i = true →
       (entrySkipped s1 i = false → readsGood s1 srcPairA (entryLists s1 i) [] = true → ∃ t, exec (.jobStart i) s = .next t
         ∧ t = settleUnits s (startEntry (readAll s1 srcPairA (entryLists s1 i) []) i)
         ∧ (t.sch.run = .running → ∃ y, t.sch.tt[i]? = some y
           ∧ y.token = some (BitVec.ofNat 32 (teCtx e * 2 ^ 20 + (takeCtx s.sch.ctxSeq (teCtx e)).1))))
       ∧ (entrySkipped s1 i = false → readsGood s1 srcPairA (entryLists s1 i) [] = false →
         ∃ t, exec (.jobStart i) s = .next t ∧ t.rst.pairA = true)
       ∧ (entrySkipped s1 i = true → ∃ t, exec (.jobStart i) s = .next t
         ∧ t = settleUnits s (skipEntry s1 i .skippedUpstream))))
  ∧ ((∀ (s : State) (tok : Word) (j : Job), jobOf s tok = some j → j.halted = false → j.startClk + j.paused ≤ s.clk →
         inputStalled s 26 = false →
         ∃ t, exec (.jobBudgetExpire tok) s = .next t ∧ jobOf t tok = none ∧ t.fc.fsw.getLsbD 104 = true
           ∧ (∀ x, deadlineAt s j = some x → x ≤ now s → now (elapse s (j.budget - budgetUsed s j)) = now s
                + 4 * (j.budget - budgetUsed s j) → t.fc.fsw.getLsbD 105 = true))
     ∧ (∀ (s : State) (tok : Word) (j : Job) (i due : Nat) (x : TtStat), s.sch.run = .running → s.sch.tt[i]? = some x →
         x.ended = none → x.token = some tok → inputStalled s 26 = false → j.origin = .tide → j.jobId = i →
         due = s.sch.t + teDeadline ((tide s).entries.getD i []) → due < 2 ^ 48 * 1000000000 →
         jobOf s tok = some j → ∃ t, exec (.jobDeadline i) s = .next t ∧ jobOf t tok = none ∧ t.fc.fsw.getLsbD 105 = true
           ∧ (j.halted = false → j.budget ≤ budgetUsed (passTo s due) j → t.fc.fsw.getLsbD 104 = true))
     ∧ (∀ (s : State) (i : Nat) (x : TtStat), s.sch.run = .running → s.sch.tt[i]? = some x → x.ended = none →
         x.token = none → inputStalled s 26 = false → (∀ j ∈ s.jobs, j.jobId ≠ i) → ∃ t y, exec (.jobDeadline i) s = .next t ∧ t.sch.tt[i]? = some y
           ∧ y.token = none ∧ y.rsvOpen = false ∧ (t.sch.run = .running → y.ended = some .skippedNoStart))
     ∧ (∀ (s : State) (tok : Word) (j : Job) (at_ : Nat), jobOf s tok = some j → j.timeoutAt = some at_ →
         j.origin ≠ .tide → at_ < 2 ^ 48 * 1000000000 → inputStalled s 26 = false →
         ∃ t, exec (.runJobTimeout tok) s = .next t ∧ jobOf t tok = none ∧ t.fc.fsw.getLsbD 105 = true))

/-- A free engine takes the first item of R28 that fits it: the attempt is the engine's, under its job's token; with a
partner named both engines take it, one as the writer. With no transfer under way before, its stream unit begins to bring
the operands, which changes no memory but the Ledges' staging. An item that reads a sensor frame that was not delivered
ends its job KILLED_UPSTREAM, where the collector's input has room (R28, R83, R84, R93, R242, R276, R421). -/
def Obligations.Dispatch : Prop :=
  (∀ (s : State) (e : Nat) (e2 : Option Nat) (j : Job) (n : Nat) (i : Item), pickItem s e e2 = some (j, n) →
    j.items[n]? = some i → e < s.eng.length → (∀ f, e2 = some f → f < s.eng.length ∧ f ≠ e) →
    itemUndelivered s j.plan i = false → s.ms.xfers = [] → poolsFit s.cr.pools = true →
    ∃ t a, exec (.tileDispatch e e2) s = .next t ∧ (engOf t e).arr = some a ∧ a.token = j.token ∧ a.item = n
      ∧ a.partner = e2 ∧ a.writer = true ∧ a.stopping = false
      ∧ (∀ f, e2 = some f → ∃ b, (engOf t f).arr = some b ∧ b.token = j.token ∧ b.item = n ∧ b.partner = some e
          ∧ b.writer = false)
      ∧ t.sch.run = s.sch.run ∧ t.cmd = s.cmd ∧ t.fc = s.fc ∧ (∀ x ∈ t.ms.xfers, x.use.isOperand = true)
      ∧ (∀ x, isLedge x = false → t.mem.get x = s.mem.get x))
  ∧ (∀ (s : State) (e : Nat) (e2 : Option Nat) (j : Job) (n : Nat) (i : Item), pickItem s e e2 = some (j, n) →
    j.items[n]? = some i → itemUndelivered s j.plan i = true → inputStalled s 26 = false →
    ∃ t, exec (.tileDispatch e e2) s = .next t ∧ jobOf t j.token = none)

/-- The drain of a tile ends, what the engine's decoders found being counted. An attempt that was told to stop leaves a
DISCARDED record and its engine, its drain being completed if it had left the array by then (log 44 says when a lone tile
has); one whose operands are poisoned, or have an uncorrectable word in the engine, sets the engine's
source and ends its job KILLED_POISON where the collector's input has room (R421), as does an uncorrectable word of the
Basin; any other is compared with its checking
lanes, its upset lanes included, its output drained, and a comparison that fails sets the engine's source (R80 to R83,
R91 to R93, R229, R232). A held stream goes on when its data are there: transfers that waited for the drift ring are held
no longer once it is in place; a stream that waits for a page goes on at that page once it is fetched, and stays halted
until then (R196, R244). The fallback decision of a layer, once every tile of it stands: with no more events than its
threshold the layer is decided and stands; with more it has fallen back, and the job's substitutions are in force, unless
control pair A, which reads the layer's lists, meets poison in them and stops (R122, R125, R126, R390). -/
def Obligations.TilesHoldsAndFallbacks : Prop :=
  (∀ (s : State) (e cycles : Nat) (ups : List (Nat × Nat × Word)) (errs : List EngErr) (a : Attempt), e < 16 →
     endingAttempt s e = some a → a.done = none → (engOf s e).kat = none →
     (∀ s1 k, a.stopping = true → s1 = noteErrs (elapse s cycles) e a errs →
         k = s.fc.hJobs.findSome? (fun k => if k.token == a.token then k.items[a.item]? else none) →
         (k.all (fun i => !pastArray s e a i || a.poison || bufferBad a errs) = true →
           exec (.tileDrainEnd e cycles ups errs) s = .next (settleUnits s (discard s1 e a))
           ∧ (discard s1 e a).saf.tIdx = (ringNext 32768 17 s.saf.tIdx s.saf.tWraps).1)
         ∧ (∀ i b o c, k = some i → pastArray s e a i = true → a.poison = false → bufferBad a errs = false →
           b = ups.foldl upsetLane a.basin → o = drainTile (viewOf s1 a.data) i.ds b → c = checkTile a.desc b →
           exec (.tileDrainEnd e cycles ups errs) s = .next (settleUnits s (stopTile s1 e cycles a
             { writes := o.1, mism := c.1, wrap := c.2, sat := o.2 + c.2 } (basinBad a errs)))))
     ∧ (∀ j i s1, a.stopping = false → ((engOf s e).drn.isSome = true ∨ operandsOut s e = false) →
         jobOf s a.token = some j → j.items[a.item]? = some i → s1 = noteErrs (elapse s cycles) e a errs →
         ((a.poison = true ∨ bufferBad a errs = true ∨ basinBad a errs = true) → inputStalled s e = false →
             ∃ t, exec (.tileDrainEnd e cycles ups errs) s = .next t ∧ jobOf t a.token = none
               ∧ t.fc.fsw.getLsbD (32 + e) = true)
         ∧ (a.poison = false → bufferBad a errs = false → basinBad a errs = false → ∀ b o c,
             b = ups.foldl upsetLane a.basin → o = drainTile (viewOf s1 a.data) i.ds b → c = checkTile a.desc b →
             ∃ t, exec (.tileDrainEnd e cycles ups errs) s = .next t
             ∧ t = settleUnits s (endRun s1 e a i { writes := o.1, mism := c.1, wrap := c.2, sat := o.2 + c.2 })
             ∧ (c.1 = true → t.fc.fsw.getLsbD e = true))))
  ∧ (∀ (s : State) (e : Nat) (ecc : List (Nat × Ecc)), ∃ s1, exec (.streamResume e ecc) s =
         .next (settleUnits s (if e = 20 ∨ e = 21 then stepPages s1 e (eccFor ecc) else s1))
       ∧ ((engOf s e).arr = none → s1.ms.xfers = s.ms.xfers.map (fun x =>
           if x.unit = e ∧ (isLedge x.src = false ∨ (s.ms.shiftOn = false ∧ s.ms.shiftQ = [] ∧ s.ms.resLoaded = true))
           then { x with held := false } else x))
       ∧ (∀ a p r, (engOf s e).arr = some a → a.todo = p :: r → a.stopping = false → a.hold = true →
           (entState (kvEnt s (kvHdr s p.seq) p.ent) = 3 → s1.eng = s.eng)
           ∧ (entState (kvEnt s (kvHdr s p.seq) p.ent) ≠ 3 → ∃ b, (engOf s1 e).arr = some b ∧ b.token = a.token
             ∧ b.item = a.item ∧ b.queue = a.queue ∧ b.todo.length < a.todo.length
             ∧ (engOf s1 e).holdCyc = satAdd 0xFFFF_FFFF (engOf s e).holdCyc (s.clk - a.holdClk)))
       ∧ (∀ a, (engOf s e).arr = some a → a.hold = false → s1.eng = s.eng) ∧ s1.mem = s.mem ∧ s1.jobs = s.jobs)
  ∧ (∀ (s : State) (tok : Word) (layer : BitVec 16) (ecc : List (Nat × Ecc)) (j : Job) (its : List Item) (cnt : LayerCnt),
       readsGood s srcPairA (fallLists s j layer.toNat) ecc = true → jobOf s tok = some j → decisionDue j layer.toNat = true →
       its = j.items.filter (fun i => itemFb i && i.desc.layer == layer.toNat) →
       j.layers.find? (fun l => l.layer == layer.toNat) = some cnt →
       ∃ t, exec (.fallbackDecision tok layer ecc) s = .next t
         ∧ (∀ k, jobOf t tok = some k → ∃ l ∈ k.layers, l.layer = layer.toNat ∧ l.decided = true
             ∧ (l.fell = true ↔ (cnt.fell = true ∨ mdThresh ((its.headD default).desc) < cnt.count)))
         ∧ (mdThresh ((its.headD default).desc) < cnt.count → (jobOf t tok).isSome = true → (∀ x ∈ s.jobs, x.token ≠ 0) →
             ∀ c ∈ substsOf s (ownerOf j) j.plan layer.toNat, c ∈ t.sch.subst))
  ∧ (∀ (s : State) (tok : Word) (layer : BitVec 16) (ecc : List (Nat × Ecc)) (j : Job), jobOf s tok = some j →
       decisionDue j layer.toNat = true → readsGood s srcPairA (fallLists s j layer.toNat) ecc = false →
       ∃ t, exec (.fallbackDecision tok layer ecc) s = .next t ∧ t.rst.pairA = true)

/-- A run of a vector, warp, crop, point-cloud or sort task ends, what the engine's decoders found being counted: a stopped
attempt leaves a DISCARDED record and its engine, one with poisoned inputs or an uncorrectable word in its buffers sets its engine's source and ends its job, any
other ends its run with the outputs that its descriptor computes (R93, R152, R166, R170, R207, R232). Poison that reaches
any engine before the end does so too. An attention task ends once its walks are granted and every page has been emitted
and consumed; one whose STATS are of another version ends its job (R188, R194, R195); an APPEND that finds its frames ends
its run with control pair A's work on its sequence (R196). A job ends so where the collector's input has room (R421). -/
def Obligations.TasksEnd : Prop :=
  (∀ (s : State) (e cycles : Nat) (ups : List (Nat × Byte)) (errs : List EngErr) (a : Attempt), 16 ≤ e → e < 26 → e ≠ 20 →
    e ≠ 21 → (engOf s e).arr = some a → a.done = none → (engOf s e).kat = none →
    (a.stopping = true → exec (.taskEnd e cycles ups errs) s =
        .next (settleUnits s (discard (noteErrs (elapse s cycles) e a errs) e a)))
    ∧ (a.stopping = false → operandsOut s e = true → exec (.taskEnd e cycles ups errs) s = .next s)
    ∧ (∀ j i s1, a.stopping = false → operandsOut s e = false → jobOf s a.token = some j → j.items[a.item]? = some i →
        s1 = noteErrs (elapse s cycles) e a errs →
        ((a.poison = true ∨ bufferBad a errs = true) → inputStalled s e = false → ∃ t, exec (.taskEnd e cycles ups errs) s = .next t
            ∧ jobOf t a.token = none ∧ t.fc.fsw.getLsbD (ucSource e) = true)
        ∧ (a.poison = false → bufferBad a errs = false → ∀ o, o = taskRun (viewOf s1 a.data) j.plan i.desc →
            exec (.taskEnd e cycles ups errs) s = .next (settleUnits s (endRun s1 e a i
              { writes := applyUpsets o.1 ups, mism := false, wrap := 0, sat := o.2 })))))
  ∧ (∀ (s : State) (e : Nat) (a : Attempt) (j : Job) (i : Item), e < 26 → (engOf s e).arr = some a →
      a.stopping = false → jobOf s a.token = some j → j.items[a.item]? = some i →
      (a.poison = true → inputStalled s e = false →
        ∃ t, exec (.operandPoisonConsumed e) s = .next t ∧ jobOf t a.token = none ∧ t.fc.fsw.getLsbD (ucSource e) = true)
      ∧ (a.poison = false → exec (.operandPoisonConsumed e) s = .next s))
  ∧ (∀ (s : State) (e cycles : Nat) (ups : List (Nat × Byte)) (errs : List EngErr) (ecc : List (Nat × Ecc)) (a : Attempt),
    (e = 20 ∨ e = 21) → (engOf s e).arr = some a → a.done = none → (engOf s e).kat = none →
    (a.stopping = true → exec (.attentionTaskEnd e cycles ups errs ecc) s =
        .next (settleUnits s (discard (noteErrs (elapse s cycles) e a errs) e a)))
    ∧ (a.stopping = false → a.poison = false → (a.hold = true ∨ operandsOut s e = true ∨ walkOver s e a = false) →
        exec (.attentionTaskEnd e cycles ups errs ecc) s = .next s)
    ∧ (∀ j i, a.stopping = false → a.poison = true → jobOf s a.token = some j → j.items[a.item]? = some i →
        inputStalled s e = false → ∃ t, exec (.attentionTaskEnd e cycles ups errs ecc) s = .next t ∧ jobOf t a.token = none
          ∧ t.fc.fsw.getLsbD (ucSource e) = true)
    ∧ (∀ j i s1, a.stopping = false → a.poison = false → a.hold = false → operandsOut s e = false →
        walkOver s e a = true → jobOf s a.token = some j → j.items[a.item]? = some i →
        s1 = noteErrs (elapse s cycles) e a errs →
        (bufferBad a errs = true → inputStalled s e = false → ∃ t, exec (.attentionTaskEnd e cycles ups errs ecc) s = .next t
            ∧ jobOf t a.token = none ∧ t.fc.fsw.getLsbD (ucSource e) = true)
        ∧ (bufferBad a errs = false → adOp i.desc ≠ 5 → ∀ o, o = attRun (viewOf s1 a.data) i.desc a.version →
            (o.stale = false → exec (.attentionTaskEnd e cycles ups errs ecc) s = .next (settleUnits s (endRun s1 e a i
              { writes := applyUpsets o.writes ups, mism := false, wrap := 0, sat := o.sat })))
            ∧ (o.stale = true → inputStalled s 26 = false → ∃ t, exec (.attentionTaskEnd e cycles ups errs ecc) s = .next t
              ∧ jobOf t a.token = none))
        ∧ (bufferBad a errs = false → adOp i.desc = 5 → s.rst.pairA = false →
            (doAppend s1 i.desc false (eccFor ecc)).isSome = true →
            kvDirty (kvRead s1 [adSeq i.desc] ecc) [adSeq i.desc] = false →
            exec (.attentionTaskEnd e cycles ups errs ecc) s = .next (settleUnits s (endRun (kvRead s1 [adSeq i.desc] ecc) e a i
              { writes := if ups.isEmpty then [] else [(0, ups.map (fun u => u.2))]
                mism := false, wrap := 0, sat := 0, ecc := ecc })))))

/-- The completion collector takes the oldest record of an input into the ring at WR and advances WR modulo 256,
counting its wraps; with the ring full the input stalls and nothing is taken; a record whose token is not live sets
the fatal source 82 (R45, R46, R421, R423). Control pair A reads and consumes the record at RD, unless it comes uncorrectable,
which stops the pair; an empty ring and a stopped pair leave RD (R423, R390). Ends that waited for room follow (R421), and
where nothing else is due, and no credit pool has had more returned than issued, nothing else changes (R220). -/
def Obligations.CompletionRing : Prop :=
  (∀ (s : State) (inp : Nat) (x : Nat × CRec), s.fc.skid.find? (fun y => y.1 == inp) = some x →
    (ringFull s = true → ∀ t, t = { s with fc := { s.fc with stall := satAdd 0xFFFF_FFFF s.fc.stall 1 } } →
        exec (.completionRecordCollect inp) s = .next (settleUnits s (commitWaits t))
        ∧ (calm s = true → exec (.completionRecordCollect inp) s = .next t))
    ∧ (ringFull s = false → x.2.outcome ≠ .skippedNoStart → x.2.outcome ≠ .skippedUpstream →
        s.rst.liveToks.contains x.2.token = true →
        ∃ t, exec (.completionRecordCollect inp) s = .next (settleUnits s (commitWaits t))
          ∧ (calm s = true → exec (.completionRecordCollect inp) s = .next t)
          ∧ t.mem = (storeWords s (0x083F_8000 + 16 * s.fc.cWr) (crecWords x.2)).mem
          ∧ t.fc.cWr = (if s.fc.cWr + 1 = 256 then 0 else s.fc.cWr + 1)
          ∧ t.fc.cWraps = (if s.fc.cWr + 1 = 256 then (s.fc.cWraps + 1) % 2 ^ 16 else s.fc.cWraps)
          ∧ t.fc.cRd = s.fc.cRd ∧ t.fc.skid.length + 1 = s.fc.skid.length
          ∧ t.rst.liveToks.contains x.2.token = false
          ∧ (x.2.outcome = .done → t.sch.endsDone = satAdd 0xFFFF s.sch.endsDone 1 ∧ t.sch.endsNot = s.sch.endsNot)
          ∧ (x.2.outcome ≠ .done → t.sch.endsNot = satAdd 0xFFFF s.sch.endsNot 1 ∧ t.sch.endsDone = s.sch.endsDone)
          ∧ t.fc.fsw = s.fc.fsw ∧ t.jobs = s.jobs)
    ∧ (ringFull s = false → x.2.outcome ≠ .skippedNoStart → x.2.outcome ≠ .skippedUpstream →
        s.rst.liveToks.contains x.2.token = false →
        ∃ t, exec (.completionRecordCollect inp) s = .next t ∧ t.fc.fsw.getLsbD 82 = true))
  ∧ (∀ (s : State) (ecc : List (Nat × Ecc)), (s.rst.pairA = true ∨ s.fc.cRd = s.fc.cWr) →
      exec (.completionRecordConsume ecc) s = .next s)
  ∧ (∀ (s : State) (ecc : List (Nat × Ecc)) (rs : List (Nat × Nat)), s.rst.pairA = false → s.fc.cRd ≠ s.fc.cWr →
      rs = [(0x083F_8000 + 16 * s.fc.cRd, 16)] →
      (readsGood s srcPairA rs ecc = true → ∀ u, u = readAll s srcPairA rs ecc →
        exec (.completionRecordConsume ecc) s
          = .next (settleUnits s (commitWaits { u with fc := { u.fc with cRd := (s.fc.cRd + 1) % 256 } }))
        ∧ (calm s = true → ecc = [] → poolsFit s.cr.pools = true → ∃ t, exec (.completionRecordConsume ecc) s = .next t
          ∧ onlyReads { s with fc := { s.fc with cRd := (s.fc.cRd + 1) % 256 } } t))
      ∧ (readsGood s srcPairA rs ecc = false → ∃ t, exec (.completionRecordConsume ecc) s = .next t ∧ t.rst.pairA = true
        ∧ t.fc.cRd = s.fc.cRd))

/-- KV_MAP of an unmapped sequence whose header passes R204 clears its entries' run and writes its header, with the
place of the run in it; a mapped one answers WRONG_STATE and a bad field BAD_PARAM at its word. KV_UNMAP of a mapped
sequence without locks ends its copies and clears its header; a locked one answers BUSY, an unmapped one BAD_PARAM.
KV_EDIT applies its edits in order to a mapped sequence without locks, all or none (R204 to R206). That is so while no
byte of CSRAM is uncorrectable; a KV_UNMAP that finds such a byte in its header, standing or new, detects it and stops control pair A (R233). -/
def Obligations.KvCommands : Prop :=
  (∀ (k : Pkt) (s s0 : State) (w : List Word) (id : Nat), starts s 0x30 0 k = some s0 → w = k.params.take 7 →
    id = (wd w 0).toNat % 64 →
    (∀ i, kvBadWord w = some i → exec (.kvMap k) s = .next (answered s0 0x30 k .badParam [0, BitVec.ofNat 32 i]))
    ∧ (s.csramBad = [] → kvBadWord w = none → kvMapped (kvHdr s id) = true →
        exec (.kvMap k) s = .next (answered s0 0x30 k .wrongState []))
    ∧ (s.csramBad = [] → kvBadWord w = none → kvMapped (kvHdr s id) = false → kvBadMap s w = none →
        (findRun s (kvE w) = none → exec (.kvMap k) s = .next (answered s0 0x30 k .noSpace []))
        ∧ (∀ b, findRun s (kvE w) = some b → exec (.kvMap k) s = .next (answered
            (storeWords (clearMem s0 b (8 * kvE w)) (hdrAddr id) (w ++ [0, 0, 0, BitVec.ofNat 32 b, 0, 0, 0, 0, 1]))
            0x30 k .ok []))))
  ∧ (∀ (k : Pkt) (s s0 : State) (id : Nat) (ecc : List (Nat × Ecc)), starts s 0x31 0 k = some s0 →
    (wd k.params 0).toNat = id → id < 64 →
    ((∃ b ∈ s.csramBad, hdrAddr id ≤ b ∧ b < hdrAddr id + 64)
      ∨ ∃ x ∈ ecc, x.2 = .uncorrectable ∧ hdrAddr id ≤ x.1 ∧ x.1 < hdrAddr id + 64) →
    ∃ t, exec (.kvUnmap k ecc) s = .next t ∧ t.rst.pairA = true ∧ t.fc.fsw.getLsbD 75 = true)
  ∧ (∀ (k : Pkt) (s s0 : State) (id : Nat), starts s 0x31 0 k = some s0 → (wd k.params 0).toNat = id → id < 64 →
    s.csramBad = [] →
    (kvMapped (kvHdr s id) = true → kvLocked (kvHdr s id) = true →
        exec (.kvUnmap k) s = .next (answered s0 0x31 k .busy []))
    ∧ (kvMapped (kvHdr s id) = false → exec (.kvUnmap k) s = .next (answered s0 0x31 k .badParam [0, 2]))
    ∧ (kvMapped (kvHdr s id) = true → kvLocked (kvHdr s id) = false → s.kv.spills = [] → s.kv.fetches = [] →
        exec (.kvUnmap k) s = .next (answered (clearMem s0 (hdrAddr id) 64) 0x31 k .ok [])))
  ∧ (∀ (k : Pkt) (s s0 : State) (id : Nat), starts s 0x32 0 k = some s0 → (wd k.params 0).toNat = id → id < 64 →
    s.csramBad = [] → editBadWord (k.params.drop 1) 3 = none →
    (kvMapped (kvHdr s id) = true → kvLocked (kvHdr s id) = true →
        exec (.kvEdit k) s = .next (answered s0 0x32 k .busy []))
    ∧ (kvMapped (kvHdr s id) = true → kvLocked (kvHdr s id) = false →
        (∀ i, editAll id (k.params.drop 1) 3 s0 = .error i →
          exec (.kvEdit k) s = .next (answered s0 0x32 k .badParam [0, BitVec.ofNat 32 i]))
        ∧ (∀ s1, editAll id (k.params.drop 1) 3 s0 = .ok s1 →
          exec (.kvEdit k) s = .next (answered (fixPoisonPages (bumpHdr s1 id 7) id) 0x32 k .ok []))))

/-- A walk whose turn at a sequence has come takes its lock, shared by readers and alone for an APPEND, and begins
once it holds all its locks; one that names what the sequence lacks ends its job instead (R195, R207), unless its end waits for room in the collector (R421). A page fetch
ends with the page in its frame, clean, and counted; a spill leaves the page in its home, or, if it was pinned
meanwhile, clean in its frame (R196, R207). Copies that are not in flight do nothing. That is so while control pair A runs
and no byte of CSRAM is uncorrectable (R233). -/
def Obligations.WalksAndPages : Prop :=
  (∀ (s : State) (id k : Nat) (w : Walk) (a : Attempt) (j : Job) (i : Item), grantable s id = some w →
    s.rst.pairA = false → s.csramBad = [] →
    (engOf s w.e).arr = some a → jobOf s a.token = some j → j.items[a.item]? = some i →
    s.kv.walks.findIdx? (fun x => x.seqId == id && !x.granted) = some k →
    (attBad s i.desc = true → inputStalled s 26 = false →
        ∃ t, exec (.walkLockGrant id) s = .next t ∧ jobOf t a.token = none)
    ∧ (attBad s i.desc = false → ∀ s1, s1 = setHdr s id 8 (kvWord8 (kvHead (kvHdr s id))
          (kvLockCount (kvHdr s id) + b2n (!w.append)) true w.append) →
        exec (.walkLockGrant id) s = .next (settleUnits s (startWalk { s1 with kv := { s1.kv with
          walks := modAt s1.kv.walks k (fun x => { x with granted := true }) } } w.e))))
  ∧ (∀ (s : State) (id e : Nat) (h x : List Word) (ecc : List Ecc), (id, e) ∈ s.kv.fetches → h = kvHdr s id →
      x = kvEnt s h e → entState x = 3 → s.rst.pairA = false → s.csramBad = [] → ∀ s1, s1 = { s with kv := { s.kv with fetches := s.kv.fetches.filter (fun y => y != (id, e)) } } →
      exec (.pageFetchDone id e ecc) s = .next (settle s (setEnt
        (bumpHdr (copyBytes s1 (homeAddr h e) (frameAddr h (entFrame x)) (pageBytes h) ecc) id 12)
        h e (entWord 1 (entPinned x) (entPoison x) true (entFrame x)) (wd x 1))))
  ∧ (∀ (s : State) (id e : Nat) (h x : List Word) (ecc : List Ecc), (id, e) ∈ s.kv.spills → h = kvHdr s id →
      x = kvEnt s h e → entState x = 1 → s.rst.pairA = false → s.csramBad = [] →
      ∀ s1, s1 = copyHome { s with kv := { s.kv with
        spills := s.kv.spills.filter (fun y => y != (id, e))
        kept := s.kv.kept.filter (fun y => y != (id, e)) } } id h e ecc →
      exec (.pageSpillDone id e ecc) s = .next (settle s (if (id, e) ∈ s.kv.kept ∨ entPinned x = true
        then setEnt s1 h e (entWord 1 (entPinned x) (entPoison x) true (entFrame x)) (wd x 1)
        else setEnt s1 h e (entWord 2 false (entPoison x) true 0) (wd x 1))))
  ∧ (∀ (s : State) (id e : Nat) (ecc : List Ecc), s.csramBad = [] →
      ((id, e) ∉ s.kv.fetches → exec (.pageFetchDone id e ecc) s = .next s)
      ∧ ((id, e) ∉ s.kv.spills → exec (.pageSpillDone id e ecc) s = .next s))

/-- Responses of the fabric. A response to an outstanding request returns its credits and closes it; a late one to a
request that timed out is dropped and counted, one to a request of a domain since reset sets source 84, and a response
to nothing outstanding is a credit violation (R219 to R222). A time-out closes the request, counts, and sets source
83; a write of a task's output or of a prefetched row that times out ends its job (where the collector's input has room, R421), and a sensor frame in reception that
loses a write is dropped (R219, R232, R277). At its check of the old epoch, a credit pool with nothing of that epoch
outstanding compares the counts it issued and returned and clears them; a difference is a credit violation, the fatal
source 82; while a request to its destination, a read over its ring link or a transfer of its stream unit is outstanding
from that epoch the pool waits (R220, R221). -/
def Obligations.FabricCreditsAndEpochs : Prop :=
  ((∀ (s : State) (id : Nat) (r : Req) (ecc : List Ecc) (also : List (Nat × Ecc)), reqOf s id = some r →
     id < s.ms.nextReq → ∃ t, exec (.fabricResponse id ecc also) s = .next t ∧ reqOf t id = none
       ∧ (∀ i q, r.purpose = .ingress i q → t = settleUnits s (pumpPorts (giveCredit (dropReq s id) r))))
   ∧ (∀ (s : State) (id : Nat) (ecc : List Ecc) (also : List (Nat × Ecc)) (s1 : State), reqOf s id = none →
       (∃ r ∈ s.cr.timedOut, r.id = id) →
       s1 = { s with
         cr := { s.cr with timedOut := s.cr.timedOut.filter (fun r => r.id != id) }
         ms := { s.ms with lateDrop := satAdd 0xFFFF s.ms.lateDrop 1 } } →
       exec (.fabricResponse id ecc also) s = .next (settleUnits s s1) ∧ exec (.lateResponse id) s = .next s1)
   ∧ (∀ (s : State) (id : Nat), (∀ r ∈ s.cr.timedOut, r.id ≠ id) → (∃ r ∈ s.cr.reclaimed, r.id = id) →
       ∃ t, exec (.lateResponse id) s = .next t ∧ t.fc.fsw.getLsbD 84 = true
         ∧ t.cr.reclaimed = s.cr.reclaimed.filter (fun r => r.id != id) ∧ t.ms = s.ms ∧ t.sch = s.sch)
   ∧ (∀ (s : State) (id : Nat) (ecc : List Ecc) (also : List (Nat × Ecc)), reqOf s id = none →
       (∀ r ∈ s.cr.timedOut, r.id ≠ id) →
       (∀ r ∈ s.cr.reclaimed, r.id ≠ id) → ∃ t, exec (.fabricResponse id ecc also) s = .next t ∧ t.fc.fsw.getLsbD 82 = true)
   ∧ (∀ (s : State) (id : Nat) (r : Req), reqOf s id = some r → ∃ t, exec (.fabricTimeout id) s = .next t
       ∧ t.ms.timeouts = satAdd 0xFFFF s.ms.timeouts 1 ∧ t.fc.fsw.getLsbD 83 = true
       ∧ (∀ n off x, r.purpose = .xfer n off → r.write = true → xferOf s n = some x →
           inputStalled s x.unit = false → jobOf t x.use.token = none)
       ∧ (∀ i q f, r.purpose = .ingress i q → (streamOf s i).cur = some f → f.seq = q → (streamOf t i).cur = none)))
  ∧ (∀ (s : State) (n : Nat) (p : Pool), s.cr.pools[n]? = some p →
       ((p.kind ≠ .ring → p.kind ≠ .stream → (∃ r ∈ s.ms.reqs, r.src = p.src ∧ r.kind = p.kind ∧ r.idx = p.idx
            ∧ r.epoch ≠ s.ms.epoch) → exec (.creditEpochCheck n) s = .next s)
       ∧ (p.kind = .ring → (∃ r ∈ s.ms.reqs, p.idx ∈ r.links ∧ r.epoch ≠ s.ms.epoch) →
            exec (.creditEpochCheck n) s = .next s)
       ∧ (p.kind = .stream → (∃ x ∈ s.ms.xfers, x.begun = true ∧ x.unit = p.idx ∧ x.epoch ≠ s.ms.epoch) →
            exec (.creditEpochCheck n) s = .next s)
       ∧ (poolOld s p = false →
         (s.ms.epoch = true → p.iss0 = p.ret0 → exec (.creditEpochCheck n) s = .next { s with cr := { s.cr with
             pools := setAt s.cr.pools n { p with iss0 := 0, ret0 := 0 } } })
         ∧ (s.ms.epoch = false → p.iss1 = p.ret1 → exec (.creditEpochCheck n) s = .next { s with cr := { s.cr with
             pools := setAt s.cr.pools n { p with iss1 := 0, ret1 := 0 } } })
         ∧ (s.ms.epoch = true → p.iss0 ≠ p.ret0 → ∃ t, exec (.creditEpochCheck n) s = .next t
             ∧ t.fc.fsw.getLsbD 82 = true)
         ∧ (s.ms.epoch = false → p.iss1 ≠ p.ret1 → ∃ t, exec (.creditEpochCheck n) s = .next t
             ∧ t.fc.fsw.getLsbD 82 = true))))

/-- SCRUB_RANGE of a range in one store, with fewer than four passes queued, is accepted with a token and joins the
queue; four queued passes answer BUSY, and a wrong range BAD_PARAM at its word (R237). The pass at the head resumes where
R239 lets it. A unit check of a running pass advances it by one 64-byte unit, counting a unit of usable DRAM that it
corrects or finds uncorrectable; the last unit takes the pass off the queue with its token over; without a running pass,
and with the clocks stopped, it does nothing (R238 to R240, R525).
The drift ring. With no ring read outstanding the first requested shift starts; when it ends the slices have moved
that many links, the phase has advanced by as many modulo 16, and the request is gone; an end without a shift that runs
does nothing. The resident image, once loaded, stands with phase 0, every Ledge holding its slice of the image
(R253, R254, R264); nothing else of the fabric changes but counts and sources that its reads bring. -/
def Obligations.ScrubAndDrift : Prop :=
  ((∀ (k : Pkt) (s s0 : State) (a n : Nat), starts s 0x50 0 k = some s0 → (wd k.params 1).toNat < 65536 →
     a = (wd k.params 0).toNat + (wd k.params 1).toNat * 2 ^ 32 → a % 64 = 0 → n = (wd k.params 2).toNat → 0 < n →
     (4 ≤ s.ms.scrubs.length → exec (.scrubRange k) s = .next (answered s0 0x50 k .busy []))
     ∧ (s.ms.scrubs.length < 4 → inOneStore s a (64 * n) = false →
           exec (.scrubRange k) s = .next (answered s0 0x50 k .badParam [0, 2]))
     ∧ (s.ms.scrubs.length < 4 → inOneStore s a (64 * n) = true → ∃ t, exec (.scrubRange k) s = .next
           (answered t 0x50 k .accepted [BitVec.ofNat 32 s.sch.cmdSeq])
         ∧ t.cmd = (issueCmd s0 k.port).2.cmd
         ∧ t.ms.scrubs = s.ms.scrubs ++ [{ token := BitVec.ofNat 32 s.sch.cmdSeq, addr := a, units := n, done := 0, ce := 0
                                           uc := 0, firstUc := none, running := false }]
         ∧ t.mem = s.mem ∧ t.jobs = s.jobs ∧ t.fc = s.fc ∧ t.tb = s.tb
         ∧ t.sch = { s.sch with cmdSeq := if s.sch.cmdSeq = 0xF_FFFF then 1 else s.sch.cmdSeq + 1 }))
   ∧ (∀ (k : Pkt) (s s0 : State), starts s 0x50 0 k = some s0 →
       ((wd k.params 0).toNat % 64 ≠ 0 → exec (.scrubRange k) s = .next (answered s0 0x50 k .badParam [0, 2]))
       ∧ ((wd k.params 0).toNat % 64 = 0 → 65536 ≤ (wd k.params 1).toNat →
           exec (.scrubRange k) s = .next (answered s0 0x50 k .badParam [0, 3]))
       ∧ ((wd k.params 0).toNat % 64 = 0 → (wd k.params 1).toNat < 65536 → (wd k.params 2).toNat = 0 →
           exec (.scrubRange k) s = .next (answered s0 0x50 k .badParam [0, 4])))
   ∧ (∀ (s : State) (x : Scrub) (r : List Scrub), s.ms.scrubs = x :: r →
       (scrubMay s x = true → exec .scrubPassResume s = .next { s with ms := { s.ms with
         scrubs := { x with running := true } :: r } })
       ∧ (scrubMay s x = false → exec .scrubPassResume s = .next s))
   ∧ (∀ (s : State) (ecc : List Ecc), (s.ms.scrubs = [] ∨ halted s = true ∨ ∃ x r, s.ms.scrubs = x :: r ∧ x.running = false) →
       exec (.scrubUnitCheck ecc) s = .next s)
   ∧ (∀ (s : State) (x : Scrub) (r : List Scrub) (ecc : List Ecc), s.ms.scrubs = x :: r → x.running = true →
       halted s = false → ∃ t, exec (.scrubUnitCheck ecc) s = .next t
         ∧ (x.done + 1 < x.units → ∃ y, t.ms.scrubs = y :: r ∧ y.done = x.done + 1 ∧ y.token = x.token
             ∧ y.units = x.units ∧ y.addr = x.addr
             ∧ (∀ a, a = x.addr + 64 * x.done → a % 64 = 0 → inDram s a 64 = true → a ∉ s.poison →
                 (ecc = [] → y.ce = x.ce ∧ y.uc = x.uc ∧ y.firstUc = x.firstUc)
                 ∧ (ecc = [.corrected] → y.ce = satAdd 0xFFFF_FFFF x.ce 1 ∧ y.uc = x.uc)
                 ∧ (ecc = [.uncorrectable] → y.ce = x.ce ∧ y.uc = satAdd 0xFFFF_FFFF x.uc 1
                     ∧ y.firstUc = minOpt x.firstUc a)))
         ∧ (x.units ≤ x.done + 1 → t.ms.scrubs = r ∧ ∀ k ∈ t.cmd.tokens, k.token = x.token → k.live = false)))
  ∧ ((∀ (s : State), s.ms.shiftQ ≠ [] → s.ms.shiftOn = false → (∀ r ∈ s.ms.reqs, r.kind = .ledge → r.write = true) →
       exec .ringShiftStart s = .next { s with ms := { s.ms with shiftOn := true } })
     ∧ (∀ (s : State), (∃ r ∈ s.ms.reqs, r.kind = .ledge ∧ r.write = false) → exec .ringShiftStart s = .next s)
     ∧ (∀ (s : State) (k : Nat) (r : List Nat), s.ms.shiftQ = k :: r → s.ms.shiftOn = true → s.jobs = [] →
         s.ms.xfers = [] →
         ∃ t, exec (.ringShiftEnd) s = .next t ∧ t.ms = { s.ms with
             shiftQ := r, shiftOn := false, phase := (s.ms.phase + k) % 16, shifts := satAdd 0xFFFF s.ms.shifts 1 }
           ∧ t.mem = (rotateRing s k).mem ∧ t.poison = s.poison.map (shiftAddr (activeSet s).plan.resBytes k)
           ∧ t.csramBad = s.csramBad ∧ t.sch = s.sch ∧ t.cmd = s.cmd)
     ∧ (∀ (s : State) (k : Nat) (r : List Nat) (ecc : List (Nat × Ecc)), s.ms.shiftQ = k :: r → s.ms.shiftOn = true →
         s.jobs = [] → s.ms.xfers = [] →
         ∃ t, exec (.ringShiftEnd ecc) s = .next t ∧ t.ms.shiftQ = r ∧ t.ms.shiftOn = false
           ∧ t.ms.phase = (s.ms.phase + k) % 16 ∧ t.ms.shifts = satAdd 0xFFFF s.ms.shifts 1
           ∧ t.mem = (rotateRing s k).mem)
     ∧ (∀ (s : State) (ecc : List (Nat × Ecc)), (s.ms.shiftQ = [] ∨ s.ms.shiftOn = false) →
         exec (.ringShiftEnd ecc) s = .next s)
     ∧ (∀ (s : State), s.ms.resLoaded = false → s.sets.swapPending = false → hasActive s = true → s.jobs = [] →
         s.ms.xfers = [] → poolsFit s.cr.pools = true → ∀ ecc : List (Nat × Ecc),
         ∃ t, exec (.residentLoadDone ecc) s = .next t ∧ t.ms.resLoaded = true ∧ t.ms.phase = 0 ∧ t.sch = s.sch
           ∧ t.ms.shiftQ = s.ms.shiftQ ∧ t.ms.reqs = s.ms.reqs
           ∧ ∀ p, p = (activeSet s).plan → s.mem.wf = true → p.resBytes ≤ 0x20_0000 →
               inDram s p.resAddr (16 * p.resBytes) = true →
               ∀ n < 16, ∀ i < p.resBytes, t.mem.get (resBase p.resBytes n + i) = s.mem.get (p.resAddr + n * p.resBytes + i)))

/-- BAR2 and BAR4. While they are not served a write is dropped and counted in IN_RESET and a read returns 0 (R482,
R492). A BAR2 write into Cove, its units written whole, puts its bytes there; one into a Ledge outside IDLE, or into a
protected region of CSRAM, is dropped and counted (R213, R215, R472). A BAR4 write of whole lines of usable DRAM that
no protected object holds puts its bytes there; one that meets a protected region is counted (R473, R501). A unit whose
request times out sets source 83 and is all written or not at all (R219). A read
returns the bytes of memory, 0xFF where they are poisoned (R229, R235). What the host writes into Cove it reads back,
and every other byte of memory is unchanged (R213, R472). Where memory is reached no credit pool has had more returned
than issued (R220). -/
def Obligations.HostMemoryAccesses : Prop :=
  ((∀ (s : State) (off : Nat) (bs : List Byte) (ecc : List Ecc), bs ≠ [] → hostUp s = true → memServed s = false →
     exec (.bar2Write off bs ecc) s = .next { s with glb := { s.glb with inReset := satAdd 0xFF s.glb.inReset 1 } }
     ∧ exec (.bar4Write off bs ecc) s = .next { s with glb := { s.glb with inReset := satAdd 0xFF s.glb.inReset 1 } }
     ∧ ∀ bar4, exec (.barMemoryRead bar4 off bs.length ecc) s = .next { s with out := { s.out with
         rbytes := List.replicate bs.length 0, rpoison := false } })
   ∧ (∀ (s : State) (off : Nat) (bs : List Byte) (ecc : List Ecc), memServed s = true → poolsFit s.cr.pools = true →
       s.mem.wf = true → bs ≠ [] → off % 32 = 0 → bs.length % 32 = 0 → off + bs.length ≤ 0x400_0000 →
       ∃ t, exec (.bar2Write off bs ecc) s = .next t ∧ hostStored s t off bs ecc)
   ∧ (∀ (s : State) (off : Nat) (bs : List Byte) (ecc : List Ecc), memServed s = true → bs ≠ [] → s.sch.run ≠ .idle →
       0x400_0000 ≤ off → off + bs.length ≤ 0x600_0000 →
       exec (.bar2Write off bs ecc) s = .next { s with pcie := { s.pcie with ledgeDrop := satAdd 0xFFFF s.pcie.ledgeDrop 1 } })
   ∧ (∀ (s : State) (off : Nat) (bs : List Byte) (ecc : List Ecc), memServed s = true → bs ≠ [] →
       0x63F_0000 ≤ off → off + bs.length ≤ 0x63F_9000 →
       exec (.bar2Write off bs ecc) s = .next { s with pcie := { s.pcie with protDrop := satAdd 0xFFFF s.pcie.protDrop 1 } })
   ∧ (∀ (s : State) (off a : Nat) (bs : List Byte) (ecc : List Ecc), memServed s = true → poolsFit s.cr.pools = true →
       s.mem.wf = true → bs ≠ [] → a = s.pcie.apBase + off → a % 64 = 0 → bs.length % 64 = 0 →
       inDram s a bs.length = true → hits (dramProtected s) a bs.length = false →
       ∃ t, exec (.bar4Write off bs ecc) s = .next t ∧ hostStored s t a bs ecc)
   ∧ (∀ (s : State) (off a : Nat) (bs : List Byte) (ecc : List Ecc), memServed s = true → bs ≠ [] → a = s.pcie.apBase + off →
       inDram s a bs.length = true → (∀ i < bs.length, hits (dramProtected s) (a + i) 1 = true) →
       exec (.bar4Write off bs ecc) s = .next { s with sec := { s.sec with bar4 := satAdd 0xFFFF s.sec.bar4 1 } })
   ∧ (∀ (s : State) (off len : Nat) (ecc : List Ecc), memServed s = true → poolsFit s.cr.pools = true →
       off + len ≤ 0x400_0000 → s.poison = [] → s.csramBad = [] → (∀ x ∈ ecc, x = .asStored ∨ x = .corrected) →
       ∃ t, exec (.barMemoryRead false off len ecc) s = .next t
         ∧ t.out.rbytes = (List.range len).map (fun i => s.mem.get (off + i)) ∧ t.out.rpoison = false
         ∧ t.mem = s.mem ∧ t.poison = [] ∧ t.sch = s.sch ∧ t.jobs = s.jobs
         ∧ ((∀ x ∈ ecc, x = .asStored) → t.fc = s.fc))
   ∧ (∀ (s : State) (off : Nat) (ecc : List Ecc), memServed s = true → poolsFit s.cr.pools = true →
       off % 32 = 0 → off + 32 ≤ 0x400_0000 → off ∈ s.poison →
       ∃ t, exec (.barMemoryRead false off 32 ecc) s = .next t
         ∧ t.out.rbytes = List.replicate 32 0xFF ∧ t.out.rpoison = true ∧ t.mem = s.mem))
  ∧ (∀ (s : State) (off : Nat) (bs : List Byte) (ecc : List Ecc), s.mem.wf = true → memServed s = true → bs ≠ [] →
       poolsFit s.cr.pools = true → .timedOut ∉ ecc →
       off % 32 = 0 → bs.length % 32 = 0 → off + bs.length ≤ 0x400_0000 → (∀ u ∈ s.poison, u % 32 = 0) →
       ∃ t, exec (.bar2Write off bs ecc) s = .next t
         ∧ (∀ i, i < bs.length → t.mem.get (off + i) = bs.getD i 0)
         ∧ (∀ a, (a < off ∨ off + bs.length ≤ a) → t.mem.get a = s.mem.get a)
         ∧ (∀ u ∈ t.poison, u ∈ s.poison ∧ ¬ (off ≤ u ∧ u < off + bs.length))
         ∧ t.sch = s.sch ∧ t.cmd = s.cmd ∧ t.fc = s.fc ∧ t.glb = s.glb ∧ t.jobs = s.jobs ∧ t.hl = s.hl)

/-- CLEAR_FAULTS clears the sources its mask names, and a level source whose condition still holds sets again at once.
A mask with a reserved bit is refused BAD_PARAM at its word, one with a fatal source NOT_PERMITTED, as is, on port S,
one with a source that the port may not clear; a refusal clears nothing (R412 to R415). -/
def Obligations.ClearFaults : Prop :=
  ∀ (k : Pkt) (s s0 : State) (m : BitVec 128), starts s 0x52 0 k = some s0 →
    m = wd k.params 3 ++ wd k.params 2 ++ wd k.params 1 ++ wd k.params 0 →
    ((m &&& maskReserved).extractLsb' 64 32 ≠ 0 → exec (.clearFaults k) s = .next (answered s0 0x52 k .badParam [0, 4]))
    ∧ ((m &&& maskReserved).extractLsb' 64 32 = 0 → (m &&& maskReserved).extractLsb' 96 32 ≠ 0 →
        exec (.clearFaults k) s = .next (answered s0 0x52 k .badParam [0, 5]))
    ∧ (m &&& maskReserved = 0 → m &&& maskFA ≠ 0 → exec (.clearFaults k) s = .next (answered s0 0x52 k .notPermitted []))
    ∧ (m &&& maskReserved = 0 → k.port = .S → m &&& ~~~maskPortS ≠ 0 →
        exec (.clearFaults k) s = .next (answered s0 0x52 k .notPermitted []))
    ∧ (m &&& maskReserved = 0 → m &&& maskFA = 0 → (k.port = .S → m &&& ~~~maskPortS = 0) → ∃ t,
        exec (.clearFaults k) s = .next (answered t 0x52 k .ok [])
        ∧ (∀ n, n < 128 → t.fc.fsw.getLsbD n = ((s.fc.fsw.getLsbD n && !m.getLsbD n)
            || (s.saf.injDone && (n == 93 || n == 95 || n == 97 || n == 99 || n == 115) && levelCond s n)))
        ∧ t.fc.pre = s.fc.pre ∧ t.mem = s.mem ∧ t.sch = s.sch ∧ t.saf = s.saf ∧ t.jobs = s.jobs)

/-- RESET_DOMAIN of a domain or a cluster with no reset in progress is accepted with a token: each engine and ISP in it is
reset, an engine's attempts being gone, its tag advanced and it being withdrawn from S-class work, and the one job with an item
there ends (unless its end waits for room in the collector, R421); chip, 63, starts a chip warm reset. While a reset is in
progress it answers BUSY, on port H with the clocks stopped the responder answers a chip reset WRONG_STATE, and an unknown domain BAD_PARAM (R417, R428, R429, R433, R466). A
reset of an engine that nothing works on changes nothing of memory. When a step's reset completes its domains take work
again, the completion is counted, FC.RESET_INFO names that step (when is the model's choice, log 32) and the command's token is
over. A step that does not complete in 1 ms sets source 109 and goes on to the next: step 1 to the domain's cluster, a later one
to a chip warm reset (R431, R432). With no reset in progress neither does anything. -/
def Obligations.DomainResets : Prop :=
  (∀ (k : Pkt) (s s0 : State) (d : Nat), starts s 0x60 0 k = some s0 → d = (wd k.params 0).toNat →
    ((d ≠ 63 ∧ 28 ≤ d ∧ (d < 32 ∨ 37 < d)) → exec (.resetDomain k) s = .next (answered s0 0x60 k .badParam [0, 2]))
    ∧ ((d < 28 ∨ (32 ≤ d ∧ d ≤ 37) ∨ d = 63) → s.pins.clocksOff = false → s.rst.ladder.isSome = true →
        exec (.resetDomain k) s = .next (answered s0 0x60 k .busy []))
    ∧ ((d < 28 ∨ (32 ≤ d ∧ d ≤ 37)) → s.pins.clocksOff = false → s.rst.ladder = none → s.eng.length = 26 →
        s.sens.isp.length = 2 → ∀ (tok : Word) (u : State) (l : Ladder), (tok, u) = issueCmd s0 k.port →
        l = { dom := d, step := if d < 28 then 1 else 2, byHang := false, token := some tok } →
        ∃ t, exec (.resetDomain k) s = .next t ∧ t = settle s (answered (startStep u l) 0x60 k .accepted [tok])
          ∧ t.rst.ladder = some { l with startNs := now s }
          ∧ (∀ m ∈ members d, m < 26 → (engOf t m).arr = none ∧ (engOf t m).drn = none ∧ (engOf t m).stg = none
              ∧ (engOf t m).kat = none ∧ (engOf t m).resetting = true ∧ (engOf t m).wdr = true
              ∧ (engOf t m).gen = ((engOf s m).gen + 1) % 256)
          ∧ (∀ m ∈ members d, 26 ≤ m → (t.sens.isp.getD (m - 26) {}).resetting = true
              ∧ (t.sens.isp.getD (m - 26) {}).busy = false)
          ∧ (∀ j, inputStalled s 29 = false → (∀ x ∈ (members d).flatMap (domToks s), x = j) →
              j ∈ (members d).flatMap (domToks s) → jobOf t j = none))
    ∧ (d < 26 → s.pins.clocksOff = false → s.rst.ladder = none → s.sch.invalid = [] →
        domToks s d = [] → (∀ r ∈ s.ms.reqs, r.src ≠ d) → ∃ t,
        exec (.resetDomain k) s = .next (answered t 0x60 k .accepted [BitVec.ofNat 32 s.sch.cmdSeq])
        ∧ t.mem = s.mem ∧ t.saf = s.saf ∧ t.fc.rDomain = s.fc.rDomain)
    ∧ (d = 63 → s.pins.clocksOff = false → s.rst.ladder = none → s.sec.fuse = none → s.boot = .firmware →
        s.pins.thermtrip = false → ∃ t, exec (.resetDomain k) s = .next t ∧ t.warm = true
        ∧ t.fc.pre = s.fc.fsw ∧ t.fc.fsw = 0 ∧ t.cmd = {}))
  ∧ (∀ (k : Pkt) (s : State), s.pins.clocksOff = true → k.port = .H → wd k.params 0 = 63 → ready s .H = true →
      admission s 0x60 0 k = .run → mustWait s .H = false →
      exec (.resetDomain k) s = .next (placeReply s .H 0x60 .wrongState k.tag k.seq []))
  ∧ (∀ (s : State), s.rst.ladder = none →
      exec .domainResetComplete s = .next s ∧ exec .resetStepTimeout s = .next s)
  ∧ (∀ (s : State) (l : Ladder), s.rst.ladder = some l → s.rst.hangQ = [] → ∃ t,
      exec .domainResetComplete s = .next t ∧ t.rst.ladder = none ∧ t.fc.resets = satAdd 0xFF s.fc.resets 1
      ∧ t.fc.rDomain = stepDom l ∧ t.fc.rStep = l.step ∧ t.fc.rOrigin = stepOrigin l ∧ t.fc.rFailed = false
      ∧ (∀ d ∈ members (stepDom l), d < 26 → (engOf t d).resetting = false)
      ∧ (∀ tok, l.token = some tok → ∀ x ∈ t.cmd.tokens, x.token = tok → x.live = false))
  ∧ (∀ (s : State) (l : Ladder), s.rst.ladder = some l → l.step = 1 → l.dom < 28 → ∃ t, exec .resetStepTimeout s = .next t
      ∧ t.fc.fsw.getLsbD 109 = true ∧ t.fc.rFailed = true ∧ t.fc.rDomain = l.dom ∧ t.fc.rStep = 1
      ∧ t.fc.escal = satAdd 0xFF s.fc.escal 1
      ∧ (∃ m, t.rst.ladder = some m ∧ m.step = 2 ∧ m.dom = l.dom ∧ m.token = none))
  ∧ (∀ (s : State) (l : Ladder), s.rst.ladder = some l → l.step = 2 → s.boot = .firmware → halted s = false →
      s.sec.fuse = none → ∃ t, exec .resetStepTimeout s = .next t ∧ t.warm = true ∧ t.fc.pre.getLsbD 109 = true
      ∧ t.fc.rDomain = 63 ∧ t.fc.rStep = 3 ∧ t.fc.rOrigin = 3)

/-- A hang is declared for an attempt that has spent its limit, with cause 1 (also for one told to stop before whose
acknowledgement is not overdue by then), or that is still there 2,500 cycles after it was told to stop, with cause 2: source 104 sets, FC.HANG_INFO names the engine, the cause and the job, the
hang is counted, and with no reset in progress the engine's domain is reset and its job ends, unless its end waits for room in the collector (R421, R424, R425, R431). With the
clocks stopped no hang is declared (R525). GUILT_REPLAY in IDLE,
of a job that a hang report names and an engine that has work of its kind, is accepted with a token of the job's
context and runs the job again; a replay or a reset in progress answers BUSY, another state WRONG_STATE, an engine out
of range BAD_PARAM (R427). A fault of a control pair stops that pair, a lockstep fault stops Headland and sets the
fatal source 90, once; a corrected error in Headland's memory is counted alone (R354, R389, R390). -/
def Obligations.HangsReplaysAndLockstep : Prop :=
  ((∀ (s : State) (e : Nat) (a : Attempt), (engOf s e).arr = some a →
     (a.stopping = false ∨ a.startClk + hangLimit s a ≤ a.stopClk + 2500) → a.done = none → e < 26 →
     halted s = false → s.rst.hangQ = [] → a.t4 = false → ∃ t, exec (.hangOverrun e) s = .next t ∧ t.fc.fsw.getLsbD 104 = true
       ∧ t.fc.hDomain = e ∧ t.fc.hCause = 1 ∧ t.fc.hTok0 = a.token ∧ t.fc.hUnnamed = false
       ∧ t.fc.hangs = satAdd 0xFFFF s.fc.hangs 1
       ∧ (s.rst.ladder = none → (engOf t e).arr = none ∧ t.rst.ladder.isSome = true
           ∧ (inputStalled s 29 = false → jobOf t a.token = none)))
   ∧ (∀ (s : State) (e : Nat) (a : Attempt), (engOf s e).arr = some a → a.stopping = true → e < 26 → s.rst.hangQ = [] →
       halted s = false → ∃ t, exec (.hangNoAck e) s = .next t ∧ t.fc.fsw.getLsbD 104 = true ∧ t.fc.hDomain = e ∧ t.fc.hCause = 2
         ∧ t.fc.hangs = satAdd 0xFFFF s.fc.hangs 1 ∧ (s.rst.ladder = none → (engOf t e).arr = none))
   ∧ (∀ (s : State) (e : Nat), ((engOf s e).arr = none ∨ halted s = true) → exec (.hangOverrun e) s = .next s)
   ∧ (∀ (s : State) (e : Nat), halted s = true → exec (.hangNoAck e) s = .next s))
  ∧ ((∀ (k : Pkt) (s s0 : State) (tok : Word) (e : Nat), starts s 0x61 0 k = some s0 → tok = wd k.params 0 →
       e = (wd k.params 1).toNat →
       (26 ≤ e → exec (.guiltReplay k) s = .next (answered s0 0x61 k .badParam [0, 3]))
       ∧ (e < 26 → (s.sch.run ≠ .idle ∨ anyFA s = true) → exec (.guiltReplay k) s = .next (answered s0 0x61 k .wrongState []))
       ∧ (e < 26 → s.sch.run = .idle → anyFA s = false → (replaying s = true ∨ s.rst.ladder.isSome = true) →
           exec (.guiltReplay k) s = .next (answered s0 0x61 k .busy []))
       ∧ (∀ j r s1, e < 26 → s.sch.run = .idle → anyFA s = false → replaying s = false → s.rst.ladder = none → tok ≠ 0 →
           tok ∈ [s.fc.hTok0, s.fc.hTok1, s.fc.hTok2] → jobKept s tok = some j → (engOf s e).quar = false →
           j.items.any (fun i => !i.prefetch && i.desc.kind == engKind e) = true → r = issueCtx s0 j.ctx →
           s1 = addTok r.2 r.1 k.port →
           exec (.guiltReplay k) s = .next (settle s
             (answered (units (tryDone (startJob s1 (replayJob s1 j r.1 e)) r.1 26)) 0x61 k .accepted [r.1]))))
     ∧ (∀ (s : State), coresUp s = true → halted s = false → s.rst.pairA = false → ∃ t,
         exec (.controlPairMismatch false) s = .next t ∧ t.rst.pairA = true ∧ t.fc.fsw.getLsbD 88 = true)
     ∧ (∀ (s : State), coresUp s = true → halted s = false → s.rst.pairB = false → ∃ t,
         exec (.controlPairMismatch true) s = .next t ∧ t.rst.pairB = true ∧ t.fc.fsw.getLsbD 89 = true)
     ∧ (∀ (s : State), coresUp s = true → halted s = false → s.hl.stopped = false →
         (∃ t, exec (.headlandLockstepFault) s = .next t ∧ t.hl.stopped = true ∧ t.fc.fsw.getLsbD 90 = true)
         ∧ exec (.headlandLockstepFault true) s
             = .next { s with saf := { s.saf with hlCe := satAdd 0xFF s.saf.hlCe 1 } })
     ∧ (∀ (s : State) (c : Bool), s.hl.stopped = true → exec (.headlandLockstepFault c) s = .next s))

/-- A chip warm reset moves the fault word to the first fault sources and clears it, returns the run to IDLE, trust to
NOT_ARMED and both slots to EMPTY, ends every job, drops the ports' state, and lowers the SAFE outputs; GLB, PCIE, the
fuses and the poison of the stores stay; the engines' tags advance (R434, R482). When it is done, announcements are
due on ports H and S, and the firmware runs again if its image, read without error, is intact, its base pack's slices run first, whatever they find (R387,
R413, R494, R513); one that came during training or filling leaves those to go on (R236, R491). -/
def Obligations.WarmReset : Prop :=
  (∀ (s : State), s.boot = .firmware → s.pins.clocksOff = false → s.pins.thermtrip = false → s.sec.fuse = none →
    ∃ t, exec .chipWarmReset s = .next t ∧ t.warm = true ∧ t.fc.pre = s.fc.fsw ∧ t.fc.fsw = 0 ∧ t.sch = {} ∧ t.sets = {}
      ∧ t.jobs = [] ∧ t.saf.trust = .notArmed ∧ t.cmd = {} ∧ t.tb = {} ∧ t.pins.safeA = false ∧ t.pins.safeB = false
      ∧ t.glb = s.glb ∧ t.pcie = s.pcie ∧ t.poison = s.poison ∧ t.fc.warmCount = satAdd 0xFF s.fc.warmCount 1
      ∧ t.sec.lifecycle = s.sec.lifecycle ∧ t.sec.owner0 = s.sec.owner0 ∧ t.sec.owner1 = s.sec.owner1
      ∧ t.sec.fwSvnMin = s.sec.fwSvnMin ∧ t.sec.revoked = s.sec.revoked ∧ t.sec.serial = s.sec.serial
      ∧ (∀ (e : Nat) (x : Engine), s.eng[e]? = some x → ∃ y : Engine, t.eng[e]? = some y ∧ y.gen = (x.gen + 1) % 256
          ∧ y.arr = none ∧ y.quar = false))
  ∧ (∀ (s : State) (ups : List SliceUpset) (ecc : List (Nat × Ecc)), (s.warm = false ∨ halted s = true) →
      exec (.warmResetDone ups ecc) s = .next s)
  ∧ (∀ (s : State) (ups : List SliceUpset) (ecc : List (Nat × Ecc)), s.warm = true → halted s = false →
      (s.boot = .training ∨ s.boot = .filling) → ∃ t, exec (.warmResetDone ups ecc) s = .next t
      ∧ t.warm = false ∧ t.boot = s.boot ∧ t.ms = s.ms ∧ t.mem = s.mem ∧ t.cmd = s.cmd ∧ t.fc = s.fc ∧ t.sch = s.sch)
  ∧ (∀ (s : State) (ups : List SliceUpset) (ecc : List (Nat × Ecc)), s.warm = true → halted s = false →
      s.boot ≠ .untrained → s.boot ≠ .training → s.boot ≠ .filling → s.boot ≠ .noClock → s.sec.fwRegion = none →
      ∃ t, exec (.warmResetDone ups ecc) s = .next t ∧ t.boot = .rom ∧ t.cmd.h.annPend = true ∧ t.cmd.s.annPend = true
        ∧ t.saf.injDone = true)
  ∧ (∀ (s : State) (ups : List SliceUpset) (ecc : List (Nat × Ecc)) (r : Nat × Nat), s.warm = true → halted s = false →
      s.boot ≠ .untrained → s.boot ≠ .training → s.boot ≠ .filling → s.boot ≠ .noClock → s.sec.fwRegion = some r →
      readsGood s srcPairA [r] ecc = true → fwIntact s = true →
      ∃ t, exec (.warmResetDone ups ecc) s = .next t ∧ t.boot = .firmware ∧ t.sec.fwRunning = true ∧ t.cmd.h.annPend = true
        ∧ t.cmd.s.annPend = true)
  ∧ (∀ (s : State) (ups : List SliceUpset) (ecc : List (Nat × Ecc)) (r : Nat × Nat), s.warm = true → halted s = false →
      s.boot ≠ .untrained → s.boot ≠ .training → s.boot ≠ .filling → s.boot ≠ .noClock → s.sec.fwRegion = some r →
      readsGood s srcPairA [r] ecc = true →
      fwIntact s = false → ∃ t, exec (.warmResetDone ups ecc) s = .next t ∧ t.boot = .rom ∧ t.fc.fsw.getLsbD 121 = true)

/-- Power-up. POWER_ON leaves RESET_N held, with the fuses and nothing else; a part in MANUFACTURE without a UDS makes one then
(R503, R508). At reset release a missing REFCLK_SYS
sets source 91 and stops there; else training begins, and a channel that fails it sets the fatal source 79. The fill
leaves every store reading 0 with no poison, draws the boot nonce and derives the identity key where the UDS can be read. After start-up injection the failed checkers show and the failed engines
are quarantined, and the boot ROM answers (R228, R236, R387, R388, R491, R519, R520, R525). Loss of power keeps the
fuses alone; a pulse on RESET_N of at least 10 us acts as a power-on, one under 1 us does nothing. -/
def Obligations.PowerUp : Prop :=
  (∀ (s : State), s.boot = .off → ∃ t, exec .powerOn s = .next t ∧ t.boot = .held ∧ t.mem = [] ∧ t.jobs = []
      ∧ t.sec.lifecycle = s.sec.lifecycle ∧ t.sec.owner0 = s.sec.owner0 ∧ t.sec.revoked = s.sec.revoked ∧ t.fc.fsw = 0
      ∧ t.pins.safeA = false ∧ t.pins.safeB = false ∧ t.cmd = {} ∧ t.sch = {})
  ∧ (∀ (s : State), s.boot = .off → ∃ t, exec .powerOn s = .next t
      ∧ (s.sec.lifecycle = .manufacture → s.sec.uds = none → t.sec.uds.isSome = true)
      ∧ ((s.sec.lifecycle ≠ .manufacture ∨ s.sec.uds ≠ none) → t.sec.uds = s.sec.uds))
  ∧ (∀ (s : State), s.boot ≠ .off → exec .powerOn s = .next s)
  ∧ (∀ (s : State), s.sec.fuse = none → ∃ t, exec .powerLoss s = .next t ∧ t.boot = .off ∧ t.mem = []
      ∧ t.sec.lifecycle = s.sec.lifecycle ∧ t.sec.owner1 = s.sec.owner1 ∧ t.sec.fwSvnMin = s.sec.fwSvnMin
      ∧ t.sec.fwRunning = false ∧ t.sch = {} ∧ t.pins.safeA = false ∧ t.pins.safeB = false)
  ∧ (∀ (s : State) (ns : Nat), ns < 1000 → exec (.resetNPulse ns) s = .next s)
  ∧ (∀ (s : State) (ns : Nat), 10000 ≤ ns → s.boot ≠ .off → s.sec.fuse = none → ∃ t, exec (.resetNPulse ns) s = .next t
      ∧ t.boot = .held ∧ t.mem = [] ∧ t.sch = {} ∧ t.sec.lifecycle = s.sec.lifecycle
      ∧ t.pins.thermtrip = s.pins.thermtrip)
  ∧ (∀ (s : State), s.boot = .held → s.pins.thermtrip = false →
      (∃ t, exec (.resetRelease true) s = .next t ∧ t.boot = .training ∧ t.map.gen ≠ 0)
      ∧ (∃ t, exec (.resetRelease false) s = .next t ∧ t.boot = .noClock ∧ t.fc.fsw.getLsbD 91 = true))
  ∧ (∀ (s : State), s.boot = .training → halted s = false →
      exec (.dramTrainingDone []) s = .next { s with boot := .filling, ms := { s.ms with trained := true } }
      ∧ ∀ c r, ∃ t, exec (.dramTrainingDone (c :: r)) s = .next t ∧ t.boot = .untrained ∧ t.fc.fsw.getLsbD 79 = true)
  ∧ (∀ (s : State), s.boot = .filling → halted s = false → ∃ t, exec .memoryFillDone s = .next t ∧ t.boot = .injecting
      ∧ (∀ a, t.mem.get a = 0) ∧ t.poison = [] ∧ t.csramBad = [] ∧ t.ms.fillDone = true ∧ t.sch = s.sch
      ∧ t.sec.nonce.length = 8 ∧ t.sec.keysReady = (partKey s).isSome)
  ∧ (∀ (s : State) (failed bad : List Nat), s.boot = .injecting → halted s = false → ∃ t, exec (.startupInjectionDone failed bad) s = .next t
      ∧ t.boot = .rom ∧ t.saf.injDone = true ∧ (t.saf.injFail = true ↔ ∃ i ∈ failed, i < 17)
      ∧ (∀ i, i < 17 → t.saf.injMask.getLsbD i = failed.contains i)
      ∧ (∀ (e : Nat) (x : Engine), s.eng[e]? = some x → ∃ y : Engine, t.eng[e]? = some y
          ∧ y.quar = (x.quar || bad.contains e)))

/-- Monitors of the electrical boundary. A supply out of range sets the fatal source 92; the collapse of a core, SRAM
or I/O rail resets the device instead, the thermal latch and its source standing until the I/O rail falls. A clock fault sets source 91 and clamps the SAFE outputs. At 105 degrees source
93 sets; shutdown also sets the fatal source 94, drives THERMTRIP_N low and takes the PCIe link down. FLOW_OK low sets
source 95. A tamper event sets source 120, erases the keys, and abandons a firmware load. AER errors set sources 100
and 101 (R470, R511, R522, R525, R537, R538). The PCIe function. PERST_N low takes the link down and returns the
configuration space to its defaults: vendor 0x1F3E, device 0x1620, BARs unassigned, bus mastering and MSI-X off; a link
comes up only with PERST_N high and the clocks running (R2, R488, R491, R526). Configuration writes set BARs, whose low bits
read 0, bus mastering, MSI-X, the power state, the payload and request sizes, L1 and ECRC, and nothing with PERST_N low (R470,
R471, R526). -/
def Obligations.ElectricalAndPcie : Prop :=
  ((∀ (s : State) (r : Rail), s.boot ≠ .off → ∃ t, exec (.voltageMonitorTrip r false) s = .next t
       ∧ t.fc.fsw.getLsbD 92 = true ∧ t.boot = s.boot)
   ∧ (∀ (s : State) (r : Rail), s.boot ≠ .off → r ≠ .other → s.sec.fuse = none → ∃ t,
       exec (.voltageMonitorTrip r true) s = .next t ∧ t.boot = .held ∧ t.mem = [] ∧ t.sch = {}
       ∧ t.sec.lifecycle = s.sec.lifecycle
       ∧ ((r = .io18 ∨ s.pins.thermtrip = false) → t.fc.fsw = 0 ∧ t.pins.thermtrip = false)
       ∧ (r ≠ .io18 → s.pins.thermtrip = true → t.fc.fsw = s.fc.fsw &&& srcBit 94 ∧ t.pins.thermtrip = true))
   ∧ (∀ (s : State) (k : ClockEvent), s.boot ≠ .off → ∃ t, exec (.clockMonitorTrip k) s = .next t
       ∧ t.fc.fsw.getLsbD 91 = true ∧ t.saf.clamp = true ∧ t.pins.safeA = false ∧ t.pins.safeB = false
       ∧ (k = .refSysLost → t.pins.clocksOff = true))
   ∧ (∀ (s : State) (c : Int), 105 ≤ c → s.saf.injDone = true → ∃ t, exec (.tempWarning c) s = .next t
       ∧ t.pins.hot = true ∧ t.fc.fsw.getLsbD 93 = true ∧ t.sch = s.sch ∧ t.saf = s.saf)
   ∧ (∀ (s : State) (c : Int), c < 100 → exec (.tempWarning c) s = .next { s with pins := { s.pins with hot := false } })
   ∧ (∀ (s : State), s.boot ≠ .off → ∃ t, exec .tempShutdown s = .next t ∧ t.fc.fsw.getLsbD 94 = true
       ∧ t.pins.thermtrip = true ∧ t.pcie.up = false)
   ∧ (∀ (s : State), s.saf.injDone = true → ∃ t, exec (.flowOkLow true) s = .next t ∧ t.pins.flowLow = true
       ∧ t.fc.fsw.getLsbD 95 = true ∧ t.sch = s.sch)
   ∧ (∀ (s : State) (k : TamperKind), s.boot ≠ .off → ∃ t, exec (.tamperTrip k) s = .next t ∧ t.sec.erased = true
       ∧ t.sec.keysReady = false ∧ t.sec.load = none
       ∧ (k ≠ .fuseParity → t.fc.fsw.getLsbD 120 = true) ∧ (k = .fuseParity → t.fc.fsw.getLsbD 122 = true))
   ∧ (∀ (s : State), ∃ t, exec (.pcieAerError true) s = .next t ∧ t.fc.fsw.getLsbD 101 = true
       ∧ t.pcie.aerUc = satAdd 0xFFFF s.pcie.aerUc 1)
   ∧ (∀ (s : State), ∃ t, exec (.pcieAerError false) s = .next t ∧ t.fc.fsw.getLsbD 100 = true
       ∧ t.pcie.aerCe = satAdd 0xFFFF s.pcie.aerCe 1))
  ∧ ((∀ (s : State), exec (.perstNChange true) s = .next { s with pcie := { s.pcie with
         vendorId := 0x1F3E, deviceId := 0x1620, bar0 := 0, bar2 := 0, bar4 := 0, busMaster := false, msixEn := false, d3hot := false
         mps := 0, mrrs := 2, l1 := false, ecrcGen := false, ecrcCheck := false, perst := true, up := false, speed := 0 } })
     ∧ (∀ (s : State), exec (.perstNChange false) s = .next { s with pcie := { s.pcie with perst := false } })
     ∧ (∀ (s : State) (sp w : Nat) (r : Bool), s.pcie.perst = true → exec (.pcieLinkChange true sp w r) s = .next s)
     ∧ (∀ (s : State) (sp w : Nat) (r : Bool), (s.boot = .off ∨ s.boot = .held ∨ s.boot = .noClock ∨ s.pins.thermtrip = true) →
         exec (.pcieLinkChange true sp w r) s = .next s)
     ∧ (∀ (s : State) (sp w : Nat) (r : Bool), exec (.pcieLinkChange false sp w r) s = .next { s with pcie := { s.pcie with
           up := false, speed := 0, width := w, reversed := r } })
     ∧ (∀ (s : State) (sp w : Nat) (r : Bool), s.pcie.perst = false → s.pins.thermtrip = false →
         s.boot ≠ .off → s.boot ≠ .held → s.boot ≠ .noClock →
         exec (.pcieLinkChange true sp w r) s = .next { s with pcie := { s.pcie with
           up := true, speed := sp, width := w, reversed := r } })
     ∧ (∀ (s : State) (c : CfgWrite), s.pcie.perst = true → exec (.pcieConfigWrite c) s = .next s)
     ∧ (∀ (s : State) (b : Nat), s.pcie.perst = false → b < 2 ^ 64 →
         exec (.pcieConfigWrite (.bar 0 b)) s = .next { s with pcie := { s.pcie with bar0 := b / 2 ^ 24 * 2 ^ 24 } }
         ∧ exec (.pcieConfigWrite (.bar 2 b)) s = .next { s with pcie := { s.pcie with bar2 := b / 2 ^ 27 * 2 ^ 27 } }
         ∧ exec (.pcieConfigWrite (.bar 4 b)) s = .next { s with pcie := { s.pcie with bar4 := b / 2 ^ 32 * 2 ^ 32 } })
     ∧ (∀ (s : State) (b : Nat), s.pcie.perst = false → b < 2 ^ 32 →
         exec (.pcieConfigWrite (.bar 1 b)) s = .next { s with pcie := { s.pcie with bar0 := s.pcie.bar0 % 2 ^ 32 + b * 2 ^ 32 } }
         ∧ exec (.pcieConfigWrite (.bar 3 b)) s = .next { s with pcie := { s.pcie with bar2 := s.pcie.bar2 % 2 ^ 32 + b * 2 ^ 32 } }
         ∧ exec (.pcieConfigWrite (.bar 5 b)) s = .next { s with pcie := { s.pcie with bar4 := s.pcie.bar4 % 2 ^ 32 + b * 2 ^ 32 } })
     ∧ (∀ (s : State) (d g : Bool) (c : Nat), s.pcie.perst = false →
         exec (.pcieConfigWrite (.powerState d)) s = .next { s with pcie := { s.pcie with d3hot := d } }
         ∧ exec (.pcieConfigWrite (.aspmL1 d)) s = .next { s with pcie := { s.pcie with l1 := d } }
         ∧ exec (.pcieConfigWrite (.ecrc g d)) s = .next { s with pcie := { s.pcie with ecrcGen := g, ecrcCheck := d } }
         ∧ (c ≤ 2 → exec (.pcieConfigWrite (.maxPayload c)) s = .next { s with pcie := { s.pcie with mps := c } })
         ∧ (c ≤ 5 → exec (.pcieConfigWrite (.maxReadRequest c)) s = .next { s with pcie := { s.pcie with mrrs := c } }))
     ∧ (∀ (s : State), s.pcie.perst = false →
         exec (.pcieConfigWrite (.busMaster false)) s = .next { s with pcie := { s.pcie with busMaster := false } }
         ∧ exec (.pcieConfigWrite (.msixEnable false)) s = .next { s with pcie := { s.pcie with msixEn := false } })
     ∧ (∀ (s : State) (v : Nat), s.pcie.perst = false → v < 16 → s.pcie.pba.getLsbD v = true → s.pcie.msixEn = true →
         (s.pcie.msix.getD v {}).mask = false → ∃ t, exec (.pcieConfigWrite (.busMaster true)) s = .next t
         ∧ t.pcie.pba.getLsbD v = false ∧ v ∈ t.out.msix))

/-- A Frame Start of a camera stream in RUNNING is accepted with the stream's next sequence number: a member of the
current frame before SLACK, with no sensor frame of the stream delivered yet and a buffer free, is received into the
lowest free buffer; any other is dropped at once, as is one still in reception (R272, R276, R277). A port that does
not receive does nothing. A sensor frame whose writes have all been answered is complete; the first of its stream in
the frame, unless a replayed recording dropped it, is delivered, and when every stream of its arrival entry has delivered,
the entry fires (R273, R274, R303). -/
def Obligations.CameraFrames : Prop :=
  ((∀ (s : State) (port vc : Nat), portRx s port = false → exec (.csi2FrameStart port vc) s = .next s)
   ∧ (∀ (s : State) (port vc sl i : Nat), portRx s port = true → vcSlot s port vc = some sl → camStream s port sl = some i →
     s.sch.run = .running → underReplay s i = false → i < s.sens.streams.length →
     (∀ f, (streamOf s i).cur = some f → ∃ t, exec (.csi2FrameStart port vc) s = .next t
       ∧ t.sens.accepted = s.sens.accepted + 1 ∧ s.sens.dropped + 1 ≤ t.sens.dropped)
     ∧ ((streamOf s i).cur = none → (memberOf s i (camStamp s port) ≠ s.sch.seq ∨ s.sch.phase = .slack
         ∨ (streamOf s i).delivered ≠ none ∨ freeBuf s i = none) → ∃ t, exec (.csi2FrameStart port vc) s = .next t
       ∧ t.sens.accepted = s.sens.accepted + 1 ∧ t.sens.dropped = s.sens.dropped + 1 ∧ (streamOf t i).cur = none
       ∧ (streamOf t i).next = (streamOf s i).next + 1)
     ∧ (∀ b, (streamOf s i).cur = none → memberOf s i (camStamp s port) = s.sch.seq → s.sch.phase ≠ .slack →
         (streamOf s i).delivered = none → freeBuf s i = some b → s.sens.recorder.state = 0 → ∃ t,
         exec (.csi2FrameStart port vc) s = .next t
         ∧ (streamOf t i).cur = some
             { seq := (streamOf s i).next, buf := b, fseq := s.sch.seq, ns := camStamp s port % 1000000000
               sec := camStamp s port / 1000000000 % 2 ^ 32, lines := 0, pkts := 0, used := 0, closed := false
               delivered := false, claimed := false, raw := [] }
         ∧ (streamOf t i).next = (streamOf s i).next + 1 ∧ t.sens.accepted = s.sens.accepted + 1
         ∧ t.sens.dropped = s.sens.dropped ∧ t.mem = s.mem ∧ t.fc = s.fc ∧ t.sch = s.sch
         ∧ (∀ j, j ≠ i → streamOf t j = streamOf s j))))
  ∧ ((∀ (s : State) (i k : Nat) (f : SFrame), i < s.sens.streams.length → (streamOf s i).kept[k]? = some f →
       (streamOf s i).kept.findIdx? (fun f => f.closed && !f.complete && !writesOut s i f) = some k →
       (streamOf s i).delivered = none → f.fseq = s.sch.seq → s.sch.run = .running →
       recordedDrop s i f.fseq f.seq = none → ∃ t,
       exec (.sensorFrameComplete i) s = .next t ∧ (streamOf t i).delivered = some f.buf
       ∧ (∀ j, j ≠ i → streamOf t j = streamOf s j) ∧ t.mem = s.mem ∧ t.jobs = s.jobs ∧ t.fc = s.fc
       ∧ ((∀ j, j < 64 → j ≠ i → stValid (stEntry s j) = true → stArrival (stEntry s j) = stArrival (stEntry s i) →
           (streamOf s j).delivered ≠ none) → t.sch.arrived.getLsbD (stArrival (stEntry s i)) = true)
       ∧ (∀ j, j < 64 → j ≠ i → stValid (stEntry s j) = true → stArrival (stEntry s j) = stArrival (stEntry s i) →
           (streamOf s j).delivered = none → t.sch = s.sch))
     ∧ (∀ (s : State) (i : Nat), (streamOf s i).kept.findIdx? (fun f => f.closed && !f.complete && !writesOut s i f) = none →
       exec (.sensorFrameComplete i) s = .next s))

/-- A good line of a raw stream is stored as a row of samples at the buffer's line, by write requests of the ingress port, and
counted; a line of an ISP
stream joins its line buffer and memory stays, an uncorrectable word of it kept with its place (R292), and while the ISP is in
reset the sensor frame is dropped instead (the model's choice, log 48); a header or CRC error is counted, sets source 96, and
drops the sensor frame in reception, the line counting among its lines where it can be told that it is one; a line of another
length drops it too (R273, R277, R283, R288, R302, R305). At its Frame End a sensor
frame with all its lines is kept for delivery, one with fewer is dropped (R273). -/
def Obligations.CameraLinesAndFrameEnd : Prop :=
  (∀ (s : State) (port vc dt sl i : Nat) (f : SFrame) (payload : List Byte), portRx s port = true →
    vcSlot s port vc = some sl → camStream s port sl = some i → underReplay s i = false → i < s.sens.streams.length →
    s.sens.recorder.state = 0 → (streamOf s i).cur = some f → dt = stDt (stEntry s i) → dt ≠ 0x12 →
    (payload.length ≠ lineBytes dt (stWidth (stEntry s i)) → ∃ t,
      exec (.csi2Line port vc dt .clean true payload false .asStored) s = .next t ∧ (streamOf t i).cur = none
      ∧ t.sens.dropped = s.sens.dropped + 1)
    ∧ (payload.length = lineBytes dt (stWidth (stEntry s i)) → stIsp (stEntry s i) = false →
      stStamps (stEntry s i) = false → f.lines < stLines (stEntry s i) → ∃ t,
      exec (.csi2Line port vc dt .clean true payload false .asStored) s = .next t
      ∧ (streamOf t i).cur = some { f with lines := f.lines + 1 }
      ∧ t.mem = s.mem.write (bufAddr s i f.buf + f.lines * camPitch s (stEntry s i))
          (packRow (fmtBits (rawFmt dt)) 64 (lineSamples dt (stWidth (stEntry s i)) payload))
      ∧ (packRow (fmtBits (rawFmt dt)) 64 (lineSamples dt (stWidth (stEntry s i)) payload) ≠ [] →
          portOut t (.ingress i f.seq) = true)
      ∧ t.fc = s.fc ∧ t.sens.dropped = s.sens.dropped ∧ (∀ j, j ≠ i → streamOf t j = streamOf s j))
    ∧ (payload.length = lineBytes dt (stWidth (stEntry s i)) → stIsp (stEntry s i) = true →
      stStamps (stEntry s i) = false → f.lines < expoOf s (stEntry s i) * stLines (stEntry s i) →
      ispResetting s (stEntry s i) = false →
      (∃ t, exec (.csi2Line port vc dt .clean true payload false .asStored) s = .next t
        ∧ (streamOf t i).cur = some { f with
            lines := f.lines + 1, raw := f.raw ++ [lineSamples dt (stWidth (stEntry s i)) payload] }
        ∧ t.mem = s.mem ∧ t.fc = s.fc)
      ∧ (∀ word, ∃ t, exec (.csi2Line port vc dt .clean true payload false .uncorrectable word) s = .next t
        ∧ (streamOf t i).cur = some { f with
            lines := f.lines + 1, raw := f.raw ++ [lineSamples dt (stWidth (stEntry s i)) payload]
            bad := f.bad ++ [(f.lines, word)] }
        ∧ t.mem = s.mem ∧ t.fc.fsw.getLsbD (62 + stIspNo (stEntry s i)) = true))
    ∧ (payload.length = lineBytes dt (stWidth (stEntry s i)) → ispResetting s (stEntry s i) = true → ∃ t,
      exec (.csi2Line port vc dt .clean true payload false .asStored) s = .next t ∧ (streamOf t i).cur = none
      ∧ t.sens.dropped = s.sens.dropped + 1))
  ∧ (∀ (s : State) (port vc dt sl i : Nat) (f : SFrame) (hdr : HdrEcc) (ok ovr : Bool) (payload : List Byte) (lb : Ecc),
    portRx s port = true → vcSlot s port vc = some sl → camStream s port sl = some i → underReplay s i = false →
    i < s.sens.streams.length → (streamOf s i).cur = some f → (hdr = .bad ∨ ok = false) → ∃ t,
      exec (.csi2Line port vc dt hdr ok payload ovr lb) s = .next t ∧ (streamOf t i).cur = none
      ∧ (streamOf t i).disc = some (Discard.mk f.pkts f.fseq f.seq
          (if hdr ≠ .bad ∧ dt = stDt (stEntry s i) then f.lines + 1 else f.lines) (stEntry s i))
      ∧ t.sens.dropped = s.sens.dropped + 1 ∧ t.fc.fsw.getLsbD 96 = true
      ∧ (t.sens.sp.getD port {}).crc = satAdd 0xFFFF (s.sens.sp.getD port {}).crc 1)
  ∧ (∀ (s : State) (port vc sl i : Nat) (f : SFrame) (ecc : List (Nat × Ecc)), portRx s port = true →
    vcSlot s port vc = some sl →
    camStream s port sl = some i → underReplay s i = false → i < s.sens.streams.length → (streamOf s i).cur = some f → ∃ t,
      exec (.csi2FrameEnd port vc ecc) s = .next t ∧ (streamOf t i).cur = none
      ∧ (f.lines = expoOf s (stEntry s i) * stLines (stEntry s i) →
          (streamOf t i).kept = (streamOf s i).kept ++ [{ f with closed := true }])
      ∧ (f.lines ≠ expoOf s (stEntry s i) * stLines (stEntry s i) →
          (streamOf t i).kept = (streamOf s i).kept ∧ t.sens.dropped = s.sens.dropped + 1))

/-- A received Ethernet frame is counted, but not in a chip warm reset or with the clocks stopped (R482, R525). A bad FCS counts and sets source 98; an oversized frame, and one that
matches no filter, is counted and discarded; a PTP frame goes on to time synchronisation. A packet of a stream with a
sensor frame in reception is stored, stamped at its start less the port's ingress latency, as a record behind those before
it, the sensor frame closing when the stream's condition holds (R273, R293 to R295, R320). A Mapin frame for another node is
only counted; one for this node whose word 7 is not its CRC-32C is a CRC error (R294, R329, R331). At CLOSE_AT a TIME
stream's sensor frame closes (R273). -/
def Obligations.EthernetPackets : Prop :=
  (∀ (s : State) (m : Nat) (ok : Bool) (bs : List Byte), ((s.sens.eth.getD m {}).up = false ∨ s.warm = true ∨ halted s = true) →
    exec (.ethFrameReceive m ok bs) s = .next s)
  ∧ (∀ (s : State) (m : Nat) (bs : List Byte) (x : EthMac), s.sens.eth[m]? = some x → x.up = true →
    s.warm = false → halted s = false → (∃ t, exec (.ethFrameReceive m false bs) s = .next t ∧ t.fc.fsw.getLsbD 98 = true
      ∧ (∃ y : EthMac, t.sens.eth[m]? = some y ∧ y.fcs = satAdd 0xFFFF x.fcs 1 ∧ y.rx = (x.rx + 1) % 2 ^ 64))
    ∧ (9018 < bs.length + 4 → exec (.ethFrameReceive m true bs) s = .next { s with sens := { s.sens with
        eth := setAt s.sens.eth m { x with rx := (x.rx + 1) % 2 ^ 64, oversize := satAdd 0xFF x.oversize 1 } } })
    ∧ (bs.length + 4 ≤ 9018 → isPtp bs = true → exec (.ethFrameReceive m true bs) s = .next { s with sens := { s.sens with
        eth := setAt s.sens.eth m { x with rx := (x.rx + 1) % 2 ^ 64 } } })
    ∧ (bs.length + 4 ≤ 9018 → isPtp bs = false → bit (wd (macSec s m) 0) 2 = true →
      (ethL3 bs).2.1 = s.map.etherType.toNat →
      (bs.take 6 ≠ nodeAddr s.map.nodeId → exec (.ethFrameReceive m true bs) s = .next (settleUnits s
        { s with sens := { s.sens with eth := setAt s.sens.eth m { x with rx := (x.rx + 1) % 2 ^ 64 } } }))
      ∧ (∀ w, bs.take 6 = nodeAddr s.map.nodeId → mapinUp s = true → w = mapinWords bs →
        fld w 1 31 16 = s.map.nodeId.toNat →
        crc32c (wordsBytes (w.take 7) ++ (mapinTail bs).take (fld w 0 31 16)) ≠ wd w 7 → ∃ u,
        exec (.ethFrameReceive m true bs) s = .next (settleUnits s u) ∧ u.fc.fsw.getLsbD 112 = true
        ∧ u.map.crc = satAdd 0xFFFF s.map.crc 1 ∧ u.mem = s.mem))
    ∧ (bs.length + 4 ≤ 9018 → isPtp bs = false →
      (bit (wd (macSec s m) 0) 2 = false ∨ (ethL3 bs).2.1 ≠ s.map.etherType.toNat) → badHdr bs = false →
      otherStation s m bs = false →
      (matchFilter s m bs = none → exec (.ethFrameReceive m true bs) s = .next { s with sens := { s.sens with
        eth := setAt s.sens.eth m { x with
          rx := (x.rx + 1) % 2 ^ 64, unmatched := satAdd 0xFFFF x.unmatched 1 } } })
      ∧ (∀ k u i f r t0, matchFilter s m bs = some k → t0 = (ingress s m).toNat → udpAt bs = some u → i = fld (macFilter s m k) 0 9 4 →
        bit (wd (macFilter s m k) 0) 3 = false → s.sch.run = .running → stValid (stEntry s i) = true →
        underReplay s i = false → i < s.sens.streams.length → s.sens.recorder.state = 0 → (streamOf s i).cur = some f →
        stClose (stEntry s i) ≠ 2 → r = packetRec t0 m k f.pkts (udpData bs u) →
        f.pkts + 1 ≤ stLines (stEntry s i) → f.used + r.length ≤ stStride (stEntry s i) → ∃ t,
        exec (.ethFrameReceive m true bs) s = .next t
        ∧ t.mem = s.mem.write (bufAddr s i f.buf + f.used) r ∧ t.fc = s.fc
        ∧ (closes s (stEntry s i) f.fseq (f.pkts + 1) t0 (udpData bs u) = false →
          (streamOf t i).cur = some { f with pkts := f.pkts + 1, used := f.used + r.length })
        ∧ (closes s (stEntry s i) f.fseq (f.pkts + 1) t0 (udpData bs u) = true → (streamOf t i).cur = none
          ∧ (streamOf t i).kept = (streamOf s i).kept ++
            [{ f with pkts := f.pkts + 1, used := f.used + r.length, closed := true }]))))
  ∧ (∀ (s : State) (i : Nat) (f : SFrame), s.sch.run = .running → stValid (stEntry s i) = true →
    stEth (stEntry s i) = true → stClose (stEntry s i) = 2 → i < s.sens.streams.length → (streamOf s i).cur = some f →
    1 ≤ f.pkts → ∃ t, exec (.ethTimeClose i) s = .next t ∧ (streamOf t i).cur = none
    ∧ (streamOf t i).kept = (streamOf s i).kept ++ [{ f with closed := true }] ∧ t.sch = s.sch)

/-- Links. A camera link that comes up records its gear; one that goes down, like an Ethernet link, counts the loss
and drops the sensor frames in reception on its streams; the loss of REFCLK_ETH takes every Ethernet link down,
source 99 showing it, and a link that comes up shows that the clock is there again (the model's inference, log 48); in a
chip warm reset none comes up (R305, R343, R482, R525). The oldest packet that waits at a TX port goes out with TX_VC, its data type and
its payload unchanged, no other packet does; one that does not fit, or meets a link that is down, cuts the sensor frame there and is counted, and
what waits of it goes no more (R285). -/
def Obligations.SensorLinks : Prop :=
  (∀ (s : State) (p g : Nat), s.warm = false → exec (.spLinkChange p true g) s = .next { s with sens := { s.sens with
      sp := modAt s.sens.sp p (fun x => { x with up := true, gear := g, seen := true }) } })
  ∧ (∀ (s : State) (p g : Nat), s.warm = true →
      exec (.spLinkChange p true g) s = .next s ∧ exec (.ethLinkChange p true) s = .next s)
  ∧ (∀ (s : State) (p g : Nat), (s.sens.sp.getD p {}).up = true → ∃ t, exec (.spLinkChange p false g) s = .next t
      ∧ (t.sens.sp.getD p {}).up = false ∧ (t.sens.sp.getD p {}).loss = satAdd 0xFF (s.sens.sp.getD p {}).loss 1
      ∧ (∀ i < 64, stValid (stEntry s i) = true → stEth (stEntry s i) = false → stPort (stEntry s i) = p →
          underReplay s i = false → (streamOf t i).cur = none)
      ∧ t.sch.run = s.sch.run ∧ t.saf = s.saf)
  ∧ (∀ (s : State) (m : Nat), s.warm = false → exec (.ethLinkChange m true) s = .next { s with
      pins := { s.pins with refEth := true }, sens := { s.sens with
      eth := modAt s.sens.eth m (fun x => { x with up := true, seen := true }) } })
  ∧ (∀ (s : State) (m : Nat), (s.sens.eth.getD m {}).up = true → ∃ t, exec (.ethLinkChange m false) s = .next t
      ∧ (t.sens.eth.getD m {}).up = false ∧ (t.sens.eth.getD m {}).loss = satAdd 0xFF (s.sens.eth.getD m {}).loss 1
      ∧ (∀ i < 64, stValid (stEntry s i) = true → stEth (stEntry s i) = true → stPort (stEntry s i) = m →
          underReplay s i = false → (streamOf t i).cur = none)
      ∧ t.sch.run = s.sch.run ∧ t.saf = s.saf)
  ∧ (∀ (s : State), ∃ t, exec .refclkEthLoss s = .next t ∧ t.pins.refEth = false
      ∧ (∀ m < 8, (t.sens.eth.getD m {}).up = false)
      ∧ (∀ m < 8, s.saf.injDone = true → hasActive s = true → (s.sens.eth.getD m {}).seen = true →
          t.fc.fsw.getLsbD 99 = true))
  ∧ (∀ (s : State) (p dt : Nat) (fits : Bool) (pl : List Byte) (r : List (Nat × List Byte)) (x : SpPort),
      s.sens.sp[p]? = some x → spMode s p = 2 → x.fwdQ = (dt, pl) :: r →
      (fits = true → x.up = true → exec (.txForwardPacket p dt fits pl) s = .next { s with
          sens := { s.sens with sp := setAt s.sens.sp p { x with fwdQ := r } }
          out := { s.out with forwarded := BitVec.ofNat 8 (fld (portEntry s p) 1 9 6) :: BitVec.ofNat 8 dt :: pl } })
      ∧ ((fits = false ∨ x.up = false) → ∃ q, (∀ y ∈ q, y ∈ r) ∧ (∀ y, q.head? = some y → y.1 = 0)
          ∧ exec (.txForwardPacket p dt fits pl) s = .next { s with sens := { s.sens with
              sp := setAt s.sens.sp p { x with
                fwdQ := q, fwdCut := q.isEmpty, fwdDrops := satAdd 0xFFFF x.fwdDrops 1 } } }))
  ∧ (∀ (s : State) (p dt : Nat) (fits : Bool) (pl : List Byte),
      (spMode s p ≠ 2 ∨ (s.sens.sp.getD p {}).fwdQ.head? ≠ some (dt, pl)) →
      exec (.txForwardPacket p dt fits pl) s = .next s)

/-- RECORD_CTL START over a DRAM region, unless a recording is on, waits for the next frame start; STOP outside a run
ends at once, in a run at the frame's end, and with no recording on answers ALREADY_DONE. REPLAY_CTL START in IDLE or
ARMED over a recording of the streams it names starts a replay, STOP ends it alike; in RUNNING and HALTED a start is
refused WRONG_STATE. With control pair B stopped they answer NOT_READY (the model's choice, log 48). The next record of the
frame, read by pair B, goes into its stream if the mask names it, and a record whose CRC does not hold ends the replay in state
ERROR (R301 to R303); a record or a recording that comes poisoned stops pair B (R390). -/
def Obligations.RecordAndReplay : Prop :=
  (∀ (k : Pkt) (s s0 : State), starts s 0x78 0 k = some s0 → regionBad k = none →
    (s.sens.recorder.state = 1 → exec (.recordCtlStart k) s = .next (answered s0 0x78 k .wrongState []))
    ∧ (s.sens.recorder.state ≠ 1 → s.rst.pairB = true → exec (.recordCtlStart k) s = .next (answered s0 0x78 k .notReady []))
    ∧ (s.sens.recorder.state ≠ 1 → s.rst.pairB = false → inDram s (regionBase k) (regionLen k) = true →
      hits (fwRegions s) (regionBase k) (regionLen k) = false →
      exec (.recordCtlStart k) s = .next (answered { s0 with sens := { s0.sens with recorder :=
        { state := 1, base := regionBase k, len := regionLen k, mask := regionMask k, armed := true } } } 0x78 k .ok [])))
  ∧ (∀ (k : Pkt) (s s0 : State), starts s 0x78 1 k = some s0 → s.rst.pairB = true →
    exec (.recordCtlStop k) s = .next (answered s0 0x78 k .notReady []))
  ∧ (∀ (k : Pkt) (s s0 : State), starts s 0x79 1 k = some s0 → s.rst.pairB = true →
    exec (.replayCtlStop k) s = .next (answered s0 0x79 k .notReady []))
  ∧ (∀ (k : Pkt) (s s0 : State), starts s 0x78 1 k = some s0 → s.rst.pairB = false →
    (s.sens.recorder.state ≠ 1 → exec (.recordCtlStop k) s = .next (answered s0 0x78 k .alreadyDone []))
    ∧ (s.sens.recorder.state = 1 → s.sch.run = .running → exec (.recordCtlStop k) s = .next (answered
        { s0 with sens := { s0.sens with recorder := { s0.sens.recorder with stopping := true } } } 0x78 k .ok []))
    ∧ (s.sens.recorder.state = 1 → s.sch.run ≠ .running → exec (.recordCtlStop k) s = .next (answered
        { s0 with sens := { s0.sens with recorder := { s0.sens.recorder with
            state := 0, armed := false, stopping := false } } } 0x78 k .ok [])))
  ∧ (∀ (k : Pkt) (s s0 : State) (ecc : List (Nat × Ecc)), starts s 0x79 0 k = some s0 → regionBad k = none →
    ((s.sch.run = .running ∨ s.sch.run = .halted) → exec (.replayCtlStart k ecc) s = .next (answered s0 0x79 k .wrongState []))
    ∧ ((s.sch.run = .idle ∨ s.sch.run = .armed) → s.rst.pairB = true →
        exec (.replayCtlStart k ecc) s = .next (answered s0 0x79 k .notReady []))
    ∧ ((s.sch.run = .idle ∨ s.sch.run = .armed) → s.rst.pairB = false → inDram s (regionBase k) (regionLen k) = true →
      (readsGood s0 srcPairB [(regionBase k, regionLen k)] ecc = true →
        regionMask k &&& ~~~(recStreams s (regionLen k / 32) (regionBase k) (regionBase k + regionLen k) 0) = 0 →
        ∀ u, u = readAll s0 srcPairB [(regionBase k, regionLen k)] ecc →
        exec (.replayCtlStart k ecc) s = .next (settle s (answered { u with sens := { u.sens with replayer :=
          { state := 1, base := regionBase k, len := regionLen k, mask := regionMask k } } } 0x79 k .ok [])))
      ∧ (readsGood s0 srcPairB [(regionBase k, regionLen k)] ecc = false →
        ∃ t, exec (.replayCtlStart k ecc) s = .next t ∧ t.rst.pairB = true ∧ t.fc.fsw.getLsbD 89 = true)))
  ∧ (∀ (k : Pkt) (s s0 : State), starts s 0x79 1 k = some s0 → s.rst.pairB = false →
    (s.sens.replayer.state ≠ 1 → exec (.replayCtlStop k) s = .next (answered s0 0x79 k .alreadyDone []))
    ∧ (s.sens.replayer.state = 1 → s.sch.run ≠ .running → exec (.replayCtlStop k) s = .next (answered
        { s0 with sens := { s0.sens with replayer := { s0.sens.replayer with
            state := 0, stopping := false } } } 0x79 k .ok [])))
  ∧ (∀ (s : State) (ecc : List (Nat × Ecc)), (s.sens.replayer.state ≠ 1 ∨ s.sens.replayer.inFrame = false ∨ s.sch.run ≠ .running) →
    exec (.replayInject ecc) s = .next s)
  ∧ (∀ (s u : State) (r : Replayer) (x : RecIn) (rs : List (Nat × Nat)) (ecc : List (Nat × Ecc)), s.sens.replayer = r →
    r.state = 1 → r.inFrame = true →
    s.sch.run = .running → x = recAt s (r.base + r.pos) → r.pos + 32 ≤ r.len → r.pos + recSize x.hd ≤ r.len →
    rs = [(r.base + r.pos, recSize x.hd)] → u = readAll s srcPairB rs ecc →
    (readsGood s srcPairB rs ecc = false →
      ∃ t, exec (.replayInject ecc) s = .next t ∧ t.rst.pairB = true ∧ t.fc.fsw.getLsbD 89 = true)
    ∧ (readsGood s srcPairB rs ecc = true → x.ok = false → exec (.replayInject ecc) s = .next (settle s
        { u with sens := { u.sens with replayer := { r with state := 3, inFrame := false } } }))
    ∧ (readsGood s srcPairB rs ecc = true → x.ok = true → fld x.hd 0 7 0 ≠ 1 → r.mask.getLsbD (fld x.hd 0 13 8) = false →
      exec (.replayInject ecc) s = .next (settle s
        { u with sens := { u.sens with replayer := { r with pos := r.pos + recSize x.hd } } }))
    ∧ (∀ i f, readsGood s srcPairB rs ecc = true → poolsFit s.cr.pools = true → x.ok = true → fld x.hd 0 7 0 = 6 → i = fld x.hd 0 13 8 → r.mask.getLsbD i = true →
      stValid (stEntry s i) = true → stEth (stEntry s i) = true → i < s.sens.streams.length →
      (streamOf s i).cur = some f → ∃ t, exec (.replayInject ecc) s = .next t ∧ (streamOf t i).cur = none
      ∧ (streamOf t i).kept = (streamOf s i).kept ++ [{ f with closed := true }]
      ∧ t.sens.replayer.pos = r.pos + recSize x.hd))

/-- Mapin sending. The first waiting frame for a node, or HELLO with this node's rank while the node has still to be sent
one, goes out by the port whose turn it is once its credits suffice, with the link's next sequence number, its
acknowledgement, generation, owed credits and NAK, is kept until acknowledged, and takes its credits; with too few
credits it waits (R328, R329, R331, R332). The resend timer sends every unacknowledged frame again under its own number.
A keepalive to a member is that HELLO, and LINK, which takes a credit, after (R331, R332, R335). Time over Mapin. At its
interval a node with SRC MAPIN asks its source, by a request of its own number; the stamps of departure are taken as the
messages go; the source answers with the corrected stamps of arrival and departure; the answer to a request, from the node
asked, gives the servo the sample ((t2 − t1) − (t4 − t3)) / 2, and any other gives none (R322).
That HELLO goes before a frame that waits is the model's reading (log entry 33). -/
def Obligations.MapinSendsAndTime : Prop :=
  ((∀ (s : State) (dst : BitVec 16) (f g : MFrame) (l : MLink) (ecc : List (Nat × Ecc)), s.map.waitQ.find? (fun f => f.dst == dst) = some f →
     l = linkOf s dst → g = (if owesHello s dst && f.typ != .lost then helloTo s dst else f) →
     (l.free < frameCost g → exec (.mapinFrameSend dst ecc) s = .next s)
     ∧ (mapinUp s = true → frameCost g ≤ l.free →
       (g.typ = .writeReq → ecc = [] ∧ poolsFit s.cr.pools = true ∧ s.csramBad = []) →
       ∃ t m p, exec (.mapinFrameSend dst ecc) s = .next t
       ∧ m = { g with payload := p, lseq := l.txSeq + 1, ack := l.rxSeq, gen := s.map.gen, credits := l.owed, nak := l.nak
                      port := nextPort s }
       ∧ (g.typ ≠ .timeResp → p = g.payload)
       ∧ (g.typ = .timeResp → p = g.payload.take 8 ++ stampBytes (now s + egrLat s (nextPort s)))
       ∧ (g.typ = .timeReq → t.ts.mapinT1 = s.ts.mapinT1 ++ [(g.reqId, g.dst, ((now s + egrLat s (nextPort s) : Nat) : Int))])
       ∧ (g.typ ≠ .timeReq → t.ts = s.ts)
       ∧ t.out.mapin = s.out.mapin ++ [m] ∧ t.out.mapinWire = s.out.mapinWire ++ [(nextPort s, frameBytes s m)]
       ∧ linkOf t dst = { l with
           txSeq := l.txSeq + 1, free := l.free - frameCost { g with payload := p }, owed := 0, nak := false
           greeted := l.greeted || g.typ == .hello
           unacked := l.unacked ++ [{ g with payload := p, lseq := l.txSeq + 1 }] }
       ∧ t.map.waitQ = s.map.waitQ.erase g ∧ t.map.turn = nextPort s + 1
       ∧ t.mem = s.mem ∧ t.jobs = s.jobs ∧ t.fc = s.fc))
   ∧ (∀ (s : State) (dst : BitVec 16), mapinUp s = true → (∀ f ∈ (linkOf s dst).unacked, f.dst = dst) → ∃ t,
       exec (.mapinResendTimeout dst) s = .next t
       ∧ (t.out.mapin.drop s.out.mapin.length).map (fun f => (f.typ, f.lseq, f.payload))
         = (linkOf s dst).unacked.map (fun f => (f.typ, f.lseq, f.payload))
       ∧ t.out.mapin.take s.out.mapin.length = s.out.mapin
       ∧ (linkOf t dst).txSeq = (linkOf s dst).txSeq ∧ (linkOf t dst).unacked = (linkOf s dst).unacked
       ∧ (linkOf t dst).free = (linkOf s dst).free ∧ t.mem = s.mem ∧ t.jobs = s.jobs)
   ∧ (∀ (s : State) (dst : BitVec 16), mapinUp s = true → dst ∈ peers s → 1 ≤ (linkOf s dst).free → ∃ t f,
       exec (.mapinLinkKeepalive dst) s = .next t ∧ t.out.mapin = s.out.mapin ++ [f] ∧ f.dst = dst ∧ f.gen = s.map.gen
       ∧ f.ack = (linkOf s dst).rxSeq ∧ f.payload = [] ∧ (linkOf t dst).free = (linkOf s dst).free - 1
       ∧ ((linkOf s dst).greeted = false → f.typ = .hello ∧ f.lseq = (linkOf s dst).txSeq + 1
           ∧ f.arg = BitVec.ofNat 32 (myRank s) ∧ (linkOf t dst).txSeq = (linkOf s dst).txSeq + 1
           ∧ (linkOf t dst).greeted = true)
       ∧ ((linkOf s dst).greeted = true → f.typ = .link ∧ (linkOf t dst).txSeq = (linkOf s dst).txSeq))
   ∧ (∀ (s : State) (dst : BitVec 16), (dst ∉ peers s ∨ (linkOf s dst).free = 0) →
       exec (.mapinLinkKeepalive dst) s = .next s))
  ∧ ((∀ (s : State), s.tb.src = .mapin → mapinUp s = true → exec .mapinTimeReqInterval s = .next { s with map := { s.map with
       nextReq := s.map.nextReq + 1
       waitQ := s.map.waitQ ++ [{ typ := .timeReq, dst := (wd s.ts.cfg 1).extractLsb' 0 16, lseq := 0
                                  reqId := s.map.nextReq, arg := 0, payload := [] }] } })
     ∧ (∀ (s : State), (s.tb.src ≠ .mapin ∨ mapinUp s = false) → exec .mapinTimeReqInterval s = .next s)
     ∧ (∀ (s : State) (h : MHdr), framed s h = true → ∃ u f, exec (.mapinTimeReq h) s = .next (settleUnits s u)
       ∧ u = { afterFrame s h 0 with map := { (afterFrame s h 0).map with waitQ := s.map.waitQ ++ [f] } }
       ∧ f.typ = .timeResp ∧ f.dst = h.src ∧ f.reqId = h.reqId
       ∧ f.payload.take 8 = stampBytes ((now s : Int) - (ingLat s (firstPort s) : Int)).toNat)
     ∧ (∀ (s : State) (h : MHdr) (x : Word × BitVec 16 × Int) (t2 t3 t4 e : Int), framed s h = true →
       s.ts.mapinT1.find? (fun x => x.1 == h.reqId && x.2.1 == h.src) = some x → s.tb.src = .mapin →
       t4 = (now s : Int) - (ingLat s (firstPort s) : Int) → e = ((t2 - x.2.2) - (t4 - t3)) / 2 → e.natAbs < 2 ^ 31 → ∃ u,
       exec (.mapinTimeResp h t2 t3) s = .next (settleUnits s u) ∧ u.tb.lastE = e
       ∧ u.tb.samples = (s.tb.samples + 1) % 2 ^ 32 ∧ u.ts.mapinT1 = s.ts.mapinT1.filter (fun y => y.1 != h.reqId) ∧ u.mem = s.mem ∧ u.sch = s.sch)
     ∧ (∀ (s : State) (h : MHdr) (t2 t3 : Int), framed s h = true →
       s.ts.mapinT1.find? (fun x => x.1 == h.reqId && x.2.1 == h.src) = none →
       exec (.mapinTimeResp h t2 t3) s = .next (settleUnits s (afterFrame s h 16))))

/-- Mapin receiving; after what is stated the stream units go on. A frame with a bad CRC, or out of order, is discarded with
source 112 and a NAK owed, but one ahead of its turn waits while more than one bonded port is up, and is taken with the
frame before it; a message of a generation other than the sender's entry is dropped with source 84 (R328, R331, R335). LINK
brings acknowledgements and credits and leaves the buffer at once, and a credit too many is a conservation violation, the
fatal source 82 (R45, R332). The first HELLO of a member gives it its entry; one with another generation declares the old
one lost first, with source 113 (R335, R336). The loss of a member, declared when it is silent or a request to it times out,
clears its entry, ends the requests to it, fails every barrier, and sets source 113 (R333, R336, R341). LOST from a member
gives this node a new generation and starts its links afresh, each with HELLO (R337). When a frame waits is the model's
reading (log entry 33). -/
def Obligations.MapinReceivesAndLosses : Prop :=
  ((∀ (s : State) (n : BitVec 16), mapinUp s = true → ∃ t, exec (.mapinBadFrame n) s = .next t
     ∧ t.map.crc = satAdd 0xFFFF s.map.crc 1 ∧ t.fc.fsw.getLsbD 112 = true ∧ linkOf t n = { linkOf s n with nak := true }
     ∧ t.mem = s.mem ∧ t.jobs = s.jobs ∧ t.sch = s.sch)
   ∧ (∀ (s : State) (h : MHdr) (a : Nat) (d : List Byte), mapinUp s = true →
     (staleGen s h = true → ∃ u, exec (.mapinWriteReq h a d) s = .next (settleUnits s u) ∧ u.fc.fsw.getLsbD 84 = true
       ∧ u.map.stale = satAdd 0xFFFF s.map.stale 1 ∧ u.map.links = s.map.links ∧ u.mem = s.mem ∧ u.jobs = s.jobs)
     ∧ (staleGen s h = false → h.src ∉ peers s → exec (.mapinWriteReq h a d) s = .next (settleUnits s s))
     ∧ (staleGen s h = false → h.src ∈ peers s → h.lseq ≠ (linkOf s h.src).rxSeq + 1 →
       ((bonded s).length ≤ 1 ∨ 2 ^ 31 ≤ (h.lseq - (linkOf s h.src).rxSeq).toNat ∨ h.lseq = (linkOf s h.src).rxSeq) →
       ∃ u, exec (.mapinWriteReq h a d) s = .next (settleUnits s u)
       ∧ u.fc.fsw.getLsbD 112 = true ∧ linkOf u h.src = { linkOf s h.src with nak := true } ∧ u.mem = s.mem
       ∧ u.jobs = s.jobs)
     ∧ (staleGen s h = false → h.src ∈ peers s → h.lseq ≠ (linkOf s h.src).rxSeq + 1 → 1 < (bonded s).length →
       (h.lseq - (linkOf s h.src).rxSeq).toNat < 2 ^ 31 → h.lseq ≠ (linkOf s h.src).rxSeq → (linkOf s h.src).held = [] →
       h.nak = false → (linkOf s h.src).free + h.credits ≤ allot s →
       ∃ u, exec (.mapinWriteReq h a d) s = .next (settleUnits s u) ∧ u.fc = s.fc ∧ u.mem = s.mem ∧ u.jobs = s.jobs
       ∧ (linkOf u h.src).rxSeq = (linkOf s h.src).rxSeq
       ∧ (linkOf u h.src).held = [{ h := h, m := .writeReq a d, port := firstPort s, at_ := now s }]))
   ∧ (∀ (s : State) (h : MHdr) (x : MHeld), mapinUp s = true → h.src ∈ peers s → staleGen s h = false →
     genEntry s h.src = h.gen → h.gen ≠ 0 → h.nak = false → (linkOf s h.src).free + h.credits ≤ allot s →
     h.lseq = (linkOf s h.src).rxSeq + 1 → (linkOf s h.src).held = [x] → x.h.src = h.src → x.h.lseq = h.lseq + 1 →
     x.m = .hello → ∃ u, exec (.mapinHello h) s = .next (settleUnits s u)
       ∧ (linkOf u h.src).rxSeq = h.lseq + 1 ∧ (linkOf u h.src).held = [] ∧ u.mem = s.mem ∧ u.jobs = s.jobs)
   ∧ (∀ (s : State) (h : MHdr) (l : MLink), mapinUp s = true → staleGen s h = false → h.nak = false →
     l = linkOf s h.src →
     (l.free + h.credits ≤ allot s → exec (.mapinLink h) s = .next (settleUnits s (putLink s { l with
       free := l.free + h.credits, lastNs := now s, owed := l.owed + 1
       unacked := l.unacked.filter (fun f => !((h.ack - f.lseq).toNat < 2 ^ 31)) })))
     ∧ (allot s < l.free + h.credits → ∃ t, exec (.mapinLink h) s = .next t ∧ t.fc.fsw.getLsbD 82 = true))
   ∧ (∀ (s : State) (h : MHdr), mapinUp s = true → h.src ∈ peers s → h.gen ≠ 0 →
     (genEntry s h.src = h.gen → framed s h = true →
       exec (.mapinHello h) s = .next (settleUnits s (afterFrame s h 0)))
     ∧ (genEntry s h.src = 0 → s.map.reissue = [] → ∃ u, exec (.mapinHello h) s = .next (settleUnits s u)
       ∧ genEntry u h.src = h.gen ∧ (linkOf u h.src).rxSeq = h.lseq ∧ (linkOf u h.src).owed = 1
       ∧ (linkOf u h.src).txSeq = 0 ∧ (linkOf u h.src).greeted = false
       ∧ (∀ n, n ≠ h.src → linkOf u n = linkOf s n) ∧ u.mem = s.mem ∧ u.jobs = s.jobs ∧ u.fc = s.fc)
     ∧ (genEntry s h.src ≠ 0 → genEntry s h.src ≠ h.gen → ∃ t, exec (.mapinHello h) s = .next t
       ∧ genEntry t h.src = h.gen ∧ t.fc.fsw.getLsbD 113 = true)))
  ∧ ((∀ (s : State) (n : BitVec 16), s.rst.pairB = false → n ∈ peers s → genEntry s n ≠ 0 → ∃ t,
       exec (.mapinMemberSilent n) s = .next t ∧ genEntry t n = 0 ∧ t.fc.fsw.getLsbD 113 = true
       ∧ t.map.lost = satAdd 0xFF s.map.lost 1 ∧ (∀ r ∈ t.map.reqs, r.dst ≠ n) ∧ t.map.barriers = []
       ∧ (s.map.barriers ≠ [] → t.fc.fsw.getLsbD 114 = true))
     ∧ (∀ (s : State) (n : BitVec 16), (s.rst.pairB = true ∨ n ∉ peers s ∨ genEntry s n = 0) →
       exec (.mapinMemberSilent n) s = .next s)
     ∧ (∀ (s : State) (id : Word) (r : MReq), s.map.reqs.find? (fun r => r.id == id) = some r → s.rst.pairB = false →
       r.dst ≠ s.map.nodeId → ∃ t, exec (.mapinReqTimeout id) s = .next t ∧ (∀ q ∈ t.map.reqs, q.dst ≠ r.dst)
       ∧ t.map.timedOut = s.map.timedOut + (s.map.reqs.filter (fun q => q.dst == r.dst)).length
       ∧ genEntry t r.dst = 0 ∧ (genEntry s r.dst ≠ 0 → t.fc.fsw.getLsbD 113 = true))
     ∧ (∀ (s : State) (h : MHdr), mapinUp s = true → staleGen s h = false → h.src ∈ groupOf s → ∃ t,
       exec (.mapinLost h) s = .next t ∧ t.map.gen = nextGen s.map.gen ∧ t.map.barriers = []
       ∧ (∀ n ∈ peers s, (linkOf t n).txSeq = 0 ∧ (linkOf t n).unacked = [] ∧ (∀ r ∈ t.map.reqs, r.dst ≠ n)
           ∧ ∃ f ∈ t.map.waitQ, f.typ = .hello ∧ f.dst = n)
       ∧ (s.map.barriers ≠ [] → t.fc.fsw.getLsbD 114 = true)))

/-- Transfers; after what is stated the stream units go on. The rows of a WRITE_REQ to a window granted to its sender are
written, and it is answered OK when their writes are acknowledged; one outside every window is answered NOT_PERMITTED, one to
a tensor that is invalid in the frame ABORTED, and both change no memory. A READ_REQ is answered with the bytes, flagged
POISONED where a sector is, or comes so (R225). A reply ends its request; the bytes that a READ_REPLY brings for a job that runs are written; one
that answers no request is a conservation violation, the fatal source 82 (R45, R218, R333, R334). -/
def Obligations.MapinTransfers : Prop :=
  (∀ (s : State) (h : MHdr) (a : Nat) (d : List Byte), framed s h = true →
    (windowFor s h.src a d.length = none → exec (.mapinWriteReq h a d) s = .next (settleUnits s
      (queueFrame (afterFrame s h (8 + d.length)) .writeReply h.src h.reqId (BitVec.ofNat 32 Status.notPermitted.code) [])))
    ∧ (∀ x y, windowFor s h.src a d.length = some x → x.1 = 0 → s.sch.run = .running → tensorAt x.2 a = some y →
      s.sch.invalid.contains (refBase y) = true → exec (.mapinWriteReq h a d) s = .next (settleUnits s
      (queueFrame (afterFrame s h (8 + d.length)) .writeReply h.src h.reqId (BitVec.ofNat 32 Status.aborted.code) [])))
    ∧ (∀ x, windowFor s h.src a d.length = some x → (x.1 ≠ 0 ∨ s.sch.run ≠ .running ∨
        ∀ y, tensorAt x.2 a = some y → s.sch.invalid.contains (refBase y) = false) → d ≠ [] → ∃ u l,
      exec (.mapinWriteReq h a d) s = .next (settleUnits s u) ∧ u.mem = s.mem.write a d ∧ u.fc = s.fc ∧ u.jobs = s.jobs
      ∧ l ∈ u.map.lands ∧ l.owner = x.1 ∧ l.reply = some (h.src, h.reqId) ∧ l.bad = false
      ∧ portOut u (.landing l.id) = true ∧ (linkOf u h.src).rxSeq = h.lseq))
  ∧ (∀ (s : State) (id n : Nat) (r : Req) (l : Land) (p : BitVec 16 × Word) (ecc : List Ecc), reqOf s id = some r →
    r.purpose = .landing n → (∀ q ∈ s.ms.reqs, q.id ≠ id → q.purpose ≠ .landing n) →
    (∀ q ∈ s.ms.portQ, q.purpose ≠ .landing n) → s.map.lands.find? (fun l => l.id == n) = some l → l.reply = some p →
    l.bad = false → ∃ u, exec (.fabricResponse id ecc) s = .next (settleUnits s u)
      ∧ ∃ f ∈ u.map.waitQ, f.typ = .writeReply ∧ f.dst = p.1 ∧ f.reqId = p.2
          ∧ f.arg = BitVec.ofNat 32 Status.ok.code)
  ∧ (∀ (s : State) (h : MHdr) (a : Nat) (ecc : List (Nat × Ecc)), framed s h = true →
    (windowFor s h.src a h.arg.toNat = none → exec (.mapinReadReq h a ecc) s = .next (settleUnits s
      (queueFrame (afterFrame s h 8) .readReply h.src h.reqId (BitVec.ofNat 32 Status.notPermitted.code) [])))
    ∧ (∀ x, windowFor s h.src a h.arg.toNat = some x → ∃ u f, exec (.mapinReadReq h a ecc) s = .next (settleUnits s u)
      ∧ u.map.waitQ = s.map.waitQ ++ [f] ∧ f.typ = .readReply ∧ f.dst = h.src ∧ f.reqId = h.reqId
      ∧ f.payload = s.mem.read a h.arg.toNat ∧ u.mem = s.mem ∧ u.jobs = s.jobs
      ∧ (ecc = [] → poolsFit s.cr.pools = true → s.csramBad = [] → u.fc = s.fc)
      ∧ (ecc = [] → poisonOffs s a h.arg.toNat = [] → f.arg = BitVec.ofNat 32 Status.ok.code)
      ∧ (ecc = [] → poisonOffs s a h.arg.toNat ≠ [] → f.arg = BitVec.ofNat 32 Status.poisoned.code
          ∧ f.flagged = poisonOffs s a h.arg.toNat)
      ∧ (∀ u ∈ unitsOf a h.arg.toNat, isDram s u = true → u % 64 = 0 → (∀ y ∈ ecc, y = (u, .uncorrectable)) → ecc ≠ [] →
          f.arg = BitVec.ofNat 32 Status.poisoned.code ∧ u - a ∈ f.flagged)))
  ∧ (∀ (s : State) (h : MHdr) (r : MReq), framed s h = true →
    s.map.reqs.find? (fun r => r.id == h.reqId && r.dst == h.src && r.write == true) = some r →
    ∃ t, exec (.mapinWriteReply h) s = .next t ∧ t.map.replied = s.map.replied + 1
      ∧ t.map.reqs = s.map.reqs.filter (fun x => x.id != r.id))
  ∧ (∀ (s : State) (h : MHdr), framed s h = true →
    s.map.reqs.find? (fun r => r.id == h.reqId && r.dst == h.src && r.write == true) = none →
    ∃ t, exec (.mapinWriteReply h) s = .next t ∧ t.fc.fsw.getLsbD 82 = true)
  ∧ (∀ (s : State) (h : MHdr) (d : List Byte) (po : List Nat) (r : MReq) (tk : Word), framed s h = true →
    s.map.reqs.find? (fun r => r.id == h.reqId && r.dst == h.src && r.write == false) = some r → r.token = some tk →
    ∃ u, exec (.mapinReadReply h d po) s = .next (settleUnits s u) ∧ u.map.replied = s.map.replied + 1
      ∧ u.map.reqs = s.map.reqs.filter (fun x => x.id != r.id)
      ∧ (jobOf s tk = none → u.mem = s.mem ∧ u.jobs = s.jobs ∧ u.fc = s.fc)
      ∧ (∀ j, jobOf s tk = some j → (∃ q ∈ s.map.reqs, q.id ≠ r.id ∧ q.token = some tk) → d.take r.len ≠ [] →
          u.mem = s.mem.write r.addr (d.take r.len) ∧ u.jobs = s.jobs ∧ u.fc = s.fc
          ∧ ∃ l ∈ u.map.lands, l.owner = ownerOf j ∧ l.reply = none
              ∧ l.rows = (if r.rowEnd then [r.addr] else []) ∧ portOut u (.landing l.id) = true))

/-- Barriers; after a message the stream units go on. An ARRIVE before the leader's own RUN_CTL is kept with its sender's
generation. When the last member's ARRIVE reaches the leader of a
START_GROUP barrier, the leader releases it: RELEASE goes to every other member, the release time is no earlier than
any proposal, at least 1 ms ahead and a whole microsecond, and the leader enters ARMED with it (R339). A member that
takes a RELEASE in time does the same in IDLE, and keeps its frames in RUNNING; a RELEASE that comes at or after its
time, and the barrier timer, fail the barrier with source 114 (R340, R341). -/
def Obligations.MapinBarriers : Prop :=
  (∀ (s : State) (h : MHdr) (q : Word) (sec ns : Nat), framed s h = true →
    s.map.barriers.find? (fun b => b.id == bits h.arg 15 0 && b.join == bit h.arg 16) = none →
    exec (.mapinArrive h q sec ns) s = .next (settleUnits s { afterFrame s h 16 with map := { (afterFrame s h 16).map with
      early := s.map.early ++ [(bits h.arg 15 0, bit h.arg 16, h.src, h.gen, sec * 1000000000 + ns)] } }))
  ∧ (∀ (s : State) (h : MHdr) (q : Word) (sec ns : Nat) (b : Barrier), framed s h = true →
    s.map.barriers.find? (fun b => b.id == bits h.arg 15 0 && b.join == bit h.arg 16) = some b →
    b.join = false → s.sch.run = .idle → (groupOf s).headD 0 = s.map.nodeId →
    (∀ n ∈ groupOf s, n = h.src ∨ ∃ x ∈ b.arrived, x.1 = n) → ∃ u,
    exec (.mapinArrive h q sec ns) s = .next (settleUnits s u) ∧ u.sch.run = .armed ∧ u.sch.firstSeq = b.seq
    ∧ sec * 1000000000 + ns ≤ u.sch.startAt ∧ (∀ x ∈ b.arrived, x.1 ≠ h.src → x.2 ≤ u.sch.startAt)
    ∧ now s + 1000000 ≤ u.sch.startAt ∧ u.sch.startAt % 1000 = 0 ∧ u.saf.trust = .awaiting
    ∧ (∀ n ∈ peers s, ∃ f ∈ u.map.waitQ, f.typ = .release ∧ f.dst = n
        ∧ f.payload = barrierPayload b.seq u.sch.startAt)
    ∧ (∀ x ∈ u.map.barriers, x.token ≠ b.token) ∧ (∀ x ∈ u.cmd.tokens, x.token = b.token → x.live = false))
  ∧ (∀ (s : State) (h : MHdr) (q : Word) (sec ns : Nat) (b : Barrier), framed s h = true →
    s.map.barriers.find? (fun b => b.id == bits h.arg 15 0) = some b → ∃ u,
    exec (.mapinRelease h q sec ns) s = .next (settleUnits s u) ∧ (∀ x ∈ u.map.barriers, x.token ≠ b.token)
    ∧ (∀ x ∈ u.cmd.tokens, x.token = b.token → x.live = false) ∧ u.mem = s.mem ∧ u.jobs = s.jobs
    ∧ (sec * 1000000000 + ns ≤ now s → u.fc.fsw.getLsbD 114 = true ∧ u.sch = s.sch)
    ∧ (now s < sec * 1000000000 + ns → u.fc = s.fc
      ∧ (s.sch.run = .idle → u.sch.run = .armed ∧ u.sch.startAt = sec * 1000000000 + ns ∧ u.sch.firstSeq = q)
      ∧ (s.sch.run ≠ .idle → u.sch = s.sch)))
  ∧ (∀ (s : State) (b : Barrier) (r : List Barrier), s.map.barriers = b :: r → s.rst.pairB = false → ∃ t,
    exec .barrierTimeout s = .next t ∧ t.fc.fsw.getLsbD 114 = true ∧ t.map.barFails = satAdd 0xFF s.map.barFails 1
    ∧ (∀ x ∈ t.map.barriers, x.token ≠ b.token) ∧ (∀ x ∈ t.cmd.tokens, x.token = b.token → x.live = false)
    ∧ t.sch = s.sch ∧ t.mem = s.mem)
  ∧ (∀ (s : State), s.map.barriers = [] → exec .barrierTimeout s = .next s)

/-- Headland's inputs. The record at the mirror ring's read pointer is consumed: its points that lie on the grid raise
their cells by one when its stream is a lidar's and its stamp lies in the frame's window (R357, R358). Evidence is
copied once its job has ended DONE, its rows in order, read by control pair B; a job that ended otherwise, and a row that
comes poisoned, leave it missing (R356, R361). A rule is
evaluated once its inputs exist, and once in a frame. JOBS_DONE is violated as soon as one of its jobs has ended other
than DONE (when is the model's reading, log 15), and else waits for them all; the violation of a rule with the FAIL action withdraws trust with cause 1, of one with the HOLD
action with cause 2 once the frames that hold exceed the program's tolerance, and not before. Missing evidence
violates RANGE; evidence present violates it if more elements lie outside than it allows; DELTA is not violated where the frame
before has no evidence (R362, R365, R371, R372). -/
def Obligations.EvidenceAndRules : Prop :=
  ((∀ (s : State), (halted s = true ∨ s.hl.stopped = true ∨ s.hl.wr ≤ s.hl.rd) → exec .mirrorRecordBin s = .next s)
   ∧ (∀ (s : State), halted s = false → s.hl.stopped = false → s.hl.rd < s.hl.wr →
     (activeSet s).prog.lidars.find? (fun l => fld l 0 5 0 == ringStream s 0) = none →
     exec .mirrorRecordBin s = .next { s with hl := { s.hl with rd := s.hl.rd + ringSize s 0 } })
   ∧ (∀ (s : State) (l : List Word) (os : List Nat), halted s = false → s.hl.stopped = false → s.hl.rd < s.hl.wr →
     (activeSet s).prog.lidars.find? (fun l => fld l 0 5 0 == ringStream s 0) = some l → s.sch.run = .running →
     (ringStamp s 0 + stampRange - s.sch.t % stampRange) % stampRange < ttOutCommit (tide s) →
     os = ((List.range (fld l 2 15 0)).map (fun k => fld l 1 15 0 + k * fld l 1 23 16)).filter
       (fun o => o + fld l 1 23 16 ≤ ringLen s 0) → ∃ t,
     exec .mirrorRecordBin s = .next t ∧ t.hl.rd = s.hl.rd + ringSize s 0 ∧ t.hl.grid.length = s.hl.grid.length
     ∧ (∀ c, c < s.hl.grid.length → t.hl.grid.getD c 0 = s.hl.grid.getD c 0
         + (os.filter (fun o => pointCell s l (16 + o) == some c)).length)
     ∧ t.mem = s.mem ∧ t.sch = s.sch ∧ t.saf = s.saf ∧ t.fc = s.fc)
   ∧ (∀ (s : State) (i : Nat) (x r : List Word) (ecc : List (Nat × Ecc)) (rs : List (Nat × Nat)),
     (activeSet s).prog.evids[i]? = some x → judging s = true →
     i < s.hl.evid.length → s.hl.evid.getD i none = none → r = evidRef x →
     rs = (List.range (refRows r)).map (fun k => (physOf s (refRowAddr r k), rowBytes r)) →
     ((s.sch.tt.getD (evidJob x) {}).ended = none → exec (.evidenceCopy i ecc) s = .next s)
     ∧ ((s.sch.tt.getD (evidJob x) {}).ended = some .done → poolsFit s.cr.pools = true →
       readsGood s srcPairB rs ecc = true → ∃ t,
       exec (.evidenceCopy i ecc) s = .next t ∧ t.hl.evid.getD i none = some ((List.range (refRows r)).flatMap
         (fun k => s.mem.read (physOf s (refRowAddr r k)) (rowBytes r)))
       ∧ (∀ j, j ≠ i → t.hl.evid.getD j none = s.hl.evid.getD j none) ∧ t.mem = s.mem ∧ t.saf = s.saf ∧ t.sch = s.sch)
     ∧ ((s.sch.tt.getD (evidJob x) {}).ended = some .done → poolsFit s.cr.pools = true →
       readsGood s srcPairB rs ecc = false → ∃ t,
       exec (.evidenceCopy i ecc) s = .next t ∧ t.hl.evid.getD i none = some []
       ∧ (∀ j, j ≠ i → t.hl.evid.getD j none = s.hl.evid.getD j none) ∧ t.mem = s.mem ∧ t.saf = s.saf ∧ t.sch = s.sch)
     ∧ (∀ o, (s.sch.tt.getD (evidJob x) {}).ended = some o → o ≠ .done → exec (.evidenceCopy i ecc) s = .next { s with
         hl := { s.hl with evid := setAt s.hl.evid i (some []) } })))
  ∧ ((∀ (s : State) (i : Nat), (judging s = false ∨ ∃ x ∈ s.hl.res, x.i = i) → exec (.ruleEvaluate i) s = .next s)
     ∧ (∀ (s : State) (i : Nat) (r : List Word) (js : List Nat) (o : Nat → Option JobEnd),
       (activeSet s).prog.rules[i]? = some r → judging s = true → (∀ x ∈ s.hl.res, x.i ≠ i) → fld r 0 7 0 = 1 →
       js = (List.range (fld r 2 31 16)).map (· + fld r 2 15 0) → (∀ j, o j = (s.sch.tt.getD j {}).ended) →
       ((∃ j ∈ js, o j = none) → (∀ j ∈ js, o j = none ∨ o j = some .done) → exec (.ruleEvaluate i) s = .next s)
       ∧ ((∀ j ∈ js, o j = some .done) → ∃ ws, exec (.ruleEvaluate i) s = .next { s with hl := { s.hl with
           res := s.hl.res ++ [{ i := i, violated := false, words := ws }] } })
       ∧ ((∃ j ∈ js, o j ≠ none ∧ o j ≠ some .done) → ∃ t ws, exec (.ruleEvaluate i) s = .next t
         ∧ t.hl.res = s.hl.res ++ [{ i := i, violated := true, words := ws }] ∧ t.mem = s.mem ∧ t.sch = s.sch
         ∧ (bit (wd r 0) 8 = true → (s.saf.trust = .trusted ∨ s.saf.trust = .awaiting) →
             t.saf.trust = .withdrawn ∧ t.saf.wCause = 1 ∧ t.saf.wSeq = s.sch.seq ∧ t.pins.safeA = false
             ∧ t.pins.safeB = false)
         ∧ (bit (wd r 0) 8 = false → s.hl.holdSeen = true → t.saf = s.saf ∧ t.pins = s.pins)
         ∧ (bit (wd r 0) 8 = false → s.hl.holdSeen = false → t.saf.holds = true :: s.saf.holds.drop 1
           ∧ (holdRunOf t ≤ bits (wd (activeSet s).prog.hdr 2) 3 0 → holdWinOf t ≤ bits (wd (activeSet s).prog.hdr 2) 7 4 →
             t.saf.trust = s.saf.trust ∧ t.pins = s.pins)
           ∧ (bits (wd (activeSet s).prog.hdr 2) 3 0 < holdRunOf t → s.saf.trust = .trusted →
             t.saf.trust = .withdrawn ∧ t.saf.wCause = 2 ∧ t.pins.safeA = false ∧ t.pins.safeB = false))))
     ∧ (∀ (s : State) (i : Nat) (r ref : List Word) (bs : List Byte), (activeSet s).prog.rules[i]? = some r →
       judging s = true → (∀ x ∈ s.hl.res, x.i ≠ i) → fld r 0 7 0 = 4 →
       ref = evidRef ((activeSet s).prog.evids.getD (fld r 1 3 0) []) →
       (s.hl.evid.getD (fld r 1 3 0) none = none → exec (.ruleEvaluate i) s = .next s)
       ∧ (s.hl.evid.getD (fld r 1 3 0) none = some [] → ∃ t, exec (.ruleEvaluate i) s = .next t
         ∧ t.hl.res = s.hl.res ++ [{ i := i, violated := true, words := [0xFFFF_FFFE] }])
       ∧ (s.hl.evid.getD (fld r 1 3 0) none = some bs → bs ≠ [] → ∃ t ws, exec (.ruleEvaluate i) s = .next t
         ∧ t.hl.res = s.hl.res ++ [{ i := i, words := ws, violated := decide ((wd r 4).toNat <
             ((List.range (refElems ref)).filter (fun k => (evidElem ref bs k).isNan
               || FV.lt (evidElem ref bs k) (dec32 (wd r 2)) || FV.lt (dec32 (wd r 3)) (evidElem ref bs k))).length) }]))
     ∧ (∀ (s : State) (i : Nat) (r : List Word), (activeSet s).prog.rules[i]? = some r → judging s = true →
       (∀ x ∈ s.hl.res, x.i ≠ i) → fld r 0 7 0 = 5 →
       (s.hl.prevEvid.getD (fld r 1 3 0) none = none ∨ s.hl.prevEvid.getD (fld r 1 3 0) none = some []) →
       exec (.ruleEvaluate i) s = .next { s with hl := { s.hl with
         res := s.hl.res ++ [{ i := i, violated := false, words := [] }] } }))

/-- The verdict is written once every S-class job has ended and every rule is evaluated: FAIL if a rule with the FAIL
action is violated, else HOLD if any is, else PASS; it is queued for port S (R365, R368). The last PASS awaited grants trust,
with SAFE_A high unless the output stage is clamped; a PASS before it is counted, HOLD starts the count again, and FAIL leaves
trust WITHDRAWN; a verdict that leaves trust TRUSTED sets the lease (R369, R370, R373). A lease that expires while trust is
TRUSTED withdraws it with cause 5 and sets the fatal source 106; one that expires otherwise only ends (R371, R373). The SAFE
outputs. While trust is TRUSTED, the stage is not clamped and the clocks run, they change level in antiphase; otherwise both
are low. A trip of the monitor clamps both low and touches neither trust nor the sources (R369, R532). -/
def Obligations.VerdictsTrustAndSafeOutputs : Prop :=
  ((∀ (s : State), (judging s = false ∨ verdictDue s = false) → exec .verdictWrite s = .next s)
   ∧ (∀ (s : State), judging s = true → verdictDue s = true → ∃ t, exec .verdictWrite s = .next t
     ∧ t.hl.written = true ∧ t.hl.lastSeq = s.sch.seq ∧ t.cmd.verdict.length = 32
     ∧ wd t.cmd.verdict 0 = s.sch.seq ∧ fld t.cmd.verdict 1 1 0 = t.hl.lastVerdict
     ∧ ((∃ x ∈ s.hl.res, x.violated = true ∧ bit (wd ((activeSet s).prog.rules.getD x.i []) 0) 8 = true) →
         t.hl.lastVerdict = 3)
     ∧ ((∃ x ∈ s.hl.res, x.violated = true) → (∀ x ∈ s.hl.res, x.violated = true →
         bit (wd ((activeSet s).prog.rules.getD x.i []) 0) 8 = false) → t.hl.lastVerdict = 2)
     ∧ ((∀ x ∈ s.hl.res, x.violated = false) → t.hl.lastVerdict = 1)
     ∧ (s.saf.trust = .awaiting → t.hl.lastVerdict = 1 → s.saf.passes ≤ 1 → t.saf.trust = .trusted
         ∧ (s.saf.clamp = false → t.pins.safeA = true ∧ t.pins.safeB = false))
     ∧ (s.saf.trust = .awaiting → t.hl.lastVerdict = 1 → 1 < s.saf.passes →
         t.saf.trust = .awaiting ∧ t.saf.passes = s.saf.passes - 1 ∧ t.pins = s.pins)
     ∧ (s.saf.trust = .awaiting → t.hl.lastVerdict = 2 →
         t.saf.trust = .awaiting ∧ t.saf.passes = fld (activeSet s).prog.hdr 2 23 16)
     ∧ ((s.saf.trust = .awaiting ∨ s.saf.trust = .trusted) → t.hl.lastVerdict = 3 →
         t.saf.trust = .withdrawn ∧ t.saf.wCause = 1 ∧ t.pins.safeA = false ∧ t.pins.safeB = false)
     ∧ (s.saf.trust ≠ .awaiting → t.hl.lastVerdict ≠ 3 → t.saf.trust = s.saf.trust ∧ t.pins = s.pins)
     ∧ (s.saf.trust ≠ .awaiting → s.saf.trust ≠ .trusted → t.saf.trust = s.saf.trust ∧ t.pins = s.pins)
     ∧ (t.saf.trust = .trusted →
         t.saf.lease = some (s.sch.t + ttPeriod (tide s) + nextSlackStart s + 1000000))
     ∧ t.sch = s.sch ∧ t.fc = s.fc ∧ t.jobs = s.jobs)
   ∧ (∀ (s : State) (l : Nat), s.saf.lease = some l → s.saf.trust = .trusted → ∃ t, exec .trustLeaseExpire s = .next t
     ∧ t.fc.fsw.getLsbD 106 = true ∧ t.saf.wCause = 5 ∧ t.saf.wSeq = s.sch.seq ∧ t.saf.lease = none
     ∧ t.saf.trust ≠ .trusted ∧ t.pins.safeA = false ∧ t.pins.safeB = false)
   ∧ (∀ (s : State) (l : Nat), s.saf.lease = some l → s.saf.trust ≠ .trusted → ∃ t, exec .trustLeaseExpire s = .next t
     ∧ t.saf.lease = none ∧ t.saf.trust = s.saf.trust ∧ t.fc = s.fc ∧ t.jobs = s.jobs ∧ t.mem = s.mem)
   ∧ (∀ (s : State), s.saf.lease = none → exec .trustLeaseExpire s = .next s))
  ∧ ((∀ (s : State), s.saf.trust = .trusted → s.saf.clamp = false → s.pins.clocksOff = false →
       exec .safeToggle s = .next { s with pins := { s.pins with safeA := !s.pins.safeA, safeB := s.pins.safeA } })
     ∧ (∀ (s : State), (s.saf.trust ≠ .trusted ∨ s.saf.clamp = true ∨ s.pins.clocksOff = true) →
       exec .safeToggle s = .next { s with pins := { s.pins with safeA := false, safeB := false } })
     ∧ (∀ (s : State), exec .safeMonitorTrip s = .next { s with
         saf := { s.saf with clamp := true }, pins := { s.pins with safeA := false, safeB := false } }))

/-- A known-answer slice that is due starts on an idle engine when it fits, waits for SLACK, or is deferred and
counted (R379, R380, R384). Its end, without poison, either passes it, counted, or quarantines the engine, counted,
with the fatal source 107; running longer than its length fails it; an operand that a decoder finds uncorrectable
ends it without a result, as poison does (R100, R170, R378, R383, R384). RUN_SELFTEST of engines that are not
quarantined is accepted with a token and owes every slice of the pack; an empty mask, a reserved bit and a quarantined
engine are refused BAD_PARAM (R382). LOAD_TEST_PACK over a DRAM region outside the sets', the sequences' and the
firmware's is accepted with a token; while one is being verified or waits it answers BUSY. A verified pack that passes
its checks becomes active at once outside RUNNING and waits in it; one whose signature fails is answered SIG_FAIL and
the active pack stays, as for one that fails a check, which is answered BAD_PARAM; one that control pair A reads with poison
stops the pair (R385, R386, R390, R499). -/
def Obligations.SlicesAndTestPacks : Prop :=
  ((∀ (s : State) (e : Nat) (x : Engine) (w : KatWhy), e < 26 → s.eng[e]? = some x → x.arr = none → x.drn = none →
     x.kat = none → x.resetting = false → x.quar = false → sliceHeld s e = false → s.warm = false → halted s = false → katNext s e = some w →
     (katFit s e w = .go → ∃ t, exec (.katSliceStart e) s = .next t ∧ (engOf t e).kat = some w
       ∧ (engOf t e).katEnt = nextSlice s e w ∧ (∀ j, j ≠ e → t.eng[j]? = s.eng[j]?) ∧ t.saf = s.saf ∧ t.mem = s.mem)
     ∧ (katFit s e w = .wait → exec (.katSliceStart e) s = .next s)
     ∧ (katFit s e w = .defer → ∃ t, exec (.katSliceStart e) s = .next t ∧ (engOf t e).kat = none
       ∧ (engOf t e).deferred = true ∧ t.saf = { s.saf with katDeferred := satAdd 0xFF s.saf.katDeferred 1 }))
   ∧ (∀ (s : State) (e : Nat), (26 ≤ e ∨ katNext s e = none ∨ (engOf s e).quar = true) →
     exec (.katSliceStart e) s = .next s)
   ∧ (∀ (s : State) (e c : Nat) (ls : List (Nat × (Nat × Nat × Word))) (fs : List (Nat × Byte)), (engOf s e).kat = none →
     exec (.katSliceEnd e c ls fs) s = .next s)
   ∧ (∀ (s : State) (e c : Nat) (ls : List (Nat × (Nat × Nat × Word))) (fs : List (Nat × Byte)) (w : KatWhy),
     e < 26 → halted s = false → (engOf s e).kat = some w → ∃ t, exec (.katSliceEnd e c ls fs) s = .next t ∧ (engOf t e).kat = none
     ∧ (slicePoisoned s e = true → (engOf t e).deferred = true ∧ t.fc.fsw.getLsbD (ucSource e) = true)
     ∧ (s.poison = [] → s.csramBad = [] →
       ((engOf t e).quar = (engOf s e).quar ∧ t.saf.katPassed = satAdd 0xFFFF s.saf.katPassed 1 ∧ c ≤ sliceLen (engOf s e).katEnt)
       ∨ ((engOf t e).quar = true ∧ t.saf.katFailed = satAdd 0xFF s.saf.katFailed 1 ∧ t.fc.fsw.getLsbD 107 = true)))
   ∧ (∀ (s : State) (e c : Nat) (ls : List (Nat × (Nat × Nat × Word))) (fs : List (Nat × Byte)) (w : KatWhy) (errs : List EngErr),
     e < 26 → halted s = false → (engOf s e).kat = some w → sliceUc errs = true → ∃ t,
     exec (.katSliceEnd e c ls fs errs) s = .next t ∧ (engOf t e).kat = none ∧ (engOf t e).quar = (engOf s e).quar
     ∧ t.saf.katPassed = s.saf.katPassed ∧ t.saf.katFailed = s.saf.katFailed
     ∧ t.saf.katDeferred = satAdd 0xFF s.saf.katDeferred 1 ∧ t.fc.fsw.getLsbD (ucSource e) = true)
   ∧ (∀ (k : Pkt) (s s0 : State) (m : Nat), starts s 0x53 0 k = some s0 → m = (wd k.params 0).toNat →
     ((m = 0 ∨ 2 ^ 26 ≤ m ∨ ∃ e < 26, m.testBit e = true ∧ (engOf s e).quar = true) →
       exec (.runSelftest k) s = .next (answered s0 0x53 k .badParam [0, 2]))
     ∧ (0 < m → m < 2 ^ 26 → (∀ e < 26, m.testBit e = true → (engOf s e).quar = false) →
       (∀ x ∈ s.saf.tests, x.todo ≠ []) → (∀ j < 7, packSlices s.saf.pack j ≠ []) → ∃ t x,
       exec (.runSelftest k) s = .next (answered t 0x53 k .accepted [BitVec.ofNat 32 s.sch.cmdSeq])
       ∧ t.saf.tests = s.saf.tests ++ [x] ∧ x.token = BitVec.ofNat 32 s.sch.cmdSeq ∧ x.passed = [] ∧ x.failed = []
       ∧ (∀ e i, (e, i) ∈ x.todo ↔ e < 26 ∧ m.testBit e = true
           ∧ i < (packSlices s.saf.pack (kindCode (engKind e))).length)
       ∧ t.eng = s.eng ∧ t.mem = s.mem)))
  ∧ ((∀ (k : Pkt) (s s0 : State) (a n : Nat), starts s 0x54 0 k = some s0 → (wd k.params 1).toNat < 65536 →
       a = (wd k.params 0).toNat + (wd k.params 1).toNat * 2 ^ 32 → n = (wd k.params 2).toNat →
       ((s.saf.packLoad.isSome = true ∨ s.saf.packNext.isSome = true) →
         exec (.loadTestPack k) s = .next (answered s0 0x54 k .busy []))
       ∧ (s.saf.packLoad = none → s.saf.packNext = none → inDram s a n = true →
         hits (setRegions s ++ seqRegions s ++ fwRegions s) a n = false → exec (.loadTestPack k) s = .next (answered
           { (issueCmd s0 k.port).2 with saf := { s0.saf with
               packLoad := some (BitVec.ofNat 32 s.sch.cmdSeq, a, n) } } 0x54 k .accepted [BitVec.ofNat 32 s.sch.cmdSeq])))
     ∧ (∀ (s : State) (ecc : List (Nat × Ecc)), (s.saf.packLoad = none ∨ s.rst.pairA = true) →
       exec (.loadTestPackDone ecc) s = .next s)
     ∧ (∀ (s : State) (tok : Word) (a n : Nat) (ecc : List (Nat × Ecc)), s.saf.packLoad = some (tok, a, n) → s.rst.pairA = false →
       readsGood s srcPairA [(a, n)] ecc = false → ∃ t,
       exec (.loadTestPackDone ecc) s = .next t ∧ t.rst.pairA = true ∧ t.saf.packLoad = s.saf.packLoad ∧ t.saf.pack = s.saf.pack)
     ∧ (∀ (s : State) (tok : Word) (a n : Nat) (p : Pack) (ecc : List (Nat × Ecc)), s.saf.packLoad = some (tok, a, n) →
       s.rst.pairA = false → readsGood s srcPairA [(a, n)] ecc = true → p = parsePack a n ((s.mem.read a n).take (n - 2240)) → ∃ t,
       exec (.loadTestPackDone ecc) s = .next t ∧ t.saf.packLoad = none ∧ (∀ x ∈ t.cmd.tokens, x.token = tok → x.live = false)
       ∧ (sigRow s 9 (s.mem.read a n) ≠ 0 → t.saf.pack = s.saf.pack ∧ t.saf.packNext = s.saf.packNext
           ∧ t.fc.fsw.getLsbD 121 = true)
       ∧ (∀ f, sigRow s 9 (s.mem.read a n) = 0 → packBad s p ((s.mem.read a n).take (n - 2240)) = some f →
           f.1 = .badParam ∧ t.saf.pack = s.saf.pack ∧ t.saf.packNext = s.saf.packNext)
       ∧ (sigRow s 9 (s.mem.read a n) = 0 → packBad s p ((s.mem.read a n).take (n - 2240)) = none →
           (s.sch.run = .running → t.saf.pack = s.saf.pack ∧ t.saf.packNext = some p)
           ∧ (s.sch.run ≠ .running → t.saf.pack = p ∧ t.saf.packNext = none ∧ ∀ x ∈ t.eng, x.rot = 0))))

/-- LOAD_FIRMWARE outside running firmware, with no load in work, is accepted with a token and protects its region at
once. A load that fails a check ends with the boot state as it was, source 121 showing a signature's failure; one that
holds has its sections copied, then any fuses programmed that it asks for, and ends with its slices run, the firmware running,
its version and its test pack in force (R494 to R496, R499, R501, R502). An image that control pair A reads with poison stops the
pair (R390). That the checks are evaluated when the command is accepted is the model's choice (log entry 22).
Fuse programming blows what its request names: the firmware's minimum version only rises, anchors only become revoked,
owner digests and the lifecycle state are set; a chip warm reset that waited follows (R502, R504, R513). The TAP's
instruction. SAMPLE, IDCODE and TOKEN_DR are always open, CMD_DR where port D is, EXTEST, CLAMP and HIGHZ where
boundary scan is, in IDLE and NOT_ARMED; one that is not acts as BYPASS. A TAP reset selects IDCODE, which captures
0xB162_0A3F; TOKEN_DR captures the token's status. Leaving EXTEST,
CLAMP or HIGHZ starts a chip warm reset (R503, R505). -/
def Obligations.FirmwareFusesAndTap : Prop :=
  ((∀ (k : Pkt) (s s0 : State) (a n : Nat), starts s 0x10 0 k = some s0 → (wd k.params 1).toNat < 65536 →
     a = (wd k.params 0).toNat + (wd k.params 1).toNat * 2 ^ 32 → n = (wd k.params 2).toNat →
     (s.sec.fwRunning = true → exec (.loadFirmware k) s = .next (answered s0 0x10 k .wrongState []))
     ∧ (s.sec.fwRunning = false → s.sec.load.isSome = true → exec (.loadFirmware k) s = .next (answered s0 0x10 k .busy []))
     ∧ (s.sec.fwRunning = false → s.sec.load = none → ∃ t l,
       exec (.loadFirmware k) s = .next (answered t 0x10 k .accepted [BitVec.ofNat 32 s.sch.cmdSeq])
       ∧ t.sec.load = some l ∧ l.token = BitVec.ofNat 32 s.sch.cmdSeq ∧ l.addr = a ∧ l.len = n
       ∧ (a, n) ∈ t.sec.fwProt ∧ t.boot = s.boot ∧ t.mem = s.mem
       ∧ (l.row = 0 ↔ sigRow s 8 (s.mem.read a n) = 0 ∧ imageRow s a n (s.mem.read a n) = 0)))
   ∧ (∀ (s : State) (ups : List SliceUpset) (ecc : List (Nat × Ecc)), (s.sec.load = none ∨ halted s = true ∨ s.rst.pairA = true
       ∨ s.warm = true ∨ s.sec.fuse.isSome = true) → exec (.firmwareLoadDone ups ecc) s = .next s)
   ∧ (∀ (s : State) (l : FwLoad) (ups : List SliceUpset) (ecc : List (Nat × Ecc)), s.sec.load = some l → halted s = false →
     s.rst.pairA = false → s.warm = false → s.sec.fuse = none → l.copied = false →
     readsGood s srcPairA [(l.addr, l.len)] ecc = false → ∃ t,
     exec (.firmwareLoadDone ups ecc) s = .next t ∧ t.rst.pairA = true ∧ t.sec.load = some l ∧ t.boot = s.boot)
   ∧ (∀ (s u : State) (l : FwLoad) (ups : List SliceUpset) (ecc : List (Nat × Ecc)), s.sec.load = some l → halted s = false →
     s.rst.pairA = false → s.warm = false → s.sec.fuse = none → poolsFit s.cr.pools = true →
     ((l.copied = true ∧ u = s) ∨ (l.copied = false ∧ readsGood s srcPairA [(l.addr, l.len)] ecc = true
       ∧ u = copySections (sigCount (readAll s srcPairA [(l.addr, l.len)] ecc) true) l.addr)) →
     (l.copied = false → l.row ≠ 0 → ∃ t, exec (.firmwareLoadDone ups ecc) s = .next t ∧ t.sec.load = none ∧ t.boot = s.boot
       ∧ t.sec.fwRunning = s.sec.fwRunning ∧ (l.row ≤ 8 → t.fc.fsw.getLsbD 121 = true)
       ∧ (∀ x ∈ t.cmd.tokens, x.token = l.token → x.live = false) ∧ t.mem = s.mem)
     ∧ (∀ f, l.copied = false → l.row = 0 → imageFuses u l.addr = some f → ∃ t, exec (.firmwareLoadDone ups ecc) s = .next t
       ∧ t.sec.fuse = some f ∧ t.sec.load = some { l with copied := true } ∧ t.mem = u.mem ∧ t.boot = s.boot)
     ∧ ((l.copied = true ∨ (l.row = 0 ∧ imageFuses u l.addr = none)) → ∃ t, exec (.firmwareLoadDone ups ecc) s = .next t
       ∧ t.sec.load = none ∧ t.boot = .firmware
       ∧ t.sec.fwRunning = true ∧ t.sec.fwRegion = some (l.addr, l.len)
       ∧ ((∀ j, packSlices t.saf.basePack j = []) → t.sec.fwVersion = wd (u.mem.words l.addr 32) 1) ∧ t.saf.pack = t.saf.basePack
       ∧ (∀ x ∈ t.cmd.tokens, x.token = l.token → x.live = false))))
  ∧ ((∀ (s : State), s.sec.fuse = none → exec .fuseProgrammingDone s = .next s)
     ∧ (∀ (s : State), halted s = true → exec .fuseProgrammingDone s = .next s)
     ∧ (∀ (s : State) (f : FuseJob), s.sec.fuse = some f → halted s = false → ∃ t, exec .fuseProgrammingDone s = .next t
       ∧ t.sec.fuse = none ∧ t.sec.fwSvnMin = max s.sec.fwSvnMin f.svn ∧ t.sec.revoked = s.sec.revoked ||| f.revoke
       ∧ t.sec.lifecycle = f.target.getD s.sec.lifecycle ∧ (f.owner0 = none → t.sec.owner0 = s.sec.owner0)
       ∧ (∀ d, f.owner0 = some d → t.sec.owner0 = some d) ∧ (f.owner1 = none → t.sec.owner1 = s.sec.owner1)
       ∧ (∀ d, f.owner1 = some d → t.sec.owner1 = some d) ∧ t.sec.udsDis = (s.sec.udsDis || f.retire)
       ∧ (s.secw.resetAfter = false → t.warm = s.warm ∧ t.mem = s.mem ∧ t.fc = s.fc ∧ t.sch = s.sch)
       ∧ (s.secw.resetAfter = true → s.boot = .firmware →
           t.warm = true ∧ t.fc.pre = s.fc.fsw ∧ t.fc.fsw = 0)))
  ∧ ((∀ (s : State) (c : Byte) (r : Bool), tapInstr s s.sec.tap ≠ 0 → tapInstr s s.sec.tap ≠ 3 → tapInstr s s.sec.tap ≠ 4 → ∃ t,
       exec (.jtagInstructionUpdate c r) s = .next t
       ∧ t = { s with sec := { s.sec with tap := if r then 0x02 else c }, secw := { s.secw with dr := t.secw.dr } }
       ∧ (r = true → tapInstr t t.sec.tap = 0x02 ∧ t.secw.dr = 0xB162_0A3F)
       ∧ (r = false → (c = 1 ∨ c = 2 ∨ c = 0x11) → tapInstr t t.sec.tap = c)
       ∧ (r = false → c = 2 → t.secw.dr = 0xB162_0A3F)
       ∧ (r = false → c = 0x11 → t.secw.dr = BitVec.ofNat 40 s.sec.tokStat)
       ∧ (r = false → c = 0x10 → tapInstr t t.sec.tap = (if dOpen s then 0x10 else 0xFF))
       ∧ (r = false → (c = 0 ∨ c = 3 ∨ c = 4) → tapInstr t t.sec.tap
           = (if bscanOpen s = true ∧ s.sch.run = .idle ∧ s.saf.trust = .notArmed then c else 0xFF))
       ∧ (r = false → c ≠ 0 → c ≠ 1 → c ≠ 2 → c ≠ 3 → c ≠ 4 → c ≠ 0x10 → c ≠ 0x11 → tapInstr t t.sec.tap = 0xFF))
     ∧ (∀ (s : State) (c : Byte) (r : Bool), (tapInstr s s.sec.tap = 0 ∨ tapInstr s s.sec.tap = 3 ∨ tapInstr s s.sec.tap = 4) →
       (r = true ∨ c = 1 ∨ c = 2) →
       s.boot = .firmware → s.pins.clocksOff = false → s.pins.thermtrip = false → s.sec.fuse = none → ∃ t,
       exec (.jtagInstructionUpdate c r) s = .next t ∧ t.warm = true ∧ t.sch = {}
       ∧ t.sec.tap = (if r then 0x02 else c)))

/-- TOKEN_DR takes a token word by word while it is the instruction in force; a whole token whose signature, nonce or
state does not hold shows its row of failure and is counted, one that holds waits for its action. The debug token
opens port D and boundary scan as it says; a lifecycle and an owner token ask for their fuses and a chip warm reset;
outside IDLE and NOT_ARMED they fail with row 12, and an owner slot 1 that is fused with row 13 (R503 to R507). -/
def Obligations.DebugTokens : Prop :=
  (∀ (s : State) (w : Word), s.sec.tap ≠ 0x11 → exec (.tokenDrWord w) s = .next s)
  ∧ (∀ (s : State) (w : Word) (buf : List Word) (n : Nat) (bs : List Byte), s.sec.tap = 0x11 → s.boot ≠ .off →
    s.boot ≠ .held → buf = s.sec.tokBuf ++ [w] → n = (wd buf 0).toNat → bs = (wordsBytes (buf.drop 1)).take n →
    (8188 < n → ∃ t, exec (.tokenDrWord w) s = .next t ∧ t.sec.tokStat = 4 + 16 * 1 ∧ t.sec.tokBuf = []
      ∧ t.sec.tokFailed = satAdd 0xFFFF s.sec.tokFailed 1 ∧ t.secw.tok = none ∧ t.fc.fsw.getLsbD 121 = true)
    ∧ (n ≤ 8188 → 4 * s.sec.tokBuf.length < n → exec (.tokenDrWord w) s =
        .next { s with sec := { s.sec with tokBuf := buf, tokStat := 0 }, secw := { s.secw with dr := 0 } })
    ∧ (n ≤ 8188 → n ≤ 4 * s.sec.tokBuf.length → ∃ t, exec (.tokenDrWord w) s = .next t ∧ t.sec.tokBuf = []
      ∧ (sigRow s 10 bs ≠ 0 → t.sec.tokStat = 4 + 16 * sigRow s 10 bs ∧ t.secw.tok = none
          ∧ t.fc.fsw.getLsbD 121 = true)
      ∧ (sigRow s 10 bs = 0 → tokenRow s bs ≠ 0 → t.sec.tokStat = 4 + 16 * tokenRow s bs ∧ t.secw.tok = none)
      ∧ (sigRow s 10 bs = 0 → tokenRow s bs = 0 → t.sec.tokStat = 1 ∧ t.secw.tok.isSome = true)))
  ∧ (∀ (s : State), s.secw.tok = none → exec .debugUnlock s = .next s ∧ exec .lcAdvance s = .next s
      ∧ exec .addOwner s = .next s)
  ∧ (∀ (s : State) (t : DbgToken), s.secw.tok = some t → t.typ = 1 →
    (s.sch.run = .idle → exec .debugUnlock s = .next { s with
      sec := { s.sec with unlocked := true, dUnlock := s.sec.dUnlock || t.portD, bUnlock := s.sec.bUnlock || t.bscan
                          tokStat := 2 }
      secw := { s.secw with tok := none } })
    ∧ (s.sch.run ≠ .idle → exec .debugUnlock s = .next { s with
      sec := { s.sec with tokBuf := [], tokStat := 4 + 16 * 12, tokFailed := satAdd 0xFFFF s.sec.tokFailed 1 }
      secw := { s.secw with tok := none } }))
  ∧ (∀ (s : State) (t : DbgToken), s.secw.tok = some t → s.sec.fuse = none →
    (t.typ = 2 → s.sch.run = .idle → s.saf.trust = .notArmed → ∃ u f, exec .lcAdvance s = .next u
      ∧ u.sec.fuse = some f ∧ u.secw.resetAfter = true ∧ u.secw.tok = none ∧ u.sec.tokStat = 2
      ∧ u.sec.lifecycle = s.sec.lifecycle ∧ (t.target = 1 → f.target = some .provisioned ∧ f.cert = t.cert)
      ∧ (t.target = 2 → f.target = some .field ∧ f.owner0 = some t.keyDigest)
      ∧ (t.target = 3 → f.target = some .retired ∧ f.retire = true))
    ∧ (t.typ = 3 → s.sch.run = .idle → s.saf.trust = .notArmed → s.sec.owner1 = none → ∃ u f,
      exec .addOwner s = .next u ∧ u.sec.fuse = some f ∧ f.owner1 = some t.newOwner ∧ f.target = none
      ∧ u.secw.resetAfter = true ∧ u.secw.tok = none ∧ u.sec.tokStat = 2 ∧ u.sec.owner1 = none)
    ∧ (t.typ = 3 → s.sch.run = .idle → s.saf.trust = .notArmed → s.sec.owner1 ≠ none → ∃ u,
      exec .addOwner s = .next u ∧ u.sec.tokStat = 4 + 16 * 13 ∧ u.sec.fuse = none ∧ u.secw.tok = none)
    ∧ ((s.sch.run ≠ .idle ∨ s.saf.trust ≠ .notArmed) →
      (t.typ = 2 → ∃ u, exec .lcAdvance s = .next u ∧ u.sec.tokStat = 4 + 16 * 12 ∧ u.sec.fuse = none)
      ∧ (t.typ = 3 → ∃ u, exec .addOwner s = .next u ∧ u.sec.tokStat = 4 + 16 * 12 ∧ u.sec.fuse = none)))
end

