-- ==== Sys2Proof/Laws/Memory.lean ====
section
/-! SUPPORT. The laws of a store's bytes: what is read after a write, and that every operation keeps the canonical
form. -/

namespace Sys2Proof.Machine

/-- The canonical form, said of all entries at once. -/
theorem Mem.wf_iff : ∀ m : Mem, m.wf = true ↔ m.Pairwise (fun a b => a.1 < b.1) ∧ ∀ c ∈ m, c.2 ≠ 0
  | [] => by simp [Mem.wf]
  | [(k, v)] => by simp [Mem.wf]
  | (k, v) :: (k', v') :: r => by
    have ih := Mem.wf_iff ((k', v') :: r)
    simp only [Mem.wf, Bool.and_eq_true, ih, bne_iff_ne, decide_eq_true_eq]
    constructor
    · rintro ⟨⟨hv, hk⟩, hp, hz⟩
      refine ⟨List.pairwise_cons.2 ⟨?_, hp⟩, ?_⟩
      · intro c hc
        rcases List.mem_cons.1 hc with rfl | hc
        · exact hk
        · exact Nat.lt_trans hk ((List.pairwise_cons.1 hp).1 c hc)
      · intro c hc
        rcases List.mem_cons.1 hc with rfl | hc
        · exact hv
        · exact hz c hc
    · rintro ⟨hp, hz⟩
      have h := List.pairwise_cons.1 hp
      exact ⟨⟨hz (k, v) (by simp), h.1 (k', v') (by simp)⟩, h.2, fun c hc => hz c (List.mem_cons_of_mem _ hc)⟩

theorem Mem.mem_set : ∀ (m : Mem) (a : Nat) (v : Byte) (c : Nat × Byte), c ∈ m.set a v → c ∈ m ∨ c = (a, v) ∧ v ≠ 0
  | [], a, v, c, h => by
    unfold Mem.set at h; split at h
    · simp at h
    · simp at h; exact .inr ⟨h, ‹_›⟩
  | (k, w) :: r, a, v, c, h => by
    unfold Mem.set at h
    split at h
    · split at h
      · exact .inl h
      · rcases List.mem_cons.1 h with h | h
        · exact .inr ⟨h, ‹_›⟩
        · exact .inl h
    · split at h
      · split at h
        · exact .inl (List.mem_cons_of_mem _ h)
        · rcases List.mem_cons.1 h with h | h
          · exact .inr ⟨h, ‹_›⟩
          · exact .inl (List.mem_cons_of_mem _ h)
      · rcases List.mem_cons.1 h with h | h
        · exact .inl (h ▸ List.mem_cons_self ..)
        · rcases Mem.mem_set r a v c h with h | h
          · exact .inl (List.mem_cons_of_mem _ h)
          · exact .inr h

theorem Mem.set_sorted : ∀ (m : Mem) (a : Nat) (v : Byte), m.Pairwise (fun a b => a.1 < b.1) →
    (m.set a v).Pairwise (fun a b => a.1 < b.1)
  | [], a, v, _ => by unfold Mem.set; split <;> simp
  | (k, w) :: r, a, v, h => by
    have h' := List.pairwise_cons.1 h
    unfold Mem.set
    split
    · split
      · exact h
      · refine List.pairwise_cons.2 ⟨?_, h⟩
        intro c hc
        rcases List.mem_cons.1 hc with rfl | hc
        · assumption
        · exact Nat.lt_trans ‹_› (h'.1 c hc)
    · split
      · subst_vars
        split
        · exact h'.2
        · exact List.pairwise_cons.2 ⟨h'.1, h'.2⟩
      · refine List.pairwise_cons.2 ⟨?_, Mem.set_sorted r a v h'.2⟩
        intro c hc
        rcases Mem.mem_set r a v c hc with hc | ⟨rfl, _⟩
        · exact h'.1 c hc
        · show k < a
          omega

/-- A write of one byte keeps the canonical form. -/
theorem Mem.set_wf (m : Mem) (a : Nat) (v : Byte) (h : m.wf = true) : (m.set a v).wf = true := by
  rw [Mem.wf_iff] at h ⊢
  refine ⟨Mem.set_sorted m a v h.1, fun c hc => ?_⟩
  rcases Mem.mem_set m a v c hc with hc | ⟨rfl, hv⟩
  · exact h.2 c hc
  · exact hv

/-- A write of bytes keeps the canonical form. -/
theorem Mem.write_wf : ∀ (bs : List Byte) (m : Mem) (a : Nat), m.wf = true → (m.write a bs).wf = true
  | [], _, _, h => h
  | b :: r, m, a, h => Mem.write_wf r (m.set a b) (a + 1) (Mem.set_wf m a b h)

/-- Entries that go leave the canonical form. -/
theorem Mem.filter_wf (m : Mem) (p : Nat × Byte → Bool) (h : m.wf = true) : Mem.wf (m.filter p) = true := by
  rw [Mem.wf_iff] at h ⊢
  exact ⟨h.1.filter p, fun c hc => h.2 c (List.mem_of_mem_filter hc)⟩

/-- Bytes that move keep the canonical form. -/
theorem Mem.foldl_set_wf {α : Type} (f : α → Nat) (g : α → Byte) : ∀ (l : List α) (m : Mem), m.wf = true →
    Mem.wf (l.foldl (fun m c => Mem.set m (f c) (g c)) m) = true
  | [], _, h => h
  | c :: r, m, h => Mem.foldl_set_wf f g r (m.set (f c) (g c)) (Mem.set_wf m _ _ h)

/-- A region copied keeps the canonical form. -/
theorem copyRegion_wf (m : Mem) (a b n : Nat) (h : m.wf = true) : (copyRegion m a b n).wf = true :=
  Mem.foldl_set_wf _ _ _ _ (Mem.filter_wf m _ h)

theorem Mem.get_of_lt : ∀ (m : Mem) (a : Nat), (∀ c ∈ m, a < c.1) → m.get a = 0
  | [], _, _ => rfl
  | (k, v) :: r, a, h => by
    have h1 : a < k := h (k, v) (by simp)
    unfold Mem.get
    rw [if_neg (by omega)]
    exact Mem.get_of_lt r a (fun c hc => h c (List.mem_cons_of_mem _ hc))

/-- A byte written is read back. -/
theorem Mem.get_set_same : ∀ (m : Mem) (a : Nat) (v : Byte), m.Pairwise (fun a b => a.1 < b.1) → (m.set a v).get a = v
  | [], a, v, _ => by
    unfold Mem.set
    split
    · subst_vars; rfl
    · simp [Mem.get]
  | (k, w) :: r, a, v, h => by
    have h' := List.pairwise_cons.1 h
    unfold Mem.set
    split
    · have hl : ∀ c ∈ (k, w) :: r, a < c.1 := by
        intro c hc
        rcases List.mem_cons.1 hc with rfl | hc
        · assumption
        · exact Nat.lt_trans ‹_› (h'.1 c hc)
      split
      · subst_vars; exact Mem.get_of_lt _ a hl
      · simp [Mem.get]
    · split
      · subst_vars
        split
        · subst_vars; exact Mem.get_of_lt r _ h'.1
        · simp [Mem.get]
      · rw [Mem.get, if_neg ‹_›]
        exact Mem.get_set_same r a v h'.2

/-- A byte written changes no other. -/
theorem Mem.get_set_other : ∀ (m : Mem) (a b : Nat) (v : Byte), b ≠ a → (m.set a v).get b = m.get b
  | [], a, b, v, h => by
    unfold Mem.set
    split <;> simp [Mem.get, h]
  | (k, w) :: r, a, b, v, h => by
    unfold Mem.set
    split
    · split
      · rfl
      · rw [Mem.get, if_neg h]
    · split
      · subst_vars
        split
        · rw [Mem.get, if_neg h]
        · rw [Mem.get, Mem.get, if_neg h, if_neg h]
      · rw [Mem.get, Mem.get]
        split
        · rfl
        · exact Mem.get_set_other r a b v h

/-- Bytes written change none outside them. -/
theorem Mem.get_write_other : ∀ (bs : List Byte) (m : Mem) (a b : Nat), b < a ∨ a + bs.length ≤ b →
    (m.write a bs).get b = m.get b
  | [], _, _, _, _ => rfl
  | x :: r, m, a, b, h => by
    simp only [List.length_cons] at h
    rw [Mem.write, Mem.get_write_other r (m.set a x) (a + 1) b (by omega), Mem.get_set_other m a b x (by omega)]

/-- Bytes written are read back. -/
theorem Mem.get_write_same : ∀ (bs : List Byte) (m : Mem) (a i : Nat) (_ : i < bs.length), m.wf = true →
    (m.write a bs).get (a + i) = bs[i]
  | x :: r, m, a, 0, _, hw => by
    rw [Mem.write, Mem.get_write_other r (m.set a x) (a + 1) (a + 0) (by omega)]
    exact Mem.get_set_same m a x ((Mem.wf_iff m).1 hw).1
  | x :: r, m, a, i + 1, h, hw => by
    have := Mem.get_write_same r (m.set a x) (a + 1) i (by simpa using h) (Mem.set_wf m a x hw)
    rw [Mem.write, show a + (i + 1) = a + 1 + i by omega, this]
    rfl

end Sys2Proof.Machine
end

