-- ==== Sys2Proof/Laws/Keeps.lean ====
section
/-! SUPPORT. What every operation of the machine keeps: the queue of waiting commands, the ordering code, the canonical
form of both memories, the SAFE outputs' rule, and the credit pools. One relation between the state before and the state after; each
operation has one lemma about it. -/

namespace Sys2Proof.Machine

structure Keeps (s t : State) : Prop where
  pending : t.pending = s.pending
  part : t.part = s.part
  mem : s.mem.wf = true → t.mem.wf = true
  hl : s.hl.mem.wf = true → t.hl.mem.wf = true
  safe : safeOk s = true → safeOk t = true
  pools : poolsFit s.cr.pools = true → poolsFit t.cr.pools = true

theorem Keeps.refl (s : State) : Keeps s s := ⟨rfl, rfl, id, id, id, id⟩

theorem Keeps.upd {s0 s t : State} (h : Keeps s0 s) (hp : t.pending = s.pending) (ho : t.part = s.part)
    (hm : t.mem = s.mem) (hh : t.hl.mem = s.hl.mem) (ha : t.pins.safeA = s.pins.safeA) (hb : t.pins.safeB = s.pins.safeB)
    (ht : t.saf.trust = s.saf.trust) (hc : t.saf.clamp = s.saf.clamp) (hq : t.cr.pools = s.cr.pools) : Keeps s0 t :=
  ⟨by rw [hp, h.1], by rw [ho, h.2], by rw [hm]; exact h.3, by rw [hh]; exact h.4,
   by have := h.5; simp only [safeOk, ha, hb, ht, hc] at this ⊢; exact this, by rw [hq]; exact h.6⟩

theorem Keeps.mk' {s0 s : State} {pending' : List Instr} {part' : Part} {boot' : Boot} {warm' : Bool} {clk' : Nat} {free' : Nat} {tb' : TimeBase} {ts' : TimeService} {sch' : Sched} {sets' : Sets} {eng' : List Engine} {jobs' : List Job} {mem' : Mem} {poison' : List Nat} {csramBad' : List Nat} {ms' : MemSys} {cr' : Credits} {kv' : Kv} {sens' : Sensors} {map' : Mapin} {saf' : Safety} {hl' : Headland} {fc' : FaultColl} {rst' : Resets} {cmd' : CmdPorts} {glb' : Glb} {pcie' : Pcie} {sec' : Security} {secw' : SecWork} {pins' : Pins} {out' : Outputs} (h : Keeps s0 s)
    (hp : pending' = s.pending) (ho : part' = s.part) (hm : mem' = s.mem) (hh : hl'.mem = s.hl.mem)
    (ha : pins'.safeA = s.pins.safeA) (hb : pins'.safeB = s.pins.safeB) (ht : saf'.trust = s.saf.trust)
    (hc : saf'.clamp = s.saf.clamp) (hq : cr'.pools = s.cr.pools) : Keeps s0 (State.mk pending' part' boot' warm' clk' free' tb' ts' sch' sets' eng' jobs' mem' poison' csramBad' ms' cr' kv' sens' map' saf' hl' fc' rst' cmd' glb' pcie' sec' secw' pins' out') := h.upd hp ho hm hh ha hb ht hc hq

theorem Keeps.mkLow {s0 s : State} {pending' : List Instr} {part' : Part} {boot' : Boot} {warm' : Bool} {clk' : Nat} {free' : Nat} {tb' : TimeBase} {ts' : TimeService} {sch' : Sched} {sets' : Sets} {eng' : List Engine} {jobs' : List Job} {mem' : Mem} {poison' : List Nat} {csramBad' : List Nat} {ms' : MemSys} {cr' : Credits} {kv' : Kv} {sens' : Sensors} {map' : Mapin} {saf' : Safety} {hl' : Headland} {fc' : FaultColl} {rst' : Resets} {cmd' : CmdPorts} {glb' : Glb} {pcie' : Pcie} {sec' : Security} {secw' : SecWork} {pins' : Pins} {out' : Outputs} (h : Keeps s0 s)
    (hp : pending' = s.pending) (ho : part' = s.part) (hm : s.mem.wf = true → mem'.wf = true)
    (hh : s.hl.mem.wf = true → hl'.mem.wf = true)
    (ha : pins'.safeA = false) (hb : pins'.safeB = false)
    (hq : poolsFit s.cr.pools = true → poolsFit cr'.pools = true) : Keeps s0 (State.mk pending' part' boot' warm' clk' free' tb' ts' sch' sets' eng' jobs' mem' poison' csramBad' ms' cr' kv' sens' map' saf' hl' fc' rst' cmd' glb' pcie' sec' secw' pins' out') :=
  ⟨hp.trans h.1, ho.trans h.2, fun w => hm (h.3 w), fun w => hh (h.4 w), fun _ => by simp [safeOk, ha, hb],
   fun w => hq (h.6 w)⟩

theorem Keeps.mkMem {s0 s : State} {pending' : List Instr} {part' : Part} {boot' : Boot} {warm' : Bool} {clk' : Nat} {free' : Nat} {tb' : TimeBase} {ts' : TimeService} {sch' : Sched} {sets' : Sets} {eng' : List Engine} {jobs' : List Job} {mem' : Mem} {poison' : List Nat} {csramBad' : List Nat} {ms' : MemSys} {cr' : Credits} {kv' : Kv} {sens' : Sensors} {map' : Mapin} {saf' : Safety} {hl' : Headland} {fc' : FaultColl} {rst' : Resets} {cmd' : CmdPorts} {glb' : Glb} {pcie' : Pcie} {sec' : Security} {secw' : SecWork} {pins' : Pins} {out' : Outputs} (h : Keeps s0 s)
    (hp : pending' = s.pending) (ho : part' = s.part) (hm : s.mem.wf = true → mem'.wf = true)
    (hh : s.hl.mem.wf = true → hl'.mem.wf = true)
    (ha : pins'.safeA = s.pins.safeA) (hb : pins'.safeB = s.pins.safeB) (ht : saf'.trust = s.saf.trust)
    (hc : saf'.clamp = s.saf.clamp) (hq : cr'.pools = s.cr.pools) : Keeps s0 (State.mk pending' part' boot' warm' clk' free' tb' ts' sch' sets' eng' jobs' mem' poison' csramBad' ms' cr' kv' sens' map' saf' hl' fc' rst' cmd' glb' pcie' sec' secw' pins' out') :=
  ⟨hp.trans h.1, ho.trans h.2, fun w => hm (h.3 w), fun w => hh (h.4 w),
   by have := h.5; simp only [safeOk, ha, hb, ht, hc] at this ⊢; exact this, by rw [hq]; exact h.6⟩

theorem Keeps.foldl {α : Type} {s0 : State} {f : State → α → State} (hf : ∀ s a, Keeps s0 s → Keeps s0 (f s a)) :
    ∀ (l : List α) (s : State), Keeps s0 s → Keeps s0 (l.foldl f s)
  | [], _, h => h
  | a :: r, s, h => Keeps.foldl hf r (f s a) (hf s a h)


theorem Keeps.ite {s0 a b : State} {c : Prop} [Decidable c] (ha : c → Keeps s0 a) (hb : ¬c → Keeps s0 b) :
    Keeps s0 (if c then a else b) := by
  by_cases h : c
  · rw [if_pos h]; exact ha h
  · rw [if_neg h]; exact hb h

theorem Keeps.ite1 {α : Type} {s0 : State} {a b : State × α} {c : Prop} [Decidable c] (ha : c → Keeps s0 a.1)
    (hb : ¬c → Keeps s0 b.1) : Keeps s0 (if c then a else b).1 := by
  by_cases h : c
  · rw [if_pos h]; exact ha h
  · rw [if_neg h]; exact hb h

end Sys2Proof.Machine
end

