-- ==== Sys2Proof/Laws/Keeps/Flags.lean ====
section
/-! SUPPORT. What the definitions of Machine/Flags.lean keep (Laws/Keeps.lean). -/

set_option linter.unusedTactic false
set_option linter.unreachableTactic false
set_option linter.unusedVariables false

namespace Sys2Proof.Machine

theorem setSrc_keeps  {z s : State} (n : Nat) (hk0 : Keeps z s) : Keeps z (setSrc s n) := by
  unfold setSrc
  try dsimp only
  repeat' first
    | with_reducible assumption
    | with_reducible apply Keeps.ite
    | intro _
    | (refine Keeps.mk' ?_ rfl rfl rfl rfl rfl rfl rfl rfl rfl; first | with_reducible assumption | with_reducible apply Keeps.ite | split)

theorem setSrcs_keeps  {z s : State} (l : List Nat) (hk0 : Keeps z s) : Keeps z (setSrcs s l) := by
  unfold setSrcs
  try dsimp only
  repeat' first
    | with_reducible assumption
    | with_reducible apply setSrc_keeps
    | (with_reducible refine Keeps.foldl (fun s a hs => ?_) _ _ ?_)
    | with_reducible apply Keeps.ite
    | intro _
    | (refine Keeps.mk' ?_ rfl rfl rfl rfl rfl rfl rfl rfl rfl; first | with_reducible assumption | with_reducible apply setSrc_keeps | (with_reducible refine Keeps.foldl (fun s a hs => ?_) _ _ ?_) | with_reducible apply Keeps.ite | split)

theorem setSlot_keeps  {z s : State} (b : Bool) (x : Slot) (hk0 : Keeps z s) : Keeps z (setSlot s b x) := by
  unfold setSlot
  try dsimp only
  repeat' first
    | with_reducible assumption
    | with_reducible apply Keeps.ite
    | intro _
    | (refine Keeps.mk' ?_ rfl rfl rfl rfl rfl rfl rfl rfl rfl; first | with_reducible assumption | with_reducible apply Keeps.ite | split)

theorem levelSources_keeps  {z s : State}  (hk0 : Keeps z s) : Keeps z (levelSources s) := by
  unfold levelSources
  try dsimp only
  repeat' first
    | with_reducible assumption
    | with_reducible apply setSrc_keeps
    | (with_reducible refine Keeps.foldl (fun s a hs => ?_) _ _ ?_)
    | with_reducible apply Keeps.ite
    | intro _
    | (refine Keeps.mk' ?_ rfl rfl rfl rfl rfl rfl rfl rfl rfl; first | with_reducible assumption | with_reducible apply setSrc_keeps | (with_reducible refine Keeps.foldl (fun s a hs => ?_) _ _ ?_) | with_reducible apply Keeps.ite | split)

end Sys2Proof.Machine
end

