-- ==== Sys2Proof/Laws/Keeps/Store.lean ====
section
/-! SUPPORT. What the definitions of Machine/Store.lean keep (Laws/Keeps.lean). -/

set_option linter.unusedTactic false
set_option linter.unreachableTactic false
set_option linter.unusedVariables false

namespace Sys2Proof.Machine

theorem addPoison_keeps  {z s : State} (u : Nat) (hk0 : Keeps z s) : Keeps z (addPoison s u) := by
  unfold addPoison
  try dsimp only
  repeat' first
    | with_reducible assumption
    | with_reducible apply Keeps.ite
    | intro _
    | (refine Keeps.mk' ?_ rfl rfl rfl rfl rfl rfl rfl rfl rfl; first | with_reducible assumption | with_reducible apply Keeps.ite | split)

theorem markUnit_keeps  {z s : State} (u : Nat) (hk0 : Keeps z s) : Keeps z (markUnit s u) := by
  unfold markUnit
  try dsimp only
  repeat' first
    | with_reducible assumption
    | with_reducible apply addPoison_keeps
    | with_reducible apply Keeps.ite
    | intro _
    | (refine Keeps.mk' ?_ rfl rfl rfl rfl rfl rfl rfl rfl rfl; first | with_reducible assumption | with_reducible apply addPoison_keeps | with_reducible apply Keeps.ite | split)

theorem store_keeps {s0 s : State} (a : Nat) (bs : List Byte) (h : Keeps s0 s) : Keeps s0 (store s a bs) :=
  ⟨h.1, h.2, fun w => Mem.write_wf bs _ a (h.3 w), h.4, h.5, h.6⟩

theorem storePoisoned_keeps  {z s : State} (a : Nat) (bs : List Byte) (hk0 : Keeps z s) : Keeps z (storePoisoned s a bs) := by
  unfold storePoisoned
  try dsimp only
  repeat' first
    | with_reducible assumption
    | with_reducible apply store_keeps
    | with_reducible apply markUnit_keeps
    | (with_reducible refine Keeps.foldl (fun s a hs => ?_) _ _ ?_)
    | with_reducible apply Keeps.ite
    | intro _
    | (refine Keeps.mk' ?_ rfl rfl rfl rfl rfl rfl rfl rfl rfl; first | with_reducible assumption | with_reducible apply store_keeps | with_reducible apply markUnit_keeps | (with_reducible refine Keeps.foldl (fun s a hs => ?_) _ _ ?_) | with_reducible apply Keeps.ite | split)

theorem storeWords_keeps  {z s : State} (a : Nat) (ws : List Word) (hk0 : Keeps z s) : Keeps z (storeWords s a ws) := by
  unfold storeWords
  try dsimp only
  repeat' first
    | with_reducible assumption
    | with_reducible apply store_keeps
    | with_reducible apply Keeps.ite
    | intro _
    | (refine Keeps.mk' ?_ rfl rfl rfl rfl rfl rfl rfl rfl rfl; first | with_reducible assumption | with_reducible apply store_keeps | with_reducible apply Keeps.ite | split)

theorem advanceTo_keeps  {z s : State} (t : Nat) (hk0 : Keeps z s) : Keeps z (advanceTo s t) := by
  unfold advanceTo
  try dsimp only
  repeat' first
    | with_reducible assumption
    | with_reducible apply Keeps.ite
    | intro _
    | (refine Keeps.mk' ?_ rfl rfl rfl rfl rfl rfl rfl rfl rfl; first | with_reducible assumption | with_reducible apply Keeps.ite | split)

theorem modEng_keeps  {z s : State} (e : Nat) (f : Engine → Engine) (hk0 : Keeps z s) : Keeps z (modEng s e f) := by
  unfold modEng
  try dsimp only
  repeat' first
    | with_reducible assumption
    | with_reducible apply Keeps.ite
    | intro _
    | (refine Keeps.mk' ?_ rfl rfl rfl rfl rfl rfl rfl rfl rfl; first | with_reducible assumption | with_reducible apply Keeps.ite | split)

end Sys2Proof.Machine
end

