-- ==== Sys2Proof/Laws/Keeps/Credits.lean ====
section
/-! SUPPORT. What the definitions of Machine/Credits.lean keep (Laws/Keeps.lean). -/

set_option linter.unusedTactic false
set_option linter.unreachableTactic false
set_option linter.unusedVariables false

namespace Sys2Proof.Machine

theorem touchCheck_keeps  {z s : State} (a : Nat) (hk0 : Keeps z s) : Keeps z (touchCheck s a) := by
  unfold touchCheck
  try dsimp only
  repeat' first
    | with_reducible assumption
    | with_reducible apply Keeps.ite
    | intro _
    | (refine Keeps.mk' ?_ rfl rfl rfl rfl rfl rfl rfl rfl rfl; first | with_reducible assumption | with_reducible apply Keeps.ite | split)

theorem poolsFit_map {l : List Pool} {f : Pool → Pool} (hf : ∀ p ∈ l, poolsFit [p] = true → poolsFit [f p] = true)
    (h : poolsFit l = true) : poolsFit (l.map f) = true := by
  simp only [poolsFit, List.all_cons, List.all_nil, Bool.and_true, List.all_eq_true, List.mem_map] at hf h ⊢
  rintro x ⟨y, hy, rfl⟩
  exact hf y hy (h y hy)
theorem modPool_keeps {z s : State} (src : Nat) (k : PoolKind) (i : Nat) (f : Pool → Pool)
    (hf : ∀ p, (p ∈ s.cr.pools ∨ s.cr.pools.any (isPool src k i) = false) → isPool src k i p = true →
      poolsFit [p] = true → poolsFit [f p] = true) (hk0 : Keeps z s) : Keeps z (modPool s src k i f) := by
  refine ⟨hk0.1, hk0.2, hk0.3, hk0.4, hk0.5, fun h => ?_⟩
  have hs := hk0.6 h
  show poolsFit (List.map _ _) = true
  by_cases ha : s.cr.pools.any (isPool src k i) = true
  · rw [if_pos ha]
    refine poolsFit_map (fun p hp hq => ?_) hs
    by_cases hi : isPool src k i p = true
    · rw [if_pos hi]; exact hf p (.inl hp) hi hq
    · rw [if_neg hi]; exact hq
  · rw [if_neg ha]
    have hs' : poolsFit (s.cr.pools ++ [{ src := src, kind := k, idx := i, iss0 := 0, ret0 := 0, iss1 := 0, ret1 := 0 }]) = true := by
      simp only [poolsFit, List.all_append, Bool.and_eq_true] at hs ⊢
      exact ⟨hs, by simp⟩
    refine poolsFit_map (fun p hp hq => ?_) hs'
    by_cases hi : isPool src k i p = true
    · rw [if_pos hi]; exact hf p (.inr (by simpa using ha)) hi hq
    · rw [if_neg hi]; exact hq

theorem takeCredit_keeps {z s : State} (src : Nat) (k : PoolKind) (i : Nat) (hk0 : Keeps z s) :
    Keeps z (takeCredit s src k i) := by
  refine modPool_keeps _ _ _ _ (fun p _ _ h => ?_) hk0
  simp only [poolsFit, List.all_cons, List.all_nil, Bool.and_true, Bool.and_eq_true, decide_eq_true_eq] at h ⊢
  split <;> dsimp only <;> omega

theorem creditViolation_keeps  {z s : State}  (hk0 : Keeps z s) : Keeps z (creditViolation s) := by
  unfold creditViolation
  try dsimp only
  repeat' first
    | with_reducible assumption
    | with_reducible apply setSrc_keeps
    | with_reducible apply Keeps.ite
    | intro _
    | (refine Keeps.mk' ?_ rfl rfl rfl rfl rfl rfl rfl rfl rfl; first | with_reducible assumption | with_reducible apply setSrc_keeps | with_reducible apply Keeps.ite | split)

theorem giveOne_keeps {z s : State} (src : Nat) (k : PoolKind) (i : Nat) (ep : Bool) (hk0 : Keeps z s) :
    Keeps z (giveOne s src k i ep) := by
  unfold giveOne
  dsimp only
  split
  · next hc =>
    simp only [Bool.and_eq_true, Bool.not_eq_true', List.isEmpty_eq_false_iff, List.all_eq_true, List.mem_filter] at hc
    refine modPool_keeps _ _ _ _ (fun p hp hi h => ?_) hk0
    have hm : p ∈ s.cr.pools := by
      rcases hp with hp | hp
      · exact hp
      · exact absurd (List.filter_eq_nil_iff.2 (fun q hq => by simpa using List.any_eq_false.1 hp q hq)) hc.1
    have ho := hc.2 p ⟨hm, hi⟩
    simp only [poolsFit, owes, List.all_cons, List.all_nil, Bool.and_true, Bool.and_eq_true, decide_eq_true_eq] at h ho ⊢
    cases ep <;> simp_all <;> omega
  · exact creditViolation_keeps hk0

theorem giveCredit_keeps  {z s : State} (r : Req) (hk0 : Keeps z s) : Keeps z (giveCredit s r) := by
  unfold giveCredit
  try dsimp only
  repeat' first
    | with_reducible assumption
    | with_reducible apply giveOne_keeps
    | (with_reducible refine Keeps.foldl (fun s a hs => ?_) _ _ ?_)
    | with_reducible apply Keeps.ite
    | intro _
    | (refine Keeps.mk' ?_ rfl rfl rfl rfl rfl rfl rfl rfl rfl; first | with_reducible assumption | with_reducible apply giveOne_keeps | (with_reducible refine Keeps.foldl (fun s a hs => ?_) _ _ ?_) | with_reducible apply Keeps.ite | split)

theorem issueReq_keeps  {z s : State} (src : Nat) (write : Bool) (a : Nat) (len : Nat) (level : Nat) (u : ReqUse) (hk0 : Keeps z s) : Keeps z (issueReq s src write a len level u) := by
  unfold issueReq
  try dsimp only
  repeat' first
    | with_reducible assumption
    | with_reducible apply touchCheck_keeps
    | with_reducible apply takeCredit_keeps
    | (with_reducible refine Keeps.foldl (fun s a hs => ?_) _ _ ?_)
    | with_reducible apply Keeps.ite
    | intro _
    | (refine Keeps.mk' ?_ rfl rfl rfl rfl rfl rfl rfl rfl rfl; first | with_reducible assumption | with_reducible apply touchCheck_keeps | with_reducible apply takeCredit_keeps | (with_reducible refine Keeps.foldl (fun s a hs => ?_) _ _ ?_) | with_reducible apply Keeps.ite | split)

theorem passReq_keeps  {z s : State} (src : Nat) (a : Nat) (hk0 : Keeps z s) : Keeps z (passReq s src a) := by
  unfold passReq
  try dsimp only
  repeat' first
    | with_reducible assumption
    | with_reducible apply touchCheck_keeps
    | with_reducible apply giveOne_keeps
    | with_reducible apply takeCredit_keeps
    | with_reducible apply Keeps.ite
    | intro _
    | (refine Keeps.mk' ?_ rfl rfl rfl rfl rfl rfl rfl rfl rfl; first | with_reducible assumption | with_reducible apply touchCheck_keeps | with_reducible apply giveOne_keeps | with_reducible apply takeCredit_keeps | with_reducible apply Keeps.ite | split)

theorem passReqs_keeps  {z s : State} (src : Nat) (a : Nat) (n : Nat) (hk0 : Keeps z s) : Keeps z (passReqs s src a n) := by
  unfold passReqs
  try dsimp only
  repeat' first
    | with_reducible assumption
    | with_reducible apply passReq_keeps
    | (with_reducible refine Keeps.foldl (fun s a hs => ?_) _ _ ?_)
    | with_reducible apply Keeps.ite
    | intro _
    | (refine Keeps.mk' ?_ rfl rfl rfl rfl rfl rfl rfl rfl rfl; first | with_reducible assumption | with_reducible apply passReq_keeps | (with_reducible refine Keeps.foldl (fun s a hs => ?_) _ _ ?_) | with_reducible apply Keeps.ite | split)

theorem pumpPorts_keeps  {z s : State}  (hk0 : Keeps z s) : Keeps z (pumpPorts s) := by
  unfold pumpPorts
  try dsimp only
  repeat' first
    | with_reducible assumption
    | with_reducible apply issueReq_keeps
    | (with_reducible refine Keeps.foldl (fun s a hs => ?_) _ _ ?_)
    | with_reducible apply Keeps.ite
    | intro _
    | (refine Keeps.mk' ?_ rfl rfl rfl rfl rfl rfl rfl rfl rfl; first | with_reducible assumption | with_reducible apply issueReq_keeps | (with_reducible refine Keeps.foldl (fun s a hs => ?_) _ _ ?_) | with_reducible apply Keeps.ite | split)

theorem portWrite_keeps  {z s : State} (src : Nat) (a : Nat) (n : Nat) (u : ReqUse) (hk0 : Keeps z s) : Keeps z (portWrite s src a n u) := by
  unfold portWrite
  try dsimp only
  repeat' first
    | with_reducible assumption
    | with_reducible apply pumpPorts_keeps
    | with_reducible apply Keeps.ite
    | intro _
    | (refine Keeps.mk' ?_ rfl rfl rfl rfl rfl rfl rfl rfl rfl; first | with_reducible assumption | with_reducible apply pumpPorts_keeps | with_reducible apply Keeps.ite | split)

theorem bumpCe_keeps  {z s : State} (e : Nat) (hk0 : Keeps z s) : Keeps z (bumpCe s e) := by
  unfold bumpCe
  try dsimp only
  repeat' first
    | with_reducible assumption
    | with_reducible apply modEng_keeps
    | with_reducible apply Keeps.ite
    | intro _
    | (refine Keeps.mk' ?_ rfl rfl rfl rfl rfl rfl rfl rfl rfl; first | with_reducible assumption | with_reducible apply modEng_keeps | with_reducible apply Keeps.ite | split)

theorem bumpUc_keeps  {z s : State} (e : Nat) (hk0 : Keeps z s) : Keeps z (bumpUc s e) := by
  unfold bumpUc
  try dsimp only
  repeat' first
    | with_reducible assumption
    | with_reducible apply modEng_keeps
    | with_reducible apply Keeps.ite
    | intro _
    | (refine Keeps.mk' ?_ rfl rfl rfl rfl rfl rfl rfl rfl rfl; first | with_reducible assumption | with_reducible apply modEng_keeps | with_reducible apply Keeps.ite | split)

theorem countPoisonRead_keeps  {z s : State} (a : Nat) (hk0 : Keeps z s) : Keeps z (countPoisonRead s a) := by
  unfold countPoisonRead
  try dsimp only
  repeat' first
    | with_reducible assumption
    | with_reducible apply Keeps.ite
    | intro _
    | (refine Keeps.mk' ?_ rfl rfl rfl rfl rfl rfl rfl rfl rfl; first | with_reducible assumption | with_reducible apply Keeps.ite | split)

theorem eccRead_keeps  {z s : State} (a : Nat) (ecc : Ecc) (hk0 : Keeps z s) : Keeps z (eccRead s a ecc) := by
  unfold eccRead
  try dsimp only
  repeat' first
    | with_reducible assumption
    | with_reducible apply countPoisonRead_keeps
    | with_reducible apply setSrc_keeps
    | with_reducible apply bumpCe_keeps
    | with_reducible apply addPoison_keeps
    | with_reducible apply bumpUc_keeps
    | with_reducible apply Keeps.ite
    | intro _
    | (refine Keeps.mk' ?_ rfl rfl rfl rfl rfl rfl rfl rfl rfl; first | with_reducible assumption | with_reducible apply countPoisonRead_keeps | with_reducible apply setSrc_keeps | with_reducible apply bumpCe_keeps | with_reducible apply addPoison_keeps | with_reducible apply bumpUc_keeps | with_reducible apply Keeps.ite | split)

theorem readUnits_keeps  {z s : State} (a : Nat) (n : Nat) (o : Nat → Ecc) (hk0 : Keeps z s) : Keeps z (readUnits s a n o) := by
  unfold readUnits
  try dsimp only
  repeat' first
    | with_reducible assumption
    | with_reducible apply eccRead_keeps
    | (with_reducible refine Keeps.foldl (fun s a hs => ?_) _ _ ?_)
    | with_reducible apply Keeps.ite
    | intro _
    | (refine Keeps.mk' ?_ rfl rfl rfl rfl rfl rfl rfl rfl rfl; first | with_reducible assumption | with_reducible apply eccRead_keeps | (with_reducible refine Keeps.foldl (fun s a hs => ?_) _ _ ?_) | with_reducible apply Keeps.ite | split)

theorem passTimeout_keeps  {z s : State} (src : Nat) (write : Bool) (a : Nat) (n : Nat) (hk0 : Keeps z s) : Keeps z (passTimeout s src write a n) := by
  unfold passTimeout
  try dsimp only
  repeat' first
    | with_reducible assumption
    | with_reducible apply setSrc_keeps
    | with_reducible apply Keeps.ite
    | intro _
    | (refine Keeps.mk' ?_ rfl rfl rfl rfl rfl rfl rfl rfl rfl; first | with_reducible assumption | with_reducible apply setSrc_keeps | with_reducible apply Keeps.ite | split)

theorem portRead_keeps  {z s : State} (src : Nat) (a : Nat) (n : Nat) (o : Nat → Ecc) (hk0 : Keeps z s) : Keeps z (portRead s src a n o) := by
  unfold portRead
  try dsimp only
  repeat' first
    | with_reducible assumption
    | with_reducible apply passReq_keeps
    | with_reducible apply passTimeout_keeps
    | with_reducible apply readUnits_keeps
    | (with_reducible refine Keeps.foldl (fun s a hs => ?_) _ _ ?_)
    | with_reducible apply Keeps.ite
    | intro _
    | (refine Keeps.mk' ?_ rfl rfl rfl rfl rfl rfl rfl rfl rfl; first | with_reducible assumption | with_reducible apply passReq_keeps | with_reducible apply passTimeout_keeps | with_reducible apply readUnits_keeps | (with_reducible refine Keeps.foldl (fun s a hs => ?_) _ _ ?_) | with_reducible apply Keeps.ite | split)

theorem storeMoved_keeps  {z s : State} (dst : Nat) (bs : List Byte) (bad : Nat → Nat → Bool) (hk0 : Keeps z s) : Keeps z (storeMoved s dst bs bad) := by
  unfold storeMoved
  try dsimp only
  repeat' first
    | with_reducible assumption
    | with_reducible apply store_keeps
    | with_reducible apply markUnit_keeps
    | (with_reducible refine Keeps.foldl (fun s a hs => ?_) _ _ ?_)
    | with_reducible apply Keeps.ite
    | intro _
    | (refine Keeps.mk' ?_ rfl rfl rfl rfl rfl rfl rfl rfl rfl; first | with_reducible assumption | with_reducible apply store_keeps | with_reducible apply markUnit_keeps | (with_reducible refine Keeps.foldl (fun s a hs => ?_) _ _ ?_) | with_reducible apply Keeps.ite | split)

theorem moveBytes_keeps  {z s : State} (p : Nat) (src : Nat) (dst : Nat) (n : Nat) (o : Nat → Ecc) (hk0 : Keeps z s) : Keeps z (moveBytes s p src dst n o) := by
  unfold moveBytes
  try dsimp only
  repeat' first
    | with_reducible assumption
    | with_reducible apply passReqs_keeps
    | with_reducible apply portRead_keeps
    | with_reducible apply storeMoved_keeps
    | with_reducible apply Keeps.ite
    | intro _
    | (refine Keeps.mk' ?_ rfl rfl rfl rfl rfl rfl rfl rfl rfl; first | with_reducible assumption | with_reducible apply passReqs_keeps | with_reducible apply portRead_keeps | with_reducible apply storeMoved_keeps | with_reducible apply Keeps.ite | split)

theorem modXfer_keeps  {z s : State} (id : Nat) (f : Xfer → Xfer) (hk0 : Keeps z s) : Keeps z (modXfer s id f) := by
  unfold modXfer
  try dsimp only
  repeat' first
    | with_reducible assumption
    | with_reducible apply Keeps.ite
    | intro _
    | (refine Keeps.mk' ?_ rfl rfl rfl rfl rfl rfl rfl rfl rfl; first | with_reducible assumption | with_reducible apply Keeps.ite | split)

theorem closeXfer_keeps  {z s : State} (x : Xfer) (hk0 : Keeps z s) : Keeps z (closeXfer s x) := by
  unfold closeXfer
  try dsimp only
  repeat' first
    | with_reducible assumption
    | with_reducible apply giveOne_keeps
    | with_reducible apply Keeps.ite
    | intro _
    | (refine Keeps.mk' ?_ rfl rfl rfl rfl rfl rfl rfl rfl rfl; first | with_reducible assumption | with_reducible apply giveOne_keeps | with_reducible apply Keeps.ite | split)

theorem trimIf_keeps  {z s : State} (p : Xfer → Bool) (hk0 : Keeps z s) : Keeps z (trimIf s p) := by
  unfold trimIf
  try dsimp only
  repeat' first
    | with_reducible assumption
    | with_reducible apply closeXfer_keeps
    | with_reducible apply modXfer_keeps
    | (with_reducible refine Keeps.foldl (fun s a hs => ?_) _ _ ?_)
    | with_reducible apply Keeps.ite
    | intro _
    | (refine Keeps.mk' ?_ rfl rfl rfl rfl rfl rfl rfl rfl rfl; first | with_reducible assumption | with_reducible apply closeXfer_keeps | with_reducible apply modXfer_keeps | (with_reducible refine Keeps.foldl (fun s a hs => ?_) _ _ ?_) | with_reducible apply Keeps.ite | split)

theorem trimXfers_keeps  {z s : State} (t : Word) (hk0 : Keeps z s) : Keeps z (trimXfers s t) := by
  unfold trimXfers
  try dsimp only
  repeat' first
    | with_reducible assumption
    | with_reducible apply trimIf_keeps
    | with_reducible apply Keeps.ite
    | intro _
    | (refine Keeps.mk' ?_ rfl rfl rfl rfl rfl rfl rfl rfl rfl; first | with_reducible assumption | with_reducible apply trimIf_keeps | with_reducible apply Keeps.ite | split)

theorem addXfer_keeps  {z s : State} (unit : Nat) (prio : Nat) (use : XUse) (src : Nat) (dst : Nat) (len : Nat) (hk0 : Keeps z s) : Keeps z (addXfer s unit prio use src dst len) := by
  unfold addXfer
  try dsimp only
  repeat' first
    | with_reducible assumption
    | with_reducible apply Keeps.ite
    | intro _
    | (refine Keeps.mk' ?_ rfl rfl rfl rfl rfl rfl rfl rfl rfl; first | with_reducible assumption | with_reducible apply Keeps.ite | split)

theorem queueRow_keeps  {z s : State} (unit : Nat) (prio : Nat) (use : XUse) (src : Nat) (dst : Nat) (len : Nat) (hk0 : Keeps z s) : Keeps z (queueRow s unit prio use src dst len) := by
  unfold queueRow
  try dsimp only
  repeat' first
    | with_reducible assumption
    | with_reducible apply addXfer_keeps
    | (with_reducible refine Keeps.foldl (fun s a hs => ?_) _ _ ?_)
    | with_reducible apply Keeps.ite
    | intro _
    | (refine Keeps.mk' ?_ rfl rfl rfl rfl rfl rfl rfl rfl rfl; first | with_reducible assumption | with_reducible apply addXfer_keeps | (with_reducible refine Keeps.foldl (fun s a hs => ?_) _ _ ?_) | with_reducible apply Keeps.ite | split)

theorem reclaim_keeps  {z s : State} (dom : Nat) (hk0 : Keeps z s) : Keeps z (reclaim s dom) := by
  unfold reclaim
  try dsimp only
  repeat' first
    | with_reducible assumption
    | with_reducible apply giveCredit_keeps
    | with_reducible apply closeXfer_keeps
    | (with_reducible refine Keeps.foldl (fun s a hs => ?_) _ _ ?_)
    | with_reducible apply Keeps.ite
    | intro _
    | (refine Keeps.mk' ?_ rfl rfl rfl rfl rfl rfl rfl rfl rfl; first | with_reducible assumption | with_reducible apply giveCredit_keeps | with_reducible apply closeXfer_keeps | (with_reducible refine Keeps.foldl (fun s a hs => ?_) _ _ ?_) | with_reducible apply Keeps.ite | split)

end Sys2Proof.Machine
end

