-- ==== Sys2Proof/Laws/Keeps/Pages.lean ====
section
/-! SUPPORT. What the definitions of Machine/Pages.lean keep (Laws/Keeps.lean). -/

set_option linter.unusedTactic false
set_option linter.unreachableTactic false
set_option linter.unusedVariables false

namespace Sys2Proof.Machine

theorem setHdr_keeps  {z s : State} (id : Nat) (i : Nat) (w : Word) (hk0 : Keeps z s) : Keeps z (setHdr s id i w) := by
  unfold setHdr
  try dsimp only
  repeat' first
    | with_reducible assumption
    | with_reducible apply storeWords_keeps
    | with_reducible apply Keeps.ite
    | intro _
    | (refine Keeps.mk' ?_ rfl rfl rfl rfl rfl rfl rfl rfl rfl; first | with_reducible assumption | with_reducible apply storeWords_keeps | with_reducible apply Keeps.ite | split)

theorem setEnt_keeps  {z s : State} (h : List Word) (e : Nat) (w0 : Word) (w1 : Word) (hk0 : Keeps z s) : Keeps z (setEnt s h e w0 w1) := by
  unfold setEnt
  try dsimp only
  repeat' first
    | with_reducible assumption
    | with_reducible apply storeWords_keeps
    | with_reducible apply Keeps.ite
    | intro _
    | (refine Keeps.mk' ?_ rfl rfl rfl rfl rfl rfl rfl rfl rfl; first | with_reducible assumption | with_reducible apply storeWords_keeps | with_reducible apply Keeps.ite | split)

theorem copyBytes_keeps  {z s : State} (src : Nat) (dst : Nat) (n : Nat) (ecc : List Ecc) (o : Nat → Ecc) (hk0 : Keeps z s) : Keeps z (copyBytes s src dst n ecc o) := by
  unfold copyBytes
  try dsimp only
  repeat' first
    | with_reducible assumption
    | with_reducible apply moveBytes_keeps
    | with_reducible apply Keeps.ite
    | intro _
    | (refine Keeps.mk' ?_ rfl rfl rfl rfl rfl rfl rfl rfl rfl; first | with_reducible assumption | with_reducible apply moveBytes_keeps | with_reducible apply Keeps.ite | split)

theorem bumpHdr_keeps  {z s : State} (id : Nat) (i : Nat) (hk0 : Keeps z s) : Keeps z (bumpHdr s id i) := by
  unfold bumpHdr
  try dsimp only
  repeat' first
    | with_reducible assumption
    | with_reducible apply setHdr_keeps
    | with_reducible apply Keeps.ite
    | intro _
    | (refine Keeps.mk' ?_ rfl rfl rfl rfl rfl rfl rfl rfl rfl; first | with_reducible assumption | with_reducible apply setHdr_keeps | with_reducible apply Keeps.ite | split)

theorem fixPoisonPages_keeps  {z s : State} (id : Nat) (hk0 : Keeps z s) : Keeps z (fixPoisonPages s id) := by
  unfold fixPoisonPages
  try dsimp only
  repeat' first
    | with_reducible assumption
    | with_reducible apply setHdr_keeps
    | with_reducible apply Keeps.ite
    | intro _
    | (refine Keeps.mk' ?_ rfl rfl rfl rfl rfl rfl rfl rfl rfl; first | with_reducible assumption | with_reducible apply setHdr_keeps | with_reducible apply Keeps.ite | split)

theorem copyHome_keeps  {z s : State} (id : Nat) (h : List Word) (e : Nat) (ecc : List Ecc) (o : Nat → Ecc) (hk0 : Keeps z s) : Keeps z (copyHome s id h e ecc o) := by
  unfold copyHome
  try dsimp only
  repeat' first
    | with_reducible assumption
    | with_reducible apply bumpHdr_keeps
    | with_reducible apply copyBytes_keeps
    | with_reducible apply Keeps.ite
    | intro _
    | (refine Keeps.mk' ?_ rfl rfl rfl rfl rfl rfl rfl rfl rfl; first | with_reducible assumption | with_reducible apply bumpHdr_keeps | with_reducible apply copyBytes_keeps | with_reducible apply Keeps.ite | split)

theorem dropCopy_keeps  {z s : State} (id : Nat) (e : Nat) (hk0 : Keeps z s) : Keeps z (dropCopy s id e) := by
  unfold dropCopy
  try dsimp only
  repeat' first
    | with_reducible assumption
    | with_reducible apply Keeps.ite
    | intro _
    | (refine Keeps.mk' ?_ rfl rfl rfl rfl rfl rfl rfl rfl rfl; first | with_reducible assumption | with_reducible apply Keeps.ite | split)

theorem allocFrame_keeps {z s s1 : State} {id f : Nat} {o : Nat → Ecc} (hk0 : Keeps z s)
    (hr : allocFrame s id o = some (f, s1)) : Keeps z s1 := by
  unfold allocFrame at hr
  dsimp only at hr
  split at hr
  · cases hr; exact hk0
  · split at hr
    · cases hr
    · cases hr
      apply setEnt_keeps
      apply dropCopy_keeps
      split
      · exact hk0
      · apply copyHome_keeps; exact hk0

theorem invalidate_keeps  {z s : State} (h : List Word) (e : Nat) (hk0 : Keeps z s) : Keeps z (invalidate s h e) := by
  unfold invalidate
  try dsimp only
  repeat' first
    | with_reducible assumption
    | with_reducible apply setEnt_keeps
    | with_reducible apply dropCopy_keeps
    | with_reducible apply Keeps.ite
    | intro _
    | (refine Keeps.mk' ?_ rfl rfl rfl rfl rfl rfl rfl rfl rfl; first | with_reducible assumption | with_reducible apply setEnt_keeps | with_reducible apply dropCopy_keeps | with_reducible apply Keeps.ite | split)

theorem pinEnt_keeps  {z s : State} (h : List Word) (e : Nat) (p : Bool) (hk0 : Keeps z s) : Keeps z (pinEnt s h e p) := by
  unfold pinEnt
  try dsimp only
  repeat' first
    | with_reducible assumption
    | with_reducible apply setEnt_keeps
    | with_reducible apply Keeps.ite
    | intro _
    | (refine Keeps.mk' ?_ rfl rfl rfl rfl rfl rfl rfl rfl rfl; first | with_reducible assumption | with_reducible apply setEnt_keeps | with_reducible apply Keeps.ite | split)

theorem pinPage_keeps  {z s : State} (k : Nat) (p : Bool) (hk0 : Keeps z s) : Keeps z (pinPage s k p) := by
  unfold pinPage
  try dsimp only
  repeat' first
    | with_reducible assumption
    | with_reducible apply pinEnt_keeps
    | with_reducible apply Keeps.ite
    | intro _
    | (refine Keeps.mk' ?_ rfl rfl rfl rfl rfl rfl rfl rfl rfl; first | with_reducible assumption | with_reducible apply pinEnt_keeps | with_reducible apply Keeps.ite | split)

theorem freePins_keeps  {z s : State} (id : Nat) (hk0 : Keeps z s) : Keeps z (freePins s id) := by
  unfold freePins
  try dsimp only
  repeat' first
    | with_reducible assumption
    | with_reducible apply pinPage_keeps
    | (with_reducible refine Keeps.foldl (fun s a hs => ?_) _ _ ?_)
    | with_reducible apply Keeps.ite
    | intro _
    | (refine Keeps.mk' ?_ rfl rfl rfl rfl rfl rfl rfl rfl rfl; first | with_reducible assumption | with_reducible apply pinPage_keeps | (with_reducible refine Keeps.foldl (fun s a hs => ?_) _ _ ?_) | with_reducible apply Keeps.ite | split)

theorem unlockWalk_keeps  {z s : State} (w : Walk) (hk0 : Keeps z s) : Keeps z (unlockWalk s w) := by
  unfold unlockWalk
  try dsimp only
  repeat' first
    | with_reducible assumption
    | with_reducible apply setHdr_keeps
    | with_reducible apply Keeps.ite
    | intro _
    | (refine Keeps.mk' ?_ rfl rfl rfl rfl rfl rfl rfl rfl rfl; first | with_reducible assumption | with_reducible apply setHdr_keeps | with_reducible apply Keeps.ite | split)

theorem releaseWalk_keeps  {z s : State} (e : Nat) (hk0 : Keeps z s) : Keeps z (releaseWalk s e) := by
  unfold releaseWalk
  try dsimp only
  repeat' first
    | with_reducible assumption
    | with_reducible apply unlockWalk_keeps
    | with_reducible apply freePins_keeps
    | (with_reducible refine Keeps.foldl (fun s a hs => ?_) _ _ ?_)
    | with_reducible apply Keeps.ite
    | intro _
    | (refine Keeps.mk' ?_ rfl rfl rfl rfl rfl rfl rfl rfl rfl; first | with_reducible assumption | with_reducible apply unlockWalk_keeps | with_reducible apply freePins_keeps | (with_reducible refine Keeps.foldl (fun s a hs => ?_) _ _ ?_) | with_reducible apply Keeps.ite | split)

end Sys2Proof.Machine
end

