-- ==== Sys2Proof/Laws/Keeps/Ops.lean ====
section
/-! SUPPORT. What the definitions of Machine/Ops.lean keep (Laws/Keeps.lean). -/

set_option linter.unusedTactic false
set_option linter.unreachableTactic false
set_option linter.unusedVariables false

namespace Sys2Proof.Machine

theorem addTok_keeps  {z s : State} (t : Word) (p : Port) (hk0 : Keeps z s) : Keeps z (addTok s t p) := by
  unfold addTok
  try dsimp only
  repeat' first
    | with_reducible assumption
    | with_reducible apply Keeps.ite
    | intro _
    | (refine Keeps.mk' ?_ rfl rfl rfl rfl rfl rfl rfl rfl rfl; first | with_reducible assumption | with_reducible apply Keeps.ite | split)

theorem issueCmd_keeps  {z s : State} (p : Port) (hk0 : Keeps z s) : Keeps z (issueCmd s p).2 := by
  unfold issueCmd
  try dsimp only
  repeat' first
    | with_reducible assumption
    | with_reducible apply addTok_keeps
    | with_reducible apply Keeps.ite
    | with_reducible apply Keeps.ite1
    | split
    | (dsimp only)
    | intro _
    | (refine Keeps.mk' ?_ rfl rfl rfl rfl rfl rfl rfl rfl rfl; first | with_reducible assumption | with_reducible apply addTok_keeps | with_reducible apply Keeps.ite | with_reducible apply Keeps.ite1 | split | (dsimp only) | split)

theorem issueCtx_keeps  {z s : State} (c : Nat) (hk0 : Keeps z s) : Keeps z (issueCtx s c).2 := by
  unfold issueCtx
  try dsimp only
  repeat' first
    | with_reducible assumption
    | with_reducible apply Keeps.ite
    | with_reducible apply Keeps.ite1
    | split
    | (dsimp only)
    | intro _
    | (refine Keeps.mk' ?_ rfl rfl rfl rfl rfl rfl rfl rfl rfl; first | with_reducible assumption | with_reducible apply Keeps.ite | with_reducible apply Keeps.ite1 | split | (dsimp only) | split)

theorem finishTok_keeps  {z s : State} (t : Word) (st : Status) (pl : List Word) (hk0 : Keeps z s) : Keeps z (finishTok s t st pl) := by
  unfold finishTok
  try dsimp only
  repeat' first
    | with_reducible assumption
    | with_reducible apply Keeps.ite
    | intro _
    | (refine Keeps.mk' ?_ rfl rfl rfl rfl rfl rfl rfl rfl rfl; first | with_reducible assumption | with_reducible apply Keeps.ite | split)

theorem setTokCode_keeps  {z s : State} (t : Word) (c : Nat) (hk0 : Keeps z s) : Keeps z (setTokCode s t c) := by
  unfold setTokCode
  try dsimp only
  repeat' first
    | with_reducible assumption
    | with_reducible apply Keeps.ite
    | intro _
    | (refine Keeps.mk' ?_ rfl rfl rfl rfl rfl rfl rfl rfl rfl; first | with_reducible assumption | with_reducible apply Keeps.ite | split)

theorem writeTrec_keeps  {z s : State} (r : TRec) (ws : List Word) (hk0 : Keeps z s) : Keeps z (writeTrec s r ws) := by
  unfold writeTrec
  try dsimp only
  repeat' first
    | with_reducible assumption
    | with_reducible apply storeWords_keeps
    | with_reducible apply Keeps.ite
    | intro _
    | (refine Keeps.mk' ?_ rfl rfl rfl rfl rfl rfl rfl rfl rfl; first | with_reducible assumption | with_reducible apply storeWords_keeps | with_reducible apply Keeps.ite | split)

theorem writeFb_keeps  {z s : State} (j : Job) (l : LayerCnt) (outcome : Nat) (hk0 : Keeps z s) : Keeps z (writeFb s j l outcome) := by
  unfold writeFb
  try dsimp only
  repeat' first
    | with_reducible assumption
    | with_reducible apply storeWords_keeps
    | with_reducible apply Keeps.ite
    | intro _
    | (refine Keeps.mk' ?_ rfl rfl rfl rfl rfl rfl rfl rfl rfl; first | with_reducible assumption | with_reducible apply storeWords_keeps | with_reducible apply Keeps.ite | split)

theorem collectOne_keeps  {z s : State} (inp : Nat) (hk0 : Keeps z s) : Keeps z (collectOne s inp) := by
  unfold collectOne
  try dsimp only
  repeat' first
    | with_reducible assumption
    | with_reducible apply storeWords_keeps
    | with_reducible apply setSrc_keeps
    | with_reducible apply Keeps.ite
    | intro _
    | (refine Keeps.mk' ?_ rfl rfl rfl rfl rfl rfl rfl rfl rfl; first | with_reducible assumption | with_reducible apply storeWords_keeps | with_reducible apply setSrc_keeps | with_reducible apply Keeps.ite | split)

theorem pushRec_keeps  {z s : State} (inp : Nat) (r : CRec) (hk0 : Keeps z s) : Keeps z (pushRec s inp r) := by
  unfold pushRec
  try dsimp only
  repeat' first
    | with_reducible assumption
    | with_reducible apply collectOne_keeps
    | with_reducible apply Keeps.ite
    | intro _
    | (refine Keeps.mk' ?_ rfl rfl rfl rfl rfl rfl rfl rfl rfl; first | with_reducible assumption | with_reducible apply collectOne_keeps | with_reducible apply Keeps.ite | split)

theorem waitEnd_keeps  {z s : State} (w : EndWait) (hk0 : Keeps z s) : Keeps z (waitEnd s w) := by
  unfold waitEnd
  try dsimp only
  repeat' first
    | with_reducible assumption
    | with_reducible apply Keeps.ite
    | intro _
    | (refine Keeps.mk' ?_ rfl rfl rfl rfl rfl rfl rfl rfl rfl; first | with_reducible assumption | with_reducible apply Keeps.ite | split)

theorem modJob_keeps  {z s : State} (t : Word) (f : Job → Job) (hk0 : Keeps z s) : Keeps z (modJob s t f) := by
  unfold modJob
  try dsimp only
  repeat' first
    | with_reducible assumption
    | with_reducible apply Keeps.ite
    | intro _
    | (refine Keeps.mk' ?_ rfl rfl rfl rfl rfl rfl rfl rfl rfl; first | with_reducible assumption | with_reducible apply Keeps.ite | split)

theorem releaseWalks_keeps  {z s : State} (t : Word) (hk0 : Keeps z s) : Keeps z (releaseWalks s t) := by
  unfold releaseWalks
  try dsimp only
  repeat' first
    | with_reducible assumption
    | with_reducible apply releaseWalk_keeps
    | (with_reducible refine Keeps.foldl (fun s a hs => ?_) _ _ ?_)
    | with_reducible apply Keeps.ite
    | intro _
    | (refine Keeps.mk' ?_ rfl rfl rfl rfl rfl rfl rfl rfl rfl; first | with_reducible assumption | with_reducible apply releaseWalk_keeps | (with_reducible refine Keeps.foldl (fun s a hs => ?_) _ _ ?_) | with_reducible apply Keeps.ite | split)

theorem dropWaiting_keeps  {z s : State} (t : Word) (hk0 : Keeps z s) : Keeps z (dropWaiting s t) := by
  unfold dropWaiting
  try dsimp only
  repeat' first
    | with_reducible assumption
    | with_reducible apply Keeps.ite
    | intro _
    | (refine Keeps.mk' ?_ rfl rfl rfl rfl rfl rfl rfl rfl rfl; first | with_reducible assumption | with_reducible apply Keeps.ite | split)

theorem endJob_keeps  {z s : State} (t : Word) (o : JobEnd) (inp : Nat) (hk0 : Keeps z s) : Keeps z (endJob s t o inp) := by
  unfold endJob
  try dsimp only
  repeat' first
    | with_reducible assumption
    | with_reducible apply waitEnd_keeps
    | with_reducible apply writeFb_keeps
    | with_reducible apply dropWaiting_keeps
    | with_reducible apply trimXfers_keeps
    | with_reducible apply finishTok_keeps
    | with_reducible apply pushRec_keeps
    | with_reducible apply releaseWalks_keeps
    | with_reducible apply setTokCode_keeps
    | (with_reducible refine Keeps.foldl (fun s a hs => ?_) _ _ ?_)
    | with_reducible apply Keeps.ite
    | intro _
    | (refine Keeps.mk' ?_ rfl rfl rfl rfl rfl rfl rfl rfl rfl; first | with_reducible assumption | with_reducible apply waitEnd_keeps | with_reducible apply writeFb_keeps | with_reducible apply dropWaiting_keeps | with_reducible apply trimXfers_keeps | with_reducible apply finishTok_keeps | with_reducible apply pushRec_keeps | with_reducible apply releaseWalks_keeps | with_reducible apply setTokCode_keeps | (with_reducible refine Keeps.foldl (fun s a hs => ?_) _ _ ?_) | with_reducible apply Keeps.ite | split)

theorem skipEntry_keeps  {z s : State} (i : Nat) (o : JobEnd) (hk0 : Keeps z s) : Keeps z (skipEntry s i o) := by
  unfold skipEntry
  try dsimp only
  repeat' first
    | with_reducible assumption
    | with_reducible apply waitEnd_keeps
    | with_reducible apply pushRec_keeps
    | with_reducible apply Keeps.ite
    | intro _
    | (refine Keeps.mk' ?_ rfl rfl rfl rfl rfl rfl rfl rfl rfl; first | with_reducible assumption | with_reducible apply waitEnd_keeps | with_reducible apply pushRec_keeps | with_reducible apply Keeps.ite | split)

theorem cascade_keeps {s0 : State} : ∀ (n : Nat) {s : State}, Keeps s0 s → Keeps s0 (cascade n s)
  | 0, _, h => h
  | n + 1, s, h => by
    unfold cascade
    try dsimp only
    repeat' first
      | with_reducible assumption
      | with_reducible apply cascade_keeps n
      | (with_reducible refine Keeps.foldl (fun s a hs => ?_) _ _ ?_)
      | with_reducible apply skipEntry_keeps
      | with_reducible apply endJob_keeps
      | with_reducible apply Keeps.ite
      | intro _
      | split

theorem cascadeAll_keeps  {z s : State}  (hk0 : Keeps z s) : Keeps z (cascadeAll s) := by
  unfold cascadeAll
  try dsimp only
  repeat' first
    | with_reducible assumption
    | with_reducible apply cascade_keeps
    | with_reducible apply Keeps.ite
    | intro _
    | (refine Keeps.mk' ?_ rfl rfl rfl rfl rfl rfl rfl rfl rfl; first | with_reducible assumption | with_reducible apply cascade_keeps | with_reducible apply Keeps.ite | split)

theorem killJob_keeps  {z s : State} (t : Word) (o : JobEnd) (inp : Nat) (hk0 : Keeps z s) : Keeps z (killJob s t o inp) := by
  unfold killJob
  try dsimp only
  repeat' first
    | with_reducible assumption
    | with_reducible apply cascadeAll_keeps
    | with_reducible apply endJob_keeps
    | with_reducible apply Keeps.ite
    | intro _
    | (refine Keeps.mk' ?_ rfl rfl rfl rfl rfl rfl rfl rfl rfl; first | with_reducible assumption | with_reducible apply cascadeAll_keeps | with_reducible apply endJob_keeps | with_reducible apply Keeps.ite | split)

theorem killJobs_keeps  {z s : State} (ts : List Word) (o : JobEnd) (inp : Nat) (hk0 : Keeps z s) : Keeps z (killJobs s ts o inp) := by
  unfold killJobs
  try dsimp only
  repeat' first
    | with_reducible assumption
    | with_reducible apply cascadeAll_keeps
    | with_reducible apply endJob_keeps
    | (with_reducible refine Keeps.foldl (fun s a hs => ?_) _ _ ?_)
    | with_reducible apply Keeps.ite
    | intro _
    | (refine Keeps.mk' ?_ rfl rfl rfl rfl rfl rfl rfl rfl rfl; first | with_reducible assumption | with_reducible apply cascadeAll_keeps | with_reducible apply endJob_keeps | (with_reducible refine Keeps.foldl (fun s a hs => ?_) _ _ ?_) | with_reducible apply Keeps.ite | split)

theorem commitWaits_keeps  {z s : State}  (hk0 : Keeps z s) : Keeps z (commitWaits s) := by
  unfold commitWaits
  try dsimp only
  repeat' first
    | with_reducible assumption
    | with_reducible apply cascadeAll_keeps
    | with_reducible apply endJob_keeps
    | with_reducible apply skipEntry_keeps
    | (with_reducible refine Keeps.foldl (fun s a hs => ?_) _ _ ?_)
    | with_reducible apply Keeps.ite
    | intro _
    | (refine Keeps.mk' ?_ rfl rfl rfl rfl rfl rfl rfl rfl rfl; first | with_reducible assumption | with_reducible apply cascadeAll_keeps | with_reducible apply endJob_keeps | with_reducible apply skipEntry_keeps | (with_reducible refine Keeps.foldl (fun s a hs => ?_) _ _ ?_) | with_reducible apply Keeps.ite | split)

theorem Keeps.low {s0 s : State} (p : Pins) (x : Safety) (h : Keeps s0 s) (hp : p.safeA = false) (hq : p.safeB = false) :
    Keeps s0 { s with pins := p, saf := x } :=
  ⟨h.1, h.2, h.3, h.4, fun _ => by simp [safeOk, hp, hq], h.6⟩
theorem withdraw_keeps {s0 s : State} (cause : Nat) (h : Keeps s0 s) : Keeps s0 (withdraw s cause) := by
  unfold withdraw
  split
  · exact h.low _ _ rfl rfl
  · exact h

theorem disarm_keeps {s0 s : State} (h : Keeps s0 s) : Keeps s0 (disarm s) := h.low _ _ rfl rfl

theorem await_keeps {s0 s : State} (h : Keeps s0 s) : Keeps s0 (await s) := h.low _ _ rfl rfl

theorem writeVerdict_keeps  {z s : State} (verdict : Nat) (cause : Nat) (rule : Nat) (writer : Nat) (ev : List Word) (hk0 : Keeps z s) : Keeps z (writeVerdict s verdict cause rule writer ev) := by
  unfold writeVerdict
  try dsimp only
  repeat' first
    | with_reducible assumption
    | with_reducible apply storeWords_keeps
    | with_reducible apply Keeps.ite
    | intro _
    | (refine Keeps.mk' ?_ rfl rfl rfl rfl rfl rfl rfl rfl rfl; first | with_reducible assumption | with_reducible apply storeWords_keeps | with_reducible apply Keeps.ite | split)

theorem cancelSwap_keeps  {z s : State}  (hk0 : Keeps z s) : Keeps z (cancelSwap s) := by
  unfold cancelSwap
  try dsimp only
  repeat' first
    | with_reducible assumption
    | with_reducible apply Keeps.ite
    | intro _
    | (refine Keeps.mk' ?_ rfl rfl rfl rfl rfl rfl rfl rfl rfl; first | with_reducible assumption | with_reducible apply Keeps.ite | split)

theorem guiltFatal_keeps  {z s : State}  (hk0 : Keeps z s) : Keeps z (guiltFatal s) := by
  unfold guiltFatal
  try dsimp only
  repeat' first
    | with_reducible assumption
    | with_reducible apply Keeps.ite
    | intro _
    | (refine Keeps.mk' ?_ rfl rfl rfl rfl rfl rfl rfl rfl rfl; first | with_reducible assumption | with_reducible apply Keeps.ite | split)

theorem clearRun_keeps  {z s : State}  (hk0 : Keeps z s) : Keeps z (clearRun s) := by
  unfold clearRun
  try dsimp only
  repeat' first
    | with_reducible assumption
    | with_reducible apply Keeps.ite
    | intro _
    | (refine Keeps.mk' ?_ rfl rfl rfl rfl rfl rfl rfl rfl rfl; first | with_reducible assumption | with_reducible apply Keeps.ite | split)

theorem faReact_keeps  {z s : State}  (hk0 : Keeps z s) : Keeps z (faReact s) := by
  unfold faReact
  try dsimp only
  repeat' first
    | with_reducible assumption
    | with_reducible apply withdraw_keeps
    | with_reducible apply guiltFatal_keeps
    | with_reducible apply cancelSwap_keeps
    | with_reducible apply killJobs_keeps
    | with_reducible apply writeVerdict_keeps
    | with_reducible apply disarm_keeps
    | with_reducible apply clearRun_keeps
    | with_reducible apply Keeps.ite
    | intro _
    | (refine Keeps.mk' ?_ rfl rfl rfl rfl rfl rfl rfl rfl rfl; first | with_reducible assumption | with_reducible apply withdraw_keeps | with_reducible apply guiltFatal_keeps | with_reducible apply cancelSwap_keeps | with_reducible apply killJobs_keeps | with_reducible apply writeVerdict_keeps | with_reducible apply disarm_keeps | with_reducible apply clearRun_keeps | with_reducible apply Keeps.ite | split)

theorem stopPairA_keeps  {z s : State}  (hk0 : Keeps z s) : Keeps z (stopPairA s) := by
  unfold stopPairA
  try dsimp only
  repeat' first
    | with_reducible assumption
    | with_reducible apply setSrc_keeps
    | with_reducible apply Keeps.ite
    | intro _
    | (refine Keeps.mk' ?_ rfl rfl rfl rfl rfl rfl rfl rfl rfl; first | with_reducible assumption | with_reducible apply setSrc_keeps | with_reducible apply Keeps.ite | split)

theorem settle_keeps  {z s1 : State} (s0 : State) (hk0 : Keeps z s1) : Keeps z (settle s0 s1) := by
  unfold settle
  try dsimp only
  repeat' first
    | with_reducible assumption
    | with_reducible apply faReact_keeps
    | with_reducible apply Keeps.ite
    | intro _
    | (refine Keeps.mk' ?_ rfl rfl rfl rfl rfl rfl rfl rfl rfl; first | with_reducible assumption | with_reducible apply faReact_keeps | with_reducible apply Keeps.ite | split)

theorem msix_keeps  {z s : State} (v : Nat) (hk0 : Keeps z s) : Keeps z (msix s v) := by
  unfold msix
  try dsimp only
  repeat' first
    | with_reducible assumption
    | with_reducible apply Keeps.ite
    | intro _
    | (refine Keeps.mk' ?_ rfl rfl rfl rfl rfl rfl rfl rfl rfl; first | with_reducible assumption | with_reducible apply Keeps.ite | split)

end Sys2Proof.Machine
end

