-- ==== Sys2Proof/Laws/Keeps/Ports.lean ====
section
/-! SUPPORT. What the definitions of Machine/Ports.lean keep (Laws/Keeps.lean). -/

set_option linter.unusedTactic false
set_option linter.unreachableTactic false
set_option linter.unusedVariables false

namespace Sys2Proof.Machine

theorem modPort_keeps  {z s : State} (p : Port) (f : PortSt → PortSt) (hk0 : Keeps z s) : Keeps z (modPort s p f) := by
  unfold modPort
  try dsimp only
  repeat' first
    | with_reducible assumption
    | with_reducible apply Keeps.ite
    | intro _
    | (refine Keeps.mk' ?_ rfl rfl rfl rfl rfl rfl rfl rfl rfl; first | with_reducible assumption | with_reducible apply Keeps.ite | split)

theorem place_keeps  {z s : State} (p : Port) (ws : List Word) (v : Nat) (hk0 : Keeps z s) : Keeps z (place s p ws v) := by
  unfold place
  try dsimp only
  repeat' first
    | with_reducible assumption
    | with_reducible apply modPort_keeps
    | with_reducible apply msix_keeps
    | with_reducible apply Keeps.ite
    | intro _
    | (refine Keeps.mk' ?_ rfl rfl rfl rfl rfl rfl rfl rfl rfl; first | with_reducible assumption | with_reducible apply modPort_keeps | with_reducible apply msix_keeps | with_reducible apply Keeps.ite | split)

theorem placeReply_keeps  {z s : State} (p : Port) (op : Nat) (st : Status) (tag : BitVec 16) (seq : BitVec 16) (pl : List Word) (hk0 : Keeps z s) : Keeps z (placeReply s p op st tag seq pl) := by
  unfold placeReply
  try dsimp only
  repeat' first
    | with_reducible assumption
    | with_reducible apply place_keeps
    | with_reducible apply Keeps.ite
    | intro _
    | (refine Keeps.mk' ?_ rfl rfl rfl rfl rfl rfl rfl rfl rfl; first | with_reducible assumption | with_reducible apply place_keeps | with_reducible apply Keeps.ite | split)

theorem refuse_keeps  {z s : State} (st : Status) (pl : List Word) (hk0 : Keeps z s) : Keeps z (refuse s st pl).1 := by
  unfold refuse
  try dsimp only
  repeat' first
    | with_reducible assumption
    | with_reducible apply Keeps.ite
    | with_reducible apply Keeps.ite1
    | split
    | (dsimp only)
    | intro _
    | (refine Keeps.mk' ?_ rfl rfl rfl rfl rfl rfl rfl rfl rfl; first | with_reducible assumption | with_reducible apply Keeps.ite | with_reducible apply Keeps.ite1 | split | (dsimp only) | split)

theorem badWord_keeps  {z s : State} (i : Nat) (hk0 : Keeps z s) : Keeps z (badWord s i).1 := by
  unfold badWord
  try dsimp only
  repeat' first
    | with_reducible assumption
    | with_reducible apply refuse_keeps
    | with_reducible apply Keeps.ite
    | with_reducible apply Keeps.ite1
    | split
    | (dsimp only)
    | intro _
    | (refine Keeps.mk' ?_ rfl rfl rfl rfl rfl rfl rfl rfl rfl; first | with_reducible assumption | with_reducible apply refuse_keeps | with_reducible apply Keeps.ite | with_reducible apply Keeps.ite1 | split | (dsimp only) | split)

theorem setTaken_keeps  {z s : State} (p : Port) (t : Taken) (hk0 : Keeps z s) : Keeps z (setTaken s p t) := by
  unfold setTaken
  try dsimp only
  repeat' first
    | with_reducible assumption
    | with_reducible apply modPort_keeps
    | with_reducible apply Keeps.ite
    | intro _
    | (refine Keeps.mk' ?_ rfl rfl rfl rfl rfl rfl rfl rfl rfl; first | with_reducible assumption | with_reducible apply modPort_keeps | with_reducible apply Keeps.ite | split)

theorem clearTaken_keeps  {z s : State} (p : Port) (hk0 : Keeps z s) : Keeps z (clearTaken s p) := by
  unfold clearTaken
  try dsimp only
  repeat' first
    | with_reducible assumption
    | with_reducible apply modPort_keeps
    | with_reducible apply Keeps.ite
    | intro _
    | (refine Keeps.mk' ?_ rfl rfl rfl rfl rfl rfl rfl rfl rfl; first | with_reducible assumption | with_reducible apply modPort_keeps | with_reducible apply Keeps.ite | split)

theorem giveReply_keeps  {z s : State} (resp : Bool) (op : Nat) (k : Pkt) (st : Status) (pl : List Word) (hk0 : Keeps z s) : Keeps z (giveReply resp op k st pl s) := by
  unfold giveReply
  try dsimp only
  repeat' first
    | with_reducible assumption
    | with_reducible apply placeReply_keeps
    | with_reducible apply modPort_keeps
    | with_reducible apply Keeps.ite
    | intro _
    | (refine Keeps.mk' ?_ rfl rfl rfl rfl rfl rfl rfl rfl rfl; first | with_reducible assumption | with_reducible apply placeReply_keeps | with_reducible apply modPort_keeps | with_reducible apply Keeps.ite | split)

theorem serve_keeps {z s : State} (op flags : Nat) (k : Pkt) (body : State → Ans)
    (hb : ∀ x, Keeps z x → Keeps z (body x).1) (hk0 : Keeps z s) : Keeps z (serve op flags k body s) := by
  have h : Keeps z (if served s op k then body s else refuse s .notReady []).1 := by
    split
    · exact hb s hk0
    · exact hk0
  unfold serve
  revert h
  generalize (if served s op k then body s else refuse s .notReady [] : Ans) = a
  intro h
  dsimp only
  split
  · split
    · exact setTaken_keeps _ _ h
    · exact h
  · exact giveReply_keeps _ _ _ _ _ h

theorem dropPacket_keeps  {z s : State} (k : Pkt) (hk0 : Keeps z s) : Keeps z (dropPacket s k) := by
  unfold dropPacket
  try dsimp only
  repeat' first
    | with_reducible assumption
    | with_reducible apply Keeps.ite
    | intro _
    | (refine Keeps.mk' ?_ rfl rfl rfl rfl rfl rfl rfl rfl rfl; first | with_reducible assumption | with_reducible apply Keeps.ite | split)

theorem replayReply_keeps  {z s : State} (p : Port) (hk0 : Keeps z s) : Keeps z (replayReply s p) := by
  unfold replayReply
  try dsimp only
  repeat' first
    | with_reducible assumption
    | with_reducible apply place_keeps
    | with_reducible apply Keeps.ite
    | intro _
    | (refine Keeps.mk' ?_ rfl rfl rfl rfl rfl rfl rfl rfl rfl; first | with_reducible assumption | with_reducible apply place_keeps | with_reducible apply Keeps.ite | split)

theorem refusePacket_keeps  {z s : State} (op : Nat) (k : Pkt) (st : Status) (pl : List Word) (hk0 : Keeps z s) : Keeps z (refusePacket s op k st pl) := by
  unfold refusePacket
  try dsimp only
  repeat' first
    | with_reducible assumption
    | with_reducible apply placeReply_keeps
    | with_reducible apply Keeps.ite
    | intro _
    | (refine Keeps.mk' ?_ rfl rfl rfl rfl rfl rfl rfl rfl rfl; first | with_reducible assumption | with_reducible apply placeReply_keeps | with_reducible apply Keeps.ite | split)

theorem seqRefusal_keeps  {z s : State} (op : Nat) (k : Pkt) (hk0 : Keeps z s) : Keeps z (seqRefusal s op k) := by
  unfold seqRefusal
  try dsimp only
  repeat' first
    | with_reducible assumption
    | with_reducible apply refusePacket_keeps
    | with_reducible apply Keeps.ite
    | intro _
    | (refine Keeps.mk' ?_ rfl rfl rfl rfl rfl rfl rfl rfl rfl; first | with_reducible assumption | with_reducible apply refusePacket_keeps | with_reducible apply Keeps.ite | split)

theorem command_keeps {z s : State} (op flags : Nat) (k : Pkt) (body : State → Ans)
    (hb : ∀ x, Keeps z x → Keeps z (body x).1) (hk0 : Keeps z s) : Keeps z (command op flags k body s) := by
  unfold command
  split
  · split
    · split
      · exact hk0
      · exact settle_keeps _ (serve_keeps _ _ _ _ hb (clearTaken_keeps _ hk0))
    · exact dropPacket_keeps _ hk0
  · split
    · split
      · exact refusePacket_keeps _ _ _ _ hk0
      · exact seqRefusal_keeps _ _ hk0
      · exact replayReply_keeps _ hk0
      · split
        · exact setTaken_keeps _ _ hk0
        · exact settle_keeps _ (serve_keeps _ _ _ _ hb hk0)
    · exact dropPacket_keeps _ hk0

theorem placeEvent_keeps  {z s : State} (p : Port) (op : Nat) (st : Status) (pl : List Word) (v : Nat) (hk0 : Keeps z s) : Keeps z (placeEvent s p op st pl v) := by
  unfold placeEvent
  try dsimp only
  repeat' first
    | with_reducible assumption
    | with_reducible apply place_keeps
    | with_reducible apply modPort_keeps
    | with_reducible apply Keeps.ite
    | intro _
    | (refine Keeps.mk' ?_ rfl rfl rfl rfl rfl rfl rfl rfl rfl; first | with_reducible assumption | with_reducible apply place_keeps | with_reducible apply modPort_keeps | with_reducible apply Keeps.ite | split)

theorem placeDue_keeps  {z s : State} (p : Port) (kind : Nat) (hk0 : Keeps z s) : Keeps z (placeDue s p kind) := by
  unfold placeDue
  try dsimp only
  repeat' first
    | with_reducible assumption
    | with_reducible apply modPort_keeps
    | with_reducible apply placeEvent_keeps
    | with_reducible apply Keeps.ite
    | intro _
    | (refine Keeps.mk' ?_ rfl rfl rfl rfl rfl rfl rfl rfl rfl; first | with_reducible assumption | with_reducible apply modPort_keeps | with_reducible apply placeEvent_keeps | with_reducible apply Keeps.ite | split)

theorem execFaultEvent_keeps (p : Port) (s : State) : ∃ t, execFaultEvent p s = .next t ∧ Keeps s t := by
  have hk0 := Keeps.refl s
  refine ⟨_, rfl, ?_⟩
  try dsimp only
  repeat' first
    | with_reducible assumption
    | with_reducible apply placeDue_keeps
    | with_reducible apply Keeps.ite
    | intro _
    | (refine Keeps.mk' ?_ rfl rfl rfl rfl rfl rfl rfl rfl rfl; first | with_reducible assumption | with_reducible apply placeDue_keeps | with_reducible apply Keeps.ite | split)

theorem execAnnounce_keeps  (s : State) : ∃ t, execAnnounce s = .next t ∧ Keeps s t := by
  have hk0 := Keeps.refl s
  refine ⟨_, rfl, ?_⟩
  try dsimp only
  repeat' first
    | with_reducible assumption
    | with_reducible apply placeDue_keeps
    | with_reducible apply Keeps.ite
    | intro _
    | (refine Keeps.mk' ?_ rfl rfl rfl rfl rfl rfl rfl rfl rfl; first | with_reducible assumption | with_reducible apply placeDue_keeps | with_reducible apply Keeps.ite | split)

theorem execPeerLostEvent_keeps  (s : State) : ∃ t, execPeerLostEvent s = .next t ∧ Keeps s t := by
  have hk0 := Keeps.refl s
  refine ⟨_, rfl, ?_⟩
  try dsimp only
  repeat' first
    | with_reducible assumption
    | with_reducible apply placeDue_keeps
    | with_reducible apply Keeps.ite
    | intro _
    | (refine Keeps.mk' ?_ rfl rfl rfl rfl rfl rfl rfl rfl rfl; first | with_reducible assumption | with_reducible apply placeDue_keeps | with_reducible apply Keeps.ite | split)

theorem execVerdictEvent_keeps  (s : State) : ∃ t, execVerdictEvent s = .next t ∧ Keeps s t := by
  have hk0 := Keeps.refl s
  refine ⟨_, rfl, ?_⟩
  try dsimp only
  repeat' first
    | with_reducible assumption
    | with_reducible apply placeDue_keeps
    | with_reducible apply Keeps.ite
    | intro _
    | (refine Keeps.mk' ?_ rfl rfl rfl rfl rfl rfl rfl rfl rfl; first | with_reducible assumption | with_reducible apply placeDue_keeps | with_reducible apply Keeps.ite | split)

theorem takePacket_keeps  {z s : State} (p : Port) (ws : List Word) (hk0 : Keeps z s) : Keeps z (takePacket s p ws) := by
  unfold takePacket
  try dsimp only
  repeat' first
    | with_reducible assumption
    | with_reducible apply refusePacket_keeps
    | with_reducible apply refuse_keeps
    | with_reducible apply seqRefusal_keeps
    | with_reducible apply replayReply_keeps
    | with_reducible apply setTaken_keeps
    | with_reducible apply Keeps.ite
    | intro _
    | (refine Keeps.mk' ?_ rfl rfl rfl rfl rfl rfl rfl rfl rfl; first | with_reducible assumption | with_reducible apply refusePacket_keeps | with_reducible apply refuse_keeps | with_reducible apply seqRefusal_keeps | with_reducible apply replayReply_keeps | with_reducible apply setTaken_keeps | with_reducible apply Keeps.ite | split)

theorem putWord_keeps  {z s : State} (p : Port) (idx : Nat) (w : Word) (hk0 : Keeps z s) : Keeps z (putWord s p idx w) := by
  unfold putWord
  try dsimp only
  repeat' first
    | with_reducible assumption
    | with_reducible apply modPort_keeps
    | with_reducible apply takePacket_keeps
    | with_reducible apply Keeps.ite
    | intro _
    | (refine Keeps.mk' ?_ rfl rfl rfl rfl rfl rfl rfl rfl rfl; first | with_reducible assumption | with_reducible apply modPort_keeps | with_reducible apply takePacket_keeps | with_reducible apply Keeps.ite | split)

theorem freeIn_keeps  {z s : State} (p : Port) (hk0 : Keeps z s) : Keeps z (freeIn s p) := by
  unfold freeIn
  try dsimp only
  repeat' first
    | with_reducible assumption
    | with_reducible apply modPort_keeps
    | with_reducible apply Keeps.ite
    | intro _
    | (refine Keeps.mk' ?_ rfl rfl rfl rfl rfl rfl rfl rfl rfl; first | with_reducible assumption | with_reducible apply modPort_keeps | with_reducible apply Keeps.ite | split)

theorem writeS_keeps  {z s : State} (idx : Nat) (w : Word) (hk0 : Keeps z s) : Keeps z (writeS s idx w) := by
  unfold writeS
  try dsimp only
  repeat' first
    | with_reducible assumption
    | with_reducible apply freeIn_keeps
    | with_reducible apply putWord_keeps
    | with_reducible apply Keeps.ite
    | intro _
    | (refine Keeps.mk' ?_ rfl rfl rfl rfl rfl rfl rfl rfl rfl; first | with_reducible assumption | with_reducible apply freeIn_keeps | with_reducible apply putWord_keeps | with_reducible apply Keeps.ite | split)

theorem writeD_keeps  {z s : State} (w : Word) (hk0 : Keeps z s) : Keeps z (writeD s w) := by
  unfold writeD
  try dsimp only
  repeat' first
    | with_reducible assumption
    | with_reducible apply freeIn_keeps
    | with_reducible apply putWord_keeps
    | with_reducible apply Keeps.ite
    | intro _
    | (refine Keeps.mk' ?_ rfl rfl rfl rfl rfl rfl rfl rfl rfl; first | with_reducible assumption | with_reducible apply freeIn_keeps | with_reducible apply putWord_keeps | with_reducible apply Keeps.ite | split)

theorem writeWord_keeps  {z s : State} (p : Port) (idx : Nat) (w : Word) (hk0 : Keeps z s) : Keeps z (writeWord s p idx w) := by
  unfold writeWord
  try dsimp only
  repeat' first
    | with_reducible assumption
    | with_reducible apply putWord_keeps
    | with_reducible apply writeS_keeps
    | with_reducible apply writeD_keeps
    | with_reducible apply Keeps.ite
    | intro _
    | (refine Keeps.mk' ?_ rfl rfl rfl rfl rfl rfl rfl rfl rfl; first | with_reducible assumption | with_reducible apply putWord_keeps | with_reducible apply writeS_keeps | with_reducible apply writeD_keeps | with_reducible apply Keeps.ite | split)

theorem shortWrite_keeps  {z s : State} (p : Port) (hk0 : Keeps z s) : Keeps z (shortWrite s p) := by
  unfold shortWrite
  try dsimp only
  repeat' first
    | with_reducible assumption
    | with_reducible apply modPort_keeps
    | with_reducible apply Keeps.ite
    | intro _
    | (refine Keeps.mk' ?_ rfl rfl rfl rfl rfl rfl rfl rfl rfl; first | with_reducible assumption | with_reducible apply modPort_keeps | with_reducible apply Keeps.ite | split)

theorem execSspShortTransaction_keeps  (s : State) : ∃ t, execSspShortTransaction s = .next t ∧ Keeps s t := by
  have hk0 := Keeps.refl s
  refine ⟨_, rfl, ?_⟩
  try dsimp only
  repeat' first
    | with_reducible assumption
    | with_reducible apply shortWrite_keeps
    | with_reducible apply Keeps.ite
    | intro _
    | (refine Keeps.mk' ?_ rfl rfl rfl rfl rfl rfl rfl rfl rfl; first | with_reducible assumption | with_reducible apply shortWrite_keeps | with_reducible apply Keeps.ite | split)

theorem afterFree_keeps  {z s : State} (p : Port) (hk0 : Keeps z s) : Keeps z (afterFree s p) := by
  unfold afterFree
  try dsimp only
  repeat' first
    | with_reducible assumption
    | with_reducible apply placeDue_keeps
    | with_reducible apply msix_keeps
    | with_reducible apply Keeps.ite
    | intro _
    | (refine Keeps.mk' ?_ rfl rfl rfl rfl rfl rfl rfl rfl rfl; first | with_reducible assumption | with_reducible apply placeDue_keeps | with_reducible apply msix_keeps | with_reducible apply Keeps.ite | split)

theorem readReply_keeps  {z s : State} (p : Port) (idx : Nat) (hk0 : Keeps z s) : Keeps z (readReply s p idx) := by
  unfold readReply
  try dsimp only
  repeat' first
    | with_reducible assumption
    | with_reducible apply modPort_keeps
    | with_reducible apply afterFree_keeps
    | with_reducible apply Keeps.ite
    | intro _
    | (refine Keeps.mk' ?_ rfl rfl rfl rfl rfl rfl rfl rfl rfl; first | with_reducible assumption | with_reducible apply modPort_keeps | with_reducible apply afterFree_keeps | with_reducible apply Keeps.ite | split)

theorem execCmdDrUpdate_keeps (framing : Byte) (w : Word) (s : State) : ∃ t, execCmdDrUpdate framing w s = .next t ∧ Keeps s t := by
  have hk0 := Keeps.refl s
  refine ⟨_, rfl, ?_⟩
  try dsimp only
  repeat' first
    | with_reducible assumption
    | with_reducible apply writeD_keeps
    | with_reducible apply modPort_keeps
    | with_reducible apply shortWrite_keeps
    | with_reducible apply readReply_keeps
    | with_reducible apply Keeps.ite
    | intro _
    | (refine Keeps.mk' ?_ rfl rfl rfl rfl rfl rfl rfl rfl rfl; first | with_reducible assumption | with_reducible apply writeD_keeps | with_reducible apply modPort_keeps | with_reducible apply shortWrite_keeps | with_reducible apply readReply_keeps | with_reducible apply Keeps.ite | split)

theorem execCommandTimeout_keeps (p : Port) (s : State) : ∃ t, execCommandTimeout p s = .next t ∧ Keeps s t := by
  have hk0 := Keeps.refl s
  refine ⟨_, rfl, ?_⟩
  try dsimp only
  repeat' first
    | with_reducible assumption
    | with_reducible apply setSrc_keeps
    | with_reducible apply clearTaken_keeps
    | with_reducible apply giveReply_keeps
    | with_reducible apply Keeps.ite
    | intro _
    | (refine Keeps.mk' ?_ rfl rfl rfl rfl rfl rfl rfl rfl rfl; first | with_reducible assumption | with_reducible apply setSrc_keeps | with_reducible apply clearTaken_keeps | with_reducible apply giveReply_keeps | with_reducible apply Keeps.ite | split)

end Sys2Proof.Machine
end

