-- ==== Sys2Proof/Laws/Keeps/Kv.lean ====
section
/-! SUPPORT. What the definitions of Machine/Kv.lean keep (Laws/Keeps.lean). -/

set_option linter.unusedTactic false
set_option linter.unreachableTactic false
set_option linter.unusedVariables false

namespace Sys2Proof.Machine

theorem spillDone_keeps  {z s : State} (id : Nat) (e : Nat) (ecc : List Ecc) (o : Nat → Ecc) (hk0 : Keeps z s) : Keeps z (spillDone s id e ecc o) := by
  unfold spillDone
  try dsimp only
  repeat' first
    | with_reducible assumption
    | with_reducible apply copyHome_keeps
    | with_reducible apply setEnt_keeps
    | with_reducible apply Keeps.ite
    | intro _
    | (refine Keeps.mk' ?_ rfl rfl rfl rfl rfl rfl rfl rfl rfl; first | with_reducible assumption | with_reducible apply copyHome_keeps | with_reducible apply setEnt_keeps | with_reducible apply Keeps.ite | split)

theorem fetchDone_keeps  {z s : State} (id : Nat) (e : Nat) (ecc : List Ecc) (o : Nat → Ecc) (hk0 : Keeps z s) : Keeps z (fetchDone s id e ecc o) := by
  unfold fetchDone
  try dsimp only
  repeat' first
    | with_reducible assumption
    | with_reducible apply copyBytes_keeps
    | with_reducible apply bumpHdr_keeps
    | with_reducible apply setEnt_keeps
    | with_reducible apply Keeps.ite
    | intro _
    | (refine Keeps.mk' ?_ rfl rfl rfl rfl rfl rfl rfl rfl rfl; first | with_reducible assumption | with_reducible apply copyBytes_keeps | with_reducible apply bumpHdr_keeps | with_reducible apply setEnt_keeps | with_reducible apply Keeps.ite | split)

theorem finishCopies_keeps  {z s : State} (id : Nat) (o : Nat → Ecc) (hk0 : Keeps z s) : Keeps z (finishCopies s id o) := by
  unfold finishCopies
  try dsimp only
  repeat' first
    | with_reducible assumption
    | with_reducible apply spillDone_keeps
    | with_reducible apply fetchDone_keeps
    | (with_reducible refine Keeps.foldl (fun s a hs => ?_) _ _ ?_)
    | with_reducible apply Keeps.ite
    | intro _
    | (refine Keeps.mk' ?_ rfl rfl rfl rfl rfl rfl rfl rfl rfl; first | with_reducible assumption | with_reducible apply spillDone_keeps | with_reducible apply fetchDone_keeps | (with_reducible refine Keeps.foldl (fun s a hs => ?_) _ _ ?_) | with_reducible apply Keeps.ite | split)

theorem kvRead_keeps  {z s : State} (ids : List Nat) (cs : List (Nat × Ecc)) (hk0 : Keeps z s) : Keeps z (kvRead s ids cs) := by
  unfold kvRead
  try dsimp only
  repeat' first
    | with_reducible assumption
    | with_reducible apply eccRead_keeps
    | (with_reducible refine Keeps.foldl (fun s a hs => ?_) _ _ ?_)
    | with_reducible apply Keeps.ite
    | intro _
    | (refine Keeps.mk' ?_ rfl rfl rfl rfl rfl rfl rfl rfl rfl; first | with_reducible assumption | with_reducible apply eccRead_keeps | (with_reducible refine Keeps.foldl (fun s a hs => ?_) _ _ ?_) | with_reducible apply Keeps.ite | split)

theorem kvWork_keeps  {z s : State} (ids : List Nat) (f : State → State) (cs : List (Nat × Ecc)) (hb : ∀ x, Keeps z x → Keeps z (f x)) (hk0 : Keeps z s) : Keeps z (kvWork s ids f cs) := by
  unfold kvWork
  try dsimp only
  repeat' first
    | with_reducible assumption
    | with_reducible apply kvRead_keeps
    | with_reducible apply stopPairA_keeps
    | with_reducible apply hb
    | with_reducible apply Keeps.ite
    | intro _
    | (refine Keeps.mk' ?_ rfl rfl rfl rfl rfl rfl rfl rfl rfl; first | with_reducible assumption | with_reducible apply kvRead_keeps | with_reducible apply stopPairA_keeps | with_reducible apply hb | with_reducible apply Keeps.ite | split)

theorem kvAnswer_keeps  {z s : State} (ids : List Nat) (f : State → Ans) (cs : List (Nat × Ecc)) (hb : ∀ x, Keeps z x → Keeps z (f x).1) (hk0 : Keeps z s) : Keeps z (kvAnswer s ids f cs).1 := by
  unfold kvAnswer
  try dsimp only
  repeat' first
    | with_reducible assumption
    | with_reducible apply kvRead_keeps
    | with_reducible apply stopPairA_keeps
    | with_reducible apply hb
    | with_reducible apply Keeps.ite
    | with_reducible apply Keeps.ite1
    | split
    | (dsimp only)
    | intro _
    | (refine Keeps.mk' ?_ rfl rfl rfl rfl rfl rfl rfl rfl rfl; first | with_reducible assumption | with_reducible apply kvRead_keeps | with_reducible apply stopPairA_keeps | with_reducible apply hb | with_reducible apply Keeps.ite | with_reducible apply Keeps.ite1 | split | (dsimp only) | split)

theorem clearMem_keeps {s0 s : State} (a n : Nat) (h : Keeps s0 s) : Keeps s0 (clearMem s a n) :=
  ⟨h.1, h.2, fun w => Mem.filter_wf _ _ (h.3 w), h.4, h.5, h.6⟩

theorem unmapSeq_keeps  {z s : State} (id : Nat) (hk0 : Keeps z s) : Keeps z (unmapSeq s id) := by
  unfold unmapSeq
  try dsimp only
  repeat' first
    | with_reducible assumption
    | with_reducible apply clearMem_keeps
    | with_reducible apply Keeps.ite
    | intro _
    | (refine Keeps.mk' ?_ rfl rfl rfl rfl rfl rfl rfl rfl rfl; first | with_reducible assumption | with_reducible apply clearMem_keeps | with_reducible apply Keeps.ite | split)

theorem unmapAll_keeps  {z s : State}  (hk0 : Keeps z s) : Keeps z (unmapAll s) := by
  unfold unmapAll
  try dsimp only
  repeat' first
    | with_reducible assumption
    | with_reducible apply unmapSeq_keeps
    | (with_reducible refine Keeps.foldl (fun s a hs => ?_) _ _ ?_)
    | with_reducible apply Keeps.ite
    | intro _
    | (refine Keeps.mk' ?_ rfl rfl rfl rfl rfl rfl rfl rfl rfl; first | with_reducible assumption | with_reducible apply unmapSeq_keeps | (with_reducible refine Keeps.foldl (fun s a hs => ?_) _ _ ?_) | with_reducible apply Keeps.ite | split)

theorem doKvMap_keeps  {z s : State} (k : Pkt) (ecc : List (Nat × Ecc)) (hk0 : Keeps z s) : Keeps z (doKvMap k s ecc).1 := by
  unfold doKvMap
  try dsimp only
  repeat' first
    | with_reducible assumption
    | with_reducible apply badWord_keeps
    | with_reducible apply kvAnswer_keeps
    | with_reducible apply refuse_keeps
    | with_reducible apply clearMem_keeps
    | with_reducible apply storeWords_keeps
    | with_reducible apply Keeps.ite
    | with_reducible apply Keeps.ite1
    | split
    | (dsimp only)
    | intro _
    | (refine Keeps.mk' ?_ rfl rfl rfl rfl rfl rfl rfl rfl rfl; first | with_reducible assumption | with_reducible apply badWord_keeps | with_reducible apply kvAnswer_keeps | with_reducible apply refuse_keeps | with_reducible apply clearMem_keeps | with_reducible apply storeWords_keeps | with_reducible apply Keeps.ite | with_reducible apply Keeps.ite1 | split | (dsimp only) | split)

theorem execKvMap_keeps (k : Pkt) (ecc : List (Nat × Ecc)) (s : State) : ∃ t, execKvMap k s ecc = .next t ∧ Keeps s t := by
  have hk0 := Keeps.refl s
  refine ⟨_, rfl, ?_⟩
  try dsimp only
  repeat' first
    | with_reducible assumption
    | with_reducible apply command_keeps
    | with_reducible apply doKvMap_keeps
    | with_reducible apply Keeps.ite
    | intro _
    | (refine Keeps.mk' ?_ rfl rfl rfl rfl rfl rfl rfl rfl rfl; first | with_reducible assumption | with_reducible apply command_keeps | with_reducible apply doKvMap_keeps | with_reducible apply Keeps.ite | split)

theorem doKvUnmap_keeps  {z s : State} (k : Pkt) (ecc : List (Nat × Ecc)) (hk0 : Keeps z s) : Keeps z (doKvUnmap k s ecc).1 := by
  unfold doKvUnmap
  try dsimp only
  repeat' first
    | with_reducible assumption
    | with_reducible apply badWord_keeps
    | with_reducible apply kvAnswer_keeps
    | with_reducible apply refuse_keeps
    | with_reducible apply unmapSeq_keeps
    | with_reducible apply finishCopies_keeps
    | with_reducible apply Keeps.ite
    | with_reducible apply Keeps.ite1
    | split
    | (dsimp only)
    | intro _
    | (refine Keeps.mk' ?_ rfl rfl rfl rfl rfl rfl rfl rfl rfl; first | with_reducible assumption | with_reducible apply badWord_keeps | with_reducible apply kvAnswer_keeps | with_reducible apply refuse_keeps | with_reducible apply unmapSeq_keeps | with_reducible apply finishCopies_keeps | with_reducible apply Keeps.ite | with_reducible apply Keeps.ite1 | split | (dsimp only) | split)

theorem execKvUnmap_keeps (k : Pkt) (ecc : List (Nat × Ecc)) (s : State) : ∃ t, execKvUnmap k s ecc = .next t ∧ Keeps s t := by
  have hk0 := Keeps.refl s
  refine ⟨_, rfl, ?_⟩
  try dsimp only
  repeat' first
    | with_reducible assumption
    | with_reducible apply command_keeps
    | with_reducible apply doKvUnmap_keeps
    | with_reducible apply Keeps.ite
    | intro _
    | (refine Keeps.mk' ?_ rfl rfl rfl rfl rfl rfl rfl rfl rfl; first | with_reducible assumption | with_reducible apply command_keeps | with_reducible apply doKvUnmap_keeps | with_reducible apply Keeps.ite | split)

theorem editOne_keeps  {z s t : State} (id : Nat) (code : Nat) (a0 : Nat) (a1 : Nat) (hk0 : Keeps z s) (ht : editOne id s code a0 a1 = some t) : Keeps z t := by
  unfold editOne at ht
  try dsimp only at ht
  repeat' split at ht
  all_goals (try cases ht)
  repeat' first
    | with_reducible assumption
    | with_reducible apply invalidate_keeps
    | with_reducible apply setHdr_keeps
    | (with_reducible refine Keeps.foldl (fun s a hs => ?_) _ _ ?_)
    | with_reducible apply Keeps.ite
    | intro _
    | (refine Keeps.mk' ?_ rfl rfl rfl rfl rfl rfl rfl rfl rfl; first | with_reducible assumption | with_reducible apply invalidate_keeps | with_reducible apply setHdr_keeps | (with_reducible refine Keeps.foldl (fun s a hs => ?_) _ _ ?_) | with_reducible apply Keeps.ite | split)

theorem editAll_keeps {z : State} (id : Nat) : ∀ (l : List Word) (i : Nat) {s t : State}, Keeps z s →
    editAll id l i s = .ok t → Keeps z t
  | [], _, _, _, hk0, ht => by unfold editAll at ht; cases ht; exact hk0
  | [_], _, _, _, hk0, ht => by unfold editAll at ht; cases ht; exact hk0
  | c :: a :: r, i, s, t, hk0, ht => by
    unfold editAll at ht
    split at ht
    · exact editAll_keeps id r (i + 2) (editOne_keeps _ _ _ _ hk0 ‹_›) ht
    · cases ht

theorem doKvEdit_keeps {z s : State} (k : Pkt) (ecc : List (Nat × Ecc)) (hk0 : Keeps z s) : Keeps z (doKvEdit k s ecc).1 := by
  unfold doKvEdit
  dsimp only
  repeat' first
    | with_reducible assumption
    | with_reducible apply kvAnswer_keeps
    | with_reducible apply badWord_keeps
    | with_reducible apply refuse_keeps
    | (with_reducible refine fixPoisonPages_keeps _ (bumpHdr_keeps _ _ (editAll_keeps _ _ _ ?_ ‹_›)))
    | intro _
    | (dsimp only)
    | split

theorem execKvEdit_keeps (k : Pkt) (ecc : List (Nat × Ecc)) (s : State) : ∃ t, execKvEdit k s ecc = .next t ∧ Keeps s t := by
  have hk0 := Keeps.refl s
  refine ⟨_, rfl, ?_⟩
  try dsimp only
  repeat' first
    | with_reducible assumption
    | with_reducible apply command_keeps
    | with_reducible apply doKvEdit_keeps
    | with_reducible apply Keeps.ite
    | intro _
    | (refine Keeps.mk' ?_ rfl rfl rfl rfl rfl rfl rfl rfl rfl; first | with_reducible assumption | with_reducible apply command_keeps | with_reducible apply doKvEdit_keeps | with_reducible apply Keeps.ite | split)

theorem execPageFetchDone_keeps (seqId : Nat) (entry : Nat) (ecc : List Ecc) (cs : List (Nat × Ecc)) (s : State) : ∃ t, execPageFetchDone seqId entry s ecc cs = .next t ∧ Keeps s t := by
  have hk0 := Keeps.refl s
  refine ⟨_, rfl, ?_⟩
  try dsimp only
  repeat' first
    | with_reducible assumption
    | with_reducible apply settle_keeps
    | with_reducible apply kvWork_keeps
    | with_reducible apply fetchDone_keeps
    | with_reducible apply Keeps.ite
    | intro _
    | (refine Keeps.mk' ?_ rfl rfl rfl rfl rfl rfl rfl rfl rfl; first | with_reducible assumption | with_reducible apply settle_keeps | with_reducible apply kvWork_keeps | with_reducible apply fetchDone_keeps | with_reducible apply Keeps.ite | split)

theorem execPageSpillDone_keeps (seqId : Nat) (entry : Nat) (ecc : List Ecc) (cs : List (Nat × Ecc)) (s : State) : ∃ t, execPageSpillDone seqId entry s ecc cs = .next t ∧ Keeps s t := by
  have hk0 := Keeps.refl s
  refine ⟨_, rfl, ?_⟩
  try dsimp only
  repeat' first
    | with_reducible assumption
    | with_reducible apply settle_keeps
    | with_reducible apply kvWork_keeps
    | with_reducible apply spillDone_keeps
    | with_reducible apply Keeps.ite
    | intro _
    | (refine Keeps.mk' ?_ rfl rfl rfl rfl rfl rfl rfl rfl rfl; first | with_reducible assumption | with_reducible apply settle_keeps | with_reducible apply kvWork_keeps | with_reducible apply spillDone_keeps | with_reducible apply Keeps.ite | split)

end Sys2Proof.Machine
end

