-- ==== Sys2Proof/Laws/Keeps/Time.lean ====
section
/-! SUPPORT. What the definitions of Machine/Time.lean keep (Laws/Keeps.lean). -/

set_option linter.unusedTactic false
set_option linter.unreachableTactic false
set_option linter.unusedVariables false

namespace Sys2Proof.Machine

theorem setAddend_keeps  {z s : State} (a : Int) (hk0 : Keeps z s) : Keeps z (setAddend s a) := by
  unfold setAddend
  try dsimp only
  repeat' first
    | with_reducible assumption
    | with_reducible apply Keeps.ite
    | intro _
    | (refine Keeps.mk' ?_ rfl rfl rfl rfl rfl rfl rfl rfl rfl; first | with_reducible assumption | with_reducible apply Keeps.ite | split)

theorem setNow_keeps  {z s : State} (t : Nat) (hk0 : Keeps z s) : Keeps z (setNow s t) := by
  unfold setNow
  try dsimp only
  repeat' first
    | with_reducible assumption
    | with_reducible apply Keeps.ite
    | intro _
    | (refine Keeps.mk' ?_ rfl rfl rfl rfl rfl rfl rfl rfl rfl; first | with_reducible assumption | with_reducible apply Keeps.ite | split)

theorem ppsRise_keeps  {z s : State} (trig : Bool) (hk0 : Keeps z s) : Keeps z (ppsRise s trig) := by
  unfold ppsRise
  try dsimp only
  repeat' first
    | with_reducible assumption
    | with_reducible apply Keeps.ite
    | intro _
    | (refine Keeps.mk' ?_ rfl rfl rfl rfl rfl rfl rfl rfl rfl; first | with_reducible assumption | with_reducible apply Keeps.ite | split)

theorem fire_keeps  {z s : State} (ch : Nat) (hk0 : Keeps z s) : Keeps z (fire s ch) := by
  unfold fire
  try dsimp only
  repeat' first
    | with_reducible assumption
    | with_reducible apply ppsRise_keeps
    | with_reducible apply Keeps.ite
    | intro _
    | (refine Keeps.mk' ?_ rfl rfl rfl rfl rfl rfl rfl rfl rfl; first | with_reducible assumption | with_reducible apply ppsRise_keeps | with_reducible apply Keeps.ite | split)

theorem carryEffects_keeps  {z s : State}  (hk0 : Keeps z s) : Keeps z (carryEffects s) := by
  unfold carryEffects
  try dsimp only
  repeat' first
    | with_reducible assumption
    | with_reducible apply ppsRise_keeps
    | with_reducible apply fire_keeps
    | (with_reducible refine Keeps.foldl (fun s a hs => ?_) _ _ ?_)
    | with_reducible apply Keeps.ite
    | intro _
    | (refine Keeps.mk' ?_ rfl rfl rfl rfl rfl rfl rfl rfl rfl; first | with_reducible assumption | with_reducible apply ppsRise_keeps | with_reducible apply fire_keeps | (with_reducible refine Keeps.foldl (fun s a hs => ?_) _ _ ?_) | with_reducible apply Keeps.ite | split)

theorem passSecs_keeps  {z s : State} (n : Nat) (hk0 : Keeps z s) : Keeps z (passSecs n s) := by
  unfold passSecs
  try dsimp only
  repeat' first
    | with_reducible assumption
    | with_reducible apply carryEffects_keeps
    | with_reducible apply advanceTo_keeps
    | (with_reducible refine Keeps.foldl (fun s a hs => ?_) _ _ ?_)
    | with_reducible apply Keeps.ite
    | intro _
    | (refine Keeps.mk' ?_ rfl rfl rfl rfl rfl rfl rfl rfl rfl; first | with_reducible assumption | with_reducible apply carryEffects_keeps | with_reducible apply advanceTo_keeps | (with_reducible refine Keeps.foldl (fun s a hs => ?_) _ _ ?_) | with_reducible apply Keeps.ite | split)

theorem passTo_keeps  {z s : State} (t : Nat) (hk0 : Keeps z s) : Keeps z (passTo s t) := by
  unfold passTo
  try dsimp only
  repeat' first
    | with_reducible assumption
    | with_reducible apply advanceTo_keeps
    | with_reducible apply passSecs_keeps
    | with_reducible apply Keeps.ite
    | intro _
    | (refine Keeps.mk' ?_ rfl rfl rfl rfl rfl rfl rfl rfl rfl; first | with_reducible assumption | with_reducible apply advanceTo_keeps | with_reducible apply passSecs_keeps | with_reducible apply Keeps.ite | split)

theorem elapse_keeps  {z s : State} (n : Nat) (hk0 : Keeps z s) : Keeps z (elapse s n) := by
  unfold elapse
  try dsimp only
  repeat' first
    | with_reducible assumption
    | with_reducible apply passTo_keeps
    | with_reducible apply Keeps.ite
    | intro _
    | (refine Keeps.mk' ?_ rfl rfl rfl rfl rfl rfl rfl rfl rfl; first | with_reducible assumption | with_reducible apply passTo_keeps | with_reducible apply Keeps.ite | split)

theorem idleTick_keeps  {z s : State}  (hk0 : Keeps z s) : Keeps z (idleTick s) := by
  unfold idleTick
  try dsimp only
  repeat' first
    | with_reducible assumption
    | with_reducible apply carryEffects_keeps
    | with_reducible apply Keeps.ite
    | intro _
    | (refine Keeps.mk' ?_ rfl rfl rfl rfl rfl rfl rfl rfl rfl; first | with_reducible assumption | with_reducible apply carryEffects_keeps | with_reducible apply Keeps.ite | split)

theorem execSecondsCarry_keeps  (s : State) : ∃ t, execSecondsCarry s = .next t ∧ Keeps s t := by
  have hk0 := Keeps.refl s
  refine ⟨_, rfl, ?_⟩
  try dsimp only
  repeat' first
    | with_reducible assumption
    | with_reducible apply passTo_keeps
    | with_reducible apply Keeps.ite
    | intro _
    | (refine Keeps.mk' ?_ rfl rfl rfl rfl rfl rfl rfl rfl rfl; first | with_reducible assumption | with_reducible apply passTo_keeps | with_reducible apply Keeps.ite | split)

theorem ppsEnd_keeps {z s1 : State} (t : Nat) (h : Keeps z s1) : Keeps z (
       if s1.tb.ppsRose == some t then
        { s1 with pins := { s1.pins with ppsOut := false }, tb := { s1.tb with ppsRose := none } } else s1) :=
  Keeps.ite (fun _ => Keeps.mk' h rfl rfl rfl rfl rfl rfl rfl rfl rfl) (fun _ => h)
theorem execPpsOutEnd_keeps (s : State) : ∃ t, execPpsOutEnd s = .next t ∧ Keeps s t := by
  have hk0 := Keeps.refl s
  unfold execPpsOutEnd
  refine ⟨_, rfl, ?_⟩
  split
  · exact Keeps.mk' hk0 rfl rfl rfl rfl rfl rfl rfl rfl rfl
  · exact ppsEnd_keeps _ (passTo_keeps _ hk0)

theorem servoLock_keeps  {z s : State} (e : Int) (hk0 : Keeps z s) : Keeps z (servoLock s e) := by
  unfold servoLock
  try dsimp only
  repeat' first
    | with_reducible assumption
    | with_reducible apply setSrc_keeps
    | with_reducible apply Keeps.ite
    | intro _
    | (refine Keeps.mk' ?_ rfl rfl rfl rfl rfl rfl rfl rfl rfl; first | with_reducible assumption | with_reducible apply setSrc_keeps | with_reducible apply Keeps.ite | split)

theorem takeSample_keeps  {z s : State} (e0 : Int) (hk0 : Keeps z s) : Keeps z (takeSample s e0) := by
  unfold takeSample
  try dsimp only
  repeat' first
    | with_reducible assumption
    | with_reducible apply servoLock_keeps
    | with_reducible apply setNow_keeps
    | with_reducible apply setAddend_keeps
    | with_reducible apply Keeps.ite
    | intro _
    | (refine Keeps.mk' ?_ rfl rfl rfl rfl rfl rfl rfl rfl rfl; first | with_reducible assumption | with_reducible apply servoLock_keeps | with_reducible apply setNow_keeps | with_reducible apply setAddend_keeps | with_reducible apply Keeps.ite | split)

theorem execServoSample_keeps (e : Int) (s : State) : ∃ t, execServoSample e s = .next t ∧ Keeps s t := by
  have hk0 := Keeps.refl s
  refine ⟨_, rfl, ?_⟩
  try dsimp only
  repeat' first
    | with_reducible assumption
    | with_reducible apply settle_keeps
    | with_reducible apply takeSample_keeps
    | with_reducible apply Keeps.ite
    | intro _
    | (refine Keeps.mk' ?_ rfl rfl rfl rfl rfl rfl rfl rfl rfl; first | with_reducible assumption | with_reducible apply settle_keeps | with_reducible apply takeSample_keeps | with_reducible apply Keeps.ite | split)

theorem execServoSampleTimeout_keeps  (s : State) : ∃ t, execServoSampleTimeout s = .next t ∧ Keeps s t := by
  have hk0 := Keeps.refl s
  refine ⟨_, rfl, ?_⟩
  try dsimp only
  repeat' first
    | with_reducible assumption
    | with_reducible apply setSrc_keeps
    | with_reducible apply Keeps.ite
    | intro _
    | (refine Keeps.mk' ?_ rfl rfl rfl rfl rfl rfl rfl rfl rfl; first | with_reducible assumption | with_reducible apply setSrc_keeps | with_reducible apply Keeps.ite | split)

theorem writeServoCtrl_keeps  {z s : State} (w : Word) (hk0 : Keeps z s) : Keeps z (writeServoCtrl s w) := by
  unfold writeServoCtrl
  try dsimp only
  repeat' first
    | with_reducible assumption
    | with_reducible apply Keeps.ite
    | intro _
    | (refine Keeps.mk' ?_ rfl rfl rfl rfl rfl rfl rfl rfl rfl; first | with_reducible assumption | with_reducible apply Keeps.ite | split)

theorem writeAddendHi_keeps  {z s : State} (w : Word) (hk0 : Keeps z s) : Keeps z (writeAddendHi s w) := by
  unfold writeAddendHi
  try dsimp only
  repeat' first
    | with_reducible assumption
    | with_reducible apply setAddend_keeps
    | with_reducible apply Keeps.ite
    | intro _
    | (refine Keeps.mk' ?_ rfl rfl rfl rfl rfl rfl rfl rfl rfl; first | with_reducible assumption | with_reducible apply setAddend_keeps | with_reducible apply Keeps.ite | split)

theorem execPpsInEdge_keeps (rising : Bool) (s : State) : ∃ t, execPpsInEdge rising s = .next t ∧ Keeps s t := by
  have hk0 := Keeps.refl s
  refine ⟨_, rfl, ?_⟩
  try dsimp only
  repeat' first
    | with_reducible assumption
    | with_reducible apply settle_keeps
    | with_reducible apply takeSample_keeps
    | with_reducible apply Keeps.ite
    | intro _
    | (refine Keeps.mk' ?_ rfl rfl rfl rfl rfl rfl rfl rfl rfl; first | with_reducible assumption | with_reducible apply settle_keeps | with_reducible apply takeSample_keeps | with_reducible apply Keeps.ite | split)

theorem execCapEdge_keeps (ch : Nat) (s : State) : ∃ t, execCapEdge ch s = .next t ∧ Keeps s t := by
  have hk0 := Keeps.refl s
  refine ⟨_, rfl, ?_⟩
  try dsimp only
  repeat' first
    | with_reducible assumption
    | with_reducible apply Keeps.ite
    | intro _
    | (refine Keeps.mk' ?_ rfl rfl rfl rfl rfl rfl rfl rfl rfl; first | with_reducible assumption | with_reducible apply Keeps.ite | split)

theorem writeCapStatus_keeps  {z s : State} (w : Word) (hk0 : Keeps z s) : Keeps z (writeCapStatus s w) := by
  unfold writeCapStatus
  try dsimp only
  repeat' first
    | with_reducible assumption
    | with_reducible apply Keeps.ite
    | intro _
    | (refine Keeps.mk' ?_ rfl rfl rfl rfl rfl rfl rfl rfl rfl; first | with_reducible assumption | with_reducible apply Keeps.ite | split)

theorem doTimeSet_keeps  {z s : State} (k : Pkt) (hk0 : Keeps z s) : Keeps z (doTimeSet k s).1 := by
  unfold doTimeSet
  try dsimp only
  repeat' first
    | with_reducible assumption
    | with_reducible apply badWord_keeps
    | with_reducible apply refuse_keeps
    | with_reducible apply Keeps.ite
    | with_reducible apply Keeps.ite1
    | split
    | (dsimp only)
    | intro _
    | (refine Keeps.mk' ?_ rfl rfl rfl rfl rfl rfl rfl rfl rfl; first | with_reducible assumption | with_reducible apply badWord_keeps | with_reducible apply refuse_keeps | with_reducible apply Keeps.ite | with_reducible apply Keeps.ite1 | split | (dsimp only) | split)

theorem execTimeSet_keeps (k : Pkt) (s : State) : ∃ t, execTimeSet k s = .next t ∧ Keeps s t := by
  have hk0 := Keeps.refl s
  refine ⟨_, rfl, ?_⟩
  try dsimp only
  repeat' first
    | with_reducible assumption
    | with_reducible apply command_keeps
    | with_reducible apply doTimeSet_keeps
    | with_reducible apply Keeps.ite
    | intro _
    | (refine Keeps.mk' ?_ rfl rfl rfl rfl rfl rfl rfl rfl rfl; first | with_reducible assumption | with_reducible apply command_keeps | with_reducible apply doTimeSet_keeps | with_reducible apply Keeps.ite | split)

theorem doTimeAdj_keeps  {z s : State} (k : Pkt) (hk0 : Keeps z s) : Keeps z (doTimeAdj k s).1 := by
  unfold doTimeAdj
  try dsimp only
  repeat' first
    | with_reducible assumption
    | with_reducible apply refuse_keeps
    | with_reducible apply takeSample_keeps
    | with_reducible apply Keeps.ite
    | with_reducible apply Keeps.ite1
    | split
    | (dsimp only)
    | intro _
    | (refine Keeps.mk' ?_ rfl rfl rfl rfl rfl rfl rfl rfl rfl; first | with_reducible assumption | with_reducible apply refuse_keeps | with_reducible apply takeSample_keeps | with_reducible apply Keeps.ite | with_reducible apply Keeps.ite1 | split | (dsimp only) | split)

theorem execTimeAdj_keeps (k : Pkt) (s : State) : ∃ t, execTimeAdj k s = .next t ∧ Keeps s t := by
  have hk0 := Keeps.refl s
  refine ⟨_, rfl, ?_⟩
  try dsimp only
  repeat' first
    | with_reducible assumption
    | with_reducible apply command_keeps
    | with_reducible apply doTimeAdj_keeps
    | with_reducible apply Keeps.ite
    | intro _
    | (refine Keeps.mk' ?_ rfl rfl rfl rfl rfl rfl rfl rfl rfl; first | with_reducible assumption | with_reducible apply command_keeps | with_reducible apply doTimeAdj_keeps | with_reducible apply Keeps.ite | split)

theorem doTriggerCfg_keeps  {z s : State} (k : Pkt) (hk0 : Keeps z s) : Keeps z (doTriggerCfg k s).1 := by
  unfold doTriggerCfg
  try dsimp only
  repeat' first
    | with_reducible assumption
    | with_reducible apply badWord_keeps
    | with_reducible apply refuse_keeps
    | with_reducible apply Keeps.ite
    | with_reducible apply Keeps.ite1
    | split
    | (dsimp only)
    | intro _
    | (refine Keeps.mk' ?_ rfl rfl rfl rfl rfl rfl rfl rfl rfl; first | with_reducible assumption | with_reducible apply badWord_keeps | with_reducible apply refuse_keeps | with_reducible apply Keeps.ite | with_reducible apply Keeps.ite1 | split | (dsimp only) | split)

theorem execTriggerCfg_keeps (k : Pkt) (s : State) : ∃ t, execTriggerCfg k s = .next t ∧ Keeps s t := by
  have hk0 := Keeps.refl s
  refine ⟨_, rfl, ?_⟩
  try dsimp only
  repeat' first
    | with_reducible assumption
    | with_reducible apply command_keeps
    | with_reducible apply doTriggerCfg_keeps
    | with_reducible apply Keeps.ite
    | intro _
    | (refine Keeps.mk' ?_ rfl rfl rfl rfl rfl rfl rfl rfl rfl; first | with_reducible assumption | with_reducible apply command_keeps | with_reducible apply doTriggerCfg_keeps | with_reducible apply Keeps.ite | split)

theorem execTriggerFire_keeps (ch : Nat) (s : State) : ∃ t, execTriggerFire ch s = .next t ∧ Keeps s t := by
  have hk0 := Keeps.refl s
  refine ⟨_, rfl, ?_⟩
  try dsimp only
  repeat' first
    | with_reducible assumption
    | with_reducible apply passTo_keeps
    | with_reducible apply fire_keeps
    | with_reducible apply Keeps.ite
    | intro _
    | (refine Keeps.mk' ?_ rfl rfl rfl rfl rfl rfl rfl rfl rfl; first | with_reducible assumption | with_reducible apply passTo_keeps | with_reducible apply fire_keeps | with_reducible apply Keeps.ite | split)

theorem execFsyncPulseEnd_keeps (n : Nat) (s : State) : ∃ t, execFsyncPulseEnd n s = .next t ∧ Keeps s t := by
  have hk0 := Keeps.refl s
  refine ⟨_, rfl, ?_⟩
  try dsimp only
  repeat' first
    | with_reducible assumption
    | with_reducible apply passTo_keeps
    | with_reducible apply Keeps.ite
    | intro _
    | (refine Keeps.mk' ?_ rfl rfl rfl rfl rfl rfl rfl rfl rfl; first | with_reducible assumption | with_reducible apply passTo_keeps | with_reducible apply Keeps.ite | split)

theorem ptpPut_keeps  {z s : State} (seq : Nat) (m : PtpSend) (hk0 : Keeps z s) : Keeps z (ptpPut s seq m) := by
  unfold ptpPut
  try dsimp only
  repeat' first
    | with_reducible assumption
    | with_reducible apply Keeps.ite
    | intro _
    | (refine Keeps.mk' ?_ rfl rfl rfl rfl rfl rfl rfl rfl rfl; first | with_reducible assumption | with_reducible apply Keeps.ite | split)

theorem ptpEvent_keeps  {z s : State} (seq : Nat) (m : PtpSend) (hk0 : Keeps z s) : Keeps z (ptpEvent s seq m) := by
  unfold ptpEvent
  try dsimp only
  repeat' first
    | with_reducible assumption
    | with_reducible apply ptpPut_keeps
    | with_reducible apply Keeps.ite
    | intro _
    | (refine Keeps.mk' ?_ rfl rfl rfl rfl rfl rfl rfl rfl rfl; first | with_reducible assumption | with_reducible apply ptpPut_keeps | with_reducible apply Keeps.ite | split)

theorem sendSync_keeps  {z s : State}  (hk0 : Keeps z s) : Keeps z (sendSync s) := by
  unfold sendSync
  try dsimp only
  repeat' first
    | with_reducible assumption
    | with_reducible apply ptpPut_keeps
    | with_reducible apply ptpEvent_keeps
    | with_reducible apply Keeps.ite
    | intro _
    | (refine Keeps.mk' ?_ rfl rfl rfl rfl rfl rfl rfl rfl rfl; first | with_reducible assumption | with_reducible apply ptpPut_keeps | with_reducible apply ptpEvent_keeps | with_reducible apply Keeps.ite | split)

theorem sendReq_keeps  {z s : State}  (hk0 : Keeps z s) : Keeps z (sendReq s) := by
  unfold sendReq
  try dsimp only
  repeat' first
    | with_reducible assumption
    | with_reducible apply ptpEvent_keeps
    | with_reducible apply Keeps.ite
    | intro _
    | (refine Keeps.mk' ?_ rfl rfl rfl rfl rfl rfl rfl rfl rfl; first | with_reducible assumption | with_reducible apply ptpEvent_keeps | with_reducible apply Keeps.ite | split)

theorem syncSample_keeps  {z s : State} (t1 : Int) (t2 : Int) (hk0 : Keeps z s) : Keeps z (syncSample s t1 t2) := by
  unfold syncSample
  try dsimp only
  repeat' first
    | with_reducible assumption
    | with_reducible apply takeSample_keeps
    | with_reducible apply Keeps.ite
    | intro _
    | (refine Keeps.mk' ?_ rfl rfl rfl rfl rfl rfl rfl rfl rfl; first | with_reducible assumption | with_reducible apply takeSample_keeps | with_reducible apply Keeps.ite | split)

theorem setDelay_keeps  {z s : State} (d : Int) (hk0 : Keeps z s) : Keeps z (setDelay s d) := by
  unfold setDelay
  try dsimp only
  repeat' first
    | with_reducible assumption
    | with_reducible apply Keeps.ite
    | intro _
    | (refine Keeps.mk' ?_ rfl rfl rfl rfl rfl rfl rfl rfl rfl; first | with_reducible assumption | with_reducible apply Keeps.ite | split)

theorem onSync_keeps  {z s : State} (seq : Nat) (t : Int) (m : PtpMsg) (hk0 : Keeps z s) : Keeps z (onSync s seq t m) := by
  unfold onSync
  try dsimp only
  repeat' first
    | with_reducible assumption
    | with_reducible apply syncSample_keeps
    | with_reducible apply Keeps.ite
    | intro _
    | (refine Keeps.mk' ?_ rfl rfl rfl rfl rfl rfl rfl rfl rfl; first | with_reducible assumption | with_reducible apply syncSample_keeps | with_reducible apply Keeps.ite | split)

theorem onE2e_keeps  {z s : State} (seq : Nat) (t : Int) (m : PtpMsg) (hk0 : Keeps z s) : Keeps z (onE2e s seq t m) := by
  unfold onE2e
  try dsimp only
  repeat' first
    | with_reducible assumption
    | with_reducible apply ptpPut_keeps
    | with_reducible apply setDelay_keeps
    | with_reducible apply Keeps.ite
    | intro _
    | (refine Keeps.mk' ?_ rfl rfl rfl rfl rfl rfl rfl rfl rfl; first | with_reducible assumption | with_reducible apply ptpPut_keeps | with_reducible apply setDelay_keeps | with_reducible apply Keeps.ite | split)

theorem onP2p_keeps  {z s : State} (seq : Nat) (t : Int) (m : PtpMsg) (hk0 : Keeps z s) : Keeps z (onP2p s seq t m) := by
  unfold onP2p
  try dsimp only
  repeat' first
    | with_reducible assumption
    | with_reducible apply ptpPut_keeps
    | with_reducible apply ptpEvent_keeps
    | with_reducible apply setDelay_keeps
    | with_reducible apply Keeps.ite
    | intro _
    | (refine Keeps.mk' ?_ rfl rfl rfl rfl rfl rfl rfl rfl rfl; first | with_reducible assumption | with_reducible apply ptpPut_keeps | with_reducible apply ptpEvent_keeps | with_reducible apply setDelay_keeps | with_reducible apply Keeps.ite | split)

theorem execPtpMessageReceive_keeps (m : PtpMsg) (h : PtpHdr) (s : State) : ∃ t, execPtpMessageReceive m s h = .next t ∧ Keeps s t := by
  have hk0 := Keeps.refl s
  refine ⟨_, rfl, ?_⟩
  try dsimp only
  repeat' first
    | with_reducible assumption
    | with_reducible apply onSync_keeps
    | with_reducible apply settle_keeps
    | with_reducible apply onE2e_keeps
    | with_reducible apply onP2p_keeps
    | with_reducible apply Keeps.ite
    | intro _
    | (refine Keeps.mk' ?_ rfl rfl rfl rfl rfl rfl rfl rfl rfl; first | with_reducible assumption | with_reducible apply onSync_keeps | with_reducible apply settle_keeps | with_reducible apply onE2e_keeps | with_reducible apply onP2p_keeps | with_reducible apply Keeps.ite | split)

theorem execPtpSyncInterval_keeps  (s : State) : ∃ t, execPtpSyncInterval s = .next t ∧ Keeps s t := by
  have hk0 := Keeps.refl s
  refine ⟨_, rfl, ?_⟩
  try dsimp only
  repeat' first
    | with_reducible assumption
    | with_reducible apply sendSync_keeps
    | with_reducible apply sendReq_keeps
    | with_reducible apply Keeps.ite
    | intro _
    | (refine Keeps.mk' ?_ rfl rfl rfl rfl rfl rfl rfl rfl rfl; first | with_reducible assumption | with_reducible apply sendSync_keeps | with_reducible apply sendReq_keeps | with_reducible apply Keeps.ite | split)

end Sys2Proof.Machine
end

