-- ==== Sys2Proof/Laws/Keeps/Boot.lean ====
section
/-! SUPPORT. What the definitions of Machine/Boot.lean keep (Laws/Keeps.lean). -/

set_option linter.unusedTactic false
set_option linter.unreachableTactic false
set_option linter.unusedVariables false

namespace Sys2Proof.Machine

theorem draw_keeps  {z s : State}  (hk0 : Keeps z s) : Keeps z (draw s).2 := by
  unfold draw
  try dsimp only
  repeat' first
    | with_reducible assumption
    | with_reducible apply Keeps.ite
    | with_reducible apply Keeps.ite1
    | split
    | (dsimp only)
    | intro _
    | (refine Keeps.mk' ?_ rfl rfl rfl rfl rfl rfl rfl rfl rfl; first | with_reducible assumption | with_reducible apply Keeps.ite | with_reducible apply Keeps.ite1 | split | (dsimp only) | split)

theorem newNonce_keeps  {z s : State}  (hk0 : Keeps z s) : Keeps z (newNonce s) := by
  unfold newNonce
  try dsimp only
  repeat' first
    | with_reducible assumption
    | with_reducible apply Keeps.ite
    | intro _
    | (refine Keeps.mk' ?_ rfl rfl rfl rfl rfl rfl rfl rfl rfl; first | with_reducible assumption | with_reducible apply Keeps.ite | split)

theorem unmapAll_mem_wf {s : State} (h : s.mem.wf = true) : (unmapAll s).mem.wf = true :=
  (unmapAll_keeps (Keeps.refl s)).3 h
theorem warmState_keeps {z s : State} (origin : Nat) (hk0 : Keeps z s) : Keeps z (warmState s origin) := by
  unfold warmState
  dsimp only
  apply newNonce_keeps
  exact Keeps.mkLow hk0 rfl rfl unmapAll_mem_wf id rfl rfl (fun w => by first | exact w | rfl)

theorem startWarm_keeps  {z s : State} (origin : Nat) (hk0 : Keeps z s) : Keeps z (startWarm s origin) := by
  unfold startWarm
  try dsimp only
  repeat' first
    | with_reducible assumption
    | with_reducible apply warmState_keeps
    | with_reducible apply Keeps.ite
    | intro _
    | (refine Keeps.mk' ?_ rfl rfl rfl rfl rfl rfl rfl rfl rfl; first | with_reducible assumption | with_reducible apply warmState_keeps | with_reducible apply Keeps.ite | split)

theorem execChipWarmReset_keeps  (s : State) : ∃ t, execChipWarmReset s = .next t ∧ Keeps s t := by
  have hk0 := Keeps.refl s
  refine ⟨_, rfl, ?_⟩
  try dsimp only
  repeat' first
    | with_reducible assumption
    | with_reducible apply startWarm_keeps
    | with_reducible apply Keeps.ite
    | intro _
    | (refine Keeps.mk' ?_ rfl rfl rfl rfl rfl rfl rfl rfl rfl; first | with_reducible assumption | with_reducible apply startWarm_keeps | with_reducible apply Keeps.ite | split)

theorem copySections_keeps {z s : State} (a : Nat) (hk0 : Keeps z s) : Keeps z (copySections s a) := by
  unfold copySections
  extract_lets
  refine Keeps.mkMem (s := store (store s _ _) _ _) ?_ rfl rfl id (fun w => Mem.write_wf _ _ _ w) rfl rfl rfl rfl rfl
  exact store_keeps _ _ (store_keeps _ _ hk0)

theorem makeAlias_keeps  {z s : State} (a : Nat) (hk0 : Keeps z s) : Keeps z (makeAlias s a) := by
  unfold makeAlias
  try dsimp only
  repeat' first
    | with_reducible assumption
    | with_reducible apply draw_keeps
    | with_reducible apply Keeps.ite
    | intro _
    | (refine Keeps.mk' ?_ rfl rfl rfl rfl rfl rfl rfl rfl rfl; first | with_reducible assumption | with_reducible apply draw_keeps | with_reducible apply Keeps.ite | split)

theorem runFirmware_keeps  {z s : State} (a : Nat) (hk0 : Keeps z s) : Keeps z (runFirmware s a) := by
  unfold runFirmware
  try dsimp only
  repeat' first
    | with_reducible assumption
    | with_reducible apply Keeps.ite
    | intro _
    | (refine Keeps.mk' ?_ rfl rfl rfl rfl rfl rfl rfl rfl rfl; first | with_reducible assumption | with_reducible apply Keeps.ite | split)

theorem deriveKey_keeps  {z s : State}  (hk0 : Keeps z s) : Keeps z (deriveKey s) := by
  unfold deriveKey
  try dsimp only
  repeat' first
    | with_reducible assumption
    | with_reducible apply Keeps.ite
    | intro _
    | (refine Keeps.mk' ?_ rfl rfl rfl rfl rfl rfl rfl rfl rfl; first | with_reducible assumption | with_reducible apply Keeps.ite | split)

theorem dueAnnounce_keeps  {z s : State}  (hk0 : Keeps z s) : Keeps z (dueAnnounce s) := by
  unfold dueAnnounce
  try dsimp only
  repeat' first
    | with_reducible assumption
    | with_reducible apply Keeps.ite
    | intro _
    | (refine Keeps.mk' ?_ rfl rfl rfl rfl rfl rfl rfl rfl rfl; first | with_reducible assumption | with_reducible apply Keeps.ite | split)

theorem coldState_keeps {z s : State} (boot : Boot) (keepLatch : Bool) (hk0 : Keeps z s) : Keeps z (coldState s boot keepLatch) := by
  unfold coldState
  exact Keeps.mkLow hk0 rfl rfl (fun _ => rfl) (fun _ => rfl) rfl rfl (fun w => by first | exact w | rfl)

theorem makeUds_keeps  {z s : State}  (hk0 : Keeps z s) : Keeps z (makeUds s) := by
  unfold makeUds
  try dsimp only
  repeat' first
    | with_reducible assumption
    | with_reducible apply Keeps.ite
    | intro _
    | (refine Keeps.mk' ?_ rfl rfl rfl rfl rfl rfl rfl rfl rfl; first | with_reducible assumption | with_reducible apply Keeps.ite | split)

theorem execPowerOn_keeps  (s : State) : ∃ t, execPowerOn s = .next t ∧ Keeps s t := by
  have hk0 := Keeps.refl s
  refine ⟨_, rfl, ?_⟩
  try dsimp only
  repeat' first
    | with_reducible assumption
    | with_reducible apply makeUds_keeps
    | with_reducible apply coldState_keeps
    | with_reducible apply Keeps.ite
    | intro _
    | (refine Keeps.mk' ?_ rfl rfl rfl rfl rfl rfl rfl rfl rfl; first | with_reducible assumption | with_reducible apply makeUds_keeps | with_reducible apply coldState_keeps | with_reducible apply Keeps.ite | split)

theorem fusesCut_keeps  {z s : State}  (hk0 : Keeps z s) : Keeps z (fusesCut s) := by
  unfold fusesCut
  try dsimp only
  repeat' first
    | with_reducible assumption
    | with_reducible apply Keeps.ite
    | intro _
    | (refine Keeps.mk' ?_ rfl rfl rfl rfl rfl rfl rfl rfl rfl; first | with_reducible assumption | with_reducible apply Keeps.ite | split)

theorem execPowerLoss_keeps  (s : State) : ∃ t, execPowerLoss s = .next t ∧ Keeps s t := by
  have hk0 := Keeps.refl s
  refine ⟨_, rfl, ?_⟩
  try dsimp only
  repeat' first
    | with_reducible assumption
    | with_reducible apply coldState_keeps
    | with_reducible apply fusesCut_keeps
    | with_reducible apply Keeps.ite
    | intro _
    | (refine Keeps.mk' ?_ rfl rfl rfl rfl rfl rfl rfl rfl rfl; first | with_reducible assumption | with_reducible apply coldState_keeps | with_reducible apply fusesCut_keeps | with_reducible apply Keeps.ite | split)

theorem resetAll_keeps  {z s : State} (keepLatch : Bool) (hk0 : Keeps z s) : Keeps z (resetAll s keepLatch) := by
  unfold resetAll
  try dsimp only
  repeat' first
    | with_reducible assumption
    | with_reducible apply coldState_keeps
    | with_reducible apply fusesCut_keeps
    | with_reducible apply Keeps.ite
    | intro _
    | (refine Keeps.mk' ?_ rfl rfl rfl rfl rfl rfl rfl rfl rfl; first | with_reducible assumption | with_reducible apply coldState_keeps | with_reducible apply fusesCut_keeps | with_reducible apply Keeps.ite | split)

theorem execResetNPulse_keeps (ns : Nat) (s : State) : ∃ t, execResetNPulse ns s = .next t ∧ Keeps s t := by
  have hk0 := Keeps.refl s
  refine ⟨_, rfl, ?_⟩
  try dsimp only
  repeat' first
    | with_reducible assumption
    | with_reducible apply resetAll_keeps
    | with_reducible apply Keeps.ite
    | intro _
    | (refine Keeps.mk' ?_ rfl rfl rfl rfl rfl rfl rfl rfl rfl; first | with_reducible assumption | with_reducible apply resetAll_keeps | with_reducible apply Keeps.ite | split)

theorem execResetRelease_keeps (refSysPresent : Bool) (s : State) : ∃ t, execResetRelease refSysPresent s = .next t ∧ Keeps s t := by
  have hk0 := Keeps.refl s
  refine ⟨_, rfl, ?_⟩
  try dsimp only
  repeat' first
    | with_reducible assumption
    | with_reducible apply settle_keeps
    | with_reducible apply setSrc_keeps
    | with_reducible apply draw_keeps
    | with_reducible apply Keeps.ite
    | intro _
    | (refine Keeps.mk' ?_ rfl rfl rfl rfl rfl rfl rfl rfl rfl; first | with_reducible assumption | with_reducible apply settle_keeps | with_reducible apply setSrc_keeps | with_reducible apply draw_keeps | with_reducible apply Keeps.ite | split)

theorem execDramTrainingDone_keeps (failed : List Nat) (s : State) : ∃ t, execDramTrainingDone failed s = .next t ∧ Keeps s t := by
  have hk0 := Keeps.refl s
  refine ⟨_, rfl, ?_⟩
  try dsimp only
  repeat' first
    | with_reducible assumption
    | with_reducible apply settle_keeps
    | with_reducible apply setSrc_keeps
    | with_reducible apply Keeps.ite
    | intro _
    | (refine Keeps.mk' ?_ rfl rfl rfl rfl rfl rfl rfl rfl rfl; first | with_reducible assumption | with_reducible apply settle_keeps | with_reducible apply setSrc_keeps | with_reducible apply Keeps.ite | split)

theorem execMemoryFillDone_keeps (s : State) : ∃ t, execMemoryFillDone s = .next t ∧ Keeps s t := by
  refine ⟨_, rfl, ?_⟩
  apply Keeps.ite
  · intro _; exact Keeps.refl s
  · intro _
    exact Keeps.mkMem (Keeps.refl s) rfl rfl (fun _ => rfl) (fun _ => rfl) rfl rfl rfl rfl rfl

theorem execStartupInjectionDone_keeps (failed : List Nat) (badEngines : List Nat) (s : State) : ∃ t, execStartupInjectionDone failed badEngines s = .next t ∧ Keeps s t := by
  have hk0 := Keeps.refl s
  refine ⟨_, rfl, ?_⟩
  try dsimp only
  repeat' first
    | with_reducible assumption
    | with_reducible apply settle_keeps
    | with_reducible apply levelSources_keeps
    | with_reducible apply msix_keeps
    | (with_reducible refine Keeps.foldl (fun s a hs => ?_) _ _ ?_)
    | with_reducible apply Keeps.ite
    | intro _
    | (refine Keeps.mk' ?_ rfl rfl rfl rfl rfl rfl rfl rfl rfl; first | with_reducible assumption | with_reducible apply settle_keeps | with_reducible apply levelSources_keeps | with_reducible apply msix_keeps | (with_reducible refine Keeps.foldl (fun s a hs => ?_) _ _ ?_) | with_reducible apply Keeps.ite | split)

theorem execVoltageMonitorTrip_keeps (rail : Rail) (collapsed : Bool) (s : State) : ∃ t, execVoltageMonitorTrip rail collapsed s = .next t ∧ Keeps s t := by
  have hk0 := Keeps.refl s
  refine ⟨_, rfl, ?_⟩
  try dsimp only
  repeat' first
    | with_reducible assumption
    | with_reducible apply resetAll_keeps
    | with_reducible apply settle_keeps
    | with_reducible apply setSrc_keeps
    | with_reducible apply Keeps.ite
    | intro _
    | (refine Keeps.mk' ?_ rfl rfl rfl rfl rfl rfl rfl rfl rfl; first | with_reducible assumption | with_reducible apply resetAll_keeps | with_reducible apply settle_keeps | with_reducible apply setSrc_keeps | with_reducible apply Keeps.ite | split)

theorem execClockMonitorTrip_keeps (k : ClockEvent) (s : State) : ∃ t, execClockMonitorTrip k s = .next t ∧ Keeps s t := by
  have hk0 := Keeps.refl s
  refine ⟨_, rfl, ?_⟩
  try dsimp only
  repeat' first
    | with_reducible assumption
    | with_reducible apply settle_keeps
    | with_reducible apply setSrc_keeps
    | with_reducible apply Keeps.ite
    | intro _
    | (refine Keeps.mk' ?_ rfl rfl rfl rfl rfl rfl rfl rfl rfl; first | with_reducible assumption | with_reducible apply settle_keeps | with_reducible apply setSrc_keeps | with_reducible apply Keeps.ite | split)
    | (refine Keeps.mkLow ?_ rfl rfl id id rfl rfl id; first | with_reducible assumption | with_reducible apply settle_keeps | with_reducible apply setSrc_keeps | with_reducible apply Keeps.ite | split)

theorem execTempWarning_keeps (celsius : Int) (s : State) : ∃ t, execTempWarning celsius s = .next t ∧ Keeps s t := by
  have hk0 := Keeps.refl s
  refine ⟨_, rfl, ?_⟩
  try dsimp only
  repeat' first
    | with_reducible assumption
    | with_reducible apply levelSources_keeps
    | with_reducible apply Keeps.ite
    | intro _
    | (refine Keeps.mk' ?_ rfl rfl rfl rfl rfl rfl rfl rfl rfl; first | with_reducible assumption | with_reducible apply levelSources_keeps | with_reducible apply Keeps.ite | split)

theorem execTempShutdown_keeps  (s : State) : ∃ t, execTempShutdown s = .next t ∧ Keeps s t := by
  have hk0 := Keeps.refl s
  refine ⟨_, rfl, ?_⟩
  try dsimp only
  repeat' first
    | with_reducible assumption
    | with_reducible apply levelSources_keeps
    | with_reducible apply settle_keeps
    | with_reducible apply setSrc_keeps
    | with_reducible apply fusesCut_keeps
    | with_reducible apply Keeps.ite
    | intro _
    | (refine Keeps.mk' ?_ rfl rfl rfl rfl rfl rfl rfl rfl rfl; first | with_reducible assumption | with_reducible apply levelSources_keeps | with_reducible apply settle_keeps | with_reducible apply setSrc_keeps | with_reducible apply fusesCut_keeps | with_reducible apply Keeps.ite | split)

theorem execFlowOkLow_keeps (low : Bool) (s : State) : ∃ t, execFlowOkLow low s = .next t ∧ Keeps s t := by
  have hk0 := Keeps.refl s
  refine ⟨_, rfl, ?_⟩
  try dsimp only
  repeat' first
    | with_reducible assumption
    | with_reducible apply levelSources_keeps
    | with_reducible apply Keeps.ite
    | intro _
    | (refine Keeps.mk' ?_ rfl rfl rfl rfl rfl rfl rfl rfl rfl; first | with_reducible assumption | with_reducible apply levelSources_keeps | with_reducible apply Keeps.ite | split)

theorem execTamperTrip_keeps (k : TamperKind) (s : State) : ∃ t, execTamperTrip k s = .next t ∧ Keeps s t := by
  have hk0 := Keeps.refl s
  refine ⟨_, rfl, ?_⟩
  try dsimp only
  repeat' first
    | with_reducible assumption
    | with_reducible apply finishTok_keeps
    | with_reducible apply settle_keeps
    | with_reducible apply setSrc_keeps
    | with_reducible apply Keeps.ite
    | intro _
    | (refine Keeps.mk' ?_ rfl rfl rfl rfl rfl rfl rfl rfl rfl; first | with_reducible assumption | with_reducible apply finishTok_keeps | with_reducible apply settle_keeps | with_reducible apply setSrc_keeps | with_reducible apply Keeps.ite | split)

theorem execSafeMonitorTrip_keeps  (s : State) : ∃ t, execSafeMonitorTrip s = .next t ∧ Keeps s t := by
  have hk0 := Keeps.refl s
  refine ⟨_, rfl, ?_⟩
  try dsimp only
  repeat' first
    | with_reducible assumption
    | with_reducible apply Keeps.ite
    | intro _
    | (refine Keeps.mk' ?_ rfl rfl rfl rfl rfl rfl rfl rfl rfl; first | with_reducible assumption | with_reducible apply Keeps.ite | split)
    | (refine Keeps.mkLow ?_ rfl rfl id id rfl rfl id; first | with_reducible assumption | with_reducible apply Keeps.ite | split)

theorem execSafeToggle_keeps (s : State) : ∃ t, execSafeToggle s = .next t ∧ Keeps s t := by
  refine ⟨_, rfl, ?_⟩
  apply Keeps.ite
  · intro h
    simp only [Bool.and_eq_true, beq_iff_eq, Bool.not_eq_true'] at h
    refine ⟨rfl, rfl, id, id, fun _ => ?_, id⟩
    simp [safeOk, h.1.1, h.1.2]
  · intro _
    exact Keeps.mkLow (Keeps.refl s) rfl rfl id id rfl rfl id

theorem execPcieAerError_keeps (uncorrectable : Bool) (s : State) : ∃ t, execPcieAerError uncorrectable s = .next t ∧ Keeps s t := by
  have hk0 := Keeps.refl s
  refine ⟨_, rfl, ?_⟩
  try dsimp only
  repeat' first
    | with_reducible assumption
    | with_reducible apply setSrc_keeps
    | with_reducible apply Keeps.ite
    | intro _
    | (refine Keeps.mk' ?_ rfl rfl rfl rfl rfl rfl rfl rfl rfl; first | with_reducible assumption | with_reducible apply setSrc_keeps | with_reducible apply Keeps.ite | split)

theorem execPerstNChange_keeps (low : Bool) (s : State) : ∃ t, execPerstNChange low s = .next t ∧ Keeps s t := by
  have hk0 := Keeps.refl s
  refine ⟨_, rfl, ?_⟩
  try dsimp only
  repeat' first
    | with_reducible assumption
    | with_reducible apply Keeps.ite
    | intro _
    | (refine Keeps.mk' ?_ rfl rfl rfl rfl rfl rfl rfl rfl rfl; first | with_reducible assumption | with_reducible apply Keeps.ite | split)

theorem execPcieLinkChange_keeps (up : Bool) (speed : Nat) (width : Nat) (reversed : Bool) (s : State) : ∃ t, execPcieLinkChange up speed width reversed s = .next t ∧ Keeps s t := by
  have hk0 := Keeps.refl s
  refine ⟨_, rfl, ?_⟩
  try dsimp only
  repeat' first
    | with_reducible assumption
    | with_reducible apply Keeps.ite
    | intro _
    | (refine Keeps.mk' ?_ rfl rfl rfl rfl rfl rfl rfl rfl rfl; first | with_reducible assumption | with_reducible apply Keeps.ite | split)

theorem msixDrain_keeps  {z s : State}  (hk0 : Keeps z s) : Keeps z (msixDrain s) := by
  unfold msixDrain
  try dsimp only
  repeat' first
    | with_reducible assumption
    | with_reducible apply msix_keeps
    | (with_reducible refine Keeps.foldl (fun s a hs => ?_) _ _ ?_)
    | with_reducible apply Keeps.ite
    | intro _
    | (refine Keeps.mk' ?_ rfl rfl rfl rfl rfl rfl rfl rfl rfl; first | with_reducible assumption | with_reducible apply msix_keeps | (with_reducible refine Keeps.foldl (fun s a hs => ?_) _ _ ?_) | with_reducible apply Keeps.ite | split)

theorem execPcieConfigWrite_keeps (c : CfgWrite) (s : State) : ∃ t, execPcieConfigWrite c s = .next t ∧ Keeps s t := by
  have hk0 := Keeps.refl s
  refine ⟨_, rfl, ?_⟩
  try dsimp only
  repeat' first
    | with_reducible assumption
    | with_reducible apply msixDrain_keeps
    | with_reducible apply Keeps.ite
    | intro _
    | (refine Keeps.mk' ?_ rfl rfl rfl rfl rfl rfl rfl rfl rfl; first | with_reducible assumption | with_reducible apply msixDrain_keeps | with_reducible apply Keeps.ite | split)

end Sys2Proof.Machine
end

