-- ==== Sys2Proof/Laws/Keeps/Tensor.lean ====
section
/-! SUPPORT. What the definitions of Machine/Tensor.lean keep (Laws/Keeps.lean). -/

set_option linter.unusedTactic false
set_option linter.unreachableTactic false
set_option linter.unusedVariables false

namespace Sys2Proof.Machine

theorem writePieces_wf (g : Piece → Nat) : ∀ (l : List Piece) (m : Mem), m.wf = true →
    (l.foldl (fun m p => m.write (g p) p.bytes) m).wf = true
  | [], _, h => h
  | p :: r, m, h => writePieces_wf g r _ (Mem.write_wf p.bytes m _ h)
theorem viewOf_keeps {z s : State} (data : List Piece) (hk0 : Keeps z s) : Keeps z (viewOf s data) :=
  Keeps.mkMem hk0 rfl rfl (fun w => writePieces_wf _ _ _ w) id rfl rfl rfl rfl rfl

theorem doWrites_keeps  {z s : State} (ws : List (Nat × List Byte)) (poison : Bool) (hk0 : Keeps z s) : Keeps z (doWrites s ws poison) := by
  unfold doWrites
  try dsimp only
  repeat' first
    | with_reducible assumption
    | with_reducible apply storePoisoned_keeps
    | with_reducible apply store_keeps
    | (with_reducible refine Keeps.foldl (fun s a hs => ?_) _ _ ?_)
    | with_reducible apply Keeps.ite
    | intro _
    | (refine Keeps.mk' ?_ rfl rfl rfl rfl rfl rfl rfl rfl rfl; first | with_reducible assumption | with_reducible apply storePoisoned_keeps | with_reducible apply store_keeps | (with_reducible refine Keeps.foldl (fun s a hs => ?_) _ _ ?_) | with_reducible apply Keeps.ite | split)

end Sys2Proof.Machine
end

