-- ==== Sys2Proof/Laws/Keeps/Attention.lean ====
section
/-! SUPPORT. What the definitions of Machine/Attention.lean keep (Laws/Keeps.lean). -/

set_option linter.unusedTactic false
set_option linter.unreachableTactic false
set_option linter.unusedVariables false

namespace Sys2Proof.Machine

theorem openPage_keeps  {z s t : State} (id : Nat) (e : Nat) (fresh : Bool) (o : Nat → Ecc) (hk0 : Keeps z s) (ht : openPage s id e fresh o = some t) : Keeps z t := by
  unfold openPage at ht
  try dsimp only at ht
  repeat' split at ht
  all_goals (try cases ht)
  repeat' first
    | with_reducible assumption
    | with_reducible apply setEnt_keeps
    | with_reducible apply dropCopy_keeps
    | with_reducible apply bumpHdr_keeps
    | with_reducible apply copyBytes_keeps
    | with_reducible apply store_keeps
    | (with_reducible refine allocFrame_keeps ?_ ‹_›)
    | with_reducible apply Keeps.ite
    | intro _
    | (refine Keeps.mk' ?_ rfl rfl rfl rfl rfl rfl rfl rfl rfl; first | with_reducible assumption | with_reducible apply setEnt_keeps | with_reducible apply dropCopy_keeps | with_reducible apply bumpHdr_keeps | with_reducible apply copyBytes_keeps | with_reducible apply store_keeps | (with_reducible refine allocFrame_keeps ?_ ‹_›) | with_reducible apply Keeps.ite | split)

theorem putRow_keeps  {z s : State} (bad : Bool) (id : Nat) (e : Nat) (r : Nat) (k : List Word) (v : List Word) (i : Nat) (hk0 : Keeps z s) : Keeps z (putRow s bad id e r k v i) := by
  unfold putRow
  try dsimp only
  repeat' first
    | with_reducible assumption
    | with_reducible apply doWrites_keeps
    | with_reducible apply Keeps.ite
    | intro _
    | (refine Keeps.mk' ?_ rfl rfl rfl rfl rfl rfl rfl rfl rfl; first | with_reducible assumption | with_reducible apply doWrites_keeps | with_reducible apply Keeps.ite | split)

theorem putRows_keeps {z s t : State} (bad : Bool) (id e : Nat) (fresh : Bool) (k v : List Word) (rs : List (Nat × Nat))
    (o : Nat → Ecc) (hk0 : Keeps z s) (ht : putRows s bad id e fresh k v rs o = some t) : Keeps z t := by
  unfold putRows at ht
  cases ho : openPage s id e fresh o with
  | none => rw [ho] at ht; cases ht
  | some u =>
    rw [ho] at ht; cases ht
    exact Keeps.foldl (fun _ _ hs => putRow_keeps _ _ _ _ _ _ _ hs) _ _ (openPage_keeps _ _ _ _ hk0 ho)

theorem foldPages_keeps {α : Type} {z : State} {f : State → α → Option State}
    (hf : ∀ x a t, Keeps z x → f x a = some t → Keeps z t) :
    ∀ (l : List α) {s t : State}, Keeps z s → foldPages s l f = some t → Keeps z t
  | [], s, t, hk0, ht => by unfold foldPages at ht; cases ht; exact hk0
  | a :: r, s, t, hk0, ht => by
    cases hu : f s a with
    | none =>
      have hn : ∀ l : List α, l.foldl (fun (s : Option State) x => s.bind (fun s => f s x)) none = none := by
        intro l; induction l with
        | nil => rfl
        | cons b r ih => exact ih
      unfold foldPages at ht
      rw [List.foldl_cons, Option.bind_some, hu, hn] at ht
      cases ht
    | some u =>
      refine foldPages_keeps hf r (hf _ _ _ hk0 hu) ?_
      unfold foldPages at ht ⊢
      rw [List.foldl_cons, Option.bind_some, hu] at ht
      exact ht

theorem dropOld_keeps {z : State} : ∀ (f : Nat) {s : State} (id n : Nat), Keeps z s → Keeps z (dropOld f s id n)
  | 0, _, _, _, hk0 => hk0
  | f + 1, s, id, n, hk0 => by
    unfold dropOld
    dsimp only
    split
    · exact hk0
    · exact dropOld_keeps f id n (setHdr_keeps _ _ _ (Keeps.foldl (fun _ _ hs => invalidate_keeps _ _ hs) _ _ hk0))

theorem advanceSlot_keeps  {z s : State} (id : Nat) (hk0 : Keeps z s) : Keeps z (advanceSlot s id) := by
  unfold advanceSlot
  try dsimp only
  repeat' first
    | with_reducible assumption
    | with_reducible apply setHdr_keeps
    | with_reducible apply invalidate_keeps
    | (with_reducible refine Keeps.foldl (fun s a hs => ?_) _ _ ?_)
    | with_reducible apply Keeps.ite
    | intro _
    | (refine Keeps.mk' ?_ rfl rfl rfl rfl rfl rfl rfl rfl rfl; first | with_reducible assumption | with_reducible apply setHdr_keeps | with_reducible apply invalidate_keeps | (with_reducible refine Keeps.foldl (fun s a hs => ?_) _ _ ?_) | with_reducible apply Keeps.ite | split)

theorem putRows_if_keeps {z s t : State} {c : Prop} [Decidable c] {bad : Bool} {id e : Nat} {fresh : Bool} {k v : List Word}
    {rs : List (Nat × Nat)} {o : Nat → Ecc} (hk0 : Keeps z s) (ht : (if c then putRows s bad id e fresh k v rs o else some s) = some t) :
    Keeps z t := by
  split at ht
  · exact putRows_keeps _ _ _ _ _ _ _ _ hk0 ht
  · cases ht; exact hk0
theorem appendRows_keeps {z s t : State} (d : Desc) (bad : Bool) (o : Nat → Ecc) (hk0 : Keeps z s) (ht : appendRows s d bad o = some t) :
    Keeps z t := by
  unfold appendRows at ht
  dsimp only at ht
  split at ht
  · exact foldPages_keeps (fun x a t hx h => putRows_if_keeps hx h) _ hk0 ht
  · split at ht
    · obtain ⟨u, hu, rfl⟩ := Option.map_eq_some_iff.1 ht
      exact setHdr_keeps _ _ _ (setHdr_keeps _ _ _
        (foldPages_keeps (fun x a t hx h => putRows_if_keeps hx h) _ (dropOld_keeps _ _ _ hk0) hu))
    · exact foldPages_keeps (fun x a t hx h => putRows_if_keeps hx h) _ hk0 ht

theorem doAppend_keeps {z s t : State} (d : Desc) (bad : Bool) (o : Nat → Ecc) (hk0 : Keeps z s) (ht : doAppend s d bad o = some t) :
    Keeps z t :=
  appendRows_keeps d bad o (Keeps.ite (fun _ => advanceSlot_keeps _ hk0) (fun _ => hk0)) ht

theorem afterAppend_keeps  {z s : State} (id : Nat) (hk0 : Keeps z s) : Keeps z (afterAppend s id) := by
  unfold afterAppend
  try dsimp only
  repeat' first
    | with_reducible assumption
    | with_reducible apply fixPoisonPages_keeps
    | with_reducible apply bumpHdr_keeps
    | with_reducible apply Keeps.ite
    | intro _
    | (refine Keeps.mk' ?_ rfl rfl rfl rfl rfl rfl rfl rfl rfl; first | with_reducible assumption | with_reducible apply fixPoisonPages_keeps | with_reducible apply bumpHdr_keeps | with_reducible apply Keeps.ite | split)

theorem lookAhead_keeps  {z s : State} (ps : List PDesc) (o : Nat → Ecc) (hk0 : Keeps z s) : Keeps z (lookAhead s ps o) := by
  unfold lookAhead
  try dsimp only
  repeat' first
    | with_reducible assumption
    | with_reducible apply setEnt_keeps
    | with_reducible apply pinPage_keeps
    | (with_reducible refine allocFrame_keeps ?_ ‹_›)
    | (with_reducible refine Keeps.foldl (fun s a hs => ?_) _ _ ?_)
    | with_reducible apply Keeps.ite
    | intro _
    | (refine Keeps.mk' ?_ rfl rfl rfl rfl rfl rfl rfl rfl rfl; first | with_reducible assumption | with_reducible apply setEnt_keeps | with_reducible apply pinPage_keeps | (with_reducible refine allocFrame_keeps ?_ ‹_›) | (with_reducible refine Keeps.foldl (fun s a hs => ?_) _ _ ?_) | with_reducible apply Keeps.ite | split)

theorem fetchQueue_keeps {z : State} : ∀ (ps : List PDesc) {s : State} (e : Nat) (a : Attempt), Keeps z s →
    Keeps z (fetchQueue ps s e a)
  | [], _, _, _, hk0 => hk0
  | p :: r, s, e, a, hk0 => by
    unfold fetchQueue
    refine Keeps.ite (fun _ => fetchQueue_keeps r e a hk0) (fun _ => Keeps.ite (fun _ => ?_) (fun _ => ?_))
    · exact modEng_keeps _ _ (Keeps.mk' hk0 rfl rfl rfl rfl rfl rfl rfl rfl rfl)
    · exact fetchQueue_keeps r e a (queueRow_keeps _ _ _ _ _ _ hk0)

theorem joinQueue_keeps  {z s : State} (f : Nat) (own : Bool) (a : Attempt) (ps : List PDesc) (hk0 : Keeps z s) : Keeps z (joinQueue f own a ps s) := by
  unfold joinQueue
  try dsimp only
  repeat' first
    | with_reducible assumption
    | with_reducible apply fetchQueue_keeps
    | with_reducible apply modEng_keeps
    | with_reducible apply Keeps.ite
    | intro _
    | (refine Keeps.mk' ?_ rfl rfl rfl rfl rfl rfl rfl rfl rfl; first | with_reducible assumption | with_reducible apply fetchQueue_keeps | with_reducible apply modEng_keeps | with_reducible apply Keeps.ite | split)

theorem emitBlock_keeps  {z s : State} (e : Nat) (o : Nat → Ecc) (hk0 : Keeps z s) : Keeps z (emitBlock s e o) := by
  unfold emitBlock
  try dsimp only
  repeat' first
    | with_reducible assumption
    | with_reducible apply lookAhead_keeps
    | with_reducible apply bumpHdr_keeps
    | with_reducible apply joinQueue_keeps
    | (with_reducible refine Keeps.foldl (fun s a hs => ?_) _ _ ?_)
    | with_reducible apply Keeps.ite
    | intro _
    | (refine Keeps.mk' ?_ rfl rfl rfl rfl rfl rfl rfl rfl rfl; first | with_reducible assumption | with_reducible apply lookAhead_keeps | with_reducible apply bumpHdr_keeps | with_reducible apply joinQueue_keeps | (with_reducible refine Keeps.foldl (fun s a hs => ?_) _ _ ?_) | with_reducible apply Keeps.ite | split)

theorem consumePages_keeps {z : State} : ∀ (n : Nat) {s : State} (e : Nat), Keeps z s → Keeps z (consumePages n s e)
  | 0, _, _, hk0 => hk0
  | n + 1, s, e, hk0 => by
    unfold consumePages
    split
    · exact hk0
    · split
      · exact hk0
      · exact Keeps.ite (fun _ => hk0) (fun _ => Keeps.ite (fun _ => modEng_keeps _ _ hk0)
          (fun _ => consumePages_keeps n e (modEng_keeps _ _ hk0)))

theorem consumeAll_keeps  {z s : State} (e : Nat) (hk0 : Keeps z s) : Keeps z (consumeAll s e) := by
  unfold consumeAll
  try dsimp only
  repeat' first
    | with_reducible assumption
    | with_reducible apply consumePages_keeps
    | with_reducible apply Keeps.ite
    | intro _
    | (refine Keeps.mk' ?_ rfl rfl rfl rfl rfl rfl rfl rfl rfl; first | with_reducible assumption | with_reducible apply consumePages_keeps | with_reducible apply Keeps.ite | split)

theorem turnPages_keeps  {z s : State} (w : Nat) (o : Nat → Ecc) (hk0 : Keeps z s) : Keeps z (turnPages s w o) := by
  unfold turnPages
  try dsimp only
  repeat' first
    | with_reducible assumption
    | with_reducible apply consumeAll_keeps
    | with_reducible apply emitBlock_keeps
    | with_reducible apply freePins_keeps
    | (with_reducible refine Keeps.foldl (fun s a hs => ?_) _ _ ?_)
    | with_reducible apply Keeps.ite
    | intro _
    | (refine Keeps.mk' ?_ rfl rfl rfl rfl rfl rfl rfl rfl rfl; first | with_reducible assumption | with_reducible apply consumeAll_keeps | with_reducible apply emitBlock_keeps | with_reducible apply freePins_keeps | (with_reducible refine Keeps.foldl (fun s a hs => ?_) _ _ ?_) | with_reducible apply Keeps.ite | split)

theorem stepPages_keeps  {z s : State} (e : Nat) (o : Nat → Ecc) (hk0 : Keeps z s) : Keeps z (stepPages s e o) := by
  unfold stepPages
  try dsimp only
  repeat' first
    | with_reducible assumption
    | with_reducible apply closeXfer_keeps
    | with_reducible apply turnPages_keeps
    | (with_reducible refine Keeps.foldl (fun s a hs => ?_) _ _ ?_)
    | with_reducible apply Keeps.ite
    | intro _
    | (refine Keeps.mk' ?_ rfl rfl rfl rfl rfl rfl rfl rfl rfl; first | with_reducible assumption | with_reducible apply closeXfer_keeps | with_reducible apply turnPages_keeps | (with_reducible refine Keeps.foldl (fun s a hs => ?_) _ _ ?_) | with_reducible apply Keeps.ite | split)

end Sys2Proof.Machine
end

