-- ==== Sys2Proof/Laws/Keeps/Fabric.lean ====
section
/-! SUPPORT. What the definitions of Machine/Fabric.lean keep (Laws/Keeps.lean). -/

set_option linter.unusedTactic false
set_option linter.unreachableTactic false
set_option linter.unusedVariables false

namespace Sys2Proof.Machine

theorem givePiece_keeps  {z s : State} (x : Xfer) (p : Piece) (hk0 : Keeps z s) : Keeps z (givePiece s x p) := by
  unfold givePiece
  try dsimp only
  repeat' first
    | with_reducible assumption
    | with_reducible apply modEng_keeps
    | with_reducible apply Keeps.ite
    | intro _
    | (refine Keeps.mk' ?_ rfl rfl rfl rfl rfl rfl rfl rfl rfl; first | with_reducible assumption | with_reducible apply modEng_keeps | with_reducible apply Keeps.ite | split)

theorem deliver_keeps  {z s : State} (x : Xfer) (off : Nat) (bs : List Byte) (bad : Bool) (hk0 : Keeps z s) : Keeps z (deliver s x off bs bad) := by
  unfold deliver
  try dsimp only
  repeat' first
    | with_reducible assumption
    | with_reducible apply modEng_keeps
    | with_reducible apply storePoisoned_keeps
    | with_reducible apply store_keeps
    | with_reducible apply givePiece_keeps
    | with_reducible apply Keeps.ite
    | intro _
    | (refine Keeps.mk' ?_ rfl rfl rfl rfl rfl rfl rfl rfl rfl; first | with_reducible assumption | with_reducible apply modEng_keeps | with_reducible apply storePoisoned_keeps | with_reducible apply store_keeps | with_reducible apply givePiece_keeps | with_reducible apply Keeps.ite | split)

theorem holdStream_keeps  {z s : State} (x : Xfer) (hk0 : Keeps z s) : Keeps z (holdStream s x) := by
  unfold holdStream
  try dsimp only
  repeat' first
    | with_reducible assumption
    | with_reducible apply Keeps.ite
    | intro _
    | (refine Keeps.mk' ?_ rfl rfl rfl rfl rfl rfl rfl rfl rfl; first | with_reducible assumption | with_reducible apply Keeps.ite | split)

theorem streamFault_keeps  {z s : State} (x : Xfer) (hk0 : Keeps z s) : Keeps z (streamFault s x) := by
  unfold streamFault
  try dsimp only
  repeat' first
    | with_reducible assumption
    | with_reducible apply holdStream_keeps
    | with_reducible apply killJob_keeps
    | with_reducible apply Keeps.ite
    | intro _
    | (refine Keeps.mk' ?_ rfl rfl rfl rfl rfl rfl rfl rfl rfl; first | with_reducible assumption | with_reducible apply holdStream_keeps | with_reducible apply killJob_keeps | with_reducible apply Keeps.ite | split)

theorem beginXferReq_keeps  {z s : State} (x : Xfer) (hk0 : Keeps z s) : Keeps z (beginXferReq s x) := by
  unfold beginXferReq
  try dsimp only
  repeat' first
    | with_reducible assumption
    | with_reducible apply modXfer_keeps
    | with_reducible apply takeCredit_keeps
    | with_reducible apply Keeps.ite
    | intro _
    | (refine Keeps.mk' ?_ rfl rfl rfl rfl rfl rfl rfl rfl rfl; first | with_reducible assumption | with_reducible apply modXfer_keeps | with_reducible apply takeCredit_keeps | with_reducible apply Keeps.ite | split)

theorem xferReq_keeps  {z s : State} (x : Xfer) (write : Bool) (a : Nat) (n : Nat) (off : Nat) (hk0 : Keeps z s) : Keeps z (xferReq s x write a n off) := by
  unfold xferReq
  try dsimp only
  repeat' first
    | with_reducible assumption
    | with_reducible apply issueReq_keeps
    | with_reducible apply beginXferReq_keeps
    | with_reducible apply Keeps.ite
    | intro _
    | (refine Keeps.mk' ?_ rfl rfl rfl rfl rfl rfl rfl rfl rfl; first | with_reducible assumption | with_reducible apply issueReq_keeps | with_reducible apply beginXferReq_keeps | with_reducible apply Keeps.ite | split)

theorem copyStep_keeps  {z s t : State} (x : Xfer) (hk0 : Keeps z s) (ht : copyStep s x = some t) : Keeps z t := by
  unfold copyStep at ht
  try dsimp only at ht
  repeat' split at ht
  all_goals (try cases ht)
  repeat' first
    | with_reducible assumption
    | with_reducible apply storeMoved_keeps
    | with_reducible apply xferReq_keeps
    | with_reducible apply modXfer_keeps
    | with_reducible apply Keeps.ite
    | intro _
    | (refine Keeps.mk' ?_ rfl rfl rfl rfl rfl rfl rfl rfl rfl; first | with_reducible assumption | with_reducible apply storeMoved_keeps | with_reducible apply xferReq_keeps | with_reducible apply modXfer_keeps | with_reducible apply Keeps.ite | split)

theorem ownRead_keeps  {z s : State} (x : Xfer) (a : Nat) (n : Nat) (hk0 : Keeps z s) : Keeps z (ownRead s x a n) := by
  unfold ownRead
  try dsimp only
  repeat' first
    | with_reducible assumption
    | with_reducible apply givePiece_keeps
    | (with_reducible refine Keeps.foldl (fun s a hs => ?_) _ _ ?_)
    | with_reducible apply Keeps.ite
    | intro _
    | (refine Keeps.mk' ?_ rfl rfl rfl rfl rfl rfl rfl rfl rfl; first | with_reducible assumption | with_reducible apply givePiece_keeps | (with_reducible refine Keeps.foldl (fun s a hs => ?_) _ _ ?_) | with_reducible apply Keeps.ite | split)

theorem xferStep_keeps  {z s t : State} (x : Xfer) (hk0 : Keeps z s) (ht : xferStep s x = some t) : Keeps z t := by
  unfold xferStep at ht
  try dsimp only at ht
  repeat' split at ht
  all_goals (try cases ht)
  repeat' first
    | with_reducible assumption
    | with_reducible apply modXfer_keeps
    | with_reducible apply xferReq_keeps
    | with_reducible apply streamFault_keeps
    | with_reducible apply killJob_keeps
    | with_reducible apply ownRead_keeps
    | (with_reducible refine copyStep_keeps _ ?_ ‹_›)
    | with_reducible apply Keeps.ite
    | intro _
    | (refine Keeps.mk' ?_ rfl rfl rfl rfl rfl rfl rfl rfl rfl; first | with_reducible assumption | with_reducible apply modXfer_keeps | with_reducible apply xferReq_keeps | with_reducible apply streamFault_keeps | with_reducible apply killJob_keeps | with_reducible apply ownRead_keeps | (with_reducible refine copyStep_keeps _ ?_ ‹_›) | with_reducible apply Keeps.ite | split)

theorem pumpUnit_keeps {z : State} (e : Nat) : ∀ (n : Nat) {s : State}, Keeps z s → Keeps z (pumpUnit e n s)
  | 0, _, hk0 => hk0
  | n + 1, s, hk0 => by
    unfold pumpUnit
    cases h : (unitOrder s e).findSome? (xferStep s) with
    | none => exact hk0
    | some t =>
      obtain ⟨x, _, hx⟩ := List.exists_of_findSome?_eq_some h
      exact pumpUnit_keeps e n (xferStep_keeps x hk0 hx)

theorem runArray_keeps  {z s : State} (e : Nat) (hk0 : Keeps z s) : Keeps z (runArray s e) := by
  unfold runArray
  try dsimp only
  repeat' first
    | with_reducible assumption
    | with_reducible apply modEng_keeps
    | with_reducible apply viewOf_keeps
    | with_reducible apply Keeps.ite
    | intro _
    | (refine Keeps.mk' ?_ rfl rfl rfl rfl rfl rfl rfl rfl rfl; first | with_reducible assumption | with_reducible apply modEng_keeps | with_reducible apply viewOf_keeps | with_reducible apply Keeps.ite | split)

theorem closeOperands_keeps  {z s : State} (e : Nat) (hk0 : Keeps z s) : Keeps z (closeOperands s e) := by
  unfold closeOperands
  try dsimp only
  repeat' first
    | with_reducible assumption
    | with_reducible apply closeXfer_keeps
    | with_reducible apply runArray_keeps
    | (with_reducible refine Keeps.foldl (fun s a hs => ?_) _ _ ?_)
    | with_reducible apply Keeps.ite
    | intro _
    | (refine Keeps.mk' ?_ rfl rfl rfl rfl rfl rfl rfl rfl rfl; first | with_reducible assumption | with_reducible apply closeXfer_keeps | with_reducible apply runArray_keeps | (with_reducible refine Keeps.foldl (fun s a hs => ?_) _ _ ?_) | with_reducible apply Keeps.ite | split)

theorem pump_keeps  {z s : State} (e : Nat) (hk0 : Keeps z s) : Keeps z (pump s e) := by
  unfold pump
  try dsimp only
  repeat' first
    | with_reducible assumption
    | with_reducible apply closeOperands_keeps
    | with_reducible apply pumpUnit_keeps
    | with_reducible apply Keeps.ite
    | intro _
    | (refine Keeps.mk' ?_ rfl rfl rfl rfl rfl rfl rfl rfl rfl; first | with_reducible assumption | with_reducible apply closeOperands_keeps | with_reducible apply pumpUnit_keeps | with_reducible apply Keeps.ite | split)

theorem pumpAll_keeps  {z s : State}  (hk0 : Keeps z s) : Keeps z (pumpAll s) := by
  unfold pumpAll
  try dsimp only
  repeat' first
    | with_reducible assumption
    | with_reducible apply pump_keeps
    | (with_reducible refine Keeps.foldl (fun s a hs => ?_) _ _ ?_)
    | with_reducible apply Keeps.ite
    | intro _
    | (refine Keeps.mk' ?_ rfl rfl rfl rfl rfl rfl rfl rfl rfl; first | with_reducible assumption | with_reducible apply pump_keeps | (with_reducible refine Keeps.foldl (fun s a hs => ?_) _ _ ?_) | with_reducible apply Keeps.ite | split)

end Sys2Proof.Machine
end

