-- ==== Sys2Proof/Laws/Keeps/Sign.lean ====
section
/-! SUPPORT. What the definitions of Machine/Sign.lean keep (Laws/Keeps.lean). -/

set_option linter.unusedTactic false
set_option linter.unreachableTactic false
set_option linter.unusedVariables false

namespace Sys2Proof.Machine

theorem sigCount_keeps  {z s : State} (ok : Bool) (hk0 : Keeps z s) : Keeps z (sigCount s ok) := by
  unfold sigCount
  try dsimp only
  repeat' first
    | with_reducible assumption
    | with_reducible apply setSrc_keeps
    | with_reducible apply Keeps.ite
    | intro _
    | (refine Keeps.mk' ?_ rfl rfl rfl rfl rfl rfl rfl rfl rfl; first | with_reducible assumption | with_reducible apply setSrc_keeps | with_reducible apply Keeps.ite | split)

theorem stopPairB_keeps  {z s : State}  (hk0 : Keeps z s) : Keeps z (stopPairB s) := by
  unfold stopPairB
  try dsimp only
  repeat' first
    | with_reducible assumption
    | with_reducible apply setSrc_keeps
    | with_reducible apply Keeps.ite
    | intro _
    | (refine Keeps.mk' ?_ rfl rfl rfl rfl rfl rfl rfl rfl rfl; first | with_reducible assumption | with_reducible apply setSrc_keeps | with_reducible apply Keeps.ite | split)

theorem pairAReads_keeps  {z s : State} (rs : List (Nat × Nat)) (o : Nat → Ecc) (f : State → State × Option (Status × List Word)) (hb : ∀ x, Keeps z x → Keeps z (f x).1) (hk0 : Keeps z s) : Keeps z (pairAReads s rs o f).1 := by
  unfold pairAReads
  try dsimp only
  repeat' first
    | with_reducible assumption
    | with_reducible apply portRead_keeps
    | with_reducible apply stopPairA_keeps
    | (with_reducible refine Keeps.foldl (fun s a hs => ?_) _ _ ?_)
    | with_reducible apply hb
    | with_reducible apply Keeps.ite
    | with_reducible apply Keeps.ite1
    | split
    | (dsimp only)
    | intro _
    | (refine Keeps.mk' ?_ rfl rfl rfl rfl rfl rfl rfl rfl rfl; first | with_reducible assumption | with_reducible apply portRead_keeps | with_reducible apply stopPairA_keeps | (with_reducible refine Keeps.foldl (fun s a hs => ?_) _ _ ?_) | with_reducible apply hb | with_reducible apply Keeps.ite | with_reducible apply Keeps.ite1 | split | (dsimp only) | split)

theorem pairAGo_keeps  {z s : State} (rs : List (Nat × Nat)) (o : Nat → Ecc) (f : State → State) (hb : ∀ x, Keeps z x → Keeps z (f x)) (hk0 : Keeps z s) : Keeps z (pairAGo s rs o f) := by
  unfold pairAGo
  try dsimp only
  repeat' first
    | with_reducible assumption
    | with_reducible apply pairAReads_keeps
    | with_reducible apply hb
    | with_reducible apply Keeps.ite
    | intro _
    | (refine Keeps.mk' ?_ rfl rfl rfl rfl rfl rfl rfl rfl rfl; first | with_reducible assumption | with_reducible apply pairAReads_keeps | with_reducible apply hb | with_reducible apply Keeps.ite | split)

theorem activatePack_keeps  {z s : State} (p : Pack) (hk0 : Keeps z s) : Keeps z (activatePack s p) := by
  unfold activatePack
  try dsimp only
  repeat' first
    | with_reducible assumption
    | with_reducible apply Keeps.ite
    | intro _
    | (refine Keeps.mk' ?_ rfl rfl rfl rfl rfl rfl rfl rfl rfl; first | with_reducible assumption | with_reducible apply Keeps.ite | split)

end Sys2Proof.Machine
end

