-- ==== Sys2Proof/Laws/Keeps/Jobs.lean ====
section
/-! SUPPORT. What the definitions of Machine/Jobs.lean keep (Laws/Keeps.lean). -/

set_option linter.unusedTactic false
set_option linter.unreachableTactic false
set_option linter.unusedVariables false

namespace Sys2Proof.Machine

theorem modItem_keeps  {z s : State} (t : Word) (n : Nat) (f : Item → Item) (hk0 : Keeps z s) : Keeps z (modItem s t n f) := by
  unfold modItem
  try dsimp only
  repeat' first
    | with_reducible assumption
    | with_reducible apply modJob_keeps
    | with_reducible apply Keeps.ite
    | intro _
    | (refine Keeps.mk' ?_ rfl rfl rfl rfl rfl rfl rfl rfl rfl; first | with_reducible assumption | with_reducible apply modJob_keeps | with_reducible apply Keeps.ite | split)

theorem markWaits_keeps  {z s : State}  (hk0 : Keeps z s) : Keeps z (markWaits s) := by
  unfold markWaits
  try dsimp only
  repeat' first
    | with_reducible assumption
    | with_reducible apply Keeps.ite
    | intro _
    | (refine Keeps.mk' ?_ rfl rfl rfl rfl rfl rfl rfl rfl rfl; first | with_reducible assumption | with_reducible apply Keeps.ite | split)

theorem groupEnds_keeps  {z s : State} (j : Job) (g : Nat) (hk0 : Keeps z s) : Keeps z (groupEnds s j g) := by
  unfold groupEnds
  try dsimp only
  repeat' first
    | with_reducible assumption
    | with_reducible apply Keeps.ite
    | intro _
    | (refine Keeps.mk' ?_ rfl rfl rfl rfl rfl rfl rfl rfl rfl; first | with_reducible assumption | with_reducible apply Keeps.ite | split)

theorem putLink_keeps  {z s : State} (l : MLink) (hk0 : Keeps z s) : Keeps z (putLink s l) := by
  unfold putLink
  try dsimp only
  repeat' first
    | with_reducible assumption
    | with_reducible apply Keeps.ite
    | intro _
    | (refine Keeps.mk' ?_ rfl rfl rfl rfl rfl rfl rfl rfl rfl; first | with_reducible assumption | with_reducible apply Keeps.ite | split)

theorem windowsInvalid_keeps  {z s : State} (n : BitVec 16) (hk0 : Keeps z s) : Keeps z (windowsInvalid s n) := by
  unfold windowsInvalid
  try dsimp only
  repeat' first
    | with_reducible assumption
    | with_reducible apply Keeps.ite
    | intro _
    | (refine Keeps.mk' ?_ rfl rfl rfl rfl rfl rfl rfl rfl rfl; first | with_reducible assumption | with_reducible apply Keeps.ite | split)

theorem awayInvalid_keeps  {z s : State}  (hk0 : Keeps z s) : Keeps z (awayInvalid s) := by
  unfold awayInvalid
  try dsimp only
  repeat' first
    | with_reducible assumption
    | with_reducible apply windowsInvalid_keeps
    | (with_reducible refine Keeps.foldl (fun s a hs => ?_) _ _ ?_)
    | with_reducible apply Keeps.ite
    | intro _
    | (refine Keeps.mk' ?_ rfl rfl rfl rfl rfl rfl rfl rfl rfl; first | with_reducible assumption | with_reducible apply windowsInvalid_keeps | (with_reducible refine Keeps.foldl (fun s a hs => ?_) _ _ ?_) | with_reducible apply Keeps.ite | split)

theorem queueReq_keeps  {z s : State} (t : Word) (x : List Word) (p : Nat × Nat × Nat × Bool) (hk0 : Keeps z s) : Keeps z (queueReq s t x p) := by
  unfold queueReq
  try dsimp only
  repeat' first
    | with_reducible assumption
    | with_reducible apply Keeps.ite
    | intro _
    | (refine Keeps.mk' ?_ rfl rfl rfl rfl rfl rfl rfl rfl rfl; first | with_reducible assumption | with_reducible apply Keeps.ite | split)

theorem beginXfer_keeps  {z s : State} (t : Word) (k : Nat) (x : List Word) (hk0 : Keeps z s) : Keeps z (beginXfer s t k x) := by
  unfold beginXfer
  try dsimp only
  repeat' first
    | with_reducible assumption
    | with_reducible apply modJob_keeps
    | with_reducible apply queueReq_keeps
    | (with_reducible refine Keeps.foldl (fun s a hs => ?_) _ _ ?_)
    | with_reducible apply Keeps.ite
    | intro _
    | (refine Keeps.mk' ?_ rfl rfl rfl rfl rfl rfl rfl rfl rfl; first | with_reducible assumption | with_reducible apply modJob_keeps | with_reducible apply queueReq_keeps | (with_reducible refine Keeps.foldl (fun s a hs => ?_) _ _ ?_) | with_reducible apply Keeps.ite | split)

theorem startXfers_keeps  {z s : State}  (hk0 : Keeps z s) : Keeps z (startXfers s) := by
  unfold startXfers
  try dsimp only
  repeat' first
    | with_reducible assumption
    | with_reducible apply beginXfer_keeps
    | (with_reducible refine Keeps.foldl (fun s a hs => ?_) _ _ ?_)
    | with_reducible apply Keeps.ite
    | intro _
    | (refine Keeps.mk' ?_ rfl rfl rfl rfl rfl rfl rfl rfl rfl; first | with_reducible assumption | with_reducible apply beginXfer_keeps | (with_reducible refine Keeps.foldl (fun s a hs => ?_) _ _ ?_) | with_reducible apply Keeps.ite | split)

theorem standRows_keeps  {z s : State} (owner : Word) (addrs : List Nat) (r : List Word) (hk0 : Keeps z s) : Keeps z (standRows s owner addrs r) := by
  unfold standRows
  try dsimp only
  repeat' first
    | with_reducible assumption
    | (with_reducible refine Keeps.foldl (fun s a hs => ?_) _ _ ?_)
    | with_reducible apply Keeps.ite
    | intro _
    | (refine Keeps.mk' ?_ rfl rfl rfl rfl rfl rfl rfl rfl rfl; first | with_reducible assumption | (with_reducible refine Keeps.foldl (fun s a hs => ?_) _ _ ?_) | with_reducible apply Keeps.ite | split)

theorem standPad_keeps  {z s : State} (owner : Word) (p : Plan) (d : Desc) (hk0 : Keeps z s) : Keeps z (standPad s owner p d) := by
  unfold standPad
  try dsimp only
  repeat' first
    | with_reducible assumption
    | with_reducible apply Keeps.ite
    | intro _
    | (refine Keeps.mk' ?_ rfl rfl rfl rfl rfl rfl rfl rfl rfl; first | with_reducible assumption | with_reducible apply Keeps.ite | split)

theorem standItemRows_keeps  {z s : State} (j : Job) (i : Item) (hk0 : Keeps z s) : Keeps z (standItemRows s j i) := by
  unfold standItemRows
  try dsimp only
  repeat' first
    | with_reducible assumption
    | with_reducible apply standPad_keeps
    | with_reducible apply standRows_keeps
    | (with_reducible refine Keeps.foldl (fun s a hs => ?_) _ _ ?_)
    | with_reducible apply Keeps.ite
    | intro _
    | (refine Keeps.mk' ?_ rfl rfl rfl rfl rfl rfl rfl rfl rfl; first | with_reducible assumption | with_reducible apply standPad_keeps | with_reducible apply standRows_keeps | (with_reducible refine Keeps.foldl (fun s a hs => ?_) _ _ ?_) | with_reducible apply Keeps.ite | split)

theorem runPrefetch_keeps  {z s : State} (t : Word) (n : Nat) (hk0 : Keeps z s) : Keeps z (runPrefetch s t n) := by
  unfold runPrefetch
  try dsimp only
  repeat' first
    | with_reducible assumption
    | with_reducible apply modItem_keeps
    | with_reducible apply queueRow_keeps
    | with_reducible apply pump_keeps
    | (with_reducible refine Keeps.foldl (fun s a hs => ?_) _ _ ?_)
    | with_reducible apply Keeps.ite
    | intro _
    | (refine Keeps.mk' ?_ rfl rfl rfl rfl rfl rfl rfl rfl rfl; first | with_reducible assumption | with_reducible apply modItem_keeps | with_reducible apply queueRow_keeps | with_reducible apply pump_keeps | (with_reducible refine Keeps.foldl (fun s a hs => ?_) _ _ ?_) | with_reducible apply Keeps.ite | split)

theorem startPrefetch_keeps  {z s : State}  (hk0 : Keeps z s) : Keeps z (startPrefetch s) := by
  unfold startPrefetch
  try dsimp only
  repeat' first
    | with_reducible assumption
    | with_reducible apply runPrefetch_keeps
    | (with_reducible refine Keeps.foldl (fun s a hs => ?_) _ _ ?_)
    | with_reducible apply Keeps.ite
    | intro _
    | (refine Keeps.mk' ?_ rfl rfl rfl rfl rfl rfl rfl rfl rfl; first | with_reducible assumption | with_reducible apply runPrefetch_keeps | (with_reducible refine Keeps.foldl (fun s a hs => ?_) _ _ ?_) | with_reducible apply Keeps.ite | split)

theorem afterStand_keeps  {z s : State}  (hk0 : Keeps z s) : Keeps z (afterStand s) := by
  unfold afterStand
  try dsimp only
  repeat' first
    | with_reducible assumption
    | with_reducible apply markWaits_keeps
    | with_reducible apply startXfers_keeps
    | with_reducible apply startPrefetch_keeps
    | with_reducible apply Keeps.ite
    | intro _
    | (refine Keeps.mk' ?_ rfl rfl rfl rfl rfl rfl rfl rfl rfl; first | with_reducible assumption | with_reducible apply markWaits_keeps | with_reducible apply startXfers_keeps | with_reducible apply startPrefetch_keeps | with_reducible apply Keeps.ite | split)

theorem tryDone_keeps  {z s : State} (t : Word) (inp : Nat) (hk0 : Keeps z s) : Keeps z (tryDone s t inp) := by
  unfold tryDone
  try dsimp only
  repeat' first
    | with_reducible assumption
    | with_reducible apply endJob_keeps
    | with_reducible apply Keeps.ite
    | intro _
    | (refine Keeps.mk' ?_ rfl rfl rfl rfl rfl rfl rfl rfl rfl; first | with_reducible assumption | with_reducible apply endJob_keeps | with_reducible apply Keeps.ite | split)

theorem recordRerun_keeps  {z s : State} (t : Word) (layer : Nat) (hk0 : Keeps z s) : Keeps z (recordRerun s t layer) := by
  unfold recordRerun
  try dsimp only
  repeat' first
    | with_reducible assumption
    | with_reducible apply writeFb_keeps
    | with_reducible apply modJob_keeps
    | with_reducible apply Keeps.ite
    | intro _
    | (refine Keeps.mk' ?_ rfl rfl rfl rfl rfl rfl rfl rfl rfl; first | with_reducible assumption | with_reducible apply writeFb_keeps | with_reducible apply modJob_keeps | with_reducible apply Keeps.ite | split)

theorem itemStands_keeps  {z s : State} (t : Word) (n : Nat) (inp : Nat) (hk0 : Keeps z s) : Keeps z (itemStands s t n inp) := by
  unfold itemStands
  try dsimp only
  repeat' first
    | with_reducible assumption
    | with_reducible apply modItem_keeps
    | with_reducible apply standItemRows_keeps
    | with_reducible apply recordRerun_keeps
    | with_reducible apply groupEnds_keeps
    | with_reducible apply afterStand_keeps
    | with_reducible apply tryDone_keeps
    | with_reducible apply Keeps.ite
    | intro _
    | (refine Keeps.mk' ?_ rfl rfl rfl rfl rfl rfl rfl rfl rfl; first | with_reducible assumption | with_reducible apply modItem_keeps | with_reducible apply standItemRows_keeps | with_reducible apply recordRerun_keeps | with_reducible apply groupEnds_keeps | with_reducible apply afterStand_keeps | with_reducible apply tryDone_keeps | with_reducible apply Keeps.ite | split)

theorem itemGood_keeps  {z s : State} (t : Word) (n : Nat) (e : Nat) (sat : Nat) (writes : List (Nat × List Byte)) (hk0 : Keeps z s) : Keeps z (itemGood s t n e sat writes) := by
  unfold itemGood
  try dsimp only
  repeat' first
    | with_reducible assumption
    | with_reducible apply doWrites_keeps
    | with_reducible apply modItem_keeps
    | with_reducible apply modJob_keeps
    | with_reducible apply itemStands_keeps
    | with_reducible apply pump_keeps
    | with_reducible apply queueRow_keeps
    | (with_reducible refine Keeps.foldl (fun s a hs => ?_) _ _ ?_)
    | with_reducible apply Keeps.ite
    | intro _
    | (refine Keeps.mk' ?_ rfl rfl rfl rfl rfl rfl rfl rfl rfl; first | with_reducible assumption | with_reducible apply doWrites_keeps | with_reducible apply modItem_keeps | with_reducible apply modJob_keeps | with_reducible apply itemStands_keeps | with_reducible apply pump_keeps | with_reducible apply queueRow_keeps | (with_reducible refine Keeps.foldl (fun s a hs => ?_) _ _ ?_) | with_reducible apply Keeps.ite | split)

theorem ackOutput_keeps  {z s : State} (t : Word) (n : Nat) (e : Nat) (hk0 : Keeps z s) : Keeps z (ackOutput s t n e) := by
  unfold ackOutput
  try dsimp only
  repeat' first
    | with_reducible assumption
    | with_reducible apply itemStands_keeps
    | with_reducible apply Keeps.ite
    | intro _
    | (refine Keeps.mk' ?_ rfl rfl rfl rfl rfl rfl rfl rfl rfl; first | with_reducible assumption | with_reducible apply itemStands_keeps | with_reducible apply Keeps.ite | split)

theorem ackPrefetch_keeps  {z s : State} (t : Word) (n : Nat) (row : Option Nat) (e : Nat) (hk0 : Keeps z s) : Keeps z (ackPrefetch s t n row e) := by
  unfold ackPrefetch
  try dsimp only
  repeat' first
    | with_reducible assumption
    | with_reducible apply modItem_keeps
    | with_reducible apply standRows_keeps
    | with_reducible apply afterStand_keeps
    | with_reducible apply groupEnds_keeps
    | with_reducible apply tryDone_keeps
    | with_reducible apply Keeps.ite
    | intro _
    | (refine Keeps.mk' ?_ rfl rfl rfl rfl rfl rfl rfl rfl rfl; first | with_reducible assumption | with_reducible apply modItem_keeps | with_reducible apply standRows_keeps | with_reducible apply afterStand_keeps | with_reducible apply groupEnds_keeps | with_reducible apply tryDone_keeps | with_reducible apply Keeps.ite | split)

theorem xferEnds_keeps  {z s : State} (x : Xfer) (o : Nat → Ecc) (hk0 : Keeps z s) : Keeps z (xferEnds s x o) := by
  unfold xferEnds
  try dsimp only
  repeat' first
    | with_reducible assumption
    | with_reducible apply closeOperands_keeps
    | with_reducible apply stepPages_keeps
    | with_reducible apply ackOutput_keeps
    | with_reducible apply closeXfer_keeps
    | with_reducible apply ackPrefetch_keeps
    | with_reducible apply Keeps.ite
    | intro _
    | (refine Keeps.mk' ?_ rfl rfl rfl rfl rfl rfl rfl rfl rfl; first | with_reducible assumption | with_reducible apply closeOperands_keeps | with_reducible apply stepPages_keeps | with_reducible apply ackOutput_keeps | with_reducible apply closeXfer_keeps | with_reducible apply ackPrefetch_keeps | with_reducible apply Keeps.ite | split)

theorem itemRetry_keeps  {z s : State} (t : Word) (n : Nat) (hk0 : Keeps z s) : Keeps z (itemRetry s t n) := by
  unfold itemRetry
  try dsimp only
  repeat' first
    | with_reducible assumption
    | with_reducible apply afterStand_keeps
    | with_reducible apply modItem_keeps
    | with_reducible apply Keeps.ite
    | intro _
    | (refine Keeps.mk' ?_ rfl rfl rfl rfl rfl rfl rfl rfl rfl; first | with_reducible assumption | with_reducible apply afterStand_keeps | with_reducible apply modItem_keeps | with_reducible apply Keeps.ite | split)

theorem startJob_keeps  {z s : State} (j : Job) (hk0 : Keeps z s) : Keeps z (startJob s j) := by
  unfold startJob
  try dsimp only
  repeat' first
    | with_reducible assumption
    | with_reducible apply afterStand_keeps
    | with_reducible apply Keeps.ite
    | intro _
    | (refine Keeps.mk' ?_ rfl rfl rfl rfl rfl rfl rfl rfl rfl; first | with_reducible assumption | with_reducible apply afterStand_keeps | with_reducible apply Keeps.ite | split)

theorem claimFrames_keeps  {z s : State} (mask : BitVec 64) (hk0 : Keeps z s) : Keeps z (claimFrames s mask) := by
  unfold claimFrames
  try dsimp only
  repeat' first
    | with_reducible assumption
    | with_reducible apply Keeps.ite
    | intro _
    | (refine Keeps.mk' ?_ rfl rfl rfl rfl rfl rfl rfl rfl rfl; first | with_reducible assumption | with_reducible apply Keeps.ite | split)

end Sys2Proof.Machine
end

