-- ==== Sys2Proof/Laws/Keeps/Engines.lean ====
section
/-! SUPPORT. What the definitions of Machine/Engines.lean keep (Laws/Keeps.lean). -/

set_option linter.unusedTactic false
set_option linter.unreachableTactic false
set_option linter.unusedVariables false

namespace Sys2Proof.Machine

theorem placeAttempt_keeps  {z s : State} (e : Nat) (a : Attempt) (hk0 : Keeps z s) : Keeps z (placeAttempt s e a) := by
  unfold placeAttempt
  try dsimp only
  repeat' first
    | with_reducible assumption
    | with_reducible apply modEng_keeps
    | with_reducible apply Keeps.ite
    | intro _
    | (refine Keeps.mk' ?_ rfl rfl rfl rfl rfl rfl rfl rfl rfl; first | with_reducible assumption | with_reducible apply modEng_keeps | with_reducible apply Keeps.ite | split)

theorem startReads_keeps  {z s : State} (e : Nat) (j : Job) (n : Nat) (i : Item) (hk0 : Keeps z s) : Keeps z (startReads s e j n i) := by
  unfold startReads
  try dsimp only
  repeat' first
    | with_reducible assumption
    | with_reducible apply trimIf_keeps
    | with_reducible apply modEng_keeps
    | with_reducible apply queueRow_keeps
    | with_reducible apply pump_keeps
    | with_reducible apply runArray_keeps
    | (with_reducible refine Keeps.foldl (fun s a hs => ?_) _ _ ?_)
    | with_reducible apply Keeps.ite
    | intro _
    | (refine Keeps.mk' ?_ rfl rfl rfl rfl rfl rfl rfl rfl rfl; first | with_reducible assumption | with_reducible apply trimIf_keeps | with_reducible apply modEng_keeps | with_reducible apply queueRow_keeps | with_reducible apply pump_keeps | with_reducible apply runArray_keeps | (with_reducible refine Keeps.foldl (fun s a hs => ?_) _ _ ?_) | with_reducible apply Keeps.ite | split)

theorem clearStaged_keeps  {z s : State} (e : Nat) (hk0 : Keeps z s) : Keeps z (clearStaged s e) := by
  unfold clearStaged
  try dsimp only
  repeat' first
    | with_reducible assumption
    | with_reducible apply modEng_keeps
    | with_reducible apply trimIf_keeps
    | with_reducible apply Keeps.ite
    | intro _
    | (refine Keeps.mk' ?_ rfl rfl rfl rfl rfl rfl rfl rfl rfl; first | with_reducible assumption | with_reducible apply modEng_keeps | with_reducible apply trimIf_keeps | with_reducible apply Keeps.ite | split)

theorem stageAhead_keeps  {z s : State} (e : Nat) (hk0 : Keeps z s) : Keeps z (stageAhead s e) := by
  unfold stageAhead
  try dsimp only
  repeat' first
    | with_reducible assumption
    | with_reducible apply clearStaged_keeps
    | with_reducible apply modEng_keeps
    | with_reducible apply pump_keeps
    | with_reducible apply queueRow_keeps
    | (with_reducible refine Keeps.foldl (fun s a hs => ?_) _ _ ?_)
    | with_reducible apply Keeps.ite
    | intro _
    | (refine Keeps.mk' ?_ rfl rfl rfl rfl rfl rfl rfl rfl rfl; first | with_reducible assumption | with_reducible apply clearStaged_keeps | with_reducible apply modEng_keeps | with_reducible apply pump_keeps | with_reducible apply queueRow_keeps | (with_reducible refine Keeps.foldl (fun s a hs => ?_) _ _ ?_) | with_reducible apply Keeps.ite | split)

theorem stageAll_keeps  {z s : State}  (hk0 : Keeps z s) : Keeps z (stageAll s) := by
  unfold stageAll
  try dsimp only
  repeat' first
    | with_reducible assumption
    | with_reducible apply stageAhead_keeps
    | (with_reducible refine Keeps.foldl (fun s a hs => ?_) _ _ ?_)
    | with_reducible apply Keeps.ite
    | intro _
    | (refine Keeps.mk' ?_ rfl rfl rfl rfl rfl rfl rfl rfl rfl; first | with_reducible assumption | with_reducible apply stageAhead_keeps | (with_reducible refine Keeps.foldl (fun s a hs => ?_) _ _ ?_) | with_reducible apply Keeps.ite | split)

theorem units_keeps  {z s : State}  (hk0 : Keeps z s) : Keeps z (units s) := by
  unfold units
  try dsimp only
  repeat' first
    | with_reducible assumption
    | with_reducible apply stageAll_keeps
    | with_reducible apply pumpAll_keeps
    | with_reducible apply Keeps.ite
    | intro _
    | (refine Keeps.mk' ?_ rfl rfl rfl rfl rfl rfl rfl rfl rfl; first | with_reducible assumption | with_reducible apply stageAll_keeps | with_reducible apply pumpAll_keeps | with_reducible apply Keeps.ite | split)

theorem settleUnits_keeps  {z s1 : State} (s0 : State) (hk0 : Keeps z s1) : Keeps z (settleUnits s0 s1) := by
  unfold settleUnits
  try dsimp only
  repeat' first
    | with_reducible assumption
    | with_reducible apply settle_keeps
    | with_reducible apply units_keeps
    | with_reducible apply Keeps.ite
    | intro _
    | (refine Keeps.mk' ?_ rfl rfl rfl rfl rfl rfl rfl rfl rfl; first | with_reducible assumption | with_reducible apply settle_keeps | with_reducible apply units_keeps | with_reducible apply Keeps.ite | split)

theorem doDispatch_keeps  {z s : State} (e : Nat) (e2 : Option Nat) (hk0 : Keeps z s) : Keeps z (doDispatch s e e2) := by
  unfold doDispatch
  try dsimp only
  repeat' first
    | with_reducible assumption
    | with_reducible apply placeAttempt_keeps
    | with_reducible apply modItem_keeps
    | with_reducible apply killJob_keeps
    | with_reducible apply startReads_keeps
    | with_reducible apply Keeps.ite
    | intro _
    | (refine Keeps.mk' ?_ rfl rfl rfl rfl rfl rfl rfl rfl rfl; first | with_reducible assumption | with_reducible apply placeAttempt_keeps | with_reducible apply modItem_keeps | with_reducible apply killJob_keeps | with_reducible apply startReads_keeps | with_reducible apply Keeps.ite | split)

theorem execTileDispatch_keeps (e : Nat) (e2 : Option Nat) (s : State) : ∃ t, execTileDispatch e e2 s = .next t ∧ Keeps s t := by
  have hk0 := Keeps.refl s
  refine ⟨_, rfl, ?_⟩
  try dsimp only
  repeat' first
    | with_reducible assumption
    | with_reducible apply settleUnits_keeps
    | with_reducible apply markWaits_keeps
    | with_reducible apply doDispatch_keeps
    | with_reducible apply Keeps.ite
    | intro _
    | (refine Keeps.mk' ?_ rfl rfl rfl rfl rfl rfl rfl rfl rfl; first | with_reducible assumption | with_reducible apply settleUnits_keeps | with_reducible apply markWaits_keeps | with_reducible apply doDispatch_keeps | with_reducible apply Keeps.ite | split)

theorem haltIdle_keeps  {z s : State}  (hk0 : Keeps z s) : Keeps z (haltIdle s) := by
  unfold haltIdle
  try dsimp only
  repeat' first
    | with_reducible assumption
    | with_reducible apply Keeps.ite
    | intro _
    | (refine Keeps.mk' ?_ rfl rfl rfl rfl rfl rfl rfl rfl rfl; first | with_reducible assumption | with_reducible apply Keeps.ite | split)

theorem freeAttempt_keeps  {z s : State} (e : Nat) (a : Attempt) (hk0 : Keeps z s) : Keeps z (freeAttempt s e a) := by
  unfold freeAttempt
  try dsimp only
  repeat' first
    | with_reducible assumption
    | with_reducible apply haltIdle_keeps
    | with_reducible apply modEng_keeps
    | with_reducible apply Keeps.ite
    | intro _
    | (refine Keeps.mk' ?_ rfl rfl rfl rfl rfl rfl rfl rfl rfl; first | with_reducible assumption | with_reducible apply haltIdle_keeps | with_reducible apply modEng_keeps | with_reducible apply Keeps.ite | split)

theorem noteRec_keeps  {z s : State} (e : Nat) (tok : Word) (d : Desc) (check : Nat) (wrap : Nat) (sat : Nat) (hk0 : Keeps z s) : Keeps z (noteRec s e tok d check wrap sat) := by
  unfold noteRec
  try dsimp only
  repeat' first
    | with_reducible assumption
    | with_reducible apply writeTrec_keeps
    | with_reducible apply modEng_keeps
    | with_reducible apply Keeps.ite
    | intro _
    | (refine Keeps.mk' ?_ rfl rfl rfl rfl rfl rfl rfl rfl rfl; first | with_reducible assumption | with_reducible apply writeTrec_keeps | with_reducible apply modEng_keeps | with_reducible apply Keeps.ite | split)

theorem discard_keeps  {z s : State} (e : Nat) (a : Attempt) (hk0 : Keeps z s) : Keeps z (discard s e a) := by
  unfold discard
  try dsimp only
  repeat' first
    | with_reducible assumption
    | with_reducible apply freeAttempt_keeps
    | with_reducible apply releaseWalk_keeps
    | with_reducible apply noteRec_keeps
    | with_reducible apply Keeps.ite
    | intro _
    | (refine Keeps.mk' ?_ rfl rfl rfl rfl rfl rfl rfl rfl rfl; first | with_reducible assumption | with_reducible apply freeAttempt_keeps | with_reducible apply releaseWalk_keeps | with_reducible apply noteRec_keeps | with_reducible apply Keeps.ite | split)

theorem bumpDual_keeps  {z s : State} (e : Nat) (hk0 : Keeps z s) : Keeps z (bumpDual s e) := by
  unfold bumpDual
  try dsimp only
  repeat' first
    | with_reducible assumption
    | with_reducible apply modEng_keeps
    | with_reducible apply Keeps.ite
    | intro _
    | (refine Keeps.mk' ?_ rfl rfl rfl rfl rfl rfl rfl rfl rfl; first | with_reducible assumption | with_reducible apply modEng_keeps | with_reducible apply Keeps.ite | split)

theorem finishGood_keeps  {z s : State} (e : Nat) (a : Attempt) (i : Item) (o : RunOut) (hk0 : Keeps z s) : Keeps z (finishGood s e a i o) := by
  unfold finishGood
  try dsimp only
  repeat' first
    | with_reducible assumption
    | with_reducible apply afterAppend_keeps
    | with_reducible apply releaseWalk_keeps
    | with_reducible apply itemGood_keeps
    | (with_reducible refine doAppend_keeps _ _ _ ?_ ‹_›)
    | with_reducible apply Keeps.ite
    | intro _
    | (refine Keeps.mk' ?_ rfl rfl rfl rfl rfl rfl rfl rfl rfl; first | with_reducible assumption | with_reducible apply afterAppend_keeps | with_reducible apply releaseWalk_keeps | with_reducible apply itemGood_keeps | (with_reducible refine doAppend_keeps _ _ _ ?_ ‹_›) | with_reducible apply Keeps.ite | split)

theorem finishPoison_keeps  {z s : State} (e : Nat) (a : Attempt) (i : Item) (o : RunOut) (hk0 : Keeps z s) : Keeps z (finishPoison s e a i o) := by
  unfold finishPoison
  try dsimp only
  repeat' first
    | with_reducible assumption
    | with_reducible apply fixPoisonPages_keeps
    | with_reducible apply doWrites_keeps
    | with_reducible apply killJob_keeps
    | (with_reducible refine doAppend_keeps _ _ _ ?_ ‹_›)
    | with_reducible apply Keeps.ite
    | intro _
    | (refine Keeps.mk' ?_ rfl rfl rfl rfl rfl rfl rfl rfl rfl; first | with_reducible assumption | with_reducible apply fixPoisonPages_keeps | with_reducible apply doWrites_keeps | with_reducible apply killJob_keeps | (with_reducible refine doAppend_keeps _ _ _ ?_ ‹_›) | with_reducible apply Keeps.ite | split)

theorem resolveDual_keeps  {z s : State} (i : Item) (e : Nat) (f : Nat) (a : Attempt) (b : Attempt) (oa : RunOut) (ob : RunOut) (hk0 : Keeps z s) : Keeps z (resolveDual s i e f a b oa ob) := by
  unfold resolveDual
  try dsimp only
  repeat' first
    | with_reducible assumption
    | with_reducible apply noteRec_keeps
    | with_reducible apply setSrcs_keeps
    | with_reducible apply bumpDual_keeps
    | with_reducible apply freeAttempt_keeps
    | with_reducible apply releaseWalk_keeps
    | with_reducible apply finishGood_keeps
    | with_reducible apply finishPoison_keeps
    | with_reducible apply itemRetry_keeps
    | with_reducible apply doWrites_keeps
    | with_reducible apply Keeps.ite
    | intro _
    | (refine Keeps.mk' ?_ rfl rfl rfl rfl rfl rfl rfl rfl rfl; first | with_reducible assumption | with_reducible apply noteRec_keeps | with_reducible apply setSrcs_keeps | with_reducible apply bumpDual_keeps | with_reducible apply freeAttempt_keeps | with_reducible apply releaseWalk_keeps | with_reducible apply finishGood_keeps | with_reducible apply finishPoison_keeps | with_reducible apply itemRetry_keeps | with_reducible apply doWrites_keeps | with_reducible apply Keeps.ite | split)

theorem noteRun_keeps  {z s : State} (e : Nat) (o : RunOut) (hk0 : Keeps z s) : Keeps z (noteRun s e o) := by
  unfold noteRun
  try dsimp only
  repeat' first
    | with_reducible assumption
    | with_reducible apply modEng_keeps
    | with_reducible apply setSrc_keeps
    | with_reducible apply Keeps.ite
    | intro _
    | (refine Keeps.mk' ?_ rfl rfl rfl rfl rfl rfl rfl rfl rfl; first | with_reducible assumption | with_reducible apply modEng_keeps | with_reducible apply setSrc_keeps | with_reducible apply Keeps.ite | split)

theorem endRun_keeps  {z s : State} (e : Nat) (a : Attempt) (i : Item) (o : RunOut) (hk0 : Keeps z s) : Keeps z (endRun s e a i o) := by
  unfold endRun
  try dsimp only
  repeat' first
    | with_reducible assumption
    | with_reducible apply noteRun_keeps
    | with_reducible apply resolveDual_keeps
    | with_reducible apply modEng_keeps
    | with_reducible apply noteRec_keeps
    | with_reducible apply setSrc_keeps
    | with_reducible apply bumpDual_keeps
    | with_reducible apply freeAttempt_keeps
    | with_reducible apply finishGood_keeps
    | with_reducible apply finishPoison_keeps
    | with_reducible apply itemRetry_keeps
    | with_reducible apply doWrites_keeps
    | with_reducible apply Keeps.ite
    | intro _
    | (refine Keeps.mk' ?_ rfl rfl rfl rfl rfl rfl rfl rfl rfl; first | with_reducible assumption | with_reducible apply noteRun_keeps | with_reducible apply resolveDual_keeps | with_reducible apply modEng_keeps | with_reducible apply noteRec_keeps | with_reducible apply setSrc_keeps | with_reducible apply bumpDual_keeps | with_reducible apply freeAttempt_keeps | with_reducible apply finishGood_keeps | with_reducible apply finishPoison_keeps | with_reducible apply itemRetry_keeps | with_reducible apply doWrites_keeps | with_reducible apply Keeps.ite | split)

theorem consumePoison_keeps  {z s : State} (e : Nat) (a : Attempt) (hk0 : Keeps z s) : Keeps z (consumePoison s e a) := by
  unfold consumePoison
  try dsimp only
  repeat' first
    | with_reducible assumption
    | with_reducible apply setSrc_keeps
    | with_reducible apply bumpUc_keeps
    | with_reducible apply discard_keeps
    | with_reducible apply killJob_keeps
    | with_reducible apply Keeps.ite
    | intro _
    | (refine Keeps.mk' ?_ rfl rfl rfl rfl rfl rfl rfl rfl rfl; first | with_reducible assumption | with_reducible apply setSrc_keeps | with_reducible apply bumpUc_keeps | with_reducible apply discard_keeps | with_reducible apply killJob_keeps | with_reducible apply Keeps.ite | split)

theorem markPages_keeps  {z s : State} (a : Attempt) (hk0 : Keeps z s) : Keeps z (markPages s a) := by
  unfold markPages
  try dsimp only
  repeat' first
    | with_reducible assumption
    | with_reducible apply setEnt_keeps
    | with_reducible apply fixPoisonPages_keeps
    | (with_reducible refine Keeps.foldl (fun s a hs => ?_) _ _ ?_)
    | with_reducible apply Keeps.ite
    | intro _
    | (refine Keeps.mk' ?_ rfl rfl rfl rfl rfl rfl rfl rfl rfl; first | with_reducible assumption | with_reducible apply setEnt_keeps | with_reducible apply fixPoisonPages_keeps | (with_reducible refine Keeps.foldl (fun s a hs => ?_) _ _ ?_) | with_reducible apply Keeps.ite | split)

theorem consumeItem_keeps  {z s : State} (e : Nat) (a : Attempt) (i : Item) (hk0 : Keeps z s) : Keeps z (consumeItem s e a i) := by
  unfold consumeItem
  try dsimp only
  repeat' first
    | with_reducible assumption
    | with_reducible apply consumePoison_keeps
    | with_reducible apply markPages_keeps
    | with_reducible apply Keeps.ite
    | intro _
    | (refine Keeps.mk' ?_ rfl rfl rfl rfl rfl rfl rfl rfl rfl; first | with_reducible assumption | with_reducible apply consumePoison_keeps | with_reducible apply markPages_keeps | with_reducible apply Keeps.ite | split)

theorem noteErr_keeps  {z s : State} (e : Nat) (a : Attempt) (x : EngErr) (hk0 : Keeps z s) : Keeps z (noteErr s e a x) := by
  unfold noteErr
  try dsimp only
  repeat' first
    | with_reducible assumption
    | with_reducible apply setSrc_keeps
    | with_reducible apply bumpUc_keeps
    | with_reducible apply addPoison_keeps
    | with_reducible apply bumpCe_keeps
    | with_reducible apply Keeps.ite
    | intro _
    | (refine Keeps.mk' ?_ rfl rfl rfl rfl rfl rfl rfl rfl rfl; first | with_reducible assumption | with_reducible apply setSrc_keeps | with_reducible apply bumpUc_keeps | with_reducible apply addPoison_keeps | with_reducible apply bumpCe_keeps | with_reducible apply Keeps.ite | split)

theorem noteErrs_keeps  {z s : State} (e : Nat) (a : Attempt) (errs : List EngErr) (hk0 : Keeps z s) : Keeps z (noteErrs s e a errs) := by
  unfold noteErrs
  try dsimp only
  repeat' first
    | with_reducible assumption
    | with_reducible apply noteErr_keeps
    | (with_reducible refine Keeps.foldl (fun s a hs => ?_) _ _ ?_)
    | with_reducible apply Keeps.ite
    | intro _
    | (refine Keeps.mk' ?_ rfl rfl rfl rfl rfl rfl rfl rfl rfl; first | with_reducible assumption | with_reducible apply noteErr_keeps | (with_reducible refine Keeps.foldl (fun s a hs => ?_) _ _ ?_) | with_reducible apply Keeps.ite | split)

theorem stopTile_keeps  {z s : State} (e : Nat) (cycles : Nat) (a : Attempt) (o : RunOut) (bad : Bool) (hk0 : Keeps z s) : Keeps z (stopTile s e cycles a o bad) := by
  unfold stopTile
  try dsimp only
  repeat' first
    | with_reducible assumption
    | with_reducible apply noteRun_keeps
    | with_reducible apply doWrites_keeps
    | with_reducible apply freeAttempt_keeps
    | with_reducible apply releaseWalk_keeps
    | with_reducible apply noteRec_keeps
    | with_reducible apply Keeps.ite
    | intro _
    | (refine Keeps.mk' ?_ rfl rfl rfl rfl rfl rfl rfl rfl rfl; first | with_reducible assumption | with_reducible apply noteRun_keeps | with_reducible apply doWrites_keeps | with_reducible apply freeAttempt_keeps | with_reducible apply releaseWalk_keeps | with_reducible apply noteRec_keeps | with_reducible apply Keeps.ite | split)

theorem drainBad_keeps  {z s : State} (e : Nat) (a : Attempt) (o : RunOut) (hk0 : Keeps z s) : Keeps z (drainBad s e a o) := by
  unfold drainBad
  try dsimp only
  repeat' first
    | with_reducible assumption
    | with_reducible apply noteRun_keeps
    | with_reducible apply freeAttempt_keeps
    | with_reducible apply noteRec_keeps
    | with_reducible apply killJob_keeps
    | with_reducible apply doWrites_keeps
    | with_reducible apply Keeps.ite
    | intro _
    | (refine Keeps.mk' ?_ rfl rfl rfl rfl rfl rfl rfl rfl rfl; first | with_reducible assumption | with_reducible apply noteRun_keeps | with_reducible apply freeAttempt_keeps | with_reducible apply noteRec_keeps | with_reducible apply killJob_keeps | with_reducible apply doWrites_keeps | with_reducible apply Keeps.ite | split)

theorem execTileDrainEnd_keeps (e : Nat) (cycles : Nat) (upsets : List (Nat × Nat × Word)) (errs : List EngErr) (s : State) : ∃ t, execTileDrainEnd e cycles upsets s errs = .next t ∧ Keeps s t := by
  have hk0 := Keeps.refl s
  refine ⟨_, rfl, ?_⟩
  try dsimp only
  repeat' first
    | with_reducible assumption
    | with_reducible apply viewOf_keeps
    | with_reducible apply noteErrs_keeps
    | with_reducible apply elapse_keeps
    | with_reducible apply settleUnits_keeps
    | with_reducible apply stopTile_keeps
    | with_reducible apply discard_keeps
    | with_reducible apply consumeItem_keeps
    | with_reducible apply drainBad_keeps
    | with_reducible apply endRun_keeps
    | (with_reducible refine Keeps.foldl (fun s a hs => ?_) _ _ ?_)
    | with_reducible apply Keeps.ite
    | intro _
    | (refine Keeps.mk' ?_ rfl rfl rfl rfl rfl rfl rfl rfl rfl; first | with_reducible assumption | with_reducible apply viewOf_keeps | with_reducible apply noteErrs_keeps | with_reducible apply elapse_keeps | with_reducible apply settleUnits_keeps | with_reducible apply stopTile_keeps | with_reducible apply discard_keeps | with_reducible apply consumeItem_keeps | with_reducible apply drainBad_keeps | with_reducible apply endRun_keeps | (with_reducible refine Keeps.foldl (fun s a hs => ?_) _ _ ?_) | with_reducible apply Keeps.ite | split)

theorem execOperandPoisonConsumed_keeps (e : Nat) (s : State) : ∃ t, execOperandPoisonConsumed e s = .next t ∧ Keeps s t := by
  have hk0 := Keeps.refl s
  refine ⟨_, rfl, ?_⟩
  try dsimp only
  repeat' first
    | with_reducible assumption
    | with_reducible apply settleUnits_keeps
    | with_reducible apply consumeItem_keeps
    | with_reducible apply Keeps.ite
    | intro _
    | (refine Keeps.mk' ?_ rfl rfl rfl rfl rfl rfl rfl rfl rfl; first | with_reducible assumption | with_reducible apply settleUnits_keeps | with_reducible apply consumeItem_keeps | with_reducible apply Keeps.ite | split)

theorem execTaskEnd_keeps (e : Nat) (cycles : Nat) (upsets : List (Nat × Byte)) (errs : List EngErr) (s : State) : ∃ t, execTaskEnd e cycles upsets s errs = .next t ∧ Keeps s t := by
  have hk0 := Keeps.refl s
  refine ⟨_, rfl, ?_⟩
  try dsimp only
  repeat' first
    | with_reducible assumption
    | with_reducible apply settleUnits_keeps
    | with_reducible apply discard_keeps
    | with_reducible apply noteErrs_keeps
    | with_reducible apply elapse_keeps
    | with_reducible apply consumeItem_keeps
    | with_reducible apply viewOf_keeps
    | with_reducible apply endRun_keeps
    | with_reducible apply Keeps.ite
    | intro _
    | (refine Keeps.mk' ?_ rfl rfl rfl rfl rfl rfl rfl rfl rfl; first | with_reducible assumption | with_reducible apply settleUnits_keeps | with_reducible apply discard_keeps | with_reducible apply noteErrs_keeps | with_reducible apply elapse_keeps | with_reducible apply consumeItem_keeps | with_reducible apply viewOf_keeps | with_reducible apply endRun_keeps | with_reducible apply Keeps.ite | split)

theorem execAttentionTaskEnd_keeps (e : Nat) (cycles : Nat) (upsets : List (Nat × Byte)) (errs : List EngErr) (ecc : List (Nat × Ecc)) (s : State) : ∃ t, execAttentionTaskEnd e cycles upsets s errs ecc = .next t ∧ Keeps s t := by
  have hk0 := Keeps.refl s
  refine ⟨_, rfl, ?_⟩
  try dsimp only
  repeat' first
    | with_reducible assumption
    | with_reducible apply settleUnits_keeps
    | with_reducible apply discard_keeps
    | with_reducible apply noteErrs_keeps
    | with_reducible apply elapse_keeps
    | with_reducible apply consumeItem_keeps
    | with_reducible apply kvWork_keeps
    | with_reducible apply endRun_keeps
    | with_reducible apply viewOf_keeps
    | with_reducible apply killJob_keeps
    | with_reducible apply freeAttempt_keeps
    | with_reducible apply releaseWalk_keeps
    | with_reducible apply noteRec_keeps
    | (with_reducible refine doAppend_keeps _ _ _ ?_ ‹_›)
    | with_reducible apply Keeps.ite
    | intro _
    | (refine Keeps.mk' ?_ rfl rfl rfl rfl rfl rfl rfl rfl rfl; first | with_reducible assumption | with_reducible apply settleUnits_keeps | with_reducible apply discard_keeps | with_reducible apply noteErrs_keeps | with_reducible apply elapse_keeps | with_reducible apply consumeItem_keeps | with_reducible apply kvWork_keeps | with_reducible apply endRun_keeps | with_reducible apply viewOf_keeps | with_reducible apply killJob_keeps | with_reducible apply freeAttempt_keeps | with_reducible apply releaseWalk_keeps | with_reducible apply noteRec_keeps | (with_reducible refine doAppend_keeps _ _ _ ?_ ‹_›) | with_reducible apply Keeps.ite | split)

theorem decide__keeps  {z s : State} (j : Job) (layer : Nat) (hk0 : Keeps z s) : Keeps z (decide_ s j layer) := by
  unfold decide_
  try dsimp only
  repeat' first
    | with_reducible assumption
    | with_reducible apply modJob_keeps
    | with_reducible apply standItemRows_keeps
    | with_reducible apply groupEnds_keeps
    | with_reducible apply afterStand_keeps
    | with_reducible apply tryDone_keeps
    | (with_reducible refine Keeps.foldl (fun s a hs => ?_) _ _ ?_)
    | with_reducible apply Keeps.ite
    | intro _
    | (refine Keeps.mk' ?_ rfl rfl rfl rfl rfl rfl rfl rfl rfl; first | with_reducible assumption | with_reducible apply modJob_keeps | with_reducible apply standItemRows_keeps | with_reducible apply groupEnds_keeps | with_reducible apply afterStand_keeps | with_reducible apply tryDone_keeps | (with_reducible refine Keeps.foldl (fun s a hs => ?_) _ _ ?_) | with_reducible apply Keeps.ite | split)

theorem execFallbackDecision_keeps (token : Word) (layer : BitVec 16) (ecc : List (Nat × Ecc)) (s : State) : ∃ t, execFallbackDecision token layer s ecc = .next t ∧ Keeps s t := by
  have hk0 := Keeps.refl s
  refine ⟨_, rfl, ?_⟩
  try dsimp only
  repeat' first
    | with_reducible assumption
    | with_reducible apply settleUnits_keeps
    | with_reducible apply pairAGo_keeps
    | with_reducible apply decide__keeps
    | with_reducible apply Keeps.ite
    | intro _
    | (refine Keeps.mk' ?_ rfl rfl rfl rfl rfl rfl rfl rfl rfl; first | with_reducible assumption | with_reducible apply settleUnits_keeps | with_reducible apply pairAGo_keeps | with_reducible apply decide__keeps | with_reducible apply Keeps.ite | split)

theorem startWalk_keeps  {z s : State} (e : Nat) (o : Nat → Ecc) (hk0 : Keeps z s) : Keeps z (startWalk s e o) := by
  unfold startWalk
  try dsimp only
  repeat' first
    | with_reducible assumption
    | with_reducible apply modEng_keeps
    | with_reducible apply stepPages_keeps
    | with_reducible apply Keeps.ite
    | intro _
    | (refine Keeps.mk' ?_ rfl rfl rfl rfl rfl rfl rfl rfl rfl; first | with_reducible assumption | with_reducible apply modEng_keeps | with_reducible apply stepPages_keeps | with_reducible apply Keeps.ite | split)

theorem grantWalk_keeps  {z s : State} (w : Walk) (o : Nat → Ecc) (hk0 : Keeps z s) : Keeps z (grantWalk s w o) := by
  unfold grantWalk
  try dsimp only
  repeat' first
    | with_reducible assumption
    | with_reducible apply killJob_keeps
    | with_reducible apply setHdr_keeps
    | with_reducible apply startWalk_keeps
    | with_reducible apply Keeps.ite
    | intro _
    | (refine Keeps.mk' ?_ rfl rfl rfl rfl rfl rfl rfl rfl rfl; first | with_reducible assumption | with_reducible apply killJob_keeps | with_reducible apply setHdr_keeps | with_reducible apply startWalk_keeps | with_reducible apply Keeps.ite | split)

theorem execWalkLockGrant_keeps (seqId : Nat) (ecc : List (Nat × Ecc)) (s : State) : ∃ t, execWalkLockGrant seqId s ecc = .next t ∧ Keeps s t := by
  have hk0 := Keeps.refl s
  refine ⟨_, rfl, ?_⟩
  try dsimp only
  repeat' first
    | with_reducible assumption
    | with_reducible apply settleUnits_keeps
    | with_reducible apply kvWork_keeps
    | with_reducible apply grantWalk_keeps
    | with_reducible apply Keeps.ite
    | intro _
    | (refine Keeps.mk' ?_ rfl rfl rfl rfl rfl rfl rfl rfl rfl; first | with_reducible assumption | with_reducible apply settleUnits_keeps | with_reducible apply kvWork_keeps | with_reducible apply grantWalk_keeps | with_reducible apply Keeps.ite | split)

theorem resumePages_keeps  {z s : State} (e : Nat) (hk0 : Keeps z s) : Keeps z (resumePages s e) := by
  unfold resumePages
  try dsimp only
  repeat' first
    | with_reducible assumption
    | with_reducible apply fetchQueue_keeps
    | with_reducible apply modEng_keeps
    | with_reducible apply Keeps.ite
    | intro _
    | (refine Keeps.mk' ?_ rfl rfl rfl rfl rfl rfl rfl rfl rfl; first | with_reducible assumption | with_reducible apply fetchQueue_keeps | with_reducible apply modEng_keeps | with_reducible apply Keeps.ite | split)

theorem resumeRing_keeps  {z s : State} (e : Nat) (hk0 : Keeps z s) : Keeps z (resumeRing s e) := by
  unfold resumeRing
  try dsimp only
  repeat' first
    | with_reducible assumption
    | with_reducible apply Keeps.ite
    | intro _
    | (refine Keeps.mk' ?_ rfl rfl rfl rfl rfl rfl rfl rfl rfl; first | with_reducible assumption | with_reducible apply Keeps.ite | split)

theorem execStreamResume_keeps (e : Nat) (ecc : List (Nat × Ecc)) (s : State) : ∃ t, execStreamResume e s ecc = .next t ∧ Keeps s t := by
  have hk0 := Keeps.refl s
  refine ⟨_, rfl, ?_⟩
  try dsimp only
  repeat' first
    | with_reducible assumption
    | with_reducible apply settleUnits_keeps
    | with_reducible apply resumePages_keeps
    | with_reducible apply resumeRing_keeps
    | with_reducible apply stepPages_keeps
    | with_reducible apply Keeps.ite
    | intro _
    | (refine Keeps.mk' ?_ rfl rfl rfl rfl rfl rfl rfl rfl rfl; first | with_reducible assumption | with_reducible apply settleUnits_keeps | with_reducible apply resumePages_keeps | with_reducible apply resumeRing_keeps | with_reducible apply stepPages_keeps | with_reducible apply Keeps.ite | split)

end Sys2Proof.Machine
end

