-- ==== Sys2Proof/Laws/Keeps/Sensors.lean ====
section
/-! SUPPORT. What the definitions of Machine/Sensors.lean keep (Laws/Keeps.lean). -/

set_option linter.unusedTactic false
set_option linter.unreachableTactic false
set_option linter.unusedVariables false

namespace Sys2Proof.Machine

theorem modStream_keeps  {z s : State} (i : Nat) (f : Stream → Stream) (hk0 : Keeps z s) : Keeps z (modStream s i f) := by
  unfold modStream
  try dsimp only
  repeat' first
    | with_reducible assumption
    | with_reducible apply Keeps.ite
    | intro _
    | (refine Keeps.mk' ?_ rfl rfl rfl rfl rfl rfl rfl rfl rfl; first | with_reducible assumption | with_reducible apply Keeps.ite | split)

theorem modSp_keeps  {z s : State} (p : Nat) (f : SpPort → SpPort) (hk0 : Keeps z s) : Keeps z (modSp s p f) := by
  unfold modSp
  try dsimp only
  repeat' first
    | with_reducible assumption
    | with_reducible apply Keeps.ite
    | intro _
    | (refine Keeps.mk' ?_ rfl rfl rfl rfl rfl rfl rfl rfl rfl; first | with_reducible assumption | with_reducible apply Keeps.ite | split)

theorem modEth_keeps  {z s : State} (m : Nat) (f : EthMac → EthMac) (hk0 : Keeps z s) : Keeps z (modEth s m f) := by
  unfold modEth
  try dsimp only
  repeat' first
    | with_reducible assumption
    | with_reducible apply Keeps.ite
    | intro _
    | (refine Keeps.mk' ?_ rfl rfl rfl rfl rfl rfl rfl rfl rfl; first | with_reducible assumption | with_reducible apply Keeps.ite | split)

theorem modIsp_keeps  {z s : State} (n : Nat) (f : Isp → Isp) (hk0 : Keeps z s) : Keeps z (modIsp s n f) := by
  unfold modIsp
  try dsimp only
  repeat' first
    | with_reducible assumption
    | with_reducible apply Keeps.ite
    | intro _
    | (refine Keeps.mk' ?_ rfl rfl rfl rfl rfl rfl rfl rfl rfl; first | with_reducible assumption | with_reducible apply Keeps.ite | split)

theorem putRec_keeps  {z s : State} (typ : Nat) (i : Nat) (fseq : Word) (seq : Word) (ns : Nat) (sec : Nat) (aux : Nat) (pl : List Byte) (hk0 : Keeps z s) : Keeps z (putRec s typ i fseq seq ns sec aux pl) := by
  unfold putRec
  try dsimp only
  repeat' first
    | with_reducible assumption
    | with_reducible apply store_keeps
    | with_reducible apply Keeps.ite
    | intro _
    | (refine Keeps.mk' ?_ rfl rfl rfl rfl rfl rfl rfl rfl rfl; first | with_reducible assumption | with_reducible apply store_keeps | with_reducible apply Keeps.ite | split)

theorem recStream_keeps  {z s : State} (typ : Nat) (i : Nat) (fseq : Word) (seq : Word) (ns : Nat) (sec : Nat) (aux : Nat) (pl : List Byte) (hk0 : Keeps z s) : Keeps z (recStream s typ i fseq seq ns sec aux pl) := by
  unfold recStream
  try dsimp only
  repeat' first
    | with_reducible assumption
    | with_reducible apply putRec_keeps
    | with_reducible apply Keeps.ite
    | intro _
    | (refine Keeps.mk' ?_ rfl rfl rfl rfl rfl rfl rfl rfl rfl; first | with_reducible assumption | with_reducible apply putRec_keeps | with_reducible apply Keeps.ite | split)

theorem ispRest_keeps  {z s : State} (n : Nat) (hk0 : Keeps z s) : Keeps z (ispRest s n) := by
  unfold ispRest
  try dsimp only
  repeat' first
    | with_reducible assumption
    | with_reducible apply modIsp_keeps
    | with_reducible apply Keeps.ite
    | intro _
    | (refine Keeps.mk' ?_ rfl rfl rfl rfl rfl rfl rfl rfl rfl; first | with_reducible assumption | with_reducible apply modIsp_keeps | with_reducible apply Keeps.ite | split)

theorem dropFrame_keeps  {z s : State} (i : Nat) (f : SFrame) (r0 : Drop) (recorded : Bool) (hk0 : Keeps z s) : Keeps z (dropFrame s i f r0 recorded) := by
  unfold dropFrame
  try dsimp only
  repeat' first
    | with_reducible assumption
    | with_reducible apply storeWords_keeps
    | with_reducible apply modSp_keeps
    | with_reducible apply modIsp_keeps
    | with_reducible apply recStream_keeps
    | with_reducible apply Keeps.ite
    | intro _
    | (refine Keeps.mk' ?_ rfl rfl rfl rfl rfl rfl rfl rfl rfl; first | with_reducible assumption | with_reducible apply storeWords_keeps | with_reducible apply modSp_keeps | with_reducible apply modIsp_keeps | with_reducible apply recStream_keeps | with_reducible apply Keeps.ite | split)

theorem dropCur_keeps  {z s : State} (i : Nat) (r : Drop) (recorded : Bool) (hk0 : Keeps z s) : Keeps z (dropCur s i r recorded) := by
  unfold dropCur
  try dsimp only
  repeat' first
    | with_reducible assumption
    | with_reducible apply modStream_keeps
    | with_reducible apply dropFrame_keeps
    | with_reducible apply ispRest_keeps
    | with_reducible apply Keeps.ite
    | intro _
    | (refine Keeps.mk' ?_ rfl rfl rfl rfl rfl rfl rfl rfl rfl; first | with_reducible assumption | with_reducible apply modStream_keeps | with_reducible apply dropFrame_keeps | with_reducible apply ispRest_keeps | with_reducible apply Keeps.ite | split)

theorem dropKept_keeps  {z s : State} (i : Nat) (p : SFrame → Bool) (r : SFrame → Drop) (hk0 : Keeps z s) : Keeps z (dropKept s i p r) := by
  unfold dropKept
  try dsimp only
  repeat' first
    | with_reducible assumption
    | with_reducible apply dropFrame_keeps
    | with_reducible apply modStream_keeps
    | (with_reducible refine Keeps.foldl (fun s a hs => ?_) _ _ ?_)
    | with_reducible apply Keeps.ite
    | intro _
    | (refine Keeps.mk' ?_ rfl rfl rfl rfl rfl rfl rfl rfl rfl; first | with_reducible assumption | with_reducible apply dropFrame_keeps | with_reducible apply modStream_keeps | (with_reducible refine Keeps.foldl (fun s a hs => ?_) _ _ ?_) | with_reducible apply Keeps.ite | split)

theorem acceptFrame_keeps  {z s : State} (i : Nat) (seq : Word) (fseq : Word) (ns : Nat) (sec : Nat) (hk0 : Keeps z s) : Keeps z (acceptFrame s i seq fseq ns sec) := by
  unfold acceptFrame
  try dsimp only
  repeat' first
    | with_reducible assumption
    | with_reducible apply modStream_keeps
    | with_reducible apply dropFrame_keeps
    | with_reducible apply recStream_keeps
    | with_reducible apply Keeps.ite
    | intro _
    | (refine Keeps.mk' ?_ rfl rfl rfl rfl rfl rfl rfl rfl rfl; first | with_reducible assumption | with_reducible apply modStream_keeps | with_reducible apply dropFrame_keeps | with_reducible apply recStream_keeps | with_reducible apply Keeps.ite | split)

theorem acceptLive_keeps  {z s : State} (i : Nat) (t : Nat) (hk0 : Keeps z s) : Keeps z (acceptLive s i t) := by
  unfold acceptLive
  try dsimp only
  repeat' first
    | with_reducible assumption
    | with_reducible apply modStream_keeps
    | with_reducible apply acceptFrame_keeps
    | with_reducible apply Keeps.ite
    | intro _
    | (refine Keeps.mk' ?_ rfl rfl rfl rfl rfl rfl rfl rfl rfl; first | with_reducible assumption | with_reducible apply modStream_keeps | with_reducible apply acceptFrame_keeps | with_reducible apply Keeps.ite | split)

theorem closeFrame_keeps  {z s : State} (i : Nat) (hk0 : Keeps z s) : Keeps z (closeFrame s i) := by
  unfold closeFrame
  try dsimp only
  repeat' first
    | with_reducible assumption
    | with_reducible apply recStream_keeps
    | with_reducible apply modStream_keeps
    | with_reducible apply Keeps.ite
    | intro _
    | (refine Keeps.mk' ?_ rfl rfl rfl rfl rfl rfl rfl rfl rfl; first | with_reducible assumption | with_reducible apply recStream_keeps | with_reducible apply modStream_keeps | with_reducible apply Keeps.ite | split)

theorem ingressStore_keeps  {z s : State} (i : Nat) (seq : Word) (src : Nat) (a : Nat) (bs : List Byte) (hk0 : Keeps z s) : Keeps z (ingressStore s i seq src a bs) := by
  unfold ingressStore
  try dsimp only
  repeat' first
    | with_reducible assumption
    | with_reducible apply portWrite_keeps
    | with_reducible apply store_keeps
    | with_reducible apply Keeps.ite
    | intro _
    | (refine Keeps.mk' ?_ rfl rfl rfl rfl rfl rfl rfl rfl rfl; first | with_reducible assumption | with_reducible apply portWrite_keeps | with_reducible apply store_keeps | with_reducible apply Keeps.ite | split)

theorem modTx_keeps  {z s : State} (p : Nat) (slot : Nat) (kind : Nat) (f : SpPort → SpPort) (hk0 : Keeps z s) : Keeps z (modTx s p slot kind f) := by
  unfold modTx
  try dsimp only
  repeat' first
    | with_reducible assumption
    | with_reducible apply Keeps.ite
    | intro _
    | (refine Keeps.mk' ?_ rfl rfl rfl rfl rfl rfl rfl rfl rfl; first | with_reducible assumption | with_reducible apply Keeps.ite | split)

theorem forward_keeps  {z s : State} (p : Nat) (slot : Nat) (kind : Nat) (dt : Nat) (pl : List Byte) (hk0 : Keeps z s) : Keeps z (forward s p slot kind dt pl) := by
  unfold forward
  try dsimp only
  repeat' first
    | with_reducible assumption
    | with_reducible apply modTx_keeps
    | with_reducible apply Keeps.ite
    | intro _
    | (refine Keeps.mk' ?_ rfl rfl rfl rfl rfl rfl rfl rfl rfl; first | with_reducible assumption | with_reducible apply modTx_keeps | with_reducible apply Keeps.ite | split)

theorem camBegin_keeps  {z s : State} (i : Nat) (hk0 : Keeps z s) : Keeps z (camBegin s i) := by
  unfold camBegin
  try dsimp only
  repeat' first
    | with_reducible assumption
    | with_reducible apply modStream_keeps
    | with_reducible apply dropCur_keeps
    | with_reducible apply Keeps.ite
    | intro _
    | (refine Keeps.mk' ?_ rfl rfl rfl rfl rfl rfl rfl rfl rfl; first | with_reducible assumption | with_reducible apply modStream_keeps | with_reducible apply dropCur_keeps | with_reducible apply Keeps.ite | split)

theorem execCsi2FrameStart_keeps (port : Nat) (vc : Nat) (s : State) : ∃ t, execCsi2FrameStart port vc s = .next t ∧ Keeps s t := by
  have hk0 := Keeps.refl s
  refine ⟨_, rfl, ?_⟩
  try dsimp only
  repeat' first
    | with_reducible assumption
    | with_reducible apply forward_keeps
    | with_reducible apply acceptLive_keeps
    | with_reducible apply camBegin_keeps
    | with_reducible apply Keeps.ite
    | intro _
    | (refine Keeps.mk' ?_ rfl rfl rfl rfl rfl rfl rfl rfl rfl; first | with_reducible assumption | with_reducible apply forward_keeps | with_reducible apply acceptLive_keeps | with_reducible apply camBegin_keeps | with_reducible apply Keeps.ite | split)

theorem lineStamp_keeps  {z s : State} (i : Nat) (f : SFrame) (y : Nat) (t : Nat) (hk0 : Keeps z s) : Keeps z (lineStamp s i f y t) := by
  unfold lineStamp
  try dsimp only
  repeat' first
    | with_reducible assumption
    | with_reducible apply ingressStore_keeps
    | with_reducible apply Keeps.ite
    | intro _
    | (refine Keeps.mk' ?_ rfl rfl rfl rfl rfl rfl rfl rfl rfl; first | with_reducible assumption | with_reducible apply ingressStore_keeps | with_reducible apply Keeps.ite | split)

theorem ispLine_keeps  {z s : State} (i : Nat) (f : SFrame) (vals : List Nat) (lb : Ecc) (word : Nat) (hk0 : Keeps z s) : Keeps z (ispLine s i f vals lb word) := by
  unfold ispLine
  try dsimp only
  repeat' first
    | with_reducible assumption
    | with_reducible apply modIsp_keeps
    | with_reducible apply setSrc_keeps
    | with_reducible apply modStream_keeps
    | with_reducible apply Keeps.ite
    | intro _
    | (refine Keeps.mk' ?_ rfl rfl rfl rfl rfl rfl rfl rfl rfl; first | with_reducible assumption | with_reducible apply modIsp_keeps | with_reducible apply setSrc_keeps | with_reducible apply modStream_keeps | with_reducible apply Keeps.ite | split)

theorem recLine_keeps  {z s : State} (i : Nat) (dt : Nat) (vc : Nat) (t : Nat) (pl : List Byte) (hk0 : Keeps z s) : Keeps z (recLine s i dt vc t pl) := by
  unfold recLine
  try dsimp only
  repeat' first
    | with_reducible assumption
    | with_reducible apply recStream_keeps
    | with_reducible apply Keeps.ite
    | intro _
    | (refine Keeps.mk' ?_ rfl rfl rfl rfl rfl rfl rfl rfl rfl; first | with_reducible assumption | with_reducible apply recStream_keeps | with_reducible apply Keeps.ite | split)

theorem discardLine_keeps  {z s : State} (i : Nat) (hk0 : Keeps z s) : Keeps z (discardLine s i) := by
  unfold discardLine
  try dsimp only
  repeat' first
    | with_reducible assumption
    | with_reducible apply modStream_keeps
    | with_reducible apply Keeps.ite
    | intro _
    | (refine Keeps.mk' ?_ rfl rfl rfl rfl rfl rfl rfl rfl rfl; first | with_reducible assumption | with_reducible apply modStream_keeps | with_reducible apply Keeps.ite | split)

theorem lineIn_keeps  {z s : State} (i : Nat) (dt : Nat) (vc : Nat) (t : Nat) (pl : List Byte) (ovr : Bool) (lb : Ecc) (word : Nat) (hk0 : Keeps z s) : Keeps z (lineIn s i dt vc t pl ovr lb word) := by
  unfold lineIn
  try dsimp only
  repeat' first
    | with_reducible assumption
    | with_reducible apply recLine_keeps
    | with_reducible apply discardLine_keeps
    | with_reducible apply dropCur_keeps
    | with_reducible apply lineStamp_keeps
    | with_reducible apply ispLine_keeps
    | with_reducible apply ingressStore_keeps
    | with_reducible apply modStream_keeps
    | with_reducible apply Keeps.ite
    | intro _
    | (refine Keeps.mk' ?_ rfl rfl rfl rfl rfl rfl rfl rfl rfl; first | with_reducible assumption | with_reducible apply recLine_keeps | with_reducible apply discardLine_keeps | with_reducible apply dropCur_keeps | with_reducible apply lineStamp_keeps | with_reducible apply ispLine_keeps | with_reducible apply ingressStore_keeps | with_reducible apply modStream_keeps | with_reducible apply Keeps.ite | split)

theorem lineError_keeps  {z s : State} (p : Nat) (i : Option Nat) (hk0 : Keeps z s) : Keeps z (lineError s p i) := by
  unfold lineError
  try dsimp only
  repeat' first
    | with_reducible assumption
    | with_reducible apply setSrc_keeps
    | with_reducible apply modSp_keeps
    | with_reducible apply dropCur_keeps
    | with_reducible apply Keeps.ite
    | intro _
    | (refine Keeps.mk' ?_ rfl rfl rfl rfl rfl rfl rfl rfl rfl; first | with_reducible assumption | with_reducible apply setSrc_keeps | with_reducible apply modSp_keeps | with_reducible apply dropCur_keeps | with_reducible apply Keeps.ite | split)

theorem badLine_keeps  {z s : State} (p : Nat) (i : Nat) (dt : Nat) (vc : Nat) (t : Nat) (pl : List Byte) (hk0 : Keeps z s) : Keeps z (badLine s p i dt vc t pl) := by
  unfold badLine
  try dsimp only
  repeat' first
    | with_reducible assumption
    | with_reducible apply lineError_keeps
    | with_reducible apply recLine_keeps
    | with_reducible apply discardLine_keeps
    | with_reducible apply Keeps.ite
    | intro _
    | (refine Keeps.mk' ?_ rfl rfl rfl rfl rfl rfl rfl rfl rfl; first | with_reducible assumption | with_reducible apply lineError_keeps | with_reducible apply recLine_keeps | with_reducible apply discardLine_keeps | with_reducible apply Keeps.ite | split)

theorem execCsi2Line_keeps (port : Nat) (vc : Nat) (dt : Nat) (hdr : HdrEcc) (crcOk : Bool) (payload : List Byte) (ovr : Bool) (lb : Ecc) (word : Nat) (s : State) : ∃ t, execCsi2Line port vc dt hdr crcOk payload ovr lb s word = .next t ∧ Keeps s t := by
  have hk0 := Keeps.refl s
  refine ⟨_, rfl, ?_⟩
  try dsimp only
  repeat' first
    | with_reducible assumption
    | with_reducible apply modSp_keeps
    | with_reducible apply forward_keeps
    | with_reducible apply settle_keeps
    | with_reducible apply lineError_keeps
    | with_reducible apply badLine_keeps
    | with_reducible apply recLine_keeps
    | with_reducible apply lineIn_keeps
    | with_reducible apply Keeps.ite
    | intro _
    | (refine Keeps.mk' ?_ rfl rfl rfl rfl rfl rfl rfl rfl rfl; first | with_reducible assumption | with_reducible apply modSp_keeps | with_reducible apply forward_keeps | with_reducible apply settle_keeps | with_reducible apply lineError_keeps | with_reducible apply badLine_keeps | with_reducible apply recLine_keeps | with_reducible apply lineIn_keeps | with_reducible apply Keeps.ite | split)

theorem ispWrite_keeps  {z s : State} (i : Nat) (f : SFrame) (o : Nat → Ecc) (hk0 : Keeps z s) : Keeps z (ispWrite s i f o) := by
  unfold ispWrite
  try dsimp only
  repeat' first
    | with_reducible assumption
    | with_reducible apply portRead_keeps
    | with_reducible apply ingressStore_keeps
    | with_reducible apply markUnit_keeps
    | (with_reducible refine Keeps.foldl (fun s a hs => ?_) _ _ ?_)
    | with_reducible apply Keeps.ite
    | intro _
    | (refine Keeps.mk' ?_ rfl rfl rfl rfl rfl rfl rfl rfl rfl; first | with_reducible assumption | with_reducible apply portRead_keeps | with_reducible apply ingressStore_keeps | with_reducible apply markUnit_keeps | (with_reducible refine Keeps.foldl (fun s a hs => ?_) _ _ ?_) | with_reducible apply Keeps.ite | split)

theorem camEnd_keeps  {z s : State} (i : Nat) (o : Nat → Ecc) (hk0 : Keeps z s) : Keeps z (camEnd s i o) := by
  unfold camEnd
  try dsimp only
  repeat' first
    | with_reducible assumption
    | with_reducible apply modStream_keeps
    | with_reducible apply ispRest_keeps
    | with_reducible apply closeFrame_keeps
    | with_reducible apply ispWrite_keeps
    | with_reducible apply dropCur_keeps
    | with_reducible apply Keeps.ite
    | intro _
    | (refine Keeps.mk' ?_ rfl rfl rfl rfl rfl rfl rfl rfl rfl; first | with_reducible assumption | with_reducible apply modStream_keeps | with_reducible apply ispRest_keeps | with_reducible apply closeFrame_keeps | with_reducible apply ispWrite_keeps | with_reducible apply dropCur_keeps | with_reducible apply Keeps.ite | split)

theorem execCsi2FrameEnd_keeps (port : Nat) (vc : Nat) (ecc : List (Nat × Ecc)) (s : State) : ∃ t, execCsi2FrameEnd port vc s ecc = .next t ∧ Keeps s t := by
  have hk0 := Keeps.refl s
  refine ⟨_, rfl, ?_⟩
  try dsimp only
  repeat' first
    | with_reducible assumption
    | with_reducible apply forward_keeps
    | with_reducible apply camEnd_keeps
    | with_reducible apply Keeps.ite
    | intro _
    | (refine Keeps.mk' ?_ rfl rfl rfl rfl rfl rfl rfl rfl rfl; first | with_reducible assumption | with_reducible apply forward_keeps | with_reducible apply camEnd_keeps | with_reducible apply Keeps.ite | split)

theorem fireArrival_keeps  {z s : State} (a : Nat) (hk0 : Keeps z s) : Keeps z (fireArrival s a) := by
  unfold fireArrival
  try dsimp only
  repeat' first
    | with_reducible assumption
    | with_reducible apply Keeps.ite
    | intro _
    | (refine Keeps.mk' ?_ rfl rfl rfl rfl rfl rfl rfl rfl rfl; first | with_reducible assumption | with_reducible apply Keeps.ite | split)

theorem execSensorFrameComplete_keeps (stream : Nat) (s : State) : ∃ t, execSensorFrameComplete stream s = .next t ∧ Keeps s t := by
  have hk0 := Keeps.refl s
  refine ⟨_, rfl, ?_⟩
  try dsimp only
  repeat' first
    | with_reducible assumption
    | with_reducible apply modStream_keeps
    | with_reducible apply fireArrival_keeps
    | with_reducible apply Keeps.ite
    | intro _
    | (refine Keeps.mk' ?_ rfl rfl rfl rfl rfl rfl rfl rfl rfl; first | with_reducible assumption | with_reducible apply modStream_keeps | with_reducible apply fireArrival_keeps | with_reducible apply Keeps.ite | split)

theorem mirrorPut_wf : ∀ (bs : List Byte) (m : Mem) (w : Nat), m.wf = true → (mirrorPut m w bs).wf = true
  | [], _, _, h => h
  | b :: r, m, w, h => by
    unfold mirrorPut
    exact mirrorPut_wf r _ _ (Mem.set_wf m _ b h)
theorem mirror_keeps {z s : State} (mac : Nat) (rec_ : List Byte) (hk0 : Keeps z s) : Keeps z (mirror s mac rec_) := by
  unfold mirror
  dsimp only
  split
  · exact modEth_keeps _ _ (Keeps.mkMem hk0 rfl rfl id (fun w => mirrorPut_wf _ _ _ w) rfl rfl rfl rfl rfl)
  · exact modEth_keeps _ _ (Keeps.mk' hk0 rfl rfl rfl rfl rfl rfl rfl rfl rfl)

theorem discardPacket_keeps  {z s : State} (i : Nat) (t : Nat) (pl : List Byte) (hk0 : Keeps z s) : Keeps z (discardPacket s i t pl) := by
  unfold discardPacket
  try dsimp only
  repeat' first
    | with_reducible assumption
    | with_reducible apply modStream_keeps
    | with_reducible apply Keeps.ite
    | intro _
    | (refine Keeps.mk' ?_ rfl rfl rfl rfl rfl rfl rfl rfl rfl; first | with_reducible assumption | with_reducible apply modStream_keeps | with_reducible apply Keeps.ite | split)

theorem storePacket_keeps  {z s : State} (i : Nat) (t : Nat) (mac : Nat) (filt : Nat) (pl : List Byte) (hk0 : Keeps z s) : Keeps z (storePacket s i t mac filt pl) := by
  unfold storePacket
  try dsimp only
  repeat' first
    | with_reducible assumption
    | with_reducible apply discardPacket_keeps
    | with_reducible apply dropCur_keeps
    | with_reducible apply ingressStore_keeps
    | with_reducible apply modStream_keeps
    | with_reducible apply closeFrame_keeps
    | with_reducible apply Keeps.ite
    | intro _
    | (refine Keeps.mk' ?_ rfl rfl rfl rfl rfl rfl rfl rfl rfl; first | with_reducible assumption | with_reducible apply discardPacket_keeps | with_reducible apply dropCur_keeps | with_reducible apply ingressStore_keeps | with_reducible apply modStream_keeps | with_reducible apply closeFrame_keeps | with_reducible apply Keeps.ite | split)

theorem timeDue_keeps  {z s : State} (i : Nat) (t : Nat) (hk0 : Keeps z s) : Keeps z (timeDue s i t) := by
  unfold timeDue
  try dsimp only
  repeat' first
    | with_reducible assumption
    | with_reducible apply closeFrame_keeps
    | with_reducible apply modStream_keeps
    | with_reducible apply Keeps.ite
    | intro _
    | (refine Keeps.mk' ?_ rfl rfl rfl rfl rfl rfl rfl rfl rfl; first | with_reducible assumption | with_reducible apply closeFrame_keeps | with_reducible apply modStream_keeps | with_reducible apply Keeps.ite | split)

theorem packetIn_keeps  {z s : State} (i : Nat) (t : Nat) (mac : Nat) (filt : Nat) (pl : List Byte) (frame : List Byte) (hk0 : Keeps z s) : Keeps z (packetIn s i t mac filt pl frame) := by
  unfold packetIn
  try dsimp only
  repeat' first
    | with_reducible assumption
    | with_reducible apply timeDue_keeps
    | with_reducible apply acceptLive_keeps
    | with_reducible apply storePacket_keeps
    | with_reducible apply recStream_keeps
    | with_reducible apply discardPacket_keeps
    | with_reducible apply Keeps.ite
    | intro _
    | (refine Keeps.mk' ?_ rfl rfl rfl rfl rfl rfl rfl rfl rfl; first | with_reducible assumption | with_reducible apply timeDue_keeps | with_reducible apply acceptLive_keeps | with_reducible apply storePacket_keeps | with_reducible apply recStream_keeps | with_reducible apply discardPacket_keeps | with_reducible apply Keeps.ite | split)

theorem ethMatched_keeps  {z s : State} (m : Nat) (k : Nat) (bs : List Byte) (hk0 : Keeps z s) : Keeps z (ethMatched s m k bs) := by
  unfold ethMatched
  try dsimp only
  repeat' first
    | with_reducible assumption
    | with_reducible apply mirror_keeps
    | with_reducible apply timeDue_keeps
    | with_reducible apply packetIn_keeps
    | with_reducible apply Keeps.ite
    | intro _
    | (refine Keeps.mk' ?_ rfl rfl rfl rfl rfl rfl rfl rfl rfl; first | with_reducible assumption | with_reducible apply mirror_keeps | with_reducible apply timeDue_keeps | with_reducible apply packetIn_keeps | with_reducible apply Keeps.ite | split)

theorem badFcs_keeps  {z s : State} (m : Nat) (bs : List Byte) (hk0 : Keeps z s) : Keeps z (badFcs s m bs) := by
  unfold badFcs
  try dsimp only
  repeat' first
    | with_reducible assumption
    | with_reducible apply setSrc_keeps
    | with_reducible apply modEth_keeps
    | with_reducible apply dropCur_keeps
    | with_reducible apply Keeps.ite
    | intro _
    | (refine Keeps.mk' ?_ rfl rfl rfl rfl rfl rfl rfl rfl rfl; first | with_reducible assumption | with_reducible apply setSrc_keeps | with_reducible apply modEth_keeps | with_reducible apply dropCur_keeps | with_reducible apply Keeps.ite | split)

theorem execEthTimeClose_keeps (stream : Nat) (s : State) : ∃ t, execEthTimeClose stream s = .next t ∧ Keeps s t := by
  have hk0 := Keeps.refl s
  refine ⟨_, rfl, ?_⟩
  try dsimp only
  repeat' first
    | with_reducible assumption
    | with_reducible apply timeDue_keeps
    | with_reducible apply passTo_keeps
    | with_reducible apply Keeps.ite
    | intro _
    | (refine Keeps.mk' ?_ rfl rfl rfl rfl rfl rfl rfl rfl rfl; first | with_reducible assumption | with_reducible apply timeDue_keeps | with_reducible apply passTo_keeps | with_reducible apply Keeps.ite | split)

theorem loseLink_keeps  {z s : State} (eth : Bool) (p : Nat) (hk0 : Keeps z s) : Keeps z (loseLink s eth p) := by
  unfold loseLink
  try dsimp only
  repeat' first
    | with_reducible assumption
    | with_reducible apply dropCur_keeps
    | (with_reducible refine Keeps.foldl (fun s a hs => ?_) _ _ ?_)
    | with_reducible apply Keeps.ite
    | intro _
    | (refine Keeps.mk' ?_ rfl rfl rfl rfl rfl rfl rfl rfl rfl; first | with_reducible assumption | with_reducible apply dropCur_keeps | (with_reducible refine Keeps.foldl (fun s a hs => ?_) _ _ ?_) | with_reducible apply Keeps.ite | split)

theorem execSpLinkChange_keeps (port : Nat) (up : Bool) (gear : Nat) (s : State) : ∃ t, execSpLinkChange port up gear s = .next t ∧ Keeps s t := by
  have hk0 := Keeps.refl s
  refine ⟨_, rfl, ?_⟩
  try dsimp only
  repeat' first
    | with_reducible assumption
    | with_reducible apply modSp_keeps
    | with_reducible apply settle_keeps
    | with_reducible apply levelSources_keeps
    | with_reducible apply loseLink_keeps
    | with_reducible apply Keeps.ite
    | intro _
    | (refine Keeps.mk' ?_ rfl rfl rfl rfl rfl rfl rfl rfl rfl; first | with_reducible assumption | with_reducible apply modSp_keeps | with_reducible apply settle_keeps | with_reducible apply levelSources_keeps | with_reducible apply loseLink_keeps | with_reducible apply Keeps.ite | split)

theorem ethDown_keeps  {z s : State} (m : Nat) (hk0 : Keeps z s) : Keeps z (ethDown s m) := by
  unfold ethDown
  try dsimp only
  repeat' first
    | with_reducible assumption
    | with_reducible apply loseLink_keeps
    | with_reducible apply modEth_keeps
    | with_reducible apply Keeps.ite
    | intro _
    | (refine Keeps.mk' ?_ rfl rfl rfl rfl rfl rfl rfl rfl rfl; first | with_reducible assumption | with_reducible apply loseLink_keeps | with_reducible apply modEth_keeps | with_reducible apply Keeps.ite | split)

theorem execEthLinkChange_keeps (mac : Nat) (up : Bool) (s : State) : ∃ t, execEthLinkChange mac up s = .next t ∧ Keeps s t := by
  have hk0 := Keeps.refl s
  refine ⟨_, rfl, ?_⟩
  try dsimp only
  repeat' first
    | with_reducible assumption
    | with_reducible apply modEth_keeps
    | with_reducible apply settle_keeps
    | with_reducible apply levelSources_keeps
    | with_reducible apply ethDown_keeps
    | with_reducible apply Keeps.ite
    | intro _
    | (refine Keeps.mk' ?_ rfl rfl rfl rfl rfl rfl rfl rfl rfl; first | with_reducible assumption | with_reducible apply modEth_keeps | with_reducible apply settle_keeps | with_reducible apply levelSources_keeps | with_reducible apply ethDown_keeps | with_reducible apply Keeps.ite | split)

theorem execRefclkEthLoss_keeps  (s : State) : ∃ t, execRefclkEthLoss s = .next t ∧ Keeps s t := by
  have hk0 := Keeps.refl s
  refine ⟨_, rfl, ?_⟩
  try dsimp only
  repeat' first
    | with_reducible assumption
    | with_reducible apply settle_keeps
    | with_reducible apply levelSources_keeps
    | with_reducible apply ethDown_keeps
    | (with_reducible refine Keeps.foldl (fun s a hs => ?_) _ _ ?_)
    | with_reducible apply Keeps.ite
    | intro _
    | (refine Keeps.mk' ?_ rfl rfl rfl rfl rfl rfl rfl rfl rfl; first | with_reducible assumption | with_reducible apply settle_keeps | with_reducible apply levelSources_keeps | with_reducible apply ethDown_keeps | (with_reducible refine Keeps.foldl (fun s a hs => ?_) _ _ ?_) | with_reducible apply Keeps.ite | split)

theorem execTxForwardPacket_keeps (port : Nat) (dt : Nat) (fits : Bool) (payload : List Byte) (s : State) : ∃ t, execTxForwardPacket port dt fits payload s = .next t ∧ Keeps s t := by
  have hk0 := Keeps.refl s
  refine ⟨_, rfl, ?_⟩
  try dsimp only
  repeat' first
    | with_reducible assumption
    | with_reducible apply modSp_keeps
    | with_reducible apply Keeps.ite
    | intro _
    | (refine Keeps.mk' ?_ rfl rfl rfl rfl rfl rfl rfl rfl rfl; first | with_reducible assumption | with_reducible apply modSp_keeps | with_reducible apply Keeps.ite | split)

theorem writeCci_keeps  {z s : State} (p : Nat) (w : Word) (hk0 : Keeps z s) : Keeps z (writeCci s p w) := by
  unfold writeCci
  try dsimp only
  repeat' first
    | with_reducible assumption
    | with_reducible apply modSp_keeps
    | with_reducible apply Keeps.ite
    | intro _
    | (refine Keeps.mk' ?_ rfl rfl rfl rfl rfl rfl rfl rfl rfl; first | with_reducible assumption | with_reducible apply modSp_keeps | with_reducible apply Keeps.ite | split)

theorem execCciDone_keeps (port : Nat) (nack : Bool) (bytes : List Byte) (s : State) : ∃ t, execCciDone port nack bytes s = .next t ∧ Keeps s t := by
  have hk0 := Keeps.refl s
  refine ⟨_, rfl, ?_⟩
  try dsimp only
  repeat' first
    | with_reducible assumption
    | with_reducible apply modSp_keeps
    | with_reducible apply Keeps.ite
    | intro _
    | (refine Keeps.mk' ?_ rfl rfl rfl rfl rfl rfl rfl rfl rfl; first | with_reducible assumption | with_reducible apply modSp_keeps | with_reducible apply Keeps.ite | split)

theorem execCciTimeout_keeps (port : Nat) (s : State) : ∃ t, execCciTimeout port s = .next t ∧ Keeps s t := by
  have hk0 := Keeps.refl s
  refine ⟨_, rfl, ?_⟩
  try dsimp only
  repeat' first
    | with_reducible assumption
    | with_reducible apply modSp_keeps
    | with_reducible apply Keeps.ite
    | intro _
    | (refine Keeps.mk' ?_ rfl rfl rfl rfl rfl rfl rfl rfl rfl; first | with_reducible assumption | with_reducible apply modSp_keeps | with_reducible apply Keeps.ite | split)

end Sys2Proof.Machine
end

