-- ==== Sys2Proof/Laws/Keeps/Replay.lean ====
section
/-! SUPPORT. What the definitions of Machine/Replay.lean keep (Laws/Keeps.lean). -/

set_option linter.unusedTactic false
set_option linter.unreachableTactic false
set_option linter.unusedVariables false

namespace Sys2Proof.Machine

theorem doRecordStart_keeps  {z s : State} (k : Pkt) (hk0 : Keeps z s) : Keeps z (doRecordStart k s).1 := by
  unfold doRecordStart
  try dsimp only
  repeat' first
    | with_reducible assumption
    | with_reducible apply badWord_keeps
    | with_reducible apply refuse_keeps
    | with_reducible apply Keeps.ite
    | with_reducible apply Keeps.ite1
    | split
    | (dsimp only)
    | intro _
    | (refine Keeps.mk' ?_ rfl rfl rfl rfl rfl rfl rfl rfl rfl; first | with_reducible assumption | with_reducible apply badWord_keeps | with_reducible apply refuse_keeps | with_reducible apply Keeps.ite | with_reducible apply Keeps.ite1 | split | (dsimp only) | split)

theorem execRecordCtlStart_keeps (k : Pkt) (s : State) : ∃ t, execRecordCtlStart k s = .next t ∧ Keeps s t := by
  have hk0 := Keeps.refl s
  refine ⟨_, rfl, ?_⟩
  try dsimp only
  repeat' first
    | with_reducible assumption
    | with_reducible apply command_keeps
    | with_reducible apply doRecordStart_keeps
    | with_reducible apply Keeps.ite
    | intro _
    | (refine Keeps.mk' ?_ rfl rfl rfl rfl rfl rfl rfl rfl rfl; first | with_reducible assumption | with_reducible apply command_keeps | with_reducible apply doRecordStart_keeps | with_reducible apply Keeps.ite | split)

theorem doRecordStop_keeps  {z s : State} (_k : Pkt) (hk0 : Keeps z s) : Keeps z (doRecordStop _k s).1 := by
  unfold doRecordStop
  try dsimp only
  repeat' first
    | with_reducible assumption
    | with_reducible apply refuse_keeps
    | with_reducible apply Keeps.ite
    | with_reducible apply Keeps.ite1
    | split
    | (dsimp only)
    | intro _
    | (refine Keeps.mk' ?_ rfl rfl rfl rfl rfl rfl rfl rfl rfl; first | with_reducible assumption | with_reducible apply refuse_keeps | with_reducible apply Keeps.ite | with_reducible apply Keeps.ite1 | split | (dsimp only) | split)

theorem execRecordCtlStop_keeps (k : Pkt) (s : State) : ∃ t, execRecordCtlStop k s = .next t ∧ Keeps s t := by
  have hk0 := Keeps.refl s
  refine ⟨_, rfl, ?_⟩
  try dsimp only
  repeat' first
    | with_reducible assumption
    | with_reducible apply command_keeps
    | with_reducible apply doRecordStop_keeps
    | with_reducible apply Keeps.ite
    | intro _
    | (refine Keeps.mk' ?_ rfl rfl rfl rfl rfl rfl rfl rfl rfl; first | with_reducible assumption | with_reducible apply command_keeps | with_reducible apply doRecordStop_keeps | with_reducible apply Keeps.ite | split)

theorem doRecordQuery_keeps  {z s : State} (_k : Pkt) (hk0 : Keeps z s) : Keeps z (doRecordQuery _k s).1 := by
  unfold doRecordQuery
  try dsimp only
  repeat' first
    | with_reducible assumption
    | with_reducible apply Keeps.ite
    | with_reducible apply Keeps.ite1
    | split
    | (dsimp only)
    | intro _
    | (refine Keeps.mk' ?_ rfl rfl rfl rfl rfl rfl rfl rfl rfl; first | with_reducible assumption | with_reducible apply Keeps.ite | with_reducible apply Keeps.ite1 | split | (dsimp only) | split)

theorem execRecordCtlQuery_keeps (k : Pkt) (s : State) : ∃ t, execRecordCtlQuery k s = .next t ∧ Keeps s t := by
  have hk0 := Keeps.refl s
  refine ⟨_, rfl, ?_⟩
  try dsimp only
  repeat' first
    | with_reducible assumption
    | with_reducible apply command_keeps
    | with_reducible apply doRecordQuery_keeps
    | with_reducible apply Keeps.ite
    | intro _
    | (refine Keeps.mk' ?_ rfl rfl rfl rfl rfl rfl rfl rfl rfl; first | with_reducible assumption | with_reducible apply command_keeps | with_reducible apply doRecordQuery_keeps | with_reducible apply Keeps.ite | split)

theorem recordEnd_keeps  {z s : State}  (hk0 : Keeps z s) : Keeps z (recordEnd s) := by
  unfold recordEnd
  try dsimp only
  repeat' first
    | with_reducible assumption
    | with_reducible apply Keeps.ite
    | intro _
    | (refine Keeps.mk' ?_ rfl rfl rfl rfl rfl rfl rfl rfl rfl; first | with_reducible assumption | with_reducible apply Keeps.ite | split)

theorem recordFrame_keeps  {z s : State}  (hk0 : Keeps z s) : Keeps z (recordFrame s) := by
  unfold recordFrame
  try dsimp only
  repeat' first
    | with_reducible assumption
    | with_reducible apply recordEnd_keeps
    | with_reducible apply putRec_keeps
    | with_reducible apply Keeps.ite
    | intro _
    | (refine Keeps.mk' ?_ rfl rfl rfl rfl rfl rfl rfl rfl rfl; first | with_reducible assumption | with_reducible apply recordEnd_keeps | with_reducible apply putRec_keeps | with_reducible apply Keeps.ite | split)

theorem pairBRead_keeps  {z s : State} (a : Nat) (n : Nat) (o : Nat → Ecc) (f : State → State) (hb : ∀ x, Keeps z x → Keeps z (f x)) (hk0 : Keeps z s) : Keeps z (pairBRead s a n o f) := by
  unfold pairBRead
  try dsimp only
  repeat' first
    | with_reducible assumption
    | with_reducible apply portRead_keeps
    | with_reducible apply stopPairB_keeps
    | with_reducible apply hb
    | with_reducible apply Keeps.ite
    | intro _
    | (refine Keeps.mk' ?_ rfl rfl rfl rfl rfl rfl rfl rfl rfl; first | with_reducible assumption | with_reducible apply portRead_keeps | with_reducible apply stopPairB_keeps | with_reducible apply hb | with_reducible apply Keeps.ite | split)

theorem doReplayStart_keeps  {z s : State} (k : Pkt) (ecc : List (Nat × Ecc)) (hk0 : Keeps z s) : Keeps z (doReplayStart k s ecc).1 := by
  unfold doReplayStart
  try dsimp only
  repeat' first
    | with_reducible assumption
    | with_reducible apply badWord_keeps
    | with_reducible apply refuse_keeps
    | with_reducible apply portRead_keeps
    | with_reducible apply stopPairB_keeps
    | with_reducible apply Keeps.ite
    | with_reducible apply Keeps.ite1
    | split
    | (dsimp only)
    | intro _
    | (refine Keeps.mk' ?_ rfl rfl rfl rfl rfl rfl rfl rfl rfl; first | with_reducible assumption | with_reducible apply badWord_keeps | with_reducible apply refuse_keeps | with_reducible apply portRead_keeps | with_reducible apply stopPairB_keeps | with_reducible apply Keeps.ite | with_reducible apply Keeps.ite1 | split | (dsimp only) | split)

theorem execReplayCtlStart_keeps (k : Pkt) (ecc : List (Nat × Ecc)) (s : State) : ∃ t, execReplayCtlStart k s ecc = .next t ∧ Keeps s t := by
  have hk0 := Keeps.refl s
  refine ⟨_, rfl, ?_⟩
  try dsimp only
  repeat' first
    | with_reducible assumption
    | with_reducible apply command_keeps
    | with_reducible apply doReplayStart_keeps
    | with_reducible apply Keeps.ite
    | intro _
    | (refine Keeps.mk' ?_ rfl rfl rfl rfl rfl rfl rfl rfl rfl; first | with_reducible assumption | with_reducible apply command_keeps | with_reducible apply doReplayStart_keeps | with_reducible apply Keeps.ite | split)

theorem doReplayStop_keeps  {z s : State} (_k : Pkt) (hk0 : Keeps z s) : Keeps z (doReplayStop _k s).1 := by
  unfold doReplayStop
  try dsimp only
  repeat' first
    | with_reducible assumption
    | with_reducible apply refuse_keeps
    | with_reducible apply Keeps.ite
    | with_reducible apply Keeps.ite1
    | split
    | (dsimp only)
    | intro _
    | (refine Keeps.mk' ?_ rfl rfl rfl rfl rfl rfl rfl rfl rfl; first | with_reducible assumption | with_reducible apply refuse_keeps | with_reducible apply Keeps.ite | with_reducible apply Keeps.ite1 | split | (dsimp only) | split)

theorem execReplayCtlStop_keeps (k : Pkt) (s : State) : ∃ t, execReplayCtlStop k s = .next t ∧ Keeps s t := by
  have hk0 := Keeps.refl s
  refine ⟨_, rfl, ?_⟩
  try dsimp only
  repeat' first
    | with_reducible assumption
    | with_reducible apply command_keeps
    | with_reducible apply doReplayStop_keeps
    | with_reducible apply Keeps.ite
    | intro _
    | (refine Keeps.mk' ?_ rfl rfl rfl rfl rfl rfl rfl rfl rfl; first | with_reducible assumption | with_reducible apply command_keeps | with_reducible apply doReplayStop_keeps | with_reducible apply Keeps.ite | split)

theorem doReplayQuery_keeps  {z s : State} (_k : Pkt) (hk0 : Keeps z s) : Keeps z (doReplayQuery _k s).1 := by
  unfold doReplayQuery
  try dsimp only
  repeat' first
    | with_reducible assumption
    | with_reducible apply Keeps.ite
    | with_reducible apply Keeps.ite1
    | split
    | (dsimp only)
    | intro _
    | (refine Keeps.mk' ?_ rfl rfl rfl rfl rfl rfl rfl rfl rfl; first | with_reducible assumption | with_reducible apply Keeps.ite | with_reducible apply Keeps.ite1 | split | (dsimp only) | split)

theorem execReplayCtlQuery_keeps (k : Pkt) (s : State) : ∃ t, execReplayCtlQuery k s = .next t ∧ Keeps s t := by
  have hk0 := Keeps.refl s
  refine ⟨_, rfl, ?_⟩
  try dsimp only
  repeat' first
    | with_reducible assumption
    | with_reducible apply command_keeps
    | with_reducible apply doReplayQuery_keeps
    | with_reducible apply Keeps.ite
    | intro _
    | (refine Keeps.mk' ?_ rfl rfl rfl rfl rfl rfl rfl rfl rfl; first | with_reducible assumption | with_reducible apply command_keeps | with_reducible apply doReplayQuery_keeps | with_reducible apply Keeps.ite | split)

theorem replayFrame_keeps  {z s : State}  (hk0 : Keeps z s) : Keeps z (replayFrame s) := by
  unfold replayFrame
  try dsimp only
  repeat' first
    | with_reducible assumption
    | with_reducible apply Keeps.ite
    | intro _
    | (refine Keeps.mk' ?_ rfl rfl rfl rfl rfl rfl rfl rfl rfl; first | with_reducible assumption | with_reducible apply Keeps.ite | split)

theorem injectPacket_keeps  {z s : State} (i : Nat) (t : Nat) (aux : Nat) (frame : List Byte) (hk0 : Keeps z s) : Keeps z (injectPacket s i t aux frame) := by
  unfold injectPacket
  try dsimp only
  repeat' first
    | with_reducible assumption
    | with_reducible apply mirror_keeps
    | with_reducible apply storePacket_keeps
    | with_reducible apply recStream_keeps
    | with_reducible apply discardPacket_keeps
    | with_reducible apply Keeps.ite
    | intro _
    | (refine Keeps.mk' ?_ rfl rfl rfl rfl rfl rfl rfl rfl rfl; first | with_reducible assumption | with_reducible apply mirror_keeps | with_reducible apply storePacket_keeps | with_reducible apply recStream_keeps | with_reducible apply discardPacket_keeps | with_reducible apply Keeps.ite | split)

theorem injectDrop_keeps  {z s : State} (i : Nat) (seq : Word) (fseq : Word) (t : Nat) (r : Drop) (hk0 : Keeps z s) : Keeps z (injectDrop s i seq fseq t r) := by
  unfold injectDrop
  try dsimp only
  repeat' first
    | with_reducible assumption
    | with_reducible apply dropCur_keeps
    | with_reducible apply modStream_keeps
    | with_reducible apply dropFrame_keeps
    | (with_reducible refine Keeps.foldl (fun s a hs => ?_) _ _ ?_)
    | with_reducible apply Keeps.ite
    | intro _
    | (refine Keeps.mk' ?_ rfl rfl rfl rfl rfl rfl rfl rfl rfl; first | with_reducible assumption | with_reducible apply dropCur_keeps | with_reducible apply modStream_keeps | with_reducible apply dropFrame_keeps | (with_reducible refine Keeps.foldl (fun s a hs => ?_) _ _ ?_) | with_reducible apply Keeps.ite | split)

theorem injectLine_keeps  {z s : State} (i : Nat) (dt : Nat) (vc : Nat) (t : Nat) (pl : List Byte) (hk0 : Keeps z s) : Keeps z (injectLine s i dt vc t pl) := by
  unfold injectLine
  try dsimp only
  repeat' first
    | with_reducible assumption
    | with_reducible apply forward_keeps
    | with_reducible apply recLine_keeps
    | with_reducible apply lineIn_keeps
    | with_reducible apply Keeps.ite
    | intro _
    | (refine Keeps.mk' ?_ rfl rfl rfl rfl rfl rfl rfl rfl rfl; first | with_reducible assumption | with_reducible apply forward_keeps | with_reducible apply recLine_keeps | with_reducible apply lineIn_keeps | with_reducible apply Keeps.ite | split)

theorem inject_keeps  {z s : State} (x : RecIn) (o : Nat → Ecc) (hk0 : Keeps z s) : Keeps z (inject s x o) := by
  unfold inject
  try dsimp only
  repeat' first
    | with_reducible assumption
    | with_reducible apply closeFrame_keeps
    | with_reducible apply camBegin_keeps
    | with_reducible apply forward_keeps
    | with_reducible apply modStream_keeps
    | with_reducible apply acceptFrame_keeps
    | with_reducible apply injectLine_keeps
    | with_reducible apply injectPacket_keeps
    | with_reducible apply camEnd_keeps
    | with_reducible apply injectDrop_keeps
    | with_reducible apply Keeps.ite
    | intro _
    | (refine Keeps.mk' ?_ rfl rfl rfl rfl rfl rfl rfl rfl rfl; first | with_reducible assumption | with_reducible apply closeFrame_keeps | with_reducible apply camBegin_keeps | with_reducible apply forward_keeps | with_reducible apply modStream_keeps | with_reducible apply acceptFrame_keeps | with_reducible apply injectLine_keeps | with_reducible apply injectPacket_keeps | with_reducible apply camEnd_keeps | with_reducible apply injectDrop_keeps | with_reducible apply Keeps.ite | split)

theorem execReplayInject_keeps (ecc : List (Nat × Ecc)) (s : State) : ∃ t, execReplayInject s ecc = .next t ∧ Keeps s t := by
  have hk0 := Keeps.refl s
  refine ⟨_, rfl, ?_⟩
  try dsimp only
  repeat' first
    | with_reducible assumption
    | with_reducible apply settle_keeps
    | with_reducible apply pairBRead_keeps
    | with_reducible apply inject_keeps
    | with_reducible apply Keeps.ite
    | intro _
    | (refine Keeps.mk' ?_ rfl rfl rfl rfl rfl rfl rfl rfl rfl; first | with_reducible assumption | with_reducible apply settle_keeps | with_reducible apply pairBRead_keeps | with_reducible apply inject_keeps | with_reducible apply Keeps.ite | split)

end Sys2Proof.Machine
end

