-- ==== Sys2Proof/Laws/Keeps/Memory.lean ====
section
/-! SUPPORT. What the definitions of Machine/Memory.lean keep (Laws/Keeps.lean). -/

set_option linter.unusedTactic false
set_option linter.unreachableTactic false
set_option linter.unusedVariables false

namespace Sys2Proof.Machine

theorem mergeReq_keeps  {z s : State} (o : Nat → Ecc) (x : Nat × List Byte) (hk0 : Keeps z s) : Keeps z (mergeReq o s x) := by
  unfold mergeReq
  try dsimp only
  repeat' first
    | with_reducible assumption
    | with_reducible apply passReq_keeps
    | with_reducible apply passTimeout_keeps
    | with_reducible apply eccRead_keeps
    | with_reducible apply markUnit_keeps
    | with_reducible apply store_keeps
    | (with_reducible refine Keeps.foldl (fun s a hs => ?_) _ _ ?_)
    | with_reducible apply Keeps.ite
    | intro _
    | (refine Keeps.mk' ?_ rfl rfl rfl rfl rfl rfl rfl rfl rfl; first | with_reducible assumption | with_reducible apply passReq_keeps | with_reducible apply passTimeout_keeps | with_reducible apply eccRead_keeps | with_reducible apply markUnit_keeps | with_reducible apply store_keeps | (with_reducible refine Keeps.foldl (fun s a hs => ?_) _ _ ?_) | with_reducible apply Keeps.ite | split)

theorem mergeStore_keeps  {z s : State} (a : Nat) (bs : List Byte) (ecc : List Ecc) (hk0 : Keeps z s) : Keeps z (mergeStore s a bs ecc) := by
  unfold mergeStore
  try dsimp only
  repeat' first
    | with_reducible assumption
    | with_reducible apply mergeReq_keeps
    | (with_reducible refine Keeps.foldl (fun s a hs => ?_) _ _ ?_)
    | with_reducible apply Keeps.ite
    | intro _
    | (refine Keeps.mk' ?_ rfl rfl rfl rfl rfl rfl rfl rfl rfl; first | with_reducible assumption | with_reducible apply mergeReq_keeps | (with_reducible refine Keeps.foldl (fun s a hs => ?_) _ _ ?_) | with_reducible apply Keeps.ite | split)

theorem countInReset_keeps  {z s : State}  (hk0 : Keeps z s) : Keeps z (countInReset s) := by
  unfold countInReset
  try dsimp only
  repeat' first
    | with_reducible assumption
    | with_reducible apply Keeps.ite
    | intro _
    | (refine Keeps.mk' ?_ rfl rfl rfl rfl rfl rfl rfl rfl rfl; first | with_reducible assumption | with_reducible apply Keeps.ite | split)

theorem countOutside_keeps  {z s : State}  (hk0 : Keeps z s) : Keeps z (countOutside s) := by
  unfold countOutside
  try dsimp only
  repeat' first
    | with_reducible assumption
    | with_reducible apply Keeps.ite
    | intro _
    | (refine Keeps.mk' ?_ rfl rfl rfl rfl rfl rfl rfl rfl rfl; first | with_reducible assumption | with_reducible apply Keeps.ite | split)

theorem storeRuns_keeps {z : State} : ∀ (l : List (Nat × List Byte)) {s : State} (ecc : List Ecc), Keeps z s →
    Keeps z (storeRuns s l ecc)
  | [], _, _, hk0 => hk0
  | _ :: r, _, _, hk0 => storeRuns_keeps r _ (mergeStore_keeps _ _ _ hk0)

theorem bar2Store_keeps  {z s : State} (off : Nat) (bs : List Byte) (ecc : List Ecc) (hk0 : Keeps z s) : Keeps z (bar2Store s off bs ecc) := by
  unfold bar2Store
  try dsimp only
  repeat' first
    | with_reducible assumption
    | with_reducible apply countOutside_keeps
    | with_reducible apply storeRuns_keeps
    | with_reducible apply Keeps.ite
    | intro _
    | (refine Keeps.mk' ?_ rfl rfl rfl rfl rfl rfl rfl rfl rfl; first | with_reducible assumption | with_reducible apply countOutside_keeps | with_reducible apply storeRuns_keeps | with_reducible apply Keeps.ite | split)

theorem execBar2Write_keeps (off : Nat) (bytes : List Byte) (ecc : List Ecc) (s : State) : ∃ t, execBar2Write off bytes ecc s = .next t ∧ Keeps s t := by
  have hk0 := Keeps.refl s
  refine ⟨_, rfl, ?_⟩
  try dsimp only
  repeat' first
    | with_reducible assumption
    | with_reducible apply settle_keeps
    | with_reducible apply bar2Store_keeps
    | with_reducible apply countInReset_keeps
    | with_reducible apply Keeps.ite
    | intro _
    | (refine Keeps.mk' ?_ rfl rfl rfl rfl rfl rfl rfl rfl rfl; first | with_reducible assumption | with_reducible apply settle_keeps | with_reducible apply bar2Store_keeps | with_reducible apply countInReset_keeps | with_reducible apply Keeps.ite | split)

theorem bar4Store_keeps  {z s : State} (off : Nat) (bs : List Byte) (ecc : List Ecc) (hk0 : Keeps z s) : Keeps z (bar4Store s off bs ecc) := by
  unfold bar4Store
  try dsimp only
  repeat' first
    | with_reducible assumption
    | with_reducible apply countOutside_keeps
    | with_reducible apply storeRuns_keeps
    | with_reducible apply Keeps.ite
    | intro _
    | (refine Keeps.mk' ?_ rfl rfl rfl rfl rfl rfl rfl rfl rfl; first | with_reducible assumption | with_reducible apply countOutside_keeps | with_reducible apply storeRuns_keeps | with_reducible apply Keeps.ite | split)

theorem execBar4Write_keeps (off : Nat) (bytes : List Byte) (ecc : List Ecc) (s : State) : ∃ t, execBar4Write off bytes ecc s = .next t ∧ Keeps s t := by
  have hk0 := Keeps.refl s
  refine ⟨_, rfl, ?_⟩
  try dsimp only
  repeat' first
    | with_reducible assumption
    | with_reducible apply settle_keeps
    | with_reducible apply bar4Store_keeps
    | with_reducible apply countInReset_keeps
    | with_reducible apply Keeps.ite
    | intro _
    | (refine Keeps.mk' ?_ rfl rfl rfl rfl rfl rfl rfl rfl rfl; first | with_reducible assumption | with_reducible apply settle_keeps | with_reducible apply bar4Store_keeps | with_reducible apply countInReset_keeps | with_reducible apply Keeps.ite | split)

theorem hostRead_keeps  {z s : State} (n : Nat) (at_ : Nat → Option Nat) (ecc : List Ecc) (hk0 : Keeps z s) : Keeps z (hostRead s n at_ ecc) := by
  unfold hostRead
  try dsimp only
  repeat' first
    | with_reducible assumption
    | with_reducible apply countOutside_keeps
    | with_reducible apply portRead_keeps
    | (with_reducible refine Keeps.foldl (fun s a hs => ?_) _ _ ?_)
    | with_reducible apply Keeps.ite
    | intro _
    | (refine Keeps.mk' ?_ rfl rfl rfl rfl rfl rfl rfl rfl rfl; first | with_reducible assumption | with_reducible apply countOutside_keeps | with_reducible apply portRead_keeps | (with_reducible refine Keeps.foldl (fun s a hs => ?_) _ _ ?_) | with_reducible apply Keeps.ite | split)

theorem execBarMemoryRead_keeps (bar4 : Bool) (off : Nat) (len : Nat) (ecc : List Ecc) (s : State) : ∃ t, execBarMemoryRead bar4 off len ecc s = .next t ∧ Keeps s t := by
  have hk0 := Keeps.refl s
  refine ⟨_, rfl, ?_⟩
  try dsimp only
  repeat' first
    | with_reducible assumption
    | with_reducible apply settle_keeps
    | with_reducible apply hostRead_keeps
    | with_reducible apply Keeps.ite
    | intro _
    | (refine Keeps.mk' ?_ rfl rfl rfl rfl rfl rfl rfl rfl rfl; first | with_reducible assumption | with_reducible apply settle_keeps | with_reducible apply hostRead_keeps | with_reducible apply Keeps.ite | split)

theorem writeApHi_keeps  {z s : State} (w : Word) (hk0 : Keeps z s) : Keeps z (writeApHi s w) := by
  unfold writeApHi
  try dsimp only
  repeat' first
    | with_reducible assumption
    | with_reducible apply Keeps.ite
    | intro _
    | (refine Keeps.mk' ?_ rfl rfl rfl rfl rfl rfl rfl rfl rfl; first | with_reducible assumption | with_reducible apply Keeps.ite | split)

theorem execDramApertureHiWrite_keeps (w : Word) (s : State) : ∃ t, execDramApertureHiWrite w s = .next t ∧ Keeps s t := by
  have hk0 := Keeps.refl s
  refine ⟨_, rfl, ?_⟩
  try dsimp only
  repeat' first
    | with_reducible assumption
    | with_reducible apply writeApHi_keeps
    | with_reducible apply Keeps.ite
    | intro _
    | (refine Keeps.mk' ?_ rfl rfl rfl rfl rfl rfl rfl rfl rfl; first | with_reducible assumption | with_reducible apply writeApHi_keeps | with_reducible apply Keeps.ite | split)

theorem countUnassigned_keeps  {z s : State} (f : Nat) (write : Bool) (hk0 : Keeps z s) : Keeps z (countUnassigned s f write) := by
  unfold countUnassigned
  try dsimp only
  repeat' first
    | with_reducible assumption
    | with_reducible apply Keeps.ite
    | intro _
    | (refine Keeps.mk' ?_ rfl rfl rfl rfl rfl rfl rfl rfl rfl; first | with_reducible assumption | with_reducible apply Keeps.ite | split)

theorem execBar0UnassignedAccess_keeps (off : Nat) (write : Bool) (s : State) : ∃ t, execBar0UnassignedAccess off write s = .next t ∧ Keeps s t := by
  have hk0 := Keeps.refl s
  refine ⟨_, rfl, ?_⟩
  try dsimp only
  repeat' first
    | with_reducible assumption
    | with_reducible apply countUnassigned_keeps
    | with_reducible apply Keeps.ite
    | intro _
    | (refine Keeps.mk' ?_ rfl rfl rfl rfl rfl rfl rfl rfl rfl; first | with_reducible assumption | with_reducible apply countUnassigned_keeps | with_reducible apply Keeps.ite | split)

theorem dropReq_keeps  {z s : State} (id : Nat) (hk0 : Keeps z s) : Keeps z (dropReq s id) := by
  unfold dropReq
  try dsimp only
  repeat' first
    | with_reducible assumption
    | with_reducible apply Keeps.ite
    | intro _
    | (refine Keeps.mk' ?_ rfl rfl rfl rfl rfl rfl rfl rfl rfl; first | with_reducible assumption | with_reducible apply Keeps.ite | split)

theorem queueFrame_keeps  {z s : State} (typ : MType) (dst : BitVec 16) (reqId : Word) (arg : Word) (payload : List Byte) (hk0 : Keeps z s) : Keeps z (queueFrame s typ dst reqId arg payload) := by
  unfold queueFrame
  try dsimp only
  repeat' first
    | with_reducible assumption
    | with_reducible apply Keeps.ite
    | intro _
    | (refine Keeps.mk' ?_ rfl rfl rfl rfl rfl rfl rfl rfl rfl; first | with_reducible assumption | with_reducible apply Keeps.ite | split)

theorem standAt_keeps  {z s : State} (owner : Word) (p : Plan) (as : List Nat) (hk0 : Keeps z s) : Keeps z (standAt s owner p as) := by
  unfold standAt
  try dsimp only
  repeat' first
    | with_reducible assumption
    | with_reducible apply standRows_keeps
    | (with_reducible refine Keeps.foldl (fun s a hs => ?_) _ _ ?_)
    | with_reducible apply Keeps.ite
    | intro _
    | (refine Keeps.mk' ?_ rfl rfl rfl rfl rfl rfl rfl rfl rfl; first | with_reducible assumption | with_reducible apply standRows_keeps | (with_reducible refine Keeps.foldl (fun s a hs => ?_) _ _ ?_) | with_reducible apply Keeps.ite | split)

theorem ownerDone_keeps  {z s : State} (o : Word) (hk0 : Keeps z s) : Keeps z (ownerDone s o) := by
  unfold ownerDone
  try dsimp only
  repeat' first
    | with_reducible assumption
    | with_reducible apply tryDone_keeps
    | (with_reducible refine Keeps.foldl (fun s a hs => ?_) _ _ ?_)
    | with_reducible apply Keeps.ite
    | intro _
    | (refine Keeps.mk' ?_ rfl rfl rfl rfl rfl rfl rfl rfl rfl; first | with_reducible assumption | with_reducible apply tryDone_keeps | (with_reducible refine Keeps.foldl (fun s a hs => ?_) _ _ ?_) | with_reducible apply Keeps.ite | split)

theorem landEnds_keeps  {z s : State} (l : Land) (hk0 : Keeps z s) : Keeps z (landEnds s l) := by
  unfold landEnds
  try dsimp only
  repeat' first
    | with_reducible assumption
    | with_reducible apply afterStand_keeps
    | with_reducible apply standAt_keeps
    | with_reducible apply cascadeAll_keeps
    | with_reducible apply killJob_keeps
    | with_reducible apply queueFrame_keeps
    | with_reducible apply ownerDone_keeps
    | with_reducible apply Keeps.ite
    | intro _
    | (refine Keeps.mk' ?_ rfl rfl rfl rfl rfl rfl rfl rfl rfl; first | with_reducible assumption | with_reducible apply afterStand_keeps | with_reducible apply standAt_keeps | with_reducible apply cascadeAll_keeps | with_reducible apply killJob_keeps | with_reducible apply queueFrame_keeps | with_reducible apply ownerDone_keeps | with_reducible apply Keeps.ite | split)

theorem landCheck_keeps  {z s : State} (id : Nat) (hk0 : Keeps z s) : Keeps z (landCheck s id) := by
  unfold landCheck
  try dsimp only
  repeat' first
    | with_reducible assumption
    | with_reducible apply landEnds_keeps
    | with_reducible apply Keeps.ite
    | intro _
    | (refine Keeps.mk' ?_ rfl rfl rfl rfl rfl rfl rfl rfl rfl; first | with_reducible assumption | with_reducible apply landEnds_keeps | with_reducible apply Keeps.ite | split)

theorem landAck_keeps  {z s : State} (id : Nat) (bad : Bool) (hk0 : Keeps z s) : Keeps z (landAck s id bad) := by
  unfold landAck
  try dsimp only
  repeat' first
    | with_reducible assumption
    | with_reducible apply landCheck_keeps
    | with_reducible apply Keeps.ite
    | intro _
    | (refine Keeps.mk' ?_ rfl rfl rfl rfl rfl rfl rfl rfl rfl; first | with_reducible assumption | with_reducible apply landCheck_keeps | with_reducible apply Keeps.ite | split)

theorem land_keeps  {z s : State} (owner : Word) (rows : List Nat) (reply : Option (BitVec 16 × Word)) (a : Nat) (data : List Byte) (poisoned : List Nat) (hk0 : Keeps z s) : Keeps z (land s owner rows reply a data poisoned) := by
  unfold land
  try dsimp only
  repeat' first
    | with_reducible assumption
    | with_reducible apply markUnit_keeps
    | with_reducible apply store_keeps
    | with_reducible apply portWrite_keeps
    | with_reducible apply landCheck_keeps
    | (with_reducible refine Keeps.foldl (fun s a hs => ?_) _ _ ?_)
    | with_reducible apply Keeps.ite
    | intro _
    | (refine Keeps.mk' ?_ rfl rfl rfl rfl rfl rfl rfl rfl rfl; first | with_reducible assumption | with_reducible apply markUnit_keeps | with_reducible apply store_keeps | with_reducible apply portWrite_keeps | with_reducible apply landCheck_keeps | (with_reducible refine Keeps.foldl (fun s a hs => ?_) _ _ ?_) | with_reducible apply Keeps.ite | split)

theorem arrive_keeps  {z s : State} (x : Xfer) (off : Nat) (bs : List Byte) (bad : Bool) (hk0 : Keeps z s) : Keeps z (arrive s x off bs bad) := by
  unfold arrive
  try dsimp only
  repeat' first
    | with_reducible assumption
    | with_reducible apply modXfer_keeps
    | with_reducible apply deliver_keeps
    | with_reducible apply Keeps.ite
    | intro _
    | (refine Keeps.mk' ?_ rfl rfl rfl rfl rfl rfl rfl rfl rfl; first | with_reducible assumption | with_reducible apply modXfer_keeps | with_reducible apply deliver_keeps | with_reducible apply Keeps.ite | split)

theorem arriveAll_keeps  {z s : State} (id : Nat) (off : Nat) (r : Req) (data : Nat → Nat → List Byte) (bad : Nat → Nat → Bool) (hk0 : Keeps z s) : Keeps z (arriveAll s id off r data bad) := by
  unfold arriveAll
  try dsimp only
  repeat' first
    | with_reducible assumption
    | with_reducible apply arrive_keeps
    | (with_reducible refine Keeps.foldl (fun s a hs => ?_) _ _ ?_)
    | with_reducible apply Keeps.ite
    | intro _
    | (refine Keeps.mk' ?_ rfl rfl rfl rfl rfl rfl rfl rfl rfl; first | with_reducible assumption | with_reducible apply arrive_keeps | (with_reducible refine Keeps.foldl (fun s a hs => ?_) _ _ ?_) | with_reducible apply Keeps.ite | split)

theorem xferCheck_keeps  {z s : State} (id : Nat) (o : Nat → Ecc) (hk0 : Keeps z s) : Keeps z (xferCheck s id o) := by
  unfold xferCheck
  try dsimp only
  repeat' first
    | with_reducible assumption
    | with_reducible apply xferEnds_keeps
    | with_reducible apply Keeps.ite
    | intro _
    | (refine Keeps.mk' ?_ rfl rfl rfl rfl rfl rfl rfl rfl rfl; first | with_reducible assumption | with_reducible apply xferEnds_keeps | with_reducible apply Keeps.ite | split)

theorem respond_keeps  {z s : State} (r : Req) (ecc : List Ecc) (also : List (Nat × Ecc)) (hk0 : Keeps z s) : Keeps z (respond s r ecc also) := by
  unfold respond
  try dsimp only
  repeat' first
    | with_reducible assumption
    | with_reducible apply giveCredit_keeps
    | with_reducible apply dropReq_keeps
    | with_reducible apply readUnits_keeps
    | with_reducible apply arriveAll_keeps
    | with_reducible apply xferCheck_keeps
    | with_reducible apply landAck_keeps
    | with_reducible apply Keeps.ite
    | intro _
    | (refine Keeps.mk' ?_ rfl rfl rfl rfl rfl rfl rfl rfl rfl; first | with_reducible assumption | with_reducible apply giveCredit_keeps | with_reducible apply dropReq_keeps | with_reducible apply readUnits_keeps | with_reducible apply arriveAll_keeps | with_reducible apply xferCheck_keeps | with_reducible apply landAck_keeps | with_reducible apply Keeps.ite | split)

theorem lateAnswer_keeps {z s t : State} (id : Nat) (hk0 : Keeps z s) (ht : lateAnswer s id = some t) : Keeps z t := by
  unfold lateAnswer at ht
  split at ht
  · cases ht; exact Keeps.mk' hk0 rfl rfl rfl rfl rfl rfl rfl rfl rfl
  · split at ht
    · cases ht; exact setSrc_keeps _ (Keeps.mk' hk0 rfl rfl rfl rfl rfl rfl rfl rfl rfl)
    · cases ht
theorem Keeps.getD {z d : State} {o : Option State} (ho : ∀ t, o = some t → Keeps z t) (hd : Keeps z d) :
    Keeps z (o.getD d) := by
  cases o with
  | none => exact hd
  | some t => exact ho t rfl

theorem execFabricResponse_keeps (req : Nat) (ecc : List Ecc) (also : List (Nat × Ecc)) (s : State) :
    ∃ t, execFabricResponse req ecc s also = .next t ∧ Keeps s t := by
  have hk0 := Keeps.refl s
  refine ⟨_, rfl, ?_⟩
  apply settleUnits_keeps
  split
  · exact pumpPorts_keeps (respond_keeps _ _ _ hk0)
  · exact Keeps.getD (fun _ h => lateAnswer_keeps _ hk0 h) (creditViolation_keeps hk0)

theorem execLateResponse_keeps (req : Nat) (s : State) : ∃ t, execLateResponse req s = .next t ∧ Keeps s t :=
  ⟨_, rfl, Keeps.getD (fun _ h => lateAnswer_keeps _ (Keeps.refl s) h) (Keeps.refl s)⟩

theorem failIngress_keeps  {z s : State} (i : Nat) (seq : Word) (hk0 : Keeps z s) : Keeps z (failIngress s i seq) := by
  unfold failIngress
  try dsimp only
  repeat' first
    | with_reducible assumption
    | with_reducible apply dropCur_keeps
    | with_reducible apply dropKept_keeps
    | with_reducible apply Keeps.ite
    | intro _
    | (refine Keeps.mk' ?_ rfl rfl rfl rfl rfl rfl rfl rfl rfl; first | with_reducible assumption | with_reducible apply dropCur_keeps | with_reducible apply dropKept_keeps | with_reducible apply Keeps.ite | split)

theorem timeOut_keeps  {z s : State} (r : Req) (hk0 : Keeps z s) : Keeps z (timeOut s r) := by
  unfold timeOut
  try dsimp only
  repeat' first
    | with_reducible assumption
    | with_reducible apply xferCheck_keeps
    | with_reducible apply killJob_keeps
    | with_reducible apply arriveAll_keeps
    | with_reducible apply failIngress_keeps
    | with_reducible apply landAck_keeps
    | with_reducible apply Keeps.ite
    | intro _
    | (refine Keeps.mk' ?_ rfl rfl rfl rfl rfl rfl rfl rfl rfl; first | with_reducible assumption | with_reducible apply xferCheck_keeps | with_reducible apply killJob_keeps | with_reducible apply arriveAll_keeps | with_reducible apply failIngress_keeps | with_reducible apply landAck_keeps | with_reducible apply Keeps.ite | split)

theorem execFabricTimeout_keeps (req : Nat) (s : State) : ∃ t, execFabricTimeout req s = .next t ∧ Keeps s t := by
  have hk0 := Keeps.refl s
  refine ⟨_, rfl, ?_⟩
  try dsimp only
  repeat' first
    | with_reducible assumption
    | with_reducible apply giveCredit_keeps
    | with_reducible apply dropReq_keeps
    | with_reducible apply setSrc_keeps
    | with_reducible apply settleUnits_keeps
    | with_reducible apply pumpPorts_keeps
    | with_reducible apply timeOut_keeps
    | with_reducible apply Keeps.ite
    | intro _
    | (refine Keeps.mk' ?_ rfl rfl rfl rfl rfl rfl rfl rfl rfl; first | with_reducible assumption | with_reducible apply giveCredit_keeps | with_reducible apply dropReq_keeps | with_reducible apply setSrc_keeps | with_reducible apply settleUnits_keeps | with_reducible apply pumpPorts_keeps | with_reducible apply timeOut_keeps | with_reducible apply Keeps.ite | split)

theorem poolsFit_modAt {f : Pool → Pool} (hf : ∀ p, poolsFit [p] = true → poolsFit [f p] = true) :
    ∀ (l : List Pool) (n : Nat), poolsFit l = true → poolsFit (modAt l n f) = true
  | [], _, h => h
  | x :: r, 0, h => by
    simp only [poolsFit, modAt, List.all_cons, List.all_nil, Bool.and_true, Bool.and_eq_true] at hf h ⊢
    exact ⟨by simpa using hf x (by simpa using h.1), h.2⟩
  | x :: r, n + 1, h => by
    have ih := poolsFit_modAt hf r n
    simp only [poolsFit, modAt, List.all_cons, Bool.and_eq_true] at h ih ⊢
    exact ⟨h.1, ih h.2⟩
theorem execCreditEpochCheck_keeps (pool : Nat) (s : State) : ∃ t, execCreditEpochCheck pool s = .next t ∧ Keeps s t := by
  refine ⟨_, rfl, ?_⟩
  split
  · exact Keeps.refl s
  · refine Keeps.ite (fun _ => Keeps.refl s) (fun _ => ?_)
    dsimp only
    have h1 : Keeps s { s with cr := { s.cr with pools := (modAt s.cr.pools pool
        (fun q => if s.ms.epoch then { q with iss0 := 0, ret0 := 0 } else { q with iss1 := 0, ret1 := 0 })) } } := by
      refine ⟨rfl, rfl, id, id, id, fun h => poolsFit_modAt (fun p hp => ?_) _ _ h⟩
      simp only [poolsFit, List.all_cons, List.all_nil, Bool.and_true, Bool.and_eq_true, decide_eq_true_eq] at hp ⊢
      split <;> simp_all
    exact Keeps.ite (fun _ => h1) (fun _ => settle_keeps _ (creditViolation_keeps h1))

theorem doScrubRange_keeps  {z s : State} (k : Pkt) (hk0 : Keeps z s) : Keeps z (doScrubRange k s).1 := by
  unfold doScrubRange
  try dsimp only
  repeat' first
    | with_reducible assumption
    | with_reducible apply badWord_keeps
    | with_reducible apply refuse_keeps
    | with_reducible apply issueCmd_keeps
    | with_reducible apply units_keeps
    | with_reducible apply Keeps.ite
    | with_reducible apply Keeps.ite1
    | split
    | (dsimp only)
    | intro _
    | (refine Keeps.mk' ?_ rfl rfl rfl rfl rfl rfl rfl rfl rfl; first | with_reducible assumption | with_reducible apply badWord_keeps | with_reducible apply refuse_keeps | with_reducible apply issueCmd_keeps | with_reducible apply units_keeps | with_reducible apply Keeps.ite | with_reducible apply Keeps.ite1 | split | (dsimp only) | split)

theorem execScrubRange_keeps (k : Pkt) (s : State) : ∃ t, execScrubRange k s = .next t ∧ Keeps s t := by
  have hk0 := Keeps.refl s
  refine ⟨_, rfl, ?_⟩
  try dsimp only
  repeat' first
    | with_reducible assumption
    | with_reducible apply command_keeps
    | with_reducible apply doScrubRange_keeps
    | with_reducible apply Keeps.ite
    | intro _
    | (refine Keeps.mk' ?_ rfl rfl rfl rfl rfl rfl rfl rfl rfl; first | with_reducible assumption | with_reducible apply command_keeps | with_reducible apply doScrubRange_keeps | with_reducible apply Keeps.ite | split)

theorem setHeadScrub_keeps  {z s : State} (x : Scrub) (hk0 : Keeps z s) : Keeps z (setHeadScrub s x) := by
  unfold setHeadScrub
  try dsimp only
  repeat' first
    | with_reducible assumption
    | with_reducible apply Keeps.ite
    | intro _
    | (refine Keeps.mk' ?_ rfl rfl rfl rfl rfl rfl rfl rfl rfl; first | with_reducible assumption | with_reducible apply Keeps.ite | split)

theorem execScrubPassResume_keeps  (s : State) : ∃ t, execScrubPassResume s = .next t ∧ Keeps s t := by
  have hk0 := Keeps.refl s
  refine ⟨_, rfl, ?_⟩
  try dsimp only
  repeat' first
    | with_reducible assumption
    | with_reducible apply setHeadScrub_keeps
    | with_reducible apply Keeps.ite
    | intro _
    | (refine Keeps.mk' ?_ rfl rfl rfl rfl rfl rfl rfl rfl rfl; first | with_reducible assumption | with_reducible apply setHeadScrub_keeps | with_reducible apply Keeps.ite | split)

theorem checkUnit_keeps  {z s : State} (u : Nat) (ecc : Ecc) (hk0 : Keeps z s) : Keeps z (checkUnit s u ecc).1 := by
  unfold checkUnit
  try dsimp only
  repeat' first
    | with_reducible assumption
    | with_reducible apply eccRead_keeps
    | with_reducible apply Keeps.ite
    | with_reducible apply Keeps.ite1
    | split
    | (dsimp only)
    | intro _
    | (refine Keeps.mk' ?_ rfl rfl rfl rfl rfl rfl rfl rfl rfl; first | with_reducible assumption | with_reducible apply eccRead_keeps | with_reducible apply Keeps.ite | with_reducible apply Keeps.ite1 | split | (dsimp only) | split)

theorem checkUnits_keeps {z : State} : ∀ (l : List Nat) (ecc : List Ecc) {s : State} (x : Scrub), Keeps z s →
    Keeps z (checkUnits l ecc s x).1
  | [], _, _, _, hk0 => hk0
  | u :: r, ecc, s, x, hk0 => by
    unfold checkUnits
    dsimp only
    exact checkUnits_keeps r _ _ (checkUnit_keeps _ _ hk0)

theorem execScrubUnitCheck_keeps (ecc : List Ecc) (s : State) : ∃ t, execScrubUnitCheck ecc s = .next t ∧ Keeps s t := by
  have hk0 := Keeps.refl s
  refine ⟨_, rfl, ?_⟩
  try dsimp only
  repeat' first
    | with_reducible assumption
    | with_reducible apply passReq_keeps
    | with_reducible apply passTimeout_keeps
    | with_reducible apply checkUnits_keeps
    | with_reducible apply settle_keeps
    | with_reducible apply finishTok_keeps
    | with_reducible apply setHeadScrub_keeps
    | with_reducible apply Keeps.ite
    | intro _
    | (refine Keeps.mk' ?_ rfl rfl rfl rfl rfl rfl rfl rfl rfl; first | with_reducible assumption | with_reducible apply passReq_keeps | with_reducible apply passTimeout_keeps | with_reducible apply checkUnits_keeps | with_reducible apply settle_keeps | with_reducible apply finishTok_keeps | with_reducible apply setHeadScrub_keeps | with_reducible apply Keeps.ite | split)

theorem rotateRing_keeps {z s : State} (k : Nat) (hk0 : Keeps z s) : Keeps z (rotateRing s k) := by
  unfold rotateRing
  exact Keeps.mkMem hk0 rfl rfl (fun w => Mem.foldl_set_wf _ _ _ _ (Mem.filter_wf _ _ w)) id rfl rfl rfl rfl rfl

theorem execRingShiftStart_keeps  (s : State) : ∃ t, execRingShiftStart s = .next t ∧ Keeps s t := by
  have hk0 := Keeps.refl s
  refine ⟨_, rfl, ?_⟩
  try dsimp only
  repeat' first
    | with_reducible assumption
    | with_reducible apply Keeps.ite
    | intro _
    | (refine Keeps.mk' ?_ rfl rfl rfl rfl rfl rfl rfl rfl rfl; first | with_reducible assumption | with_reducible apply Keeps.ite | split)

theorem execRingShiftEnd_keeps (ecc : List (Nat × Ecc)) (s : State) : ∃ t, execRingShiftEnd s ecc = .next t ∧ Keeps s t := by
  have hk0 := Keeps.refl s
  refine ⟨_, rfl, ?_⟩
  try dsimp only
  repeat' first
    | with_reducible assumption
    | with_reducible apply rotateRing_keeps
    | with_reducible apply eccRead_keeps
    | with_reducible apply settleUnits_keeps
    | with_reducible apply afterStand_keeps
    | (with_reducible refine Keeps.foldl (fun s a hs => ?_) _ _ ?_)
    | with_reducible apply Keeps.ite
    | intro _
    | (refine Keeps.mk' ?_ rfl rfl rfl rfl rfl rfl rfl rfl rfl; first | with_reducible assumption | with_reducible apply rotateRing_keeps | with_reducible apply eccRead_keeps | with_reducible apply settleUnits_keeps | with_reducible apply afterStand_keeps | (with_reducible refine Keeps.foldl (fun s a hs => ?_) _ _ ?_) | with_reducible apply Keeps.ite | split)

theorem loadPiece_keeps  {z s : State} (o : Nat → Ecc) (n : Nat) (x : Nat × Nat) (hk0 : Keeps z s) : Keeps z (loadPiece o n s x) := by
  unfold loadPiece
  try dsimp only
  repeat' first
    | with_reducible assumption
    | with_reducible apply giveOne_keeps
    | with_reducible apply portRead_keeps
    | with_reducible apply takeCredit_keeps
    | with_reducible apply Keeps.ite
    | intro _
    | (refine Keeps.mk' ?_ rfl rfl rfl rfl rfl rfl rfl rfl rfl; first | with_reducible assumption | with_reducible apply giveOne_keeps | with_reducible apply portRead_keeps | with_reducible apply takeCredit_keeps | with_reducible apply Keeps.ite | split)

theorem loadSlice_keeps {z s : State} (p : Plan) (ecc : List (Nat × Ecc)) (n : Nat) (hk0 : Keeps z s) :
    Keeps z (loadSlice p ecc s n) := by
  unfold loadSlice
  dsimp only
  refine Keeps.mkMem (Keeps.foldl (fun _ _ hs => loadPiece_keeps _ _ _ hs) _ _ hk0) rfl rfl (fun w => copyRegion_wf _ _ _ _ w) id rfl rfl rfl rfl rfl

theorem execResidentLoadDone_keeps (ecc : List (Nat × Ecc)) (s : State) : ∃ t, execResidentLoadDone s ecc = .next t ∧ Keeps s t := by
  have hk0 := Keeps.refl s
  refine ⟨_, rfl, ?_⟩
  try dsimp only
  repeat' first
    | with_reducible assumption
    | with_reducible apply loadSlice_keeps
    | with_reducible apply settleUnits_keeps
    | with_reducible apply afterStand_keeps
    | (with_reducible refine Keeps.foldl (fun s a hs => ?_) _ _ ?_)
    | with_reducible apply Keeps.ite
    | intro _
    | (refine Keeps.mk' ?_ rfl rfl rfl rfl rfl rfl rfl rfl rfl; first | with_reducible assumption | with_reducible apply loadSlice_keeps | with_reducible apply settleUnits_keeps | with_reducible apply afterStand_keeps | (with_reducible refine Keeps.foldl (fun s a hs => ?_) _ _ ?_) | with_reducible apply Keeps.ite | split)

theorem repairRing_keeps  {z s : State} (o : Nat → Ecc) (hk0 : Keeps z s) : Keeps z (repairRing s o) := by
  unfold repairRing
  try dsimp only
  repeat' first
    | with_reducible assumption
    | with_reducible apply moveBytes_keeps
    | (with_reducible refine Keeps.foldl (fun s a hs => ?_) _ _ ?_)
    | with_reducible apply Keeps.ite
    | intro _
    | (refine Keeps.mk' ?_ rfl rfl rfl rfl rfl rfl rfl rfl rfl; first | with_reducible assumption | with_reducible apply moveBytes_keeps | (with_reducible refine Keeps.foldl (fun s a hs => ?_) _ _ ?_) | with_reducible apply Keeps.ite | split)

end Sys2Proof.Machine
end

