-- ==== Sys2Proof/Laws/Keeps/Security.lean ====
section
/-! SUPPORT. What the definitions of Machine/Security.lean keep (Laws/Keeps.lean). -/

set_option linter.unusedTactic false
set_option linter.unreachableTactic false
set_option linter.unusedVariables false

namespace Sys2Proof.Machine

theorem doEcho_keeps  {z s : State} (k : Pkt) (hk0 : Keeps z s) : Keeps z (doEcho k s).1 := by
  unfold doEcho
  try dsimp only
  repeat' first
    | with_reducible assumption
    | with_reducible apply Keeps.ite
    | with_reducible apply Keeps.ite1
    | split
    | (dsimp only)
    | intro _
    | (refine Keeps.mk' ?_ rfl rfl rfl rfl rfl rfl rfl rfl rfl; first | with_reducible assumption | with_reducible apply Keeps.ite | with_reducible apply Keeps.ite1 | split | (dsimp only) | split)

theorem execEcho_keeps (k : Pkt) (s : State) : ∃ t, execEcho k s = .next t ∧ Keeps s t := by
  have hk0 := Keeps.refl s
  refine ⟨_, rfl, ?_⟩
  try dsimp only
  repeat' first
    | with_reducible assumption
    | with_reducible apply command_keeps
    | with_reducible apply doEcho_keeps
    | with_reducible apply Keeps.ite
    | intro _
    | (refine Keeps.mk' ?_ rfl rfl rfl rfl rfl rfl rfl rfl rfl; first | with_reducible assumption | with_reducible apply command_keeps | with_reducible apply doEcho_keeps | with_reducible apply Keeps.ite | split)

theorem doGetInfo_keeps  {z s : State} (_k : Pkt) (hk0 : Keeps z s) : Keeps z (doGetInfo _k s).1 := by
  unfold doGetInfo
  try dsimp only
  repeat' first
    | with_reducible assumption
    | with_reducible apply Keeps.ite
    | with_reducible apply Keeps.ite1
    | split
    | (dsimp only)
    | intro _
    | (refine Keeps.mk' ?_ rfl rfl rfl rfl rfl rfl rfl rfl rfl; first | with_reducible assumption | with_reducible apply Keeps.ite | with_reducible apply Keeps.ite1 | split | (dsimp only) | split)

theorem execGetInfo_keeps (k : Pkt) (s : State) : ∃ t, execGetInfo k s = .next t ∧ Keeps s t := by
  have hk0 := Keeps.refl s
  refine ⟨_, rfl, ?_⟩
  try dsimp only
  repeat' first
    | with_reducible assumption
    | with_reducible apply command_keeps
    | with_reducible apply doGetInfo_keeps
    | with_reducible apply Keeps.ite
    | intro _
    | (refine Keeps.mk' ?_ rfl rfl rfl rfl rfl rfl rfl rfl rfl; first | with_reducible assumption | with_reducible apply command_keeps | with_reducible apply doGetInfo_keeps | with_reducible apply Keeps.ite | split)

theorem doGetStatus_keeps  {z s : State} (_k : Pkt) (hk0 : Keeps z s) : Keeps z (doGetStatus _k s).1 := by
  unfold doGetStatus
  try dsimp only
  repeat' first
    | with_reducible assumption
    | with_reducible apply Keeps.ite
    | with_reducible apply Keeps.ite1
    | split
    | (dsimp only)
    | intro _
    | (refine Keeps.mk' ?_ rfl rfl rfl rfl rfl rfl rfl rfl rfl; first | with_reducible assumption | with_reducible apply Keeps.ite | with_reducible apply Keeps.ite1 | split | (dsimp only) | split)

theorem execGetStatus_keeps (k : Pkt) (s : State) : ∃ t, execGetStatus k s = .next t ∧ Keeps s t := by
  have hk0 := Keeps.refl s
  refine ⟨_, rfl, ?_⟩
  try dsimp only
  repeat' first
    | with_reducible assumption
    | with_reducible apply command_keeps
    | with_reducible apply doGetStatus_keeps
    | with_reducible apply Keeps.ite
    | intro _
    | (refine Keeps.mk' ?_ rfl rfl rfl rfl rfl rfl rfl rfl rfl; first | with_reducible assumption | with_reducible apply command_keeps | with_reducible apply doGetStatus_keeps | with_reducible apply Keeps.ite | split)

theorem doLoadFirmware_keeps  {z s : State} (k : Pkt) (hk0 : Keeps z s) : Keeps z (doLoadFirmware k s).1 := by
  unfold doLoadFirmware
  try dsimp only
  repeat' first
    | with_reducible assumption
    | with_reducible apply badWord_keeps
    | with_reducible apply refuse_keeps
    | with_reducible apply issueCmd_keeps
    | with_reducible apply Keeps.ite
    | with_reducible apply Keeps.ite1
    | split
    | (dsimp only)
    | intro _
    | (refine Keeps.mk' ?_ rfl rfl rfl rfl rfl rfl rfl rfl rfl; first | with_reducible assumption | with_reducible apply badWord_keeps | with_reducible apply refuse_keeps | with_reducible apply issueCmd_keeps | with_reducible apply Keeps.ite | with_reducible apply Keeps.ite1 | split | (dsimp only) | split)

theorem execLoadFirmware_keeps (k : Pkt) (s : State) : ∃ t, execLoadFirmware k s = .next t ∧ Keeps s t := by
  have hk0 := Keeps.refl s
  refine ⟨_, rfl, ?_⟩
  try dsimp only
  repeat' first
    | with_reducible assumption
    | with_reducible apply command_keeps
    | with_reducible apply doLoadFirmware_keeps
    | with_reducible apply Keeps.ite
    | intro _
    | (refine Keeps.mk' ?_ rfl rfl rfl rfl rfl rfl rfl rfl rfl; first | with_reducible assumption | with_reducible apply command_keeps | with_reducible apply doLoadFirmware_keeps | with_reducible apply Keeps.ite | split)

theorem execFuseProgrammingDone_keeps  (s : State) : ∃ t, execFuseProgrammingDone s = .next t ∧ Keeps s t := by
  have hk0 := Keeps.refl s
  refine ⟨_, rfl, ?_⟩
  try dsimp only
  repeat' first
    | with_reducible assumption
    | with_reducible apply startWarm_keeps
    | with_reducible apply Keeps.ite
    | intro _
    | (refine Keeps.mk' ?_ rfl rfl rfl rfl rfl rfl rfl rfl rfl; first | with_reducible assumption | with_reducible apply startWarm_keeps | with_reducible apply Keeps.ite | split)

theorem tokenFail_keeps  {z s : State} (row : Nat) (hk0 : Keeps z s) : Keeps z (tokenFail s row) := by
  unfold tokenFail
  try dsimp only
  repeat' first
    | with_reducible assumption
    | with_reducible apply Keeps.ite
    | intro _
    | (refine Keeps.mk' ?_ rfl rfl rfl rfl rfl rfl rfl rfl rfl; first | with_reducible assumption | with_reducible apply Keeps.ite | split)

theorem verifyToken_keeps  {z s : State} (bs : List Byte) (hk0 : Keeps z s) : Keeps z (verifyToken s bs) := by
  unfold verifyToken
  try dsimp only
  repeat' first
    | with_reducible assumption
    | with_reducible apply tokenFail_keeps
    | with_reducible apply sigCount_keeps
    | with_reducible apply Keeps.ite
    | intro _
    | (refine Keeps.mk' ?_ rfl rfl rfl rfl rfl rfl rfl rfl rfl; first | with_reducible assumption | with_reducible apply tokenFail_keeps | with_reducible apply sigCount_keeps | with_reducible apply Keeps.ite | split)

theorem captureDr_keeps  {z s : State}  (hk0 : Keeps z s) : Keeps z (captureDr s) := by
  unfold captureDr
  try dsimp only
  repeat' first
    | with_reducible assumption
    | with_reducible apply Keeps.ite
    | intro _
    | (refine Keeps.mk' ?_ rfl rfl rfl rfl rfl rfl rfl rfl rfl; first | with_reducible assumption | with_reducible apply Keeps.ite | split)

theorem execTokenDrWord_keeps (w : Word) (s : State) : ∃ t, execTokenDrWord w s = .next t ∧ Keeps s t := by
  have hk0 := Keeps.refl s
  refine ⟨_, rfl, ?_⟩
  try dsimp only
  repeat' first
    | with_reducible assumption
    | with_reducible apply captureDr_keeps
    | with_reducible apply settle_keeps
    | with_reducible apply tokenFail_keeps
    | with_reducible apply sigCount_keeps
    | with_reducible apply verifyToken_keeps
    | with_reducible apply Keeps.ite
    | intro _
    | (refine Keeps.mk' ?_ rfl rfl rfl rfl rfl rfl rfl rfl rfl; first | with_reducible assumption | with_reducible apply captureDr_keeps | with_reducible apply settle_keeps | with_reducible apply tokenFail_keeps | with_reducible apply sigCount_keeps | with_reducible apply verifyToken_keeps | with_reducible apply Keeps.ite | split)

theorem tokenDone_keeps  {z s : State}  (hk0 : Keeps z s) : Keeps z (tokenDone s) := by
  unfold tokenDone
  try dsimp only
  repeat' first
    | with_reducible assumption
    | with_reducible apply Keeps.ite
    | intro _
    | (refine Keeps.mk' ?_ rfl rfl rfl rfl rfl rfl rfl rfl rfl; first | with_reducible assumption | with_reducible apply Keeps.ite | split)

theorem execDebugUnlock_keeps  (s : State) : ∃ t, execDebugUnlock s = .next t ∧ Keeps s t := by
  have hk0 := Keeps.refl s
  refine ⟨_, rfl, ?_⟩
  try dsimp only
  repeat' first
    | with_reducible assumption
    | with_reducible apply tokenFail_keeps
    | with_reducible apply tokenDone_keeps
    | with_reducible apply Keeps.ite
    | intro _
    | (refine Keeps.mk' ?_ rfl rfl rfl rfl rfl rfl rfl rfl rfl; first | with_reducible assumption | with_reducible apply tokenFail_keeps | with_reducible apply tokenDone_keeps | with_reducible apply Keeps.ite | split)

theorem execLcAdvance_keeps  (s : State) : ∃ t, execLcAdvance s = .next t ∧ Keeps s t := by
  have hk0 := Keeps.refl s
  refine ⟨_, rfl, ?_⟩
  try dsimp only
  repeat' first
    | with_reducible assumption
    | with_reducible apply tokenFail_keeps
    | with_reducible apply tokenDone_keeps
    | with_reducible apply Keeps.ite
    | intro _
    | (refine Keeps.mk' ?_ rfl rfl rfl rfl rfl rfl rfl rfl rfl; first | with_reducible assumption | with_reducible apply tokenFail_keeps | with_reducible apply tokenDone_keeps | with_reducible apply Keeps.ite | split)

theorem execAddOwner_keeps  (s : State) : ∃ t, execAddOwner s = .next t ∧ Keeps s t := by
  have hk0 := Keeps.refl s
  refine ⟨_, rfl, ?_⟩
  try dsimp only
  repeat' first
    | with_reducible assumption
    | with_reducible apply tokenFail_keeps
    | with_reducible apply tokenDone_keeps
    | with_reducible apply Keeps.ite
    | intro _
    | (refine Keeps.mk' ?_ rfl rfl rfl rfl rfl rfl rfl rfl rfl; first | with_reducible assumption | with_reducible apply tokenFail_keeps | with_reducible apply tokenDone_keeps | with_reducible apply Keeps.ite | split)

theorem execJtagInstructionUpdate_keeps (code : Byte) (tapReset : Bool) (s : State) : ∃ t, execJtagInstructionUpdate code tapReset s = .next t ∧ Keeps s t := by
  have hk0 := Keeps.refl s
  refine ⟨_, rfl, ?_⟩
  try dsimp only
  repeat' first
    | with_reducible assumption
    | with_reducible apply captureDr_keeps
    | with_reducible apply startWarm_keeps
    | with_reducible apply Keeps.ite
    | intro _
    | (refine Keeps.mk' ?_ rfl rfl rfl rfl rfl rfl rfl rfl rfl; first | with_reducible assumption | with_reducible apply captureDr_keeps | with_reducible apply startWarm_keeps | with_reducible apply Keeps.ite | split)

theorem doGetCerts_keeps  {z s : State} (k : Pkt) (hk0 : Keeps z s) : Keeps z (doGetCerts k s).1 := by
  unfold doGetCerts
  try dsimp only
  repeat' first
    | with_reducible assumption
    | with_reducible apply badWord_keeps
    | with_reducible apply Keeps.ite
    | with_reducible apply Keeps.ite1
    | split
    | (dsimp only)
    | intro _
    | (refine Keeps.mk' ?_ rfl rfl rfl rfl rfl rfl rfl rfl rfl; first | with_reducible assumption | with_reducible apply badWord_keeps | with_reducible apply Keeps.ite | with_reducible apply Keeps.ite1 | split | (dsimp only) | split)

theorem execGetCerts_keeps (k : Pkt) (s : State) : ∃ t, execGetCerts k s = .next t ∧ Keeps s t := by
  have hk0 := Keeps.refl s
  refine ⟨_, rfl, ?_⟩
  try dsimp only
  repeat' first
    | with_reducible assumption
    | with_reducible apply command_keeps
    | with_reducible apply doGetCerts_keeps
    | with_reducible apply Keeps.ite
    | intro _
    | (refine Keeps.mk' ?_ rfl rfl rfl rfl rfl rfl rfl rfl rfl; first | with_reducible assumption | with_reducible apply command_keeps | with_reducible apply doGetCerts_keeps | with_reducible apply Keeps.ite | split)

theorem doAttest_keeps  {z s : State} (k : Pkt) (hk0 : Keeps z s) : Keeps z (doAttest k s).1 := by
  unfold doAttest
  try dsimp only
  repeat' first
    | with_reducible assumption
    | with_reducible apply refuse_keeps
    | with_reducible apply Keeps.ite
    | with_reducible apply Keeps.ite1
    | split
    | (dsimp only)
    | intro _
    | (refine Keeps.mk' ?_ rfl rfl rfl rfl rfl rfl rfl rfl rfl; first | with_reducible assumption | with_reducible apply refuse_keeps | with_reducible apply Keeps.ite | with_reducible apply Keeps.ite1 | split | (dsimp only) | split)

theorem execAttest_keeps (k : Pkt) (s : State) : ∃ t, execAttest k s = .next t ∧ Keeps s t := by
  have hk0 := Keeps.refl s
  refine ⟨_, rfl, ?_⟩
  try dsimp only
  repeat' first
    | with_reducible assumption
    | with_reducible apply command_keeps
    | with_reducible apply doAttest_keeps
    | with_reducible apply Keeps.ite
    | intro _
    | (refine Keeps.mk' ?_ rfl rfl rfl rfl rfl rfl rfl rfl rfl; first | with_reducible assumption | with_reducible apply command_keeps | with_reducible apply doAttest_keeps | with_reducible apply Keeps.ite | split)

end Sys2Proof.Machine
end

