-- ==== Sys2Proof/Laws/Keeps/Sets.lean ====
section
/-! SUPPORT. What the definitions of Machine/Sets.lean keep (Laws/Keeps.lean). -/

set_option linter.unusedTactic false
set_option linter.unreachableTactic false
set_option linter.unusedVariables false

namespace Sys2Proof.Machine

theorem doLoadObject_keeps  {z s : State} (k : Pkt) (hk0 : Keeps z s) : Keeps z (doLoadObject k s).1 := by
  unfold doLoadObject
  try dsimp only
  repeat' first
    | with_reducible assumption
    | with_reducible apply badWord_keeps
    | with_reducible apply refuse_keeps
    | with_reducible apply setSlot_keeps
    | with_reducible apply Keeps.ite
    | with_reducible apply Keeps.ite1
    | split
    | (dsimp only)
    | intro _
    | (refine Keeps.mk' ?_ rfl rfl rfl rfl rfl rfl rfl rfl rfl; first | with_reducible assumption | with_reducible apply badWord_keeps | with_reducible apply refuse_keeps | with_reducible apply setSlot_keeps | with_reducible apply Keeps.ite | with_reducible apply Keeps.ite1 | split | (dsimp only) | split)

theorem execLoadObject_keeps (k : Pkt) (s : State) : ∃ t, execLoadObject k s = .next t ∧ Keeps s t := by
  have hk0 := Keeps.refl s
  refine ⟨_, rfl, ?_⟩
  try dsimp only
  repeat' first
    | with_reducible assumption
    | with_reducible apply command_keeps
    | with_reducible apply doLoadObject_keeps
    | with_reducible apply Keeps.ite
    | intro _
    | (refine Keeps.mk' ?_ rfl rfl rfl rfl rfl rfl rfl rfl rfl; first | with_reducible assumption | with_reducible apply command_keeps | with_reducible apply doLoadObject_keeps | with_reducible apply Keeps.ite | split)

theorem doVerifyObject_keeps  {z s : State} (k : Pkt) (hk0 : Keeps z s) : Keeps z (doVerifyObject k s).1 := by
  unfold doVerifyObject
  try dsimp only
  repeat' first
    | with_reducible assumption
    | with_reducible apply badWord_keeps
    | with_reducible apply refuse_keeps
    | with_reducible apply issueCmd_keeps
    | with_reducible apply setSlot_keeps
    | with_reducible apply Keeps.ite
    | with_reducible apply Keeps.ite1
    | split
    | (dsimp only)
    | intro _
    | (refine Keeps.mk' ?_ rfl rfl rfl rfl rfl rfl rfl rfl rfl; first | with_reducible assumption | with_reducible apply badWord_keeps | with_reducible apply refuse_keeps | with_reducible apply issueCmd_keeps | with_reducible apply setSlot_keeps | with_reducible apply Keeps.ite | with_reducible apply Keeps.ite1 | split | (dsimp only) | split)

theorem execVerifyObject_keeps (k : Pkt) (s : State) : ∃ t, execVerifyObject k s = .next t ∧ Keeps s t := by
  have hk0 := Keeps.refl s
  refine ⟨_, rfl, ?_⟩
  try dsimp only
  repeat' first
    | with_reducible assumption
    | with_reducible apply command_keeps
    | with_reducible apply doVerifyObject_keeps
    | with_reducible apply Keeps.ite
    | intro _
    | (refine Keeps.mk' ?_ rfl rfl rfl rfl rfl rfl rfl rfl rfl; first | with_reducible assumption | with_reducible apply command_keeps | with_reducible apply doVerifyObject_keeps | with_reducible apply Keeps.ite | split)

theorem verifyKinds_keeps {z : State} (x : Slot) : ∀ (l : List Nat) {s : State}, Keeps z s → Keeps z (verifyKinds x l s).1
  | [], _, hk0 => hk0
  | i :: r, s, hk0 => by
    unfold verifyKinds
    dsimp only
    split
    · dsimp only; exact sigCount_keeps _ hk0
    · refine verifyKinds_keeps x r ?_
      split
      · exact hk0
      · exact sigCount_keeps _ hk0

theorem readSlot_keeps  {z s : State} (x : Slot) (o : Nat → Ecc) (f : State → State) (hb : ∀ x, Keeps z x → Keeps z (f x)) (hk0 : Keeps z s) : Keeps z (readSlot s x o f) := by
  unfold readSlot
  try dsimp only
  repeat' first
    | with_reducible assumption
    | with_reducible apply pairAGo_keeps
    | with_reducible apply hb
    | with_reducible apply Keeps.ite
    | intro _
    | (refine Keeps.mk' ?_ rfl rfl rfl rfl rfl rfl rfl rfl rfl; first | with_reducible assumption | with_reducible apply pairAGo_keeps | with_reducible apply hb | with_reducible apply Keeps.ite | split)

theorem verifyDone_keeps  {z s : State} (b : Bool) (hk0 : Keeps z s) : Keeps z (verifyDone s b) := by
  unfold verifyDone
  try dsimp only
  repeat' first
    | with_reducible assumption
    | with_reducible apply verifyKinds_keeps
    | with_reducible apply sigCount_keeps
    | with_reducible apply finishTok_keeps
    | with_reducible apply setSlot_keeps
    | with_reducible apply Keeps.ite
    | intro _
    | (refine Keeps.mk' ?_ rfl rfl rfl rfl rfl rfl rfl rfl rfl; first | with_reducible assumption | with_reducible apply verifyKinds_keeps | with_reducible apply sigCount_keeps | with_reducible apply finishTok_keeps | with_reducible apply setSlot_keeps | with_reducible apply Keeps.ite | split)

theorem execVerifyObjectDone_keeps (slot : Bool) (ecc : List (Nat × Ecc)) (s : State) : ∃ t, execVerifyObjectDone slot s ecc = .next t ∧ Keeps s t := by
  have hk0 := Keeps.refl s
  refine ⟨_, rfl, ?_⟩
  try dsimp only
  repeat' first
    | with_reducible assumption
    | with_reducible apply settle_keeps
    | with_reducible apply readSlot_keeps
    | with_reducible apply verifyDone_keeps
    | with_reducible apply Keeps.ite
    | intro _
    | (refine Keeps.mk' ?_ rfl rfl rfl rfl rfl rfl rfl rfl rfl; first | with_reducible assumption | with_reducible apply settle_keeps | with_reducible apply readSlot_keeps | with_reducible apply verifyDone_keeps | with_reducible apply Keeps.ite | split)

theorem doCommitShadow_keeps  {z s : State} (k : Pkt) (hk0 : Keeps z s) : Keeps z (doCommitShadow k s).1 := by
  unfold doCommitShadow
  try dsimp only
  repeat' first
    | with_reducible assumption
    | with_reducible apply badWord_keeps
    | with_reducible apply refuse_keeps
    | with_reducible apply issueCmd_keeps
    | with_reducible apply setSlot_keeps
    | with_reducible apply Keeps.ite
    | with_reducible apply Keeps.ite1
    | split
    | (dsimp only)
    | intro _
    | (refine Keeps.mk' ?_ rfl rfl rfl rfl rfl rfl rfl rfl rfl; first | with_reducible assumption | with_reducible apply badWord_keeps | with_reducible apply refuse_keeps | with_reducible apply issueCmd_keeps | with_reducible apply setSlot_keeps | with_reducible apply Keeps.ite | with_reducible apply Keeps.ite1 | split | (dsimp only) | split)

theorem execCommitShadow_keeps (k : Pkt) (s : State) : ∃ t, execCommitShadow k s = .next t ∧ Keeps s t := by
  have hk0 := Keeps.refl s
  refine ⟨_, rfl, ?_⟩
  try dsimp only
  repeat' first
    | with_reducible assumption
    | with_reducible apply command_keeps
    | with_reducible apply doCommitShadow_keeps
    | with_reducible apply Keeps.ite
    | intro _
    | (refine Keeps.mk' ?_ rfl rfl rfl rfl rfl rfl rfl rfl rfl; first | with_reducible assumption | with_reducible apply command_keeps | with_reducible apply doCommitShadow_keeps | with_reducible apply Keeps.ite | split)

theorem loadProg_keeps {z s : State} (b : Bool) (bs : List Byte) (hk0 : Keeps z s) : Keeps z (loadProg s b bs) :=
  ⟨hk0.1, hk0.2, hk0.3, fun w => Mem.write_wf _ _ _ (hk0.4 w), hk0.5, hk0.6⟩

theorem commitDone_keeps  {z s : State} (b : Bool) (o : Nat → Ecc) (hk0 : Keeps z s) : Keeps z (commitDone s b o) := by
  unfold commitDone
  try dsimp only
  repeat' first
    | with_reducible assumption
    | with_reducible apply pairAGo_keeps
    | with_reducible apply finishTok_keeps
    | with_reducible apply setSlot_keeps
    | with_reducible apply loadProg_keeps
    | with_reducible apply Keeps.ite
    | intro _
    | (refine Keeps.mk' ?_ rfl rfl rfl rfl rfl rfl rfl rfl rfl; first | with_reducible assumption | with_reducible apply pairAGo_keeps | with_reducible apply finishTok_keeps | with_reducible apply setSlot_keeps | with_reducible apply loadProg_keeps | with_reducible apply Keeps.ite | split)

theorem execCommitShadowDone_keeps (slot : Bool) (ecc : List (Nat × Ecc)) (s : State) : ∃ t, execCommitShadowDone slot s ecc = .next t ∧ Keeps s t := by
  have hk0 := Keeps.refl s
  refine ⟨_, rfl, ?_⟩
  try dsimp only
  repeat' first
    | with_reducible assumption
    | with_reducible apply settle_keeps
    | with_reducible apply readSlot_keeps
    | with_reducible apply commitDone_keeps
    | with_reducible apply Keeps.ite
    | intro _
    | (refine Keeps.mk' ?_ rfl rfl rfl rfl rfl rfl rfl rfl rfl; first | with_reducible assumption | with_reducible apply settle_keeps | with_reducible apply readSlot_keeps | with_reducible apply commitDone_keeps | with_reducible apply Keeps.ite | split)

theorem takeSwap_keeps  {z s : State} (b : Bool) (hk0 : Keeps z s) : Keeps z (takeSwap s b) := by
  unfold takeSwap
  try dsimp only
  repeat' first
    | with_reducible assumption
    | with_reducible apply setSlot_keeps
    | with_reducible apply levelSources_keeps
    | with_reducible apply Keeps.ite
    | intro _
    | (refine Keeps.mk' ?_ rfl rfl rfl rfl rfl rfl rfl rfl rfl; first | with_reducible assumption | with_reducible apply setSlot_keeps | with_reducible apply levelSources_keeps | with_reducible apply Keeps.ite | split)

theorem swapLease_keeps  {z s : State}  (hk0 : Keeps z s) : Keeps z (swapLease s) := by
  unfold swapLease
  try dsimp only
  repeat' first
    | with_reducible assumption
    | with_reducible apply Keeps.ite
    | intro _
    | (refine Keeps.mk' ?_ rfl rfl rfl rfl rfl rfl rfl rfl rfl; first | with_reducible assumption | with_reducible apply Keeps.ite | split)

theorem doSwapSets_keeps  {z s : State} (k : Pkt) (hk0 : Keeps z s) : Keeps z (doSwapSets k s).1 := by
  unfold doSwapSets
  try dsimp only
  repeat' first
    | with_reducible assumption
    | with_reducible apply badWord_keeps
    | with_reducible apply refuse_keeps
    | with_reducible apply takeSwap_keeps
    | with_reducible apply swapLease_keeps
    | with_reducible apply Keeps.ite
    | with_reducible apply Keeps.ite1
    | split
    | (dsimp only)
    | intro _
    | (refine Keeps.mk' ?_ rfl rfl rfl rfl rfl rfl rfl rfl rfl; first | with_reducible assumption | with_reducible apply badWord_keeps | with_reducible apply refuse_keeps | with_reducible apply takeSwap_keeps | with_reducible apply swapLease_keeps | with_reducible apply Keeps.ite | with_reducible apply Keeps.ite1 | split | (dsimp only) | split)

theorem execSwapSets_keeps (k : Pkt) (s : State) : ∃ t, execSwapSets k s = .next t ∧ Keeps s t := by
  have hk0 := Keeps.refl s
  refine ⟨_, rfl, ?_⟩
  try dsimp only
  repeat' first
    | with_reducible assumption
    | with_reducible apply command_keeps
    | with_reducible apply doSwapSets_keeps
    | with_reducible apply Keeps.ite
    | intro _
    | (refine Keeps.mk' ?_ rfl rfl rfl rfl rfl rfl rfl rfl rfl; first | with_reducible assumption | with_reducible apply command_keeps | with_reducible apply doSwapSets_keeps | with_reducible apply Keeps.ite | split)

theorem doReadSetInfo_keeps  {z s : State} (k : Pkt) (ecc : List (Nat × Ecc)) (hk0 : Keeps z s) : Keeps z (doReadSetInfo k s ecc).1 := by
  unfold doReadSetInfo
  try dsimp only
  repeat' first
    | with_reducible assumption
    | with_reducible apply badWord_keeps
    | with_reducible apply pairAReads_keeps
    | (with_reducible refine Keeps.foldl (fun s a hs => ?_) _ _ ?_)
    | with_reducible apply Keeps.ite
    | with_reducible apply Keeps.ite1
    | split
    | (dsimp only)
    | intro _
    | (refine Keeps.mk' ?_ rfl rfl rfl rfl rfl rfl rfl rfl rfl; first | with_reducible assumption | with_reducible apply badWord_keeps | with_reducible apply pairAReads_keeps | (with_reducible refine Keeps.foldl (fun s a hs => ?_) _ _ ?_) | with_reducible apply Keeps.ite | with_reducible apply Keeps.ite1 | split | (dsimp only) | split)

theorem execReadSetInfo_keeps (k : Pkt) (ecc : List (Nat × Ecc)) (s : State) : ∃ t, execReadSetInfo k s ecc = .next t ∧ Keeps s t := by
  have hk0 := Keeps.refl s
  refine ⟨_, rfl, ?_⟩
  try dsimp only
  repeat' first
    | with_reducible assumption
    | with_reducible apply command_keeps
    | with_reducible apply doReadSetInfo_keeps
    | with_reducible apply Keeps.ite
    | intro _
    | (refine Keeps.mk' ?_ rfl rfl rfl rfl rfl rfl rfl rfl rfl; first | with_reducible assumption | with_reducible apply command_keeps | with_reducible apply doReadSetInfo_keeps | with_reducible apply Keeps.ite | split)

end Sys2Proof.Machine
end

