-- ==== Sys2Proof/Laws/Keeps/Frame.lean ====
section
/-! SUPPORT. What the definitions of Machine/Frame.lean keep (Laws/Keeps.lean). -/

set_option linter.unusedTactic false
set_option linter.unreachableTactic false
set_option linter.unusedVariables false

namespace Sys2Proof.Machine

theorem armRun_keeps  {z s : State} (start : Nat) (first : Word) (hk0 : Keeps z s) : Keeps z (armRun s start first) := by
  unfold armRun
  try dsimp only
  repeat' first
    | with_reducible assumption
    | with_reducible apply await_keeps
    | with_reducible apply Keeps.ite
    | intro _
    | (refine Keeps.mk' ?_ rfl rfl rfl rfl rfl rfl rfl rfl rfl; first | with_reducible assumption | with_reducible apply await_keeps | with_reducible apply Keeps.ite | split)

theorem doRunCtlStart_keeps  {z s : State} (k : Pkt) (hk0 : Keeps z s) : Keeps z (doRunCtlStart k s).1 := by
  unfold doRunCtlStart
  try dsimp only
  repeat' first
    | with_reducible assumption
    | with_reducible apply badWord_keeps
    | with_reducible apply refuse_keeps
    | with_reducible apply armRun_keeps
    | with_reducible apply Keeps.ite
    | with_reducible apply Keeps.ite1
    | split
    | (dsimp only)
    | intro _
    | (refine Keeps.mk' ?_ rfl rfl rfl rfl rfl rfl rfl rfl rfl; first | with_reducible assumption | with_reducible apply badWord_keeps | with_reducible apply refuse_keeps | with_reducible apply armRun_keeps | with_reducible apply Keeps.ite | with_reducible apply Keeps.ite1 | split | (dsimp only) | split)

theorem execRunCtlStart_keeps (k : Pkt) (s : State) : ∃ t, execRunCtlStart k s = .next t ∧ Keeps s t := by
  have hk0 := Keeps.refl s
  refine ⟨_, rfl, ?_⟩
  try dsimp only
  repeat' first
    | with_reducible assumption
    | with_reducible apply command_keeps
    | with_reducible apply doRunCtlStart_keeps
    | with_reducible apply Keeps.ite
    | intro _
    | (refine Keeps.mk' ?_ rfl rfl rfl rfl rfl rfl rfl rfl rfl; first | with_reducible assumption | with_reducible apply command_keeps | with_reducible apply doRunCtlStart_keeps | with_reducible apply Keeps.ite | split)

theorem resumeJobs_keeps  {z s : State}  (hk0 : Keeps z s) : Keeps z (resumeJobs s) := by
  unfold resumeJobs
  try dsimp only
  repeat' first
    | with_reducible assumption
    | with_reducible apply Keeps.ite
    | intro _
    | (refine Keeps.mk' ?_ rfl rfl rfl rfl rfl rfl rfl rfl rfl; first | with_reducible assumption | with_reducible apply Keeps.ite | split)

theorem endRunStop_keeps  {z s : State}  (hk0 : Keeps z s) : Keeps z (endRunStop s) := by
  unfold endRunStop
  try dsimp only
  repeat' first
    | with_reducible assumption
    | with_reducible apply withdraw_keeps
    | with_reducible apply disarm_keeps
    | with_reducible apply cancelSwap_keeps
    | with_reducible apply resumeJobs_keeps
    | with_reducible apply recordEnd_keeps
    | with_reducible apply clearRun_keeps
    | with_reducible apply Keeps.ite
    | intro _
    | (refine Keeps.mk' ?_ rfl rfl rfl rfl rfl rfl rfl rfl rfl; first | with_reducible assumption | with_reducible apply withdraw_keeps | with_reducible apply disarm_keeps | with_reducible apply cancelSwap_keeps | with_reducible apply resumeJobs_keeps | with_reducible apply recordEnd_keeps | with_reducible apply clearRun_keeps | with_reducible apply Keeps.ite | split)

theorem doRunCtlStop_keeps  {z s : State} (k : Pkt) (hk0 : Keeps z s) : Keeps z (doRunCtlStop k s).1 := by
  unfold doRunCtlStop
  try dsimp only
  repeat' first
    | with_reducible assumption
    | with_reducible apply refuse_keeps
    | with_reducible apply withdraw_keeps
    | with_reducible apply endRunStop_keeps
    | with_reducible apply Keeps.ite
    | with_reducible apply Keeps.ite1
    | split
    | (dsimp only)
    | intro _
    | (refine Keeps.mk' ?_ rfl rfl rfl rfl rfl rfl rfl rfl rfl; first | with_reducible assumption | with_reducible apply refuse_keeps | with_reducible apply withdraw_keeps | with_reducible apply endRunStop_keeps | with_reducible apply Keeps.ite | with_reducible apply Keeps.ite1 | split | (dsimp only) | split)

theorem execRunCtlStop_keeps (k : Pkt) (s : State) : ∃ t, execRunCtlStop k s = .next t ∧ Keeps s t := by
  have hk0 := Keeps.refl s
  refine ⟨_, rfl, ?_⟩
  try dsimp only
  repeat' first
    | with_reducible assumption
    | with_reducible apply command_keeps
    | with_reducible apply doRunCtlStop_keeps
    | with_reducible apply Keeps.ite
    | intro _
    | (refine Keeps.mk' ?_ rfl rfl rfl rfl rfl rfl rfl rfl rfl; first | with_reducible assumption | with_reducible apply command_keeps | with_reducible apply doRunCtlStop_keeps | with_reducible apply Keeps.ite | split)

theorem doRunCtlRearm_keeps  {z s : State} (k : Pkt) (hk0 : Keeps z s) : Keeps z (doRunCtlRearm k s).1 := by
  unfold doRunCtlRearm
  try dsimp only
  repeat' first
    | with_reducible assumption
    | with_reducible apply refuse_keeps
    | with_reducible apply await_keeps
    | with_reducible apply Keeps.ite
    | with_reducible apply Keeps.ite1
    | split
    | (dsimp only)
    | intro _
    | (refine Keeps.mk' ?_ rfl rfl rfl rfl rfl rfl rfl rfl rfl; first | with_reducible assumption | with_reducible apply refuse_keeps | with_reducible apply await_keeps | with_reducible apply Keeps.ite | with_reducible apply Keeps.ite1 | split | (dsimp only) | split)

theorem execRunCtlRearm_keeps (k : Pkt) (s : State) : ∃ t, execRunCtlRearm k s = .next t ∧ Keeps s t := by
  have hk0 := Keeps.refl s
  refine ⟨_, rfl, ?_⟩
  try dsimp only
  repeat' first
    | with_reducible assumption
    | with_reducible apply command_keeps
    | with_reducible apply doRunCtlRearm_keeps
    | with_reducible apply Keeps.ite
    | intro _
    | (refine Keeps.mk' ?_ rfl rfl rfl rfl rfl rfl rfl rfl rfl; first | with_reducible assumption | with_reducible apply command_keeps | with_reducible apply doRunCtlRearm_keeps | with_reducible apply Keeps.ite | split)

theorem frameEngines_keeps  {z s : State} (m : Word) (hk0 : Keeps z s) : Keeps z (frameEngines s m) := by
  unfold frameEngines
  try dsimp only
  repeat' first
    | with_reducible assumption
    | with_reducible apply Keeps.ite
    | intro _
    | (refine Keeps.mk' ?_ rfl rfl rfl rfl rfl rfl rfl rfl rfl; first | with_reducible assumption | with_reducible apply Keeps.ite | split)

theorem frameHeadland_keeps  {z s : State} (first : Bool) (hk0 : Keeps z s) : Keeps z (frameHeadland s first) := by
  unfold frameHeadland
  try dsimp only
  repeat' first
    | with_reducible assumption
    | with_reducible apply Keeps.ite
    | intro _
    | (refine Keeps.mk' ?_ rfl rfl rfl rfl rfl rfl rfl rfl rfl; first | with_reducible assumption | with_reducible apply Keeps.ite | split)

theorem frameSensors_keeps  {z s : State} (first : Bool) (hk0 : Keeps z s) : Keeps z (frameSensors s first) := by
  unfold frameSensors
  try dsimp only
  repeat' first
    | with_reducible assumption
    | with_reducible apply Keeps.ite
    | intro _
    | (refine Keeps.mk' ?_ rfl rfl rfl rfl rfl rfl rfl rfl rfl; first | with_reducible assumption | with_reducible apply Keeps.ite | split)

theorem frameSched_keeps  {z s : State} (seq : Word) (t : Nat) (hk0 : Keeps z s) : Keeps z (frameSched s seq t) := by
  unfold frameSched
  try dsimp only
  repeat' first
    | with_reducible assumption
    | with_reducible apply Keeps.ite
    | intro _
    | (refine Keeps.mk' ?_ rfl rfl rfl rfl rfl rfl rfl rfl rfl; first | with_reducible assumption | with_reducible apply Keeps.ite | split)

theorem enterFrame_keeps  {z s : State} (seq : Word) (t : Nat) (first : Bool) (hk0 : Keeps z s) : Keeps z (enterFrame s seq t first) := by
  unfold enterFrame
  try dsimp only
  repeat' first
    | with_reducible assumption
    | with_reducible apply passTo_keeps
    | with_reducible apply frameEngines_keeps
    | with_reducible apply takeSwap_keeps
    | with_reducible apply awayInvalid_keeps
    | with_reducible apply frameSched_keeps
    | with_reducible apply frameSensors_keeps
    | with_reducible apply frameHeadland_keeps
    | with_reducible apply units_keeps
    | with_reducible apply afterStand_keeps
    | with_reducible apply resumeJobs_keeps
    | with_reducible apply replayFrame_keeps
    | with_reducible apply recordFrame_keeps
    | with_reducible apply Keeps.ite
    | intro _
    | (refine Keeps.mk' ?_ rfl rfl rfl rfl rfl rfl rfl rfl rfl; first | with_reducible assumption | with_reducible apply passTo_keeps | with_reducible apply frameEngines_keeps | with_reducible apply takeSwap_keeps | with_reducible apply awayInvalid_keeps | with_reducible apply frameSched_keeps | with_reducible apply frameSensors_keeps | with_reducible apply frameHeadland_keeps | with_reducible apply units_keeps | with_reducible apply afterStand_keeps | with_reducible apply resumeJobs_keeps | with_reducible apply replayFrame_keeps | with_reducible apply recordFrame_keeps | with_reducible apply Keeps.ite | split)

theorem execFrameStart_keeps  (s : State) : ∃ t, execFrameStart s = .next t ∧ Keeps s t := by
  have hk0 := Keeps.refl s
  refine ⟨_, rfl, ?_⟩
  try dsimp only
  repeat' first
    | with_reducible assumption
    | with_reducible apply enterFrame_keeps
    | with_reducible apply endRunStop_keeps
    | with_reducible apply passTo_keeps
    | with_reducible apply Keeps.ite
    | intro _
    | (refine Keeps.mk' ?_ rfl rfl rfl rfl rfl rfl rfl rfl rfl; first | with_reducible assumption | with_reducible apply enterFrame_keeps | with_reducible apply endRunStop_keeps | with_reducible apply passTo_keeps | with_reducible apply Keeps.ite | split)

theorem execSchedulerWatchdog_keeps  (s : State) : ∃ t, execSchedulerWatchdog s = .next t ∧ Keeps s t := by
  have hk0 := Keeps.refl s
  refine ⟨_, rfl, ?_⟩
  try dsimp only
  repeat' first
    | with_reducible assumption
    | with_reducible apply settle_keeps
    | with_reducible apply setSrc_keeps
    | with_reducible apply passTo_keeps
    | with_reducible apply Keeps.ite
    | intro _
    | (refine Keeps.mk' ?_ rfl rfl rfl rfl rfl rfl rfl rfl rfl; first | with_reducible assumption | with_reducible apply settle_keeps | with_reducible apply setSrc_keeps | with_reducible apply passTo_keeps | with_reducible apply Keeps.ite | split)

theorem execOutCommit_keeps  (s : State) : ∃ t, execOutCommit s = .next t ∧ Keeps s t := by
  have hk0 := Keeps.refl s
  refine ⟨_, rfl, ?_⟩
  try dsimp only
  repeat' first
    | with_reducible assumption
    | with_reducible apply passTo_keeps
    | with_reducible apply Keeps.ite
    | intro _
    | (refine Keeps.mk' ?_ rfl rfl rfl rfl rfl rfl rfl rfl rfl; first | with_reducible assumption | with_reducible apply passTo_keeps | with_reducible apply Keeps.ite | split)

theorem missingVerdict_keeps  {z s : State}  (hk0 : Keeps z s) : Keeps z (missingVerdict s) := by
  unfold missingVerdict
  try dsimp only
  repeat' first
    | with_reducible assumption
    | with_reducible apply writeVerdict_keeps
    | with_reducible apply withdraw_keeps
    | with_reducible apply Keeps.ite
    | intro _
    | (refine Keeps.mk' ?_ rfl rfl rfl rfl rfl rfl rfl rfl rfl; first | with_reducible assumption | with_reducible apply writeVerdict_keeps | with_reducible apply withdraw_keeps | with_reducible apply Keeps.ite | split)

theorem dropUnclaimed_keeps  {z s : State}  (hk0 : Keeps z s) : Keeps z (dropUnclaimed s) := by
  unfold dropUnclaimed
  try dsimp only
  repeat' first
    | with_reducible assumption
    | with_reducible apply dropKept_keeps
    | with_reducible apply dropCur_keeps
    | (with_reducible refine Keeps.foldl (fun s a hs => ?_) _ _ ?_)
    | with_reducible apply Keeps.ite
    | intro _
    | (refine Keeps.mk' ?_ rfl rfl rfl rfl rfl rfl rfl rfl rfl; first | with_reducible assumption | with_reducible apply dropKept_keeps | with_reducible apply dropCur_keeps | (with_reducible refine Keeps.foldl (fun s a hs => ?_) _ _ ?_) | with_reducible apply Keeps.ite | split)

theorem conserve_keeps  {z s : State}  (hk0 : Keeps z s) : Keeps z (conserve s) := by
  unfold conserve
  try dsimp only
  repeat' first
    | with_reducible assumption
    | with_reducible apply setSrc_keeps
    | with_reducible apply Keeps.ite
    | intro _
    | (refine Keeps.mk' ?_ rfl rfl rfl rfl rfl rfl rfl rfl rfl; first | with_reducible assumption | with_reducible apply setSrc_keeps | with_reducible apply Keeps.ite | split)

theorem dueSlices_keeps  {z s : State}  (hk0 : Keeps z s) : Keeps z (dueSlices s) := by
  unfold dueSlices
  try dsimp only
  repeat' first
    | with_reducible assumption
    | with_reducible apply Keeps.ite
    | intro _
    | (refine Keeps.mk' ?_ rfl rfl rfl rfl rfl rfl rfl rfl rfl; first | with_reducible assumption | with_reducible apply Keeps.ite | split)

theorem execSlackStart_keeps (ecc : List (Nat × Ecc)) (s : State) : ∃ t, execSlackStart s ecc = .next t ∧ Keeps s t := by
  have hk0 := Keeps.refl s
  refine ⟨_, rfl, ?_⟩
  try dsimp only
  repeat' first
    | with_reducible assumption
    | with_reducible apply passTo_keeps
    | with_reducible apply missingVerdict_keeps
    | with_reducible apply dropUnclaimed_keeps
    | with_reducible apply haltIdle_keeps
    | with_reducible apply conserve_keeps
    | with_reducible apply repairRing_keeps
    | with_reducible apply activatePack_keeps
    | with_reducible apply settleUnits_keeps
    | with_reducible apply dueSlices_keeps
    | with_reducible apply Keeps.ite
    | intro _
    | (refine Keeps.mk' ?_ rfl rfl rfl rfl rfl rfl rfl rfl rfl; first | with_reducible assumption | with_reducible apply passTo_keeps | with_reducible apply missingVerdict_keeps | with_reducible apply dropUnclaimed_keeps | with_reducible apply haltIdle_keeps | with_reducible apply conserve_keeps | with_reducible apply repairRing_keeps | with_reducible apply activatePack_keeps | with_reducible apply settleUnits_keeps | with_reducible apply dueSlices_keeps | with_reducible apply Keeps.ite | split)

theorem execReservationOpen_keeps (job : Nat) (s : State) : ∃ t, execReservationOpen job s = .next t ∧ Keeps s t := by
  have hk0 := Keeps.refl s
  refine ⟨_, rfl, ?_⟩
  try dsimp only
  repeat' first
    | with_reducible assumption
    | with_reducible apply passTo_keeps
    | with_reducible apply markWaits_keeps
    | with_reducible apply Keeps.ite
    | intro _
    | (refine Keeps.mk' ?_ rfl rfl rfl rfl rfl rfl rfl rfl rfl; first | with_reducible assumption | with_reducible apply passTo_keeps | with_reducible apply markWaits_keeps | with_reducible apply Keeps.ite | split)

theorem startEntry_keeps  {z s : State} (i : Nat) (hk0 : Keeps z s) : Keeps z (startEntry s i) := by
  unfold startEntry
  try dsimp only
  repeat' first
    | with_reducible assumption
    | with_reducible apply issueCtx_keeps
    | with_reducible apply claimFrames_keeps
    | with_reducible apply tryDone_keeps
    | with_reducible apply startJob_keeps
    | with_reducible apply Keeps.ite
    | intro _
    | (refine Keeps.mk' ?_ rfl rfl rfl rfl rfl rfl rfl rfl rfl; first | with_reducible assumption | with_reducible apply issueCtx_keeps | with_reducible apply claimFrames_keeps | with_reducible apply tryDone_keeps | with_reducible apply startJob_keeps | with_reducible apply Keeps.ite | split)

theorem execJobStart_keeps (job : Nat) (s : State) : ∃ t, execJobStart job s = .next t ∧ Keeps s t := by
  have hk0 := Keeps.refl s
  refine ⟨_, rfl, ?_⟩
  try dsimp only
  repeat' first
    | with_reducible assumption
    | with_reducible apply passTo_keeps
    | with_reducible apply settleUnits_keeps
    | with_reducible apply skipEntry_keeps
    | with_reducible apply pairAGo_keeps
    | with_reducible apply startEntry_keeps
    | with_reducible apply Keeps.ite
    | intro _
    | (refine Keeps.mk' ?_ rfl rfl rfl rfl rfl rfl rfl rfl rfl; first | with_reducible assumption | with_reducible apply passTo_keeps | with_reducible apply settleUnits_keeps | with_reducible apply skipEntry_keeps | with_reducible apply pairAGo_keeps | with_reducible apply startEntry_keeps | with_reducible apply Keeps.ite | split)

theorem killTimed_keeps  {z s : State} (j : Job) (hk0 : Keeps z s) : Keeps z (killTimed s j) := by
  unfold killTimed
  try dsimp only
  repeat' first
    | with_reducible assumption
    | with_reducible apply killJob_keeps
    | with_reducible apply setSrcs_keeps
    | with_reducible apply Keeps.ite
    | intro _
    | (refine Keeps.mk' ?_ rfl rfl rfl rfl rfl rfl rfl rfl rfl; first | with_reducible assumption | with_reducible apply killJob_keeps | with_reducible apply setSrcs_keeps | with_reducible apply Keeps.ite | split)

theorem execJobDeadline_keeps (job : Nat) (s : State) : ∃ t, execJobDeadline job s = .next t ∧ Keeps s t := by
  have hk0 := Keeps.refl s
  refine ⟨_, rfl, ?_⟩
  try dsimp only
  repeat' first
    | with_reducible assumption
    | with_reducible apply passTo_keeps
    | with_reducible apply settleUnits_keeps
    | with_reducible apply skipEntry_keeps
    | with_reducible apply killTimed_keeps
    | with_reducible apply Keeps.ite
    | intro _
    | (refine Keeps.mk' ?_ rfl rfl rfl rfl rfl rfl rfl rfl rfl; first | with_reducible assumption | with_reducible apply passTo_keeps | with_reducible apply settleUnits_keeps | with_reducible apply skipEntry_keeps | with_reducible apply killTimed_keeps | with_reducible apply Keeps.ite | split)

theorem execJobBudgetExpire_keeps (token : Word) (s : State) : ∃ t, execJobBudgetExpire token s = .next t ∧ Keeps s t := by
  have hk0 := Keeps.refl s
  refine ⟨_, rfl, ?_⟩
  try dsimp only
  repeat' first
    | with_reducible assumption
    | with_reducible apply settleUnits_keeps
    | with_reducible apply killTimed_keeps
    | with_reducible apply elapse_keeps
    | with_reducible apply Keeps.ite
    | intro _
    | (refine Keeps.mk' ?_ rfl rfl rfl rfl rfl rfl rfl rfl rfl; first | with_reducible assumption | with_reducible apply settleUnits_keeps | with_reducible apply killTimed_keeps | with_reducible apply elapse_keeps | with_reducible apply Keeps.ite | split)

theorem beginImage_keeps  {z s : State} (p : Plan) (o : Origin) (ctx : Nat) (mask : Nat) (budget : Nat) (us : Nat) (port : Port) (t4 : Bool) (hk0 : Keeps z s) : Keeps z (beginImage s p o ctx mask budget us port t4).2 := by
  unfold beginImage
  try dsimp only
  repeat' first
    | with_reducible assumption
    | with_reducible apply issueCtx_keeps
    | with_reducible apply addTok_keeps
    | with_reducible apply units_keeps
    | with_reducible apply tryDone_keeps
    | with_reducible apply haltIdle_keeps
    | with_reducible apply startJob_keeps
    | with_reducible apply Keeps.ite
    | with_reducible apply Keeps.ite1
    | split
    | (dsimp only)
    | intro _
    | (refine Keeps.mk' ?_ rfl rfl rfl rfl rfl rfl rfl rfl rfl; first | with_reducible assumption | with_reducible apply issueCtx_keeps | with_reducible apply addTok_keeps | with_reducible apply units_keeps | with_reducible apply tryDone_keeps | with_reducible apply haltIdle_keeps | with_reducible apply startJob_keeps | with_reducible apply Keeps.ite | with_reducible apply Keeps.ite1 | split | (dsimp only) | split)

theorem doRunJob_keeps  {z s : State} (k : Pkt) (t4 : Bool) (ecc : List (Nat × Ecc)) (hk0 : Keeps z s) : Keeps z (doRunJob k t4 s ecc).1 := by
  unfold doRunJob
  try dsimp only
  repeat' first
    | with_reducible assumption
    | with_reducible apply badWord_keeps
    | with_reducible apply refuse_keeps
    | with_reducible apply pairAReads_keeps
    | with_reducible apply beginImage_keeps
    | with_reducible apply Keeps.ite
    | with_reducible apply Keeps.ite1
    | split
    | (dsimp only)
    | intro _
    | (refine Keeps.mk' ?_ rfl rfl rfl rfl rfl rfl rfl rfl rfl; first | with_reducible assumption | with_reducible apply badWord_keeps | with_reducible apply refuse_keeps | with_reducible apply pairAReads_keeps | with_reducible apply beginImage_keeps | with_reducible apply Keeps.ite | with_reducible apply Keeps.ite1 | split | (dsimp only) | split)

theorem execRunJob_keeps (k : Pkt) (t4 : Bool) (ecc : List (Nat × Ecc)) (s : State) : ∃ t, execRunJob k t4 s ecc = .next t ∧ Keeps s t := by
  have hk0 := Keeps.refl s
  refine ⟨_, rfl, ?_⟩
  try dsimp only
  repeat' first
    | with_reducible assumption
    | with_reducible apply command_keeps
    | with_reducible apply doRunJob_keeps
    | with_reducible apply Keeps.ite
    | intro _
    | (refine Keeps.mk' ?_ rfl rfl rfl rfl rfl rfl rfl rfl rfl; first | with_reducible assumption | with_reducible apply command_keeps | with_reducible apply doRunJob_keeps | with_reducible apply Keeps.ite | split)

theorem execRunJobTimeout_keeps (token : Word) (s : State) : ∃ t, execRunJobTimeout token s = .next t ∧ Keeps s t := by
  have hk0 := Keeps.refl s
  refine ⟨_, rfl, ?_⟩
  try dsimp only
  repeat' first
    | with_reducible assumption
    | with_reducible apply settleUnits_keeps
    | with_reducible apply killTimed_keeps
    | with_reducible apply passTo_keeps
    | with_reducible apply Keeps.ite
    | intro _
    | (refine Keeps.mk' ?_ rfl rfl rfl rfl rfl rfl rfl rfl rfl; first | with_reducible assumption | with_reducible apply settleUnits_keeps | with_reducible apply killTimed_keeps | with_reducible apply passTo_keeps | with_reducible apply Keeps.ite | split)

theorem abortJob_keeps  {z s : State} (j : Job) (hk0 : Keeps z s) : Keeps z (abortJob s j).1 := by
  unfold abortJob
  try dsimp only
  repeat' first
    | with_reducible assumption
    | with_reducible apply elapse_keeps
    | with_reducible apply refuse_keeps
    | with_reducible apply units_keeps
    | with_reducible apply killJob_keeps
    | with_reducible apply setSrcs_keeps
    | with_reducible apply Keeps.ite
    | with_reducible apply Keeps.ite1
    | split
    | (dsimp only)
    | intro _
    | (refine Keeps.mk' ?_ rfl rfl rfl rfl rfl rfl rfl rfl rfl; first | with_reducible assumption | with_reducible apply elapse_keeps | with_reducible apply refuse_keeps | with_reducible apply units_keeps | with_reducible apply killJob_keeps | with_reducible apply setSrcs_keeps | with_reducible apply Keeps.ite | with_reducible apply Keeps.ite1 | split | (dsimp only) | split)

theorem doAbortJob_keeps  {z s : State} (k : Pkt) (hk0 : Keeps z s) : Keeps z (doAbortJob k s).1 := by
  unfold doAbortJob
  try dsimp only
  repeat' first
    | with_reducible assumption
    | with_reducible apply refuse_keeps
    | with_reducible apply abortJob_keeps
    | with_reducible apply badWord_keeps
    | with_reducible apply Keeps.ite
    | with_reducible apply Keeps.ite1
    | split
    | (dsimp only)
    | intro _
    | (refine Keeps.mk' ?_ rfl rfl rfl rfl rfl rfl rfl rfl rfl; first | with_reducible assumption | with_reducible apply refuse_keeps | with_reducible apply abortJob_keeps | with_reducible apply badWord_keeps | with_reducible apply Keeps.ite | with_reducible apply Keeps.ite1 | split | (dsimp only) | split)

theorem execAbortJob_keeps (k : Pkt) (s : State) : ∃ t, execAbortJob k s = .next t ∧ Keeps s t := by
  have hk0 := Keeps.refl s
  refine ⟨_, rfl, ?_⟩
  try dsimp only
  repeat' first
    | with_reducible assumption
    | with_reducible apply command_keeps
    | with_reducible apply doAbortJob_keeps
    | with_reducible apply Keeps.ite
    | intro _
    | (refine Keeps.mk' ?_ rfl rfl rfl rfl rfl rfl rfl rfl rfl; first | with_reducible assumption | with_reducible apply command_keeps | with_reducible apply doAbortJob_keeps | with_reducible apply Keeps.ite | split)

theorem doQueryJob_keeps  {z s : State} (k : Pkt) (hk0 : Keeps z s) : Keeps z (doQueryJob k s).1 := by
  unfold doQueryJob
  try dsimp only
  repeat' first
    | with_reducible assumption
    | with_reducible apply refuse_keeps
    | with_reducible apply badWord_keeps
    | with_reducible apply Keeps.ite
    | with_reducible apply Keeps.ite1
    | split
    | (dsimp only)
    | intro _
    | (refine Keeps.mk' ?_ rfl rfl rfl rfl rfl rfl rfl rfl rfl; first | with_reducible assumption | with_reducible apply refuse_keeps | with_reducible apply badWord_keeps | with_reducible apply Keeps.ite | with_reducible apply Keeps.ite1 | split | (dsimp only) | split)

theorem execQueryJob_keeps (k : Pkt) (s : State) : ∃ t, execQueryJob k s = .next t ∧ Keeps s t := by
  have hk0 := Keeps.refl s
  refine ⟨_, rfl, ?_⟩
  try dsimp only
  repeat' first
    | with_reducible assumption
    | with_reducible apply command_keeps
    | with_reducible apply doQueryJob_keeps
    | with_reducible apply Keeps.ite
    | intro _
    | (refine Keeps.mk' ?_ rfl rfl rfl rfl rfl rfl rfl rfl rfl; first | with_reducible assumption | with_reducible apply command_keeps | with_reducible apply doQueryJob_keeps | with_reducible apply Keeps.ite | split)

theorem execCompletionRecordCollect_keeps (input : Nat) (s : State) : ∃ t, execCompletionRecordCollect input s = .next t ∧ Keeps s t := by
  have hk0 := Keeps.refl s
  refine ⟨_, rfl, ?_⟩
  try dsimp only
  repeat' first
    | with_reducible assumption
    | with_reducible apply settleUnits_keeps
    | with_reducible apply commitWaits_keeps
    | with_reducible apply collectOne_keeps
    | with_reducible apply Keeps.ite
    | intro _
    | (refine Keeps.mk' ?_ rfl rfl rfl rfl rfl rfl rfl rfl rfl; first | with_reducible assumption | with_reducible apply settleUnits_keeps | with_reducible apply commitWaits_keeps | with_reducible apply collectOne_keeps | with_reducible apply Keeps.ite | split)

theorem execCompletionRecordConsume_keeps (ecc : List (Nat × Ecc)) (s : State) : ∃ t, execCompletionRecordConsume s ecc = .next t ∧ Keeps s t := by
  have hk0 := Keeps.refl s
  refine ⟨_, rfl, ?_⟩
  try dsimp only
  repeat' first
    | with_reducible assumption
    | with_reducible apply settleUnits_keeps
    | with_reducible apply pairAGo_keeps
    | with_reducible apply commitWaits_keeps
    | with_reducible apply Keeps.ite
    | intro _
    | (refine Keeps.mk' ?_ rfl rfl rfl rfl rfl rfl rfl rfl rfl; first | with_reducible assumption | with_reducible apply settleUnits_keeps | with_reducible apply pairAGo_keeps | with_reducible apply commitWaits_keeps | with_reducible apply Keeps.ite | split)

end Sys2Proof.Machine
end

