-- ==== Sys2Proof/Laws/Keeps/Headland.lean ====
section
/-! SUPPORT. What the definitions of Machine/Headland.lean keep (Laws/Keeps.lean). -/

set_option linter.unusedTactic false
set_option linter.unreachableTactic false
set_option linter.unusedVariables false

namespace Sys2Proof.Machine

theorem binRecord_keeps  {z s : State}  (hk0 : Keeps z s) : Keeps z (binRecord s) := by
  unfold binRecord
  try dsimp only
  repeat' first
    | with_reducible assumption
    | (with_reducible refine Keeps.foldl (fun s a hs => ?_) _ _ ?_)
    | with_reducible apply Keeps.ite
    | intro _
    | (refine Keeps.mk' ?_ rfl rfl rfl rfl rfl rfl rfl rfl rfl; first | with_reducible assumption | (with_reducible refine Keeps.foldl (fun s a hs => ?_) _ _ ?_) | with_reducible apply Keeps.ite | split)

theorem execMirrorRecordBin_keeps  (s : State) : ∃ t, execMirrorRecordBin s = .next t ∧ Keeps s t := by
  have hk0 := Keeps.refl s
  refine ⟨_, rfl, ?_⟩
  try dsimp only
  repeat' first
    | with_reducible assumption
    | with_reducible apply binRecord_keeps
    | with_reducible apply Keeps.ite
    | intro _
    | (refine Keeps.mk' ?_ rfl rfl rfl rfl rfl rfl rfl rfl rfl; first | with_reducible assumption | with_reducible apply binRecord_keeps | with_reducible apply Keeps.ite | split)

theorem copyEvidence_keeps {z s : State} (i : Nat) (x : List Word) (o : Nat → Ecc) (hk0 : Keeps z s) :
    Keeps z (copyEvidence s i x o) := by
  unfold copyEvidence
  dsimp only
  refine Keeps.ite (fun _ => Keeps.mk' hk0 rfl rfl rfl rfl rfl rfl rfl rfl rfl) (fun _ => ?_)
  generalize hs : List.foldl _ s _ = t
  have ht : Keeps z t := hs ▸ Keeps.foldl (fun _ _ h => portRead_keeps _ _ _ _ h) _ _ hk0
  exact Keeps.ite (fun _ => Keeps.mk' ht rfl rfl rfl rfl rfl rfl rfl rfl rfl)
    (fun _ => Keeps.mkMem ht rfl rfl id (fun w => Mem.write_wf _ _ _ w) rfl rfl rfl rfl rfl)

theorem execEvidenceCopy_keeps (i : Nat) (ecc : List (Nat × Ecc)) (s : State) : ∃ t, execEvidenceCopy i s ecc = .next t ∧ Keeps s t := by
  have hk0 := Keeps.refl s
  refine ⟨_, rfl, ?_⟩
  try dsimp only
  repeat' first
    | with_reducible assumption
    | with_reducible apply settle_keeps
    | with_reducible apply copyEvidence_keeps
    | with_reducible apply Keeps.ite
    | intro _
    | (refine Keeps.mk' ?_ rfl rfl rfl rfl rfl rfl rfl rfl rfl; first | with_reducible assumption | with_reducible apply settle_keeps | with_reducible apply copyEvidence_keeps | with_reducible apply Keeps.ite | split)

theorem evalJobsDone_keeps  {z s : State} (r : List Word) (hk0 : Keeps z s) : Keeps z (evalJobsDone s r).1 := by
  unfold evalJobsDone
  try dsimp only
  repeat' first
    | with_reducible assumption
    | with_reducible apply Keeps.ite
    | with_reducible apply Keeps.ite1
    | split
    | (dsimp only)
    | intro _
    | (refine Keeps.mk' ?_ rfl rfl rfl rfl rfl rfl rfl rfl rfl; first | with_reducible assumption | with_reducible apply Keeps.ite | with_reducible apply Keeps.ite1 | split | (dsimp only) | split)

theorem evalArrived_keeps  {z s : State} (r : List Word) (hk0 : Keeps z s) : Keeps z (evalArrived s r).1 := by
  unfold evalArrived
  try dsimp only
  repeat' first
    | with_reducible assumption
    | with_reducible apply passTo_keeps
    | with_reducible apply Keeps.ite
    | with_reducible apply Keeps.ite1
    | split
    | (dsimp only)
    | intro _
    | (refine Keeps.mk' ?_ rfl rfl rfl rfl rfl rfl rfl rfl rfl; first | with_reducible assumption | with_reducible apply passTo_keeps | with_reducible apply Keeps.ite | with_reducible apply Keeps.ite1 | split | (dsimp only) | split)

theorem evalFinishBy_keeps  {z s : State} (r : List Word) (hk0 : Keeps z s) : Keeps z (evalFinishBy s r).1 := by
  unfold evalFinishBy
  try dsimp only
  repeat' first
    | with_reducible assumption
    | with_reducible apply passTo_keeps
    | with_reducible apply Keeps.ite
    | with_reducible apply Keeps.ite1
    | split
    | (dsimp only)
    | intro _
    | (refine Keeps.mk' ?_ rfl rfl rfl rfl rfl rfl rfl rfl rfl; first | with_reducible assumption | with_reducible apply passTo_keeps | with_reducible apply Keeps.ite | with_reducible apply Keeps.ite1 | split | (dsimp only) | split)

theorem evalRange_keeps  {z s : State} (r : List Word) (ref : List Word) (bs : List Byte) (hk0 : Keeps z s) : Keeps z (evalRange s r ref bs).1 := by
  unfold evalRange
  try dsimp only
  repeat' first
    | with_reducible assumption
    | with_reducible apply Keeps.ite
    | with_reducible apply Keeps.ite1
    | split
    | (dsimp only)
    | intro _
    | (refine Keeps.mk' ?_ rfl rfl rfl rfl rfl rfl rfl rfl rfl; first | with_reducible assumption | with_reducible apply Keeps.ite | with_reducible apply Keeps.ite1 | split | (dsimp only) | split)

theorem evalDelta_keeps  {z s : State} (r : List Word) (ref : List Word) (bs : List Byte) (old : List Byte) (hk0 : Keeps z s) : Keeps z (evalDelta s r ref bs old).1 := by
  unfold evalDelta
  try dsimp only
  repeat' first
    | with_reducible assumption
    | with_reducible apply Keeps.ite
    | with_reducible apply Keeps.ite1
    | split
    | (dsimp only)
    | intro _
    | (refine Keeps.mk' ?_ rfl rfl rfl rfl rfl rfl rfl rfl rfl; first | with_reducible assumption | with_reducible apply Keeps.ite | with_reducible apply Keeps.ite1 | split | (dsimp only) | split)

theorem evalOcc_keeps  {z s : State} (r : List Word) (ref : List Word) (bs : List Byte) (hk0 : Keeps z s) : Keeps z (evalOcc s r ref bs).1 := by
  unfold evalOcc
  try dsimp only
  repeat' first
    | with_reducible assumption
    | with_reducible apply Keeps.ite
    | with_reducible apply Keeps.ite1
    | split
    | (dsimp only)
    | intro _
    | (refine Keeps.mk' ?_ rfl rfl rfl rfl rfl rfl rfl rfl rfl; first | with_reducible assumption | with_reducible apply Keeps.ite | with_reducible apply Keeps.ite1 | split | (dsimp only) | split)

theorem evalEvidence_keeps  {z s : State} (r : List Word) (hk0 : Keeps z s) : Keeps z (evalEvidence s r).1 := by
  unfold evalEvidence
  try dsimp only
  repeat' first
    | with_reducible assumption
    | with_reducible apply evalRange_keeps
    | with_reducible apply evalDelta_keeps
    | with_reducible apply evalOcc_keeps
    | with_reducible apply Keeps.ite
    | with_reducible apply Keeps.ite1
    | split
    | (dsimp only)
    | intro _
    | (refine Keeps.mk' ?_ rfl rfl rfl rfl rfl rfl rfl rfl rfl; first | with_reducible assumption | with_reducible apply evalRange_keeps | with_reducible apply evalDelta_keeps | with_reducible apply evalOcc_keeps | with_reducible apply Keeps.ite | with_reducible apply Keeps.ite1 | split | (dsimp only) | split)

theorem evalRule_keeps  {z s : State} (r : List Word) (hk0 : Keeps z s) : Keeps z (evalRule s r).1 := by
  unfold evalRule
  try dsimp only
  repeat' first
    | with_reducible assumption
    | with_reducible apply evalJobsDone_keeps
    | with_reducible apply evalArrived_keeps
    | with_reducible apply evalFinishBy_keeps
    | with_reducible apply evalEvidence_keeps
    | with_reducible apply Keeps.ite
    | with_reducible apply Keeps.ite1
    | split
    | (dsimp only)
    | intro _
    | (refine Keeps.mk' ?_ rfl rfl rfl rfl rfl rfl rfl rfl rfl; first | with_reducible assumption | with_reducible apply evalJobsDone_keeps | with_reducible apply evalArrived_keeps | with_reducible apply evalFinishBy_keeps | with_reducible apply evalEvidence_keeps | with_reducible apply Keeps.ite | with_reducible apply Keeps.ite1 | split | (dsimp only) | split)

theorem holdFound_keeps  {z s : State}  (hk0 : Keeps z s) : Keeps z (holdFound s) := by
  unfold holdFound
  try dsimp only
  repeat' first
    | with_reducible assumption
    | with_reducible apply withdraw_keeps
    | with_reducible apply Keeps.ite
    | intro _
    | (refine Keeps.mk' ?_ rfl rfl rfl rfl rfl rfl rfl rfl rfl; first | with_reducible assumption | with_reducible apply withdraw_keeps | with_reducible apply Keeps.ite | split)

theorem violated_keeps  {z s : State} (r : List Word) (hk0 : Keeps z s) : Keeps z (violated s r) := by
  unfold violated
  try dsimp only
  repeat' first
    | with_reducible assumption
    | with_reducible apply withdraw_keeps
    | with_reducible apply holdFound_keeps
    | with_reducible apply Keeps.ite
    | intro _
    | (refine Keeps.mk' ?_ rfl rfl rfl rfl rfl rfl rfl rfl rfl; first | with_reducible assumption | with_reducible apply withdraw_keeps | with_reducible apply holdFound_keeps | with_reducible apply Keeps.ite | split)

theorem conclude_keeps  {z s : State}  (hk0 : Keeps z s) : Keeps z (conclude s) := by
  unfold conclude
  try dsimp only
  repeat' first
    | with_reducible assumption
    | with_reducible apply Keeps.ite
    | intro _
    | (refine Keeps.mk' ?_ rfl rfl rfl rfl rfl rfl rfl rfl rfl; first | with_reducible assumption | with_reducible apply Keeps.ite | split)

theorem startGuilt_keeps  {z s : State} (x : List Word) (hk0 : Keeps z s) : Keeps z (startGuilt s x) := by
  unfold startGuilt
  try dsimp only
  repeat' first
    | with_reducible assumption
    | with_reducible apply conclude_keeps
    | with_reducible apply Keeps.ite
    | intro _
    | (refine Keeps.mk' ?_ rfl rfl rfl rfl rfl rfl rfl rfl rfl; first | with_reducible assumption | with_reducible apply conclude_keeps | with_reducible apply Keeps.ite | split)

theorem evaluate_keeps  {z s : State} (i : Nat) (r : List Word) (hk0 : Keeps z s) : Keeps z (evaluate s i r) := by
  unfold evaluate
  try dsimp only
  repeat' first
    | with_reducible assumption
    | with_reducible apply evalRule_keeps
    | with_reducible apply violated_keeps
    | with_reducible apply startGuilt_keeps
    | with_reducible apply Keeps.ite
    | intro _
    | (refine Keeps.mk' ?_ rfl rfl rfl rfl rfl rfl rfl rfl rfl; first | with_reducible assumption | with_reducible apply evalRule_keeps | with_reducible apply violated_keeps | with_reducible apply startGuilt_keeps | with_reducible apply Keeps.ite | split)

theorem execRuleEvaluate_keeps (i : Nat) (s : State) : ∃ t, execRuleEvaluate i s = .next t ∧ Keeps s t := by
  have hk0 := Keeps.refl s
  refine ⟨_, rfl, ?_⟩
  try dsimp only
  repeat' first
    | with_reducible assumption
    | with_reducible apply evaluate_keeps
    | with_reducible apply Keeps.ite
    | intro _
    | (refine Keeps.mk' ?_ rfl rfl rfl rfl rfl rfl rfl rfl rfl; first | with_reducible assumption | with_reducible apply evaluate_keeps | with_reducible apply Keeps.ite | split)

theorem grant_keeps {z s : State} (hk0 : Keeps z s) : Keeps z (grant s) := by
  refine ⟨hk0.1, hk0.2, hk0.3, hk0.4, fun h => ?_, hk0.6⟩
  have := hk0.5 h
  unfold grant
  by_cases hc : s.saf.clamp = true
  · simp only [safeOk, hc] at this ⊢
    simp_all
  · simp [safeOk, hc]

theorem judgeTrust_keeps  {z s : State} (v : Nat) (hk0 : Keeps z s) : Keeps z (judgeTrust s v) := by
  unfold judgeTrust
  try dsimp only
  repeat' first
    | with_reducible assumption
    | with_reducible apply withdraw_keeps
    | with_reducible apply grant_keeps
    | with_reducible apply await_keeps
    | with_reducible apply Keeps.ite
    | intro _
    | (refine Keeps.mk' ?_ rfl rfl rfl rfl rfl rfl rfl rfl rfl; first | with_reducible assumption | with_reducible apply withdraw_keeps | with_reducible apply grant_keeps | with_reducible apply await_keeps | with_reducible apply Keeps.ite | split)

theorem renewLease_keeps  {z s : State}  (hk0 : Keeps z s) : Keeps z (renewLease s) := by
  unfold renewLease
  try dsimp only
  repeat' first
    | with_reducible assumption
    | with_reducible apply Keeps.ite
    | intro _
    | (refine Keeps.mk' ?_ rfl rfl rfl rfl rfl rfl rfl rfl rfl; first | with_reducible assumption | with_reducible apply Keeps.ite | split)

theorem giveVerdict_keeps  {z s : State}  (hk0 : Keeps z s) : Keeps z (giveVerdict s) := by
  unfold giveVerdict
  try dsimp only
  repeat' first
    | with_reducible assumption
    | with_reducible apply judgeTrust_keeps
    | with_reducible apply renewLease_keeps
    | with_reducible apply writeVerdict_keeps
    | with_reducible apply Keeps.ite
    | intro _
    | (refine Keeps.mk' ?_ rfl rfl rfl rfl rfl rfl rfl rfl rfl; first | with_reducible assumption | with_reducible apply judgeTrust_keeps | with_reducible apply renewLease_keeps | with_reducible apply writeVerdict_keeps | with_reducible apply Keeps.ite | split)

theorem execVerdictWrite_keeps  (s : State) : ∃ t, execVerdictWrite s = .next t ∧ Keeps s t := by
  have hk0 := Keeps.refl s
  refine ⟨_, rfl, ?_⟩
  try dsimp only
  repeat' first
    | with_reducible assumption
    | with_reducible apply giveVerdict_keeps
    | with_reducible apply Keeps.ite
    | intro _
    | (refine Keeps.mk' ?_ rfl rfl rfl rfl rfl rfl rfl rfl rfl; first | with_reducible assumption | with_reducible apply giveVerdict_keeps | with_reducible apply Keeps.ite | split)

theorem execTrustLeaseExpire_keeps  (s : State) : ∃ t, execTrustLeaseExpire s = .next t ∧ Keeps s t := by
  have hk0 := Keeps.refl s
  refine ⟨_, rfl, ?_⟩
  try dsimp only
  repeat' first
    | with_reducible assumption
    | with_reducible apply passTo_keeps
    | with_reducible apply settle_keeps
    | with_reducible apply setSrc_keeps
    | with_reducible apply withdraw_keeps
    | with_reducible apply Keeps.ite
    | intro _
    | (refine Keeps.mk' ?_ rfl rfl rfl rfl rfl rfl rfl rfl rfl; first | with_reducible assumption | with_reducible apply passTo_keeps | with_reducible apply settle_keeps | with_reducible apply setSrc_keeps | with_reducible apply withdraw_keeps | with_reducible apply Keeps.ite | split)

theorem finishTests_keeps  {z s : State}  (hk0 : Keeps z s) : Keeps z (finishTests s) := by
  unfold finishTests
  try dsimp only
  repeat' first
    | with_reducible assumption
    | with_reducible apply finishTok_keeps
    | (with_reducible refine Keeps.foldl (fun s a hs => ?_) _ _ ?_)
    | with_reducible apply Keeps.ite
    | intro _
    | (refine Keeps.mk' ?_ rfl rfl rfl rfl rfl rfl rfl rfl rfl; first | with_reducible assumption | with_reducible apply finishTok_keeps | (with_reducible refine Keeps.foldl (fun s a hs => ?_) _ _ ?_) | with_reducible apply Keeps.ite | split)

theorem quarantine_keeps  {z s : State} (e : Nat) (hk0 : Keeps z s) : Keeps z (quarantine s e) := by
  unfold quarantine
  try dsimp only
  repeat' first
    | with_reducible assumption
    | with_reducible apply modEng_keeps
    | with_reducible apply finishTests_keeps
    | with_reducible apply conclude_keeps
    | with_reducible apply Keeps.ite
    | intro _
    | (refine Keeps.mk' ?_ rfl rfl rfl rfl rfl rfl rfl rfl rfl; first | with_reducible assumption | with_reducible apply modEng_keeps | with_reducible apply finishTests_keeps | with_reducible apply conclude_keeps | with_reducible apply Keeps.ite | split)

theorem deferSlice_keeps  {z s : State} (e : Nat) (w : KatWhy) (hk0 : Keeps z s) : Keeps z (deferSlice s e w) := by
  unfold deferSlice
  try dsimp only
  repeat' first
    | with_reducible assumption
    | with_reducible apply modEng_keeps
    | with_reducible apply Keeps.ite
    | intro _
    | (refine Keeps.mk' ?_ rfl rfl rfl rfl rfl rfl rfl rfl rfl; first | with_reducible assumption | with_reducible apply modEng_keeps | with_reducible apply Keeps.ite | split)

theorem startSlice_keeps  {z s : State} (e : Nat) (w : KatWhy) (hk0 : Keeps z s) : Keeps z (startSlice s e w) := by
  unfold startSlice
  try dsimp only
  repeat' first
    | with_reducible assumption
    | with_reducible apply modEng_keeps
    | with_reducible apply Keeps.ite
    | intro _
    | (refine Keeps.mk' ?_ rfl rfl rfl rfl rfl rfl rfl rfl rfl; first | with_reducible assumption | with_reducible apply modEng_keeps | with_reducible apply Keeps.ite | split)

theorem execKatSliceStart_keeps (e : Nat) (s : State) : ∃ t, execKatSliceStart e s = .next t ∧ Keeps s t := by
  have hk0 := Keeps.refl s
  refine ⟨_, rfl, ?_⟩
  try dsimp only
  repeat' first
    | with_reducible assumption
    | with_reducible apply startSlice_keeps
    | with_reducible apply deferSlice_keeps
    | with_reducible apply Keeps.ite
    | intro _
    | (refine Keeps.mk' ?_ rfl rfl rfl rfl rfl rfl rfl rfl rfl; first | with_reducible assumption | with_reducible apply startSlice_keeps | with_reducible apply deferSlice_keeps | with_reducible apply Keeps.ite | split)

theorem Keeps.iteR {z : State} {c : Prop} [Decidable c] {a b : SliceRun} (ha : c → Keeps z a.s) (hb : ¬c → Keeps z b.s) :
    Keeps z (if c then a else b).s := by
  by_cases h : c
  · rw [if_pos h]; exact ha h
  · rw [if_neg h]; exact hb h
theorem sliceItem_keeps {z : State} (e : Nat) (lanes : List (Nat × (Nat × Nat × Word))) (flips : List (Nat × Byte))
    (r : SliceRun) (it : List Desc × Nat) (hk0 : Keeps z r.s) : Keeps z (sliceItem e lanes flips r it).s := by
  unfold sliceItem
  by_cases h : r.bad = true
  · rw [if_pos h]; exact hk0
  · rw [if_neg h]
    have h1 : Keeps z { r.s with free := r.s.free + 1 } := Keeps.mk' hk0 rfl rfl rfl rfl rfl rfl rfl rfl rfl
    refine Keeps.iteR (fun _ => noteRec_keeps _ _ _ _ _ _ h1) (fun _ => ?_)
    exact doWrites_keeps _ _ (Keeps.ite
      (fun _ => setSrc_keeps _ (modEng_keeps _ _ (noteRec_keeps _ _ _ _ _ _ h1)))
      (fun _ => modEng_keeps _ _ (noteRec_keeps _ _ _ _ _ _ h1)))
theorem sliceItems_keeps {z : State} (e : Nat) (lanes : List (Nat × (Nat × Nat × Word))) (flips : List (Nat × Byte)) :
    ∀ (l : List (List Desc × Nat)) (r : SliceRun), Keeps z r.s → Keeps z (l.foldl (sliceItem e lanes flips) r).s
  | [], _, h => h
  | a :: l, r, h => sliceItems_keeps e lanes flips l _ (sliceItem_keeps e lanes flips r a h)

theorem slicePass_keeps  {z s : State} (e : Nat) (w : KatWhy) (hk0 : Keeps z s) : Keeps z (slicePass s e w) := by
  unfold slicePass
  try dsimp only
  repeat' first
    | with_reducible assumption
    | with_reducible apply modEng_keeps
    | with_reducible apply conclude_keeps
    | with_reducible apply finishTests_keeps
    | with_reducible apply Keeps.ite
    | intro _
    | (refine Keeps.mk' ?_ rfl rfl rfl rfl rfl rfl rfl rfl rfl; first | with_reducible assumption | with_reducible apply modEng_keeps | with_reducible apply conclude_keeps | with_reducible apply finishTests_keeps | with_reducible apply Keeps.ite | split)

theorem slicePoison_keeps  {z s : State} (e : Nat) (w : KatWhy) (hk0 : Keeps z s) : Keeps z (slicePoison s e w) := by
  unfold slicePoison
  try dsimp only
  repeat' first
    | with_reducible assumption
    | with_reducible apply setSrc_keeps
    | with_reducible apply bumpUc_keeps
    | with_reducible apply deferSlice_keeps
    | with_reducible apply modEng_keeps
    | with_reducible apply Keeps.ite
    | intro _
    | (refine Keeps.mk' ?_ rfl rfl rfl rfl rfl rfl rfl rfl rfl; first | with_reducible assumption | with_reducible apply setSrc_keeps | with_reducible apply bumpUc_keeps | with_reducible apply deferSlice_keeps | with_reducible apply modEng_keeps | with_reducible apply Keeps.ite | split)

theorem sliceErr_keeps  {z s : State} (e : Nat) (x : EngErr) (hk0 : Keeps z s) : Keeps z (sliceErr e s x) := by
  unfold sliceErr
  try dsimp only
  repeat' first
    | with_reducible assumption
    | with_reducible apply setSrc_keeps
    | with_reducible apply bumpCe_keeps
    | with_reducible apply bumpUc_keeps
    | with_reducible apply Keeps.ite
    | intro _
    | (refine Keeps.mk' ?_ rfl rfl rfl rfl rfl rfl rfl rfl rfl; first | with_reducible assumption | with_reducible apply setSrc_keeps | with_reducible apply bumpCe_keeps | with_reducible apply bumpUc_keeps | with_reducible apply Keeps.ite | split)

theorem runSlice_keeps {z s : State} (e : Nat) (lanes : List (Nat × (Nat × Nat × Word))) (flips : List (Nat × Byte))
    (hk0 : Keeps z s) : Keeps z (runSlice s e lanes flips).s :=
  sliceItems_keeps e lanes flips _ { s := s, bytes := [], pass := true, bad := slicePoisoned s e } hk0

theorem endSlice_keeps {z s : State} (e cycles : Nat) (lanes : List (Nat × (Nat × Nat × Word))) (flips : List (Nat × Byte))
    (w : KatWhy) (errs : List EngErr) (hk0 : Keeps z s) : Keeps z (endSlice s e cycles lanes flips w errs) := by
  unfold endSlice
  dsimp only
  have h1 : Keeps z (errs.foldl (sliceErr e) (elapse s cycles)) :=
    Keeps.foldl (fun _ _ h => sliceErr_keeps _ _ h) _ _ (elapse_keeps _ hk0)
  have h2 := runSlice_keeps e lanes flips h1
  repeat' first
    | with_reducible assumption
    | with_reducible apply slicePoison_keeps
    | with_reducible apply slicePass_keeps
    | with_reducible apply quarantine_keeps
    | with_reducible apply setSrc_keeps
    | with_reducible apply Keeps.ite
    | intro _
    | (refine Keeps.mk' ?_ rfl rfl rfl rfl rfl rfl rfl rfl rfl; with_reducible apply quarantine_keeps)

theorem execKatSliceEnd_keeps (e : Nat) (cycles : Nat) (lanes : List (Nat × (Nat × Nat × Word))) (flips : List (Nat × Byte)) (errs : List EngErr) (s : State) : ∃ t, execKatSliceEnd e cycles lanes flips s errs = .next t ∧ Keeps s t := by
  have hk0 := Keeps.refl s
  refine ⟨_, rfl, ?_⟩
  try dsimp only
  repeat' first
    | with_reducible assumption
    | with_reducible apply settle_keeps
    | with_reducible apply endSlice_keeps
    | with_reducible apply Keeps.ite
    | intro _
    | (refine Keeps.mk' ?_ rfl rfl rfl rfl rfl rfl rfl rfl rfl; first | with_reducible assumption | with_reducible apply settle_keeps | with_reducible apply endSlice_keeps | with_reducible apply Keeps.ite | split)

theorem doRunSelftest_keeps  {z s : State} (k : Pkt) (hk0 : Keeps z s) : Keeps z (doRunSelftest k s).1 := by
  unfold doRunSelftest
  try dsimp only
  repeat' first
    | with_reducible assumption
    | with_reducible apply badWord_keeps
    | with_reducible apply issueCmd_keeps
    | with_reducible apply finishTests_keeps
    | with_reducible apply Keeps.ite
    | with_reducible apply Keeps.ite1
    | split
    | (dsimp only)
    | intro _
    | (refine Keeps.mk' ?_ rfl rfl rfl rfl rfl rfl rfl rfl rfl; first | with_reducible assumption | with_reducible apply badWord_keeps | with_reducible apply issueCmd_keeps | with_reducible apply finishTests_keeps | with_reducible apply Keeps.ite | with_reducible apply Keeps.ite1 | split | (dsimp only) | split)

theorem execRunSelftest_keeps (k : Pkt) (s : State) : ∃ t, execRunSelftest k s = .next t ∧ Keeps s t := by
  have hk0 := Keeps.refl s
  refine ⟨_, rfl, ?_⟩
  try dsimp only
  repeat' first
    | with_reducible assumption
    | with_reducible apply command_keeps
    | with_reducible apply doRunSelftest_keeps
    | with_reducible apply Keeps.ite
    | intro _
    | (refine Keeps.mk' ?_ rfl rfl rfl rfl rfl rfl rfl rfl rfl; first | with_reducible assumption | with_reducible apply command_keeps | with_reducible apply doRunSelftest_keeps | with_reducible apply Keeps.ite | split)

theorem doLoadTestPack_keeps  {z s : State} (k : Pkt) (hk0 : Keeps z s) : Keeps z (doLoadTestPack k s).1 := by
  unfold doLoadTestPack
  try dsimp only
  repeat' first
    | with_reducible assumption
    | with_reducible apply badWord_keeps
    | with_reducible apply refuse_keeps
    | with_reducible apply issueCmd_keeps
    | with_reducible apply Keeps.ite
    | with_reducible apply Keeps.ite1
    | split
    | (dsimp only)
    | intro _
    | (refine Keeps.mk' ?_ rfl rfl rfl rfl rfl rfl rfl rfl rfl; first | with_reducible assumption | with_reducible apply badWord_keeps | with_reducible apply refuse_keeps | with_reducible apply issueCmd_keeps | with_reducible apply Keeps.ite | with_reducible apply Keeps.ite1 | split | (dsimp only) | split)

theorem execLoadTestPack_keeps (k : Pkt) (s : State) : ∃ t, execLoadTestPack k s = .next t ∧ Keeps s t := by
  have hk0 := Keeps.refl s
  refine ⟨_, rfl, ?_⟩
  try dsimp only
  repeat' first
    | with_reducible assumption
    | with_reducible apply command_keeps
    | with_reducible apply doLoadTestPack_keeps
    | with_reducible apply Keeps.ite
    | intro _
    | (refine Keeps.mk' ?_ rfl rfl rfl rfl rfl rfl rfl rfl rfl; first | with_reducible assumption | with_reducible apply command_keeps | with_reducible apply doLoadTestPack_keeps | with_reducible apply Keeps.ite | split)

theorem packDone_keeps  {z s : State} (t : Word) (a : Nat) (n : Nat) (hk0 : Keeps z s) : Keeps z (packDone s t a n) := by
  unfold packDone
  try dsimp only
  repeat' first
    | with_reducible assumption
    | with_reducible apply finishTok_keeps
    | with_reducible apply sigCount_keeps
    | with_reducible apply activatePack_keeps
    | with_reducible apply Keeps.ite
    | split
    | intro _
    | (refine Keeps.mk' ?_ rfl rfl rfl rfl rfl rfl rfl rfl rfl; first | with_reducible assumption | with_reducible apply finishTok_keeps | with_reducible apply sigCount_keeps | with_reducible apply activatePack_keeps | with_reducible apply Keeps.ite | split | split)

theorem execLoadTestPackDone_keeps (ecc : List (Nat × Ecc)) (s : State) : ∃ t, execLoadTestPackDone s ecc = .next t ∧ Keeps s t := by
  have hk0 := Keeps.refl s
  refine ⟨_, rfl, ?_⟩
  try dsimp only
  repeat' first
    | with_reducible assumption
    | with_reducible apply settle_keeps
    | with_reducible apply pairAGo_keeps
    | with_reducible apply packDone_keeps
    | with_reducible apply Keeps.ite
    | intro _
    | (refine Keeps.mk' ?_ rfl rfl rfl rfl rfl rfl rfl rfl rfl; first | with_reducible assumption | with_reducible apply settle_keeps | with_reducible apply pairAGo_keeps | with_reducible apply packDone_keeps | with_reducible apply Keeps.ite | split)

end Sys2Proof.Machine
end

