-- ==== Sys2Proof/Laws/Keeps/Recovery.lean ====
section
/-! SUPPORT. What the definitions of Machine/Recovery.lean keep (Laws/Keeps.lean). -/

set_option linter.unusedTactic false
set_option linter.unreachableTactic false
set_option linter.unusedVariables false

namespace Sys2Proof.Machine

theorem doReadFaults_keeps  {z s : State} (_k : Pkt) (hk0 : Keeps z s) : Keeps z (doReadFaults _k s).1 := by
  unfold doReadFaults
  try dsimp only
  repeat' first
    | with_reducible assumption
    | with_reducible apply Keeps.ite
    | with_reducible apply Keeps.ite1
    | split
    | (dsimp only)
    | intro _
    | (refine Keeps.mk' ?_ rfl rfl rfl rfl rfl rfl rfl rfl rfl; first | with_reducible assumption | with_reducible apply Keeps.ite | with_reducible apply Keeps.ite1 | split | (dsimp only) | split)

theorem execReadFaults_keeps (k : Pkt) (s : State) : ∃ t, execReadFaults k s = .next t ∧ Keeps s t := by
  have hk0 := Keeps.refl s
  refine ⟨_, rfl, ?_⟩
  try dsimp only
  repeat' first
    | with_reducible assumption
    | with_reducible apply command_keeps
    | with_reducible apply doReadFaults_keeps
    | with_reducible apply Keeps.ite
    | intro _
    | (refine Keeps.mk' ?_ rfl rfl rfl rfl rfl rfl rfl rfl rfl; first | with_reducible assumption | with_reducible apply command_keeps | with_reducible apply doReadFaults_keeps | with_reducible apply Keeps.ite | split)

theorem doClearFaults_keeps  {z s : State} (k : Pkt) (hk0 : Keeps z s) : Keeps z (doClearFaults k s).1 := by
  unfold doClearFaults
  try dsimp only
  repeat' first
    | with_reducible assumption
    | with_reducible apply badWord_keeps
    | with_reducible apply refuse_keeps
    | with_reducible apply levelSources_keeps
    | with_reducible apply Keeps.ite
    | with_reducible apply Keeps.ite1
    | split
    | (dsimp only)
    | intro _
    | (refine Keeps.mk' ?_ rfl rfl rfl rfl rfl rfl rfl rfl rfl; first | with_reducible assumption | with_reducible apply badWord_keeps | with_reducible apply refuse_keeps | with_reducible apply levelSources_keeps | with_reducible apply Keeps.ite | with_reducible apply Keeps.ite1 | split | (dsimp only) | split)

theorem execClearFaults_keeps (k : Pkt) (s : State) : ∃ t, execClearFaults k s = .next t ∧ Keeps s t := by
  have hk0 := Keeps.refl s
  refine ⟨_, rfl, ?_⟩
  try dsimp only
  repeat' first
    | with_reducible assumption
    | with_reducible apply command_keeps
    | with_reducible apply doClearFaults_keeps
    | with_reducible apply Keeps.ite
    | intro _
    | (refine Keeps.mk' ?_ rfl rfl rfl rfl rfl rfl rfl rfl rfl; first | with_reducible assumption | with_reducible apply command_keeps | with_reducible apply doClearFaults_keeps | with_reducible apply Keeps.ite | split)

theorem clearEngine_keeps  {z s : State} (e : Nat) (hk0 : Keeps z s) : Keeps z (clearEngine s e) := by
  unfold clearEngine
  try dsimp only
  repeat' first
    | with_reducible assumption
    | with_reducible apply modEng_keeps
    | with_reducible apply reclaim_keeps
    | with_reducible apply Keeps.ite
    | intro _
    | (refine Keeps.mk' ?_ rfl rfl rfl rfl rfl rfl rfl rfl rfl; first | with_reducible assumption | with_reducible apply modEng_keeps | with_reducible apply reclaim_keeps | with_reducible apply Keeps.ite | split)

theorem clearIsp_keeps  {z s : State} (n : Nat) (hk0 : Keeps z s) : Keeps z (clearIsp s n) := by
  unfold clearIsp
  try dsimp only
  repeat' first
    | with_reducible assumption
    | with_reducible apply dropCur_keeps
    | with_reducible apply dropKept_keeps
    | with_reducible apply modIsp_keeps
    | with_reducible apply reclaim_keeps
    | (with_reducible refine Keeps.foldl (fun s a hs => ?_) _ _ ?_)
    | with_reducible apply Keeps.ite
    | intro _
    | (refine Keeps.mk' ?_ rfl rfl rfl rfl rfl rfl rfl rfl rfl; first | with_reducible assumption | with_reducible apply dropCur_keeps | with_reducible apply dropKept_keeps | with_reducible apply modIsp_keeps | with_reducible apply reclaim_keeps | (with_reducible refine Keeps.foldl (fun s a hs => ?_) _ _ ?_) | with_reducible apply Keeps.ite | split)

theorem applyReset_keeps  {z s : State} (ds : List Nat) (hk0 : Keeps z s) : Keeps z (applyReset s ds) := by
  unfold applyReset
  try dsimp only
  repeat' first
    | with_reducible assumption
    | with_reducible apply killJobs_keeps
    | with_reducible apply haltIdle_keeps
    | with_reducible apply clearEngine_keeps
    | with_reducible apply clearIsp_keeps
    | (with_reducible refine Keeps.foldl (fun s a hs => ?_) _ _ ?_)
    | with_reducible apply Keeps.ite
    | intro _
    | (refine Keeps.mk' ?_ rfl rfl rfl rfl rfl rfl rfl rfl rfl; first | with_reducible assumption | with_reducible apply killJobs_keeps | with_reducible apply haltIdle_keeps | with_reducible apply clearEngine_keeps | with_reducible apply clearIsp_keeps | (with_reducible refine Keeps.foldl (fun s a hs => ?_) _ _ ?_) | with_reducible apply Keeps.ite | split)

theorem recordStep_keeps  {z s : State} (l : Ladder) (failed : Bool) (hk0 : Keeps z s) : Keeps z (recordStep l failed s) := by
  unfold recordStep
  try dsimp only
  repeat' first
    | with_reducible assumption
    | with_reducible apply Keeps.ite
    | intro _
    | (refine Keeps.mk' ?_ rfl rfl rfl rfl rfl rfl rfl rfl rfl; first | with_reducible assumption | with_reducible apply Keeps.ite | split)

theorem startStep_keeps  {z s : State} (l : Ladder) (hk0 : Keeps z s) : Keeps z (startStep s l) := by
  unfold startStep
  try dsimp only
  repeat' first
    | with_reducible assumption
    | with_reducible apply applyReset_keeps
    | with_reducible apply Keeps.ite
    | intro _
    | (refine Keeps.mk' ?_ rfl rfl rfl rfl rfl rfl rfl rfl rfl; first | with_reducible assumption | with_reducible apply applyReset_keeps | with_reducible apply Keeps.ite | split)

theorem nextHang_keeps  {z s : State}  (hk0 : Keeps z s) : Keeps z (nextHang s) := by
  unfold nextHang
  try dsimp only
  repeat' first
    | with_reducible assumption
    | with_reducible apply startStep_keeps
    | with_reducible apply Keeps.ite
    | intro _
    | (refine Keeps.mk' ?_ rfl rfl rfl rfl rfl rfl rfl rfl rfl; first | with_reducible assumption | with_reducible apply startStep_keeps | with_reducible apply Keeps.ite | split)

theorem resetDone_keeps  {z s : State} (l : Ladder) (hk0 : Keeps z s) : Keeps z (resetDone s l) := by
  unfold resetDone
  try dsimp only
  repeat' first
    | with_reducible assumption
    | with_reducible apply modIsp_keeps
    | with_reducible apply modEng_keeps
    | with_reducible apply quarantine_keeps
    | with_reducible apply recordStep_keeps
    | with_reducible apply finishTok_keeps
    | with_reducible apply nextHang_keeps
    | (with_reducible refine Keeps.foldl (fun s a hs => ?_) _ _ ?_)
    | with_reducible apply Keeps.ite
    | intro _
    | (refine Keeps.mk' ?_ rfl rfl rfl rfl rfl rfl rfl rfl rfl; first | with_reducible assumption | with_reducible apply modIsp_keeps | with_reducible apply modEng_keeps | with_reducible apply quarantine_keeps | with_reducible apply recordStep_keeps | with_reducible apply finishTok_keeps | with_reducible apply nextHang_keeps | (with_reducible refine Keeps.foldl (fun s a hs => ?_) _ _ ?_) | with_reducible apply Keeps.ite | split)

theorem execDomainResetComplete_keeps  (s : State) : ∃ t, execDomainResetComplete s = .next t ∧ Keeps s t := by
  have hk0 := Keeps.refl s
  refine ⟨_, rfl, ?_⟩
  try dsimp only
  repeat' first
    | with_reducible assumption
    | with_reducible apply settleUnits_keeps
    | with_reducible apply resetDone_keeps
    | with_reducible apply Keeps.ite
    | intro _
    | (refine Keeps.mk' ?_ rfl rfl rfl rfl rfl rfl rfl rfl rfl; first | with_reducible assumption | with_reducible apply settleUnits_keeps | with_reducible apply resetDone_keeps | with_reducible apply Keeps.ite | split)

theorem execResetStepTimeout_keeps  (s : State) : ∃ t, execResetStepTimeout s = .next t ∧ Keeps s t := by
  have hk0 := Keeps.refl s
  refine ⟨_, rfl, ?_⟩
  try dsimp only
  repeat' first
    | with_reducible assumption
    | with_reducible apply passTo_keeps
    | with_reducible apply setSrc_keeps
    | with_reducible apply recordStep_keeps
    | with_reducible apply settle_keeps
    | with_reducible apply finishTok_keeps
    | with_reducible apply startStep_keeps
    | with_reducible apply startWarm_keeps
    | with_reducible apply Keeps.ite
    | intro _
    | (refine Keeps.mk' ?_ rfl rfl rfl rfl rfl rfl rfl rfl rfl; first | with_reducible assumption | with_reducible apply passTo_keeps | with_reducible apply setSrc_keeps | with_reducible apply recordStep_keeps | with_reducible apply settle_keeps | with_reducible apply finishTok_keeps | with_reducible apply startStep_keeps | with_reducible apply startWarm_keeps | with_reducible apply Keeps.ite | split)

theorem doResetDomain_keeps  {z s : State} (k : Pkt) (hk0 : Keeps z s) : Keeps z (doResetDomain k s).1 := by
  unfold doResetDomain
  try dsimp only
  repeat' first
    | with_reducible assumption
    | with_reducible apply badWord_keeps
    | with_reducible apply refuse_keeps
    | with_reducible apply startWarm_keeps
    | with_reducible apply issueCmd_keeps
    | with_reducible apply startStep_keeps
    | with_reducible apply Keeps.ite
    | with_reducible apply Keeps.ite1
    | split
    | (dsimp only)
    | intro _
    | (refine Keeps.mk' ?_ rfl rfl rfl rfl rfl rfl rfl rfl rfl; first | with_reducible assumption | with_reducible apply badWord_keeps | with_reducible apply refuse_keeps | with_reducible apply startWarm_keeps | with_reducible apply issueCmd_keeps | with_reducible apply startStep_keeps | with_reducible apply Keeps.ite | with_reducible apply Keeps.ite1 | split | (dsimp only) | split)

theorem execResetDomain_keeps (k : Pkt) (s : State) : ∃ t, execResetDomain k s = .next t ∧ Keeps s t := by
  have hk0 := Keeps.refl s
  refine ⟨_, rfl, ?_⟩
  try dsimp only
  repeat' first
    | with_reducible assumption
    | with_reducible apply command_keeps
    | with_reducible apply doResetDomain_keeps
    | with_reducible apply Keeps.ite
    | intro _
    | (refine Keeps.mk' ?_ rfl rfl rfl rfl rfl rfl rfl rfl rfl; first | with_reducible assumption | with_reducible apply command_keeps | with_reducible apply doResetDomain_keeps | with_reducible apply Keeps.ite | split)

theorem replayHung_keeps  {z s : State} (t : Word) (hk0 : Keeps z s) : Keeps z (replayHung s t) := by
  unfold replayHung
  try dsimp only
  repeat' first
    | with_reducible assumption
    | with_reducible apply Keeps.ite
    | intro _
    | (refine Keeps.mk' ?_ rfl rfl rfl rfl rfl rfl rfl rfl rfl; first | with_reducible assumption | with_reducible apply Keeps.ite | split)

theorem declareHang_keeps  {z s : State} (e : Nat) (cause : Nat) (a : Attempt) (hk0 : Keeps z s) : Keeps z (declareHang s e cause a) := by
  unfold declareHang
  try dsimp only
  repeat' first
    | with_reducible assumption
    | with_reducible apply setSrc_keeps
    | with_reducible apply replayHung_keeps
    | with_reducible apply modEng_keeps
    | with_reducible apply startStep_keeps
    | with_reducible apply Keeps.ite
    | intro _
    | (refine Keeps.mk' ?_ rfl rfl rfl rfl rfl rfl rfl rfl rfl; first | with_reducible assumption | with_reducible apply setSrc_keeps | with_reducible apply replayHung_keeps | with_reducible apply modEng_keeps | with_reducible apply startStep_keeps | with_reducible apply Keeps.ite | split)

theorem execHangOverrun_keeps (e : Nat) (s : State) : ∃ t, execHangOverrun e s = .next t ∧ Keeps s t := by
  have hk0 := Keeps.refl s
  refine ⟨_, rfl, ?_⟩
  try dsimp only
  repeat' first
    | with_reducible assumption
    | with_reducible apply elapse_keeps
    | with_reducible apply settleUnits_keeps
    | with_reducible apply declareHang_keeps
    | with_reducible apply Keeps.ite
    | intro _
    | (refine Keeps.mk' ?_ rfl rfl rfl rfl rfl rfl rfl rfl rfl; first | with_reducible assumption | with_reducible apply elapse_keeps | with_reducible apply settleUnits_keeps | with_reducible apply declareHang_keeps | with_reducible apply Keeps.ite | split)

theorem execHangNoAck_keeps (e : Nat) (s : State) : ∃ t, execHangNoAck e s = .next t ∧ Keeps s t := by
  have hk0 := Keeps.refl s
  refine ⟨_, rfl, ?_⟩
  try dsimp only
  repeat' first
    | with_reducible assumption
    | with_reducible apply elapse_keeps
    | with_reducible apply settleUnits_keeps
    | with_reducible apply declareHang_keeps
    | with_reducible apply Keeps.ite
    | intro _
    | (refine Keeps.mk' ?_ rfl rfl rfl rfl rfl rfl rfl rfl rfl; first | with_reducible assumption | with_reducible apply elapse_keeps | with_reducible apply settleUnits_keeps | with_reducible apply declareHang_keeps | with_reducible apply Keeps.ite | split)

theorem doGuiltReplay_keeps  {z s : State} (k : Pkt) (hk0 : Keeps z s) : Keeps z (doGuiltReplay k s).1 := by
  unfold doGuiltReplay
  try dsimp only
  repeat' first
    | with_reducible assumption
    | with_reducible apply badWord_keeps
    | with_reducible apply refuse_keeps
    | with_reducible apply issueCtx_keeps
    | with_reducible apply addTok_keeps
    | with_reducible apply units_keeps
    | with_reducible apply tryDone_keeps
    | with_reducible apply startJob_keeps
    | with_reducible apply Keeps.ite
    | with_reducible apply Keeps.ite1
    | split
    | (dsimp only)
    | intro _
    | (refine Keeps.mk' ?_ rfl rfl rfl rfl rfl rfl rfl rfl rfl; first | with_reducible assumption | with_reducible apply badWord_keeps | with_reducible apply refuse_keeps | with_reducible apply issueCtx_keeps | with_reducible apply addTok_keeps | with_reducible apply units_keeps | with_reducible apply tryDone_keeps | with_reducible apply startJob_keeps | with_reducible apply Keeps.ite | with_reducible apply Keeps.ite1 | split | (dsimp only) | split)

theorem execGuiltReplay_keeps (k : Pkt) (s : State) : ∃ t, execGuiltReplay k s = .next t ∧ Keeps s t := by
  have hk0 := Keeps.refl s
  refine ⟨_, rfl, ?_⟩
  try dsimp only
  repeat' first
    | with_reducible assumption
    | with_reducible apply command_keeps
    | with_reducible apply doGuiltReplay_keeps
    | with_reducible apply Keeps.ite
    | intro _
    | (refine Keeps.mk' ?_ rfl rfl rfl rfl rfl rfl rfl rfl rfl; first | with_reducible assumption | with_reducible apply command_keeps | with_reducible apply doGuiltReplay_keeps | with_reducible apply Keeps.ite | split)

theorem execControlPairMismatch_keeps (pairB : Bool) (s : State) : ∃ t, execControlPairMismatch pairB s = .next t ∧ Keeps s t := by
  have hk0 := Keeps.refl s
  refine ⟨_, rfl, ?_⟩
  try dsimp only
  repeat' first
    | with_reducible assumption
    | with_reducible apply settle_keeps
    | with_reducible apply stopPairB_keeps
    | with_reducible apply stopPairA_keeps
    | with_reducible apply Keeps.ite
    | intro _
    | (refine Keeps.mk' ?_ rfl rfl rfl rfl rfl rfl rfl rfl rfl; first | with_reducible assumption | with_reducible apply settle_keeps | with_reducible apply stopPairB_keeps | with_reducible apply stopPairA_keeps | with_reducible apply Keeps.ite | split)

theorem execHeadlandLockstepFault_keeps (corrected : Bool) (s : State) : ∃ t, execHeadlandLockstepFault s corrected = .next t ∧ Keeps s t := by
  have hk0 := Keeps.refl s
  refine ⟨_, rfl, ?_⟩
  try dsimp only
  repeat' first
    | with_reducible assumption
    | with_reducible apply settle_keeps
    | with_reducible apply setSrc_keeps
    | with_reducible apply Keeps.ite
    | intro _
    | (refine Keeps.mk' ?_ rfl rfl rfl rfl rfl rfl rfl rfl rfl; first | with_reducible assumption | with_reducible apply settle_keeps | with_reducible apply setSrc_keeps | with_reducible apply Keeps.ite | split)

end Sys2Proof.Machine
end

