-- ==== Sys2Proof/Laws/Keeps/Mapin.lean ====
section
/-! SUPPORT. What the definitions of Machine/Mapin.lean keep (Laws/Keeps.lean). -/

set_option linter.unusedTactic false
set_option linter.unreachableTactic false
set_option linter.unusedVariables false

namespace Sys2Proof.Machine

theorem emit_keeps  {z s : State} (f : MFrame) (hk0 : Keeps z s) : Keeps z (emit s f) := by
  unfold emit
  try dsimp only
  repeat' first
    | with_reducible assumption
    | with_reducible apply putLink_keeps
    | with_reducible apply Keeps.ite
    | intro _
    | (refine Keeps.mk' ?_ rfl rfl rfl rfl rfl rfl rfl rfl rfl; first | with_reducible assumption | with_reducible apply putLink_keeps | with_reducible apply Keeps.ite | split)

theorem stamp_keeps  {z s : State} (f : MFrame) (hk0 : Keeps z s) : Keeps z (stamp s f).1 := by
  unfold stamp
  try dsimp only
  repeat' first
    | with_reducible assumption
    | with_reducible apply readReply_keeps
    | with_reducible apply arrive_keeps
    | with_reducible apply Keeps.ite
    | with_reducible apply Keeps.ite1
    | split
    | (dsimp only)
    | intro _
    | (refine Keeps.mk' ?_ rfl rfl rfl rfl rfl rfl rfl rfl rfl; first | with_reducible assumption | with_reducible apply readReply_keeps | with_reducible apply arrive_keeps | with_reducible apply Keeps.ite | with_reducible apply Keeps.ite1 | split | (dsimp only) | split)

theorem sendFrame_keeps  {z s : State} (f0 : MFrame) (hk0 : Keeps z s) : Keeps z (sendFrame s f0) := by
  unfold sendFrame
  try dsimp only
  repeat' first
    | with_reducible assumption
    | with_reducible apply stamp_keeps
    | with_reducible apply emit_keeps
    | with_reducible apply putLink_keeps
    | with_reducible apply Keeps.ite
    | intro _
    | (refine Keeps.mk' ?_ rfl rfl rfl rfl rfl rfl rfl rfl rfl; first | with_reducible assumption | with_reducible apply stamp_keeps | with_reducible apply emit_keeps | with_reducible apply putLink_keeps | with_reducible apply Keeps.ite | split)

theorem readRows_keeps  {z s : State} (f : MFrame) (o : Nat → Ecc) (hk0 : Keeps z s) : Keeps z (readRows s f o) := by
  unfold readRows
  try dsimp only
  repeat' first
    | with_reducible assumption
    | with_reducible apply portRead_keeps
    | with_reducible apply Keeps.ite
    | intro _
    | (refine Keeps.mk' ?_ rfl rfl rfl rfl rfl rfl rfl rfl rfl; first | with_reducible assumption | with_reducible apply portRead_keeps | with_reducible apply Keeps.ite | split)

theorem trySend_keeps  {z s : State} (f : MFrame) (o : Nat → Ecc) (hk0 : Keeps z s) : Keeps z (trySend s f o) := by
  unfold trySend
  try dsimp only
  repeat' first
    | with_reducible assumption
    | with_reducible apply readRows_keeps
    | with_reducible apply sendFrame_keeps
    | with_reducible apply Keeps.ite
    | intro _
    | (refine Keeps.mk' ?_ rfl rfl rfl rfl rfl rfl rfl rfl rfl; first | with_reducible assumption | with_reducible apply readRows_keeps | with_reducible apply sendFrame_keeps | with_reducible apply Keeps.ite | split)

theorem execMapinFrameSend_keeps (dst : BitVec 16) (ecc : List (Nat × Ecc)) (s : State) : ∃ t, execMapinFrameSend dst s ecc = .next t ∧ Keeps s t := by
  have hk0 := Keeps.refl s
  refine ⟨_, rfl, ?_⟩
  try dsimp only
  repeat' first
    | with_reducible assumption
    | with_reducible apply settle_keeps
    | with_reducible apply trySend_keeps
    | with_reducible apply Keeps.ite
    | intro _
    | (refine Keeps.mk' ?_ rfl rfl rfl rfl rfl rfl rfl rfl rfl; first | with_reducible assumption | with_reducible apply settle_keeps | with_reducible apply trySend_keeps | with_reducible apply Keeps.ite | split)

theorem resend_keeps  {z s : State} (dst : BitVec 16) (hk0 : Keeps z s) : Keeps z (resend s dst) := by
  unfold resend
  try dsimp only
  repeat' first
    | with_reducible assumption
    | with_reducible apply emit_keeps
    | (with_reducible refine Keeps.foldl (fun s a hs => ?_) _ _ ?_)
    | with_reducible apply Keeps.ite
    | intro _
    | (refine Keeps.mk' ?_ rfl rfl rfl rfl rfl rfl rfl rfl rfl; first | with_reducible assumption | with_reducible apply emit_keeps | (with_reducible refine Keeps.foldl (fun s a hs => ?_) _ _ ?_) | with_reducible apply Keeps.ite | split)

theorem execMapinResendTimeout_keeps (dst : BitVec 16) (s : State) : ∃ t, execMapinResendTimeout dst s = .next t ∧ Keeps s t := by
  have hk0 := Keeps.refl s
  refine ⟨_, rfl, ?_⟩
  try dsimp only
  repeat' first
    | with_reducible assumption
    | with_reducible apply resend_keeps
    | with_reducible apply Keeps.ite
    | intro _
    | (refine Keeps.mk' ?_ rfl rfl rfl rfl rfl rfl rfl rfl rfl; first | with_reducible assumption | with_reducible apply resend_keeps | with_reducible apply Keeps.ite | split)

theorem execMapinLinkKeepalive_keeps (dst : BitVec 16) (s : State) : ∃ t, execMapinLinkKeepalive dst s = .next t ∧ Keeps s t := by
  have hk0 := Keeps.refl s
  refine ⟨_, rfl, ?_⟩
  try dsimp only
  repeat' first
    | with_reducible assumption
    | with_reducible apply trySend_keeps
    | with_reducible apply emit_keeps
    | with_reducible apply putLink_keeps
    | with_reducible apply Keeps.ite
    | intro _
    | (refine Keeps.mk' ?_ rfl rfl rfl rfl rfl rfl rfl rfl rfl; first | with_reducible assumption | with_reducible apply trySend_keeps | with_reducible apply emit_keeps | with_reducible apply putLink_keeps | with_reducible apply Keeps.ite | split)

theorem endReqs_keeps  {z s : State} (n : BitVec 16) (hk0 : Keeps z s) : Keeps z (endReqs s n) := by
  unfold endReqs
  try dsimp only
  repeat' first
    | with_reducible assumption
    | with_reducible apply Keeps.ite
    | intro _
    | (refine Keeps.mk' ?_ rfl rfl rfl rfl rfl rfl rfl rfl rfl; first | with_reducible assumption | with_reducible apply Keeps.ite | split)

theorem killLost_keeps  {z s : State} (n : BitVec 16) (hk0 : Keeps z s) : Keeps z (killLost s n) := by
  unfold killLost
  try dsimp only
  repeat' first
    | with_reducible assumption
    | with_reducible apply killJobs_keeps
    | with_reducible apply windowsInvalid_keeps
    | with_reducible apply endReqs_keeps
    | with_reducible apply cascade_keeps
    | with_reducible apply Keeps.ite
    | intro _
    | (refine Keeps.mk' ?_ rfl rfl rfl rfl rfl rfl rfl rfl rfl; first | with_reducible assumption | with_reducible apply killJobs_keeps | with_reducible apply windowsInvalid_keeps | with_reducible apply endReqs_keeps | with_reducible apply cascade_keeps | with_reducible apply Keeps.ite | split)

theorem failBarriers_keeps  {z s : State} (st : Status) (hk0 : Keeps z s) : Keeps z (failBarriers s st) := by
  unfold failBarriers
  try dsimp only
  repeat' first
    | with_reducible assumption
    | with_reducible apply finishTok_keeps
    | with_reducible apply setSrc_keeps
    | (with_reducible refine Keeps.foldl (fun s a hs => ?_) _ _ ?_)
    | with_reducible apply Keeps.ite
    | intro _
    | (refine Keeps.mk' ?_ rfl rfl rfl rfl rfl rfl rfl rfl rfl; first | with_reducible assumption | with_reducible apply finishTok_keeps | with_reducible apply setSrc_keeps | (with_reducible refine Keeps.foldl (fun s a hs => ?_) _ _ ?_) | with_reducible apply Keeps.ite | split)

theorem memberLost_keeps  {z s : State} (n : BitVec 16) (hk0 : Keeps z s) : Keeps z (memberLost s n) := by
  unfold memberLost
  try dsimp only
  repeat' first
    | with_reducible assumption
    | with_reducible apply setSrc_keeps
    | with_reducible apply failBarriers_keeps
    | with_reducible apply killLost_keeps
    | with_reducible apply putLink_keeps
    | with_reducible apply queueFrame_keeps
    | with_reducible apply Keeps.ite
    | intro _
    | (refine Keeps.mk' ?_ rfl rfl rfl rfl rfl rfl rfl rfl rfl; first | with_reducible assumption | with_reducible apply setSrc_keeps | with_reducible apply failBarriers_keeps | with_reducible apply killLost_keeps | with_reducible apply putLink_keeps | with_reducible apply queueFrame_keeps | with_reducible apply Keeps.ite | split)

theorem execMapinReqTimeout_keeps (reqId : Word) (s : State) : ∃ t, execMapinReqTimeout reqId s = .next t ∧ Keeps s t := by
  have hk0 := Keeps.refl s
  refine ⟨_, rfl, ?_⟩
  try dsimp only
  repeat' first
    | with_reducible assumption
    | with_reducible apply passTo_keeps
    | with_reducible apply settleUnits_keeps
    | with_reducible apply killLost_keeps
    | with_reducible apply memberLost_keeps
    | with_reducible apply Keeps.ite
    | intro _
    | (refine Keeps.mk' ?_ rfl rfl rfl rfl rfl rfl rfl rfl rfl; first | with_reducible assumption | with_reducible apply passTo_keeps | with_reducible apply settleUnits_keeps | with_reducible apply killLost_keeps | with_reducible apply memberLost_keeps | with_reducible apply Keeps.ite | split)

theorem execMapinMemberSilent_keeps (node : BitVec 16) (s : State) : ∃ t, execMapinMemberSilent node s = .next t ∧ Keeps s t := by
  have hk0 := Keeps.refl s
  refine ⟨_, rfl, ?_⟩
  try dsimp only
  repeat' first
    | with_reducible assumption
    | with_reducible apply settleUnits_keeps
    | with_reducible apply memberLost_keeps
    | with_reducible apply passTo_keeps
    | with_reducible apply Keeps.ite
    | intro _
    | (refine Keeps.mk' ?_ rfl rfl rfl rfl rfl rfl rfl rfl rfl; first | with_reducible assumption | with_reducible apply settleUnits_keeps | with_reducible apply memberLost_keeps | with_reducible apply passTo_keeps | with_reducible apply Keeps.ite | split)

theorem reissueOne_keeps  {z s : State} (x : Word × Job) (hk0 : Keeps z s) : Keeps z (reissueOne s x) := by
  unfold reissueOne
  try dsimp only
  repeat' first
    | with_reducible assumption
    | with_reducible apply issueCtx_keeps
    | with_reducible apply addTok_keeps
    | with_reducible apply tryDone_keeps
    | with_reducible apply startJob_keeps
    | with_reducible apply Keeps.ite
    | intro _
    | (refine Keeps.mk' ?_ rfl rfl rfl rfl rfl rfl rfl rfl rfl; first | with_reducible assumption | with_reducible apply issueCtx_keeps | with_reducible apply addTok_keeps | with_reducible apply tryDone_keeps | with_reducible apply startJob_keeps | with_reducible apply Keeps.ite | split)

theorem reissueJobs_keeps  {z s : State}  (hk0 : Keeps z s) : Keeps z (reissueJobs s) := by
  unfold reissueJobs
  try dsimp only
  repeat' first
    | with_reducible assumption
    | with_reducible apply reissueOne_keeps
    | (with_reducible refine Keeps.foldl (fun s a hs => ?_) _ _ ?_)
    | with_reducible apply Keeps.ite
    | intro _
    | (refine Keeps.mk' ?_ rfl rfl rfl rfl rfl rfl rfl rfl rfl; first | with_reducible assumption | with_reducible apply reissueOne_keeps | (with_reducible refine Keeps.foldl (fun s a hs => ?_) _ _ ?_) | with_reducible apply Keeps.ite | split)

theorem badFrame_keeps  {z s : State} (n : BitVec 16) (hk0 : Keeps z s) : Keeps z (badFrame s n) := by
  unfold badFrame
  try dsimp only
  repeat' first
    | with_reducible assumption
    | with_reducible apply setSrc_keeps
    | with_reducible apply putLink_keeps
    | with_reducible apply Keeps.ite
    | intro _
    | (refine Keeps.mk' ?_ rfl rfl rfl rfl rfl rfl rfl rfl rfl; first | with_reducible assumption | with_reducible apply setSrc_keeps | with_reducible apply putLink_keeps | with_reducible apply Keeps.ite | split)

theorem execMapinBadFrame_keeps (src : BitVec 16) (s : State) : ∃ t, execMapinBadFrame src s = .next t ∧ Keeps s t := by
  have hk0 := Keeps.refl s
  refine ⟨_, rfl, ?_⟩
  try dsimp only
  repeat' first
    | with_reducible assumption
    | with_reducible apply badFrame_keeps
    | with_reducible apply Keeps.ite
    | intro _
    | (refine Keeps.mk' ?_ rfl rfl rfl rfl rfl rfl rfl rfl rfl; first | with_reducible assumption | with_reducible apply badFrame_keeps | with_reducible apply Keeps.ite | split)

theorem takeAcks_keeps  {z s : State} (h : MHdr) (hk0 : Keeps z s) : Keeps z (takeAcks s h) := by
  unfold takeAcks
  try dsimp only
  repeat' first
    | with_reducible assumption
    | with_reducible apply putLink_keeps
    | with_reducible apply creditViolation_keeps
    | with_reducible apply resend_keeps
    | with_reducible apply Keeps.ite
    | intro _
    | (refine Keeps.mk' ?_ rfl rfl rfl rfl rfl rfl rfl rfl rfl; first | with_reducible assumption | with_reducible apply putLink_keeps | with_reducible apply creditViolation_keeps | with_reducible apply resend_keeps | with_reducible apply Keeps.ite | split)

theorem inOrder_keeps  {z s : State} (h : MHdr) (len : Nat) (hk0 : Keeps z s) : Keeps z (inOrder s h len) := by
  unfold inOrder
  try dsimp only
  repeat' first
    | with_reducible assumption
    | with_reducible apply putLink_keeps
    | with_reducible apply Keeps.ite
    | intro _
    | (refine Keeps.mk' ?_ rfl rfl rfl rfl rfl rfl rfl rfl rfl; first | with_reducible assumption | with_reducible apply putLink_keeps | with_reducible apply Keeps.ite | split)

theorem dropStale_keeps  {z s : State}  (hk0 : Keeps z s) : Keeps z (dropStale s) := by
  unfold dropStale
  try dsimp only
  repeat' first
    | with_reducible assumption
    | with_reducible apply setSrc_keeps
    | with_reducible apply Keeps.ite
    | intro _
    | (refine Keeps.mk' ?_ rfl rfl rfl rfl rfl rfl rfl rfl rfl; first | with_reducible assumption | with_reducible apply setSrc_keeps | with_reducible apply Keeps.ite | split)

theorem takeHello_keeps  {z s : State} (h : MHdr) (hk0 : Keeps z s) : Keeps z (takeHello s h) := by
  unfold takeHello
  try dsimp only
  repeat' first
    | with_reducible assumption
    | with_reducible apply putLink_keeps
    | with_reducible apply reissueJobs_keeps
    | with_reducible apply Keeps.ite
    | intro _
    | (refine Keeps.mk' ?_ rfl rfl rfl rfl rfl rfl rfl rfl rfl; first | with_reducible assumption | with_reducible apply putLink_keeps | with_reducible apply reissueJobs_keeps | with_reducible apply Keeps.ite | split)

theorem selfLost_keeps  {z s : State}  (hk0 : Keeps z s) : Keeps z (selfLost s) := by
  unfold selfLost
  try dsimp only
  repeat' first
    | with_reducible assumption
    | with_reducible apply killLost_keeps
    | with_reducible apply queueFrame_keeps
    | with_reducible apply putLink_keeps
    | with_reducible apply reissueJobs_keeps
    | with_reducible apply failBarriers_keeps
    | (with_reducible refine Keeps.foldl (fun s a hs => ?_) _ _ ?_)
    | with_reducible apply Keeps.ite
    | intro _
    | (refine Keeps.mk' ?_ rfl rfl rfl rfl rfl rfl rfl rfl rfl; first | with_reducible assumption | with_reducible apply killLost_keeps | with_reducible apply queueFrame_keeps | with_reducible apply putLink_keeps | with_reducible apply reissueJobs_keeps | with_reducible apply failBarriers_keeps | (with_reducible refine Keeps.foldl (fun s a hs => ?_) _ _ ?_) | with_reducible apply Keeps.ite | split)

theorem onWriteReq_keeps  {z s : State} (h : MHdr) (a : Nat) (data : List Byte) (hk0 : Keeps z s) : Keeps z (onWriteReq s h a data) := by
  unfold onWriteReq
  try dsimp only
  repeat' first
    | with_reducible assumption
    | with_reducible apply queueFrame_keeps
    | with_reducible apply land_keeps
    | with_reducible apply Keeps.ite
    | intro _
    | (refine Keeps.mk' ?_ rfl rfl rfl rfl rfl rfl rfl rfl rfl; first | with_reducible assumption | with_reducible apply queueFrame_keeps | with_reducible apply land_keeps | with_reducible apply Keeps.ite | split)

theorem onReadReq_keeps  {z s : State} (h : MHdr) (a : Nat) (o : Nat → Ecc) (hk0 : Keeps z s) : Keeps z (onReadReq s h a o) := by
  unfold onReadReq
  try dsimp only
  repeat' first
    | with_reducible assumption
    | with_reducible apply queueFrame_keeps
    | with_reducible apply readReply_keeps
    | with_reducible apply portRead_keeps
    | with_reducible apply Keeps.ite
    | intro _
    | (refine Keeps.mk' ?_ rfl rfl rfl rfl rfl rfl rfl rfl rfl; first | with_reducible assumption | with_reducible apply queueFrame_keeps | with_reducible apply readReply_keeps | with_reducible apply portRead_keeps | with_reducible apply Keeps.ite | split)

theorem takeReply_keeps  {z s : State} (h : MHdr) (write : Bool) (body : State → MReq → State) (hb : ∀ x a, Keeps z x → Keeps z (body x a)) (hk0 : Keeps z s) : Keeps z (takeReply s h write body) := by
  unfold takeReply
  try dsimp only
  repeat' first
    | with_reducible assumption
    | with_reducible apply setSrc_keeps
    | with_reducible apply tryDone_keeps
    | with_reducible apply hb
    | with_reducible apply Keeps.ite
    | intro _
    | (refine Keeps.mk' ?_ rfl rfl rfl rfl rfl rfl rfl rfl rfl; first | with_reducible assumption | with_reducible apply setSrc_keeps | with_reducible apply tryDone_keeps | with_reducible apply hb | with_reducible apply Keeps.ite | split)

theorem onReadReply_keeps  {z s : State} (h : MHdr) (data : List Byte) (poisoned : List Nat) (hk0 : Keeps z s) : Keeps z (onReadReply s h data poisoned) := by
  unfold onReadReply
  try dsimp only
  repeat' first
    | with_reducible assumption
    | with_reducible apply takeReply_keeps
    | with_reducible apply land_keeps
    | with_reducible apply Keeps.ite
    | intro _
    | (refine Keeps.mk' ?_ rfl rfl rfl rfl rfl rfl rfl rfl rfl; first | with_reducible assumption | with_reducible apply takeReply_keeps | with_reducible apply land_keeps | with_reducible apply Keeps.ite | split)

theorem acceptRelease_keeps  {z s : State} (b : Barrier) (seq : Word) (t : Nat) (hk0 : Keeps z s) : Keeps z (acceptRelease s b seq t) := by
  unfold acceptRelease
  try dsimp only
  repeat' first
    | with_reducible assumption
    | with_reducible apply finishTok_keeps
    | with_reducible apply armRun_keeps
    | with_reducible apply Keeps.ite
    | intro _
    | (refine Keeps.mk' ?_ rfl rfl rfl rfl rfl rfl rfl rfl rfl; first | with_reducible assumption | with_reducible apply finishTok_keeps | with_reducible apply armRun_keeps | with_reducible apply Keeps.ite | split)

theorem tryRelease_keeps  {z s : State} (b : Barrier) (hk0 : Keeps z s) : Keeps z (tryRelease s b) := by
  unfold tryRelease
  try dsimp only
  repeat' first
    | with_reducible assumption
    | with_reducible apply queueFrame_keeps
    | with_reducible apply acceptRelease_keeps
    | (with_reducible refine Keeps.foldl (fun s a hs => ?_) _ _ ?_)
    | with_reducible apply Keeps.ite
    | intro _
    | (refine Keeps.mk' ?_ rfl rfl rfl rfl rfl rfl rfl rfl rfl; first | with_reducible assumption | with_reducible apply queueFrame_keeps | with_reducible apply acceptRelease_keeps | (with_reducible refine Keeps.foldl (fun s a hs => ?_) _ _ ?_) | with_reducible apply Keeps.ite | split)

theorem openBarrier_keeps  {z s : State} (k : Pkt) (join : Bool) (id : Nat) (seq : Word) (lead : Nat) (idle : List (BitVec 16)) (hk0 : Keeps z s) : Keeps z (openBarrier s k join id seq lead idle).1 := by
  unfold openBarrier
  try dsimp only
  repeat' first
    | with_reducible assumption
    | with_reducible apply issueCmd_keeps
    | with_reducible apply tryRelease_keeps
    | with_reducible apply queueFrame_keeps
    | with_reducible apply arrive_keeps
    | with_reducible apply Keeps.ite
    | with_reducible apply Keeps.ite1
    | split
    | (dsimp only)
    | intro _
    | (refine Keeps.mk' ?_ rfl rfl rfl rfl rfl rfl rfl rfl rfl; first | with_reducible assumption | with_reducible apply issueCmd_keeps | with_reducible apply tryRelease_keeps | with_reducible apply queueFrame_keeps | with_reducible apply arrive_keeps | with_reducible apply Keeps.ite | with_reducible apply Keeps.ite1 | split | (dsimp only) | split)

theorem doStartGroup_keeps  {z s : State} (k : Pkt) (hk0 : Keeps z s) : Keeps z (doStartGroup k s).1 := by
  unfold doStartGroup
  try dsimp only
  repeat' first
    | with_reducible assumption
    | with_reducible apply badWord_keeps
    | with_reducible apply refuse_keeps
    | with_reducible apply openBarrier_keeps
    | with_reducible apply Keeps.ite
    | with_reducible apply Keeps.ite1
    | split
    | (dsimp only)
    | intro _
    | (refine Keeps.mk' ?_ rfl rfl rfl rfl rfl rfl rfl rfl rfl; first | with_reducible assumption | with_reducible apply badWord_keeps | with_reducible apply refuse_keeps | with_reducible apply openBarrier_keeps | with_reducible apply Keeps.ite | with_reducible apply Keeps.ite1 | split | (dsimp only) | split)

theorem execRunCtlStartGroup_keeps (k : Pkt) (s : State) : ∃ t, execRunCtlStartGroup k s = .next t ∧ Keeps s t := by
  have hk0 := Keeps.refl s
  refine ⟨_, rfl, ?_⟩
  try dsimp only
  repeat' first
    | with_reducible assumption
    | with_reducible apply command_keeps
    | with_reducible apply doStartGroup_keeps
    | with_reducible apply Keeps.ite
    | intro _
    | (refine Keeps.mk' ?_ rfl rfl rfl rfl rfl rfl rfl rfl rfl; first | with_reducible assumption | with_reducible apply command_keeps | with_reducible apply doStartGroup_keeps | with_reducible apply Keeps.ite | split)

theorem doJoin_keeps  {z s : State} (k : Pkt) (idle : List (BitVec 16)) (hk0 : Keeps z s) : Keeps z (doJoin k s idle).1 := by
  unfold doJoin
  try dsimp only
  repeat' first
    | with_reducible assumption
    | with_reducible apply badWord_keeps
    | with_reducible apply refuse_keeps
    | with_reducible apply openBarrier_keeps
    | with_reducible apply Keeps.ite
    | with_reducible apply Keeps.ite1
    | split
    | (dsimp only)
    | intro _
    | (refine Keeps.mk' ?_ rfl rfl rfl rfl rfl rfl rfl rfl rfl; first | with_reducible assumption | with_reducible apply badWord_keeps | with_reducible apply refuse_keeps | with_reducible apply openBarrier_keeps | with_reducible apply Keeps.ite | with_reducible apply Keeps.ite1 | split | (dsimp only) | split)

theorem execRunCtlJoin_keeps (k : Pkt) (idle : List (BitVec 16)) (s : State) : ∃ t, execRunCtlJoin k s idle = .next t ∧ Keeps s t := by
  have hk0 := Keeps.refl s
  refine ⟨_, rfl, ?_⟩
  try dsimp only
  repeat' first
    | with_reducible assumption
    | with_reducible apply command_keeps
    | with_reducible apply doJoin_keeps
    | with_reducible apply Keeps.ite
    | intro _
    | (refine Keeps.mk' ?_ rfl rfl rfl rfl rfl rfl rfl rfl rfl; first | with_reducible assumption | with_reducible apply command_keeps | with_reducible apply doJoin_keeps | with_reducible apply Keeps.ite | split)

theorem onArrive_keeps  {z s : State} (h : MHdr) (t : Nat) (hk0 : Keeps z s) : Keeps z (onArrive s h t) := by
  unfold onArrive
  try dsimp only
  repeat' first
    | with_reducible assumption
    | with_reducible apply tryRelease_keeps
    | with_reducible apply Keeps.ite
    | intro _
    | (refine Keeps.mk' ?_ rfl rfl rfl rfl rfl rfl rfl rfl rfl; first | with_reducible assumption | with_reducible apply tryRelease_keeps | with_reducible apply Keeps.ite | split)

theorem failBarrier_keeps  {z s : State} (b : Barrier) (hk0 : Keeps z s) : Keeps z (failBarrier s b) := by
  unfold failBarrier
  try dsimp only
  repeat' first
    | with_reducible assumption
    | with_reducible apply finishTok_keeps
    | with_reducible apply setSrc_keeps
    | with_reducible apply Keeps.ite
    | intro _
    | (refine Keeps.mk' ?_ rfl rfl rfl rfl rfl rfl rfl rfl rfl; first | with_reducible assumption | with_reducible apply finishTok_keeps | with_reducible apply setSrc_keeps | with_reducible apply Keeps.ite | split)

theorem onRelease_keeps  {z s : State} (h : MHdr) (seq : Word) (t : Nat) (hk0 : Keeps z s) : Keeps z (onRelease s h seq t) := by
  unfold onRelease
  try dsimp only
  repeat' first
    | with_reducible assumption
    | with_reducible apply failBarrier_keeps
    | with_reducible apply acceptRelease_keeps
    | with_reducible apply Keeps.ite
    | intro _
    | (refine Keeps.mk' ?_ rfl rfl rfl rfl rfl rfl rfl rfl rfl; first | with_reducible assumption | with_reducible apply failBarrier_keeps | with_reducible apply acceptRelease_keeps | with_reducible apply Keeps.ite | split)

theorem execBarrierTimeout_keeps  (s : State) : ∃ t, execBarrierTimeout s = .next t ∧ Keeps s t := by
  have hk0 := Keeps.refl s
  refine ⟨_, rfl, ?_⟩
  try dsimp only
  repeat' first
    | with_reducible assumption
    | with_reducible apply failBarrier_keeps
    | with_reducible apply passTo_keeps
    | with_reducible apply Keeps.ite
    | intro _
    | (refine Keeps.mk' ?_ rfl rfl rfl rfl rfl rfl rfl rfl rfl; first | with_reducible assumption | with_reducible apply failBarrier_keeps | with_reducible apply passTo_keeps | with_reducible apply Keeps.ite | split)

theorem onTimeReq_keeps  {z s : State} (h : MHdr) (m : Nat) (at_ : Nat) (hk0 : Keeps z s) : Keeps z (onTimeReq s h m at_) := by
  unfold onTimeReq
  try dsimp only
  repeat' first
    | with_reducible assumption
    | with_reducible apply queueFrame_keeps
    | with_reducible apply Keeps.ite
    | intro _
    | (refine Keeps.mk' ?_ rfl rfl rfl rfl rfl rfl rfl rfl rfl; first | with_reducible assumption | with_reducible apply queueFrame_keeps | with_reducible apply Keeps.ite | split)

theorem execMapinTimeReqInterval_keeps  (s : State) : ∃ t, execMapinTimeReqInterval s = .next t ∧ Keeps s t := by
  have hk0 := Keeps.refl s
  refine ⟨_, rfl, ?_⟩
  try dsimp only
  repeat' first
    | with_reducible assumption
    | with_reducible apply queueFrame_keeps
    | with_reducible apply Keeps.ite
    | intro _
    | (refine Keeps.mk' ?_ rfl rfl rfl rfl rfl rfl rfl rfl rfl; first | with_reducible assumption | with_reducible apply queueFrame_keeps | with_reducible apply Keeps.ite | split)

theorem onTimeResp_keeps  {z s : State} (h : MHdr) (m : Nat) (at_ : Nat) (t2 : Int) (t3 : Int) (hk0 : Keeps z s) : Keeps z (onTimeResp s h m at_ t2 t3) := by
  unfold onTimeResp
  try dsimp only
  repeat' first
    | with_reducible assumption
    | with_reducible apply takeSample_keeps
    | with_reducible apply Keeps.ite
    | intro _
    | (refine Keeps.mk' ?_ rfl rfl rfl rfl rfl rfl rfl rfl rfl; first | with_reducible assumption | with_reducible apply takeSample_keeps | with_reducible apply Keeps.ite | split)

theorem onMsg_keeps  {z s : State} (x : MHeld) (hk0 : Keeps z s) : Keeps z (onMsg s x) := by
  unfold onMsg
  try dsimp only
  repeat' first
    | with_reducible assumption
    | with_reducible apply onWriteReq_keeps
    | with_reducible apply takeReply_keeps
    | with_reducible apply onReadReq_keeps
    | with_reducible apply readReply_keeps
    | with_reducible apply onReadReply_keeps
    | with_reducible apply arrive_keeps
    | with_reducible apply onArrive_keeps
    | with_reducible apply onRelease_keeps
    | with_reducible apply onTimeReq_keeps
    | with_reducible apply onTimeResp_keeps
    | with_reducible apply Keeps.ite
    | intro _
    | (refine Keeps.mk' ?_ rfl rfl rfl rfl rfl rfl rfl rfl rfl; first | with_reducible assumption | with_reducible apply onWriteReq_keeps | with_reducible apply takeReply_keeps | with_reducible apply onReadReq_keeps | with_reducible apply readReply_keeps | with_reducible apply onReadReply_keeps | with_reducible apply arrive_keeps | with_reducible apply onArrive_keeps | with_reducible apply onRelease_keeps | with_reducible apply onTimeReq_keeps | with_reducible apply onTimeResp_keeps | with_reducible apply Keeps.ite | split)

theorem acceptMsg_keeps  {z s : State} (x : MHeld) (hk0 : Keeps z s) : Keeps z (acceptMsg s x) := by
  unfold acceptMsg
  try dsimp only
  repeat' first
    | with_reducible assumption
    | with_reducible apply onMsg_keeps
    | with_reducible apply inOrder_keeps
    | with_reducible apply Keeps.ite
    | intro _
    | (refine Keeps.mk' ?_ rfl rfl rfl rfl rfl rfl rfl rfl rfl; first | with_reducible assumption | with_reducible apply onMsg_keeps | with_reducible apply inOrder_keeps | with_reducible apply Keeps.ite | split)

theorem drain_keeps {z : State} : ∀ (k : Nat) (n : BitVec 16) {s : State}, Keeps z s → Keeps z (drain k n s)
  | 0, _, _, hk0 => hk0
  | k + 1, n, s, hk0 => by
    unfold drain
    dsimp only
    split
    · exact hk0
    · exact drain_keeps k n (acceptMsg_keeps _ (putLink_keeps _ hk0))

theorem receive_keeps  {z s : State} (h : MHdr) (port : Nat) (m : MMsg) (hk0 : Keeps z s) : Keeps z (receive s h port m) := by
  unfold receive
  try dsimp only
  repeat' first
    | with_reducible assumption
    | with_reducible apply settleUnits_keeps
    | with_reducible apply dropStale_keeps
    | with_reducible apply acceptMsg_keeps
    | with_reducible apply takeAcks_keeps
    | with_reducible apply drain_keeps
    | with_reducible apply putLink_keeps
    | with_reducible apply badFrame_keeps
    | with_reducible apply Keeps.ite
    | intro _
    | (refine Keeps.mk' ?_ rfl rfl rfl rfl rfl rfl rfl rfl rfl; first | with_reducible assumption | with_reducible apply settleUnits_keeps | with_reducible apply dropStale_keeps | with_reducible apply acceptMsg_keeps | with_reducible apply takeAcks_keeps | with_reducible apply drain_keeps | with_reducible apply putLink_keeps | with_reducible apply badFrame_keeps | with_reducible apply Keeps.ite | split)

theorem onLink_keeps  {z s : State} (h : MHdr) (hk0 : Keeps z s) : Keeps z (onLink s h) := by
  unfold onLink
  try dsimp only
  repeat' first
    | with_reducible assumption
    | with_reducible apply settleUnits_keeps
    | with_reducible apply dropStale_keeps
    | with_reducible apply takeAcks_keeps
    | with_reducible apply putLink_keeps
    | with_reducible apply Keeps.ite
    | intro _
    | (refine Keeps.mk' ?_ rfl rfl rfl rfl rfl rfl rfl rfl rfl; first | with_reducible assumption | with_reducible apply settleUnits_keeps | with_reducible apply dropStale_keeps | with_reducible apply takeAcks_keeps | with_reducible apply putLink_keeps | with_reducible apply Keeps.ite | split)

theorem onHello_keeps  {z s : State} (h : MHdr) (port : Nat) (hk0 : Keeps z s) : Keeps z (onHello s h port) := by
  unfold onHello
  try dsimp only
  repeat' first
    | with_reducible assumption
    | with_reducible apply receive_keeps
    | with_reducible apply settleUnits_keeps
    | with_reducible apply takeHello_keeps
    | with_reducible apply memberLost_keeps
    | with_reducible apply Keeps.ite
    | intro _
    | (refine Keeps.mk' ?_ rfl rfl rfl rfl rfl rfl rfl rfl rfl; first | with_reducible assumption | with_reducible apply receive_keeps | with_reducible apply settleUnits_keeps | with_reducible apply takeHello_keeps | with_reducible apply memberLost_keeps | with_reducible apply Keeps.ite | split)

theorem onLost_keeps  {z s : State} (h : MHdr) (hk0 : Keeps z s) : Keeps z (onLost s h) := by
  unfold onLost
  try dsimp only
  repeat' first
    | with_reducible assumption
    | with_reducible apply settleUnits_keeps
    | with_reducible apply dropStale_keeps
    | with_reducible apply selfLost_keeps
    | with_reducible apply inOrder_keeps
    | with_reducible apply Keeps.ite
    | intro _
    | (refine Keeps.mk' ?_ rfl rfl rfl rfl rfl rfl rfl rfl rfl; first | with_reducible assumption | with_reducible apply settleUnits_keeps | with_reducible apply dropStale_keeps | with_reducible apply selfLost_keeps | with_reducible apply inOrder_keeps | with_reducible apply Keeps.ite | split)

theorem execMapinHello_keeps (h : MHdr) (s : State) : ∃ t, execMapinHello h s = .next t ∧ Keeps s t := by
  have hk0 := Keeps.refl s
  refine ⟨_, rfl, ?_⟩
  try dsimp only
  repeat' first
    | with_reducible assumption
    | with_reducible apply onHello_keeps
    | with_reducible apply Keeps.ite
    | intro _
    | (refine Keeps.mk' ?_ rfl rfl rfl rfl rfl rfl rfl rfl rfl; first | with_reducible assumption | with_reducible apply onHello_keeps | with_reducible apply Keeps.ite | split)

theorem execMapinLink_keeps (h : MHdr) (s : State) : ∃ t, execMapinLink h s = .next t ∧ Keeps s t := by
  have hk0 := Keeps.refl s
  refine ⟨_, rfl, ?_⟩
  try dsimp only
  repeat' first
    | with_reducible assumption
    | with_reducible apply onLink_keeps
    | with_reducible apply Keeps.ite
    | intro _
    | (refine Keeps.mk' ?_ rfl rfl rfl rfl rfl rfl rfl rfl rfl; first | with_reducible assumption | with_reducible apply onLink_keeps | with_reducible apply Keeps.ite | split)

theorem execMapinWriteReq_keeps (h : MHdr) (addr : Nat) (data : List Byte) (s : State) : ∃ t, execMapinWriteReq h addr data s = .next t ∧ Keeps s t := by
  have hk0 := Keeps.refl s
  refine ⟨_, rfl, ?_⟩
  try dsimp only
  repeat' first
    | with_reducible assumption
    | with_reducible apply receive_keeps
    | with_reducible apply Keeps.ite
    | intro _
    | (refine Keeps.mk' ?_ rfl rfl rfl rfl rfl rfl rfl rfl rfl; first | with_reducible assumption | with_reducible apply receive_keeps | with_reducible apply Keeps.ite | split)

theorem execMapinWriteReply_keeps (h : MHdr) (s : State) : ∃ t, execMapinWriteReply h s = .next t ∧ Keeps s t := by
  have hk0 := Keeps.refl s
  refine ⟨_, rfl, ?_⟩
  try dsimp only
  repeat' first
    | with_reducible assumption
    | with_reducible apply receive_keeps
    | with_reducible apply Keeps.ite
    | intro _
    | (refine Keeps.mk' ?_ rfl rfl rfl rfl rfl rfl rfl rfl rfl; first | with_reducible assumption | with_reducible apply receive_keeps | with_reducible apply Keeps.ite | split)

theorem execMapinReadReq_keeps (h : MHdr) (addr : Nat) (ecc : List (Nat × Ecc)) (s : State) : ∃ t, execMapinReadReq h addr s ecc = .next t ∧ Keeps s t := by
  have hk0 := Keeps.refl s
  refine ⟨_, rfl, ?_⟩
  try dsimp only
  repeat' first
    | with_reducible assumption
    | with_reducible apply receive_keeps
    | with_reducible apply Keeps.ite
    | intro _
    | (refine Keeps.mk' ?_ rfl rfl rfl rfl rfl rfl rfl rfl rfl; first | with_reducible assumption | with_reducible apply receive_keeps | with_reducible apply Keeps.ite | split)

theorem execMapinReadReply_keeps (h : MHdr) (data : List Byte) (poisoned : List Nat) (s : State) : ∃ t, execMapinReadReply h data poisoned s = .next t ∧ Keeps s t := by
  have hk0 := Keeps.refl s
  refine ⟨_, rfl, ?_⟩
  try dsimp only
  repeat' first
    | with_reducible assumption
    | with_reducible apply receive_keeps
    | with_reducible apply readReply_keeps
    | with_reducible apply Keeps.ite
    | intro _
    | (refine Keeps.mk' ?_ rfl rfl rfl rfl rfl rfl rfl rfl rfl; first | with_reducible assumption | with_reducible apply receive_keeps | with_reducible apply readReply_keeps | with_reducible apply Keeps.ite | split)

theorem execMapinArrive_keeps (h : MHdr) (_seq : Word) (sec : Nat) (ns : Nat) (s : State) : ∃ t, execMapinArrive h _seq sec ns s = .next t ∧ Keeps s t := by
  have hk0 := Keeps.refl s
  refine ⟨_, rfl, ?_⟩
  try dsimp only
  repeat' first
    | with_reducible assumption
    | with_reducible apply receive_keeps
    | with_reducible apply arrive_keeps
    | with_reducible apply Keeps.ite
    | intro _
    | (refine Keeps.mk' ?_ rfl rfl rfl rfl rfl rfl rfl rfl rfl; first | with_reducible assumption | with_reducible apply receive_keeps | with_reducible apply arrive_keeps | with_reducible apply Keeps.ite | split)

theorem execMapinRelease_keeps (h : MHdr) (seq : Word) (sec : Nat) (ns : Nat) (s : State) : ∃ t, execMapinRelease h seq sec ns s = .next t ∧ Keeps s t := by
  have hk0 := Keeps.refl s
  refine ⟨_, rfl, ?_⟩
  try dsimp only
  repeat' first
    | with_reducible assumption
    | with_reducible apply receive_keeps
    | with_reducible apply Keeps.ite
    | intro _
    | (refine Keeps.mk' ?_ rfl rfl rfl rfl rfl rfl rfl rfl rfl; first | with_reducible assumption | with_reducible apply receive_keeps | with_reducible apply Keeps.ite | split)

theorem execMapinTimeReq_keeps (h : MHdr) (s : State) : ∃ t, execMapinTimeReq h s = .next t ∧ Keeps s t := by
  have hk0 := Keeps.refl s
  refine ⟨_, rfl, ?_⟩
  try dsimp only
  repeat' first
    | with_reducible assumption
    | with_reducible apply receive_keeps
    | with_reducible apply Keeps.ite
    | intro _
    | (refine Keeps.mk' ?_ rfl rfl rfl rfl rfl rfl rfl rfl rfl; first | with_reducible assumption | with_reducible apply receive_keeps | with_reducible apply Keeps.ite | split)

theorem execMapinTimeResp_keeps (h : MHdr) (t2 : Int) (t3 : Int) (s : State) : ∃ t, execMapinTimeResp h t2 t3 s = .next t ∧ Keeps s t := by
  have hk0 := Keeps.refl s
  refine ⟨_, rfl, ?_⟩
  try dsimp only
  repeat' first
    | with_reducible assumption
    | with_reducible apply receive_keeps
    | with_reducible apply Keeps.ite
    | intro _
    | (refine Keeps.mk' ?_ rfl rfl rfl rfl rfl rfl rfl rfl rfl; first | with_reducible assumption | with_reducible apply receive_keeps | with_reducible apply Keeps.ite | split)

theorem execMapinLost_keeps (h : MHdr) (s : State) : ∃ t, execMapinLost h s = .next t ∧ Keeps s t := by
  have hk0 := Keeps.refl s
  refine ⟨_, rfl, ?_⟩
  try dsimp only
  repeat' first
    | with_reducible assumption
    | with_reducible apply onLost_keeps
    | with_reducible apply Keeps.ite
    | intro _
    | (refine Keeps.mk' ?_ rfl rfl rfl rfl rfl rfl rfl rfl rfl; first | with_reducible assumption | with_reducible apply onLost_keeps | with_reducible apply Keeps.ite | split)

theorem mapinBad_keeps  {z s : State} (bs : List Byte) (hk0 : Keeps z s) : Keeps z (mapinBad s bs) := by
  unfold mapinBad
  try dsimp only
  repeat' first
    | with_reducible assumption
    | with_reducible apply badFrame_keeps
    | with_reducible apply Keeps.ite
    | intro _
    | (refine Keeps.mk' ?_ rfl rfl rfl rfl rfl rfl rfl rfl rfl; first | with_reducible assumption | with_reducible apply badFrame_keeps | with_reducible apply Keeps.ite | split)

theorem mapinBytes_keeps  {z s : State} (port : Nat) (bs : List Byte) (hk0 : Keeps z s) : Keeps z (mapinBytes s port bs) := by
  unfold mapinBytes
  try dsimp only
  repeat' first
    | with_reducible assumption
    | with_reducible apply mapinBad_keeps
    | with_reducible apply onHello_keeps
    | with_reducible apply onLink_keeps
    | with_reducible apply onLost_keeps
    | with_reducible apply receive_keeps
    | with_reducible apply Keeps.ite
    | intro _
    | (refine Keeps.mk' ?_ rfl rfl rfl rfl rfl rfl rfl rfl rfl; first | with_reducible assumption | with_reducible apply mapinBad_keeps | with_reducible apply onHello_keeps | with_reducible apply onLink_keeps | with_reducible apply onLost_keeps | with_reducible apply receive_keeps | with_reducible apply Keeps.ite | split)

theorem execEthFrameReceive_keeps (mac : Nat) (fcsOk : Bool) (bytes : List Byte) (s : State) : ∃ t, execEthFrameReceive mac fcsOk bytes s = .next t ∧ Keeps s t := by
  have hk0 := Keeps.refl s
  refine ⟨_, rfl, ?_⟩
  try dsimp only
  repeat' first
    | with_reducible assumption
    | with_reducible apply modEth_keeps
    | with_reducible apply settle_keeps
    | with_reducible apply badFcs_keeps
    | with_reducible apply mapinBad_keeps
    | with_reducible apply settleUnits_keeps
    | with_reducible apply mapinBytes_keeps
    | with_reducible apply ethMatched_keeps
    | with_reducible apply Keeps.ite
    | intro _
    | (refine Keeps.mk' ?_ rfl rfl rfl rfl rfl rfl rfl rfl rfl; first | with_reducible assumption | with_reducible apply modEth_keeps | with_reducible apply settle_keeps | with_reducible apply badFcs_keeps | with_reducible apply mapinBad_keeps | with_reducible apply settleUnits_keeps | with_reducible apply mapinBytes_keeps | with_reducible apply ethMatched_keeps | with_reducible apply Keeps.ite | split)

end Sys2Proof.Machine
end

