-- ==== Sys2Proof/Laws/Keeps/Registers.lean ====
section
/-! SUPPORT. What the definitions of Machine/Registers.lean keep (Laws/Keeps.lean). -/

set_option linter.unusedTactic false
set_option linter.unreachableTactic false
set_option linter.unusedVariables false

namespace Sys2Proof.Machine

theorem afterRead_keeps  {z s : State} (b : Nat) (i : Nat) (hk0 : Keeps z s) : Keeps z (afterRead s b i) := by
  unfold afterRead
  try dsimp only
  repeat' first
    | with_reducible assumption
    | with_reducible apply modIsp_keeps
    | with_reducible apply modSp_keeps
    | with_reducible apply modEth_keeps
    | with_reducible apply modEng_keeps
    | with_reducible apply Keeps.ite
    | intro _
    | (refine Keeps.mk' ?_ rfl rfl rfl rfl rfl rfl rfl rfl rfl; first | with_reducible assumption | with_reducible apply modIsp_keeps | with_reducible apply modSp_keeps | with_reducible apply modEth_keeps | with_reducible apply modEng_keeps | with_reducible apply Keeps.ite | split)

theorem putData_keeps  {z s : State} (v : Nat) (hk0 : Keeps z s) : Keeps z (putData s v) := by
  unfold putData
  try dsimp only
  repeat' first
    | with_reducible assumption
    | with_reducible apply Keeps.ite
    | intro _
    | (refine Keeps.mk' ?_ rfl rfl rfl rfl rfl rfl rfl rfl rfl; first | with_reducible assumption | with_reducible apply Keeps.ite | split)

theorem accRead_keeps  {z s : State} (f : Nat) (hk0 : Keeps z s) : Keeps z (accRead s f) := by
  unfold accRead
  try dsimp only
  repeat' first
    | with_reducible assumption
    | with_reducible apply putData_keeps
    | with_reducible apply countUnassigned_keeps
    | with_reducible apply readReply_keeps
    | with_reducible apply afterRead_keeps
    | with_reducible apply Keeps.ite
    | intro _
    | (refine Keeps.mk' ?_ rfl rfl rfl rfl rfl rfl rfl rfl rfl; first | with_reducible assumption | with_reducible apply putData_keeps | with_reducible apply countUnassigned_keeps | with_reducible apply readReply_keeps | with_reducible apply afterRead_keeps | with_reducible apply Keeps.ite | split)

theorem busRead_keeps  {z s : State} (f : Nat) (hk0 : Keeps z s) : Keeps z (busRead s f) := by
  unfold busRead
  try dsimp only
  repeat' first
    | with_reducible assumption
    | with_reducible apply accRead_keeps
    | with_reducible apply Keeps.ite
    | intro _
    | (refine Keeps.mk' ?_ rfl rfl rfl rfl rfl rfl rfl rfl rfl; first | with_reducible assumption | with_reducible apply accRead_keeps | with_reducible apply Keeps.ite | split)

theorem tbWrite_keeps  {z s : State} (i : Nat) (w : Word) (hk0 : Keeps z s) : Keeps z (tbWrite s i w) := by
  unfold tbWrite
  try dsimp only
  repeat' first
    | with_reducible assumption
    | with_reducible apply writeAddendHi_keeps
    | with_reducible apply writeServoCtrl_keeps
    | with_reducible apply writeCapStatus_keeps
    | with_reducible apply Keeps.ite
    | intro _
    | (refine Keeps.mk' ?_ rfl rfl rfl rfl rfl rfl rfl rfl rfl; first | with_reducible assumption | with_reducible apply writeAddendHi_keeps | with_reducible apply writeServoCtrl_keeps | with_reducible apply writeCapStatus_keeps | with_reducible apply Keeps.ite | split)

theorem pcieWrite_keeps  {z s : State} (i : Nat) (w : Word) (hk0 : Keeps z s) : Keeps z (pcieWrite s i w) := by
  unfold pcieWrite
  try dsimp only
  repeat' first
    | with_reducible assumption
    | with_reducible apply writeApHi_keeps
    | with_reducible apply msixDrain_keeps
    | with_reducible apply msix_keeps
    | with_reducible apply Keeps.ite
    | intro _
    | (refine Keeps.mk' ?_ rfl rfl rfl rfl rfl rfl rfl rfl rfl; first | with_reducible assumption | with_reducible apply writeApHi_keeps | with_reducible apply msixDrain_keeps | with_reducible apply msix_keeps | with_reducible apply Keeps.ite | split)

theorem mapinWrite_keeps  {z s : State} (i : Nat) (w : Word) (hk0 : Keeps z s) : Keeps z (mapinWrite s i w) := by
  unfold mapinWrite
  try dsimp only
  repeat' first
    | with_reducible assumption
    | with_reducible apply Keeps.ite
    | intro _
    | (refine Keeps.mk' ?_ rfl rfl rfl rfl rfl rfl rfl rfl rfl; first | with_reducible assumption | with_reducible apply Keeps.ite | split)

theorem spWrite_keeps  {z s : State} (p : Nat) (i : Nat) (w : Word) (hk0 : Keeps z s) : Keeps z (spWrite s p i w) := by
  unfold spWrite
  try dsimp only
  repeat' first
    | with_reducible assumption
    | with_reducible apply writeCci_keeps
    | with_reducible apply modSp_keeps
    | with_reducible apply Keeps.ite
    | intro _
    | (refine Keeps.mk' ?_ rfl rfl rfl rfl rfl rfl rfl rfl rfl; first | with_reducible assumption | with_reducible apply writeCci_keeps | with_reducible apply modSp_keeps | with_reducible apply Keeps.ite | split)

theorem regWrite_keeps  {z s : State} (b : Nat) (i : Nat) (w : Word) (hk0 : Keeps z s) : Keeps z (regWrite s b i w) := by
  unfold regWrite
  try dsimp only
  repeat' first
    | with_reducible assumption
    | with_reducible apply tbWrite_keeps
    | with_reducible apply pcieWrite_keeps
    | with_reducible apply spWrite_keeps
    | with_reducible apply mapinWrite_keeps
    | with_reducible apply Keeps.ite
    | intro _
    | (refine Keeps.mk' ?_ rfl rfl rfl rfl rfl rfl rfl rfl rfl; first | with_reducible assumption | with_reducible apply tbWrite_keeps | with_reducible apply pcieWrite_keeps | with_reducible apply spWrite_keeps | with_reducible apply mapinWrite_keeps | with_reducible apply Keeps.ite | split)

theorem countNarrow_keeps  {z s : State} (f : Nat) (hk0 : Keeps z s) : Keeps z (countNarrow s f) := by
  unfold countNarrow
  try dsimp only
  repeat' first
    | with_reducible assumption
    | with_reducible apply Keeps.ite
    | intro _
    | (refine Keeps.mk' ?_ rfl rfl rfl rfl rfl rfl rfl rfl rfl; first | with_reducible assumption | with_reducible apply Keeps.ite | split)

theorem countClosed_keeps  {z s : State} (f : Nat) (hk0 : Keeps z s) : Keeps z (countClosed s f) := by
  unfold countClosed
  try dsimp only
  repeat' first
    | with_reducible assumption
    | with_reducible apply countInReset_keeps
    | with_reducible apply Keeps.ite
    | intro _
    | (refine Keeps.mk' ?_ rfl rfl rfl rfl rfl rfl rfl rfl rfl; first | with_reducible assumption | with_reducible apply countInReset_keeps | with_reducible apply Keeps.ite | split)

theorem accWrite_keeps  {z s : State} (f : Nat) (w : Word) (hk0 : Keeps z s) : Keeps z (accWrite s f w) := by
  unfold accWrite
  try dsimp only
  repeat' first
    | with_reducible assumption
    | with_reducible apply countUnassigned_keeps
    | with_reducible apply countClosed_keeps
    | with_reducible apply writeWord_keeps
    | with_reducible apply settle_keeps
    | with_reducible apply regWrite_keeps
    | with_reducible apply Keeps.ite
    | intro _
    | (refine Keeps.mk' ?_ rfl rfl rfl rfl rfl rfl rfl rfl rfl; first | with_reducible assumption | with_reducible apply countUnassigned_keeps | with_reducible apply countClosed_keeps | with_reducible apply writeWord_keeps | with_reducible apply settle_keeps | with_reducible apply regWrite_keeps | with_reducible apply Keeps.ite | split)

theorem busWrite_keeps  {z s : State} (f : Nat) (w : Word) (hk0 : Keeps z s) : Keeps z (busWrite s f w) := by
  unfold busWrite
  try dsimp only
  repeat' first
    | with_reducible assumption
    | with_reducible apply accWrite_keeps
    | with_reducible apply Keeps.ite
    | intro _
    | (refine Keeps.mk' ?_ rfl rfl rfl rfl rfl rfl rfl rfl rfl; first | with_reducible assumption | with_reducible apply accWrite_keeps | with_reducible apply Keeps.ite | split)

theorem access_keeps  {z s : State} (x : BusAcc) (hk0 : Keeps z s) : Keeps z (access s x) := by
  unfold access
  try dsimp only
  repeat' first
    | with_reducible assumption
    | with_reducible apply accRead_keeps
    | with_reducible apply countNarrow_keeps
    | with_reducible apply accWrite_keeps
    | with_reducible apply Keeps.ite
    | intro _
    | (refine Keeps.mk' ?_ rfl rfl rfl rfl rfl rfl rfl rfl rfl; first | with_reducible assumption | with_reducible apply accRead_keeps | with_reducible apply countNarrow_keeps | with_reducible apply accWrite_keeps | with_reducible apply Keeps.ite | split)

theorem accesses_keeps  {z s : State} (l : List BusAcc) (hk0 : Keeps z s) : Keeps z (accesses l s) := by
  unfold accesses
  try dsimp only
  repeat' first
    | with_reducible assumption
    | with_reducible apply access_keeps
    | (with_reducible refine Keeps.foldl (fun s a hs => ?_) _ _ ?_)
    | with_reducible apply Keeps.ite
    | intro _
    | (refine Keeps.mk' ?_ rfl rfl rfl rfl rfl rfl rfl rfl rfl; first | with_reducible assumption | with_reducible apply access_keeps | (with_reducible refine Keeps.foldl (fun s a hs => ?_) _ _ ?_) | with_reducible apply Keeps.ite | split)

theorem execRegisterWrite_keeps (off : Nat) (be : BitVec 4) (w : Word) (who : Requester) (also : List BusAcc) (s : State) : ∃ t, execRegisterWrite off be w s who also = .next t ∧ Keeps s t := by
  have hk0 := Keeps.refl s
  refine ⟨_, rfl, ?_⟩
  try dsimp only
  repeat' first
    | with_reducible assumption
    | with_reducible apply accesses_keeps
    | with_reducible apply Keeps.ite
    | intro _
    | (refine Keeps.mk' ?_ rfl rfl rfl rfl rfl rfl rfl rfl rfl; first | with_reducible assumption | with_reducible apply accesses_keeps | with_reducible apply Keeps.ite | split)

theorem execRcRegisterRead_keeps (off : Nat) (who : Requester) (s : State) : ∃ t, execRcRegisterRead off s who = .next t ∧ Keeps s t := by
  have hk0 := Keeps.refl s
  refine ⟨_, rfl, ?_⟩
  try dsimp only
  repeat' first
    | with_reducible assumption
    | with_reducible apply accesses_keeps
    | with_reducible apply Keeps.ite
    | intro _
    | (refine Keeps.mk' ?_ rfl rfl rfl rfl rfl rfl rfl rfl rfl; first | with_reducible assumption | with_reducible apply accesses_keeps | with_reducible apply Keeps.ite | split)

theorem execPacketWordWrite_keeps (p : Port) (idx : Nat) (w : Word) (s : State) : ∃ t, execPacketWordWrite p idx w s = .next t ∧ Keeps s t := by
  have hk0 := Keeps.refl s
  refine ⟨_, rfl, ?_⟩
  try dsimp only
  repeat' first
    | with_reducible assumption
    | with_reducible apply busWrite_keeps
    | with_reducible apply writeWord_keeps
    | with_reducible apply Keeps.ite
    | intro _
    | (refine Keeps.mk' ?_ rfl rfl rfl rfl rfl rfl rfl rfl rfl; first | with_reducible assumption | with_reducible apply busWrite_keeps | with_reducible apply writeWord_keeps | with_reducible apply Keeps.ite | split)

theorem execReplyBufferRead_keeps (p : Port) (idx : Nat) (framing : Byte) (s : State) : ∃ t, execReplyBufferRead p idx s framing = .next t ∧ Keeps s t := by
  have hk0 := Keeps.refl s
  refine ⟨_, rfl, ?_⟩
  try dsimp only
  repeat' first
    | with_reducible assumption
    | with_reducible apply busRead_keeps
    | with_reducible apply putData_keeps
    | with_reducible apply readReply_keeps
    | with_reducible apply Keeps.ite
    | intro _
    | (refine Keeps.mk' ?_ rfl rfl rfl rfl rfl rfl rfl rfl rfl; first | with_reducible assumption | with_reducible apply busRead_keeps | with_reducible apply putData_keeps | with_reducible apply readReply_keeps | with_reducible apply Keeps.ite | split)

theorem execTbNsRead_keeps  (s : State) : ∃ t, execTbNsRead s = .next t ∧ Keeps s t := by
  have hk0 := Keeps.refl s
  refine ⟨_, rfl, ?_⟩
  try dsimp only
  repeat' first
    | with_reducible assumption
    | with_reducible apply busRead_keeps
    | with_reducible apply Keeps.ite
    | intro _
    | (refine Keeps.mk' ?_ rfl rfl rfl rfl rfl rfl rfl rfl rfl; first | with_reducible assumption | with_reducible apply busRead_keeps | with_reducible apply Keeps.ite | split)

theorem execPtpTxNsRead_keeps (mac : Nat) (s : State) : ∃ t, execPtpTxNsRead mac s = .next t ∧ Keeps s t := by
  have hk0 := Keeps.refl s
  refine ⟨_, rfl, ?_⟩
  try dsimp only
  repeat' first
    | with_reducible assumption
    | with_reducible apply busRead_keeps
    | with_reducible apply Keeps.ite
    | intro _
    | (refine Keeps.mk' ?_ rfl rfl rfl rfl rfl rfl rfl rfl rfl; first | with_reducible assumption | with_reducible apply busRead_keeps | with_reducible apply Keeps.ite | split)

theorem execAddendHiWrite_keeps (w : Word) (s : State) : ∃ t, execAddendHiWrite w s = .next t ∧ Keeps s t := by
  have hk0 := Keeps.refl s
  refine ⟨_, rfl, ?_⟩
  try dsimp only
  repeat' first
    | with_reducible assumption
    | with_reducible apply busWrite_keeps
    | with_reducible apply Keeps.ite
    | intro _
    | (refine Keeps.mk' ?_ rfl rfl rfl rfl rfl rfl rfl rfl rfl; first | with_reducible assumption | with_reducible apply busWrite_keeps | with_reducible apply Keeps.ite | split)

theorem execServoCtrlWrite_keeps (w : Word) (s : State) : ∃ t, execServoCtrlWrite w s = .next t ∧ Keeps s t := by
  have hk0 := Keeps.refl s
  refine ⟨_, rfl, ?_⟩
  try dsimp only
  repeat' first
    | with_reducible assumption
    | with_reducible apply busWrite_keeps
    | with_reducible apply Keeps.ite
    | intro _
    | (refine Keeps.mk' ?_ rfl rfl rfl rfl rfl rfl rfl rfl rfl; first | with_reducible assumption | with_reducible apply busWrite_keeps | with_reducible apply Keeps.ite | split)

theorem execCapPop_keeps (w : Word) (s : State) : ∃ t, execCapPop w s = .next t ∧ Keeps s t := by
  have hk0 := Keeps.refl s
  refine ⟨_, rfl, ?_⟩
  try dsimp only
  repeat' first
    | with_reducible assumption
    | with_reducible apply busWrite_keeps
    | with_reducible apply Keeps.ite
    | intro _
    | (refine Keeps.mk' ?_ rfl rfl rfl rfl rfl rfl rfl rfl rfl; first | with_reducible assumption | with_reducible apply busWrite_keeps | with_reducible apply Keeps.ite | split)

theorem execNodeIdWrite_keeps (w : Word) (s : State) : ∃ t, execNodeIdWrite w s = .next t ∧ Keeps s t := by
  have hk0 := Keeps.refl s
  refine ⟨_, rfl, ?_⟩
  try dsimp only
  repeat' first
    | with_reducible assumption
    | with_reducible apply busWrite_keeps
    | with_reducible apply Keeps.ite
    | intro _
    | (refine Keeps.mk' ?_ rfl rfl rfl rfl rfl rfl rfl rfl rfl; first | with_reducible assumption | with_reducible apply busWrite_keeps | with_reducible apply Keeps.ite | split)

theorem execCciGo_keeps (port : Nat) (w : Word) (s : State) : ∃ t, execCciGo port w s = .next t ∧ Keeps s t := by
  have hk0 := Keeps.refl s
  refine ⟨_, rfl, ?_⟩
  try dsimp only
  repeat' first
    | with_reducible assumption
    | with_reducible apply busWrite_keeps
    | with_reducible apply Keeps.ite
    | intro _
    | (refine Keeps.mk' ?_ rfl rfl rfl rfl rfl rfl rfl rfl rfl; first | with_reducible assumption | with_reducible apply busWrite_keeps | with_reducible apply Keeps.ite | split)

end Sys2Proof.Machine
end

