-- ==== Sys2Proof/Laws/Keeps/Startup.lean ====
section
/-! SUPPORT. What the definitions of Machine/Startup.lean keep (Laws/Keeps.lean). -/

set_option linter.unusedTactic false
set_option linter.unreachableTactic false
set_option linter.unusedVariables false

namespace Sys2Proof.Machine

theorem startupSlice_keeps {z s : State} (ups : List SliceUpset) (e k : Nat) (hk0 : Keeps z s) :
    Keeps z (startupSlice ups s e k) := by
  unfold startupSlice
  dsimp only
  refine Keeps.ite (fun _ => hk0) (fun _ => ?_)
  have h2 := fun l f => runSlice_keeps (z := z) e l f (modEng_keeps e (fun x => { x with
    katEnt := (packSlices s.saf.pack (kindCode (engKind e))).getD k [], katBase := s.saf.pack.addr }) hk0)
  exact Keeps.ite (fun _ => slicePoison_keeps _ _ (h2 _ _)) (fun _ => Keeps.ite (fun _ => slicePass_keeps _ _ (h2 _ _))
    (fun _ => Keeps.mk' (quarantine_keeps _ (h2 _ _)) rfl rfl rfl rfl rfl rfl rfl rfl rfl))

theorem startupSlices_keeps  {z s : State} (ups : List SliceUpset) (hk0 : Keeps z s) : Keeps z (startupSlices ups s) := by
  unfold startupSlices
  try dsimp only
  repeat' first
    | with_reducible assumption
    | with_reducible apply startupSlice_keeps
    | (with_reducible refine Keeps.foldl (fun s a hs => ?_) _ _ ?_)
    | with_reducible apply Keeps.ite
    | intro _
    | (refine Keeps.mk' ?_ rfl rfl rfl rfl rfl rfl rfl rfl rfl; first | with_reducible assumption | with_reducible apply startupSlice_keeps | (with_reducible refine Keeps.foldl (fun s a hs => ?_) _ _ ?_) | with_reducible apply Keeps.ite | split)

theorem startFirmware_keeps  {z s : State} (ups : List SliceUpset) (a : Nat) (hk0 : Keeps z s) : Keeps z (startFirmware ups s a) := by
  unfold startFirmware
  try dsimp only
  repeat' first
    | with_reducible assumption
    | with_reducible apply runFirmware_keeps
    | with_reducible apply startupSlices_keeps
    | with_reducible apply makeAlias_keeps
    | with_reducible apply Keeps.ite
    | intro _
    | (refine Keeps.mk' ?_ rfl rfl rfl rfl rfl rfl rfl rfl rfl; first | with_reducible assumption | with_reducible apply runFirmware_keeps | with_reducible apply startupSlices_keeps | with_reducible apply makeAlias_keeps | with_reducible apply Keeps.ite | split)

theorem finishLoad_keeps  {z s : State} (l : FwLoad) (ups : List SliceUpset) (hk0 : Keeps z s) : Keeps z (finishLoad s l ups) := by
  unfold finishLoad
  try dsimp only
  repeat' first
    | with_reducible assumption
    | with_reducible apply activatePack_keeps
    | with_reducible apply startFirmware_keeps
    | with_reducible apply finishTok_keeps
    | with_reducible apply Keeps.ite
    | intro _
    | (refine Keeps.mk' ?_ rfl rfl rfl rfl rfl rfl rfl rfl rfl; first | with_reducible assumption | with_reducible apply activatePack_keeps | with_reducible apply startFirmware_keeps | with_reducible apply finishTok_keeps | with_reducible apply Keeps.ite | split)

theorem loadChecked_keeps  {z s : State} (l : FwLoad) (ups : List SliceUpset) (hk0 : Keeps z s) : Keeps z (loadChecked s l ups) := by
  unfold loadChecked
  try dsimp only
  repeat' first
    | with_reducible assumption
    | with_reducible apply sigCount_keeps
    | with_reducible apply finishTok_keeps
    | with_reducible apply copySections_keeps
    | with_reducible apply finishLoad_keeps
    | with_reducible apply Keeps.ite
    | intro _
    | (refine Keeps.mk' ?_ rfl rfl rfl rfl rfl rfl rfl rfl rfl; first | with_reducible assumption | with_reducible apply sigCount_keeps | with_reducible apply finishTok_keeps | with_reducible apply copySections_keeps | with_reducible apply finishLoad_keeps | with_reducible apply Keeps.ite | split)

theorem execFirmwareLoadDone_keeps (ups : List SliceUpset) (ecc : List (Nat × Ecc)) (s : State) : ∃ t, execFirmwareLoadDone s ups ecc = .next t ∧ Keeps s t := by
  have hk0 := Keeps.refl s
  refine ⟨_, rfl, ?_⟩
  try dsimp only
  repeat' first
    | with_reducible assumption
    | with_reducible apply settle_keeps
    | with_reducible apply finishLoad_keeps
    | with_reducible apply pairAGo_keeps
    | with_reducible apply loadChecked_keeps
    | with_reducible apply Keeps.ite
    | intro _
    | (refine Keeps.mk' ?_ rfl rfl rfl rfl rfl rfl rfl rfl rfl; first | with_reducible assumption | with_reducible apply settle_keeps | with_reducible apply finishLoad_keeps | with_reducible apply pairAGo_keeps | with_reducible apply loadChecked_keeps | with_reducible apply Keeps.ite | split)

theorem restart_keeps  {z s : State} (ups : List SliceUpset) (o : Nat → Ecc) (hk0 : Keeps z s) : Keeps z (restart s ups o) := by
  unfold restart
  try dsimp only
  repeat' first
    | with_reducible assumption
    | with_reducible apply pairAGo_keeps
    | with_reducible apply startFirmware_keeps
    | with_reducible apply copySections_keeps
    | with_reducible apply setSrc_keeps
    | with_reducible apply Keeps.ite
    | intro _
    | (refine Keeps.mk' ?_ rfl rfl rfl rfl rfl rfl rfl rfl rfl; first | with_reducible assumption | with_reducible apply pairAGo_keeps | with_reducible apply startFirmware_keeps | with_reducible apply copySections_keeps | with_reducible apply setSrc_keeps | with_reducible apply Keeps.ite | split)

theorem execWarmResetDone_keeps (ups : List SliceUpset) (ecc : List (Nat × Ecc)) (s : State) : ∃ t, execWarmResetDone s ups ecc = .next t ∧ Keeps s t := by
  have hk0 := Keeps.refl s
  refine ⟨_, rfl, ?_⟩
  try dsimp only
  repeat' first
    | with_reducible assumption
    | with_reducible apply deriveKey_keeps
    | with_reducible apply setSrc_keeps
    | with_reducible apply restart_keeps
    | with_reducible apply settle_keeps
    | with_reducible apply dueAnnounce_keeps
    | with_reducible apply levelSources_keeps
    | with_reducible apply Keeps.ite
    | intro _
    | (refine Keeps.mk' ?_ rfl rfl rfl rfl rfl rfl rfl rfl rfl; first | with_reducible assumption | with_reducible apply deriveKey_keeps | with_reducible apply setSrc_keeps | with_reducible apply restart_keeps | with_reducible apply settle_keeps | with_reducible apply dueAnnounce_keeps | with_reducible apply levelSources_keeps | with_reducible apply Keeps.ite | split)

end Sys2Proof.Machine
end

