-- ==== Sys2Proof/WellFormed.lean ====
section
/-! DEFINITION. Which commands are well formed: the ranges their operands have in the manual. The machine is total:
a command outside these ranges has no effect or is answered as its rule says. -/

namespace Sys2Proof

/-- A packet fits LENGTH, 3 to 1,024 words (R450). -/
def Pkt.wf (k : Pkt) : Bool := k.params.length ≤ 1021

/-- One check per operand range. -/
def Instr.wf : Instr → Bool
  | .echo k | .getInfo k | .getStatus k | .loadFirmware k | .loadObject k | .verifyObject k | .commitShadow k
  | .swapSets k | .readSetInfo k _ | .runCtlStart k | .runCtlStop k | .runCtlStartGroup k | .runCtlJoin k _
  | .runCtlRearm k | .abortJob k | .queryJob k | .kvMap k _ | .kvUnmap k _ | .kvEdit k _ | .timeSet k | .timeAdj k
  | .triggerCfg k | .scrubRange k | .readFaults k | .clearFaults k | .runSelftest k | .loadTestPack k
  | .resetDomain k | .guiltReplay k | .attest k | .getCerts k | .recordCtlStart k | .recordCtlStop k
  | .recordCtlQuery k | .replayCtlStart k _ | .replayCtlStop k | .replayCtlQuery k => k.wf
  | .runJob k _ _ => k.wf
  | .packetWordWrite _ idx _ | .replyBufferRead _ idx _ => idx < 1024
  | .firmwareLoadDone us _ | .warmResetDone us _ => us.all (fun u => u.e < 26)
  | .reservationOpen j | .jobStart j | .jobDeadline j => j < 1024
  | .tileDispatch e e2 => e < 26 && e2.all (fun x => x < 26 && x != e)
  | .tileDrainEnd e _ ups _ => e < 16 && ups.all (fun u => u.1 ≤ 512 && u.2.1 ≤ 129)
  | .operandPoisonConsumed e | .streamResume e _ | .katSliceStart e | .katSliceEnd e _ _ _ _
  | .hangOverrun e | .hangNoAck e => e < 26
  | .taskEnd e _ _ _ => 16 ≤ e && e < 26 && e != 20 && e != 21
  | .attentionTaskEnd e _ _ _ _ => e == 20 || e == 21
  | .completionRecordCollect i => i < 30
  | .walkLockGrant q _ | .pageFetchDone q _ _ _ | .pageSpillDone q _ _ _ => q < 64
  | .bar2Write off bs _ => off + bs.length ≤ 0x800_0000
  | .bar4Write off bs _ => off + bs.length ≤ 0x1_0000_0000
  | .barMemoryRead b4 off len _ => off + len ≤ (if b4 then 0x1_0000_0000 else 0x800_0000)
  | .bar0UnassignedAccess off _ | .rcRegisterRead off _ => off < 0x100_0000
  | .registerWrite off _ _ _ also => off < 0x100_0000 && also.all (fun x => x.off < 0x100_0000)
  | .ptpTxNsRead m | .ethLinkChange m _ => m < 8
  | .ethFrameReceive m _ bs => m < 8 && bs.length ≤ 16384
  | .cciGo p _ | .cciTimeout p | .fsyncPulseEnd p | .csi2FrameStart p _ | .csi2FrameEnd p _ _
  | .spLinkChange p _ _ | .txForwardPacket p _ _ _ => p < 16
  | .cciDone p _ bs => p < 16 && bs.length ≤ 16
  | .csi2Line p _ dt _ _ _ _ _ _ => p < 16 && dt < 64
  | .capEdge c => c < 8
  | .triggerFire c => c < 32
  | .ethTimeClose s | .sensorFrameComplete s => s < 64
  | .mapinWriteReq _ _ d | .mapinReadReply _ d _ => d.length ≤ 2048
  | .mapinArrive _ _ sec ns | .mapinRelease _ _ sec ns => sec < 2 ^ 48 && ns < 1000000000
  | .dramTrainingDone f => f.all (· < 24)
  | .startupInjectionDone f b => f.all (· < 17) && b.all (· < 26)
  | .pcieLinkChange _ sp w _ => sp ≤ 4 && (w == 0 || w == 1 || w == 2 || w == 4 || w == 8)
  | .pcieConfigWrite (.bar n _) => n ≤ 5
  | .pcieConfigWrite (.maxPayload c) => c ≤ 2
  | .pcieConfigWrite (.maxReadRequest c) => c ≤ 5
  | _ => true

end Sys2Proof
end

