-- ==== Sys2Proof/Laws/PerInstr.lean ====
section
/-! SUPPORT. What holds of every command as syntax, constructor by constructor. -/

namespace Sys2Proof.Laws.PacketWf

open Sys2Proof Sys2Proof.Machine

/-- A command that is a whole packet has a host opcode and a known FLAGS value, and it is well formed exactly when its
packet fits LENGTH (R450, R465, R466). -/
def Statement (i : Instr) : Prop :=
  ∀ op flags k, packetOf i = some (op, flags, k) → op < 0x80 ∧ flags ≤ 4 ∧ (i.wf = true ↔ k.params.length + 3 ≤ 1024)

/-- The words of a packet that a constructor carries. -/
theorem of_packet {i : Instr} {p f : Nat} {j : Pkt} (h : packetOf i = some (p, f, j)) (hp : p < 0x80) (hf : f ≤ 4)
    (hw : i.wf = j.wf) : Statement i := by
  intro op flags k hk
  rw [h] at hk
  cases hk
  exact ⟨hp, hf, by simp [hw, Pkt.wf]⟩

/-- A command that carries no packet. -/
theorem of_none {i : Instr} (h : packetOf i = none) : Statement i := by
  intro op flags k hk
  rw [h] at hk
  cases hk

theorem echo (k : Pkt) : Statement (.echo k) := of_packet rfl (by decide) (by decide) rfl
theorem getInfo (k : Pkt) : Statement (.getInfo k) := of_packet rfl (by decide) (by decide) rfl
theorem getStatus (k : Pkt) : Statement (.getStatus k) := of_packet rfl (by decide) (by decide) rfl
theorem loadFirmware (k : Pkt) : Statement (.loadFirmware k) := of_packet rfl (by decide) (by decide) rfl
theorem firmwareLoadDone (ups : List SliceUpset := []) (ecc : List (Nat × Ecc) := []) : Statement (.firmwareLoadDone ups ecc) := of_none rfl
theorem fuseProgrammingDone : Statement .fuseProgrammingDone := of_none rfl
theorem loadObject (k : Pkt) : Statement (.loadObject k) := of_packet rfl (by decide) (by decide) rfl
theorem verifyObject (k : Pkt) : Statement (.verifyObject k) := of_packet rfl (by decide) (by decide) rfl
theorem verifyObjectDone (slot : Bool) (ecc : List (Nat × Ecc) := []) : Statement (.verifyObjectDone slot ecc) := of_none rfl
theorem commitShadow (k : Pkt) : Statement (.commitShadow k) := of_packet rfl (by decide) (by decide) rfl
theorem commitShadowDone (slot : Bool) (ecc : List (Nat × Ecc) := []) : Statement (.commitShadowDone slot ecc) := of_none rfl
theorem swapSets (k : Pkt) : Statement (.swapSets k) := of_packet rfl (by decide) (by decide) rfl
theorem readSetInfo (k : Pkt) (ecc : List (Nat × Ecc) := []) : Statement (.readSetInfo k ecc) := of_packet rfl (by decide) (by decide) rfl
theorem runCtlStart (k : Pkt) : Statement (.runCtlStart k) := of_packet rfl (by decide) (by decide) rfl
theorem runCtlStop (k : Pkt) : Statement (.runCtlStop k) := of_packet rfl (by decide) (by decide) rfl
theorem runCtlStartGroup (k : Pkt) : Statement (.runCtlStartGroup k) := of_packet rfl (by decide) (by decide) rfl
theorem runCtlJoin (k : Pkt) (idle : List (BitVec 16) := []) : Statement (.runCtlJoin k idle) := of_packet rfl (by decide) (by decide) rfl
theorem runCtlRearm (k : Pkt) : Statement (.runCtlRearm k) := of_packet rfl (by decide) (by decide) rfl
theorem runJob (k : Pkt) (t4 : Bool) (ecc : List (Nat × Ecc) := []) : Statement (.runJob k t4 ecc) := of_packet rfl (by decide) (by cases t4 <;> decide) rfl
theorem abortJob (k : Pkt) : Statement (.abortJob k) := of_packet rfl (by decide) (by decide) rfl
theorem queryJob (k : Pkt) : Statement (.queryJob k) := of_packet rfl (by decide) (by decide) rfl
theorem kvMap (k : Pkt) (ecc : List (Nat × Ecc) := []) : Statement (.kvMap k ecc) := of_packet rfl (by decide) (by decide) rfl
theorem kvUnmap (k : Pkt) (ecc : List (Nat × Ecc) := []) : Statement (.kvUnmap k ecc) := of_packet rfl (by decide) (by decide) rfl
theorem kvEdit (k : Pkt) (ecc : List (Nat × Ecc) := []) : Statement (.kvEdit k ecc) := of_packet rfl (by decide) (by decide) rfl
theorem timeSet (k : Pkt) : Statement (.timeSet k) := of_packet rfl (by decide) (by decide) rfl
theorem timeAdj (k : Pkt) : Statement (.timeAdj k) := of_packet rfl (by decide) (by decide) rfl
theorem triggerCfg (k : Pkt) : Statement (.triggerCfg k) := of_packet rfl (by decide) (by decide) rfl
theorem scrubRange (k : Pkt) : Statement (.scrubRange k) := of_packet rfl (by decide) (by decide) rfl
theorem readFaults (k : Pkt) : Statement (.readFaults k) := of_packet rfl (by decide) (by decide) rfl
theorem clearFaults (k : Pkt) : Statement (.clearFaults k) := of_packet rfl (by decide) (by decide) rfl
theorem runSelftest (k : Pkt) : Statement (.runSelftest k) := of_packet rfl (by decide) (by decide) rfl
theorem loadTestPack (k : Pkt) : Statement (.loadTestPack k) := of_packet rfl (by decide) (by decide) rfl
theorem resetDomain (k : Pkt) : Statement (.resetDomain k) := of_packet rfl (by decide) (by decide) rfl
theorem guiltReplay (k : Pkt) : Statement (.guiltReplay k) := of_packet rfl (by decide) (by decide) rfl
theorem attest (k : Pkt) : Statement (.attest k) := of_packet rfl (by decide) (by decide) rfl
theorem getCerts (k : Pkt) : Statement (.getCerts k) := of_packet rfl (by decide) (by decide) rfl
theorem recordCtlStart (k : Pkt) : Statement (.recordCtlStart k) := of_packet rfl (by decide) (by decide) rfl
theorem recordCtlStop (k : Pkt) : Statement (.recordCtlStop k) := of_packet rfl (by decide) (by decide) rfl
theorem recordCtlQuery (k : Pkt) : Statement (.recordCtlQuery k) := of_packet rfl (by decide) (by decide) rfl
theorem replayCtlStart (k : Pkt) (ecc : List (Nat × Ecc) := []) : Statement (.replayCtlStart k ecc) := of_packet rfl (by decide) (by decide) rfl
theorem replayCtlStop (k : Pkt) : Statement (.replayCtlStop k) := of_packet rfl (by decide) (by decide) rfl
theorem replayCtlQuery (k : Pkt) : Statement (.replayCtlQuery k) := of_packet rfl (by decide) (by decide) rfl
theorem packetWordWrite (p : Port) (idx : Nat) (w : Word) : Statement (.packetWordWrite p idx w) := of_none rfl
theorem sspShortTransaction : Statement .sspShortTransaction := of_none rfl
theorem replyBufferRead (p : Port) (idx : Nat) (framing : Byte := 0x5A) : Statement (.replyBufferRead p idx framing) := of_none rfl
theorem faultEvent (p : Port) : Statement (.faultEvent p) := of_none rfl
theorem announce : Statement .announce := of_none rfl
theorem peerLostEvent : Statement .peerLostEvent := of_none rfl
theorem verdictEvent : Statement .verdictEvent := of_none rfl
theorem commandTimeout (p : Port) : Statement (.commandTimeout p) := of_none rfl
theorem cmdDrUpdate (framing : Byte) (w : Word) : Statement (.cmdDrUpdate framing w) := of_none rfl
theorem frameStart : Statement .frameStart := of_none rfl
theorem schedulerWatchdog : Statement .schedulerWatchdog := of_none rfl
theorem outCommit : Statement .outCommit := of_none rfl
theorem slackStart (ecc : List (Nat × Ecc) := []) : Statement (.slackStart ecc) := of_none rfl
theorem reservationOpen (job : Nat) : Statement (.reservationOpen job) := of_none rfl
theorem jobStart (job : Nat) : Statement (.jobStart job) := of_none rfl
theorem jobDeadline (job : Nat) : Statement (.jobDeadline job) := of_none rfl
theorem jobBudgetExpire (token : Word) : Statement (.jobBudgetExpire token) := of_none rfl
theorem runJobTimeout (token : Word) : Statement (.runJobTimeout token) := of_none rfl
theorem tileDispatch (e : Nat) (e2 : Option Nat) : Statement (.tileDispatch e e2) := of_none rfl
theorem tileDrainEnd (e : Nat) (cycles : Nat) (upsets : List (Nat × Nat × Word)) (errs : List EngErr := []) : Statement (.tileDrainEnd e cycles upsets errs) := of_none rfl
theorem operandPoisonConsumed (e : Nat) : Statement (.operandPoisonConsumed e) := of_none rfl
theorem taskEnd (e : Nat) (cycles : Nat) (upsets : List (Nat × Byte)) (errs : List EngErr := []) : Statement (.taskEnd e cycles upsets errs) := of_none rfl
theorem attentionTaskEnd (e : Nat) (cycles : Nat) (upsets : List (Nat × Byte)) (errs : List EngErr := []) (ecc : List (Nat × Ecc) := []) : Statement (.attentionTaskEnd e cycles upsets errs ecc) := of_none rfl
theorem fallbackDecision (token : Word) (layer : BitVec 16) (ecc : List (Nat × Ecc) := []) : Statement (.fallbackDecision token layer ecc) := of_none rfl
theorem completionRecordCollect (input : Nat) : Statement (.completionRecordCollect input) := of_none rfl
theorem completionRecordConsume (ecc : List (Nat × Ecc) := []) : Statement (.completionRecordConsume ecc) := of_none rfl
theorem walkLockGrant (seqId : Nat) (ecc : List (Nat × Ecc) := []) : Statement (.walkLockGrant seqId ecc) := of_none rfl
theorem pageFetchDone (seqId entry : Nat) (ecc : List Ecc := []) (cs : List (Nat × Ecc) := []) : Statement (.pageFetchDone seqId entry ecc cs) := of_none rfl
theorem pageSpillDone (seqId entry : Nat) (ecc : List Ecc := []) (cs : List (Nat × Ecc) := []) : Statement (.pageSpillDone seqId entry ecc cs) := of_none rfl
theorem streamResume (e : Nat) (ecc : List (Nat × Ecc) := []) : Statement (.streamResume e ecc) := of_none rfl
theorem ringShiftStart : Statement .ringShiftStart := of_none rfl
theorem ringShiftEnd (ecc : List (Nat × Ecc) := []) : Statement (.ringShiftEnd ecc) := of_none rfl
theorem residentLoadDone (ecc : List (Nat × Ecc) := []) : Statement (.residentLoadDone ecc) := of_none rfl
theorem fabricTimeout (req : Nat) : Statement (.fabricTimeout req) := of_none rfl
theorem lateResponse (req : Nat) : Statement (.lateResponse req) := of_none rfl
theorem creditEpochCheck (pool : Nat) : Statement (.creditEpochCheck pool) := of_none rfl
theorem scrubPassResume : Statement .scrubPassResume := of_none rfl
theorem scrubUnitCheck (ecc : List Ecc) : Statement (.scrubUnitCheck ecc) := of_none rfl
theorem bar2Write (off : Nat) (bytes : List Byte) (ecc : List Ecc) : Statement (.bar2Write off bytes ecc) := of_none rfl
theorem bar4Write (off : Nat) (bytes : List Byte) (ecc : List Ecc) : Statement (.bar4Write off bytes ecc) := of_none rfl
theorem barMemoryRead (bar4 : Bool) (off len : Nat) (ecc : List Ecc) : Statement (.barMemoryRead bar4 off len ecc) := of_none rfl
theorem dramApertureHiWrite (w : Word) : Statement (.dramApertureHiWrite w) := of_none rfl
theorem bar0UnassignedAccess (off : Nat) (write : Bool) : Statement (.bar0UnassignedAccess off write) := of_none rfl
theorem registerWrite (off : Nat) (be : BitVec 4) (w : Word) (who : Requester := .pcie) (also : List BusAcc := []) : Statement (.registerWrite off be w who also) := of_none rfl
theorem rcRegisterRead (off : Nat) (who : Requester := .pcie) : Statement (.rcRegisterRead off who) := of_none rfl
theorem tbNsRead : Statement .tbNsRead := of_none rfl
theorem ptpTxNsRead (mac : Nat) : Statement (.ptpTxNsRead mac) := of_none rfl
theorem addendHiWrite (w : Word) : Statement (.addendHiWrite w) := of_none rfl
theorem servoCtrlWrite (w : Word) : Statement (.servoCtrlWrite w) := of_none rfl
theorem capPop (w : Word) : Statement (.capPop w) := of_none rfl
theorem nodeIdWrite (w : Word) : Statement (.nodeIdWrite w) := of_none rfl
theorem cciGo (port : Nat) (w : Word) : Statement (.cciGo port w) := of_none rfl
theorem cciDone (port : Nat) (nack : Bool) (bytes : List Byte) : Statement (.cciDone port nack bytes) := of_none rfl
theorem cciTimeout (port : Nat) : Statement (.cciTimeout port) := of_none rfl
theorem servoSample (e : Int) : Statement (.servoSample e) := of_none rfl
theorem servoSampleTimeout : Statement .servoSampleTimeout := of_none rfl
theorem ptpMessageReceive (m : PtpMsg) (h : PtpHdr := ⟨0, 0, 0⟩) : Statement (.ptpMessageReceive m h) := of_none rfl
theorem ptpSyncInterval : Statement .ptpSyncInterval := of_none rfl
theorem ppsInEdge (rising : Bool) : Statement (.ppsInEdge rising) := of_none rfl
theorem capEdge (ch : Nat) : Statement (.capEdge ch) := of_none rfl
theorem triggerFire (ch : Nat) : Statement (.triggerFire ch) := of_none rfl
theorem fsyncPulseEnd (n : Nat) : Statement (.fsyncPulseEnd n) := of_none rfl
theorem ppsOutEnd : Statement .ppsOutEnd := of_none rfl
theorem csi2FrameStart (port vc : Nat) : Statement (.csi2FrameStart port vc) := of_none rfl
theorem csi2Line (port vc dt : Nat) (hdr : HdrEcc) (crcOk : Bool) (payload : List Byte) (ovr : Bool) (lb : Ecc) (word : Nat := 0) : Statement (.csi2Line port vc dt hdr crcOk payload ovr lb word) := of_none rfl
theorem csi2FrameEnd (port vc : Nat) (ecc : List (Nat × Ecc) := []) : Statement (.csi2FrameEnd port vc ecc) := of_none rfl
theorem ethFrameReceive (mac : Nat) (fcsOk : Bool) (bytes : List Byte) : Statement (.ethFrameReceive mac fcsOk bytes) := of_none rfl
theorem ethTimeClose (stream : Nat) : Statement (.ethTimeClose stream) := of_none rfl
theorem sensorFrameComplete (stream : Nat) : Statement (.sensorFrameComplete stream) := of_none rfl
theorem txForwardPacket (port : Nat) (dt : Nat) (fits : Bool) (payload : List Byte) : Statement (.txForwardPacket port dt fits payload) := of_none rfl
theorem replayInject (ecc : List (Nat × Ecc) := []) : Statement (.replayInject ecc) := of_none rfl
theorem spLinkChange (port : Nat) (up : Bool) (gear : Nat) : Statement (.spLinkChange port up gear) := of_none rfl
theorem ethLinkChange (mac : Nat) (up : Bool) : Statement (.ethLinkChange mac up) := of_none rfl
theorem mapinHello (h : MHdr) : Statement (.mapinHello h) := of_none rfl
theorem mapinLink (h : MHdr) : Statement (.mapinLink h) := of_none rfl
theorem mapinWriteReq (h : MHdr) (addr : Nat) (data : List Byte) : Statement (.mapinWriteReq h addr data) := of_none rfl
theorem mapinWriteReply (h : MHdr) : Statement (.mapinWriteReply h) := of_none rfl
theorem mapinReadReq (h : MHdr) (addr : Nat) (ecc : List (Nat × Ecc) := []) : Statement (.mapinReadReq h addr ecc) := of_none rfl
theorem mapinReadReply (h : MHdr) (data : List Byte) (poisoned : List Nat) : Statement (.mapinReadReply h data poisoned) := of_none rfl
theorem mapinArrive (h : MHdr) (seq : Word) (sec ns : Nat) : Statement (.mapinArrive h seq sec ns) := of_none rfl
theorem mapinRelease (h : MHdr) (seq : Word) (sec ns : Nat) : Statement (.mapinRelease h seq sec ns) := of_none rfl
theorem mapinTimeReq (h : MHdr) : Statement (.mapinTimeReq h) := of_none rfl
theorem mapinTimeResp (h : MHdr) (t2 t3 : Int) : Statement (.mapinTimeResp h t2 t3) := of_none rfl
theorem mapinLost (h : MHdr) : Statement (.mapinLost h) := of_none rfl
theorem mapinBadFrame (src : BitVec 16) : Statement (.mapinBadFrame src) := of_none rfl
theorem mapinFrameSend (dst : BitVec 16) (ecc : List (Nat × Ecc) := []) : Statement (.mapinFrameSend dst ecc) := of_none rfl
theorem mapinResendTimeout (dst : BitVec 16) : Statement (.mapinResendTimeout dst) := of_none rfl
theorem mapinLinkKeepalive (dst : BitVec 16) : Statement (.mapinLinkKeepalive dst) := of_none rfl
theorem mapinTimeReqInterval : Statement .mapinTimeReqInterval := of_none rfl
theorem mapinReqTimeout (reqId : Word) : Statement (.mapinReqTimeout reqId) := of_none rfl
theorem mapinMemberSilent (node : BitVec 16) : Statement (.mapinMemberSilent node) := of_none rfl
theorem barrierTimeout : Statement .barrierTimeout := of_none rfl
theorem ruleEvaluate (n : Nat) : Statement (.ruleEvaluate n) := of_none rfl
theorem evidenceCopy (n : Nat) (ecc : List (Nat × Ecc) := []) : Statement (.evidenceCopy n ecc) := of_none rfl
theorem mirrorRecordBin : Statement .mirrorRecordBin := of_none rfl
theorem verdictWrite : Statement .verdictWrite := of_none rfl
theorem trustLeaseExpire : Statement .trustLeaseExpire := of_none rfl
theorem safeToggle : Statement .safeToggle := of_none rfl
theorem safeMonitorTrip : Statement .safeMonitorTrip := of_none rfl
theorem katSliceStart (e : Nat) : Statement (.katSliceStart e) := of_none rfl
theorem katSliceEnd (e : Nat) (cycles : Nat) (lanes : List (Nat × (Nat × Nat × Word))) (flips : List (Nat × Byte)) (errs : List EngErr := []) : Statement (.katSliceEnd e cycles lanes flips errs) := of_none rfl
theorem hangOverrun (e : Nat) : Statement (.hangOverrun e) := of_none rfl
theorem hangNoAck (e : Nat) : Statement (.hangNoAck e) := of_none rfl
theorem domainResetComplete : Statement .domainResetComplete := of_none rfl
theorem resetStepTimeout : Statement .resetStepTimeout := of_none rfl
theorem chipWarmReset : Statement .chipWarmReset := of_none rfl
theorem warmResetDone (ups : List SliceUpset := []) (ecc : List (Nat × Ecc) := []) : Statement (.warmResetDone ups ecc) := of_none rfl
theorem controlPairMismatch (pairB : Bool) : Statement (.controlPairMismatch pairB) := of_none rfl
theorem headlandLockstepFault (corrected : Bool := false) : Statement (.headlandLockstepFault corrected) := of_none rfl
theorem voltageMonitorTrip (rail : Rail) (collapsed : Bool) : Statement (.voltageMonitorTrip rail collapsed) := of_none rfl
theorem clockMonitorTrip (k : ClockEvent) : Statement (.clockMonitorTrip k) := of_none rfl
theorem refclkEthLoss : Statement .refclkEthLoss := of_none rfl
theorem tempWarning (celsius : Int) : Statement (.tempWarning celsius) := of_none rfl
theorem tempShutdown : Statement .tempShutdown := of_none rfl
theorem flowOkLow (low : Bool) : Statement (.flowOkLow low) := of_none rfl
theorem tamperTrip (k : TamperKind) : Statement (.tamperTrip k) := of_none rfl
theorem pcieAerError (uncorrectable : Bool) : Statement (.pcieAerError uncorrectable) := of_none rfl
theorem powerOn : Statement .powerOn := of_none rfl
theorem powerLoss : Statement .powerLoss := of_none rfl
theorem resetNPulse (ns : Nat) : Statement (.resetNPulse ns) := of_none rfl
theorem resetRelease (refSysPresent : Bool) : Statement (.resetRelease refSysPresent) := of_none rfl
theorem dramTrainingDone (failed : List Nat) : Statement (.dramTrainingDone failed) := of_none rfl
theorem memoryFillDone : Statement .memoryFillDone := of_none rfl
theorem startupInjectionDone (failed : List Nat) (badEngines : List Nat) : Statement (.startupInjectionDone failed badEngines) := of_none rfl
theorem perstNChange (low : Bool) : Statement (.perstNChange low) := of_none rfl
theorem jtagInstructionUpdate (code : Byte) (tapReset : Bool) : Statement (.jtagInstructionUpdate code tapReset) := of_none rfl
theorem tokenDrWord (w : Word) : Statement (.tokenDrWord w) := of_none rfl
theorem debugUnlock : Statement .debugUnlock := of_none rfl
theorem lcAdvance : Statement .lcAdvance := of_none rfl
theorem addOwner : Statement .addOwner := of_none rfl
theorem loadTestPackDone (ecc : List (Nat × Ecc) := []) : Statement (.loadTestPackDone ecc) := of_none rfl
theorem fabricResponse (req : Nat) (ecc : List Ecc) (also : List (Nat × Ecc) := []) : Statement (.fabricResponse req ecc also) := of_none rfl
theorem secondsCarry : Statement .secondsCarry := of_none rfl
theorem pcieLinkChange (up : Bool) (speed width : Nat) (reversed : Bool) : Statement (.pcieLinkChange up speed width reversed) := of_none rfl
theorem pcieConfigWrite (c : CfgWrite) : Statement (.pcieConfigWrite c) := of_none rfl

end Sys2Proof.Laws.PacketWf
end

