-- ==== Sys2Proof/Laws/State.lean ====
section
/-! SUPPORT. The state under each named update: one lemma for every field that the update leaves alone, and what the
update writes; then what reading an element of a changed list gives. -/

namespace Sys2Proof.Laws

open Sys2Proof Sys2Proof.Machine

/-- What no step of a fold changes, the fold does not. -/
theorem foldl_keeps {α β : Type} (g : State → β) (f : State → α → State) (h : ∀ s a, g (f s a) = g s) (l : List α) (s : State) :
    g (l.foldl f s) = g s := by
  induction l generalizing s with
  | nil => rfl
  | cons a r ih => rw [List.foldl_cons, ih, h]

/-- What neither branch changes. -/
theorem ite_keeps {β : Type} (g : State → β) {c : Prop} [Decidable c] {a b : State} {x : β} (ha : g a = x) (hb : g b = x) :
    g (if c then a else b) = x := by
  split
  · exact ha
  · exact hb

section
variable (s : State) (t : Word) (p : Port)
@[simp] theorem addTok_pending : (addTok s t p).pending = s.pending := rfl
@[simp] theorem addTok_part : (addTok s t p).part = s.part := rfl
@[simp] theorem addTok_boot : (addTok s t p).boot = s.boot := rfl
@[simp] theorem addTok_warm : (addTok s t p).warm = s.warm := rfl
@[simp] theorem addTok_clk : (addTok s t p).clk = s.clk := rfl
@[simp] theorem addTok_free : (addTok s t p).free = s.free := rfl
@[simp] theorem addTok_tb : (addTok s t p).tb = s.tb := rfl
@[simp] theorem addTok_ts : (addTok s t p).ts = s.ts := rfl
@[simp] theorem addTok_sch : (addTok s t p).sch = s.sch := rfl
@[simp] theorem addTok_sets : (addTok s t p).sets = s.sets := rfl
@[simp] theorem addTok_eng : (addTok s t p).eng = s.eng := rfl
@[simp] theorem addTok_jobs : (addTok s t p).jobs = s.jobs := rfl
@[simp] theorem addTok_mem : (addTok s t p).mem = s.mem := rfl
@[simp] theorem addTok_poison : (addTok s t p).poison = s.poison := rfl
@[simp] theorem addTok_csramBad : (addTok s t p).csramBad = s.csramBad := rfl
@[simp] theorem addTok_ms : (addTok s t p).ms = s.ms := rfl
@[simp] theorem addTok_cr : (addTok s t p).cr = s.cr := rfl
@[simp] theorem addTok_kv : (addTok s t p).kv = s.kv := rfl
@[simp] theorem addTok_sens : (addTok s t p).sens = s.sens := rfl
@[simp] theorem addTok_map : (addTok s t p).map = s.map := rfl
@[simp] theorem addTok_saf : (addTok s t p).saf = s.saf := rfl
@[simp] theorem addTok_hl : (addTok s t p).hl = s.hl := rfl
@[simp] theorem addTok_fc : (addTok s t p).fc = s.fc := rfl
@[simp] theorem addTok_rst : (addTok s t p).rst = s.rst := rfl
@[simp] theorem addTok_glb : (addTok s t p).glb = s.glb := rfl
@[simp] theorem addTok_pcie : (addTok s t p).pcie = s.pcie := rfl
@[simp] theorem addTok_sec : (addTok s t p).sec = s.sec := rfl
@[simp] theorem addTok_secw : (addTok s t p).secw = s.secw := rfl
@[simp] theorem addTok_pins : (addTok s t p).pins = s.pins := rfl
@[simp] theorem addTok_out : (addTok s t p).out = s.out := rfl
end

section
variable (s : State) (t : Word) (st : Status) (pl : List Word)
@[simp] theorem finishTok_pending : (finishTok s t st pl).pending = s.pending := rfl
@[simp] theorem finishTok_part : (finishTok s t st pl).part = s.part := rfl
@[simp] theorem finishTok_boot : (finishTok s t st pl).boot = s.boot := rfl
@[simp] theorem finishTok_warm : (finishTok s t st pl).warm = s.warm := rfl
@[simp] theorem finishTok_clk : (finishTok s t st pl).clk = s.clk := rfl
@[simp] theorem finishTok_free : (finishTok s t st pl).free = s.free := rfl
@[simp] theorem finishTok_tb : (finishTok s t st pl).tb = s.tb := rfl
@[simp] theorem finishTok_ts : (finishTok s t st pl).ts = s.ts := rfl
@[simp] theorem finishTok_sch : (finishTok s t st pl).sch = s.sch := rfl
@[simp] theorem finishTok_sets : (finishTok s t st pl).sets = s.sets := rfl
@[simp] theorem finishTok_eng : (finishTok s t st pl).eng = s.eng := rfl
@[simp] theorem finishTok_jobs : (finishTok s t st pl).jobs = s.jobs := rfl
@[simp] theorem finishTok_mem : (finishTok s t st pl).mem = s.mem := rfl
@[simp] theorem finishTok_poison : (finishTok s t st pl).poison = s.poison := rfl
@[simp] theorem finishTok_csramBad : (finishTok s t st pl).csramBad = s.csramBad := rfl
@[simp] theorem finishTok_ms : (finishTok s t st pl).ms = s.ms := rfl
@[simp] theorem finishTok_cr : (finishTok s t st pl).cr = s.cr := rfl
@[simp] theorem finishTok_kv : (finishTok s t st pl).kv = s.kv := rfl
@[simp] theorem finishTok_sens : (finishTok s t st pl).sens = s.sens := rfl
@[simp] theorem finishTok_map : (finishTok s t st pl).map = s.map := rfl
@[simp] theorem finishTok_saf : (finishTok s t st pl).saf = s.saf := rfl
@[simp] theorem finishTok_hl : (finishTok s t st pl).hl = s.hl := rfl
@[simp] theorem finishTok_fc : (finishTok s t st pl).fc = s.fc := rfl
@[simp] theorem finishTok_rst : (finishTok s t st pl).rst = s.rst := rfl
@[simp] theorem finishTok_glb : (finishTok s t st pl).glb = s.glb := rfl
@[simp] theorem finishTok_pcie : (finishTok s t st pl).pcie = s.pcie := rfl
@[simp] theorem finishTok_sec : (finishTok s t st pl).sec = s.sec := rfl
@[simp] theorem finishTok_secw : (finishTok s t st pl).secw = s.secw := rfl
@[simp] theorem finishTok_pins : (finishTok s t st pl).pins = s.pins := rfl
@[simp] theorem finishTok_out : (finishTok s t st pl).out = s.out := rfl
end

section
variable (s : State) (t : Word) (c : Nat)
@[simp] theorem setTokCode_pending : (setTokCode s t c).pending = s.pending := rfl
@[simp] theorem setTokCode_part : (setTokCode s t c).part = s.part := rfl
@[simp] theorem setTokCode_boot : (setTokCode s t c).boot = s.boot := rfl
@[simp] theorem setTokCode_warm : (setTokCode s t c).warm = s.warm := rfl
@[simp] theorem setTokCode_clk : (setTokCode s t c).clk = s.clk := rfl
@[simp] theorem setTokCode_free : (setTokCode s t c).free = s.free := rfl
@[simp] theorem setTokCode_tb : (setTokCode s t c).tb = s.tb := rfl
@[simp] theorem setTokCode_ts : (setTokCode s t c).ts = s.ts := rfl
@[simp] theorem setTokCode_sch : (setTokCode s t c).sch = s.sch := rfl
@[simp] theorem setTokCode_sets : (setTokCode s t c).sets = s.sets := rfl
@[simp] theorem setTokCode_eng : (setTokCode s t c).eng = s.eng := rfl
@[simp] theorem setTokCode_jobs : (setTokCode s t c).jobs = s.jobs := rfl
@[simp] theorem setTokCode_mem : (setTokCode s t c).mem = s.mem := rfl
@[simp] theorem setTokCode_poison : (setTokCode s t c).poison = s.poison := rfl
@[simp] theorem setTokCode_csramBad : (setTokCode s t c).csramBad = s.csramBad := rfl
@[simp] theorem setTokCode_ms : (setTokCode s t c).ms = s.ms := rfl
@[simp] theorem setTokCode_cr : (setTokCode s t c).cr = s.cr := rfl
@[simp] theorem setTokCode_kv : (setTokCode s t c).kv = s.kv := rfl
@[simp] theorem setTokCode_sens : (setTokCode s t c).sens = s.sens := rfl
@[simp] theorem setTokCode_map : (setTokCode s t c).map = s.map := rfl
@[simp] theorem setTokCode_saf : (setTokCode s t c).saf = s.saf := rfl
@[simp] theorem setTokCode_hl : (setTokCode s t c).hl = s.hl := rfl
@[simp] theorem setTokCode_fc : (setTokCode s t c).fc = s.fc := rfl
@[simp] theorem setTokCode_rst : (setTokCode s t c).rst = s.rst := rfl
@[simp] theorem setTokCode_glb : (setTokCode s t c).glb = s.glb := rfl
@[simp] theorem setTokCode_pcie : (setTokCode s t c).pcie = s.pcie := rfl
@[simp] theorem setTokCode_sec : (setTokCode s t c).sec = s.sec := rfl
@[simp] theorem setTokCode_secw : (setTokCode s t c).secw = s.secw := rfl
@[simp] theorem setTokCode_pins : (setTokCode s t c).pins = s.pins := rfl
@[simp] theorem setTokCode_out : (setTokCode s t c).out = s.out := rfl
end

section
variable (s : State) (t : Word) (f : Job → Job)
@[simp] theorem modJob_pending : (modJob s t f).pending = s.pending := rfl
@[simp] theorem modJob_part : (modJob s t f).part = s.part := rfl
@[simp] theorem modJob_boot : (modJob s t f).boot = s.boot := rfl
@[simp] theorem modJob_warm : (modJob s t f).warm = s.warm := rfl
@[simp] theorem modJob_clk : (modJob s t f).clk = s.clk := rfl
@[simp] theorem modJob_free : (modJob s t f).free = s.free := rfl
@[simp] theorem modJob_tb : (modJob s t f).tb = s.tb := rfl
@[simp] theorem modJob_ts : (modJob s t f).ts = s.ts := rfl
@[simp] theorem modJob_sch : (modJob s t f).sch = s.sch := rfl
@[simp] theorem modJob_sets : (modJob s t f).sets = s.sets := rfl
@[simp] theorem modJob_eng : (modJob s t f).eng = s.eng := rfl
@[simp] theorem modJob_mem : (modJob s t f).mem = s.mem := rfl
@[simp] theorem modJob_poison : (modJob s t f).poison = s.poison := rfl
@[simp] theorem modJob_csramBad : (modJob s t f).csramBad = s.csramBad := rfl
@[simp] theorem modJob_ms : (modJob s t f).ms = s.ms := rfl
@[simp] theorem modJob_cr : (modJob s t f).cr = s.cr := rfl
@[simp] theorem modJob_kv : (modJob s t f).kv = s.kv := rfl
@[simp] theorem modJob_sens : (modJob s t f).sens = s.sens := rfl
@[simp] theorem modJob_map : (modJob s t f).map = s.map := rfl
@[simp] theorem modJob_saf : (modJob s t f).saf = s.saf := rfl
@[simp] theorem modJob_hl : (modJob s t f).hl = s.hl := rfl
@[simp] theorem modJob_fc : (modJob s t f).fc = s.fc := rfl
@[simp] theorem modJob_rst : (modJob s t f).rst = s.rst := rfl
@[simp] theorem modJob_cmd : (modJob s t f).cmd = s.cmd := rfl
@[simp] theorem modJob_glb : (modJob s t f).glb = s.glb := rfl
@[simp] theorem modJob_pcie : (modJob s t f).pcie = s.pcie := rfl
@[simp] theorem modJob_sec : (modJob s t f).sec = s.sec := rfl
@[simp] theorem modJob_secw : (modJob s t f).secw = s.secw := rfl
@[simp] theorem modJob_pins : (modJob s t f).pins = s.pins := rfl
@[simp] theorem modJob_out : (modJob s t f).out = s.out := rfl
end

section
variable (s : State) (t : Word) (n : Nat) (f : Item → Item)
@[simp] theorem modItem_pending : (modItem s t n f).pending = s.pending := rfl
@[simp] theorem modItem_part : (modItem s t n f).part = s.part := rfl
@[simp] theorem modItem_boot : (modItem s t n f).boot = s.boot := rfl
@[simp] theorem modItem_warm : (modItem s t n f).warm = s.warm := rfl
@[simp] theorem modItem_clk : (modItem s t n f).clk = s.clk := rfl
@[simp] theorem modItem_free : (modItem s t n f).free = s.free := rfl
@[simp] theorem modItem_tb : (modItem s t n f).tb = s.tb := rfl
@[simp] theorem modItem_ts : (modItem s t n f).ts = s.ts := rfl
@[simp] theorem modItem_sch : (modItem s t n f).sch = s.sch := rfl
@[simp] theorem modItem_sets : (modItem s t n f).sets = s.sets := rfl
@[simp] theorem modItem_eng : (modItem s t n f).eng = s.eng := rfl
@[simp] theorem modItem_mem : (modItem s t n f).mem = s.mem := rfl
@[simp] theorem modItem_poison : (modItem s t n f).poison = s.poison := rfl
@[simp] theorem modItem_csramBad : (modItem s t n f).csramBad = s.csramBad := rfl
@[simp] theorem modItem_ms : (modItem s t n f).ms = s.ms := rfl
@[simp] theorem modItem_cr : (modItem s t n f).cr = s.cr := rfl
@[simp] theorem modItem_kv : (modItem s t n f).kv = s.kv := rfl
@[simp] theorem modItem_sens : (modItem s t n f).sens = s.sens := rfl
@[simp] theorem modItem_map : (modItem s t n f).map = s.map := rfl
@[simp] theorem modItem_saf : (modItem s t n f).saf = s.saf := rfl
@[simp] theorem modItem_hl : (modItem s t n f).hl = s.hl := rfl
@[simp] theorem modItem_fc : (modItem s t n f).fc = s.fc := rfl
@[simp] theorem modItem_rst : (modItem s t n f).rst = s.rst := rfl
@[simp] theorem modItem_cmd : (modItem s t n f).cmd = s.cmd := rfl
@[simp] theorem modItem_glb : (modItem s t n f).glb = s.glb := rfl
@[simp] theorem modItem_pcie : (modItem s t n f).pcie = s.pcie := rfl
@[simp] theorem modItem_sec : (modItem s t n f).sec = s.sec := rfl
@[simp] theorem modItem_secw : (modItem s t n f).secw = s.secw := rfl
@[simp] theorem modItem_pins : (modItem s t n f).pins = s.pins := rfl
@[simp] theorem modItem_out : (modItem s t n f).out = s.out := rfl
end

section
variable (s : State) (src : Nat) (k : PoolKind) (i : Nat) (f : Pool → Pool)
@[simp] theorem modPool_pending : (modPool s src k i f).pending = s.pending := rfl
@[simp] theorem modPool_part : (modPool s src k i f).part = s.part := rfl
@[simp] theorem modPool_boot : (modPool s src k i f).boot = s.boot := rfl
@[simp] theorem modPool_warm : (modPool s src k i f).warm = s.warm := rfl
@[simp] theorem modPool_clk : (modPool s src k i f).clk = s.clk := rfl
@[simp] theorem modPool_free : (modPool s src k i f).free = s.free := rfl
@[simp] theorem modPool_tb : (modPool s src k i f).tb = s.tb := rfl
@[simp] theorem modPool_ts : (modPool s src k i f).ts = s.ts := rfl
@[simp] theorem modPool_sch : (modPool s src k i f).sch = s.sch := rfl
@[simp] theorem modPool_sets : (modPool s src k i f).sets = s.sets := rfl
@[simp] theorem modPool_eng : (modPool s src k i f).eng = s.eng := rfl
@[simp] theorem modPool_jobs : (modPool s src k i f).jobs = s.jobs := rfl
@[simp] theorem modPool_mem : (modPool s src k i f).mem = s.mem := rfl
@[simp] theorem modPool_poison : (modPool s src k i f).poison = s.poison := rfl
@[simp] theorem modPool_csramBad : (modPool s src k i f).csramBad = s.csramBad := rfl
@[simp] theorem modPool_ms : (modPool s src k i f).ms = s.ms := rfl
@[simp] theorem modPool_kv : (modPool s src k i f).kv = s.kv := rfl
@[simp] theorem modPool_sens : (modPool s src k i f).sens = s.sens := rfl
@[simp] theorem modPool_map : (modPool s src k i f).map = s.map := rfl
@[simp] theorem modPool_saf : (modPool s src k i f).saf = s.saf := rfl
@[simp] theorem modPool_hl : (modPool s src k i f).hl = s.hl := rfl
@[simp] theorem modPool_fc : (modPool s src k i f).fc = s.fc := rfl
@[simp] theorem modPool_rst : (modPool s src k i f).rst = s.rst := rfl
@[simp] theorem modPool_cmd : (modPool s src k i f).cmd = s.cmd := rfl
@[simp] theorem modPool_glb : (modPool s src k i f).glb = s.glb := rfl
@[simp] theorem modPool_pcie : (modPool s src k i f).pcie = s.pcie := rfl
@[simp] theorem modPool_sec : (modPool s src k i f).sec = s.sec := rfl
@[simp] theorem modPool_secw : (modPool s src k i f).secw = s.secw := rfl
@[simp] theorem modPool_pins : (modPool s src k i f).pins = s.pins := rfl
@[simp] theorem modPool_out : (modPool s src k i f).out = s.out := rfl
end

section
variable (s : State) (src : Nat) (k : PoolKind) (i : Nat)
@[simp] theorem takeCredit_pending : (takeCredit s src k i).pending = s.pending := rfl
@[simp] theorem takeCredit_part : (takeCredit s src k i).part = s.part := rfl
@[simp] theorem takeCredit_boot : (takeCredit s src k i).boot = s.boot := rfl
@[simp] theorem takeCredit_warm : (takeCredit s src k i).warm = s.warm := rfl
@[simp] theorem takeCredit_clk : (takeCredit s src k i).clk = s.clk := rfl
@[simp] theorem takeCredit_free : (takeCredit s src k i).free = s.free := rfl
@[simp] theorem takeCredit_tb : (takeCredit s src k i).tb = s.tb := rfl
@[simp] theorem takeCredit_ts : (takeCredit s src k i).ts = s.ts := rfl
@[simp] theorem takeCredit_sch : (takeCredit s src k i).sch = s.sch := rfl
@[simp] theorem takeCredit_sets : (takeCredit s src k i).sets = s.sets := rfl
@[simp] theorem takeCredit_eng : (takeCredit s src k i).eng = s.eng := rfl
@[simp] theorem takeCredit_jobs : (takeCredit s src k i).jobs = s.jobs := rfl
@[simp] theorem takeCredit_mem : (takeCredit s src k i).mem = s.mem := rfl
@[simp] theorem takeCredit_poison : (takeCredit s src k i).poison = s.poison := rfl
@[simp] theorem takeCredit_csramBad : (takeCredit s src k i).csramBad = s.csramBad := rfl
@[simp] theorem takeCredit_ms : (takeCredit s src k i).ms = s.ms := rfl
@[simp] theorem takeCredit_kv : (takeCredit s src k i).kv = s.kv := rfl
@[simp] theorem takeCredit_sens : (takeCredit s src k i).sens = s.sens := rfl
@[simp] theorem takeCredit_map : (takeCredit s src k i).map = s.map := rfl
@[simp] theorem takeCredit_saf : (takeCredit s src k i).saf = s.saf := rfl
@[simp] theorem takeCredit_hl : (takeCredit s src k i).hl = s.hl := rfl
@[simp] theorem takeCredit_fc : (takeCredit s src k i).fc = s.fc := rfl
@[simp] theorem takeCredit_rst : (takeCredit s src k i).rst = s.rst := rfl
@[simp] theorem takeCredit_cmd : (takeCredit s src k i).cmd = s.cmd := rfl
@[simp] theorem takeCredit_glb : (takeCredit s src k i).glb = s.glb := rfl
@[simp] theorem takeCredit_pcie : (takeCredit s src k i).pcie = s.pcie := rfl
@[simp] theorem takeCredit_sec : (takeCredit s src k i).sec = s.sec := rfl
@[simp] theorem takeCredit_secw : (takeCredit s src k i).secw = s.secw := rfl
@[simp] theorem takeCredit_pins : (takeCredit s src k i).pins = s.pins := rfl
@[simp] theorem takeCredit_out : (takeCredit s src k i).out = s.out := rfl
end

section
variable (s : State) (a : Nat)
@[simp] theorem touchCheck_pending : (touchCheck s a).pending = s.pending := by unfold touchCheck; split <;> rfl
@[simp] theorem touchCheck_part : (touchCheck s a).part = s.part := by unfold touchCheck; split <;> rfl
@[simp] theorem touchCheck_boot : (touchCheck s a).boot = s.boot := by unfold touchCheck; split <;> rfl
@[simp] theorem touchCheck_warm : (touchCheck s a).warm = s.warm := by unfold touchCheck; split <;> rfl
@[simp] theorem touchCheck_clk : (touchCheck s a).clk = s.clk := by unfold touchCheck; split <;> rfl
@[simp] theorem touchCheck_free : (touchCheck s a).free = s.free := by unfold touchCheck; split <;> rfl
@[simp] theorem touchCheck_tb : (touchCheck s a).tb = s.tb := by unfold touchCheck; split <;> rfl
@[simp] theorem touchCheck_ts : (touchCheck s a).ts = s.ts := by unfold touchCheck; split <;> rfl
@[simp] theorem touchCheck_sch : (touchCheck s a).sch = s.sch := by unfold touchCheck; split <;> rfl
@[simp] theorem touchCheck_sets : (touchCheck s a).sets = s.sets := by unfold touchCheck; split <;> rfl
@[simp] theorem touchCheck_eng : (touchCheck s a).eng = s.eng := by unfold touchCheck; split <;> rfl
@[simp] theorem touchCheck_jobs : (touchCheck s a).jobs = s.jobs := by unfold touchCheck; split <;> rfl
@[simp] theorem touchCheck_mem : (touchCheck s a).mem = s.mem := by unfold touchCheck; split <;> rfl
@[simp] theorem touchCheck_poison : (touchCheck s a).poison = s.poison := by unfold touchCheck; split <;> rfl
@[simp] theorem touchCheck_csramBad : (touchCheck s a).csramBad = s.csramBad := by unfold touchCheck; split <;> rfl
@[simp] theorem touchCheck_cr : (touchCheck s a).cr = s.cr := by unfold touchCheck; split <;> rfl
@[simp] theorem touchCheck_kv : (touchCheck s a).kv = s.kv := by unfold touchCheck; split <;> rfl
@[simp] theorem touchCheck_sens : (touchCheck s a).sens = s.sens := by unfold touchCheck; split <;> rfl
@[simp] theorem touchCheck_map : (touchCheck s a).map = s.map := by unfold touchCheck; split <;> rfl
@[simp] theorem touchCheck_saf : (touchCheck s a).saf = s.saf := by unfold touchCheck; split <;> rfl
@[simp] theorem touchCheck_hl : (touchCheck s a).hl = s.hl := by unfold touchCheck; split <;> rfl
@[simp] theorem touchCheck_fc : (touchCheck s a).fc = s.fc := by unfold touchCheck; split <;> rfl
@[simp] theorem touchCheck_rst : (touchCheck s a).rst = s.rst := by unfold touchCheck; split <;> rfl
@[simp] theorem touchCheck_cmd : (touchCheck s a).cmd = s.cmd := by unfold touchCheck; split <;> rfl
@[simp] theorem touchCheck_glb : (touchCheck s a).glb = s.glb := by unfold touchCheck; split <;> rfl
@[simp] theorem touchCheck_pcie : (touchCheck s a).pcie = s.pcie := by unfold touchCheck; split <;> rfl
@[simp] theorem touchCheck_sec : (touchCheck s a).sec = s.sec := by unfold touchCheck; split <;> rfl
@[simp] theorem touchCheck_secw : (touchCheck s a).secw = s.secw := by unfold touchCheck; split <;> rfl
@[simp] theorem touchCheck_pins : (touchCheck s a).pins = s.pins := by unfold touchCheck; split <;> rfl
@[simp] theorem touchCheck_out : (touchCheck s a).out = s.out := by unfold touchCheck; split <;> rfl
end

section
variable (s : State) (src : Nat) (w : Bool) (a n l : Nat) (u : ReqUse)
@[simp] theorem issueReq_pending : (issueReq s src w a n l u).pending = s.pending := by
  show (touchCheck _ a).pending = s.pending
  rw [touchCheck_pending]
  exact foldl_keeps State.pending (fun s l => takeCredit s l .ring l) (fun _ _ => rfl) _ _
@[simp] theorem issueReq_part : (issueReq s src w a n l u).part = s.part := by
  show (touchCheck _ a).part = s.part
  rw [touchCheck_part]
  exact foldl_keeps State.part (fun s l => takeCredit s l .ring l) (fun _ _ => rfl) _ _
@[simp] theorem issueReq_boot : (issueReq s src w a n l u).boot = s.boot := by
  show (touchCheck _ a).boot = s.boot
  rw [touchCheck_boot]
  exact foldl_keeps State.boot (fun s l => takeCredit s l .ring l) (fun _ _ => rfl) _ _
@[simp] theorem issueReq_warm : (issueReq s src w a n l u).warm = s.warm := by
  show (touchCheck _ a).warm = s.warm
  rw [touchCheck_warm]
  exact foldl_keeps State.warm (fun s l => takeCredit s l .ring l) (fun _ _ => rfl) _ _
@[simp] theorem issueReq_clk : (issueReq s src w a n l u).clk = s.clk := by
  show (touchCheck _ a).clk = s.clk
  rw [touchCheck_clk]
  exact foldl_keeps State.clk (fun s l => takeCredit s l .ring l) (fun _ _ => rfl) _ _
@[simp] theorem issueReq_free : (issueReq s src w a n l u).free = s.free := by
  show (touchCheck _ a).free = s.free
  rw [touchCheck_free]
  exact foldl_keeps State.free (fun s l => takeCredit s l .ring l) (fun _ _ => rfl) _ _
@[simp] theorem issueReq_tb : (issueReq s src w a n l u).tb = s.tb := by
  show (touchCheck _ a).tb = s.tb
  rw [touchCheck_tb]
  exact foldl_keeps State.tb (fun s l => takeCredit s l .ring l) (fun _ _ => rfl) _ _
@[simp] theorem issueReq_ts : (issueReq s src w a n l u).ts = s.ts := by
  show (touchCheck _ a).ts = s.ts
  rw [touchCheck_ts]
  exact foldl_keeps State.ts (fun s l => takeCredit s l .ring l) (fun _ _ => rfl) _ _
@[simp] theorem issueReq_sch : (issueReq s src w a n l u).sch = s.sch := by
  show (touchCheck _ a).sch = s.sch
  rw [touchCheck_sch]
  exact foldl_keeps State.sch (fun s l => takeCredit s l .ring l) (fun _ _ => rfl) _ _
@[simp] theorem issueReq_sets : (issueReq s src w a n l u).sets = s.sets := by
  show (touchCheck _ a).sets = s.sets
  rw [touchCheck_sets]
  exact foldl_keeps State.sets (fun s l => takeCredit s l .ring l) (fun _ _ => rfl) _ _
@[simp] theorem issueReq_eng : (issueReq s src w a n l u).eng = s.eng := by
  show (touchCheck _ a).eng = s.eng
  rw [touchCheck_eng]
  exact foldl_keeps State.eng (fun s l => takeCredit s l .ring l) (fun _ _ => rfl) _ _
@[simp] theorem issueReq_jobs : (issueReq s src w a n l u).jobs = s.jobs := by
  show (touchCheck _ a).jobs = s.jobs
  rw [touchCheck_jobs]
  exact foldl_keeps State.jobs (fun s l => takeCredit s l .ring l) (fun _ _ => rfl) _ _
@[simp] theorem issueReq_mem : (issueReq s src w a n l u).mem = s.mem := by
  show (touchCheck _ a).mem = s.mem
  rw [touchCheck_mem]
  exact foldl_keeps State.mem (fun s l => takeCredit s l .ring l) (fun _ _ => rfl) _ _
@[simp] theorem issueReq_poison : (issueReq s src w a n l u).poison = s.poison := by
  show (touchCheck _ a).poison = s.poison
  rw [touchCheck_poison]
  exact foldl_keeps State.poison (fun s l => takeCredit s l .ring l) (fun _ _ => rfl) _ _
@[simp] theorem issueReq_csramBad : (issueReq s src w a n l u).csramBad = s.csramBad := by
  show (touchCheck _ a).csramBad = s.csramBad
  rw [touchCheck_csramBad]
  exact foldl_keeps State.csramBad (fun s l => takeCredit s l .ring l) (fun _ _ => rfl) _ _
@[simp] theorem issueReq_kv : (issueReq s src w a n l u).kv = s.kv := by
  show (touchCheck _ a).kv = s.kv
  rw [touchCheck_kv]
  exact foldl_keeps State.kv (fun s l => takeCredit s l .ring l) (fun _ _ => rfl) _ _
@[simp] theorem issueReq_sens : (issueReq s src w a n l u).sens = s.sens := by
  show (touchCheck _ a).sens = s.sens
  rw [touchCheck_sens]
  exact foldl_keeps State.sens (fun s l => takeCredit s l .ring l) (fun _ _ => rfl) _ _
@[simp] theorem issueReq_map : (issueReq s src w a n l u).map = s.map := by
  show (touchCheck _ a).map = s.map
  rw [touchCheck_map]
  exact foldl_keeps State.map (fun s l => takeCredit s l .ring l) (fun _ _ => rfl) _ _
@[simp] theorem issueReq_saf : (issueReq s src w a n l u).saf = s.saf := by
  show (touchCheck _ a).saf = s.saf
  rw [touchCheck_saf]
  exact foldl_keeps State.saf (fun s l => takeCredit s l .ring l) (fun _ _ => rfl) _ _
@[simp] theorem issueReq_hl : (issueReq s src w a n l u).hl = s.hl := by
  show (touchCheck _ a).hl = s.hl
  rw [touchCheck_hl]
  exact foldl_keeps State.hl (fun s l => takeCredit s l .ring l) (fun _ _ => rfl) _ _
@[simp] theorem issueReq_fc : (issueReq s src w a n l u).fc = s.fc := by
  show (touchCheck _ a).fc = s.fc
  rw [touchCheck_fc]
  exact foldl_keeps State.fc (fun s l => takeCredit s l .ring l) (fun _ _ => rfl) _ _
@[simp] theorem issueReq_rst : (issueReq s src w a n l u).rst = s.rst := by
  show (touchCheck _ a).rst = s.rst
  rw [touchCheck_rst]
  exact foldl_keeps State.rst (fun s l => takeCredit s l .ring l) (fun _ _ => rfl) _ _
@[simp] theorem issueReq_cmd : (issueReq s src w a n l u).cmd = s.cmd := by
  show (touchCheck _ a).cmd = s.cmd
  rw [touchCheck_cmd]
  exact foldl_keeps State.cmd (fun s l => takeCredit s l .ring l) (fun _ _ => rfl) _ _
@[simp] theorem issueReq_glb : (issueReq s src w a n l u).glb = s.glb := by
  show (touchCheck _ a).glb = s.glb
  rw [touchCheck_glb]
  exact foldl_keeps State.glb (fun s l => takeCredit s l .ring l) (fun _ _ => rfl) _ _
@[simp] theorem issueReq_pcie : (issueReq s src w a n l u).pcie = s.pcie := by
  show (touchCheck _ a).pcie = s.pcie
  rw [touchCheck_pcie]
  exact foldl_keeps State.pcie (fun s l => takeCredit s l .ring l) (fun _ _ => rfl) _ _
@[simp] theorem issueReq_sec : (issueReq s src w a n l u).sec = s.sec := by
  show (touchCheck _ a).sec = s.sec
  rw [touchCheck_sec]
  exact foldl_keeps State.sec (fun s l => takeCredit s l .ring l) (fun _ _ => rfl) _ _
@[simp] theorem issueReq_secw : (issueReq s src w a n l u).secw = s.secw := by
  show (touchCheck _ a).secw = s.secw
  rw [touchCheck_secw]
  exact foldl_keeps State.secw (fun s l => takeCredit s l .ring l) (fun _ _ => rfl) _ _
@[simp] theorem issueReq_pins : (issueReq s src w a n l u).pins = s.pins := by
  show (touchCheck _ a).pins = s.pins
  rw [touchCheck_pins]
  exact foldl_keeps State.pins (fun s l => takeCredit s l .ring l) (fun _ _ => rfl) _ _
@[simp] theorem issueReq_out : (issueReq s src w a n l u).out = s.out := by
  show (touchCheck _ a).out = s.out
  rw [touchCheck_out]
  exact foldl_keeps State.out (fun s l => takeCredit s l .ring l) (fun _ _ => rfl) _ _
end

section
variable (s : State) (i : Nat) (f : Xfer → Xfer)
@[simp] theorem modXfer_pending : (modXfer s i f).pending = s.pending := rfl
@[simp] theorem modXfer_part : (modXfer s i f).part = s.part := rfl
@[simp] theorem modXfer_boot : (modXfer s i f).boot = s.boot := rfl
@[simp] theorem modXfer_warm : (modXfer s i f).warm = s.warm := rfl
@[simp] theorem modXfer_clk : (modXfer s i f).clk = s.clk := rfl
@[simp] theorem modXfer_free : (modXfer s i f).free = s.free := rfl
@[simp] theorem modXfer_tb : (modXfer s i f).tb = s.tb := rfl
@[simp] theorem modXfer_ts : (modXfer s i f).ts = s.ts := rfl
@[simp] theorem modXfer_sch : (modXfer s i f).sch = s.sch := rfl
@[simp] theorem modXfer_sets : (modXfer s i f).sets = s.sets := rfl
@[simp] theorem modXfer_eng : (modXfer s i f).eng = s.eng := rfl
@[simp] theorem modXfer_jobs : (modXfer s i f).jobs = s.jobs := rfl
@[simp] theorem modXfer_mem : (modXfer s i f).mem = s.mem := rfl
@[simp] theorem modXfer_poison : (modXfer s i f).poison = s.poison := rfl
@[simp] theorem modXfer_csramBad : (modXfer s i f).csramBad = s.csramBad := rfl
@[simp] theorem modXfer_cr : (modXfer s i f).cr = s.cr := rfl
@[simp] theorem modXfer_kv : (modXfer s i f).kv = s.kv := rfl
@[simp] theorem modXfer_sens : (modXfer s i f).sens = s.sens := rfl
@[simp] theorem modXfer_map : (modXfer s i f).map = s.map := rfl
@[simp] theorem modXfer_saf : (modXfer s i f).saf = s.saf := rfl
@[simp] theorem modXfer_hl : (modXfer s i f).hl = s.hl := rfl
@[simp] theorem modXfer_fc : (modXfer s i f).fc = s.fc := rfl
@[simp] theorem modXfer_rst : (modXfer s i f).rst = s.rst := rfl
@[simp] theorem modXfer_cmd : (modXfer s i f).cmd = s.cmd := rfl
@[simp] theorem modXfer_glb : (modXfer s i f).glb = s.glb := rfl
@[simp] theorem modXfer_pcie : (modXfer s i f).pcie = s.pcie := rfl
@[simp] theorem modXfer_sec : (modXfer s i f).sec = s.sec := rfl
@[simp] theorem modXfer_secw : (modXfer s i f).secw = s.secw := rfl
@[simp] theorem modXfer_pins : (modXfer s i f).pins = s.pins := rfl
@[simp] theorem modXfer_out : (modXfer s i f).out = s.out := rfl
end

section
variable (s : State) (e : Nat) (f : Engine → Engine)
@[simp] theorem modEng_pending : (modEng s e f).pending = s.pending := rfl
@[simp] theorem modEng_part : (modEng s e f).part = s.part := rfl
@[simp] theorem modEng_boot : (modEng s e f).boot = s.boot := rfl
@[simp] theorem modEng_warm : (modEng s e f).warm = s.warm := rfl
@[simp] theorem modEng_clk : (modEng s e f).clk = s.clk := rfl
@[simp] theorem modEng_free : (modEng s e f).free = s.free := rfl
@[simp] theorem modEng_tb : (modEng s e f).tb = s.tb := rfl
@[simp] theorem modEng_ts : (modEng s e f).ts = s.ts := rfl
@[simp] theorem modEng_sch : (modEng s e f).sch = s.sch := rfl
@[simp] theorem modEng_sets : (modEng s e f).sets = s.sets := rfl
@[simp] theorem modEng_jobs : (modEng s e f).jobs = s.jobs := rfl
@[simp] theorem modEng_mem : (modEng s e f).mem = s.mem := rfl
@[simp] theorem modEng_poison : (modEng s e f).poison = s.poison := rfl
@[simp] theorem modEng_csramBad : (modEng s e f).csramBad = s.csramBad := rfl
@[simp] theorem modEng_ms : (modEng s e f).ms = s.ms := rfl
@[simp] theorem modEng_cr : (modEng s e f).cr = s.cr := rfl
@[simp] theorem modEng_kv : (modEng s e f).kv = s.kv := rfl
@[simp] theorem modEng_sens : (modEng s e f).sens = s.sens := rfl
@[simp] theorem modEng_map : (modEng s e f).map = s.map := rfl
@[simp] theorem modEng_saf : (modEng s e f).saf = s.saf := rfl
@[simp] theorem modEng_hl : (modEng s e f).hl = s.hl := rfl
@[simp] theorem modEng_fc : (modEng s e f).fc = s.fc := rfl
@[simp] theorem modEng_rst : (modEng s e f).rst = s.rst := rfl
@[simp] theorem modEng_cmd : (modEng s e f).cmd = s.cmd := rfl
@[simp] theorem modEng_glb : (modEng s e f).glb = s.glb := rfl
@[simp] theorem modEng_pcie : (modEng s e f).pcie = s.pcie := rfl
@[simp] theorem modEng_sec : (modEng s e f).sec = s.sec := rfl
@[simp] theorem modEng_secw : (modEng s e f).secw = s.secw := rfl
@[simp] theorem modEng_pins : (modEng s e f).pins = s.pins := rfl
@[simp] theorem modEng_out : (modEng s e f).out = s.out := rfl
end

section
variable (s : State) (u : Nat)
@[simp] theorem addPoison_pending : (addPoison s u).pending = s.pending := by unfold addPoison; split <;> rfl
@[simp] theorem addPoison_part : (addPoison s u).part = s.part := by unfold addPoison; split <;> rfl
@[simp] theorem addPoison_boot : (addPoison s u).boot = s.boot := by unfold addPoison; split <;> rfl
@[simp] theorem addPoison_warm : (addPoison s u).warm = s.warm := by unfold addPoison; split <;> rfl
@[simp] theorem addPoison_clk : (addPoison s u).clk = s.clk := by unfold addPoison; split <;> rfl
@[simp] theorem addPoison_free : (addPoison s u).free = s.free := by unfold addPoison; split <;> rfl
@[simp] theorem addPoison_tb : (addPoison s u).tb = s.tb := by unfold addPoison; split <;> rfl
@[simp] theorem addPoison_ts : (addPoison s u).ts = s.ts := by unfold addPoison; split <;> rfl
@[simp] theorem addPoison_sch : (addPoison s u).sch = s.sch := by unfold addPoison; split <;> rfl
@[simp] theorem addPoison_sets : (addPoison s u).sets = s.sets := by unfold addPoison; split <;> rfl
@[simp] theorem addPoison_eng : (addPoison s u).eng = s.eng := by unfold addPoison; split <;> rfl
@[simp] theorem addPoison_jobs : (addPoison s u).jobs = s.jobs := by unfold addPoison; split <;> rfl
@[simp] theorem addPoison_mem : (addPoison s u).mem = s.mem := by unfold addPoison; split <;> rfl
@[simp] theorem addPoison_csramBad : (addPoison s u).csramBad = s.csramBad := by unfold addPoison; split <;> rfl
@[simp] theorem addPoison_ms : (addPoison s u).ms = s.ms := by unfold addPoison; split <;> rfl
@[simp] theorem addPoison_cr : (addPoison s u).cr = s.cr := by unfold addPoison; split <;> rfl
@[simp] theorem addPoison_kv : (addPoison s u).kv = s.kv := by unfold addPoison; split <;> rfl
@[simp] theorem addPoison_sens : (addPoison s u).sens = s.sens := by unfold addPoison; split <;> rfl
@[simp] theorem addPoison_map : (addPoison s u).map = s.map := by unfold addPoison; split <;> rfl
@[simp] theorem addPoison_saf : (addPoison s u).saf = s.saf := by unfold addPoison; split <;> rfl
@[simp] theorem addPoison_hl : (addPoison s u).hl = s.hl := by unfold addPoison; split <;> rfl
@[simp] theorem addPoison_fc : (addPoison s u).fc = s.fc := by unfold addPoison; split <;> rfl
@[simp] theorem addPoison_rst : (addPoison s u).rst = s.rst := by unfold addPoison; split <;> rfl
@[simp] theorem addPoison_cmd : (addPoison s u).cmd = s.cmd := by unfold addPoison; split <;> rfl
@[simp] theorem addPoison_glb : (addPoison s u).glb = s.glb := by unfold addPoison; split <;> rfl
@[simp] theorem addPoison_pcie : (addPoison s u).pcie = s.pcie := by unfold addPoison; split <;> rfl
@[simp] theorem addPoison_sec : (addPoison s u).sec = s.sec := by unfold addPoison; split <;> rfl
@[simp] theorem addPoison_secw : (addPoison s u).secw = s.secw := by unfold addPoison; split <;> rfl
@[simp] theorem addPoison_pins : (addPoison s u).pins = s.pins := by unfold addPoison; split <;> rfl
@[simp] theorem addPoison_out : (addPoison s u).out = s.out := by unfold addPoison; split <;> rfl
end

section
variable (s : State) (u : Nat)
@[simp] theorem markUnit_pending : (markUnit s u).pending = s.pending := by
  unfold markUnit; dsimp only; split
  · simp
  · split <;> simp
@[simp] theorem markUnit_part : (markUnit s u).part = s.part := by
  unfold markUnit; dsimp only; split
  · simp
  · split <;> simp
@[simp] theorem markUnit_boot : (markUnit s u).boot = s.boot := by
  unfold markUnit; dsimp only; split
  · simp
  · split <;> simp
@[simp] theorem markUnit_warm : (markUnit s u).warm = s.warm := by
  unfold markUnit; dsimp only; split
  · simp
  · split <;> simp
@[simp] theorem markUnit_clk : (markUnit s u).clk = s.clk := by
  unfold markUnit; dsimp only; split
  · simp
  · split <;> simp
@[simp] theorem markUnit_free : (markUnit s u).free = s.free := by
  unfold markUnit; dsimp only; split
  · simp
  · split <;> simp
@[simp] theorem markUnit_tb : (markUnit s u).tb = s.tb := by
  unfold markUnit; dsimp only; split
  · simp
  · split <;> simp
@[simp] theorem markUnit_ts : (markUnit s u).ts = s.ts := by
  unfold markUnit; dsimp only; split
  · simp
  · split <;> simp
@[simp] theorem markUnit_sch : (markUnit s u).sch = s.sch := by
  unfold markUnit; dsimp only; split
  · simp
  · split <;> simp
@[simp] theorem markUnit_sets : (markUnit s u).sets = s.sets := by
  unfold markUnit; dsimp only; split
  · simp
  · split <;> simp
@[simp] theorem markUnit_eng : (markUnit s u).eng = s.eng := by
  unfold markUnit; dsimp only; split
  · simp
  · split <;> simp
@[simp] theorem markUnit_jobs : (markUnit s u).jobs = s.jobs := by
  unfold markUnit; dsimp only; split
  · simp
  · split <;> simp
@[simp] theorem markUnit_mem : (markUnit s u).mem = s.mem := by
  unfold markUnit; dsimp only; split
  · simp
  · split <;> simp
@[simp] theorem markUnit_csramBad : (markUnit s u).csramBad = s.csramBad := by
  unfold markUnit; dsimp only; split
  · simp
  · split <;> simp
@[simp] theorem markUnit_cr : (markUnit s u).cr = s.cr := by
  unfold markUnit; dsimp only; split
  · simp
  · split <;> simp
@[simp] theorem markUnit_kv : (markUnit s u).kv = s.kv := by
  unfold markUnit; dsimp only; split
  · simp
  · split <;> simp
@[simp] theorem markUnit_sens : (markUnit s u).sens = s.sens := by
  unfold markUnit; dsimp only; split
  · simp
  · split <;> simp
@[simp] theorem markUnit_map : (markUnit s u).map = s.map := by
  unfold markUnit; dsimp only; split
  · simp
  · split <;> simp
@[simp] theorem markUnit_saf : (markUnit s u).saf = s.saf := by
  unfold markUnit; dsimp only; split
  · simp
  · split <;> simp
@[simp] theorem markUnit_hl : (markUnit s u).hl = s.hl := by
  unfold markUnit; dsimp only; split
  · simp
  · split <;> simp
@[simp] theorem markUnit_fc : (markUnit s u).fc = s.fc := by
  unfold markUnit; dsimp only; split
  · simp
  · split <;> simp
@[simp] theorem markUnit_rst : (markUnit s u).rst = s.rst := by
  unfold markUnit; dsimp only; split
  · simp
  · split <;> simp
@[simp] theorem markUnit_cmd : (markUnit s u).cmd = s.cmd := by
  unfold markUnit; dsimp only; split
  · simp
  · split <;> simp
@[simp] theorem markUnit_glb : (markUnit s u).glb = s.glb := by
  unfold markUnit; dsimp only; split
  · simp
  · split <;> simp
@[simp] theorem markUnit_pcie : (markUnit s u).pcie = s.pcie := by
  unfold markUnit; dsimp only; split
  · simp
  · split <;> simp
@[simp] theorem markUnit_sec : (markUnit s u).sec = s.sec := by
  unfold markUnit; dsimp only; split
  · simp
  · split <;> simp
@[simp] theorem markUnit_secw : (markUnit s u).secw = s.secw := by
  unfold markUnit; dsimp only; split
  · simp
  · split <;> simp
@[simp] theorem markUnit_pins : (markUnit s u).pins = s.pins := by
  unfold markUnit; dsimp only; split
  · simp
  · split <;> simp
@[simp] theorem markUnit_out : (markUnit s u).out = s.out := by
  unfold markUnit; dsimp only; split
  · simp
  · split <;> simp
end

section
variable (s : State) (a : Nat) (bs : List Byte)
@[simp] theorem store_pending : (store s a bs).pending = s.pending := rfl
@[simp] theorem store_part : (store s a bs).part = s.part := rfl
@[simp] theorem store_boot : (store s a bs).boot = s.boot := rfl
@[simp] theorem store_warm : (store s a bs).warm = s.warm := rfl
@[simp] theorem store_clk : (store s a bs).clk = s.clk := rfl
@[simp] theorem store_free : (store s a bs).free = s.free := rfl
@[simp] theorem store_tb : (store s a bs).tb = s.tb := rfl
@[simp] theorem store_ts : (store s a bs).ts = s.ts := rfl
@[simp] theorem store_sch : (store s a bs).sch = s.sch := rfl
@[simp] theorem store_sets : (store s a bs).sets = s.sets := rfl
@[simp] theorem store_eng : (store s a bs).eng = s.eng := rfl
@[simp] theorem store_jobs : (store s a bs).jobs = s.jobs := rfl
@[simp] theorem store_ms : (store s a bs).ms = s.ms := rfl
@[simp] theorem store_cr : (store s a bs).cr = s.cr := rfl
@[simp] theorem store_kv : (store s a bs).kv = s.kv := rfl
@[simp] theorem store_sens : (store s a bs).sens = s.sens := rfl
@[simp] theorem store_map : (store s a bs).map = s.map := rfl
@[simp] theorem store_saf : (store s a bs).saf = s.saf := rfl
@[simp] theorem store_hl : (store s a bs).hl = s.hl := rfl
@[simp] theorem store_fc : (store s a bs).fc = s.fc := rfl
@[simp] theorem store_rst : (store s a bs).rst = s.rst := rfl
@[simp] theorem store_cmd : (store s a bs).cmd = s.cmd := rfl
@[simp] theorem store_glb : (store s a bs).glb = s.glb := rfl
@[simp] theorem store_pcie : (store s a bs).pcie = s.pcie := rfl
@[simp] theorem store_sec : (store s a bs).sec = s.sec := rfl
@[simp] theorem store_secw : (store s a bs).secw = s.secw := rfl
@[simp] theorem store_pins : (store s a bs).pins = s.pins := rfl
@[simp] theorem store_out : (store s a bs).out = s.out := rfl
end

section
variable (s : State) (a : Nat) (ws : List Word)
@[simp] theorem storeWords_pending : (storeWords s a ws).pending = s.pending := rfl
@[simp] theorem storeWords_part : (storeWords s a ws).part = s.part := rfl
@[simp] theorem storeWords_boot : (storeWords s a ws).boot = s.boot := rfl
@[simp] theorem storeWords_warm : (storeWords s a ws).warm = s.warm := rfl
@[simp] theorem storeWords_clk : (storeWords s a ws).clk = s.clk := rfl
@[simp] theorem storeWords_free : (storeWords s a ws).free = s.free := rfl
@[simp] theorem storeWords_tb : (storeWords s a ws).tb = s.tb := rfl
@[simp] theorem storeWords_ts : (storeWords s a ws).ts = s.ts := rfl
@[simp] theorem storeWords_sch : (storeWords s a ws).sch = s.sch := rfl
@[simp] theorem storeWords_sets : (storeWords s a ws).sets = s.sets := rfl
@[simp] theorem storeWords_eng : (storeWords s a ws).eng = s.eng := rfl
@[simp] theorem storeWords_jobs : (storeWords s a ws).jobs = s.jobs := rfl
@[simp] theorem storeWords_ms : (storeWords s a ws).ms = s.ms := rfl
@[simp] theorem storeWords_cr : (storeWords s a ws).cr = s.cr := rfl
@[simp] theorem storeWords_kv : (storeWords s a ws).kv = s.kv := rfl
@[simp] theorem storeWords_sens : (storeWords s a ws).sens = s.sens := rfl
@[simp] theorem storeWords_map : (storeWords s a ws).map = s.map := rfl
@[simp] theorem storeWords_saf : (storeWords s a ws).saf = s.saf := rfl
@[simp] theorem storeWords_hl : (storeWords s a ws).hl = s.hl := rfl
@[simp] theorem storeWords_fc : (storeWords s a ws).fc = s.fc := rfl
@[simp] theorem storeWords_rst : (storeWords s a ws).rst = s.rst := rfl
@[simp] theorem storeWords_cmd : (storeWords s a ws).cmd = s.cmd := rfl
@[simp] theorem storeWords_glb : (storeWords s a ws).glb = s.glb := rfl
@[simp] theorem storeWords_pcie : (storeWords s a ws).pcie = s.pcie := rfl
@[simp] theorem storeWords_sec : (storeWords s a ws).sec = s.sec := rfl
@[simp] theorem storeWords_secw : (storeWords s a ws).secw = s.secw := rfl
@[simp] theorem storeWords_pins : (storeWords s a ws).pins = s.pins := rfl
@[simp] theorem storeWords_out : (storeWords s a ws).out = s.out := rfl
end

section
variable (s : State) (t : Nat)
@[simp] theorem advanceTo_pending : (advanceTo s t).pending = s.pending := by unfold advanceTo; split <;> rfl
@[simp] theorem advanceTo_part : (advanceTo s t).part = s.part := by unfold advanceTo; split <;> rfl
@[simp] theorem advanceTo_boot : (advanceTo s t).boot = s.boot := by unfold advanceTo; split <;> rfl
@[simp] theorem advanceTo_warm : (advanceTo s t).warm = s.warm := by unfold advanceTo; split <;> rfl
@[simp] theorem advanceTo_free : (advanceTo s t).free = s.free := by unfold advanceTo; split <;> rfl
@[simp] theorem advanceTo_ts : (advanceTo s t).ts = s.ts := by unfold advanceTo; split <;> rfl
@[simp] theorem advanceTo_sch : (advanceTo s t).sch = s.sch := by unfold advanceTo; split <;> rfl
@[simp] theorem advanceTo_sets : (advanceTo s t).sets = s.sets := by unfold advanceTo; split <;> rfl
@[simp] theorem advanceTo_eng : (advanceTo s t).eng = s.eng := by unfold advanceTo; split <;> rfl
@[simp] theorem advanceTo_jobs : (advanceTo s t).jobs = s.jobs := by unfold advanceTo; split <;> rfl
@[simp] theorem advanceTo_mem : (advanceTo s t).mem = s.mem := by unfold advanceTo; split <;> rfl
@[simp] theorem advanceTo_poison : (advanceTo s t).poison = s.poison := by unfold advanceTo; split <;> rfl
@[simp] theorem advanceTo_csramBad : (advanceTo s t).csramBad = s.csramBad := by unfold advanceTo; split <;> rfl
@[simp] theorem advanceTo_ms : (advanceTo s t).ms = s.ms := by unfold advanceTo; split <;> rfl
@[simp] theorem advanceTo_cr : (advanceTo s t).cr = s.cr := by unfold advanceTo; split <;> rfl
@[simp] theorem advanceTo_kv : (advanceTo s t).kv = s.kv := by unfold advanceTo; split <;> rfl
@[simp] theorem advanceTo_sens : (advanceTo s t).sens = s.sens := by unfold advanceTo; split <;> rfl
@[simp] theorem advanceTo_map : (advanceTo s t).map = s.map := by unfold advanceTo; split <;> rfl
@[simp] theorem advanceTo_saf : (advanceTo s t).saf = s.saf := by unfold advanceTo; split <;> rfl
@[simp] theorem advanceTo_hl : (advanceTo s t).hl = s.hl := by unfold advanceTo; split <;> rfl
@[simp] theorem advanceTo_fc : (advanceTo s t).fc = s.fc := by unfold advanceTo; split <;> rfl
@[simp] theorem advanceTo_rst : (advanceTo s t).rst = s.rst := by unfold advanceTo; split <;> rfl
@[simp] theorem advanceTo_cmd : (advanceTo s t).cmd = s.cmd := by unfold advanceTo; split <;> rfl
@[simp] theorem advanceTo_glb : (advanceTo s t).glb = s.glb := by unfold advanceTo; split <;> rfl
@[simp] theorem advanceTo_pcie : (advanceTo s t).pcie = s.pcie := by unfold advanceTo; split <;> rfl
@[simp] theorem advanceTo_sec : (advanceTo s t).sec = s.sec := by unfold advanceTo; split <;> rfl
@[simp] theorem advanceTo_secw : (advanceTo s t).secw = s.secw := by unfold advanceTo; split <;> rfl
@[simp] theorem advanceTo_pins : (advanceTo s t).pins = s.pins := by unfold advanceTo; split <;> rfl
@[simp] theorem advanceTo_out : (advanceTo s t).out = s.out := by unfold advanceTo; split <;> rfl
end

section
variable (s : State) (b : Bool)
@[simp] theorem ppsRise_pending : (ppsRise s b).pending = s.pending := by unfold ppsRise; split <;> rfl
@[simp] theorem ppsRise_part : (ppsRise s b).part = s.part := by unfold ppsRise; split <;> rfl
@[simp] theorem ppsRise_boot : (ppsRise s b).boot = s.boot := by unfold ppsRise; split <;> rfl
@[simp] theorem ppsRise_warm : (ppsRise s b).warm = s.warm := by unfold ppsRise; split <;> rfl
@[simp] theorem ppsRise_clk : (ppsRise s b).clk = s.clk := by unfold ppsRise; split <;> rfl
@[simp] theorem ppsRise_free : (ppsRise s b).free = s.free := by unfold ppsRise; split <;> rfl
@[simp] theorem ppsRise_ts : (ppsRise s b).ts = s.ts := by unfold ppsRise; split <;> rfl
@[simp] theorem ppsRise_sch : (ppsRise s b).sch = s.sch := by unfold ppsRise; split <;> rfl
@[simp] theorem ppsRise_sets : (ppsRise s b).sets = s.sets := by unfold ppsRise; split <;> rfl
@[simp] theorem ppsRise_eng : (ppsRise s b).eng = s.eng := by unfold ppsRise; split <;> rfl
@[simp] theorem ppsRise_jobs : (ppsRise s b).jobs = s.jobs := by unfold ppsRise; split <;> rfl
@[simp] theorem ppsRise_mem : (ppsRise s b).mem = s.mem := by unfold ppsRise; split <;> rfl
@[simp] theorem ppsRise_poison : (ppsRise s b).poison = s.poison := by unfold ppsRise; split <;> rfl
@[simp] theorem ppsRise_csramBad : (ppsRise s b).csramBad = s.csramBad := by unfold ppsRise; split <;> rfl
@[simp] theorem ppsRise_ms : (ppsRise s b).ms = s.ms := by unfold ppsRise; split <;> rfl
@[simp] theorem ppsRise_cr : (ppsRise s b).cr = s.cr := by unfold ppsRise; split <;> rfl
@[simp] theorem ppsRise_kv : (ppsRise s b).kv = s.kv := by unfold ppsRise; split <;> rfl
@[simp] theorem ppsRise_sens : (ppsRise s b).sens = s.sens := by unfold ppsRise; split <;> rfl
@[simp] theorem ppsRise_map : (ppsRise s b).map = s.map := by unfold ppsRise; split <;> rfl
@[simp] theorem ppsRise_saf : (ppsRise s b).saf = s.saf := by unfold ppsRise; split <;> rfl
@[simp] theorem ppsRise_hl : (ppsRise s b).hl = s.hl := by unfold ppsRise; split <;> rfl
@[simp] theorem ppsRise_fc : (ppsRise s b).fc = s.fc := by unfold ppsRise; split <;> rfl
@[simp] theorem ppsRise_rst : (ppsRise s b).rst = s.rst := by unfold ppsRise; split <;> rfl
@[simp] theorem ppsRise_cmd : (ppsRise s b).cmd = s.cmd := by unfold ppsRise; split <;> rfl
@[simp] theorem ppsRise_glb : (ppsRise s b).glb = s.glb := by unfold ppsRise; split <;> rfl
@[simp] theorem ppsRise_pcie : (ppsRise s b).pcie = s.pcie := by unfold ppsRise; split <;> rfl
@[simp] theorem ppsRise_sec : (ppsRise s b).sec = s.sec := by unfold ppsRise; split <;> rfl
@[simp] theorem ppsRise_secw : (ppsRise s b).secw = s.secw := by unfold ppsRise; split <;> rfl
@[simp] theorem ppsRise_out : (ppsRise s b).out = s.out := by unfold ppsRise; split <;> rfl
end

section
variable (s : State) (c : Nat)
@[simp] theorem fire_pending : (fire s c).pending = s.pending := ite_keeps State.pending (ppsRise_pending _ _) rfl
@[simp] theorem fire_part : (fire s c).part = s.part := ite_keeps State.part (ppsRise_part _ _) rfl
@[simp] theorem fire_boot : (fire s c).boot = s.boot := ite_keeps State.boot (ppsRise_boot _ _) rfl
@[simp] theorem fire_warm : (fire s c).warm = s.warm := ite_keeps State.warm (ppsRise_warm _ _) rfl
@[simp] theorem fire_clk : (fire s c).clk = s.clk := ite_keeps State.clk (ppsRise_clk _ _) rfl
@[simp] theorem fire_free : (fire s c).free = s.free := ite_keeps State.free (ppsRise_free _ _) rfl
@[simp] theorem fire_ts : (fire s c).ts = s.ts := ite_keeps State.ts (ppsRise_ts _ _) rfl
@[simp] theorem fire_sch : (fire s c).sch = s.sch := ite_keeps State.sch (ppsRise_sch _ _) rfl
@[simp] theorem fire_sets : (fire s c).sets = s.sets := ite_keeps State.sets (ppsRise_sets _ _) rfl
@[simp] theorem fire_eng : (fire s c).eng = s.eng := ite_keeps State.eng (ppsRise_eng _ _) rfl
@[simp] theorem fire_jobs : (fire s c).jobs = s.jobs := ite_keeps State.jobs (ppsRise_jobs _ _) rfl
@[simp] theorem fire_mem : (fire s c).mem = s.mem := ite_keeps State.mem (ppsRise_mem _ _) rfl
@[simp] theorem fire_poison : (fire s c).poison = s.poison := ite_keeps State.poison (ppsRise_poison _ _) rfl
@[simp] theorem fire_csramBad : (fire s c).csramBad = s.csramBad := ite_keeps State.csramBad (ppsRise_csramBad _ _) rfl
@[simp] theorem fire_ms : (fire s c).ms = s.ms := ite_keeps State.ms (ppsRise_ms _ _) rfl
@[simp] theorem fire_cr : (fire s c).cr = s.cr := ite_keeps State.cr (ppsRise_cr _ _) rfl
@[simp] theorem fire_kv : (fire s c).kv = s.kv := ite_keeps State.kv (ppsRise_kv _ _) rfl
@[simp] theorem fire_map : (fire s c).map = s.map := ite_keeps State.map (ppsRise_map _ _) rfl
@[simp] theorem fire_saf : (fire s c).saf = s.saf := ite_keeps State.saf (ppsRise_saf _ _) rfl
@[simp] theorem fire_hl : (fire s c).hl = s.hl := ite_keeps State.hl (ppsRise_hl _ _) rfl
@[simp] theorem fire_fc : (fire s c).fc = s.fc := ite_keeps State.fc (ppsRise_fc _ _) rfl
@[simp] theorem fire_rst : (fire s c).rst = s.rst := ite_keeps State.rst (ppsRise_rst _ _) rfl
@[simp] theorem fire_cmd : (fire s c).cmd = s.cmd := ite_keeps State.cmd (ppsRise_cmd _ _) rfl
@[simp] theorem fire_glb : (fire s c).glb = s.glb := ite_keeps State.glb (ppsRise_glb _ _) rfl
@[simp] theorem fire_pcie : (fire s c).pcie = s.pcie := ite_keeps State.pcie (ppsRise_pcie _ _) rfl
@[simp] theorem fire_sec : (fire s c).sec = s.sec := ite_keeps State.sec (ppsRise_sec _ _) rfl
@[simp] theorem fire_secw : (fire s c).secw = s.secw := ite_keeps State.secw (ppsRise_secw _ _) rfl
end

section
variable (s : State)
@[simp] theorem carryEffects_pending : (carryEffects s).pending = s.pending := by
  unfold carryEffects
  rw [ppsRise_pending, foldl_keeps State.pending _ (fun s c => fire_pending s c)]
@[simp] theorem carryEffects_part : (carryEffects s).part = s.part := by
  unfold carryEffects
  rw [ppsRise_part, foldl_keeps State.part _ (fun s c => fire_part s c)]
@[simp] theorem carryEffects_boot : (carryEffects s).boot = s.boot := by
  unfold carryEffects
  rw [ppsRise_boot, foldl_keeps State.boot _ (fun s c => fire_boot s c)]
@[simp] theorem carryEffects_warm : (carryEffects s).warm = s.warm := by
  unfold carryEffects
  rw [ppsRise_warm, foldl_keeps State.warm _ (fun s c => fire_warm s c)]
@[simp] theorem carryEffects_clk : (carryEffects s).clk = s.clk := by
  unfold carryEffects
  rw [ppsRise_clk, foldl_keeps State.clk _ (fun s c => fire_clk s c)]
@[simp] theorem carryEffects_free : (carryEffects s).free = s.free := by
  unfold carryEffects
  rw [ppsRise_free, foldl_keeps State.free _ (fun s c => fire_free s c)]
@[simp] theorem carryEffects_ts : (carryEffects s).ts = s.ts := by
  unfold carryEffects
  rw [ppsRise_ts, foldl_keeps State.ts _ (fun s c => fire_ts s c)]
@[simp] theorem carryEffects_sch : (carryEffects s).sch = s.sch := by
  unfold carryEffects
  rw [ppsRise_sch, foldl_keeps State.sch _ (fun s c => fire_sch s c)]
@[simp] theorem carryEffects_sets : (carryEffects s).sets = s.sets := by
  unfold carryEffects
  rw [ppsRise_sets, foldl_keeps State.sets _ (fun s c => fire_sets s c)]
@[simp] theorem carryEffects_eng : (carryEffects s).eng = s.eng := by
  unfold carryEffects
  rw [ppsRise_eng, foldl_keeps State.eng _ (fun s c => fire_eng s c)]
@[simp] theorem carryEffects_jobs : (carryEffects s).jobs = s.jobs := by
  unfold carryEffects
  rw [ppsRise_jobs, foldl_keeps State.jobs _ (fun s c => fire_jobs s c)]
@[simp] theorem carryEffects_mem : (carryEffects s).mem = s.mem := by
  unfold carryEffects
  rw [ppsRise_mem, foldl_keeps State.mem _ (fun s c => fire_mem s c)]
@[simp] theorem carryEffects_poison : (carryEffects s).poison = s.poison := by
  unfold carryEffects
  rw [ppsRise_poison, foldl_keeps State.poison _ (fun s c => fire_poison s c)]
@[simp] theorem carryEffects_csramBad : (carryEffects s).csramBad = s.csramBad := by
  unfold carryEffects
  rw [ppsRise_csramBad, foldl_keeps State.csramBad _ (fun s c => fire_csramBad s c)]
@[simp] theorem carryEffects_ms : (carryEffects s).ms = s.ms := by
  unfold carryEffects
  rw [ppsRise_ms, foldl_keeps State.ms _ (fun s c => fire_ms s c)]
@[simp] theorem carryEffects_cr : (carryEffects s).cr = s.cr := by
  unfold carryEffects
  rw [ppsRise_cr, foldl_keeps State.cr _ (fun s c => fire_cr s c)]
@[simp] theorem carryEffects_kv : (carryEffects s).kv = s.kv := by
  unfold carryEffects
  rw [ppsRise_kv, foldl_keeps State.kv _ (fun s c => fire_kv s c)]
@[simp] theorem carryEffects_map : (carryEffects s).map = s.map := by
  unfold carryEffects
  rw [ppsRise_map, foldl_keeps State.map _ (fun s c => fire_map s c)]
@[simp] theorem carryEffects_saf : (carryEffects s).saf = s.saf := by
  unfold carryEffects
  rw [ppsRise_saf, foldl_keeps State.saf _ (fun s c => fire_saf s c)]
@[simp] theorem carryEffects_hl : (carryEffects s).hl = s.hl := by
  unfold carryEffects
  rw [ppsRise_hl, foldl_keeps State.hl _ (fun s c => fire_hl s c)]
@[simp] theorem carryEffects_fc : (carryEffects s).fc = s.fc := by
  unfold carryEffects
  rw [ppsRise_fc, foldl_keeps State.fc _ (fun s c => fire_fc s c)]
@[simp] theorem carryEffects_rst : (carryEffects s).rst = s.rst := by
  unfold carryEffects
  rw [ppsRise_rst, foldl_keeps State.rst _ (fun s c => fire_rst s c)]
@[simp] theorem carryEffects_cmd : (carryEffects s).cmd = s.cmd := by
  unfold carryEffects
  rw [ppsRise_cmd, foldl_keeps State.cmd _ (fun s c => fire_cmd s c)]
@[simp] theorem carryEffects_glb : (carryEffects s).glb = s.glb := by
  unfold carryEffects
  rw [ppsRise_glb, foldl_keeps State.glb _ (fun s c => fire_glb s c)]
@[simp] theorem carryEffects_pcie : (carryEffects s).pcie = s.pcie := by
  unfold carryEffects
  rw [ppsRise_pcie, foldl_keeps State.pcie _ (fun s c => fire_pcie s c)]
@[simp] theorem carryEffects_sec : (carryEffects s).sec = s.sec := by
  unfold carryEffects
  rw [ppsRise_sec, foldl_keeps State.sec _ (fun s c => fire_sec s c)]
@[simp] theorem carryEffects_secw : (carryEffects s).secw = s.secw := by
  unfold carryEffects
  rw [ppsRise_secw, foldl_keeps State.secw _ (fun s c => fire_secw s c)]
end

/-- What no carry changes, a row of carries does not. -/
theorem passSecs_keeps {β : Type} (g : State → β) (h : ∀ s t, g (carryEffects (advanceTo s t)) = g s) (n : Nat) (s : State) :
    g (passSecs n s) = g s := by
  unfold passSecs
  generalize List.range n = l
  induction l generalizing s with
  | nil => rfl
  | cons a r ih => rw [List.foldl_cons, ih, h]

section
variable (s : State) (t : Nat)
theorem passSecs_pending (n : Nat) (s : State) : (passSecs n s).pending = s.pending :=
  passSecs_keeps State.pending (fun s t => by rw [carryEffects_pending, advanceTo_pending]) n s
@[simp] theorem passTo_pending : (passTo s t).pending = s.pending := by rw [passTo, advanceTo_pending, passSecs_pending]
theorem passSecs_part (n : Nat) (s : State) : (passSecs n s).part = s.part :=
  passSecs_keeps State.part (fun s t => by rw [carryEffects_part, advanceTo_part]) n s
@[simp] theorem passTo_part : (passTo s t).part = s.part := by rw [passTo, advanceTo_part, passSecs_part]
theorem passSecs_boot (n : Nat) (s : State) : (passSecs n s).boot = s.boot :=
  passSecs_keeps State.boot (fun s t => by rw [carryEffects_boot, advanceTo_boot]) n s
@[simp] theorem passTo_boot : (passTo s t).boot = s.boot := by rw [passTo, advanceTo_boot, passSecs_boot]
theorem passSecs_warm (n : Nat) (s : State) : (passSecs n s).warm = s.warm :=
  passSecs_keeps State.warm (fun s t => by rw [carryEffects_warm, advanceTo_warm]) n s
@[simp] theorem passTo_warm : (passTo s t).warm = s.warm := by rw [passTo, advanceTo_warm, passSecs_warm]
theorem passSecs_free (n : Nat) (s : State) : (passSecs n s).free = s.free :=
  passSecs_keeps State.free (fun s t => by rw [carryEffects_free, advanceTo_free]) n s
@[simp] theorem passTo_free : (passTo s t).free = s.free := by rw [passTo, advanceTo_free, passSecs_free]
theorem passSecs_ts (n : Nat) (s : State) : (passSecs n s).ts = s.ts :=
  passSecs_keeps State.ts (fun s t => by rw [carryEffects_ts, advanceTo_ts]) n s
@[simp] theorem passTo_ts : (passTo s t).ts = s.ts := by rw [passTo, advanceTo_ts, passSecs_ts]
theorem passSecs_sch (n : Nat) (s : State) : (passSecs n s).sch = s.sch :=
  passSecs_keeps State.sch (fun s t => by rw [carryEffects_sch, advanceTo_sch]) n s
@[simp] theorem passTo_sch : (passTo s t).sch = s.sch := by rw [passTo, advanceTo_sch, passSecs_sch]
theorem passSecs_sets (n : Nat) (s : State) : (passSecs n s).sets = s.sets :=
  passSecs_keeps State.sets (fun s t => by rw [carryEffects_sets, advanceTo_sets]) n s
@[simp] theorem passTo_sets : (passTo s t).sets = s.sets := by rw [passTo, advanceTo_sets, passSecs_sets]
theorem passSecs_eng (n : Nat) (s : State) : (passSecs n s).eng = s.eng :=
  passSecs_keeps State.eng (fun s t => by rw [carryEffects_eng, advanceTo_eng]) n s
@[simp] theorem passTo_eng : (passTo s t).eng = s.eng := by rw [passTo, advanceTo_eng, passSecs_eng]
theorem passSecs_jobs (n : Nat) (s : State) : (passSecs n s).jobs = s.jobs :=
  passSecs_keeps State.jobs (fun s t => by rw [carryEffects_jobs, advanceTo_jobs]) n s
@[simp] theorem passTo_jobs : (passTo s t).jobs = s.jobs := by rw [passTo, advanceTo_jobs, passSecs_jobs]
theorem passSecs_mem (n : Nat) (s : State) : (passSecs n s).mem = s.mem :=
  passSecs_keeps State.mem (fun s t => by rw [carryEffects_mem, advanceTo_mem]) n s
@[simp] theorem passTo_mem : (passTo s t).mem = s.mem := by rw [passTo, advanceTo_mem, passSecs_mem]
theorem passSecs_poison (n : Nat) (s : State) : (passSecs n s).poison = s.poison :=
  passSecs_keeps State.poison (fun s t => by rw [carryEffects_poison, advanceTo_poison]) n s
@[simp] theorem passTo_poison : (passTo s t).poison = s.poison := by rw [passTo, advanceTo_poison, passSecs_poison]
theorem passSecs_csramBad (n : Nat) (s : State) : (passSecs n s).csramBad = s.csramBad :=
  passSecs_keeps State.csramBad (fun s t => by rw [carryEffects_csramBad, advanceTo_csramBad]) n s
@[simp] theorem passTo_csramBad : (passTo s t).csramBad = s.csramBad := by rw [passTo, advanceTo_csramBad, passSecs_csramBad]
theorem passSecs_ms (n : Nat) (s : State) : (passSecs n s).ms = s.ms :=
  passSecs_keeps State.ms (fun s t => by rw [carryEffects_ms, advanceTo_ms]) n s
@[simp] theorem passTo_ms : (passTo s t).ms = s.ms := by rw [passTo, advanceTo_ms, passSecs_ms]
theorem passSecs_cr (n : Nat) (s : State) : (passSecs n s).cr = s.cr :=
  passSecs_keeps State.cr (fun s t => by rw [carryEffects_cr, advanceTo_cr]) n s
@[simp] theorem passTo_cr : (passTo s t).cr = s.cr := by rw [passTo, advanceTo_cr, passSecs_cr]
theorem passSecs_kv (n : Nat) (s : State) : (passSecs n s).kv = s.kv :=
  passSecs_keeps State.kv (fun s t => by rw [carryEffects_kv, advanceTo_kv]) n s
@[simp] theorem passTo_kv : (passTo s t).kv = s.kv := by rw [passTo, advanceTo_kv, passSecs_kv]
theorem passSecs_map (n : Nat) (s : State) : (passSecs n s).map = s.map :=
  passSecs_keeps State.map (fun s t => by rw [carryEffects_map, advanceTo_map]) n s
@[simp] theorem passTo_map : (passTo s t).map = s.map := by rw [passTo, advanceTo_map, passSecs_map]
theorem passSecs_saf (n : Nat) (s : State) : (passSecs n s).saf = s.saf :=
  passSecs_keeps State.saf (fun s t => by rw [carryEffects_saf, advanceTo_saf]) n s
@[simp] theorem passTo_saf : (passTo s t).saf = s.saf := by rw [passTo, advanceTo_saf, passSecs_saf]
theorem passSecs_hl (n : Nat) (s : State) : (passSecs n s).hl = s.hl :=
  passSecs_keeps State.hl (fun s t => by rw [carryEffects_hl, advanceTo_hl]) n s
@[simp] theorem passTo_hl : (passTo s t).hl = s.hl := by rw [passTo, advanceTo_hl, passSecs_hl]
theorem passSecs_fc (n : Nat) (s : State) : (passSecs n s).fc = s.fc :=
  passSecs_keeps State.fc (fun s t => by rw [carryEffects_fc, advanceTo_fc]) n s
@[simp] theorem passTo_fc : (passTo s t).fc = s.fc := by rw [passTo, advanceTo_fc, passSecs_fc]
theorem passSecs_rst (n : Nat) (s : State) : (passSecs n s).rst = s.rst :=
  passSecs_keeps State.rst (fun s t => by rw [carryEffects_rst, advanceTo_rst]) n s
@[simp] theorem passTo_rst : (passTo s t).rst = s.rst := by rw [passTo, advanceTo_rst, passSecs_rst]
theorem passSecs_cmd (n : Nat) (s : State) : (passSecs n s).cmd = s.cmd :=
  passSecs_keeps State.cmd (fun s t => by rw [carryEffects_cmd, advanceTo_cmd]) n s
@[simp] theorem passTo_cmd : (passTo s t).cmd = s.cmd := by rw [passTo, advanceTo_cmd, passSecs_cmd]
theorem passSecs_glb (n : Nat) (s : State) : (passSecs n s).glb = s.glb :=
  passSecs_keeps State.glb (fun s t => by rw [carryEffects_glb, advanceTo_glb]) n s
@[simp] theorem passTo_glb : (passTo s t).glb = s.glb := by rw [passTo, advanceTo_glb, passSecs_glb]
theorem passSecs_pcie (n : Nat) (s : State) : (passSecs n s).pcie = s.pcie :=
  passSecs_keeps State.pcie (fun s t => by rw [carryEffects_pcie, advanceTo_pcie]) n s
@[simp] theorem passTo_pcie : (passTo s t).pcie = s.pcie := by rw [passTo, advanceTo_pcie, passSecs_pcie]
theorem passSecs_sec (n : Nat) (s : State) : (passSecs n s).sec = s.sec :=
  passSecs_keeps State.sec (fun s t => by rw [carryEffects_sec, advanceTo_sec]) n s
@[simp] theorem passTo_sec : (passTo s t).sec = s.sec := by rw [passTo, advanceTo_sec, passSecs_sec]
theorem passSecs_secw (n : Nat) (s : State) : (passSecs n s).secw = s.secw :=
  passSecs_keeps State.secw (fun s t => by rw [carryEffects_secw, advanceTo_secw]) n s
@[simp] theorem passTo_secw : (passTo s t).secw = s.secw := by rw [passTo, advanceTo_secw, passSecs_secw]
end

section
variable (s : State) (n : Nat)
@[simp] theorem elapse_pending : (elapse s n).pending = s.pending := by simp [elapse]
@[simp] theorem elapse_part : (elapse s n).part = s.part := by simp [elapse]
@[simp] theorem elapse_boot : (elapse s n).boot = s.boot := by simp [elapse]
@[simp] theorem elapse_warm : (elapse s n).warm = s.warm := by simp [elapse]
@[simp] theorem elapse_free : (elapse s n).free = s.free := by simp [elapse]
@[simp] theorem elapse_ts : (elapse s n).ts = s.ts := by simp [elapse]
@[simp] theorem elapse_sch : (elapse s n).sch = s.sch := by simp [elapse]
@[simp] theorem elapse_sets : (elapse s n).sets = s.sets := by simp [elapse]
@[simp] theorem elapse_eng : (elapse s n).eng = s.eng := by simp [elapse]
@[simp] theorem elapse_jobs : (elapse s n).jobs = s.jobs := by simp [elapse]
@[simp] theorem elapse_mem : (elapse s n).mem = s.mem := by simp [elapse]
@[simp] theorem elapse_poison : (elapse s n).poison = s.poison := by simp [elapse]
@[simp] theorem elapse_csramBad : (elapse s n).csramBad = s.csramBad := by simp [elapse]
@[simp] theorem elapse_ms : (elapse s n).ms = s.ms := by simp [elapse]
@[simp] theorem elapse_cr : (elapse s n).cr = s.cr := by simp [elapse]
@[simp] theorem elapse_kv : (elapse s n).kv = s.kv := by simp [elapse]
@[simp] theorem elapse_map : (elapse s n).map = s.map := by simp [elapse]
@[simp] theorem elapse_saf : (elapse s n).saf = s.saf := by simp [elapse]
@[simp] theorem elapse_hl : (elapse s n).hl = s.hl := by simp [elapse]
@[simp] theorem elapse_fc : (elapse s n).fc = s.fc := by simp [elapse]
@[simp] theorem elapse_rst : (elapse s n).rst = s.rst := by simp [elapse]
@[simp] theorem elapse_cmd : (elapse s n).cmd = s.cmd := by simp [elapse]
@[simp] theorem elapse_glb : (elapse s n).glb = s.glb := by simp [elapse]
@[simp] theorem elapse_pcie : (elapse s n).pcie = s.pcie := by simp [elapse]
@[simp] theorem elapse_sec : (elapse s n).sec = s.sec := by simp [elapse]
@[simp] theorem elapse_secw : (elapse s n).secw = s.secw := by simp [elapse]
end

section
variable (s : State) (t : Nat)
@[simp] theorem setNow_pending : (setNow s t).pending = s.pending := rfl
@[simp] theorem setNow_part : (setNow s t).part = s.part := rfl
@[simp] theorem setNow_boot : (setNow s t).boot = s.boot := rfl
@[simp] theorem setNow_warm : (setNow s t).warm = s.warm := rfl
@[simp] theorem setNow_clk : (setNow s t).clk = s.clk := rfl
@[simp] theorem setNow_free : (setNow s t).free = s.free := rfl
@[simp] theorem setNow_ts : (setNow s t).ts = s.ts := rfl
@[simp] theorem setNow_sch : (setNow s t).sch = s.sch := rfl
@[simp] theorem setNow_sets : (setNow s t).sets = s.sets := rfl
@[simp] theorem setNow_eng : (setNow s t).eng = s.eng := rfl
@[simp] theorem setNow_jobs : (setNow s t).jobs = s.jobs := rfl
@[simp] theorem setNow_mem : (setNow s t).mem = s.mem := rfl
@[simp] theorem setNow_poison : (setNow s t).poison = s.poison := rfl
@[simp] theorem setNow_csramBad : (setNow s t).csramBad = s.csramBad := rfl
@[simp] theorem setNow_ms : (setNow s t).ms = s.ms := rfl
@[simp] theorem setNow_cr : (setNow s t).cr = s.cr := rfl
@[simp] theorem setNow_kv : (setNow s t).kv = s.kv := rfl
@[simp] theorem setNow_sens : (setNow s t).sens = s.sens := rfl
@[simp] theorem setNow_map : (setNow s t).map = s.map := rfl
@[simp] theorem setNow_saf : (setNow s t).saf = s.saf := rfl
@[simp] theorem setNow_hl : (setNow s t).hl = s.hl := rfl
@[simp] theorem setNow_fc : (setNow s t).fc = s.fc := rfl
@[simp] theorem setNow_rst : (setNow s t).rst = s.rst := rfl
@[simp] theorem setNow_cmd : (setNow s t).cmd = s.cmd := rfl
@[simp] theorem setNow_glb : (setNow s t).glb = s.glb := rfl
@[simp] theorem setNow_pcie : (setNow s t).pcie = s.pcie := rfl
@[simp] theorem setNow_sec : (setNow s t).sec = s.sec := rfl
@[simp] theorem setNow_secw : (setNow s t).secw = s.secw := rfl
@[simp] theorem setNow_pins : (setNow s t).pins = s.pins := rfl
@[simp] theorem setNow_out : (setNow s t).out = s.out := rfl
end

section
variable (s : State) (a : Int)
@[simp] theorem setAddend_pending : (setAddend s a).pending = s.pending := rfl
@[simp] theorem setAddend_part : (setAddend s a).part = s.part := rfl
@[simp] theorem setAddend_boot : (setAddend s a).boot = s.boot := rfl
@[simp] theorem setAddend_warm : (setAddend s a).warm = s.warm := rfl
@[simp] theorem setAddend_clk : (setAddend s a).clk = s.clk := rfl
@[simp] theorem setAddend_free : (setAddend s a).free = s.free := rfl
@[simp] theorem setAddend_ts : (setAddend s a).ts = s.ts := rfl
@[simp] theorem setAddend_sch : (setAddend s a).sch = s.sch := rfl
@[simp] theorem setAddend_sets : (setAddend s a).sets = s.sets := rfl
@[simp] theorem setAddend_eng : (setAddend s a).eng = s.eng := rfl
@[simp] theorem setAddend_jobs : (setAddend s a).jobs = s.jobs := rfl
@[simp] theorem setAddend_mem : (setAddend s a).mem = s.mem := rfl
@[simp] theorem setAddend_poison : (setAddend s a).poison = s.poison := rfl
@[simp] theorem setAddend_csramBad : (setAddend s a).csramBad = s.csramBad := rfl
@[simp] theorem setAddend_ms : (setAddend s a).ms = s.ms := rfl
@[simp] theorem setAddend_cr : (setAddend s a).cr = s.cr := rfl
@[simp] theorem setAddend_kv : (setAddend s a).kv = s.kv := rfl
@[simp] theorem setAddend_sens : (setAddend s a).sens = s.sens := rfl
@[simp] theorem setAddend_map : (setAddend s a).map = s.map := rfl
@[simp] theorem setAddend_saf : (setAddend s a).saf = s.saf := rfl
@[simp] theorem setAddend_hl : (setAddend s a).hl = s.hl := rfl
@[simp] theorem setAddend_fc : (setAddend s a).fc = s.fc := rfl
@[simp] theorem setAddend_rst : (setAddend s a).rst = s.rst := rfl
@[simp] theorem setAddend_cmd : (setAddend s a).cmd = s.cmd := rfl
@[simp] theorem setAddend_glb : (setAddend s a).glb = s.glb := rfl
@[simp] theorem setAddend_pcie : (setAddend s a).pcie = s.pcie := rfl
@[simp] theorem setAddend_sec : (setAddend s a).sec = s.sec := rfl
@[simp] theorem setAddend_secw : (setAddend s a).secw = s.secw := rfl
@[simp] theorem setAddend_pins : (setAddend s a).pins = s.pins := rfl
@[simp] theorem setAddend_out : (setAddend s a).out = s.out := rfl
end

section
variable (s : State) (b : Bool) (x : Slot)
@[simp] theorem setSlot_pending : (setSlot s b x).pending = s.pending := by unfold setSlot; split <;> rfl
@[simp] theorem setSlot_part : (setSlot s b x).part = s.part := by unfold setSlot; split <;> rfl
@[simp] theorem setSlot_boot : (setSlot s b x).boot = s.boot := by unfold setSlot; split <;> rfl
@[simp] theorem setSlot_warm : (setSlot s b x).warm = s.warm := by unfold setSlot; split <;> rfl
@[simp] theorem setSlot_clk : (setSlot s b x).clk = s.clk := by unfold setSlot; split <;> rfl
@[simp] theorem setSlot_free : (setSlot s b x).free = s.free := by unfold setSlot; split <;> rfl
@[simp] theorem setSlot_tb : (setSlot s b x).tb = s.tb := by unfold setSlot; split <;> rfl
@[simp] theorem setSlot_ts : (setSlot s b x).ts = s.ts := by unfold setSlot; split <;> rfl
@[simp] theorem setSlot_sch : (setSlot s b x).sch = s.sch := by unfold setSlot; split <;> rfl
@[simp] theorem setSlot_eng : (setSlot s b x).eng = s.eng := by unfold setSlot; split <;> rfl
@[simp] theorem setSlot_jobs : (setSlot s b x).jobs = s.jobs := by unfold setSlot; split <;> rfl
@[simp] theorem setSlot_mem : (setSlot s b x).mem = s.mem := by unfold setSlot; split <;> rfl
@[simp] theorem setSlot_poison : (setSlot s b x).poison = s.poison := by unfold setSlot; split <;> rfl
@[simp] theorem setSlot_csramBad : (setSlot s b x).csramBad = s.csramBad := by unfold setSlot; split <;> rfl
@[simp] theorem setSlot_ms : (setSlot s b x).ms = s.ms := by unfold setSlot; split <;> rfl
@[simp] theorem setSlot_cr : (setSlot s b x).cr = s.cr := by unfold setSlot; split <;> rfl
@[simp] theorem setSlot_kv : (setSlot s b x).kv = s.kv := by unfold setSlot; split <;> rfl
@[simp] theorem setSlot_sens : (setSlot s b x).sens = s.sens := by unfold setSlot; split <;> rfl
@[simp] theorem setSlot_map : (setSlot s b x).map = s.map := by unfold setSlot; split <;> rfl
@[simp] theorem setSlot_saf : (setSlot s b x).saf = s.saf := by unfold setSlot; split <;> rfl
@[simp] theorem setSlot_hl : (setSlot s b x).hl = s.hl := by unfold setSlot; split <;> rfl
@[simp] theorem setSlot_fc : (setSlot s b x).fc = s.fc := by unfold setSlot; split <;> rfl
@[simp] theorem setSlot_rst : (setSlot s b x).rst = s.rst := by unfold setSlot; split <;> rfl
@[simp] theorem setSlot_cmd : (setSlot s b x).cmd = s.cmd := by unfold setSlot; split <;> rfl
@[simp] theorem setSlot_glb : (setSlot s b x).glb = s.glb := by unfold setSlot; split <;> rfl
@[simp] theorem setSlot_pcie : (setSlot s b x).pcie = s.pcie := by unfold setSlot; split <;> rfl
@[simp] theorem setSlot_sec : (setSlot s b x).sec = s.sec := by unfold setSlot; split <;> rfl
@[simp] theorem setSlot_secw : (setSlot s b x).secw = s.secw := by unfold setSlot; split <;> rfl
@[simp] theorem setSlot_pins : (setSlot s b x).pins = s.pins := by unfold setSlot; split <;> rfl
@[simp] theorem setSlot_out : (setSlot s b x).out = s.out := by unfold setSlot; split <;> rfl
end

section
variable (s : State) (i : Nat) (f : Stream → Stream)
@[simp] theorem modStream_pending : (modStream s i f).pending = s.pending := rfl
@[simp] theorem modStream_part : (modStream s i f).part = s.part := rfl
@[simp] theorem modStream_boot : (modStream s i f).boot = s.boot := rfl
@[simp] theorem modStream_warm : (modStream s i f).warm = s.warm := rfl
@[simp] theorem modStream_clk : (modStream s i f).clk = s.clk := rfl
@[simp] theorem modStream_free : (modStream s i f).free = s.free := rfl
@[simp] theorem modStream_tb : (modStream s i f).tb = s.tb := rfl
@[simp] theorem modStream_ts : (modStream s i f).ts = s.ts := rfl
@[simp] theorem modStream_sch : (modStream s i f).sch = s.sch := rfl
@[simp] theorem modStream_sets : (modStream s i f).sets = s.sets := rfl
@[simp] theorem modStream_eng : (modStream s i f).eng = s.eng := rfl
@[simp] theorem modStream_jobs : (modStream s i f).jobs = s.jobs := rfl
@[simp] theorem modStream_mem : (modStream s i f).mem = s.mem := rfl
@[simp] theorem modStream_poison : (modStream s i f).poison = s.poison := rfl
@[simp] theorem modStream_csramBad : (modStream s i f).csramBad = s.csramBad := rfl
@[simp] theorem modStream_ms : (modStream s i f).ms = s.ms := rfl
@[simp] theorem modStream_cr : (modStream s i f).cr = s.cr := rfl
@[simp] theorem modStream_kv : (modStream s i f).kv = s.kv := rfl
@[simp] theorem modStream_map : (modStream s i f).map = s.map := rfl
@[simp] theorem modStream_saf : (modStream s i f).saf = s.saf := rfl
@[simp] theorem modStream_hl : (modStream s i f).hl = s.hl := rfl
@[simp] theorem modStream_fc : (modStream s i f).fc = s.fc := rfl
@[simp] theorem modStream_rst : (modStream s i f).rst = s.rst := rfl
@[simp] theorem modStream_cmd : (modStream s i f).cmd = s.cmd := rfl
@[simp] theorem modStream_glb : (modStream s i f).glb = s.glb := rfl
@[simp] theorem modStream_pcie : (modStream s i f).pcie = s.pcie := rfl
@[simp] theorem modStream_sec : (modStream s i f).sec = s.sec := rfl
@[simp] theorem modStream_secw : (modStream s i f).secw = s.secw := rfl
@[simp] theorem modStream_pins : (modStream s i f).pins = s.pins := rfl
@[simp] theorem modStream_out : (modStream s i f).out = s.out := rfl
end

section
variable (s : State) (i : Nat) (f : SpPort → SpPort)
@[simp] theorem modSp_pending : (modSp s i f).pending = s.pending := rfl
@[simp] theorem modSp_part : (modSp s i f).part = s.part := rfl
@[simp] theorem modSp_boot : (modSp s i f).boot = s.boot := rfl
@[simp] theorem modSp_warm : (modSp s i f).warm = s.warm := rfl
@[simp] theorem modSp_clk : (modSp s i f).clk = s.clk := rfl
@[simp] theorem modSp_free : (modSp s i f).free = s.free := rfl
@[simp] theorem modSp_tb : (modSp s i f).tb = s.tb := rfl
@[simp] theorem modSp_ts : (modSp s i f).ts = s.ts := rfl
@[simp] theorem modSp_sch : (modSp s i f).sch = s.sch := rfl
@[simp] theorem modSp_sets : (modSp s i f).sets = s.sets := rfl
@[simp] theorem modSp_eng : (modSp s i f).eng = s.eng := rfl
@[simp] theorem modSp_jobs : (modSp s i f).jobs = s.jobs := rfl
@[simp] theorem modSp_mem : (modSp s i f).mem = s.mem := rfl
@[simp] theorem modSp_poison : (modSp s i f).poison = s.poison := rfl
@[simp] theorem modSp_csramBad : (modSp s i f).csramBad = s.csramBad := rfl
@[simp] theorem modSp_ms : (modSp s i f).ms = s.ms := rfl
@[simp] theorem modSp_cr : (modSp s i f).cr = s.cr := rfl
@[simp] theorem modSp_kv : (modSp s i f).kv = s.kv := rfl
@[simp] theorem modSp_map : (modSp s i f).map = s.map := rfl
@[simp] theorem modSp_saf : (modSp s i f).saf = s.saf := rfl
@[simp] theorem modSp_hl : (modSp s i f).hl = s.hl := rfl
@[simp] theorem modSp_fc : (modSp s i f).fc = s.fc := rfl
@[simp] theorem modSp_rst : (modSp s i f).rst = s.rst := rfl
@[simp] theorem modSp_cmd : (modSp s i f).cmd = s.cmd := rfl
@[simp] theorem modSp_glb : (modSp s i f).glb = s.glb := rfl
@[simp] theorem modSp_pcie : (modSp s i f).pcie = s.pcie := rfl
@[simp] theorem modSp_sec : (modSp s i f).sec = s.sec := rfl
@[simp] theorem modSp_secw : (modSp s i f).secw = s.secw := rfl
@[simp] theorem modSp_pins : (modSp s i f).pins = s.pins := rfl
@[simp] theorem modSp_out : (modSp s i f).out = s.out := rfl
end

section
variable (s : State) (i : Nat) (f : EthMac → EthMac)
@[simp] theorem modEth_pending : (modEth s i f).pending = s.pending := rfl
@[simp] theorem modEth_part : (modEth s i f).part = s.part := rfl
@[simp] theorem modEth_boot : (modEth s i f).boot = s.boot := rfl
@[simp] theorem modEth_warm : (modEth s i f).warm = s.warm := rfl
@[simp] theorem modEth_clk : (modEth s i f).clk = s.clk := rfl
@[simp] theorem modEth_free : (modEth s i f).free = s.free := rfl
@[simp] theorem modEth_tb : (modEth s i f).tb = s.tb := rfl
@[simp] theorem modEth_ts : (modEth s i f).ts = s.ts := rfl
@[simp] theorem modEth_sch : (modEth s i f).sch = s.sch := rfl
@[simp] theorem modEth_sets : (modEth s i f).sets = s.sets := rfl
@[simp] theorem modEth_eng : (modEth s i f).eng = s.eng := rfl
@[simp] theorem modEth_jobs : (modEth s i f).jobs = s.jobs := rfl
@[simp] theorem modEth_mem : (modEth s i f).mem = s.mem := rfl
@[simp] theorem modEth_poison : (modEth s i f).poison = s.poison := rfl
@[simp] theorem modEth_csramBad : (modEth s i f).csramBad = s.csramBad := rfl
@[simp] theorem modEth_ms : (modEth s i f).ms = s.ms := rfl
@[simp] theorem modEth_cr : (modEth s i f).cr = s.cr := rfl
@[simp] theorem modEth_kv : (modEth s i f).kv = s.kv := rfl
@[simp] theorem modEth_map : (modEth s i f).map = s.map := rfl
@[simp] theorem modEth_saf : (modEth s i f).saf = s.saf := rfl
@[simp] theorem modEth_hl : (modEth s i f).hl = s.hl := rfl
@[simp] theorem modEth_fc : (modEth s i f).fc = s.fc := rfl
@[simp] theorem modEth_rst : (modEth s i f).rst = s.rst := rfl
@[simp] theorem modEth_cmd : (modEth s i f).cmd = s.cmd := rfl
@[simp] theorem modEth_glb : (modEth s i f).glb = s.glb := rfl
@[simp] theorem modEth_pcie : (modEth s i f).pcie = s.pcie := rfl
@[simp] theorem modEth_sec : (modEth s i f).sec = s.sec := rfl
@[simp] theorem modEth_secw : (modEth s i f).secw = s.secw := rfl
@[simp] theorem modEth_pins : (modEth s i f).pins = s.pins := rfl
@[simp] theorem modEth_out : (modEth s i f).out = s.out := rfl
end

section
variable (s : State) (i : Nat) (f : Isp → Isp)
@[simp] theorem modIsp_pending : (modIsp s i f).pending = s.pending := rfl
@[simp] theorem modIsp_part : (modIsp s i f).part = s.part := rfl
@[simp] theorem modIsp_boot : (modIsp s i f).boot = s.boot := rfl
@[simp] theorem modIsp_warm : (modIsp s i f).warm = s.warm := rfl
@[simp] theorem modIsp_clk : (modIsp s i f).clk = s.clk := rfl
@[simp] theorem modIsp_free : (modIsp s i f).free = s.free := rfl
@[simp] theorem modIsp_tb : (modIsp s i f).tb = s.tb := rfl
@[simp] theorem modIsp_ts : (modIsp s i f).ts = s.ts := rfl
@[simp] theorem modIsp_sch : (modIsp s i f).sch = s.sch := rfl
@[simp] theorem modIsp_sets : (modIsp s i f).sets = s.sets := rfl
@[simp] theorem modIsp_eng : (modIsp s i f).eng = s.eng := rfl
@[simp] theorem modIsp_jobs : (modIsp s i f).jobs = s.jobs := rfl
@[simp] theorem modIsp_mem : (modIsp s i f).mem = s.mem := rfl
@[simp] theorem modIsp_poison : (modIsp s i f).poison = s.poison := rfl
@[simp] theorem modIsp_csramBad : (modIsp s i f).csramBad = s.csramBad := rfl
@[simp] theorem modIsp_ms : (modIsp s i f).ms = s.ms := rfl
@[simp] theorem modIsp_cr : (modIsp s i f).cr = s.cr := rfl
@[simp] theorem modIsp_kv : (modIsp s i f).kv = s.kv := rfl
@[simp] theorem modIsp_map : (modIsp s i f).map = s.map := rfl
@[simp] theorem modIsp_saf : (modIsp s i f).saf = s.saf := rfl
@[simp] theorem modIsp_hl : (modIsp s i f).hl = s.hl := rfl
@[simp] theorem modIsp_fc : (modIsp s i f).fc = s.fc := rfl
@[simp] theorem modIsp_rst : (modIsp s i f).rst = s.rst := rfl
@[simp] theorem modIsp_cmd : (modIsp s i f).cmd = s.cmd := rfl
@[simp] theorem modIsp_glb : (modIsp s i f).glb = s.glb := rfl
@[simp] theorem modIsp_pcie : (modIsp s i f).pcie = s.pcie := rfl
@[simp] theorem modIsp_sec : (modIsp s i f).sec = s.sec := rfl
@[simp] theorem modIsp_secw : (modIsp s i f).secw = s.secw := rfl
@[simp] theorem modIsp_pins : (modIsp s i f).pins = s.pins := rfl
@[simp] theorem modIsp_out : (modIsp s i f).out = s.out := rfl
end

section
variable (s : State) (p : Port) (f : PortSt → PortSt)
@[simp] theorem modPort_pending : (modPort s p f).pending = s.pending := by cases p <;> rfl
@[simp] theorem modPort_part : (modPort s p f).part = s.part := by cases p <;> rfl
@[simp] theorem modPort_boot : (modPort s p f).boot = s.boot := by cases p <;> rfl
@[simp] theorem modPort_warm : (modPort s p f).warm = s.warm := by cases p <;> rfl
@[simp] theorem modPort_clk : (modPort s p f).clk = s.clk := by cases p <;> rfl
@[simp] theorem modPort_free : (modPort s p f).free = s.free := by cases p <;> rfl
@[simp] theorem modPort_tb : (modPort s p f).tb = s.tb := by cases p <;> rfl
@[simp] theorem modPort_ts : (modPort s p f).ts = s.ts := by cases p <;> rfl
@[simp] theorem modPort_sch : (modPort s p f).sch = s.sch := by cases p <;> rfl
@[simp] theorem modPort_sets : (modPort s p f).sets = s.sets := by cases p <;> rfl
@[simp] theorem modPort_eng : (modPort s p f).eng = s.eng := by cases p <;> rfl
@[simp] theorem modPort_jobs : (modPort s p f).jobs = s.jobs := by cases p <;> rfl
@[simp] theorem modPort_mem : (modPort s p f).mem = s.mem := by cases p <;> rfl
@[simp] theorem modPort_poison : (modPort s p f).poison = s.poison := by cases p <;> rfl
@[simp] theorem modPort_csramBad : (modPort s p f).csramBad = s.csramBad := by cases p <;> rfl
@[simp] theorem modPort_ms : (modPort s p f).ms = s.ms := by cases p <;> rfl
@[simp] theorem modPort_cr : (modPort s p f).cr = s.cr := by cases p <;> rfl
@[simp] theorem modPort_kv : (modPort s p f).kv = s.kv := by cases p <;> rfl
@[simp] theorem modPort_sens : (modPort s p f).sens = s.sens := by cases p <;> rfl
@[simp] theorem modPort_map : (modPort s p f).map = s.map := by cases p <;> rfl
@[simp] theorem modPort_saf : (modPort s p f).saf = s.saf := by cases p <;> rfl
@[simp] theorem modPort_hl : (modPort s p f).hl = s.hl := by cases p <;> rfl
@[simp] theorem modPort_fc : (modPort s p f).fc = s.fc := by cases p <;> rfl
@[simp] theorem modPort_rst : (modPort s p f).rst = s.rst := by cases p <;> rfl
@[simp] theorem modPort_glb : (modPort s p f).glb = s.glb := by cases p <;> rfl
@[simp] theorem modPort_pcie : (modPort s p f).pcie = s.pcie := by cases p <;> rfl
@[simp] theorem modPort_sec : (modPort s p f).sec = s.sec := by cases p <;> rfl
@[simp] theorem modPort_secw : (modPort s p f).secw = s.secw := by cases p <;> rfl
@[simp] theorem modPort_pins : (modPort s p f).pins = s.pins := by cases p <;> rfl
@[simp] theorem modPort_out : (modPort s p f).out = s.out := by cases p <;> rfl
end

section
variable (s : State) (p : Port)
@[simp] theorem clearTaken_pending : (clearTaken s p).pending = s.pending := by cases p <;> rfl
@[simp] theorem clearTaken_part : (clearTaken s p).part = s.part := by cases p <;> rfl
@[simp] theorem clearTaken_boot : (clearTaken s p).boot = s.boot := by cases p <;> rfl
@[simp] theorem clearTaken_warm : (clearTaken s p).warm = s.warm := by cases p <;> rfl
@[simp] theorem clearTaken_clk : (clearTaken s p).clk = s.clk := by cases p <;> rfl
@[simp] theorem clearTaken_free : (clearTaken s p).free = s.free := by cases p <;> rfl
@[simp] theorem clearTaken_tb : (clearTaken s p).tb = s.tb := by cases p <;> rfl
@[simp] theorem clearTaken_ts : (clearTaken s p).ts = s.ts := by cases p <;> rfl
@[simp] theorem clearTaken_sch : (clearTaken s p).sch = s.sch := by cases p <;> rfl
@[simp] theorem clearTaken_sets : (clearTaken s p).sets = s.sets := by cases p <;> rfl
@[simp] theorem clearTaken_eng : (clearTaken s p).eng = s.eng := by cases p <;> rfl
@[simp] theorem clearTaken_jobs : (clearTaken s p).jobs = s.jobs := by cases p <;> rfl
@[simp] theorem clearTaken_mem : (clearTaken s p).mem = s.mem := by cases p <;> rfl
@[simp] theorem clearTaken_poison : (clearTaken s p).poison = s.poison := by cases p <;> rfl
@[simp] theorem clearTaken_csramBad : (clearTaken s p).csramBad = s.csramBad := by cases p <;> rfl
@[simp] theorem clearTaken_ms : (clearTaken s p).ms = s.ms := by cases p <;> rfl
@[simp] theorem clearTaken_cr : (clearTaken s p).cr = s.cr := by cases p <;> rfl
@[simp] theorem clearTaken_kv : (clearTaken s p).kv = s.kv := by cases p <;> rfl
@[simp] theorem clearTaken_sens : (clearTaken s p).sens = s.sens := by cases p <;> rfl
@[simp] theorem clearTaken_map : (clearTaken s p).map = s.map := by cases p <;> rfl
@[simp] theorem clearTaken_saf : (clearTaken s p).saf = s.saf := by cases p <;> rfl
@[simp] theorem clearTaken_hl : (clearTaken s p).hl = s.hl := by cases p <;> rfl
@[simp] theorem clearTaken_fc : (clearTaken s p).fc = s.fc := by cases p <;> rfl
@[simp] theorem clearTaken_rst : (clearTaken s p).rst = s.rst := by cases p <;> rfl
@[simp] theorem clearTaken_glb : (clearTaken s p).glb = s.glb := by cases p <;> rfl
@[simp] theorem clearTaken_pcie : (clearTaken s p).pcie = s.pcie := by cases p <;> rfl
@[simp] theorem clearTaken_sec : (clearTaken s p).sec = s.sec := by cases p <;> rfl
@[simp] theorem clearTaken_secw : (clearTaken s p).secw = s.secw := by cases p <;> rfl
@[simp] theorem clearTaken_pins : (clearTaken s p).pins = s.pins := by cases p <;> rfl
@[simp] theorem clearTaken_out : (clearTaken s p).out = s.out := by cases p <;> rfl
end

section
variable (s : State) (l : MLink)
@[simp] theorem putLink_pending : (putLink s l).pending = s.pending := rfl
@[simp] theorem putLink_part : (putLink s l).part = s.part := rfl
@[simp] theorem putLink_boot : (putLink s l).boot = s.boot := rfl
@[simp] theorem putLink_warm : (putLink s l).warm = s.warm := rfl
@[simp] theorem putLink_clk : (putLink s l).clk = s.clk := rfl
@[simp] theorem putLink_free : (putLink s l).free = s.free := rfl
@[simp] theorem putLink_tb : (putLink s l).tb = s.tb := rfl
@[simp] theorem putLink_ts : (putLink s l).ts = s.ts := rfl
@[simp] theorem putLink_sch : (putLink s l).sch = s.sch := rfl
@[simp] theorem putLink_sets : (putLink s l).sets = s.sets := rfl
@[simp] theorem putLink_eng : (putLink s l).eng = s.eng := rfl
@[simp] theorem putLink_jobs : (putLink s l).jobs = s.jobs := rfl
@[simp] theorem putLink_mem : (putLink s l).mem = s.mem := rfl
@[simp] theorem putLink_poison : (putLink s l).poison = s.poison := rfl
@[simp] theorem putLink_csramBad : (putLink s l).csramBad = s.csramBad := rfl
@[simp] theorem putLink_ms : (putLink s l).ms = s.ms := rfl
@[simp] theorem putLink_cr : (putLink s l).cr = s.cr := rfl
@[simp] theorem putLink_kv : (putLink s l).kv = s.kv := rfl
@[simp] theorem putLink_sens : (putLink s l).sens = s.sens := rfl
@[simp] theorem putLink_saf : (putLink s l).saf = s.saf := rfl
@[simp] theorem putLink_hl : (putLink s l).hl = s.hl := rfl
@[simp] theorem putLink_fc : (putLink s l).fc = s.fc := rfl
@[simp] theorem putLink_rst : (putLink s l).rst = s.rst := rfl
@[simp] theorem putLink_cmd : (putLink s l).cmd = s.cmd := rfl
@[simp] theorem putLink_glb : (putLink s l).glb = s.glb := rfl
@[simp] theorem putLink_pcie : (putLink s l).pcie = s.pcie := rfl
@[simp] theorem putLink_sec : (putLink s l).sec = s.sec := rfl
@[simp] theorem putLink_secw : (putLink s l).secw = s.secw := rfl
@[simp] theorem putLink_pins : (putLink s l).pins = s.pins := rfl
@[simp] theorem putLink_out : (putLink s l).out = s.out := rfl
end

section
variable (s : State) (t : MType) (d : BitVec 16) (r a : Word) (pl : List Byte)
@[simp] theorem queueFrame_pending : (queueFrame s t d r a pl).pending = s.pending := rfl
@[simp] theorem queueFrame_part : (queueFrame s t d r a pl).part = s.part := rfl
@[simp] theorem queueFrame_boot : (queueFrame s t d r a pl).boot = s.boot := rfl
@[simp] theorem queueFrame_warm : (queueFrame s t d r a pl).warm = s.warm := rfl
@[simp] theorem queueFrame_clk : (queueFrame s t d r a pl).clk = s.clk := rfl
@[simp] theorem queueFrame_free : (queueFrame s t d r a pl).free = s.free := rfl
@[simp] theorem queueFrame_tb : (queueFrame s t d r a pl).tb = s.tb := rfl
@[simp] theorem queueFrame_ts : (queueFrame s t d r a pl).ts = s.ts := rfl
@[simp] theorem queueFrame_sch : (queueFrame s t d r a pl).sch = s.sch := rfl
@[simp] theorem queueFrame_sets : (queueFrame s t d r a pl).sets = s.sets := rfl
@[simp] theorem queueFrame_eng : (queueFrame s t d r a pl).eng = s.eng := rfl
@[simp] theorem queueFrame_jobs : (queueFrame s t d r a pl).jobs = s.jobs := rfl
@[simp] theorem queueFrame_mem : (queueFrame s t d r a pl).mem = s.mem := rfl
@[simp] theorem queueFrame_poison : (queueFrame s t d r a pl).poison = s.poison := rfl
@[simp] theorem queueFrame_csramBad : (queueFrame s t d r a pl).csramBad = s.csramBad := rfl
@[simp] theorem queueFrame_ms : (queueFrame s t d r a pl).ms = s.ms := rfl
@[simp] theorem queueFrame_cr : (queueFrame s t d r a pl).cr = s.cr := rfl
@[simp] theorem queueFrame_kv : (queueFrame s t d r a pl).kv = s.kv := rfl
@[simp] theorem queueFrame_sens : (queueFrame s t d r a pl).sens = s.sens := rfl
@[simp] theorem queueFrame_saf : (queueFrame s t d r a pl).saf = s.saf := rfl
@[simp] theorem queueFrame_hl : (queueFrame s t d r a pl).hl = s.hl := rfl
@[simp] theorem queueFrame_fc : (queueFrame s t d r a pl).fc = s.fc := rfl
@[simp] theorem queueFrame_rst : (queueFrame s t d r a pl).rst = s.rst := rfl
@[simp] theorem queueFrame_cmd : (queueFrame s t d r a pl).cmd = s.cmd := rfl
@[simp] theorem queueFrame_glb : (queueFrame s t d r a pl).glb = s.glb := rfl
@[simp] theorem queueFrame_pcie : (queueFrame s t d r a pl).pcie = s.pcie := rfl
@[simp] theorem queueFrame_sec : (queueFrame s t d r a pl).sec = s.sec := rfl
@[simp] theorem queueFrame_secw : (queueFrame s t d r a pl).secw = s.secw := rfl
@[simp] theorem queueFrame_pins : (queueFrame s t d r a pl).pins = s.pins := rfl
@[simp] theorem queueFrame_out : (queueFrame s t d r a pl).out = s.out := rfl
end

section
variable (s : State) (n : Nat)
@[simp] theorem setSrc_pending : (setSrc s n).pending = s.pending := by unfold setSrc; split <;> rfl
@[simp] theorem setSrc_part : (setSrc s n).part = s.part := by unfold setSrc; split <;> rfl
@[simp] theorem setSrc_boot : (setSrc s n).boot = s.boot := by unfold setSrc; split <;> rfl
@[simp] theorem setSrc_warm : (setSrc s n).warm = s.warm := by unfold setSrc; split <;> rfl
@[simp] theorem setSrc_clk : (setSrc s n).clk = s.clk := by unfold setSrc; split <;> rfl
@[simp] theorem setSrc_free : (setSrc s n).free = s.free := by unfold setSrc; split <;> rfl
@[simp] theorem setSrc_tb : (setSrc s n).tb = s.tb := by unfold setSrc; split <;> rfl
@[simp] theorem setSrc_ts : (setSrc s n).ts = s.ts := by unfold setSrc; split <;> rfl
@[simp] theorem setSrc_sch : (setSrc s n).sch = s.sch := by unfold setSrc; split <;> rfl
@[simp] theorem setSrc_sets : (setSrc s n).sets = s.sets := by unfold setSrc; split <;> rfl
@[simp] theorem setSrc_eng : (setSrc s n).eng = s.eng := by unfold setSrc; split <;> rfl
@[simp] theorem setSrc_jobs : (setSrc s n).jobs = s.jobs := by unfold setSrc; split <;> rfl
@[simp] theorem setSrc_mem : (setSrc s n).mem = s.mem := by unfold setSrc; split <;> rfl
@[simp] theorem setSrc_poison : (setSrc s n).poison = s.poison := by unfold setSrc; split <;> rfl
@[simp] theorem setSrc_csramBad : (setSrc s n).csramBad = s.csramBad := by unfold setSrc; split <;> rfl
@[simp] theorem setSrc_ms : (setSrc s n).ms = s.ms := by unfold setSrc; split <;> rfl
@[simp] theorem setSrc_cr : (setSrc s n).cr = s.cr := by unfold setSrc; split <;> rfl
@[simp] theorem setSrc_kv : (setSrc s n).kv = s.kv := by unfold setSrc; split <;> rfl
@[simp] theorem setSrc_sens : (setSrc s n).sens = s.sens := by unfold setSrc; split <;> rfl
@[simp] theorem setSrc_map : (setSrc s n).map = s.map := by unfold setSrc; split <;> rfl
@[simp] theorem setSrc_saf : (setSrc s n).saf = s.saf := by unfold setSrc; split <;> rfl
@[simp] theorem setSrc_hl : (setSrc s n).hl = s.hl := by unfold setSrc; split <;> rfl
@[simp] theorem setSrc_rst : (setSrc s n).rst = s.rst := by unfold setSrc; split <;> rfl
@[simp] theorem setSrc_glb : (setSrc s n).glb = s.glb := by unfold setSrc; split <;> rfl
@[simp] theorem setSrc_pcie : (setSrc s n).pcie = s.pcie := by unfold setSrc; split <;> rfl
@[simp] theorem setSrc_sec : (setSrc s n).sec = s.sec := by unfold setSrc; split <;> rfl
@[simp] theorem setSrc_secw : (setSrc s n).secw = s.secw := by unfold setSrc; split <;> rfl
@[simp] theorem setSrc_pins : (setSrc s n).pins = s.pins := by unfold setSrc; split <;> rfl
@[simp] theorem setSrc_out : (setSrc s n).out = s.out := by unfold setSrc; split <;> rfl
end

section
variable (s : State) (c : Nat)
@[simp] theorem withdraw_pending : (withdraw s c).pending = s.pending := by unfold withdraw; split <;> rfl
@[simp] theorem withdraw_part : (withdraw s c).part = s.part := by unfold withdraw; split <;> rfl
@[simp] theorem withdraw_boot : (withdraw s c).boot = s.boot := by unfold withdraw; split <;> rfl
@[simp] theorem withdraw_warm : (withdraw s c).warm = s.warm := by unfold withdraw; split <;> rfl
@[simp] theorem withdraw_clk : (withdraw s c).clk = s.clk := by unfold withdraw; split <;> rfl
@[simp] theorem withdraw_free : (withdraw s c).free = s.free := by unfold withdraw; split <;> rfl
@[simp] theorem withdraw_tb : (withdraw s c).tb = s.tb := by unfold withdraw; split <;> rfl
@[simp] theorem withdraw_ts : (withdraw s c).ts = s.ts := by unfold withdraw; split <;> rfl
@[simp] theorem withdraw_sch : (withdraw s c).sch = s.sch := by unfold withdraw; split <;> rfl
@[simp] theorem withdraw_sets : (withdraw s c).sets = s.sets := by unfold withdraw; split <;> rfl
@[simp] theorem withdraw_eng : (withdraw s c).eng = s.eng := by unfold withdraw; split <;> rfl
@[simp] theorem withdraw_jobs : (withdraw s c).jobs = s.jobs := by unfold withdraw; split <;> rfl
@[simp] theorem withdraw_mem : (withdraw s c).mem = s.mem := by unfold withdraw; split <;> rfl
@[simp] theorem withdraw_poison : (withdraw s c).poison = s.poison := by unfold withdraw; split <;> rfl
@[simp] theorem withdraw_csramBad : (withdraw s c).csramBad = s.csramBad := by unfold withdraw; split <;> rfl
@[simp] theorem withdraw_ms : (withdraw s c).ms = s.ms := by unfold withdraw; split <;> rfl
@[simp] theorem withdraw_cr : (withdraw s c).cr = s.cr := by unfold withdraw; split <;> rfl
@[simp] theorem withdraw_kv : (withdraw s c).kv = s.kv := by unfold withdraw; split <;> rfl
@[simp] theorem withdraw_sens : (withdraw s c).sens = s.sens := by unfold withdraw; split <;> rfl
@[simp] theorem withdraw_map : (withdraw s c).map = s.map := by unfold withdraw; split <;> rfl
@[simp] theorem withdraw_hl : (withdraw s c).hl = s.hl := by unfold withdraw; split <;> rfl
@[simp] theorem withdraw_fc : (withdraw s c).fc = s.fc := by unfold withdraw; split <;> rfl
@[simp] theorem withdraw_rst : (withdraw s c).rst = s.rst := by unfold withdraw; split <;> rfl
@[simp] theorem withdraw_cmd : (withdraw s c).cmd = s.cmd := by unfold withdraw; split <;> rfl
@[simp] theorem withdraw_glb : (withdraw s c).glb = s.glb := by unfold withdraw; split <;> rfl
@[simp] theorem withdraw_pcie : (withdraw s c).pcie = s.pcie := by unfold withdraw; split <;> rfl
@[simp] theorem withdraw_sec : (withdraw s c).sec = s.sec := by unfold withdraw; split <;> rfl
@[simp] theorem withdraw_secw : (withdraw s c).secw = s.secw := by unfold withdraw; split <;> rfl
@[simp] theorem withdraw_out : (withdraw s c).out = s.out := by unfold withdraw; split <;> rfl
end

section
variable (s : State)
@[simp] theorem disarm_pending : (disarm s).pending = s.pending := rfl
@[simp] theorem disarm_part : (disarm s).part = s.part := rfl
@[simp] theorem disarm_boot : (disarm s).boot = s.boot := rfl
@[simp] theorem disarm_warm : (disarm s).warm = s.warm := rfl
@[simp] theorem disarm_clk : (disarm s).clk = s.clk := rfl
@[simp] theorem disarm_free : (disarm s).free = s.free := rfl
@[simp] theorem disarm_tb : (disarm s).tb = s.tb := rfl
@[simp] theorem disarm_ts : (disarm s).ts = s.ts := rfl
@[simp] theorem disarm_sch : (disarm s).sch = s.sch := rfl
@[simp] theorem disarm_sets : (disarm s).sets = s.sets := rfl
@[simp] theorem disarm_eng : (disarm s).eng = s.eng := rfl
@[simp] theorem disarm_jobs : (disarm s).jobs = s.jobs := rfl
@[simp] theorem disarm_mem : (disarm s).mem = s.mem := rfl
@[simp] theorem disarm_poison : (disarm s).poison = s.poison := rfl
@[simp] theorem disarm_csramBad : (disarm s).csramBad = s.csramBad := rfl
@[simp] theorem disarm_ms : (disarm s).ms = s.ms := rfl
@[simp] theorem disarm_cr : (disarm s).cr = s.cr := rfl
@[simp] theorem disarm_kv : (disarm s).kv = s.kv := rfl
@[simp] theorem disarm_sens : (disarm s).sens = s.sens := rfl
@[simp] theorem disarm_map : (disarm s).map = s.map := rfl
@[simp] theorem disarm_hl : (disarm s).hl = s.hl := rfl
@[simp] theorem disarm_fc : (disarm s).fc = s.fc := rfl
@[simp] theorem disarm_rst : (disarm s).rst = s.rst := rfl
@[simp] theorem disarm_cmd : (disarm s).cmd = s.cmd := rfl
@[simp] theorem disarm_glb : (disarm s).glb = s.glb := rfl
@[simp] theorem disarm_pcie : (disarm s).pcie = s.pcie := rfl
@[simp] theorem disarm_sec : (disarm s).sec = s.sec := rfl
@[simp] theorem disarm_secw : (disarm s).secw = s.secw := rfl
@[simp] theorem disarm_out : (disarm s).out = s.out := rfl
end

section
variable (s : State)
@[simp] theorem await_pending : (await s).pending = s.pending := rfl
@[simp] theorem await_part : (await s).part = s.part := rfl
@[simp] theorem await_boot : (await s).boot = s.boot := rfl
@[simp] theorem await_warm : (await s).warm = s.warm := rfl
@[simp] theorem await_clk : (await s).clk = s.clk := rfl
@[simp] theorem await_free : (await s).free = s.free := rfl
@[simp] theorem await_tb : (await s).tb = s.tb := rfl
@[simp] theorem await_ts : (await s).ts = s.ts := rfl
@[simp] theorem await_sch : (await s).sch = s.sch := rfl
@[simp] theorem await_sets : (await s).sets = s.sets := rfl
@[simp] theorem await_eng : (await s).eng = s.eng := rfl
@[simp] theorem await_jobs : (await s).jobs = s.jobs := rfl
@[simp] theorem await_mem : (await s).mem = s.mem := rfl
@[simp] theorem await_poison : (await s).poison = s.poison := rfl
@[simp] theorem await_csramBad : (await s).csramBad = s.csramBad := rfl
@[simp] theorem await_ms : (await s).ms = s.ms := rfl
@[simp] theorem await_cr : (await s).cr = s.cr := rfl
@[simp] theorem await_kv : (await s).kv = s.kv := rfl
@[simp] theorem await_sens : (await s).sens = s.sens := rfl
@[simp] theorem await_map : (await s).map = s.map := rfl
@[simp] theorem await_hl : (await s).hl = s.hl := rfl
@[simp] theorem await_fc : (await s).fc = s.fc := rfl
@[simp] theorem await_rst : (await s).rst = s.rst := rfl
@[simp] theorem await_cmd : (await s).cmd = s.cmd := rfl
@[simp] theorem await_glb : (await s).glb = s.glb := rfl
@[simp] theorem await_pcie : (await s).pcie = s.pcie := rfl
@[simp] theorem await_sec : (await s).sec = s.sec := rfl
@[simp] theorem await_secw : (await s).secw = s.secw := rfl
@[simp] theorem await_out : (await s).out = s.out := rfl
end

section
variable (s : State)
@[simp] theorem clearRun_pending : (clearRun s).pending = s.pending := rfl
@[simp] theorem clearRun_part : (clearRun s).part = s.part := rfl
@[simp] theorem clearRun_boot : (clearRun s).boot = s.boot := rfl
@[simp] theorem clearRun_warm : (clearRun s).warm = s.warm := rfl
@[simp] theorem clearRun_clk : (clearRun s).clk = s.clk := rfl
@[simp] theorem clearRun_free : (clearRun s).free = s.free := rfl
@[simp] theorem clearRun_tb : (clearRun s).tb = s.tb := rfl
@[simp] theorem clearRun_ts : (clearRun s).ts = s.ts := rfl
@[simp] theorem clearRun_sch : (clearRun s).sch = s.sch := rfl
@[simp] theorem clearRun_sets : (clearRun s).sets = s.sets := rfl
@[simp] theorem clearRun_eng : (clearRun s).eng = s.eng := rfl
@[simp] theorem clearRun_jobs : (clearRun s).jobs = s.jobs := rfl
@[simp] theorem clearRun_mem : (clearRun s).mem = s.mem := rfl
@[simp] theorem clearRun_poison : (clearRun s).poison = s.poison := rfl
@[simp] theorem clearRun_csramBad : (clearRun s).csramBad = s.csramBad := rfl
@[simp] theorem clearRun_ms : (clearRun s).ms = s.ms := rfl
@[simp] theorem clearRun_cr : (clearRun s).cr = s.cr := rfl
@[simp] theorem clearRun_kv : (clearRun s).kv = s.kv := rfl
@[simp] theorem clearRun_map : (clearRun s).map = s.map := rfl
@[simp] theorem clearRun_saf : (clearRun s).saf = s.saf := rfl
@[simp] theorem clearRun_hl : (clearRun s).hl = s.hl := rfl
@[simp] theorem clearRun_fc : (clearRun s).fc = s.fc := rfl
@[simp] theorem clearRun_rst : (clearRun s).rst = s.rst := rfl
@[simp] theorem clearRun_cmd : (clearRun s).cmd = s.cmd := rfl
@[simp] theorem clearRun_glb : (clearRun s).glb = s.glb := rfl
@[simp] theorem clearRun_pcie : (clearRun s).pcie = s.pcie := rfl
@[simp] theorem clearRun_sec : (clearRun s).sec = s.sec := rfl
@[simp] theorem clearRun_secw : (clearRun s).secw = s.secw := rfl
@[simp] theorem clearRun_pins : (clearRun s).pins = s.pins := rfl
@[simp] theorem clearRun_out : (clearRun s).out = s.out := rfl
end

section
variable (s : State)
@[simp] theorem cancelSwap_pending : (cancelSwap s).pending = s.pending := by unfold cancelSwap; split <;> rfl
@[simp] theorem cancelSwap_part : (cancelSwap s).part = s.part := by unfold cancelSwap; split <;> rfl
@[simp] theorem cancelSwap_boot : (cancelSwap s).boot = s.boot := by unfold cancelSwap; split <;> rfl
@[simp] theorem cancelSwap_warm : (cancelSwap s).warm = s.warm := by unfold cancelSwap; split <;> rfl
@[simp] theorem cancelSwap_clk : (cancelSwap s).clk = s.clk := by unfold cancelSwap; split <;> rfl
@[simp] theorem cancelSwap_free : (cancelSwap s).free = s.free := by unfold cancelSwap; split <;> rfl
@[simp] theorem cancelSwap_tb : (cancelSwap s).tb = s.tb := by unfold cancelSwap; split <;> rfl
@[simp] theorem cancelSwap_ts : (cancelSwap s).ts = s.ts := by unfold cancelSwap; split <;> rfl
@[simp] theorem cancelSwap_sch : (cancelSwap s).sch = s.sch := by unfold cancelSwap; split <;> rfl
@[simp] theorem cancelSwap_eng : (cancelSwap s).eng = s.eng := by unfold cancelSwap; split <;> rfl
@[simp] theorem cancelSwap_jobs : (cancelSwap s).jobs = s.jobs := by unfold cancelSwap; split <;> rfl
@[simp] theorem cancelSwap_mem : (cancelSwap s).mem = s.mem := by unfold cancelSwap; split <;> rfl
@[simp] theorem cancelSwap_poison : (cancelSwap s).poison = s.poison := by unfold cancelSwap; split <;> rfl
@[simp] theorem cancelSwap_csramBad : (cancelSwap s).csramBad = s.csramBad := by unfold cancelSwap; split <;> rfl
@[simp] theorem cancelSwap_cr : (cancelSwap s).cr = s.cr := by unfold cancelSwap; split <;> rfl
@[simp] theorem cancelSwap_kv : (cancelSwap s).kv = s.kv := by unfold cancelSwap; split <;> rfl
@[simp] theorem cancelSwap_sens : (cancelSwap s).sens = s.sens := by unfold cancelSwap; split <;> rfl
@[simp] theorem cancelSwap_map : (cancelSwap s).map = s.map := by unfold cancelSwap; split <;> rfl
@[simp] theorem cancelSwap_saf : (cancelSwap s).saf = s.saf := by unfold cancelSwap; split <;> rfl
@[simp] theorem cancelSwap_hl : (cancelSwap s).hl = s.hl := by unfold cancelSwap; split <;> rfl
@[simp] theorem cancelSwap_fc : (cancelSwap s).fc = s.fc := by unfold cancelSwap; split <;> rfl
@[simp] theorem cancelSwap_rst : (cancelSwap s).rst = s.rst := by unfold cancelSwap; split <;> rfl
@[simp] theorem cancelSwap_cmd : (cancelSwap s).cmd = s.cmd := by unfold cancelSwap; split <;> rfl
@[simp] theorem cancelSwap_glb : (cancelSwap s).glb = s.glb := by unfold cancelSwap; split <;> rfl
@[simp] theorem cancelSwap_pcie : (cancelSwap s).pcie = s.pcie := by unfold cancelSwap; split <;> rfl
@[simp] theorem cancelSwap_sec : (cancelSwap s).sec = s.sec := by unfold cancelSwap; split <;> rfl
@[simp] theorem cancelSwap_secw : (cancelSwap s).secw = s.secw := by unfold cancelSwap; split <;> rfl
@[simp] theorem cancelSwap_pins : (cancelSwap s).pins = s.pins := by unfold cancelSwap; split <;> rfl
@[simp] theorem cancelSwap_out : (cancelSwap s).out = s.out := by unfold cancelSwap; split <;> rfl
end

theorem modEng_eng (s : State) (e : Nat) (f : Engine → Engine) : (modEng s e f).eng = modAt s.eng e f := rfl
theorem store_mem (s : State) (a : Nat) (bs : List Byte) : (store s a bs).mem = s.mem.write a bs := rfl
theorem putLink_links (s : State) (l : MLink) :
    (putLink s l).map.links = l :: s.map.links.filter (fun x => x.node != l.node) := rfl
theorem modStream_streams (s : State) (i : Nat) (f : Stream → Stream) :
    (modStream s i f).sens.streams = modAt s.sens.streams i f := rfl

/-- What a source's setting leaves in the fault word. -/
theorem setSrc_fsw (s : State) (n : Nat) : (setSrc s n).fc.fsw =
    if hasSrc s n || srcReserved n || 128 ≤ n then s.fc.fsw else s.fc.fsw ||| srcBit n := by
  unfold setSrc
  split <;> rfl

section Lists
variable {α : Type}

@[simp] theorem length_modAt (l : List α) (i : Nat) (f : α → α) : (modAt l i f).length = l.length := by
  induction l generalizing i with
  | nil => rfl
  | cons x r ih => cases i <;> simp [modAt, ih]

@[simp] theorem length_setAt (l : List α) (i : Nat) (a : α) : (setAt l i a).length = l.length := by
  induction l generalizing i with
  | nil => rfl
  | cons x r ih => cases i <;> simp [setAt, ih]

theorem getElem?_modAt (l : List α) (i j : Nat) (f : α → α) :
    (modAt l i f)[j]? = if j = i then l[j]?.map f else l[j]? := by
  induction l generalizing i j with
  | nil => simp [modAt]
  | cons x r ih =>
    cases i with
    | zero => cases j <;> simp [modAt]
    | succ i =>
      cases j with
      | zero => simp [modAt]
      | succ j => simp [modAt, ih]

theorem getElem?_setAt (l : List α) (i j : Nat) (a : α) :
    (setAt l i a)[j]? = if j = i then l[j]?.map (fun _ => a) else l[j]? := by
  induction l generalizing i j with
  | nil => simp [setAt]
  | cons x r ih =>
    cases i with
    | zero => cases j <;> simp [setAt]
    | succ i =>
      cases j with
      | zero => simp [setAt]
      | succ j => simp [setAt, ih]

end Lists

/-- An engine other than the one changed reads as before. -/
theorem engOf_modEng_ne (s : State) (e d : Nat) (f : Engine → Engine) (h : d ≠ e) : engOf (modEng s e f) d = engOf s d := by
  simp [engOf, modEng, List.getD_eq_getElem?_getD, getElem?_modAt, h]

/-- The engine changed. -/
theorem engOf_modEng (s : State) (e : Nat) (f : Engine → Engine) (h : e < s.eng.length) :
    engOf (modEng s e f) e = f (engOf s e) := by
  simp only [engOf, modEng, List.getD_eq_getElem?_getD, getElem?_modAt, if_true, List.getElem?_eq_getElem h, Option.map_some,
    Option.getD_some]

/-- A stream other than the one changed reads as before. -/
theorem streamOf_modStream_ne (s : State) (i j : Nat) (f : Stream → Stream) (h : j ≠ i) :
    streamOf (modStream s i f) j = streamOf s j := by
  simp [streamOf, modStream, List.getD_eq_getElem?_getD, getElem?_modAt, h]

/-- The stream changed. -/
theorem streamOf_modStream (s : State) (i : Nat) (f : Stream → Stream) (h : i < s.sens.streams.length) :
    streamOf (modStream s i f) i = f (streamOf s i) := by
  simp only [streamOf, modStream, List.getD_eq_getElem?_getD, getElem?_modAt, if_true, List.getElem?_eq_getElem h,
    Option.map_some, Option.getD_some]

/-- The link just put is the one read. -/
theorem linkOf_putLink (s : State) (l : MLink) : linkOf (putLink s l) l.node = l := by
  simp [linkOf, putLink]

end Sys2Proof.Laws
end

