-- ==== Sys2Proof/Laws/Ports.lean ====
section
/-! SUPPORT. What the service of a command packet does, said once: a command whose body answers leaves the state that
`answered` names. -/

namespace Sys2Proof.Laws

open Sys2Proof Sys2Proof.Machine

theorem settle_same {s t : State} (h : t.fc.fsw = s.fc.fsw) : settle s t = t := by
  unfold settle
  rw [h]
  have : (s.fc.fsw &&& maskFA &&& ~~~s.fc.fsw) = 0 := by
    apply BitVec.eq_of_getLsbD_eq
    intro i hi
    simp only [BitVec.getLsbD_and, BitVec.getLsbD_not]
    cases s.fc.fsw.getLsbD i <;> simp
  simp [this]

@[simp] theorem msix_fc (s : State) (v : Nat) : (msix s v).fc = s.fc := by
  unfold msix; split; · rfl
  split; · rfl
  split <;> rfl
@[simp] theorem place_fc (s : State) (p : Port) (ws : List Word) (v : Nat) : (place s p ws v).fc = s.fc := by
  unfold place; split <;> simp
@[simp] theorem placeReply_fc (s : State) (p : Port) (op : Nat) (st : Status) (tag seq : BitVec 16) (pl : List Word) :
    (placeReply s p op st tag seq pl).fc = s.fc := by
  unfold placeReply; split <;> simp
@[simp] theorem answered_fc (s : State) (op : Nat) (k : Pkt) (st : Status) (pl : List Word) :
    (answered s op k st pl).fc = s.fc := by
  simp [answered]

@[simp] theorem responder_clearTaken (s : State) (p : Port) : responder (clearTaken s p) = responder s := by
  cases p <;> rfl
@[simp] theorem served_clearTaken (s : State) (p : Port) (op : Nat) (k : Pkt) :
    served (clearTaken s p) op k = served s op k := by cases p <;> rfl

/-- A command that starts, and whose body answers without a new fault source, leaves its answer's state with the reply
placed and kept. -/
theorem command_starts {op flags : Nat} {k : Pkt} {body : State → Ans} {s s0 s1 : State} {st : Status} {pl : List Word}
    (h : starts s op flags k = some s0) (hb : body s0 = (s1, some (st, pl))) (hf : s1.fc.fsw = s0.fc.fsw) :
    command op flags k body s = answered s1 op k st pl := by
  unfold starts at h
  split at h
  · cases h
  rename_i hr
  simp only [Bool.or_eq_true, Bool.not_eq_true', not_or, Bool.not_eq_true, Bool.not_eq_false] at hr
  unfold command
  split at h
  · rename_i t ht
    try rw [ht]
    split at h
    · rename_i he
      cases h
      simp only [Bool.and_eq_true, decide_eq_true_eq, Bool.not_eq_true'] at he
      simp only [if_pos he.1, he.2, serve, giveReply, served_clearTaken, hr.2, if_true, hb, responder_clearTaken, hr.1, Bool.false_eq_true,
        if_false]
      exact settle_same (by simp [hf])
    · cases h
  · rename_i ht
    try rw [ht]
    split at h
    · rename_i he
      cases h
      simp only [Bool.and_eq_true, beq_iff_eq, Bool.not_eq_true'] at he
      simp only [he.1, he.2, if_true, serve, giveReply, hr.2, hb, hr.1, Bool.false_eq_true, if_false]
      exact settle_same (by simp [hf])
    · cases h

end Sys2Proof.Laws
end

