-- ==== Sys2Proof/Laws/Reads.lean ====
section
/-! SUPPORT. What a source port's reads of sound stores come to: nothing of them is poisoned, whatever they name. -/

namespace Sys2Proof.Laws

open Sys2Proof Sys2Proof.Machine

/-- No sector, line or byte of a store is poisoned. -/
def Clean (s : State) : Prop := s.poison = [] ∧ s.csramBad = []

theorem setSrc_clean {s : State} (n : Nat) (h : Clean s) : Clean (setSrc s n) := by
  unfold setSrc; split <;> exact h

theorem modPool_clean {s : State} (src : Nat) (k : PoolKind) (i : Nat) (f : Pool → Pool) (h : Clean s) :
    Clean (modPool s src k i f) := h

theorem passReq_clean {s : State} (src a : Nat) (h : Clean s) : Clean (passReq s src a) := by
  have ht : ∀ (t : State) (x : Nat), Clean t → Clean (touchCheck t x) := fun t x hc => by
    unfold touchCheck; split <;> exact hc
  have hg : ∀ (t : State) (src : Nat) (k : PoolKind) (i : Nat) (ep : Bool), Clean t → Clean (giveOne t src k i ep) :=
    fun t src k i ep hc => by
      unfold giveOne
      dsimp only
      split
      · exact hc
      · exact setSrc_clean 82 hc
  exact ht _ _ (hg _ _ _ _ _ h)

theorem countPoisonRead_clean {s : State} (a : Nat) (h : Clean s) : countPoisonRead s a = s := by
  simp [countPoisonRead, h.1]

theorem readUnits_clean {s : State} (a n : Nat) (h : Clean s) : readUnits s a n asIs = s := by
  have h1 : ∀ u, eccRead s u (if s.csramBad.contains u then .uncorrectable else asIs u) = s := fun u => by
    simp only [h.2, asIs, List.contains_nil, Bool.false_eq_true, if_false]
    exact countPoisonRead_clean u h
  unfold readUnits
  generalize protOf a n = us
  induction us with
  | nil => rfl
  | cons u us ih => rw [List.foldl_cons, h1 u]; exact ih

theorem portRead_clean {s : State} (src a n : Nat) (h : Clean s) : Clean (portRead s src a n asIs) := by
  unfold portRead
  generalize reqsOf a n = rs
  induction rs generalizing s with
  | nil => exact h
  | cons x rs ih =>
    have ht : reqTimed asIs x.1 x.2 = false := by simp [reqTimed, asIs]
    simp only [List.foldl_cons, ht, Bool.false_eq_true, if_false]
    rw [readUnits_clean _ _ (passReq_clean src x.1 h)]
    exact ih (passReq_clean src x.1 h)

theorem readAll_clean {s : State} (src : Nat) (rs : List (Nat × Nat)) (h : Clean s) : Clean (readAll s src rs []) := by
  have he : eccFor [] = asIs := rfl
  unfold readAll
  rw [he]
  induction rs generalizing s with
  | nil => exact h
  | cons x rs ih => exact ih (portRead_clean src x.1 x.2 h)

/-- Reads of a device without poison that meet no new error come good, whatever they name. -/
theorem readsGood_clean {s : State} (src : Nat) (rs : List (Nat × Nat)) (h : Clean s) : readsGood s src rs [] = true := by
  have hc := readAll_clean src rs h
  have he : eccFor [] = asIs := rfl
  simp [readsGood, readBad, badAt, poisoned, lostUnits, hc.1, hc.2, he, reqTimed, asIs]

end Sys2Proof.Laws
end

