-- ==== Sys2Proof/Laws/Sources.lean ====
section
/-! SUPPORT. The fault word under the setting of a source, and when a meaning's end reacts to it. -/

namespace Sys2Proof.Laws

open Sys2Proof Sys2Proof.Machine

/-- One source as a mask has that bit alone. -/
theorem getLsbD_srcBit {n i : Nat} (hn : n < 128) : (srcBit n).getLsbD i = (i == n) := by
  unfold srcBit
  rw [BitVec.getLsbD_ofNat]
  by_cases h : i = n
  · subst h; simp [hn]
  · have : ¬ (n = i) := fun e => h e.symm
    simp [h, this]

/-- A source that is named and not reserved is set. -/
theorem setSrc_sets_bit (s : State) {n : Nat} (hn : n < 128) (hr : srcReserved n = false) :
    (setSrc s n).fc.fsw.getLsbD n = true := by
  rw [setSrc_fsw]
  split
  · rename_i h
    have : ¬ (128 ≤ n) := by omega
    simp only [hr, Bool.or_false, Bool.or_eq_true, decide_eq_true_eq, this, or_false] at h
    exact h
  · simp [BitVec.getLsbD_or, getLsbD_srcBit hn]

/-- Setting a source clears none. -/
theorem setSrc_mono (s : State) (n : Nat) {i : Nat} (h : s.fc.fsw.getLsbD i = true) :
    (setSrc s n).fc.fsw.getLsbD i = true := by
  rw [setSrc_fsw]; split
  · exact h
  · simp [BitVec.getLsbD_or, h]

/-- A meaning's end is its state or the reaction to a fatal source (R410). -/
theorem settle_cases (s t : State) : settle s t = t ∨ settle s t = faReact t := by
  unfold settle; split
  · exact .inr rfl
  · exact .inl rfl

/-- With no fatal source newly set nothing reacts. -/
theorem settle_of {s t : State} (h : ∀ i < 128, t.fc.fsw.getLsbD i = true → maskFA.getLsbD i = true →
    s.fc.fsw.getLsbD i = true) : settle s t = t := by
  unfold settle
  have : (t.fc.fsw &&& maskFA &&& ~~~s.fc.fsw) = 0 := by
    apply BitVec.eq_of_getLsbD_eq
    intro i hi
    have := h i hi
    simp only [BitVec.getLsbD_and, BitVec.getLsbD_not, hi, decide_true, Bool.true_and]
    revert this
    cases t.fc.fsw.getLsbD i <;> cases maskFA.getLsbD i <;> cases s.fc.fsw.getLsbD i <;> simp
  simp [this]

set_option maxRecDepth 20000 in
/-- The mask of the fatal sources holds them. -/
theorem getLsbD_maskFA : ∀ n < 128, maskFA.getLsbD n = srcFA n := by decide

/-- A source that is not fatal, set alone, draws no reaction. -/
theorem settle_setSrc {s t : State} {n : Nat} (h : t.fc.fsw = s.fc.fsw) (hn : n < 128) (hf : srcFA n = false) :
    settle s (setSrc t n) = setSrc t n := by
  apply settle_of
  intro i hi ht hm
  rw [setSrc_fsw] at ht
  split at ht
  · rwa [h] at ht
  · rw [BitVec.getLsbD_or, getLsbD_srcBit hn, h] at ht
    by_cases e : i = n
    · subst e
      rw [getLsbD_maskFA i hi, hf] at hm
      cases hm
    · simpa [e] using ht

end Sys2Proof.Laws
end

