-- ==== Sys2Proof/Tests/Slice0.lean ====
section
/-! SUPPORT. Small tests: ill-formed commands are refused by the well-formedness checks, and every statement's
hypotheses are met together by a concrete state and operands, one witness theorem per statement, its clauses at
boundary values. Expected values come from the manual's rules. -/

open Sys2Proof Sys2Proof.Machine

set_option maxRecDepth 100000

namespace Sys2Proof.Tests

/-- A device whose firmware runs, its PCI Express link up. -/
def up : State := { boot := .firmware, saf := { injDone := true }, pcie := { up := true } }

/-- A packet with tag 1 and SEQ 1. -/
def pk (ps : List Word) (p : Port := .H) : Pkt := { port := p, tag := 1, seq := 1, params := ps }

/-- Every requester of the register bus is up. -/
def allUp (s : State) : Bool := [Requester.pairA, .pairB, .headland, .pcie].all (requesterUp s)

def zs (n : Nat) : List Word := List.replicate n 0

/-- The same device in a run state, with the slot 0 it runs from. -/
def inRun (r : RunState) (x : Slot := {}) : State :=
  { up with sch := { run := r, phase := if r == .running then .compute else .none, seq := 5, t := 1000 }
            sets := { slot0 := { x with st := .active } } }

/-- Camera port 3 with its link up. -/
def cam : State := { up with sens := { sp := modAt (List.replicate 16 {}) 3 (fun x => { x with up := true }) } }

/-- Port H busy with a placed reply; port D open and busy; a responder's device. -/
def busyH : State := { up with cmd := { h := { placed := [1] }, s := { placed := [1] }, d := { placed := [1] } } }

/-- Packet-in words of an ECHO without parameters: header and tag, the CRC still to come. -/
def twoIn : State := { up with cmd := { h := { inBuf := [(1, 0x0001_0001), (0, 0x0100_0003)] } } }

/-- Port H with a LOAD_OBJECT in process. -/
def inProc (s : State) (op flags : Nat) (k : Pkt) : State :=
  modPort s k.port (fun x => { x with taken := some { opcode := op, flags := flags, pkt := k } })

/-- Both slots: 1 is ACTIVE, 0 is in the state given. -/
def slots (a : SlotState) (x : Slot := {}) : Sets :=
  { slot0 := { x with st := a }, slot1 := { st := .active }, activeSlot := true }

/-- A device of a Mapin group of two: node 2 of nodes 1 and 2, the link to node 1 formed, port 0 bonded and up. -/
def grp (r : RunState) (me : BitVec 16 := 2) (x : Plan := {}) : State :=
  let s := inRun r { plan := { x with members := [1, 2] }, sensor := { macs := [[4]] } }
  { s with
    map := { nodeId := me, valid := true
             links := [{ node := if me = 2 then 1 else 2, gen := 1, txSeq := 5, rxSeq := 6, free := 500, owed := 0, nak := false
                         unacked := [] }] }
    sens := { eth := modAt (List.replicate 8 {}) 0 (fun y => { y with up := true }) } }

/-- A job of RUN_JOB with the items given. -/
def job (tok : Word) (is : List Item) : Job :=
  { (default : Job) with
    token := tok, origin := .runJob, mask := 0x3FF_FFFF, budget := 1000, items := is
    timeoutAt := some 50, port := .H }

def item (k : EngKind) (st : ItemSt) (ws : List Word := []) : Item :=
  { (default : Item) with ds := [{ kind := k, words := ws }], st := st }

/-- A running frame of one S-class Tide entry that starts at 0 and closes at 10,000 ns, with the status given. -/
def frame1 (x : TtStat) (js : List Job := []) : State :=
  let s := inRun .running { tide := { hdr := [0x0001_0000, 100000, 50000, 60000], entries := [[0x0010_0400, 1, 3, 0, 100, 10000]] } }
  { s with sch := { s.sch with tt := [x] }, jobs := js, tb := { ns := 1000 } }

/-- An attempt at the first item of job 5. -/
def att (hold stopping poison : Bool := false) : Attempt :=
  { (default : Attempt) with token := 5, hold := hold, stopping := stopping, poison := poison, writer := true, banks := 1 }

/-- A device whose engine `e` runs that attempt of the job's items. -/
def running (e : Nat) (a : Attempt) (is : List Item) : State :=
  { up with jobs := [job 5 is], eng := modAt (List.replicate 26 {}) e (fun x => { x with arr := some a }) }

def crec (o : JobEnd) : CRec := ⟨5, o, false, true, 0, 1, 9, 100⟩

/-- A LINEAR sequence header of one head and one page: FP8, DH 32 (R176). -/
def hdr0 : List Word := [0x41C040, 0x10040, 0x4000D, 0, 0, 0x10, 0]

/-- The same device with sequence 0 mapped, its entries at 0x0820_1000, and its lock word. -/
def mapped (w8 : Word := 0) (es : List Word := []) : State :=
  storeWords (storeWords up (hdrAddr 0) (hdr0 ++ [0, w8, 0, 0x0820_1000, 0, 0, 0, 0, 1])) 0x0820_1000 es

/-- A header of three heads, sixteen slots and 32 by 32 pages: its entries take 393,240 bytes. -/
def hdrBig (cove : Word) : List Word := [0x7DC200, 0x0100_0100, 0x4000F, cove, 0x4000_0000 * (cove / 0x10_0000), 0x10, 0]

/-- Two such sequences leave no room for a third. -/
def fullKv : State :=
  storeWords (storeWords up (hdrAddr 1) (hdrBig 0 ++ [0, 0, 0, 0x0820_1000, 0, 0, 0, 0, 1]))
    (hdrAddr 2) (hdrBig 0x10_0000 ++ [0, 0, 0, 0x0826_1018, 0, 0, 0, 0, 1])

def req (p : ReqUse) : Req := { (default : Req) with id := 4, src := 7, kind := .dram, idx := 0, purpose := p }

def scr (done : Nat) (run : Bool) : Scrub := ⟨5, 0x10_0000_0000, 2, done, 0, 0, none, run⟩

def lad (d st : Nat) : Ladder := { dom := d, step := st, byHang := false, token := some 3 }

/-- Camera port 0, its stream 0 of two lines of four RAW16 samples with one buffer, and what the stream holds. -/
def camRun (w0 : Word := 0x40) (x : Stream := {}) : State :=
  { inRun .running { sensor := { ports := [[1]], streams := [[w0, 0x2E00, 0x0002_0004, 0, 0, 0x10, 128]], isps := [[0x2000]] } }
    with
    sch := { run := .running, phase := .compute, seq := 5 }
    sens := { sp := modAt (List.replicate 16 {}) 0 (fun y => { y with up := true })
              streams := modAt (List.replicate 64 {}) 0 (fun _ => x) } }

def sfr (lines pkts : Nat) (closed : Bool := false) : SFrame :=
  { seq := 0, buf := 0, fseq := 5, ns := 0, sec := 0, lines := lines, pkts := pkts, used := 0, closed := closed
    delivered := false, claimed := false, raw := [] }

/-- A multicast UDP packet from port 7 to port 9 of one payload byte, without a UDP checksum. -/
def udp1 : List Byte :=
  [1, 0, 0x5E, 0, 0, 1, 2, 0, 0, 0, 0, 1, 8, 0, 0x45, 0, 0, 29, 0, 0, 0, 0, 1, 17, 0xCF, 0xCE, 10, 0, 0, 1, 0xE0, 0, 0, 1,
   0, 7, 0, 9, 0, 9, 0, 0, 0xAB]

/-- A MAC that takes UDP port 9 into stream 0, and that Ethernet stream closing as asked. -/
def ethRun (w1 : Word) (x : Stream) : State :=
  { inRun .running { sensor := { streams := [[0xC0, w1, 0x0010_0002, 0, 0, 0x10, 128]], macs := [[0, 0, 0, 0, 1, 9, 0, 0]] } }
    with
    sens := { eth := modAt (List.replicate 8 {}) 0 (fun y => { y with up := true })
              streams := modAt (List.replicate 64 {}) 0 (fun _ => x) } }

/-- A device whose DRAM holds the three record words given, with their CRC, replaying them. -/
def rep (hd : List Word) (bad : Word := 0) (x : Stream := {}) : State :=
  let s := ethRun 0 x
  let h := (hd ++ zs 7).take 7
  { storeWords s 0x10_0000_0000 (h ++ [crc32c (wordsBytes h) + bad]) with
    sens := { s.sens with replayer := { state := 1, base := 0x10_0000_0000, len := 64, mask := 1, inFrame := true } } }

/-- The next frame on the link from node 1 of that group, its generation the entry's. -/
def hd1 (arg : Word := 0) (lseq : Word := 7) (gen : BitVec 8 := 1) (credits : Nat := 12) : MHdr :=
  { src := 1, lseq := lseq, ack := 5, gen := gen, credits := credits, reqId := 9, arg := arg, nak := false }

def fr (typ : MType) (n : Nat) : MFrame :=
  { typ := typ, dst := 1, lseq := 0, reqId := 9, arg := 0, payload := List.replicate n 0 }

/-- The group's device with the Mapin fields changed. -/
def grpMap (f : Mapin → Mapin) (r : RunState := .idle) (x : Plan := {}) (me : BitVec 16 := 2) : State :=
  { grp r me x with map := f (grp r me x).map }

/-- A plan with a receive window for node 1 at 4,096, 64 bytes long, over a tensor. -/
def win : Plan := { windows := [⟨1, 4096, 64⟩], tensors := [[4096, 0x0000_0000, 0x0001_0040, 0x0001_0001]] }

def bar : Barrier := ⟨3, 5, false, 9, 0, [(2, 7)], 0, []⟩

/-- A frame being judged, its program and the ends of two Tide entries given. -/
def judge (g : Program) (o0 o1 : Option JobEnd) (h : Headland := { written := false }) : State :=
  let s := inRun .running { prog := g, tide := { hdr := [0x0002_0000, 100000, 50000, 60000]
                                                 entries := [[0x400, 0, 0, 0, 0, 9], [0x400, 0, 0, 0, 0, 9]] } }
  { s with
    sch := { s.sch with tt := [{ ended := o0 }, { ended := o1 }] }
    hl := h }

/-- JOBS_DONE over both jobs, action FAIL or HOLD; RANGE over evidence 0. -/
def jobsDone (fail : Bool) : List Word := [if fail then 0x101 else 1, 0, 0x0002_0000]
def rng : List Word := [4, 0, 0, 0x3F80_0000, 0]

/-- A pack with one slice of each kind, of 100 cycles. -/
def pack7 : Pack := { slices := (List.range 7).map (fun k => [BitVec.ofNat 32 (0x0064_0000 + k)]) }

def due (r : RunState) (w : KatWhy) (start : Nat := 0) : State :=
  { inRun r with
    eng := modAt (List.replicate 26 {}) 25 (fun x => { x with katDue := [w] })
    saf := { injDone := true, pack := pack7 }
    sch := { run := r, phase := if r == .running then .compute else .none, startAt := start } }

def tok (typ : Nat) : DbgToken := ⟨typ, 3, true, false, 7, 8, []⟩

-- Well-formedness: one ill-formed command per check

theorem wf_packet : Instr.wf (.echo (pk (zs 1022))) = false := by decide
theorem wf_packet_max : Instr.wf (.echo (pk (zs 1021))) = true := by decide
theorem wf_runJob : Instr.wf (.runJob (pk (zs 1022)) true) = false := by decide
theorem wf_window : Instr.wf (.packetWordWrite .H 1024 0) = false ∧ Instr.wf (.replyBufferRead .H 1024) = false := by decide
theorem wf_jobs : Instr.wf (.reservationOpen 1024) = false ∧ Instr.wf (.jobStart 1024) = false
    ∧ Instr.wf (.jobDeadline 1024) = false := by decide
theorem wf_dispatch : Instr.wf (.tileDispatch 26 none) = false ∧ Instr.wf (.tileDispatch 3 (some 3)) = false := by decide
theorem wf_drain : Instr.wf (.tileDrainEnd 16 0 [] []) = false ∧ Instr.wf (.tileDrainEnd 0 0 [(513, 0, 0)] []) = false := by
  decide
theorem wf_upsets : Instr.wf (.firmwareLoadDone [{ (default : SliceUpset) with e := 26 }]) = false
    ∧ Instr.wf (.warmResetDone [{ (default : SliceUpset) with e := 26 }]) = false := by decide
theorem wf_engines : Instr.wf (.operandPoisonConsumed 26) = false ∧ Instr.wf (.streamResume 26) = false
    ∧ Instr.wf (.katSliceStart 26) = false ∧ Instr.wf (.katSliceEnd 26 0 [] []) = false
    ∧ Instr.wf (.hangOverrun 26) = false ∧ Instr.wf (.hangNoAck 26) = false := by decide
theorem wf_tasks : Instr.wf (.taskEnd 20 0 [] []) = false ∧ Instr.wf (.taskEnd 15 0 [] []) = false
    ∧ Instr.wf (.attentionTaskEnd 19 0 [] []) = false := by decide
theorem wf_rings : Instr.wf (.completionRecordCollect 30) = false ∧ Instr.wf (.walkLockGrant 64) = false
    ∧ Instr.wf (.pageFetchDone 64 0 []) = false ∧ Instr.wf (.pageSpillDone 64 0 []) = false := by decide
theorem wf_bars : Instr.wf (.bar2Write 0x7FF_FFFF [0, 0] []) = false
    ∧ Instr.wf (.bar4Write 0xFFFF_FFFF [0, 0] []) = false
    ∧ Instr.wf (.barMemoryRead false 0x7FF_FFFC 8 []) = false
    ∧ Instr.wf (.barMemoryRead true 0xFFFF_FFFC 8 []) = false
    ∧ Instr.wf (.registerWrite 0x100_0000 15 0 .pcie []) = false
    ∧ Instr.wf (.registerWrite 0 15 0 .pcie [⟨.pairA, 0x100_0000, none⟩]) = false
    ∧ Instr.wf (.rcRegisterRead 0x100_0000 .pcie) = false
    ∧ Instr.wf (.bar0UnassignedAccess 0x100_0000 true) = false := by decide
theorem wf_ports : Instr.wf (.ptpTxNsRead 8) = false ∧ Instr.wf (.ethLinkChange 8 true) = false
    ∧ Instr.wf (.ethFrameReceive 8 true []) = false ∧ Instr.wf (.cciGo 16 0) = false ∧ Instr.wf (.cciTimeout 16) = false
    ∧ Instr.wf (.cciDone 0 false (List.replicate 17 0)) = false ∧ Instr.wf (.fsyncPulseEnd 16) = false
    ∧ Instr.wf (.csi2FrameStart 16 0) = false ∧ Instr.wf (.csi2FrameEnd 16 0) = false
    ∧ Instr.wf (.spLinkChange 16 true 1) = false ∧ Instr.wf (.txForwardPacket 16 0 true []) = false
    ∧ Instr.wf (.csi2Line 0 0 64 .clean true [] false .asStored) = false := by decide
theorem wf_channels : Instr.wf (.capEdge 8) = false ∧ Instr.wf (.triggerFire 32) = false
    ∧ Instr.wf (.ethTimeClose 64) = false ∧ Instr.wf (.sensorFrameComplete 64) = false := by decide
theorem wf_mapin : Instr.wf (.mapinWriteReq default 0 (List.replicate 2049 0)) = false
    ∧ Instr.wf (.mapinReadReply default (List.replicate 2049 0) []) = false
    ∧ Instr.wf (.mapinArrive default 0 0 1000000000) = false ∧ Instr.wf (.mapinRelease default 0 (2 ^ 48) 0) = false := by
  decide
theorem wf_training : Instr.wf (.dramTrainingDone [24]) = false ∧ Instr.wf (.startupInjectionDone [17] []) = false
    ∧ Instr.wf (.startupInjectionDone [] [26]) = false := by decide
theorem wf_pcie : Instr.wf (.pcieLinkChange true 5 4 false) = false ∧ Instr.wf (.pcieLinkChange true 4 3 false) = false
    ∧ Instr.wf (.pcieConfigWrite (.bar 6 0)) = false ∧ Instr.wf (.pcieConfigWrite (.maxPayload 3)) = false
    ∧ Instr.wf (.pcieConfigWrite (.maxReadRequest 6)) = false := by decide
theorem no_command_words : decodeTableWord 32 0 = none := by decide

-- Witnesses

theorem wit_StepKeepsInv : Inv up = true ∧ step up = .next (idleTick up) := ⟨by decide, rfl⟩

theorem wit_QuietCommandsLeaveWorkAlone : quiet .secondsCarry = true ∧ quiet (.rcRegisterRead 0 .pcie) = true
    ∧ quiet (.evidenceCopy 0 []) = true ∧ quietReads (.evidenceCopy 0 []) = true ∧ poolsFit up.cr.pools = true := by decide

theorem wit_IdleStepCountsTheTimeBase : up.pending = [] ∧ clocked up = true ∧ up.tb.ns < 1000000000
    ∧ up.tb.addend < 2 ^ 36
    ∧ clocked { up with tb := { sec := 2 ^ 48 - 1, ns := 999999999, frac := 2 ^ 32 - 1 } } = true := by decide

theorem wit_RegisterOffsetsAlias :
    (blockW (0x9F24 / 0x1_0000) = some 3 ∧ 0x9F24 / 0x1_0000 = 0x0004 / 0x1_0000 ∧ blockOpen up (0x9F24 / 0x1_0000) = true
      ∧ 0x9F24 % 0x1_0000 % (4 * 2 ^ 3) / 4 = 0x0004 % 0x1_0000 % (4 * 2 ^ 3) / 4)
    ∧ (blockW (0x0A_0FFC / 0x1_0000) = some 10 ∧ blockOpen up (0x0A_0FFC / 0x1_0000) = true
      ∧ writable (0x0A_0FFC / 0x1_0000) (0x0A_0FFC % 0x1_0000 % (4 * 2 ^ 10) / 4) = false)
    ∧ writable 0x0A 0x23F = true ∧ writable 0x0A 0x240 = false := by decide

theorem wit_WindowDecode : 0x80_0000 ≤ 0x80_FFFC ∧ 0x80_FFFC < 0x81_0000 ∧ 0x80_FFFC % 0x2000 / 4 = 0x80_1FFC % 0x2000 / 4
    ∧ (0x80_0FFC / 0x1000 % 2 = 0 ∧ 0x80_EFFC % 0x2000 / 4 = 0x80_0FFC % 0x2000 / 4 ∧ blockOpen up 0x80 = true)
    ∧ 0x80_1000 / 0x1000 % 2 = 1 ∧ allUp up = true := by decide

theorem wit_UnassignedOffsets : hostUp up = true ∧ 0x0B_0000 ≤ 0x0F_FFFC ∧ 0x0F_FFFC < 0x10_0000
    ∧ 0x2C_0000 < 0x30_0000 ∧ 0x49_0000 ≤ 0x7F_FFFC ∧ 0x81_0000 ≤ 0xFF_FFFC ∧ 0xFF_FFFC < 0x100_0000 := by decide

theorem wit_DroppedRegisterAccesses : allUp up = true ∧ (7 : BitVec 4) ≠ 15
    ∧ (let s : State := { up with warm := true }
       requesterUp s .pcie = true ∧ blockW (0x03_000C / 0x1_0000) = some 4 ∧ blockOpen s (0x03_000C / 0x1_0000) = false) := by decide

theorem wit_ReadsOfRcRegistersClear : (0x48, 6) ∈ readClears ∧ (0x00, 2) ∈ readClears ∧ (0x47, 3) ∈ readClears
    ∧ allUp up = true ∧ blockOpen up 0x48 = true := by decide

theorem wit_RwRegistersHoldWhatIsWritten : allUp up = true ∧ blockOpen up 0x03 = true ∧ blockOpen up 0x02 = true
    ∧ blockOpen up 0x09 = true ∧ blockOpen up 0x48 = true := by decide

theorem wit_TimeRegisterRows : hostUp up = true ∧ blockOpen up 0x03 = true
    ∧ ({ up with tb := { src := .pps } } : State).tb.src ≠ .free ∧ up.tb.src = .free
    ∧ clampL ((8 * 2 ^ 32 + 0x0100_0000 : Nat) - nominalAddend) = (8 * 2 ^ 32 + 0x0100_0000 : Nat) - nominalAddend
    ∧ srcOf ((0x4 : Word).toNat % 8) = some .mapin ∧ srcOf ((0x0 : Word).toNat % 8) = some up.tb.src := by decide

theorem wit_OtherRegisterRows : hostUp cam = true ∧ blockOpen cam (0x40 + 7) = true ∧ cam.sens.eth.length = 8
    ∧ blockOpen cam 0x48 = true ∧ blockOpen cam (0x30 + 15) = true
    ∧ cam.sens.sp[3]? = some { up := true } ∧ cam.sens.sp[15]? = some ({} : SpPort)
    ∧ ({ cam with sens := { sp := setAt cam.sens.sp 3 { up := true, go := true, rlen := 16 } } } : State).sens.sp[3]?
        = some { up := true, go := true, rlen := 16 } := by decide

theorem wit_PacketsNotExecuted :
    packetOf (.echo (pk [])) = some (0x01, 0, pk []) ∧ packetOf (.runJob (pk (zs 7)) true) = some (0x21, 1, pk (zs 7))
    ∧ (portSt busyH .H).taken = none ∧ ready busyH .H = false ∧ ready busyH .S = false ∧ ready busyH .D = false
    ∧ ready up .S = true ∧ opPermit .S 0x01 0 = false
    ∧ ready up .H = true ∧ opPermit .H 0x01 0 = true
    ∧ (pk []).tag ≠ 0 ∧ ({ pk [] with tag := 0 } : Pkt).tag = 0
    ∧ lenOk 0x40 0 2 = false ∧ lenOk 0x40 0 3 = true ∧ responder up = false
    ∧ (let s : State := { up with cmd := { h := { lastSeq := some 1, lastTag := 1 } } }
       (portSt s .H).lastSeq = some 1 ∧ (pk []).seq = 1 ∧ (pk []).tag = (portSt s .H).lastTag ∧ (pk []).seq ≠ 5
         ∧ (pk []).seq ≠ 5 + 1 ∧ ({ pk [] with tag := 2 } : Pkt).tag ≠ (portSt s .H).lastTag)
    ∧ (let s : State := { boot := .rom, pcie := { up := true } }
       ready s .H = true ∧ admission s 0x40 0 (pk (zs 3)) = .run ∧ mustWait s .H = false ∧ s.boot = .rom ∧ responder s = false)
    ∧ (let s : State := { up with rst := { pairA := true } }
       ready s .H = true ∧ admission s 0x40 0 (pk (zs 3)) = .run ∧ mustWait s .H = false ∧ responder s = true) := by decide

theorem wit_PacketWordsAndReplies :
    hostUp up = true ∧ blockOpen up 0x80 = true ∧ ready busyH .H = false ∧ ready twoIn .H = true
    ∧ (wd (bufWords (bufPut twoIn.cmd.h.inBuf 2 (crcWords [0x0100_0003, 0x0001_0001])) 1) 0).toNat % 65536 = 3
    ∧ bufWords (bufPut twoIn.cmd.h.inBuf 2 7) 3 = [0x0100_0003, 0x0001_0001, 7]
    ∧ fld [0x0100_0003, 0x0001_0001, 7] 0 31 24 = 1 ∧ fld [0x0100_0003, 0x0001_0001, 7] 0 23 16 = 0
    ∧ pktOf .H [0x0100_0003, 0x0001_0001, 7] = pk []
    ∧ admission { twoIn with cmd := { h := { inBuf := bufPut twoIn.cmd.h.inBuf 2 7 } } } 1 0 (pk []) = .run
    ∧ ready busyH .S = false ∧ portUp busyH .H = true
    ∧ (0 + 1 = busyH.cmd.h.placed.length ∧ waiting busyH .H = false)
    ∧ portUp up .S = true ∧ up.cmd.s.rd + 1 ≠ up.cmd.s.placed.length ∧ busyH.cmd.s.inBuf = []
    ∧ ({ up with cmd := { s := { placed := [1], inBuf := [(0, 7)] } } } : State).cmd.s.inBuf ≠ []
    ∧ ready ({ up with cmd := { s := { placed := [1], inBuf := [(0, 7)] } } } : State) .S = false
    ∧ (0x5A : Byte) ≠ 0x3C ∧ (0 : Byte) ≠ 0x3C ∧ (0 : Byte) ≠ 0x5A := by decide

/-- The CRC that those two words take, and a different word is a wrong one (R451). -/
theorem test_crc_of_packet : wd [0x0100_0003, 0x0001_0001, crcWords [0x0100_0003, 0x0001_0001]] 2
      = crcWords [0x0100_0003, 0x0001_0001] ∧ crcWords [0x0100_0003, 0x0001_0001] ≠ 7 := by decide

theorem wit_EventsArePlacedInOrder :
    (let s : State := { up with cmd := { h := { pend := 2 ^ 127 } } }
     portUp s .H = true ∧ s.cmd.h.placed = [] ∧ s.cmd.h.taken = none ∧ s.cmd.h.annPend = false ∧ s.cmd.h.pend ≠ 0)
    ∧ (let s : State := { up with cmd := { s := { pend := 1 }, verdict := [1, 2] } }
       portUp s .S = true ∧ s.cmd.s.placed = [] ∧ s.cmd.s.taken = none ∧ s.cmd.s.annPend = false ∧ s.cmd.s.pend ≠ 0)
    ∧ (let s : State := { up with cmd := { h := { annPend := true }, s := { placed := [1] }, lostEvt := [7] } }
       (portSt s .H).annPend = true ∧ (portSt s .S).placed ≠ [] ∧ s.cmd.h.annPend = true ∧ s.cmd.s.annPend = false
         ∧ s.cmd.h.placed = [] ∧ s.cmd.h.taken = none)
    ∧ (let s : State := { up with cmd := { s := { annPend := true, pend := 1 } } }
       s.cmd.s.annPend = true ∧ s.cmd.h.annPend = false ∧ s.cmd.s.placed = [] ∧ s.cmd.s.taken = none)
    ∧ (let s : State := { up with cmd := { h := { annPend := true }, s := { annPend := true } } }
       s.cmd.h.annPend = true ∧ s.cmd.s.annPend = true ∧ s.cmd.h.placed = [] ∧ s.cmd.s.placed = []
         ∧ s.cmd.h.taken = none ∧ s.cmd.s.taken = none)
    ∧ (let s : State := { up with cmd := { lostEvt := [7], verdict := [1, 2] } }
       portUp s .H = true ∧ s.cmd.h.pend = 0 ∧ s.cmd.lostEvt ≠ [] ∧ portUp s .S = true ∧ s.cmd.s.pend = 0
         ∧ s.cmd.verdict ≠ []) := by decide

theorem wit_CommandTimeoutsAndFraming :
    (let s : State := { inProc up 0x40 0 (pk (zs 3)) with fc := { fsw := BitVec.ofNat 128 (2 ^ 108) } }
     (portSt s .H).taken = some { opcode := 0x40, flags := 0, pkt := pk (zs 3) } ∧ responder s = false
       ∧ served s 0x40 (pk (zs 3)) = true ∧ s.fc.fsw.getLsbD 108 = true)
    ∧ (up.cmd.s.inBuf = [] ∧ ({ up with cmd := { s := { inBuf := [(0, 7)] } } } : State).cmd.s.inBuf ≠ [])
    ∧ (up.sec.tap ≠ 0x10 ∧ dOpen up = false)
    ∧ (let s : State := { up with sec := { tap := 0x10, dUnlock := true } }
       s.sec.tap = 0x10 ∧ dOpen s = true ∧ ready s .D = true ∧ s.cmd.d.inBuf = [] ∧ s.cmd.d.lost = 0
         ∧ 3 < (1024 : Word).toNat % 65536 ∧ (1024 : Word).toNat % 65536 ≤ 1024) := by decide

theorem wit_TimeSettingAndTriggers :
    starts up 0x40 0 (pk [0, 65535, 999999999]) = some up ∧ up.sch.run = .idle
    ∧ starts (inRun .running) 0x40 0 (pk [0, 65535, 999999999]) = some (inRun .running)
    ∧ starts up 0x40 0 (pk [0, 65536, 1000000000]) = some up ∧ starts up 0x40 0 (pk [0, 0, 1000000000]) = some up
    ∧ (let w0 : Nat := (wd (pk (0x0007_FF5F :: zs 9)).params 0).toNat
       starts up 0x42 0 (pk (0x0007_FF5F :: zs 9)) = some up ∧ w0 / 32 % 4 ≠ 3 ∧ w0 / 16 % 2 = 1 ∧ w0 / 128 % 2 = 0 ∧ w0 < 2 ^ 19
         ∧ starts up 0x42 0 (pk (0 :: 65535 :: zs 8)) = some up ∧ (65535 : Word).toNat < 65536
         ∧ starts up 0x42 0 (pk (0 :: 65536 :: zs 8)) = some up ∧ 65536 ≤ (65536 : Word).toNat)
    ∧ ((0x70 : Word).toNat / 32 % 4 = 3 ∧ (0x20 : Word).toNat / 16 % 2 = 0 ∧ (0x20 : Word).toNat / 32 % 4 ≠ 0
      ∧ (0x80 : Word).toNat / 128 % 2 = 1 ∧ 2 ^ 19 ≤ (0x8_0000 : Word).toNat ∧ starts up 0x42 0 (pk (0x70 :: zs 9)) = some up)
    ∧ (let s := inRun .armed
       starts s 0x42 0 (pk (zs 10)) = some s ∧ s.sch.run = .armed)
    ∧ (let s := inRun .running { sensor := { trigs := List.replicate 32 [0x3, 5, 7, 2] } }
       s.sch.run = .running ∧ trigValid s 31 = true ∧ trigMode s 31 = 1
         ∧ s.sens.trigNext.getD 31 0 < (wd (trigEntry s 31) 3).toNat % 65536 ∧ s.sch.t + 5 < (s.tb.sec + 1) * 1000000000)
    ∧ (let s := inRun .running { sensor := { trigs := List.replicate 32 [0x1, 5, 7, 2] } }
       trigValid s 0 = true ∧ trigMode s 0 = 0 ∧ s.sens.trigNext.getD 0 0 < 1)
    ∧ (let s := inRun .idle { sensor := { trigs := List.replicate 32 [0x5] } }
       s.sch.run ≠ .running ∧ clocked s = true ∧ trigValid s 31 = true ∧ trigMode s 31 = 2 ∧ s.tb.ns < 1000000000
         ∧ ({ s with tb := { ppsOutEn := true } } : State).tb.ppsOutSrc = false)
    ∧ trigValid up 0 = false := by decide

theorem wit_ServoSamplesAndLock :
    (let s : State := { up with tb := { src := .host, ns := 999999999, good := 7, bad := 2, locked := true } }
     s.tb.src ≠ .free ∧ s.sch.run = .idle ∧ s.tb.stepThr * 1000 ≤ (100000 : Int).natAbs
       ∧ 0 ≤ (now s : Int) + 100000 ∧ (now s : Int) + 100000 < 2 ^ 48 * 1000000000 ∧ s.tb.ns < 1000000000
       ∧ (99999 : Int).natAbs < s.tb.stepThr * 1000
       ∧ (100 : Int).natAbs ≤ s.tb.lockThr ∧ 8 ≤ s.tb.good + 1 ∧ s.tb.lockThr < (-101 : Int).natAbs ∧ 3 ≤ s.tb.bad + 1
       ∧ s.tb.locked = true
       ∧ starts s 0x41 0 (pk [100]) = some s ∧ (satSample (sword (wd [100] 0))).natAbs ≤ s.tb.lockThr)
    ∧ (let s : State := { up with tb := { src := .mapin, good := 6, bad := 1, locked := true } }
       s.tb.good + 1 < 8 ∧ s.tb.bad + 1 < 3 ∧ s.tb.sampleTimeout ≠ 0 ∧ s.tb.src ≠ .host
         ∧ starts s 0x41 0 (pk [100]) = some s) := by decide

theorem wit_EdgesAndPulses :
    true = ({ up with tb := { ppsInPol := true } } : State).tb.ppsInPol
    ∧ (let s : State := { up with clk := 125000999, tb := { lastPps := some 1000 } }
       s.tb.lastPps = some 1000 ∧ s.clk < 1000 + 125000000)
    ∧ (let s : State := { up with clk := 125001000, tb := { lastPps := some 1000, src := .pps } }
       clocked s = true ∧ true ≠ s.tb.ppsInPol ∧ 1000 + 125000000 ≤ s.clk ∧ s.tb.src = .pps)
    ∧ (let s : State := { up with tb := { capEn := 0x80, capFifo := List.replicate 7 [] ++ [List.replicate 15 (1, 2)] } }
       clocked s = true ∧ s.tb.capEn.getLsbD 7 = true ∧ s.tb.capFifo[7]? = some (List.replicate 15 (1, 2)))
    ∧ (let s : State := { up with tb := { capEn := 0x80, capFifo := List.replicate 7 [] ++ [List.replicate 16 (1, 2)] } }
       s.tb.capFifo[7]? = some (List.replicate 16 (1, 2)) ∧ 16 ≤ (List.replicate 16 (1, 2)).length)
    ∧ (let s : State := { up with tb := { sec := 1, ns := 950000000, ppsRose := some 1950000000, ppsOutEn := true, widthMs := 49 } }
       s.tb.ppsRose = some 1950000000 ∧ 1950000000 + s.tb.widthMs * 1000000 < (s.tb.sec + 1) * 1000000000)
    ∧ (let s : State := { up with tb := { sec := 1, ns := 950000000, ppsRose := some 1950000000, ppsOutEn := true, widthMs := 50 } }
       (s.tb.sec + 1) * 1000000000 ≤ 1950000000 + s.tb.widthMs * 1000000 ∧ s.tb.ns < 1000000000
         ∧ 1950000000 + s.tb.widthMs * 1000000 < 2 ^ 48 * 1000000000
         ∧ 1950000000 < (1950000000 + s.tb.widthMs * 1000000) / 1000000000 * 1000000000 ∧ s.tb.ppsOutEn = true
         ∧ s.tb.ppsOutSrc = false)
    ∧ (15 < up.sens.sp.length ∧ (up.sens.sp.getD 15 {}).fsAt = none ∧ up.tb.ppsRose = none)
    ∧ (let s0 := inRun .running { sensor := { ports := List.replicate 16 [0, 0, 0xE0, 0x3] } }
       let s : State := { s0 with sens := { sp := List.replicate 16 { fsAt := some 5 } } }
       (s.sens.sp.getD 15 {}).fsAt.isSome = true ∧ hasActive s = true ∧ bit (fsWord s 15) 6 = true
         ∧ bit (fsWord s 15) 7 = true) := by decide

theorem wit_PtpExchange :
    (let s : State := { up with ts := { pathDelay := some 10, req := some (3, 4), pendResp := some (3, 5, 6)
                                        pendSync := some (7, 2) }
                                tb := { src := .ptp, sec := 1 } }
     s.rst.pairB = false ∧ clocked s = true ∧ (0 = fld s.ts.cfg 0 15 8 ∧ 0 = fld s.ts.cfg 0 6 5) ∧ ptpMaster s = false
       ∧ s.ts.pathDelay = some 10 ∧ s.tb.src = .ptp ∧ ((999999990 : Int) - ingress s (ptpPort s) + 10).natAbs < 2 ^ 31
       ∧ s.ts.pendSync = some (7, 2) ∧ ((1 : Int) - 2 + 10).natAbs < 2 ^ 31 ∧ 7 ≠ 8
       ∧ ptp1588 s = false ∧ s.ts.req = some (3, 4) ∧ s.ts.pendResp = some (3, 5, 6)
       ∧ s.sens.eth[ptpPort s]? = some ({} : EthMac))
    ∧ (let s : State := { up with ts := { cfg := 0x8057 :: zs 9, req := some (3, 4), sync := some (1, 2) } }
       (0x80 = fld s.ts.cfg 0 15 8 ∧ 2 = fld s.ts.cfg 0 6 5 ∧ 1 ≠ fld s.ts.cfg 0 6 5)
         ∧ s.ts.pathDelay = none ∧ ptp1588 s = true ∧ ptpMaster s = false ∧ s.ts.sync = some (1, 2)
         ∧ s.ts.req = some (3, 4) ∧ ptpPort s = 7 ∧ s.sens.eth[ptpPort s]? = some ({} : EthMac))
    ∧ (let s : State := { up with ts := { cfg := 0x18 :: zs 9 } }
       ptpMaster s = true ∧ ptp1588 s = true ∧ clocked s = true) := by decide

theorem wit_InformationAndQueries :
    starts up 0x01 0 (pk (zs 1021)) = some up ∧ starts up 0x02 0 (pk []) = some up ∧ up.part = .a48
    ∧ starts up 0x03 0 (pk []) = some up ∧ starts up 0x51 0 (pk [] .S) = some up
    ∧ (let s : State := { up with cmd := { tokens := [⟨7, .H, true, .ok, [], 0⟩, ⟨8, .H, false, .ok, [3], 0⟩] } }
       starts s 0x23 0 (pk [7]) = some s ∧ (pk [7]).port ≠ .S
         ∧ s.cmd.tokens.find? (fun y => y.token == wd (pk [7]).params 0) = some ⟨7, .H, true, .ok, [], 0⟩
         ∧ starts s 0x23 0 (pk [8]) = some s
         ∧ s.cmd.tokens.find? (fun y => y.token == wd (pk [8]).params 0) = some ⟨8, .H, false, .ok, [3], 0⟩
         ∧ starts s 0x23 0 (pk [9]) = some s ∧ s.cmd.tokens.find? (fun y => y.token == wd (pk [9]).params 0) = none
         ∧ (∀ j ∈ s.jobs, j.token ≠ wd (pk [9]).params 0) ∧ (∀ r ∈ s.sch.ttRecs, r.token ≠ wd (pk [9]).params 0)
         ∧ starts s 0x23 0 (pk [8] .S) = some s ∧ (pk [8] .S).port = .S)
    ∧ (let s : State := { up with sec := { idCert := [1, 2, 3] } }
       starts s 0x71 0 (pk [0, 2]) = some s ∧ wd (pk [0, 2]).params 0 = 0 ∧ s.sec.idCert ≠ []
         ∧ (wd (pk [0, 2]).params 1).toNat < s.sec.idCert.length
         ∧ starts s 0x71 0 (pk [1, 0]) = some s ∧ wd (pk [1, 0]).params 0 = 1 ∧ s.sec.fwRunning = false)
    ∧ starts up 0x70 0 (pk (zs 8)) = some up ∧ up.sec.lifecycle ≠ .retired ∧ up.sec.erased = false
    ∧ (let s : State := { up with sec := { erased := true } }
       starts s 0x70 0 (pk (zs 8)) = some s ∧ s.sec.erased = true)
    ∧ starts up 0x78 2 (pk []) = some up ∧ starts up 0x79 2 (pk []) = some up := by decide

theorem wit_InformationAndQueries_portS (x : TokRec) :
    ({ up with cmd := { tokens := [⟨8, .H, false, .ok, [3], 0⟩] } } : State).cmd.tokens.find?
      (fun y => y.token == wd (pk [8] .S).params 0) = some x → x.port ≠ .S := by
  intro h
  have : x = ⟨8, .H, false, .ok, [3], 0⟩ := by
    have e : (some (⟨8, .H, false, .ok, [3], 0⟩ : TokRec)) = some x := by rw [← h]; decide
    exact (Option.some.inj e).symm
  subst this; decide

theorem wit_LoadReadAndSwapSets :
    (let s : State := { up with sets := slots .loading }
     let ps : List Word := [16 * 4, 0, 0x10, 64]
     starts s 0x11 0 (pk ps) = some s ∧ wd ps 0 = BitVec.ofNat 32 (b2n false + 16 * 4)
       ∧ 0x10_0000_0000 = (wd ps 1).toNat + (wd ps 2).toNat * 2 ^ 32 ∧ (wd ps 3).toNat = 64 ∧ 0x10_0000_0000 % 64 = 0
       ∧ isDram s 0x10_0000_0000 = true ∧ inDram s 0x10_0000_0000 64 = true ∧ slotLocked s false = false
       ∧ (slotOf s false).verTok = none ∧ (slotOf s false).comTok = none
       ∧ hits (slotRegions (slotOf s (!false)) ++ fwRegions s) 0x10_0000_0000 64 = false
       ∧ starts s 0x15 0 (pk [1]) = some s ∧ wd (pk [1]).params 0 = BitVec.ofNat 32 (b2n true)
       ∧ readsGood s srcPairA (infoReads (slotOf s true)) [] = true ∧ poolsFit s.cr.pools = true
       ∧ starts s 0x14 0 (pk [0, 0]) = some s ∧ (slotOf s (shadowSlot s)).st ≠ .committed)
    ∧ (let s : State := { up with sets := slots .committed }
       starts s 0x14 0 (pk [1, 9]) = some s ∧ (wd (pk [1, 9]).params 0).toNat ≤ 1 ∧ s.sets.swapPending = false
         ∧ (slotOf s (shadowSlot s)).st = .committed ∧ s.sch.run = .idle ∧ hasActive s = true)
    ∧ (let s : State := { up with sets := slots .committed, sch := { run := .running, phase := .slack, seq := 0xFFFF_FFFF } }
       starts s 0x14 0 (pk [0, 0]) = some s ∧ s.sch.run = .running ∧ s.sch.phase = .slack)
    ∧ (let s : State := { up with sets := slots .committed, sch := { run := .armed, firstSeq := 3 } }
       starts s 0x14 0 (pk [0, 0]) = some s ∧ s.sch.run = .armed ∧ wd (pk [0, 0]).params 0 = 0 ∧ s.saf.lease = none)
    ∧ (let s : State := { up with sets := slots .loaded { objs := [⟨0, 0x10_0000_0000, 96⟩] } }
       infoReads (slotOf s false) = [(0x10_0000_0000, 8)] ∧ readsGood s srcPairA (infoReads (slotOf s false)) [] = true
         ∧ readsGood s srcPairA (infoReads (slotOf s false)) [(0x10_0000_0000, .uncorrectable)] = false
         ∧ readsGood { s with poison := [0x10_0000_0000] } srcPairA (infoReads (slotOf s false)) [] = false) := by decide

theorem wit_VerifyAndCommitSets :
    (let s : State := { up with sets := slots .loaded }
     starts s 0x12 0 (pk [0]) = some s ∧ slotLocked s false = false ∧ (slotOf s false).st = .loaded
       ∧ (slotOf s false).verTok = none ∧ (slotOf s false).comTok = none
       ∧ starts s 0x13 0 (pk [0]) = some s ∧ (slotOf s false).st ≠ .verified
       ∧ starts s 0x12 0 (pk [1]) = some s ∧ (slotOf s true).st ≠ .loaded)
    ∧ (let s : State := { up with sets := slots .verified }
       starts s 0x13 0 (pk [0]) = some s ∧ (slotOf s false).st = .verified)
    ∧ (let s : State := { up with sets := slots .loaded { verTok := some 5 } }
       s.rst.pairA = false ∧ (slotOf s false).verTok = some 5 ∧ readsGood s srcPairA (objRegions (slotOf s false)) [] = true
         ∧ poolsFit s.cr.pools = true
         ∧ (∀ j < 0, sigRow s j (objBytes s (slotOf s false) j) = 0) ∧ sigRow s 0 (objBytes s (slotOf s false) 0) ≠ 0)
    ∧ (let s : State := { up with sets := slots .verified { comTok := some 5 } }
       s.rst.pairA = false ∧ (slotOf s false).comTok = some 5 ∧ readsGood s srcPairA (objRegions (slotOf s false)) [] = true
         ∧ poolsFit s.cr.pools = true
         ∧ (tideBad (parseTide (objBody s (slotOf s false) 0)) 0).isSome = true)
    ∧ (let s : State := { up with
         sets := slots .loaded { verTok := some 5, comTok := some 6, objs := [⟨2, 0x10_0000_0000, 96⟩] }
         poison := [0x10_0000_0040] }
       s.rst.pairA = false ∧ readsGood s srcPairA (objRegions (slotOf s false)) [] = false ∧ (slotOf s false).verTok.isSome = true
         ∧ (slotOf s false).comTok.isSome = true)
    ∧ ({ up with rst := { pairA := true } } : State).rst.pairA = true := by decide

/-- The lists that a plan names, whatever they are, come good where nothing is poisoned. -/
theorem wit_VerifyAndCommitSets_lists (p : Plan) :
    let s : State := { up with sets := slots .verified { comTok := some 5 } }
    readsGood (readAll s srcPairA (objRegions (slotOf s false)) []) srcPairA (planLists p) [] = true :=
  Laws.readsGood_clean _ _ (Laws.readAll_clean _ _ ⟨rfl, rfl⟩)

/-- Signatures and the container of a plan are free (log entry 7): a slot without failing objects exists if the free
constants accept some bytes. A tide table that fails makes the whole set fail. -/
theorem wit_VerifyAndCommitSets_bad (s : State) (t : TideTable) (p : Plan) (c : SensorCfg) (g : Program)
    (f : Status × Nat × Nat × Nat) (h : tideBad t p.streams.length = some f) : setBad s t p c g = some f := by
  simp [setBad, List.findSome?, h]

theorem wit_RunStartsStopsAndRearms :
    (let s := inRun .idle
     let ps : List Word := [0, 65535, 999999999, 7]
     starts s 0x20 0 (pk ps) = some s ∧ (wd ps 1).toNat < 65536 ∧ (wd ps 2).toNat < 1000000000 ∧ s.sch.run = .idle
       ∧ hasActive s = true ∧ s.saf.injFail = false ∧ anyFA s = false
       ∧ now s + 1000000 ≤ ((wd ps 0).toNat + (wd ps 1).toNat * 2 ^ 32) * 1000000000 + (wd ps 2).toNat
       ∧ starts s 0x20 0 (pk [0, 0, 999999, 7]) = some s ∧ 999999 < now s + 1000000 ∧ now s + 1000000 ≤ 1000000
       ∧ s.eng[25]? = some ({} : Engine) ∧ starts s 0x20 1 (pk []) = some s)
    ∧ (let s := inRun .running
       starts s 0x20 0 (pk (zs 4)) = some s ∧ s.sch.run ≠ .idle
         ∧ starts s 0x20 1 (pk [] .H) = some s ∧ (pk [] .H).port ≠ .S)
    ∧ (let s : State := { inRun .running with saf := { injDone := true, trust := .trusted } }
       starts s 0x20 1 (pk [] .S) = some s ∧ s.sch.run = .running ∧ s.saf.trust = .trusted)
    ∧ (let s : State := { inRun .armed with sets := { slots .committed with swapPending := true } }
       starts s 0x20 1 (pk []) = some s ∧ s.sch.run = .armed ∧ s.sets.swapPending = true)
    ∧ (let s : State := { inRun .running with saf := { injDone := true, trust := .withdrawn } }
       starts s 0x20 4 (pk []) = some s ∧ s.saf.trust = .withdrawn ∧ anyFA s = false ∧ s.sch.portSStop = false)
    ∧ (let s : State := { inRun .running with
         saf := { injDone := true, trust := .withdrawn }, sec := { dUnlock := true } }
       starts s 0x20 4 (pk [] .D) = some s ∧ (pk [] .D).port ≠ .H) := by decide

theorem wit_RunBarriers :
    (let s := grp .idle
     starts s 0x20 2 (pk [65535, 9, 1000000]) = some s ∧ (wd (pk [65535, 9, 1000000]).params 0).toNat < 65536
       ∧ 1000000 ≤ (wd (pk [65535, 9, 1000000]).params 2).toNat ∧ s.sch.run = .idle ∧ hasActive s = true
       ∧ s.saf.injFail = false ∧ anyFA s = false ∧ formed s = true ∧ leaderOf s false ≠ s.map.nodeId)
    ∧ (let s := grp .idle 1
       starts s 0x20 2 (pk [65535, 9, 1000000]) = some s ∧ formed s = true ∧ leaderOf s false = s.map.nodeId
         ∧ (groupOf s).any (fun n => n != s.map.nodeId
             && !s.map.early.any (fun x => x.1 == 65535 && x.2.1 == false && x.2.2.1 == n)) = true)
    ∧ (let s : State := { grp .idle with map := { nodeId := 2, valid := true } }
       starts s 0x20 2 (pk [1, 9, 1000000]) = some s ∧ s.sch.run = .idle ∧ hasActive s = true ∧ formed s = false)
    ∧ (let s : State := { grp .running with map := { nodeId := 2, valid := true } }
       starts s 0x20 3 (pk [65535, 1000000]) = some s ∧ s.sch.run = .running ∧ formed s = false)
    ∧ (let s := grp .idle
       starts s 0x20 3 (pk [65535, 1000000]) = some s ∧ s.sch.run = .idle ∧ hasActive s = true ∧ s.saf.injFail = false
         ∧ anyFA s = false ∧ formed s = true ∧ leaderOf s true [] ≠ s.map.nodeId)
    ∧ (let s := grp .running
       starts s 0x20 3 (pk [65535, 1000000]) = some s ∧ s.sch.run = .running ∧ formed s = true
         ∧ leaderOf s true [] ≠ s.map.nodeId ∧ starts s 0x20 2 (pk [1, 9, 1000000]) = some s ∧ s.sch.run ≠ .idle)
    ∧ (let s := grp .halted
       starts s 0x20 3 (pk [0, 1000000]) = some s ∧ s.sch.run = .halted) := by decide

theorem wit_FramesAndWatchdog :
    (inRun .armed).sch.run = .armed
    ∧ (let s : State := { inRun .running with sch := { run := .running, phase := .slack } }
       s.sch.run = .running ∧ s.sch.phase = .slack ∧ s.sch.stopReq = false)
    ∧ (let s : State := { inRun .running with sch := { run := .running, phase := .slack, stopReq := true } }
       s.sch.run = .running ∧ s.sch.phase = .slack ∧ s.sch.stopReq = true)
    ∧ ((inRun .running).sch.run = .running ∧ (inRun .running).sch.phase = .compute)
    ∧ (up.sch.run ≠ .armed ∧ up.sch.run ≠ .running)
    ∧ (let s : State := { inRun .running with
         hl := { written := false }, saf := { injDone := true, trust := .trusted } }
       s.hl.written = false ∧ s.saf.trust = .trusted)
    ∧ ((inRun .armed).fc.fsw.getLsbD 106 = false ∧ up.sch.run = .idle) := by decide

theorem wit_RunAndAbortJob_noLayers : meLayers {} = [] :=
  List.filter_eq_nil_iff.mpr (fun _ _ h => by cases h)

theorem wit_RunAndAbortJob_noFallback (js : List (List Nat)) (c : SensorCfg) :
    fbBad (PlanCtx.mk up {} false [] js c) = none := by
  unfold fbBad
  simp only [wit_RunAndAbortJob_noLayers]
  rfl

/-- An image without descriptors passes the checks. -/
theorem wit_RunAndAbortJob_image : imageBad up {} = none := by
  unfold imageBad planBad
  rw [wit_RunAndAbortJob_noFallback]
  rfl

/-- The container of an image is free (log entry 7): which of the clauses on its checks applies is not fixed; each of
their conclusions has a plan that meets it. -/
theorem wit_RunAndAbortJob :
    (let s := up
     let ps : List Word := [0xFFE, 0x3FF_FFFF, 100, 1, 0, 0x10, 64]
     starts s 0x21 1 (pk ps) = some s ∧ wd ps 0 = BitVec.ofNat 32 0xFFE ∧ (wd ps 1).toNat < 2 ^ 26 ∧ wd ps 3 ≠ 0
       ∧ (wd ps 5).toNat < 65536 ∧ s.sch.run ≠ .halted ∧ anyFA s = false ∧ replaying s = false
       ∧ inDram s 0x10_0000_0000 64 = true ∧ readsGood s srcPairA [(0x10_0000_0000, 64)] [] = true
       ∧ readsGood s srcPairA [(0x10_0000_0000, 64)] [(0x10_0000_0000, .linkFailed)] = false
       ∧ (s.jobs.filter (fun j => j.origin == .runJob)).length < 64
       ∧ imageBad s { resBytes := 1 } ≠ none
       ∧ starts s 0x21 0 (pk [0xFFF, 1, 100, 1, 0, 0x10, 64]) = some s)
    ∧ (let s : State := { up with sch := { run := .halted } }
       starts s 0x21 0 (pk [1, 1, 100, 1, 0, 0x10, 64]) = some s ∧ s.sch.run = .halted)
    ∧ (let s : State := { up with jobs := [{ job 9 [] with origin := .replay }] }
       starts s 0x21 0 (pk [1, 1, 100, 1, 0, 0x10, 64]) = some s ∧ replaying s = true)
    ∧ (let s : State := { up with jobs := List.replicate 64 (job 0x10_0001 []) }
       starts s 0x21 0 (pk [1, 1, 100, 1, 0, 0x10, 64]) = some s
         ∧ 64 ≤ (s.jobs.filter (fun j => j.origin == .runJob)).length
         ∧ starts s 0x22 0 (pk [0x10_0001]) = some s ∧ tideTok s 0x10_0001 = false ∧ 2 ^ 20 ≤ (0x10_0001 : Word).toNat
         ∧ jobOf s 0x10_0001 = some (job 0x10_0001 []) ∧ jobOf s 0x10_0002 = none ∧ inputStalled s 27 = false
         ∧ starts s 0x22 0 (pk [0xF_FFFF]) = some s ∧ (0xF_FFFF : Word).toNat < 2 ^ 20)
    ∧ (let s : State := { up with cmd := { tokens := [⟨0x10_0002, .H, false, .aborted, [], 1⟩] } }
       starts s 0x22 0 (pk [0x10_0002]) = some s ∧ jobOf s 0x10_0002 = none
         ∧ s.cmd.tokens.find? (fun y => y.token == 0x10_0002) = some ⟨0x10_0002, .H, false, .aborted, [], 1⟩
         ∧ starts s 0x22 0 (pk [0x10_0003]) = some s
         ∧ s.cmd.tokens.find? (fun y => y.token == 0x10_0003) = none) := by decide

/-- The lists that an image names, whatever they are, come good where nothing is poisoned. -/
theorem wit_RunAndAbortJob_lists (p : Plan) :
    readsGood (readAll up srcPairA [(0x10_0000_0000, 64)] []) srcPairA (planLists p) [] = true :=
  Laws.readsGood_clean _ _ (Laws.readAll_clean _ _ ⟨rfl, rfl⟩)

/-- A CLK_ARR cycle after its abort a job's budget or its time-out may be due, both, or neither. -/
theorem wit_RunAndAbortJob_due :
    (let due (b x : Nat) : Bool × Bool :=
       let j : Job := { job 0x10_0001 [] with budget := b, timeoutAt := some x }
       let u := elapse { up with jobs := [j] } 1
       (!j.halted && decide (j.budget ≤ budgetUsed u j),
        match deadlineAt u j with | some x => decide (x / 4 ≤ now u / 4) | none => false)
     due 2 8 = (false, false) ∧ due 1 8 = (true, false) ∧ due 1 4 = (true, true) ∧ due 2 7 = (false, true))
    ∧ (let s : State := { up with jobs := [{ job 0x10_0001 [] with budget := 1 }] }
       starts s 0x22 0 (pk [0x10_0001]) = some s ∧ tideTok s 0x10_0001 = false ∧ inputStalled s 26 = false) := by decide

theorem wit_JobsStartAndEndByTime :
    (let s := frame1 {}
     s.sch.run = .running ∧ s.sch.phase = .compute ∧ s.sch.tt[0]? = some ({} : TtStat)
       ∧ teSClass ((tide s).entries.getD 0 []) = true ∧ teRsv ((tide s).entries.getD 0 []) ≠ 0
       ∧ teMode ((tide s).entries.getD 0 []) = 0)
    ∧ (up.sch.run ≠ .running)
    ∧ (let s := frame1 { token := some 0x10_0001 } [{ job 0x10_0001 [] with origin := .tide }]
       jobOf s 0x10_0001 = some { job 0x10_0001 [] with origin := .tide } ∧ (job 0x10_0001 []).halted = false
         ∧ (job 0x10_0001 []).startClk + (job 0x10_0001 []).paused ≤ s.clk ∧ inputStalled s 26 = false
         ∧ s.sch.run = .running ∧ s.sch.tt[0]? = some { token := some 0x10_0001 } ∧ (job 0x10_0001 []).jobId = 0
         ∧ s.sch.t + teDeadline ((tide s).entries.getD 0 []) < 2 ^ 48 * 1000000000)
    ∧ (let j : Job := { job 0x10_0001 [] with budget := 5, timeoutAt := some 0 }
       let s : State := { up with jobs := [j] }
       jobOf s 0x10_0001 = some j ∧ deadlineAt s j = some 0 ∧ 0 ≤ now s
         ∧ now (elapse s (j.budget - budgetUsed s j)) = now s + 4 * (j.budget - budgetUsed s j))
    ∧ (let s : State := { inRun .running { tide := { hdr := [0x0001_0000, 100000, 50000, 60000]
                                                     entries := [[0x0010_0400, 1, 3, 0, 0, 100]] } } with
         fc := { skid := [(26, crec .done), (26, crec .done)], cWr := 255, cRd := 0 } }
       inputStalled s 26 = true ∧ inputStalled { s with fc := { s.fc with cRd := 1 } } 26 = false)
    ∧ (let s := frame1 {} [{ job 0x10_0001 [] with jobId := 7 }]
       s.sch.run = .running ∧ s.sch.tt[0]? = some ({} : TtStat) ∧ inputStalled s 26 = false ∧ ∀ j ∈ s.jobs, j.jobId ≠ 0)
    ∧ (let s : State := { up with jobs := [job 7 []] }
       jobOf s 7 = some (job 7 []) ∧ (job 7 []).timeoutAt = some 50 ∧ (job 7 []).origin ≠ .tide) := by decide

/-- At the instant of its start the entry of that frame is the first to start; with an invalid input it is skipped. -/
theorem wit_JobsStartAndEndByTime_start :
    (let s := frame1 {}
     canStart s 0 = true ∧ firstToStart s 0 = true ∧ entrySkipped s 0 = false
       ∧ readsGood s srcPairA (entryLists s 0) [] = true ∧ s.sch.t + teStart ((tide s).entries.getD 0 []) ≤ now s) := by decide

/-- A tile whose A has a row of 64 INT8 at address 0. -/
def reads0 : Item := item .me .waiting (zs 9 ++ [0x1_0000, 0x1_0040, 0x1_0001])

theorem wit_Dispatch :
    (let s : State := { up with jobs := [job 5 [item .me .waiting]] }
     pickItem s 0 none = some (job 5 [item .me .waiting], 0) ∧ 0 < s.eng.length
       ∧ itemUndelivered s (job 5 []).plan (item .me .waiting) = false ∧ s.ms.xfers = [] ∧ poolsFit s.cr.pools = true)
    ∧ (let s : State := { up with jobs := [job 5 [item .me .waiting [0x20]]] }
       pickItem s 3 (some 15) = some (job 5 [item .me .waiting [0x20]], 0) ∧ 15 < s.eng.length ∧ (15 : Nat) ≠ 3)
    ∧ (let s : State := { inRun .running { sensor := { streams := [[0x40, 0, 0, 0, 0, 0, 64]] } } with
         jobs := [job 5 [reads0]] }
       pickItem s 0 none = some (job 5 [reads0], 0) ∧ itemUndelivered s (job 5 []).plan reads0 = true
         ∧ inputStalled s 26 = false) := by decide

theorem wit_TilesHoldsAndFallbacks :
    (let s := running 15 (att (stopping := true)) [item .me .running]
     endingAttempt s 15 = some (att (stopping := true)) ∧ (att (stopping := true)).stopping = true
       ∧ (engOf s 15).drn = none ∧ (att (stopping := true)).done = none ∧ (engOf s 15).kat = none)
    ∧ (let s0 := running 15 att [item .me .running]
       let s : State := { s0 with
         eng := modAt s0.eng 15 (fun x => { x with arr := none, drn := some (att (stopping := true)) })
         fc := { hJobs := [job 5 [item .me .running]] } }
       endingAttempt s 15 = some (att (stopping := true)) ∧ (engOf s 15).drn.isSome = true
         ∧ s.fc.hJobs.findSome? (fun k => if k.token == (att (stopping := true)).token then k.items[0]? else none)
             = some (item .me .running)
         ∧ pastArray s 15 (att (stopping := true)) (item .me .running) = true ∧ (att (stopping := true)).poison = false
         ∧ bufferBad (att (stopping := true)) [] = false)
    ∧ (let a (n : Nat) : Attempt := { att (stopping := true) with stopClk := n }
       let s := running 15 (a 24) [item .me .running]
       tileCycles (item .me .running).ds - (mdM (a 24).desc + 16) = 24 ∧ pastArray s 15 (a 24) (item .me .running) = true
         ∧ pastArray s 15 (a 23) (item .me .running) = false)
    ∧ (let s := running 0 att [item .me .running]
       endingAttempt s 0 = some att ∧ operandsOut s 0 = false ∧ jobOf s 5 = some (job 5 [item .me .running])
         ∧ (job 5 [item .me .running]).items[0]? = some (item .me .running) ∧ att.poison = false ∧ att.stopping = false
         ∧ bufferBad att [] = false ∧ basinBad att [] = false ∧ bufferBad att [.buffer 0 true] = false
         ∧ inputStalled s 0 = false)
    ∧ (let a : Attempt := { att with data := [⟨0, [0], false, 0⟩], basin := { (default : Basin) with m := 2 } }
       let s := running 0 a [item .me .running]
       endingAttempt s 0 = some a ∧ bufferBad a [.buffer 0 true] = true ∧ bufferBad a [.buffer 1 true, .buffer 0 false] = false
         ∧ basinBad a [.basin 1 true] = true ∧ basinBad a [.basin 2 true, .basin 1 false] = false
         ∧ jobOf s 5 = some (job 5 [item .me .running]))
    ∧ (let s := running 0 (att (poison := true)) [item .me .running]
       endingAttempt s 0 = some (att (poison := true)) ∧ (att (poison := true)).poison = true
         ∧ (item .me .running).desc.kind = .me)
    ∧ (let x : Xfer := { id := 1, unit := 3, prio := 2, use := .operand 5 0, src := 0x0400_0000, dst := 0, len := 64, held := true }
       let s : State := { up with ms := { xfers := [x] } }
       (engOf s 3).arr = none ∧ isLedge x.src = true ∧ s.ms.shiftOn = false ∧ s.ms.shiftQ = [] ∧ s.ms.resLoaded = false)
    ∧ (let a : Attempt := { att (hold := true) with todo := [{ seq := 0, ent := 0 }] }
       let s : State := { running 20 a [item .ae .running] with mem := [(0, 3)] }
       (engOf s 20).arr = some a ∧ entState (kvEnt s (kvHdr s 0) 0) = 3 ∧ a.stopping = false ∧ a.hold = true
         ∧ entState (kvEnt { s with mem := [(0, 2)] } (kvHdr s 0) 0) ≠ 3)
    ∧ ((engOf (running 3 att []) 3).arr = some att ∧ att.hold = false)
    ∧ (let l : LayerCnt := { (default : LayerCnt) with count := 1 }
       let j : Job := { job 5 [item .me .stood] with layers := [l] }
       let s : State := { up with jobs := [j] }
       jobOf s 5 = some j ∧ decisionDue j (0 : BitVec 16).toNat = true
         ∧ readsGood s srcPairA (fallLists s j (0 : BitVec 16).toNat) [] = true
         ∧ j.layers.find? (fun l => l.layer == (0 : BitVec 16).toNat) = some l
         ∧ mdThresh (((j.items.filter (fun i => itemFb i && i.desc.layer == 0)).headD default).desc) < l.count
         ∧ ∀ x ∈ s.jobs, x.token ≠ 0)
    ∧ (let j : Job := { job 5 [item .me .stood] with
         layers := [{ (default : LayerCnt) with count := 1 }], plan := { fbs := [[0, 1, 0, 0x10, 0, 0, 0x10]] } }
       let s : State := { up with jobs := [j], poison := [0x10_0000_0040] }
       decisionDue j (0 : BitVec 16).toNat = true ∧ readsGood s srcPairA (fallLists s j (0 : BitVec 16).toNat) [] = false) := by
  decide

theorem wit_TasksEnd :
    (let s := running 25 (att (stopping := true)) [item .sort .running]
     (engOf s 25).arr = some (att (stopping := true)) ∧ (engOf s 25).kat = none)
    ∧ (let x : Xfer := { id := 1, unit := 16, prio := 0, use := .operand 5 0, src := 0, dst := 0, len := 64 }
       let s : State := { running 16 att [item .ve .running] with ms := { xfers := [x] } }
       (engOf s 16).arr = some att ∧ att.stopping = false ∧ operandsOut s 16 = true)
    ∧ (let s := running 16 att [item .ve .running]
       (engOf s 16).arr = some att ∧ att.hold = false ∧ att.done = none ∧ operandsOut s 16 = false
         ∧ jobOf s 5 = some (job 5 [item .ve .running]) ∧ (job 5 [item .ve .running]).items[0]? = some (item .ve .running)
         ∧ att.poison = false ∧ bufferBad att [] = false ∧ inputStalled s 16 = false ∧ bufferBad { att with data := [⟨0, [0], false, 0⟩] } [.buffer 0 true] = true)
    ∧ (let s := running 24 (att (poison := true)) [item .pcl .running]
       (engOf s 24).arr = some (att (poison := true)) ∧ (att (poison := true)).poison = true ∧ operandsOut s 24 = false
         ∧ jobOf s 5 = some (job 5 [item .pcl .running]))
    ∧ (let s := running 21 att [item .ae .running]
       (engOf s 21).arr = some att ∧ operandsOut s 21 = false ∧ walkOver s 21 att = true ∧ bufferBad att [] = false
         ∧ adOp (item .ae .running).desc ≠ 5
         ∧ (attRun (viewOf (noteErrs (elapse s 10) 21 att []) att.data) (item .ae .running).desc att.version).stale = false)
    ∧ (let s := running 21 (att (poison := true)) [item .ae .running]
       (engOf s 21).arr = some (att (poison := true)) ∧ (att (poison := true)).stopping = false)
    ∧ (let i := item .ae .running [5]
       let s : State := { running 21 att [i] with mem := mapped.mem }
       let s1 := noteErrs (elapse s 10) 21 att []
       adOp i.desc = 5 ∧ s.rst.pairA = false ∧ (doAppend s1 i.desc false (eccFor [])).isSome = true
         ∧ kvDirty (kvRead s1 [adSeq i.desc] []) [adSeq i.desc] = false ∧ walkOver s 21 att = true)
    ∧ (let i := item .ae .running [3, 0, 0, 0, 0, 0, 1]
       let s0 := storeWords mapped (hdrAddr 0 + 28) [1]
       let s : State := { running 21 att [i] with mem := s0.mem }
       adOp i.desc ≠ 5 ∧ inputStalled s 26 = false
         ∧ (attRun (viewOf (noteErrs (elapse s 10) 21 att []) att.data) i.desc att.version).stale = true)
    ∧ (let s : State := { running 20 att [item .ae .running] with kv := { walks := [⟨0, false, 20, false⟩] } }
       walkOver s 20 att = false) := by decide

theorem wit_CompletionRing :
    (let s : State := { up with fc := { skid := [(3, crec .done)], cWr := 255, cRd := 0 } }
     s.fc.skid.find? (fun y => y.1 == 3) = some (3, crec .done) ∧ ringFull s = true ∧ s.fc.cRd ≠ s.fc.cWr
       ∧ s.rst.pairA = false)
    ∧ (let s : State := { up with fc := { skid := [(3, crec .aborted)], cWr := 255, cRd := 1 }, rst := { liveToks := [5] } }
       s.fc.skid.find? (fun y => y.1 == 3) = some (3, crec .aborted) ∧ ringFull s = false
         ∧ (crec .aborted).outcome ≠ .skippedNoStart ∧ (crec .aborted).outcome ≠ .skippedUpstream
         ∧ s.rst.liveToks.contains (crec .aborted).token = true)
    ∧ (let s : State := { up with fc := { skid := [(29, crec .done)] } }
       ringFull s = false ∧ s.rst.liveToks.contains (crec .done).token = false ∧ s.fc.cRd = s.fc.cWr)
    ∧ (let s : State := { up with fc := { cRd := 255, cWr := 0 } }
       s.rst.pairA = false ∧ s.fc.cRd ≠ s.fc.cWr ∧ calm s = true ∧ poolsFit s.cr.pools = true
         ∧ readsGood s srcPairA [(0x083F_8000 + 16 * s.fc.cRd, 16)] [] = true
         ∧ readsGood s srcPairA [(0x083F_8000 + 16 * s.fc.cRd, 16)] [(0x083F_8FFF, .uncorrectable)] = false) := by decide

theorem wit_KvCommands :
    (starts up 0x30 0 (pk hdr0) = some up ∧ kvBadWord hdr0 = none ∧ kvMapped (kvHdr up 0) = false
      ∧ kvBadMap up hdr0 = none ∧ findRun up (kvE hdr0) = some 0x0820_1000 ∧ up.csramBad = [])
    ∧ (let s : State := { up with csramBad := [hdrAddr 63 + 63] }
       starts s 0x31 0 (pk [63]) = some s ∧ ∃ b ∈ s.csramBad, hdrAddr 63 ≤ b ∧ b < hdrAddr 63 + 64)
    ∧ (let ecc : List (Nat × Ecc) := [(hdrAddr 63, .uncorrectable)]
       starts up 0x31 0 (pk [63]) = some up
         ∧ ∃ x ∈ ecc, x.2 = .uncorrectable ∧ hdrAddr 63 ≤ x.1 ∧ x.1 < hdrAddr 63 + 64)
    ∧ (starts up 0x30 0 (pk (0x42C040 :: hdr0.drop 1)) = some up ∧ kvBadWord (0x42C040 :: hdr0.drop 1) ≠ none)
    ∧ (let s := mapped
       starts s 0x30 0 (pk hdr0) = some s ∧ kvMapped (kvHdr s 0) = true ∧ kvLocked (kvHdr s 0) = false
         ∧ starts s 0x31 0 (pk [0]) = some s ∧ s.kv.spills = [] ∧ s.kv.fetches = [] ∧ starts s 0x31 0 (pk [63]) = some s
         ∧ kvMapped (kvHdr s 63) = false)
    ∧ (let s := mapped 0x110
       starts s 0x31 0 (pk [0]) = some s ∧ kvMapped (kvHdr s 0) = true ∧ kvLocked (kvHdr s 0) = true
         ∧ starts s 0x32 0 (pk [0, 1, 0]) = some s ∧ editBadWord [1, 0] 3 = none)
    ∧ (let s := mapped
       (editAll 0 [1, 0x0001_0000] 3 s).toOption.isSome = true ∧ editAll 0 [4, 0, 5, 0] 3 s = .error 6)
    ∧ (starts fullKv 0x30 0 (pk (hdrBig 0x20_0000)) = some fullKv ∧ kvBadWord (hdrBig 0x20_0000) = none
      ∧ kvMapped (kvHdr fullKv 0) = false ∧ kvBadMap fullKv (hdrBig 0x20_0000) = none
      ∧ findRun fullKv (kvE (hdrBig 0x20_0000)) = none) := by decide

theorem wit_WalksAndPages :
    (let s : State := { running 20 att [item .ae .running [2]] with kv := { walks := [⟨63, false, 20, false⟩] } }
     grantable s 63 = some ⟨63, false, 20, false⟩ ∧ (engOf s 20).arr = some att ∧ jobOf s 5 = some (job 5 [item .ae .running [2]])
       ∧ s.kv.walks.findIdx? (fun x => x.seqId == 63 && !x.granted) = some 0 ∧ s.rst.pairA = false ∧ s.csramBad = [])
    ∧ (let s : State := { running 20 att [item .ae .running [1]] with kv := { walks := [⟨63, false, 20, false⟩] } }
       grantable s 63 = some ⟨63, false, 20, false⟩ ∧ attBad s (item .ae .running [1]).desc = true ∧ inputStalled s 26 = false)
    ∧ (let s : State := { running 20 att [item .ae .running [6]] with kv := { walks := [⟨63, false, 20, false⟩] } }
       grantable s 63 = some ⟨63, false, 20, false⟩ ∧ attBad s (item .ae .running [6]).desc = false)
    ∧ (let s : State := { mapped 0 [3, 0] with kv := { fetches := [(0, 0)] } }
       (0, 0) ∈ s.kv.fetches ∧ entState (kvEnt s (kvHdr s 0) 0) = 3 ∧ (0, 0) ∉ s.kv.spills)
    ∧ (let s : State := { mapped 0 [1, 0] with kv := { spills := [(0, 0)] } }
       (0, 0) ∈ s.kv.spills ∧ entState (kvEnt s (kvHdr s 0) 0) = 1 ∧ entPinned (kvEnt s (kvHdr s 0) 0) = false
         ∧ (0, 0) ∉ s.kv.fetches ∧ (0, 0) ∉ s.kv.kept)
    ∧ (let s : State := { mapped 0 [1, 0] with kv := { spills := [(0, 0)], kept := [(0, 0)] } }
       (0, 0) ∈ s.kv.kept ∧ entState (kvEnt s (kvHdr s 0) 0) = 1 ∧ s.csramBad = [] ∧ s.rst.pairA = false)
    ∧ (let s : State := { mapped 0 [5, 0] with kv := { spills := [(0, 0)] } }
       entState (kvEnt s (kvHdr s 0) 0) = 1 ∧ entPinned (kvEnt s (kvHdr s 0) 0) = true) := by decide

/-- A transfer of a task's output by engine 3. -/
def outX : Xfer := { id := 9, unit := 3, prio := 2, use := .output 7 0, src := 0, dst := 64, len := 64 }

theorem wit_FabricCreditsAndEpochs :
    (let s : State := { up with ms := { nextReq := 5, reqs := [req (.ingress 63 0)] } }
     reqOf s 4 = some (req (.ingress 63 0)) ∧ 4 < s.ms.nextReq ∧ (req (.ingress 63 0)).purpose = .ingress 63 0
       ∧ reqOf s 5 = none)
    ∧ (let s : State := { up with cr := { timedOut := [req (.xfer 7 0)] } }
       reqOf s 4 = none ∧ ∃ r ∈ s.cr.timedOut, r.id = 4)
    ∧ (let s : State := { up with cr := { reclaimed := [req (.xfer 7 0)] } }
       reqOf s 4 = none ∧ (∀ r ∈ s.cr.timedOut, r.id ≠ 4) ∧ (∃ r ∈ s.cr.reclaimed, r.id = 4)
         ∧ (∀ r ∈ s.cr.reclaimed, r.id ≠ 5) ∧ reqOf s 5 = none)
    ∧ (let r : Req := { req (.xfer 9 0) with write := true }
       let s : State := { up with ms := { reqs := [r], xfers := [outX] }, jobs := [job 7 []] }
       reqOf s 4 = some r ∧ r.purpose = .xfer 9 0 ∧ r.write = true ∧ xferOf s 9 = some outX ∧ inputStalled s outX.unit = false)
    ∧ (let s : State := { camRun 0x40 { cur := some (sfr 1 0) } with ms := { reqs := [req (.ingress 0 0)] } }
       reqOf s 4 = some (req (.ingress 0 0)) ∧ (streamOf s 0).cur = some (sfr 1 0) ∧ (sfr 1 0).seq = 0)
    ∧ (let s : State := { up with
         cr := { pools := [⟨7, .dram, 0, 3, 3, 0, 0⟩] }, ms := { epoch := true, reqs := [req (.xfer 7 0)] } }
       s.cr.pools[0]? = some ⟨7, .dram, 0, 3, 3, 0, 0⟩
         ∧ ∃ r ∈ s.ms.reqs, r.src = 7 ∧ r.kind = .dram ∧ r.idx = 0 ∧ r.epoch ≠ s.ms.epoch)
    ∧ (let s : State := { up with
         cr := { pools := [⟨0, .ring, 15, 3, 3, 0, 0⟩, ⟨3, .stream, 3, 1, 0, 0, 0⟩] }
         ms := { epoch := true, reqs := [{ req (.xfer 9 0) with links := [15] }], xfers := [{ outX with begun := true }] } }
       s.cr.pools[0]? = some ⟨0, .ring, 15, 3, 3, 0, 0⟩ ∧ s.cr.pools[1]? = some ⟨3, .stream, 3, 1, 0, 0, 0⟩
         ∧ (∃ r ∈ s.ms.reqs, 15 ∈ r.links ∧ r.epoch ≠ s.ms.epoch)
         ∧ ∃ x ∈ s.ms.xfers, x.begun = true ∧ x.unit = 3 ∧ x.epoch ≠ s.ms.epoch)
    ∧ (let s : State := { up with cr := { pools := [⟨7, .dram, 0, 3, 3, 5, 4⟩, ⟨7, .ring, 0, 3, 2, 5, 5⟩] }, ms := { epoch := true } }
       s.ms.epoch = true ∧ s.cr.pools[0]? = some ⟨7, .dram, 0, 3, 3, 5, 4⟩ ∧ s.cr.pools[1]? = some ⟨7, .ring, 0, 3, 2, 5, 5⟩
         ∧ poolOld s ⟨7, .dram, 0, 3, 3, 5, 4⟩ = false ∧ poolOld s ⟨7, .ring, 0, 3, 2, 5, 5⟩ = false ∧ 3 ≠ 2)
    ∧ (let s : State := { up with cr := { pools := [⟨7, .dram, 0, 3, 2, 5, 5⟩, ⟨7, .stream, 0, 3, 2, 5, 4⟩] } }
       s.ms.epoch = false ∧ s.cr.pools[0]? = some ⟨7, .dram, 0, 3, 2, 5, 5⟩ ∧ s.cr.pools[1]? = some ⟨7, .stream, 0, 3, 2, 5, 4⟩
         ∧ poolOld s ⟨7, .dram, 0, 3, 2, 5, 5⟩ = false ∧ poolOld s ⟨7, .stream, 0, 3, 2, 5, 4⟩ = false) := by decide

theorem wit_ScrubAndDrift :
    (starts up 0x50 0 (pk [0x03FF_FFC0, 0, 1]) = some up ∧ inOneStore up 0x03FF_FFC0 (64 * 1) = true
      ∧ up.ms.scrubs.length < 4 ∧ 0x03FF_FFC0 % 64 = 0 ∧ inOneStore up 0x03FF_FFC0 (64 * 2) = false
      ∧ starts up 0x50 0 (pk [0x03FF_FFC1, 0, 1]) = some up ∧ (0x03FF_FFC1 : Word).toNat % 64 ≠ 0
      ∧ starts up 0x50 0 (pk [0x03FF_FFC0, 65536, 1]) = some up ∧ 65536 ≤ (65536 : Word).toNat
      ∧ starts up 0x50 0 (pk [0x03FF_FFC0, 65535, 0]) = some up ∧ (65535 : Word).toNat < 65536)
    ∧ (let s : State := { up with ms := { scrubs := [scr 0 true, scr 0 false, scr 0 false, scr 0 false] } }
       starts s 0x50 0 (pk [0, 0, 1]) = some s ∧ 4 ≤ s.ms.scrubs.length ∧ (scr 0 true).done + 1 < (scr 0 true).units
         ∧ (scr 0 true).running = true ∧ halted s = false ∧ ((scr 0 true).addr + 64 * 0) % 64 = 0
         ∧ inDram s ((scr 0 true).addr + 64 * 0) 64 = true ∧ s.poison = [])
    ∧ (up.ms.scrubs = [] ∧ halted ({ up with pins := { clocksOff := true } } : State) = true ∧ (scr 0 false).running = false)
    ∧ (let s : State := { up with ms := { scrubs := [scr 1 false] } }
       scrubMay s (scr 1 false) = true ∧ (scr 1 true).units ≤ (scr 1 true).done + 1)
    ∧ (let s : State := { inRun .running with ms := { scrubs := [scr 1 false] } }
       scrubMay s (scr 1 false) = false)
    ∧ (let s : State := { up with ms := { shiftQ := [3, 1] } }
       s.ms.shiftQ ≠ [] ∧ s.ms.shiftOn = false ∧ (∀ r ∈ s.ms.reqs, r.kind = .ledge → r.write = true))
    ∧ (up.ms.shiftQ = [] ∧ ({ up with ms := { shiftQ := [1] } } : State).ms.shiftOn = false)
    ∧ (let s : State := { up with ms := { reqs := [{ req (.xfer 7 0) with kind := .ledge, write := false }] } }
       ∃ r ∈ s.ms.reqs, r.kind = .ledge ∧ r.write = false)
    ∧ (let s : State := { up with ms := { shiftQ := [15], shiftOn := true, phase := 15 } }
       s.ms.shiftQ = [15] ∧ s.ms.shiftOn = true ∧ s.jobs = [] ∧ s.ms.xfers = [])
    ∧ (let s := inRun .idle { plan := { resAddr := 0x10_0000_0000, resBytes := 0x20_0000 } }
       s.ms.resLoaded = false ∧ s.sets.swapPending = false ∧ hasActive s = true ∧ s.jobs = [] ∧ s.ms.xfers = []
         ∧ poolsFit s.cr.pools = true
         ∧ s.mem.wf = true ∧ (activeSet s).plan.resBytes ≤ 0x20_0000
         ∧ inDram s (activeSet s).plan.resAddr (16 * (activeSet s).plan.resBytes) = true) := by decide

theorem wit_HostMemoryAccesses :
    (let s : State := { up with warm := true }
     hostUp s = true ∧ memServed s = false ∧ [(0 : Byte)] ≠ [])
    ∧ (memServed up = true ∧ poolsFit up.cr.pools = true ∧ .timedOut ∉ [Ecc.asStored, .corrected]
      ∧ (∀ x ∈ [Ecc.asStored, .corrected], x = .asStored ∨ x = .corrected)
      ∧ 0x3FF_FFE0 + 32 ≤ 0x400_0000 ∧ 0x3FF_FFE0 ∈ ({ up with poison := [0x3FF_FFE0] } : State).poison ∧ 0x3FF_FFE0 % 32 = 0 ∧ 0x3FF_FFE0 + (List.replicate 32 (1 : Byte)).length ≤ 0x400_0000
      ∧ (List.replicate 32 (1 : Byte)).length % 32 = 0 ∧ List.replicate 32 (1 : Byte) ≠ [] ∧ up.mem.wf = true
      ∧ (∀ u ∈ ({ up with poison := [0x3FF_FFE0] } : State).poison, u % 32 = 0))
    ∧ (let s : State := { up with sch := { run := .armed } }
       memServed s = true ∧ s.sch.run ≠ .idle ∧ 0x5FF_FFFC + 4 ≤ 0x600_0000)
    ∧ (0x63F_0000 ≤ 0x63F_8FFC ∧ 0x63F_8FFC + 4 ≤ 0x63F_9000)
    ∧ (up.pcie.apBase + 64 = 0x10_0000_0040 ∧ 0x10_0000_0040 % 64 = 0 ∧ inDram up 0x10_0000_0040 64 = true
      ∧ hits (dramProtected up) 0x10_0000_0040 64 = false)
    ∧ (let s : State := { up with sec := { fwProt := [(0x10_0000_0000, 64)] } }
       memServed s = true ∧ inDram s 0x10_0000_0000 2 = true ∧ ∀ i < 2, hits (dramProtected s) (0x10_0000_0000 + i) 1 = true)
    ∧ (0x3FF_FFFC + 4 ≤ 0x400_0000 ∧ up.poison = [] ∧ up.csramBad = []) := by decide

theorem wit_ClearFaults :
    (starts up 0x52 0 (pk [0xFFFF_FFFF, 0xFFFF_FFFF, 0x0001_0000, 0x8000_0000]) = some up
      ∧ (((0x8000_0000 : Word) ++ (0x0001_0000 : Word) ++ (0 : Word) ++ (0 : Word) : BitVec 128) &&& maskReserved).extractLsb' 64 32 ≠ 0
      ∧ (((0x8000_0000 : Word) ++ (0x7FFF : Word) ++ (0 : Word) ++ (0 : Word) : BitVec 128) &&& maskReserved).extractLsb' 64 32 = 0
      ∧ (((0x8000_0000 : Word) ++ (0x7FFF : Word) ++ (0 : Word) ++ (0 : Word) : BitVec 128) &&& maskReserved).extractLsb' 96 32 ≠ 0)
    ∧ ((((0x0400_0000 : Word) ++ (0 : Word) ++ (0 : Word) ++ (0 : Word) : BitVec 128) &&& maskReserved) = 0
      ∧ (((0x0400_0000 : Word) ++ (0 : Word) ++ (0 : Word) ++ (0 : Word) : BitVec 128) &&& maskFA) ≠ 0)
    ∧ (starts up 0x52 0 (pk [0, 0, 0, 0x20] .S) = some up
      ∧ (((0x20 : Word) ++ (0 : Word) ++ (0 : Word) ++ (0 : Word) : BitVec 128) &&& maskReserved) = 0
      ∧ (((0x20 : Word) ++ (0 : Word) ++ (0 : Word) ++ (0 : Word) : BitVec 128) &&& ~~~maskPortS) ≠ 0
      ∧ (((0x20 : Word) ++ (0 : Word) ++ (0 : Word) ++ (0 : Word) : BitVec 128) &&& maskFA) = 0) := by decide

theorem wit_DomainResets :
    (starts up 0x60 0 (pk [28]) = some up ∧ (28 : Nat) ≠ 63 ∧ starts up 0x60 0 (pk [31]) = some up
      ∧ starts up 0x60 0 (pk [38]) = some up)
    ∧ (let s : State := { up with rst := { ladder := some (lad 27 1) } }
       starts s 0x60 0 (pk [37]) = some s ∧ s.pins.clocksOff = false ∧ s.rst.ladder.isSome = true
         ∧ s.rst.ladder = some (lad 27 1) ∧ s.rst.hangQ = [] ∧ (lad 27 1).step = 1 ∧ (lad 27 1).dom < 28
         ∧ (lad 27 1).token = some 3)
    ∧ (let s := running 25 att [item .sort .running]
       starts s 0x60 0 (pk [25]) = some s ∧ s.pins.clocksOff = false ∧ s.rst.ladder = none ∧ s.eng.length = 26
         ∧ s.sens.isp.length = 2 ∧ inputStalled s 29 = false ∧ (members 25).flatMap (domToks s) = [5])
    ∧ (members 37 = [22, 23, 24, 25, 26, 27] ∧ members 32 = [0, 1, 2, 3] ∧ members 27 = [27]
      ∧ (members 27).flatMap (domToks up) = [])
    ∧ (let s : State := { up with pins := { clocksOff := true } }
       s.pins.clocksOff = true ∧ (pk [63]).port = .H ∧ wd (pk [63]).params 0 = 63 ∧ ready s .H = true
         ∧ admission s 0x60 0 (pk [63]) = .run ∧ mustWait s .H = false)
    ∧ (let s : State := { up with rst := { ladder := some (lad 37 2) } }
       s.rst.ladder = some (lad 37 2) ∧ (lad 37 2).step = 2 ∧ s.boot = .firmware ∧ halted s = false ∧ s.sec.fuse = none)
    ∧ (starts up 0x60 0 (pk [25]) = some up ∧ up.rst.ladder = none ∧ up.sch.invalid = [] ∧ up.eng.length = 26 ∧ domToks up 25 = []
      ∧ ∀ r ∈ up.ms.reqs, r.src ≠ 25)
    ∧ (starts up 0x60 0 (pk [63]) = some up ∧ up.sec.fuse = none ∧ up.boot = .firmware ∧ up.pins.thermtrip = false) := by
  decide

theorem wit_HangsReplaysAndLockstep :
    (let s := running 25 att [item .sort .running]
     (engOf s 25).arr = some att ∧ att.stopping = false ∧ att.done = none ∧ s.rst.hangQ = [] ∧ att.t4 = false
       ∧ s.rst.ladder = none ∧ halted s = false ∧ inputStalled s 29 = false)
    ∧ (let a (n : Nat) : Attempt := { att (stopping := true) with stopClk := n }
       let s := running 25 (a 0) [item .sort .running]
       let m := hangLimit s (a 0) - 2500
       hangLimit s (a m) ≤ (a m).stopClk + 2500 ∧ ¬ hangLimit s (a (m - 1)) ≤ (a (m - 1)).stopClk + 2500)
    ∧ (halted ({ up with pins := { thermtrip := true } } : State) = true)
    ∧ (let s := running 0 (att (stopping := true)) [item .me .running]
       (engOf s 0).arr = some (att (stopping := true)) ∧ (engOf s 1).arr = none)
    ∧ (starts up 0x61 0 (pk [5, 26]) = some up)
    ∧ (let s := inRun .running
       starts s 0x61 0 (pk [5, 25]) = some s ∧ s.sch.run ≠ .idle)
    ∧ (let s : State := { up with rst := { ladder := some (lad 0 1) } }
       starts s 0x61 0 (pk [5, 25]) = some s ∧ s.rst.ladder.isSome = true)
    ∧ (let s : State := { up with fc := { hTok2 := 5, hJobs := [job 5 [item .sort .stood]] } }
       starts s 0x61 0 (pk [5, 25]) = some s ∧ s.sch.run = .idle ∧ anyFA s = false ∧ replaying s = false
         ∧ s.rst.ladder = none ∧ (5 : Word) ≠ 0 ∧ (5 : Word) ∈ [s.fc.hTok0, s.fc.hTok1, s.fc.hTok2]
         ∧ jobKept s 5 = some (job 5 [item .sort .stood]) ∧ (engOf s 25).quar = false
         ∧ (job 5 [item .sort .stood]).items.any (fun i => !i.prefetch && i.desc.kind == engKind 25) = true)
    ∧ (coresUp up = true ∧ halted up = false ∧ up.rst.pairA = false ∧ up.rst.pairB = false ∧ up.hl.stopped = false)
    ∧ ({ up with hl := { stopped := true } } : State).hl.stopped = true := by decide

theorem wit_WarmReset :
    (up.boot = .firmware ∧ up.pins.clocksOff = false ∧ up.pins.thermtrip = false ∧ up.sec.fuse = none
      ∧ up.eng[25]? = some ({} : Engine) ∧ up.warm = false)
    ∧ (let s : State := { up with warm := true }
       s.warm = true ∧ halted s = false ∧ s.boot ≠ .untrained ∧ s.boot ≠ .training ∧ s.boot ≠ .filling ∧ s.boot ≠ .noClock
         ∧ s.sec.fwRegion = none)
    ∧ (let s : State := { up with warm := true, sec := { fwRegion := some (0x10_0000_0000, 4096) } }
       s.sec.fwRegion = some (0x10_0000_0000, 4096) ∧ readsGood s srcPairA [(0x10_0000_0000, 4096)] [] = true)
    ∧ (halted ({ up with warm := true, pins := { clocksOff := true } } : State) = true)
    ∧ (({ boot := .filling, warm := true } : State).warm = true
      ∧ ({ boot := .training, warm := true } : State).boot = .training) := by decide

/-- An image that is intact and one that is not. -/
theorem wit_WarmReset_intact :
    fwIntact { up with sec := { fwRegion := some (0, 0), fwDigest := Config.sha384 [] } } = true
    ∧ fwIntact { up with sec := { fwRegion := some (0, 0), fwDigest := Config.sha384 [] + 1 } } = false := by
  constructor
  · exact beq_self_eq_true (Config.sha384 [])
  · exact beq_eq_false_iff_ne.mpr (Nat.ne_of_lt (Nat.lt_succ_self (Config.sha384 [])))

theorem wit_PowerUp : ({} : State).boot ≠ .off ∧ halted {} = false ∧ ({ sec := { lifecycle := .provisioned } } : State).sec.lifecycle ≠ .manufacture
    ∧ (({ boot := .off, sec := { lifecycle := .manufacture, uds := none } } : State).sec.uds = none)
    ∧ (({ boot := .off, sec := { lifecycle := .manufacture, uds := some 7 } } : State).sec.uds ≠ none) ∧ ({ boot := .off } : State).boot = .off
    ∧ ({ boot := .off } : State).sec.fuse = none ∧ (999 < 1000 ∧ 10000 ≤ 10000)
    ∧ (State.reset.boot = .held ∧ State.reset.pins.thermtrip = false) ∧ ({ boot := .training } : State).boot = .training
    ∧ ({ boot := .filling } : State).boot = .filling ∧ ({ boot := .injecting } : State).boot = .injecting
    ∧ ({ boot := .injecting } : State).eng[0]? = some ({} : Engine) := by decide

theorem wit_ElectricalAndPcie : up.boot ≠ .off ∧ Rail.io18 ≠ .other ∧ up.sec.fuse = none ∧ (105 : Int) ≤ 105
    ∧ (99 : Int) < 100 ∧ up.saf.injDone = true ∧ up.pcie.perst = false ∧ up.pins.thermtrip = false
    ∧ ({ up with pins := { thermtrip := true } } : State).pins.thermtrip = true ∧ State.reset.boot = .held
    ∧ (2 ^ 64 - 1 < 2 ^ 64 ∧ 2 ^ 32 - 1 < 2 ^ 32 ∧ 2 ≤ 2 ∧ 5 ≤ 5)
    ∧ ({ up with pcie := { perst := true } } : State).pcie.perst = true
    ∧ (let s : State := { up with pcie := { pba := 0x8000, msixEn := true, msix := List.replicate 16 { mask := false } } }
       s.pcie.pba.getLsbD 15 = true ∧ s.pcie.msixEn = true ∧ (s.pcie.msix.getD 15 {}).mask = false) := by decide

theorem wit_CameraFrames :
    (portRx up 0 = false)
    ∧ (let s := camRun 0x40 { cur := some (sfr 1 0) }
       portRx s 0 = true ∧ vcSlot s 0 0 = some 0 ∧ camStream s 0 0 = some 0 ∧ s.sch.run = .running
         ∧ underReplay s 0 = false ∧ 0 < s.sens.streams.length ∧ (streamOf s 0).cur = some (sfr 1 0))
    ∧ (let s := camRun 0x40 { delivered := some 0 }
       (streamOf s 0).cur = none ∧ (streamOf s 0).delivered ≠ none)
    ∧ (let s := camRun
       (streamOf s 0).cur = none ∧ s.sch.phase ≠ .slack ∧ (streamOf s 0).delivered = none ∧ freeBuf s 0 = some 0
         ∧ s.sens.recorder.state = 0)
    ∧ (let s := camRun 0x40 { kept := [sfr 2 0 true] }
       (streamOf s 0).kept[0]? = some (sfr 2 0 true)
         ∧ (streamOf s 0).kept.findIdx? (fun f => f.closed && !f.complete && !writesOut s 0 f) = some 0
         ∧ (streamOf s 0).delivered = none ∧ (sfr 2 0 true).fseq = s.sch.seq ∧ recordedDrop s 0 5 0 = none
         ∧ (∀ j, j < 64 → j ≠ 0 → stValid (stEntry s j) = false)
         ∧ (streamOf up 63).kept.findIdx? (fun f => f.closed && !f.complete && !writesOut up 63 f) = none)
    ∧ (let s0 := camRun 0x40 { kept := [sfr 2 0 true] }
       let s : State := { s0 with sets := { slot0 := { (activeSet s0) with
         sensor := { (activeSet s0).sensor with streams := (activeSet s0).sensor.streams ++ [[0x140]] } } } }
       stValid (stEntry s 1) = true ∧ stArrival (stEntry s 1) = stArrival (stEntry s 0)
         ∧ (streamOf s 1).delivered = none) := by decide

/-- The packet of `udp1` as a Mapin frame of EtherType 0x88B5 for node 2, with a wrong CRC, and for node 3. -/
def mapin1 (dst : Byte) : List Byte :=
  [2, 0, 0, 0, 0, dst, 2, 0, 0, 0, 0, 1, 0x88, 0xB5] ++ wordsBytes [0x0000_0102, 0x0002_0001, 7, 5, 0, 0, 0, 0x1234_5678]

theorem wit_EthernetPackets_mapin :
    (let s : State := { grp .idle with sets := { slot0 := { (activeSet (grp .idle)) with sensor := { macs := [[4]] } } } }
     s.sens.eth[0]? = some { up := true } ∧ (mapin1 2).length + 4 ≤ 9018 ∧ isPtp (mapin1 2) = false
       ∧ bit (wd (macSec s 0) 0) 2 = true ∧ (ethL3 (mapin1 2)).2.1 = s.map.etherType.toNat
       ∧ (mapin1 2).take 6 = nodeAddr s.map.nodeId ∧ mapinUp s = true ∧ (mapin1 3).take 6 ≠ nodeAddr s.map.nodeId
       ∧ fld (mapinWords (mapin1 2)) 1 31 16 = s.map.nodeId.toNat
       ∧ crc32c (wordsBytes ((mapinWords (mapin1 2)).take 7) ++ (mapinTail (mapin1 2)).take (fld (mapinWords (mapin1 2)) 0 31 16))
           ≠ wd (mapinWords (mapin1 2)) 7) := by decide

/-- The stamp of a Frame Start in frame 5, which began at 0, belongs to frame 5 whatever the gear's latency. -/
theorem wit_CameraFrames_member : memberOf camRun 0 (camStamp camRun 0) = camRun.sch.seq := by
  have h : ∀ t, memberOf camRun 0 t = 5 := fun t => by
    show (if t < 0 then (5 : Word) - 1 else 5) = 5
    rw [if_neg (Nat.not_lt_zero t)]
  exact h _

theorem wit_CameraLinesAndFrameEnd :
    (let s := camRun 0x40 { cur := some (sfr 1 0) }
     portRx s 0 = true ∧ vcSlot s 0 0 = some 0 ∧ camStream s 0 0 = some 0 ∧ underReplay s 0 = false
       ∧ 0 < s.sens.streams.length ∧ s.sens.recorder.state = 0 ∧ (streamOf s 0).cur = some (sfr 1 0)
       ∧ 0x2E = stDt (stEntry s 0) ∧ (0x2E : Nat) ≠ 0x12 ∧ [1, 2, 3].length ≠ lineBytes 0x2E (stWidth (stEntry s 0))
       ∧ [1, 2, 3, 4, 5, 6, 7, 8].length = lineBytes 0x2E (stWidth (stEntry s 0)) ∧ stIsp (stEntry s 0) = false
       ∧ stStamps (stEntry s 0) = false ∧ (sfr 1 0).lines < stLines (stEntry s 0)
       ∧ packRow (fmtBits (rawFmt 0x2E)) 64 (lineSamples 0x2E (stWidth (stEntry s 0)) [1, 2, 3, 4, 5, 6, 7, 8]) ≠ []
       ∧ (sfr 1 0).lines ≠ expoOf s (stEntry s 0) * stLines (stEntry s 0)
       ∧ (sfr 2 0).lines = expoOf s (stEntry s 0) * stLines (stEntry s 0))
    ∧ (let s := camRun 0x2040 { cur := some (sfr 1 0) }
       portRx s 0 = true ∧ camStream s 0 0 = some 0 ∧ 0x2E = stDt (stEntry s 0) ∧ stIsp (stEntry s 0) = true
         ∧ stStamps (stEntry s 0) = false ∧ ispResetting s (stEntry s 0) = false
         ∧ (sfr 1 0).lines < expoOf s (stEntry s 0) * stLines (stEntry s 0)
         ∧ ispResetting { s with sens := { s.sens with isp := [{ resetting := true }, {}] } } (stEntry s 0) = true)
    ∧ HdrEcc.bad = .bad ∧ HdrEcc.clean ≠ .bad ∧ (0x12 : Nat) ≠ stDt (stEntry camRun 0) := by decide

theorem wit_EthernetPackets :
    (up.sens.eth.getD 7 {}).up = false ∧ up.warm = false ∧ halted up = false
    ∧ ({ up with warm := true } : State).warm = true ∧ halted ({ up with pins := { clocksOff := true } } : State) = true
    ∧ (let s := ethRun 0 { cur := some (sfr 0 0) }
       s.sens.eth[0]? = some { up := true } ∧ 9018 < (List.replicate 9015 (0 : Byte)).length + 4
         ∧ udp1.length + 4 ≤ 9018 ∧ isPtp udp1 = false ∧ bit (wd (macSec s 0) 0) 2 = false ∧ badHdr udp1 = false
         ∧ otherStation s 0 udp1 = false ∧ matchFilter s 0 udp1 = some 0 ∧ udpAt udp1 = some 34
         ∧ 0 = fld (macFilter s 0 0) 0 9 4 ∧ bit (wd (macFilter s 0 0) 0) 3 = false ∧ s.sch.run = .running
         ∧ stValid (stEntry s 0) = true ∧ underReplay s 0 = false ∧ 0 < s.sens.streams.length
         ∧ s.sens.recorder.state = 0 ∧ (streamOf s 0).cur = some (sfr 0 0) ∧ stClose (stEntry s 0) ≠ 2
         ∧ (sfr 0 0).pkts + 1 ≤ stLines (stEntry s 0)
         ∧ (sfr 0 0).used + (packetRec (ingress s 0).toNat 0 0 0 (udpData udp1 34)).length ≤ stStride (stEntry s 0)
         ∧ closes s (stEntry s 0) 5 1 (ingress s 0).toNat (udpData udp1 34) = false
         ∧ closes s (stEntry s 0) 5 2 (ingress s 0).toNat (udpData udp1 34) = true)
    ∧ (matchFilter (inRun .running) 0 udp1 = none)
    ∧ (isPtp [1, 0x1B, 0x19, 0, 0, 0, 2, 0, 0, 0, 0, 1, 0x88, 0xF7, 0] = true)
    ∧ (let s := ethRun 0x8000 { cur := some (sfr 0 1) }
       stEth (stEntry s 0) = true ∧ stClose (stEntry s 0) = 2 ∧ stValid (stEntry s 0) = true
         ∧ (streamOf s 0).cur = some (sfr 0 1) ∧ 1 ≤ (sfr 0 1).pkts) := by decide

theorem wit_SensorLinks :
    (let s := camRun 0x40 { cur := some (sfr 1 0) }
     (s.sens.sp.getD 0 {}).up = true ∧ s.warm = false ∧ ({ s with warm := true } : State).warm = true
       ∧ stValid (stEntry s 0) = true ∧ stEth (stEntry s 0) = false
       ∧ stPort (stEntry s 0) = 0 ∧ underReplay s 0 = false)
    ∧ (up.pins.refEth = true ∧ ({ up with pins := { refEth := false } } : State).pins.refEth = false)
    ∧ (let s := ethRun 0 { cur := some (sfr 0 0) }
       (s.sens.eth.getD 0 {}).up = true ∧ stEth (stEntry s 0) = true ∧ stPort (stEntry s 0) = 0)
    ∧ (let s : State := { inRun .running with sens := { eth := List.replicate 8 { seen := true } } }
       s.saf.injDone = true ∧ hasActive s = true ∧ (s.sens.eth.getD 7 {}).seen = true)
    ∧ (let s : State := { inRun .running { sensor := { ports := [[2]] } } with
         sens := { sp := List.replicate 16 { up := true, fwdQ := [(0, [1]), (0x2E, [2])] } } }
       s.sens.sp[0]? = some { up := true, fwdQ := [(0, [1]), (0x2E, [2])] } ∧ spMode s 0 = 2 ∧ spMode s 1 ≠ 2)
    ∧ (({ up with sens := { sp := List.replicate 16 {} } } : State).sens.sp.getD 0 {}).fwdQ.head? ≠ some (0, [1]) := by decide

theorem wit_RecordAndReplay :
    (let ps : List Word := [0, 0x10, 64, 0, 1, 0]
     starts up 0x78 0 (pk ps) = some up ∧ regionBad (pk ps) = none ∧ up.sens.recorder.state ≠ 1 ∧ up.rst.pairB = false
       ∧ inDram up (regionBase (pk ps)) (regionLen (pk ps)) = true
       ∧ hits (fwRegions up) (regionBase (pk ps)) (regionLen (pk ps)) = false ∧ starts up 0x78 1 (pk []) = some up
       ∧ starts up 0x79 1 (pk []) = some up ∧ up.sens.replayer.state ≠ 1)
    ∧ (let s : State := { inRun .running with sens := { recorder := { state := 1 } } }
       starts s 0x78 0 (pk [0, 0x10, 64, 0, 1, 0]) = some s ∧ s.sens.recorder.state = 1 ∧ s.sch.run = .running
         ∧ starts s 0x78 1 (pk []) = some s ∧ starts s 0x79 0 (pk [0, 0x10, 64, 0, 1, 0]) = some s)
    ∧ (let s : State := { up with sens := { recorder := { state := 1 }, replayer := { state := 1 } } }
       starts s 0x78 1 (pk []) = some s ∧ s.sch.run ≠ .running ∧ starts s 0x79 1 (pk []) = some s
         ∧ s.sens.replayer.state = 1)
    ∧ (let ps : List Word := [0, 0x10, 64, 0, 0, 0]
       starts up 0x79 0 (pk ps) = some up ∧ regionBad (pk ps) = none ∧ up.sch.run = .idle ∧ inDram up (regionBase (pk ps)) (regionLen (pk ps)) = true
         ∧ readsGood up srcPairB [(regionBase (pk ps), regionLen (pk ps))] [] = true
         ∧ readsGood up srcPairB [(regionBase (pk ps), regionLen (pk ps))] [(0x10_0000_0000, .uncorrectable)] = false
         ∧ regionMask (pk ps) &&& ~~~(recStreams up (regionLen (pk ps) / 32) (regionBase (pk ps))
             (regionBase (pk ps) + regionLen (pk ps)) 0) = 0)
    ∧ (let s : State := { up with rst := { pairB := true } }
       s.rst.pairB = true ∧ starts s 0x78 0 (pk [0, 0x10, 64, 0, 1, 0]) = some s ∧ starts s 0x78 1 (pk []) = some s
         ∧ starts s 0x79 1 (pk []) = some s ∧ starts s 0x79 0 (pk [0, 0x10, 64, 0, 0, 0]) = some s)
    ∧ (up.sens.replayer.state ≠ 1)
    ∧ (let s := rep [6]
       readsGood s srcPairB [(s.sens.replayer.base + s.sens.replayer.pos, recSize (recAt s 0x10_0000_0000).hd)] [] = true
         ∧ readsGood { s with poison := [0x10_0000_0000] } srcPairB
             [(s.sens.replayer.base + s.sens.replayer.pos, recSize (recAt s 0x10_0000_0000).hd)] [] = false
         ∧ poolsFit s.cr.pools = true)
    ∧ (let s := rep [6] 1
       s.sens.replayer.state = 1 ∧ s.sens.replayer.inFrame = true ∧ s.sch.run = .running
         ∧ s.sens.replayer.pos + 32 ≤ s.sens.replayer.len
         ∧ s.sens.replayer.pos + recSize (recAt s (s.sens.replayer.base + s.sens.replayer.pos)).hd ≤ s.sens.replayer.len
         ∧ (recAt s (s.sens.replayer.base + s.sens.replayer.pos)).ok = false)
    ∧ (let s := rep [0x0102]
       (recAt s 0x10_0000_0000).ok = true ∧ fld (recAt s 0x10_0000_0000).hd 0 7 0 ≠ 1
         ∧ s.sens.replayer.mask.getLsbD (fld (recAt s 0x10_0000_0000).hd 0 13 8) = false)
    ∧ (let s := rep [0x0006] 0 { cur := some (sfr 0 1) }
       (recAt s 0x10_0000_0000).ok = true ∧ fld (recAt s 0x10_0000_0000).hd 0 7 0 = 6
         ∧ 0 = fld (recAt s 0x10_0000_0000).hd 0 13 8 ∧ s.sens.replayer.mask.getLsbD 0 = true
         ∧ stValid (stEntry s 0) = true ∧ stEth (stEntry s 0) = true ∧ 0 < s.sens.streams.length
         ∧ (streamOf s 0).cur = some (sfr 0 1)) := by decide

theorem wit_MapinSendsAndTime :
    (let s := grpMap (fun m => { m with
       waitQ := [fr .writeReq 2048], links := m.links.map (fun l => { l with greeted := true }) })
     s.map.waitQ.find? (fun f => f.dst == 1) = some (fr .writeReq 2048) ∧ mapinUp s = true
       ∧ owesHello s 1 = false ∧ frameCost (fr .writeReq 2048) ≤ (linkOf s 1).free ∧ poolsFit s.cr.pools = true ∧ s.csramBad = [])
    ∧ (let s := grpMap (fun m => { m with waitQ := [fr .writeReq 2048], links := m.links.map (fun l => { l with free := 8 }) })
       owesHello s 1 = true ∧ frameCost (helloTo s 1) ≤ (linkOf s 1).free)
    ∧ (let s := grpMap (fun m => { m with
         waitQ := [fr .writeReq 2048], links := m.links.map (fun l => { l with free := 8, greeted := true }) })
       owesHello s 1 = false ∧ (linkOf s 1).free < frameCost (fr .writeReq 2048))
    ∧ (let s := grpMap (fun m => { m with waitQ := [fr .timeReq 0, fr .timeResp 16] })
       mapinUp s = true ∧ frameCost (fr .timeResp 16) ≤ (linkOf s 1).free)
    ∧ (let s := grpMap (fun m => { m with links := m.links.map (fun l => { l with unacked := [fr .release 16] }) })
       mapinUp s = true ∧ (∀ f ∈ (linkOf s 1).unacked, f.dst = 1) ∧ (linkOf s 1).unacked ≠ [] ∧ 1 ∈ peers s
         ∧ 1 ≤ (linkOf s 1).free ∧ (linkOf s 1).greeted = false ∧ 2 ∉ peers s)
    ∧ (let s := grpMap (fun m => { m with links := m.links.map (fun l => { l with free := 0, greeted := true }) })
       (linkOf s 1).greeted = true ∧ (linkOf s 1).free = 0)
    ∧ (let s : State := { grp .idle with tb := { src := .mapin, sec := 1 }, ts := { mapinT1 := [(8, 1, 5), (9, 1, 999999000)] } }
       s.tb.src = .mapin ∧ mapinUp s = true ∧ framed s (hd1) = true
         ∧ s.ts.mapinT1.find? (fun x => x.1 == (hd1).reqId && x.2.1 == (hd1).src) = some (9, 1, 999999000)
         ∧ (((1000000500 - 999999000) - ((now s : Int) - (ingLat s (firstPort s) : Int) - 1000000600)) / 2 : Int).natAbs < 2 ^ 31)
    ∧ (up.tb.src ≠ .mapin ∧ mapinUp up = false)
    ∧ (let s := grp .idle
       framed s (hd1) = true ∧ s.ts.mapinT1.find? (fun x => x.1 == (hd1).reqId && x.2.1 == (hd1).src) = none) := by decide

/-- A frame that came ahead of its turn. -/
def heldHello : MHeld := { h := hd1 (lseq := 8), m := .hello, port := 0, at_ := 0 }

/-- The same device with ports 0 and 1 bonded and up. -/
def two (f : Mapin → Mapin) : State :=
  let s : State := { inRun .idle { plan := { members := [1, 2] }, sensor := { macs := [[4], [4]] } } with
                     sens := { eth := List.replicate 8 { up := true } } }
  { s with map := f (grp .idle).map }

theorem wit_MapinReceivesAndLosses :
    (let s := grp .idle
     mapinUp s = true ∧ staleGen s (hd1 (gen := 2)) = true ∧ staleGen s (hd1 (lseq := 8)) = false
       ∧ (hd1 (lseq := 8)).lseq ≠ (linkOf s 1).rxSeq + 1 ∧ (bonded s).length ≤ 1 ∧ (hd1).nak = false
       ∧ (linkOf s 1).free + (hd1 (credits := 12)).credits ≤ allot s
       ∧ allot s < (linkOf s 1).free + (hd1 (credits := 13)).credits ∧ (hd1).src ∈ peers s ∧ (hd1).gen ≠ 0
       ∧ genEntry s 1 = (hd1).gen ∧ framed s (hd1) = true
       ∧ genEntry s 1 ≠ 0 ∧ genEntry s 1 ≠ (hd1 (gen := 2)).gen ∧ s.rst.pairB = false ∧ 1 ∈ groupOf s
       ∧ staleGen s { hd1 with src := 3 } = false ∧ (3 : BitVec 16) ∉ peers s)
    ∧ (let s := two id
       mapinUp s = true ∧ staleGen s (hd1 (lseq := 8)) = false ∧ 1 ∈ peers s ∧ (hd1 (lseq := 8)).lseq ≠ (linkOf s 1).rxSeq + 1
         ∧ 1 < (bonded s).length ∧ ((hd1 (lseq := 8)).lseq - (linkOf s 1).rxSeq).toNat < 2 ^ 31
         ∧ (hd1 (lseq := 8)).lseq ≠ (linkOf s 1).rxSeq ∧ (linkOf s 1).held = [] ∧ (hd1 (lseq := 8)).nak = false
         ∧ (linkOf s 1).free + (hd1 (lseq := 8)).credits ≤ allot s
         ∧ 2 ^ 31 ≤ ((hd1 (lseq := 5)).lseq - (linkOf s 1).rxSeq).toNat)
    ∧ (let s := two (fun m => { m with links := m.links.map (fun l => { l with held := [heldHello] }) })
       mapinUp s = true ∧ 1 ∈ peers s ∧ staleGen s (hd1) = false ∧ genEntry s 1 = (hd1).gen ∧ (hd1).nak = false
         ∧ (linkOf s 1).free + (hd1).credits ≤ allot s ∧ (hd1).lseq = (linkOf s 1).rxSeq + 1
         ∧ (linkOf s 1).held = [heldHello] ∧ heldHello.h.src = (hd1).src ∧ heldHello.h.lseq = (hd1).lseq + 1
         ∧ heldHello.m = .hello)
    ∧ (let s := grpMap (fun m => { m with links := [] })
       mapinUp s = true ∧ 1 ∈ peers s ∧ genEntry s 1 = 0 ∧ s.map.reissue = [])
    ∧ (let s := grpMap (fun m => { m with
         barriers := [⟨3, 5, false, 9, 0, [], 0, []⟩], reqs := [{ id := 9, dst := 1, write := true, addr := 0, token := none }] })
       s.map.barriers ≠ []
         ∧ s.map.reqs.find? (fun r => r.id == 9) = some { id := 9, dst := 1, write := true, addr := 0, token := none }
         ∧ (1 : BitVec 16) ≠ s.map.nodeId) := by decide

/-- A read for job 5 and another of the same job; rows that land for a request of node 1. -/
def rd9 : MReq := { id := 9, dst := 1, write := false, addr := 4096, token := some 5, len := 64 }
def land3 : Land := { id := 3, owner := 0, seq := 5, rows := [4096], reply := some (1, 9) }

theorem wit_MapinTransfers :
    (let s := grp .idle 2 win
     framed s (hd1) = true ∧ windowFor s 1 4096 65 = none
       ∧ (windowFor s 1 4096 64).map (fun x => x.1) = some 0 ∧ s.sch.run ≠ .running ∧ [(1 : Byte)] ≠ []
       ∧ windowFor s 1 4096 (hd1 (arg := 64)).arg.toNat ≠ none ∧ framed s (hd1 (arg := 64)) = true
       ∧ framed s (hd1 (arg := 65)) = true ∧ poisonOffs s 4096 64 = [] ∧ poolsFit s.cr.pools = true ∧ s.csramBad = []
       ∧ (∀ u ∈ unitsOf 0x10_0000_0000 64, isDram s u = true ∧ u % 64 = 0))
    ∧ (let s : State := { grp .idle 2 win with poison := [4128] }
       poisonOffs s 4096 64 ≠ [])
    ∧ (let s0 := grp .running 2 win
       let s : State := { s0 with sch := { s0.sch with invalid := [4096] } }
       framed s (hd1) = true ∧ (windowFor s 1 4096 64).map (fun x => x.1) = some 0 ∧ s.sch.run = .running
         ∧ (windowFor s 1 4096 64).any (fun x => (tensorAt x.2 4096).any (fun y => s.sch.invalid.contains (refBase y))) = true)
    ∧ (let s : State := { grpMap (fun m => { m with lands := [land3] }) with ms := { reqs := [req (.landing 3)] } }
       reqOf s 4 = some (req (.landing 3)) ∧ (req (.landing 3)).purpose = .landing 3
         ∧ (∀ q ∈ s.ms.reqs, q.id ≠ 4 → q.purpose ≠ .landing 3) ∧ (∀ q ∈ s.ms.portQ, q.purpose ≠ .landing 3)
         ∧ s.map.lands.find? (fun l => l.id == 3) = some land3 ∧ land3.reply = some (1, 9) ∧ land3.bad = false)
    ∧ (let s := grpMap (fun m => { m with reqs := [{ rd9 with write := true }] })
       framed s (hd1) = true
         ∧ s.map.reqs.find? (fun r => r.id == (hd1).reqId && r.dst == (hd1).src && r.write == true)
           = some { rd9 with write := true })
    ∧ (let s := grpMap (fun m => { m with reqs := [rd9] })
       framed s (hd1) = true
         ∧ s.map.reqs.find? (fun r => r.id == (hd1).reqId && r.dst == (hd1).src && r.write == true) = none
         ∧ s.map.reqs.find? (fun r => r.id == (hd1).reqId && r.dst == (hd1).src && r.write == false) = some rd9
         ∧ rd9.token = some 5 ∧ jobOf s 5 = none)
    ∧ (let s : State := { grpMap (fun m => { m with reqs := [rd9, { rd9 with id := 10 }] }) with jobs := [job 5 []] }
       framed s (hd1) = true
         ∧ s.map.reqs.find? (fun r => r.id == (hd1).reqId && r.dst == (hd1).src && r.write == false) = some rd9
         ∧ jobOf s 5 = some (job 5 []) ∧ (∃ q ∈ s.map.reqs, q.id ≠ rd9.id ∧ q.token = some 5)
         ∧ [(1 : Byte)].take rd9.len ≠ []) := by decide

theorem wit_MapinBarriers :
    (let s := grp .idle
     framed s (hd1 (arg := 3)) = true
       ∧ s.map.barriers.find? (fun b => b.id == bits (hd1 (arg := 3)).arg 15 0 && b.join == bit (hd1 (arg := 3)).arg 16) = none)
    ∧ (let s0 := grpMap (fun m => { m with
         barriers := [{ bar with arrived := [(1, 7)] }] }) .idle {} 1
       framed s0 { hd1 (arg := 3) with src := 2 } = true
         ∧ s0.map.barriers.find? (fun b => b.id == bits (hd1 (arg := 3)).arg 15 0 && b.join == bit (hd1 (arg := 3)).arg 16)
           = some { bar with arrived := [(1, 7)] }
         ∧ bar.join = false ∧ s0.sch.run = .idle ∧ (groupOf s0).headD 0 = s0.map.nodeId
         ∧ groupOf s0 = [1, 2] ∧ peers s0 = [2])
    ∧ (let s := grpMap (fun m => { m with barriers := [bar] })
       framed s (hd1 (arg := 3)) = true
         ∧ s.map.barriers.find? (fun b => b.id == bits (hd1 (arg := 3)).arg 15 0) = some bar ∧ now s = 0
         ∧ s.sch.run = .idle ∧ s.map.barriers = bar :: [] ∧ s.rst.pairB = false)
    ∧ (grpMap (fun m => { m with barriers := [bar] }) .running).sch.run ≠ .idle := by decide

theorem wit_MapinBarriers_last : ∀ n ∈ [(1 : BitVec 16), 2], n = 2 ∨ ∃ x ∈ [((1 : BitVec 16), 7)], x.1 = n := by
  intro n h
  simp only [List.mem_cons, List.not_mem_nil, or_false] at h ⊢
  rcases h with h | h
  · exact Or.inr ⟨(1, 7), rfl, h.symm⟩
  · exact Or.inl h

theorem wit_EvidenceAndRules :
    ((judge {} none none).hl.wr ≤ (judge {} none none).hl.rd ∧ halted (judge {} none none) = false)
    ∧ (let s := judge {} none none { written := false, wr := 64 }
       s.hl.stopped = false ∧ s.hl.rd < s.hl.wr
         ∧ (activeSet s).prog.lidars.find? (fun l => fld l 0 5 0 == ringStream s 0) = none)
    ∧ (let s0 := judge { lidars := [[0, 0x0010_0000, 1]] } none none { written := false, wr := 64, grid := [0, 0] }
       let s : State := { s0 with sch := { s0.sch with t := 0 } }
       s.hl.stopped = false ∧ s.hl.rd < s.hl.wr
         ∧ (activeSet s).prog.lidars.find? (fun l => fld l 0 5 0 == ringStream s 0) = some [0, 0x0010_0000, 1]
         ∧ s.sch.run = .running
         ∧ (ringStamp s 0 + stampRange - s.sch.t % stampRange) % stampRange < ttOutCommit (tide s))
    ∧ (let g : Program := { evids := [[1, 0, 0, 0, 0, 0, 0x0001_0040, 0x0001_0001]] }
       let h : Headland := { written := false, evid := [none] }
       (activeSet (judge g none none h)).prog.evids[0]? = some [1, 0, 0, 0, 0, 0, 0x0001_0040, 0x0001_0001]
         ∧ judging (judge g none none h) = true ∧ 0 < (judge g none none h).hl.evid.length
         ∧ (judge g none none h).hl.evid.getD 0 none = none
         ∧ (let s := judge g none (some .done) h
            let r := evidRef ((activeSet s).prog.evids.getD 0 [])
            let rs := (List.range (refRows r)).map (fun k => (physOf s (refRowAddr r k), rowBytes r))
            rs ≠ [] ∧ readsGood s srcPairB rs [] = true ∧ poolsFit s.cr.pools = true
              ∧ readsGood { s with poison := [0] } srcPairB rs [] = false)
         ∧ ((judge g none none h).sch.tt.getD 1 {}).ended = none
         ∧ ((judge g none (some .done) h).sch.tt.getD 1 {}).ended = some .done
         ∧ ((judge g none (some .killedBudget) h).sch.tt.getD 1 {}).ended = some .killedBudget)
    ∧ (let g : Program := { rules := [jobsDone true, jobsDone false, rng], hdr := [0, 0, 0x81] }
       let s := judge g none (some .done)
       (activeSet s).prog.rules[0]? = some (jobsDone true) ∧ judging s = true ∧ (∀ x ∈ s.hl.res, x.i ≠ 0)
         ∧ fld (jobsDone true) 0 7 0 = 1
         ∧ (List.range (fld (jobsDone true) 2 31 16)).map (· + fld (jobsDone true) 2 15 0) = [0, 1]
         ∧ (s.sch.tt.getD 0 {}).ended = none
         ∧ (∀ j ∈ [0, 1], (s.sch.tt.getD j {}).ended = none ∨ (s.sch.tt.getD j {}).ended = some .done)
         ∧ (∀ j ∈ [0, 1], ((judge g (some .done) (some .done)).sch.tt.getD j {}).ended = some .done)
         ∧ (∃ j ∈ [0, 1], ((judge g (some .aborted) none).sch.tt.getD j {}).ended ≠ none
             ∧ ((judge g (some .aborted) none).sch.tt.getD j {}).ended ≠ some .done)
         ∧ bit (wd (jobsDone true) 0) 8 = true ∧ bit (wd (jobsDone false) 0) 8 = false
         ∧ (activeSet s).prog.rules[2]? = some rng ∧ fld rng 0 7 0 = 4
         ∧ s.hl.evid.getD (fld rng 1 3 0) none = none
         ∧ (judge g none none { written := false, evid := [some []] }).hl.evid.getD (fld rng 1 3 0) none = some []
         ∧ (judge g none none { written := false, evid := [some [1]] }).hl.evid.getD (fld rng 1 3 0) none = some [1])
    ∧ (let g : Program := { rules := [[5, 0, 0, 0, 0]] }
       let s := judge g none none { written := false, prevEvid := [some []] }
       (activeSet s).prog.rules[0]? = some [5, 0, 0, 0, 0] ∧ judging s = true ∧ fld [5, 0, 0, 0, 0] 0 7 0 = 5
         ∧ s.hl.prevEvid.getD 0 none = some [] ∧ s.hl.prevEvid.getD 15 none = none)
    ∧ judging up = false := by decide

theorem wit_VerdictsTrustAndSafeOutputs :
    (let s : State := { judge { rules := [jobsDone true] } (some .done) (some .aborted)
         { written := false, res := [⟨0, true, []⟩] } with saf := { injDone := true, trust := .awaiting, passes := 2 } }
     judging s = true ∧ verdictDue s = true
       ∧ (∃ x ∈ s.hl.res, x.violated = true ∧ bit (wd ((activeSet s).prog.rules.getD x.i []) 0) 8 = true)
       ∧ s.saf.trust = .awaiting ∧ 1 < s.saf.passes)
    ∧ (let s := judge { rules := [jobsDone false] } (some .done) (some .aborted) { written := false, res := [⟨0, true, []⟩] }
       verdictDue s = true ∧ (∃ x ∈ s.hl.res, x.violated = true)
         ∧ (∀ x ∈ s.hl.res, x.violated = true → bit (wd ((activeSet s).prog.rules.getD x.i []) 0) 8 = false)
         ∧ s.saf.trust ≠ .awaiting ∧ s.saf.trust ≠ .trusted)
    ∧ (let s : State := { judge { rules := [jobsDone false] } (some .done) (some .aborted)
         { written := false, res := [⟨0, true, []⟩] } with saf := { injDone := true, trust := .awaiting, passes := 2 } }
       verdictDue s = true ∧ s.saf.trust = .awaiting ∧ (∃ x ∈ s.hl.res, x.violated = true)
         ∧ (∀ x ∈ s.hl.res, x.violated = true → bit (wd ((activeSet s).prog.rules.getD x.i []) 0) 8 = false))
    ∧ (let s : State := { judge {} (some .done) (some .done) with saf := { injDone := true, trust := .trusted } }
       judging s = true ∧ verdictDue s = true ∧ s.saf.trust = .trusted ∧ s.saf.trust ≠ .awaiting
         ∧ (∀ x ∈ s.hl.res, x.violated = false))
    ∧ (let s : State := { judge {} (some .done) (some .done) with saf := { injDone := true, trust := .awaiting, passes := 1 } }
       judging s = true ∧ verdictDue s = true ∧ (∀ x ∈ s.hl.res, x.violated = false) ∧ s.saf.passes ≤ 1
         ∧ s.saf.clamp = false)
    ∧ (verdictDue (judge {} none none) = false)
    ∧ (let s : State := { inRun .running with saf := { injDone := true, trust := .trusted, lease := some 5 } }
       s.saf.lease = some 5 ∧ s.saf.trust = .trusted ∧ s.saf.clamp = false ∧ s.pins.clocksOff = false)
    ∧ (let s : State := { inRun .running with saf := { injDone := true, trust := .withdrawn, lease := some 5 } }
       s.saf.lease = some 5 ∧ s.saf.trust ≠ .trusted)
    ∧ (up.saf.lease = none ∧ up.saf.trust ≠ .trusted) := by decide

theorem wit_SlicesAndTestPacks :
    (let s := due .idle .periodic
     s.eng[25]? = some { katDue := [.periodic] } ∧ s.warm = false ∧ sliceHeld s 25 = false ∧ halted s = false
       ∧ katNext s 25 = some .periodic
       ∧ katFit s 25 .periodic = .go)
    ∧ (katFit (due .armed .armed 20400) 25 .armed = .go ∧ katFit (due .armed .armed 20399) 25 .armed = .defer
      ∧ katNext (due .armed .armed 20399) 25 = some .armed)
    ∧ (katFit (due .running .periodic) 25 .periodic = .wait ∧ katNext (due .running .periodic) 25 = some .periodic)
    ∧ (katNext up 0 = none ∧ (engOf up 0).kat = none)
    ∧ (let s : State := { up with eng := modAt (List.replicate 26 {}) 0 (fun x => { x with kat := some .periodic }) }
       (engOf s 0).kat = some .periodic ∧ halted s = false ∧ s.poison = [] ∧ s.csramBad = [] ∧ sliceUc [.buffer 0 false, .buffer 1 true] = true
         ∧ sliceUc [.basin 0 true] = false)
    ∧ (let s : State := { up with
         eng := modAt (List.replicate 26 {}) 0 (fun x => { x with kat := some .periodic, katEnt := [0, 0, 1], katBase := 64 })
         poison := [64] }
       slicePoisoned s 0 = true)
    ∧ (starts up 0x53 0 (pk [0]) = some up ∧ starts up 0x53 0 (pk [0x400_0000]) = some up)
    ∧ (let s : State := { up with saf := { injDone := true, pack := pack7 } }
       starts s 0x53 0 (pk [0x3FF_FFFF]) = some s ∧ (∀ e < 26, (0x3FF_FFFF).testBit e = true → (engOf s e).quar = false)
         ∧ (∀ x ∈ s.saf.tests, x.todo ≠ []) ∧ (∀ j < 7, packSlices s.saf.pack j ≠ []))
    ∧ (let s : State := { up with eng := modAt (List.replicate 26 {}) 25 (fun x => { x with quar := true }) }
       starts s 0x53 0 (pk [0x200_0000]) = some s ∧ ∃ e < 26, (0x200_0000).testBit e = true ∧ (engOf s e).quar = true)
    ∧ (starts up 0x54 0 (pk [0, 0x10, 64]) = some up ∧ inDram up 0x10_0000_0000 64 = true ∧ up.saf.packLoad = none
      ∧ up.saf.packNext = none ∧ hits (setRegions up ++ seqRegions up ++ fwRegions up) 0x10_0000_0000 64 = false)
    ∧ (let s : State := { up with saf := { injDone := true, packLoad := some (5, 0x10_0000_0000, 64) } }
       starts s 0x54 0 (pk [0, 0x10, 64]) = some s ∧ s.saf.packLoad.isSome = true ∧ s.rst.pairA = false
         ∧ readsGood s srcPairA [(0x10_0000_0000, 64)] [] = true
         ∧ readsGood { s with poison := [0x10_0000_0000] } srcPairA [(0x10_0000_0000, 64)] [] = false ∧ sigRow s 9 (s.mem.read 0x10_0000_0000 64) ≠ 0) := by decide

theorem wit_FirmwareFusesAndTap :
    (let s : State := { up with boot := .rom }
     starts s 0x10 0 (pk [0, 0x10, 4096]) = some s ∧ s.sec.fwRunning = false ∧ s.sec.load = none)
    ∧ (let s : State := { up with sec := { fwRunning := true } }
       starts s 0x10 0 (pk [0, 0x10, 4096]) = some s ∧ s.sec.fwRunning = true)
    ∧ (let s : State := { up with boot := .rom, sec := { load := some ⟨5, 0, 0, 0, false⟩, fuse := some {} } }
       starts s 0x10 0 (pk [0, 0x10, 4096]) = some s ∧ s.sec.load = some ⟨5, 0, 0, 0, false⟩ ∧ s.sec.fuse.isSome = true)
    ∧ (let l : FwLoad := ⟨5, 0x10_0000_0000, 4096, 8, false⟩
       let s : State := { up with boot := .rom, sec := { load := some l } }
       s.sec.load = some l ∧ s.sec.fuse = none ∧ halted s = false ∧ s.rst.pairA = false ∧ s.warm = false ∧ l.copied = false
         ∧ poolsFit s.cr.pools = true ∧ readsGood s srcPairA [(l.addr, l.len)] [] = true ∧ l.row ≠ 0 ∧ l.row ≤ 8
         ∧ readsGood { s with poison := [0x10_0000_0000] } srcPairA [(l.addr, l.len)] [] = false)
    ∧ (let l : FwLoad := ⟨5, 0x10_0000_0000, 4096, 0, false⟩
       let s : State := { up with boot := .rom, sec := { load := some l } }
       l.row = 0 ∧ imageFuses s l.addr = none ∧ (∀ j < 7, packSlices s.saf.basePack j = [])
         ∧ imageFuses (storeWords s 0x10_0000_0008 [0x0000_F17F]) l.addr = some { svn := 64, revoke := 15 })
    ∧ (let l : FwLoad := ⟨5, 0x10_0000_0000, 4096, 0, true⟩
       let s : State := { up with boot := .rom, sec := { load := some l } }
       s.sec.load = some l ∧ l.copied = true)
    ∧ (let s : State := { up with sec := { fuse := some { owner1 := some 7 } }, secw := { resetAfter := true } }
       s.sec.fuse = some { owner1 := some 7 } ∧ s.secw.resetAfter = true ∧ s.boot = .firmware ∧ s.pins.clocksOff = false
         ∧ s.pins.thermtrip = false)
    ∧ (tapInstr up up.sec.tap ≠ 0 ∧ tapInstr up up.sec.tap ≠ 3 ∧ tapInstr up up.sec.tap ≠ 4 ∧ up.sec.fuse = none)
    ∧ (let s : State := { up with sec := { tap := 4, lifecycle := .provisioned } }
       tapInstr s s.sec.tap = 4 ∧ s.boot = .firmware ∧ s.pins.clocksOff = false ∧ s.pins.thermtrip = false ∧ s.sec.fuse = none)
    ∧ halted ({ up with pins := { clocksOff := true } } : State) = true ∧ halted up = false := by decide

theorem wit_DebugTokens :
    (up.sec.tap ≠ 0x11 ∧ up.secw.tok = none)
    ∧ (let s : State := { up with sec := { tap := 0x11 } }
       s.sec.tap = 0x11 ∧ s.boot ≠ .off ∧ s.boot ≠ .held ∧ 8188 < (8189 : Word).toNat
         ∧ (wd (s.sec.tokBuf ++ [8188]) 0).toNat ≤ 8188 ∧ 4 * s.sec.tokBuf.length < (wd (s.sec.tokBuf ++ [8188]) 0).toNat)
    ∧ (let s : State := { up with sec := { tap := 0x11, tokBuf := [4] } }
       (wd (s.sec.tokBuf ++ [1]) 0).toNat ≤ 4 * s.sec.tokBuf.length
         ∧ sigRow s 10 ((wordsBytes ((s.sec.tokBuf ++ [1]).drop 1)).take 4) ≠ 0)
    ∧ (let s : State := { up with secw := { tok := some (tok 1) } }
       s.secw.tok = some (tok 1) ∧ (tok 1).typ = 1 ∧ s.sch.run = .idle ∧ s.sec.fuse = none ∧ s.saf.trust = .notArmed)
    ∧ (({ inRun .armed with secw := { tok := some (tok 1) } } : State).sch.run ≠ .idle)
    ∧ (let s : State := { up with secw := { tok := some (tok 2) } }
       s.secw.tok = some (tok 2) ∧ (tok 2).typ = 2 ∧ (tok 2).target = 3)
    ∧ (let s : State := { up with secw := { tok := some (tok 3) } }
       s.secw.tok = some (tok 3) ∧ (tok 3).typ = 3 ∧ s.sec.owner1 = none
         ∧ ({ s with sec := { owner1 := some 9 } } : State).sec.owner1 ≠ none) := by decide

-- Worked examples and check values of the manual

/-- The state after a command. -/
def after (o : Host.Outcome State Fault Refusal) : State := match o with
  | .next t => t
  | .fault _ | .refused _ => {}

/-- The device of the scrub example: the last SEQ on port H 0x0011, the next token 0x315. -/
def scrubDev : State := { up with
  cmd := { h := { lastSeq := some 0x0011, lastTag := 9 } }
  sch := { cmdSeq := 0x315 } }

def scrubPk : Pkt := { port := .H, tag := 0xA7, seq := 0x12, params := [0, 0x12, 0x10_0000] }

/-- "A scrub pass polled on port H": the reply ACCEPTED with its token, and the pass it queues. -/
theorem test_scrub_accepted :
    (after (exec (.scrubRange scrubPk) scrubDev)).cmd.h.placed.take 3 = [0x500E_0004, 0x00A7_0012, 0x0000_0315]
    ∧ (after (exec (.scrubRange scrubPk) scrubDev)).ms.scrubs.map (fun x => (x.addr, x.units))
      = [(0x12_0000_0000, 1048576)] := by decide

/-- The query of the running pass: NOT_READY with the summary so far. -/
theorem test_scrub_partial :
    (after (exec (.queryJob { port := .H, tag := 0xA8, seq := 0x13, params := [0x315] })
      { up with cmd := { h := { lastSeq := some 0x0012 }, tokens := [⟨0x315, .H, true, .accepted, [], 0⟩] }
                ms := { scrubs := [⟨0x315, 0x12_0000_0000, 1048576, 0x7_2D80, 0, 1, some 0x12_0000_1A40, true⟩] } })).cmd.h.placed.take 7
      = [0x2307_0008, 0x00A8_0013, 0, 1, 0x0000_1A40, 0x12, 0x7_2D80] := by decide

/-- The fallback example's element: 5,491 at scale 0.03125 saturates in INT8 and rounds to 172 in INT16. -/
theorem test_outq_int8 : convert 1 0 (.f (.fin false 5491 (-5))) = (127, true) := by decide
theorem test_outq_int16 : convert 3 0 (.f (.fin false 5491 (-5))) = (172, false) := by decide

/-- H_OUT of the convolution example: 3 by 3, stride 2, padding 1 on 256 rows; a 7 by 7 filter of dilation 3 on 16
rows is rejected. -/
theorem test_conv_out : convOut 256 1 1 1 3 2 = 128 ∧ convOut 16 0 0 3 7 2 = 0 := by decide

/-- A packet record of the lidar example: 1,040 payload bytes take 1,088. -/
theorem test_lidar_record : (packetRec 0 2 0 0 (List.replicate 1040 0)).length = 1088 := by decide

/-- R451's CRC of the bytes "123456789", the Castagnoli check value. -/
theorem test_crc32c : crc32c [0x31, 0x32, 0x33, 0x34, 0x35, 0x36, 0x37, 0x38, 0x39] = 0xE306_9283 := by decide

/-- R369: the outputs toggle in antiphase while trust is TRUSTED. -/
theorem test_safeToggle :
    (after (exec .safeToggle { up with saf := { trust := .trusted }, pins := { safeA := true } })).pins.safeA = false
    ∧ (after (exec .safeToggle { up with saf := { trust := .trusted }, pins := { safeA := true } })).pins.safeB = true := by
  decide

/-- R311: one CLK_PER edge at the nominal addend is 8 ns. -/
theorem test_tick : (after (step up)).tb.ns = 8 ∧ (after (step up)).tb.frac = 0 := by decide

/-- R320, R466: a reserved bit of TIME_SET's third word is refused with that word's index. -/
theorem test_timeSet_reserved :
    (after (exec (.timeSet (pk [0, 0x1_0000, 0])) up)).cmd.h.placed.take 4 = [0x4005_0005, 0x0001_0001, 0, 3] := by decide

end Sys2Proof.Tests
end

section
/-! PROOFS. Accesses of the register bus (R7, R474 to R478): what one read and one write of a register word come to, the
registers that hold what is written, and those that a read clears. -/

namespace Sys2Proof.Proofs

open Sys2Proof Sys2Proof.Machine Sys2Proof.Laws

/-! ### Where a register word lies -/

/-- The blocks that have a decode width lie below the command window, in assigned offsets (R477, R484). -/
theorem block_assigned_of_blockW {b W : Nat} (h : blockW b = some W) :
    b < 0x0B ∨ (0x10 ≤ b ∧ b < 0x2C) ∨ (0x30 ≤ b ∧ b < 0x49) := by
  unfold blockW at h
  split_ifs at h <;> simp only [Bool.or_eq_true, Bool.and_eq_true, decide_eq_true_eq] at * <;> omega

theorem wordOf_regOffset (b i : Nat) : wordOf (b * 0x1_0000 + 4 * i) = b * 0x1_0000 + 4 * i := by
  unfold wordOf; omega

section
variable {b i W : Nat} (hW : blockW b = some W) (hi : i < 2 ^ W)
include hW

/-- No block decodes more than 12 bits (R484). -/
theorem blockW_le : W ≤ 10 := by
  unfold blockW at hW
  split_ifs at hW <;> simp at hW <;> omega

include hi

theorem regIdx_lt : i < 1024 :=
  hi.trans_le (Nat.pow_le_pow_right (by decide) (blockW_le hW))

theorem blockOf_regOffset : blockOf (b * 0x1_0000 + 4 * i) = b := by
  have := regIdx_lt hW hi
  unfold blockOf; omega

theorem regIdx_regOffset : regIdx (b * 0x1_0000 + 4 * i) = i := by
  have h := regIdx_lt hW hi
  have hw : (b * 0x1_0000 + 4 * i) % 0x1000 / 4 = i := by omega
  simp only [regIdx, blockOf_regOffset hW hi, hW, hw, Nat.mod_eq_of_lt hi]

theorem unassigned_regOffset : unassigned (b * 0x1_0000 + 4 * i) = false := by
  have h := regIdx_lt hW hi
  have hb := block_assigned_of_blockW hW
  simp only [unassigned, Bool.or_eq_false_iff, Bool.and_eq_false_iff, decide_eq_false_iff_not]
  omega

theorem isWindow_regOffset : isWindow (b * 0x1_0000 + 4 * i) = false := by
  have hb := block_assigned_of_blockW hW
  simp only [isWindow, blockOf_regOffset hW hi, beq_eq_false_iff_ne]
  omega

theorem replyWindow_regOffset : replyWindow (b * 0x1_0000 + 4 * i) = false := by
  have h := regIdx_lt hW hi
  have hb := block_assigned_of_blockW hW
  simp only [replyWindow, Bool.and_eq_false_iff, decide_eq_false_iff_not]
  omega

theorem accRead_reg {s : State} (ho : blockOpen s b = true) :
    accRead s (b * 0x1_0000 + 4 * i) = putData (afterRead s b i) (regVal s b i) := by
  simp [accRead, unassigned_regOffset hW hi, blockOf_regOffset hW hi, ho, isWindow_regOffset hW hi, regIdx_regOffset hW hi]

theorem accWrite_reg {s : State} (ho : blockOpen s b = true) (w : Word) :
    accWrite s (b * 0x1_0000 + 4 * i) w = settle s (regWrite s b i w) := by
  simp [accWrite, unassigned_regOffset hW hi, replyWindow_regOffset hW hi, blockOf_regOffset hW hi, ho,
    isWindow_regOffset hW hi, regIdx_regOffset hW hi]

end

/-! ### One access -/

/-- The state in which a cycle's reads begin: no data has been read in it yet. -/
def noData (s : State) : State := { s with out := { s.out with rdata := [] } }

theorem requesterUp_noData (s : State) (p : Requester) : requesterUp (noData s) p = requesterUp s p := by
  cases p <;> rfl

theorem regVal_noData (s : State) (b i : Nat) : regVal (noData s) b i = regVal s b i := rfl

theorem regVal_putData (s : State) (v b i : Nat) : regVal (putData s v) b i = regVal s b i := rfl

/-- A lone access is executed as it is. -/
theorem inTurn_singleton (x : BusAcc) : inTurn [x] = [x] := by
  cases hx : x.who <;> simp [inTurn, hx]

/-- A write of a whole word by a requester that is up. -/
theorem access_write {s : State} {p : Requester} (hp : requesterUp s p = true) (f : Nat) (w : Word) :
    access s ⟨p, f, some (15, w)⟩ = accWrite s (wordOf f) w := by
  simp [access, hp]

/-- The first read of a cycle is the read of its word. -/
theorem access_noData_read {s : State} {f : Nat} {p : Requester} (hp : requesterUp s p = true) :
    access (noData s) ⟨p, f, none⟩ = accRead (noData s) (wordOf f) := by
  unfold access
  rw [requesterUp_noData, hp]
  rfl

section
variable {b i W : Nat} {p : Requester} {s : State} (hW : blockW b = some W) (hi : i < 2 ^ W)
  (hp : requesterUp s p = true) (ho : blockOpen s b = true)
include hW hi hp ho

/-- A read of a register returns its value and leaves what its read leaves (R7, R475). -/
theorem exec_rcRegisterRead_reg :
    exec (.rcRegisterRead (b * 0x1_0000 + 4 * i) p) s
      = .next (putData (afterRead (noData s) b i) (regVal s b i)) := by
  have hs : accesses [⟨p, b * 0x1_0000 + 4 * i, none⟩] s = access (noData s) ⟨p, b * 0x1_0000 + 4 * i, none⟩ := by
    simp [accesses, inTurn_singleton, hp, noData]
  show Host.Outcome.next (accesses [⟨p, b * 0x1_0000 + 4 * i, none⟩] s) = _
  rw [hs, access_noData_read hp, wordOf_regOffset, accRead_reg hW hi (s := noData s) ho, regVal_noData]

/-- A write of a whole register word is what its block makes of it, with the reaction to a fatal source (R7, R475). -/
theorem exec_registerWrite_reg (w : Word) :
    exec (.registerWrite (b * 0x1_0000 + 4 * i) 15 w p []) s = .next (settle s (regWrite s b i w)) := by
  have hs : accesses [⟨p, b * 0x1_0000 + 4 * i, some (15, w)⟩] s = access s ⟨p, b * 0x1_0000 + 4 * i, some (15, w)⟩ := by
    simp [accesses, inTurn_singleton]
  show Host.Outcome.next (accesses [⟨p, b * 0x1_0000 + 4 * i, some (15, w)⟩] s) = _
  rw [hs, access_write hp, wordOf_regOffset, accWrite_reg hW hi ho]

/-- A write that sets no source draws no reaction. -/
theorem exec_registerWrite_silent (w : Word) (hf : (regWrite s b i w).fc.fsw = s.fc.fsw) :
    exec (.registerWrite (b * 0x1_0000 + 4 * i) 15 w p []) s = .next (regWrite s b i w) := by
  rw [exec_registerWrite_reg hW hi hp ho, settle_same hf]

end

/-! ### Registers that hold what is written (R485), and the order of a cycle (R478) -/

/-- Two writes of one cycle are executed in the order of R478, whichever of them the command names. -/
theorem inTurn_pair {p q : Requester} (h : (p, q) ∈ [(.pairA, .pairB), (.pairA, .headland), (.pairA, .pcie),
    (.pairB, .headland), (.pairB, .pcie), (.headland, .pcie)]) (f g : Nat) (x y : Option (BitVec 4 × Word)) :
    inTurn [⟨p, f, x⟩, ⟨q, g, y⟩] = [⟨p, f, x⟩, ⟨q, g, y⟩] ∧ inTurn [⟨q, g, y⟩, ⟨p, f, x⟩] = [⟨p, f, x⟩, ⟨q, g, y⟩] := by
  simp only [List.mem_cons, Prod.mk.injEq, List.not_mem_nil, or_false] at h
  rcases h with ⟨rfl, rfl⟩ | ⟨rfl, rfl⟩ | ⟨rfl, rfl⟩ | ⟨rfl, rfl⟩ | ⟨rfl, rfl⟩ | ⟨rfl, rfl⟩ <;> exact ⟨rfl, rfl⟩

/-- A write of GLB.SCRATCH by a requester that is up (R485). -/
theorem access_scratch {s : State} {p : Requester} (hp : requesterUp s p = true) (w : Word) :
    access s ⟨p, 0x4, some (15, w)⟩ = { s with glb := { s.glb with scratch := w } } := by
  rw [access_write hp]
  exact (accWrite_reg (b := 0) (i := 1) (W := 3) rfl (by decide) rfl w).trans (settle_same rfl)

/-- Writes of GLB.SCRATCH in one cycle: the later in the order of R478 stands. -/
theorem accesses_scratch {s : State} {p q : Requester} (hp : requesterUp s p = true) (hq : requesterUp s q = true)
    {l : List BusAcc} {v w : Word} (hl : inTurn l = [⟨p, 0x4, some (15, v)⟩, ⟨q, 0x4, some (15, w)⟩])
    (hr : l.any (fun x => x.wr.isNone && requesterUp s x.who) = false) :
    accesses l s = { s with glb := { s.glb with scratch := w } } := by
  have hq' : requesterUp { s with glb := { s.glb with scratch := v } } q = true := by
    rw [← hq]; cases q <;> rfl
  rw [accesses, hl, hr]
  simp only [List.foldl_cons, List.foldl_nil, Bool.false_eq_true, if_false]
  rw [access_scratch hp, access_scratch hq']

/-- The data of a register that holds a word. -/
theorem putData_toNat (s : State) (w : Word) : putData s w.toNat = { s with out := { s.out with rdata := [w] } } := by
  simp [putData]

/-- The low field of a word. -/
theorem bits_zero (w : Word) (hi : Nat) : bits w hi 0 = w.toNat % 2 ^ (hi + 1) := by simp [bits]

/-- Settles O13: each register is read and written as its block says, no such write sets a source, and the order of R478
is `inTurn_pair`. -/
theorem rwRegistersHoldWhatIsWritten : Obligations.RwRegistersHoldWhatIsWritten := by
  refine ⟨fun s w p hp => ⟨?_, ?_, ?_, fun ho => ⟨?_, ?_, ?_⟩, fun ho => ?_, fun ho => ?_, fun ho => ?_⟩,
    fun s v w p q hp hq h => ⟨?_, ?_⟩⟩
  · exact exec_rcRegisterRead_reg (b := 0) (i := 0) (W := 3) rfl (by decide) hp rfl
  · exact exec_registerWrite_silent (b := 0) (i := 1) (W := 3) rfl (by decide) hp rfl w rfl
  · refine (exec_rcRegisterRead_reg (s := { s with glb := { s.glb with scratch := w } }) (b := 0) (i := 1) (W := 3) rfl
      (by decide) ?_ rfl).trans (congrArg _ (putData_toNat _ w))
    rw [← hp]; cases p <;> rfl
  · exact exec_registerWrite_silent (b := 3) (i := 7) (W := 4) rfl (by decide) hp ho w rfl
  · exact exec_registerWrite_silent (b := 3) (i := 8) (W := 4) rfl (by decide) hp ho w rfl
  · refine (exec_rcRegisterRead_reg (s := { s with tb := { s.tb with kp := w.toNat } }) (b := 3) (i := 7) (W := 4) rfl
      (by decide) ?_ ho).trans (congrArg _ (putData_toNat _ w))
    rw [← hp]; cases p <;> rfl
  · rw [show w.toNat % 64 = bits w 5 0 from (bits_zero w 5).symm]
    exact exec_registerWrite_silent (b := 2) (i := 15) (W := 5) rfl (by decide) hp ho w rfl
  · rw [show w.toNat % 32 = bits w 4 0 from (bits_zero w 4).symm]
    exact exec_registerWrite_silent (b := 9) (i := 8) (W := 4) rfl (by decide) hp ho w rfl
  · exact exec_registerWrite_silent (b := 0x48) (i := 3) (W := 3) rfl (by decide) hp ho w rfl
  · exact congrArg _ (accesses_scratch hp hq (inTurn_pair h _ _ _ _).1 rfl)
  · exact congrArg _ (accesses_scratch hp hq (inTurn_pair h _ _ _ _).2 rfl)

/-! ### Registers that a read clears (R7) -/

/-- An element that is changed in a list, where the change leaves the default as it is. -/
theorem getD_modAt_self {α : Type} (l : List α) (i : Nat) {f : α → α} {d : α} (h : f d = d) :
    (modAt l i f).getD i d = f (l.getD i d) := by
  simp only [List.getD_eq_getElem?_getD, getElem?_modAt, if_true]
  cases l[i]? with
  | none => exact h.symm
  | some x => rfl

theorem engBlock_range {b e : Nat} (h : engBlock b = some e) :
    (0x10 ≤ b ∧ b ≤ 0x25) ∨ (0x28 ≤ b ∧ b ≤ 0x2B) := by
  unfold engBlock at h
  split_ifs at h <;> simp only [Bool.and_eq_true, decide_eq_true_eq] at * <;> omega

theorem engBlock_low {n : Nat} (h : n < 22) : engBlock (0x10 + n) = some n := by
  have : (decide (0x10 ≤ 0x10 + n) && decide (0x10 + n ≤ 0x25)) = true := by simp; omega
  rw [engBlock, if_pos this, Nat.add_sub_cancel_left]

theorem engBlock_high {n : Nat} (h : n < 4) : engBlock (0x28 + n) = some (n + 22) := by
  have h1 : ¬ (decide (0x10 ≤ 0x28 + n) && decide (0x28 + n ≤ 0x25)) = true := by simp; omega
  have h2 : (decide (0x28 ≤ 0x28 + n) && decide (0x28 + n ≤ 0x2B)) = true := by simp; omega
  rw [engBlock, if_neg h1, if_pos h2, Nat.add_sub_cancel_left]

section
variable {b e i : Nat} (h : engBlock b = some e)
include h

/-- The registers of an engine's block (R96, R168). -/
theorem regVal_engine (s : State) :
    regVal s b i = if e < 16 then meReg (engOf s e) i else taskReg (engOf s e) (e == 20 || e == 21) i := by
  have hb := engBlock_range h
  simp only [regVal, h, Bool.or_eq_true, Bool.and_eq_true, decide_eq_true_eq]
  repeat rw [if_neg (by omega)]

theorem afterRead_engine (s : State) : afterRead s b i = modEng s e (engClear e i) := by
  have hb := engBlock_range h
  simp only [afterRead, h, Bool.or_eq_true, Bool.and_eq_true, decide_eq_true_eq]
  repeat rw [if_neg (by omega)]

end

section
variable {b : Nat} (i : Nat) (s : State)

/-- The registers of an ISP's block (R310). -/
theorem regVal_isp (h : b = 0x26 ∨ b = 0x27) : regVal s b i = ispReg s (b - 0x26) i := by
  rcases h with rfl | rfl <;> rfl

theorem afterRead_isp (h : b = 0x26 ∨ b = 0x27) :
    afterRead s b i = modIsp s (b - 0x26) (fun x => ispClear x i) := by
  rcases h with rfl | rfl <;> rfl

/-- The registers of a sensor port's block (R306). -/
theorem regVal_sp (h : 0x30 ≤ b ∧ b < 0x40) : regVal s b i = spReg s (b - 0x30) i := by
  simp only [regVal, Bool.or_eq_true, Bool.and_eq_true, decide_eq_true_eq]
  repeat rw [if_neg (by omega)]
  exact if_pos h

theorem afterRead_sp (h : 0x30 ≤ b ∧ b < 0x40) :
    afterRead s b i = modSp s (b - 0x30) (fun x => spClear x i) := by
  simp only [afterRead, Bool.or_eq_true, Bool.and_eq_true, decide_eq_true_eq]
  repeat rw [if_neg (by omega)]
  exact if_pos h

/-- The registers of a MAC's block (R309). -/
theorem regVal_eth (h : 0x40 ≤ b ∧ b < 0x48) : regVal s b i = ethReg s (b - 0x40) i := by
  simp only [regVal, Bool.or_eq_true, Bool.and_eq_true, decide_eq_true_eq]
  repeat rw [if_neg (by omega)]
  exact if_pos h

theorem afterRead_eth (h : 0x40 ≤ b ∧ b < 0x48) :
    afterRead s b i = modEth s (b - 0x40) (fun x => ethClear x i) := by
  simp only [afterRead, Bool.or_eq_true, Bool.and_eq_true, decide_eq_true_eq]
  repeat rw [if_neg (by omega)]
  exact if_pos h

end

/-- A word of an engine's block whose fields are RC (R98 to R102, R169 to R173, R209, R210). -/
def EngRc (e i : Nat) : Prop :=
  i = 1 ∨ i = 2 ∨ (e < 16 ∧ i = 3) ∨ ((e = 20 ∨ e = 21) ∧ (i = 6 ∨ i = 7))

theorem engClear_default (e i : Nat) : engClear e i {} = {} := by
  unfold engClear
  split_ifs <;> rfl

/-- An engine's RC word reads 0 after it has been cleared. -/
theorem engReg_engClear {e i : Nat} (h : EngRc e i) (x : Engine) :
    (if e < 16 then meReg (engClear e i x) i else taskReg (engClear e i x) (e == 20 || e == 21) i) = 0 := by
  by_cases he : e < 16
  · rcases h with rfl | rfl | ⟨-, rfl⟩ | ⟨h, -⟩
    · simp [engClear, he, meReg, two]
    · simp [engClear, he, meReg]
    · simp [engClear, he, meReg, two]
    · omega
  · rcases h with rfl | rfl | ⟨h, -⟩ | ⟨h, hi⟩
    · simp [engClear, he, taskReg, two]
    · simp [engClear, he, taskReg]
    · exact absurd h he
    · have hae : (e == 20 || e == 21) = true := by simpa using h
      rcases hi with rfl | rfl <;> simp [engClear, he, taskReg, two, hae]

theorem regVal_afterRead_engine {s : State} {b e i : Nat} (hb : engBlock b = some e) (h : EngRc e i) :
    regVal (afterRead s b i) b i = 0 := by
  rw [afterRead_engine hb, regVal_engine hb]
  have : engOf (modEng s e (engClear e i)) e = engClear e i (engOf s e) :=
    getD_modAt_self s.eng e (engClear_default e i)
  rw [this]
  exact engReg_engClear h _

theorem regVal_afterRead_isp {s : State} {b i : Nat} (hb : b = 0x26 ∨ b = 0x27) (hi : i = 1 ∨ i = 2) :
    regVal (afterRead s b i) b i = 0 := by
  rw [afterRead_isp i s hb, regVal_isp i _ hb]
  have hx : (modIsp s (b - 0x26) (ispClear · i)).sens.isp.getD (b - 0x26) {} = ispClear (s.sens.isp.getD (b - 0x26) {}) i :=
    getD_modAt_self _ _ (by rcases hi with rfl | rfl <;> rfl)
  simp only [ispReg, hx]
  rcases hi with rfl | rfl <;> rfl

theorem regVal_afterRead_sp {s : State} {b i : Nat} (hb : 0x30 ≤ b ∧ b < 0x40) (hi : i = 1 ∨ i = 2) :
    regVal (afterRead s b i) b i = 0 := by
  rw [afterRead_sp i s hb, regVal_sp i _ hb]
  have hx : (modSp s (b - 0x30) (spClear · i)).sens.sp.getD (b - 0x30) {} = spClear (s.sens.sp.getD (b - 0x30) {}) i :=
    getD_modAt_self _ _ (by rcases hi with rfl | rfl <;> rfl)
  simp only [spReg, hx]
  rcases hi with rfl | rfl <;> rfl

theorem regVal_afterRead_eth {s : State} {b i : Nat} (hb : 0x40 ≤ b ∧ b < 0x48) (hi : i = 1 ∨ i = 2 ∨ i = 3) :
    regVal (afterRead s b i) b i = 0 := by
  rw [afterRead_eth i s hb, regVal_eth i _ hb]
  have hx : (modEth s (b - 0x40) (ethClear · i)).sens.eth.getD (b - 0x40) {} = ethClear (s.sens.eth.getD (b - 0x40) {}) i :=
    getD_modAt_self _ _ (by rcases hi with rfl | rfl | rfl <;> rfl)
  simp only [ethReg, hx]
  rcases hi with rfl | rfl | rfl <;> rfl

/-- The RC words of the blocks that stand alone. -/
def loneRc : List (Nat × Nat) :=
  [(0x00, 2), (0x00, 4), (0x01, 1), (0x01, 2), (0x01, 3), (0x02, 16), (0x02, 18), (0x02, 19), (0x04, 6), (0x04, 9),
   (0x04, 11), (0x05, 2), (0x06, 1), (0x06, 2), (0x06, 3), (0x06, 4), (0x06, 5), (0x06, 6), (0x06, 7), (0x07, 0),
   (0x07, 1), (0x07, 2), (0x07, 3), (0x08, 13), (0x08, 14), (0x09, 6), (0x09, 7), (0x0A, 3), (0x0A, 4), (0x0A, 5),
   (0x48, 5), (0x48, 6)]

theorem regVal_afterRead_lone (s : State) : ∀ x ∈ loneRc, regVal (afterRead s x.1 x.2) x.1 x.2 = 0 := by
  intro x hx
  fin_cases hx <;> rfl

/-- The RC words by kind of block. -/
theorem readClears_cases {b i : Nat} (h : (b, i) ∈ readClears) :
    (b, i) ∈ loneRc ∨ (∃ e, engBlock b = some e ∧ EngRc e i) ∨ ((b = 0x26 ∨ b = 0x27) ∧ (i = 1 ∨ i = 2))
      ∨ ((0x30 ≤ b ∧ b < 0x40) ∧ (i = 1 ∨ i = 2)) ∨ ((0x40 ≤ b ∧ b < 0x48) ∧ (i = 1 ∨ i = 2 ∨ i = 3)) := by
  simp only [readClears, List.mem_append] at h
  rcases h with (((((h | h) | h) | h) | h) | h) | h
  · exact .inl h
  all_goals
    simp only [List.mem_flatMap, List.mem_map, List.mem_range, List.mem_cons, Prod.mk.injEq, List.not_mem_nil,
      or_false] at h
  · obtain ⟨n, hn, h⟩ := h
    obtain rfl : b = 0x10 + n := by omega
    exact .inr (.inl ⟨n, engBlock_low (by omega), by unfold EngRc; omega⟩)
  · obtain ⟨n, hn, h⟩ := h
    obtain rfl : b = 0x10 + n := by omega
    exact .inr (.inl ⟨n, engBlock_low (by omega), by unfold EngRc; omega⟩)
  · obtain ⟨n, hn, h⟩ := h
    obtain rfl : b = 0x28 + n := by omega
    exact .inr (.inl ⟨n + 22, engBlock_high hn, by unfold EngRc; omega⟩)
  · rcases h with ⟨rfl, rfl⟩ | ⟨rfl, rfl⟩ | ⟨rfl, rfl⟩ | ⟨rfl, rfl⟩ | h
    · exact .inr (.inl ⟨20, rfl, by unfold EngRc; omega⟩)
    · exact .inr (.inl ⟨20, rfl, by unfold EngRc; omega⟩)
    · exact .inr (.inl ⟨21, rfl, by unfold EngRc; omega⟩)
    · exact .inr (.inl ⟨21, rfl, by unfold EngRc; omega⟩)
    · exact .inr (.inr (.inl (by omega)))
  all_goals
    obtain ⟨n, hn, h⟩ := h
    omega

/-- What a read of a register of any block but TB leaves alone. -/
structure ReadFrame (s t : State) : Prop where
  fsw : t.fc.fsw = s.fc.fsw
  mem : t.mem = s.mem
  tb : t.tb = s.tb
  tokens : t.cmd.tokens = s.cmd.tokens
  jobs : t.jobs = s.jobs

theorem ReadFrame.ite {s x y : State} {c : Prop} [Decidable c] (hx : ReadFrame s x) (hy : ReadFrame s y) :
    ReadFrame s (if c then x else y) := by
  split
  · exact hx
  · exact hy

theorem afterRead_frame (s : State) {b : Nat} (i : Nat) (hb : b ≠ 0x03) : ReadFrame s (afterRead s b i) := by
  cases h : engBlock b with
  | some e =>
    rw [afterRead_engine h]
    exact ⟨rfl, rfl, rfl, rfl, rfl⟩
  | none =>
    simp only [afterRead, h]
    rw [if_neg hb]
    repeat' with_reducible apply ReadFrame.ite
    all_goals exact ⟨rfl, rfl, rfl, rfl, rfl⟩

/-- A cleared RC word reads 0. -/
theorem regVal_afterRead_rc {b i : Nat} (h : (b, i) ∈ readClears) (s : State) : regVal (afterRead s b i) b i = 0 := by
  rcases readClears_cases h with h | ⟨e, he, h⟩ | ⟨hb, h⟩ | ⟨hb, h⟩ | ⟨hb, h⟩
  · exact regVal_afterRead_lone s _ h
  · exact regVal_afterRead_engine he h
  · exact regVal_afterRead_isp hb h
  · exact regVal_afterRead_sp hb h
  · exact regVal_afterRead_eth hb h

/-- The numbered blocks decode eight words (R484). -/
theorem blockW_numbered {b : Nat} (h : (0x10 ≤ b ∧ b ≤ 0x2B) ∨ (0x30 ≤ b ∧ b ≤ 0x48)) : blockW b = some 3 := by
  simp only [blockW, Bool.or_eq_true, Bool.and_eq_true, decide_eq_true_eq]
  repeat rw [if_neg (by omega)]
  exact if_pos h

/-- An RC word lies among those that its block decodes, and not in TB. -/
theorem readClears_decoded {b i : Nat} (h : (b, i) ∈ readClears) : ∃ W, blockW b = some W ∧ i < 2 ^ W ∧ b ≠ 0x03 := by
  have numbered (hb : (0x10 ≤ b ∧ b ≤ 0x2B) ∨ (0x30 ≤ b ∧ b ≤ 0x48)) (hi : i < 8) :
      ∃ W, blockW b = some W ∧ i < 2 ^ W ∧ b ≠ 0x03 := ⟨3, blockW_numbered hb, hi, by omega⟩
  rcases readClears_cases h with h | ⟨e, he, h⟩ | ⟨hb, h⟩ | ⟨hb, h⟩ | ⟨hb, h⟩
  · have : ∀ x ∈ loneRc, ∃ W ∈ blockW x.1, x.2 < 2 ^ W ∧ x.1 ≠ 0x03 := by decide
    exact this _ h
  · have := engBlock_range he
    exact numbered (by omega) (by unfold EngRc at h; omega)
  all_goals exact numbered (by omega) (by omega)

/-- Settles O12: the word is read once, its value and frame come from `afterRead`, and it then reads 0 by its kind of
block. -/
theorem readsOfRcRegistersClear : Obligations.ReadsOfRcRegistersClear := by
  intro s b i p hm hp ho
  obtain ⟨W, hW, hi, hb⟩ := readClears_decoded hm
  obtain ⟨hf, hmem, htb, htok, hj⟩ := afterRead_frame (noData s) i hb
  exact ⟨_, exec_rcRegisterRead_reg hW hi hp ho, rfl, (regVal_putData _ _ _ _).trans (regVal_afterRead_rc hm _),
    hf, hmem, htb, htok, hj⟩

end Sys2Proof.Proofs
end

section
/-! PROOFS. Two frames of memory that fail in states whose lists of bad units are out of shape: `csramBad` holds an
address outside CSRAM, or `poison` one that is no unit's base. `Inv` bounds neither (both states meet it), nor do the
hypotheses of the clauses that fail. -/

namespace Sys2Proof.Proofs

open Sys2Proof Sys2Proof.Machine

/-- Refutes O4. `csramBad` names the first line of DRAM, where `readUnits` takes each unit listed there as uncorrectable.
The job of evidence entry 0 has ended DONE, and its one row is a byte of that line: the copy, though no read of it is given
an error, meets one and poisons the line (R225, R229, R361), which was not poisoned. -/
theorem not_quietCommandsLeaveWorkAlone : ¬ Obligations.QuietCommandsLeaveWorkAlone := by
  intro h
  obtain ⟨t, ht, -, hp, -⟩ := h (.evidenceCopy 0 [])
    { sch := { run := .running, phase := .compute, tt := [{ ended := some .done }] }
      sets := { slot0 := { st := .active, prog := { evids := [[0, 0, 0, 0, 0, 0x0001_0010, 0x0001_0001, 0x0001_0001]] } } }
      hl := { written := false, evid := [none] }
      csramBad := [0x10_0000_0000] } rfl (fun _ => rfl)
  cases ht
  exact absurd hp (by decide)

/-- Refutes O40, in its clause on BAR2 writes into Cove. `poison` holds 48, which is no sector's base. A write of 64 bytes at
32 goes in two requests, at 32 and at 64 (R216); neither covers the 32 bytes from 48, so the entry stays, while one store of
all 64 bytes, which `hostStored` compares with, covers them and removes it (R234). -/
theorem not_hostMemoryAccesses : ¬ Obligations.HostMemoryAccesses := by
  rintro ⟨⟨-, hbar2, -⟩, -⟩
  obtain ⟨t, ht, -, -, -, hs, -⟩ := hbar2 { boot := .firmware, pcie := { up := true }, poison := [48] } 32
    (List.replicate 64 1) [] rfl rfl rfl (by decide) rfl rfl (by decide)
  obtain ⟨-, hp, -⟩ := hs List.not_mem_nil
  cases ht
  exact absurd hp (by decide)

end Sys2Proof.Proofs
end

section
/-! PROOFS. Command packets (R448 to R455): the state in which a packet's command runs, and the replies of its refusals. -/

namespace Sys2Proof.Proofs

open Sys2Proof Sys2Proof.Machine Sys2Proof.Laws

/-- The state in which a command runs is the one before it, but for the command ports. -/
theorem starts_eq {s s0 : State} {op flags : Nat} {k : Pkt} (h : starts s op flags k = some s0) :
    s0 = { s with cmd := s0.cmd } := by
  unfold starts at h
  split at h
  · cases h
  split at h <;> split at h <;> cases h
  · cases k.port <;> rfl
  · rfl

theorem starts_cmd {s s0 : State} {op flags : Nat} {k : Pkt} (h : starts s op flags k = some s0) :
    ∃ c, s0 = { s with cmd := c } := ⟨_, starts_eq h⟩

/-- A command whose body refuses leaves the state in which it ran, with the refusal placed. -/
theorem command_refuses {op flags : Nat} {k : Pkt} {body : State → Ans} {s s0 : State} {st : Status} {pl : List Word}
    (h : starts s op flags k = some s0) (hb : body s0 = refuse s0 st pl) :
    command op flags k body s = answered s0 op k st pl :=
  command_starts h hb rfl

end Sys2Proof.Proofs
end

section
/-! PROOFS. The time base (R311): where it stands, and how many cycles have passed, after an event due at an instant. -/

namespace Sys2Proof.Proofs

open Sys2Proof Sys2Proof.Machine Sys2Proof.Laws

/-! ### Fields of words -/

/-- The top field of a word is clear exactly where the word is below it. -/
theorem bits_top_eq_zero (w : Word) {lo : Nat} (h : lo ≤ 32) : bits w 31 lo = 0 ↔ w.toNat < 2 ^ lo := by
  have hw : w.toNat / 2 ^ lo < 2 ^ (32 - lo) := by
    rw [Nat.div_lt_iff_lt_mul (Nat.two_pow_pos lo), ← Nat.pow_add, Nat.sub_add_cancel h]
    exact w.isLt
  rw [bits, show 31 + 1 - lo = 32 - lo from rfl, Nat.mod_eq_of_lt hw, Nat.div_eq_zero_iff]
  have := Nat.two_pow_pos lo
  omega

/-- The high word of an address pair without reserved bits. -/
theorem pair48_of_lt (lo : Word) {hi : Word} (h : hi.toNat < 65536) : pair48 lo hi = lo.toNat + hi.toNat * 2 ^ 32 := by
  simp only [pair48, bits]
  omega

/-! ### Where the time base stands -/

/-- The time base turns over after 2^48 seconds (R311). -/
def timeSpan : Nat := 2 ^ 48 * 1000000000

@[simp] theorem ppsRise_sec (s : State) (b : Bool) : (ppsRise s b).tb.sec = s.tb.sec := by
  unfold ppsRise; split <;> rfl

@[simp] theorem ppsRise_ns (s : State) (b : Bool) : (ppsRise s b).tb.ns = s.tb.ns := by
  unfold ppsRise; split <;> rfl

@[simp] theorem ppsRise_trigFired (s : State) (b : Bool) : (ppsRise s b).tb.trigFired = s.tb.trigFired := by
  unfold ppsRise; split <;> rfl

@[simp] theorem ppsRise_trigNext (s : State) (b : Bool) : (ppsRise s b).sens.trigNext = s.sens.trigNext := by
  unfold ppsRise; split <;> rfl

@[simp] theorem fire_sec (s : State) (ch : Nat) : (fire s ch).tb.sec = s.tb.sec :=
  ite_keeps (fun s => s.tb.sec) (ppsRise_sec _ _) rfl

@[simp] theorem fire_ns (s : State) (ch : Nat) : (fire s ch).tb.ns = s.tb.ns :=
  ite_keeps (fun s => s.tb.ns) (ppsRise_ns _ _) rfl

@[simp] theorem fire_trigNext (s : State) (ch : Nat) : (fire s ch).sens.trigNext = s.sens.trigNext :=
  ite_keeps (fun s => s.sens.trigNext) (ppsRise_trigNext _ _) rfl

/-- A channel that fires sets its bit (R324). -/
theorem fire_trigFired (s : State) (ch : Nat) :
    (fire s ch).tb.trigFired = s.tb.trigFired ||| BitVec.ofNat 32 (2 ^ ch) :=
  ite_keeps (fun s => s.tb.trigFired) (ppsRise_trigFired _ _) rfl

@[simp] theorem carryEffects_sec (s : State) : (carryEffects s).tb.sec = s.tb.sec := by
  simp only [carryEffects, ppsRise_sec]
  exact foldl_keeps (fun s => s.tb.sec) fire fire_sec _ s

@[simp] theorem carryEffects_ns (s : State) : (carryEffects s).tb.ns = s.tb.ns := by
  simp only [carryEffects, ppsRise_ns]
  exact foldl_keeps (fun s => s.tb.ns) fire fire_ns _ s

@[simp] theorem carryEffects_trigNext (s : State) : (carryEffects s).sens.trigNext = s.sens.trigNext := by
  simp only [carryEffects, ppsRise_sens]
  exact foldl_keeps (fun s => s.sens.trigNext) fire fire_trigNext _ s

@[simp] theorem now_carryEffects (s : State) : now (carryEffects s) = now s := by
  simp [now]

/-- The time base advanced to an instant that has passed stands still. -/
theorem advanceTo_of_le {s : State} {t : Nat} (h : t ≤ now s) : advanceTo s t = s := if_pos h

/-- The time base advanced to an instant to come, and the cycle count with it. -/
theorem advanceTo_of_lt {s : State} {t : Nat} (h : now s < t) :
    now (advanceTo s t) = t % timeSpan ∧ (advanceTo s t).tb.sec = t / 1000000000 % 2 ^ 48
      ∧ (advanceTo s t).clk = s.clk + (t / 4 - now s / 4) := by
  have : advanceTo s t = { s with
      clk := s.clk + (t / 4 - now s / 4)
      tb := { s.tb with sec := t / 1000000000 % 2 ^ 48, ns := t % 1000000000, frac := 0 } } := if_neg (by omega)
  rw [this]
  refine ⟨?_, rfl, rfl⟩
  rw [timeSpan, Nat.mul_comm (2 ^ 48), Nat.mod_mul, Nat.add_comm (t % _), Nat.mul_comm 1000000000 (_ % _)]
  rfl

theorem passSecs_zero (s : State) : passSecs 0 s = s := rfl

theorem passSecs_succ (n : Nat) (s : State) :
    passSecs (n + 1) s = carryEffects (advanceTo (passSecs n s) (((passSecs n s).tb.sec + 1) * 1000000000)) := by
  unfold passSecs
  rw [List.range_succ, List.foldl_append, List.foldl_cons, List.foldl_nil]

/-- Where carries leave the time base: it stands still where its nanoseconds already exceed a second, or at a whole second no
later than that many seconds on; the cycles that pass are at least those up to any later instant. -/
theorem passSecs_time (s : State) {t : Nat} : ∀ n, s.tb.sec + n ≤ t / 1000000000 →
    (now (passSecs n s) = now s ∧ (passSecs n s).tb.sec = s.tb.sec ∧ (passSecs n s).clk = s.clk
      ∨ now s < (s.tb.sec + n) * 1000000000 ∧ now (passSecs n s) ≤ (s.tb.sec + n) * 1000000000
        ∧ (passSecs n s).tb.sec ≤ s.tb.sec + n)
    ∧ s.clk + (t / 4 - now s / 4) ≤ (passSecs n s).clk + (t / 4 - now (passSecs n s) / 4) := by
  intro n
  induction n with
  | zero =>
    rw [passSecs_zero]
    exact fun _ => ⟨.inl ⟨rfl, rfl, rfl⟩, le_rfl⟩
  | succ n ih =>
    intro hn
    obtain ⟨hs, hc⟩ := ih (by omega)
    rw [passSecs_succ, now_carryEffects, carryEffects_sec, carryEffects_clk]
    generalize passSecs n s = u at hs hc ⊢
    by_cases h : (u.tb.sec + 1) * 1000000000 ≤ now u
    · rw [advanceTo_of_le h]
      refine ⟨?_, hc⟩
      rcases hs with hs | hs
      · exact .inl hs
      · obtain ⟨ha, hb, hd⟩ := hs
        have hstep : (s.tb.sec + n) * 1000000000 ≤ (s.tb.sec + (n + 1)) * 1000000000 :=
          Nat.mul_le_mul_right _ (by omega)
        exact .inr ⟨ha.trans_le hstep, hb.trans hstep, by omega⟩
    · obtain ⟨h1, h2, h3⟩ := advanceTo_of_lt (Nat.lt_of_not_le h)
      rw [h1, h2, h3]
      have hle := Nat.mod_le ((u.tb.sec + 1) * 1000000000) timeSpan
      have hsec : (u.tb.sec + 1) * 1000000000 / 1000000000 % 2 ^ 48 ≤ u.tb.sec + 1 := by
        rw [Nat.mul_div_cancel _ (by decide)]
        exact Nat.mod_le _ _
      generalize (u.tb.sec + 1) * 1000000000 / 1000000000 % 2 ^ 48 = m at hsec ⊢
      generalize (u.tb.sec + 1) * 1000000000 % timeSpan = r at hle ⊢
      have hu : now u = u.tb.sec * 1000000000 + u.tb.ns := rfl
      refine ⟨.inr ?_, ?_⟩ <;> omega

/-- An event due at an instant finds the time base there, or beyond it where the instant has passed (R311). -/
theorem now_passTo (s : State) (t : Nat) :
    (t ≤ now s ∧ now (passTo s t) = now s)
    ∨ (now s < t ∧ (now (passTo s t) = t % timeSpan ∨ now (passTo s t) = t)) := by
  have hs : now s = s.tb.sec * 1000000000 + s.tb.ns := rfl
  unfold passTo
  rcases Nat.eq_zero_or_pos (t / 1000000000 - s.tb.sec) with hz | hp
  · rw [hz, passSecs_zero]
    rcases Nat.lt_or_ge (now s) t with h | h
    · exact .inr ⟨h, .inl (advanceTo_of_lt h).1⟩
    · exact .inl ⟨h, by rw [advanceTo_of_le h]⟩
  · obtain ⟨h, -⟩ := passSecs_time s (t := t) (t / 1000000000 - s.tb.sec) (by omega)
    generalize passSecs (t / 1000000000 - s.tb.sec) s = u at h ⊢
    rcases Nat.lt_or_ge (now u) t with hu | hu
    · rw [(advanceTo_of_lt hu).1]
      exact .inr ⟨by omega, .inl rfl⟩
    · rw [advanceTo_of_le hu]
      rcases h with h | h
      · exact .inl (by omega)
      · exact .inr (by omega)

theorem now_passTo_mod (s : State) (t : Nat) : now (passTo s t) % timeSpan = max (now s) t % timeSpan := by
  rcases now_passTo s t with ⟨hle, h⟩ | ⟨hlt, h | h⟩
  · rw [h, Nat.max_eq_left hle]
  · rw [h, Nat.mod_mod, Nat.max_eq_right hlt.le]
  · rw [h, Nat.max_eq_right hlt.le]

/-- Before the time base turns over, it stands at the event's instant or later. -/
theorem le_now_passTo (s : State) {t : Nat} (ht : t < timeSpan) : t ≤ now (passTo s t) := by
  rcases now_passTo s t with ⟨hle, h⟩ | ⟨-, h | h⟩
  · omega
  · rw [h, Nat.mod_eq_of_lt ht]
  · exact h.ge

/-- The cycles up to an instant have passed once the time base has reached it. -/
theorem clk_passTo (s : State) (t : Nat) : s.clk + (t / 4 - now s / 4) ≤ (passTo s t).clk := by
  have hs : now s = s.tb.sec * 1000000000 + s.tb.ns := rfl
  unfold passTo
  have hc : s.clk + (t / 4 - now s / 4) ≤ (passSecs (t / 1000000000 - s.tb.sec) s).clk
      + (t / 4 - now (passSecs (t / 1000000000 - s.tb.sec) s) / 4) := by
    rcases Nat.eq_zero_or_pos (t / 1000000000 - s.tb.sec) with hz | hp
    · rw [hz, passSecs_zero]
    · exact (passSecs_time s (t := t) _ (by omega)).2
  generalize passSecs (t / 1000000000 - s.tb.sec) s = u at hc ⊢
  rcases Nat.lt_or_ge (now u) t with hu | hu
  · rw [(advanceTo_of_lt hu).2.2]; exact hc
  · rw [advanceTo_of_le hu]
    omega

/-- `n` cycles of work pass. -/
theorem clk_elapse (s : State) (n : Nat) : s.clk + n ≤ (elapse s n).clk := by
  have := clk_passTo s (now s + 4 * n)
  unfold elapse
  omega

end Sys2Proof.Proofs
end

section
/-! PROOFS. Trigger channels and the time packets (R311, R315, R320, R323, R324, R327): which channels have fired once the
time base has reached an instant, an edge of a channel, and the answers of TIME_SET and TRIGGER_CFG. -/

namespace Sys2Proof.Proofs

open Sys2Proof Sys2Proof.Machine Sys2Proof.Laws

/-! ### Which trigger channels have fired -/

/-- Channel `c` fires with the carry into a second (R324). -/
def firesOnCarry (s : State) (c : Nat) : Bool := trigValid s c && trigMode s c == 2

/-- A channel's entry is that of the active set. -/
theorem firesOnCarry_congr {s t : State} (h : t.sets = s.sets) (c : Nat) : firesOnCarry t c = firesOnCarry s c := by
  simp [firesOnCarry, trigValid, trigMode, trigEntry, hasActive, activeSet, slotOf, h]

/-- The mask of one channel. -/
theorem getLsbD_channel (ch : Nat) {c : Nat} (hc : c < 32) : (BitVec.ofNat 32 (2 ^ ch)).getLsbD c = decide (ch = c) := by
  rw [BitVec.getLsbD_ofNat, Nat.testBit_two_pow, decide_eq_true hc, Bool.true_and]

theorem getLsbD_fire (s : State) (ch : Nat) {c : Nat} (hc : c < 32) :
    (fire s ch).tb.trigFired.getLsbD c = (s.tb.trigFired.getLsbD c || decide (ch = c)) := by
  rw [fire_trigFired, BitVec.getLsbD_or, getLsbD_channel ch hc]

theorem getLsbD_foldl_fire {c : Nat} (hc : c < 32) (l : List Nat) (s : State) :
    (l.foldl fire s).tb.trigFired.getLsbD c = (s.tb.trigFired.getLsbD c || decide (c ∈ l)) := by
  induction l generalizing s with
  | nil => simp
  | cons a l ih =>
    rw [List.foldl_cons, ih, getLsbD_fire s a hc, Bool.or_assoc, ← Bool.decide_or]
    congr 2
    simp only [List.mem_cons, eq_comm]

theorem getLsbD_carryEffects (s : State) {c : Nat} (hc : c < 32) :
    (carryEffects s).tb.trigFired.getLsbD c = (s.tb.trigFired.getLsbD c || firesOnCarry s c) := by
  simp only [carryEffects, ppsRise_trigFired, getLsbD_foldl_fire hc, List.mem_filter, List.mem_range, hc, true_and,
    firesOnCarry, Bool.decide_eq_true]

@[simp] theorem advanceTo_trigFired (s : State) (t : Nat) : (advanceTo s t).tb.trigFired = s.tb.trigFired :=
  ite_keeps (fun s => s.tb.trigFired) rfl rfl

@[simp] theorem advanceTo_trigNext (s : State) (t : Nat) : (advanceTo s t).sens.trigNext = s.sens.trigNext := by
  rw [advanceTo_sens]

theorem passTo_trigNext (s : State) (t : Nat) : (passTo s t).sens.trigNext = s.sens.trigNext := by
  rw [passTo, advanceTo_trigNext]
  exact Laws.passSecs_keeps (fun s => s.sens.trigNext) (fun s t => by rw [carryEffects_trigNext, advanceTo_trigNext]) _ s

/-- Carries on the way set the bits of the channels that fire on them, and no others. -/
theorem getLsbD_passSecs (s : State) {c : Nat} (hc : c < 32) (n : Nat) :
    (passSecs n s).tb.trigFired.getLsbD c = (s.tb.trigFired.getLsbD c || (decide (0 < n) && firesOnCarry s c)) := by
  induction n with
  | zero => simp [passSecs_zero]
  | succ n ih =>
    have hsets : (advanceTo (passSecs n s) (((passSecs n s).tb.sec + 1) * 1000000000)).sets = s.sets := by
      rw [advanceTo_sets, passSecs_sets]
    rw [passSecs_succ, getLsbD_carryEffects _ hc, advanceTo_trigFired, ih, firesOnCarry_congr hsets]
    cases firesOnCarry s c <;> simp

theorem getLsbD_passTo (s : State) (t : Nat) {c : Nat} (hc : c < 32) :
    (passTo s t).tb.trigFired.getLsbD c
      = (s.tb.trigFired.getLsbD c || (decide (s.tb.sec < t / 1000000000) && firesOnCarry s c)) := by
  rw [passTo, advanceTo_trigFired, getLsbD_passSecs s hc]
  congr 3
  exact propext (by omega)

/-- An event due before the second ends is reached without a carry. -/
theorem passTo_trigFired_of_lt {s : State} {t : Nat} (h : t < (s.tb.sec + 1) * 1000000000) :
    (passTo s t).tb.trigFired = s.tb.trigFired := by
  have hz : t / 1000000000 - s.tb.sec = 0 := by omega
  rw [passTo, advanceTo_trigFired, hz, passSecs_zero]

theorem ppsRise_ppsOut {s : State} {b : Bool} (he : s.tb.ppsOutEn = true) (hb : s.tb.ppsOutSrc = b) :
    (ppsRise s b).pins.ppsOut = true := by
  simp [ppsRise, he, hb]

theorem advanceTo_ppsOutEn (s : State) (t : Nat) : (advanceTo s t).tb.ppsOutEn = s.tb.ppsOutEn :=
  ite_keeps (fun s => s.tb.ppsOutEn) rfl rfl

theorem advanceTo_ppsOutSrc (s : State) (t : Nat) : (advanceTo s t).tb.ppsOutSrc = s.tb.ppsOutSrc :=
  ite_keeps (fun s => s.tb.ppsOutSrc) rfl rfl

/-- PPS_OUT's choice of event is a register's, which no pulse changes. -/
theorem ppsRise_ppsSel (s : State) (b : Bool) :
    ((ppsRise s b).tb.ppsOutEn, (ppsRise s b).tb.ppsOutSrc) = (s.tb.ppsOutEn, s.tb.ppsOutSrc) := by
  unfold ppsRise; split <;> rfl

theorem fire_ppsSel (s : State) (ch : Nat) :
    ((fire s ch).tb.ppsOutEn, (fire s ch).tb.ppsOutSrc) = (s.tb.ppsOutEn, s.tb.ppsOutSrc) :=
  ite_keeps (fun s => (s.tb.ppsOutEn, s.tb.ppsOutSrc)) (ppsRise_ppsSel _ _) rfl

/-- A carry raises PPS_OUT where the second is its source (R327). -/
theorem carryEffects_ppsOut {s : State} (he : s.tb.ppsOutEn = true) (hb : s.tb.ppsOutSrc = false) :
    (carryEffects s).pins.ppsOut = true := by
  have h := foldl_keeps (fun s => (s.tb.ppsOutEn, s.tb.ppsOutSrc)) fire fire_ppsSel
    ((List.range 32).filter (fun c => trigValid s c && trigMode s c == 2)) s
  simp only [he, hb, Prod.mk.injEq] at h
  exact ppsRise_ppsOut h.1 h.2

/-- The carry into the next second, wherever the time base stands in this one. -/
theorem passTo_nextSec (s : State) : passTo s ((s.tb.sec + 1) * 1000000000)
    = advanceTo (carryEffects (advanceTo s ((s.tb.sec + 1) * 1000000000))) ((s.tb.sec + 1) * 1000000000) := by
  have h1 : (s.tb.sec + 1) * 1000000000 / 1000000000 - s.tb.sec = 1 := by
    rw [Nat.mul_div_cancel _ (by decide)]; omega
  rw [passTo, h1, passSecs_succ, passSecs_zero]

theorem advanceTo_nextSec {s : State} (h : now s < (s.tb.sec + 1) * 1000000000) :
    (advanceTo s ((s.tb.sec + 1) * 1000000000)).tb.sec = (s.tb.sec + 1) % 2 ^ 48
      ∧ (advanceTo s ((s.tb.sec + 1) * 1000000000)).tb.ns = 0 := by
  obtain ⟨-, h2, -⟩ := advanceTo_of_lt h
  rw [Nat.mul_div_cancel _ (by decide)] at h2
  refine ⟨h2, ?_⟩
  rw [advanceTo, if_neg (Nat.not_le.2 h)]
  exact Nat.mul_mod_left _ _

/-- Where SECONDS_CARRY leaves the time base (R311). -/
theorem passTo_nextSec_time {s : State} (h : s.tb.ns < 1000000000) :
    (passTo s ((s.tb.sec + 1) * 1000000000)).tb.sec = (s.tb.sec + 1) % 2 ^ 48
      ∧ (passTo s ((s.tb.sec + 1) * 1000000000)).tb.ns = 0 := by
  have hlt : now s < (s.tb.sec + 1) * 1000000000 := by
    rw [now, Nat.add_one_mul]; omega
  obtain ⟨h1, h2⟩ := advanceTo_nextSec hlt
  rw [passTo_nextSec]
  generalize hu : carryEffects (advanceTo s ((s.tb.sec + 1) * 1000000000)) = u
  have hsec : u.tb.sec = (s.tb.sec + 1) % 2 ^ 48 := by rw [← hu, carryEffects_sec, h1]
  have hns : u.tb.ns = 0 := by rw [← hu, carryEffects_ns, h2]
  rcases Nat.lt_or_ge (now u) ((s.tb.sec + 1) * 1000000000) with h | h
  · have h2 := (advanceTo_of_lt h).2.1
    rw [Nat.mul_div_cancel _ (by decide)] at h2
    refine ⟨h2, ?_⟩
    rw [advanceTo, if_neg (Nat.not_le.2 h)]
    exact Nat.mul_mod_left _ _
  · rw [advanceTo_of_le h]
    exact ⟨hsec, hns⟩

theorem advanceTo_ppsOut (s : State) (t : Nat) : (advanceTo s t).pins.ppsOut = s.pins.ppsOut := by
  rw [advanceTo_pins]

/-! ### The packets that set the time service -/

section
variable {k : Pkt} {s s0 : State}

/-- TIME_SET with good parameters in a state that allows it (R14, R315). -/
theorem doTimeSet_eq {s : State} (h1 : (wd k.params 1).toNat < 65536) (h2 : (wd k.params 2).toNat < 1000000000) :
    doTimeSet k s = if s.sch.run = .idle ∨ s.sch.run = .halted then
      ({ s with tb := { s.tb with
          sec := (wd k.params 0).toNat + (wd k.params 1).toNat * 2 ^ 32, ns := (wd k.params 2).toNat
          frac := 0, integral := 0 } }, some (.ok, []))
      else refuse s .wrongState [] := by
  have hb : fld k.params 1 31 16 = 0 := (bits_top_eq_zero _ (by decide)).2 h1
  unfold doTimeSet
  rw [hb, pair48_of_lt _ h1, if_neg (by decide), if_neg (Nat.not_le.2 h2)]
  cases h : s.sch.run <;> simp

theorem doTimeSet_badSec (h1 : 65536 ≤ (wd k.params 1).toNat) : doTimeSet k s = badWord s 3 := by
  have hb : fld k.params 1 31 16 ≠ 0 := fun h => absurd ((bits_top_eq_zero _ (by decide)).1 h) (by omega)
  rw [doTimeSet, if_pos (bne_iff_ne.2 hb)]

theorem doTimeSet_badNs (h1 : (wd k.params 1).toNat < 65536) (h2 : 1000000000 ≤ (wd k.params 2).toNat) :
    doTimeSet k s = badWord s 4 := by
  have hb : fld k.params 1 31 16 = 0 := (bits_top_eq_zero _ (by decide)).2 h1
  rw [doTimeSet, hb, if_neg (by decide), if_pos h2]

/-- The words of TRIGGER_CFG with a reserved code or bit (R320). -/
theorem tcfgBad_eq (w : List Word) : tcfgBad w =
    if (wd w 0).toNat / 32 % 4 = 3 ∨ ((wd w 0).toNat / 16 % 2 = 0 ∧ (wd w 0).toNat / 32 % 4 ≠ 0)
      ∨ (wd w 0).toNat / 128 % 2 = 1 ∨ 2 ^ 19 ≤ (wd w 0).toNat then some 2
    else if 65536 ≤ (wd w 1).toNat then some 3 else none := by
  have h0 := bits_top_eq_zero (wd w 0) (lo := 19) (by decide)
  have h1 := bits_top_eq_zero (wd w 1) (lo := 16) (by decide)
  unfold tcfgBad
  have e1 : ((fld w 0 7 7 != 0 || fld w 0 31 19 != 0 || fld w 0 6 5 == 3 || (fld w 0 4 4 == 0 && fld w 0 6 5 != 0)) = true)
      ↔ ((wd w 0).toNat / 32 % 4 = 3 ∨ ((wd w 0).toNat / 16 % 2 = 0 ∧ (wd w 0).toNat / 32 % 4 ≠ 0)
        ∨ (wd w 0).toNat / 128 % 2 = 1 ∨ 2 ^ 19 ≤ (wd w 0).toNat) := by
    have hf : fld w 0 31 19 ≠ 0 ↔ 2 ^ 19 ≤ (wd w 0).toNat := by
      rw [fld, Ne, h0]; omega
    simp only [Bool.or_eq_true, bne_iff_ne, beq_iff_eq, Bool.and_eq_true, hf]
    simp only [fld, bits]
    omega
  have e2 : ((fld w 1 31 16 != 0) = true) ↔ 65536 ≤ (wd w 1).toNat := by
    rw [bne_iff_ne, fld, Ne, h1]; omega
  simp only [e1, e2]

/-- TRIGGER_CFG by its first fault and the run (R14, R320). -/
theorem doTriggerCfg_good {s : State} (h : tcfgBad k.params = none) :
    doTriggerCfg k s = if s.sch.run = .idle ∨ s.sch.run = .halted then
      ({ s with ts := { s.ts with cfg := k.params.take 10 } }, some (.ok, [])) else refuse s .wrongState [] := by
  unfold doTriggerCfg
  rw [h]
  dsimp only
  cases s.sch.run <;> rfl

theorem doTriggerCfg_bad {i : Nat} (h : tcfgBad k.params = some i) : doTriggerCfg k s = badWord s i := by
  unfold doTriggerCfg
  rw [h]

end

/-! ### TRIGGER_FIRE -/

/-- The instant of a channel's next edge in the frame (R324). -/
def edgeAt (s : State) (ch : Nat) : Nat :=
  s.sch.t + (wd (trigEntry s ch) 1).toNat % 2 ^ 27 + s.sens.trigNext.getD ch 0 * ((wd (trigEntry s ch) 2).toNat % 2 ^ 27)

/-- The state in which a channel's edge falls due: the time base stands there, and the edge is counted. -/
def atEdge (s : State) (ch : Nat) : State :=
  { passTo s (edgeAt s ch) with sens := { (passTo s (edgeAt s ch)).sens with
      trigNext := setAt (passTo s (edgeAt s ch)).sens.trigNext ch (s.sens.trigNext.getD ch 0 + 1) } }

theorem exec_triggerFire {s : State} {ch : Nat} (hr : s.sch.run = .running) (hv : trigValid s ch = true)
    (hm : trigMode s ch ≤ 1) (hn : s.sens.trigNext.getD ch 0
      < (if trigMode s ch = 0 then 1 else (wd (trigEntry s ch) 3).toNat % 65536)) :
    exec (.triggerFire ch) s = .next (fire (atEdge s ch) ch) := by
  have e : (if (trigMode s ch == 0) = true then 1 else fld (trigEntry s ch) 3 15 0)
      = (if trigMode s ch = 0 then 1 else (wd (trigEntry s ch) 3).toNat % 65536) := by
    simp [fld, bits]
  show Host.Outcome.next _ = _
  rw [e]
  simp only [hr, hv, hm, hn, beq_self_eq_true, decide_true, Bool.and_self, if_true]
  simp [atEdge, edgeAt, fld, bits, passTo_trigNext]

theorem exec_triggerFire_idle {s : State} {ch : Nat} (h : s.sch.run ≠ .running ∨ trigValid s ch = false) :
    exec (.triggerFire ch) s = .next s := by
  show Host.Outcome.next _ = _
  rcases h with h | h <;> simp [h]

/-- SECONDS_CARRY while the clocks run (R311). -/
theorem exec_secondsCarry {s : State} (h : clocked s = true) :
    exec .secondsCarry s = .next (passTo s ((s.tb.sec + 1) * 1000000000)) :=
  congrArg Host.Outcome.next (if_pos h)

/-- The carry fires the SECOND channels, and no others (R324). -/
theorem getLsbD_passTo_nextSec (s : State) {c : Nat} (hc : c < 32) :
    (passTo s ((s.tb.sec + 1) * 1000000000)).tb.trigFired.getLsbD c
      = (s.tb.trigFired.getLsbD c || firesOnCarry s c) := by
  have hlt : s.tb.sec < (s.tb.sec + 1) * 1000000000 / 1000000000 := by
    rw [Nat.mul_div_cancel _ (by decide)]; exact Nat.lt_succ_self _
  rw [getLsbD_passTo s _ hc, decide_eq_true hlt, Bool.true_and]

/-- The carry raises PPS_OUT where it is its source (R327). -/
theorem passTo_nextSec_ppsOut {s : State} (he : s.tb.ppsOutEn = true) (hb : s.tb.ppsOutSrc = false) :
    (passTo s ((s.tb.sec + 1) * 1000000000)).pins.ppsOut = true := by
  rw [passTo_nextSec, advanceTo_ppsOut]
  apply carryEffects_ppsOut
  · rw [advanceTo_ppsOutEn, he]
  · rw [advanceTo_ppsOutSrc, hb]

/-- An edge stands at its instant, or at the time base's where that has passed (R324). -/
theorem now_fire_atEdge (s : State) (ch : Nat) :
    now (fire (atEdge s ch) ch) % timeSpan = max (now s) (edgeAt s ch) % timeSpan := by
  rw [← now_passTo_mod s (edgeAt s ch), now, fire_sec, fire_ns]
  rfl

theorem atEdge_trigNext (s : State) (ch : Nat) :
    (fire (atEdge s ch) ch).sens.trigNext = setAt s.sens.trigNext ch (s.sens.trigNext.getD ch 0 + 1) := by
  rw [fire_trigNext]
  exact congrArg (fun l => setAt l ch _) (passTo_trigNext s _)

theorem getLsbD_fire_atEdge (s : State) (ch : Nat) {c : Nat} (hc : c < 32) :
    (fire (atEdge s ch) ch).tb.trigFired.getLsbD c = ((s.tb.trigFired.getLsbD c
      || (decide (s.tb.sec < edgeAt s ch / 1000000000) && firesOnCarry s c)) || decide (ch = c)) := by
  rw [getLsbD_fire _ _ hc, ← getLsbD_passTo s (edgeAt s ch) hc]
  rfl

/-- A channel that does not fire on a carry is invalid or of another mode. -/
theorem firesOnCarry_eq_false {s : State} {c : Nat} (h : trigValid s c = false ∨ trigMode s c ≠ 2) :
    firesOnCarry s c = false := by
  rcases h with h | h <;> simp [firesOnCarry, h]

/-- Settles O20: the packets by their first fault and the run; a channel's edge by where the time base stands and which
channels the carries on the way fire. -/
theorem timeSettingAndTriggers : Obligations.TimeSettingAndTriggers := by
  refine ⟨⟨?_, ?_, ?_, ?_⟩, ?_, ?_, ?_⟩
  · intro k s s0 hs h1 h2
    constructor <;> intro hr
    · exact congrArg _ (command_starts hs ((doTimeSet_eq h1 h2).trans (if_pos hr)) rfl)
    · exact congrArg _ (command_refuses hs ((doTimeSet_eq h1 h2).trans (if_neg (by rcases hr with hr | hr <;> simp [hr]))))
  · intro k s s0 hs h1
    exact congrArg _ (command_refuses hs (doTimeSet_badSec h1))
  · intro k s s0 hs h1 h2
    exact congrArg _ (command_refuses hs (doTimeSet_badNs h1 h2))
  · rintro k s s0 w0 w1 hs rfl rfl
    have hbad := tcfgBad_eq k.params
    refine ⟨fun h => ?_, fun ha hb hc hd => ⟨fun h => ?_, fun h hr => ?_, fun h hr => ?_⟩⟩
    · rw [if_pos h] at hbad
      exact congrArg _ (command_refuses hs (doTriggerCfg_bad hbad))
    all_goals rw [if_neg (by omega)] at hbad
    · rw [if_pos h] at hbad
      exact congrArg _ (command_refuses hs (doTriggerCfg_bad hbad))
    all_goals rw [if_neg (by omega)] at hbad
    · exact congrArg _ (command_starts hs ((doTriggerCfg_good hbad).trans (if_pos hr)) rfl)
    · exact congrArg _ (command_refuses hs
        ((doTriggerCfg_good hbad).trans (if_neg (by rcases hr with hr | hr <;> simp [hr]))))
  · intro s ch hr hv hm hc hn
    refine ⟨_, exec_triggerFire hr hv hm hn, ?_, fun hlt => ?_, fun c hc32 hne hcar => ?_, now_fire_atEdge s ch,
      atEdge_trigNext s ch, ?_, ?_, ?_, ?_⟩
    · simp [getLsbD_fire_atEdge s ch hc]
    · rw [fire_trigFired]
      exact congrArg (· ||| _) (passTo_trigFired_of_lt hlt)
    · simp [getLsbD_fire_atEdge s ch hc32, firesOnCarry_eq_false hcar, hne.symm]
    all_goals simp [atEdge]
  · exact fun s ch h => exec_triggerFire_idle h
  · intro s hcl
    refine ⟨_, exec_secondsCarry hcl, fun ch hc hv hm => ?_, fun ch hc h => ?_, passTo_nextSec_ppsOut,
      passTo_nextSec_time, ?_, ?_, ?_, ?_⟩
    · simp [getLsbD_passTo_nextSec s hc, firesOnCarry, hv, hm]
    · simp [getLsbD_passTo_nextSec s hc, firesOnCarry_eq_false h]
    all_goals simp

end Sys2Proof.Proofs
end

section
/-! PROOFS. Runs (R14, R16, R370): what RUN_CTL START, STOP and REARM answer, by the run state. -/

namespace Sys2Proof.Proofs

open Sys2Proof Sys2Proof.Machine Sys2Proof.Laws

section
variable {k : Pkt} {s : State}

/-- The start time that RUN_CTL START names (R14). -/
def startOf (k : Pkt) : Nat :=
  ((wd k.params 0).toNat + (wd k.params 1).toNat * 2 ^ 32) * 1000000000 + (wd k.params 2).toNat

/-- RUN_CTL START whose parameters are in range. -/
theorem doRunCtlStart_eq (h1 : (wd k.params 1).toNat < 65536) (h2 : (wd k.params 2).toNat < 1000000000) :
    doRunCtlStart k s =
      if s.sch.run != .idle || !hasActive s || s.saf.injFail || anyFA s then refuse s .wrongState []
      else if startOf k < now s + 1000000 then badWord s 2
      else (armRun s (startOf k) (wd k.params 3), some (.ok, [])) := by
  have hb : fld k.params 1 31 16 = 0 := (bits_top_eq_zero _ (by decide)).2 h1
  unfold doRunCtlStart
  rw [hb, pair48_of_lt _ h1, if_neg (by decide), if_neg (Nat.not_le.2 h2)]
  rfl

/-- A run that enters ARMED: an engine that is not quarantined owes a slice (R379). -/
theorem armRun_eng (s : State) (t : Nat) (q : Word) {e : Nat} {x : Engine} (hx : s.eng[e]? = some x) :
    ∃ y : Engine, (armRun s t q).eng[e]? = some y ∧ (x.quar = true → y = x)
      ∧ (x.quar = false → y = { x with katDue := x.katDue ++ [.armed], passed := [], deferred := false }) := by
  refine ⟨_, (List.getElem?_map ..).trans (congrArg _ hx), fun h => ?_, fun h => ?_⟩
  · exact if_pos h
  · exact if_neg (by simp [h])

theorem doRunCtlStop_over (h : s.sch.run = .idle ∨ s.sch.run = .halted) :
    doRunCtlStop k s = refuse s .alreadyDone [] := by
  unfold doRunCtlStop
  rcases h with h | h <;> simp [h]

theorem doRunCtlStop_running (h : s.sch.run = .running) (hp : k.port ≠ .S) :
    doRunCtlStop k s = ({ s with sch := { s.sch with stopReq := true } }, some (.ok, [])) := by
  unfold doRunCtlStop
  simp [h, hp]

/-- Port S withdraws trust at once (R371). -/
theorem doRunCtlStop_portS (h : s.sch.run = .running) (hp : k.port = .S)
    (ht : s.saf.trust = .trusted ∨ s.saf.trust = .awaiting) :
    doRunCtlStop k s = ({ s with
      saf := { s.saf with trust := .withdrawn, wCause := 6, wSeq := s.sch.seq, lease := none, passes := 0 }
      pins := { s.pins with safeA := false, safeB := false }
      sch := { s.sch with portSStop := true, stopReq := true } }, some (.ok, [])) := by
  have hw : (s.saf.trust == .trusted || s.saf.trust == .awaiting) = true := by rcases ht with h | h <;> simp [h]
  unfold doRunCtlStop withdraw
  simp [h, hp, hw]

/-- The state that a stop ends in ARMED, with the mark of port S. -/
def stopMarked (k : Pkt) (s : State) : State :=
  if k.port == .S then { withdraw s 6 with sch := { s.sch with portSStop := true } } else s

theorem doRunCtlStop_armed (h : s.sch.run = .armed) :
    doRunCtlStop k s = (endRunStop (stopMarked k s), some (.ok, [])) := by
  unfold doRunCtlStop
  rw [if_neg (by simp [h])]
  exact if_pos (by simp [h])

/-- Trust is awaited again (R370). -/
theorem doRunCtlRearm_eq (hp : k.port = .H) (hr : s.sch.run = .running) (ht : s.saf.trust = .withdrawn)
    (hf : anyFA s = false) (hps : s.sch.portSStop = false) : doRunCtlRearm k s = (await s, some (.ok, [])) := by
  unfold doRunCtlRearm
  simp [hp, hr, ht, hf, hps]

theorem doRunCtlRearm_refused (h : k.port ≠ .H ∨ s.sch.run ≠ .running ∨ s.saf.trust ≠ .withdrawn ∨ anyFA s = true
    ∨ s.sch.portSStop = true) : doRunCtlRearm k s = refuse s .wrongState [] := by
  unfold doRunCtlRearm
  refine if_pos ?_
  rcases h with h | h | h | h | h <;> simp [h]

@[simp] theorem stopMarked_sets : (stopMarked k s).sets = s.sets := ite_keeps State.sets (withdraw_sets s 6) rfl
@[simp] theorem stopMarked_mem : (stopMarked k s).mem = s.mem := ite_keeps State.mem (withdraw_mem s 6) rfl
@[simp] theorem stopMarked_fc : (stopMarked k s).fc = s.fc := ite_keeps State.fc (withdraw_fc s 6) rfl

end

/-! ### The end of a run by a stop -/

section
variable (s : State)

@[simp] theorem recordEnd_sch : (recordEnd s).sch = s.sch := ite_keeps State.sch rfl rfl
@[simp] theorem recordEnd_saf : (recordEnd s).saf = s.saf := ite_keeps State.saf rfl rfl
@[simp] theorem recordEnd_pins : (recordEnd s).pins = s.pins := ite_keeps State.pins rfl rfl
@[simp] theorem recordEnd_sets : (recordEnd s).sets = s.sets := ite_keeps State.sets rfl rfl
@[simp] theorem recordEnd_mem : (recordEnd s).mem = s.mem := ite_keeps State.mem rfl rfl
@[simp] theorem recordEnd_fc : (recordEnd s).fc = s.fc := ite_keeps State.fc rfl rfl

theorem endRunStop_sch : (endRunStop s).sch =
    { s.sch with run := .idle, phase := .none, stopReq := false, portSStop := false } := by
  have e : (if s.sch.run == .running && !s.sch.portSStop then withdraw s 7 else s).sch = s.sch :=
    ite_keeps State.sch (withdraw_sch s 7) rfl
  simp only [endRunStop, resumeJobs, recordEnd_sch, clearRun_sch, disarm_sch, cancelSwap_sch]
  rw [e]

theorem endRunStop_trust : (endRunStop s).saf.trust = .notArmed := by
  simp [endRunStop, resumeJobs, disarm]

theorem endRunStop_pins : (endRunStop s).pins.safeA = false ∧ (endRunStop s).pins.safeB = false := by
  simp [endRunStop, resumeJobs, disarm]

theorem cancelSwap_pending (s : State) : (cancelSwap s).sets.swapPending = false := by
  unfold cancelSwap
  split
  · rfl
  · simp_all

theorem cancelSwap_cancelled {s : State} (h : s.sets.swapPending = true) :
    (cancelSwap s).sets.cancelled = satAdd 0xFFFF s.sets.cancelled 1 := by
  rw [cancelSwap, if_pos h]

/-- What a stop makes of the sets is what the cancelled swap does. -/
theorem endRunStop_sets : (endRunStop s).sets = (cancelSwap s).sets := by
  have h : ∀ t : State, t.sets = s.sets → (cancelSwap t).sets = (cancelSwap s).sets := fun t ht => by
    simp only [cancelSwap, ht]
    split
    · rfl
    · exact ht
  simp only [endRunStop, resumeJobs, recordEnd_sets, clearRun_sets, disarm_sets]
  exact h _ (ite_keeps State.sets (withdraw_sets s 7) rfl)

theorem endRunStop_mem : (endRunStop s).mem = s.mem := by
  simp only [endRunStop, resumeJobs, recordEnd_mem, clearRun_mem, disarm_mem, cancelSwap_mem]
  exact ite_keeps State.mem (withdraw_mem s 7) rfl

theorem endRunStop_fc : (endRunStop s).fc = s.fc := by
  simp only [endRunStop, resumeJobs, recordEnd_fc, clearRun_fc, disarm_fc, cancelSwap_fc]
  exact ite_keeps State.fc (withdraw_fc s 7) rfl

end

/-- Settles O27: each form of RUN_CTL by its rule, in the state in which its packet runs. -/
theorem runStartsStopsAndRearms : Obligations.RunStartsStopsAndRearms := by
  refine ⟨?_, ?_, ?_⟩
  · rintro k s s0 start hs h1 h2 rfl
    obtain ⟨c, rfl⟩ := starts_cmd hs
    have hd := doRunCtlStart_eq (s := { s with cmd := c }) h1 h2
    refine ⟨fun hr => ?_, fun hr ha hi hf => ?_⟩
    · have hno : (s.sch.run != .idle || !hasActive s || s.saf.injFail || anyFA s) = true := by simp [hr]
      exact congrArg _ (command_refuses hs (hd.trans (if_pos hno)))
    have hmay : ¬ (s.sch.run != .idle || !hasActive s || s.saf.injFail || anyFA s) = true := by simp [hr, ha, hi, hf]
    replace hd := hd.trans (if_neg hmay)
    refine ⟨fun hlt => ?_, fun hle => ?_⟩
    · exact congrArg _ (command_refuses hs (hd.trans (if_pos hlt)))
    · refine ⟨_, congrArg _ (command_starts hs (hd.trans (if_neg (Nat.not_lt.2 hle))) rfl), rfl, rfl, ?_, rfl, rfl,
        fun e x hx => armRun_eng _ _ _ hx, rfl, rfl, rfl, rfl, rfl⟩
      exact rfl
  · intro k s s0 hs
    obtain ⟨c, rfl⟩ := starts_cmd hs
    refine ⟨fun hr => ?_, fun hr hp => ?_, fun hr hp ht => ?_, fun hr => ?_⟩
    · exact congrArg _ (command_refuses hs (doRunCtlStop_over hr))
    · exact congrArg _ (command_starts hs (doRunCtlStop_running hr hp) rfl)
    · exact congrArg _ (command_starts hs (doRunCtlStop_portS hr hp ht) rfl)
    · have hf : (endRunStop (stopMarked k { s with cmd := c })).fc = s.fc := by rw [endRunStop_fc, stopMarked_fc]
      refine ⟨_, congrArg _ (command_starts hs (doRunCtlStop_armed hr) (congrArg FaultColl.fsw hf)), ?_, endRunStop_trust _,
        (endRunStop_pins _).1, (endRunStop_pins _).2, ?_, ?_, ?_, ?_, fun hp => ?_⟩
      · rw [endRunStop_sch]
      · rw [endRunStop_sets, cancelSwap_pending]
      · rw [endRunStop_sch]
      · rw [endRunStop_sch]
      · rw [endRunStop_mem, stopMarked_mem]
      · have hp' : (stopMarked k { s with cmd := c }).sets.swapPending = true := by rw [stopMarked_sets]; exact hp
        rw [endRunStop_sets, cancelSwap_cancelled hp', stopMarked_sets]
  · intro k s s0 hs
    obtain ⟨c, rfl⟩ := starts_cmd hs
    refine ⟨fun hp hr ht hf hps => ?_, fun h => ?_⟩
    · exact congrArg _ (command_starts hs (doRunCtlRearm_eq hp hr ht hf hps) rfl)
    · exact congrArg _ (command_refuses hs (doRunCtlRearm_refused h))

end Sys2Proof.Proofs
end

section
/-! PROOFS. Set objects outside DRAM: `Inv` does not bound where a slot's objects lie, and a read that starts below CSRAM and
runs into it meets an uncorrectable byte of CSRAM that `poisoned` does not look for. -/

namespace Sys2Proof.Proofs

open Sys2Proof Sys2Proof.Machine

/-- A device whose slot 0 holds a Tide Table that starts four bytes below CSRAM, the first byte of which is uncorrectable. -/
def tideBelowCsram : State :=
  { boot := .firmware, saf := { injDone := true }, pcie := { up := true }, csramBad := [0x0800_0000]
    sets := { slot0 := { objs := [⟨0, 0x07FF_FFFC, 8⟩] } } }

/-- READ_SET_INFO of slot 0 on port H. -/
def readSlot0 : Pkt := { port := .H, tag := 1, seq := 1, params := [0] }

/-- Refutes O25, in its clause on READ_SET_INFO. The reads of `tideBelowCsram` count as good: a region is looked up in
`csramBad` only where it starts in CSRAM. But the second request of the read starts there, detects the byte (R233) and sets
source 75, so that more than what the reads count has changed. -/
theorem not_loadReadAndSwapSets : ¬ Obligations.LoadReadAndSwapSets := by
  rintro ⟨⟨-, hinfo⟩, -⟩
  obtain ⟨hgood, -⟩ := hinfo readSlot0 tideBelowCsram tideBelowCsram false [] [(0x07FF_FFFC, 8)] (by decide) rfl rfl
  obtain ⟨u, w1, dg, present, -, -, -, rfl, honly⟩ := hgood (by decide)
  replace honly := honly rfl rfl
  unfold onlyReads at honly
  have hfc : (readAll tideBelowCsram srcPairA [(0x07FF_FFFC, 8)] []).fc.fsw = tideBelowCsram.fc.fsw := by
    rw [honly]
  exact absurd hfc (by decide)

end Sys2Proof.Proofs
end

section
/-! PROOFS. The background work of the device: the ends of jobs with all that follows from them (R34, R421), the stream units
(R241 to R244), and the reaction to a fatal source (R410). One relation says what of a state they leave as it is. -/

namespace Sys2Proof.Proofs

open Sys2Proof Sys2Proof.Machine Sys2Proof.Laws

/-! ### The relation -/

/-- The replies to a Mapin read that wait to be sent. -/
def waitReplies (s : State) : List MFrame := s.map.waitQ.filter (fun f => f.typ == .readReply)

/-- What neither the ends of jobs, nor the stream units, nor the reaction to a fatal source touches. -/
def core (s : State) :=
  (s.rst.pairA, s.fc.cRd, s.ms.epoch, s.cmd.h.lastReply, s.cmd.s.lastReply, s.cmd.d.lastReply, waitReplies s)

/-- What neither the ends of jobs nor the stream units touch: beside `core` the run, the frame, the sets and trust. -/
def still (s : State) :=
  (core s, (s.sch.run, s.sch.phase, s.sch.seq, s.sch.t, s.sch.frames, s.sch.arrived), s.sets,
    (s.saf.trust, s.saf.wCause, s.saf.wSeq, s.hl.written), s.pins.safeA, s.pins.safeB)

/-- `t` comes of `s` by background work that keeps the view `π`: no source clears, no job begins, and an entry of the Tide Table
keeps its token, and all else once it has ended and no job is of it. -/
structure Follows {α : Type} (π : State → α) (s t : State) : Prop where
  keep : π t = π s
  fsw : ∀ i, s.fc.fsw.getLsbD i = true → t.fc.fsw.getLsbD i = true
  jobs : ∀ j ∈ t.jobs, ∃ k ∈ s.jobs, k.token = j.token ∧ k.jobId = j.jobId
  tt : ∀ i x, s.sch.tt[i]? = some x → ∃ y, t.sch.tt[i]? = some y ∧ y.token = x.token
    ∧ (x.ended.isSome = true → (∀ j ∈ s.jobs, j.jobId ≠ i) → y = x)

/-- Background work without a fatal source. -/
abbrev Bg := Follows still

section
variable {α : Type} {π : State → α} {z s t : State}

theorem Follows.refl (s : State) : Follows π s s :=
  ⟨rfl, fun _ h => h, fun j hj => ⟨j, hj, rfl, rfl⟩, fun _ x hx => ⟨x, hx, rfl, fun _ _ => rfl⟩⟩

theorem Follows.trans (h : Follows π z s) (g : Follows π s t) : Follows π z t where
  keep := g.keep.trans h.keep
  fsw i hi := g.fsw i (h.fsw i hi)
  jobs j hj := by
    obtain ⟨k, hk, ht, hi⟩ := g.jobs j hj
    obtain ⟨l, hl, ht', hi'⟩ := h.jobs k hk
    exact ⟨l, hl, ht'.trans ht, hi'.trans hi⟩
  tt i x hx := by
    obtain ⟨y, hy, hyx, hye⟩ := h.tt i x hx
    obtain ⟨w, hw, hwy, hwe⟩ := g.tt i y hy
    refine ⟨w, hw, hwy.trans hyx, fun he hj => ?_⟩
    obtain rfl := hye he hj
    refine hwe he fun j hjs e => ?_
    obtain ⟨k, hk, -, hki⟩ := h.jobs j hjs
    exact hj k hk (hki.trans e)

theorem Follows.weaken {β : Type} {ρ : State → β} (f : α → β) (hρ : ∀ s, ρ s = f (π s)) (h : Follows π z s) :
    Follows ρ z s := ⟨by rw [hρ, hρ, h.keep], h.fsw, h.jobs, h.tt⟩

theorem Follows.foldl {β : Type} {f : State → β → State} (hf : ∀ s x, Follows π z s → Follows π z (f s x)) (l : List β)
    (h : Follows π z s) : Follows π z (l.foldl f s) := by
  induction l generalizing s with
  | nil => exact h
  | cons x r ih => exact ih (hf s x h)

theorem Follows.ite {c : Prop} [Decidable c] (hs : Follows π z s) (ht : Follows π z t) :
    Follows π z (if c then s else t) := by
  split
  · exact hs
  · exact ht

/-- A change of nothing that the relation speaks of. -/
theorem Follows.of_eq (h : Follows π z s) (hπ : π t = π s) (hf : t.fc.fsw = s.fc.fsw) (hj : t.jobs = s.jobs)
    (ht : t.sch.tt = s.sch.tt) : Follows π z t :=
  h.trans ⟨hπ, by rw [hf]; exact fun _ h => h, by rw [hj]; exact (Follows.refl (π := π) s).jobs, by rw [ht]; exact (Follows.refl (π := π) s).tt⟩

/-- A token that no live job has stays so. -/
theorem Follows.jobOf_none (h : Follows π s t) {tok : Word} (hs : jobOf s tok = none) : jobOf t tok = none := by
  simp only [jobOf, List.find?_eq_none, beq_iff_eq] at hs ⊢
  intro j hj e
  obtain ⟨k, hk, hkt, -⟩ := h.jobs j hj
  exact hs k hk (hkt.trans e)

theorem Bg.toCore (h : Bg s t) : Follows core s t := h.weaken Prod.fst (fun _ => rfl)

end

/-! ### Operations that touch nothing of it -/

/-- All that the relation speaks of. -/
def seen (s : State) := (still s, s.fc.fsw, s.jobs, s.sch.tt)

theorem Follows.of_seen {z s t : State} (h : Bg z s) (e : seen t = seen s) : Bg z t := by
  simp only [seen, Prod.mk.injEq] at e
  exact h.of_eq e.1 e.2.1 e.2.2.1 e.2.2.2

section
variable (s : State)

theorem modEng_seen (e : Nat) (f : Engine → Engine) : seen (modEng s e f) = seen s := rfl
theorem storeWords_seen (a : Nat) (ws : List Word) : seen (storeWords s a ws) = seen s := rfl
theorem modXfer_seen (id : Nat) (f : Xfer → Xfer) : seen (modXfer s id f) = seen s := rfl
theorem addXfer_seen (unit prio : Nat) (use : XUse) (src dst len : Nat) :
    seen (addXfer s unit prio use src dst len) = seen s := rfl
theorem finishTok_seen (t : Word) (st : Status) (pl : List Word) : seen (finishTok s t st pl) = seen s := rfl
theorem setTokCode_seen (t : Word) (c : Nat) : seen (setTokCode s t c) = seen s := rfl
theorem writeFb_seen (j : Job) (l : LayerCnt) (o : Nat) : seen (writeFb s j l o) = seen s := by
  simp only [seen, still, core, waitReplies, writeFb, storeWords, store]

theorem markUnit_seen (u : Nat) : seen (markUnit s u) = seen s := by
  have hp : seen (addPoison s u) = seen s := ite_keeps seen rfl rfl
  exact ite_keeps seen hp (ite_keeps seen hp hp)

theorem storeMoved_seen (a : Nat) (bs : List Byte) (bad : Nat → Nat → Bool) : seen (storeMoved s a bs bad) = seen s :=
  ite_keeps seen rfl (foldl_keeps seen _ markUnit_seen _ _)

theorem touchCheck_seen (a : Nat) : seen (touchCheck s a) = seen s := ite_keeps seen rfl rfl

theorem issueReq_seen (src : Nat) (w : Bool) (a len level : Nat) (u : ReqUse) :
    seen (issueReq s src w a len level u) = seen s :=
  (touchCheck_seen _ _).trans
    (foldl_keeps seen (fun s l => takeCredit s l .ring l) (fun _ _ => rfl) _ (takeCredit s _ _ _))

theorem queueRow_seen (unit prio : Nat) (use : XUse) (src dst len : Nat) :
    seen (queueRow s unit prio use src dst len) = seen s :=
  foldl_keeps seen _ (fun _ _ => addXfer_seen _ _ _ _ _ _ _) _ _

theorem pinPage_seen (k : Nat) (p : Bool) : seen (pinPage s k p) = seen s := by
  refine (storeWords_seen _ _ _).trans (ite_keeps seen rfl rfl)

theorem freePins_seen (id : Nat) : seen (freePins s id) = seen s :=
  ite_keeps seen rfl (foldl_keeps seen _ (fun s _ => pinPage_seen s _ _) _ _)

theorem unlockWalk_seen (w : Walk) : seen (unlockWalk s w) = seen s := ite_keeps seen rfl rfl

theorem releaseWalk_seen (e : Nat) : seen (releaseWalk s e) = seen s :=
  ite_keeps seen rfl ((foldl_keeps seen _ (fun s _ => freePins_seen s _) _ _).trans
    (foldl_keeps seen _ (fun s w => unlockWalk_seen s w) _ s))

theorem releaseWalks_seen (t : Word) : seen (releaseWalks s t) = seen s :=
  foldl_keeps seen _ (fun s e => by
    split
    · exact ite_keeps seen (releaseWalk_seen s e) rfl
    · rfl) _ _

theorem waitEnd_seen (w : EndWait) : seen (waitEnd s w) = seen s := ite_keeps seen rfl rfl

theorem holdStream_seen (x : Xfer) : seen (holdStream s x) = seen s := by
  simp only [holdStream]
  split <;> rfl

theorem beginXferReq_seen (x : Xfer) : seen (beginXferReq s x) = seen s := ite_keeps seen rfl rfl

theorem xferReq_seen (x : Xfer) (w : Bool) (a n off : Nat) : seen (xferReq s x w a n off) = seen s :=
  (issueReq_seen _ _ _ _ _ _ _).trans (beginXferReq_seen s x)

theorem ownRead_seen (x : Xfer) (a n : Nat) : seen (ownRead s x a n) = seen s :=
  foldl_keeps seen _ (fun _ _ => modEng_seen _ _ _) _ _

theorem runArray_seen (e : Nat) : seen (runArray s e) = seen s := ite_keeps seen rfl rfl

end

/-! ### Sources, credits and transfers -/

section
variable {z s : State}

theorem setSrc_still (s : State) (n : Nat) : still (setSrc s n) = still s := by
  unfold setSrc
  split <;> rfl

theorem setSrc_bg (n : Nat) (h : Bg z s) : Bg z (setSrc s n) :=
  h.trans ⟨setSrc_still s n, fun _ hi => setSrc_mono s n hi, by rw [setSrc_jobs]; exact (Follows.refl (π := still) s).jobs,
    by rw [setSrc_sch]; exact (Follows.refl (π := still) s).tt⟩

theorem setSrcs_bg (l : List Nat) (h : Bg z s) : Bg z (setSrcs s l) := h.foldl (fun _ n => setSrc_bg n) l

theorem creditViolation_bg (h : Bg z s) : Bg z (creditViolation s) := setSrc_bg 82 (h.of_seen rfl)

theorem giveOne_bg (src : Nat) (k : PoolKind) (i : Nat) (ep : Bool) (h : Bg z s) : Bg z (giveOne s src k i ep) :=
  .ite (h.of_seen rfl) (creditViolation_bg h)

theorem closeXfer_bg (x : Xfer) (h : Bg z s) : Bg z (closeXfer s x) :=
  .ite (giveOne_bg _ _ _ _ (h.of_seen rfl)) (h.of_seen rfl)

theorem trimIf_bg (p : Xfer → Bool) (h : Bg z s) : Bg z (trimIf s p) :=
  h.foldl (fun s x hs => by
    dsimp only
    exact .ite hs (.ite (closeXfer_bg x hs) (hs.of_seen (modXfer_seen s _ _)))) _

theorem waitReplies_dropWaiting (s : State) (t : Word) : waitReplies (dropWaiting s t) = waitReplies s := by
  unfold waitReplies dropWaiting
  rw [List.filter_filter]
  refine List.filter_congr fun f _ => ?_
  cases hf : f.typ <;> simp [hf]

theorem dropWaiting_bg (t : Word) (h : Bg z s) : Bg z (dropWaiting s t) :=
  h.of_eq (by simp only [still, core, waitReplies_dropWaiting]; rfl) rfl rfl rfl

end

/-! ### Ends of jobs -/

section
variable {z s : State}

theorem collectOne_bg (inp : Nat) (h : Bg z s) : Bg z (collectOne s inp) := by
  unfold collectOne
  split
  · exact h
  · refine .ite (h.of_seen rfl) (.ite (h.of_seen ?_) (setSrc_bg 82 (h.of_seen ?_))) <;>
      simp only [seen, still, core, waitReplies, storeWords, store]

theorem pushRec_bg (inp : Nat) (r : CRec) (h : Bg z s) : Bg z (pushRec s inp r) := by
  have hc : Bg z (if 2 ≤ skidCount s inp then collectOne s inp else s) := .ite (collectOne_bg inp h) h
  exact hc.of_seen rfl

/-- Jobs go; nothing else changes. -/
theorem Follows.of_jobs {α : Type} {π : State → α} {z s t : State} (h : Follows π z s) (hπ : π t = π s)
    (hf : t.fc.fsw = s.fc.fsw) (hj : ∀ j ∈ t.jobs, ∃ k ∈ s.jobs, k.token = j.token ∧ k.jobId = j.jobId)
    (ht : t.sch.tt = s.sch.tt) : Follows π z t :=
  h.trans ⟨hπ, by rw [hf]; exact fun _ h => h, hj, by rw [ht]; exact (Follows.refl (π := π) s).tt⟩

/-- An entry ends that a live job is of, or that had not ended. -/
theorem Follows.endEntry {α : Type} {π : State → α} {z s t : State} {i : Nat} {o : JobEnd} {e : Nat} (h : Follows π z s)
    (hπ : π t = π s) (hf : t.fc.fsw = s.fc.fsw) (hj : ∀ j ∈ t.jobs, j ∈ s.jobs)
    (ht : t.sch.tt = modAt s.sch.tt i (fun x => { x with ended := some o, rsvOpen := false, endNs := e }))
    (hi : (∃ j ∈ z.jobs, j.jobId = i) ∨ ∀ x, z.sch.tt[i]? = some x → x.ended = none) : Follows π z t where
  keep := hπ.trans h.keep
  fsw := by rw [hf]; exact h.fsw
  jobs j hjt := h.jobs j (hj j hjt)
  tt k x hx := by
    obtain ⟨y, hy, hyx, hye⟩ := h.tt k x hx
    rw [ht]
    by_cases hk : k = i
    · subst hk
      refine ⟨{ y with ended := some o, rsvOpen := false, endNs := e }, by rw [getElem?_modAt, if_pos rfl, hy]; rfl, hyx,
        fun he hn => ?_⟩
      obtain ⟨j, hjs, hji⟩ | hx' := hi
      · exact absurd hji (hn j hjs)
      · rw [hx' x hx] at he; cases he
    · exact ⟨y, by rwa [getElem?_modAt, if_neg hk], hyx, hye⟩

theorem mem_of_jobOf {s : State} {t : Word} {j : Job} (h : jobOf s t = some j) : j ∈ s.jobs ∧ j.token = t := by
  obtain ⟨hm, ht⟩ := And.intro (List.mem_of_find?_eq_some h) (List.find?_some h)
  exact ⟨hm, by simpa using ht⟩

/-- The end of a job changes, of all this, its entry, and leaves one job less. -/
theorem endJob_step (s : State) (t : Word) (o : JobEnd) (inp : Nat) : Bg s (endJob s t o inp) := by
  unfold endJob
  refine .ite ((Follows.refl s).of_seen (waitEnd_seen s _)) ?_
  split
  · exact .refl s
  · rename_i j hj
    have hjs := (mem_of_jobOf hj).1
    dsimp only
    generalize hu : trimXfers _ t = u
    have h1 : Bg s u := by
      rw [← hu]
      exact trimIf_bg _ (dropWaiting_bg t ((Follows.refl s).foldl (fun s l hs => hs.of_seen (writeFb_seen s j l 2)) _))
    refine pushRec_bg _ _ (Follows.of_seen ?_ ((releaseWalks_seen _ _).trans (setTokCode_seen _ _ _)))
    cases ho : j.origin <;> dsimp only
    case tide =>
      exact h1.endEntry rfl rfl (fun k hk => List.mem_of_mem_filter hk) rfl (.inl ⟨j, hjs, rfl⟩)
    case runJob =>
      refine Follows.of_seen ?_ (finishTok_seen _ _ _ _)
      exact h1.of_jobs rfl rfl (fun k hk => ⟨k, List.mem_of_mem_filter hk, rfl, rfl⟩) rfl
    case replay =>
      refine Follows.of_seen ?_ (finishTok_seen _ _ _ _)
      exact h1.of_jobs rfl rfl (fun k hk => ⟨k, List.mem_of_mem_filter hk, rfl, rfl⟩) rfl

theorem endJob_bg (t : Word) (o : JobEnd) (inp : Nat) (h : Bg z s) : Bg z (endJob s t o inp) :=
  h.trans (endJob_step s t o inp)

theorem skipEntry_bg {i : Nat} (o : JobEnd) (hi : ∀ x, s.sch.tt[i]? = some x → x.ended = none) (h : Bg z s) :
    Bg z (skipEntry s i o) := by
  refine h.trans ?_
  unfold skipEntry
  refine .ite ((Follows.refl s).of_seen (waitEnd_seen s _)) (pushRec_bg _ _ ?_)
  exact (Follows.refl s).endEntry rfl rfl (fun _ h => h) rfl (.inr hi)

theorem ended_of_entrySkipped {i : Nat} (h : entrySkipped s i = true) : ∀ x, s.sch.tt[i]? = some x → x.ended = none := by
  intro x hx
  simp only [entrySkipped, hx, Bool.and_eq_true, Option.isNone_iff_eq_none] at h
  exact h.1.1.2

theorem cascade_bg (n : Nat) (h : Bg z s) : Bg z (cascade n s) := by
  induction n generalizing s with
  | zero => exact h
  | succ n ih =>
    unfold cascade
    split
    · exact ih (endJob_bg _ _ _ h)
    · split
      · rename_i i hi
        exact ih (skipEntry_bg _ (ended_of_entrySkipped (List.find?_some hi)) h)
      · exact h

theorem cascadeAll_bg (h : Bg z s) : Bg z (cascadeAll s) := .ite h (cascade_bg _ h)

theorem killJob_bg (t : Word) (o : JobEnd) (inp : Nat) (h : Bg z s) : Bg z (killJob s t o inp) :=
  cascadeAll_bg (endJob_bg t o inp h)

theorem killJobs_bg (ts : List Word) (o : JobEnd) (inp : Nat) (h : Bg z s) : Bg z (killJobs s ts o inp) :=
  cascadeAll_bg (h.foldl (fun _ t => endJob_bg t o inp) ts)

end

/-! ### The stream units -/

section
variable {z s : State}

theorem streamFault_bg (x : Xfer) (h : Bg z s) : Bg z (streamFault s x) :=
  .ite (h.of_seen (holdStream_seen s x)) (killJob_bg _ _ _ (h.of_seen rfl))

theorem copyStep_bg {x : Xfer} {t : State} (h : Bg z s) (ht : copyStep s x = some t) : Bg z t := by
  unfold copyStep at ht
  split at ht
  · cases ht
  · dsimp only at ht
    split at ht <;> cases ht
    exact h.of_seen ((xferReq_seen _ _ _ _ _ _).trans ((modXfer_seen _ _ _).trans (storeMoved_seen _ _ _ _)))

theorem xferStep_bg {x : Xfer} {t : State} (h : Bg z s) (ht : xferStep s x = some t) : Bg z t := by
  unfold xferStep at ht
  split at ht
  next s1 h1 => cases ht; exact copyStep_bg h h1
  next =>
    dsimp only at ht
    split_ifs at ht <;> cases ht
    · exact h.of_seen ((modXfer_seen _ _ _).trans (xferReq_seen _ _ _ _ _ _))
    · exact streamFault_bg x h
    · exact killJob_bg _ _ _ h
    · exact h.of_seen ((modXfer_seen _ _ _).trans (ownRead_seen _ _ _ _))
    · exact h.of_seen ((modXfer_seen _ _ _).trans (xferReq_seen _ _ _ _ _ _))

theorem pumpUnit_bg (e n : Nat) (h : Bg z s) : Bg z (pumpUnit e n s) := by
  induction n generalizing s with
  | zero => exact h
  | succ n ih =>
    unfold pumpUnit
    split
    · rename_i t ht
      obtain ⟨x, -, hx⟩ := List.exists_of_findSome?_eq_some ht
      exact ih (xferStep_bg h hx)
    · exact h

theorem closeOperands_bg (e : Nat) (h : Bg z s) : Bg z (closeOperands s e) := by
  have hc := h.foldl (fun _ x => closeXfer_bg x) (s.ms.xfers.filter (fun x => x.unit == e && x.use.isOperand && xferOver s x))
  exact .ite (hc.of_seen (runArray_seen _ e)) hc

theorem pump_bg (e : Nat) (h : Bg z s) : Bg z (pump s e) := closeOperands_bg e (pumpUnit_bg e _ h)

theorem pumpAll_bg (h : Bg z s) : Bg z (pumpAll s) := .ite h (h.foldl (fun _ e => pump_bg e) _)

theorem clearStaged_bg (e : Nat) (h : Bg z s) : Bg z (clearStaged s e) := by
  unfold clearStaged
  split
  · exact h
  · exact .ite h ((trimIf_bg _ h).of_seen (modEng_seen _ _ _))

theorem stageAhead_bg (e : Nat) (h : Bg z s) : Bg z (stageAhead s e) := by
  have hc := clearStaged_bg e h
  unfold stageAhead
  dsimp only
  split
  · exact hc
  · refine .ite hc ?_
    split
    · exact hc
    · exact .ite hc (pump_bg e (Follows.foldl (fun s _ hs => hs.of_seen (queueRow_seen s _ _ _ _ _ _)) _
        (hc.of_seen (modEng_seen _ _ _))))

theorem stageAll_bg (h : Bg z s) : Bg z (stageAll s) := h.foldl (fun _ e => stageAhead_bg e) _

theorem units_bg (h : Bg z s) : Bg z (units s) := stageAll_bg (pumpAll_bg h)

end

/-! ### What follows a change of what stands -/

section
variable {z s : State}

theorem modJob_bg {f : Job → Job} (t : Word) (hf : ∀ j, (f j).token = j.token ∧ (f j).jobId = j.jobId) (h : Bg z s) :
    Bg z (modJob s t f) := by
  refine h.of_jobs rfl rfl (fun j hj => ?_) rfl
  obtain ⟨k, hk, rfl⟩ := List.mem_map.1 hj
  refine ⟨k, hk, ?_⟩
  split
  · exact ⟨(hf k).1.symm, (hf k).2.symm⟩
  · exact ⟨rfl, rfl⟩

theorem modItem_bg (t : Word) (n : Nat) (f : Item → Item) (h : Bg z s) : Bg z (modItem s t n f) :=
  modJob_bg t (fun _ => ⟨rfl, rfl⟩) h

theorem markWaits_bg (h : Bg z s) : Bg z (markWaits s) := by
  refine h.of_jobs rfl rfl (fun j hj => ?_) rfl
  obtain ⟨k, hk, rfl⟩ := List.mem_map.1 hj
  refine ⟨k, hk, ?_⟩
  split <;> exact ⟨rfl, rfl⟩

theorem waitReplies_queueReq (s : State) (t : Word) (x : List Word) (p : Nat × Nat × Nat × Bool) :
    waitReplies (queueReq s t x p) = waitReplies s := by
  unfold waitReplies queueReq
  dsimp only
  rw [List.filter_append]
  split <;> simp

theorem queueReq_bg (t : Word) (x : List Word) (p : Nat × Nat × Nat × Bool) (h : Bg z s) : Bg z (queueReq s t x p) :=
  h.of_eq (by simp only [still, core, waitReplies_queueReq]; rfl) rfl rfl rfl

theorem beginXfer_bg (t : Word) (k : Nat) (x : List Word) (h : Bg z s) : Bg z (beginXfer s t k x) :=
  modJob_bg t (fun _ => ⟨rfl, rfl⟩) (h.foldl (fun _ p => queueReq_bg t x p) _)

theorem startXfers_bg (h : Bg z s) : Bg z (startXfers s) :=
  h.foldl (fun s _ hs => hs.foldl (fun s x hs => by
    split
    · exact hs
    · exact .ite (beginXfer_bg _ _ _ hs) hs) _) _

theorem runPrefetch_bg (t : Word) (n : Nat) (h : Bg z s) : Bg z (runPrefetch s t n) := by
  unfold runPrefetch
  split
  · exact h
  split
  · exact h
  refine .ite h ?_
  split
  · exact h
  · exact pump_bg _ (Follows.foldl (fun s _ hs => hs.of_seen (queueRow_seen s _ _ _ _ _ _)) _
      ((modItem_bg t n _ h).of_seen (queueRow_seen _ _ _ _ _ _ _)))

theorem startPrefetch_bg (h : Bg z s) : Bg z (startPrefetch s) :=
  h.foldl (fun _ j hs => hs.foldl (fun _ n => runPrefetch_bg j.token n) _) _

theorem afterStand_bg (h : Bg z s) : Bg z (afterStand s) := markWaits_bg (startXfers_bg (startPrefetch_bg h))

end

/-! ### The reaction to a fatal source -/

section
variable {z s : State}

/-- All that the relation speaks of while a fatal source is answered. -/
def seenCore (s : State) := (core s, s.fc.fsw, s.jobs, s.sch.tt)

theorem Follows.of_seenCore {t : State} (h : Follows core z s) (e : seenCore t = seenCore s) : Follows core z t := by
  simp only [seenCore, Prod.mk.injEq] at e
  exact h.of_eq e.1 e.2.1 e.2.2.1 e.2.2.2

theorem withdraw_seenCore (s : State) (c : Nat) : seenCore (withdraw s c) = seenCore s := ite_keeps seenCore rfl rfl

theorem guiltFatal_seenCore (s : State) : seenCore (guiltFatal s) = seenCore s := by
  unfold guiltFatal
  split <;> rfl

theorem cancelSwap_seenCore (s : State) : seenCore (cancelSwap s) = seenCore s := ite_keeps seenCore rfl rfl

theorem writeVerdict_seenCore (s : State) (v c r w : Nat) (ev : List Word) :
    seenCore (writeVerdict s v c r w ev) = seenCore s := by
  simp only [seenCore, core, waitReplies, writeVerdict, storeWords, store]

/-- The state in which the reaction ends jobs: trust withdrawn, procedures, slices and a pending swap at their end. -/
def faStopped (s : State) : State :=
  let s := guiltFatal (withdraw s 4)
  cancelSwap { s with eng := s.eng.map (fun x => { x with kat := none, katDue := [], deferred := false }) }

/-- The jobs of the attempts are killed. -/
def faKilled (s : State) : State := killJobs s (s.eng.flatMap attemptToks) .killedReset 29

/-- The frame's verdict is FAIL with cause FAULT, where none is written. -/
def faVerdict (s : State) : State :=
  if s.sch.run == .running && !s.hl.written then writeVerdict s 3 3 0 (b2n s.hl.stopped) [] else s

/-- The run halts. -/
def faHalt (s : State) : State :=
  if s.sch.run == .running || s.sch.run == .armed then
    disarm (clearRun { s with sch := { s.sch with run := .halted, phase := .none, stopReq := false, portSStop := false } })
  else s

theorem faStopped_seenCore (s : State) : seenCore (faStopped s) = seenCore s :=
  (cancelSwap_seenCore _).trans ((guiltFatal_seenCore (withdraw s 4)).trans (withdraw_seenCore s 4))

theorem faVerdict_seenCore (s : State) : seenCore (faVerdict s) = seenCore s :=
  ite_keeps seenCore (writeVerdict_seenCore s _ _ _ _ _) rfl

theorem faHalt_seenCore (s : State) : seenCore (faHalt s) = seenCore s := ite_keeps seenCore rfl rfl

theorem faReact_step (s : State) : Follows core s (faReact s) := by
  have hk : Bg (faStopped s) (faKilled (faStopped s)) := killJobs_bg _ _ _ (.refl _)
  exact (((Follows.refl s).of_seenCore (faStopped_seenCore s)).trans hk.toCore).of_seenCore
    ((faHalt_seenCore _).trans (faVerdict_seenCore _))

theorem settle_core (h : Follows core z s) (s0 : State) : Follows core z (settle s0 s) := by
  obtain e | e := settle_cases s0 s <;> rw [e]
  · exact h
  · exact h.trans (faReact_step s)

theorem settleUnits_core (h : Follows core z s) (s0 : State) : Follows core z (settleUnits s0 s) :=
  settle_core (h.trans (units_bg (.refl s)).toCore) s0

end

/-- What of the run and of trust the reaction answers for: whether the run goes, the verdict stands, what trust was withdrawn for. -/
def runView (s : State) := (s.sch.run, s.hl.written, s.saf.wCause, s.saf.wSeq, s.pins.safeA, s.pins.safeB)

theorem runView_guiltFatal (s : State) : runView (guiltFatal s) = runView s := by
  unfold guiltFatal
  split <;> rfl

theorem runView_cancelSwap (s : State) : runView (cancelSwap s) = runView s := ite_keeps runView rfl rfl

theorem runView_faStopped (s : State) : runView (faStopped s) = runView (withdraw s 4) :=
  (runView_cancelSwap _).trans (runView_guiltFatal (withdraw s 4))

theorem Follows.runView {s t : State} (h : Bg s t) : runView t = runView s := by
  have := h.keep
  simp only [still, Prod.mk.injEq] at this
  simp only [Proofs.runView, this]

theorem runView_faKilled (s : State) : runView (faKilled s) = runView s := (killJobs_bg _ _ _ (.refl s)).runView

theorem runView_writeVerdict (s : State) (v c r w : Nat) (ev : List Word) :
    runView (writeVerdict s v c r w ev) = { runView s with snd.fst := true } := by
  simp only [runView, writeVerdict, storeWords, store]

/-- Trust is neither granted nor awaited. -/
def untrusted (s : State) : Bool := s.saf.trust != .trusted && s.saf.trust != .awaiting

theorem withdraw_of_untrusted {s : State} (h : untrusted s = true) (c : Nat) : withdraw s c = s := by
  simp only [untrusted, Bool.and_eq_true, bne_iff_ne] at h
  unfold withdraw
  rw [if_neg]
  simp [h.1, h.2]

theorem runView_withdraw (s : State) (c : Nat) :
    (runView (withdraw s c)).1 = (runView s).1 ∧ (runView (withdraw s c)).2.1 = (runView s).2.1 := by
  simp [runView]

theorem runView_faVerdict (s : State) :
    runView (faVerdict s) = { runView s with snd.fst := (s.sch.run == .running) || s.hl.written } := by
  unfold faVerdict
  split
  · rename_i h
    rw [runView_writeVerdict]
    simp only [Bool.and_eq_true] at h
    simp [h.1]
  · rename_i h
    simp only [runView, Prod.mk.injEq, true_and, and_true]
    cases hr : s.sch.run == .running <;> cases hw : s.hl.written <;> simp_all

/-- The state in which the reaction halts the run. -/
def faAnswered (s : State) : State := faVerdict (faKilled (faStopped s))

theorem faAnswered_run (s : State) : (faAnswered s).sch.run = s.sch.run := by
  have h : (runView (faAnswered s)).1 = (runView (faKilled (faStopped s))).1 := by rw [faAnswered, runView_faVerdict]
  rw [runView_faKilled, runView_faStopped] at h
  exact h.trans (runView_withdraw s 4).1

theorem faAnswered_written {s : State} (h : s.hl.written = true) : (faAnswered s).hl.written = true := by
  have hk : (faKilled (faStopped s)).hl.written = true := by
    have hv := congrArg (·.2.1) ((runView_faKilled (faStopped s)).trans (runView_faStopped s))
    exact hv.trans ((runView_withdraw s 4).2.trans h)
  have hv := congrArg (·.2.1) (runView_faVerdict (faKilled (faStopped s)))
  exact hv.trans (by simp [hk])

theorem faAnswered_untrusted {s : State} (h : untrusted s = true) :
    (runView (faAnswered s)).2.2 = (runView s).2.2 := by
  rw [faAnswered, runView_faVerdict, runView_faKilled, runView_faStopped, withdraw_of_untrusted h]

theorem faHalt_hl (s : State) : (faHalt s).hl = s.hl := ite_keeps State.hl rfl rfl

theorem faReact_eq_faHalt (s : State) : faReact s = faHalt (faAnswered s) := rfl

/-- The reaction halts a run that is under way or to come. -/
theorem faReact_halts {s : State} (h : s.sch.run = .running ∨ s.sch.run = .armed) :
    (faReact s).sch.run = .halted ∧ (faReact s).sch.phase = .none ∧ (faReact s).saf.trust = .notArmed
      ∧ (faReact s).pins.safeA = false ∧ (faReact s).pins.safeB = false := by
  rw [faReact_eq_faHalt, faHalt, faAnswered_run, if_pos (by simpa using h)]
  exact ⟨rfl, rfl, rfl, rfl, rfl⟩

theorem faReact_of_no_run {s : State} (h : ¬ (s.sch.run = .running ∨ s.sch.run = .armed)) : faReact s = faAnswered s := by
  rw [faReact_eq_faHalt, faHalt, faAnswered_run, if_neg (by simpa using h)]

theorem faReact_not_running (s : State) : (faReact s).sch.run ≠ .running := by
  by_cases h : s.sch.run = .running ∨ s.sch.run = .armed
  · rw [(faReact_halts h).1]; decide
  · rw [faReact_of_no_run h, faAnswered_run]
    exact fun e => h (.inl e)

theorem faReact_written {s : State} (h : s.hl.written = true) : (faReact s).hl.written = true := by
  rw [faReact_eq_faHalt, faHalt_hl]
  exact faAnswered_written h

/-- Without trust nothing is withdrawn, and low outputs stay low. -/
theorem faReact_untrusted {s : State} (h : untrusted s = true) :
    (faReact s).saf.wCause = s.saf.wCause ∧ (faReact s).saf.wSeq = s.saf.wSeq
      ∧ (s.pins.safeA = false → (faReact s).pins.safeA = false) ∧ (s.pins.safeB = false → (faReact s).pins.safeB = false) := by
  have hv := faAnswered_untrusted h
  simp only [runView, Prod.mk.injEq] at hv
  obtain ⟨hc, hq, ha, hb⟩ := hv
  rw [faReact_eq_faHalt]
  generalize faAnswered s = t at *
  rw [faHalt]
  split
  · exact ⟨hc, hq, fun _ => rfl, fun _ => rfl⟩
  · exact ⟨hc, hq, fun h => ha.trans h, fun h => hb.trans h⟩

end Sys2Proof.Proofs
end

section
/-! PROOFS. A READ_REQ of the Mapin link to a line of DRAM (R218, R225, R333): the reply that the background work leaves waiting. -/

namespace Sys2Proof.Proofs

open Sys2Proof Sys2Proof.Machine Sys2Proof.Laws

/-- The plan of a group of nodes 1 and 2 that grants node 1 the first line of DRAM. -/
def lineWindow : Plan := { members := [1, 2], windows := [{ node := 1, base := 0x10_0000_0000, len := 64 }] }

/-- Node 2 of the group, the link to node 1 formed, port 0 bonded and up. The first byte of DRAM is in the list of uncorrectable
bytes, which no read of the model looks up by range. -/
def listedLine : State :=
  { boot := .firmware, csramBad := [0x10_0000_0000]
    sets := { slot0 := { st := .active, plan := lineWindow, sensor := { macs := [[4]] } } }
    map := { nodeId := 2, valid := true
             links := [{ node := 1, gen := 1, txSeq := 5, rxSeq := 6, free := 500, owed := 0, nak := false, unacked := [] }] }
    sens := { eth := [{ up := true }] } }

/-- Node 1 reads the first byte of its window, in turn. -/
def readFirst : MHdr := { src := 1, lseq := 7, ack := 5, gen := 1, credits := 0, nak := false, reqId := 3, arg := 1 }

set_option maxRecDepth 10000 in
theorem framed_readFirst : framed listedLine readFirst = true := by decide

/-- What the waiting replies of an outcome answer. -/
def replyArgs : Out → List Word
  | .next t => (waitReplies t).map (fun f => f.arg)
  | _ => []

set_option maxRecDepth 10000 in
/-- The request detects the listed byte as it reads the line, which is poisoned by it. -/
theorem replyArgs_readFirst : replyArgs (exec (.mapinReadReq readFirst 0x10_0000_0000) listedLine) =
    [BitVec.ofNat 32 Status.poisoned.code] := by decide

theorem waitReplies_settleUnits (s u : State) : waitReplies (settleUnits s u) = waitReplies u := by
  have h := (settleUnits_core (.refl u) s).keep
  simp only [core, Prod.mk.injEq] at h
  exact h.2.2.2.2.2.2

/-- Refutes O54, in its clause on READ_REQ: the address lies in a window and none of its sectors is poisoned, but the byte of
the line is listed as uncorrectable, so the read of the line poisons it (R225), and the reply is POISONED, not OK. -/
theorem not_mapinTransfers : ¬ Obligations.MapinTransfers := by
  rintro ⟨-, -, hread, -⟩
  obtain ⟨u, f, hx, hq, ht, -, -, -, -, -, -, hok, -⟩ :=
    (hread listedLine readFirst 0x10_0000_0000 [] framed_readFirst).2 (0, lineWindow) (by decide)
  have ha : replyArgs (.next (settleUnits listedLine u)) = [f.arg] := by
    have hw : waitReplies u = [f] := by simp [waitReplies, hq, listedLine, ht]
    rw [replyArgs, waitReplies_settleUnits, hw, List.map_singleton]
  rw [← hx, replyArgs_readFirst, hok rfl (by decide)] at ha
  exact absurd ha (by decide)

end Sys2Proof.Proofs
end

section
/-! PROOFS. The completion ring (R421, R423), and with it what the reads of a source port come to (R216, R220, R225, R229). -/

namespace Sys2Proof.Proofs

open Sys2Proof Sys2Proof.Machine Sys2Proof.Laws

/-! ### Reads -/

section
variable {z s : State}

theorem addPoison_seen (s : State) (u : Nat) : seen (addPoison s u) = seen s := ite_keeps seen rfl rfl

theorem countPoisonRead_seen (s : State) (a : Nat) : seen (countPoisonRead s a) = seen s :=
  ite_keeps seen rfl (ite_keeps seen rfl (ite_keeps seen rfl rfl))

theorem eccRead_bg (a : Nat) (ecc : Ecc) (h : Bg z s) : Bg z (eccRead s a ecc) := by
  have hp : ∀ {t : State} (u : Nat), Bg z t → Bg z (addPoison t u) := fun u ht => ht.of_seen (addPoison_seen _ u)
  have hc : ∀ {t : State}, Bg z t → Bg z (countPoisonRead t a) := fun ht => ht.of_seen (countPoisonRead_seen _ a)
  unfold eccRead
  cases ecc <;> dsimp only
  case asStored | timedOut => exact hc h
  case corrected =>
    exact .ite (setSrc_bg _ (h.of_seen rfl)) (.ite (setSrc_bg _ (h.of_seen rfl))
      (.ite (setSrc_bg _ (h.of_seen rfl)) (.ite (setSrc_bg _ (h.of_seen rfl)) h)))
  case uncorrectable =>
    exact .ite (setSrc_bg _ (hp _ (h.of_seen rfl))) (.ite (setSrc_bg _ (hp _ (h.of_seen rfl)))
      (.ite (setSrc_bg _ (hp _ (h.of_seen rfl))) (.ite (setSrc_bg _ (h.of_seen rfl)) h)))
  case linkCorrected => exact hc (.ite (h.of_seen rfl) h)
  case linkRetried n => exact hc (.ite (setSrc_bg _ (h.of_seen rfl)) h)
  case linkFailed => exact .ite (setSrc_bg _ (setSrc_bg _ (h.of_seen rfl))) h

theorem passReq_bg (src a : Nat) (h : Bg z s) : Bg z (passReq s src a) :=
  Follows.of_seen (giveOne_bg _ _ _ _ (h.of_seen (t := takeCredit s _ _ _) rfl)) (touchCheck_seen _ _)

theorem portRead_bg (src a n : Nat) (o : Nat → Ecc) (h : Bg z s) : Bg z (portRead s src a n o) :=
  h.foldl (fun _ x hs => .ite (setSrc_bg 83 ((passReq_bg src x.1 hs).of_seen rfl))
    (Follows.foldl (fun _ u => eccRead_bg u _) _ (passReq_bg src x.1 hs))) _

theorem readAll_bg (src : Nat) (rs : List (Nat × Nat)) (ecc : List (Nat × Ecc)) (h : Bg z s) : Bg z (readAll s src rs ecc) :=
  h.foldl (β := Nat × Nat) (f := fun s x => portRead s src x.1 x.2 (eccFor ecc)) (fun _ x => portRead_bg src x.1 x.2 _) rs

end

/-- Control pair A's reads, by the words of the statements: they come good, or they stop it. -/
theorem pairAReads_eq (s : State) (rs : List (Nat × Nat)) (ecc : List (Nat × Ecc))
    (f : State → State × Option (Status × List Word)) :
    pairAReads s rs (eccFor ecc) f = if readsGood s srcPairA rs ecc then f (readAll s srcPairA rs ecc)
      else (stopPairA (readAll s srcPairA rs ecc), none) := by
  have h : readsGood s srcPairA rs ecc = !rs.any (fun x => readBad (readAll s srcPairA rs ecc) x.1 x.2 (eccFor ecc)) := by
    simp [readsGood, List.not_any_eq_all_not]
  rw [h]
  unfold pairAReads
  cases hb : rs.any (fun x => readBad (readAll s srcPairA rs ecc) x.1 x.2 (eccFor ecc)) <;>
    · unfold readAll at hb
      simp [hb, readAll]

theorem stopPairA_pairA (s : State) : (stopPairA s).rst.pairA = true := by simp [stopPairA]

theorem stopPairA_cRd (s : State) : (stopPairA s).fc.cRd = s.fc.cRd := by
  unfold stopPairA setSrc
  split <;> rfl

/-! ### A read of a quiet store -/

/-- The pools in which a credit is taken hold one that is owed in the epoch, if none has had more returned than issued. -/
theorem owes_takeCredit {s : State} (src : Nat) (k : PoolKind) (i : Nat) (hf : poolsFit s.cr.pools = true) :
    (takeCredit s src k i).cr.pools.filter (isPool src k i) ≠ []
      ∧ ∀ p ∈ (takeCredit s src k i).cr.pools.filter (isPool src k i), owes s.ms.epoch p = true := by
  let new : Pool := { src := src, kind := k, idx := i, iss0 := 0, ret0 := 0, iss1 := 0, ret1 := 0 }
  let take (p : Pool) : Pool := if s.ms.epoch then { p with iss1 := p.iss1 + 1 } else { p with iss0 := p.iss0 + 1 }
  obtain ⟨base, hbase, hsome, hfit⟩ : ∃ base : List Pool,
      (takeCredit s src k i).cr.pools = base.map (fun p => if isPool src k i p then take p else p)
      ∧ (∃ p ∈ base, isPool src k i p = true) ∧ ∀ p ∈ base, p.ret0 ≤ p.iss0 ∧ p.ret1 ≤ p.iss1 := by
    have hold : ∀ p ∈ s.cr.pools, p.ret0 ≤ p.iss0 ∧ p.ret1 ≤ p.iss1 := by simpa [poolsFit] using hf
    by_cases ha : s.cr.pools.any (isPool src k i) = true
    · exact ⟨s.cr.pools, by simp only [takeCredit, modPool, ha, if_true]; rfl, List.any_eq_true.1 ha, hold⟩
    · refine ⟨s.cr.pools ++ [new], by simp only [takeCredit, modPool, ha]; rfl, ⟨new, by simp, by simp [isPool, new]⟩, ?_⟩
      simp only [List.mem_append, List.mem_singleton]
      rintro p (hp | rfl)
      · exact hold p hp
      · exact ⟨le_rfl, le_rfl⟩
  have htake : ∀ p, isPool src k i (take p) = isPool src k i p := fun p => by
    simp only [take]; split <;> rfl
  rw [hbase]
  constructor
  · obtain ⟨p, hp, hi⟩ := hsome
    refine List.ne_nil_of_mem (List.mem_filter.2 ⟨List.mem_map.2 ⟨p, hp, rfl⟩, ?_⟩)
    rw [if_pos hi, htake, hi]
  · intro q hq
    obtain ⟨hm, hi⟩ := List.mem_filter.1 hq
    obtain ⟨p, hp, rfl⟩ := List.mem_map.1 hm
    have hpi : isPool src k i p = true := by
      by_contra hn
      rw [if_neg hn] at hi
      exact hn hi
    rw [if_pos hpi]
    have := hfit p hp
    by_cases he : s.ms.epoch = true <;> simp [take, owes, he] <;> omega

/-- Nothing but pools and caches differs, in two steps. -/
theorem onlyReads_trans {s t u : State} (h : onlyReads s t) (g : onlyReads t u) : onlyReads s u := by
  unfold onlyReads at *
  rw [g, h]

theorem onlyReads_touchCheck (s : State) (a : Nat) : onlyReads s (touchCheck s a) := by
  unfold onlyReads touchCheck
  split <;> rfl

theorem onlyReads_passReq {s : State} (src a : Nat) (hf : poolsFit s.cr.pools = true) : onlyReads s (passReq s src a) := by
  refine onlyReads_trans ?_ (onlyReads_touchCheck _ _)
  obtain ⟨hne, hall⟩ := owes_takeCredit src (destPool s a).1 (destPool s a).2 hf
  unfold giveOne
  dsimp only
  rw [if_pos]
  · rfl
  · rw [Bool.and_eq_true, Bool.not_eq_true', List.isEmpty_eq_false_iff]
    exact ⟨hne, List.all_eq_true.2 hall⟩

/-- A unit read as it is stored. -/
def readStored (s : State) (u : Nat) : State := eccRead s u (if s.csramBad.contains u then .uncorrectable else .asStored)

theorem readStored_csramBad (s : State) (u : Nat) : (readStored s u).csramBad = s.csramBad := by
  unfold readStored
  split
  · rename_i h
    simp only [eccRead]
    split_ifs <;> simp [addPoison, bumpUc] <;> split <;> rfl
  · simp only [eccRead, countPoisonRead]
    split_ifs <;> rfl

theorem readUnits_asIs (s : State) (a n : Nat) : readUnits s a n asIs = (protOf a n).foldl readStored s := rfl

/-- A unit beyond Cove and the Ledges that is good, and in DRAM not marked, is read without an effect. -/
theorem readStored_good {s : State} {u : Nat} (hu : 0x0600_0000 ≤ u) (hb : s.csramBad.contains u = false)
    (hd : isDram s u = true → s.poison.contains (unitBase u) = false) : readStored s u = s := by
  have hcove : isCove u = false := by simp only [isCove, decide_eq_false_iff_not]; omega
  simp only [readStored, hb, Bool.false_eq_true, if_false, eccRead, countPoisonRead, hcove]
  by_cases hdr : isDram s u = true
  · simp only [hd hdr, Bool.not_false, if_true]
  · simp [hdr]

theorem contains_addPoison (s : State) (u : Nat) : (addPoison s u).poison.contains u = true := by
  unfold addPoison
  split
  · assumption
  · simp

/-- The bytes of CSRAM that are read good. -/
theorem readUnits_csram {s : State} {a n : Nat} (ha : isCsram a = true)
    (hg : poisoned (readUnits s a n asIs) a n = false) (hn : n ≤ 16) : readUnits s a n asIs = s := by
  have hbad : (readUnits s a n asIs).csramBad = s.csramBad := foldl_keeps State.csramBad _ readStored_csramBad _ s
  have hr : 0x0800_0000 ≤ a ∧ a < 0x0840_0000 := by simpa [isCsram] using ha
  have hs : ∀ u ∈ protOf a n, readStored s u = s := by
    intro u hu
    obtain ⟨i, hi, rfl⟩ : ∃ i < n, a + i = u := by simpa [protOf, ha] using hu
    refine readStored_good (by omega) ?_ ?_
    · by_contra hc
      simp only [poisoned, ha, if_true, hbad, List.any_eq_false] at hg
      refine hg (a + i) (by simpa using hc) ?_
      simp [hi]
    · intro hd
      have : dramBase ≤ a + i := by
        simp only [isDram, Bool.and_eq_true, decide_eq_true_eq] at hd
        exact hd.1
      simp only [dramBase] at this
      omega
  rw [readUnits_asIs]
  generalize protOf a n = l at hs
  induction l with
  | nil => rfl
  | cons u l ih =>
    rw [List.foldl_cons, hs u (by simp)]
    exact ih fun v hv => hs v (by simp [hv])

/-- A part of one line beyond CSRAM that is read good. -/
theorem readUnits_line {s : State} {a n : Nat} (ha : 0x0840_0000 ≤ a) (hn : 0 < n) (hl : a % 64 + n ≤ 64)
    (hg : poisoned (readUnits s a n asIs) a n = false) : readUnits s a n asIs = s := by
  have hcs : isCsram a = false := by simp only [isCsram, Bool.and_eq_false_iff, decide_eq_false_iff_not]; omega
  have hu64 : unitSize a = 64 := by unfold unitSize; rw [if_neg (by omega)]
  have hunit : protOf a n = [a / 64 * 64] := by
    have h1 : (a + n - 1) / 64 + 1 - a / 64 = 1 := by omega
    simp [protOf, hcs, unitsOf, hu64, h1, Nat.ne_of_gt hn]
  have hbase : unitBase (a / 64 * 64) = a / 64 * 64 := by
    simp only [unitBase, unitSize, if_neg (show ¬ a / 64 * 64 < 0x0600_0000 by omega)]
    omega
  have hov : overlaps (a / 64 * 64) (unitSize (a / 64 * 64)) a n = true := by
    simp only [overlaps, unitSize, if_neg (show ¬ a / 64 * 64 < 0x0600_0000 by omega), Bool.and_eq_true, decide_eq_true_eq]
    omega
  rw [readUnits_asIs, hunit, List.foldl_cons, List.foldl_nil] at hg ⊢
  have hpo : (readStored s (a / 64 * 64)).poison.contains (a / 64 * 64) = false := by
    by_contra hc
    simp only [poisoned, hcs, Bool.false_eq_true, if_false, List.any_eq_false] at hg
    exact hg _ (by simpa using hc) hov
  have hcove : isCove (a / 64 * 64) = false := by simp only [isCove, decide_eq_false_iff_not]; omega
  have hledge : isLedge (a / 64 * 64) = false := by
    simp only [isLedge, Bool.and_eq_false_iff, decide_eq_false_iff_not]; omega
  have hcsu : isCsram (a / 64 * 64) = false := by
    simp only [isCsram, Bool.and_eq_false_iff, decide_eq_false_iff_not]; omega
  by_cases hd : isDram s (a / 64 * 64) = true
  · have hb : s.csramBad.contains (a / 64 * 64) = false := by
      by_contra hb
      rw [Bool.not_eq_false] at hb
      rw [readStored, if_pos hb] at hpo
      simp only [eccRead, if_pos hd, setSrc_poison, hbase, contains_addPoison, Bool.true_eq_false] at hpo
    have hn' : s.csramBad.contains (a / 64 * 64) ≠ true := by rw [hb]; decide
    rw [readStored, if_neg hn'] at hpo
    refine readStored_good (by omega) hb fun _ => ?_
    rw [hbase]
    simp only [eccRead, countPoisonRead, hbase, if_pos hd] at hpo
    split at hpo
    · exact hpo
    · exact hpo
  · unfold readStored
    split <;> simp [eccRead, countPoisonRead, hd, hcove, hledge, hcsu]

/-- A read of a part of a line beyond the Ledges that comes good, as it is stored, changes but pools and caches. -/
theorem onlyReads_portRead {s : State} (src : Nat) {a n : Nat} (ha : 0x0800_0000 ≤ a) (hn : 0 < n) (hn' : n ≤ 16)
    (hl : a % 64 + n ≤ 64) (hf : poolsFit s.cr.pools = true)
    (hg : readBad (portRead s src a n asIs) a n asIs = false) : onlyReads s (portRead s src a n asIs) := by
  have hone : reqsOf a n = [(a, n)] := by
    obtain ⟨m, rfl⟩ : ∃ m, n = m + 1 := ⟨n - 1, by omega⟩
    have hc : cutLen 64 a (m + 1) = m + 1 := by unfold cutLen; omega
    rw [reqsOf, cutsOf, if_neg (by omega), hc, Nat.sub_self]
    cases m <;> rfl
  have hread : portRead s src a n asIs = readUnits (passReq s src a) a n asIs := by
    have ht : reqTimed asIs a n = false := by simp [reqTimed, asIs]
    simp only [portRead, hone, List.foldl_cons, List.foldl_nil, ht, Bool.false_eq_true, if_false]
  rw [hread] at hg ⊢
  have hp : poisoned (readUnits (passReq s src a) a n asIs) a n = false := by
    simp only [readBad, badAt, Bool.or_eq_false_iff] at hg
    exact hg.1
  have hid : readUnits (passReq s src a) a n asIs = passReq s src a := by
    by_cases hcs : isCsram a = true
    · exact readUnits_csram hcs hp hn'
    · refine readUnits_line ?_ hn hl hp
      simp only [isCsram, Bool.and_eq_true, decide_eq_true_eq] at hcs
      omega
  rw [hid]
  exact onlyReads_passReq src a hf

/-! ### What is due where nothing is -/

theorem units_calm {s : State} (hx : s.ms.xfers = []) (he : ∀ g ∈ s.eng, g.arr = none ∧ g.stg = none) : units s = s := by
  have hi : ∀ e, (engOf s e).arr = none ∧ (engOf s e).stg = none := fun e => by
    unfold engOf
    by_cases h : e < s.eng.length
    · rw [List.getD_eq_getElem _ _ h]
      exact he _ (List.getElem_mem h)
    · rw [List.getD_eq_default _ _ (Nat.not_lt.1 h)]
      exact ⟨rfl, rfl⟩
  have hs : ∀ e, stageAhead s e = s := fun e => by
    simp only [stageAhead, clearStaged, (hi e).1, (hi e).2]
  have hp : pumpAll s = s := by simp [pumpAll, hx]
  rw [units, hp, stageAll]
  generalize List.range 16 = l
  induction l with
  | nil => rfl
  | cons e l ih => rw [List.foldl_cons, hs e]; exact ih

theorem commitWaits_calm {s : State} (hw : s.fc.waits = []) (hi : s.sch.invalid = []) : commitWaits s = s := by
  simp [commitWaits, cascadeAll, hw, hi]

/-- A calm state is left as it is but for what the meaning has done. -/
theorem settleUnits_calm {s t : State} (hs : calm s = true) (hf : t.fc.fsw = s.fc.fsw) (hw : t.fc.waits = s.fc.waits)
    (hi : t.sch.invalid = s.sch.invalid) (hx : t.ms.xfers = s.ms.xfers) (he : t.eng = s.eng) :
    settleUnits s (commitWaits t) = t := by
  simp only [calm, Bool.and_eq_true, List.isEmpty_iff, List.all_eq_true, Option.isNone_iff_eq_none] at hs
  obtain ⟨⟨⟨hw', hi'⟩, hx'⟩, he'⟩ := hs
  rw [commitWaits_calm (hw.trans hw') (hi.trans hi'), settleUnits, units_calm (hx.trans hx') (by rw [he]; exact he'),
    settle_same hf]

/-- No source clears as waiting ends and skips commit. -/
theorem commitWaits_fsw (s : State) {i : Nat} (h : s.fc.fsw.getLsbD i = true) : (commitWaits s).fc.fsw.getLsbD i = true := by
  refine (cascadeAll_bg (.refl _)).fsw i ?_
  generalize s.fc.waits = l
  induction l generalizing s with
  | nil => exact h
  | cons w l ih =>
    rw [List.foldl_cons]
    refine ih _ ?_
    split
    · exact h
    · cases w with
      | job t o inp => exact (endJob_step _ t o inp).fsw i h
      | skip e o =>
        dsimp only
        unfold skipEntry
        split
        · rw [waitEnd]
          split <;> exact h
        · exact (pushRec_bg _ _ (.refl _)).fsw i h

theorem settleUnits_fsw (s0 s : State) {i : Nat} (h : s.fc.fsw.getLsbD i = true) :
    (settleUnits s0 s).fc.fsw.getLsbD i = true := (settleUnits_core (.refl s) s0).fsw i h

theorem length_dropFirst {α : Type} {p : α → Bool} {l : List α} {x : α} (h : l.find? p = some x) :
    (dropFirst p l).length + 1 = l.length := by
  induction l with
  | nil => cases h
  | cons y l ih =>
    rw [List.find?_cons] at h
    rw [dropFirst]
    split at h
    · rename_i hy
      rw [hy]
      rfl
    · rename_i hy
      rw [hy]
      simp [ih h]

/-! ### The completion ring -/

/-- The state after the collector has taken a record of a job into the ring. -/
def collected (s : State) (inp : Nat) (r : CRec) : State :=
  let s1 := storeWords s (0x083F_8000 + 16 * s.fc.cWr) (crecWords r)
  let nx := ringNext 256 16 s.fc.cWr s.fc.cWraps
  { s1 with
    fc := { s1.fc with cWr := nx.1, cWraps := nx.2, skid := dropFirst (fun y => y.1 == inp) s1.fc.skid }
    rst := { s1.rst with liveToks := s1.rst.liveToks.filter (fun t => t != r.token) }
    sch := { s1.sch with
      endsDone := if r.outcome == .done then satAdd 0xFFFF s1.sch.endsDone 1 else s1.sch.endsDone
      endsNot := if r.outcome == .done then s1.sch.endsNot else satAdd 0xFFFF s1.sch.endsNot 1 } }

theorem collected_keeps (s : State) (inp : Nat) (r : CRec) :
    ((collected s inp r).fc.fsw, (collected s inp r).fc.waits, (collected s inp r).fc.cRd, (collected s inp r).sch.invalid,
      (collected s inp r).ms, (collected s inp r).eng, (collected s inp r).jobs)
    = (s.fc.fsw, s.fc.waits, s.fc.cRd, s.sch.invalid, s.ms, s.eng, s.jobs) := by
  simp only [collected, storeWords, store]

section
variable {s : State} {inp : Nat} {x : Nat × CRec} (hx : s.fc.skid.find? (fun y => y.1 == inp) = some x)
include hx

theorem collectOne_full (hr : ringFull s = true) :
    collectOne s inp = { s with fc := { s.fc with stall := satAdd 0xFFFF_FFFF s.fc.stall 1 } } := by
  simp only [collectOne, hx, hr, if_true]

theorem collectOne_job (hr : ringFull s = false) (h1 : x.2.outcome ≠ .skippedNoStart) (h2 : x.2.outcome ≠ .skippedUpstream) :
    collectOne s inp = if s.rst.liveToks.contains x.2.token then collected s inp x.2
      else setSrc { collected s inp x.2 with sch := { (collected s inp x.2).sch with consToken := true } } 82 := by
  have hs : (x.2.outcome == .skippedNoStart || x.2.outcome == .skippedUpstream) = false := by simp [h1, h2]
  simp only [collectOne, hx, hr, hs, Bool.false_eq_true, if_false, Bool.false_or, collected]

end

theorem readAll_cRd (s : State) (src : Nat) (rs : List (Nat × Nat)) (ecc : List (Nat × Ecc)) :
    (readAll s src rs ecc).fc.cRd = s.fc.cRd := by
  have h := (readAll_bg src rs ecc (.refl s)).keep
  simp only [still, core, Prod.mk.injEq] at h
  exact h.1.2.1

theorem settleUnits_core_eq (s0 u : State) : core (settleUnits s0 u) = core u := (settleUnits_core (.refl u) s0).keep

/-- Settles O35: `collectOne` by the room in the ring and the token's life; the reads of control pair A by `pairAReads_eq`; and
where nothing is due, the two ends of the meanings by `settleUnits_calm`. -/
theorem completionRing : Obligations.CompletionRing := by
  refine ⟨fun s inp x hx => ⟨?_, ?_, ?_⟩, ?_, ?_⟩
  · rintro hr t rfl
    have hex : exec (.completionRecordCollect inp) s = .next (settleUnits s (commitWaits (collectOne s inp))) := rfl
    rw [hex, collectOne_full hx hr]
    exact ⟨rfl, fun hc => congrArg _ (settleUnits_calm hc rfl rfl rfl rfl rfl)⟩
  · intro hr h1 h2 hl
    have hex : exec (.completionRecordCollect inp) s = .next (settleUnits s (commitWaits (collectOne s inp))) := rfl
    rw [hex, collectOne_job hx hr h1 h2, if_pos hl]
    have hk := collected_keeps s inp x.2
    simp only [Prod.mk.injEq] at hk
    obtain ⟨hfsw, hwaits, hrd, hinv, hms, heng, hjobs⟩ := hk
    refine ⟨collected s inp x.2, rfl, fun hc => congrArg _ (settleUnits_calm hc hfsw hwaits hinv (by rw [hms]) heng), ?_,
      ?_, ?_, hrd, ?_, ?_, ?_, ?_, hfsw, hjobs⟩
    · simp only [collected]
    · simp only [collected, ringNext]
      split <;> rfl
    · simp only [collected, ringNext]
      split <;> rfl
    · simpa only [collected, storeWords, store] using length_dropFirst hx
    · simp [collected]
    · intro hd
      simp [collected, hd, storeWords, store]
    · intro hd
      simp [collected, hd, storeWords, store]
  · intro hr h1 h2 hl
    have hex : exec (.completionRecordCollect inp) s = .next (settleUnits s (commitWaits (collectOne s inp))) := rfl
    refine ⟨_, hex, settleUnits_fsw _ _ (commitWaits_fsw _ ?_)⟩
    rw [collectOne_job hx hr h1 h2, if_neg (by rw [hl]; decide)]
    exact setSrc_sets_bit _ (by decide) (by decide)
  · intro s ecc h
    have hb : (s.rst.pairA || s.fc.cRd == s.fc.cWr) = true := by simpa using h
    have hex : exec (.completionRecordConsume ecc) s = execCompletionRecordConsume s ecc := rfl
    rw [hex, execCompletionRecordConsume, if_pos hb]
  · rintro s ecc rs hp hne rfl
    have hex : exec (.completionRecordConsume ecc) s = execCompletionRecordConsume s ecc := rfl
    have hb : ¬ (s.rst.pairA || s.fc.cRd == s.fc.cWr) = true := by simp [hp, hne]
    rw [hex, execCompletionRecordConsume, if_neg hb, pairAGo, pairAReads_eq]
    refine ⟨fun hg => ?_, fun hg => ?_⟩
    · rintro u rfl
      rw [if_pos hg]
      dsimp only
      rw [readAll_cRd]
      refine ⟨rfl, fun hc he hf => ⟨_, rfl, ?_⟩⟩
      subst he
      have hbad : readBad (readAll s srcPairA [(0x083F_8000 + 16 * s.fc.cRd, 16)] []) (0x083F_8000 + 16 * s.fc.cRd) 16
          (eccFor []) = false := by simpa [readsGood] using hg
      have hu : onlyReads s (readAll s srcPairA [(0x083F_8000 + 16 * s.fc.cRd, 16)] []) :=
        onlyReads_portRead srcPairA (a := 0x083F_8000 + 16 * s.fc.cRd) (n := 16) (by omega) (by omega) le_rfl (by omega) hf hbad
      generalize readAll s srcPairA [(0x083F_8000 + 16 * s.fc.cRd, 16)] [] = u at hu
      rw [onlyReads] at hu
      rw [settleUnits_calm hc (by rw [hu]) (by rw [hu]) (by rw [hu]) (by rw [hu]) (by rw [hu]), onlyReads, hu]
    · rw [if_neg (by rw [hg]; decide)]
      refine ⟨_, rfl, ?_⟩
      have hcore := settleUnits_core_eq s (stopPairA (readAll s srcPairA [(0x083F_8000 + 16 * s.fc.cRd, 16)] ecc))
      simp only [core, Prod.mk.injEq] at hcore
      exact ⟨hcore.1.trans (stopPairA_pairA _), hcore.2.1.trans ((stopPairA_cRd _).trans (readAll_cRd _ _ _ _))⟩

end Sys2Proof.Proofs
end

section
/-! PROOFS. RUN_JOB and ABORT_JOB (R29, R35, R36, R418, R463, R464): commands that read for control pair A or end jobs, so that
their ends may answer a fatal source. -/

namespace Sys2Proof.Proofs

open Sys2Proof Sys2Proof.Machine Sys2Proof.Laws

/-! ### Commands that may set sources -/

section
variable {op flags : Nat} {k : Pkt} {body : State → Ans} {s s0 : State}

theorem settle_congr {s s0 : State} (h : s0.fc.fsw = s.fc.fsw) (t : State) : settle s t = settle s0 t := by
  unfold settle
  rw [h]

/-- A command that starts is served in the state in which it runs, and what it sets is answered. -/
theorem command_serves (h : starts s op flags k = some s0) : command op flags k body s = settle s0 (serve op flags k body s0) := by
  unfold starts at h
  split at h
  · cases h
  split at h
  · rename_i t ht
    split at h
    · rename_i he
      cases h
      simp only [Bool.and_eq_true, decide_eq_true_eq, Bool.not_eq_true'] at he
      rw [command, ht]
      dsimp only
      rw [if_pos he.1, if_neg (by rw [he.2]; decide)]
      exact settle_congr (by cases k.port <;> rfl) _
    · cases h
  · rename_i ht
    split at h
    · rename_i he
      cases h
      simp only [Bool.and_eq_true, beq_iff_eq, Bool.not_eq_true'] at he
      rw [command, ht]
      dsimp only
      rw [if_pos he.1.1, he.1.2]
      dsimp only
      rw [if_neg (by rw [he.2]; decide)]
    · cases h

/-- The firmware serves a command that starts. -/
theorem served_of_starts (h : starts s op flags k = some s0) : served s0 op k = true ∧ responder s0 = false := by
  unfold starts at h
  split at h
  · cases h
  rename_i hr
  simp only [Bool.or_eq_true, Bool.not_eq_true', not_or, Bool.not_eq_true, Bool.not_eq_false] at hr
  split at h <;> split at h <;> cases h
  · exact ⟨by rw [served_clearTaken]; exact hr.2, by rw [responder_clearTaken]; exact hr.1⟩
  · exact ⟨hr.2, hr.1⟩

theorem command_answers {s1 : State} {st : Status} {pl : List Word} (h : starts s op flags k = some s0)
    (hb : body s0 = (s1, some (st, pl))) : command op flags k body s = settle s0 (answered s1 op k st pl) := by
  obtain ⟨hv, hr⟩ := served_of_starts h
  rw [command_serves h]
  simp only [serve, hv, if_true, hb, giveReply, hr]
  rfl

theorem settle_pairA (s t : State) : (settle s t).rst.pairA = t.rst.pairA := by
  have h := (settle_core (.refl t) s).keep
  simp only [core, Prod.mk.injEq] at h
  exact h.1

/-- A command whose work stops control pair A sends no reply. -/
theorem command_stops {s1 : State} (h : starts s op flags k = some s0) (hb : body s0 = (s1, none))
    (hp : s1.rst.pairA = true) : (command op flags k body s).rst.pairA = true := by
  obtain ⟨hv, -⟩ := served_of_starts h
  rw [command_serves h]
  have hs : (serve op flags k body s0).rst.pairA = true := by
    simp only [serve, hv, if_true, hb]
    split
    · cases k.port <;> exact hp
    · exact hp
  exact (settle_pairA _ _).trans hs

end

theorem tokens_of_starts {s s0 : State} {op flags : Nat} {k : Pkt} (h : starts s op flags k = some s0) :
    s0.cmd.tokens = s.cmd.tokens := by
  unfold starts at h
  split at h
  · cases h
  split at h <;> split at h <;> cases h
  · cases k.port <;> rfl
  · rfl

/-! ### What reads leave -/

/-- What the reads of a source port leave of memory, jobs and the Tide Table. -/
def readView (s : State) := (s.mem, s.jobs, s.sch.ctxSeq, s.sch.tt)

theorem readView_setSrc (s : State) (n : Nat) : readView (setSrc s n) = readView s := ite_keeps readView rfl rfl

theorem readView_addPoison (s : State) (u : Nat) : readView (addPoison s u) = readView s := ite_keeps readView rfl rfl

theorem readView_countPoisonRead (s : State) (a : Nat) : readView (countPoisonRead s a) = readView s :=
  ite_keeps readView rfl (ite_keeps readView rfl (ite_keeps readView rfl rfl))

theorem readView_eccRead (s : State) (a : Nat) (ecc : Ecc) : readView (eccRead s a ecc) = readView s := by
  have hs : ∀ {t : State} (n : Nat), readView t = readView s → readView (setSrc t n) = readView s :=
    fun n ht => (readView_setSrc _ n).trans ht
  have hp : ∀ {t : State} (u : Nat), readView t = readView s → readView (addPoison t u) = readView s :=
    fun u ht => (readView_addPoison _ u).trans ht
  have hc : ∀ {t : State}, readView t = readView s → readView (countPoisonRead t a) = readView s :=
    fun ht => (readView_countPoisonRead _ a).trans ht
  unfold eccRead
  cases ecc <;> dsimp only
  case asStored | timedOut => exact hc rfl
  case corrected =>
    exact ite_keeps _ (hs _ rfl) (ite_keeps _ (hs _ rfl) (ite_keeps _ (hs _ rfl) (ite_keeps _ (hs _ rfl) rfl)))
  case uncorrectable =>
    exact ite_keeps _ (hs _ (hp _ rfl)) (ite_keeps _ (hs _ (hp _ rfl)) (ite_keeps _ (hs _ (hp _ rfl))
      (ite_keeps _ (hs _ rfl) rfl)))
  case linkCorrected => exact hc (ite_keeps _ rfl rfl)
  case linkRetried n => exact hc (ite_keeps _ (hs _ rfl) rfl)
  case linkFailed => exact ite_keeps _ (hs _ (hs _ rfl)) rfl

theorem readView_passReq (s : State) (src a : Nat) : readView (passReq s src a) = readView s := by
  have ht : ∀ (t : State) (x : Nat), readView (touchCheck t x) = readView t := fun t x => ite_keeps readView rfl rfl
  refine (ht _ _).trans (ite_keeps (c := _) readView rfl ?_)
  exact readView_setSrc _ 82

theorem readView_portRead (s : State) (src a n : Nat) (o : Nat → Ecc) : readView (portRead s src a n o) = readView s :=
  foldl_keeps readView _ (fun s x => by
    refine ite_keeps readView ?_ ?_
    · exact (readView_setSrc _ 83).trans (readView_passReq s src x.1)
    · exact (foldl_keeps readView _ (fun s u => readView_eccRead s u _) _ _).trans (readView_passReq s src x.1)) _ _

theorem readView_readAll (s : State) (src : Nat) (rs : List (Nat × Nat)) (ecc : List (Nat × Ecc)) :
    readView (readAll s src rs ecc) = readView s :=
  foldl_keeps readView _ (fun s _ => readView_portRead s src _ _ _) _ _

theorem readAll_mem (s : State) (src : Nat) (rs : List (Nat × Nat)) (ecc : List (Nat × Ecc)) :
    (readAll s src rs ecc).mem = s.mem := congrArg (·.1) (readView_readAll s src rs ecc)

theorem readAll_jobs (s : State) (src : Nat) (rs : List (Nat × Nat)) (ecc : List (Nat × Ecc)) :
    (readAll s src rs ecc).jobs = s.jobs := congrArg (·.2.1) (readView_readAll s src rs ecc)

theorem readAll_ctxSeq (s : State) (src : Nat) (rs : List (Nat × Nat)) (ecc : List (Nat × Ecc)) :
    (readAll s src rs ecc).sch.ctxSeq = s.sch.ctxSeq := congrArg (·.2.2.1) (readView_readAll s src rs ecc)

theorem readAll_tt (s : State) (src : Nat) (rs : List (Nat × Nat)) (ecc : List (Nat × Ecc)) :
    (readAll s src rs ecc).sch.tt = s.sch.tt := congrArg (·.2.2.2) (readView_readAll s src rs ecc)

/-! ### RUN_JOB -/

/-- What RUN_JOB checks of its packet before it looks at the device. -/
structure RunJobWords (k : Pkt) (ctx a n : Nat) : Prop where
  hctx : wd k.params 0 = BitVec.ofNat 32 ctx
  hc : ctx < 4096
  hmask : (wd k.params 1).toNat < 2 ^ 26
  htime : wd k.params 3 ≠ 0
  hhi : (wd k.params 5).toNat < 65536
  ha : a = (wd k.params 4).toNat + (wd k.params 5).toNat * 2 ^ 32
  hn : n = (wd k.params 6).toNat

/-- The part of RUN_JOB that reads. -/
def runJobReads (k : Pkt) (t4 : Bool) (ctx a n : Nat) (ecc : List (Nat × Ecc)) (s : State) : Ans :=
  pairAReads s [(a, n)] (eccFor ecc) fun s =>
    let p := parsePlan (s.mem.read a n)
    pairAReads s (planLists p) (eccFor ecc) fun s =>
    match imageBad s p with
    | some f => refuse s f.1 (detail f.2.1 f.2.2.1 f.2.2.2)
    | none =>
      if 64 ≤ (s.jobs.filter (fun j => j.origin == .runJob)).length then refuse s .noSpace []
      else
        let r := beginImage s p .runJob ctx (wd k.params 1).toNat (wd k.params 2).toNat (wd k.params 3).toNat k.port t4
        (r.2, some (.accepted, [r.1]))

theorem doRunJob_eq {k : Pkt} {ctx a n : Nat} (h : RunJobWords k ctx a n) (t4 : Bool) (s : State) (ecc : List (Nat × Ecc)) :
    doRunJob k t4 s ecc =
      if ctx = 0 ∨ ctx = 0xFFF then badWord s 2
      else if s.sch.run == .halted || anyFA s then refuse s .wrongState []
      else if replaying s then refuse s .busy []
      else if !inDram s a n then badWord s 6
      else runJobReads k t4 ctx a n ecc s := by
  obtain ⟨hctx, hc, hmask, htime, hhi, rfl, rfl⟩ := h
  have hw : (wd k.params 0).toNat = ctx := by rw [hctx, BitVec.toNat_ofNat]; omega
  have h0 : fld k.params 0 31 12 = 0 := (bits_top_eq_zero _ (by decide)).2 (by omega)
  have h0' : fld k.params 0 11 0 = ctx := by rw [fld, bits_zero, hw]; omega
  have h1 : fld k.params 1 31 26 = 0 := (bits_top_eq_zero _ (by decide)).2 hmask
  have h5 : fld k.params 5 31 16 = 0 := (bits_top_eq_zero _ (by decide)).2 hhi
  have hp := pair48_of_lt (wd k.params 4) hhi
  unfold doRunJob
  simp only [h0, h0', h1, h5, hp, bne_self_eq_false, Bool.false_or, Bool.false_eq_true, if_false, beq_iff_eq, htime,
    Bool.or_eq_true, decide_eq_true_eq]
  rfl

/-- A job begins with the next token of its context. -/
theorem beginImage_token (s : State) (p : Plan) (o : Origin) (ctx mask budget us : Nat) (port : Port) (t4 : Bool) :
    (beginImage s p o ctx mask budget us port t4).1 = BitVec.ofNat 32 (ctx * 2 ^ 20 + (takeCtx s.sch.ctxSeq ctx).1) := rfl

/-! ### The end of a job -/

/-- Where its input has room, a job that ends is live no more. -/
theorem jobOf_endJob {s : State} {t : Word} {o : JobEnd} {inp : Nat} (hi : inputStalled s inp = false) :
    jobOf (endJob s t o inp) t = none := by
  unfold endJob
  rw [hi, Bool.false_and, if_neg (by decide)]
  split
  · assumption
  · dsimp only
    refine (pushRec_bg _ _ ((Follows.refl _).of_seen ((releaseWalks_seen _ _).trans (setTokCode_seen _ _ _)))).jobOf_none ?_
    have hf : ∀ l : List Job, (l.filter (fun x => x.token != t)).find? (fun j => j.token == t) = none := by
      simp
    split
    · exact hf _
    · exact hf _
    · exact hf _

theorem jobOf_killJob {s : State} {t : Word} {o : JobEnd} {inp : Nat} (hi : inputStalled s inp = false) :
    jobOf (killJob s t o inp) t = none := (cascadeAll_bg (.refl _)).jobOf_none (jobOf_endJob hi)

theorem inputStalled_setSrcs (s : State) (l : List Nat) (inp : Nat) : inputStalled (setSrcs s l) inp = inputStalled s inp := by
  refine foldl_keeps (fun s => inputStalled s inp) _ (fun s n => ?_) l s
  unfold setSrc
  split <;> rfl

theorem inputStalled_congr {s t : State} (h : t.fc = s.fc) (inp : Nat) : inputStalled t inp = inputStalled s inp := by
  unfold inputStalled skidCount ringFull
  rw [h]

/-- Sources that are set stand set. -/
theorem setSrcs_sets {l : List Nat} {n : Nat} (s : State) (hl : n ∈ l) (hn : n < 128) (hr : srcReserved n = false) :
    (setSrcs s l).fc.fsw.getLsbD n = true := by
  induction l generalizing s with
  | nil => cases hl
  | cons m l ih =>
    rcases List.mem_cons.1 hl with rfl | h
    · exact (setSrcs_bg l (.refl (setSrc s n))).fsw n (setSrc_sets_bit s hn hr)
    · exact ih (setSrc s m) h

theorem answered_seen (s : State) (op : Nat) (k : Pkt) (st : Status) (pl : List Word) :
    (answered s op k st pl).jobs = s.jobs ∧ (answered s op k st pl).fc = s.fc := by
  refine ⟨?_, answered_fc s op k st pl⟩
  have hm : ∀ (t : State) (v : Nat), (msix t v).jobs = t.jobs := fun t v => by
    unfold msix
    exact ite_keeps State.jobs rfl (ite_keeps State.jobs rfl (ite_keeps State.jobs rfl rfl))
  cases hp : k.port <;> simp [answered, placeReply, place, hp, modPort, hm]

theorem lastReply_answered (s : State) (op : Nat) (k : Pkt) (st : Status) (pl : List Word) :
    (portSt (answered s op k st pl) k.port).lastReply = replyWords op st k.tag k.seq (payloadOf st pl) := by
  cases hp : k.port <;> simp [answered, hp, modPort, portSt]

theorem lastReply_settle (s t : State) (p : Port) : (portSt (settle s t) p).lastReply = (portSt t p).lastReply := by
  have h := (settle_core (.refl t) s).keep
  simp only [core, Prod.mk.injEq] at h
  obtain ⟨-, -, -, hh, hs, hd, -⟩ := h
  cases p
  · exact hh
  · exact hs
  · exact hd

/-- A job that a command kills is live no more at the command's end. -/
theorem jobOf_answered {s s0 : State} {t : Word} {op : Nat} {k : Pkt} {st : Status} {pl : List Word} (h : jobOf s t = none) :
    jobOf (settle s0 (answered s op k st pl)) t = none := by
  refine (settle_core (.refl _) s0).jobOf_none ?_
  rw [jobOf, (answered_seen s op k st pl).1]
  exact h

/-- Sources that a command sets stand set at its end. -/
theorem fsw_answered {s s0 : State} {i op : Nat} {k : Pkt} {st : Status} {pl : List Word} (h : s.fc.fsw.getLsbD i = true) :
    (settle s0 (answered s op k st pl)).fc.fsw.getLsbD i = true := by
  refine (settle_core (.refl _) s0).fsw i ?_
  rw [(answered_seen s op k st pl).2]
  exact h

/-! ### ABORT_JOB -/

/-- What the kills by time come to, by whether the budget and the deadline have come. -/
theorem timedEnd_eq (s : State) (j : Job) {B D : Bool} (hB : B = (!j.halted && decide (j.budget ≤ budgetUsed s j)))
    (hD : D = (match deadlineAt s j with | some x => decide (x / 4 ≤ now s / 4) | none => false)) :
    timedEnd s j = if B then some (.killedBudget, if D then [104, 105] else [104])
      else if D then some (.killedDeadline, [105]) else none := by
  subst hB hD
  rfl

/-- A job that is ended by time while a command waits for it. -/
theorem abortJob_late {s : State} {j : Job} {o : JobEnd} {l : List Nat} (h : timedEnd (elapse s 1) j = some (o, l)) :
    abortJob s j = (units (killJob (setSrcs (elapse s 1) l) j.token o 26),
      some (.alreadyDone, [BitVec.ofNat 32 o.code])) := by
  simp only [abortJob, h, refuse]

/-- The command's end, where the job has ended by time. -/
theorem abortJob_late_end {s s0 u : State} {k : Pkt} {tok : Word} {o : JobEnd} {l : List Nat}
    (hu : u.fc = s.fc) : ∀ t, t = settle s0 (answered (units (killJob (setSrcs u l) tok o 26)) 0x22 k .alreadyDone
      [BitVec.ofNat 32 o.code]) →
    (inputStalled s 26 = false → jobOf t tok = none)
      ∧ (∀ n ∈ l, n < 128 → srcReserved n = false → t.fc.fsw.getLsbD n = true)
      ∧ (portSt t k.port).lastReply = replyWords 0x22 .alreadyDone k.tag k.seq [BitVec.ofNat 32 o.code] := by
  rintro t rfl
  refine ⟨fun hi => jobOf_answered ((units_bg (.refl _)).jobOf_none (jobOf_killJob ?_)), fun n hn h1 h2 => ?_, ?_⟩
  · rw [inputStalled_setSrcs, inputStalled_congr hu, hi]
  · exact fsw_answered ((units_bg (killJob_bg _ _ _ (.refl _))).fsw n (setSrcs_sets u hn h1 h2))
  · rw [lastReply_settle, lastReply_answered]
    rfl

theorem doAbortJob_eq {k : Pkt} {s : State} (h1 : tideTok s (wd k.params 0) = false) (h2 : 2 ^ 20 ≤ (wd k.params 0).toNat) :
    doAbortJob k s = match jobOf s (wd k.params 0) with
      | some j => abortJob s j
      | none => match s.cmd.tokens.find? (fun x => x.token == wd k.params 0) with
        | some x => refuse s .alreadyDone [BitVec.ofNat 32 (x.code % 16)]
        | none => badWord s 2 := by
  have hb : bits (wd k.params 0) 31 20 ≠ 0 := fun h => by
    have := (bits_top_eq_zero _ (by decide)).1 h
    omega
  simp only [doAbortJob, h1, Bool.false_or, decide_eq_true_eq, hb, if_false] <;> rfl

/-- Settles O30. RUN_JOB: the checks in their order, then the reads of control pair A by `pairAReads_eq`. ABORT_JOB: the kill, by
time or by the command, ends the job, and nothing that follows brings it back. -/
theorem runAndAbortJob : Obligations.RunAndAbortJob := by
  refine ⟨fun k t4 s s0 ctx a n hs hctx hc hmask htime hhi ha hn => ?_, fun k s s0 tok hs htok => ?_⟩
  · have hw : RunJobWords k ctx a n := ⟨hctx, hc, hmask, htime, hhi, ha, hn⟩
    have hex : ∀ ecc, exec (.runJob k t4 ecc) s = .next (command 0x21 (b2n t4) k (fun s => doRunJob k t4 s ecc) s) :=
      fun _ => rfl
    have hs0 := starts_eq hs
    have erun : s0.sch.run = s.sch.run := by rw [hs0]
    have efa : anyFA s0 = anyFA s := by rw [hs0]; rfl
    have erep : replaying s0 = replaying s := by rw [hs0]; rfl
    have edram : inDram s0 a n = inDram s a n := by rw [hs0]; rfl
    have emem : s0.mem = s.mem := by rw [hs0]
    have ejobs : s0.jobs = s.jobs := by rw [hs0]
    have eseq : s0.sch.ctxSeq = s.sch.ctxSeq := by rw [hs0]
    have hrun := doRunJob_eq hw t4 s0
    rw [erun, efa, erep, edram] at hrun
    simp only [hex]
    refine ⟨fun hb => congrArg _ (command_refuses hs ?_), fun h0 h1 => ?_⟩
    · rw [hrun, if_pos hb]
      rfl
    have hctx' : ¬ (ctx = 0 ∨ ctx = 0xFFF) := by simp [h0, h1]
    refine ⟨fun hb => congrArg _ (command_refuses hs ?_), fun hr hf hb => congrArg _ (command_refuses hs ?_),
      fun ecc u v p hr hf hrep hd hu hp hv => ?_⟩
    · rw [hrun, if_neg hctx', if_pos (by simpa using hb)]
    · rw [hrun, if_neg hctx', if_neg (by simp [hr, hf]), if_pos hb]
    have hbody : doRunJob k t4 s0 ecc = runJobReads k t4 ctx a n ecc s0 := by
      rw [hrun, if_neg hctx', if_neg (by simp [hr, hf]), if_neg (by simp [hrep]), if_neg (by simp [hd])]
    have hmem : u.mem = s.mem := by rw [hu, readAll_mem, emem]
    have hjobs : v.jobs = s.jobs := by rw [hv, readAll_jobs, hu, readAll_jobs, ejobs]
    have hseq : v.sch.ctxSeq = s.sch.ctxSeq := by rw [hv, readAll_ctxSeq, hu, readAll_ctxSeq, eseq]
    rw [runJobReads, pairAReads_eq, ← hu] at hbody
    dsimp only at hbody
    rw [hmem, ← hp, pairAReads_eq, ← hv, hjobs] at hbody
    refine ⟨fun hbad => ⟨_, rfl, ?_⟩, fun hg1 hg2 => ?_⟩
    · by_cases hg1 : readsGood s0 srcPairA [(a, n)] ecc = true
      · have hg2 : ¬ readsGood u srcPairA (planLists p) ecc = true := by
          rcases hbad with hbad | hbad
          · rw [hbad] at hg1; cases hg1
          · rw [hbad]; decide
        rw [if_pos hg1, if_neg hg2] at hbody
        exact command_stops hs hbody (stopPairA_pairA _)
      · rw [if_neg hg1] at hbody
        exact command_stops hs hbody (stopPairA_pairA _)
    · rw [if_pos hg1, if_pos hg2] at hbody
      refine ⟨fun st x row i hi => ?_, fun hi h64 => ?_, fun r hi h64 hr' => ?_⟩
      · rw [hi] at hbody
        exact congrArg _ (command_answers hs hbody)
      · rw [hi] at hbody
        dsimp only at hbody
        rw [if_pos h64] at hbody
        exact congrArg _ (command_answers hs hbody)
      · rw [hi] at hbody
        dsimp only at hbody
        rw [if_neg (by omega), ← hr'] at hbody
        exact ⟨by rw [hr', beginImage_token, hseq], congrArg _ (command_answers hs hbody)⟩
  · subst htok
    have hs0 := starts_eq hs
    have etide : tideTok s0 (wd k.params 0) = tideTok s (wd k.params 0) := by rw [hs0]; rfl
    have ejob : jobOf s0 (wd k.params 0) = jobOf s (wd k.params 0) := by rw [hs0]; rfl
    have efc : s0.fc = s.fc := by rw [hs0]
    have etok := tokens_of_starts hs
    have hex : exec (.abortJob k) s = .next (command 0x22 0 k (doAbortJob k) s) := rfl
    rw [hex]
    refine ⟨fun h => congrArg _ (command_refuses hs ?_), fun htide hbig => ?_⟩
    · rw [doAbortJob, etide, if_pos]
      rcases h with h | h
      · rw [h]; rfl
      · rw [(bits_top_eq_zero _ (by decide)).2 h]; simp
    have hbody := doAbortJob_eq (etide.trans htide) hbig
    rw [ejob] at hbody
    refine ⟨fun j u hj hu B D hB hD => ?_, fun hj x hx => ?_, fun hj hx => ?_⟩
    · rw [hj] at hbody
      have hjt := (mem_of_jobOf hj).2
      have hend := timedEnd_eq u j hB hD
      have hufc : u.fc = s.fc := by rw [hu, elapse_fc, efc]
      rw [hu] at hend
      have late : ∀ o l, timedEnd (elapse s0 1) j = some (o, l) → _ := fun o l h =>
        abortJob_late_end (s0 := s0) (k := k) (tok := wd k.params 0) (o := o) (l := l) hufc _
          ((command_answers hs (hbody.trans (abortJob_late h))).trans (by rw [hjt, hu]))
      refine ⟨fun hb hd => ?_, fun hb => ?_, fun hb hd => ?_⟩
      · rw [hb, hd] at hend
        have hab : abortJob s0 j = (units (killJob u (wd k.params 0) .aborted 27), some (.ok, [])) := by
          rw [hu, ← hjt]
          simp only [abortJob, hend]
          rfl
        refine ⟨_, rfl, fun hi => ?_, command_answers hs (hbody.trans hab)⟩
        rw [command_answers hs (hbody.trans hab)]
        exact jobOf_answered ((units_bg (.refl _)).jobOf_none (jobOf_killJob (by rw [inputStalled_congr hufc, hi])))
      · rw [hb] at hend
        obtain ⟨h1, h2, h3⟩ := late _ _ hend
        refine ⟨_, rfl, h1, h2 104 ?_ (by decide) (by decide), fun hd => h2 105 ?_ (by decide) (by decide), h3⟩
        · split <;> simp
        · simp [hd]
      · rw [hb, hd] at hend
        obtain ⟨h1, h2, h3⟩ := late _ _ hend
        exact ⟨_, rfl, h1, h2 105 (by simp) (by decide) (by decide), h3⟩
    · rw [hj, etok] at hbody
      dsimp only at hbody
      rw [hx] at hbody
      exact congrArg _ (command_refuses hs hbody)
    · rw [hj, etok] at hbody
      dsimp only at hbody
      rw [hx] at hbody
      exact congrArg _ (command_refuses hs hbody)

end Sys2Proof.Proofs
end

section
/-! PROOFS. Jobs that start and end by time (R25, R28 to R34, R418, R420). -/

namespace Sys2Proof.Proofs

open Sys2Proof Sys2Proof.Machine Sys2Proof.Laws

/-! ### Reservations -/

theorem modAt_eq_setAt {α : Type} {l : List α} {i : Nat} {x : α} (h : l[i]? = some x) (f : α → α) :
    modAt l i f = setAt l i (f x) := by
  refine List.ext_getElem? fun j => ?_
  rw [getElem?_modAt, getElem?_setAt]
  by_cases hj : j = i
  · subst hj
    have hlt := (List.getElem?_eq_some_iff.1 h).1
    rw [if_pos rfl, h]
    simp
  · simp [hj]

/-! ### The end of an entry or a job by time -/

section
variable {s : State} {j : Job}

theorem killTimed_of {o : JobEnd} {l : List Nat} (h : timedEnd s j = some (o, l)) :
    killTimed s j = killJob (setSrcs s l) j.token o 26 := by
  simp only [killTimed, h]

/-- The end of a meaning that kills a job by time: the job is live no more, and the kill's sources stand. -/
theorem killTimed_end {o : JobEnd} {l : List Nat} (h : timedEnd s j = some (o, l)) (hi : inputStalled s 26 = false) (s0 : State) :
    jobOf (settleUnits s0 (killTimed s j)) j.token = none
      ∧ ∀ n ∈ l, n < 128 → srcReserved n = false → (settleUnits s0 (killTimed s j)).fc.fsw.getLsbD n = true := by
  rw [killTimed_of h]
  refine ⟨(settleUnits_core (.refl _) s0).jobOf_none (jobOf_killJob ?_), fun n hn h1 h2 => ?_⟩
  · rw [inputStalled_setSrcs, hi]
  · exact settleUnits_fsw _ _ ((killJob_bg _ _ _ (.refl _)).fsw n (setSrcs_sets s hn h1 h2))

/-- What stands of the budget and the deadline. -/
def budgetDue (s : State) (j : Job) : Bool := !j.halted && decide (j.budget ≤ budgetUsed s j)
def deadlineDue (s : State) (j : Job) : Bool :=
  match deadlineAt s j with | some x => decide (x / 4 ≤ now s / 4) | none => false

theorem timedEnd_due (s : State) (j : Job) :
    timedEnd s j = if budgetDue s j then some (.killedBudget, if deadlineDue s j then [104, 105] else [104])
      else if deadlineDue s j then some (.killedDeadline, [105]) else none := timedEnd_eq s j rfl rfl

theorem deadlineDue_of {d : Nat} (h : deadlineAt s j = some d) (hd : d ≤ now s) : deadlineDue s j = true := by
  simp only [deadlineDue, h, decide_eq_true_eq]
  exact Nat.div_le_div_right hd

theorem budget_end (hb : budgetDue s j = true) (hi : inputStalled s 26 = false) (s0 : State) :
    jobOf (settleUnits s0 (killTimed s j)) j.token = none
      ∧ (settleUnits s0 (killTimed s j)).fc.fsw.getLsbD 104 = true
      ∧ (deadlineDue s j = true → (settleUnits s0 (killTimed s j)).fc.fsw.getLsbD 105 = true) := by
  have he := timedEnd_due s j
  rw [if_pos hb] at he
  obtain ⟨h1, h2⟩ := killTimed_end he hi s0
  refine ⟨h1, h2 104 ?_ (by decide) (by decide), fun hd => h2 105 ?_ (by decide) (by decide)⟩
  · split <;> simp
  · simp [hd]

theorem deadline_end (hd : deadlineDue s j = true) (hi : inputStalled s 26 = false) (s0 : State) :
    jobOf (settleUnits s0 (killTimed s j)) j.token = none
      ∧ (settleUnits s0 (killTimed s j)).fc.fsw.getLsbD 105 = true
      ∧ (budgetDue s j = true → (settleUnits s0 (killTimed s j)).fc.fsw.getLsbD 104 = true) := by
  by_cases hb : budgetDue s j = true
  · obtain ⟨h1, h2, h3⟩ := budget_end hb hi s0
    exact ⟨h1, h3 hd, fun _ => h2⟩
  · have he := timedEnd_due s j
    rw [if_neg hb, if_pos hd] at he
    obtain ⟨h1, h2⟩ := killTimed_end he hi s0
    exact ⟨h1, h2 105 (by simp) (by decide) (by decide), fun h => absurd h hb⟩

end

theorem tide_congr {s t : State} (h : t.sets = s.sets) : tide t = tide s := by
  unfold tide activeSet hasActive slotOf
  rw [h]

theorem deadlineAt_congr {s t : State} (hs : t.sets = s.sets) (hc : t.sch = s.sch) (j : Job) :
    deadlineAt t j = deadlineAt s j := by
  unfold deadlineAt
  rw [hc, tide_congr hs]

theorem jobOf_congr {s t : State} (h : t.jobs = s.jobs) (tok : Word) : jobOf t tok = jobOf s tok := by
  unfold jobOf
  rw [h]

/-- A job that goes on comes to its budget when the cycles that are left have passed. -/
theorem budgetDue_elapse {s : State} {j : Job} (hh : j.halted = false) (hc : j.startClk + j.paused ≤ s.clk) :
    budgetDue (elapse s (j.budget - budgetUsed s j)) j = true := by
  have hclk := clk_elapse s (j.budget - budgetUsed s j)
  have hu : ∀ t : State, budgetUsed t j = t.clk - j.startClk - j.paused := fun t => by simp [budgetUsed, hh]
  simp only [budgetDue, hh, Bool.not_false, Bool.true_and, decide_eq_true_eq, hu] at hclk ⊢
  omega

/-- A skipped entry has ended, and nothing that follows changes it. -/
theorem skipped_end {s : State} {i : Nat} {x : TtStat} {o : JobEnd} (hx : s.sch.tt[i]? = some x)
    (hi : inputStalled s 26 = false) (hj : ∀ j ∈ s.jobs, j.jobId ≠ i) (s0 : State) :
    (settleUnits s0 (skipEntry s i o)).sch.tt[i]? = some { x with ended := some o, rsvOpen := false, endNs := frameNs s } := by
  unfold skipEntry
  rw [if_neg (by rw [hi]; decide)]
  dsimp only
  generalize hw : State.mk .. = w
  obtain ⟨y, hy, -, he⟩ := (settleUnits_core (pushRec_bg 26 _ (.refl w)).toCore s0).tt i
    { x with ended := some o, rsvOpen := false, endNs := frameNs s }
    (by rw [← hw]; show (modAt _ _ _)[i]? = _; rw [getElem?_modAt, if_pos rfl, hx]; rfl)
  rw [hy, he rfl (by rw [← hw]; exact hj)]

/-! ### Starts -/

theorem tryDone_bg {z s : State} (t : Word) (inp : Nat) (h : Bg z s) : Bg z (tryDone s t inp) := by
  unfold tryDone
  split
  · exact h
  · exact .ite (endJob_bg t _ inp h) h

/-- An entry that starts has the next token of its context. -/
theorem startEntry_token {s : State} {i : Nat} {x : TtStat} (hx : s.sch.tt[i]? = some x) :
    ∃ y, (startEntry s i).sch.tt[i]? = some y ∧ y.token =
      some (BitVec.ofNat 32 (teCtx ((tide s).entries.getD i []) * 2 ^ 20
        + (takeCtx s.sch.ctxSeq (teCtx ((tide s).entries.getD i []))).1)) := by
  unfold startEntry
  dsimp only
  generalize hr : issueCtx s (teCtx ((tide s).entries.getD i [])) = r
  unfold startJob
  dsimp only
  generalize hw : State.mk .. = w
  have hwx : w.sch.tt[i]? = some { x with token := some r.1 } := by
    rw [← hw]
    show (modAt r.2.sch.tt _ _)[i]? = _
    rw [getElem?_modAt, if_pos rfl, ← hr]
    show s.sch.tt[i]?.map _ = _
    rw [hx]
    rfl
  obtain ⟨y, hy, hty, -⟩ := (tryDone_bg _ _ (afterStand_bg (.refl w))).tt i _ hwx
  exact ⟨y, hy, hty.trans (by rw [← hr]; rfl)⟩

/-- The state in which an entry is looked at: for an entry with a start time, the time base stands at it. -/
theorem startAt_same (s : State) (e : List Word) :
    (if teMode e = 1 then s else passTo s (s.sch.t + teStart e)).sch = s.sch
      ∧ (if teMode e = 1 then s else passTo s (s.sch.t + teStart e)).sets = s.sets := by
  split <;> simp

theorem exec_jobStart {s s1 : State} {i : Nat} {e : List Word} (hr : s.sch.run = .running)
    (hp : s.sch.phase = .compute ∨ s.sch.phase = .judge) (he : e = (tide s).entries.getD i [])
    (hs : s1 = if teMode e = 1 then s else passTo s (s.sch.t + teStart e)) (hc : canStart s1 i = true)
    (hf : firstToStart s1 i = true) : exec (.jobStart i) s = .next (
      if entrySkipped s1 i then settleUnits s (skipEntry s1 i .skippedUpstream)
      else settleUnits s (pairAGo s1 (entryLists s1 i) asIs (fun s1 => startEntry s1 i))) := by
  have hex : exec (.jobStart i) s = execJobStart i s := rfl
  have hb : ¬ (s.sch.run != .running || s.sch.phase == .slack || s.sch.phase == .none) = true := by
    rcases hp with h | h <;> simp [hr, h]
  have hcf : ¬ (!canStart s1 i || !firstToStart s1 i) = true := by simp [hc, hf]
  rw [hex, execJobStart]
  dsimp only
  rw [if_neg hb, ← he, ← hs, if_neg hcf]

/-- Settles O31: each end by time by what the kill leaves (`budget_end`, `deadline_end`, `skipped_end`), each start by the
entry's token (`startEntry_token`), which all that follows keeps. -/
theorem jobsStartAndEndByTime : Obligations.JobsStartAndEndByTime := by
  refine ⟨⟨fun s i x e hr hp hx he hcls hrsv hend hopen => ?_, fun s i h => ?_,
    fun s s1 i e hr hp he hs hc hf => ?_⟩, fun s tok j hj hh hc hi => ?_,
    fun s tok j i due x hr hx hend htok hi ho hid hdue hlt hj => ?_, fun s i x hr hx hend htok hi hjobs => ?_,
    fun s tok j at_ hj hat ho hlt hi => ?_⟩
  · have hex : exec (.reservationOpen i) s = execReservationOpen i s := rfl
    have hb : ¬ (s.sch.run != .running || s.sch.phase == .slack || !teSClass e || teRsv e == 0 || x.ended.isSome
        || x.rsvOpen) = true := by simp [hr, hp, hcls, hrsv, hend, hopen]
    rw [hex, execReservationOpen]
    dsimp only
    rw [hx]
    dsimp only
    rw [← he, if_neg hb]
    refine ⟨_, rfl, ?_, rfl, ?_, ?_, ?_⟩
    · simp only [markWaits, passTo_sch, modAt_eq_setAt hx]
    · simp only [markWaits, passTo_mem]
    · simp only [markWaits, passTo_eng]
    · simp only [markWaits, passTo_saf]
  · have hb : (s.sch.run != .running || s.sch.phase == .slack) = true := by simpa using h
    constructor
    · have hex : exec (.reservationOpen i) s = execReservationOpen i s := rfl
      rw [hex, execReservationOpen]
      dsimp only
      split
      · rfl
      · simp only [hb, Bool.true_or, if_true]
    · have hex : exec (.jobStart i) s = execJobStart i s := rfl
      rw [hex, execJobStart]
      simp only [hb, Bool.true_or, if_true]
  · rw [exec_jobStart hr hp he hs hc hf]
    have hsame := startAt_same s e
    rw [← hs] at hsame
    refine ⟨fun hk hg => ?_, fun hk hg => ?_, fun hk => ?_⟩
    · have hgo : pairAGo s1 (entryLists s1 i) asIs (fun s1 => startEntry s1 i)
          = startEntry (readAll s1 srcPairA (entryLists s1 i) []) i := by
        have := pairAReads_eq s1 (entryLists s1 i) [] (fun s => (startEntry s i, none))
        rw [if_pos hg] at this
        exact congrArg Prod.fst this
      rw [hk, if_neg (by decide), hgo]
      refine ⟨_, rfl, rfl, fun _ => ?_⟩
      obtain ⟨x, hx⟩ : ∃ x, s1.sch.tt[i]? = some x := by
        unfold canStart at hc
        dsimp only at hc
        split at hc
        · cases hc
        · exact ⟨_, ‹_›⟩
      have htide : tide (readAll s1 srcPairA (entryLists s1 i) []) = tide s := by
        have hk := (readAll_bg srcPairA (entryLists s1 i) [] (.refl s1)).keep
        simp only [still, Prod.mk.injEq] at hk
        exact (tide_congr hk.2.2.1).trans (tide_congr hsame.2)
      obtain ⟨y, hy, hyt⟩ := startEntry_token (s := readAll s1 srcPairA (entryLists s1 i) []) (by rw [readAll_tt]; exact hx)
      obtain ⟨w, hw, hwt, -⟩ := (settleUnits_core (.refl (startEntry (readAll s1 srcPairA (entryLists s1 i) []) i)) s).tt i y hy
      refine ⟨w, hw, hwt.trans ?_⟩
      rw [hyt, htide, readAll_ctxSeq, hsame.1, ← he]
    · have hgo : pairAGo s1 (entryLists s1 i) asIs (fun s1 => startEntry s1 i)
          = stopPairA (readAll s1 srcPairA (entryLists s1 i) []) := by
        have := pairAReads_eq s1 (entryLists s1 i) [] (fun s => (startEntry s i, none))
        rw [if_neg (by rw [hg]; decide)] at this
        exact congrArg Prod.fst this
      rw [hk, if_neg (by decide), hgo]
      have hcore := settleUnits_core_eq s (stopPairA (readAll s1 srcPairA (entryLists s1 i) []))
      simp only [core, Prod.mk.injEq] at hcore
      exact ⟨_, rfl, hcore.1.trans (stopPairA_pairA _)⟩
    · rw [hk, if_pos rfl]
      exact ⟨_, rfl, rfl⟩
  · have hex : exec (.jobBudgetExpire tok) s = .next (settleUnits s (killTimed (elapse s (j.budget - budgetUsed s j)) j)) := by
      have hx : exec (.jobBudgetExpire tok) s = execJobBudgetExpire tok s := rfl
      rw [hx, execJobBudgetExpire, hj]
      dsimp only
      rw [if_neg (by rw [hh]; decide)]
    obtain ⟨h1, h2, h3⟩ := budget_end (budgetDue_elapse hh hc) (by rw [inputStalled_congr (elapse_fc _ _), hi]) s
    rw [(mem_of_jobOf hj).2] at h1
    refine ⟨_, hex, h1, h2, fun x hx hxn hnow => h3 (deadlineDue_of (d := x) ?_ ?_)⟩
    · rw [deadlineAt_congr (elapse_sets _ _) (elapse_sch _ _), hx]
    · rw [hnow]
      exact hxn.trans (Nat.le_add_right _ _)
  · have hjp : jobOf (passTo s due) tok = some j := (jobOf_congr (passTo_jobs _ _) tok).trans hj
    have hex : exec (.jobDeadline i) s = .next (settleUnits s (killTimed (passTo s due) j)) := by
      have he : exec (.jobDeadline i) s = execJobDeadline i s := rfl
      rw [he, execJobDeadline, hx]
      dsimp only
      rw [if_neg (by simp [hr, hend]), htok]
      dsimp only
      rw [← hdue, hjp]
    have hd : deadlineDue (passTo s due) j = true := by
      refine deadlineDue_of (d := due) ?_ (le_now_passTo s hlt)
      rw [deadlineAt_congr (passTo_sets _ _) (passTo_sch _ _), deadlineAt, ho, hid, hdue]
      rfl
    obtain ⟨h1, h2, h3⟩ := deadline_end hd (by rw [inputStalled_congr (passTo_fc _ _), hi]) s
    rw [(mem_of_jobOf hj).2] at h1
    exact ⟨_, hex, h1, h2, fun hh hb => h3 (by simp [budgetDue, hh, hb])⟩
  · have hex : exec (.jobDeadline i) s = .next (settleUnits s
        (skipEntry (passTo s (s.sch.t + teDeadline ((tide s).entries.getD i []))) i .skippedNoStart)) := by
      have he : exec (.jobDeadline i) s = execJobDeadline i s := rfl
      rw [he, execJobDeadline, hx]
      dsimp only
      rw [if_neg (by simp [hr, hend]), htok]
    refine ⟨_, _, hex, skipped_end (x := x) (by rw [passTo_sch]; exact hx) (by rw [inputStalled_congr (passTo_fc _ _), hi])
      (by rw [passTo_jobs]; exact hjobs) s, htok, rfl, fun _ => rfl⟩
  · have hjp : jobOf (passTo s at_) tok = some j := (jobOf_congr (passTo_jobs _ _) tok).trans hj
    have hex : exec (.runJobTimeout tok) s = .next (settleUnits s (killTimed (passTo s at_) j)) := by
      have he : exec (.runJobTimeout tok) s = execRunJobTimeout tok s := rfl
      rw [he, execRunJobTimeout, hj]
      dsimp only
      rw [hat]
    have hd : deadlineDue (passTo s at_) j = true := by
      refine deadlineDue_of (d := at_) ?_ (le_now_passTo s hlt)
      rw [deadlineAt, if_neg (by simpa using ho), hat]
    obtain ⟨h1, h2, -⟩ := deadline_end hd (by rw [inputStalled_congr (passTo_fc _ _), hi]) s
    rw [(mem_of_jobOf hj).2] at h1
    exact ⟨_, hex, h1, h2⟩

end Sys2Proof.Proofs
end

section
/-! PROOFS. Frame starts, the frame's phases and the scheduler's watchdog (R13 to R22, R221, R370, R371, R389). -/

namespace Sys2Proof.Proofs

open Sys2Proof Sys2Proof.Machine Sys2Proof.Laws

/-! ### The sensor front -/

section
variable (s : State)

theorem putRec_seen (typ i : Nat) (fseq seq : Word) (ns sec aux : Nat) (pl : List Byte) :
    seen (putRec s typ i fseq seq ns sec aux pl) = seen s :=
  ite_keeps seen rfl (ite_keeps seen rfl rfl)

theorem recStream_seen (typ i : Nat) (fseq seq : Word) (ns sec aux : Nat) (pl : List Byte) :
    seen (recStream s typ i fseq seq ns sec aux pl) = seen s := ite_keeps seen (putRec_seen s _ _ _ _ _ _ _ _) rfl

theorem modStream_seen (i : Nat) (f : Stream → Stream) : seen (modStream s i f) = seen s := rfl

theorem dropFrame_seen (i : Nat) (f : SFrame) (r : Drop) (rec_ : Bool) : seen (dropFrame s i f r rec_) = seen s := by
  have hd : ∀ (c : Prop) [Decidable c] (t : State), seen (if c then { t with sens := { t.sens with
      replayer := { t.sens.replayer with diverged := t.sens.replayer.diverged + 1 } } } else t) = seen t :=
    fun _ _ _ => ite_keeps seen rfl rfl
  have hp : ∀ (c : Prop) [Decidable c] (t : State) (f : SpPort → SpPort) (p : Nat),
      seen (if c then t else modSp t p f) = seen t := fun _ _ _ _ _ => ite_keeps seen rfl rfl
  have hi : ∀ (c : Prop) [Decidable c] (t : State) (f : Isp → Isp) (p : Nat),
      seen (if c then modIsp t p f else t) = seen t := fun _ _ _ _ _ => ite_keeps seen rfl rfl
  refine (hd _ _).trans ((recStream_seen _ _ _ _ _ _ _ _ _).trans ((hi _ _ _ _).trans ((hp _ _ _ _).trans ?_)))
  simp only [seen, still, core, waitReplies, storeWords, store]

theorem ispRest_seen (n : Nat) : seen (ispRest s n) = seen s := rfl

theorem dropCur_seen (i : Nat) (r : Drop) (rec_ : Bool) : seen (dropCur s i r rec_) = seen s := by
  unfold dropCur
  split
  · rfl
  · exact ite_keeps seen ((ispRest_seen _ _).trans ((modStream_seen _ _ _).trans (dropFrame_seen s _ _ _ _)))
      ((modStream_seen _ _ _).trans (dropFrame_seen s _ _ _ _))

theorem dropKept_seen (i : Nat) (p : SFrame → Bool) (r : SFrame → Drop) : seen (dropKept s i p r) = seen s :=
  (modStream_seen _ _ _).trans (foldl_keeps seen _ (fun s f => dropFrame_seen s i f (r f) false) _ _)

theorem dropUnclaimed_seen : seen (dropUnclaimed s) = seen s :=
  foldl_keeps seen _ (fun s i => by
    dsimp only
    split
    · exact (dropCur_seen _ _ _ _).trans (dropKept_seen s _ _ _)
    · exact dropKept_seen s _ _ _) _ _

theorem recordEnd_seen : seen (recordEnd s) = seen s := ite_keeps seen rfl rfl

theorem recordFrame_seen : seen (recordFrame s) = seen s :=
  (putRec_seen _ _ _ _ _ _ _ _ _).trans (recordEnd_seen s)

theorem replayFrame_seen : seen (replayFrame s) = seen s := by
  unfold replayFrame
  refine ite_keeps seen rfl (ite_keeps seen rfl ?_)
  split
  · rfl
  · exact ite_keeps seen rfl rfl

theorem windowsInvalid_seen (n : BitVec 16) : seen (windowsInvalid s n) = seen s := ite_keeps seen rfl rfl

theorem awayInvalid_seen : seen (awayInvalid s) = seen s := foldl_keeps seen _ windowsInvalid_seen _ _

end

/-! ### Memory -/

section
variable {z s : State}

theorem passReqs_bg (src a n : Nat) (h : Bg z s) : Bg z (passReqs s src a n) :=
  h.foldl (β := Nat × Nat) (f := fun s x => passReq s src x.1) (fun _ x => passReq_bg src x.1) _

theorem moveBytes_bg (p src dst n : Nat) (o : Nat → Ecc) (h : Bg z s) : Bg z (moveBytes s p src dst n o) :=
  (passReqs_bg p dst n (portRead_bg p src n o h)).of_seen (storeMoved_seen (passReqs (portRead s p src n o) p dst n) _ _ _)

theorem repairRing_bg (o : Nat → Ecc) (h : Bg z s) : Bg z (repairRing s o) := by
  unfold repairRing
  dsimp only
  refine .ite h (h.foldl (fun t u ht => ?_) _)
  refine moveBytes_bg _ _ _ _ _ (ht.of_seen ?_)
  simp only [seen, still, core, waitReplies]

theorem resumeJobs_bg (h : Bg z s) : Bg z (resumeJobs s) := by
  refine h.of_jobs rfl rfl (fun j hj => ?_) rfl
  obtain ⟨k, hk, rfl⟩ := List.mem_map.1 hj
  refine ⟨k, hk, ?_⟩
  split <;> exact ⟨rfl, rfl⟩

theorem haltIdle_bg (h : Bg z s) : Bg z (haltIdle s) := by
  refine .ite (h.of_jobs rfl rfl (fun j hj => ?_) rfl) h
  obtain ⟨k, hk, rfl⟩ := List.mem_map.1 hj
  refine ⟨k, hk, ?_⟩
  split <;> exact ⟨rfl, rfl⟩

theorem conserve_bg (h : Bg z s) : Bg z (conserve s) :=
  .ite h (.ite (setSrc_bg 82 (h.of_seen rfl)) h)

end
/-! ### Frame starts -/

theorem levelSources_keeps_view {β : Type} (g : State → β) (hg : ∀ s n, g (setSrc s n) = g s) (s : State) :
    g (levelSources s) = g s :=
  ite_keeps g (foldl_keeps g _ (fun s n => ite_keeps g (hg s n) rfl) _ _) rfl

theorem takeSwap_sch (s : State) (b : Bool) : (takeSwap s b).sch = s.sch := by
  unfold takeSwap
  rw [levelSources_keeps_view State.sch (fun s n => setSrc_sch s n)]
  show (setSlot _ b _).sch = _
  have h : ∀ (t : State) (b : Bool) (x : Slot), (setSlot t b x).sch = t.sch := fun t b x => ite_keeps State.sch rfl rfl
  exact (h _ _ _).trans (ite_keeps State.sch (h _ _ _) rfl)

theorem takeSwap_pending (s : State) (b : Bool) : (takeSwap s b).sets.swapPending = false := by
  unfold takeSwap
  rw [levelSources_keeps_view State.sets (fun s n => setSrc_sets s n)]

/-- The state at a frame start, with the swap that is due in it taken. -/
def frameSwapped (s : State) (seq : Word) (t : Nat) : State :=
  let s := frameEngines (passTo s t) seq
  if s.sets.swapPending && s.sets.swapSeq == seq then takeSwap s (shadowSlot s) else s

/-- The frame's state before recording, replay, jobs and stream units go on. -/
def frameBegun (s : State) (seq : Word) (t : Nat) (first : Bool) : State :=
  frameHeadland (frameSensors (awayInvalid (frameSched (frameSwapped s seq t) seq t)) first) first

theorem enterFrame_bg (s : State) (seq : Word) (t : Nat) (first : Bool) :
    Bg (frameBegun s seq t first) (enterFrame s seq t first) :=
  units_bg (afterStand_bg (resumeJobs_bg ((Follows.refl _).of_seen ((replayFrame_seen _).trans (recordFrame_seen _)))))

theorem frameSwapped_frames (s : State) (seq : Word) (t : Nat) : (frameSwapped s seq t).sch.frames = s.sch.frames := by
  have h : (frameEngines (passTo s t) seq).sch = s.sch := passTo_sch s t
  unfold frameSwapped
  dsimp only
  split
  · rw [takeSwap_sch, h]
  · rw [h]

theorem frameSwapped_pending (s : State) (seq : Word) (t : Nat) :
    (frameSwapped s seq t).sets.swapPending = (s.sets.swapPending && s.sets.swapSeq != seq) := by
  have h : (frameEngines (passTo s t) seq).sets = s.sets := passTo_sets s t
  unfold frameSwapped
  dsimp only
  rw [h]
  split
  · rename_i hc
    rw [takeSwap_pending]
    simp only [Bool.and_eq_true, beq_iff_eq] at hc
    simp [hc]
  · rename_i hc
    rw [h]
    cases hp : s.sets.swapPending
    · rfl
    · simp_all

/-- The frame that a state is in, and what is pending. -/
def frameView (s : State) :=
  (s.sch.run, s.sch.phase, s.sch.seq, s.sch.t, s.sch.frames, s.sch.arrived, s.sets.swapPending)

theorem frameView_of_still {s t : State} (h : still t = still s) : frameView t = frameView s := by
  simp only [still, Prod.mk.injEq] at h
  obtain ⟨-, ⟨h1, h2, h3, h4, h5, h6⟩, h7, -⟩ := h
  simp only [frameView, h1, h2, h3, h4, h5, h6, h7]

theorem frameView_frameSched (s : State) (seq : Word) (t : Nat) : frameView (frameSched s seq t) =
    (.running, .compute, seq, t, s.sch.frames + 1, 0, s.sets.swapPending) := by
  simp only [frameView, frameSched]

theorem frameView_frameSensors (s : State) (first : Bool) : frameView (frameSensors s first) = frameView s := by
  simp only [frameView, frameSensors]

theorem frameView_frameHeadland (s : State) (first : Bool) : frameView (frameHeadland s first) = frameView s := by
  simp only [frameView, frameHeadland]

/-- What a frame start makes of the run and the frame. -/
theorem enterFrame_view (s : State) (seq : Word) (t : Nat) (first : Bool) :
    frameView (enterFrame s seq t first) = (.running, .compute, seq, t, s.sch.frames + 1, 0,
        s.sets.swapPending && s.sets.swapSeq != seq)
      ∧ (enterFrame s seq t first).hl.written = false := by
  have hu := (enterFrame_bg s seq t first).keep
  constructor
  · rw [frameView_of_still hu, frameBegun, frameView_frameHeadland, frameView_frameSensors,
      frameView_of_still (congrArg (·.1) (awayInvalid_seen _)), frameView_frameSched, frameSwapped_frames,
      frameSwapped_pending]
  · simp only [still, Prod.mk.injEq] at hu
    obtain ⟨-, -, -, ⟨-, -, -, hw⟩, -⟩ := hu
    rw [hw, frameBegun]
    simp only [frameHeadland]

/-! ### SLACK_START -/

/-- With no record of the frame, timing supervision writes one and withdraws trust (R19). -/
theorem missingVerdict_view (s : State) :
    (missingVerdict s).hl.written = true ∧ (missingVerdict s).sch = s.sch ∧ (missingVerdict s).ms = s.ms
      ∧ (s.hl.written = false → (s.saf.trust = .trusted ∨ s.saf.trust = .awaiting) →
        untrusted (missingVerdict s) = true ∧ (missingVerdict s).saf.wCause = 3 ∧ (missingVerdict s).saf.wSeq = s.sch.seq
          ∧ (missingVerdict s).pins.safeA = false ∧ (missingVerdict s).pins.safeB = false) := by
  unfold missingVerdict
  split
  · rename_i h
    exact ⟨h, rfl, rfl, fun h' => by rw [h] at h'; cases h'⟩
  · refine ⟨by simp only [writeVerdict], ?_, ?_, fun _ ht => ?_⟩
    · simp only [writeVerdict, storeWords, store, withdraw_sch]
    · simp only [writeVerdict, storeWords, store, withdraw_ms]
    · have hw : withdraw s 3 = { s with
          saf := { s.saf with trust := .withdrawn, wCause := 3, wSeq := s.sch.seq, lease := none, passes := 0 }
          pins := { s.pins with safeA := false, safeB := false } } := if_pos (by simpa using ht)
      rw [hw]
      refine ⟨?_, ?_, ?_, ?_, ?_⟩ <;> simp [untrusted, writeVerdict, storeWords, store]

/-- Slack water begins: what no job claimed is dropped, RUN_JOB's jobs halt, and conservation is checked. -/
def slackBegun (s : State) : State :=
  conserve (haltIdle { dropUnclaimed s with sch := { (dropUnclaimed s).sch with phase := .slack } })

/-- The credit epoch turns, resident sectors are repaired, a test pack activates, and slices fall due. -/
def slackTurned (s : State) (o : Nat → Ecc) : State :=
  let s1 := repairRing { s with ms := { s.ms with epoch := !s.ms.epoch } } o
  let s1 := match s1.saf.packNext with
    | some p => activatePack s1 p
    | none => s1
  let due := s1.sets.swapPending && s1.sets.swapSeq == s1.sch.seq + 1
  dueSlices (if due then { s1 with ms := { s1.ms with resLoaded := false } } else s1)

theorem exec_slackStart {s : State} (hr : s.sch.run = .running) (hp : s.sch.phase = .compute ∨ s.sch.phase = .judge) :
    exec .slackStart s = .next (settleUnits s (slackTurned
      (slackBegun (missingVerdict (passTo s (s.sch.t + ttSlackStart (tide s))))) (eccFor []))) := by
  have hex : exec .slackStart s = execSlackStart s := rfl
  have hb : (s.sch.run == .running && (s.sch.phase == .compute || s.sch.phase == .judge)) = true := by
    simpa [hr] using hp
  rw [hex, execSlackStart, if_pos hb]
  rfl

theorem slackBegun_bg (s : State) :
    Bg { dropUnclaimed s with sch := { (dropUnclaimed s).sch with phase := .slack } } (slackBegun s) :=
  conserve_bg (haltIdle_bg (.refl _))

theorem activatePack_seen (s : State) (p : Pack) : seen (activatePack s p) = seen s := rfl

theorem dueSlices_seen (s : State) : seen (dueSlices s) = seen s := rfl

theorem slackTurned_bg (s : State) (o : Nat → Ecc) : Bg { s with ms := { s.ms with epoch := !s.ms.epoch } } (slackTurned s o) := by
  have hrep := repairRing_bg o (.refl { s with ms := { s.ms with epoch := !s.ms.epoch } })
  unfold slackTurned
  dsimp only
  generalize repairRing _ o = r at hrep ⊢
  have hpack : Bg { s with ms := { s.ms with epoch := !s.ms.epoch } }
      (match r.saf.packNext with | some p => activatePack r p | none => r) := by
    split
    · exact hrep.of_seen (activatePack_seen r _)
    · exact hrep
  refine Follows.of_seen ?_ (dueSlices_seen _)
  exact .ite (hpack.of_seen rfl) hpack

/-- What SLACK_START makes of a frame, before sources are answered. -/
theorem slack_view (s : State) (o : Nat → Ecc) : let v := units (slackTurned (slackBegun s) o)
    v.sch.phase = .slack ∧ v.ms.epoch = (!s.ms.epoch) ∧ v.hl.written = s.hl.written ∧ v.saf.trust = s.saf.trust
      ∧ v.saf.wCause = s.saf.wCause ∧ v.saf.wSeq = s.saf.wSeq ∧ v.pins.safeA = s.pins.safeA ∧ v.pins.safeB = s.pins.safeB := by
  have hd := congrArg (·.1) (dropUnclaimed_seen s)
  have hb := (slackBegun_bg s).keep
  have ht := (units_bg (slackTurned_bg (slackBegun s) o)).keep
  dsimp only [seen] at hd
  simp only [still, core, Prod.mk.injEq] at hd hb ht
  obtain ⟨⟨-, -, hep1, -⟩, -, -, ⟨htr1, hwc1, hws1, hwr1⟩, ha1, hb1⟩ := hd
  obtain ⟨⟨-, -, hep2, -⟩, ⟨-, hph2, -⟩, -, ⟨htr2, hwc2, hws2, hwr2⟩, ha2, hb2⟩ := hb
  obtain ⟨⟨-, -, hep3, -⟩, ⟨-, hph3, -⟩, -, ⟨htr3, hwc3, hws3, hwr3⟩, ha3, hb3⟩ := ht
  exact ⟨hph3.trans hph2, hep3.trans (congrArg (!·) (hep2.trans hep1)), hwr3.trans (hwr2.trans hwr1),
    htr3.trans (htr2.trans htr1), hwc3.trans (hwc2.trans hwc1), hws3.trans (hws2.trans hws1),
    ha3.trans (ha2.trans ha1), hb3.trans (hb2.trans hb1)⟩

/-! ### The watchdog -/

theorem settle_fatal {s t : State} {n : Nat} (hn : n < 128) (hf : srcFA n = true) (hs : s.fc.fsw.getLsbD n = false)
    (ht : t.fc.fsw.getLsbD n = true) : settle s t = faReact t := by
  unfold settle
  rw [if_pos]
  rw [bne_iff_ne]
  intro h
  have hb := congrArg (fun w : BitVec 128 => w.getLsbD n) h
  simp only [BitVec.getLsbD_and, BitVec.getLsbD_not, ht, getLsbD_maskFA n hn, hf, hs, hn] at hb
  simp at hb

/-- Settles O29: a frame start by what it makes of the frame (`enterFrame_view`), which jobs and stream units keep; slack water
by `slack_view`, with the reaction to a fatal source where one sets; the watchdog by that reaction. -/
theorem framesAndWatchdog : Obligations.FramesAndWatchdog := by
  refine ⟨⟨fun s hr => ?_, fun s hr hp hstop => ?_, fun s hr hp hstop => ?_, fun s hr hp => ?_, fun s hr hp => ?_⟩,
    fun s hr hp => ?_, fun s hr hf => ?_, fun s hr => ?_⟩
  · have hex : exec .frameStart s = .next (enterFrame s s.sch.firstSeq s.sch.startAt true) := by
      have he : exec .frameStart s = execFrameStart s := rfl
      rw [he, execFrameStart, if_pos (by simp [hr])]
    obtain ⟨hv, hw⟩ := enterFrame_view s s.sch.firstSeq s.sch.startAt true
    simp only [frameView, Prod.mk.injEq] at hv
    obtain ⟨h1, h2, h3, h4, h5, h6, h7⟩ := hv
    exact ⟨_, hex, h1, h2, h3, h4, h5, h6, hw, h7⟩
  · have hex : exec .frameStart s = .next (enterFrame s (s.sch.seq + 1) (s.sch.t + ttPeriod (tide s)) false) := by
      have he : exec .frameStart s = execFrameStart s := rfl
      rw [he, execFrameStart, if_neg (by simp [hr]), if_pos (by simp [hr, hp])]
      dsimp only
      rw [hstop, if_neg (by decide)]
    obtain ⟨hv, hw⟩ := enterFrame_view s (s.sch.seq + 1) (s.sch.t + ttPeriod (tide s)) false
    simp only [frameView, Prod.mk.injEq] at hv
    obtain ⟨h1, h2, h3, h4, h5, h6, -⟩ := hv
    exact ⟨_, hex, h1, h2, h3, h4, h5, h6, hw⟩
  · have hex : exec .frameStart s = .next (endRunStop (passTo s (s.sch.t + ttPeriod (tide s)))) := by
      have he : exec .frameStart s = execFrameStart s := rfl
      rw [he, execFrameStart, if_neg (by simp [hr]), if_pos (by simp [hr, hp])]
      dsimp only
      rw [hstop, if_pos rfl]
    refine ⟨_, hex, ?_, ?_, endRunStop_trust _, (endRunStop_pins _).1, (endRunStop_pins _).2, ?_⟩
    · rw [endRunStop_sch]
    · rw [endRunStop_sch]
    · rw [endRunStop_sets, cancelSwap_pending]
  · have hex : exec .outCommit s = .next { passTo s (s.sch.t + ttOutCommit (tide s)) with
        sch := { (passTo s (s.sch.t + ttOutCommit (tide s))).sch with phase := .judge } } := by
      have he : exec .outCommit s = execOutCommit s := rfl
      rw [he, execOutCommit, if_pos (by simp [hr, hp])]
    refine ⟨_, hex, ?_, now_passTo_mod s _, passTo_mem s _, passTo_jobs s _, passTo_fc s _, passTo_saf s _, passTo_hl s _,
      passTo_eng s _⟩
    simp only [passTo_sch]
  · have he : exec .frameStart s = execFrameStart s := rfl
    rw [he, execFrameStart, if_neg (by simpa using hr), if_neg]
    simp only [Bool.and_eq_true, beq_iff_eq]
    rintro ⟨h1, h2⟩
    rcases hp with h | h
    · exact h h1
    · exact h h2
  · rw [exec_slackStart hr hp]
    refine ⟨_, rfl, ?_⟩
    obtain ⟨hw, -, hms, htrust⟩ := missingVerdict_view (passTo s (s.sch.t + ttSlackStart (tide s)))
    rw [passTo_ms] at hms
    rw [passTo_hl, passTo_saf, passTo_sch] at htrust
    generalize missingVerdict (passTo s (s.sch.t + ttSlackStart (tide s))) = m at hw hms htrust ⊢
    obtain ⟨hphase, hep, hwr, htr, hwc, hws, hpa, hpb⟩ := slack_view m (eccFor [])
    rw [settleUnits]
    generalize units (slackTurned (slackBegun m) (eccFor [])) = v at hphase hep hwr htr hwc hws hpa hpb ⊢
    have hwv : v.hl.written = true := hwr.trans hw
    have hev : v.ms.epoch = !s.ms.epoch := by rw [hep, hms]
    have htv : s.hl.written = false → (s.saf.trust = .trusted ∨ s.saf.trust = .awaiting) → untrusted v = true ∧
        v.saf.wCause = 3 ∧ v.saf.wSeq = s.sch.seq ∧ v.pins.safeA = false ∧ v.pins.safeB = false := fun h1 h2 => by
      obtain ⟨hu, h3, h4, h5, h6⟩ := htrust h1 h2
      exact ⟨by unfold untrusted at hu ⊢; rw [htr]; exact hu, hwc.trans h3, hws.trans h4, hpa.trans h5, hpb.trans h6⟩
    obtain e | e := settle_cases s v <;> rw [e]
    · exact ⟨hev, hwv, fun h1 h2 => (htv h1 h2).2, fun _ => hphase⟩
    · refine ⟨?_, faReact_written hwv, fun h1 h2 => ?_, fun h => absurd h (faReact_not_running v)⟩
      · have hc := (faReact_step v).keep
        simp only [core, Prod.mk.injEq] at hc
        exact hc.2.2.1.trans hev
      · obtain ⟨hu, h3, h4, h5, h6⟩ := htv h1 h2
        obtain ⟨hfc, hfs, hfa, hfb⟩ := faReact_untrusted hu
        exact ⟨hfc.trans h3, hfs.trans h4, hfa h5, hfb h6⟩
  · have hset : (setSrc (passTo s (s.sch.startAt + 10000)) 106).fc.fsw.getLsbD 106 = true :=
      setSrc_sets_bit _ (by decide) (by decide)
    have hex : exec .schedulerWatchdog s = .next (faReact (setSrc (passTo s (s.sch.startAt + 10000)) 106)) := by
      have he : exec .schedulerWatchdog s = execSchedulerWatchdog s := rfl
      rw [he, execSchedulerWatchdog, if_pos (by simp [hr]), settle_fatal (by decide) (by decide) hf hset]
    exact ⟨_, hex, (faReact_step _).fsw 106 hset, faReact_halts (.inr (by rw [setSrc_sch, passTo_sch, hr]))⟩
  · have he : exec .schedulerWatchdog s = execSchedulerWatchdog s := rfl
    rw [he, execSchedulerWatchdog, if_neg (by simp [hr]), if_neg (by simp [hr])]

end Sys2Proof.Proofs
end

section
/-! PROOFS. The dispatch of an item to an engine, and what its stream units begin (R28, R83, R84, R242, R243, R276). -/

namespace Sys2Proof.Proofs

open Sys2Proof Sys2Proof.Machine Sys2Proof.Laws

/-! ### What an item reads does not depend on the counter of waits -/

/-- The longest wait of a reservation is counted (R51). -/
def withWait (s : State) (w : Nat) : State := { s with sch := { s.sch with rsvWaitMax := w } }

theorem pktAddrs_withWait (s : State) (w n a : Nat) : pktAddrs (withWait s w) n a = pktAddrs s n a := by
  induction n generalizing a with
  | zero => rfl
  | succ n ih => exact congrArg (a :: ·) (ih _)

theorem pclRegion_withWait (s : State) (w : Nat) (d : Desc) : pclRegion (withWait s w) d = pclRegion s d := by
  unfold pclRegion
  dsimp only
  simp only [pktAddrs_withWait]
  rfl

theorem descRegions_withWait (s : State) (w : Nat) (p : Plan) (d : Desc) :
    descRegions (withWait s w) p d = descRegions s p d := by
  unfold descRegions
  cases d.kind
  case pcl => exact pclRegion_withWait s w d
  all_goals rfl

theorem itemUndelivered_withWait (s : State) (w : Nat) (p : Plan) (i : Item) :
    itemUndelivered (withWait s w) p i = itemUndelivered s p i := by
  have h : descRegions (withWait s w) p = descRegions s p := funext (descRegions_withWait s w p)
  unfold itemUndelivered itemRegions
  rw [h]
  rfl

/-! ### The engines' attempts -/

/-- What names an attempt. -/
def attTag (a : Attempt) := (a.token, a.item, a.partner, a.writer, a.stopping)

/-- The attempts in the arrays, by what names them. -/
def arrTags (s : State) := s.eng.map (fun g => g.arr.map attTag)

/-- What the stream units leave where they bring operands alone. -/
def workView (s : State) := (s.fc, s.cmd, s.sch, s.jobs, s.mem, arrTags s)

/-- Every transfer brings an operand, and one that has begun has a request outstanding. -/
def OperandsOnly (s : State) : Prop :=
  ∀ x ∈ s.ms.xfers, x.use.isOperand = true ∧ x.copy = [] ∧ (x.begun = true → xferOut s x.id = true)

/-- `t` comes of `s` by bringing operands. -/
structure Brings (s t : State) : Prop where
  only : OperandsOnly t
  view : workView t = workView s

section
variable {z s : State}

theorem Brings.trans {t : State} (h : Brings z s) (g : Brings s t) : Brings z t := ⟨g.only, g.view.trans h.view⟩

theorem Brings.foldl {β : Type} {f : State → β → State} (hf : ∀ s x, Brings z s → Brings z (f s x)) (l : List β)
    (h : Brings z s) : Brings z (l.foldl f s) := by
  induction l generalizing s with
  | nil => exact h
  | cons x r ih => exact ih (hf s x h)

theorem Brings.ite {c : Prop} [Decidable c] {t : State} (hs : Brings z s) (ht : Brings z t) : Brings z (if c then s else t) := by
  split
  · exact hs
  · exact ht

/-- Transfers change as far as it does not concern what they bring and whether they have begun. -/
theorem Brings.of_xfers {t : State} (h : Brings z s) (hv : workView t = workView s) (hr : t.ms.reqs = s.ms.reqs)
    (hx : ∀ y ∈ t.ms.xfers, ∃ x ∈ s.ms.xfers, y.use.isOperand = x.use.isOperand ∧ y.copy = x.copy ∧ y.id = x.id
      ∧ y.begun = x.begun) : Brings z t where
  only y hy := by
    obtain ⟨x, hxs, hu, hc, hi, hb⟩ := hx y hy
    obtain ⟨h1, h2, h3⟩ := h.only x hxs
    refine ⟨hu.trans h1, hc.trans h2, fun hyb => ?_⟩
    have := h3 (hb ▸ hyb)
    rwa [hi, xferOut, hr]
  view := hv.trans h.view

theorem workView_modEng {e : Nat} {f : Engine → Engine} (hf : ∀ g, (f g).arr.map attTag = g.arr.map attTag) (s : State) :
    workView (modEng s e f) = workView s := by
  have h : ∀ l : List Engine, (modAt l e f).map (fun g => g.arr.map attTag) = l.map (fun g => g.arr.map attTag) := fun l => by
    refine List.ext_getElem? fun j => ?_
    rw [List.getElem?_map, List.getElem?_map, getElem?_modAt]
    split
    · cases l[j]? <;> simp [hf]
    · rfl
  simp only [workView, arrTags, modEng_eng, h]
  rfl

theorem modEng_brings {e : Nat} {f : Engine → Engine} (hf : ∀ g, (f g).arr.map attTag = g.arr.map attTag) (h : Brings z s) :
    Brings z (modEng s e f) :=
  h.of_xfers (workView_modEng hf s) rfl (fun y hy => ⟨y, hy, rfl, rfl, rfl, rfl⟩)

theorem addXfer_brings (unit prio src dst len : Nat) {use : XUse} (hu : use.isOperand = true) (h : Brings z s) :
    Brings z (addXfer s unit prio use src dst len) where
  only y hy := by
    rcases List.mem_append.1 (show y ∈ s.ms.xfers ++ [_] from hy) with hy | hy
    · exact h.only y hy
    · rw [List.mem_singleton.1 hy]
      exact ⟨hu, rfl, fun hb => by cases hb⟩
  view := h.view

theorem queueRow_brings (unit prio src dst len : Nat) {use : XUse} (hu : use.isOperand = true) (h : Brings z s) :
    Brings z (queueRow s unit prio use src dst len) := h.foldl (fun _ _ => addXfer_brings _ _ _ _ _ hu) _

theorem modXfer_brings (id : Nat) {f : Xfer → Xfer}
    (hf : ∀ x, (f x).use.isOperand = x.use.isOperand ∧ (f x).copy = x.copy ∧ (f x).id = x.id ∧ (f x).begun = x.begun)
    (h : Brings z s) : Brings z (modXfer s id f) := by
  refine h.of_xfers rfl rfl fun y hy => ?_
  obtain ⟨x, hx, rfl⟩ := List.mem_map.1 hy
  refine ⟨x, hx, ?_⟩
  split
  · exact hf x
  · exact ⟨rfl, rfl, rfl, rfl⟩

theorem holdStream_brings (x : Xfer) (h : Brings z s) : Brings z (holdStream s x) := by
  have hn : Brings z (if s.ms.xfers.any (fun y => (y.unit == x.unit && y.use.token == x.use.token
      && y.use.item == x.use.item) && y.held) then s
      else { s with ms := { s.ms with strHolds := satAdd 0xFFFF s.ms.strHolds 1 } }) :=
    .ite h (h.of_xfers rfl rfl (fun y hy => ⟨y, hy, rfl, rfl, rfl, rfl⟩))
  refine hn.of_xfers rfl rfl fun y hy => ?_
  obtain ⟨v, hv, rfl⟩ := List.mem_map.1 hy
  refine ⟨v, hv, ?_⟩
  split <;> exact ⟨rfl, rfl, rfl, rfl⟩

theorem issueReq_ms (s : State) (src : Nat) (w : Bool) (a len level : Nat) (u : ReqUse) :
    ∃ r : Req, r.purpose = u ∧ (issueReq s src w a len level u).ms.reqs = s.ms.reqs ++ [r]
      ∧ (issueReq s src w a len level u).ms.xfers = s.ms.xfers := by
  have ht : ∀ (t : State), (touchCheck t a).ms.reqs = t.ms.reqs ∧ (touchCheck t a).ms.xfers = t.ms.xfers := fun t => by
    unfold touchCheck
    split <;> exact ⟨rfl, rfl⟩
  have hf : ∀ (l : List Nat) (t : State), (l.foldl (fun s l => takeCredit s l .ring l) t).ms = t.ms := fun l t =>
    foldl_keeps State.ms (fun s l => takeCredit s l .ring l) (fun _ _ => rfl) l t
  obtain ⟨h1, h2⟩ := ht ((reqLinks src a).foldl (fun s l => takeCredit s l .ring l)
    (takeCredit s src (destPool s a).1 (destPool s a).2))
  rw [hf] at h1 h2
  exact ⟨_, rfl, congrArg (· ++ _) h1, h2⟩

theorem workView_touchCheck (s : State) (a : Nat) : workView (touchCheck s a) = workView s := ite_keeps workView rfl rfl

theorem workView_issueReq (s : State) (src : Nat) (w : Bool) (a len level : Nat) (u : ReqUse) :
    workView (issueReq s src w a len level u) = workView s :=
  (workView_touchCheck _ _).trans
    (foldl_keeps workView (fun s l => takeCredit s l .ring l) (fun _ _ => rfl) _ (takeCredit s _ _ _))

/-- A transfer's request makes it begun, and stands outstanding. -/
theorem xferReq_brings (x : Xfer) (w : Bool) (a n off : Nat) (h : Brings z s) : Brings z (xferReq s x w a n off) := by
  have hb : workView (beginXferReq s x) = workView s ∧ (beginXferReq s x).ms.reqs = s.ms.reqs
      ∧ ∀ y ∈ (beginXferReq s x).ms.xfers, ∃ v ∈ s.ms.xfers, y.use = v.use ∧ y.copy = v.copy ∧ y.id = v.id
        ∧ (y.begun = true → v.begun = true ∨ x.id = y.id) := by
    unfold beginXferReq
    split
    · exact ⟨rfl, rfl, fun y hy => ⟨y, hy, rfl, rfl, rfl, .inl⟩⟩
    · refine ⟨rfl, rfl, fun y hy => ?_⟩
      obtain ⟨v, hv, rfl⟩ := List.mem_map.1 hy
      refine ⟨v, hv, ?_⟩
      split
      · rename_i hid
        exact ⟨rfl, rfl, rfl, fun _ => .inr (beq_iff_eq.1 hid).symm⟩
      · exact ⟨rfl, rfl, rfl, .inl⟩
  obtain ⟨hv, hr, hx⟩ := hb
  obtain ⟨r, hrp, hreqs, hxfers⟩ := issueReq_ms (beginXferReq s x) x.unit w a n (jobLevel s x.use.token) (.xfer x.id off)
  refine ⟨fun y hy => ?_, ((workView_issueReq _ _ _ _ _ _ _).trans hv).trans h.view⟩
  obtain ⟨v, hvs, hu, hc, hi, hbeg⟩ := hx y (hxfers ▸ hy)
  obtain ⟨h1, h2, h3⟩ := h.only v hvs
  refine ⟨hu ▸ h1, hc.trans h2, fun hyb => ?_⟩
  show (issueReq _ _ _ _ _ _ _).ms.reqs.any _ = true
  rw [hreqs, hr, List.any_append, Bool.or_eq_true]
  rcases hbeg hyb with hb | hid
  · have := h3 hb
    rw [hi]
    exact .inl this
  · exact .inr (by simp [hrp, hid])

theorem givePiece_brings (x : Xfer) (p : Piece) (h : Brings z s) : Brings z (givePiece s x p) := by
  refine modEng_brings (fun g => ?_) h
  split
  · cases g.arr <;> rfl
  · rfl

theorem ownRead_brings (x : Xfer) (a n : Nat) (h : Brings z s) : Brings z (ownRead s x a n) :=
  h.foldl (fun _ _ => givePiece_brings _ _) _

theorem runArray_brings (e : Nat) (h : Brings z s) : Brings z (runArray s e) := by
  refine .ite h (modEng_brings (fun g => ?_) h)
  cases g.arr with
  | none => rfl
  | some a =>
    simp only [Option.map_some]
    split
    · split <;> rfl
    · rfl

/-- A step of a transfer that brings an operand. -/
theorem xferStep_brings {x : Xfer} {t : State} (h : Brings z s) (hx : x.use.isOperand = true) (hc : x.copy = [])
    (ht : xferStep s x = some t) : Brings z t := by
  have hcopy : copyStep s x = none := by simp [copyStep, hc]
  have hout : x.use.isOutput = false ∧ x.use.isPrefetch = false := by
    cases hu : x.use with
    | operand t n => exact ⟨rfl, rfl⟩
    | page t n p => rw [hu] at hx; cases hx
    | output t n => rw [hu] at hx; cases hx
    | prefetch t n r => rw [hu] at hx; cases hx
  have hiss : ∀ (k : Nat) {t : State}, Brings z t → Brings z (modXfer t x.id (fun y => { y with iss := k })) :=
    fun k _ => modXfer_brings _ (fun _ => ⟨rfl, rfl, rfl, rfl⟩)
  unfold xferStep at ht
  rw [hcopy] at ht
  dsimp only at ht
  rw [hout.1, hout.2] at ht
  simp only [Bool.false_eq_true, if_false, Bool.false_and, Bool.not_false, Bool.and_true] at ht
  split_ifs at ht <;> cases ht
  · simp only [streamFault, holdsOnFault, hout.2, Bool.not_false, Bool.true_or, if_true]
    exact holdStream_brings x h
  · exact hiss _ (ownRead_brings x _ _ h)
  · exact hiss _ (xferReq_brings x _ _ _ _ h)

theorem mem_of_unitOrder {e : Nat} {x : Xfer} (h : x ∈ unitOrder s e) : x ∈ s.ms.xfers := by
  obtain ⟨p, -, hp⟩ := List.mem_flatMap.1 h
  exact List.mem_of_mem_filter (List.mem_of_mem_filter hp)

theorem pumpUnit_brings (e n : Nat) (h : Brings z s) : Brings z (pumpUnit e n s) := by
  induction n generalizing s with
  | zero => exact h
  | succ n ih =>
    unfold pumpUnit
    split
    · rename_i t ht
      obtain ⟨x, hx, hstep⟩ := List.exists_of_findSome?_eq_some ht
      obtain ⟨hu, hc, -⟩ := h.only x (mem_of_unitOrder hx)
      exact ih (xferStep_brings h hu hc hstep)
    · exact h

/-- A transfer that has not begun leaves without a credit. -/
theorem closeXfer_brings {x : Xfer} (hx : x.begun = false) (h : Brings z s) : Brings z (closeXfer s x) := by
  unfold closeXfer
  rw [hx]
  exact h.of_xfers rfl rfl (fun y hy => ⟨y, List.mem_of_mem_filter hy, rfl, rfl, rfl, rfl⟩)

theorem not_begun_of_over {x : Xfer} (h : OperandsOnly s) (hx : x ∈ s.ms.xfers) (ho : xferOut s x.id = false) :
    x.begun = false := by
  by_contra hb
  have := (h x hx).2.2 (by simpa using hb)
  rw [ho] at this
  cases this

theorem closeOperands_brings (e : Nat) (h : Brings z s) : Brings z (closeOperands s e) := by
  have hall : ∀ x ∈ s.ms.xfers.filter (fun x => x.unit == e && x.use.isOperand && xferOver s x), x.begun = false := by
    intro x hx
    obtain ⟨hm, ho⟩ := List.mem_filter.1 hx
    simp only [xferOver, Bool.and_eq_true, Bool.not_eq_true'] at ho
    exact not_begun_of_over h.only hm ho.2.2
  have hc : Brings z ((s.ms.xfers.filter (fun x => x.unit == e && x.use.isOperand && xferOver s x)).foldl closeXfer s) := by
    generalize s.ms.xfers.filter _ = l at hall
    clear * - h hall
    induction l generalizing s with
    | nil => exact h
    | cons x l ih =>
      exact ih (closeXfer_brings (hall x (by simp)) h) fun y hy => hall y (by simp [hy])
  exact .ite (runArray_brings e hc) hc

theorem pump_brings (e : Nat) (h : Brings z s) : Brings z (pump s e) := closeOperands_brings e (pumpUnit_brings e _ h)

theorem pumpAll_brings (h : Brings z s) : Brings z (pumpAll s) := .ite h (h.foldl (fun _ e => pump_brings e) _)

/-- What is trimmed had not begun, or goes on. -/
theorem trimIf_brings (p : Xfer → Bool) (h : Brings z s) : Brings z (trimIf s p) := by
  have hall : ∀ x ∈ s.ms.xfers.filter p, x.use.isOperand = true ∧ x.copy = [] ∧ (x.begun = true → xferOut s x.id = true) :=
    fun x hx => h.only x (List.mem_of_mem_filter hx)
  unfold trimIf
  generalize s.ms.xfers.filter p = l at hall
  induction l generalizing s with
  | nil => exact h
  | cons x l ih =>
    obtain ⟨hu, hc, hb⟩ := hall x (by simp)
    rw [List.foldl_cons]
    dsimp only
    have hstep : ∀ {t : State}, Brings z t → t.ms.reqs = s.ms.reqs →
        ∀ y ∈ l, y.use.isOperand = true ∧ y.copy = [] ∧ (y.begun = true → xferOut t y.id = true) := fun _ hr y hy => by
      obtain ⟨h1, h2, h3⟩ := hall y (by simp [hy])
      exact ⟨h1, h2, fun hyb => by rw [xferOut, hr]; exact h3 hyb⟩
    split
    · exact ih h (hstep h rfl)
    split
    · rename_i ho
      simp only [xferOver, Bool.and_eq_true, Bool.not_eq_true'] at ho
      have hnb : x.begun = false := by
        by_contra hbb
        rw [hb (by simpa using hbb)] at ho
        cases ho.2
      have hcl := closeXfer_brings hnb h
      exact ih hcl (hstep hcl (by unfold closeXfer; rw [hnb]; rfl))
    · have hm : Brings z (modXfer s x.id (fun _ => { x with len := x.iss, held := false })) := by
        refine ⟨fun y hy => ?_, h.view⟩
        obtain ⟨v, hv, rfl⟩ := List.mem_map.1 hy
        split
        · exact ⟨hu, hc, hb⟩
        · exact h.only v hv
      exact ih hm (hstep hm rfl)

theorem clearStaged_brings (e : Nat) (h : Brings z s) : Brings z (clearStaged s e) := by
  unfold clearStaged
  split
  · exact h
  · exact .ite h (modEng_brings (fun _ => rfl) (trimIf_brings _ h))

theorem stageAhead_brings (e : Nat) (h : Brings z s) : Brings z (stageAhead s e) := by
  have hc := clearStaged_brings e h
  unfold stageAhead
  dsimp only
  split
  · exact hc
  · refine .ite hc ?_
    split
    · exact hc
    · exact .ite hc (pump_brings e (Brings.foldl (fun _ _ => queueRow_brings _ _ _ _ _ rfl) _
        (modEng_brings (fun _ => rfl) hc)))

theorem units_brings (h : Brings z s) : Brings z (units s) :=
  Brings.foldl (f := stageAhead) (fun _ e => stageAhead_brings e) _ (pumpAll_brings h)

theorem startReads_brings (e : Nat) (j : Job) (n : Nat) (i : Item) (h : Brings z s) : Brings z (startReads s e j n i) := by
  have hrun : ∀ {t : State}, Brings z t → Brings z (if operandsOut t e then t else runArray t e) :=
    fun ht => .ite ht (runArray_brings e ht)
  refine hrun (pump_brings e (Brings.foldl (fun _ _ => queueRow_brings _ _ _ _ _ rfl) _ (modEng_brings (fun g => ?_)
    ((trimIf_brings _ h).of_xfers rfl rfl fun y hy => ?_))))
  · cases g.arr <;> rfl
  · obtain ⟨x, hx, rfl⟩ := List.mem_map.1 hy
    refine ⟨x, hx, ?_⟩
    split <;> exact ⟨rfl, rfl, rfl, rfl⟩

end

/-! ### The dispatch -/

/-- Engines take the item, and it runs. -/
def dispatched (s : State) (e : Nat) (e2 : Option Nat) (j : Job) (n : Nat) (i : Item) : State :=
  let s1 := placeAttempt s e (newAttempt s j.token n i e2 true)
  let s1 := match e2 with
    | some f => placeAttempt s1 f (newAttempt s j.token n i (some e) false)
    | none => s1
  modItem s1 j.token n (fun i => { i with st := .running, waitClk := none
                                          ran := e :: (match e2 with | some f => [f] | none => []) ++ i.ran })

/-- The stream units of its engines begin to bring its operands, and an attention task requests its walk. -/
def dispatchReads (s : State) (e : Nat) (e2 : Option Nat) (j : Job) (n : Nat) (i : Item) : State :=
  let s1 := startReads s e j n i
  let s1 := match e2 with | some f => startReads s1 f j n i | none => s1
  if i.desc.kind == .ae then
    let ws : List Walk := (attSeqs s1 i.desc).map (fun q => { seqId := q, append := adOp i.desc == 5, e := e, granted := false })
    { s1 with kv := { s1.kv with walks := s1.kv.walks ++ ws } }
  else s1

/-- The wait that the dispatch ends is counted. -/
def waitCounted (s : State) (i : Item) : State :=
  match i.waitClk with
  | some c => withWait s (max s.sch.rsvWaitMax (min (s.clk - c) 0xFFFF_FFFF))
  | none => s

section
variable {s : State} {e : Nat} {e2 : Option Nat} {j : Job} {n : Nat} {i : Item}

theorem doDispatch_eq (hp : pickItem s e e2 = some (j, n)) (hi : j.items[n]? = some i) :
    doDispatch s e e2 = if itemUndelivered s j.plan i then
        killJob (dispatched (waitCounted s i) e e2 j n i) j.token .killedUpstream 26
      else dispatchReads (dispatched (waitCounted s i) e e2 j n i) e e2 j n i := by
  have hu : itemUndelivered (waitCounted s i) j.plan i = itemUndelivered s j.plan i := by
    unfold waitCounted
    split
    · exact itemUndelivered_withWait _ _ _ _
    · rfl
  rw [← hu]
  simp only [doDispatch, hp, hi]
  rfl

theorem tag_engOf (s : State) (e : Nat) : (engOf s e).arr.map attTag = (arrTags s).getD e none := by
  simp only [engOf, arrTags, List.getD_eq_getElem?_getD, List.getElem?_map]
  cases s.eng[e]? <;> rfl

/-- An engine that exists holds the attempt that it takes; the others hold theirs. -/
theorem tag_placeAttempt (s : State) (e k : Nat) (a : Attempt) (he : e < s.eng.length) :
    (engOf (placeAttempt s e a) k).arr.map attTag = if k = e then some (attTag a) else (engOf s k).arr.map attTag := by
  unfold placeAttempt engOf
  rw [modEng_eng, List.getD_eq_getElem?_getD, getElem?_modAt, List.getD_eq_getElem?_getD]
  split
  · rename_i hk
    subst hk
    rw [List.getElem?_eq_getElem he]
    rfl
  · rfl

theorem length_placeAttempt (s : State) (e : Nat) (a : Attempt) : (placeAttempt s e a).eng.length = s.eng.length := by
  rw [placeAttempt, modEng_eng, length_modAt]

theorem waitCounted_keeps (s : State) (i : Item) : ((waitCounted s i).fc, (waitCounted s i).cmd, (waitCounted s i).sch.run,
    (waitCounted s i).mem, (waitCounted s i).ms, (waitCounted s i).eng) = (s.fc, s.cmd, s.sch.run, s.mem, s.ms, s.eng) := by
  unfold waitCounted
  split <;> rfl

theorem dispatched_keeps (s : State) (e : Nat) (e2 : Option Nat) (j : Job) (n : Nat) (i : Item) :
    ((dispatched s e e2 j n i).fc, (dispatched s e e2 j n i).cmd, (dispatched s e e2 j n i).sch,
    (dispatched s e e2 j n i).mem, (dispatched s e e2 j n i).ms) = (s.fc, s.cmd, s.sch, s.mem, s.ms) := by
  cases e2 <;> rfl

/-- The attempts that the engines of a dispatch take. -/
theorem tag_dispatched (he : e < s.eng.length) (h2 : ∀ f, e2 = some f → f < s.eng.length ∧ f ≠ e) :
    (engOf (dispatched s e e2 j n i) e).arr.map attTag = some (j.token, n, e2, true, false)
      ∧ ∀ f, e2 = some f → (engOf (dispatched s e e2 j n i) f).arr.map attTag = some (j.token, n, some e, false, false) := by
  cases e2 with
  | none =>
    refine ⟨?_, fun f hf => by cases hf⟩
    show (engOf (placeAttempt s e (newAttempt s j.token n i none true)) e).arr.map attTag = _
    rw [tag_placeAttempt _ _ _ _ he, if_pos rfl]
    rfl
  | some f =>
    obtain ⟨hf, hne⟩ := h2 f rfl
    have hlen : f < (placeAttempt s e (newAttempt s j.token n i (some f) true)).eng.length := by
      rw [length_placeAttempt]; exact hf
    constructor
    · show (engOf (placeAttempt (placeAttempt s e (newAttempt s j.token n i (some f) true)) f _) e).arr.map attTag = _
      rw [tag_placeAttempt _ _ _ _ hlen, if_neg (fun h => hne h.symm), tag_placeAttempt _ _ _ _ he, if_pos rfl]
      rfl
    · rintro g hg
      cases hg
      show (engOf (placeAttempt (placeAttempt s e (newAttempt s j.token n i (some f) true)) f _) f).arr.map attTag = _
      rw [tag_placeAttempt _ _ _ _ hlen, if_pos rfl]
      rfl

theorem dispatchReads_brings (e : Nat) (e2 : Option Nat) (j : Job) (n : Nat) (i : Item) (h : OperandsOnly s) :
    Brings s (dispatchReads s e e2 j n i) := by
  have h1 : Brings s (startReads s e j n i) := startReads_brings e j n i ⟨h, rfl⟩
  have hw : ∀ {t : State} (ws : List Walk), Brings s t → Brings s { t with kv := { t.kv with walks := t.kv.walks ++ ws } } :=
    fun _ ht => ht.of_xfers rfl rfl (fun y hy => ⟨y, hy, rfl, rfl, rfl, rfl⟩)
  cases e2 with
  | none => exact .ite (hw _ h1) h1
  | some f => exact .ite (hw _ (startReads_brings f j n i h1)) (startReads_brings f j n i h1)

theorem arr_of_tag {a : Option Attempt} {tok : Word} {m : Nat} {p : Option Nat} {w st : Bool}
    (h : a.map attTag = some (tok, m, p, w, st)) : ∃ b, a = some b ∧ b.token = tok ∧ b.item = m ∧ b.partner = p
      ∧ b.writer = w ∧ b.stopping = st := by
  cases a with
  | none => cases h
  | some b =>
    simp only [Option.map_some, Option.some.injEq, attTag, Prod.mk.injEq] at h
    exact ⟨b, rfl, h⟩

/-- Settles O32: the engines take the attempt (`tag_dispatched`), and nothing that their stream units then do touches more than
transfers, credits and the data of attempts (`Brings`); an item whose frame is missing ends its job. -/
theorem dispatch : Obligations.Dispatch := by
  refine ⟨fun s e e2 j n i hp hi he h2 hu hx _ => ?_, fun s e e2 j n i hp hi hu hst => ?_⟩
  · have hex : exec (.tileDispatch e e2) s = .next (settleUnits s (markWaits (doDispatch s e e2))) := rfl
    rw [hex, doDispatch_eq hp hi, if_neg (by rw [hu]; decide)]
    have hwk := waitCounted_keeps s i
    have hdk := dispatched_keeps (waitCounted s i) e e2 j n i
    simp only [Prod.mk.injEq] at hwk hdk
    obtain ⟨wfc, wcmd, wrun, wmem, wms, weng⟩ := hwk
    obtain ⟨dfc, dcmd, dsch, dmem, dms⟩ := hdk
    obtain ⟨hte, htf⟩ := tag_dispatched (s := waitCounted s i) (e2 := e2) (j := j) (n := n) (i := i) (by rw [weng]; exact he)
      (by rw [weng]; exact h2)
    generalize hd : dispatched (waitCounted s i) e e2 j n i = d at dfc dcmd dsch dmem dms hte htf ⊢
    have hdo : OperandsOnly d := fun x hxd => by
      rw [dms, wms, hx] at hxd
      cases hxd
    have hr := dispatchReads_brings e e2 j n i hdo
    generalize dispatchReads d e e2 j n i = r at hr ⊢
    have ht : Brings (markWaits r) (units (markWaits r)) := units_brings ⟨hr.only, rfl⟩
    have hrv := hr.view
    have htv := ht.view
    simp only [workView, Prod.mk.injEq] at hrv htv
    obtain ⟨rfc, rcmd, rsch, -, rmem, rarr⟩ := hrv
    obtain ⟨tfc, tcmd, tsch, -, tmem, tarr⟩ := htv
    have hfc : (units (markWaits r)).fc = s.fc := tfc.trans (rfc.trans (dfc.trans wfc))
    have harr : arrTags (units (markWaits r)) = arrTags d := tarr.trans rarr
    rw [settleUnits, settle_same (congrArg _ hfc)]
    rw [tag_engOf, ← harr, ← tag_engOf] at hte
    obtain ⟨a, ha, h1, h3, h4, h5, h6⟩ := arr_of_tag hte
    refine ⟨_, a, rfl, ha, h1, h3, h4, h5, h6, fun f hf => ?_, ?_, tcmd.trans (rcmd.trans (dcmd.trans wcmd)), hfc,
      fun x hxt => (ht.only x hxt).1, fun x _ => ?_⟩
    · have htag := htf f hf
      rw [tag_engOf, ← harr, ← tag_engOf] at htag
      obtain ⟨b, hb, g1, g2, g3, g4, -⟩ := arr_of_tag htag
      exact ⟨b, hb, g1, g2, g3, g4⟩
    · exact (congrArg Sched.run (tsch.trans (rsch.trans dsch))).trans wrun
    · rw [tmem.trans (rmem.trans (dmem.trans wmem))]
  · have hex : exec (.tileDispatch e e2) s = .next (settleUnits s (markWaits (doDispatch s e e2))) := rfl
    rw [hex, doDispatch_eq hp hi, if_pos hu]
    refine ⟨_, rfl, (settleUnits_core (.refl _) s).jobOf_none ((markWaits_bg (.refl _)).jobOf_none (jobOf_killJob ?_))⟩
    have hdk := dispatched_keeps (waitCounted s i) e e2 j n i
    have hwk := waitCounted_keeps s i
    simp only [Prod.mk.injEq] at hwk hdk
    rw [inputStalled_congr (hdk.1.trans hwk.1), hst]

end

end Sys2Proof.Proofs
end

section
/-! PROOFS. The ends of attempts on the engines (R83, R91 to R93, R152, R166, R207, R232): what a unit's work at the end of a run
leaves of the run, of jobs and of the collector's inputs, and how a task ends. -/

namespace Sys2Proof.Proofs

open Sys2Proof Sys2Proof.Machine Sys2Proof.Laws

/-! ### Sequence headers, page entries and pins -/

/-- A state apart from its stores and its walks. -/
def offStore (s : State) : State := { s with mem := [], poison := [], csramBad := [], kv := {} }

section
variable (s : State)

theorem setEnt_offStore (h : List Word) (e : Nat) (w0 w1 : Word) : offStore (setEnt s h e w0 w1) = offStore s := rfl
theorem setHdr_offStore (id i : Nat) (w : Word) : offStore (setHdr s id i w) = offStore s := rfl
theorem bumpHdr_offStore (id i : Nat) : offStore (bumpHdr s id i) = offStore s := rfl
theorem fixPoisonPages_offStore (id : Nat) : offStore (fixPoisonPages s id) = offStore s := rfl
theorem invalidate_offStore (h : List Word) (e : Nat) : offStore (invalidate s h e) = offStore s := rfl

theorem pinPage_offStore (k : Nat) (p : Bool) : offStore (pinPage s k p) = offStore s :=
  (setEnt_offStore _ _ _ _ _).trans (ite_keeps offStore rfl rfl)

theorem freePins_offStore (id : Nat) : offStore (freePins s id) = offStore s :=
  ite_keeps offStore rfl (foldl_keeps offStore _ (fun s _ => pinPage_offStore s _ _) _ _)

theorem unlockWalk_offStore (w : Walk) : offStore (unlockWalk s w) = offStore s := ite_keeps offStore rfl rfl

theorem releaseWalk_offStore (e : Nat) : offStore (releaseWalk s e) = offStore s :=
  ite_keeps offStore rfl ((foldl_keeps offStore _ (fun s _ => freePins_offStore s _) _ _).trans
    (foldl_keeps offStore _ unlockWalk_offStore _ s))

theorem markPages_offStore (a : Attempt) : offStore (markPages s a) = offStore s :=
  (foldl_keeps offStore _ fixPoisonPages_offStore _ _).trans (foldl_keeps offStore _ (fun s _ => setEnt_offStore s _ _ _ _) _ _)

end

/-! ### What leaves jobs and the collector's inputs as they are -/

/-- What says whether an input of the collector stalls (R421). -/
def inputs (s : State) := (s.fc.skid, s.fc.cWr, s.fc.cRd)

theorem inputStalled_of_inputs {s t : State} (h : inputs t = inputs s) (inp : Nat) : inputStalled t inp = inputStalled s inp := by
  simp only [inputs, Prod.mk.injEq] at h
  obtain ⟨hskid, hwr, hrd⟩ := h
  unfold inputStalled skidCount ringFull
  rw [hskid, hwr, hrd]

/-- Background work in which no job ends: it leaves the collector's inputs. -/
structure Quiet (s t : State) : Prop where
  bg : Bg s t
  inputs : inputs t = inputs s

section
variable {z s : State}

theorem Quiet.refl (s : State) : Quiet s s := ⟨.refl s, rfl⟩

theorem Quiet.foldl {β : Type} {f : State → β → State} (hf : ∀ s x, Quiet z s → Quiet z (f s x)) (l : List β)
    (h : Quiet z s) : Quiet z (l.foldl f s) := by
  induction l generalizing s with
  | nil => exact h
  | cons x r ih => exact ih (hf s x h)

theorem Quiet.ite {c : Prop} [Decidable c] {t : State} (hs : Quiet z s) (ht : Quiet z t) : Quiet z (if c then s else t) := by
  split
  · exact hs
  · exact ht

theorem Quiet.of_seen {t : State} (h : Quiet z s) (hv : seen t = seen s) (hi : Proofs.inputs t = Proofs.inputs s) : Quiet z t :=
  ⟨h.bg.of_seen hv, hi.trans h.inputs⟩

theorem Quiet.of_offStore {t : State} (h : Quiet z s) (e : offStore t = offStore s) : Quiet z t :=
   h.of_seen (show seen (offStore t) = seen (offStore s) by rw [e])
     (show Proofs.inputs (offStore t) = Proofs.inputs (offStore s) by rw [e])

theorem inputs_setSrc (s : State) (n : Nat) : inputs (setSrc s n) = inputs s := by
  unfold setSrc
  split <;> rfl

theorem setSrc_quiet (n : Nat) (h : Quiet z s) : Quiet z (setSrc s n) :=
  ⟨setSrc_bg n h.bg, (inputs_setSrc s n).trans h.inputs⟩

theorem modEng_quiet (e : Nat) (f : Engine → Engine) (h : Quiet z s) : Quiet z (modEng s e f) := h.of_seen rfl rfl

theorem addPoison_quiet (u : Nat) (h : Quiet z s) : Quiet z (addPoison s u) := .ite h (h.of_seen rfl rfl)

theorem markUnit_quiet (u : Nat) (h : Quiet z s) : Quiet z (markUnit s u) :=
  h.of_seen (markUnit_seen s u) (by rw [inputs, markUnit_fc]; rfl)

theorem storePoisoned_quiet (a : Nat) (bs : List Byte) (h : Quiet z s) : Quiet z (storePoisoned s a bs) := by
  have hs : Quiet z (store s a bs) := h.of_seen rfl rfl
  exact .ite hs (hs.foldl (fun _ u => markUnit_quiet u) _)

theorem doWrites_quiet (ws : List (Nat × List Byte)) (p : Bool) (h : Quiet z s) : Quiet z (doWrites s ws p) :=
  h.foldl (β := Nat × List Byte) (f := fun s w => if p then storePoisoned s w.1 w.2 else store s w.1 w.2)
    (fun _ w hs => .ite (storePoisoned_quiet w.1 w.2 hs) (hs.of_seen rfl rfl)) ws

theorem releaseWalk_quiet (e : Nat) (h : Quiet z s) : Quiet z (releaseWalk s e) := h.of_offStore (releaseWalk_offStore s e)

/-- A record changes the ring of tile records and its engine. -/
theorem noteRec_quiet (e : Nat) (tok : Word) (d : Desc) (check wrap sat : Nat) (h : Quiet z s) :
    Quiet z (noteRec s e tok d check wrap sat) := by
  refine h.of_seen ?_ ?_
  · simp only [seen, still, core, waitReplies, noteRec, writeTrec, modEng, storeWords, store]
  · simp only [Proofs.inputs, noteRec, writeTrec, modEng, storeWords, store]

theorem inputs_haltIdle (s : State) : inputs (haltIdle s) = inputs s := ite_keeps inputs rfl rfl

theorem haltIdle_quiet (h : Quiet z s) : Quiet z (haltIdle s) := ⟨haltIdle_bg h.bg, (inputs_haltIdle s).trans h.inputs⟩

theorem freeAttempt_quiet (e : Nat) (a : Attempt) (h : Quiet z s) : Quiet z (freeAttempt s e a) :=
  haltIdle_quiet (modEng_quiet e _ h)

theorem discard_quiet (e : Nat) (a : Attempt) (h : Quiet z s) : Quiet z (discard s e a) :=
  freeAttempt_quiet e a (releaseWalk_quiet e (noteRec_quiet _ _ _ _ _ _ h))

theorem noteRun_quiet (e : Nat) (o : RunOut) (h : Quiet z s) : Quiet z (noteRun s e o) :=
  .ite (setSrc_quiet e (modEng_quiet _ _ h)) (modEng_quiet _ _ h)

theorem bumpUc_quiet (e : Nat) (h : Quiet z s) : Quiet z (bumpUc s e) := modEng_quiet _ _ h

theorem noteErr_quiet (e : Nat) (a : Attempt) (x : EngErr) (h : Quiet z s) : Quiet z (noteErr s e a x) := by
  have huc : Quiet z (setSrc (bumpUc s e) (ucSource e)) := setSrc_quiet _ (bumpUc_quiet e h)
  have hce : Quiet z (setSrc (bumpCe s e) (ceSource e)) := setSrc_quiet _ (modEng_quiet _ _ h)
  cases x with
  | buffer k uc =>
    unfold noteErr
    dsimp only
    split
    · exact h
    · exact .ite (.ite (addPoison_quiet _ huc) huc) hce
  | basin r uc => exact .ite h (.ite huc hce)

theorem noteErrs_quiet (e : Nat) (a : Attempt) (errs : List EngErr) (h : Quiet z s) : Quiet z (noteErrs s e a errs) :=
  h.foldl (fun _ x => noteErr_quiet e a x) errs

end

/-! ### Poison and errors -/

theorem ucSource_named {e : Nat} (he : e < 26) : ucSource e < 128 ∧ srcReserved (ucSource e) = false := by
  revert e
  decide

/-- The end of a meaning that kills a job, whose end commits by an input that has room: it is live no more, and the sources
that were set before stand set. -/
theorem killJob_end {s : State} {t : Word} {o : JobEnd} {inp n : Nat} (s0 : State) (hi : inputStalled s inp = false)
    (hn : s.fc.fsw.getLsbD n = true) : jobOf (settleUnits s0 (killJob s t o inp)) t = none
      ∧ (settleUnits s0 (killJob s t o inp)).fc.fsw.getLsbD n = true :=
  ⟨(settleUnits_core (.refl _) s0).jobOf_none (jobOf_killJob hi), settleUnits_fsw _ _ ((killJob_bg _ _ _ (.refl s)).fsw n hn)⟩

section
variable {s : State} {e : Nat} {a : Attempt}

/-- Poison that an engine consumes sets its source and ends the job. -/
theorem consumeItem_end (s0 : State) (i : Item) (he : e < 26) (hi : inputStalled s e = false) :
    jobOf (settleUnits s0 (consumeItem s e a i)) a.token = none
      ∧ (settleUnits s0 (consumeItem s e a i)).fc.fsw.getLsbD (ucSource e) = true := by
  have hm : Quiet s (if i.desc.kind == .ae then markPages s a else s) :=
    .ite ((Quiet.refl s).of_offStore (markPages_offStore s a)) (.refl s)
  unfold consumeItem consumePoison
  generalize (if i.desc.kind == .ae then markPages s a else s) = u at hm ⊢
  have hu := setSrc_quiet (ucSource e) (bumpUc_quiet e hm)
  refine killJob_end s0 ?_ ((discard_quiet e a (.refl _)).bg.fsw _ ?_)
  · exact (inputStalled_of_inputs (discard_quiet e a hu).inputs e).trans hi
  · exact setSrc_sets_bit _ (ucSource_named he).1 (ucSource_named he).2

/-- The cycles of a run's end and the errors counted in it leave the collector's inputs. -/
theorem inputStalled_noteErrs (s : State) (cycles e : Nat) (a : Attempt) (errs : List EngErr) (inp : Nat) :
    inputStalled (noteErrs (elapse s cycles) e a errs) inp = inputStalled s inp :=
  (inputStalled_of_inputs (noteErrs_quiet e a errs (.refl _)).inputs inp).trans (inputStalled_congr (elapse_fc s cycles) inp)

theorem itemOf_eq {j : Job} {i : Item} (hj : jobOf s a.token = some j) (hi : j.items[a.item]? = some i) :
    itemOf s a = some (j, i) := by
  rw [itemOf, hj]
  dsimp only
  rw [hi]
  rfl

end

/-! ### The ends of tasks -/

/-- An attention task whose walks are over ends: an APPEND with control pair A's work, any other with its outputs. -/
def attentionOver (s s1 : State) (e : Nat) (a : Attempt) (i : Item) (ups : List (Nat × Byte)) (errs : List EngErr)
    (ecc : List (Nat × Ecc)) : State :=
  if bufferBad a errs then settleUnits s (consumeItem s1 e a i)
  else if adOp i.desc == 5 then
    if s.rst.pairA || (doAppend s1 i.desc false (eccFor ecc)).isNone then s
    else settleUnits s (kvWork s1 [adSeq i.desc] (cs := ecc) fun s2 =>
      endRun s2 e a i { writes := if ups.isEmpty then [] else [(0, ups.map (fun u => u.2))]
                        mism := false, wrap := 0, sat := 0, ecc := ecc })
  else
    let o := attRun (viewOf s1 a.data) i.desc a.version
    if o.stale then
      settleUnits s (killJob (freeAttempt (releaseWalk (noteRec s1 e a.token i.desc 6 0 0) e) e a) a.token .killedUpstream 26)
    else settleUnits s (endRun s1 e a i { writes := applyUpsets o.writes ups, mism := false, wrap := 0, sat := o.sat })

section
variable {s : State} {e : Nat} {a : Attempt} (ha : (engOf s e).arr = some a) (hd : a.done = none)
  (hk : (engOf s e).kat = none)
include ha hd hk

/-- TASK_END by what becomes of the attempt. -/
theorem exec_taskEnd (cycles : Nat) (ups : List (Nat × Byte)) (errs : List EngErr) (h16 : 16 ≤ e) (h20 : e ≠ 20) (h21 : e ≠ 21) :
    exec (.taskEnd e cycles ups errs) s = .next (
      if a.stopping then settleUnits s (discard (noteErrs (elapse s cycles) e a errs) e a)
      else if operandsOut s e then s
      else match itemOf s a with
        | none => s
        | some (j, i) =>
          if a.poison || bufferBad a errs then settleUnits s (consumeItem (noteErrs (elapse s cycles) e a errs) e a i)
          else
            let o := taskRun (viewOf (noteErrs (elapse s cycles) e a errs) a.data) j.plan i.desc
            settleUnits s (endRun (noteErrs (elapse s cycles) e a errs) e a i
              { writes := applyUpsets o.1 ups, mism := false, wrap := 0, sat := o.2 })) := by
  have hex : exec (.taskEnd e cycles ups errs) s = execTaskEnd e cycles ups s errs := rfl
  rw [hex, execTaskEnd, ha]
  dsimp only
  exact congrArg _ (if_neg (by simp [hd, hk, h20, h21, h16]))

/-- ATTENTION_TASK_END by what becomes of the attempt. -/
theorem exec_attentionTaskEnd (cycles : Nat) (ups : List (Nat × Byte)) (errs : List EngErr) (ecc : List (Nat × Ecc))
    (he : e = 20 ∨ e = 21) : exec (.attentionTaskEnd e cycles ups errs ecc) s = .next (
      if a.stopping then settleUnits s (discard (noteErrs (elapse s cycles) e a errs) e a)
      else match itemOf s a with
        | none => s
        | some (_, i) =>
          if a.poison then settleUnits s (consumeItem (elapse s cycles) e a i)
          else if a.hold || operandsOut s e || !walkOver s e a then s
          else attentionOver s (noteErrs (elapse s cycles) e a errs) e a i ups errs ecc) := by
  have hex : exec (.attentionTaskEnd e cycles ups errs ecc) s = execAttentionTaskEnd e cycles ups s errs ecc := rfl
  rw [hex, execAttentionTaskEnd, ha]
  dsimp only
  exact congrArg _ (if_neg (by rcases he with rfl | rfl <;> simp [hd, hk]))

end

/-- Settles O34: each row by what becomes of the attempt (`exec_taskEnd`, `exec_attentionTaskEnd`); what ends the job does so
by `consumeItem_end`, or `killJob_end` for STATS of another version. -/
theorem tasksEnd : Obligations.TasksEnd := by
  refine ⟨fun s e cycles ups errs a h16 h26 h20 h21 ha hd hk => ?_, fun s e a j i he ha hst hj hi => ?_,
    fun s e cycles ups errs ecc a he ha hd hk => ?_⟩
  · rw [exec_taskEnd ha hd hk cycles ups errs h16 h20 h21]
    refine ⟨fun hst => by rw [if_pos hst], fun hst ho => by rw [if_neg (by simp [hst]), if_pos ho], ?_⟩
    rintro j i s1 hst ho hj hi rfl
    rw [if_neg (by simp [hst]), if_neg (by simp [ho]), itemOf_eq hj hi]
    dsimp only
    refine ⟨fun hb hroom => ?_, fun hp hb o ho => ?_⟩
    · rw [if_pos (by simpa using hb)]
      exact ⟨_, rfl, consumeItem_end s i h26 ((inputStalled_noteErrs ..).trans hroom)⟩
    · rw [if_neg (by simp [hp, hb]), ho]
  · have hex : exec (.operandPoisonConsumed e) s = execOperandPoisonConsumed e s := rfl
    rw [hex, execOperandPoisonConsumed, ha]
    dsimp only
    rw [itemOf_eq hj hi]
    dsimp only
    refine ⟨fun hp hroom => ?_, fun hp => by rw [if_neg (by simp [hp])]⟩
    rw [if_pos (by simp [hst, hp])]
    exact ⟨_, rfl, consumeItem_end s i he hroom⟩
  · have h26 : e < 26 := by omega
    rw [exec_attentionTaskEnd ha hd hk cycles ups errs ecc he]
    refine ⟨fun hst => by rw [if_pos hst], fun hst hp hw => ?_, fun j i hst hp hj hi hroom => ?_, ?_⟩
    · rw [if_neg (by simp [hst])]
      split
      · rfl
      · rw [if_neg (by simp [hp]), if_pos (by simpa [or_assoc] using hw)]
    · rw [if_neg (by simp [hst]), itemOf_eq hj hi]
      dsimp only
      rw [if_pos hp]
      exact ⟨_, rfl, consumeItem_end s i h26 ((inputStalled_congr (elapse_fc s cycles) e).trans hroom)⟩
    · rintro j i s1 hst hp hh ho hw hj hi hs1
      rw [if_neg (by simp [hst]), itemOf_eq hj hi]
      dsimp only
      rw [if_neg (by simp [hp]), if_neg (by simp [hh, ho, hw]), ← hs1, attentionOver]
      have hin : ∀ inp, inputStalled s1 inp = inputStalled s inp := fun inp => by rw [hs1, inputStalled_noteErrs]
      refine ⟨fun hb hroom => ?_, fun hb hop o ho => ⟨fun hv => ?_, fun hv hroom => ?_⟩, fun hb hop hpa happ hkv => ?_⟩
      · rw [if_pos hb]
        exact ⟨_, rfl, consumeItem_end s i h26 ((hin e).trans hroom)⟩
      · rw [if_neg (by simp [hb]), if_neg (by simpa using hop)]
        dsimp only
        rw [← ho, if_neg (by simp [hv])]
      · rw [if_neg (by simp [hb]), if_neg (by simpa using hop)]
        dsimp only
        rw [← ho, if_pos hv]
        refine ⟨_, rfl, (settleUnits_core (.refl _) s).jobOf_none (jobOf_killJob ?_)⟩
        have hq := (freeAttempt_quiet e a (releaseWalk_quiet e (noteRec_quiet e a.token i.desc 6 0 0 (.refl s1)))).inputs
        exact (inputStalled_of_inputs hq 26).trans ((hin 26).trans hroom)
      · rw [if_neg (by simp [hb]), if_pos (by simpa using hop), if_neg (by simp [hpa, Option.isSome_iff_ne_none.1 happ])]
        have hpa1 : s1.rst.pairA = false := by
          have hk := (noteErrs_quiet e a errs (.refl (elapse s cycles))).bg.keep
          simp only [still, core, Prod.mk.injEq] at hk
          rw [hs1, hk.1.1, elapse_rst, hpa]
        rw [kvWork, if_neg (by simp [hpa1])]
        dsimp only
        rw [if_neg (by simp [hkv])]

end Sys2Proof.Proofs
end

section
/-! PROOFS. The ends of runs (R83, R84, R121, R152, R154, R196, R203): what the outcome of a run brings about, a retry, rows that
stand or an APPEND's pages, is background work. -/

namespace Sys2Proof.Proofs

open Sys2Proof Sys2Proof.Machine Sys2Proof.Laws

section
variable {z s t : State}

theorem Quiet.after (q : Quiet s t) (h : Bg z s) : Bg z t := h.trans q.bg

theorem Follows.of_offStore (h : Bg z s) (e : offStore t = offStore s) : Bg z t := ((Quiet.refl s).of_offStore e).after h

/-! ### The pages of an APPEND -/

theorem dropCopy_offStore (s : State) (id e : Nat) : offStore (dropCopy s id e) = offStore s := rfl

theorem store_offStore (s : State) (a : Nat) (bs : List Byte) : offStore (store s a bs) = offStore s := rfl

theorem copyBytes_bg (src dst n : Nat) (ecc : List Ecc) (o : Nat → Ecc) (h : Bg z s) : Bg z (copyBytes s src dst n ecc o) :=
  moveBytes_bg _ _ _ _ _ h

theorem copyHome_bg (id : Nat) (hd : List Word) (e : Nat) (ecc : List Ecc) (o : Nat → Ecc) (h : Bg z s) :
    Bg z (copyHome s id hd e ecc o) := by
  unfold copyHome
  exact (copyBytes_bg _ _ _ ecc o h).of_offStore (bumpHdr_offStore _ _ _)

theorem allocFrame_bg {id f : Nat} {o : Nat → Ecc} (h : Bg z s) (ht : allocFrame s id o = some (f, t)) : Bg z t := by
  unfold allocFrame at ht
  dsimp only at ht
  split at ht
  · cases ht
    exact h
  · split at ht <;> cases ht
    refine Follows.of_offStore (Follows.of_offStore ?_ (dropCopy_offStore _ _ _)) (setEnt_offStore _ _ _ _ _)
    exact .ite h (copyHome_bg _ _ _ _ _ h)

theorem openPage_bg {id e : Nat} {fresh : Bool} {o : Nat → Ecc} (h : Bg z s) (ht : openPage s id e fresh o = some t) :
    Bg z t := by
  unfold openPage at ht
  dsimp only at ht
  have hdone : ∀ {u : State} (hd : List Word) (w0 w1 : Word), Bg z u → Bg z (setEnt (dropCopy u id e) hd e w0 w1) :=
    fun _ _ _ hu => (hu.of_offStore (dropCopy_offStore _ _ _)).of_offStore (setEnt_offStore _ _ _ _ _)
  split at ht
  · cases ht
    exact hdone _ _ _ h
  split at ht
  · cases ht
  split at ht
  · cases ht
  next f s1 hs1 =>
    cases ht
    have h1 := allocFrame_bg h hs1
    refine hdone _ _ _ (.ite ?_ (h1.of_offStore (store_offStore _ _ _)))
    exact (copyBytes_bg _ _ _ _ o h1).of_offStore (bumpHdr_offStore _ _ _)

theorem putRow_bg (bad : Bool) (id e r : Nat) (k v : List Word) (i : Nat) (h : Bg z s) : Bg z (putRow s bad id e r k v i) :=
  (doWrites_quiet _ bad (.refl s)).after h

theorem putRows_bg {bad : Bool} {id e : Nat} {fresh : Bool} {k v : List Word} {rs : List (Nat × Nat)} {o : Nat → Ecc}
    (h : Bg z s) (ht : putRows s bad id e fresh k v rs o = some t) : Bg z t := by
  obtain ⟨u, hu, rfl⟩ := Option.map_eq_some_iff.1 ht
  exact (openPage_bg h hu).foldl (β := Nat × Nat) (fun _ x => putRow_bg bad id e x.1 k v x.2) rs

/-- Pages that are written one after the other. -/
theorem foldPages_bg {α : Type} {f : State → α → Option State} (hf : ∀ s x t, Bg z s → f s x = some t → Bg z t) (l : List α)
    (h : Bg z s) (ht : foldPages s l f = some t) : Bg z t := by
  have hgo : ∀ (l : List α) (o : Option State), (∀ u, o = some u → Bg z u) →
      l.foldl (fun s x => s.bind (fun s => f s x)) o = some t → Bg z t := by
    intro l
    induction l with
    | nil => exact fun o ho hl => ho t hl
    | cons x l ih =>
      refine fun o ho hl => ih _ (fun u hu => ?_) hl
      obtain ⟨w, hw, hfw⟩ := Option.bind_eq_some_iff.1 hu
      exact hf w x u (ho w hw) hfw
  exact hgo l (some s) (fun u hu => by cases hu; exact h) ht

theorem invalidates_offStore {α : Type} (hd : List Word) (g : α → Nat) (l : List α) (s : State) :
    offStore (l.foldl (fun s i => invalidate s hd (g i)) s) = offStore s :=
  foldl_keeps offStore _ (fun s _ => invalidate_offStore s hd _) l s

theorem dropOld_offStore (n : Nat) (s : State) (id k : Nat) : offStore (dropOld n s id k) = offStore s := by
  induction n generalizing s with
  | zero => rfl
  | succ n ih =>
    unfold dropOld
    exact ite_keeps offStore rfl ((ih _).trans ((setHdr_offStore _ _ _ _).trans (invalidates_offStore _ _ _ s)))

theorem advanceSlot_offStore (s : State) (id : Nat) : offStore (advanceSlot s id) = offStore s :=
  (foldl_keeps offStore _ (fun s _ => invalidates_offStore _ _ _ s) _ _).trans (setHdr_offStore s _ _ _)

theorem appendRows_bg {d : Desc} {bad : Bool} {o : Nat → Ecc} (h : Bg z s) (ht : appendRows s d bad o = some t) : Bg z t := by
  unfold appendRows at ht
  dsimp only at ht
  have hput : ∀ {u w : State} {c : Prop} [Decidable c] {id e : Nat} {fresh : Bool} {k v : List Word} {rs : List (Nat × Nat)},
      Bg z u → (if c then putRows u bad id e fresh k v rs o else some u) = some w → Bg z w := by
    intro u w c _ id e fresh k v rs hu hw
    split at hw
    · exact putRows_bg hu hw
    · cases hw
      exact hu
  split at ht
  · exact foldPages_bg (fun _ _ _ => hput) _ h ht
  split at ht
  · obtain ⟨u, hu, rfl⟩ := Option.map_eq_some_iff.1 ht
    exact (foldPages_bg (fun _ _ _ => hput) _ (h.of_offStore (dropOld_offStore _ s _ _)) hu).of_offStore
      ((setHdr_offStore _ _ _ _).trans (setHdr_offStore _ _ _ _))
  · exact foldPages_bg (fun _ _ _ => hput) _ h ht

theorem doAppend_bg {d : Desc} {bad : Bool} {o : Nat → Ecc} (h : Bg z s) (ht : doAppend s d bad o = some t) : Bg z t :=
  appendRows_bg (.ite (h.of_offStore (advanceSlot_offStore s _)) h) ht

theorem afterAppend_offStore (s : State) (id : Nat) : offStore (afterAppend s id) = offStore s := by
  have h := (fixPoisonPages_offStore (bumpHdr s id 7) id).trans (bumpHdr_offStore s id 7)
  unfold afterAppend
  generalize fixPoisonPages (bumpHdr s id 7) id = u at h ⊢
  exact h

/-! ### Rows that stand -/

theorem standRows_seen (s : State) (owner : Word) (as : List Nat) (r : List Word) : seen (standRows s owner as r) = seen s := by
  unfold standRows
  split <;> rfl

theorem standPad_seen (s : State) (owner : Word) (p : Plan) (d : Desc) : seen (standPad s owner p d) = seen s := by
  refine ite_keeps seen rfl ?_
  split <;> rfl

theorem standItemRows_seen (s : State) (j : Job) (i : Item) : seen (standItemRows s j i) = seen s :=
  (foldl_keeps seen _ (fun s d => standPad_seen s _ _ d) _ _).trans
    (foldl_keeps seen _ (fun s r => standRows_seen s _ _ r) _ s)

theorem groupEnds_seen (s : State) (j : Job) (g : Nat) : seen (groupEnds s j g) = seen s := ite_keeps seen rfl rfl

theorem recordRerun_bg (tok : Word) (layer : Nat) (h : Bg z s) : Bg z (recordRerun s tok layer) := by
  unfold recordRerun
  split
  · exact h
  split
  · exact h
  · exact .ite (modJob_bg tok (fun _ => ⟨rfl, rfl⟩) (h.of_seen (writeFb_seen _ _ _ _))) h

theorem itemStands_bg (tok : Word) (n inp : Nat) (h : Bg z s) : Bg z (itemStands s tok n inp) := by
  unfold itemStands
  split
  · exact h
  split
  · exact h
  next i _ =>
    have h1 := modItem_bg tok n (fun i => { i with st := .stood }) h
    dsimp only
    generalize hu : (if itemFb i then modItem s tok n (fun i => { i with st := .stood }) else _) = u
    have h2 : Bg z u := by
      rw [← hu]
      exact .ite h1 (h1.of_seen (standItemRows_seen _ _ _))
    generalize hv : (if i.rerun then recordRerun u tok _ else u) = v
    have h3 : Bg z v := by
      rw [← hv]
      exact .ite (recordRerun_bg tok _ h2) h2
    refine afterStand_bg (tryDone_bg tok inp ?_)
    split
    · exact h3.of_seen (groupEnds_seen _ _ _)
    · exact h3

theorem itemGood_bg (tok : Word) (n e sat : Nat) (ws : List (Nat × List Byte)) (h : Bg z s) :
    Bg z (itemGood s tok n e sat ws) := by
  unfold itemGood
  split
  · exact h
  split
  · exact h
  next i _ =>
    have h1 := modItem_bg tok n (fun i => { i with st := .acking, rows := ws.map (fun w => w.1) })
      ((doWrites_quiet ws false (.refl s)).after h)
    dsimp only
    generalize hu : (if i.desc.kind == .me then modJob _ tok _ else _) = u
    have h2 : Bg z u := by
      rw [← hu]
      exact .ite (modJob_bg tok (fun _ => ⟨rfl, rfl⟩) h1) h1
    exact .ite (itemStands_bg tok n e h2)
      (pump_bg e (Follows.foldl (fun s _ hs => hs.of_seen (queueRow_seen s _ _ _ _ _ _)) ws h2))

theorem itemRetry_bg (tok : Word) (n : Nat) (h : Bg z s) : Bg z (itemRetry s tok n) := afterStand_bg (modItem_bg tok n _ h)

/-! ### The outcome of a run -/

theorem finishGood_bg (e : Nat) (a : Attempt) (i : Item) (o : RunOut) (h : Bg z s) : Bg z (finishGood s e a i o) := by
  refine itemGood_bg _ _ _ _ _ ((releaseWalk_quiet e (.refl _)).after (.ite ?_ h))
  split
  · rename_i u hu
    exact (doAppend_bg h hu).of_offStore (afterAppend_offStore _ _)
  · exact h

theorem finishPoison_bg (e : Nat) (a : Attempt) (i : Item) (o : RunOut) (h : Bg z s) : Bg z (finishPoison s e a i o) := by
  refine killJob_bg _ _ _ (.ite (Follows.of_offStore ?_ (fixPoisonPages_offStore _ _)) ((doWrites_quiet _ _ (.refl s)).after h))
  cases hu : doAppend s i.desc true (eccFor o.ecc) with
  | none => exact h
  | some u => exact doAppend_bg h hu

theorem bumpDual_quiet (e : Nat) (h : Quiet z s) : Quiet z (bumpDual s e) := modEng_quiet _ _ h

theorem setSrcs_quiet (l : List Nat) (h : Quiet z s) : Quiet z (setSrcs s l) := h.foldl (fun _ n => setSrc_quiet n) l

theorem resolveDual_bg (i : Item) (e f : Nat) (a b : Attempt) (oa ob : RunOut) (h : Bg z s) :
    Bg z (resolveDual s i e f a b oa ob) := by
  have hrel : ∀ {u : State}, Bg z u →
      Bg z (freeAttempt (freeAttempt (releaseWalk (releaseWalk u e) f) e a) f b) := fun hu =>
    (freeAttempt_quiet f b (freeAttempt_quiet e a (releaseWalk_quiet f (releaseWalk_quiet e (.refl _))))).after hu
  have hrec : ∀ {u : State} (e : Nat) (tok : Word) (d : Desc) (c w sat : Nat), Bg z u → Bg z (noteRec u e tok d c w sat) :=
    fun e tok d c w sat hu => (noteRec_quiet e tok d c w sat (.refl _)).after hu
  have hmis : ∀ {u : State} (l : List Nat), Bg z u → Bg z (setSrcs (bumpDual (bumpDual u e) f) l) := fun l hu =>
    (setSrcs_quiet l (bumpDual_quiet f (bumpDual_quiet e (.refl _)))).after hu
  unfold resolveDual
  dsimp only
  generalize hr : noteRec (noteRec s f b.token i.desc _ _ _) e a.token i.desc _ _ _ = r
  have h1 : Bg z r := by
    rw [← hr]
    exact hrec _ _ _ _ _ _ (hrec _ _ _ _ _ _ h)
  generalize hu : (if (oa.writes == ob.writes) = true then r else _) = u
  have h2 : Bg z u := by
    rw [← hu]
    exact .ite h1 (hmis _ h1)
  exact .ite (finishGood_bg _ _ _ _ (hrel h2)) (.ite (hrel (finishPoison_bg _ _ _ _ h2))
    (itemRetry_bg _ _ (.ite ((doWrites_quiet _ _ (.refl _)).after (hrel h2)) (hrel h2))))

/-- The outcome of a run, once it is counted, is background work. -/
theorem endRun_bg (s : State) (e : Nat) (a : Attempt) (i : Item) (o : RunOut) : Bg (noteRun s e o) (endRun s e a i o) := by
  unfold endRun
  dsimp only
  generalize noteRun s e o = u
  have hu : Bg u u := .refl u
  have hfree : ∀ {v : State}, Bg u v → Bg u (freeAttempt v e a) := fun hv => (freeAttempt_quiet e a (.refl _)).after hv
  have hrec : ∀ (c w sat : Nat), Bg u (noteRec u e a.token i.desc c w sat) := fun c w sat =>
    (noteRec_quiet e a.token i.desc c w sat (.refl u)).bg
  split
  · split
    · split
      · exact resolveDual_bg _ _ _ _ _ _ _ hu
      · exact (modEng_quiet _ _ (.refl u)).bg
    · exact hu
  split
  · split
    · exact (modEng_quiet _ _ (.refl u)).bg
    next o1 _ =>
      generalize hv : noteRec u e a.token i.desc _ _ _ = v
      have h1 : Bg u v := hv ▸ hrec _ _ _
      generalize hw : freeAttempt (if (o1.writes == o.writes) = true then v else _) e a = w
      have h2 : Bg u w := by
        rw [← hw]
        exact hfree (.ite h1 ((setSrc_quiet _ (bumpDual_quiet e (.refl v))).after h1))
      exact .ite (finishGood_bg _ _ _ _ h2) (.ite (finishPoison_bg _ _ _ _ h2) (itemRetry_bg _ _ h2))
  · have h2 : ∀ c, Bg u (freeAttempt (noteRec u e a.token i.desc c (b2n (o.wrap != 0)) o.sat) e a) := fun c => hfree (hrec c _ _)
    exact .ite (finishGood_bg _ _ _ _ (h2 _)) (.ite (finishPoison_bg _ _ _ _ (h2 _))
      (itemRetry_bg _ _ ((doWrites_quiet _ _ (.refl _)).after (h2 _))))

end
end Sys2Proof.Proofs
end

section
/-! PROOFS. The drain of a tile (R80 to R83, R91 to R93, R229, R232) and the streams that go on (R196, R244). -/

namespace Sys2Proof.Proofs

open Sys2Proof Sys2Proof.Machine Sys2Proof.Laws

/-! ### The drain of a tile -/

/-- What the drain of a tile leaves, its upset lanes included: the rows, the comparison, the events. -/
def drained (s : State) (a : Attempt) (i : Item) (ups : List (Nat × Nat × Word)) : RunOut :=
  let b := ups.foldl upsetLane a.basin
  let o := drainTile (viewOf s a.data) i.ds b
  let c := checkTile a.desc b
  { writes := o.1, mism := c.1, wrap := c.2, sat := o.2 + c.2 }

/-- The item of an ended job that an attempt was of. -/
def stoppedItem (s : State) (a : Attempt) : Option Item :=
  s.fc.hJobs.findSome? (fun k => if k.token == a.token then k.items[a.item]? else none)

section
variable {s : State} {e : Nat} {a : Attempt}

/-- TILE_DRAIN_END by what becomes of the attempt. -/
theorem exec_tileDrainEnd (ha : endingAttempt s e = some a) (hd : a.done = none) (hk : (engOf s e).kat = none) (he : e < 16)
    (cycles : Nat) (ups : List (Nat × Nat × Word)) (errs : List EngErr) :
    exec (.tileDrainEnd e cycles ups errs) s = .next (
      if a.stopping then
        match stoppedItem s a with
        | some i =>
          if pastArray s e a i && !a.poison && !bufferBad a errs then
            settleUnits s (stopTile (noteErrs (elapse s cycles) e a errs) e cycles a
              (drained (noteErrs (elapse s cycles) e a errs) a i ups) (basinBad a errs))
          else settleUnits s (discard (noteErrs (elapse s cycles) e a errs) e a)
        | none => settleUnits s (discard (noteErrs (elapse s cycles) e a errs) e a)
      else if !(engOf s e).drn.isSome && operandsOut s e then s
      else match itemOf s a with
        | none => s
        | some (_, i) =>
          if a.poison || bufferBad a errs then settleUnits s (consumeItem (noteErrs (elapse s cycles) e a errs) e a i)
          else settleUnits s (
            if basinBad a errs then drainBad (noteErrs (elapse s cycles) e a errs) e a
              (drained (noteErrs (elapse s cycles) e a errs) a i ups)
            else endRun (noteErrs (elapse s cycles) e a errs) e a i (drained (noteErrs (elapse s cycles) e a errs) a i ups))) := by
  have hex : exec (.tileDrainEnd e cycles ups errs) s = execTileDrainEnd e cycles ups s errs := rfl
  rw [hex, execTileDrainEnd, ha]
  dsimp only
  exact congrArg _ (if_neg (by simp [hd, hk, he]))

/-- A DISCARDED record takes a place in the ring of tile records. -/
theorem tIdx_discard (s : State) (e : Nat) (a : Attempt) :
    (discard s e a).saf.tIdx = (ringNext 32768 17 s.saf.tIdx s.saf.tWraps).1 := by
  have hw := congrArg State.saf (releaseWalk_offStore (noteRec s e a.token a.desc 6 0 0) e)
  have hf : ∀ u : State, (freeAttempt u e a).saf = u.saf := fun u => ite_keeps State.saf rfl rfl
  rw [Machine.discard, hf]
  exact (congrArg Safety.tIdx hw).trans (by simp only [offStore, noteRec, writeTrec, modEng, storeWords, store])

theorem saf_setSrc (s : State) (n : Nat) : (setSrc s n).saf = s.saf := by
  unfold setSrc
  split <;> rfl

theorem saf_noteErrs (s : State) (e : Nat) (a : Attempt) (errs : List EngErr) : (noteErrs s e a errs).saf = s.saf := by
  refine foldl_keeps State.saf _ (fun s x => ?_) errs s
  have huc : (setSrc (bumpUc s e) (ucSource e)).saf = s.saf := saf_setSrc _ _
  have hce : (setSrc (bumpCe s e) (ceSource e)).saf = s.saf := saf_setSrc _ _
  cases x with
  | buffer k uc =>
    unfold noteErr
    dsimp only
    split
    · rfl
    · exact ite_keeps State.saf (ite_keeps State.saf ((addPoison_saf _ _).trans huc) huc) hce
  | basin r uc => exact ite_keeps State.saf rfl (ite_keeps State.saf huc hce)

/-- An uncorrectable word of the Basin sets the engine's source. -/
theorem noteErrs_basin {errs : List EngErr} (he : e < 16) (hb : basinBad a errs = true) (s : State) :
    (noteErrs s e a errs).fc.fsw.getLsbD (ucSource e) = true := by
  obtain ⟨x, hx, hbad⟩ := List.any_eq_true.1 hb
  obtain ⟨l, r, rfl⟩ := List.append_of_mem hx
  cases x with
  | buffer k uc => cases hbad
  | basin w uc =>
    simp only [Bool.and_eq_true, decide_eq_true_eq] at hbad
    obtain ⟨rfl, hw⟩ := hbad
    have hone : ∀ u : State, (noteErr u e a (.basin w true)).fc.fsw.getLsbD (ucSource e) = true := fun u => by
      have hn := ucSource_named (e := e) (by omega)
      simp only [noteErr]
      rw [if_neg (by simp [he, hw]), if_pos trivial]
      exact setSrc_sets_bit _ hn.1 hn.2
    rw [noteErrs, List.foldl_append, List.foldl_cons]
    exact (noteErrs_quiet e a r (.refl _)).bg.fsw _ (hone _)

/-- A Basin word that is uncorrectable at the drain ends the job. -/
theorem drainBad_end (s0 : State) (o : RunOut) {n : Nat} (hi : inputStalled s e = false) (hn : s.fc.fsw.getLsbD n = true) :
    jobOf (settleUnits s0 (drainBad s e a o)) a.token = none
      ∧ (settleUnits s0 (drainBad s e a o)).fc.fsw.getLsbD n = true := by
  unfold drainBad
  dsimp only
  generalize hu : freeAttempt (noteRec (noteRun s e o) e a.token a.desc _ _ _) e a = u
  have hq : Quiet s u := hu ▸ freeAttempt_quiet e a (noteRec_quiet _ _ _ _ _ _ (noteRun_quiet e o (.refl s)))
  have hw : Quiet s (if a.writer then doWrites u o.writes true else u) := .ite (doWrites_quiet _ _ hq) hq
  exact killJob_end s0 ((inputStalled_of_inputs hw.inputs e).trans hi) (hw.bg.fsw n hn)

/-- A comparison that fails sets its engine's source. -/
theorem endRun_mismatch (s0 : State) (i : Item) {o : RunOut} (he : e < 16) (hm : o.mism = true) :
    (settleUnits s0 (endRun s e a i o)).fc.fsw.getLsbD e = true := by
  refine settleUnits_fsw _ _ ((endRun_bg s e a i o).fsw e ?_)
  have hr : srcReserved e = false := by
    clear * - he
    revert e
    decide
  unfold noteRun
  dsimp only
  rw [if_pos hm]
  exact setSrc_sets_bit _ (by omega) hr

end

/-! ### Streams that go on -/

/-- A transfer goes on if its data are there. -/
theorem resumeRing_xfers (s : State) (e : Nat) : (resumeRing s e).ms.xfers = s.ms.xfers.map (fun x =>
    if x.unit = e ∧ (isLedge x.src = false ∨ (s.ms.shiftOn = false ∧ s.ms.shiftQ = [] ∧ s.ms.resLoaded = true))
    then { x with held := false } else x) := by
  refine List.map_congr_left fun x _ => ?_
  have ha : sliceAbsent s x.src = false ↔
      (isLedge x.src = false ∨ (s.ms.shiftOn = false ∧ s.ms.shiftQ = [] ∧ s.ms.resLoaded = true)) := by
    simp [sliceAbsent, or_iff_not_imp_left, and_assoc]
  simp only [← ha]
  by_cases hh : x.held = true
  · simp [hh]
  · have hx : { x with held := false } = x := by
      obtain ⟨⟩ := x
      simpa using hh
    simp [hh, hx]

/-- What the requests of a stream leave. -/
def streamView (s : State) := (s.mem, s.jobs, s.eng)

theorem addXfer_streamView (s : State) (unit prio : Nat) (use : XUse) (src dst len : Nat) :
    streamView (addXfer s unit prio use src dst len) = streamView s := rfl

theorem queueRow_streamView (s : State) (unit prio : Nat) (use : XUse) (src dst len : Nat) :
    streamView (queueRow s unit prio use src dst len) = streamView s := 
  foldl_keeps streamView _ (fun _ _ => addXfer_streamView _ _ _ _ _ _ _) _ _

/-- An engine whose stream halts: the pages that it has still to ask for. -/
def haltAt (clk : Nat) (todo : List PDesc) (g : Engine) : Engine :=
  { g with arr := g.arr.map (fun b => { b with hold := true, holdClk := clk, todo := todo }) }

/-- The pages of a queue are asked for up to one that is being fetched, where the stream halts. -/
theorem fetchQueue_view (l : List PDesc) (s : State) (e : Nat) (a : Attempt) :
    (fetchQueue l s e a).mem = s.mem ∧ (fetchQueue l s e a).jobs = s.jobs ∧ ((fetchQueue l s e a).eng = s.eng
      ∨ ∃ clk todo, todo.length ≤ l.length ∧ (fetchQueue l s e a).eng = modAt s.eng e (haltAt clk todo)) := by
  induction l generalizing s with
  | nil => exact ⟨rfl, rfl, .inl rfl⟩
  | cons p r ih =>
    have hnext : ∀ u, streamView u = streamView s → (fetchQueue r u e a).mem = s.mem ∧ (fetchQueue r u e a).jobs = s.jobs
        ∧ ((fetchQueue r u e a).eng = s.eng ∨ ∃ clk todo, todo.length ≤ (p :: r).length
          ∧ (fetchQueue r u e a).eng = modAt s.eng e (haltAt clk todo)) := by
      intro u hu
      simp only [streamView, Prod.mk.injEq] at hu
      obtain ⟨hm, hj, he⟩ := hu
      obtain ⟨h1, h2, h3⟩ := ih u
      refine ⟨h1.trans hm, h2.trans hj, ?_⟩
      rw [he] at h3
      rcases h3 with h3 | ⟨clk, todo, ht, h3⟩
      · exact .inl h3
      · exact .inr ⟨clk, todo, ht.trans (Nat.le_succ _), h3⟩
    unfold fetchQueue
    split
    · exact hnext s rfl
    dsimp only
    split
    · exact ⟨rfl, rfl, .inr ⟨s.clk, p :: r, le_rfl, rfl⟩⟩
    · exact hnext _ (queueRow_streamView _ _ _ _ _ _ _)

/-- A page that is not being fetched is asked for. -/
theorem fetchQueue_cons {p : PDesc} {r : List PDesc} {s : State} {e : Nat} {a : Attempt}
    (hp : entState (kvEnt s (kvHdr s p.seq) p.ent) ≠ 3) : ∃ u, streamView u = streamView s
      ∧ fetchQueue (p :: r) s e a = fetchQueue r u e a := by
  rw [fetchQueue]
  by_cases h : p.pad = true
  · exact ⟨s, rfl, if_pos h⟩
  · exact ⟨_, queueRow_streamView _ _ _ _ _ _ _, (if_neg h).trans (if_neg hp)⟩

theorem engOf_lt {s : State} {e : Nat} {a : Attempt} (h : (engOf s e).arr = some a) : e < s.eng.length := by
  by_contra hn
  rw [engOf, List.getD_eq_default _ _ (Nat.not_lt.1 hn)] at h
  cases h

section
variable {s : State} {e : Nat}

theorem resumePages_idle (h : (engOf s e).arr = none) : resumePages s e = s := by
  unfold resumePages
  rw [h]

theorem resumePages_going {a : Attempt} (ha : (engOf s e).arr = some a) (hh : a.hold = false) : resumePages s e = s := by
  unfold resumePages
  rw [ha]
  dsimp only
  split
  · rfl
  · exact if_pos (by simp [hh])

/-- What a stream that goes on leaves of memory and jobs. -/
theorem resumePages_keeps_view (s : State) (e : Nat) : (resumePages s e).mem = s.mem ∧ (resumePages s e).jobs = s.jobs := by
  unfold resumePages
  split
  · exact ⟨rfl, rfl⟩
  split
  · exact ⟨rfl, rfl⟩
  · dsimp only
    split
    · exact ⟨rfl, rfl⟩
    · exact ⟨(fetchQueue_view _ _ _ _).1.trans rfl, (fetchQueue_view _ _ _ _).2.1.trans rfl⟩

section
variable {a : Attempt} {p : PDesc} {r : List PDesc} (ha : (engOf s e).arr = some a) (ht : a.todo = p :: r)
  (hs : a.stopping = false) (hh : a.hold = true)
include ha ht

/-- A page that is being fetched holds the stream. -/
theorem resumePages_waits (h3 : entState (kvEnt s (kvHdr s p.seq) p.ent) = 3) : resumePages s e = s := by
  unfold resumePages
  rw [ha]
  dsimp only
  rw [ht]
  exact if_pos (by simp [h3])

include hs hh

/-- The stream goes on at a page that is there, and its halt is counted. -/
theorem resumePages_goes_on (h3 : entState (kvEnt s (kvHdr s p.seq) p.ent) ≠ 3) : ∃ b, (engOf (resumePages s e) e).arr = some b
    ∧ b.token = a.token ∧ b.item = a.item ∧ b.queue = a.queue ∧ b.todo.length < a.todo.length
    ∧ (engOf (resumePages s e) e).holdCyc = satAdd 0xFFFF_FFFF (engOf s e).holdCyc (s.clk - a.holdClk) := by
  have hlt := engOf_lt ha
  let b : Attempt := { a with hold := false, todo := [] }
  let go (x : Engine) : Engine := { x with arr := some b, holdCyc := satAdd 0xFFFF_FFFF x.holdCyc (s.clk - a.holdClk) }
  have heq : resumePages s e = fetchQueue (p :: r) (modEng s e go) e b := by
    unfold resumePages
    rw [ha]
    dsimp only
    rw [ht]
    exact if_neg (by simp [hh, hs, h3])
  obtain ⟨u, hu, hfu⟩ := fetchQueue_cons (s := modEng s e go) (r := r) (e := e) (a := b) h3
  simp only [streamView, Prod.mk.injEq] at hu
  obtain ⟨-, -, heng⟩ := hu
  have hgo : engOf u e = go (engOf s e) := by rw [← engOf_modEng s e go hlt, engOf, heng, engOf]
  rw [heq, hfu, ht]
  obtain ⟨-, -, hq | ⟨clk, todo, hlen, hq⟩⟩ := fetchQueue_view r u e b
  · have : engOf (fetchQueue r u e b) e = go (engOf s e) := by rw [← hgo, engOf, hq, engOf]
    rw [this]
    exact ⟨b, rfl, rfl, rfl, rfl, Nat.succ_pos _, rfl⟩
  · have hul : e < u.eng.length := by
      rw [heng, modEng_eng, length_modAt]
      exact hlt
    have : engOf (fetchQueue r u e b) e = haltAt clk todo (go (engOf s e)) := by
      rw [← hgo, ← engOf_modEng u e (haltAt clk todo) hul, engOf, hq]
      rfl
    rw [this]
    exact ⟨_, rfl, rfl, rfl, rfl, Nat.lt_succ_of_le hlen, rfl⟩

end
end

end Sys2Proof.Proofs
end

section
/-! PROOFS. The fallback decision of a layer (R122, R125, R126, R390): that what it sets lasts through all that follows from it, the
start of what became ready, the stream units' work and the reaction to a fatal source. -/

namespace Sys2Proof.Proofs

open Sys2Proof Sys2Proof.Machine Sys2Proof.Laws

/-! ### What lasts of a job -/

/-- The jobs and the substitutions in force. -/
def jobView (s : State) := (s.jobs, s.sch.subst)

/-- A job that is left has the layer counts that it had, and a substitution goes only with its owner's job. -/
structure Lasts (s t : State) : Prop where
  layers : ∀ tok k, jobOf t tok = some k → ∃ j, jobOf s tok = some j ∧ j.layers = k.layers
  subst : ∀ c ∈ s.sch.subst, c ∈ t.sch.subst ∨ ((jobOf s c.owner).isSome = true ∧ jobOf t c.owner = none)

section
variable {z s t : State}

theorem Lasts.refl (s : State) : Lasts s s := ⟨fun _ k hk => ⟨k, hk, rfl⟩, fun _ hc => .inl hc⟩

theorem Lasts.jobOf_none (h : Lasts s t) {tok : Word} (hs : jobOf s tok = none) : jobOf t tok = none := by
  cases ht : jobOf t tok with
  | none => rfl
  | some k =>
    obtain ⟨j, hj, -⟩ := h.layers tok k ht
    rw [hs] at hj
    cases hj

theorem Lasts.trans (h : Lasts z s) (g : Lasts s t) : Lasts z t where
  layers tok k hk := by
    obtain ⟨j, hj, hjk⟩ := g.layers tok k hk
    obtain ⟨i, hi, hij⟩ := h.layers tok j hj
    exact ⟨i, hi, hij.trans hjk⟩
  subst c hc := by
    rcases h.subst c hc with hs | ⟨hz, hs⟩
    · rcases g.subst c hs with ht | ⟨hs, ht⟩
      · exact .inl ht
      · obtain ⟨j, hj⟩ := Option.isSome_iff_exists.1 hs
        obtain ⟨i, hi, -⟩ := h.layers _ j hj
        exact .inr ⟨by rw [hi]; rfl, ht⟩
    · exact .inr ⟨hz, g.jobOf_none hs⟩

theorem Lasts.foldl {β : Type} {f : State → β → State} (hf : ∀ s x, Lasts z s → Lasts z (f s x)) (l : List β)
    (h : Lasts z s) : Lasts z (l.foldl f s) := by
  induction l generalizing s with
  | nil => exact h
  | cons x r ih => exact ih (hf s x h)

theorem Lasts.ite {c : Prop} [Decidable c] (hs : Lasts z s) (ht : Lasts z t) : Lasts z (if c then s else t) := by
  split
  · exact hs
  · exact ht

/-- Jobs change but in their tokens and layer counts. -/
theorem Lasts.of_map (h : Lasts z s) {f : Job → Job} (hf : ∀ j, (f j).token = j.token ∧ (f j).layers = j.layers)
    (e : jobView t = (s.jobs.map f, s.sch.subst)) : Lasts z t := by
  simp only [jobView, Prod.mk.injEq] at e
  obtain ⟨hj, hs⟩ := e
  refine h.trans ⟨fun tok k hk => ?_, fun c hc => .inl (hs ▸ hc)⟩
  have hp : ((fun j : Job => j.token == tok) ∘ f) = fun j => j.token == tok := funext fun j => by simp [(hf j).1]
  rw [jobOf, hj, List.find?_map, hp] at hk
  obtain ⟨j, hjs, rfl⟩ := Option.map_eq_some_iff.1 hk
  exact ⟨j, hjs, (hf j).2.symm⟩

theorem Lasts.of_view (h : Lasts z s) (e : jobView t = jobView s) : Lasts z t :=
  h.of_map (f := id) (fun _ => ⟨rfl, rfl⟩) (by rw [e, List.map_id]; rfl)

/-- A job ends, its substitutions with it. -/
theorem Lasts.of_end (h : Lasts z s) {tok : Word} (hj : (jobOf s tok).isSome = true)
    (e : jobView t = (s.jobs.filter (fun j => j.token != tok), s.sch.subst.filter (fun c => c.owner != tok))) : Lasts z t := by
  simp only [jobView, Prod.mk.injEq] at e
  obtain ⟨hjobs, hsub⟩ := e
  have hgone : jobOf t tok = none := by
    rw [jobOf, hjobs]
    simp
  refine h.trans ⟨fun u k hk => ⟨k, ?_, rfl⟩, fun c hc => ?_⟩
  · have hne : u ≠ tok := fun e => by
      rw [e, hgone] at hk
      cases hk
    rw [jobOf, hjobs, List.find?_filter] at hk
    rw [← hk, jobOf]
    congr 1
    funext j
    by_cases hju : j.token = u <;> simp [hju, hne]
  · by_cases ho : c.owner = tok
    · exact .inr ⟨by rw [ho]; exact hj, by rw [ho]; exact hgone⟩
    · exact .inl (by rw [hsub]; exact List.mem_filter.2 ⟨hc, by simpa using ho⟩)

end

/-! ### Operations that leave jobs and substitutions -/

section
variable (s : State)

theorem jobView_setSrc (n : Nat) : jobView (setSrc s n) = jobView s := by simp only [jobView, setSrc_jobs, setSrc_sch]

theorem jobView_giveOne (src : Nat) (k : PoolKind) (i : Nat) (ep : Bool) : jobView (giveOne s src k i ep) = jobView s :=
  ite_keeps jobView rfl (jobView_setSrc _ 82)

theorem jobView_closeXfer (x : Xfer) : jobView (closeXfer s x) = jobView s := ite_keeps jobView (jobView_giveOne _ _ _ _ _) rfl

theorem jobView_modXfer (id : Nat) (f : Xfer → Xfer) : jobView (modXfer s id f) = jobView s := rfl

theorem jobView_trimIf (p : Xfer → Bool) : jobView (trimIf s p) = jobView s :=
  foldl_keeps jobView _ (fun s x => ite_keeps jobView rfl (ite_keeps jobView (jobView_closeXfer s x) (jobView_modXfer s _ _))) _ _

theorem jobView_writeFb (j : Job) (l : LayerCnt) (o : Nat) : jobView (writeFb s j l o) = jobView s := by
  simp only [jobView, writeFb, storeWords, store]

theorem jobView_releaseWalk (e : Nat) : jobView (releaseWalk s e) = jobView s := by
  show jobView (offStore _) = jobView (offStore s)
  rw [releaseWalk_offStore]

theorem jobView_releaseWalks (t : Word) : jobView (releaseWalks s t) = jobView s :=
  foldl_keeps jobView _ (fun s e => by
    split
    · exact ite_keeps jobView (jobView_releaseWalk s e) rfl
    · rfl) _ _

theorem jobView_collectOne (inp : Nat) : jobView (collectOne s inp) = jobView s := by
  unfold collectOne
  split
  · rfl
  · refine ite_keeps jobView rfl (ite_keeps jobView ?_ ((jobView_setSrc _ 82).trans ?_)) <;>
      simp only [jobView, storeWords, store]

theorem jobView_pushRec (inp : Nat) (r : CRec) : jobView (pushRec s inp r) = jobView s :=
  (show _ = jobView (if 2 ≤ skidCount s inp then collectOne s inp else s) from rfl).trans
    (ite_keeps jobView (jobView_collectOne s inp) rfl)

theorem jobView_waitEnd (w : EndWait) : jobView (waitEnd s w) = jobView s := ite_keeps jobView rfl rfl

theorem jobView_skipEntry (i : Nat) (o : JobEnd) : jobView (skipEntry s i o) = jobView s :=
  ite_keeps jobView (jobView_waitEnd s _) (jobView_pushRec _ _ _)

theorem jobView_holdStream (x : Xfer) : jobView (holdStream s x) = jobView s := by
  simp only [holdStream]
  split <;> rfl

theorem jobView_modEng (e : Nat) (f : Engine → Engine) : jobView (modEng s e f) = jobView s := rfl

theorem jobView_ownRead (x : Xfer) (a n : Nat) : jobView (ownRead s x a n) = jobView s :=
  foldl_keeps jobView _ (fun s _ => jobView_modEng s _ _) _ _

theorem jobView_runArray (e : Nat) : jobView (runArray s e) = jobView s := ite_keeps jobView rfl rfl

theorem jobView_storeMoved (a : Nat) (bs : List Byte) (bad : Nat → Nat → Bool) : jobView (storeMoved s a bs bad) = jobView s :=
  ite_keeps jobView rfl (foldl_keeps jobView _ (fun s u => by simp only [jobView, markUnit_jobs, markUnit_sch]) _ _)

theorem jobView_xferReq (x : Xfer) (w : Bool) (a n off : Nat) : jobView (xferReq s x w a n off) = jobView s := by
  have hb : jobView (beginXferReq s x) = jobView s := ite_keeps jobView rfl rfl
  rw [← hb]
  simp only [jobView, xferReq, issueReq_jobs, issueReq_sch]

theorem jobView_addXfer (unit prio : Nat) (use : XUse) (src dst len : Nat) :
    jobView (addXfer s unit prio use src dst len) = jobView s := rfl

theorem jobView_queueRow (unit prio : Nat) (use : XUse) (src dst len : Nat) :
    jobView (queueRow s unit prio use src dst len) = jobView s :=
  foldl_keeps jobView _ (fun _ _ => jobView_addXfer _ _ _ _ _ _ _) _ _

theorem jobView_standItemRows (j : Job) (i : Item) : jobView (standItemRows s j i) = jobView s := by
  refine (foldl_keeps jobView _ (fun s d => ?_) _ _).trans (foldl_keeps jobView _ (fun s r => ?_) _ s)
  · refine ite_keeps jobView rfl ?_
    split <;> rfl
  · unfold standRows
    split <;> rfl

theorem jobView_groupEnds (j : Job) (g : Nat) : jobView (groupEnds s j g) = jobView s := ite_keeps jobView rfl rfl

/-- What the end of a job leaves of the jobs and the substitutions. -/
theorem jobView_endJob {t : Word} {j : Job} (hj : jobOf s t = some j) (o : JobEnd) (inp : Nat) :
    jobView (endJob s t o inp) = if inputStalled s inp then jobView s
      else (s.jobs.filter (fun x => x.token != t), s.sch.subst.filter (fun c => c.owner != t)) := by
  unfold endJob
  rw [hj, Option.isSome_some, Bool.and_true]
  split
  · exact jobView_waitEnd s _
  · dsimp only
    generalize hu : trimXfers _ t = u
    have hv : jobView u = jobView s := by
      rw [← hu]
      exact (jobView_trimIf _ _).trans (foldl_keeps jobView _ (fun s l => jobView_writeFb s j l 2) _ s)
    simp only [jobView, Prod.mk.injEq] at hv
    obtain ⟨hjobs, hsub⟩ := hv
    refine (jobView_pushRec _ _ _).trans ((jobView_releaseWalks _ _).trans ?_)
    cases j.origin <;> simp only [jobView, setTokCode, finishTok, hjobs, hsub]

end

/-! ### All that follows -/

section
variable {z s : State}

theorem endJob_lasts (t : Word) (o : JobEnd) (inp : Nat) (h : Lasts z s) : Lasts z (endJob s t o inp) := by
  cases hj : jobOf s t with
  | none => rwa [endJob, hj, Option.isSome_none, Bool.and_false, if_neg (by decide)]
  | some j =>
    have hv := jobView_endJob s hj o inp
    split at hv
    · exact h.of_view hv
    · exact h.of_end (by rw [hj]; rfl) hv

theorem cascade_lasts (n : Nat) (h : Lasts z s) : Lasts z (cascade n s) := by
  induction n generalizing s with
  | zero => exact h
  | succ n ih =>
    unfold cascade
    split
    · exact ih (endJob_lasts _ _ _ h)
    · split
      · exact ih (h.of_view (jobView_skipEntry s _ _))
      · exact h

theorem cascadeAll_lasts (h : Lasts z s) : Lasts z (cascadeAll s) := .ite h (cascade_lasts _ h)

theorem killJob_lasts (t : Word) (o : JobEnd) (inp : Nat) (h : Lasts z s) : Lasts z (killJob s t o inp) :=
  cascadeAll_lasts (endJob_lasts t o inp h)

theorem killJobs_lasts (ts : List Word) (o : JobEnd) (inp : Nat) (h : Lasts z s) : Lasts z (killJobs s ts o inp) :=
  cascadeAll_lasts (h.foldl (fun _ t => endJob_lasts t o inp) ts)

theorem tryDone_lasts (t : Word) (inp : Nat) (h : Lasts z s) : Lasts z (tryDone s t inp) := by
  unfold tryDone
  split
  · exact h
  · exact .ite (endJob_lasts t _ inp h) h

theorem streamFault_lasts (x : Xfer) (h : Lasts z s) : Lasts z (streamFault s x) :=
  .ite (h.of_view (jobView_holdStream s x)) (killJob_lasts _ _ _ (h.of_view rfl))

theorem copyStep_lasts {x : Xfer} {t : State} (h : Lasts z s) (ht : copyStep s x = some t) : Lasts z t := by
  unfold copyStep at ht
  split at ht
  · cases ht
  · dsimp only at ht
    split at ht <;> cases ht
    exact h.of_view ((jobView_xferReq _ _ _ _ _ _).trans ((jobView_modXfer _ _ _).trans (jobView_storeMoved _ _ _ _)))

theorem xferStep_lasts {x : Xfer} {t : State} (h : Lasts z s) (ht : xferStep s x = some t) : Lasts z t := by
  unfold xferStep at ht
  split at ht
  next s1 h1 => cases ht; exact copyStep_lasts h h1
  next =>
    dsimp only at ht
    split_ifs at ht <;> cases ht
    · exact h.of_view ((jobView_modXfer _ _ _).trans (jobView_xferReq _ _ _ _ _ _))
    · exact streamFault_lasts x h
    · exact killJob_lasts _ _ _ h
    · exact h.of_view ((jobView_modXfer _ _ _).trans (jobView_ownRead _ _ _ _))
    · exact h.of_view ((jobView_modXfer _ _ _).trans (jobView_xferReq _ _ _ _ _ _))

theorem pumpUnit_lasts (e n : Nat) (h : Lasts z s) : Lasts z (pumpUnit e n s) := by
  induction n generalizing s with
  | zero => exact h
  | succ n ih =>
    unfold pumpUnit
    split
    · rename_i t ht
      obtain ⟨x, -, hx⟩ := List.exists_of_findSome?_eq_some ht
      exact ih (xferStep_lasts h hx)
    · exact h

theorem closeOperands_lasts (e : Nat) (h : Lasts z s) : Lasts z (closeOperands s e) := by
  have hc := h.foldl (fun s x hs => hs.of_view (jobView_closeXfer s x))
    (s.ms.xfers.filter (fun x => x.unit == e && x.use.isOperand && xferOver s x))
  exact .ite (hc.of_view (jobView_runArray _ e)) hc

theorem pump_lasts (e : Nat) (h : Lasts z s) : Lasts z (pump s e) := closeOperands_lasts e (pumpUnit_lasts e _ h)

theorem pumpAll_lasts (h : Lasts z s) : Lasts z (pumpAll s) := .ite h (h.foldl (fun _ e => pump_lasts e) _)

theorem clearStaged_lasts (e : Nat) (h : Lasts z s) : Lasts z (clearStaged s e) := by
  unfold clearStaged
  split
  · exact h
  · exact .ite h (h.of_view ((jobView_modEng _ _ _).trans (jobView_trimIf _ _)))

theorem queueRows_lasts {β : Type} (unit prio : Nat) (use : β → XUse) (src dst len : β → Nat) (l : List β) (h : Lasts z s) :
    Lasts z (l.foldl (fun s x => queueRow s unit prio (use x) (src x) (dst x) (len x)) s) :=
  h.foldl (fun s _ hs => hs.of_view (jobView_queueRow s _ _ _ _ _ _)) l

theorem stageAhead_lasts (e : Nat) (h : Lasts z s) : Lasts z (stageAhead s e) := by
  have hc := clearStaged_lasts e h
  unfold stageAhead
  dsimp only
  split
  · exact hc
  · refine .ite hc ?_
    split
    · exact hc
    · exact .ite hc (pump_lasts e (queueRows_lasts _ _ (fun _ => _) _ (fun _ => _) _ _ (hc.of_view (jobView_modEng _ _ _))))

theorem units_lasts (h : Lasts z s) : Lasts z (units s) :=
  Lasts.foldl (f := stageAhead) (fun _ e => stageAhead_lasts e) _ (pumpAll_lasts h)

theorem modJob_lasts {f : Job → Job} (t : Word) (hf : ∀ j, (f j).token = j.token ∧ (f j).layers = j.layers) (h : Lasts z s) :
    Lasts z (modJob s t f) :=
  h.of_map (f := fun j => if j.token == t then f j else j) (fun j => by split; exacts [hf j, ⟨rfl, rfl⟩]) rfl

theorem markWaits_lasts (h : Lasts z s) : Lasts z (markWaits s) := by
  refine h.of_map (fun j => ?_) rfl
  split <;> exact ⟨rfl, rfl⟩

theorem jobView_queueReq (s : State) (t : Word) (x : List Word) (p : Nat × Nat × Nat × Bool) :
    jobView (queueReq s t x p) = jobView s := rfl

theorem beginXfer_lasts (t : Word) (k : Nat) (x : List Word) (h : Lasts z s) : Lasts z (beginXfer s t k x) :=
  modJob_lasts t (fun _ => ⟨rfl, rfl⟩) (h.foldl (fun s p hs => hs.of_view (jobView_queueReq s t x p)) _)

theorem startXfers_lasts (h : Lasts z s) : Lasts z (startXfers s) :=
  h.foldl (fun s _ hs => hs.foldl (fun s x hs => by
    split
    · exact hs
    · exact .ite (beginXfer_lasts _ _ _ hs) hs) _) _

theorem runPrefetch_lasts (t : Word) (n : Nat) (h : Lasts z s) : Lasts z (runPrefetch s t n) := by
  unfold runPrefetch
  split
  · exact h
  split
  · exact h
  refine .ite h ?_
  split
  · exact h
  · refine pump_lasts _ (queueRows_lasts _ _ _ _ _ (fun _ => _) _ (Lasts.of_view ?_ (jobView_queueRow _ _ _ _ _ _ _)))
    exact modJob_lasts t (fun _ => ⟨rfl, rfl⟩) h

theorem startPrefetch_lasts (h : Lasts z s) : Lasts z (startPrefetch s) :=
  h.foldl (fun _ j hs => hs.foldl (fun _ n => runPrefetch_lasts j.token n) _) _

theorem afterStand_lasts (h : Lasts z s) : Lasts z (afterStand s) := markWaits_lasts (startXfers_lasts (startPrefetch_lasts h))

theorem faReact_lasts (h : Lasts z s) : Lasts z (faReact s) := by
  have hstop : jobView (faStopped s) = jobView s := by
    have hw : ∀ u : State, jobView (cancelSwap u) = jobView u := fun u => ite_keeps jobView rfl rfl
    have hg : ∀ u : State, jobView (guiltFatal u) = jobView u := fun u => by unfold guiltFatal; split <;> rfl
    exact (hw _).trans ((hg (withdraw s 4)).trans (ite_keeps jobView rfl rfl))
  have hv : ∀ u : State, jobView (faHalt (faVerdict u)) = jobView u := fun u =>
    (ite_keeps jobView rfl rfl : jobView (faHalt (faVerdict u)) = jobView (faVerdict u)).trans
      (ite_keeps jobView (by simp only [jobView, writeVerdict, storeWords, store]) rfl)
  have hk : Lasts z (faKilled (faStopped s)) := killJobs_lasts _ _ _ (h.of_view hstop)
  exact hk.of_view (hv _)

theorem settleUnits_lasts (s0 : State) (h : Lasts z s) : Lasts z (settleUnits s0 s) := by
  obtain e | e := settle_cases s0 (units s) <;> rw [settleUnits, e]
  · exact units_lasts h
  · exact faReact_lasts (units_lasts h)

end

/-! ### The decision -/

/-- The items of a layer that count for its decision, and its threshold (R122). -/
def layerItems (j : Job) (layer : Nat) : List Item := j.items.filter (fun i => itemFb i && i.desc.layer == layer)
def layerThresh (j : Job) (layer : Nat) : Nat := mdThresh (((layerItems j layer).headD default).desc)

/-- The count of a layer is changed. -/
def setLayer (layer : Nat) (f : LayerCnt → LayerCnt) (j : Job) : Job :=
  { j with layers := j.layers.map (fun l => if l.layer == layer then f l else l) }

/-- A layer that stands (R122). -/
def layerStands (s : State) (j : Job) (layer : Nat) : State :=
  modJob s j.token (setLayer layer (fun l => { l with decided := true }))

/-- A layer that has fallen back, and the job's substitutions in force (R125, R126). -/
def layerFalls (s : State) (j : Job) (layer : Nat) : State :=
  let s := modJob s j.token (setLayer layer (fun l =>
    { l with decided := true, fell := true, decClk := s.clk, decSeq := wseqNow s }))
  { s with sch := { s.sch with subst := substsOf s (ownerOf j) j.plan layer ++ s.sch.subst } }

/-- What follows as a layer stands: its rows stand, and what waited for them begins. -/
def layerStood (s : State) (j : Job) (layer : Nat) : State :=
  let s := (layerItems j layer).foldl (fun s i => standItemRows s j i) s
  let s := match jobOf s j.token with | some k => groupEnds s k ((layerItems j layer).headD default).grp | none => s
  afterStand (tryDone s j.token (((layerItems j layer).getLastD default).ran.headD 26))

/-- What follows as it has fallen back: its self list joins the job, and its substitutions replace descriptors. -/
def layerFallen (s : State) (j : Job) (layer : Nat) : State :=
  let s := modJob s j.token (fun x =>
    { x with items := x.items ++ rerunItems s j.plan layer ((layerItems j layer).headD default).grp })
  afterStand { s with jobs := s.jobs.map (fun x =>
    if ownerOf x == ownerOf j then { x with items := x.items.map (substItem s (ownerOf x)) } else x) }

/-- The decision by its layer's count. -/
theorem decide_eq {j : Job} {layer : Nat} {cnt : LayerCnt} (hc : j.layers.find? (fun l => l.layer == layer) = some cnt)
    (s : State) : decide_ s j layer = if cnt.count ≤ layerThresh j layer then layerStood (layerStands s j layer) j layer
      else layerFallen (layerFalls s j layer) j layer := by
  have h : decide_ s j layer =
      if (match j.layers.find? (fun l => l.layer == layer) with | some l => l.count | none => 0) ≤ layerThresh j layer
      then layerStood (layerStands s j layer) j layer else layerFallen (layerFalls s j layer) j layer := rfl
  rw [hc] at h
  exact h

theorem layerStood_lasts (s : State) (j : Job) (layer : Nat) : Lasts s (layerStood s j layer) := by
  have hrows := (Lasts.refl s).foldl (f := fun s i => standItemRows s j i)
    (fun s i hs => hs.of_view (jobView_standItemRows s j i)) (layerItems j layer)
  unfold layerStood
  refine afterStand_lasts (tryDone_lasts _ _ ?_)
  split
  · exact hrows.of_view (jobView_groupEnds _ _ _)
  · exact hrows

theorem layerFallen_lasts (s : State) (j : Job) (layer : Nat) : Lasts s (layerFallen s j layer) := by
  unfold layerFallen
  generalize hu : modJob s j.token _ = u
  have h : Lasts s u := hu ▸ modJob_lasts _ (fun _ => ⟨rfl, rfl⟩) (.refl s)
  refine afterStand_lasts (h.of_map (fun x => ?_) rfl)
  split <;> exact ⟨rfl, rfl⟩

theorem jobOf_modJob {s : State} {t : Word} {j : Job} {f : Job → Job} (hf : ∀ j, (f j).token = j.token)
    (hj : jobOf s t = some j) : jobOf (modJob s t f) t = some (f j) := by
  have hp : ((fun j : Job => j.token == t) ∘ fun j => if j.token == t then f j else j) = fun j => j.token == t :=
    funext fun j => by
      simp only [Function.comp]
      split <;> simp_all
  rw [jobOf, modJob, List.find?_map, hp]
  show Option.map _ (jobOf s t) = _
  rw [hj]
  simp [(mem_of_jobOf hj).2]

/-- The layer's count is the first of that layer, before and after. -/
theorem mem_setLayer {j : Job} {layer : Nat} {cnt : LayerCnt} (hc : j.layers.find? (fun l => l.layer == layer) = some cnt)
    (f : LayerCnt → LayerCnt) : f cnt ∈ (setLayer layer f j).layers ∧ cnt.layer = layer := by
  have hl : cnt.layer = layer := by simpa using List.find?_some hc
  exact ⟨List.mem_map.2 ⟨cnt, List.mem_of_find?_eq_some hc, by simp [hl]⟩, hl⟩

theorem substsOf_congr {s t : State} (h : t.mem = s.mem) (owner : Word) (p : Plan) (layer : Nat) :
    substsOf t owner p layer = substsOf s owner p layer := by
  unfold substsOf
  rw [h]

theorem owner_of_mem_substsOf {s : State} {owner : Word} {p : Plan} {layer : Nat} {c : Subst}
    (hc : c ∈ substsOf s owner p layer) : c.owner = owner := by
  unfold substsOf at hc
  split at hc
  · cases hc
  · obtain ⟨i, -, rfl⟩ := List.mem_map.1 hc
    rfl

section
variable {s t : State} {tok : Word} {j : Job} {layer : Nat} {cnt : LayerCnt} (hj : jobOf s tok = some j)
  (hc : j.layers.find? (fun l => l.layer == layer) = some cnt) (ht : Lasts (decide_ s j layer) t)
include hj hc ht

/-- The decision on a layer lasts as long as its job. -/
theorem decided_layer {k : Job} (hk : jobOf t tok = some k) : ∃ l ∈ k.layers, l.layer = layer ∧ l.decided = true
    ∧ (l.fell = true ↔ (cnt.fell = true ∨ layerThresh j layer < cnt.count)) := by
  have hset : ∀ (f : LayerCnt → LayerCnt) (u : State), jobOf u tok = jobOf (modJob s j.token (setLayer layer f)) tok →
      Lasts u t → f cnt ∈ k.layers ∧ cnt.layer = layer := by
    intro f u hu hl
    obtain ⟨i, hi, hik⟩ := hl.layers tok k hk
    rw [hu, (mem_of_jobOf hj).2, jobOf_modJob (f := setLayer layer f) (fun _ => rfl) hj] at hi
    cases hi
    rw [← hik]
    exact mem_setLayer hc f
  rw [decide_eq hc] at ht
  split at ht
  next h =>
    obtain ⟨hm, hl⟩ := hset _ (layerStands s j layer) rfl ((layerStood_lasts _ j layer).trans ht)
    exact ⟨_, hm, hl, rfl, by simp [Nat.not_lt.2 h]⟩
  next h =>
    obtain ⟨hm, hl⟩ := hset _ (layerFalls s j layer) rfl ((layerFallen_lasts _ j layer).trans ht)
    exact ⟨_, hm, hl, rfl, by simp [Nat.not_le.1 h]⟩

/-- The substitutions of a layer that has fallen back are in force as long as its job is left. -/
theorem fallen_substs (h : layerThresh j layer < cnt.count) (hk : (jobOf t tok).isSome = true) (h0 : ∀ x ∈ s.jobs, x.token ≠ 0) :
    ∀ c ∈ substsOf s (ownerOf j) j.plan layer, c ∈ t.sch.subst := by
  intro c hcs
  have ho := owner_of_mem_substsOf hcs
  rw [decide_eq hc, if_neg (Nat.not_le.2 h)] at ht
  have hin : c ∈ (layerFalls s j layer).sch.subst := List.mem_append_left _ hcs
  rcases ((layerFallen_lasts _ j layer).trans ht).subst c hin with hct | ⟨hlive, hgone⟩
  · exact hct
  exfalso
  rw [ho] at hlive hgone
  by_cases htide : j.origin = .tide
  · have hz : jobOf s 0 = none := by simpa [jobOf] using h0
    have hz' : jobOf (layerFalls s j layer) 0 = none :=
      (modJob_bg j.token (f := setLayer layer _) (fun _ => ⟨rfl, rfl⟩) (.refl s)).jobOf_none hz
    have hown : ownerOf j = 0 := if_pos (by simp [htide])
    rw [hown, hz'] at hlive
    cases hlive
  · have hown : ownerOf j = tok := (if_neg (by simp [htide])).trans (mem_of_jobOf hj).2
    rw [← hown, hgone] at hk
    cases hk

end

/-- FALLBACK_DECISION where the decision is due, by what control pair A's reads come to. -/
theorem exec_fallbackDecision {s : State} {tok : Word} {j : Job} {layer : BitVec 16} (ecc : List (Nat × Ecc))
    (hj : jobOf s tok = some j) (hd : decisionDue j layer.toNat = true) : exec (.fallbackDecision tok layer ecc) s = .next
      (settleUnits s (if readsGood s srcPairA (fallLists s j layer.toNat) ecc then
        decide_ (readAll s srcPairA (fallLists s j layer.toNat) ecc) j layer.toNat
        else stopPairA (readAll s srcPairA (fallLists s j layer.toNat) ecc))) := by
  have hex : exec (.fallbackDecision tok layer ecc) s = execFallbackDecision tok layer s ecc := rfl
  rw [hex, execFallbackDecision, hj]
  dsimp only
  rw [if_pos hd, pairAGo, pairAReads_eq]
  split <;> rfl

/-- Settles O33. The drain by what becomes of the attempt (`exec_tileDrainEnd`); the streams by `resumeRing_xfers` and
`resumePages_goes_on`; the decision by what of it lasts (`decided_layer`, `fallen_substs`) through all that follows (`Lasts`). -/
theorem tilesHoldsAndFallbacks : Obligations.TilesHoldsAndFallbacks := by
  refine ⟨fun s e cycles ups errs a he ha hd hk => ⟨?_, ?_⟩, fun s e ecc => ?_, fun s tok layer ecc j its cnt hg hj hdue hits hc => ?_,
    fun s tok layer ecc j hj hdue hg => ?_⟩
  · rintro s1 k hst rfl rfl
    rw [exec_tileDrainEnd ha hd hk he, if_pos hst, stoppedItem]
    refine ⟨fun hall => ⟨?_, ?_⟩, ?_⟩
    · split
      next i hi =>
        rw [hi, Option.all_some] at hall
        rw [if_neg (by simpa [or_assoc, imp_iff_not_or] using hall)]
      next => rfl
    · rw [tIdx_discard, saf_noteErrs, elapse_saf]
    · rintro i b o c hi hpast hp hb rfl rfl rfl
      rw [hi]
      dsimp only
      rw [if_pos (by simp [hpast, hp, hb])]
      rfl
  · rintro j i s1 hst hrun hj hi rfl
    rw [exec_tileDrainEnd ha hd hk he, if_neg (by simp [hst]), if_neg (by rcases hrun with h | h <;> simp [h]), itemOf_eq hj hi]
    dsimp only
    generalize hs1 : noteErrs (elapse s cycles) e a errs = s1
    have huc : ucSource e = 32 + e := if_pos he
    refine ⟨fun hbad hroom => ?_, fun hp hb hbas => ?_⟩
    · have hin : inputStalled s1 e = false := by rw [← hs1, inputStalled_noteErrs, hroom]
      refine ⟨_, rfl, ?_⟩
      rw [← huc]
      split
      · exact consumeItem_end s i (by omega) hin
      next hn =>
        simp only [Bool.or_eq_true, not_or] at hn
        have hbas : basinBad a errs = true := (hbad.resolve_left hn.1).resolve_left hn.2
        rw [if_pos hbas]
        exact drainBad_end s _ hin (hs1 ▸ noteErrs_basin he hbas _)
    · rintro b o c rfl rfl rfl
      rw [if_neg (by simp [hp, hb]), if_neg (by simp [hbas])]
      exact ⟨_, rfl, rfl, fun hm => endRun_mismatch s i he hm⟩
  · refine ⟨resumePages (resumeRing s e) e, ?_, fun ha => ?_, fun a p r ha ht hs hh => ⟨fun h3 => ?_, fun h3 => ?_⟩,
      fun a ha hh => ?_, ?_⟩
    · have hex : exec (.streamResume e ecc) s = execStreamResume e s ecc := rfl
      rw [hex, execStreamResume]
      simp only [Bool.or_eq_true, beq_iff_eq]
    · rw [resumePages_idle (s := resumeRing s e) ha]
      exact resumeRing_xfers s e
    · rw [resumePages_waits (s := resumeRing s e) ha ht h3]
      rfl
    · exact resumePages_goes_on (s := resumeRing s e) ha ht hs hh h3
    · rw [resumePages_going (s := resumeRing s e) ha hh]
      rfl
    · exact resumePages_keeps_view (resumeRing s e) e
  · rw [exec_fallbackDecision ecc hj hdue, if_pos hg]
    subst hits
    generalize hu : readAll s srcPairA (fallLists s j layer.toNat) ecc = u
    have hjobs : u.jobs = s.jobs := hu ▸ readAll_jobs s _ _ _
    have hmem : u.mem = s.mem := hu ▸ readAll_mem s _ _ _
    have hju : jobOf u tok = some j := (jobOf_congr hjobs tok).trans hj
    have hl := settleUnits_lasts s (Lasts.refl (decide_ u j layer.toNat))
    refine ⟨_, rfl, fun k hk => decided_layer hju hc hl hk, fun hth hlive h0 => ?_⟩
    rw [← substsOf_congr hmem]
    exact fallen_substs hju hc hl hth hlive (hjobs ▸ h0)
  · rw [exec_fallbackDecision ecc hj hdue, if_neg (by simp [hg])]
    have hcore := settleUnits_core_eq s (stopPairA (readAll s srcPairA (fallLists s j layer.toNat) ecc))
    simp only [core, Prod.mk.injEq] at hcore
    exact ⟨_, rfl, hcore.1.trans (stopPairA_pairA _)⟩

end Sys2Proof.Proofs
end

section
/-! PROOFS. Sequences of the scene memory (R176, R195, R196, R204 to R207, R233): what control pair A's reads of them come to,
what the commands on them answer, and how their walks take locks and their pages' copies end. -/

namespace Sys2Proof.Proofs

open Sys2Proof Sys2Proof.Machine Sys2Proof.Laws

/-! ### Reads of headers and entries -/

section
variable {s : State}

theorem kvRead_clean (hb : s.csramBad = []) (ids : List Nat) : kvRead s ids [] = s := by
  have hbad : ids.flatMap (kvBadBytes s) = [] := by simp [kvBadBytes, hb]
  simp [kvRead, hbad]

theorem kvDirty_clean (hb : s.csramBad = []) (ids : List Nat) : kvDirty s ids = false := by
  simp [kvDirty, kvBadBytes, hb]

theorem kvAnswer_clean (hb : s.csramBad = []) (ids : List Nat) (f : State → Ans) : kvAnswer s ids f = f s := by
  simp only [kvAnswer, kvRead_clean hb, kvDirty_clean hb, Bool.false_eq_true, if_false]

theorem kvWork_clean (hp : s.rst.pairA = false) (hb : s.csramBad = []) (ids : List Nat) (f : State → State) :
    kvWork s ids f = f s := by
  simp only [kvWork, hp, kvRead_clean hb, kvDirty_clean hb, Bool.false_eq_true, if_false]

/-- Work that changes nothing does so whether or not the pair runs. -/
theorem kvWork_idle (hb : s.csramBad = []) (ids : List Nat) {f : State → State} (hf : f s = s) : kvWork s ids f = s := by
  cases hp : s.rst.pairA
  · rw [kvWork_clean hp hb, hf]
  · rw [kvWork, if_pos hp]

/-- A byte of CSRAM stands as uncorrectable, and its source is set (R233). -/
def Detected (s : State) (b : Nat) : Prop := b ∈ s.csramBad ∧ s.fc.fsw.getLsbD 75 = true

theorem countPoisonRead_csramBad (s : State) (a : Nat) : (countPoisonRead s a).csramBad = s.csramBad :=
  ite_keeps State.csramBad rfl (ite_keeps State.csramBad rfl (ite_keeps State.csramBad rfl rfl))

/-- A read leaves the uncorrectable bytes of CSRAM, or finds one more. -/
theorem eccRead_csramBad (s : State) (a : Nat) (ecc : Ecc) :
    (eccRead s a ecc).csramBad = s.csramBad ∨ (eccRead s a ecc).csramBad = a :: s.csramBad := by
  have hc : ∀ {t : State}, t.csramBad = s.csramBad → (countPoisonRead t a).csramBad = s.csramBad :=
    (countPoisonRead_csramBad _ a).trans
  cases ecc <;> dsimp only [eccRead]
  case asStored | timedOut => exact .inl (hc rfl)
  case linkCorrected => exact .inl (hc (ite_keeps State.csramBad rfl rfl))
  case linkRetried n => exact .inl (hc (ite_keeps State.csramBad (setSrc_csramBad _ 78) rfl))
  case corrected | uncorrectable | linkFailed => split_ifs <;> simp [bumpCe, bumpUc]

theorem Detected.eccRead {b : Nat} (h : Detected s b) (a : Nat) (ecc : Ecc) : Detected (eccRead s a ecc) b := by
  obtain ⟨hb, hs⟩ := h
  refine ⟨?_, (eccRead_bg a ecc (.refl s)).fsw 75 hs⟩
  rcases eccRead_csramBad s a ecc with e | e <;> rw [e]
  · exact hb
  · exact List.mem_cons_of_mem a hb

/-- An uncorrectable byte of CSRAM is detected as it is read. -/
theorem eccRead_detects (s : State) {b : Nat} (hc : isCsram b = true) : Detected (eccRead s b .uncorrectable) b := by
  have hr : 0x0800_0000 ≤ b ∧ b < 0x0840_0000 := by simpa [isCsram] using hc
  have hn : ¬ dramBase ≤ b := by unfold dramBase; omega
  have hd : isDram s b = false := by simp [isDram, hn]
  have hv : isCove b = false := by simp only [isCove, decide_eq_false_iff_not]; omega
  have hl : isLedge b = false := by simp only [isLedge, Bool.and_eq_false_iff, decide_eq_false_iff_not]; omega
  simp only [eccRead, hd, hv, hl, hc, Bool.false_eq_true, if_false, if_true]
  refine ⟨?_, setSrc_sets_bit _ (by decide) (by decide)⟩
  rw [setSrc_csramBad]
  dsimp only
  split
  next h => exact List.contains_iff_mem.1 h
  · exact List.mem_cons_self

theorem foldl_eccRead_detects {b : Nat} (hc : isCsram b = true) {l : List (Nat × Ecc)} (hm : (b, Ecc.uncorrectable) ∈ l)
    (s : State) :
    Detected (l.foldl (fun s x => eccRead s x.1 x.2) s) b := by
  obtain ⟨l1, l2, rfl⟩ := List.append_of_mem hm
  rw [List.foldl_append, List.foldl_cons]
  generalize l1.foldl (fun s x => eccRead s x.1 x.2) s = t
  have ht : Detected (eccRead t b .uncorrectable) b := eccRead_detects t hc
  generalize eccRead t b .uncorrectable = u at ht
  clear hm
  induction l2 generalizing u with
  | nil => exact ht
  | cons x l ih => exact ih _ (ht.eccRead x.1 x.2)

/-- A byte lies in the header of a sequence (R176). -/
def InHdr (id b : Nat) : Prop := hdrAddr id ≤ b ∧ b < hdrAddr id + 64

theorem kvByte_of_inHdr {id b : Nat} (h : InHdr id b) (s : State) : kvByte s id b = true := by
  simp [kvByte, h.1, h.2]

theorem isCsram_of_inHdr {id b : Nat} (hid : id < 64) (h : InHdr id b) : isCsram b = true := by
  obtain ⟨h1, h2⟩ := h
  unfold hdrAddr at h1 h2
  simp only [isCsram, Bool.and_eq_true, decide_eq_true_eq]
  omega

/-- An uncorrectable byte of a header, standing or new, is detected as control pair A reads the sequence (R233). -/
theorem kvRead_detects {id b : Nat} {cs : List (Nat × Ecc)} (hid : id < 64) (hb : InHdr id b)
    (h : b ∈ s.csramBad ∨ (b, Ecc.uncorrectable) ∈ cs) : Detected (kvRead s [id] cs) b := by
  refine foldl_eccRead_detects (isCsram_of_inHdr hid hb) ?_ s
  have hk := kvByte_of_inHdr hb s
  by_cases hs : b ∈ s.csramBad
  · exact List.mem_append_left _ (List.mem_map.2 ⟨b, by simp [kvBadBytes, hs, hk], rfl⟩)
  · exact List.mem_append_right _ (List.mem_filter.2 ⟨h.resolve_left hs, by simp [hk, hs]⟩)

/-- Then the pair stops and answers nothing. -/
theorem kvAnswer_dirty {id b : Nat} {cs : List (Nat × Ecc)} (hb : InHdr id b) (hd : Detected (kvRead s [id] cs) b)
    (f : State → Ans) : kvAnswer s [id] f cs = (stopPairA (kvRead s [id] cs), none) := by
  have hdirty : kvDirty (kvRead s [id] cs) [id] = true := by
    simp only [kvDirty, List.any_cons, List.any_nil, Bool.or_false, Bool.not_eq_true', List.isEmpty_eq_false_iff]
    exact List.ne_nil_of_mem (List.mem_filter.2 ⟨hd.1, kvByte_of_inHdr hb _⟩)
  simp only [kvAnswer, hdirty, if_true]

end

/-! ### Commands on sequences -/

/-- A command that sends no reply leaves what its work leaves, but for the reaction to a fatal source. -/
theorem command_unanswered {op flags : Nat} {k : Pkt} {body : State → Ans} {s s0 s1 : State}
    (h : starts s op flags k = some s0) (hb : body s0 = (s1, none)) : Follows core s1 (command op flags k body s) := by
  obtain ⟨hv, -⟩ := served_of_starts h
  rw [command_serves h]
  refine settle_core ?_ s0
  simp only [serve, hv, if_true, hb]
  refine Follows.ite ((Follows.refl s1).of_seenCore ?_) (.refl s1)
  cases k.port <;> rfl

theorem starts_csramBad {s s0 : State} {op flags : Nat} {k : Pkt} (h : starts s op flags k = some s0) :
    s0.csramBad = s.csramBad := by rw [starts_eq h]

theorem starts_kv {s s0 : State} {op flags : Nat} {k : Pkt} (h : starts s op flags k = some s0) :
    s0.kv = s.kv := by rw [starts_eq h]

theorem starts_kvHdr {s s0 : State} {op flags : Nat} {k : Pkt} (h : starts s op flags k = some s0) (id : Nat) :
    kvHdr s0 id = kvHdr s id := by rw [starts_eq h]; rfl

theorem starts_kvBadMap {s s0 : State} {op flags : Nat} {k : Pkt} (h : starts s op flags k = some s0) (w : List Word) :
    kvBadMap s0 w = kvBadMap s w := by rw [starts_eq h]; rfl

theorem starts_findRun {s s0 : State} {op flags : Nat} {k : Pkt} (h : starts s op flags k = some s0) (n : Nat) :
    findRun s0 n = findRun s n := by rw [starts_eq h]; rfl

section
variable {k : Pkt} {s : State} {id : Nat}

/-- The sequence number of a header (R176). -/
theorem seq_field {w : List Word} (hid : (wd w 0).toNat % 64 = id) : fld w 0 5 0 = id := (bits_zero _ 5).trans hid

section
variable {w : List Word} (hw : w = k.params.take 7) (hgood : kvBadWord w = none) (hid : (wd w 0).toNat % 64 = id)
  (hb : s.csramBad = [])
include hw hgood hid hb

/-- KV_MAP of a mapped sequence. -/
theorem doKvMap_mapped (hm : kvMapped (kvHdr s id) = true) : doKvMap k s = refuse s .wrongState [] := by
  simp only [doKvMap, ← hw, hgood, seq_field hid, kvAnswer_clean hb, hm, if_true]

variable (hm : kvMapped (kvHdr s id) = false) (hmap : kvBadMap s w = none)
include hm hmap

/-- KV_MAP that finds no room for its entries. -/
theorem doKvMap_full (hr : findRun s (kvE w) = none) : doKvMap k s = refuse s .noSpace [] := by
  simp only [doKvMap, ← hw, hgood, seq_field hid, kvAnswer_clean hb, hm, hmap, hr, Bool.false_eq_true, if_false]

/-- KV_MAP with its entries' run at `b`. -/
theorem doKvMap_maps {b : Nat} (hr : findRun s (kvE w) = some b) :
    doKvMap k s = (storeWords (clearMem s b (8 * kvE w)) (hdrAddr id) (w ++ [0, 0, 0, BitVec.ofNat 32 b, 0, 0, 0, 0, 1]),
      some (.ok, [])) := by
  simp only [doKvMap, ← hw, hgood, seq_field hid, kvAnswer_clean hb, hm, hmap, hr, Bool.false_eq_true, if_false]

end

/-- A sequence number in its packet word has no other bit set. -/
theorem seq_fields (hid : (wd k.params 0).toNat = id) (hlt : id < 64) : fld k.params 0 5 0 = id ∧ fld k.params 0 31 6 = 0 := by
  refine ⟨?_, (bits_top_eq_zero _ (by decide)).2 (by omega)⟩
  rw [fld, bits_zero, hid]
  exact Nat.mod_eq_of_lt hlt

theorem doKvUnmap_eq (hid : (wd k.params 0).toNat = id) (hlt : id < 64) (ecc : List (Nat × Ecc)) :
    doKvUnmap k s ecc = kvAnswer s [id] (cs := ecc) fun t =>
      if kvMapped (kvHdr s id) && kvLocked (kvHdr s id) then refuse t .busy []
      else if !kvMapped (kvHdr s id) then badWord t 2
      else (unmapSeq (finishCopies t id (eccFor ecc)) id, some (.ok, [])) := by
  obtain ⟨hlow, htop⟩ := seq_fields hid hlt
  simp [doKvUnmap, hlow, htop]

section
variable (hid : (wd k.params 0).toNat = id) (hlt : id < 64) (hb : s.csramBad = [])
  (hw : editBadWord (k.params.drop 1) 3 = none) (hm : kvMapped (kvHdr s id) = true)
include hid hlt hb hw hm

theorem doKvEdit_locked (hl : kvLocked (kvHdr s id) = true) : doKvEdit k s = refuse s .busy [] := by
  obtain ⟨hlow, htop⟩ := seq_fields hid hlt
  simp only [doKvEdit, hlow, htop, hw, kvAnswer_clean hb, hm, hl, bne_self_eq_false, Bool.and_self, Bool.false_eq_true, if_false,
    if_true]

variable (hl : kvLocked (kvHdr s id) = false)
include hl

/-- KV_EDIT whose edit at word `i` is at fault: none is applied. -/
theorem doKvEdit_fails {i : Nat} (he : editAll id (k.params.drop 1) 3 s = .error i) : doKvEdit k s = badWord s i := by
  obtain ⟨hlow, htop⟩ := seq_fields hid hlt
  simp only [doKvEdit, hlow, htop, hw, kvAnswer_clean hb, hm, hl, he, bne_self_eq_false, Bool.and_false, Bool.not_true,
    Bool.false_eq_true, if_false]

theorem doKvEdit_applies {t : State} (he : editAll id (k.params.drop 1) 3 s = .ok t) :
    doKvEdit k s = (fixPoisonPages (bumpHdr t id 7) id, some (.ok, [])) := by
  obtain ⟨hlow, htop⟩ := seq_fields hid hlt
  simp only [doKvEdit, hlow, htop, hw, kvAnswer_clean hb, hm, hl, he, bne_self_eq_false, Bool.and_false, Bool.not_true,
    Bool.false_eq_true, if_false]

end

/-- Without copies in flight there is nothing to complete. -/
theorem finishCopies_idle (hs : s.kv.spills = []) (hf : s.kv.fetches = []) (o : Nat → Ecc) : finishCopies s id o = s := by
  simp [finishCopies, hs, hf]

theorem invalidateAll_offStore (h : List Word) (g : Nat → Nat) (l : List Nat) (s : State) :
    offStore (l.foldl (fun s i => invalidate s h (g i)) s) = offStore s :=
  foldl_keeps offStore _ (fun s i => invalidate_offStore s h (g i)) l s

theorem invalidateRows_offStore (h : List Word) (g : Nat → Nat → Nat) (m l : List Nat) (s : State) :
    offStore (m.foldl (fun s n => l.foldl (fun s i => invalidate s h (g n i)) s) s) = offStore s :=
  foldl_keeps offStore _ (fun s n => invalidateAll_offStore h (g n) l s) m s

/-- Edits touch the stores and the copies in flight only. -/
theorem editOne_offStore {t : State} {c a0 a1 : Nat} (h : editOne id s c a0 a1 = some t) : offStore t = offStore s := by
  unfold editOne at h
  dsimp only at h
  split at h
  · split at h <;> cases h
    exact invalidateAll_offStore _ _ _ _
  split at h
  · split at h <;> cases h
    exact invalidateRows_offStore _ _ _ _ _
  split at h
  · split at h <;> cases h
    exact (setHdr_offStore _ _ _ _).trans ((setHdr_offStore _ _ _ _).trans (invalidateRows_offStore _ _ _ _ _))
  split at h
  · cases h
    exact (setHdr_offStore _ _ _ _).trans ((setHdr_offStore _ _ _ _).trans (invalidateAll_offStore _ _ _ _))
  split at h
  · simp only [Option.ite_none_left_eq_some, Option.some.injEq] at h
    obtain ⟨-, rfl⟩ := h
    exact setHdr_offStore _ _ _ _
  · cases h

theorem editAll_offStore {rs : List Word} {i : Nat} {t : State} (h : editAll id rs i s = .ok t) : offStore t = offStore s := by
  fun_induction editAll id rs i s with
  | case1 s c a r i s' he ih => exact (ih h).trans (editOne_offStore he)
  | case2 => cases h
  | case3 => cases h; rfl

end

/-! ### Walks and copies -/

/-- A walk to be granted waits at its sequence. -/
theorem seqId_of_grantable {s : State} {id : Nat} {w : Walk} (h : grantable s id = some w) : w.seqId = id := by
  unfold grantable at h
  split at h
  · cases h
  rename_i v hv
  have hid : v.seqId = id := by
    have := List.find?_some hv
    simp only [Bool.and_eq_true, beq_iff_eq] at this
    exact this.1
  dsimp only at h
  split_ifs at h <;> cases h <;> exact hid

/-- The state in which a walk's `k`-th request holds its lock: shared by readers, alone for an APPEND (R195). -/
def lockTaken (s : State) (w : Walk) (k : Nat) : State :=
  let s1 := setHdr s w.seqId 8 (kvWord8 (kvHead (kvHdr s w.seqId))
    (kvLockCount (kvHdr s w.seqId) + b2n (!w.append)) true w.append)
  { s1 with kv := { s1.kv with walks := modAt s1.kv.walks k (fun x => { x with granted := true }) } }

section
variable {s : State} {id : Nat}

theorem grantWalk_eq {k : Nat} {w : Walk} {a : Attempt} {j : Job} {i : Item} (ha : (engOf s w.e).arr = some a)
    (hj : jobOf s a.token = some j) (hi : j.items[a.item]? = some i)
    (hk : s.kv.walks.findIdx? (fun x => x.seqId == w.seqId && !x.granted) = some k) (o : Nat → Ecc) :
    grantWalk s w o = if attBad s i.desc then killJob s a.token .killedUpstream 26 else startWalk (lockTaken s w k) w.e o := by
  have hk' : (setHdr s w.seqId 8 (kvWord8 (kvHead (kvHdr s w.seqId))
      (kvLockCount (kvHdr s w.seqId) + b2n (!w.append)) true w.append)).kv.walks.findIdx?
        (fun x => x.seqId == w.seqId && !x.granted) = some k := hk
  simp only [grantWalk, ha, itemOf_eq hj hi, hk']
  cases attBad s i.desc <;> rfl

theorem exec_walkLockGrant {w : Walk} (hw : grantable s id = some w) (hp : s.rst.pairA = false) (hb : s.csramBad = []) :
    exec (.walkLockGrant id) s = .next (settleUnits s (grantWalk s w asIs)) := by
  have hex : exec (.walkLockGrant id) s = execWalkLockGrant id s := rfl
  rw [hex, execWalkLockGrant, hw]
  dsimp only
  rw [kvWork_clean hp hb]
  rfl

theorem exec_pageFetchDone {e : Nat} (ecc : List Ecc) (hm : (id, e) ∈ s.kv.fetches) (hp : s.rst.pairA = false)
    (hb : s.csramBad = []) : exec (.pageFetchDone id e ecc) s = .next (settle s (fetchDone s id e ecc)) := by
  have hex : exec (.pageFetchDone id e ecc) s = execPageFetchDone id e s ecc := rfl
  rw [hex, execPageFetchDone, kvWork_clean hp hb, if_pos (List.contains_iff_mem.2 hm)]

theorem exec_pageSpillDone {e : Nat} (ecc : List Ecc) (hm : (id, e) ∈ s.kv.spills) (hp : s.rst.pairA = false)
    (hb : s.csramBad = []) : exec (.pageSpillDone id e ecc) s = .next (settle s (spillDone s id e ecc)) := by
  have hex : exec (.pageSpillDone id e ecc) s = execPageSpillDone id e s ecc := rfl
  rw [hex, execPageSpillDone, kvWork_clean hp hb, if_pos (List.contains_iff_mem.2 hm)]

/-- The end of a copy that is not in flight does nothing, whether or not control pair A runs. -/
theorem exec_pageFetchDone_idle {e : Nat} (ecc : List Ecc) (hm : (id, e) ∉ s.kv.fetches) (hb : s.csramBad = []) :
    exec (.pageFetchDone id e ecc) s = .next s := by
  have hex : exec (.pageFetchDone id e ecc) s = execPageFetchDone id e s ecc := rfl
  have hno : s.kv.fetches.contains (id, e) = false := by simpa using hm
  rw [hex, execPageFetchDone, kvWork_idle hb _ (by simp only [hno, Bool.false_eq_true, if_false]), settle_same rfl]

theorem exec_pageSpillDone_idle {e : Nat} (ecc : List Ecc) (hm : (id, e) ∉ s.kv.spills) (hb : s.csramBad = []) :
    exec (.pageSpillDone id e ecc) s = .next s := by
  have hex : exec (.pageSpillDone id e ecc) s = execPageSpillDone id e s ecc := rfl
  have hno : s.kv.spills.contains (id, e) = false := by simpa using hm
  rw [hex, execPageSpillDone, kvWork_idle hb _ (by simp only [hno, Bool.false_eq_true, if_false]), settle_same rfl]

end

/-- Settles O37: a grant by what the task names (`grantWalk_eq`), a copy by whether it is in flight. -/
theorem walksAndPages : Obligations.WalksAndPages := by
  refine ⟨fun s id k w a j i hw hp hb ha hj hi hk => ?_, ?_, ?_,
    fun s id e ecc hb => ⟨fun hm => exec_pageFetchDone_idle ecc hm hb, fun hm => exec_pageSpillDone_idle ecc hm hb⟩⟩
  · obtain rfl := seqId_of_grantable hw
    rw [exec_walkLockGrant hw hp hb, grantWalk_eq ha hj hi hk]
    refine ⟨fun hbad hroom => ?_, ?_⟩
    · rw [if_pos hbad]
      exact ⟨_, rfl, (settleUnits_core (.refl _) s).jobOf_none (jobOf_killJob hroom)⟩
    · rintro hgood s1 rfl
      rw [if_neg (by simp [hgood])]
      rfl
  · rintro s id e h x ecc hm rfl rfl hst hp hb s1 rfl
    rw [exec_pageFetchDone ecc hm hp hb, fetchDone]
    dsimp only
    rw [if_pos hst]
  · rintro s id e h x ecc hm rfl rfl hst hp hb s1 rfl
    rw [exec_pageSpillDone ecc hm hp hb, spillDone]
    dsimp only
    rw [if_pos hst]
    simp only [Bool.or_eq_true, List.contains_iff_mem]

/-- Settles O36. While CSRAM is good each command answers by its checks in their order, and what it changes sets no source
(`editAll_offStore` for the edits); a KV_UNMAP that finds its header bad stops control pair A (`kvAnswer_dirty`). -/
theorem kvCommands : Obligations.KvCommands := by
  refine ⟨?_, ?_, ?_, ?_⟩
  · intro k s s0 w id h hw hid
    have hex : exec (.kvMap k) s = .next (command 0x30 0 k (fun s => doKvMap k s) s) := rfl
    rw [hex, ← starts_csramBad h, ← starts_kvHdr h, ← starts_kvBadMap h, ← starts_findRun h]
    refine ⟨fun i hbad => congrArg _ (command_refuses h ?_), fun hb hgood hm => congrArg _ (command_refuses h ?_),
      fun hb hgood hm hmap => ⟨fun hr => congrArg _ (command_refuses h ?_), fun b hr => congrArg _ (command_starts h ?_ rfl)⟩⟩
    · simp only [doKvMap, ← hw, hbad]
      rfl
    · exact doKvMap_mapped hw hgood hid.symm hb hm
    · exact doKvMap_full hw hgood hid.symm hb hm hmap hr
    · exact doKvMap_maps hw hgood hid.symm hb hm hmap hr
  · rintro k s s0 id ecc h hid hlt hbad
    have hex : exec (.kvUnmap k ecc) s = .next (command 0x31 0 k (fun s => doKvUnmap k s ecc) s) := rfl
    obtain ⟨b, hb, hin⟩ : ∃ b, InHdr id b ∧ (b ∈ s0.csramBad ∨ (b, Ecc.uncorrectable) ∈ ecc) := by
      rcases hbad with ⟨b, hb, hin⟩ | ⟨⟨b, o⟩, hx, rfl, hin⟩
      · exact ⟨b, hin, .inl (starts_csramBad h ▸ hb)⟩
      · exact ⟨b, hin, .inr hx⟩
    have hd := kvRead_detects hlt hb hin
    have hF := command_unanswered (body := fun s => doKvUnmap k s ecc) h ((doKvUnmap_eq hid hlt ecc).trans (kvAnswer_dirty hb hd _))
    have hpair := hF.keep
    simp only [core, Prod.mk.injEq] at hpair
    exact ⟨_, hex, hpair.1.trans (stopPairA_pairA _), hF.fsw 75 (setSrc_mono _ 88 hd.2)⟩
  · intro k s s0 id h hid hlt hb
    have hex : exec (.kvUnmap k) s = .next (command 0x31 0 k (fun s => doKvUnmap k s) s) := rfl
    rw [← starts_csramBad h] at hb
    have hbody := (doKvUnmap_eq hid hlt []).trans (kvAnswer_clean hb _ _)
    rw [hex, ← starts_kvHdr h]
    refine ⟨fun hm hl => congrArg _ (command_refuses h (hbody.trans ?_)),
      fun hm => congrArg _ (command_refuses h (hbody.trans ?_)),
      fun hm hl hs hf => congrArg _ (command_starts h (hbody.trans ?_) rfl)⟩
    · rw [if_pos (by simp [hm, hl])]
    · rw [if_neg (by simp [hm]), if_pos (by simp [hm])]
      rfl
    · rw [← starts_kv h] at hs hf
      rw [if_neg (by simp [hl]), if_neg (by simp [hm]), finishCopies_idle hs hf, unmapSeq, if_pos hm]
  · intro k s s0 id h hid hlt hb hw
    have hex : exec (.kvEdit k) s = .next (command 0x32 0 k (fun s => doKvEdit k s) s) := rfl
    rw [← starts_csramBad h] at hb
    rw [hex, ← starts_kvHdr h]
    refine ⟨fun hm hl => congrArg _ (command_refuses h (doKvEdit_locked hid hlt hb hw hm hl)), fun hm hl =>
      ⟨fun i he => congrArg _ (command_refuses h (doKvEdit_fails hid hlt hb hw hm hl he)),
        fun s1 he => congrArg _ (command_starts h (doKvEdit_applies hid hlt hb hw hm hl he) ?_)⟩⟩
    have hoff : (offStore s1).fc.fsw = (offStore s0).fc.fsw := by rw [editAll_offStore he]
    exact hoff

end Sys2Proof.Proofs
end

section
/-! PROOFS. What the ends of jobs and the reaction to a fatal source (R34, R410) leave of the boot state, the requests of the
fabric (R216), the scrub passes (R237) and the sensor front (R277), and that neither revives a token (R464). -/

namespace Sys2Proof.Proofs

open Sys2Proof Sys2Proof.Machine Sys2Proof.Laws

/-! ### The relation -/

/-- The boot state, the requests, their count of time-outs and the scrub passes. -/
def plant (s : State) := (s.boot, s.ms.reqs, s.ms.nextReq, s.ms.timeouts, s.ms.scrubs)

/-- With them what the ends of jobs leave and the reaction to a fatal source does not: the streams of the sensor front. -/
def front (s : State) := (plant s, s.sens.streams)

/-- `t` comes of `s` by ends of jobs: the front stands as it was, and each token that is live was so. -/
structure Ends (s t : State) : Prop where
  front : front t = front s
  live : ∀ k ∈ t.cmd.tokens, k.live = true → ∃ l ∈ s.cmd.tokens, l.token = k.token ∧ l.live = true

section
variable {z s t : State}

theorem Ends.refl (s : State) : Ends s s := ⟨rfl, fun k hk hl => ⟨k, hk, rfl, hl⟩⟩

theorem Ends.trans (h : Ends z s) (g : Ends s t) : Ends z t where
  front := g.front.trans h.front
  live k hk hl := by
    obtain ⟨l, hls, hlt, hll⟩ := g.live k hk hl
    obtain ⟨m, hm, hmt, hml⟩ := h.live l hls hll
    exact ⟨m, hm, hmt.trans hlt, hml⟩

theorem Ends.foldl {β : Type} {f : State → β → State} (hf : ∀ s x, Ends z s → Ends z (f s x)) (l : List β)
    (h : Ends z s) : Ends z (l.foldl f s) := by
  induction l generalizing s with
  | nil => exact h
  | cons x r ih => exact ih (hf s x h)

theorem Ends.ite {c : Prop} [Decidable c] (hs : Ends z s) (ht : Ends z t) : Ends z (if c then s else t) := by
  split
  · exact hs
  · exact ht

/-- The front and the tokens. -/
def frontToks (s : State) := (Proofs.front s, s.cmd.tokens)

theorem Ends.of_view (h : Ends z s) (e : frontToks t = frontToks s) : Ends z t := by
  simp only [frontToks, Prod.mk.injEq] at e
  exact h.trans ⟨e.1, fun k hk hl => ⟨k, e.2 ▸ hk, rfl, hl⟩⟩

theorem Ends.of_offStore (h : Ends z s) (e : offStore t = offStore s) : Ends z t :=
  h.of_view (show frontToks (offStore t) = frontToks (offStore s) by rw [e])

end

/-! ### Sources, credits and records -/

section
variable (s : State)

theorem frontToks_setSrc (n : Nat) : frontToks (setSrc s n) = frontToks s := by
  unfold setSrc
  split <;> rfl

theorem frontToks_giveOne (src : Nat) (k : PoolKind) (i : Nat) (ep : Bool) : frontToks (giveOne s src k i ep) = frontToks s :=
  ite_keeps frontToks rfl (frontToks_setSrc _ 82)

theorem frontToks_closeXfer (x : Xfer) : frontToks (closeXfer s x) = frontToks s :=
  ite_keeps frontToks (frontToks_giveOne _ _ _ _ _) rfl

theorem frontToks_modXfer (id : Nat) (f : Xfer → Xfer) : frontToks (modXfer s id f) = frontToks s := rfl

theorem frontToks_trimIf (p : Xfer → Bool) : frontToks (trimIf s p) = frontToks s :=
  foldl_keeps frontToks _ (fun s x => ite_keeps frontToks rfl
    (ite_keeps frontToks (frontToks_closeXfer s x) (frontToks_modXfer s _ _))) _ _

theorem frontToks_writeFb (j : Job) (l : LayerCnt) (o : Nat) : frontToks (writeFb s j l o) = frontToks s := by
  simp only [frontToks, front, plant, writeFb, storeWords, store]

theorem frontToks_collectOne (inp : Nat) : frontToks (collectOne s inp) = frontToks s := by
  unfold collectOne
  split
  · rfl
  · refine ite_keeps frontToks rfl (ite_keeps frontToks ?_ ((frontToks_setSrc _ 82).trans ?_)) <;>
      simp only [frontToks, front, plant, storeWords, store]

theorem frontToks_pushRec (inp : Nat) (r : CRec) : frontToks (pushRec s inp r) = frontToks s :=
  (show _ = frontToks (if 2 ≤ skidCount s inp then collectOne s inp else s) from rfl).trans
    (ite_keeps frontToks (frontToks_collectOne s inp) rfl)

theorem frontToks_waitEnd (w : EndWait) : frontToks (waitEnd s w) = frontToks s := ite_keeps frontToks rfl rfl

theorem frontToks_skipEntry (i : Nat) (o : JobEnd) : frontToks (skipEntry s i o) = frontToks s :=
  ite_keeps frontToks (frontToks_waitEnd s _) (frontToks_pushRec _ _ _)

theorem frontToks_holdStream (x : Xfer) : frontToks (holdStream s x) = frontToks s := by
  simp only [holdStream]
  split <;> rfl

theorem frontToks_releaseWalks (t : Word) : frontToks (releaseWalks s t) = frontToks s :=
  foldl_keeps frontToks _ (fun s e => by
    split
    · refine ite_keeps frontToks ?_ rfl
      show frontToks (offStore _) = frontToks (offStore s)
      rw [releaseWalk_offStore]
    · rfl) _ _

end

/-! ### Ends of jobs -/

theorem mem_of_mem_trimToks {l : List TokRec} {k : TokRec} (h : k ∈ trimToks l) : k ∈ l := by
  rcases List.mem_append.1 h with h | h
  · exact List.mem_of_mem_take h
  · exact List.mem_of_mem_drop (List.mem_of_mem_filter h)

section
variable {z s : State}

/-- The final result of a token makes it live no more, and no other live. -/
theorem finishTok_ends (t : Word) (st : Status) (pl : List Word) (h : Ends z s) : Ends z (finishTok s t st pl) := by
  refine h.trans ⟨rfl, fun k hk hl => ?_⟩
  obtain ⟨l, hls, rfl⟩ := List.mem_map.1 (mem_of_mem_trimToks hk)
  refine ⟨l, hls, ?_⟩
  split at hl
  · cases hl
  · next hn => exact ⟨by rw [if_neg hn], hl⟩

theorem setTokCode_ends (t : Word) (c : Nat) (h : Ends z s) : Ends z (setTokCode s t c) := by
  refine h.trans ⟨rfl, fun k hk hl => ?_⟩
  obtain ⟨l, hls, rfl⟩ := List.mem_map.1 hk
  refine ⟨l, hls, ?_⟩
  split at hl
  · next hp => rw [if_pos hp]; exact ⟨rfl, hl⟩
  · next hn => rw [if_neg hn]; exact ⟨rfl, hl⟩

theorem endJob_ends (t : Word) (o : JobEnd) (inp : Nat) (h : Ends z s) : Ends z (endJob s t o inp) := by
  unfold endJob
  refine .ite (h.of_view (frontToks_waitEnd s _)) ?_
  split
  · exact h
  · rename_i j hj
    dsimp only
    generalize hu : trimXfers _ t = u
    have h1 : Ends z u := by
      rw [← hu]
      refine h.of_view ((frontToks_trimIf _ _).trans ?_)
      exact foldl_keeps frontToks _ (fun s l => frontToks_writeFb s j l 2) _ s
    refine Ends.of_view ?_ ((frontToks_pushRec _ _ _).trans (frontToks_releaseWalks _ _))
    refine setTokCode_ends _ _ ?_
    cases j.origin <;> dsimp only
    case tide => exact h1.of_view rfl
    case runJob => exact finishTok_ends _ _ _ (h1.of_view rfl)
    case replay => exact finishTok_ends _ _ _ (h1.of_view rfl)

theorem cascade_ends (n : Nat) (h : Ends z s) : Ends z (cascade n s) := by
  induction n generalizing s with
  | zero => exact h
  | succ n ih =>
    unfold cascade
    split
    · exact ih (endJob_ends _ _ _ h)
    · split
      · exact ih (h.of_view (frontToks_skipEntry s _ _))
      · exact h

theorem cascadeAll_ends (h : Ends z s) : Ends z (cascadeAll s) := .ite h (cascade_ends _ h)

theorem killJob_ends (t : Word) (o : JobEnd) (inp : Nat) (h : Ends z s) : Ends z (killJob s t o inp) :=
  cascadeAll_ends (endJob_ends t o inp h)

theorem killJobs_ends (ts : List Word) (o : JobEnd) (inp : Nat) (h : Ends z s) : Ends z (killJobs s ts o inp) :=
  cascadeAll_ends (h.foldl (fun _ t => endJob_ends t o inp) ts)

theorem tryDone_ends (t : Word) (inp : Nat) (h : Ends z s) : Ends z (tryDone s t inp) := by
  unfold tryDone
  split
  · exact h
  · exact .ite (endJob_ends t _ inp h) h

end

/-! ### The reaction to a fatal source -/

/-- The ends of jobs with which a fatal source is answered. -/
theorem faAnswered_ends (s : State) : Ends s (faAnswered s) := by
  have hg : ∀ u : State, frontToks (guiltFatal u) = frontToks u := fun u => by unfold guiltFatal; split <;> rfl
  have hc : ∀ u : State, frontToks (cancelSwap u) = frontToks u := fun u => ite_keeps frontToks rfl rfl
  have hv : ∀ u : State, frontToks (faVerdict u) = frontToks u := fun u =>
    ite_keeps frontToks (by simp only [frontToks, front, plant, writeVerdict, storeWords, store]) rfl
  have hs : Ends s (faStopped s) :=
    (Ends.refl s).of_view ((hc _).trans ((hg (withdraw s 4)).trans (ite_keeps frontToks rfl rfl)))
  exact (killJobs_ends _ _ _ hs).of_view (hv _)

theorem plant_faHalt (s : State) : plant (faHalt s) = plant s := ite_keeps plant rfl rfl

theorem faHalt_tokens (s : State) : (faHalt s).cmd.tokens = s.cmd.tokens := ite_keeps (fun s : State => s.cmd.tokens) rfl rfl

/-- A stream that receives no frame receives none after the halt. -/
theorem faHalt_cur {s : State} {i : Nat} (h : (streamOf s i).cur = none) : (streamOf (faHalt s) i).cur = none := by
  unfold faHalt
  split
  · unfold streamOf disarm clearRun
    simp only [List.getD_eq_getElem?_getD, List.getElem?_map]
    cases s.sens.streams[i]? <;> rfl
  · exact h

/-- What a meaning's end leaves, whether or not it answers a fatal source. -/
theorem settle_plant (s t : State) : plant (settle s t) = plant t
    ∧ (∀ i, (streamOf t i).cur = none → (streamOf (settle s t) i).cur = none)
    ∧ ∀ k ∈ (settle s t).cmd.tokens, k.live = true → ∃ l ∈ t.cmd.tokens, l.token = k.token ∧ l.live = true := by
  obtain e | e := settle_cases s t
  · rw [e]
    exact ⟨rfl, fun _ h => h, (Ends.refl t).live⟩
  · obtain ⟨hf, hl⟩ := faAnswered_ends t
    simp only [front, Prod.mk.injEq] at hf
    obtain ⟨hp, hst⟩ := hf
    rw [e, faReact_eq_faHalt, plant_faHalt, faHalt_tokens]
    exact ⟨hp, fun i hi => faHalt_cur (by rw [streamOf, hst]; exact hi), hl⟩

theorem settle_boot (s t : State) : (settle s t).boot = t.boot := by
  have h := (settle_plant s t).1
  simp only [plant, Prod.mk.injEq] at h
  exact h.1

/-! ### Sources that are not fatal -/

/-- No fatal source is set in `t` that was not in `s`. -/
def Harmless (s t : State) : Prop :=
  ∀ i < 128, t.fc.fsw.getLsbD i = true → maskFA.getLsbD i = true → s.fc.fsw.getLsbD i = true

section
variable {s t u : State}

theorem Harmless.of_fsw (h : t.fc.fsw = s.fc.fsw) : Harmless s t := fun _ _ ht _ => h ▸ ht

theorem Harmless.congr (h : Harmless s t) (e : u.fc.fsw = t.fc.fsw) : Harmless s u := fun i hi hu => h i hi (e ▸ hu)

/-- Where none has set, none is answered (R410). -/
theorem Harmless.settle (h : Harmless s t) : settle s t = t := settle_of h

theorem Harmless.setSrc (h : Harmless s t) {n : Nat} (hn : n < 128) (hf : srcFA n = false) : Harmless s (setSrc t n) := by
  intro i hi ht hm
  rw [setSrc_fsw] at ht
  split at ht
  · exact h i hi ht hm
  · rw [BitVec.getLsbD_or, getLsbD_srcBit hn, Bool.or_eq_true, beq_iff_eq] at ht
    rcases ht with ht | rfl
    · exact h i hi ht hm
    · rw [getLsbD_maskFA i hi, hf] at hm
      cases hm

end

/-! ### What a decoder finds -/

/-- A state apart from what a read of a store may count, poison and set (R225, R226, R229). -/
def uncounted (s : State) : State :=
  { s with
    poison := [], csramBad := [], eng := [], fc := {}, cmd := {}
    ms := { s.ms with eccCe := 0, eccUc := 0, linkCorr := 0, linkRetry := 0, chUc := 0, markRead := 0, markWrite := 0
                      coveCe := 0, coveUc := 0, csCe := 0, csUc := 0, secRead := 0 } }

theorem eccRead_uncounted (s : State) (a : Nat) (ecc : Ecc) : uncounted (eccRead s a ecc) = uncounted s := by
  have hs : ∀ (u : State) (n : Nat), uncounted (setSrc u n) = uncounted u := fun u n => by
    unfold setSrc
    split <;> rfl
  have hp : ∀ (u : State) (v : Nat), uncounted (addPoison u v) = uncounted u := fun u v => ite_keeps uncounted rfl rfl
  have hc : ∀ u : State, uncounted (countPoisonRead u a) = uncounted u := fun u =>
    ite_keeps uncounted rfl (ite_keeps uncounted rfl (ite_keeps uncounted rfl rfl))
  unfold eccRead
  cases ecc <;> dsimp only
  case asStored | timedOut => exact hc s
  case corrected =>
    refine ite_keeps _ ((hs _ _).trans ?_) (ite_keeps _ ((hs _ _).trans ?_) (ite_keeps _ ((hs _ _).trans ?_)
      (ite_keeps _ ((hs _ _).trans ?_) rfl))) <;> rfl
  case uncorrectable =>
    refine ite_keeps _ ((hs _ _).trans ((hp _ _).trans ?_)) (ite_keeps _ ((hs _ _).trans ((hp _ _).trans ?_))
      (ite_keeps _ ((hs _ _).trans ((hp _ _).trans ?_)) (ite_keeps _ ((hs _ _).trans ?_) rfl))) <;> rfl
  case linkCorrected => exact (hc _).trans (ite_keeps _ rfl rfl)
  case linkRetried n => exact (hc _).trans (ite_keeps _ ((hs _ _).trans rfl) rfl)
  case linkFailed => exact ite_keeps _ ((hs _ _).trans ((hs _ _).trans rfl)) rfl

theorem readUnits_uncounted (s : State) (a n : Nat) (o : Nat → Ecc) : uncounted (readUnits s a n o) = uncounted s :=
  foldl_keeps uncounted _ (fun s u => eccRead_uncounted s u _) _ _

theorem settle_fsw (s0 s : State) {i : Nat} (h : s.fc.fsw.getLsbD i = true) : (settle s0 s).fc.fsw.getLsbD i = true :=
  (settle_core (.refl s) s0).fsw i h

end Sys2Proof.Proofs
end

section
/-! PROOFS. Power-up (R228, R236, R387, R388, R491, R503, R508, R519 to R521, R525). -/

namespace Sys2Proof.Proofs

open Sys2Proof Sys2Proof.Machine Sys2Proof.Laws

/-! ### Rails, RESET_N and the fuses -/

/-- Only the UDS and the draws of the DRBG differ once a UDS is made where one is due. -/
theorem makeUds_eq (s : State) : ∃ u f, makeUds s = { s with sec := { s.sec with uds := u }, free := f }
    ∧ (s.sec.lifecycle = .manufacture → s.sec.uds = none → u.isSome = true)
    ∧ ((s.sec.lifecycle ≠ .manufacture ∨ s.sec.uds ≠ none) → u = s.sec.uds) := by
  unfold makeUds
  split
  · next h =>
    simp only [Bool.and_eq_true, beq_iff_eq, Option.isNone_iff_eq_none] at h
    exact ⟨_, _, rfl, fun _ _ => rfl, fun hn => by rcases hn with hn | hn <;> exact absurd (by tauto) hn⟩
  · next h =>
    simp only [Bool.and_eq_true, beq_iff_eq, Option.isNone_iff_eq_none, not_and] at h
    exact ⟨s.sec.uds, s.free, rfl, fun hl hu => absurd hu (h hl), fun _ => rfl⟩

theorem exec_powerOn_off {s : State} (h : s.boot = .off) : exec .powerOn s = .next (makeUds (coldState s .held false)) := by
  have hex : exec .powerOn s = execPowerOn s := rfl
  rw [hex, execPowerOn, if_pos (by simp [h])]

theorem fusesCut_idle {s : State} (h : s.sec.fuse = none) : fusesCut s = s := by
  unfold fusesCut
  rw [h]

/-- A reset of the whole device is cold but for the thermal latch and its source. -/
theorem resetAll_eq {s : State} (h : s.sec.fuse = none) (keep : Bool) :
    ∃ f, resetAll s keep = { coldState s .held keep with fc := f } := by
  unfold resetAll
  rw [fusesCut_idle h]
  dsimp only
  split
  · exact ⟨_, rfl⟩
  · exact ⟨_, rfl⟩

theorem genOf_ne_zero (w : Word) : genOf w ≠ 0 := by
  unfold genOf
  split
  · decide
  · assumption

/-! ### Start-up injection -/

/-- The mask of the places below `n` that `p` names. -/
def places (p : Nat → Bool) (n : Nat) : Nat := (List.range n).foldl (fun a i => if p i then a + 2 ^ i else a) 0

section
variable (p : Nat → Bool) (n : Nat)

theorem places_succ : places p (n + 1) = if p n then places p n + 2 ^ n else places p n := by
  rw [places, List.range_succ, List.foldl_append]
  rfl

theorem places_lt : places p n < 2 ^ n := by
  induction n with
  | zero => exact Nat.one_pos
  | succ n ih =>
    rw [places_succ, Nat.pow_succ]
    split <;> omega

theorem testBit_places (i : Nat) : (places p n).testBit i = (decide (i < n) && p i) := by
  induction n with
  | zero => simp [places]
  | succ n ih =>
    have hlt := places_lt p n
    rw [places_succ]
    generalize places p n = m at ih hlt ⊢
    by_cases hi : i = n
    · subst hi
      have hm : m.testBit i = false := Nat.testBit_lt_two_pow hlt
      split
      · next hp => rw [Nat.add_comm, Nat.testBit_two_pow_add_eq, hm]; simp [hp]
      · next hp => simp [hm, hp]
    · have hs : decide (i < n + 1) = decide (i < n) := by
        rw [decide_eq_decide]
        omega
      rw [hs, ← ih]
      split
      · have hor := Nat.two_pow_add_eq_or_of_lt hlt 1
        rw [Nat.mul_one] at hor
        rw [Nat.add_comm, hor, Nat.testBit_or, Nat.testBit_two_pow_of_ne (Ne.symm hi), Bool.false_or]
      · rfl

/-- The mask is 0 where no place is named. -/
theorem places_ne_zero : places p n ≠ 0 ↔ ∃ i < n, p i = true := by
  constructor
  · intro h
    obtain ⟨i, hi⟩ := Nat.exists_testBit_of_ne_zero h
    rw [testBit_places, Bool.and_eq_true, decide_eq_true_eq] at hi
    exact ⟨i, hi⟩
  · rintro ⟨i, hi, hp⟩ h0
    have hb := testBit_places p n i
    rw [h0, hp] at hb
    simp [hi] at hb

end

/-- No level source is fatal (R412, R414). -/
theorem harmless_levelSources {s t : State} (h : Harmless s t) : Harmless s (levelSources t) := by
  have hstep : ∀ (l : List Nat) (u : State), (∀ n ∈ l, n < 128 ∧ srcFA n = false) → Harmless s u →
      Harmless s (l.foldl (fun s n => if levelCond s n then setSrc s n else s) u) := by
    intro l
    induction l with
    | nil => exact fun u _ hu => hu
    | cons n l ih =>
      intro u hl hu
      obtain ⟨hn, hf⟩ := hl n List.mem_cons_self
      refine ih _ (fun m hm => hl m (List.mem_cons_of_mem _ hm)) ?_
      dsimp only
      split
      · exact hu.setSrc hn hf
      · exact hu
  unfold levelSources
  split
  · exact hstep _ t (by decide) h
  · exact h

/-- STARTUP_INJECTION_DONE before its sources: the checkers that failed, and the engines quarantined. -/
def injected (s : State) (failed bad : List Nat) : State :=
  { s with
    boot := .rom
    saf := { s.saf with injDone := true, injFail := decide (places failed.contains 17 ≠ 0)
                        injMask := BitVec.ofNat 17 (places failed.contains 17) }
    eng := s.eng.zipIdx.map (fun x => { x.1 with quar := x.1.quar || bad.contains x.2 }) }

/-- What of a state start-up injection is said to leave. -/
def injView (s : State) := (s.boot, s.saf, s.eng)

theorem injView_levelSources (s : State) : injView (levelSources s) = injView s :=
  levelSources_keeps_view injView (fun s n => by unfold setSrc; split <;> rfl) s

theorem injView_msix (s : State) (v : Nat) : injView (msix s v) = injView s :=
  ite_keeps injView rfl (ite_keeps injView rfl (ite_keeps injView rfl rfl))

theorem exec_startupInjectionDone {s : State} (hb : s.boot = .injecting) (hh : halted s = false) (failed bad : List Nat) :
    ∃ t, exec (.startupInjectionDone failed bad) s = .next t ∧ injView t = injView (injected s failed bad) := by
  have hs1 : settle s (levelSources (injected s failed bad)) = levelSources (injected s failed bad) :=
    (harmless_levelSources (Harmless.of_fsw rfl)).settle
  have hex : exec (.startupInjectionDone failed bad) s = .next (
      if s.boot == .injecting && ready (settle s (levelSources (injected s failed bad))) .H
      then msix (settle s (levelSources (injected s failed bad))) 1
      else settle s (levelSources (injected s failed bad))) := by
    have he : exec (.startupInjectionDone failed bad) s = execStartupInjectionDone failed bad s := rfl
    rw [he, execStartupInjectionDone, if_neg (by simp [hb, hh])]
    simp only [hb, beq_self_eq_true, if_true]
    rfl
  refine ⟨_, hex, ?_⟩
  rw [hs1]
  exact ite_keeps injView ((injView_msix _ _).trans (injView_levelSources _)) (injView_levelSources _)

/-- Settles O45: power and RESET_N by the cold state that they leave, training and the release of reset by the source that
their failure sets, which the reaction to a fatal source keeps; start-up injection by `exec_startupInjectionDone`. -/
theorem powerUp : Obligations.PowerUp := by
  refine ⟨fun s h => ?_, fun s h => ?_, fun s h => ?_, fun s h => ?_, fun s ns h => ?_, fun s ns hn hb hf => ?_,
    fun s hb ht => ⟨?_, ?_⟩, fun s hb hh => ⟨?_, fun c r => ?_⟩, fun s hb hh => ?_, fun s failed bad hb hh => ?_⟩
  · obtain ⟨u, f, hu, -⟩ := makeUds_eq (coldState s .held false)
    refine ⟨_, exec_powerOn_off h, ?_⟩
    rw [hu]
    exact ⟨rfl, rfl, rfl, rfl, rfl, rfl, rfl, rfl, rfl, rfl, rfl⟩
  · obtain ⟨u, f, hu, hmake, hkeep⟩ := makeUds_eq (coldState s .held false)
    refine ⟨_, exec_powerOn_off h, ?_⟩
    rw [hu]
    exact ⟨hmake, hkeep⟩
  · have hex : exec .powerOn s = execPowerOn s := rfl
    rw [hex, execPowerOn, if_neg (by simpa using h)]
  · have hex : exec .powerLoss s = .next (coldState (fusesCut s) .off false) := rfl
    rw [hex, fusesCut_idle h]
    exact ⟨_, rfl, rfl, rfl, rfl, rfl, rfl, rfl, rfl, rfl, rfl⟩
  · have hex : exec (.resetNPulse ns) s = execResetNPulse ns s := rfl
    have h1 : ¬ 1000 ≤ ns := by omega
    have h2 : ¬ 10000 ≤ ns := by omega
    simp [hex, execResetNPulse, h1, h2]
  · have hex : exec (.resetNPulse ns) s = .next (resetAll s true) := by
      have he : exec (.resetNPulse ns) s = execResetNPulse ns s := rfl
      have h1 : ¬ ns < 10000 := by omega
      simp [he, execResetNPulse, hn, h1, hb]
    obtain ⟨f, hr⟩ := resetAll_eq hf true
    rw [hex, hr]
    exact ⟨_, rfl, rfl, rfl, rfl, rfl, rfl⟩
  · have hex : exec (.resetRelease true) s = execResetRelease true s := rfl
    rw [hex, execResetRelease, if_neg (by simp [hb, ht])]
    exact ⟨_, rfl, rfl, genOf_ne_zero _⟩
  · have hex : exec (.resetRelease false) s = execResetRelease false s := rfl
    rw [hex, execResetRelease, if_neg (by simp [hb, ht])]
    exact ⟨_, rfl, (settle_boot _ _).trans (setSrc_boot _ _),
      settle_fsw _ _ (setSrc_sets_bit _ (by decide) (by decide))⟩
  · have hex : exec (.dramTrainingDone []) s = execDramTrainingDone [] s := rfl
    rw [hex, execDramTrainingDone, if_neg (by simp [hb, hh])]
    rfl
  · have hex : exec (.dramTrainingDone (c :: r)) s = execDramTrainingDone (c :: r) s := rfl
    rw [hex, execDramTrainingDone, if_neg (by simp [hb, hh]), if_neg (by simp)]
    exact ⟨_, rfl, (settle_boot _ _).trans (setSrc_boot _ _),
      settle_fsw _ _ (setSrc_sets_bit _ (by decide) (by decide))⟩
  · have hex : exec .memoryFillDone s = execMemoryFillDone s := rfl
    rw [hex, execMemoryFillDone, if_neg (by simp [hb, hh])]
    exact ⟨_, rfl, rfl, fun a => rfl, rfl, rfl, rfl, rfl, rfl, rfl⟩
  · obtain ⟨t, hex, hv⟩ := exec_startupInjectionDone hb hh failed bad
    simp only [injView, Prod.mk.injEq] at hv
    obtain ⟨hboot, hsaf, heng⟩ := hv
    refine ⟨t, hex, hboot, by rw [hsaf]; rfl, ?_, fun i hi => ?_, fun e x hx => ?_⟩
    · rw [hsaf]
      simp only [injected, decide_eq_true_eq]
      rw [places_ne_zero]
      simp [and_comm]
    · rw [hsaf]
      simp only [injected, BitVec.getLsbD_ofNat, testBit_places, hi, decide_true, Bool.true_and]
    · exact ⟨{ x with quar := x.quar || bad.contains e }, by rw [heng]; simp [injected, hx], rfl⟩

end Sys2Proof.Proofs
end

section
/-! PROOFS. The drift ring (R229, R231, R253, R254, R264): shifts and the load of the resident image, in a device without jobs and
transfers. -/

namespace Sys2Proof.Proofs

open Sys2Proof Sys2Proof.Machine Sys2Proof.Laws

/-! ### The device without jobs and transfers -/

section
variable {s : State}

theorem afterStand_idle (hj : s.jobs = []) : afterStand s = s := by
  have h1 : startPrefetch s = s := by rw [startPrefetch, hj]; rfl
  have h2 : startXfers s = s := by rw [startXfers, hj]; rfl
  rw [afterStand, h1, h2, markWaits, hj]
  exact congrArg (fun j => { s with jobs := j }) hj.symm

theorem trimIf_idle (hx : s.ms.xfers = []) (p : Xfer → Bool) : trimIf s p = s := by
  rw [trimIf, hx]
  rfl

/-- A unit stages nothing ahead; what it had staged may go (R242). -/
theorem stageAhead_idle (hj : s.jobs = []) (hx : s.ms.xfers = []) (e : Nat) : ∃ g, stageAhead s e = { s with eng := g } := by
  have hc : ∃ g, clearStaged s e = { s with eng := g } := by
    unfold clearStaged
    split
    · exact ⟨s.eng, rfl⟩
    · split
      · exact ⟨s.eng, rfl⟩
      · rw [trimIf_idle hx]
        exact ⟨_, rfl⟩
  obtain ⟨g, hg⟩ := hc
  have hn : nextItem { s with eng := g } e = none := by
    have ho : jobOrder { s with eng := g } = [] := by simp [jobOrder, hj]
    rw [nextItem, ho]
    rfl
  refine ⟨g, ?_⟩
  unfold stageAhead
  simp only [hg, hn]
  split
  · rfl
  · exact ite_self _

theorem units_idle (hj : s.jobs = []) (hx : s.ms.xfers = []) : ∃ g, units s = { s with eng := g } := by
  have hp : pumpAll s = s := by simp [pumpAll, hx]
  rw [units, hp, stageAll]
  generalize List.range 16 = l
  induction l generalizing s with
  | nil => exact ⟨s.eng, rfl⟩
  | cons e l ih =>
    obtain ⟨g, hg⟩ := stageAhead_idle hj hx e
    rw [List.foldl_cons, hg]
    obtain ⟨g', hg'⟩ := ih (s := { s with eng := g }) hj hx (by simp [pumpAll, hx])
    exact ⟨g', hg'⟩

/-- A meaning's end after which nothing is due and no fatal source has set. -/
theorem settleUnits_idle {t : State} (hj : t.jobs = []) (hx : t.ms.xfers = []) (h : Harmless s t) :
    ∃ g, settleUnits s (afterStand t) = { t with eng := g } := by
  obtain ⟨g, hg⟩ := units_idle hj hx
  have hh : Harmless s { t with eng := g } := h.congr rfl
  exact ⟨g, by rw [afterStand_idle hj, settleUnits, hg, hh.settle]⟩

end

/-! ### Reads -/

theorem harmless_addPoison {s t : State} (h : Harmless s t) (u : Nat) : Harmless s (addPoison t u) :=
  h.congr (by rw [addPoison_fc])

theorem ledgeOf_lt {a : Nat} (h : isLedge a = true) : ledgeOf a < 16 := by
  simp only [isLedge, Bool.and_eq_true, decide_eq_true_eq] at h
  unfold ledgeOf
  omega

/-- No source of a decoder or of the DRAM link is fatal (R225, R226, R229, R412). -/
theorem harmless_eccRead {s t : State} (h : Harmless s t) (a : Nat) (ecc : Ecc) : Harmless s (eccRead t a ecc) := by
  have hl : ∀ {u : State} (k : Nat), k = 16 ∨ k = 32 → isLedge a = true → Harmless s u →
      Harmless s (setSrc u (k + ledgeOf a)) := by
    intro u k hk ha hu
    have hf : ∀ n, n < 48 → srcFA n = false := by decide
    have := ledgeOf_lt ha
    exact hu.setSrc (by omega) (hf _ (by omega))
  have hc : ∀ {u : State}, Harmless s u → Harmless s (countPoisonRead u a) := fun hu =>
    hu.congr (ite_keeps (fun v : State => v.fc.fsw) rfl
      (ite_keeps (fun v : State => v.fc.fsw) rfl (ite_keeps (fun v : State => v.fc.fsw) rfl rfl)))
  have hset : ∀ {u : State} (n : Nat), (n < 128 ∧ srcFA n = false) → Harmless s u → Harmless s (setSrc u n) :=
    fun n hn hu => hu.setSrc hn.1 hn.2
  unfold eccRead
  cases ecc <;> dsimp only
  case asStored | timedOut => exact hc h
  case corrected =>
    split
    · exact hset 76 (by decide) (h.congr rfl)
    split
    · exact hset 72 (by decide) (h.congr rfl)
    split
    · next ha => exact hl 16 (.inl rfl) ha (h.congr rfl)
    split
    · exact hset 74 (by decide) (h.congr rfl)
    · exact h
  case uncorrectable =>
    split
    · refine hset 77 (by decide) (harmless_addPoison ?_ _)
      exact h.congr rfl
    split
    · refine hset 73 (by decide) (harmless_addPoison ?_ _)
      exact h.congr rfl
    split
    · next ha =>
      refine hl 32 (.inr rfl) ha (harmless_addPoison ?_ _)
      exact h.congr rfl
    split
    · exact hset 75 (by decide) (h.congr rfl)
    · exact h
  case linkCorrected =>
    split
    · exact hc (h.congr rfl)
    · exact hc h
  case linkRetried n =>
    split
    · exact hc (hset 78 (by decide) (h.congr rfl))
    · exact hc h
  case linkFailed =>
    split
    · exact hset 77 (by decide) (hset 78 (by decide) (h.congr rfl))
    · exact h

/-! ### Shifts -/

/-- What the reads of a shift leave. -/
def ringView (s : State) := (s.ms, s.mem, s.jobs, s.sets)

/-- A read of a Ledge leaves the counts of the memory system. -/
theorem ringView_eccRead (s : State) {a : Nat} (ha : isLedge a = true) (ecc : Ecc) : ringView (eccRead s a ecc) = ringView s := by
  have hset : ∀ (u : State) (n : Nat), ringView (setSrc u n) = ringView u := fun u n => by
    unfold setSrc
    split <;> rfl
  have hp : ∀ (u : State) (v : Nat), ringView (addPoison u v) = ringView u := fun u v => ite_keeps ringView rfl rfl
  have hr : 0x0400_0000 ≤ a ∧ a < 0x0600_0000 := by simpa [isLedge] using ha
  have hd : isDram s a = false := by
    have : ¬ dramBase ≤ a := by unfold dramBase; omega
    simp [isDram, this]
  have hc : isCove a = false := by
    simp only [isCove, decide_eq_false_iff_not]
    omega
  have hcount : countPoisonRead s a = s := by simp [countPoisonRead, hd, hc]
  unfold eccRead
  cases ecc <;> simp only [hd, hc, ha, hcount, Bool.false_eq_true, if_false, if_true, Bool.false_and]
  case corrected => exact hset _ _
  case uncorrectable => exact (hset _ _).trans ((hp _ _).trans rfl)

/-- The state after the shift's reads. -/
def shiftReads (s : State) (ecc : List (Nat × Ecc)) : State :=
  (ecc.filter (fun x => (resEng (activeSet s).plan.resBytes x.1).isSome && unitBase x.1 == x.1)).foldl
    (fun s x => eccRead s x.1 x.2) s

theorem isLedge_of_resEng {rb a : Nat} (h : (resEng rb a).isSome = true) : isLedge a = true := by
  unfold resEng at h
  split at h
  · next hc => exact (Bool.and_eq_true_iff.1 hc).1
  · cases h

theorem shiftReads_view (s : State) (ecc : List (Nat × Ecc)) : ringView (shiftReads s ecc) = ringView s
    ∧ Harmless s (shiftReads s ecc) := by
  have hgo : ∀ (l : List (Nat × Ecc)) (u : State), (∀ x ∈ l, isLedge x.1 = true) → Harmless s u →
      ringView (l.foldl (fun s x => eccRead s x.1 x.2) u) = ringView u
        ∧ Harmless s (l.foldl (fun s x => eccRead s x.1 x.2) u) := by
    intro l
    induction l with
    | nil => exact fun u _ hu => ⟨rfl, hu⟩
    | cons x l ih =>
      intro u hl hu
      obtain ⟨hv, hh⟩ := ih _ (fun y hy => hl y (List.mem_cons_of_mem _ hy)) (harmless_eccRead hu x.1 x.2)
      exact ⟨hv.trans (ringView_eccRead u (hl x List.mem_cons_self) x.2), hh⟩
  refine hgo _ s (fun x hx => ?_) (Harmless.of_fsw rfl)
  exact isLedge_of_resEng (Bool.and_eq_true_iff.1 (List.mem_filter.1 hx).2).1

theorem rotateRing_mem_congr {s t : State} (hm : t.mem = s.mem) (hs : t.sets = s.sets) (k : Nat) :
    (rotateRing t k).mem = (rotateRing s k).mem := by
  have ha : activeSet t = activeSet s := by rw [activeSet, hasActive, slotOf, hs]; rfl
  unfold rotateRing
  rw [ha, hm]

/-- The memory system once a shift has ended. -/
def shifted (m : MemSys) (k : Nat) (r : List Nat) : MemSys :=
  { m with shiftQ := r, shiftOn := false, phase := (m.phase + k) % 16, shifts := satAdd 0xFFFF m.shifts 1 }

/-- RING_SHIFT_END of a shift that runs. -/
theorem exec_ringShiftEnd {s : State} {k : Nat} {r : List Nat} (hq : s.ms.shiftQ = k :: r) (ho : s.ms.shiftOn = true)
    (hj : s.jobs = []) (hx : s.ms.xfers = []) (ecc : List (Nat × Ecc)) :
    ∃ g, exec (.ringShiftEnd ecc) s = .next { rotateRing (shiftReads s ecc) k with ms := shifted s.ms k r, eng := g } := by
  obtain ⟨hv, hh⟩ := shiftReads_view s ecc
  simp only [ringView, Prod.mk.injEq] at hv
  obtain ⟨hms, hm, hjobs, hsets⟩ := hv
  have hex : exec (.ringShiftEnd ecc) s = .next (settleUnits s (afterStand
      { rotateRing (shiftReads s ecc) k with ms := shifted (shiftReads s ecc).ms k r })) := by
    have he : exec (.ringShiftEnd ecc) s = execRingShiftEnd s ecc := rfl
    rw [he, execRingShiftEnd, hq]
    dsimp only
    rw [if_neg (by simp [ho])]
    rfl
  rw [hex, hms]
  obtain ⟨g, hg⟩ := settleUnits_idle (s := s) (t := { rotateRing (shiftReads s ecc) k with ms := shifted s.ms k r })
    (hjobs.trans hj) hx (hh.congr rfl)
  exact ⟨g, by rw [hg]⟩

end Sys2Proof.Proofs
end

section
/-! PROOFS. The load of the resident image (R216, R219, R220, R254, R264): a region copied byte for byte, and reads by the stream
units that take and return their credits. -/

namespace Sys2Proof.Proofs

open Sys2Proof Sys2Proof.Machine Sys2Proof.Laws

/-! ### A region copied -/

theorem get_filter (q : Nat → Bool) (m : Mem) (a : Nat) :
    Mem.get (m.filter (fun c => q c.1)) a = if q a then m.get a else 0 := by
  induction m with
  | nil => simp [Mem.get]
  | cons c m ih =>
    obtain ⟨k, v⟩ := c
    rw [List.filter_cons, Mem.get]
    by_cases ha : a = k
    · subst ha
      by_cases hk : q a = true <;> simp [Mem.get, hk, ih]
    · rw [if_neg ha, ← ih]
      split
      · rw [Mem.get, if_neg ha]
      · rfl

/-- An address at which no entry is put reads as before. -/
theorem get_foldl_set_other {f : Nat → Nat} {a : Nat} (l : Mem) (m : Mem) (h : ∀ c ∈ l, f c.1 ≠ a) :
    Mem.get (l.foldl (fun m c => m.set (f c.1) c.2) m) a = m.get a := by
  induction l generalizing m with
  | nil => rfl
  | cons c l ih =>
    rw [List.foldl_cons, ih _ (fun d hd => h d (List.mem_cons_of_mem _ hd)),
      Mem.get_set_other m _ _ _ (Ne.symm (h c List.mem_cons_self))]

/-- Entries of rising addresses, put at distinct places in a store that is 0 there, read as where they come from. -/
theorem get_foldl_set {f : Nat → Nat} {a : Nat} (l : Mem) (m : Mem) (hw : m.wf = true) (hl : l.Pairwise (fun c d => c.1 < d.1))
    (hf : ∀ c ∈ l, f c.1 = f a → c.1 = a) (h0 : m.get (f a) = 0) :
    Mem.get (l.foldl (fun m c => m.set (f c.1) c.2) m) (f a) = l.get a := by
  induction l generalizing m with
  | nil => exact h0
  | cons c l ih =>
    obtain ⟨k, v⟩ := c
    obtain ⟨hk, hl⟩ := List.pairwise_cons.1 hl
    have hft : ∀ c ∈ l, f c.1 = f a → c.1 = a := fun c hc => hf c (List.mem_cons_of_mem _ hc)
    rw [List.foldl_cons, Mem.get]
    by_cases ha : a = k
    · subst ha
      rw [if_pos rfl, get_foldl_set_other l _ (fun c hc e => Nat.ne_of_gt (hk c hc) (hft c hc e))]
      exact Mem.get_set_same m _ _ ((Mem.wf_iff m).1 hw).1
    · rw [if_neg ha, ih _ (Mem.set_wf m _ _ hw) hl hft]
      rw [Mem.get_set_other m _ _ _ (fun e => ha (hf (k, v) List.mem_cons_self e.symm).symm), h0]

section
variable {m : Mem} (src dst n : Nat)

/-- Outside the place of the copy nothing changes. -/
theorem get_copyRegion_other {a : Nat} (ha : a < dst ∨ dst + n ≤ a) : (copyRegion m src dst n).get a = m.get a := by
  unfold copyRegion
  rw [get_foldl_set_other (f := fun x => x - src + dst), get_filter (fun x => !(decide (dst ≤ x) && decide (x < dst + n))), if_pos]
  · simp only [Bool.not_eq_true', Bool.and_eq_false_iff, decide_eq_false_iff_not]
    omega
  · intro c hc
    simp only [List.mem_filter, Bool.and_eq_true, decide_eq_true_eq] at hc
    omega

/-- The copy reads as its source did. -/
theorem get_copyRegion (hw : m.wf = true) {i : Nat} (hi : i < n) : (copyRegion m src dst n).get (dst + i) = m.get (src + i) := by
  have hplace : dst + i = (fun x => x - src + dst) (src + i) := by dsimp only; omega
  unfold copyRegion
  rw [hplace, get_foldl_set (f := fun x => x - src + dst), get_filter (fun x => decide (src ≤ x) && decide (x < src + n)), if_pos]
  · simp only [Bool.and_eq_true, decide_eq_true_eq]
    omega
  · exact Mem.filter_wf m _ hw
  · exact ((Mem.wf_iff m).1 hw).1.filter _
  · intro c hc
    simp only [List.mem_filter, Bool.and_eq_true, decide_eq_true_eq] at hc
    omega
  · rw [get_filter (fun x => !(decide (dst ≤ x) && decide (x < dst + n))), if_neg]
    simp only [Bool.not_eq_true', Bool.and_eq_false_iff, decide_eq_false_iff_not]
    omega

end

/-! ### The stream units' reads -/

/-- The STREAM pool of a unit. -/
def streamPools (s : State) (n : Nat) : List Pool := s.cr.pools.filter (isPool n .stream n)

/-- What the load of the image leaves where no pool has had more returned than issued. -/
def loadView (s : State) := (s.jobs, s.sch, s.sets, s.ms.xfers, s.ms.shiftQ, s.ms.reqs, s.ms.epoch)

/-- What its reads leave. -/
def portView (s : State) := (loadView s, s.mem, streamPools s)

theorem portView_setSrc (s : State) (n : Nat) : portView (setSrc s n) = portView s := by
  unfold setSrc
  split <;> rfl

theorem portView_readUnits (s : State) (a n : Nat) (o : Nat → Ecc) : portView (readUnits s a n o) = portView s := by
  show portView (uncounted _) = portView (uncounted s)
  rw [readUnits_uncounted]

/-- Credits of other kinds leave the STREAM pools. -/
theorem streamPools_modPool {k : PoolKind} (hk : k ≠ .stream) (s : State) (src i : Nat) {f : Pool → Pool}
    (hf : ∀ p, (f p).kind = p.kind) : streamPools (modPool s src k i f) = streamPools s := by
  funext n
  have hmap : ∀ l : List Pool, (l.map (fun p => if isPool src k i p then f p else p)).filter (isPool n .stream n)
      = l.filter (isPool n .stream n) := by
    intro l
    induction l with
    | nil => rfl
    | cons p l ih =>
      rw [List.map_cons]
      by_cases hp : isPool src k i p = true
      · have hkind : p.kind = k := by
          simp only [isPool, Bool.and_eq_true, beq_iff_eq] at hp
          exact hp.1.2
        have hno : ∀ q : Pool, q.kind = k → ¬ isPool n .stream n q = true := fun q hq => by simp [isPool, hq, hk]
        rw [if_pos hp, List.filter_cons_of_neg (hno _ ((hf p).trans hkind)), List.filter_cons_of_neg (hno p hkind), ih]
      · rw [if_neg hp, List.filter_cons, List.filter_cons, ih]
  unfold streamPools modPool
  dsimp only
  rw [hmap]
  split
  · rfl
  · rw [List.filter_append, List.filter_cons_of_neg (by simp [isPool, hk]), List.filter_nil, List.append_nil]

theorem destPool_ne_stream (s : State) (a : Nat) : (destPool s a).1 ≠ .stream := by
  unfold destPool
  split_ifs <;> exact fun h => nomatch h

section
variable {z s : State}

theorem onlyReads_fsw {t : State} (h : onlyReads s t) : t.fc.fsw = s.fc.fsw := by
  rw [onlyReads] at h
  rw [h]

theorem portView_passReq (src a : Nat) (hf : poolsFit s.cr.pools = true) : portView (passReq s src a) = portView s := by
  have hstream : streamPools (passReq s src a) = streamPools s := by
    have ht : ∀ u : State, streamPools (touchCheck u a) = streamPools u := fun u => ite_keeps streamPools rfl rfl
    have hg : ∀ u : State, streamPools (giveOne u src (destPool s a).1 (destPool s a).2 s.ms.epoch) = streamPools u := fun u =>
      ite_keeps streamPools (streamPools_modPool (destPool_ne_stream s a) u _ _ (fun p => by split <;> rfl))
        (by unfold creditViolation setSrc; split <;> rfl)
    exact (ht _).trans ((hg _).trans (streamPools_modPool (destPool_ne_stream s a) s _ _ (fun p => by split <;> rfl)))
  have h := onlyReads_passReq src a hf
  rw [onlyReads] at h
  unfold portView
  rw [hstream]
  unfold loadView
  rw [h]

/-- Reads take credits and return them, and set no fatal source. -/
theorem portRead_reads (src a n : Nat) (o : Nat → Ecc) (hf : poolsFit s.cr.pools = true) (hh : Harmless z s) :
    portView (portRead s src a n o) = portView s ∧ Harmless z (portRead s src a n o) := by
  unfold portRead
  generalize reqsOf a n = l
  induction l generalizing s with
  | nil => exact ⟨rfl, hh⟩
  | cons x l ih =>
    have hv := portView_passReq src x.1 hf
    have hp : Harmless z (passReq s src x.1) := hh.congr (onlyReads_fsw (onlyReads_passReq src x.1 hf))
    have hfit := (passReq_keeps src x.1 (Keeps.refl s)).pools hf
    rw [List.foldl_cons]
    dsimp only
    generalize passReq s src x.1 = u at hv hp hfit ⊢
    have hstep : poolsFit (if reqTimed o x.1 x.2 then passTimeout u src false x.1 x.2 else readUnits u x.1 x.2 o).cr.pools = true
        ∧ portView (if reqTimed o x.1 x.2 then passTimeout u src false x.1 x.2 else readUnits u x.1 x.2 o) = portView u
        ∧ Harmless z (if reqTimed o x.1 x.2 then passTimeout u src false x.1 x.2 else readUnits u x.1 x.2 o) := by
      split
      · refine ⟨(passTimeout_keeps src false x.1 x.2 (Keeps.refl u)).pools hfit, portView_setSrc _ 83, ?_⟩
        refine Harmless.setSrc ?_ (by decide) (by decide)
        exact hp.congr rfl
      · refine ⟨(readUnits_keeps x.1 x.2 o (Keeps.refl u)).pools hfit,
          portView_readUnits u x.1 x.2 o, ?_⟩
        unfold readUnits
        generalize protOf x.1 x.2 = us
        clear * - hp
        induction us generalizing u with
        | nil => exact hp
        | cons v us ih => exact ih _ (harmless_eccRead hp _ _)
    obtain ⟨hfit', hv', hp'⟩ := hstep
    obtain ⟨h1, h2⟩ := ih hfit' hp'
    exact ⟨h1.trans (hv'.trans hv), h2⟩

/-- A transfer of the load: its STREAM credit is there to return. -/
theorem loadPiece_loads (o : Nat → Ecc) (n : Nat) (x : Nat × Nat) (hf : poolsFit s.cr.pools = true) (hh : Harmless z s) :
    loadView (loadPiece o n s x) = loadView s ∧ (loadPiece o n s x).mem = s.mem ∧ Harmless z (loadPiece o n s x) := by
  obtain ⟨hne, hall⟩ := owes_takeCredit n .stream n hf
  have hfit := (takeCredit_keeps n .stream n (Keeps.refl s)).pools hf
  have htake : Harmless z (takeCredit s n .stream n) := hh.congr rfl
  obtain ⟨hv, hp⟩ := portRead_reads n x.1 x.2 o hfit htake
  unfold loadPiece
  generalize portRead _ n x.1 x.2 o = u at hv hp ⊢
  simp only [portView, Prod.mk.injEq] at hv
  obtain ⟨hload, hmem, hstream⟩ := hv
  have hpools : u.cr.pools.filter (isPool n .stream n) = (takeCredit s n .stream n).cr.pools.filter (isPool n .stream n) :=
    congrFun hstream n
  have hgive : giveOne u n .stream n s.ms.epoch = modPool u n .stream n
      (fun p => if s.ms.epoch then { p with ret1 := p.ret1 + 1 } else { p with ret0 := p.ret0 + 1 }) := by
    unfold giveOne
    dsimp only
    rw [if_pos]
    rw [hpools, Bool.and_eq_true, Bool.not_eq_true', List.isEmpty_eq_false_iff]
    exact ⟨hne, List.all_eq_true.2 hall⟩
  rw [hgive]
  exact ⟨hload, hmem, hp.congr rfl⟩

/-- One slice of the load: its bytes are copied. -/
theorem loadSlice_loads (p : Plan) (ecc : List (Nat × Ecc)) (n : Nat) (hf : poolsFit s.cr.pools = true) (hh : Harmless z s) :
    loadView (loadSlice p ecc s n) = loadView s ∧ Harmless z (loadSlice p ecc s n)
      ∧ (loadSlice p ecc s n).mem = copyRegion s.mem (p.resAddr + n * p.resBytes) (resBase p.resBytes n) p.resBytes := by
  have hpieces : ∀ (l : List (Nat × Nat)) (u : State), poolsFit u.cr.pools = true → Harmless z u →
      loadView (l.foldl (loadPiece (eccFor ecc) n) u) = loadView u ∧ (l.foldl (loadPiece (eccFor ecc) n) u).mem = u.mem
        ∧ Harmless z (l.foldl (loadPiece (eccFor ecc) n) u) := by
    intro l
    induction l with
    | nil => exact fun u _ hu => ⟨rfl, rfl, hu⟩
    | cons x l ih =>
      intro u hfu hu
      obtain ⟨hv, hm, hh'⟩ := loadPiece_loads (eccFor ecc) n x hfu hu
      obtain ⟨hv', hm', hl⟩ := ih _ ((loadPiece_keeps _ n x (Keeps.refl u)).pools hfu) hh'
      exact ⟨hv'.trans hv, hm'.trans hm, hl⟩
  obtain ⟨hv, hm, hl⟩ := hpieces _ s hf hh
  unfold loadSlice
  dsimp only
  generalize List.foldl (loadPiece (eccFor ecc) n) s _ = u at hv hm hl ⊢
  exact ⟨hv, hl.congr rfl, by rw [hm]⟩

theorem loadSlices_loads (p : Plan) (ecc : List (Nat × Ecc)) (l : List Nat) (hf : poolsFit s.cr.pools = true)
    (hh : Harmless z s) : loadView (l.foldl (loadSlice p ecc) s) = loadView s ∧ Harmless z (l.foldl (loadSlice p ecc) s)
      ∧ (l.foldl (loadSlice p ecc) s).mem =
        l.foldl (fun m n => copyRegion m (p.resAddr + n * p.resBytes) (resBase p.resBytes n) p.resBytes) s.mem := by
  induction l generalizing s with
  | nil => exact ⟨rfl, hh, rfl⟩
  | cons n l ih =>
    obtain ⟨hv, hh', hm⟩ := loadSlice_loads p ecc n hf hh
    obtain ⟨hv', hl, hm'⟩ := ih ((loadSlice_keeps p ecc n (Keeps.refl s)).pools hf) hh'
    rw [hm] at hm'
    exact ⟨hv'.trans hv, hl, hm'⟩

end

/-! ### The image in the Ledges -/

/-- The slices of an image beyond the Ledges, each copied to the end of its own. -/
theorem get_slices {m : Mem} (hw : m.wf = true) {base rb : Nat} (hb : 0x600_0000 ≤ base) (hrb : rb ≤ 0x20_0000) (k : Nat)
    (hk : k ≤ 16) : let c := (List.range k).foldl (fun m n => copyRegion m (base + n * rb) (resBase rb n) rb) m
    c.wf = true ∧ (∀ a, 0x600_0000 ≤ a → c.get a = m.get a)
      ∧ ∀ n < k, ∀ i < rb, c.get (resBase rb n + i) = m.get (base + n * rb + i) := by
  induction k with
  | zero => exact ⟨hw, fun _ _ => rfl, fun n hn => absurd hn (Nat.not_lt_zero n)⟩
  | succ k ih =>
    obtain ⟨hcw, hhigh, hlow⟩ := ih (by omega)
    dsimp only
    rw [List.range_succ, List.foldl_append, List.foldl_cons, List.foldl_nil]
    generalize (List.range k).foldl (fun m n => copyRegion m (base + n * rb) (resBase rb n) rb) m = c at hcw hhigh hlow ⊢
    have hplace : ∀ n, n < 16 → resBase rb n + rb = 0x400_0000 + (n + 1) * 0x20_0000 := fun n hn => by
      unfold resBase
      omega
    refine ⟨copyRegion_wf c _ _ _ hcw, fun a ha => ?_, fun n hn i hi => ?_⟩
    · have := hplace k (by omega)
      rw [get_copyRegion_other _ _ _ (.inr (by omega)), hhigh a ha]
    · by_cases hnk : n = k
      · subst hnk
        rw [get_copyRegion _ _ _ hcw hi, hhigh _ (by omega)]
      · have h1 := hplace n (by omega)
        have h2 := hplace k (by omega)
        rw [get_copyRegion_other _ _ _ (.inl (by omega)), hlow n (by omega) i hi]

/-- RESIDENT_LOAD_DONE, with no swap pending, brings the image of the active set. -/
theorem exec_residentLoadDone {s : State} (hl : s.ms.resLoaded = false) (hs : s.sets.swapPending = false)
    (ha : hasActive s = true) (hj : s.jobs = []) (hx : s.ms.xfers = []) (hf : poolsFit s.cr.pools = true)
    (ecc : List (Nat × Ecc)) : ∃ t, exec (.residentLoadDone ecc) s = .next t ∧ t.ms.resLoaded = true ∧ t.ms.phase = 0
      ∧ loadView t = loadView s ∧ t.mem = (List.range 16).foldl (fun m n => copyRegion m
        ((activeSet s).plan.resAddr + n * (activeSet s).plan.resBytes) (resBase (activeSet s).plan.resBytes n)
        (activeSet s).plan.resBytes) s.mem := by
  obtain ⟨hv, hh, hm⟩ := loadSlices_loads (activeSet s).plan ecc (List.range 16) hf (Harmless.of_fsw (s := s) rfl)
  have hset : loadSet s = some (activeSet s) := by simp [loadSet, hs, ha]
  have hex : exec (.residentLoadDone ecc) s = execResidentLoadDone s ecc := rfl
  rw [hex, execResidentLoadDone, if_neg (by simp [hl]), hset]
  dsimp only
  generalize List.foldl (loadSlice (activeSet s).plan ecc) s (List.range 16) = u at hv hh hm ⊢
  have hjx : u.jobs = [] ∧ u.ms.xfers = [] := by
    simp only [loadView, Prod.mk.injEq] at hv
    obtain ⟨hju, -, -, hxu, -⟩ := hv
    exact ⟨hju.trans hj, hxu.trans hx⟩
  obtain ⟨g, hg⟩ := settleUnits_idle (s := s) (t := { u with ms := { u.ms with resLoaded := true, phase := 0 } })
    hjx.1 hjx.2 (hh.congr rfl)
  rw [hg]
  exact ⟨_, rfl, rfl, rfl, hv, hm⟩

end Sys2Proof.Proofs
end

section
/-! PROOFS. Scrubbing (R219, R237 to R240): the checks of SCRUB_RANGE, and the check of one unit of the pass that runs. -/

namespace Sys2Proof.Proofs

open Sys2Proof Sys2Proof.Machine Sys2Proof.Laws

/-! ### SCRUB_RANGE -/

/-- SCRUB_RANGE by the address and the units that it names. -/
theorem doScrubRange_eq {k : Pkt} {a n : Nat} (hhi : (wd k.params 1).toNat < 65536)
    (ha : a = (wd k.params 0).toNat + (wd k.params 1).toNat * 2 ^ 32) (hn : n = (wd k.params 2).toNat) (s : State) :
    doScrubRange k s =
      if a % 64 ≠ 0 then badWord s 2
      else if n = 0 then badWord s 4
      else if 4 ≤ s.ms.scrubs.length then refuse s .busy []
      else if !inOneStore s a (64 * n) then badWord s 2
      else
        let t := issueCmd s k.port
        ({ t.2 with ms := { t.2.ms with scrubs := t.2.ms.scrubs ++
          [{ token := t.1, addr := a, units := n, done := 0, ce := 0, uc := 0, firstUc := none, running := false }] } },
          some (.accepted, [t.1])) := by
  have h0 : fld k.params 0 5 0 = a % 64 := by
    rw [fld, bits_zero]
    omega
  have h1 : fld k.params 1 31 16 = 0 := (bits_top_eq_zero _ (by decide)).2 hhi
  have hp : pair48 (wd k.params 0) (wd k.params 1) = a := (pair48_of_lt _ hhi).trans ha.symm
  unfold doScrubRange
  simp only [h0, h1, hp, ← hn, bne_iff_ne, ne_eq, not_true_eq_false, if_false]

/-- SCRUB_RANGE of a misplaced address or one with reserved bits. -/
theorem doScrubRange_bad_address {k : Pkt} (s : State) :
    ((wd k.params 0).toNat % 64 ≠ 0 → doScrubRange k s = badWord s 2)
    ∧ ((wd k.params 0).toNat % 64 = 0 → 65536 ≤ (wd k.params 1).toNat → doScrubRange k s = badWord s 3) := by
  have h0 : fld k.params 0 5 0 = (wd k.params 0).toNat % 64 := bits_zero _ 5
  unfold doScrubRange
  dsimp only
  rw [h0]
  refine ⟨fun h => if_pos (by simpa using h), fun h hhi => ?_⟩
  rw [if_neg (by simp [h]), if_pos]
  rw [bne_iff_ne]
  intro h1
  have := (bits_top_eq_zero _ (by decide)).1 h1
  omega

/-! ### The check of a unit -/

section
variable (s : State)

theorem scrubs_passReq (src a : Nat) : (passReq s src a).ms.scrubs = s.ms.scrubs := by
  have ht : ∀ u : State, (touchCheck u a).ms.scrubs = u.ms.scrubs := fun u => ite_keeps (fun v : State => v.ms.scrubs) rfl rfl
  refine (ht _).trans (ite_keeps (c := _) (fun v : State => v.ms.scrubs) rfl ?_)
  unfold creditViolation setSrc
  split <;> rfl

theorem poison_passReq (src a : Nat) : (passReq s src a).poison = s.poison := by
  have ht : ∀ u : State, (touchCheck u a).poison = u.poison := fun u => ite_keeps State.poison rfl rfl
  refine (ht _).trans (ite_keeps (c := _) State.poison rfl ?_)
  unfold creditViolation setSrc
  split <;> rfl

theorem scrubs_passTimeout (src : Nat) (w : Bool) (a n : Nat) : (passTimeout s src w a n).ms.scrubs = s.ms.scrubs := by
  unfold passTimeout
  dsimp only
  rw [setSrc_ms]

theorem scrubs_eccRead (a : Nat) (ecc : Ecc) : (eccRead s a ecc).ms.scrubs = s.ms.scrubs := by
  show (uncounted _).ms.scrubs = (uncounted s).ms.scrubs
  rw [eccRead_uncounted]

theorem scrubs_checkUnit (u : Nat) (ecc : Ecc) : (checkUnit s u ecc).1.ms.scrubs = s.ms.scrubs := by
  unfold checkUnit
  split_ifs <;> exact scrubs_eccRead s _ _

end

/-- The range of a pass and its place in it. -/
def passRange (x : Scrub) := (x.token, x.addr, x.units, x.done)

/-- The check of protection units counts in the pass and leaves the queue. -/
theorem checkUnits_view (us : List Nat) (ecc : List Ecc) (s : State) (x : Scrub) :
    (checkUnits us ecc s x).1.ms.scrubs = s.ms.scrubs ∧ passRange (checkUnits us ecc s x).2 = passRange x := by
  induction us generalizing ecc s x with
  | nil => exact ⟨rfl, rfl⟩
  | cons u us ih =>
    unfold checkUnits
    obtain ⟨hs, hx⟩ := ih ecc.tail (checkUnit s u (ecc.headD .asStored)).1 _
    exact ⟨hs.trans (scrubs_checkUnit s u _), hx⟩

/-- The read of a pass's present unit: the state, and the pass with what it counts. -/
def scrubRead (s : State) (x : Scrub) (ecc : List Ecc) : State × Scrub :=
  if ecc.contains .timedOut then
    (passTimeout (passReq s srcScrub (x.addr + 64 * x.done)) srcScrub false (x.addr + 64 * x.done) 64, x)
  else checkUnits (protUnits (x.addr + 64 * x.done)) ecc (passReq s srcScrub (x.addr + 64 * x.done)) x

theorem scrubRead_view (s : State) (x : Scrub) (ecc : List Ecc) :
    (scrubRead s x ecc).1.ms.scrubs = s.ms.scrubs ∧ passRange (scrubRead s x ecc).2 = passRange x := by
  unfold scrubRead
  split
  · exact ⟨(scrubs_passTimeout _ _ _ _ _).trans (scrubs_passReq s _ _), rfl⟩
  · obtain ⟨hs, hx⟩ := checkUnits_view (protUnits (x.addr + 64 * x.done)) ecc (passReq s srcScrub (x.addr + 64 * x.done)) x
    exact ⟨hs.trans (scrubs_passReq s _ _), hx⟩

/-- SCRUB_UNIT_CHECK of a running pass, by the read of its unit. -/
theorem exec_scrubUnitCheck {s : State} {x : Scrub} {r : List Scrub} (hq : s.ms.scrubs = x :: r) (hr : x.running = true)
    (hh : halted s = false) (ecc : List Ecc) : exec (.scrubUnitCheck ecc) s = .next (settle s (
      let y : Scrub := { (scrubRead s x ecc).2 with done := x.done + 1 }
      let u := (scrubRead s x ecc).1
      if y.units ≤ y.done then finishTok { u with ms := { u.ms with scrubs := u.ms.scrubs.drop 1 } } y.token .ok (scrubWords y)
      else setHeadScrub u { y with running := scrubMay u y })) := by
  have hex : exec (.scrubUnitCheck ecc) s = execScrubUnitCheck ecc s := rfl
  rw [hex, execScrubUnitCheck, hq]
  dsimp only
  rw [if_neg (by simp [hr, hh])]
  rfl

theorem setHeadScrub_scrubs {u : State} {x : Scrub} {r : List Scrub} (h : u.ms.scrubs = x :: r) (y : Scrub) :
    (setHeadScrub u y).ms.scrubs = y :: r := by
  show y :: u.ms.scrubs.drop 1 = _
  rw [h]
  rfl

theorem settle_scrubs (s t : State) : (settle s t).ms.scrubs = t.ms.scrubs := by
  have h := (settle_plant s t).1
  simp only [plant, Prod.mk.injEq] at h
  exact h.2.2.2.2

/-- The final result of a token leaves none of it live. -/
theorem finishTok_spent (s : State) (t : Word) (st : Status) (pl : List Word) :
    ∀ k ∈ (finishTok s t st pl).cmd.tokens, k.token = t → k.live = false := by
  intro k hk ht
  obtain ⟨l, -, rfl⟩ := List.mem_map.1 (mem_of_mem_trimToks hk)
  split at ht
  · next h => rw [if_pos h]
  · next h =>
    rw [if_neg h]
    simpa [ht] using h

/-- Nor does the reaction to a fatal source revive it. -/
theorem settle_spent {s t : State} {tok : Word} (h : ∀ k ∈ t.cmd.tokens, k.token = tok → k.live = false) :
    ∀ k ∈ (settle s t).cmd.tokens, k.token = tok → k.live = false := by
  intro k hk ht
  by_contra hl
  obtain ⟨l, hlt, hle, hll⟩ := (settle_plant s t).2.2 k hk (by simpa using hl)
  rw [h l hlt (hle.trans ht)] at hll
  cases hll

/-- A line of usable DRAM without poison counts by the outcome of its read. -/
theorem scrubRead_line {s : State} {x : Scrub} {a : Nat} (ha : a = x.addr + 64 * x.done) (hd : inDram s a 64 = true)
    (hp : a ∉ s.poison) (ecc : List Ecc) (ht : ecc.contains .timedOut = false) (hl : ecc.headD .asStored ≠ .linkFailed) :
    (scrubRead s x ecc).2 = { x with
      ce := if ecc.headD .asStored = .corrected then satAdd 0xFFFF_FFFF x.ce 1 else x.ce
      uc := if ecc.headD .asStored = .uncorrectable then satAdd 0xFFFF_FFFF x.uc 1 else x.uc
      firstUc := if ecc.headD .asStored = .uncorrectable then minOpt x.firstUc a else x.firstUc } := by
  have hge : 0x10_0000_0000 ≤ a := by
    simp only [inDram, Bool.and_eq_true, decide_eq_true_eq] at hd
    exact hd.1
  have hc : isCsram a = false := by
    simp only [isCsram, Bool.and_eq_false_iff, decide_eq_false_iff_not]
    omega
  have hu : protUnits a = [a] := by
    rw [protUnits, hc, if_neg (by decide), if_neg (by omega)]
  rw [scrubRead, ht, ← ha, hu, if_neg (by decide), checkUnits, checkUnits]
  generalize ecc.headD .asStored = e at hl ⊢
  have hunit : (checkUnit (passReq s srcScrub a) a e).2 = (e == .corrected, e == .uncorrectable) := by
    rw [checkUnit, hc, if_neg (by decide), poison_passReq, if_neg (by simpa using hp)]
    simp [hl]
  simp only [hunit, beq_iff_eq]

/-- Settles O39: SCRUB_RANGE by its checks in their order, the check of a unit by the read that it makes (`scrubRead`), which
leaves the queue, as does the reaction to a fatal source; the ring in a device where nothing else is due
(`exec_ringShiftEnd`, `exec_residentLoadDone`). -/
theorem scrubAndDrift : Obligations.ScrubAndDrift := by
  refine ⟨⟨fun k s s0 a n h hhi ha ha64 hn hpos => ?_, fun k s s0 h => ?_, fun s x r hq => ?_, fun s ecc h => ?_,
    fun s x r ecc hq hr hh => ?_⟩, fun s hq ho hreq => ?_, fun s hreq => ?_, fun s k r hq ho hj hx => ?_,
    fun s k r ecc hq ho hj hx => ?_, fun s ecc h => ?_, fun s hl hs hact hj hx hf ecc => ?_⟩
  · obtain ⟨c, rfl⟩ := starts_cmd h
    have hex : exec (.scrubRange k) s = .next (command 0x50 0 k (doScrubRange k) s) := rfl
    have hbody := doScrubRange_eq hhi ha hn { s with cmd := c }
    rw [if_neg (by simp [ha64]), if_neg (by omega)] at hbody
    rw [hex]
    refine ⟨fun h4 => congrArg _ (command_refuses h (hbody.trans (if_pos h4))), fun h4 hin => ?_, fun h4 hin => ?_⟩
    · refine congrArg _ (command_refuses h (hbody.trans ?_))
      rw [if_neg (Nat.not_le.2 h4), if_pos]
      · rfl
      · exact Bool.not_eq_true' _ ▸ hin
    · rw [if_neg (Nat.not_le.2 h4), if_neg] at hbody
      · exact ⟨_, congrArg _ (command_starts h hbody rfl), rfl, rfl, rfl, rfl, rfl, rfl, rfl⟩
      · exact fun hn => by rw [Bool.not_eq_true'] at hn; exact absurd (hn.symm.trans hin) (by decide)
  · have hex : exec (.scrubRange k) s = .next (command 0x50 0 k (doScrubRange k) s) := rfl
    obtain ⟨h2, h3⟩ := doScrubRange_bad_address (k := k) s0
    rw [hex]
    refine ⟨fun hw => congrArg _ (command_refuses h (h2 hw)), fun hw hhi => congrArg _ (command_refuses h (h3 hw hhi)),
      fun hw hhi hn => congrArg _ (command_refuses h ?_)⟩
    rw [doScrubRange_eq hhi rfl rfl, if_neg (by omega), if_pos hn]
    rfl
  · have hex : exec .scrubPassResume s = execScrubPassResume s := rfl
    rw [hex, execScrubPassResume, hq]
    dsimp only
    refine ⟨fun hm => ?_, fun hm => by rw [if_neg (by simp [hm])]⟩
    rw [if_pos hm, setHeadScrub, hq]
    rfl
  · have hex : exec (.scrubUnitCheck ecc) s = execScrubUnitCheck ecc s := rfl
    rw [hex, execScrubUnitCheck]
    split
    · rfl
    · next x _ hq =>
      rw [if_pos]
      rw [hq] at h
      rcases h with h | h | ⟨y, r, h, hy⟩
      · cases h
      · simp [h]
      · cases h
        simp [hy]
  · obtain ⟨hs, hx⟩ := scrubRead_view s x ecc
    simp only [passRange, Prod.mk.injEq] at hx
    obtain ⟨htok, haddr, hunits, -⟩ := hx
    refine ⟨_, exec_scrubUnitCheck hq hr hh ecc, fun hlt => ?_, fun hle => ?_⟩
    · dsimp only
      rw [if_neg (by rw [hunits]; omega)]
      refine ⟨_, (settle_scrubs _ _).trans (setHeadScrub_scrubs (hs.trans hq) _), rfl, htok, hunits, haddr,
        fun a ha _ hd hpo => ?_⟩
      have hline := scrubRead_line ha hd hpo ecc
      refine ⟨?_, ?_, ?_⟩ <;> rintro rfl <;> rw [hline (by decide) (by decide)]
      · exact ⟨rfl, rfl, rfl⟩
      · exact ⟨rfl, rfl⟩
      · exact ⟨rfl, rfl, rfl⟩
    · dsimp only
      rw [if_pos (by rw [hunits]; exact hle)]
      rw [settle_scrubs]
      refine ⟨by rw [finishTok_ms, hs, hq, List.drop_one, List.tail_cons], settle_spent fun k hk ht => ?_⟩
      exact finishTok_spent _ _ _ _ k hk (ht.trans htok.symm)
  · have hex : exec .ringShiftStart s = execRingShiftStart s := rfl
    rw [hex, execRingShiftStart, if_neg]
    simp only [ho, Bool.or_false, Bool.or_eq_true, List.isEmpty_iff, List.any_eq_true, Bool.and_eq_true, beq_iff_eq,
      Bool.not_eq_true', not_or, not_exists, not_and]
    exact ⟨hq, fun r hr hk => by simp [hreq r hr hk]⟩
  · obtain ⟨r, hr, hk, hw⟩ := hreq
    have hex : exec .ringShiftStart s = execRingShiftStart s := rfl
    rw [hex, execRingShiftStart, if_pos]
    simp only [Bool.or_eq_true, List.any_eq_true]
    exact .inr ⟨r, hr, by simp [hk, hw]⟩
  · obtain ⟨g, hg⟩ := exec_ringShiftEnd hq ho hj hx []
    exact ⟨_, hg, rfl, rfl, rfl, rfl, rfl, rfl⟩
  · obtain ⟨g, hg⟩ := exec_ringShiftEnd hq ho hj hx ecc
    obtain ⟨hv, -⟩ := shiftReads_view s ecc
    simp only [ringView, Prod.mk.injEq] at hv
    obtain ⟨-, hm, -, hsets⟩ := hv
    exact ⟨_, hg, rfl, rfl, rfl, rfl, rotateRing_mem_congr hm hsets k⟩
  · have hex : exec (.ringShiftEnd ecc) s = execRingShiftEnd s ecc := rfl
    rw [hex, execRingShiftEnd]
    split
    · rfl
    · next hq =>
      rw [hq] at h
      rw [if_pos (by simpa using h)]
  · obtain ⟨t, hex, hres, hph, hv, hm⟩ := exec_residentLoadDone hl hs hact hj hx hf ecc
    simp only [loadView, Prod.mk.injEq] at hv
    obtain ⟨-, hsch, -, -, hshift, hreqs, -⟩ := hv
    refine ⟨t, hex, hres, hph, hsch, hshift, hreqs, ?_⟩
    rintro p rfl hw hrb hd n hn i hi
    have hbase : 0x10_0000_0000 ≤ (activeSet s).plan.resAddr := by
      simp only [inDram, Bool.and_eq_true, decide_eq_true_eq] at hd
      exact hd.1
    obtain ⟨-, -, hslices⟩ := get_slices hw (base := (activeSet s).plan.resAddr) (by omega) hrb 16 le_rfl
    rw [hm]
    exact hslices n hn i hi

end Sys2Proof.Proofs
end

section
/-! PROOFS. The work of the fabric (R216 to R222, R241 to R244): what the stream units, the ends of jobs and the reads of walks
leave of the requests outstanding, of the count of time-outs and of the sensor frames in reception. -/

namespace Sys2Proof.Proofs

open Sys2Proof Sys2Proof.Machine Sys2Proof.Laws

/-! ### The relation -/

/-- `t` comes of `s` by background work whose reads come to `o`: requests that join have new numbers, a time-out is counted
only where `o` has one, and no stream begins to receive. -/
structure Serves (o : Nat → Ecc) (s t : State) : Prop where
  bg : Bg s t
  next : s.ms.nextReq ≤ t.ms.nextReq
  reqs : ∀ r ∈ t.ms.reqs, r ∈ s.ms.reqs ∨ s.ms.nextReq ≤ r.id
  timeouts : (∀ u, o u ≠ .timedOut) → t.ms.timeouts = s.ms.timeouts
  cur : ∀ i, (streamOf s i).cur = none → (streamOf t i).cur = none

section
variable {o : Nat → Ecc} {z s t : State}

theorem Serves.refl (s : State) : Serves o s s := ⟨.refl s, le_rfl, fun _ h => .inl h, fun _ => rfl, fun _ h => h⟩

theorem Serves.trans (h : Serves o z s) (g : Serves o s t) : Serves o z t where
  bg := h.bg.trans g.bg
  next := h.next.trans g.next
  reqs r hr := by
    rcases g.reqs r hr with hr | hr
    · exact h.reqs r hr
    · exact .inr (h.next.trans hr)
  timeouts ho := (g.timeouts ho).trans (h.timeouts ho)
  cur i hi := g.cur i (h.cur i hi)

theorem Serves.foldl {β : Type} {f : State → β → State} (hf : ∀ s x, Serves o z s → Serves o z (f s x)) (l : List β)
    (h : Serves o z s) : Serves o z (l.foldl f s) := by
  induction l generalizing s with
  | nil => exact h
  | cons x r ih => exact ih (hf s x h)

theorem Serves.ite {c : Prop} [Decidable c] (hs : Serves o z s) (ht : Serves o z t) : Serves o z (if c then s else t) := by
  split
  · exact hs
  · exact ht

/-- Background work that leaves the front. -/
theorem Serves.of_front (h : Serves o z s) (b : Bg s t) (e : front t = front s) : Serves o z t := by
  simp only [front, plant, Prod.mk.injEq] at e
  obtain ⟨⟨-, hreqs, hnext, htime, -⟩, hst⟩ := e
  refine h.trans ⟨b, hnext.ge, fun r hr => .inl (hreqs ▸ hr), fun _ => htime, fun i hi => ?_⟩
  rwa [streamOf, hst]

theorem Serves.of_ends (h : Serves o z s) (b : Bg s t) (e : Ends s t) : Serves o z t := h.of_front b e.front

theorem Serves.of_seen (h : Serves o z s) (e : seen t = seen s) (f : front t = front s) : Serves o z t :=
  h.of_front ((Follows.refl s).of_seen e) f

theorem Serves.of_offStore (h : Serves o z s) (e : offStore t = offStore s) : Serves o z t :=
  h.of_seen (show seen (offStore t) = seen (offStore s) by rw [e]) (show front (offStore t) = front (offStore s) by rw [e])

end

theorem front_of_toks {s t : State} (e : frontToks t = frontToks s) : front t = front s := congrArg Prod.fst e

/-! ### Requests and transfers -/

section
variable {o : Nat → Ecc} {z s : State}

theorem killJob_serves (t : Word) (e : JobEnd) (inp : Nat) (h : Serves o z s) : Serves o z (killJob s t e inp) :=
  h.of_ends (killJob_bg t e inp (.refl s)) (killJob_ends t e inp (.refl s))

theorem tryDone_serves (t : Word) (inp : Nat) (h : Serves o z s) : Serves o z (tryDone s t inp) :=
  h.of_ends (tryDone_bg t inp (.refl s)) (tryDone_ends t inp (.refl s))

theorem closeXfer_serves (x : Xfer) (h : Serves o z s) : Serves o z (closeXfer s x) :=
  h.of_front (closeXfer_bg x (.refl s)) (front_of_toks (frontToks_closeXfer s x))

theorem trimIf_serves (p : Xfer → Bool) (h : Serves o z s) : Serves o z (trimIf s p) :=
  h.of_front (trimIf_bg p (.refl s)) (front_of_toks (frontToks_trimIf s p))

theorem modEng_serves (e : Nat) (f : Engine → Engine) (h : Serves o z s) : Serves o z (modEng s e f) := h.of_seen rfl rfl

theorem modXfer_serves (id : Nat) (f : Xfer → Xfer) (h : Serves o z s) : Serves o z (modXfer s id f) := h.of_seen rfl rfl

theorem front_touchCheck (s : State) (a : Nat) : front (touchCheck s a) = front s := ite_keeps front rfl rfl

/-- A request is issued under the next number. -/
theorem issueReq_serves (src : Nat) (w : Bool) (a len level : Nat) (u : ReqUse) (h : Serves o z s) :
    Serves o z (issueReq s src w a len level u) := by
  refine h.trans ?_
  have hbg : Bg s (issueReq s src w a len level u) := (Follows.refl s).of_seen (issueReq_seen s src w a len level u)
  unfold issueReq at hbg ⊢
  dsimp only at hbg ⊢
  have hf : front (touchCheck ((reqLinks src a).foldl (fun s l => takeCredit s l .ring l)
      (takeCredit s src (destPool s a).1 (destPool s a).2)) a) = front s :=
    (front_touchCheck _ _).trans (foldl_keeps front (fun s l => takeCredit s l .ring l) (fun _ _ => rfl) _ _)
  generalize touchCheck _ a = v at hf hbg ⊢
  simp only [front, plant, Prod.mk.injEq] at hf
  obtain ⟨⟨-, hreqs, hnext, htime, -⟩, hst⟩ := hf
  refine ⟨hbg, ?_, fun r hr => ?_, fun _ => htime, fun i hi => ?_⟩
  · dsimp only
    omega
  · rcases List.mem_append.1 hr with hr | hr
    · exact .inl (hreqs ▸ hr)
    · obtain rfl := List.mem_singleton.1 hr
      exact .inr le_rfl
  · rw [streamOf] at hi ⊢
    rwa [hst]

theorem beginXferReq_serves (x : Xfer) (h : Serves o z s) : Serves o z (beginXferReq s x) :=
  h.of_seen (beginXferReq_seen s x) (ite_keeps front rfl rfl)

theorem xferReq_serves (x : Xfer) (w : Bool) (a n off : Nat) (h : Serves o z s) : Serves o z (xferReq s x w a n off) :=
  issueReq_serves _ _ _ _ _ _ (beginXferReq_serves x h)

/-- A transfer that joins takes a number of its own. -/
theorem addXfer_serves (unit prio : Nat) (use : XUse) (src dst len : Nat) (h : Serves o z s) :
    Serves o z (addXfer s unit prio use src dst len) :=
  h.trans ⟨(Follows.refl s).of_seen rfl, Nat.le_succ _, fun _ hr => .inl hr, fun _ => rfl, fun _ hi => hi⟩

theorem queueRow_serves (unit prio : Nat) (use : XUse) (src dst len : Nat) (h : Serves o z s) :
    Serves o z (queueRow s unit prio use src dst len) := h.foldl (fun _ _ => addXfer_serves _ _ _ _ _ _) _

theorem queueRows_serves {β : Type} (unit prio : Nat) (use : β → XUse) (src dst len : β → Nat) (l : List β)
    (h : Serves o z s) : Serves o z (l.foldl (fun s x => queueRow s unit prio (use x) (src x) (dst x) (len x)) s) :=
  h.foldl (fun _ _ => queueRow_serves _ _ _ _ _ _) l

theorem front_addPoison (s : State) (u : Nat) : front (addPoison s u) = front s := ite_keeps front rfl rfl

theorem front_markUnit (s : State) (u : Nat) : front (markUnit s u) = front s :=
  ite_keeps front (front_addPoison s u) (ite_keeps front (front_addPoison s u) (front_addPoison s u))

theorem storeMoved_serves (a : Nat) (bs : List Byte) (bad : Nat → Nat → Bool) (h : Serves o z s) :
    Serves o z (storeMoved s a bs bad) :=
  h.of_seen (storeMoved_seen s a bs bad) (ite_keeps front rfl (foldl_keeps front _ front_markUnit _ _))

theorem holdStream_serves (x : Xfer) (h : Serves o z s) : Serves o z (holdStream s x) :=
  h.of_seen (holdStream_seen s x) (front_of_toks (frontToks_holdStream s x))

theorem streamFault_serves (x : Xfer) (h : Serves o z s) : Serves o z (streamFault s x) :=
  .ite (holdStream_serves x h) (killJob_serves _ _ _ (h.of_seen rfl rfl))

theorem copyStep_serves {x : Xfer} {t : State} (h : Serves o z s) (ht : copyStep s x = some t) : Serves o z t := by
  unfold copyStep at ht
  split at ht
  · cases ht
  · dsimp only at ht
    split at ht <;> cases ht
    exact xferReq_serves _ _ _ _ _ (modXfer_serves _ _ (storeMoved_serves _ _ _ h))

theorem ownRead_serves (x : Xfer) (a n : Nat) (h : Serves o z s) : Serves o z (ownRead s x a n) :=
  h.foldl (fun _ _ => modEng_serves _ _) _

theorem xferStep_serves {x : Xfer} {t : State} (h : Serves o z s) (ht : xferStep s x = some t) : Serves o z t := by
  unfold xferStep at ht
  split at ht
  next s1 h1 => cases ht; exact copyStep_serves h h1
  next =>
    dsimp only at ht
    split_ifs at ht <;> cases ht
    · exact modXfer_serves _ _ (xferReq_serves _ _ _ _ _ h)
    · exact streamFault_serves x h
    · exact killJob_serves _ _ _ h
    · exact modXfer_serves _ _ (ownRead_serves _ _ _ h)
    · exact modXfer_serves _ _ (xferReq_serves _ _ _ _ _ h)

theorem pumpUnit_serves (e n : Nat) (h : Serves o z s) : Serves o z (pumpUnit e n s) := by
  induction n generalizing s with
  | zero => exact h
  | succ n ih =>
    unfold pumpUnit
    split
    · rename_i t ht
      obtain ⟨x, -, hx⟩ := List.exists_of_findSome?_eq_some ht
      exact ih (xferStep_serves h hx)
    · exact h

theorem runArray_serves (e : Nat) (h : Serves o z s) : Serves o z (runArray s e) :=
  h.of_seen (runArray_seen s e) (ite_keeps front rfl rfl)

theorem closeOperands_serves (e : Nat) (h : Serves o z s) : Serves o z (closeOperands s e) := by
  have hc := h.foldl (fun _ x => closeXfer_serves x)
    (s.ms.xfers.filter (fun x => x.unit == e && x.use.isOperand && xferOver s x))
  exact .ite (runArray_serves e hc) hc

theorem pump_serves (e : Nat) (h : Serves o z s) : Serves o z (pump s e) := closeOperands_serves e (pumpUnit_serves e _ h)

theorem pumpAll_serves (h : Serves o z s) : Serves o z (pumpAll s) := .ite h (h.foldl (fun _ e => pump_serves e) _)

theorem clearStaged_serves (e : Nat) (h : Serves o z s) : Serves o z (clearStaged s e) := by
  unfold clearStaged
  split
  · exact h
  · exact .ite h (modEng_serves _ _ (trimIf_serves _ h))

theorem stageAhead_serves (e : Nat) (h : Serves o z s) : Serves o z (stageAhead s e) := by
  have hc := clearStaged_serves e h
  unfold stageAhead
  dsimp only
  split
  · exact hc
  · refine .ite hc ?_
    split
    · exact hc
    · exact .ite hc (pump_serves e (queueRows_serves _ _ (fun _ => _) _ (fun _ => _) _ _ (modEng_serves _ _ hc)))

theorem units_serves (h : Serves o z s) : Serves o z (units s) :=
  Serves.foldl (f := stageAhead) (fun _ e => stageAhead_serves e) _ (pumpAll_serves h)

/-- Port writes that can be issued take new numbers. -/
theorem pumpPorts_serves (h : Serves o z s) : Serves o z (pumpPorts s) :=
  h.foldl (fun s _ hs => by
    dsimp only
    exact .ite (issueReq_serves _ _ _ _ _ _ (hs.of_seen rfl rfl)) hs) _

end

/-! ### Jobs that go on -/

section
variable {o : Nat → Ecc} {z s : State}

theorem modItem_serves (t : Word) (n : Nat) (f : Item → Item) (h : Serves o z s) : Serves o z (modItem s t n f) :=
  h.of_front (modItem_bg t n f (.refl s)) rfl

theorem front_modJob (s : State) (t : Word) (f : Job → Job) : front (modJob s t f) = front s := rfl

theorem front_queueReq (s : State) (t : Word) (x : List Word) (p : Nat × Nat × Nat × Bool) :
    front (queueReq s t x p) = front s := rfl

theorem beginXfer_serves (t : Word) (k : Nat) (x : List Word) (h : Serves o z s) : Serves o z (beginXfer s t k x) :=
  h.of_front (beginXfer_bg t k x (.refl s))
    ((front_modJob _ _ _).trans (foldl_keeps front _ (fun s p => front_queueReq s t x p) _ _))

theorem startXfers_serves (h : Serves o z s) : Serves o z (startXfers s) :=
  h.foldl (fun s _ hs => hs.foldl (fun s x hs => by
    split
    · exact hs
    · exact .ite (beginXfer_serves _ _ _ hs) hs) _) _

theorem runPrefetch_serves (t : Word) (n : Nat) (h : Serves o z s) : Serves o z (runPrefetch s t n) := by
  unfold runPrefetch
  split
  · exact h
  split
  · exact h
  refine .ite h ?_
  split
  · exact h
  · exact pump_serves _ (queueRows_serves _ _ _ _ _ (fun _ => _) _ (queueRow_serves _ _ _ _ _ _ (modItem_serves t n _ h)))

theorem startPrefetch_serves (h : Serves o z s) : Serves o z (startPrefetch s) :=
  h.foldl (fun _ j hs => hs.foldl (fun _ n => runPrefetch_serves j.token n) _) _

theorem afterStand_serves (h : Serves o z s) : Serves o z (afterStand s) := by
  have h1 := startXfers_serves (startPrefetch_serves h)
  exact h1.of_front (markWaits_bg (.refl _)) rfl

theorem front_standRows (s : State) (owner : Word) (as : List Nat) (r : List Word) : front (standRows s owner as r) = front s := by
  unfold standRows
  split <;> rfl

theorem standRows_serves (owner : Word) (as : List Nat) (r : List Word) (h : Serves o z s) :
    Serves o z (standRows s owner as r) := h.of_seen (standRows_seen s owner as r) (front_standRows s owner as r)

theorem front_standItemRows (s : State) (j : Job) (i : Item) : front (standItemRows s j i) = front s := by
  have hp : ∀ (u : State) (d : Desc), front (standPad u (ownerOf j) j.plan d) = front u := fun u d => by
    refine ite_keeps front rfl ?_
    split <;> rfl
  exact (foldl_keeps front _ hp _ _).trans (foldl_keeps front _ (fun s r => front_standRows s _ _ r) _ s)

theorem groupEnds_serves (j : Job) (g : Nat) (h : Serves o z s) : Serves o z (groupEnds s j g) :=
  h.of_seen (groupEnds_seen s j g) (ite_keeps front rfl rfl)

theorem front_recordRerun (s : State) (tok : Word) (layer : Nat) : front (recordRerun s tok layer) = front s := by
  unfold recordRerun
  split
  · rfl
  split
  · rfl
  · exact ite_keeps front ((front_modJob _ _ _).trans (front_of_toks (frontToks_writeFb _ _ _ _))) rfl

theorem itemStands_serves (tok : Word) (n inp : Nat) (h : Serves o z s) : Serves o z (itemStands s tok n inp) := by
  unfold itemStands
  split
  · exact h
  split
  · exact h
  next i _ =>
    have h1 := modItem_serves tok n (fun i => { i with st := .stood }) h
    dsimp only
    generalize hu : (if itemFb i then modItem s tok n (fun i => { i with st := .stood }) else _) = u
    have h2 : Serves o z u := by
      rw [← hu]
      exact .ite h1 (h1.of_seen (standItemRows_seen _ _ _) (front_standItemRows _ _ _))
    generalize hv : (if i.rerun then recordRerun u tok _ else u) = v
    have h3 : Serves o z v := by
      rw [← hv]
      exact .ite (h2.of_front (recordRerun_bg tok _ (.refl u)) (front_recordRerun u tok _)) h2
    refine afterStand_serves (tryDone_serves tok inp ?_)
    split
    · exact groupEnds_serves _ _ h3
    · exact h3

end

end Sys2Proof.Proofs
end

section
/-! PROOFS. Walks that go on and transfers that end (R192, R193, R195, R196, R216, R218, R246): the rest of the work that a response
or a time-out brings about. -/

namespace Sys2Proof.Proofs

open Sys2Proof Sys2Proof.Machine Sys2Proof.Laws

/-! ### Reads of walks -/

section
variable {o : Nat → Ecc} {z s : State}

theorem front_passReq (s : State) (src a : Nat) : front (passReq s src a) = front s :=
  (front_touchCheck _ _).trans ((front_of_toks (frontToks_giveOne _ _ _ _ _)).trans rfl)

theorem passReq_serves (src a : Nat) (h : Serves o z s) : Serves o z (passReq s src a) :=
  h.of_front (passReq_bg src a (.refl s)) (front_passReq s src a)

theorem passReqs_serves (src a n : Nat) (h : Serves o z s) : Serves o z (passReqs s src a n) :=
  h.foldl (β := Nat × Nat) (f := fun s x => passReq s src x.1) (fun _ x => passReq_serves src x.1) _

theorem readUnits_serves (a n : Nat) (r : Nat → Ecc) (h : Serves o z s) : Serves o z (readUnits s a n r) := by
  have hb : Bg s (readUnits s a n r) := Follows.foldl (fun _ u => eccRead_bg u _) _ (.refl s)
  refine h.of_front hb ?_
  show front (uncounted _) = front (uncounted s)
  rw [readUnits_uncounted]

/-- A request of a port that times out is counted, and takes a number. -/
theorem passTimeout_serves (src : Nat) (w : Bool) (a n : Nat) (ho : ¬ ∀ u, o u ≠ .timedOut) (h : Serves o z s) :
    Serves o z (passTimeout s src w a n) := by
  have hb : Bg s (passTimeout s src w a n) := setSrc_bg 83 ((Follows.refl s).of_seen rfl)
  refine h.trans ⟨hb, ?_, fun r hr => .inl ?_, fun hn => absurd hn ho, fun i hi => ?_⟩
  · unfold passTimeout
    rw [setSrc_ms]
    exact Nat.le_succ _
  · unfold passTimeout at hr
    rwa [setSrc_ms] at hr
  · unfold passTimeout streamOf
    rw [setSrc_sens]
    exact hi

/-- A port's read times out where a unit that it names does. -/
theorem portRead_serves {r : Nat → Ecc} (hr : (∀ u, o u ≠ .timedOut) → ∀ u, r u ≠ .timedOut) (src a n : Nat)
    (h : Serves o z s) : Serves o z (portRead s src a n r) := by
  refine h.foldl (fun s x hs => ?_) _
  have hp := passReq_serves src x.1 hs
  dsimp only
  split
  · next ht =>
    refine passTimeout_serves _ _ _ _ (fun ho => ?_) hp
    obtain ⟨u, -, hu⟩ := List.any_eq_true.1 ht
    exact hr ho u (by simpa using hu)
  · exact readUnits_serves _ _ _ hp

theorem moveBytes_serves {r : Nat → Ecc} (hr : (∀ u, o u ≠ .timedOut) → ∀ u, r u ≠ .timedOut) (p src dst n : Nat)
    (h : Serves o z s) : Serves o z (moveBytes s p src dst n r) := by
  unfold moveBytes
  exact storeMoved_serves _ _ _ (passReqs_serves p dst n (portRead_serves hr p src n h))

theorem copyHome_serves (id : Nat) (hd : List Word) (e : Nat) (h : Serves o z s) : Serves o z (copyHome s id hd e [] o) := by
  have hnone : ∀ (us : List Nat) (u : Nat), eccAt us [] u = .asStored := fun us u => by
    unfold eccAt
    split <;> rfl
  unfold copyHome copyBytes
  refine (moveBytes_serves (fun ho u => ?_) _ _ _ _ h).of_offStore (bumpHdr_offStore _ _ _)
  rw [hnone]
  exact ho u

theorem allocFrame_serves {id f : Nat} {t : State} (h : Serves o z s) (ht : allocFrame s id o = some (f, t)) :
    Serves o z t := by
  unfold allocFrame at ht
  dsimp only at ht
  split at ht
  · cases ht
    exact h
  · split at ht <;> cases ht
    refine (Serves.of_offStore ?_ (dropCopy_offStore _ _ _)).of_offStore (setEnt_offStore _ _ _ _ _)
    exact .ite h (copyHome_serves _ _ _ h)

/-! ### Walks -/

theorem lookAhead_serves (ps : List PDesc) (h : Serves o z s) : Serves o z (lookAhead s ps o) := by
  refine h.foldl (fun s p hs => ?_) _
  dsimp only
  split
  · split
    · exact hs
    · next f t ht =>
      have h1 := (allocFrame_serves hs ht).of_offStore (setEnt_offStore t (kvHdr s p.seq) p.ent
        (entWord 3 true (entPoison (kvEnt s (kvHdr s p.seq) p.ent)) true f) (wd (kvEnt s (kvHdr s p.seq) p.ent) 1))
      exact h1.of_seen rfl rfl
  · exact .ite (hs.of_offStore (pinPage_offStore s _ _)) hs

theorem fetchQueue_serves (l : List PDesc) (e : Nat) (a : Attempt) (h : Serves o z s) : Serves o z (fetchQueue l s e a) := by
  induction l generalizing s with
  | nil => exact h
  | cons p r ih =>
    unfold fetchQueue
    exact .ite (ih h) (.ite (modEng_serves _ _ (h.of_seen rfl rfl)) (ih (queueRow_serves _ _ _ _ _ _ h)))

theorem joinQueue_serves (f : Nat) (own : Bool) (a : Attempt) (ps : List PDesc) (h : Serves o z s) :
    Serves o z (joinQueue f own a ps s) := by
  unfold joinQueue
  split
  · exact h
  · exact .ite (fetchQueue_serves _ _ _ (modEng_serves _ _ h)) h

theorem emitBlock_serves (e : Nat) (h : Serves o z s) : Serves o z (emitBlock s e o) := by
  unfold emitBlock
  split
  · exact h
  next a _ =>
    refine .ite h ?_
    dsimp only
    generalize hu : lookAhead s _ o = u
    have h1 : Serves o z u := hu ▸ lookAhead_serves _ h
    refine .ite h1 ?_
    have h2 := joinQueue_serves e true a (emitDescs u (a.pages.take (if blockPartial a then 1 else 2)))
      (h1.foldl (β := PDesc) (f := fun s p => bumpHdr s p.seq 13) (fun s p hs => hs.of_offStore (bumpHdr_offStore s _ _))
        ((emitDescs u (a.pages.take (if blockPartial a then 1 else 2))).filter (fun p => p.hold)))
    split
    · exact joinQueue_serves _ _ _ _ h2
    · exact h2

theorem consumePages_serves (n e : Nat) (h : Serves o z s) : Serves o z (consumePages n s e) := by
  induction n generalizing s with
  | zero => exact h
  | succ n ih =>
    unfold consumePages
    split
    · exact h
    split
    · exact h
    · exact .ite h (.ite (modEng_serves _ _ h) (ih (modEng_serves _ _ h)))

theorem turnPages_serves (w : Nat) (h : Serves o z s) : Serves o z (turnPages s w o) := by
  unfold turnPages
  split
  · exact h
  next a _ =>
    refine .ite h ?_
    have h1 : Serves o z (consumeAll s w) := consumePages_serves _ w h
    have h2 : Serves o z (match a.partner with | some f => consumeAll (consumeAll s w) f | none => consumeAll s w) := by
      split
      · exact consumePages_serves _ _ h1
      · exact h1
    exact emitBlock_serves w (h2.foldl (fun s id hs => hs.of_offStore (freePins_offStore s id)) _)

theorem stepPages_serves (e : Nat) (h : Serves o z s) : Serves o z (stepPages s e o) :=
  Serves.foldl (fun _ _ => turnPages_serves _) _ (h.foldl (fun _ x => closeXfer_serves x) _)

/-! ### Transfers -/

theorem ackOutput_serves (t : Word) (n e : Nat) (h : Serves o z s) : Serves o z (ackOutput s t n e) := by
  unfold ackOutput
  dsimp only
  split
  · exact h
  split
  · exact h
  · exact .ite (itemStands_serves t n e h) h

/-- What an acknowledged row of a prefetch stream brings about: its rows stand once the auxiliary array is there, and with the
last of them the item (R246, R247). -/
def prefetchStands (s : State) (j : Job) (t : Word) (n e : Nat) (dst : List Word) : State :=
  if s.ms.xfers.any (fun x => x.use == .prefetch t n none) then s else
  match (jobOf s t).bind (fun j => j.items[n]?) with
  | none => s
  | some i =>
    let s := modItem (standRows s (ownerOf j) i.rows dst) t n (fun i => { i with rows := [] })
    if s.ms.xfers.any (fun x => x.use.isPrefetch && x.use.token == t && x.use.item == n) then afterStand s else
    let s := modItem s t n (fun i => { i with st := .stood })
    let s := match jobOf s t with | some j => groupEnds s j i.grp | none => s
    afterStand (tryDone s t e)

theorem prefetchStands_serves (j : Job) (t : Word) (n e : Nat) (dst : List Word) (h : Serves o z s) :
    Serves o z (prefetchStands s j t n e dst) := by
  unfold prefetchStands
  refine .ite h ?_
  split
  · exact h
  · next i _ =>
    have h1 := modItem_serves t n (fun i => { i with rows := [] }) (standRows_serves (ownerOf j) i.rows dst h)
    refine .ite (afterStand_serves h1) (afterStand_serves (tryDone_serves t e ?_))
    have h2 := modItem_serves t n (fun i => { i with st := .stood }) h1
    split
    · exact groupEnds_serves _ _ h2
    · exact h2

theorem ackPrefetch_serves (t : Word) (n : Nat) (row : Option Nat) (e : Nat) (h : Serves o z s) :
    Serves o z (ackPrefetch s t n row e) := by
  unfold ackPrefetch
  dsimp only
  split
  · exact h
  split
  · exact h
  next j _ _ i _ =>
    refine prefetchStands_serves j t n e (dref i.desc 16) ?_
    split
    · exact .ite h (modItem_serves _ _ _ h)
    · exact h

theorem xferEnds_serves (x : Xfer) (h : Serves o z s) : Serves o z (xferEnds s x o) := by
  unfold xferEnds
  split
  · exact closeOperands_serves _ h
  · exact stepPages_serves _ h
  · exact ackOutput_serves _ _ _ (closeXfer_serves x h)
  · exact ackPrefetch_serves _ _ _ _ (closeXfer_serves x h)

theorem xferCheck_serves (id : Nat) (h : Serves o z s) : Serves o z (xferCheck s id o) := by
  unfold xferCheck
  split
  · exact .ite (xferEnds_serves _ h) h
  · exact h

theorem store_serves (a : Nat) (bs : List Byte) (h : Serves o z s) : Serves o z (store s a bs) := h.of_seen rfl rfl

theorem storePoisoned_serves (a : Nat) (bs : List Byte) (h : Serves o z s) : Serves o z (storePoisoned s a bs) :=
  .ite (store_serves a bs h) ((store_serves a bs h).foldl
    (fun s u hs => hs.of_seen (markUnit_seen s u) (front_markUnit s u)) _)

theorem arrive_serves (x : Xfer) (off : Nat) (bs : List Byte) (bad : Bool) (h : Serves o z s) :
    Serves o z (arrive s x off bs bad) := by
  unfold arrive deliver
  refine .ite (modXfer_serves _ _ h) ?_
  exact modEng_serves _ _ (.ite (modEng_serves _ _ (.ite (storePoisoned_serves _ _ h) (store_serves _ _ h))) h)

theorem arriveAll_serves (id off : Nat) (r : Req) (data : Nat → Nat → List Byte) (bad : Nat → Nat → Bool) (h : Serves o z s) :
    Serves o z (arriveAll s id off r data bad) := by
  refine h.foldl (fun s g hs => ?_) _
  split
  · exact arrive_serves _ _ _ _ hs
  · exact hs

end

end Sys2Proof.Proofs
end

section
/-! PROOFS. Responses, time-outs and epochs of the fabric (R45, R218 to R222, R232, R277, R421). -/

namespace Sys2Proof.Proofs

open Sys2Proof Sys2Proof.Machine Sys2Proof.Laws

/-! ### Rows that landed, and sensor frames that lost a write -/

section
variable {o : Nat → Ecc} {z s : State}

theorem queueFrame_writeReply_serves (dst : BitVec 16) (reqId arg : Word) (pl : List Byte) (h : Serves o z s) :
    Serves o z (queueFrame s .writeReply dst reqId arg pl) := by
  have hw : waitReplies (queueFrame s .writeReply dst reqId arg pl) = waitReplies s := by
    unfold waitReplies queueFrame
    dsimp only
    rw [List.filter_append]
    simp
  have hstill : still (queueFrame s .writeReply dst reqId arg pl) = still s := by
    simp only [still, core, hw]
    rfl
  exact h.of_front ((Follows.refl s).of_eq hstill rfl rfl rfl) rfl

theorem standAt_serves (owner : Word) (p : Plan) (as : List Nat) (h : Serves o z s) : Serves o z (standAt s owner p as) := by
  refine h.foldl (fun s a hs => ?_) _
  split
  · exact standRows_serves _ _ _ hs
  · exact hs

theorem ownerDone_serves (w : Word) (h : Serves o z s) : Serves o z (ownerDone s w) :=
  h.foldl (fun _ t => tryDone_serves t 28) _

theorem cascadeAll_serves (h : Serves o z s) : Serves o z (cascadeAll s) :=
  h.of_ends (cascadeAll_bg (.refl s)) (cascadeAll_ends (.refl s))

theorem landEnds_serves (l : Land) (h : Serves o z s) : Serves o z (landEnds s l) := by
  unfold landEnds
  dsimp only
  generalize hu : ({ s with map := _ } : State) = u
  have h1 : Serves o z u := hu ▸ h.of_seen rfl rfl
  split
  · exact h.of_seen rfl rfl
  · generalize hv : (if (!landLives u l) = true then u else _) = v
    have h2 : Serves o z v := by
      rw [← hv]
      refine .ite h1 (.ite (afterStand_serves (standAt_serves _ _ _ h1)) (.ite (cascadeAll_serves ?_) (killJob_serves _ _ _ h1)))
      exact h.of_seen rfl rfl
    split
    · exact queueFrame_writeReply_serves _ _ _ _ h2
    · exact ownerDone_serves _ h2

theorem landAck_serves (id : Nat) (bad : Bool) (h : Serves o z s) : Serves o z (landAck s id bad) := by
  have h1 : Serves o z { s with map := { s.map with lands := s.map.lands.map (fun l =>
      if l.id == id then { l with bad := l.bad || bad } else l) } } := h.of_seen rfl rfl
  unfold landAck landCheck
  refine .ite h1 ?_
  split
  · exact landEnds_serves _ h1
  · exact h1

theorem front_dropFrame (s : State) (i : Nat) (f : SFrame) (r : Drop) (rec_ : Bool) :
    front (dropFrame s i f r rec_) = front s := by
  have hd : ∀ (c : Prop) [Decidable c] (t : State), front (if c then { t with sens := { t.sens with
      replayer := { t.sens.replayer with diverged := t.sens.replayer.diverged + 1 } } } else t) = front t :=
    fun _ _ _ => ite_keeps front rfl rfl
  have hp : ∀ (c : Prop) [Decidable c] (t : State) (f : SpPort → SpPort) (p : Nat),
      front (if c then t else modSp t p f) = front t := fun _ _ _ _ _ => ite_keeps front rfl rfl
  have hi : ∀ (c : Prop) [Decidable c] (t : State) (f : Isp → Isp) (p : Nat),
      front (if c then modIsp t p f else t) = front t := fun _ _ _ _ _ => ite_keeps front rfl rfl
  have hr : ∀ (t : State) (typ i : Nat) (a b : Word) (c d e : Nat) (pl : List Byte),
      front (recStream t typ i a b c d e pl) = front t := fun _ _ _ _ _ _ _ _ _ =>
    ite_keeps front (ite_keeps front rfl (ite_keeps front rfl rfl)) rfl
  refine (hd _ _).trans ((hr _ _ _ _ _ _ _ _ _).trans ((hi _ _ _ _).trans ((hp _ _ _ _).trans ?_)))
  simp only [front, plant, storeWords, store]

/-- A stream's change that begins no reception begins none anywhere. -/
theorem cur_modStream {f : Stream → Stream} (hf : ∀ x, x.cur = none → (f x).cur = none) (i : Nat) {j : Nat}
    (h : (streamOf s j).cur = none) : (streamOf (modStream s i f) j).cur = none := by
  by_cases hj : j = i
  · subst hj
    unfold streamOf at h ⊢
    rw [modStream_streams, List.getD_eq_getElem?_getD, getElem?_modAt, if_pos rfl]
    rw [List.getD_eq_getElem?_getD] at h
    cases hs : s.sens.streams[j]? with
    | none => rfl
    | some x =>
      rw [hs] at h
      exact hf x h
  · rwa [streamOf_modStream_ne s i j f hj]

theorem streamOf_congr {s t : State} (h : front t = front s) (i : Nat) : streamOf t i = streamOf s i := by
  simp only [front, Prod.mk.injEq] at h
  rw [streamOf, h.2, streamOf]

theorem modStream_serves {f : Stream → Stream} (hf : ∀ x, x.cur = none → (f x).cur = none) (i : Nat) (h : Serves o z s) :
    Serves o z (modStream s i f) :=
  h.trans ⟨(Follows.refl s).of_seen rfl, le_rfl, fun _ hr => .inl hr, fun _ => rfl, fun _ hj => cur_modStream hf i hj⟩

theorem dropFrame_serves (i : Nat) (f : SFrame) (r : Drop) (rec_ : Bool) (h : Serves o z s) :
    Serves o z (dropFrame s i f r rec_) := h.of_seen (dropFrame_seen s i f r rec_) (front_dropFrame s i f r rec_)

theorem ispRest_serves (n : Nat) (h : Serves o z s) : Serves o z (ispRest s n) := h.of_seen rfl rfl

theorem dropCur_serves (i : Nat) (r : Drop) (rec_ : Bool) (h : Serves o z s) : Serves o z (dropCur s i r rec_) := by
  unfold dropCur
  split
  · exact h
  · next f _ =>
    have h1 : Serves o z (modStream (dropFrame s i f r rec_) i
        (fun x => { x with cur := none, disc := some (Discard.mk f.pkts f.fseq f.seq f.lines (stEntry s i)) })) :=
      modStream_serves (fun _ _ => rfl) i (dropFrame_serves i f r rec_ h)
    exact .ite (ispRest_serves _ h1) h1

theorem dropKept_serves (i : Nat) (p : SFrame → Bool) (r : SFrame → Drop) (h : Serves o z s) :
    Serves o z (dropKept s i p r) := by
  unfold dropKept
  exact modStream_serves (f := fun x => { x with kept := x.kept.filter (fun f => !p f) }) (fun _ hx => hx) i
    (h.foldl (fun _ f => dropFrame_serves i f (r f) false) _)

theorem failIngress_serves (i : Nat) (seq : Word) (h : Serves o z s) : Serves o z (failIngress s i seq) := by
  refine dropKept_serves _ _ _ ?_
  split
  · exact .ite (dropCur_serves _ _ _ h) h
  · exact h

/-- A sensor frame in reception that is dropped is received no more. -/
theorem dropCur_cur (s : State) (i : Nat) (r : Drop) (rec_ : Bool) : (streamOf (dropCur s i r rec_) i).cur = none := by
  unfold dropCur
  split
  · assumption
  · next f hf =>
    have hlen : i < (dropFrame s i f r rec_).sens.streams.length := by
      have hst := front_dropFrame s i f r rec_
      simp only [front, Prod.mk.injEq] at hst
      rw [hst.2]
      by_contra hn
      rw [streamOf, List.getD_eq_default _ _ (Nat.not_lt.1 hn)] at hf
      cases hf
    have h1 : (streamOf (modStream (dropFrame s i f r rec_) i
        (fun x => { x with cur := none, disc := some (Discard.mk f.pkts f.fseq f.seq f.lines (stEntry s i)) })) i).cur = none := by
      rw [streamOf_modStream _ _ _ hlen]
    exact ite_keeps (fun u : State => (streamOf u i).cur) h1 h1

theorem failIngress_cur {i : Nat} {f : SFrame} (hf : (streamOf s i).cur = some f) :
    (streamOf (failIngress s i f.seq) i).cur = none := by
  have hd := dropKept_serves (o := asIs) i (fun g => g.seq == f.seq && !g.delivered) (fun _ => .writeFail)
    (.refl (dropCur s i .writeFail false))
  have hs : failIngress s i f.seq = dropKept (dropCur s i .writeFail false) i (fun g => g.seq == f.seq && !g.delivered)
      (fun _ => .writeFail) := by
    simp only [failIngress, hf, beq_self_eq_true, if_true]
  rw [hs]
  exact hd.cur i (dropCur_cur s i .writeFail false)

end

/-! ### Responses -/

section
variable {o : Nat → Ecc} {z s : State}

theorem giveOne_serves (src : Nat) (k : PoolKind) (i : Nat) (ep : Bool) (h : Serves o z s) : Serves o z (giveOne s src k i ep) :=
  h.of_front (giveOne_bg src k i ep (.refl s)) (front_of_toks (frontToks_giveOne s src k i ep))

theorem giveCredit_serves (r : Req) (h : Serves o z s) : Serves o z (giveCredit s r) :=
  Serves.foldl (fun _ l => giveOne_serves l .ring l r.epoch) _ (giveOne_serves _ _ _ _ h)

/-- What a response serves, apart from the request itself. -/
theorem respond_serves (s : State) (r : Req) (ecc : List Ecc) (also : List (Nat × Ecc)) :
    Serves (eccFor also) (dropReq s r.id) (respond s r ecc also) := by
  have h : Serves (eccFor also) (dropReq s r.id) (giveCredit (dropReq s r.id) r) := giveCredit_serves r (.refl _)
  unfold respond
  dsimp only
  split
  · exact xferCheck_serves _ (.ite h (arriveAll_serves _ _ _ _ _ (readUnits_serves _ _ _ h)))
  · exact h
  · exact h
  · exact landAck_serves _ _ h

/-- What a time-out brings about. -/
theorem timeOut_serves (r : Req) (h : Serves asIs z s) : Serves asIs z (timeOut s r) := by
  unfold timeOut
  split
  · split
    · exact h
    · refine .ite (xferCheck_serves _ (killJob_serves _ _ _ h)) (xferCheck_serves _ (arriveAll_serves _ _ _ _ _ ?_))
      exact h.of_seen rfl rfl
  · exact h
  · exact failIngress_serves _ _ h
  · exact landAck_serves _ _ h

/-- The end of a meaning that lets the ports and the stream units work, answered where a fatal source set. -/
theorem settleUnits_pumpPorts_front (s0 : State) (h : Serves o z s) :
    (∀ r ∈ (settleUnits s0 (pumpPorts s)).ms.reqs, r ∈ z.ms.reqs ∨ z.ms.nextReq ≤ r.id)
      ∧ ((∀ u, o u ≠ .timedOut) → (settleUnits s0 (pumpPorts s)).ms.timeouts = z.ms.timeouts)
      ∧ (∀ i, (streamOf z i).cur = none → (streamOf (settleUnits s0 (pumpPorts s)) i).cur = none) := by
  have hu := units_serves (pumpPorts_serves h)
  obtain ⟨hp, hcur, -⟩ := settle_plant s0 (units (pumpPorts s))
  simp only [plant, Prod.mk.injEq] at hp
  obtain ⟨-, hreqs, -, htime, -⟩ := hp
  unfold settleUnits
  exact ⟨by rw [hreqs]; exact hu.reqs, fun ho => htime.trans (hu.timeouts ho), fun i hi => hcur i (hu.cur i hi)⟩

theorem id_of_reqOf {id : Nat} {r : Req} (h : reqOf s id = some r) : r.id = id := by
  simpa using List.find?_some h

/-- A response to an outstanding request closes it: a request that is issued meanwhile has another number. -/
theorem respond_closes {id : Nat} {r : Req} (h : reqOf s id = some r) (hid : id < s.ms.nextReq) (ecc : List Ecc)
    (also : List (Nat × Ecc)) : reqOf (settleUnits s (pumpPorts (respond s r ecc also))) id = none := by
  obtain ⟨hreqs, -⟩ := settleUnits_pumpPorts_front s (respond_serves s r ecc also)
  rw [reqOf, List.find?_eq_none]
  intro q hq he
  have hqid : q.id = id := by simpa using he
  rcases hreqs q hq with hq | hq
  · simp [dropReq, id_of_reqOf h, hqid] at hq
  · have : (dropReq s r.id).ms.nextReq = s.ms.nextReq := rfl
    omega

theorem lateAnswer_timedOut {id : Nat} (h : ∃ r ∈ s.cr.timedOut, r.id = id) : lateAnswer s id = some { s with
    cr := { s.cr with timedOut := s.cr.timedOut.filter (fun r => r.id != id) }
    ms := { s.ms with lateDrop := satAdd 0xFFFF s.ms.lateDrop 1 } } := by
  rw [lateAnswer, if_pos (by simpa using h)]

theorem lateAnswer_reclaimed {id : Nat} (h : ∀ r ∈ s.cr.timedOut, r.id ≠ id) : lateAnswer s id =
    if s.cr.reclaimed.any (fun r => r.id == id) then
      some (setSrc { s with cr := { s.cr with reclaimed := s.cr.reclaimed.filter (fun r => r.id != id) } } 84)
    else none := by
  rw [lateAnswer, if_neg (by simpa using h)]

end

/-! ### Time-outs -/

/-- A request is counted as timed out, with its source (R219). -/
def reqLost (s : State) (r : Req) : State :=
  let s1 := giveCredit (dropReq s r.id) r
  setSrc { s1 with
    ms := { s1.ms with timeouts := satAdd 0xFFFF s1.ms.timeouts 1 }
    cr := { s1.cr with timedOut := s1.cr.timedOut ++ [r] } } 83

section
variable {s : State} {r : Req}

theorem asIs_ne_timedOut (u : Nat) : asIs u ≠ .timedOut := fun h => nomatch h

/-- What a lost request leaves of transfers, of the collector's inputs and of the streams. -/
def lossView (s : State) := (s.ms.xfers, inputs s, s.sens.streams)

theorem lossView_setSrc (s : State) (n : Nat) : lossView (setSrc s n) = lossView s := by
  unfold setSrc
  split <;> rfl

theorem lossView_giveOne (s : State) (src : Nat) (k : PoolKind) (i : Nat) (ep : Bool) :
    lossView (giveOne s src k i ep) = lossView s := ite_keeps lossView rfl (lossView_setSrc _ 82)

theorem lossView_giveCredit (s : State) (r : Req) : lossView (giveCredit s r) = lossView s :=
  (foldl_keeps lossView _ (fun s l => lossView_giveOne s l .ring l r.epoch) _ _).trans (lossView_giveOne s _ _ _ _)

theorem lossView_reqLost (s : State) (r : Req) : lossView (reqLost s r) = lossView s :=
  (lossView_setSrc _ 83).trans (lossView_giveCredit (dropReq s r.id) r)

theorem timeouts_reqLost (s : State) (r : Req) : (reqLost s r).ms.timeouts = satAdd 0xFFFF s.ms.timeouts 1 := by
  have hg := (giveCredit_serves (o := asIs) r (.refl (dropReq s r.id))).timeouts asIs_ne_timedOut
  unfold reqLost
  rw [setSrc_ms]
  dsimp only
  rw [hg]
  rfl

theorem exec_fabricTimeout {id : Nat} (h : reqOf s id = some r) :
    exec (.fabricTimeout id) s = .next (settleUnits s (pumpPorts (timeOut (reqLost s r) r))) := by
  have hex : exec (.fabricTimeout id) s = execFabricTimeout id s := rfl
  rw [hex, execFabricTimeout, h]
  rfl

/-- A write of a task's output, or of a prefetched row, that is lost ends its job. -/
theorem timeOut_kills {n off : Nat} {x : Xfer} (hp : r.purpose = .xfer n off) (hw : r.write = true)
    (hx : xferOf s n = some x) (hi : inputStalled s x.unit = false) :
    jobOf (settleUnits s (pumpPorts (timeOut (reqLost s r) r))) x.use.token = none := by
  have hv := lossView_reqLost s r
  simp only [lossView, Prod.mk.injEq] at hv
  obtain ⟨hxfers, hin, -⟩ := hv
  have hxl : xferOf (reqLost s r) n = some x := by rw [xferOf, hxfers]; exact hx
  have ht : timeOut (reqLost s r) r = xferCheck (killJob (reqLost s r) x.use.token .killedPoison x.unit) n := by
    rw [timeOut, hp]
    dsimp only
    rw [hxl]
    exact if_pos hw
  have hk : jobOf (killJob (reqLost s r) x.use.token .killedPoison x.unit) x.use.token = none :=
    jobOf_killJob ((inputStalled_of_inputs hin x.unit).trans hi)
  have hb := (pumpPorts_serves (xferCheck_serves (o := asIs) n (.refl (killJob (reqLost s r) x.use.token .killedPoison x.unit)))).bg
  rw [ht]
  exact (settleUnits_core (.refl _) s).jobOf_none (hb.jobOf_none hk)

/-- A sensor frame in reception that loses a write is dropped. -/
theorem timeOut_drops {i : Nat} {f : SFrame} (hp : r.purpose = .ingress i f.seq) (hf : (streamOf s i).cur = some f) :
    (streamOf (settleUnits s (pumpPorts (timeOut (reqLost s r) r))) i).cur = none := by
  have hv := lossView_reqLost s r
  simp only [lossView, Prod.mk.injEq] at hv
  obtain ⟨-, -, hst⟩ := hv
  have hfl : (streamOf (reqLost s r) i).cur = some f := by rw [streamOf, hst]; exact hf
  have ht : timeOut (reqLost s r) r = failIngress (reqLost s r) i f.seq := by
    rw [timeOut, hp]
  rw [ht]
  exact (settleUnits_pumpPorts_front (o := asIs) s (.refl _)).2.2 i (failIngress_cur hfl)

end

/-! ### Epochs -/

/-- The counts of a pool for an epoch are cleared (R221). -/
def clearEpoch (ep : Bool) (p : Pool) : Pool := if ep then { p with iss0 := 0, ret0 := 0 } else { p with iss1 := 0, ret1 := 0 }

/-- What the check of a pool leaves: the counts cleared, and a violation where they differ, once nothing of the old epoch is
outstanding (R220, R221). -/
def epochChecked (s : State) (n : Nat) (p : Pool) : State :=
  let cleared := { s with cr := { s.cr with pools := setAt s.cr.pools n (clearEpoch s.ms.epoch p) } }
  if poolOld s p then s
  else if oldIss s p = oldRet s p then cleared
  else settle s (creditViolation cleared)

theorem exec_creditEpochCheck {s : State} {n : Nat} {p : Pool} (hp : s.cr.pools[n]? = some p) :
    exec (.creditEpochCheck n) s = .next (epochChecked s n p) := by
  have hex : exec (.creditEpochCheck n) s = execCreditEpochCheck n s := rfl
  rw [hex, execCreditEpochCheck, hp, epochChecked, ← modAt_eq_setAt hp (clearEpoch s.ms.epoch)]
  rfl

/-- While something of the old epoch is outstanding the pool waits. -/
theorem epochChecked_waits {s : State} {n : Nat} {p : Pool} (h : poolOld s p = true) : epochChecked s n p = s := if_pos h

theorem creditViolation_bit (s : State) : (creditViolation s).fc.fsw.getLsbD 82 = true :=
  setSrc_sets_bit _ (by decide) (by decide)

/-- Settles O38: a response by what it serves, among requests of new numbers alone (`respond_closes`); a time-out by what its
request was for (`timeOut_kills`, `timeOut_drops`), with one count; a pool's check by its counts. -/
theorem fabricCreditsAndEpochs : Obligations.FabricCreditsAndEpochs := by
  refine ⟨⟨fun s id r ecc also h hid => ?_, ?_, fun s id hn hr => ?_, fun s id ecc also h hn hr => ?_, fun s id r h => ?_⟩,
    fun s n p hp => ?_⟩
  · have hex : exec (.fabricResponse id ecc also) s = .next (settleUnits s (pumpPorts (respond s r ecc also))) := by
      have he : exec (.fabricResponse id ecc also) s = execFabricResponse id ecc s also := rfl
      rw [he, execFabricResponse, h]
    refine ⟨_, hex, respond_closes h hid ecc also, fun i q hq => ?_⟩
    rw [respond, hq, id_of_reqOf h]
  · rintro s id ecc also s1 h ht rfl
    have hl := lateAnswer_timedOut ht
    have hex : exec (.fabricResponse id ecc also) s = execFabricResponse id ecc s also := rfl
    have hex' : exec (.lateResponse id) s = .next ((lateAnswer s id).getD s) := rfl
    rw [hex, hex', execFabricResponse, h, hl]
    exact ⟨rfl, rfl⟩
  · have hex : exec (.lateResponse id) s = .next ((lateAnswer s id).getD s) := rfl
    rw [hex, lateAnswer_reclaimed hn, if_pos (by simpa using hr)]
    refine ⟨_, rfl, setSrc_sets_bit _ (by decide) (by decide), ?_, ?_, ?_⟩
    · rw [Option.getD_some, setSrc_cr]
    · rw [Option.getD_some, setSrc_ms]
    · rw [Option.getD_some, setSrc_sch]
  · have hex : exec (.fabricResponse id ecc also) s = execFabricResponse id ecc s also := rfl
    rw [hex, execFabricResponse, h, lateAnswer_reclaimed hn, if_neg (by simpa using hr)]
    exact ⟨_, rfl, settleUnits_fsw _ _ (creditViolation_bit s)⟩
  · have hserves := timeOut_serves r (.refl (reqLost s r))
    have hset : (reqLost s r).fc.fsw.getLsbD 83 = true := setSrc_sets_bit _ (by decide) (by decide)
    refine ⟨_, exec_fabricTimeout h, ?_, settleUnits_fsw _ _ ((pumpPorts_serves hserves).bg.fsw 83 hset),
      fun n off x hp hw hx hi => timeOut_kills hp hw hx hi, fun i q f hp hf hq => timeOut_drops (hq ▸ hp) hf⟩
    exact ((settleUnits_pumpPorts_front s hserves).2.1 asIs_ne_timedOut).trans (timeouts_reqLost s r)
  · rw [exec_creditEpochCheck hp]
    refine ⟨fun hring hstream hreq => congrArg _ (epochChecked_waits ?_), fun hk hreq => congrArg _ (epochChecked_waits ?_),
      fun hk hx => congrArg _ (epochChecked_waits ?_), fun hold => ?_⟩
    · obtain ⟨r, hr, hsrc, hkind, hidx, hep⟩ := hreq
      have hany : s.ms.reqs.any (fun r => r.src == p.src && r.kind == p.kind && r.idx == p.idx && r.epoch != s.ms.epoch) = true :=
        List.any_eq_true.2 ⟨r, hr, by simp [hsrc, hkind, hidx, hep]⟩
      unfold poolOld
      split
      · next h => exact absurd h hring
      · next h => exact absurd h hstream
      all_goals exact hany
    · rw [poolOld, hk]
      simpa using hreq
    · rw [poolOld, hk]
      simpa [and_assoc] using hx
    · rw [epochChecked, hold, if_neg (by decide)]
      refine ⟨fun he hc => ?_, fun he hc => ?_, fun he hc => ?_, fun he hc => ?_⟩
      · rw [if_pos (by simpa [oldIss, oldRet, he] using hc), he]
        rfl
      · rw [if_pos (by simpa [oldIss, oldRet, he] using hc), he]
        rfl
      · rw [if_neg (by simpa [oldIss, oldRet, he] using hc)]
        exact ⟨_, rfl, settle_fsw _ _ (creditViolation_bit _)⟩
      · rw [if_neg (by simpa [oldIss, oldRet, he] using hc)]
        exact ⟨_, rfl, settle_fsw _ _ (creditViolation_bit _)⟩

end Sys2Proof.Proofs
end

section
/-! PROOFS. The sensor front: what records, forwarding, drops and stores leave of a state, how a stream's sensor frame is
accepted, closed and dropped (R272, R273, R276, R277, R285, R302). -/

namespace Sys2Proof.Proofs

open Sys2Proof Sys2Proof.Machine Sys2Proof.Laws

/-! ### Elements of lists -/

theorem modAt_modAt {α : Type} (l : List α) (i : Nat) (f g : α → α) :
    modAt (modAt l i f) i g = modAt l i (fun x => g (f x)) := by
  refine List.ext_getElem? fun j => ?_
  simp only [getElem?_modAt]
  split
  · rw [Option.map_map]
    rfl
  · rfl

/-- A change that a view does not see. -/
theorem map_modAt {α β : Type} {f : α → α} {g : α → β} (h : ∀ x, g (f x) = g x) (l : List α) (i : Nat) :
    (modAt l i f).map g = l.map g := by
  refine List.ext_getElem? fun j => ?_
  simp only [List.getElem?_map, getElem?_modAt]
  split
  · rw [Option.map_map]
    exact congrArg (fun q => Option.map q l[j]?) (funext h)
  · rfl

theorem getD_modAt {α : Type} {l : List α} {i : Nat} (hi : i < l.length) (f : α → α) (d : α) :
    (modAt l i f).getD i d = f (l.getD i d) := by
  simp only [List.getD_eq_getElem?_getD, getElem?_modAt, if_true, List.getElem?_eq_getElem hi, Option.map_some,
    Option.getD_some]

/-- An element that differs from the default one stands in its list. -/
theorem lt_length_of_getD {α β : Type} {l : List α} {i : Nat} {d : α} (g : α → β) (h : g (l.getD i d) ≠ g d) :
    i < l.length := by
  by_contra hn
  exact h (by rw [List.getD_eq_default _ _ (Nat.not_lt.1 hn)])

/-! ### The view -/

/-- A sensor port apart from its counts of corrected headers and drops, and from what it forwards. -/
def portKept (x : SpPort) : SpPort := { x with hdrCorr := 0, drops := 0, fwdOn := false, fwdCut := false, fwdQ := [] }

/-- A state apart from what the records, drops, stores and forwarded packets of sensor frames move (R277, R285, R302). -/
def offFront (s : State) : State :=
  { s with
    mem := [], poison := [], csramBad := [], ms := {}, cr := {}
    sch := { s.sch with dropIdx := 0, dropWraps := 0 }
    sens := { s.sens with sp := s.sens.sp.map portKept, isp := [], recorder := {}
                          replayer := { s.sens.replayer with diverged := 0 } } }

/-- One more sensor frame counted as dropped (R45). -/
def countDrop (s : State) : State := { s with sens := { s.sens with dropped := s.sens.dropped + 1 } }

/-- One more sensor frame counted as accepted (R45). -/
def countAccept (s : State) : State := { s with sens := { s.sens with accepted := s.sens.accepted + 1 } }

section
variable (s : State)

theorem offFront_modSp {f : SpPort → SpPort} (hf : ∀ x, portKept (f x) = portKept x) (p : Nat) :
    offFront (modSp s p f) = offFront s := by
  unfold offFront modSp
  dsimp only
  rw [map_modAt hf]

theorem offFront_forward (p slot kind dt : Nat) (pl : List Byte) : offFront (forward s p slot kind dt pl) = offFront s := by
  have h : ((forward s p slot kind dt pl).sens.sp.map portKept) = s.sens.sp.map portKept := by
    refine List.ext_getElem? fun j => ?_
    unfold forward modTx
    simp only [List.getElem?_map, List.getElem?_zipIdx, Option.map_map]
    refine congrArg (fun q => Option.map q s.sens.sp[j]?) (funext fun x => ?_)
    simp only [Function.comp_apply]
    split <;> rfl
  unfold offFront
  rw [h]
  rfl

theorem offFront_recStream (typ i : Nat) (fseq seq : Word) (ns sec aux : Nat) (pl : List Byte) :
    offFront (recStream s typ i fseq seq ns sec aux pl) = offFront s :=
  ite_keeps offFront (ite_keeps offFront rfl (ite_keeps offFront rfl rfl)) rfl

/-- A drop is counted, and nothing else of what the view shows changes (R277). -/
theorem offFront_dropFrame (i : Nat) (f : SFrame) (r : Drop) (rec_ : Bool) :
    offFront (dropFrame s i f r rec_) = offFront (countDrop s) := by
  have hd : ∀ (c : Prop) [Decidable c] (t : State), offFront (if c then { t with sens := { t.sens with
      replayer := { t.sens.replayer with diverged := t.sens.replayer.diverged + 1 } } } else t) = offFront t :=
    fun _ _ _ => ite_keeps offFront rfl rfl
  have hp : ∀ (c : Prop) [Decidable c] (t : State) (p : Nat),
      offFront (if c then t else modSp t p (fun x => { x with drops := satAdd 0xFFFF x.drops 1 })) = offFront t :=
    fun _ _ t p => ite_keeps offFront rfl
      (offFront_modSp t (f := fun x => { x with drops := satAdd 0xFFFF x.drops 1 }) (fun _ => rfl) p)
  have hi : ∀ (c : Prop) [Decidable c] (t : State) (g : Isp → Isp) (p : Nat),
      offFront (if c then modIsp t p g else t) = offFront t := fun _ _ _ _ _ => ite_keeps offFront rfl rfl
  exact (hd _ _).trans ((offFront_recStream _ _ _ _ _ _ _ _ _).trans ((hi _ _ _ _).trans ((hp _ _ _).trans
    (by simp only [offFront, countDrop, storeWords, store]))))

end

section
variable {s t : State}

/-- What can be told of the view is the same where the views are. -/
theorem offFront_tells {β : Type} (g : State → β) (h : offFront t = offFront s) (hg : ∀ u, g (offFront u) = g u := by exact fun _ => rfl) :
    g t = g s := by
  rw [← hg t, h, hg]

theorem offFront_streamOf (h : offFront t = offFront s) (i : Nat) : streamOf t i = streamOf s i :=
  offFront_tells (fun u => streamOf u i) h

/-- Equal views after an equal change of a stream. -/
theorem offFront_modStream (h : offFront t = offFront s) (i : Nat) (f : Stream → Stream) :
    offFront (modStream t i f) = offFront (modStream s i f) := by
  show modStream (offFront t) i f = modStream (offFront s) i f
  rw [h]

theorem offFront_sp (h : offFront t = offFront s) (p : Nat) :
    portKept (t.sens.sp.getD p {}) = portKept (s.sens.sp.getD p {}) := by
  have hs : t.sens.sp.map portKept = s.sens.sp.map portKept := congrArg (fun u : State => u.sens.sp) h
  have hm : ∀ l : List SpPort, portKept (l.getD p {}) = (l.map portKept).getD p {} := fun l =>
    (List.getD_map l {} portKept).symm
  rw [hm, hm, hs]

end

theorem modStream_modStream (s : State) (i : Nat) (f g : Stream → Stream) :
    modStream (modStream s i f) i g = modStream s i (fun x => g (f x)) := by
  unfold modStream
  dsimp only
  rw [modAt_modAt]

/-! ### Drops, discards and closes -/

/-- The sensor frame in reception is gone, counted as dropped, and `d` is still to be discarded. -/
def frameAway (s : State) (i : Nat) (d : Option Discard) : State :=
  modStream (countDrop s) i (fun x => { x with cur := none, disc := d })

section
variable {s : State} {i : Nat} {f : SFrame}

theorem offFront_dropCur (hf : (streamOf s i).cur = some f) (r : Drop) (rec_ : Bool) :
    offFront (dropCur s i r rec_) = offFront (frameAway s i (some (Discard.mk f.pkts f.fseq f.seq f.lines (stEntry s i)))) := by
  have h := offFront_modStream (offFront_dropFrame s i f r rec_) i
    (fun x => { x with cur := none, disc := some (Discard.mk f.pkts f.fseq f.seq f.lines (stEntry s i)) })
  unfold dropCur
  rw [hf]
  exact ite_keeps offFront h h

theorem dropCur_idle (hf : (streamOf s i).cur = none) (r : Drop) (rec_ : Bool) : dropCur s i r rec_ = s := by
  unfold dropCur
  rw [hf]

theorem recStream_idle (h : s.sens.recorder.state = 0) (typ i : Nat) (fseq seq : Word) (ns sec aux : Nat) (pl : List Byte) :
    recStream s typ i fseq seq ns sec aux pl = s := by
  simp [recStream, putRec, h]

/-- The sensor frame in reception awaits delivery (R273). -/
def frameClosed (s : State) (i : Nat) (f : SFrame) : State :=
  modStream s i (fun x => { x with cur := none, kept := x.kept ++ [{ f with closed := true }] })

theorem offFront_closeFrame (hf : (streamOf s i).cur = some f) : offFront (closeFrame s i) = offFront (frameClosed s i f) := by
  unfold closeFrame
  rw [hf]
  exact offFront_modStream (offFront_recStream s _ _ _ _ _ _ _ _) i _

theorem streamOf_frameAway (hi : i < s.sens.streams.length) (d : Option Discard) :
    streamOf (frameAway s i d) i = { streamOf s i with cur := none, disc := d } := streamOf_modStream _ _ _ hi

theorem streamOf_frameClosed (hi : i < s.sens.streams.length) :
    streamOf (frameClosed s i f) i = { streamOf s i with cur := none, kept := (streamOf s i).kept ++ [{ f with closed := true }] } :=
  streamOf_modStream _ _ _ hi

end

/-! ### Stores of the ingress port -/

theorem offFront_pumpPorts (s : State) : offFront (pumpPorts s) = offFront s :=
  foldl_keeps offFront _ (fun s r => ite_keeps offFront (by
    have ht : ∀ (u : State) (a : Nat), offFront (touchCheck u a) = offFront u := fun _ _ => ite_keeps offFront rfl rfl
    exact (ht _ _).trans ((foldl_keeps offFront (fun s l => takeCredit s l .ring l) (fun _ _ => rfl) _ _).trans rfl)) rfl) _ _

theorem offFront_ingressStore (s : State) (i : Nat) (seq : Word) (src a : Nat) (bs : List Byte) :
    offFront (ingressStore s i seq src a bs) = offFront s := (offFront_pumpPorts _).trans rfl

end Sys2Proof.Proofs
end

section
/-! PROOFS. Camera streams: Frame Starts and completed sensor frames (R272 to R274, R276, R277, R303). -/

namespace Sys2Proof.Proofs

open Sys2Proof Sys2Proof.Machine Sys2Proof.Laws

/-! ### Acceptance -/

/-- A sensor frame as it is accepted. -/
def newFrame (seq : Word) (b : Nat) (fseq : Word) (t : Nat) : SFrame :=
  { seq := seq, buf := b, fseq := fseq, ns := t % 1000000000, sec := t / 1000000000 % 2 ^ 32, lines := 0, pkts := 0, used := 0
    closed := false, delivered := false, claimed := false, raw := [] }

/-- A sensor frame is counted as accepted, with its stream's next number (R276). -/
def numbered (s : State) (i : Nat) : State := countAccept (modStream s i (fun x => { x with next := x.next + 1 }))

/-- It is dropped at once. -/
def refused (s : State) (i t : Nat) (r : Drop) : State :=
  modStream (dropFrame (numbered s i) i (newFrame (streamOf s i).next 0 (memberOf s i t) t) r false) i
    (fun x => { x with cur := none, disc := some (Discard.mk 0 (memberOf s i t) (streamOf s i).next 0 (stEntry s i)) })

/-- It is received into buffer `b`. -/
def taken (s : State) (i t b : Nat) : State :=
  modStream (recStream (numbered s i) 2 i (memberOf s i t) (streamOf s i).next (t % 1000000000) (t / 1000000000 % 2 ^ 32) 0 []) i
    (fun x => { x with cur := some (newFrame (streamOf s i).next b (memberOf s i t) t), disc := none })

section
variable {s : State} {i : Nat} {t : Nat}

theorem stEntry_congr {s u : State} (hs : u.sets = s.sets) (i : Nat) : stEntry u i = stEntry s i := by
  unfold stEntry activeSet hasActive slotOf
  rw [hs]

theorem memberOf_congr {s u : State} (hs : u.sets = s.sets) (hq : u.sch = s.sch) (ht : u.sens.trigFires = s.sens.trigFires)
    (i t : Nat) : memberOf u i t = memberOf s i t := by
  unfold memberOf
  rw [stEntry_congr hs, hq, ht]

theorem length_streams (s : State) (i : Nat) (f : Stream → Stream) :
    (modStream s i f).sens.streams.length = s.sens.streams.length := length_modAt _ _ _

theorem streamOf_numbered (hi : i < s.sens.streams.length) :
    streamOf (numbered s i) i = { streamOf s i with next := (streamOf s i).next + 1 } := streamOf_modStream s i _ hi

/-- A change of a stream that leaves its sensor frames leaves its free buffers. -/
theorem freeBuf_modStream {g : Stream → Stream} (hi : i < s.sens.streams.length)
    (hg : ∀ x, (g x).kept = x.kept ∧ (g x).cur = x.cur) : freeBuf (modStream s i g) i = freeBuf s i := by
  unfold freeBuf
  dsimp only
  rw [streamOf_modStream s i g hi, stEntry_congr (u := modStream s i g) (s := s) rfl, (hg _).1, (hg _).2]

theorem freeBuf_numbered (hi : i < s.sens.streams.length) : freeBuf (numbered s i) i = freeBuf s i :=
  freeBuf_modStream (g := fun x => { x with next := x.next + 1 }) hi (fun _ => ⟨rfl, rfl⟩)

/-- The test of acceptance (R272, R276, R277). -/
theorem acceptLive_eq (hi : i < s.sens.streams.length) : acceptLive s i t =
    if memberOf s i t ≠ s.sch.seq ∨ s.sch.phase = .slack then refused s i t (lateReason s (memberOf s i t))
    else if (streamOf s i).delivered ≠ none then refused s i t .surplus
    else (freeBuf s i).elim (refused s i t .noBuffer) (taken s i t) := by
  have hd : (streamOf (numbered s i) i).delivered = (streamOf s i).delivered := by rw [streamOf_numbered hi]
  rw [← freeBuf_numbered hi, ← hd]
  show acceptFrame _ i _ _ _ _ = _
  unfold acceptFrame
  refine (if_congr ?_ rfl (if_congr ?_ rfl ?_))
  · show (memberOf s i t != s.sch.seq || s.sch.phase == .slack) = true ↔ _
    simp
  · exact Option.isSome_iff_ne_none
  · show _ = (freeBuf (numbered s i) i).elim _ _
    unfold numbered countAccept
    generalize freeBuf _ i = b
    cases b <;> rfl

theorem acceptLive_refused (hi : i < s.sens.streams.length)
    (h : memberOf s i t ≠ s.sch.seq ∨ s.sch.phase = .slack ∨ (streamOf s i).delivered ≠ none ∨ freeBuf s i = none) :
    ∃ r, acceptLive s i t = refused s i t r := by
  rw [acceptLive_eq hi]
  split
  · exact ⟨_, rfl⟩
  · next h1 =>
    split
    · exact ⟨_, rfl⟩
    · next h2 =>
      have hf : freeBuf s i = none := by tauto
      exact ⟨.noBuffer, by rw [hf]; rfl⟩

theorem acceptLive_taken {b : Nat} (hi : i < s.sens.streams.length) (hm : memberOf s i t = s.sch.seq) (hp : s.sch.phase ≠ .slack)
    (hd : (streamOf s i).delivered = none) (hb : freeBuf s i = some b) : acceptLive s i t = taken s i t b := by
  rw [acceptLive_eq hi, if_neg (by tauto), if_neg (by tauto), hb]
  rfl

theorem offFront_refused (r : Drop) : offFront (refused s i t r) = offFront (frameAway (numbered s i) i
    (some (Discard.mk 0 (memberOf s i t) (streamOf s i).next 0 (stEntry s i)))) :=
  offFront_modStream (offFront_dropFrame _ _ _ _ _) i _

/-- Accepted or dropped at once, a sensor frame is counted as accepted, and no drop is undone. -/
theorem acceptLive_counts (hi : i < s.sens.streams.length) :
    (acceptLive s i t).sens.accepted = s.sens.accepted + 1 ∧ s.sens.dropped ≤ (acceptLive s i t).sens.dropped := by
  by_cases h : memberOf s i t ≠ s.sch.seq ∨ s.sch.phase = .slack ∨ (streamOf s i).delivered ≠ none ∨ freeBuf s i = none
  · obtain ⟨r, hr⟩ := acceptLive_refused hi h
    rw [hr, offFront_tells (fun u => u.sens.accepted) (offFront_refused r), offFront_tells (fun u => u.sens.dropped) (offFront_refused r)]
    exact ⟨rfl, Nat.le_succ _⟩
  · simp only [not_or, not_not] at h
    obtain ⟨hm, hp, hd, hf⟩ := h
    obtain ⟨b, hb⟩ := Option.ne_none_iff_exists'.1 hf
    have hv : offFront (taken s i t b) = offFront _ := offFront_modStream (offFront_recStream (numbered s i) _ _ _ _ _ _ _ _) i _
    rw [acceptLive_taken hi hm hp hd hb, offFront_tells (fun u => u.sens.accepted) hv, offFront_tells (fun u => u.sens.dropped) hv]
    exact ⟨rfl, le_rfl⟩

/-! ### Frame Starts -/

variable {port vc sl : Nat} (hrx : portRx s port = true) (hv : vcSlot s port vc = some sl) (hc : camStream s port sl = some i)
include hrx hv hc

theorem exec_csi2FrameStart (hr : s.sch.run = .running) (hu : underReplay s i = false) : exec (.csi2FrameStart port vc) s
    = .next (acceptLive (camBegin (forward s port sl 0 0x00 []) i) i (camStamp s port)) := by
  have he : exec (.csi2FrameStart port vc) s = execCsi2FrameStart port vc s := rfl
  simp [he, execCsi2FrameStart, hrx, hv, hc, hr, hu]

end

theorem exec_sensorFrameComplete {s : State} {i k : Nat} {f : SFrame} (hk : (streamOf s i).kept[k]? = some f)
    (hf : (streamOf s i).kept.findIdx? (fun f => f.closed && !f.complete && !writesOut s i f) = some k)
    (hd : (streamOf s i).delivered = none) (hq : f.fseq = s.sch.seq) (hr : s.sch.run = .running)
    (ho : recordedDrop s i f.fseq f.seq = none) : exec (.sensorFrameComplete i) s = .next (fireArrival (modStream s i (fun x =>
      { x with kept := modAt x.kept k (fun f => { f with complete := true, delivered := true })
               delivered := some f.buf })) (stArrival (stEntry s i))) := by
  have he : exec (.sensorFrameComplete i) s = execSensorFrameComplete i s := rfl
  simp [he, execSensorFrameComplete, hf, hk, hd, hq, hr, hq ▸ ho]

/-! ### Arrivals -/

section
variable {s : State} {a : Nat}

/-- The entry fires where every stream of it has delivered (R274). -/
theorem fireArrival_fires (ha : a < 64) (h : ∀ j, j < 64 → stValid (stEntry s j) = true → stArrival (stEntry s j) = a →
    (streamOf s j).delivered ≠ none) : (fireArrival s a).sch.arrived.getLsbD a = true := by
  have hall : ((List.range 64).all (fun i => !(stValid (stEntry s i) && stArrival (stEntry s i) == a)
      || (streamOf s i).delivered.isSome)) = true := by
    refine List.all_eq_true.2 fun j hj => ?_
    by_cases hm : stValid (stEntry s j) = true ∧ stArrival (stEntry s j) = a
    · simp [Option.isSome_iff_ne_none.2 (h j (List.mem_range.1 hj) hm.1 hm.2)]
    · rw [not_and] at hm
      by_cases hv : stValid (stEntry s j) = true <;> simp [hv, hm]
  unfold fireArrival
  rw [if_pos hall]
  show (s.sch.arrived ||| BitVec.ofNat 64 (2 ^ a)).getLsbD a = true
  rw [BitVec.getLsbD_or, BitVec.getLsbD_ofNat, Nat.testBit_two_pow_self, decide_eq_true ha, Bool.and_true, Bool.or_true]

theorem fireArrival_waits {j : Nat} (hj : j < 64) (hv : stValid (stEntry s j) = true) (ha : stArrival (stEntry s j) = a)
    (hd : (streamOf s j).delivered = none) : fireArrival s a = s := by
  unfold fireArrival
  refine if_neg fun hall => ?_
  have := List.all_eq_true.1 hall j (List.mem_range.2 hj)
  simp [hv, ha, hd] at this

end

theorem stArrival_lt (e : List Word) : stArrival e < 64 := by
  have h : ∀ w : Word, bits w 24 19 < 64 := fun w => by unfold bits; omega
  exact h _

/-- What an arrival leaves. -/
theorem fireArrival_keeps {β : Type} (g : State → β) (hg : ∀ u x, g { u with sch := x } = g u) (s : State) (a : Nat) :
    g (fireArrival s a) = g s := ite_keeps g (hg _ _) rfl

/-- With no recording on, what an accepted sensor frame changes. -/
theorem taken_eq (hrec : s.sens.recorder.state = 0) (b : Nat) : taken s i t b = modStream (countAccept s) i (fun x =>
    { x with next := x.next + 1, cur := some (newFrame (streamOf s i).next b (memberOf s i t) t), disc := none }) := by
  unfold taken
  rw [recStream_idle (s := numbered s i) hrec]
  exact modStream_modStream (countAccept s) i (fun x => { x with next := x.next + 1 }) _

/-! ### The clauses on Frame Starts -/

/-- A Frame Start is forwarded, and its stream discards nothing more (R277, R285). -/
def begun (s : State) (i port sl : Nat) : State := modStream (forward s port sl 0 0x00 []) i (fun x => { x with disc := none })

theorem begun_view {s : State} {i port sl : Nat} (hi : i < s.sens.streams.length) :
    streamOf (begun s i port sl) i = { streamOf s i with disc := none } ∧ freeBuf (begun s i port sl) i = freeBuf s i
      ∧ ∀ t, memberOf (begun s i port sl) i t = memberOf s i t :=
  ⟨streamOf_modStream (forward s port sl 0 0x00 []) i _ hi,
    (freeBuf_modStream (s := forward s port sl 0 0x00 []) (g := fun x => { x with disc := none }) hi (fun _ => ⟨rfl, rfl⟩)).trans rfl,
    fun t => memberOf_congr rfl rfl rfl i t⟩

section
variable {s : State} {i port vc sl : Nat} (hrx : portRx s port = true) (hv : vcSlot s port vc = some sl)
  (hc : camStream s port sl = some i) (hr : s.sch.run = .running) (hu : underReplay s i = false) (hi : i < s.sens.streams.length)
include hrx hv hc hr hu hi

/-- A Frame Start before the Frame End drops the sensor frame in reception (R277). -/
theorem frameStart_early {f : SFrame} (hf : (streamOf s i).cur = some f) : ∃ t, exec (.csi2FrameStart port vc) s = .next t
    ∧ t.sens.accepted = s.sens.accepted + 1 ∧ s.sens.dropped + 1 ≤ t.sens.dropped := by
  have hb : offFront (camBegin (forward s port sl 0 0x00 []) i) = offFront _ :=
    offFront_modStream (offFront_dropCur (s := forward s port sl 0 0x00 []) hf .format false) i (fun x => { x with disc := none })
  have hlen : i < (camBegin (forward s port sl 0 0x00 []) i).sens.streams.length := by
    rw [offFront_tells (fun u => u.sens.streams.length) hb, length_streams, frameAway, length_streams]
    exact hi
  have hn := acceptLive_counts (t := camStamp s port) hlen
  rw [offFront_tells (fun u => u.sens.accepted) hb, offFront_tells (fun u => u.sens.dropped) hb] at hn
  exact ⟨_, exec_csi2FrameStart hrx hv hc hr hu, hn⟩

omit hi in
/-- With none in reception the Frame Start only ends what the stream discards. -/
theorem frameStart_idle (hn : (streamOf s i).cur = none) :
    exec (.csi2FrameStart port vc) s = .next (acceptLive (begun s i port sl) i (camStamp s port)) := by
  rw [exec_csi2FrameStart hrx hv hc hr hu, camBegin, dropCur_idle (s := forward s port sl 0 0x00 []) hn, begun]

theorem frameStart_refused (hn : (streamOf s i).cur = none) (h : memberOf s i (camStamp s port) ≠ s.sch.seq ∨ s.sch.phase = .slack
      ∨ (streamOf s i).delivered ≠ none ∨ freeBuf s i = none) : ∃ t, exec (.csi2FrameStart port vc) s = .next t
    ∧ t.sens.accepted = s.sens.accepted + 1 ∧ t.sens.dropped = s.sens.dropped + 1 ∧ (streamOf t i).cur = none
    ∧ (streamOf t i).next = (streamOf s i).next + 1 := by
  obtain ⟨hst, hfree, hmu⟩ := begun_view (port := port) (sl := sl) hi
  refine ⟨_, frameStart_idle hrx hv hc hr hu hn, ?_⟩
  have hiu : i < (begun s i port sl).sens.streams.length := (length_streams _ _ _).symm ▸ hi
  have hin : i < (numbered (begun s i port sl) i).sens.streams.length := (length_streams _ _ _).symm ▸ hiu
  obtain ⟨r, hw⟩ := acceptLive_refused (t := camStamp s port) hiu (by rw [hst, hfree, hmu]; exact h)
  have hv := offFront_refused (s := begun s i port sl) (i := i) (t := camStamp s port) r
  rw [hw]
  refine ⟨offFront_tells (fun u => u.sens.accepted) hv, offFront_tells (fun u => u.sens.dropped) hv, ?_⟩
  rw [offFront_streamOf hv, streamOf_frameAway hin, streamOf_numbered hiu, hst]
  exact ⟨rfl, rfl⟩

theorem frameStart_taken {b : Nat} (hn : (streamOf s i).cur = none) (hm : memberOf s i (camStamp s port) = s.sch.seq)
    (hp : s.sch.phase ≠ .slack) (hd : (streamOf s i).delivered = none) (hb : freeBuf s i = some b)
    (hrec : s.sens.recorder.state = 0) : exec (.csi2FrameStart port vc) s = .next (modStream
      (countAccept (forward s port sl 0 0x00 [])) i (fun x => { x with
        next := x.next + 1, cur := some (newFrame (streamOf s i).next b s.sch.seq (camStamp s port)), disc := none })) := by
  obtain ⟨hst, hfree, hmu⟩ := begun_view (port := port) (sl := sl) hi
  have hiu : i < (begun s i port sl).sens.streams.length := (length_streams _ _ _).symm ▸ hi
  rw [frameStart_idle hrx hv hc hr hu hn, acceptLive_taken hiu (by rw [hmu]; exact hm) hp (by rw [hst]; exact hd)
    (hfree.trans hb), taken_eq (s := begun s i port sl) hrec, hmu, hst, hm]
  exact congrArg Host.Outcome.next (modStream_modStream (countAccept (forward s port sl 0 0x00 [])) i
    (fun x => { x with disc := none }) _)

end

/-- Settles O47: a Frame Start by the test of acceptance (`frameStart_refused`, `frameStart_taken`), a completed sensor frame by
whether its stream was the last of its arrival entry (`fireArrival_fires`, `fireArrival_waits`). -/
theorem cameraFrames : Obligations.CameraFrames := by
  refine ⟨⟨fun s port vc h => ?_, fun s port vc sl i hrx hv hc hr hu hi =>
    ⟨fun f hf => frameStart_early hrx hv hc hr hu hi hf, fun hn h => frameStart_refused hrx hv hc hr hu hi hn h,
      fun b hn hm hp hd hb hrec => ?_⟩⟩, fun s i k f hi hk hf hd hq hr ho => ?_, fun s i h => ?_⟩
  · have he : exec (.csi2FrameStart port vc) s = execCsi2FrameStart port vc s := rfl
    simp [he, execCsi2FrameStart, h]
  · refine ⟨_, frameStart_taken hrx hv hc hr hu hi hn hm hp hd hb hrec, ?_, ?_, rfl, rfl, rfl, rfl, rfl, fun j hj =>
      streamOf_modStream_ne (countAccept (forward s port sl 0 0x00 [])) i j _ hj⟩
    all_goals rw [streamOf_modStream (countAccept (forward s port sl 0 0x00 [])) i _ hi]; rfl
  · refine ⟨_, exec_sensorFrameComplete hk hf hd hq hr ho, ?_⟩
    generalize hu : modStream s i _ = u
    have hst : (streamOf u i).delivered = some f.buf := by rw [← hu, streamOf_modStream _ _ _ hi]
    have hne : ∀ j, j ≠ i → streamOf u j = streamOf s j := fun j hj => by rw [← hu, streamOf_modStream_ne _ _ _ _ hj]
    have hent : ∀ j, stEntry u j = stEntry s j := fun j => stEntry_congr (by rw [← hu]; rfl) j
    have hkeep : ∀ {β : Type} (g : State → β), (∀ u x, g { u with sch := x } = g u) →
        g (fireArrival u (stArrival (stEntry s i))) = g u := fun g hg => fireArrival_keeps g hg u _
    refine ⟨?_, fun j hj => ?_, ?_, ?_, ?_, fun h => ?_, fun j hj hji hjv hja hjd => ?_⟩
    · rw [hkeep (fun u => streamOf u i) (fun _ _ => rfl), hst]
    · rw [hkeep (fun u => streamOf u j) (fun _ _ => rfl), hne j hj]
    · rw [hkeep State.mem (fun _ _ => rfl), ← hu, modStream_mem]
    · rw [hkeep State.jobs (fun _ _ => rfl), ← hu, modStream_jobs]
    · rw [hkeep State.fc (fun _ _ => rfl), ← hu, modStream_fc]
    · refine fireArrival_fires (stArrival_lt _) fun j hj hjv hja => ?_
      by_cases hji : j = i
      · rw [hji, hst]
        exact nofun
      · rw [hent] at hjv hja
        rw [hne j hji]
        exact h j hj hji hjv hja
    · rw [fireArrival_waits hj (by rw [hent]; exact hjv) (by rw [hent]; exact hja) (by rw [hne j hji]; exact hjd), ← hu,
        modStream_sch]
  · have he : exec (.sensorFrameComplete i) s = execSensorFrameComplete i s := rfl
    rw [he, execSensorFrameComplete, h]

end Sys2Proof.Proofs
end

section
/-! PROOFS. Camera lines and Frame Ends (R273, R277, R283, R288, R292, R302, R305). -/

namespace Sys2Proof.Proofs

open Sys2Proof Sys2Proof.Machine Sys2Proof.Laws

/-! ### What a line leaves of the ports -/

/-- Other sensor ports. -/
def withPorts (s : State) (p : List SpPort) : State := { s with sens := { s.sens with sp := p } }

theorem offFront_withPorts {s : State} {p : List SpPort} (hp : p.map portKept = s.sens.sp.map portKept) :
    offFront (withPorts s p) = offFront s := by
  show { offFront s with sens := { (offFront s).sens with sp := p.map portKept } } = _
  rw [hp]
  rfl

/-- The state in which a line reaches its stream: a corrected header is counted, and the line is forwarded (R285, R305). -/
def lineBase (s : State) (port sl dt : Nat) (hdr : HdrEcc) (pl : List Byte) : State :=
  let s1 := if hdr = .corrected then modSp s port (fun x => { x with hdrCorr := satAdd 0xFF x.hdrCorr 1 }) else s
  if hdr != .bad && (dt = 0x12 || dtBits dt != 0) then forward s1 port sl 0 dt pl else s1

theorem lineBase_ports (s : State) (port sl dt : Nat) (hdr : HdrEcc) (pl : List Byte) :
    ∃ p, lineBase s port sl dt hdr pl = withPorts s p ∧ p.map portKept = s.sens.sp.map portKept := by
  have hview : offFront (lineBase s port sl dt hdr pl) = offFront s := by
    have h1 : offFront (if hdr = .corrected then modSp s port (fun x => { x with hdrCorr := satAdd 0xFF x.hdrCorr 1 }) else s)
        = offFront s :=
      ite_keeps offFront (offFront_modSp s (f := fun x => { x with hdrCorr := satAdd 0xFF x.hdrCorr 1 }) (fun _ => rfl) port) rfl
    exact ite_keeps offFront ((offFront_forward _ _ _ _ _ _).trans h1) h1
  refine ⟨(lineBase s port sl dt hdr pl).sens.sp, ?_, congrArg (fun u : State => u.sens.sp) hview⟩
  unfold lineBase
  dsimp only
  split <;> split <;> rfl

section
variable {s : State} {port vc dt sl i : Nat} (hrx : portRx s port = true) (hv : vcSlot s port vc = some sl)
  (hc : camStream s port sl = some i)
include hrx hv hc

/-- A line by its header, its CRC and its data type (R281, R305). -/
theorem exec_csi2Line (hdr : HdrEcc) (ok ovr : Bool) (pl : List Byte) (lb : Ecc) (word : Nat) :
    exec (.csi2Line port vc dt hdr ok pl ovr lb word) s = .next (
      if hdr = .bad then settle s (lineError (lineBase s port sl dt hdr pl) port (some i))
      else if ok = false then settle s (badLine (lineBase s port sl dt hdr pl) port i dt vc (camStamp s port) pl)
      else if underReplay s i then lineBase s port sl dt hdr pl
      else if dt = 0x12 then recLine (lineBase s port sl dt hdr pl) i dt vc (camStamp s port) pl
      else if dt = stDt (stEntry s i) then
        settle s (lineIn (lineBase s port sl dt hdr pl) i dt vc (camStamp s port) pl ovr lb word)
      else lineBase s port sl dt hdr pl) := by
  have he : exec (.csi2Line port vc dt hdr ok pl ovr lb word) s = execCsi2Line port vc dt hdr ok pl ovr lb s word := rfl
  rw [he, execCsi2Line, hrx, hv, Option.bind_some, hc]
  cases ok <;> rfl


end

/-! ### Reception -/

section
variable {s : State} {i : Nat} {f : SFrame} (hf : (streamOf s i).cur = some f)
include hf

/-- The line that drops a sensor frame is the first of those it discards. -/
theorem offFront_lineDropped (r : Drop) : offFront (discardLine (dropCur s i r false) i)
    = offFront (frameAway s i (some (Discard.mk f.pkts f.fseq f.seq (f.lines + 1) (stEntry s i)))) :=
  (offFront_modStream (offFront_dropCur hf r false) i _).trans
    (congrArg offFront (modStream_modStream (countDrop s) i _ _))

variable (hrec : s.sens.recorder.state = 0) {dt vc t : Nat} {pl : List Byte} {ovr : Bool} {lb : Ecc} {word : Nat}
include hrec

theorem recLine_idle : recLine s i dt vc t pl = s := by
  unfold recLine
  rw [hf]
  exact recStream_idle hrec _ _ _ _ _ _ _ _

/-- A line that its stream cannot take drops the sensor frame (R273, R277; log 48). -/
theorem lineIn_dropped (h : ispResetting s (stEntry s i) = true ∨ pl.length ≠ lineBytes dt (stWidth (stEntry s i))) :
    ∃ r, lineIn s i dt vc t pl false lb word = discardLine (dropCur s i r false) i := by
  unfold lineIn
  rw [recLine_idle hf hrec]
  dsimp only
  rw [hf]
  dsimp only
  split
  · exact ⟨_, rfl⟩
  · next hr =>
    rw [if_pos (by simp at hr; simp [hr] at h; simp [h])]
    exact ⟨_, rfl⟩

variable (hstamps : stStamps (stEntry s i) = false) (hlen : pl.length = lineBytes dt (stWidth (stEntry s i)))
include hstamps hlen

theorem lineIn_raw (hraw : stIsp (stEntry s i) = false) (hl : f.lines < stLines (stEntry s i)) :
    lineIn s i dt vc t pl false lb word = modStream (ingressStore s i f.seq srcIngress
        (bufAddr s i f.buf + f.lines * camPitch s (stEntry s i))
        (packRow (fmtBits (rawFmt dt)) 64 (lineSamples dt (stWidth (stEntry s i)) pl))) i
      (fun x => { x with cur := some { f with lines := f.lines + 1 } }) := by
  unfold lineIn
  rw [recLine_idle hf hrec]
  simp [hf, ispResetting, hraw, hlen, expoOf, Nat.not_le.2 hl, lineStamp, hstamps]

theorem lineIn_isp (hisp : stIsp (stEntry s i) = true) (hl : f.lines < expoOf s (stEntry s i) * stLines (stEntry s i))
    (hr : ispResetting s (stEntry s i) = false) : lineIn s i dt vc t pl false lb word
      = ispLine s i f (lineSamples dt (stWidth (stEntry s i)) pl) lb word := by
  unfold lineIn
  rw [recLine_idle hf hrec]
  simp [hf, hr, hisp, hlen, Nat.not_le.2 hl, lineStamp, hstamps]

end

/-! ### Stores of a line -/

theorem pumpPorts_mem (s : State) : (pumpPorts s).mem = s.mem :=
  foldl_keeps State.mem _ (fun s r => ite_keeps State.mem (by rw [issueReq_mem]) rfl) _ _

theorem ingressStore_mem (s : State) (i : Nat) (seq : Word) (src a : Nat) (bs : List Byte) :
    (ingressStore s i seq src a bs).mem = s.mem.write a bs := pumpPorts_mem _

theorem ingressStore_sens (s : State) (i : Nat) (seq : Word) (src a : Nat) (bs : List Byte) :
    (ingressStore s i seq src a bs).sens = s.sens :=
  foldl_keeps State.sens _ (fun s r => ite_keeps State.sens (by rw [issueReq_sens]) rfl) _ _

theorem portOut_iff (s : State) (u : ReqUse) :
    portOut s u = true ↔ (∃ r ∈ s.ms.reqs, r.purpose = u) ∨ ∃ r ∈ s.ms.portQ, r.purpose = u := by
  simp [portOut]

theorem issueReq_portQ (s : State) (src : Nat) (w : Bool) (a len level : Nat) (u : ReqUse) :
    (issueReq s src w a len level u).ms.portQ = s.ms.portQ := by
  have ht : ∀ t : State, (touchCheck t a).ms.portQ = t.ms.portQ := fun _ => ite_keeps (fun t : State => t.ms.portQ) rfl rfl
  exact (ht _).trans (foldl_keeps (fun t : State => t.ms.portQ) (fun s l => takeCredit s l .ring l) (fun _ _ => rfl) _ _)

/-- A write that is issued waits no more, and is outstanding. -/
theorem portOut_pumpPorts {s : State} {u : ReqUse} (h : portOut s u = true) : portOut (pumpPorts s) u = true := by
  unfold pumpPorts
  generalize s.ms.portQ = l
  induction l generalizing s with
  | nil => exact h
  | cons r l ih =>
    rw [List.foldl_cons]
    refine ih ?_
    dsimp only
    split
    · obtain ⟨q, hq, hreqs, -⟩ := issueReq_ms { s with ms := { s.ms with portQ := s.ms.portQ.erase r } } r.src true r.addr r.len 3
        r.purpose
      rw [portOut_iff, hreqs, issueReq_portQ]
      rcases (portOut_iff s u).1 h with ⟨x, hx, hxu⟩ | ⟨x, hx, hxu⟩
      · exact .inl ⟨x, List.mem_append_left _ hx, hxu⟩
      · by_cases hxr : x = r
        · exact .inl ⟨q, List.mem_append_right _ (List.mem_singleton_self q), by rw [hq, ← hxr, hxu]⟩
        · exact .inr ⟨x, (List.mem_erase_of_ne hxr).2 hx, hxu⟩
    · exact h

/-- What the ingress port stores it has still to write, or its writes are outstanding (R218). -/
theorem portOut_ingressStore (s : State) (i : Nat) (seq : Word) (src a : Nat) {bs : List Byte} (hb : bs ≠ []) :
    portOut (ingressStore s i seq src a bs) (.ingress i seq) = true := by
  refine portOut_pumpPorts ((portOut_iff _ _).2 (.inr ?_))
  obtain ⟨n, hn⟩ : ∃ n, bs.length = n + 1 := Nat.exists_eq_succ_of_ne_zero (by simpa using hb)
  have hreq : ∃ x, x ∈ reqsOf a bs.length := by
    rw [reqsOf, hn, cutsOf, if_neg (Nat.succ_ne_zero n)]
    exact ⟨_, List.mem_cons_self⟩
  obtain ⟨x, hx⟩ := hreq
  exact ⟨PortReq.mk src x.1 x.2 (.ingress i seq), List.mem_append_right _ (List.mem_map.2 ⟨x, hx, rfl⟩), rfl⟩

/-! ### The line of an ISP -/

section
variable (s : State) (i : Nat) (f : SFrame) (vals : List Nat) (lb : Ecc) (word : Nat)

theorem ispLine_mem : (ispLine s i f vals lb word).mem = s.mem := by
  unfold ispLine
  rw [modStream_mem]
  exact ite_keeps State.mem (setSrc_mem _ _) (ite_keeps State.mem (setSrc_mem _ _) rfl)

theorem ispLine_cur {s : State} (hi : i < s.sens.streams.length) : (streamOf (ispLine s i f vals lb word) i).cur = some { f with
    lines := f.lines + 1, raw := f.raw ++ [vals], bad := if lb = .uncorrectable then f.bad ++ [(f.lines, word)] else f.bad } := by
  have hsrc : ∀ (t : State) (n : Nat), (setSrc t n).sens.streams.length = t.sens.streams.length := fun t n => by rw [setSrc_sens]
  unfold ispLine
  dsimp only
  rw [streamOf_modStream]
  rw [ite_keeps (fun u : State => u.sens.streams.length) (hsrc _ _)
    (ite_keeps (fun u : State => u.sens.streams.length) (hsrc _ _) rfl)]
  exact hi

theorem ispLine_fc (h : lb = .asStored) : (ispLine s i f vals lb word).fc = s.fc := by
  subst h
  rfl

/-- An uncorrectable word of the line buffer sets its ISP's source (R292, R412). -/
theorem ispLine_source : (ispLine s i f vals .uncorrectable word).fc.fsw.getLsbD (62 + stIspNo (stEntry s i)) = true
    ∧ Harmless s (ispLine s i f vals .uncorrectable word) := by
  have hn : stIspNo (stEntry s i) < 2 := by unfold stIspNo fld bits; omega
  have hsrc : ∀ n < 2, 62 + n < 128 ∧ srcReserved (62 + n) = false ∧ srcFA (62 + n) = false := by decide
  obtain ⟨h1, h2, h3⟩ := hsrc _ hn
  constructor
  · exact setSrc_sets_bit _ h1 h2
  · exact (Harmless.of_fsw (s := s) (t := modIsp s _ _) rfl).setSrc h1 h3

end

/-! ### Errors of a line -/

/-- A header or line error at a port is counted, with its source (R305). -/
def errorNoted (s : State) (p : Nat) : State := setSrc (modSp s p (fun x => { x with crc := satAdd 0xFFFF x.crc 1 })) 96

theorem offFront_errorNoted {s t : State} (h : offFront t = offFront s) (p : Nat) :
    offFront (errorNoted t p) = offFront (errorNoted s p) := by
  have hsrc : ∀ (u : State) (n : Nat), offFront (setSrc u n) = setSrc (offFront u) n := fun u n => by
    have hc : hasSrc (offFront u) n = hasSrc u n := rfl
    unfold setSrc
    rw [hc]
    split <;> rfl
  have hsp : ∀ u : State, offFront (modSp u p (fun x => { x with crc := satAdd 0xFFFF x.crc 1 }))
      = modSp (offFront u) p (fun x => { x with crc := satAdd 0xFFFF x.crc 1 }) := fun u => by
    have hm : (modAt u.sens.sp p (fun x => { x with crc := satAdd 0xFFFF x.crc 1 })).map portKept
        = modAt (u.sens.sp.map portKept) p (fun x => { x with crc := satAdd 0xFFFF x.crc 1 }) := by
      refine List.ext_getElem? fun j => ?_
      simp only [List.getElem?_map, getElem?_modAt]
      split
      · simp only [Option.map_map]
        rfl
      · rfl
    unfold offFront modSp
    dsimp only
    rw [hm]
  unfold errorNoted
  rw [hsrc, hsrc, hsp, hsp, h]

theorem errorNoted_crc {s : State} {p : Nat} (hp : (s.sens.sp.getD p {}).up = true) :
    ((errorNoted s p).sens.sp.getD p {}).crc = satAdd 0xFFFF (s.sens.sp.getD p {}).crc 1 := by
  have hlt : p < s.sens.sp.length := lt_length_of_getD SpPort.up (by rw [hp]; decide)
  unfold errorNoted
  rw [setSrc_sens]
  exact congrArg SpPort.crc (getD_modAt hlt _ _)

theorem errorNoted_harmless (s : State) (p : Nat) : Harmless s (errorNoted s p) :=
  (Harmless.of_fsw (s := s) (t := modSp s p _) rfl).setSrc (by decide) (by decide)

/-- What an error leaves that drops the sensor frame in reception, `n` lines of it counted (R277). -/
def errorDropped (s : State) (p i : Nat) (f : SFrame) (n : Nat) : State :=
  frameAway (errorNoted s p) i (some (Discard.mk f.pkts f.fseq f.seq n (stEntry s i)))

theorem frameAway_fc (s : State) (i : Nat) (d : Option Discard) : (frameAway s i d).fc = s.fc := rfl

theorem frameAway_sp (s : State) (i : Nat) (d : Option Discard) : (frameAway s i d).sens.sp = s.sens.sp := rfl

section
variable {s w : State} {p i : Nat} {f : SFrame} (hf : (streamOf s i).cur = some f) (hu : underReplay s i = false)
  (hw : offFront w = offFront s)
include hf hu hw

theorem offFront_lineError : offFront (lineError w p (some i)) = offFront (errorDropped s p i f f.lines) := by
  have hst : streamOf (errorNoted s p) i = streamOf s i := by
    unfold errorNoted streamOf
    rw [setSrc_sens]
    rfl
  have hent : stEntry (errorNoted s p) i = stEntry s i := stEntry_congr (by unfold errorNoted; rw [setSrc_sets]; rfl) i
  have hn := offFront_errorNoted hw p
  have hun : underReplay (errorNoted w p) i = false := by
    rw [offFront_tells (fun u => underReplay u i) hn]
    unfold errorNoted underReplay
    rw [setSrc_sens]
    exact hu
  show offFront (if underReplay (errorNoted w p) i then _ else dropCur (errorNoted w p) i .crc false) = _
  rw [if_neg (by rw [hun]; decide), offFront_dropCur (f := f) (by rw [offFront_streamOf hn, hst, hf]),
    offFront_tells (fun u => stEntry u i) hn, hent]
  exact offFront_modStream (s := countDrop (errorNoted s p)) (t := countDrop (errorNoted w p))
    (by show countDrop (offFront _) = countDrop (offFront _); rw [hn]) i _

omit hu in
theorem offFront_recLine (dt vc t : Nat) (pl : List Byte) : offFront (recLine w i dt vc t pl) = offFront s := by
  unfold recLine
  rw [offFront_streamOf hw, hf]
  exact (offFront_recStream _ _ _ _ _ _ _ _ _).trans hw

theorem offFront_badLine (dt vc t : Nat) (pl : List Byte) : offFront (badLine w p i dt vc t pl)
    = offFront (errorDropped s p i f (if dt = stDt (stEntry s i) then f.lines + 1 else f.lines)) := by
  have hrec := offFront_recLine hf hw dt vc t pl
  have herr : ∀ c : Bool, offFront (lineError (if c then recLine w i dt vc t pl else w) p (some i))
      = offFront (errorDropped s p i f f.lines) := fun c => by
    cases c
    · exact offFront_lineError hf hu hw
    · exact offFront_lineError hf hu hrec
  unfold badLine
  rw [offFront_tells (fun u => underReplay u i) hw, hu, offFront_tells (fun u => stEntry u i) hw]
  by_cases hd : dt = stDt (stEntry s i)
  · simp only [hd, beq_self_eq_true, if_true]
    refine (offFront_modStream (hd ▸ herr _) i _).trans (congrArg offFront ?_)
    exact modStream_modStream _ i _ _
  · simp only [beq_eq_false_iff_ne.2 hd, hd, if_false]
    exact herr _

end

/-! ### Frame Ends -/

theorem portRead_sens (s : State) (src a n : Nat) (o : Nat → Ecc) : (portRead s src a n o).sens = s.sens :=
  foldl_keeps State.sens _ (fun s x => by
    have hp : (passReq s src x.1).sens = s.sens :=
      (touchCheck_sens _ _).trans (ite_keeps (c := _) State.sens rfl (by unfold creditViolation; rw [setSrc_sens]; rfl))
    refine ite_keeps State.sens ?_ ?_
    · unfold passTimeout
      rw [setSrc_sens]
      exact hp
    · exact (show (uncounted _).sens = (uncounted _).sens by rw [readUnits_uncounted]).trans hp) _ _

/-- An ISP's rows leave the sensor front as it is (R289, R292). -/
theorem ispWrite_streams (s : State) (i : Nat) (f : SFrame) (o : Nat → Ecc) : (ispWrite s i f o).sens.streams = s.sens.streams := by
  have hm : ∀ {β : Type} (g : β → Nat) (l : List β) (u : State),
      (l.foldl (fun s x => markUnit s (g x)) u).sens.streams = u.sens.streams := fun g l u =>
    foldl_keeps (fun u : State => u.sens.streams) _ (fun u x => by rw [markUnit_sens]) l u
  have hs : ∀ (u : State) (seq : Word) (src a : Nat) (bs : List Byte), (ingressStore u i seq src a bs).sens.streams = u.sens.streams :=
    fun u seq src a bs => offFront_tells (fun u => u.sens.streams) (offFront_ingressStore u i seq src a bs)
  refine (foldl_keeps (fun u : State => u.sens.streams) _ (fun u y => ?_) _ _).trans
    (foldl_keeps (fun u : State => u.sens.streams) _ (fun u x => by rw [portRead_sens]) _ _)
  exact (hm _ _ _).trans (ite_keeps (fun u : State => u.sens.streams) ((hm _ _ _).trans (hs _ _ _ _ _)) (hs _ _ _ _ _))

section
variable {s : State} {i : Nat} {f : SFrame} (hf : (streamOf s i).cur = some f) (hi : i < s.sens.streams.length)
include hf hi

/-- A sensor frame with all its lines awaits delivery (R273). -/
theorem camEnd_whole (hl : f.lines = expoOf s (stEntry s i) * stLines (stEntry s i)) (o : Nat → Ecc) :
    streamOf (camEnd s i o) i
      = { streamOf s i with cur := none, kept := (streamOf s i).kept ++ [{ f with closed := true }] } := by
  have hclose : ∀ u : State, u.sens.streams = s.sens.streams → streamOf (closeFrame u i) i
      = { streamOf s i with cur := none, kept := (streamOf s i).kept ++ [{ f with closed := true }] } := fun u hu => by
    have hst : streamOf u i = streamOf s i := by rw [streamOf, hu, streamOf]
    rw [offFront_streamOf (offFront_closeFrame (hst ▸ hf)), streamOf_frameClosed (hu ▸ hi), hst]
  unfold camEnd
  rw [hf]
  dsimp only
  rw [if_pos hl]
  exact ite_keeps (fun u : State => streamOf u i) (hclose _ (ispWrite_streams s i f o)) (hclose s rfl)

omit hi in
/-- One with fewer is dropped. -/
theorem camEnd_short (hl : f.lines ≠ expoOf s (stEntry s i) * stLines (stEntry s i)) (o : Nat → Ecc) :
    offFront (camEnd s i o) = offFront (frameAway s i none) := by
  unfold camEnd
  rw [hf]
  dsimp only
  rw [if_neg hl]
  exact (offFront_modStream (offFront_dropCur hf .format false) i _).trans
    (congrArg offFront (modStream_modStream (countDrop s) i _ _))

end

theorem exec_csi2FrameEnd {s : State} {port vc sl i : Nat} (hrx : portRx s port = true) (hv : vcSlot s port vc = some sl)
    (hc : camStream s port sl = some i) (hu : underReplay s i = false) (ecc : List (Nat × Ecc)) :
    exec (.csi2FrameEnd port vc ecc) s = .next (camEnd (forward s port sl 0 0x01 []) i (eccFor ecc)) := by
  have he : exec (.csi2FrameEnd port vc ecc) s = execCsi2FrameEnd port vc s ecc := rfl
  simp [he, execCsi2FrameEnd, hrx, hv, hc, hu]

/-! ### The clauses on lines -/

section
variable {s : State} {port vc sl i : Nat} {f : SFrame} (hrx : portRx s port = true) (hv : vcSlot s port vc = some sl)
  (hc : camStream s port sl = some i) (hu : underReplay s i = false)
include hrx hv hc hu

/-- A good line of the stream's data type. -/
theorem exec_goodLine (hd : stDt (stEntry s i) ≠ 0x12) (payload : List Byte) :
    ∃ p, p.map portKept = s.sens.sp.map portKept ∧ ∀ (lb : Ecc) (word : Nat),
      exec (.csi2Line port vc (stDt (stEntry s i)) .clean true payload false lb word) s = .next (settle s
        (lineIn (withPorts s p) i (stDt (stEntry s i)) vc (camStamp s port) payload false lb word)) := by
  obtain ⟨p, hp, hk⟩ := lineBase_ports s port sl (stDt (stEntry s i)) .clean payload
  refine ⟨p, hk, fun lb word => ?_⟩
  rw [exec_csi2Line hrx hv hc, hp]
  simp [hu, hd]

/-- A line with an error drops the sensor frame in reception (R277, R305). -/
theorem exec_lineWithError (hf : (streamOf s i).cur = some f) {hdr : HdrEcc} {ok : Bool} (h : hdr = .bad ∨ ok = false)
    (dt : Nat) (ovr : Bool) (payload : List Byte) (lb : Ecc) : ∃ t, exec (.csi2Line port vc dt hdr ok payload ovr lb) s = .next t
      ∧ offFront t = offFront (errorDropped s port i f (if hdr ≠ .bad ∧ dt = stDt (stEntry s i) then f.lines + 1 else f.lines)) := by
  obtain ⟨p, hp, hk⟩ := lineBase_ports s port sl dt hdr payload
  have hw := offFront_withPorts hk
  have hset : ∀ {t : State} {n : Nat}, offFront t = offFront (errorDropped s port i f n) → settle s t = t := fun ht =>
    Harmless.settle ((errorNoted_harmless s port).congr ((offFront_tells (fun u => u.fc.fsw) ht).trans rfl))
  rw [exec_csi2Line hrx hv hc, hp]
  by_cases hb : hdr = .bad
  · have ht := offFront_lineError (p := port) hf hu hw
    refine ⟨_, rfl, ?_⟩
    rw [if_pos hb, hset ht, ht]
    simp [hb]
  · have ht := offFront_badLine (p := port) hf hu hw dt vc (camStamp s port) payload
    refine ⟨_, rfl, ?_⟩
    rw [if_neg hb, if_pos (h.resolve_left hb), hset ht, ht]
    simp [hb]


section
variable (hi : i < s.sens.streams.length) (hf : (streamOf s i).cur = some f) (hrec : s.sens.recorder.state = 0)
  (hd : stDt (stEntry s i) ≠ 0x12) {payload : List Byte}
include hi hf hrec hd

theorem goodLine_dropped (h : ispResetting s (stEntry s i) = true
      ∨ payload.length ≠ lineBytes (stDt (stEntry s i)) (stWidth (stEntry s i))) :
    ∃ t, exec (.csi2Line port vc (stDt (stEntry s i)) .clean true payload false .asStored) s = .next t
      ∧ (streamOf t i).cur = none ∧ t.sens.dropped = s.sens.dropped + 1 := by
  obtain ⟨p, -, hex⟩ := exec_goodLine hrx hv hc hu hd payload
  obtain ⟨r, hr⟩ := lineIn_dropped (s := withPorts s p) (vc := vc) (t := camStamp s port) (lb := .asStored) (word := 0) hf hrec h
  have ht := offFront_lineDropped (s := withPorts s p) hf r
  have hfsw : (discardLine (dropCur (withPorts s p) i r false) i).fc.fsw = s.fc.fsw :=
    (offFront_tells (fun u => u.fc.fsw) ht).trans rfl
  refine ⟨_, hex .asStored 0, ?_⟩
  rw [hr, settle_same hfsw]
  refine ⟨?_, offFront_tells (fun u => u.sens.dropped) ht⟩
  rw [offFront_streamOf ht, streamOf_frameAway (s := withPorts s p) hi]

variable (hlen : payload.length = lineBytes (stDt (stEntry s i)) (stWidth (stEntry s i)))
  (hst : stStamps (stEntry s i) = false)
include hlen hst

theorem goodLine_raw (hraw : stIsp (stEntry s i) = false) (hl : f.lines < stLines (stEntry s i)) {row : List Byte}
    (hrow : row = packRow (fmtBits (rawFmt (stDt (stEntry s i)))) 64
      (lineSamples (stDt (stEntry s i)) (stWidth (stEntry s i)) payload)) : ∃ t,
    exec (.csi2Line port vc (stDt (stEntry s i)) .clean true payload false .asStored) s = .next t
      ∧ (streamOf t i).cur = some { f with lines := f.lines + 1 }
      ∧ t.mem = s.mem.write (bufAddr s i f.buf + f.lines * camPitch s (stEntry s i)) row
      ∧ (row ≠ [] → portOut t (.ingress i f.seq) = true)
      ∧ t.fc = s.fc ∧ t.sens.dropped = s.sens.dropped ∧ ∀ j, j ≠ i → streamOf t j = streamOf s j := by
  subst hrow
  obtain ⟨p, hp, hex⟩ := exec_goodLine hrx hv hc hu hd payload
  let u := ingressStore (withPorts s p) i f.seq srcIngress (bufAddr s i f.buf + f.lines * camPitch s (stEntry s i))
    (packRow (fmtBits (rawFmt (stDt (stEntry s i)))) 64 (lineSamples (stDt (stEntry s i)) (stWidth (stEntry s i)) payload))
  have hline : lineIn (withPorts s p) i (stDt (stEntry s i)) vc (camStamp s port) payload false .asStored
      = modStream u i (fun x => { x with cur := some { f with lines := f.lines + 1 } }) :=
    lineIn_raw (s := withPorts s p) hf hrec hst hlen hraw hl
  have hview : offFront u = offFront s := (offFront_ingressStore _ _ _ _ _ _).trans (offFront_withPorts hp)
  have hfc : u.fc = s.fc := offFront_tells State.fc hview
  have hlt : i < u.sens.streams.length := by rw [offFront_tells (fun u => u.sens.streams) hview]; exact hi
  refine ⟨modStream u i (fun x => { x with cur := some { f with lines := f.lines + 1 } }), ?_, ?_, ?_, fun hb => ?_, ?_, ?_,
    fun j hj => ?_⟩
  · rw [hex, hline, settle_same (by rw [modStream_fc, hfc])]
  · rw [streamOf_modStream _ _ _ hlt]
  · rw [modStream_mem]
    exact ingressStore_mem _ _ _ _ _ _
  · exact portOut_ingressStore (withPorts s p) i f.seq srcIngress _ hb
  · rw [modStream_fc, hfc]
  · exact (show _ = u.sens.dropped from rfl).trans (offFront_tells (fun u => u.sens.dropped) hview)
  · rw [streamOf_modStream_ne _ _ _ _ hj, offFront_streamOf hview]

omit hi in
/-- A line of an ISP stream, by what becomes of its line buffer's word. -/
theorem goodLine_isp (hisp : stIsp (stEntry s i) = true) (hl : f.lines < expoOf s (stEntry s i) * stLines (stEntry s i))
    (hr : ispResetting s (stEntry s i) = false) : ∃ p, ∀ (lb : Ecc) (word : Nat),
      exec (.csi2Line port vc (stDt (stEntry s i)) .clean true payload false lb word) s = .next (settle s (ispLine (withPorts s p) i f
        (lineSamples (stDt (stEntry s i)) (stWidth (stEntry s i)) payload) lb word)) := by
  obtain ⟨p, -, hex⟩ := exec_goodLine hrx hv hc hu hd payload
  refine ⟨p, fun lb word => ?_⟩
  rw [hex, lineIn_isp (s := withPorts s p) hf hrec hst hlen hisp hl hr]
  rfl

end

end

/-- Settles O48: good lines by the branches of `lineIn` (`lineIn_dropped`, `lineIn_raw`, `lineIn_isp`), errors by what they drop
(`exec_lineWithError`), Frame Ends by the lines that have come (`camEnd_whole`, `camEnd_short`). -/
theorem cameraLinesAndFrameEnd : Obligations.CameraLinesAndFrameEnd := by
  refine ⟨?_, fun s port vc dt sl i f hdr ok ovr payload lb hrx hv hc hu hi hf h => ?_,
    fun s port vc sl i f ecc hrx hv hc hu hi hf => ?_⟩
  · rintro s port vc dt sl i f payload hrx hv hc hu hi hrec hf rfl hd
    refine ⟨fun h => goodLine_dropped hrx hv hc hu hi hf hrec hd (.inr h),
      fun hlen hraw hst hl => goodLine_raw hrx hv hc hu hi hf hrec hd hlen hst hraw hl rfl, fun hlen hisp hst hl hr => ?_,
      fun _ hr => goodLine_dropped hrx hv hc hu hi hf hrec hd (.inl hr)⟩
    obtain ⟨p, hex⟩ := goodLine_isp hrx hv hc hu hf hrec hd hlen hst hisp hl hr
    let vals := lineSamples (stDt (stEntry s i)) (stWidth (stEntry s i)) payload
    refine ⟨?_, fun word => ?_⟩
    · have hfc : (ispLine (withPorts s p) i f vals .asStored 0).fc = s.fc := ispLine_fc _ i f vals _ 0 rfl
      refine ⟨_, hex .asStored 0, ?_⟩
      rw [settle_same (by rw [hfc])]
      exact ⟨ispLine_cur (s := withPorts s p) i f vals .asStored 0 hi, ispLine_mem _ _ _ _ _ _, hfc⟩
    · obtain ⟨hset, hharm⟩ := ispLine_source (withPorts s p) i f vals word
      refine ⟨_, hex .uncorrectable word, ?_⟩
      rw [show settle s _ = _ from Harmless.settle hharm]
      exact ⟨ispLine_cur (s := withPorts s p) i f vals .uncorrectable word hi, ispLine_mem _ _ _ _ _ _, hset⟩
  · obtain ⟨t, hex, ht⟩ := exec_lineWithError hrx hv hc hu hf h dt ovr payload lb
    have hst : (errorNoted s port).sens.streams = s.sens.streams := by unfold errorNoted; rw [setSrc_sens]; rfl
    have hsi := (offFront_streamOf ht i).trans (streamOf_frameAway (s := errorNoted s port) (hst.symm ▸ hi) _)
    have hrx' : (s.sens.sp.getD port {}).up = true := by
      rw [portRx, Bool.and_eq_true] at hrx
      exact hrx.2
    refine ⟨t, hex, by rw [hsi], by rw [hsi], ?_, ?_, ?_⟩
    · rw [offFront_tells (fun u => u.sens.dropped) ht]
      show (errorNoted s port).sens.dropped + 1 = _
      unfold errorNoted
      rw [setSrc_sens]
      rfl
    · rw [offFront_tells (fun u => u.fc) ht, errorDropped, frameAway_fc]
      exact setSrc_sets_bit _ (by decide) (by decide)
    · have hsp := offFront_sp ht port
      rw [errorDropped, frameAway_sp] at hsp
      exact (congrArg SpPort.crc hsp).trans (errorNoted_crc hrx')
  · refine ⟨_, exec_csi2FrameEnd hrx hv hc hu ecc, ?_⟩
    by_cases hl : f.lines = expoOf s (stEntry s i) * stLines (stEntry s i)
    · have hst := camEnd_whole (s := forward s port sl 0 0x01 []) hf hi hl (eccFor ecc)
      rw [hst]
      exact ⟨rfl, fun _ => rfl, fun h => absurd hl h⟩
    · have ht := camEnd_short (s := forward s port sl 0 0x01 []) hf hl (eccFor ecc)
      rw [offFront_streamOf ht, streamOf_frameAway (s := forward s port sl 0 0x01 []) hi]
      exact ⟨rfl, fun h => absurd h hl, fun _ => ⟨rfl, offFront_tells (fun u => u.sens.dropped) ht⟩⟩

end Sys2Proof.Proofs
end

section
/-! PROOFS. Ethernet ingress: received frames, packets of streams, Mapin frames, and closes by time (R273, R293 to R295, R320,
R329, R331). -/

namespace Sys2Proof.Proofs

open Sys2Proof Sys2Proof.Machine Sys2Proof.Laws

/-! ### Received frames -/

theorem modEth_eq {s : State} {m : Nat} {x : EthMac} (hx : s.sens.eth[m]? = some x) (f : EthMac → EthMac) :
    modEth s m f = { s with sens := { s.sens with eth := setAt s.sens.eth m (f x) } } := by
  unfold modEth
  rw [modAt_eq_setAt hx]

theorem modEth_modEth (s : State) (m : Nat) (f g : EthMac → EthMac) :
    modEth (modEth s m f) m g = modEth s m (fun x => g (f x)) := by
  unfold modEth
  dsimp only
  rw [modAt_modAt]

/-- A frame received at a MAC is counted. -/
def rxCounted (s : State) (m : Nat) : State := modEth s m (fun x => { x with rx := (x.rx + 1) % 2 ^ 64 })

/-- A frame of the Mapin EtherType at a bonded port. -/
def isMapin (s : State) (m : Nat) (bs : List Byte) : Bool := bit (wd (macSec s m) 0) 2 && (ethL3 bs).2.1 == s.map.etherType.toNat

/-- A frame at a link that is up, outside resets, by the steps of R294. -/
theorem exec_ethFrameReceive {s : State} {m : Nat} {x : EthMac} (hx : s.sens.eth[m]? = some x) (hup : x.up = true)
    (hw : s.warm = false) (hh : halted s = false) (ok : Bool) (bs : List Byte) : exec (.ethFrameReceive m ok bs) s = .next (
      if ok = false then settle s (if isMapin s m bs then mapinBad (badFcs (rxCounted s m) m bs) bs else badFcs (rxCounted s m) m bs)
      else if 9018 < bs.length + 4 then modEth (rxCounted s m) m (fun x => { x with oversize := satAdd 0xFF x.oversize 1 })
      else if isPtp bs then rxCounted s m
      else if isMapin s m bs then settleUnits s (mapinBytes (rxCounted s m) m bs)
      else if badHdr bs then modEth (rxCounted s m) m (fun x => { x with badhdr := satAdd 0xFFFF x.badhdr 1 })
      else if otherStation s m bs then rxCounted s m
      else (matchFilter s m bs).elim
        (modEth (rxCounted s m) m (fun x => { x with unmatched := satAdd 0xFFFF x.unmatched 1 }))
        (fun k => ethMatched (rxCounted s m) m k bs)) := by
  have he : exec (.ethFrameReceive m ok bs) s = execEthFrameReceive m ok bs s := rfl
  have hg : (s.sens.eth.getD m {}).up = true := by rw [List.getD_eq_getElem?_getD, hx]; exact hup
  rw [he, execEthFrameReceive, hg, hw, hh]
  cases ok
  · rfl
  · cases matchFilter s m bs <;> rfl

/-! ### Frames with errors -/

/-- What the view tells besides streams and counts a drop leaves. -/
theorem dropCur_tells {β : Type} (g : State → β) (s : State) (i : Nat) (r : Drop) (rec_ : Bool)
    (hg : ∀ u, g (offFront u) = g u := by exact fun _ => rfl) (ha : ∀ u j d, g (frameAway u j d) = g u := by exact fun _ _ _ => rfl) :
    g (dropCur s i r rec_) = g s := by
  cases hf : (streamOf s i).cur with
  | none => rw [dropCur_idle hf]
  | some f => rw [offFront_tells g (offFront_dropCur hf r rec_) hg, ha]

/-- A bad FCS is counted, with its source (R305). -/
def fcsNoted (s : State) (m : Nat) : State := setSrc (modEth s m (fun x => { x with fcs := satAdd 0xFFFF x.fcs 1 })) 98

theorem badFcs_tells {β : Type} (g : State → β) (s : State) (m : Nat) (bs : List Byte)
    (hg : ∀ u, g (offFront u) = g u := by exact fun _ => rfl) (ha : ∀ u j d, g (frameAway u j d) = g u := by exact fun _ _ _ => rfl) :
    g (badFcs s m bs) = g (fcsNoted s m) := by
  unfold badFcs
  dsimp only
  split
  · exact ite_keeps g rfl (dropCur_tells g _ _ _ _ hg ha)
  · rfl

theorem mapinBad_keeps_eth (s : State) (bs : List Byte) : (mapinBad s bs).sens.eth = s.sens.eth := by
  refine ite_keeps (fun u : State => u.sens.eth) ?_ rfl
  unfold badFrame
  dsimp only
  rw [putLink_sens, setSrc_sens]

theorem mapinBad_harmless {z s : State} (h : Harmless z s) (bs : List Byte) : Harmless z (mapinBad s bs) := by
  unfold mapinBad
  split
  · have hc : Harmless z { s with map := { s.map with crc := satAdd 0xFFFF s.map.crc 1 } } := h.congr rfl
    exact (hc.setSrc (n := 112) (by decide) (by decide)).congr rfl
  · exact h

theorem mapinBad_fsw {s : State} {n : Nat} (h : s.fc.fsw.getLsbD n = true) (bs : List Byte) :
    (mapinBad s bs).fc.fsw.getLsbD n = true := by
  unfold mapinBad
  split
  · exact setSrc_mono _ _ h
  · exact h

section
variable {s : State} {m : Nat} {x : EthMac} (hx : s.sens.eth[m]? = some x)
include hx

theorem fcsNoted_rxCounted : (fcsNoted (rxCounted s m) m).sens.eth[m]?
    = some { x with rx := (x.rx + 1) % 2 ^ 64, fcs := satAdd 0xFFFF x.fcs 1 } := by
  have h : modEth (rxCounted s m) m (fun x => { x with fcs := satAdd 0xFFFF x.fcs 1 }) = modEth s m _ := modEth_modEth s m _ _
  unfold fcsNoted
  rw [setSrc_sens, h]
  show (modAt s.sens.eth m _)[m]? = _
  rw [getElem?_modAt, if_pos rfl, hx]
  rfl

/-- A frame with a bad FCS (R277, R305, R331). -/
theorem badFcs_ends (mapin : Bool) (bs : List Byte) : ∃ t,
    settle s (if mapin then mapinBad (badFcs (rxCounted s m) m bs) bs else badFcs (rxCounted s m) m bs) = t
      ∧ t.fc.fsw.getLsbD 98 = true
      ∧ ∃ y : EthMac, t.sens.eth[m]? = some y ∧ y.fcs = satAdd 0xFFFF x.fcs 1 ∧ y.rx = (x.rx + 1) % 2 ^ 64 := by
  have hfc : (badFcs (rxCounted s m) m bs).fc = (fcsNoted (rxCounted s m) m).fc := badFcs_tells State.fc _ _ _
  have heth : (badFcs (rxCounted s m) m bs).sens.eth = (fcsNoted (rxCounted s m) m).sens.eth :=
    badFcs_tells (fun u => u.sens.eth) _ _ _
  have hset : (badFcs (rxCounted s m) m bs).fc.fsw.getLsbD 98 = true := by
    rw [hfc]
    exact setSrc_sets_bit _ (by decide) (by decide)
  have hharm : Harmless s (badFcs (rxCounted s m) m bs) := Harmless.congr
    (Harmless.setSrc (Harmless.of_fsw (s := s) (t := modEth (rxCounted s m) m _) rfl) (n := 98) (by decide) (by decide)) (by rw [hfc]; rfl)
  refine ⟨_, rfl, ?_⟩
  cases mapin
  · rw [if_neg (by decide), hharm.settle, heth, fcsNoted_rxCounted hx]
    exact ⟨hset, _, rfl, rfl, rfl⟩
  · rw [if_pos rfl, (mapinBad_harmless hharm bs).settle, mapinBad_keeps_eth, heth, fcsNoted_rxCounted hx]
    exact ⟨mapinBad_fsw hset bs, _, rfl, rfl, rfl⟩

end

/-! ### Packets of a stream -/

section
variable {s : State} {i : Nat} {f : SFrame}

/-- A packet before CLOSE_AT finds the sensor frame in reception as it was (R273). -/
theorem timeDue_open (hf : (streamOf s i).cur = some f) (h : stClose (stEntry s i) ≠ 2) (t : Nat) :
    ∃ d, timeDue s i t = modStream s i d ∧ ∀ x, (d x).cur = x.cur ∧ (d x).kept = x.kept := by
  have hc : (stClose (stEntry s i) == 2 && decide (1 ≤ f.pkts) && closeReached s (stEntry s i) f.fseq t) = false := by simp [h]
  simp only [timeDue, hf, hc, Bool.false_eq_true, if_false]
  exact ⟨_, rfl, fun x => ⟨rfl, rfl⟩⟩

/-- At CLOSE_AT a sensor frame with a packet closes (R273). -/
theorem timeDue_closes (hf : (streamOf s i).cur = some f) (h : stClose (stEntry s i) = 2) (hp : 1 ≤ f.pkts) {t : Nat}
    (ht : closeReached s (stEntry s i) f.fseq t = true) :
    ∃ d, timeDue s i t = modStream (closeFrame s i) i d ∧ ∀ x, (d x).cur = x.cur ∧ (d x).kept = x.kept := by
  simp only [timeDue, hf, h, hp, ht, beq_self_eq_true, decide_true, Bool.and_self, if_true]
  exact ⟨_, rfl, fun x => ⟨rfl, rfl⟩⟩

variable {m k t : Nat} {pl frame r : List Byte}

/-- A packet that finds room is stored behind those before it (R295); it may be the last one (R273). -/
theorem storePacket_fits (hf : (streamOf s i).cur = some f) (hr : r = packetRec t m k f.pkts pl)
    (hn : f.pkts + 1 ≤ stLines (stEntry s i)) (hs : f.used + r.length ≤ stStride (stEntry s i)) {u : State}
    (hu : u = modStream (ingressStore s i f.seq srcIngress (bufAddr s i f.buf + f.used) r) i
      (fun x => { x with cur := some { f with pkts := f.pkts + 1, used := f.used + r.length } })) :
    storePacket s i t m k pl = if closes s (stEntry s i) f.fseq (f.pkts + 1) t pl then closeFrame u i else u := by
  subst hr hu
  have hc : (decide (stLines (stEntry s i) < f.pkts + 1)
      || decide (stStride (stEntry s i) < f.used + (packetRec t m k f.pkts pl).length)) = false := by
    rw [decide_eq_false (Nat.not_lt.2 hn), decide_eq_false (Nat.not_lt.2 hs)]
    rfl
  unfold storePacket
  rw [hf]
  dsimp only
  rw [if_neg (by rw [hc]; decide)]
  have hv : offFront (modStream (ingressStore s i f.seq srcIngress (bufAddr s i f.buf + f.used) (packetRec t m k f.pkts pl)) i
      (fun x => { x with cur := some { f with pkts := f.pkts + 1, used := f.used + (packetRec t m k f.pkts pl).length } }))
      = offFront (modStream s i _) := offFront_modStream (offFront_ingressStore s _ _ _ _ _) i _
  have hcl := offFront_tells (fun v => closes v (stEntry s i) f.fseq (f.pkts + 1) t pl) hv
  rw [show closes (modStream (ingressStore _ _ _ _ _ _) _ _) _ _ _ _ _ = _ from hcl]
  rfl

/-- With no recording on, a packet of a sensor frame in reception, before CLOSE_AT, is stored (R272, R294). -/
theorem packetIn_open (hf : (streamOf s i).cur = some f) (h : stClose (stEntry s i) ≠ 2) (hi : i < s.sens.streams.length)
    (hrec : s.sens.recorder.state = 0) : ∃ d, (∀ x, (d x).cur = x.cur ∧ (d x).kept = x.kept)
      ∧ packetIn s i t m k pl frame = storePacket (modStream s i d) i t m k pl := by
  obtain ⟨d, hd, hx⟩ := timeDue_open hf h t
  refine ⟨d, hx, ?_⟩
  have hc : (streamOf (modStream s i d) i).cur = some f := by rw [streamOf_modStream s i d hi, (hx _).1, hf]
  unfold packetIn
  simp only [hd, hc, Option.isNone_some, Bool.false_and, Bool.false_eq_true, if_false]
  rw [recStream_idle (s := modStream s i d) hrec]

theorem ethMatched_reaches {i : Nat} (hi : i = fld (macFilter s m k) 0 9 4) (hu : underReplay s i = false)
    (hm : bit (wd (macFilter s m k) 0) 3 = false) (hr : s.sch.run = .running) (hv : stValid (stEntry s i) = true) {b : Nat}
    (hb : udpAt frame = some b) : ethMatched s m k frame
      = packetIn s i (ingress s m).toNat m k (udpData frame b) frame := by
  subst hi
  simp [ethMatched, hu, hm, hr, hv, hb]

end

/-! ### Mapin frames -/

theorem mapinBytes_other {s : State} {bs : List Byte} (h : bs.take 6 ≠ nodeAddr s.map.nodeId) (port : Nat) :
    mapinBytes s port bs = s := by
  simp [mapinBytes, h]

theorem mapinBytes_badCrc {s : State} {bs : List Byte} {w : List Word} (hn : bs.take 6 = nodeAddr s.map.nodeId)
    (hup : mapinUp s = true) (hw : w = mapinWords bs) (hdst : fld w 1 31 16 = s.map.nodeId.toNat)
    (hcrc : crc32c (wordsBytes (w.take 7) ++ (mapinTail bs).take (fld w 0 31 16)) ≠ wd w 7) (port : Nat) :
    mapinBytes s port bs = badFrame s ((wd w 1).extractLsb' 0 16) := by
  subst hw
  simp [mapinBytes, hn, hdst, hcrc, mapinBad, hup]

theorem badFrame_counts (s : State) (n : BitVec 16) : (badFrame s n).fc.fsw.getLsbD 112 = true
    ∧ (badFrame s n).map.crc = satAdd 0xFFFF s.map.crc 1 ∧ (badFrame s n).mem = s.mem := by
  refine ⟨setSrc_sets_bit _ (by decide) (by decide), ?_, ?_⟩
  · show (setSrc _ 112).map.crc = _
    rw [setSrc_map]
  · show (setSrc _ 112).mem = _
    rw [setSrc_mem]

theorem mapinUp_rxCounted (s : State) (m : Nat) : mapinUp (rxCounted s m) = mapinUp s := by
  have hup : ∀ j, ((rxCounted s m).sens.eth.getD j {}).up = (s.sens.eth.getD j {}).up := fun j => by
    show ((modAt s.sens.eth m _).getD j {}).up = _
    simp only [List.getD_eq_getElem?_getD, getElem?_modAt]
    split
    · cases s.sens.eth[j]? <;> rfl
    · rfl
  have hb : bonded (rxCounted s m) = bonded s := by
    unfold bonded
    rw [funext hup]
    rfl
  unfold mapinUp
  rw [hb]
  rfl

/-! ### The clauses on streams -/

/-- The time base moves without the streams (R311). -/
theorem passTo_streams (s : State) (t : Nat) : (passTo s t).sens.streams = s.sens.streams := by
  have hfire : ∀ (u : State) (ch : Nat), (fire u ch).sens.streams = u.sens.streams := fun u ch =>
    ite_keeps (fun u : State => u.sens.streams) (by rw [ppsRise_sens]) rfl
  rw [passTo, advanceTo_sens]
  refine Laws.passSecs_keeps (fun s => s.sens.streams) (fun u n => ?_) _ s
  rw [carryEffects, ppsRise_sens, foldl_keeps (fun u : State => u.sens.streams) fire hfire, advanceTo_sens]

theorem recStream_sch (s : State) (typ i : Nat) (fseq seq : Word) (ns sec aux : Nat) (pl : List Byte) :
    (recStream s typ i fseq seq ns sec aux pl).sch = s.sch :=
  ite_keeps State.sch (ite_keeps State.sch rfl (ite_keeps State.sch rfl rfl)) rfl

theorem closeFrame_sch (s : State) (i : Nat) : (closeFrame s i).sch = s.sch := by
  unfold closeFrame
  split
  · rfl
  · rw [modStream_sch, recStream_sch]

/-- A packet of a stream with a sensor frame in reception (R272, R273, R294, R295). -/
theorem packetIn_stores {s : State} {i : Nat} {f : SFrame} {m k t : Nat} {pl frame r : List Byte} (hi : i < s.sens.streams.length)
    (hrec : s.sens.recorder.state = 0) (hf : (streamOf s i).cur = some f) (h2 : stClose (stEntry s i) ≠ 2)
    (hr : r = packetRec t m k f.pkts pl) (hn : f.pkts + 1 ≤ stLines (stEntry s i))
    (hs : f.used + r.length ≤ stStride (stEntry s i)) {u : State} (hu : u = packetIn s i t m k pl frame) :
    u.mem = s.mem.write (bufAddr s i f.buf + f.used) r ∧ u.fc = s.fc
    ∧ (closes s (stEntry s i) f.fseq (f.pkts + 1) t pl = false →
        (streamOf u i).cur = some { f with pkts := f.pkts + 1, used := f.used + r.length })
    ∧ (closes s (stEntry s i) f.fseq (f.pkts + 1) t pl = true → (streamOf u i).cur = none
      ∧ (streamOf u i).kept = (streamOf s i).kept ++ [{ f with pkts := f.pkts + 1, used := f.used + r.length, closed := true }]) := by
  obtain ⟨d, hd, hp⟩ := packetIn_open (m := m) (k := k) (t := t) (pl := pl) (frame := frame) hf h2 hi hrec
  let z := modStream s i d
  let g : SFrame := { f with pkts := f.pkts + 1, used := f.used + r.length }
  let v := modStream (ingressStore z i f.seq srcIngress (bufAddr s i f.buf + f.used) r) i (fun x => { x with cur := some g })
  have hz : streamOf z i = d (streamOf s i) := streamOf_modStream s i d hi
  have hiz : i < z.sens.streams.length := (length_streams _ _ _).symm ▸ hi
  have hstore : packetIn s i t m k pl frame = if closes s (stEntry s i) f.fseq (f.pkts + 1) t pl then closeFrame v i else v :=
    hp.trans (storePacket_fits (s := z) (by rw [hz, (hd _).1, hf]) hr hn hs rfl)
  have hview : offFront v = offFront (modStream z i (fun x => { x with cur := some g })) :=
    offFront_modStream (offFront_ingressStore z i f.seq srcIngress _ r) i _
  have hv : streamOf v i = { d (streamOf s i) with cur := some g } := by
    rw [offFront_streamOf hview, streamOf_modStream _ _ _ hiz, hz]
  have hmem : v.mem = s.mem.write (bufAddr s i f.buf + f.used) r := (ingressStore_mem z _ _ _ _ _)
  have hfc : v.fc = s.fc := (offFront_tells State.fc hview).trans rfl
  have hiv : i < v.sens.streams.length := by
    rw [offFront_tells (fun u => u.sens.streams) hview, length_streams]
    exact hiz
  have hrecv : v.sens.recorder.state = 0 :=
    (congrArg (fun x => x.recorder.state) (ingressStore_sens z i f.seq srcIngress (bufAddr s i f.buf + f.used) r)).trans hrec
  rw [hu, hstore]
  cases hc : closes s (stEntry s i) f.fseq (f.pkts + 1) t pl
  · rw [if_neg (by decide)]
    exact ⟨hmem, hfc, fun _ => by rw [hv], nofun⟩
  · have hcl : closeFrame v i = frameClosed v i g := by
      unfold closeFrame
      rw [hv]
      dsimp only
      rw [recStream_idle hrecv]
      rfl
    rw [if_pos rfl, hcl, streamOf_frameClosed hiv, hv, (hd _).2]
    exact ⟨hmem, hfc, nofun, fun _ => ⟨rfl, rfl⟩⟩

/-- Settles O49: a received frame by the steps of R294 (`exec_ethFrameReceive`), a stream's packet by where it is stored and whether
it is the last (`packetIn_stores`), CLOSE_AT by `timeDue_closes`. -/
theorem ethernetPackets : Obligations.EthernetPackets := by
  refine ⟨fun s m ok bs h => ?_, fun s m bs x hx hup hw hh => ?_, fun s i f hr hv he h2 hi hf hp => ?_⟩
  · have he : exec (.ethFrameReceive m ok bs) s = execEthFrameReceive m ok bs s := rfl
    rw [he, execEthFrameReceive, if_pos]
    rcases h with h | h | h <;> simp only [h, Bool.not_false, Bool.true_or, Bool.or_true]
  · have hex := exec_ethFrameReceive hx hup hw hh
    have hrx : rxCounted s m = { s with sens := { s.sens with eth := setAt s.sens.eth m { x with rx := (x.rx + 1) % 2 ^ 64 } } } :=
      modEth_eq hx _
    have hcount : ∀ f : EthMac → EthMac, modEth (rxCounted s m) m f = { s with sens := { s.sens with
        eth := setAt s.sens.eth m (f { x with rx := (x.rx + 1) % 2 ^ 64 }) } } := fun f =>
      (modEth_modEth s m _ f).trans (modEth_eq hx _)
    refine ⟨?_, fun h => ?_, fun h hptp => ?_, fun h hptp hb ht => ?_, fun h hptp hb hbad hoth => ?_⟩
    · obtain ⟨t, ht, hrest⟩ := badFcs_ends hx (isMapin s m bs) bs
      exact ⟨t, by rw [hex, if_pos rfl, ht], hrest⟩
    · rw [hex, if_neg (by decide), if_pos h, hcount]
    · rw [hex, if_neg (by decide), if_neg (Nat.not_lt.2 h), if_pos hptp, hrx]
    · have hmap : isMapin s m bs = true := by simp [isMapin, hb, ht]
      rw [hex, if_neg (by decide), if_neg (Nat.not_lt.2 h), if_neg (by rw [hptp]; decide), if_pos hmap]
      refine ⟨fun hn => ?_, fun w hn hmu hw hdst hcrc => ⟨_, congrArg (fun u => Host.Outcome.next (settleUnits s u)) (mapinBytes_badCrc
          (s := rxCounted s m) hn ?_ hw hdst hcrc m), badFrame_counts (rxCounted s m) _⟩⟩
      · rw [mapinBytes_other (s := rxCounted s m) hn, hrx]
      · rw [mapinUp_rxCounted]
        exact hmu
    · have hmap : isMapin s m bs = false := by
        rcases hb with hb | hb <;> simp [isMapin, hb]
      rw [hex, if_neg (by decide), if_neg (Nat.not_lt.2 h), if_neg (by rw [hptp]; decide), if_neg (by rw [hmap]; decide),
        if_neg (by rw [hbad]; decide), if_neg (by rw [hoth]; decide)]
      refine ⟨fun hnone => ?_, ?_⟩
      · rw [hnone, Option.elim_none, hcount]
      · intro k u i f r t0 hk ht0 hu hi hmir hr hv hun hlen hrec hf hclose hrr hn hs
        subst ht0
        rw [hk, Option.elim_some, ethMatched_reaches (s := rxCounted s m) hi hun hmir hr hv hu]
        exact ⟨_, rfl, packetIn_stores (s := rxCounted s m) hlen hrec hf hclose hrr hn hs rfl⟩
  · let t0 := s.sch.t + bits (stCloseArg (stEntry s i)) 26 0
    have hex : exec (.ethTimeClose i) s = .next (timeDue (passTo s t0) i t0) := by
      have hx : exec (.ethTimeClose i) s = execEthTimeClose i s := rfl
      simp [hx, execEthTimeClose, hr, hv, he, h2, t0]
    have hst : streamOf (passTo s t0) i = streamOf s i := by rw [streamOf, passTo_streams, streamOf]
    have hent : stEntry (passTo s t0) i = stEntry s i := stEntry_congr (passTo_sets s t0) i
    have hlen : i < (passTo s t0).sens.streams.length := by rw [passTo_streams]; exact hi
    have hreach : closeReached (passTo s t0) (stEntry (passTo s t0) i) f.fseq t0 = true := by
      simp [closeReached, hent, passTo_sch, t0]
    obtain ⟨d, hd, hx⟩ := timeDue_closes (hst ▸ hf) (hent ▸ h2) hp hreach
    have hcl := offFront_closeFrame (s := passTo s t0) (hst ▸ hf)
    have hlc : i < (closeFrame (passTo s t0) i).sens.streams.length := by
      rw [offFront_tells (fun u => u.sens.streams) hcl, frameClosed, length_streams]
      exact hlen
    refine ⟨_, hex, ?_⟩
    rw [hd, streamOf_modStream _ _ _ hlc, (hx _).1, (hx _).2, offFront_streamOf hcl, streamOf_frameClosed hlen, hst, modStream_sch,
      closeFrame_sch, passTo_sch]
    exact ⟨rfl, rfl, rfl⟩

end Sys2Proof.Proofs
end

section
/-! PROOFS. Links of the sensor front, and the packets that its TX ports forward (R285, R305, R343, R482, R525). -/

namespace Sys2Proof.Proofs

open Sys2Proof Sys2Proof.Machine Sys2Proof.Laws

/-! ### Level sources -/

theorem setSrc_eq (s : State) (n : Nat) : ∃ f c, setSrc s n = { s with fc := f, cmd := c } := by
  unfold setSrc
  split
  · exact ⟨s.fc, s.cmd, rfl⟩
  · exact ⟨_, _, rfl⟩

theorem levelCond_setSrc (s : State) (k n : Nat) : levelCond (setSrc s k) n = levelCond s n := by
  obtain ⟨f, c, h⟩ := setSrc_eq s k
  rw [h]
  rfl

theorem levelCond_eth (s : State) : levelCond s 99 = (hasActive s && s.sens.eth.any (fun x => x.seen && !x.up)) := rfl

/-- A level source whose condition holds sets (R414). -/
theorem levelSources_sets {s : State} {n : Nat} (hi : s.saf.injDone = true) (hn : n ∈ [93, 95, 97, 99, 115])
    (hc : levelCond s n = true) : (levelSources s).fc.fsw.getLsbD n = true := by
  let step (s : State) (k : Nat) : State := if levelCond s k then setSrc s k else s
  have hstep : ∀ (u : State) (k : Nat), levelCond (step u k) n = levelCond u n := fun u k =>
    ite_keeps (fun u => levelCond u n) (levelCond_setSrc u k n) rfl
  have hmono : ∀ (l : List Nat) (u : State), u.fc.fsw.getLsbD n = true → (l.foldl step u).fc.fsw.getLsbD n = true := by
    intro l
    induction l with
    | nil => exact fun _ h => h
    | cons k l ih =>
      intro u hu
      refine ih _ ?_
      dsimp only [step]
      split
      · exact setSrc_mono u k hu
      · exact hu
  have hsets : ∀ (l : List Nat) (u : State), n ∈ l → levelCond u n = true → (l.foldl step u).fc.fsw.getLsbD n = true := by
    intro l
    induction l with
    | nil => exact fun _ h => absurd h List.not_mem_nil
    | cons k l ih =>
      intro u hm hu
      rcases List.mem_cons.1 hm with rfl | hm
      · refine hmono l _ ?_
        dsimp only [step]
        have hnr : ∀ k ∈ [93, 95, 97, 99, 115], k < 128 ∧ srcReserved k = false := by decide
        rw [if_pos hu]
        exact setSrc_sets_bit u (hnr n hn).1 (hnr n hn).2
      · exact ih _ hm ((hstep u k).trans hu)
  unfold levelSources
  rw [if_pos hi]
  exact hsets _ s hn hc

theorem settle_levelSources {s u : State} (h : u.fc.fsw = s.fc.fsw) : settle s (levelSources u) = levelSources u :=
  (harmless_levelSources (.of_fsw h)).settle

/-! ### Sensor frames lost with a link -/

theorem offFront_port (p : Nat) (u : State) : portKept ((offFront u).sens.sp.getD p {}) = portKept (u.sens.sp.getD p {}) := by
  show portKept ((u.sens.sp.map portKept).getD p (portKept {})) = _
  rw [List.getD_map]
  rfl

section
variable {β : Type} (g : State → β) (s : State)

theorem loseLink_tells (eth : Bool) (p : Nat) (hg : ∀ u, g (offFront u) = g u := by exact fun _ => rfl)
    (ha : ∀ u j d, g (frameAway u j d) = g u := by exact fun _ _ _ => rfl) : g (loseLink s eth p) = g s :=
  foldl_keeps g _ (fun u i => ite_keeps g rfl (dropCur_tells g u i _ _ hg ha)) _ s

theorem ethDown_tells (m : Nat) (hg : ∀ u, g (offFront u) = g u := by exact fun _ => rfl)
    (ha : ∀ u j d, g (frameAway u j d) = g u := by exact fun _ _ _ => rfl)
    (he : ∀ u m f, g (modEth u m f) = g u := by exact fun _ _ _ => rfl) : g (ethDown s m) = g s :=
  ite_keeps g ((loseLink_tells g _ true m hg ha).trans (he _ _ _)) rfl

end

/-- A stream of the link receives no sensor frame any more (R277, R305). -/
theorem loseLink_cur {s : State} {eth : Bool} {p i : Nat} (hi : i < 64) (hv : stValid (stEntry s i) = true)
    (he : stEth (stEntry s i) = eth) (hp : stPort (stEntry s i) = p) (hu : underReplay s i = false) :
    (streamOf (loseLink s eth p) i).cur = none := by
  have hm : i ∈ (List.range 64).filter (fun i => let e := stEntry s i; stValid e && stEth e == eth && stPort e == p) := by
    simp [hi, hv, he, hp]
  unfold loseLink
  generalize (List.range 64).filter _ = l at hm
  have hkeep : ∀ (u : State) (j : Nat), (streamOf u i).cur = none →
      (streamOf (if underReplay u j then u else dropCur u j .linkLoss false) i).cur = none := fun u j h => by
    split
    · exact h
    · exact (dropCur_serves (o := asIs) j .linkLoss false (.refl u)).cur i h
  have hkeeps : ∀ (l : List Nat) (u : State), (streamOf u i).cur = none →
      (streamOf (l.foldl (fun s j => if underReplay s j then s else dropCur s j .linkLoss false) u) i).cur = none := by
    intro l
    induction l with
    | nil => exact fun _ h => h
    | cons j l ih => exact fun u h => ih _ (hkeep u j h)
  clear hv he hp
  induction l generalizing s with
  | nil => exact absurd hm List.not_mem_nil
  | cons j l ih =>
    rw [List.foldl_cons]
    rcases List.mem_cons.1 hm with rfl | hm
    · refine hkeeps l _ ?_
      rw [if_neg (by rw [hu]; decide)]
      exact dropCur_cur s i .linkLoss false
    · refine ih ?_ hm
      exact (ite_keeps (fun u => underReplay u i) rfl (dropCur_tells (fun u => underReplay u i) s j _ _)).trans hu

/-! ### Links that go down -/

theorem levelSources_streamOf (s : State) (i : Nat) : streamOf (levelSources s) i = streamOf s i := by
  rw [streamOf, levelSources_keeps_view State.sens setSrc_sens, streamOf]

theorem modSp_port {s : State} {p : Nat} (hp : (s.sens.sp.getD p {}).up = true) (f : SpPort → SpPort) :
    (modSp s p f).sens.sp.getD p {} = f (s.sens.sp.getD p {}) :=
  getD_modAt (lt_length_of_getD SpPort.up (by rw [hp]; decide)) f _

/-- A camera link goes down (R277, R305). -/
theorem exec_spLinkDown {s : State} {p g : Nat} (hp : (s.sens.sp.getD p {}).up = true) : ∃ t,
    exec (.spLinkChange p false g) s = .next t
      ∧ (t.sens.sp.getD p {}).up = false ∧ (t.sens.sp.getD p {}).loss = satAdd 0xFF (s.sens.sp.getD p {}).loss 1
      ∧ (∀ i < 64, stValid (stEntry s i) = true → stEth (stEntry s i) = false → stPort (stEntry s i) = p →
          underReplay s i = false → (streamOf t i).cur = none)
      ∧ t.sch.run = s.sch.run ∧ t.saf = s.saf := by
  let u := modSp s p (fun x => { x with up := false, gear := 0, loss := satAdd 0xFF x.loss 1 })
  have hex : exec (.spLinkChange p false g) s = execSpLinkChange p false g s := rfl
  have hport : portKept ((levelSources (loseLink u false p)).sens.sp.getD p {})
      = portKept { s.sens.sp.getD p {} with up := false, gear := 0, loss := satAdd 0xFF (s.sens.sp.getD p {}).loss 1 } := by
    rw [levelSources_keeps_view State.sens setSrc_sens, loseLink_tells (fun u => portKept (u.sens.sp.getD p {})) u false p
      (offFront_port p), modSp_port hp]
  refine ⟨levelSources (loseLink u false p), ?_, congrArg SpPort.up hport, congrArg SpPort.loss hport,
    fun i hi hv he hpi hu => ?_, ?_, ?_⟩
  · simp only [hex, execSpLinkChange, hp, Bool.not_true, Bool.false_eq_true, if_false]
    exact congrArg Host.Outcome.next (settle_levelSources ((loseLink_tells (fun u => u.fc.fsw) u false p).trans rfl))
  · rw [levelSources_streamOf]
    exact loseLink_cur (s := u) hi hv he hpi hu
  · rw [levelSources_keeps_view State.sch setSrc_sch]
    exact loseLink_tells (fun u => u.sch.run) u false p
  · rw [levelSources_keeps_view State.saf setSrc_saf]
    exact loseLink_tells State.saf u false p

section
variable {s : State} {m : Nat}

/-- An Ethernet link that goes down (R305). -/
theorem ethDown_eth (h : (s.sens.eth.getD m {}).up = true) : (ethDown s m).sens.eth
    = modAt s.sens.eth m (fun x => { x with up := false, loss := satAdd 0xFF x.loss 1 }) := by
  unfold ethDown
  rw [if_pos h]
  exact loseLink_tells (fun u => u.sens.eth) _ true m

theorem ethDown_idle (h : (s.sens.eth.getD m {}).up = false) : ethDown s m = s := by
  unfold ethDown
  rw [if_neg (by rw [h]; decide)]

theorem ethDown_port (h : (s.sens.eth.getD m {}).up = true) : (ethDown s m).sens.eth.getD m {}
    = { s.sens.eth.getD m {} with up := false, loss := satAdd 0xFF (s.sens.eth.getD m {}).loss 1 } := by
  rw [ethDown_eth h]
  exact getD_modAt (lt_length_of_getD EthMac.up (by rw [h]; decide)) _ _

theorem ethDown_down : ((ethDown s m).sens.eth.getD m {}).up = false := by
  cases h : (s.sens.eth.getD m {}).up
  · rw [ethDown_idle h, h]
  · rw [ethDown_port h]

/-- Another link stays as it was. -/
theorem ethDown_other {j : Nat} (hj : j ≠ m) : (ethDown s m).sens.eth.getD j {} = s.sens.eth.getD j {} := by
  cases h : (s.sens.eth.getD m {}).up
  · rw [ethDown_idle h]
  · rw [ethDown_eth h]
    simp only [List.getD_eq_getElem?_getD, getElem?_modAt, if_neg hj]

theorem ethDown_seen (j : Nat) : ((ethDown s m).sens.eth.getD j {}).seen = (s.sens.eth.getD j {}).seen := by
  by_cases hj : j = m
  · subst hj
    cases h : (s.sens.eth.getD j {}).up
    · rw [ethDown_idle h]
    · rw [ethDown_port h]
  · rw [ethDown_other hj]

theorem exec_ethLinkDown (hm : (s.sens.eth.getD m {}).up = true) : ∃ t, exec (.ethLinkChange m false) s = .next t
      ∧ (t.sens.eth.getD m {}).up = false ∧ (t.sens.eth.getD m {}).loss = satAdd 0xFF (s.sens.eth.getD m {}).loss 1
      ∧ (∀ i < 64, stValid (stEntry s i) = true → stEth (stEntry s i) = true → stPort (stEntry s i) = m →
          underReplay s i = false → (streamOf t i).cur = none)
      ∧ t.sch.run = s.sch.run ∧ t.saf = s.saf := by
  have hex : exec (.ethLinkChange m false) s = .next (settle s (levelSources (ethDown s m))) := rfl
  refine ⟨levelSources (ethDown s m), ?_, ?_, ?_, fun i hi hv he hpi hu => ?_, ?_, ?_⟩
  · rw [hex, settle_levelSources (ethDown_tells (fun u => u.fc.fsw) s m)]
  · rw [levelSources_keeps_view State.sens setSrc_sens, ethDown_port hm]
  · rw [levelSources_keeps_view State.sens setSrc_sens, ethDown_port hm]
  · rw [levelSources_streamOf, ethDown, if_pos hm]
    exact loseLink_cur (s := modEth s m _) hi hv he hpi hu
  · rw [levelSources_keeps_view State.sch setSrc_sch]
    exact ethDown_tells (fun u => u.sch.run) s m
  · rw [levelSources_keeps_view State.saf setSrc_saf]
    exact ethDown_tells State.saf s m

end

/-! ### The loss of REFCLK_ETH -/

/-- Every Ethernet link is down. -/
def ethsDown (s : State) (l : List Nat) : State := l.foldl ethDown s

section
variable (s : State) (l : List Nat)

theorem ethsDown_tells {β : Type} (g : State → β) (hg : ∀ u, g (offFront u) = g u := by exact fun _ => rfl)
    (ha : ∀ u j d, g (frameAway u j d) = g u := by exact fun _ _ _ => rfl)
    (he : ∀ u m f, g (modEth u m f) = g u := by exact fun _ _ _ => rfl) : g (ethsDown s l) = g s :=
  foldl_keeps g ethDown (fun u m => ethDown_tells g u m hg ha he) l s

theorem ethsDown_seen (j : Nat) : ((ethsDown s l).sens.eth.getD j {}).seen = (s.sens.eth.getD j {}).seen :=
  foldl_keeps (fun u : State => (u.sens.eth.getD j {}).seen) ethDown (fun _ _ => ethDown_seen j) l s

theorem ethsDown_down {m : Nat} (hm : m ∈ l) : ((ethsDown s l).sens.eth.getD m {}).up = false := by
  have hkeep : ∀ (l : List Nat) (u : State), (u.sens.eth.getD m {}).up = false → ((ethsDown u l).sens.eth.getD m {}).up = false := by
    intro l
    induction l with
    | nil => exact fun _ h => h
    | cons j l ih =>
      intro u hu
      refine ih (ethDown u j) ?_
      by_cases hj : m = j
      · exact hj ▸ ethDown_down
      · rw [ethDown_other hj, hu]
  induction l generalizing s with
  | nil => exact absurd hm List.not_mem_nil
  | cons j l ih =>
    rcases List.mem_cons.1 hm with rfl | hm
    · exact hkeep l _ ethDown_down
    · exact ih (ethDown s j) hm

end

theorem exec_refclkEthLoss (s : State) : ∃ t, exec .refclkEthLoss s = .next t ∧ t.pins.refEth = false
    ∧ (∀ m < 8, (t.sens.eth.getD m {}).up = false)
    ∧ ∀ m < 8, s.saf.injDone = true → hasActive s = true → (s.sens.eth.getD m {}).seen = true → t.fc.fsw.getLsbD 99 = true := by
  let u : State := { s with pins := { s.pins with refEth := false } }
  have hex : exec .refclkEthLoss s = .next (settle s (levelSources (ethsDown u (List.range 8)))) := rfl
  have hdown : ∀ m < 8, ((ethsDown u (List.range 8)).sens.eth.getD m {}).up = false := fun m hm =>
    ethsDown_down u _ (List.mem_range.2 hm)
  refine ⟨levelSources (ethsDown u (List.range 8)), ?_, ?_, fun m hm => ?_, fun m hm hi ha hs => ?_⟩
  · exact hex.trans (congrArg Host.Outcome.next (settle_levelSources ((ethsDown_tells u _ (fun u => u.fc.fsw)).trans rfl)))
  · rw [levelSources_keeps_view State.pins setSrc_pins]
    exact ethsDown_tells u _ (fun u => u.pins.refEth)
  · rw [levelSources_keeps_view State.sens setSrc_sens, hdown m hm]
  · have hseen : ((ethsDown u (List.range 8)).sens.eth.getD m {}).seen = true := (ethsDown_seen u _ m).trans hs
    have hlt : m < (ethsDown u (List.range 8)).sens.eth.length := lt_length_of_getD EthMac.seen (by rw [hseen]; decide)
    refine levelSources_sets ?_ (by decide) ?_
    · exact (ethsDown_tells u _ (fun u => u.saf.injDone)).trans hi
    · have hact : hasActive (ethsDown u (List.range 8)) = true := (ethsDown_tells u _ hasActive).trans ha
      have hany : (ethsDown u (List.range 8)).sens.eth.any (fun x => x.seen && !x.up) = true := by
        refine List.any_eq_true.2 ⟨_, List.getElem_mem hlt, ?_⟩
        rw [← List.getD_eq_getElem _ {} hlt, hseen, hdown m hm]
        rfl
      rw [levelCond_eth, hact, hany]
      rfl

/-! ### Packets that TX ports forward -/

theorem nextFrame_sub {q : List (Nat × List Byte)} {y : Nat × List Byte} (h : y ∈ nextFrame q) : y ∈ q :=
  (List.dropWhile_sublist _).subset h

/-- What waits after a cut begins with a Frame Start (R285). -/
theorem nextFrame_head {q : List (Nat × List Byte)} {y : Nat × List Byte} (h : (nextFrame q).head? = some y) : y.1 = 0 := by
  have hd := List.head?_dropWhile_not (fun x : Nat × List Byte => x.1 != 0) q
  unfold nextFrame at h
  rw [h] at hd
  simpa using hd

theorem modSp_eq {s : State} {p : Nat} {x : SpPort} (hx : s.sens.sp[p]? = some x) (f : SpPort → SpPort) :
    modSp s p f = { s with sens := { s.sens with sp := setAt s.sens.sp p (f x) } } := by
  unfold modSp
  rw [modAt_eq_setAt hx]

section
variable {s : State} {p dt : Nat} {pl : List Byte}

theorem exec_txForwardPacket {x : SpPort} {r : List (Nat × List Byte)} (hx : s.sens.sp[p]? = some x) (hm : spMode s p = 2)
    (hq : x.fwdQ = (dt, pl) :: r) (fits : Bool) : exec (.txForwardPacket p dt fits pl) s = .next (
      if fits && x.up then { s with
        sens := { s.sens with sp := setAt s.sens.sp p { x with fwdQ := r } }
        out := { s.out with forwarded := BitVec.ofNat 8 (fld (portEntry s p) 1 9 6) :: BitVec.ofNat 8 dt :: pl } }
      else { s with sens := { s.sens with sp := setAt s.sens.sp p { x with
        fwdQ := nextFrame r, fwdCut := (nextFrame r).isEmpty, fwdDrops := satAdd 0xFFFF x.fwdDrops 1 } } }) := by
  have he : exec (.txForwardPacket p dt fits pl) s = execTxForwardPacket p dt fits pl s := rfl
  have hg : s.sens.sp.getD p {} = x := by rw [List.getD_eq_getElem?_getD, hx]; rfl
  rw [he, execTxForwardPacket]
  dsimp only
  rw [hg, hq]
  dsimp only
  rw [if_neg (by simp [hm]), modSp_eq hx, modSp_eq hx]
  split <;> rfl

theorem exec_txForwardPacket_idle (h : spMode s p ≠ 2 ∨ (s.sens.sp.getD p {}).fwdQ.head? ≠ some (dt, pl)) (fits : Bool) :
    exec (.txForwardPacket p dt fits pl) s = .next s := by
  have he : exec (.txForwardPacket p dt fits pl) s = execTxForwardPacket p dt fits pl s := rfl
  rw [he, execTxForwardPacket]
  dsimp only
  split
  · rfl
  · next q r hq =>
    rw [hq] at h
    rw [if_pos]
    simpa [bne_iff_ne] using h

end

/-- Settles O50: links that come up by what they record, links that go down by the sensor frames that they lose (`loseLink_cur`),
the loss of REFCLK_ETH by the links that it takes down (`ethsDown_down`), forwarded packets by `exec_txForwardPacket`. -/
theorem sensorLinks : Obligations.SensorLinks := by
  refine ⟨fun s p g hw => ?_, fun s p g hw => ⟨?_, ?_⟩, fun s p g hp => exec_spLinkDown hp, fun s m hw => ?_,
    fun s m hm => exec_ethLinkDown hm, exec_refclkEthLoss, fun s p dt fits pl r x hx hm hq => ⟨fun hf hu => ?_, fun h => ?_⟩,
    fun s p dt fits pl h => exec_txForwardPacket_idle h fits⟩
  · have he : exec (.spLinkChange p true g) s = execSpLinkChange p true g s := rfl
    rw [he, execSpLinkChange, if_pos rfl, if_neg (by rw [hw]; decide)]
    rfl
  · have he : exec (.spLinkChange p true g) s = execSpLinkChange p true g s := rfl
    rw [he, execSpLinkChange, if_pos rfl, if_pos hw]
  · have he : exec (.ethLinkChange p true) s = execEthLinkChange p true s := rfl
    rw [he, execEthLinkChange, if_pos rfl, if_pos hw]
  · have he : exec (.ethLinkChange m true) s = execEthLinkChange m true s := rfl
    rw [he, execEthLinkChange, if_pos rfl, if_neg (by rw [hw]; decide)]
    rfl
  · rw [exec_txForwardPacket hx hm hq, hf, hu]
    rfl
  · refine ⟨nextFrame r, fun y => nextFrame_sub, fun y => nextFrame_head, ?_⟩
    rw [exec_txForwardPacket hx hm hq, if_neg]
    rcases h with h | h <;> simp [h]

end Sys2Proof.Proofs
end

section
/-! PROOFS. Record and replay (R301 to R303), and the stop of control pair B on what comes poisoned (R390): nothing that answers
a fatal source starts the pair again. -/

namespace Sys2Proof.Proofs

open Sys2Proof Sys2Proof.Machine Sys2Proof.Laws

/-! ### Control pair B stays stopped -/

/-- Whether control pair B is stopped. -/
def pairBOff (s : State) : Bool := s.rst.pairB

section
variable (s : State)

theorem pairBOff_setSrc (n : Nat) : pairBOff (setSrc s n) = pairBOff s := by
  simp only [pairBOff, setSrc_rst]

theorem pairBOff_giveOne (src : Nat) (k : PoolKind) (i : Nat) (ep : Bool) : pairBOff (giveOne s src k i ep) = pairBOff s :=
  ite_keeps pairBOff rfl (pairBOff_setSrc _ 82)

theorem pairBOff_closeXfer (x : Xfer) : pairBOff (closeXfer s x) = pairBOff s :=
  ite_keeps pairBOff (pairBOff_giveOne _ _ _ _ _) rfl

theorem pairBOff_modXfer (id : Nat) (f : Xfer → Xfer) : pairBOff (modXfer s id f) = pairBOff s := rfl

theorem pairBOff_trimIf (p : Xfer → Bool) : pairBOff (trimIf s p) = pairBOff s :=
  foldl_keeps pairBOff _ (fun s x => ite_keeps pairBOff rfl 
    (ite_keeps pairBOff (pairBOff_closeXfer s x) (pairBOff_modXfer s _ _))) _ _

theorem pairBOff_collectOne (inp : Nat) : pairBOff (collectOne s inp) = pairBOff s := by
  unfold collectOne
  split
  · rfl
  · refine ite_keeps pairBOff rfl (ite_keeps pairBOff ?_ ((pairBOff_setSrc _ 82).trans ?_)) <;>
      simp only [pairBOff, storeWords_rst]

theorem pairBOff_pushRec (inp : Nat) (r : CRec) : pairBOff (pushRec s inp r) = pairBOff s :=
  (show _ = pairBOff (if 2 ≤ skidCount s inp then collectOne s inp else s) from rfl).trans
    (ite_keeps pairBOff (pairBOff_collectOne s inp) rfl)

theorem pairBOff_writeFb (j : Job) (l : LayerCnt) (o : Nat) : pairBOff (writeFb s j l o) = pairBOff s := by
  simp only [pairBOff, writeFb, storeWords_rst]

theorem pairBOff_waitEnd (w : EndWait) : pairBOff (waitEnd s w) = pairBOff s := ite_keeps pairBOff rfl rfl

theorem pairBOff_skipEntry (i : Nat) (o : JobEnd) : pairBOff (skipEntry s i o) = pairBOff s :=
  ite_keeps pairBOff (pairBOff_waitEnd s _) (pairBOff_pushRec _ _ _)

theorem pairBOff_releaseWalks (t : Word) : pairBOff (releaseWalks s t) = pairBOff s :=
  foldl_keeps pairBOff _ (fun s e => by
    split
    · exact ite_keeps pairBOff (show pairBOff (offStore _) = pairBOff (offStore s) by rw [releaseWalk_offStore]) rfl
    · rfl) _ _

theorem pairBOff_endJob (t : Word) (o : JobEnd) (inp : Nat) : pairBOff (endJob s t o inp) = pairBOff s := by
  unfold endJob
  refine ite_keeps pairBOff (pairBOff_waitEnd s _) ?_
  split
  · rfl
  · next j _ =>
    dsimp only
    generalize hu : trimXfers _ t = u
    have hv : pairBOff u = pairBOff s := by
      rw [← hu]
      exact (pairBOff_trimIf _ _).trans (foldl_keeps pairBOff _ (fun s l => pairBOff_writeFb s j l 2) _ s)
    refine (pairBOff_pushRec _ _ _).trans ((pairBOff_releaseWalks _ _).trans (Eq.trans ?_ hv))
    cases j.origin <;> rfl

theorem pairBOff_cascade (n : Nat) : pairBOff (cascade n s) = pairBOff s := by
  induction n generalizing s with
  | zero => rfl
  | succ n ih =>
    unfold cascade
    split
    · exact (ih _).trans (pairBOff_endJob s _ _ _)
    · split
      · exact (ih _).trans (pairBOff_skipEntry s _ _)
      · rfl

theorem pairBOff_killJobs (ts : List Word) (o : JobEnd) (inp : Nat) : pairBOff (killJobs s ts o inp) = pairBOff s :=
  (ite_keeps pairBOff rfl (pairBOff_cascade _ _)).trans (foldl_keeps pairBOff _ (fun s t => pairBOff_endJob s t o inp) _ _)

theorem pairBOff_faReact : pairBOff (faReact s) = pairBOff s := by
  have hg : ∀ u : State, pairBOff (guiltFatal u) = pairBOff u := fun u => by unfold guiltFatal; split <;> rfl
  have hc : ∀ u : State, pairBOff (cancelSwap u) = pairBOff u := fun u => ite_keeps pairBOff rfl rfl
  have hstop : pairBOff (faStopped s) = pairBOff s :=
    (hc _).trans ((hg (withdraw s 4)).trans (ite_keeps pairBOff rfl rfl))
  have hv : ∀ u : State, pairBOff (faVerdict u) = pairBOff u := fun u =>
    ite_keeps pairBOff (by simp only [pairBOff, writeVerdict, storeWords_rst]) rfl
  have hh : ∀ u : State, pairBOff (faHalt u) = pairBOff u := fun u => ite_keeps pairBOff rfl rfl
  rw [faReact_eq_faHalt]
  exact (hh (faAnswered s)).trans ((hv (faKilled (faStopped s))).trans ((pairBOff_killJobs _ _ _ _).trans hstop))

theorem settle_pairB (s0 : State) : (settle s0 s).rst.pairB = s.rst.pairB := ite_keeps pairBOff (pairBOff_faReact s) rfl

end

/-- What stops control pair B leaves it stopped, with its source set, when all that follows is done. -/
theorem settle_stopPairB (s0 s : State) :
    (settle s0 (stopPairB s)).rst.pairB = true ∧ (settle s0 (stopPairB s)).fc.fsw.getLsbD 89 = true :=
  ⟨by rw [settle_pairB, stopPairB, setSrc_rst], settle_fsw s0 _ (setSrc_sets_bit _ (by decide) (by decide))⟩

/-- A command whose work stops control pair B sends no reply. -/
theorem command_stopsPairB {op flags : Nat} {k : Pkt} {body : State → Ans} {s s0 u : State}
    (h : starts s op flags k = some s0) (hb : body s0 = (stopPairB u, none)) :
    (command op flags k body s).rst.pairB = true ∧ (command op flags k body s).fc.fsw.getLsbD 89 = true := by
  refine ⟨?_, (command_unanswered h hb).fsw 89 (setSrc_sets_bit _ (by decide) (by decide))⟩
  obtain ⟨hv, -⟩ := served_of_starts h
  rw [command_serves h, settle_pairB]
  simp only [serve, hv, if_true, hb]
  split
  · cases k.port <;> exact pairBOff_setSrc _ 89
  · exact pairBOff_setSrc _ 89

/-! ### Recording and the start of a replay -/

section
variable {k : Pkt} {s s0 : State}

theorem recordCtlStart_settled (hs : starts s 0x78 0 k = some s0) (hk : regionBad k = none) :
    (s.sens.recorder.state = 1 → exec (.recordCtlStart k) s = .next (answered s0 0x78 k .wrongState []))
    ∧ (s.sens.recorder.state ≠ 1 → s.rst.pairB = true →
      exec (.recordCtlStart k) s = .next (answered s0 0x78 k .notReady []))
    ∧ (s.sens.recorder.state ≠ 1 → s.rst.pairB = false → inDram s (regionBase k) (regionLen k) = true →
      hits (fwRegions s) (regionBase k) (regionLen k) = false →
      exec (.recordCtlStart k) s = .next (answered { s0 with sens := { s0.sens with recorder :=
        { state := 1, base := regionBase k, len := regionLen k, mask := regionMask k, armed := true } } } 0x78 k .ok [])) := by
  obtain ⟨c, rfl⟩ := starts_cmd hs
  refine ⟨fun hst => congrArg Host.Outcome.next (command_refuses hs ?_),
    fun hst hB => congrArg Host.Outcome.next (command_refuses hs ?_),
    fun hst hB hD hfw => congrArg Host.Outcome.next (command_starts hs ?_ rfl)⟩ <;> simp only [doRecordStart, hk]
  · rw [if_pos hst]
  · rw [if_neg hst, if_pos hB]
  · have hbad : ¬ (!inDram s (regionBase k) (regionLen k) || hits (fwRegions s) (regionBase k) (regionLen k)) = true := by
      rw [hD, hfw]; decide
    rw [if_neg hst, hB, if_neg (by decide)]
    exact if_neg hbad

theorem recordCtlStop_pairB (hs : starts s 0x78 1 k = some s0) (hB : s.rst.pairB = true) :
    exec (.recordCtlStop k) s = .next (answered s0 0x78 k .notReady []) := by
  obtain ⟨c, rfl⟩ := starts_cmd hs
  exact congrArg Host.Outcome.next (command_refuses hs (by rw [doRecordStop, if_pos hB]))

theorem replayCtlStop_pairB (hs : starts s 0x79 1 k = some s0) (hB : s.rst.pairB = true) :
    exec (.replayCtlStop k) s = .next (answered s0 0x79 k .notReady []) := by
  obtain ⟨c, rfl⟩ := starts_cmd hs
  exact congrArg Host.Outcome.next (command_refuses hs (by rw [doReplayStop, if_pos hB]))

theorem recordCtlStop_settled (hs : starts s 0x78 1 k = some s0) (hB : s.rst.pairB = false) :
    (s.sens.recorder.state ≠ 1 → exec (.recordCtlStop k) s = .next (answered s0 0x78 k .alreadyDone []))
    ∧ (s.sens.recorder.state = 1 → s.sch.run = .running → exec (.recordCtlStop k) s = .next (answered
        { s0 with sens := { s0.sens with recorder := { s0.sens.recorder with stopping := true } } } 0x78 k .ok []))
    ∧ (s.sens.recorder.state = 1 → s.sch.run ≠ .running → exec (.recordCtlStop k) s = .next (answered
        { s0 with sens := { s0.sens with recorder := { s0.sens.recorder with
            state := 0, armed := false, stopping := false } } } 0x78 k .ok [])) := by
  obtain ⟨c, rfl⟩ := starts_cmd hs
  exact ⟨fun hst => congrArg Host.Outcome.next (command_refuses hs (by simp [doRecordStop, hB, hst])),
    fun hst hr => congrArg Host.Outcome.next (command_starts hs (by simp [doRecordStop, hB, hst, hr]) rfl),
    fun hst hr => congrArg Host.Outcome.next (command_starts hs (by simp [doRecordStop, hB, hst, hr]) rfl)⟩

theorem replayCtlStop_settled (hs : starts s 0x79 1 k = some s0) (hB : s.rst.pairB = false) :
    (s.sens.replayer.state ≠ 1 → exec (.replayCtlStop k) s = .next (answered s0 0x79 k .alreadyDone []))
    ∧ (s.sens.replayer.state = 1 → s.sch.run ≠ .running → exec (.replayCtlStop k) s = .next (answered
        { s0 with sens := { s0.sens with replayer := { s0.sens.replayer with
            state := 0, stopping := false } } } 0x79 k .ok [])) := by
  obtain ⟨c, rfl⟩ := starts_cmd hs
  exact ⟨fun hst => congrArg Host.Outcome.next (command_refuses hs (by simp [doReplayStop, hB, hst])),
    fun hst hr => congrArg Host.Outcome.next (command_starts hs (by simp [doReplayStop, hB, hst, hr]) rfl)⟩

end

/-! ### Reads of control pair B -/

theorem readAll_single (s : State) (src a n : Nat) (ecc : List (Nat × Ecc)) :
    readAll s src [(a, n)] ecc = portRead s src a n (eccFor ecc) := rfl

theorem readsGood_single (s : State) (src a n : Nat) (ecc : List (Nat × Ecc)) :
    readsGood s src [(a, n)] ecc = !readBad (readAll s src [(a, n)] ecc) a n (eccFor ecc) := Bool.and_true _

theorem readBad_of_readsGood {s : State} {src a n : Nat} {ecc : List (Nat × Ecc)} {b : Bool}
    (h : readsGood s src [(a, n)] ecc = b) : readBad (readAll s src [(a, n)] ecc) a n (eccFor ecc) = !b := by
  rw [← h, readsGood_single, Bool.not_not]

/-- What streams a region's records name hangs on memory alone. -/
theorem recStreams_congr {s t : State} (h : t.mem = s.mem) (n a e : Nat) (m : BitVec 64) :
    recStreams t n a e m = recStreams s n a e m := by
  induction n generalizing a m with
  | zero => rfl
  | succ n ih => simp only [recStreams, h, ih]

/-- What control pair B does with a region that comes whole, and with one that comes poisoned. -/
theorem pairBRead_good {s : State} {a n : Nat} {ecc : List (Nat × Ecc)} (f : State → State)
    (h : readsGood s srcPairB [(a, n)] ecc = true) :
    pairBRead s a n (eccFor ecc) f = f (readAll s srcPairB [(a, n)] ecc) := by
  rw [pairBRead, ← readAll_single, readBad_of_readsGood h]
  rfl

theorem pairBRead_bad {s : State} {a n : Nat} {ecc : List (Nat × Ecc)} (f : State → State)
    (h : readsGood s srcPairB [(a, n)] ecc = false) :
    pairBRead s a n (eccFor ecc) f = stopPairB (readAll s srcPairB [(a, n)] ecc) := by
  rw [pairBRead, ← readAll_single, readBad_of_readsGood h]
  rfl

section
variable {k : Pkt} {s s0 : State} {ecc : List (Nat × Ecc)}

/-- What a replay's start makes of the region, once its checks have passed. -/
def replayOver (k : Pkt) (u : State) (ecc : List (Nat × Ecc)) : Ans :=
  if readBad u (regionBase k) (regionLen k) (eccFor ecc) then (stopPairB u, none) else
  let extra := regionMask k &&& ~~~(recStreams u (regionLen k / 32) (regionBase k) (regionBase k + regionLen k) 0)
  if extra.extractLsb' 0 32 != 0 then badWord u 6
  else if extra != 0 then badWord u 7
  else ({ u with sens := { u.sens with replayer :=
      { state := 1, base := regionBase k, len := regionLen k, mask := regionMask k } } }, some (.ok, []))

theorem doReplayStart_eq (hk : regionBad k = none) : doReplayStart k s ecc =
    if !(s.sch.run == .idle || s.sch.run == .armed) then refuse s .wrongState []
    else if s.rst.pairB then refuse s .notReady []
    else if !inDram s (regionBase k) (regionLen k) then badWord s 2
    else replayOver k (readAll s srcPairB [(regionBase k, regionLen k)] ecc) ecc := by
  rw [doReplayStart, hk, readAll_single]
  rfl

theorem replayOver_bad (h : readsGood s srcPairB [(regionBase k, regionLen k)] ecc = false) :
    replayOver k (readAll s srcPairB [(regionBase k, regionLen k)] ecc) ecc
      = (stopPairB (readAll s srcPairB [(regionBase k, regionLen k)] ecc), none) :=
  if_pos (readBad_of_readsGood h)

theorem replayOver_good {u : State} (h : readBad u (regionBase k) (regionLen k) (eccFor ecc) = false)
    (hm : regionMask k &&& ~~~(recStreams u (regionLen k / 32) (regionBase k) (regionBase k + regionLen k) 0) = 0) :
    replayOver k u ecc = ({ u with sens := { u.sens with replayer :=
      { state := 1, base := regionBase k, len := regionLen k, mask := regionMask k } } }, some (.ok, [])) := by
  rw [replayOver, h, hm]
  rfl

theorem replayCtlStart_refuses (hs : starts s 0x79 0 k = some s0) (hk : regionBad k = none) :
    ((s.sch.run = .running ∨ s.sch.run = .halted) →
        exec (.replayCtlStart k ecc) s = .next (answered s0 0x79 k .wrongState []))
    ∧ ((s.sch.run = .idle ∨ s.sch.run = .armed) → s.rst.pairB = true →
        exec (.replayCtlStart k ecc) s = .next (answered s0 0x79 k .notReady [])) := by
  obtain ⟨c, rfl⟩ := starts_cmd hs
  refine ⟨fun hr => congrArg Host.Outcome.next (command_refuses hs ((doReplayStart_eq hk).trans ?_)),
    fun hr hB => congrArg Host.Outcome.next (command_refuses hs ((doReplayStart_eq hk).trans ?_))⟩
  · rw [if_pos (by rcases hr with hr | hr <;> rw [hr] <;> decide)]
  · rw [if_neg (by rcases hr with hr | hr <;> rw [hr] <;> decide), if_pos hB]

theorem replayCtlStart_reads (hs : starts s 0x79 0 k = some s0) (hk : regionBad k = none)
    (hr : s.sch.run = .idle ∨ s.sch.run = .armed) (hB : s.rst.pairB = false)
    (hD : inDram s (regionBase k) (regionLen k) = true) :
    (readsGood s0 srcPairB [(regionBase k, regionLen k)] ecc = true →
      regionMask k &&& ~~~(recStreams s (regionLen k / 32) (regionBase k) (regionBase k + regionLen k) 0) = 0 →
      ∀ u, u = readAll s0 srcPairB [(regionBase k, regionLen k)] ecc →
      exec (.replayCtlStart k ecc) s = .next (settle s (answered { u with sens := { u.sens with replayer :=
        { state := 1, base := regionBase k, len := regionLen k, mask := regionMask k } } } 0x79 k .ok [])))
    ∧ (readsGood s0 srcPairB [(regionBase k, regionLen k)] ecc = false →
      ∃ t, exec (.replayCtlStart k ecc) s = .next t ∧ t.rst.pairB = true ∧ t.fc.fsw.getLsbD 89 = true) := by
  have hs0 := starts_eq hs
  have hbody : doReplayStart k s0 ecc = replayOver k (readAll s0 srcPairB [(regionBase k, regionLen k)] ecc) ecc := by
    rw [doReplayStart_eq hk, if_neg, if_neg, if_neg]
    · rw [show inDram s0 (regionBase k) (regionLen k) = true by rw [hs0]; exact hD]; decide
    · rw [hs0, hB]; decide
    · rw [hs0]; rcases hr with hr | hr <;> rw [hr] <;> decide
  constructor
  · rintro hg hm u rfl
    have hmem : (readAll s0 srcPairB [(regionBase k, regionLen k)] ecc).mem = s.mem := by rw [readAll_mem, hs0]
    rw [settle_congr (s0 := s0) (by rw [hs0])]
    exact congrArg Host.Outcome.next (command_answers hs
      (hbody.trans (replayOver_good (readBad_of_readsGood hg) (by rwa [recStreams_congr hmem]))))
  · exact fun hg => ⟨_, rfl, command_stopsPairB hs (hbody.trans (replayOver_bad hg))⟩

end

/-! ### The records of a replay -/

/-- The replay stands at `r`. -/
def setReplayer (s : State) (r : Replayer) : State := { s with sens := { s.sens with replayer := r } }

theorem streamOf_setReplayer (s : State) (r : Replayer) (i : Nat) : streamOf (setReplayer s r) i = streamOf s i := rfl

theorem stEntry_setReplayer (s : State) (r : Replayer) (i : Nat) : stEntry (setReplayer s r) i = stEntry s i := rfl

/-- The replay `r` after its next record. -/
def pastRecord (r : Replayer) (x : RecIn) : Replayer := { r with pos := r.pos + recSize x.hd }

/-- What becomes of the record `x` once it has been read, where `r` is the replay (R303). -/
def takeRecord (r : Replayer) (x : RecIn) (ecc : List (Nat × Ecc)) (u : State) : State :=
  if !x.ok then setReplayer u { r with state := 3, inFrame := false }
  else if fld x.hd 0 7 0 = 1 then u
  else if r.mask.getLsbD (fld x.hd 0 13 8) then inject (setReplayer u (pastRecord r x)) x (eccFor ecc)
  else setReplayer u (pastRecord r x)

section
variable {r : Replayer} {x : RecIn} {ecc : List (Nat × Ecc)}

theorem takeRecord_badCrc (u : State) (hx : x.ok = false) : takeRecord r x ecc u =
    setReplayer u { r with state := 3, inFrame := false } := by
  rw [takeRecord, hx]
  rfl

theorem takeRecord_past (u : State) (hx : x.ok = true) (ht : fld x.hd 0 7 0 ≠ 1) : takeRecord r x ecc u =
    if r.mask.getLsbD (fld x.hd 0 13 8) then inject (setReplayer u (pastRecord r x)) x (eccFor ecc)
    else setReplayer u (pastRecord r x) := by
  rw [takeRecord, hx, if_neg (by decide), if_neg ht]

theorem replayInject_waits {s : State}
    (h : s.sens.replayer.state ≠ 1 ∨ s.sens.replayer.inFrame = false ∨ s.sch.run ≠ .running) :
    exec (.replayInject ecc) s = .next s := by
  refine congrArg Host.Outcome.next (if_pos ?_)
  rcases h with h | h | h <;> simp [h]

/-- The next record of a frame under replay is read by control pair B, and then taken. -/
theorem replayInject_reads {s : State} (hr : s.sens.replayer = r) (h1 : r.state = 1) (hf : r.inFrame = true)
    (hrun : s.sch.run = .running) (hx : x = recAt s (r.base + r.pos)) (hh : r.pos + 32 ≤ r.len)
    (hl : r.pos + recSize x.hd ≤ r.len) :
    exec (.replayInject ecc) s
      = .next (settle s (pairBRead s (r.base + r.pos) (recSize x.hd) (eccFor ecc) (takeRecord r x ecc))) := by
  subst hr hx
  refine congrArg Host.Outcome.next ((if_neg ?_).trans (if_neg (by omega)))
  have hlen : ¬ s.sens.replayer.len < s.sens.replayer.pos + 32 := by omega
  simp [h1, hf, hrun, hlen]

/-- An END record of an Ethernet stream closes the stream's sensor frame. -/
theorem inject_endOfEth {s : State} {i : Nat} (ht : fld x.hd 0 7 0 = 6) (hi : fld x.hd 0 13 8 = i)
    (hv : stValid (stEntry s i) = true) (he : stEth (stEntry s i) = true) (o : Nat → Ecc) :
    inject s x o = closeFrame s i := by
  subst hi
  simp [inject, ht, hv, he]

/-- So it goes with an END record that a replay takes: no fatal source comes of it. -/
theorem takeRecord_endOfEth {s : State} {a n i : Nat} {f : SFrame} {o : Nat → Ecc}
    (hfit : poolsFit s.cr.pools = true) (hx : x.ok = true) (ht : fld x.hd 0 7 0 = 6) (hi : fld x.hd 0 13 8 = i)
    (hm : r.mask.getLsbD i = true) (hv : stValid (stEntry s i) = true) (he : stEth (stEntry s i) = true)
    (hlen : i < s.sens.streams.length) (hc : (streamOf s i).cur = some f) {t : State}
    (hT : t = takeRecord r x ecc (portRead s srcPairB a n o)) :
    Harmless s t ∧ (streamOf t i).cur = none ∧ (streamOf t i).kept = (streamOf s i).kept ++ [{ f with closed := true }]
      ∧ t.sens.replayer.pos = r.pos + recSize x.hd := by
  obtain ⟨hview, hharm⟩ := portRead_reads srcPairB a n o hfit (Harmless.of_fsw (s := s) rfl)
  have hsens := portRead_sens s srcPairB a n o
  have hsets : (portRead s srcPairB a n o).sets = s.sets := congrArg (·.1.2.2.1) hview
  have hst : streamOf (setReplayer (portRead s srcPairB a n o) (pastRecord r x)) i = streamOf s i := by
    rw [streamOf_setReplayer, streamOf, hsens, streamOf]
  have hent : stEntry (setReplayer (portRead s srcPairB a n o) (pastRecord r x)) i = stEntry s i :=
    (stEntry_setReplayer _ _ i).trans (stEntry_congr hsets i)
  rw [takeRecord_past _ hx (by omega), hi, if_pos hm, inject_endOfEth ht hi (by rwa [hent]) (by rwa [hent])] at hT
  have hlen' : i < (setReplayer (portRead s srcPairB a n o) (pastRecord r x)).sens.streams.length := by
    show i < (portRead s srcPairB a n o).sens.streams.length
    rwa [hsens]
  have hclose := offFront_closeFrame ((congrArg Stream.cur hst).trans hc)
  rw [← hT] at hclose
  have hkept : streamOf t i = { streamOf s i with
      cur := none, kept := (streamOf s i).kept ++ [{ f with closed := true }] } := by
    rw [offFront_streamOf hclose, streamOf_frameClosed hlen', hst]
  exact ⟨hharm.congr ((offFront_tells (fun u => u.fc.fsw) hclose).trans rfl), by rw [hkept], by rw [hkept],
    offFront_tells (fun u => u.sens.replayer.pos) hclose⟩

end

/-! ### The obligation -/

/-- Settles O51: each command by its checks in their order, a replay's start by what comes of its read of the region; a record by
what comes of its read (`pairBRead`) and then by its CRC and its kind (`takeRecord`). What stops control pair B leaves it stopped,
for no answer to a fatal source starts it again (`settle_pairB`). -/
theorem recordAndReplay : Obligations.RecordAndReplay := by
  unfold Obligations.RecordAndReplay
  refine ⟨fun k s s0 hs hk => recordCtlStart_settled hs hk, fun k s s0 hs hB => recordCtlStop_pairB hs hB,
    fun k s s0 hs hB => replayCtlStop_pairB hs hB, fun k s s0 hs hB => recordCtlStop_settled hs hB,
    fun k s s0 ecc hs hk => ?_, fun k s s0 hs hB => replayCtlStop_settled hs hB, fun s ecc h => replayInject_waits h,
    fun s u r x rs ecc hr h1 hf hrun hx hh hl hrs hu => ?_⟩
  · obtain ⟨hwrong, hnot⟩ := replayCtlStart_refuses (ecc := ecc) hs hk
    exact ⟨hwrong, hnot, fun hr hB hD => replayCtlStart_reads hs hk hr hB hD⟩
  · subst hrs hu
    have hexec := replayInject_reads (ecc := ecc) hr h1 hf hrun hx hh hl
    refine ⟨fun hbad => ?_, fun hg hok => ?_, fun hg hok ht hm => ?_, fun i f hg hfit hok ht hi hm hv he hlen hc => ?_⟩
    · rw [pairBRead_bad _ hbad] at hexec
      exact ⟨_, hexec, settle_stopPairB s _⟩
    · rw [hexec, pairBRead_good _ hg, takeRecord_badCrc _ hok]
      rfl
    · rw [hexec, pairBRead_good _ hg, takeRecord_past _ hok ht, hm]
      rfl
    · rw [pairBRead_good _ hg] at hexec
      obtain ⟨hharm, hcur, hkept, hpos⟩ := takeRecord_endOfEth hfit hok ht hi.symm hm hv he hlen hc rfl
      exact ⟨_, hexec.trans (congrArg Host.Outcome.next hharm.settle), hcur, hkept, hpos⟩

end Sys2Proof.Proofs
end

section
/-! PROOFS. Rows of single registers (R286, R308, R312, R313, R316, R326, R349, R350, R479, R488), the reset values, and the edge
of the time base with no command waiting (R311). -/

namespace Sys2Proof.Proofs

open Sys2Proof Sys2Proof.Machine Sys2Proof.Laws

/-! ### Fields of written words -/

/-- A flag that a row sets leaves the fields below it. -/
theorem bits_or_flag (w : Word) {hi lo n : Nat} (h : hi < n) (hl : lo ≤ hi) (f : Word) (hf : f.toNat = 2 ^ n) :
    bits (w ||| f) hi lo = bits w hi lo := by
  rw [bits, bits, BitVec.toNat_or, hf]
  apply Nat.eq_of_testBit_eq
  intro i
  simp only [Nat.testBit_mod_two_pow, Nat.testBit_div_two_pow, Nat.testBit_or, Nat.testBit_two_pow]
  by_cases hi' : i < hi + 1 - lo
  · have : ¬ n = i + lo := by omega
    simp [this]
  · simp [hi']

theorem bit_or_flag (w f : Word) {n : Nat} (hf : f.toNat = 2 ^ n) : bit (w ||| f) n = true := by
  have h : (w.toNat ||| 2 ^ n).testBit n = true := by simp
  rw [Nat.testBit_eq_decide_div_mod_eq, decide_eq_true_eq] at h
  rw [bit, BitVec.toNat_or, hf, h]
  rfl

theorem bits_31_24 (w : Word) : bits w 31 24 = w.toNat / 2 ^ 24 := by
  have := w.isLt
  rw [bits]
  omega

/-! ### Accesses by the host -/

section
variable {s : State} {b i W : Nat} (hW : blockW b = some W) (hi : i < 2 ^ W) (hu : hostUp s = true)
  (ho : blockOpen s b = true)
include hW hi hu ho

theorem busRead_reg : busRead s (b * 0x1_0000 + 4 * i) = putData (afterRead s b i) (regVal s b i) :=
  (if_pos hu).trans (accRead_reg hW hi ho)

theorem busWrite_reg (w : Word) (hf : (regWrite s b i w).fc = s.fc) :
    busWrite s (b * 0x1_0000 + 4 * i) w = regWrite s b i w :=
  (if_pos hu).trans ((accWrite_reg hW hi ho w).trans (settle_same (congrArg FaultColl.fsw hf)))

end

/-! ### Rows of the time base's registers -/

theorem writeAddendHi_fc (s : State) (w : Word) : (writeAddendHi s w).fc = s.fc := ite_keeps State.fc (setAddend_fc s _) rfl

theorem writeServoCtrl_fc (s : State) (w : Word) : (writeServoCtrl s w).fc = s.fc := ite_keeps State.fc rfl rfl

section
variable {s : State} (hu : hostUp s = true) (ho : blockOpen s 0x03 = true) (w : Word)
include hu ho

theorem exec_tbNsRead : exec .tbNsRead s = .next { s with
    tb := { s.tb with latched := s.tb.sec }, out := { s.out with rdata := [BitVec.ofNat 32 s.tb.ns] } } :=
  congrArg Host.Outcome.next (busRead_reg (b := 0x03) (i := 1) (W := 4) rfl (by decide) hu ho)

theorem exec_addendHiWrite : exec (.addendHiWrite w) s = .next (writeAddendHi s w) :=
  congrArg Host.Outcome.next (busWrite_reg (b := 0x03) (i := 5) (W := 4) rfl (by decide) hu ho w
    (writeAddendHi_fc s w))

theorem exec_servoCtrlWrite : exec (.servoCtrlWrite w) s = .next (writeServoCtrl s w) :=
  congrArg Host.Outcome.next (busWrite_reg (b := 0x03) (i := 6) (W := 4) rfl (by decide) hu ho w
    (writeServoCtrl_fc s w))

theorem exec_capPop : exec (.capPop w) s = .next (writeCapStatus s (w ||| 0x0008_0000)) :=
  congrArg Host.Outcome.next (busWrite_reg (b := 0x03) (i := 12) (W := 4) rfl (by decide) hu ho (w ||| 0x0008_0000) rfl)

end

/-- An addend within the limits is in force as it was given (R312). -/
theorem setAddend_within {s : State} {a : Int} (h : clampL (a - nominalAddend) = a - nominalAddend) :
    setAddend s a = { s with tb := { s.tb with addend := a.toNat, clamped := false } } := by
  simp [setAddend, h]

theorem writeServoCtrl_eq {s : State} {w : Word} {src : ServoSrc} (h : srcOf (w.toNat % 8) = some src) :
    writeServoCtrl s w =
      let t := { s.tb with lockThr := w.toNat / 16 % 4096, stepThr := w.toNat / 65536 % 256, sampleTimeout := w.toNat / 2 ^ 24 }
      if src = s.tb.src then { s with tb := t }
      else { s with tb := { srcAddend t src with
        src := src, integral := 0, locked := false, lockLost := false, good := 0, bad := 0 } } := by
  have h0 : bits w 2 0 = w.toNat % 8 := bits_zero w 2
  have h15 : bits w 15 4 = w.toNat / 16 % 4096 := rfl
  have h23 : bits w 23 16 = w.toNat / 65536 % 256 := rfl
  simp only [writeServoCtrl, h0, h15, h23, bits_31_24, h, Option.getD_some, beq_iff_eq]

theorem writeCapStatus_pop (s : State) (w : Word) : writeCapStatus s (w ||| 0x0008_0000) = { s with tb := { s.tb with
    capOvf := s.tb.capOvf &&& ~~~(w.extractLsb' 8 8)
    capFifo := modAt s.tb.capFifo s.tb.capSel List.tail
    capSel := w.toNat / 65536 % 8 } } := by
  have hbit : bit (w ||| 0x0008_0000) 19 = true := bit_or_flag w _ rfl
  have hsel : bits (w ||| 0x0008_0000) 18 16 = w.toNat / 65536 % 8 := bits_or_flag w (by decide) (by decide) _ (n := 19) rfl
  have hovf : (w ||| 0x0008_0000).extractLsb' 8 8 = w.extractLsb' 8 8 := by
    rw [BitVec.extractLsb'_or, show (0x0008_0000 : Word).extractLsb' 8 8 = 0#8 from rfl, BitVec.or_zero]
  simp only [writeCapStatus, hbit, hsel, hovf, if_true]

/-- Settles O14: each row is an access of its register, whose effect is that of the write (`exec_addendHiWrite`,
`exec_servoCtrlWrite`, `exec_capPop`). -/
theorem timeRegisterRows : Obligations.TimeRegisterRows := by
  intro s w hu ho
  refine ⟨exec_tbNsRead hu ho, fun hsrc => ?_, fun hsrc a ha => ?_, fun src hw x y hx hy => ?_, ?_⟩
  · rw [exec_addendHiWrite hu ho, writeAddendHi, if_neg (by simpa using hsrc)]
  · have he : exec (.addendHiWrite w) s = .next (setAddend s a) := by
      rw [exec_addendHiWrite hu ho, writeAddendHi, if_pos (by simpa using hsrc), ha,
        show bits w 3 0 = w.toNat % 16 from bits_zero w 3]
    exact ⟨he, fun hc => by rw [he, setAddend_within hc]⟩
  · subst hx hy
    rw [exec_servoCtrlWrite hu ho, writeServoCtrl_eq hw]
    by_cases h1 : src = s.tb.src
    · simp [h1]
    · by_cases h2 : src = .free
      · subst h2
        simp [h1, srcAddend]
      · by_cases h3 : s.tb.src = .free <;> simp [h1, h2, h3, srcAddend]
  · rw [exec_capPop hu ho, writeCapStatus_pop]

/-! ### Rows of other blocks' registers -/

theorem writeCci_fc (s : State) (p : Nat) (w : Word) : (writeCci s p w).fc = s.fc :=
  ite_keeps State.fc rfl (ite_keeps State.fc rfl (ite_keeps State.fc rfl rfl))

section
variable {s : State} (hu : hostUp s = true)
include hu

theorem exec_ptpTxNsRead {m : Nat} (hm : m < 8) (ho : blockOpen s (0x40 + m) = true) :
    exec (.ptpTxNsRead m) s = .next { s with
      sens := { s.sens with eth := modAt s.sens.eth m (fun x => { x with txSecLatch := x.txSec }) }
      out := { s.out with rdata := [BitVec.ofNat 32 (s.sens.eth.getD m {}).txNs] } } := by
  have hb : 0x40 ≤ 0x40 + m ∧ 0x40 + m < 0x48 := by omega
  have hm' : 0x40 + m - 0x40 = m := by omega
  have hoff : 0x40_0000 + m * 0x1_0000 + 0x18 = (0x40 + m) * 0x1_0000 + 4 * 6 := by omega
  show Host.Outcome.next (if m < 8 then busRead s (0x40_0000 + m * 0x1_0000 + 0x18) else s) = _
  rw [if_pos hm, hoff, busRead_reg (blockW_numbered (by omega)) (by decide) hu ho, afterRead_eth (h := hb), regVal_eth (h := hb), hm']
  rfl

theorem exec_nodeIdWrite (ho : blockOpen s 0x48 = true) (w : Word) :
    exec (.nodeIdWrite w) s = .next (if s.sch.run = .idle
      then { s with map := { s.map with nodeId := w.extractLsb' 0 16, valid := true } } else s) := by
  have hw : mapinWrite s 1 w = if s.sch.run = .idle
      then { s with map := { s.map with nodeId := w.extractLsb' 0 16, valid := true } } else s := by simp [mapinWrite]
  have hf : (mapinWrite s 1 w).fc = s.fc := by rw [hw]; exact ite_keeps State.fc rfl rfl
  rw [← hw]
  exact congrArg Host.Outcome.next (busWrite_reg (b := 0x48) (i := 1) (W := 3) rfl (by decide) hu ho w hf)

theorem exec_dramApertureHiWrite (w : Word) :
    exec (.dramApertureHiWrite w) s = .next (if isDram s (w.toNat % 65536 * 2 ^ 32 + s.pcie.apHeld)
      then { s with pcie := { s.pcie with apBase := w.toNat % 65536 * 2 ^ 32 + s.pcie.apHeld } }
      else { s with pcie := { s.pcie with badBase := satAdd 0xFFFF s.pcie.badBase 1 } }) := by
  show Host.Outcome.next (if hostUp s then writeApHi s w else s) = _
  rw [if_pos hu, writeApHi, show bits w 15 0 = w.toNat % 65536 from bits_zero w 15]

theorem exec_cciGo {p : Nat} (hp : p < 16) (ho : blockOpen s (0x30 + p) = true) (w : Word) :
    exec (.cciGo p w) s = .next (writeCci s p (w ||| 0x0100_0000)) := by
  have hoff : 0x30_0000 + p * 0x1_0000 + 0xC = (0x30 + p) * 0x1_0000 + 4 * 3 := by omega
  have hw : regWrite s (0x30 + p) 3 (w ||| 0x0100_0000) = writeCci s p (w ||| 0x0100_0000) := by
    simp only [regWrite, Bool.and_eq_true, decide_eq_true_eq]
    repeat rw [if_neg (by omega)]
    rw [if_pos (by omega), spWrite, if_pos rfl, Nat.add_sub_cancel_left]
  show Host.Outcome.next (if p < 16 then busWrite s (0x30_0000 + p * 0x1_0000 + 0xC) _ else s) = _
  rw [if_pos hp, hoff, busWrite_reg (blockW_numbered (by omega)) (by decide) hu ho _ (by rw [hw]; exact writeCci_fc s p _), hw]

end

/-- The state of a port's mailbox once GO is written (R286, R308). -/
theorem writeCci_go {s : State} {p : Nat} {x : SpPort} (hx : s.sens.sp[p]? = some x) (w : Word) :
    writeCci s p (w ||| 0x0100_0000) = if x.go then s else if x.up then
      { s with
        sens := { s.sens with sp := modAt s.sens.sp p (fun y => { y with
          dev := w.toNat % 128, wlen := w.toNat / 256 % 32, rlen := w.toNat / 8192 % 32
          go := true, done := false, nack := false, timeout := false }) }
        out := { s.out with cci := BitVec.ofNat 8 (w.toNat % 128) :: (cciBytes x).take (w.toNat / 256 % 32) } }
      else { s with sens := { s.sens with sp := modAt s.sens.sp p (fun y => { y with
        dev := w.toNat % 128, wlen := w.toNat / 256 % 32, rlen := w.toNat / 8192 % 32
        done := true, nack := false, timeout := true }) } } := by
  have hd : bits (w ||| 0x0100_0000) 6 0 = w.toNat % 128 :=
    (bits_or_flag w (by decide) (by decide) _ (n := 24) rfl).trans (bits_zero w 6)
  have hl : bits (w ||| 0x0100_0000) 12 8 = w.toNat / 256 % 32 := bits_or_flag w (by decide) (by decide) _ (n := 24) rfl
  have hr : bits (w ||| 0x0100_0000) 17 13 = w.toNat / 8192 % 32 := bits_or_flag w (by decide) (by decide) _ (n := 24) rfl
  have hgo : bit (w ||| 0x0100_0000) 24 = true := bit_or_flag w _ rfl
  have hg : s.sens.sp.getD p {} = x := by rw [List.getD_eq_getElem?_getD, hx]; rfl
  simp only [writeCci, hg, hd, hl, hr, hgo, modSp, modAt_modAt]
  cases x.go <;> cases x.up <;> rfl

theorem exec_cciDone {s : State} {p : Nat} {x : SpPort} (hx : s.sens.sp[p]? = some x) (hgo : x.go = true) (nack : Bool)
    (bytes : List Byte) {got : List Byte} (hgot : got = if nack then [] else (bytes.take 16).take x.rlen) :
    exec (.cciDone p nack bytes) s = .next { s with sens := { s.sens with sp := setAt s.sens.sp p { x with
      go := false, done := true, nack := nack, data := bytesWords (got ++ (cciBytes x).drop got.length) } } } := by
  have hg : s.sens.sp.getD p {} = x := by rw [List.getD_eq_getElem?_getD, hx]; rfl
  have hn : bytes.take (if nack then 0 else min x.rlen (min 16 bytes.length)) = got
      ∧ (if nack then 0 else min x.rlen (min 16 bytes.length)) = got.length := by
    rw [hgot]
    cases nack
    · simp [List.take_take, List.take_eq_take_iff, ← Nat.min_assoc]
    · simp
  show Host.Outcome.next (if (s.sens.sp.getD p {}).go then modSp s p _ else s) = _
  rw [hg, if_pos hgo, modSp_eq hx]
  dsimp only
  rw [hn.1, hn.2]

theorem exec_cciTimeout {s : State} {p : Nat} {x : SpPort} (hx : s.sens.sp[p]? = some x) (hgo : x.go = true) :
    exec (.cciTimeout p) s = .next { s with sens := { s.sens with
      sp := setAt s.sens.sp p { x with go := false, done := true, timeout := true } } } := by
  have hg : s.sens.sp.getD p {} = x := by rw [List.getD_eq_getElem?_getD, hx]; rfl
  show Host.Outcome.next (if (s.sens.sp.getD p {}).go then modSp s p _ else s) = _
  rw [hg, if_pos hgo, modSp_eq hx]

/-- Settles O15: each row by the access that it is; GO by the mailbox and the link (`writeCci_go`). -/
theorem otherRegisterRows : Obligations.OtherRegisterRows := by
  refine ⟨⟨fun s m hu hm ho _ => exec_ptpTxNsRead hu hm ho, fun s w hu ho => exec_nodeIdWrite hu ho w,
    fun s w hu => exec_dramApertureHiWrite hu w, fun s p w x hu hp ho hx => ?_⟩,
    fun s p x nack bytes got hx hgo hgot => exec_cciDone hx hgo nack bytes hgot, fun s p x hx hgo => exec_cciTimeout hx hgo⟩
  refine ⟨_, exec_cciGo hu hp ho w, fun hg => ?_, fun hg hl => ?_, fun hg hl => ?_⟩ <;> rw [writeCci_go hx]
  · rw [if_pos hg]
  · rw [if_neg (by simp [hg]), if_neg (by simp [hl])]
  · rw [if_neg (by simp [hg]), if_pos hl]

/-! ### Reset values, and the edge with no command waiting -/

/-- Settles O6: a closed fact about the reset state, field by field. -/
theorem resetValues : Obligations.ResetValues := by
  unfold Obligations.ResetValues
  decide

/-- A device at work whose fraction holds two seconds and more: no rule of the model bounds the field. -/
def overfullFraction : State := { boot := .firmware, tb := { frac := 2 ^ 32 * 2000000000 } }

/-- The edge carries one second only. -/
theorem ns_idleTick_overfullFraction : (idleTick overfullFraction).tb.ns = 1000000008 := by
  have hc : clocked overfullFraction = true := by decide
  have hs : (tbEdge overfullFraction.tb).sec = 1 ∧ (tbEdge overfullFraction.tb).ns = 1000000008 := by decide
  have h0 : overfullFraction.tb.sec = 0 := rfl
  simp [idleTick, hc, hs, h0]

/-- Refutes O7: `overfullFraction` meets every hypothesis, and after the edge its nanoseconds exceed a second, since the carry
out of the fraction is not bounded where the fraction is not below 2^32. -/
theorem not_idleStepCountsTheTimeBase : ¬ Obligations.IdleStepCountsTheTimeBase := by
  intro h
  obtain ⟨t, hstep, -, hns, -⟩ := h overfullFraction rfl rfl (by decide) (by decide)
  have ht : t = idleTick overfullFraction := by
    have hs : step overfullFraction = .next (idleTick overfullFraction) := rfl
    rw [hs] at hstep
    exact (Host.Outcome.next.inj hstep).symm
  rw [ht, ns_idleTick_overfullFraction] at hns
  exact absurd hns (by decide)

end Sys2Proof.Proofs
end

section
/-! PROOFS. The servo of the time base (R315 to R318): what a sample changes, by whether it steps the time base or steers the
addend, and the lock. -/

namespace Sys2Proof.Proofs

open Sys2Proof Sys2Proof.Machine Sys2Proof.Laws

/-! ### What a sample leaves alone -/

/-- A state apart from the lock and the fault store. -/
def offLock (s : State) : State :=
  { s with fc := {}, cmd := {}, tb := { s.tb with good := 0, bad := 0, locked := false, lockLost := false } }

/-- A state apart from what a sample writes beside them. -/
def offSample (s : State) : State :=
  { s with tb := { s.tb with sec := 0, ns := 0, addend := 0, clamped := false, integral := 0, lastE := 0, samples := 0 } }

section
variable (s : State)

theorem offLock_setSrc (n : Nat) : offLock (setSrc s n) = offLock s := by
  unfold setSrc
  split <;> rfl

theorem offLock_servoLock (e : Int) : offLock (servoLock s e) = offLock s :=
  ite_keeps offLock (ite_keeps offLock rfl rfl) (ite_keeps offLock (offLock_setSrc _ _) rfl)

/-- The state in which a saturated sample has been kept, counted and judged by the lock (R316, R318). -/
def sampled (e : Int) : State := servoLock { s with tb := { s.tb with lastE := e, samples := (s.tb.samples + 1) % 2 ^ 32 } } e

theorem offLock_sampled (e : Int) : offLock (sampled s e)
    = offLock { s with tb := { s.tb with lastE := e, samples := (s.tb.samples + 1) % 2 ^ 32 } } := offLock_servoLock _ e

/-- What a sample leaves of the lock and the fault store. -/
def lockView (s : State) := (s.tb.good, s.tb.bad, s.tb.locked, s.tb.lockLost, s.tb.lastE, s.tb.samples, s.fc)

theorem lockView_takeSample (e0 : Int) : lockView (takeSample s e0) = lockView (sampled s (satSample e0)) :=
  ite_keeps lockView rfl rfl

theorem offServo_takeSample (e0 : Int) : offSample (offLock (takeSample s e0)) = offSample (offLock s) := by
  have hu : offSample (offLock (sampled s (satSample e0))) = offSample (offLock s) :=
    (congrArg offSample (offLock_sampled s (satSample e0))).trans rfl
  exact ite_keeps (fun u => offSample (offLock u)) hu hu

end

/-! ### Stepping and steering -/

/-- A sample that steps the time base: outside a run, and large (R317). -/
def steps (s : State) (e : Int) : Prop := (s.sch.run = .idle ∨ s.sch.run = .halted) ∧ s.tb.stepThr * 1000 ≤ e.natAbs

theorem now_setNow (s : State) {t : Nat} (h : t < timeSpan) : now (setNow s t) = t := by
  unfold timeSpan at h
  show t / 1000000000 % 2 ^ 48 * 1000000000 + t % 1000000000 = t
  omega

section
variable {s : State} {e0 e : Int} (he : satSample e0 = e)
include he

/-- What a sample writes of the time base, beside the lock (R317). -/
theorem takeSample_eq : takeSample s e0 =
    if (s.sch.run == .idle || s.sch.run == .halted) && s.tb.stepThr * 1000 ≤ e.natAbs then
      let u := setNow (sampled s e) (((now s : Int) + e) % ((2 ^ 48 * 1000000000 : Nat) : Int)).toNat
      { u with tb := { u.tb with integral := 0 } }
    else
      let i := clampL (s.tb.integral + rneDiv (s.tb.ki * e) 65536)
      setAddend { sampled s e with tb := { (sampled s e).tb with integral := i } }
        (nominalAddend + (rneDiv (s.tb.kp * e) 65536 + i)) := by
  have h {β : Type} (g : State → β) : g (offLock (sampled s e)) = _ := congrArg g (offLock_sampled s e)
  have hrun : (sampled s e).sch = s.sch := h State.sch
  have hthr : (sampled s e).tb.stepThr = s.tb.stepThr := h (fun u => u.tb.stepThr)
  have hint : (sampled s e).tb.integral = s.tb.integral := h (fun u => u.tb.integral)
  have hkp : (sampled s e).tb.kp = s.tb.kp := h (fun u => u.tb.kp)
  have hki : (sampled s e).tb.ki = s.tb.ki := h (fun u => u.tb.ki)
  have hnow : now (sampled s e) = now s := h now
  subst he
  rw [← hrun, ← hthr, ← hint, ← hkp, ← hki, ← hnow]
  rfl

theorem takeSample_steps (hst : steps s e) (h0 : 0 ≤ (now s : Int) + e) (h1 : (now s : Int) + e < 2 ^ 48 * 1000000000) :
    (now (takeSample s e0) : Int) = now s + e ∧ (takeSample s e0).tb.integral = 0
      ∧ (takeSample s e0).tb.addend = s.tb.addend ∧ (takeSample s e0).tb.frac = s.tb.frac := by
  have h {β : Type} (g : State → β) : g (offLock (sampled s e)) = _ := congrArg g (offLock_sampled s e)
  have hmod : ((now s : Int) + e) % ((2 ^ 48 * 1000000000 : Nat) : Int) = now s + e := Int.emod_eq_of_lt h0 (by exact_mod_cast h1)
  have hcond : ((s.sch.run == .idle || s.sch.run == .halted) && decide (s.tb.stepThr * 1000 ≤ e.natAbs)) = true := by
    obtain ⟨hr, hl⟩ := hst
    rcases hr with hr | hr <;> simp [hr, hl]
  rw [takeSample_eq he, if_pos hcond, hmod]
  refine ⟨?_, rfl, h (fun u => u.tb.addend), h (fun u => u.tb.frac)⟩
  show (now (setNow (sampled s e) ((now s : Int) + e).toNat) : Int) = _
  rw [now_setNow _ (by unfold timeSpan; omega), Int.toNat_of_nonneg h0]

theorem takeSample_steers (hst : ¬ steps s e) :
    (takeSample s e0).tb.sec = s.tb.sec ∧ (takeSample s e0).tb.ns = s.tb.ns
      ∧ (takeSample s e0).tb.integral = clampL (s.tb.integral + rneDiv (s.tb.ki * e) 65536)
      ∧ ((takeSample s e0).tb.addend : Int)
          = nominalAddend + clampL (rneDiv (s.tb.kp * e) 65536 + (takeSample s e0).tb.integral) := by
  have h {β : Type} (g : State → β) : g (offLock (sampled s e)) = _ := congrArg g (offLock_sampled s e)
  have hcond : ¬ ((s.sch.run == .idle || s.sch.run == .halted) && decide (s.tb.stepThr * 1000 ≤ e.natAbs)) = true := by
    simpa [steps] using hst
  rw [takeSample_eq he, if_neg hcond]
  refine ⟨h (fun u => u.tb.sec), h (fun u => u.tb.ns), rfl, ?_⟩
  show (((nominalAddend : Int) + clampL (_ - nominalAddend)).toNat : Int) = _
  rw [add_sub_cancel_left]
  refine Int.toNat_of_nonneg ?_
  unfold clampL nominalAddend addendL
  omega

/-- A sample is kept and counted (R316). -/
theorem takeSample_counts : (takeSample s e0).tb.lastE = e ∧ (takeSample s e0).tb.samples = (s.tb.samples + 1) % 2 ^ 32 := by
  have h := lockView_takeSample s e0
  rw [he] at h
  simp only [lockView, Prod.mk.injEq] at h
  obtain ⟨-, -, -, -, h1, h2, -⟩ := h
  have g {β : Type} (g : State → β) : g (offLock (sampled s e)) = _ := congrArg g (offLock_sampled s e)
  exact ⟨h1.trans (g (fun u => u.tb.lastE)), h2.trans (g (fun u => u.tb.samples))⟩

end

/-- A sample draws no reaction: it can set source 115 only, which is not fatal (R318, R412). -/
theorem harmless_takeSample (s : State) (e0 : Int) : Harmless s (takeSample s e0) := by
  have h := lockView_takeSample s e0
  simp only [lockView, Prod.mk.injEq] at h
  obtain ⟨-, -, -, -, -, -, hf⟩ := h
  refine Harmless.congr (t := sampled s (satSample e0)) ?_ (congrArg FaultColl.fsw hf)
  unfold sampled servoLock
  dsimp only
  split
  · split <;> exact .of_fsw rfl
  · split
    · exact Harmless.setSrc (.of_fsw rfl) (by decide) (by decide)
    · exact .of_fsw rfl

/-- A sample within the limits is not saturated (R316). -/
theorem satSample_of_lt {e : Int} (h : e.natAbs < 2 ^ 31) : satSample e = e := by
  unfold satSample
  omega

theorem exec_servoSample {s : State} (hsrc : s.tb.src ≠ .free) (hc : s.pins.clocksOff = false) (e0 : Int) :
    exec (.servoSample e0) s = .next (takeSample s e0) := by
  show Host.Outcome.next (if s.tb.src == .free || s.pins.clocksOff then s else settle s (takeSample s e0)) = _
  rw [if_neg (by simp [hsrc, hc]), (harmless_takeSample s e0).settle]

/-! ### The lock (R318) -/

section
variable {s : State} {e : Int}

theorem sampled_within (h : e.natAbs ≤ s.tb.lockThr) :
    (s.tb.good + 1 < 8 → (sampled s e).tb.good = s.tb.good + 1 ∧ (sampled s e).tb.bad = 0 ∧ (sampled s e).tb.locked = s.tb.locked)
    ∧ (8 ≤ s.tb.good + 1 → (sampled s e).tb.locked = true ∧ (sampled s e).tb.lockLost = false ∧ (sampled s e).tb.bad = 0) := by
  unfold sampled servoLock
  dsimp only
  rw [if_pos h]
  refine ⟨fun hg => ?_, fun hg => ?_⟩
  · rw [if_neg (by omega), Nat.min_eq_right (by omega)]
    exact ⟨rfl, rfl, rfl⟩
  · rw [if_pos (by omega)]
    exact ⟨rfl, rfl, rfl⟩

theorem sampled_beyond (h : s.tb.lockThr < e.natAbs) :
    (s.tb.bad + 1 < 3 → (sampled s e).tb.bad = s.tb.bad + 1 ∧ (sampled s e).tb.good = 0 ∧ (sampled s e).tb.locked = s.tb.locked)
    ∧ (3 ≤ s.tb.bad + 1 → s.tb.locked = true → (sampled s e).tb.locked = false ∧ (sampled s e).tb.lockLost = true
      ∧ (sampled s e).fc.fsw.getLsbD 115 = true) := by
  unfold sampled servoLock
  dsimp only
  rw [if_neg (Nat.not_le.2 h)]
  refine ⟨fun hb => ?_, fun hb hl => ?_⟩
  · have h3 : ¬ min 3 (s.tb.bad + 1) = 3 := by omega
    rw [if_neg (by simp [h3]), Nat.min_eq_right (by omega)]
    exact ⟨rfl, rfl, rfl⟩
  · have h3 : min 3 (s.tb.bad + 1) = 3 := by omega
    rw [if_pos (by simp [h3, hl])]
    exact ⟨by rw [setSrc_tb], by rw [setSrc_tb], setSrc_sets_bit _ (by decide) (by decide)⟩

/-- A sample sets no source but by the loss of the lock. -/
theorem sampled_fc (h : s.tb.locked = false ∨ e.natAbs ≤ s.tb.lockThr) : (sampled s e).fc = s.fc := by
  unfold sampled servoLock
  dsimp only
  split
  · exact ite_keeps State.fc rfl rfl
  · next hn =>
    rw [if_neg (by simp [h.resolve_right hn])]

/-- A missing sample clears LOCKED with its source (R318). -/
theorem exec_servoSampleTimeout (h1 : s.tb.src ≠ .free) (h2 : s.tb.src ≠ .host) (h3 : s.tb.sampleTimeout ≠ 0)
    (h4 : s.tb.locked = true) (h5 : s.pins.clocksOff = false) : exec .servoSampleTimeout s =
      .next (setSrc { s with tb := { s.tb with locked := false, lockLost := true, good := 0, bad := 0 } } 115) :=
  congrArg Host.Outcome.next (if_neg (by simp [h1, h2, h3, h4, h5]))

end

/-- Settles O21: the samples by whether they step or steer (`takeSample_steps`, `takeSample_steers`) and by the lock's limit
(`sampled_within`, `sampled_beyond`); TIME_ADJ by its source, its sample setting none but by the loss of the lock. -/
theorem servoSamplesAndLock : Obligations.ServoSamplesAndLock := by
  refine ⟨fun s e0 e hsrc hc he => ?_, fun s e hsrc hc he => ?_, fun k s s0 hs => ⟨fun hsrc => ?_, fun hsrc hl => ?_⟩,
    fun s hsrc ht hl hc => ?_⟩
  · have he' : satSample e0 = e := he.symm
    have h {β : Type} (g : State → β) : g (offSample (offLock (takeSample s e0))) = _ := congrArg g (offServo_takeSample s e0)
    refine ⟨_, exec_servoSample hsrc hc e0, (takeSample_counts he').1, (takeSample_counts he').2, fun hr hl h0 h1 _ => ?_,
      fun hr => ?_, h State.mem, h State.sch, h State.sets, h State.jobs, h (fun u => u.tb.capFifo)⟩
    · exact takeSample_steps he' ⟨hr, hl⟩ h0 h1
    · refine takeSample_steers he' fun hst => ?_
      obtain ⟨hrun, hlarge⟩ := hst
      rcases hr with hr | hr | hr
      · simp [hr] at hrun
      · simp [hr] at hrun
      · omega
  · have hv := lockView_takeSample s e
    rw [satSample_of_lt he] at hv
    simp only [lockView, Prod.mk.injEq] at hv
    obtain ⟨hgood, hbad, hlocked, hlost, -, -, hfc⟩ := hv
    refine ⟨_, exec_servoSample hsrc hc e, ?_⟩
    rw [hgood, hbad, hlocked, hlost, hfc]
    exact ⟨fun h => (sampled_within h).1, fun h => (sampled_within h).2, fun h => (sampled_beyond h).1,
      fun h => (sampled_beyond h).2⟩
  · exact congrArg _ (command_refuses hs (if_pos (by simpa using hsrc)))
  · have hv := lockView_takeSample s0 (sword (wd k.params 0))
    simp only [lockView, Prod.mk.injEq] at hv
    obtain ⟨-, -, -, -, -, -, hfc⟩ := hv
    exact congrArg _ (command_starts hs (if_neg (by simp [hsrc])) (congrArg FaultColl.fsw (hfc.trans (sampled_fc hl))))
  · have h1 : s.tb.src ≠ .free := by rcases hsrc with h | h | h <;> rw [h] <;> decide
    have h2 : s.tb.src ≠ .host := by rcases hsrc with h | h | h <;> rw [h] <;> decide
    refine ⟨_, exec_servoSampleTimeout h1 h2 ht hl hc, ?_, setSrc_sets_bit _ (by decide) (by decide), ?_, ?_⟩
    · rw [setSrc_tb]
    · rw [setSrc_saf]
    · rw [setSrc_sch]

end Sys2Proof.Proofs
end

section
/-! PROOFS. Edges and pulses of the time inputs (R282, R287, R326, R327): which edges are taken, and where a pulse of PPS_OUT and a
frame sync end. -/

namespace Sys2Proof.Proofs

open Sys2Proof Sys2Proof.Machine Sys2Proof.Laws

/-! ### PPS_IN and the capture inputs -/

/-- The distance of an edge's stamp to the nearest second (R327). -/
def ppsError (s : State) : Int :=
  if (now s - 16) % 1000000000 < 500000000 then -(((now s - 16) % 1000000000 : Nat) : Int)
  else 1000000000 - (((now s - 16) % 1000000000 : Nat) : Int)

/-- The state once an edge on PPS_IN is taken. -/
def ppsTaken (s : State) : State := { s with tb := { s.tb with lastPps := some s.clk } }

section
variable {s : State} {rising : Bool}

theorem exec_ppsInEdge_polarity (h : rising = s.tb.ppsInPol) : exec (.ppsInEdge rising) s = .next s :=
  congrArg Host.Outcome.next (if_pos (by simp [h]))

theorem exec_ppsInEdge_near {l : Nat} (hl : s.tb.lastPps = some l) (h : s.clk < l + 125000000) :
    exec (.ppsInEdge rising) s = .next s := by
  refine congrArg Host.Outcome.next (if_pos ?_)
  simp [hl, h]

theorem exec_ppsInEdge (hc : clocked s = true) (hp : rising ≠ s.tb.ppsInPol)
    (hl : ∀ l, s.tb.lastPps = some l → l + 125000000 ≤ s.clk) : exec (.ppsInEdge rising) s =
      .next (if s.tb.src = .pps then takeSample (ppsTaken s) (ppsError s) else ppsTaken s) := by
  have he : (if (((edgeStamp s) % 1000000000 : Nat) : Int) < 500000000 then -(((edgeStamp s) % 1000000000 : Nat) : Int)
      else 1000000000 - (((edgeStamp s) % 1000000000 : Nat) : Int)) = ppsError s := by
    unfold ppsError edgeStamp
    by_cases h : (now s - 16) % 1000000000 < 500000000
    · rw [if_pos h, if_pos (by exact_mod_cast h)]
    · rw [if_neg h, if_neg (by exact_mod_cast h)]
  refine congrArg Host.Outcome.next ((if_neg ?_).trans ?_)
  · cases h : s.tb.lastPps with
    | none => simp [hc, hp]
    | some l => simpa [hc, hp] using hl l h
  · dsimp only
    rw [he]
    by_cases h : s.tb.src = .pps
    · rw [if_pos (by simp [h]), if_pos h]
      exact (harmless_takeSample (ppsTaken s) (ppsError s)).settle
    · rw [if_neg (by simp [h]), if_neg h]
      rfl

end

/-- A sample leaves the edge last taken. -/
theorem lastPps_takeSample (s : State) (e : Int) : (takeSample s e).tb.lastPps = s.tb.lastPps :=
  congrArg (fun u => u.tb.lastPps) (offServo_takeSample s e)

/-- The error of an edge is at most half a second. -/
theorem natAbs_ppsError (s : State) : (ppsError s).natAbs < 2 ^ 31 := by
  unfold ppsError
  split <;> omega

section
variable {s : State} {ch : Nat} (hc : clocked s = true) (he : s.tb.capEn.getLsbD ch = true)
include hc he

theorem exec_capEdge {f : List (Nat × Nat)} (hf : s.tb.capFifo[ch]? = some f) : exec (.capEdge ch) s = .next (
    if f.length < 16 then { s with tb := { s.tb with
      capFifo := setAt s.tb.capFifo ch (f ++ [((now s - 16) / 1000000000, (now s - 16) % 1000000000)]) } }
    else { s with tb := { s.tb with capOvf := s.tb.capOvf ||| BitVec.ofNat 8 (2 ^ ch) } }) := by
  have hg : s.tb.capFifo.getD ch [] = f := by rw [List.getD_eq_getElem?_getD, hf]; rfl
  refine congrArg Host.Outcome.next ((if_neg (by simp [hc, he])).trans ?_)
  rw [hg]
  rfl

end

/-! ### PPS_OUT -/

section
variable {s : State}

theorem ppsRise_off (h : s.tb.ppsOutEn = false) (b : Bool) : ppsRise s b = s := by simp [ppsRise, h]

/-- Whether PPS_OUT is enabled, and since when its pulse lasts. -/
def ppsOutView (s : State) := (s.tb.ppsOutEn, s.tb.ppsRose)

theorem ppsOutView_fire (h : s.tb.ppsOutEn = false) (ch : Nat) : ppsOutView (fire s ch) = ppsOutView s := by
  unfold fire
  exact ite_keeps ppsOutView ((congrArg ppsOutView (ppsRise_off (by exact h) true)).trans rfl) rfl

theorem ppsOutView_carryEffects (h : s.tb.ppsOutEn = false) : ppsOutView (carryEffects s) = ppsOutView s := by
  unfold carryEffects
  dsimp only
  generalize (List.range 32).filter _ = l
  induction l generalizing s with
  | nil => rw [List.foldl_nil, ppsRise_off h]
  | cons c l ih =>
    have hv := ppsOutView_fire h c
    rw [List.foldl_cons, ih ((congrArg Prod.fst hv).trans h), hv]

theorem advanceTo_ppsRose (s : State) (t : Nat) : (advanceTo s t).tb.ppsRose = s.tb.ppsRose :=
  ite_keeps (fun s => s.tb.ppsRose) rfl rfl

theorem ppsOutView_advanceTo (s : State) (t : Nat) : ppsOutView (advanceTo s t) = ppsOutView s := by
  simp only [ppsOutView, advanceTo_ppsOutEn, advanceTo_ppsRose]

/-- No pulse begins on the way to an instant before the second ends, nor while PPS_OUT is not enabled. -/
theorem passTo_ppsRose {t : Nat} (h : t < (s.tb.sec + 1) * 1000000000 ∨ s.tb.ppsOutEn = false) :
    (passTo s t).tb.ppsRose = s.tb.ppsRose := by
  have hp : ppsOutView (passSecs (t / 1000000000 - s.tb.sec) s) = ppsOutView s := by
    rcases h with h | h
    · rw [show t / 1000000000 - s.tb.sec = 0 by omega, passSecs_zero]
    · generalize t / 1000000000 - s.tb.sec = n
      induction n with
      | zero => rw [passSecs_zero]
      | succ n ih =>
        have hen : (passSecs n s).tb.ppsOutEn = false := (congrArg Prod.fst ih).trans h
        rw [passSecs_succ, ppsOutView_carryEffects ((advanceTo_ppsOutEn _ _).trans hen), ppsOutView_advanceTo, ih]
  rw [passTo, advanceTo_ppsRose]
  exact congrArg Prod.snd hp

/-- Carries before the time base turns over leave it at a whole second each. -/
theorem passSecs_sec (hns : s.tb.ns < 1000000000) : ∀ n, s.tb.sec + n < 2 ^ 48 →
    (passSecs n s).tb.sec = s.tb.sec + n ∧ (passSecs n s).tb.ns < 1000000000 := by
  intro n
  induction n with
  | zero => exact fun _ => ⟨rfl, hns⟩
  | succ n ih =>
    intro hn
    obtain ⟨h1, h2⟩ := ih (by omega)
    have hlt : now (passSecs n s) < ((passSecs n s).tb.sec + 1) * 1000000000 := by
      rw [now, Nat.add_one_mul]
      omega
    obtain ⟨h3, h4⟩ := advanceTo_nextSec hlt
    rw [passSecs_succ, carryEffects_sec, carryEffects_ns, h3, h4, h1, Nat.mod_eq_of_lt (by omega)]
    exact ⟨rfl, by decide⟩

/-- PPS_OUT's choice of event, which carries leave. -/
theorem passSecs_ppsSel (n : Nat) (s : State) :
    ((passSecs n s).tb.ppsOutEn, (passSecs n s).tb.ppsOutSrc) = (s.tb.ppsOutEn, s.tb.ppsOutSrc) := by
  refine Laws.passSecs_keeps (fun s => (s.tb.ppsOutEn, s.tb.ppsOutSrc)) (fun s t => ?_) n s
  have hf := foldl_keeps (fun s => (s.tb.ppsOutEn, s.tb.ppsOutSrc)) fire fire_ppsSel
    ((List.range 32).filter (fun c => trigValid (advanceTo s t) c && trigMode (advanceTo s t) c == 2)) (advanceTo s t)
  refine (ppsRise_ppsSel _ _).trans (hf.trans ?_)
  rw [advanceTo_ppsOutEn, advanceTo_ppsOutSrc]

/-- A carry that PPS_OUT is to mark starts its pulse then (R327). -/
theorem carryEffects_ppsRose (he : s.tb.ppsOutEn = true) (hb : s.tb.ppsOutSrc = false) :
    (carryEffects s).tb.ppsRose = some (now s) := by
  unfold carryEffects
  dsimp only
  generalize (List.range 32).filter _ = l
  have hsel := foldl_keeps (fun s => (s.tb.ppsOutEn, s.tb.ppsOutSrc)) fire fire_ppsSel l s
  have hnow := foldl_keeps now fire (fun s c => by simp [now]) l s
  simp only [Prod.mk.injEq] at hsel
  simp [ppsRise, hsel, he, hb, hnow]

/-- On the way to an instant beyond this second the last second completed starts a pulse. -/
theorem passTo_lastSec {e : Nat} (hns : s.tb.ns < 1000000000) (h1 : (s.tb.sec + 1) * 1000000000 ≤ e)
    (h2 : e < 2 ^ 48 * 1000000000) (he : s.tb.ppsOutEn = true) (hb : s.tb.ppsOutSrc = false) :
    (passTo s e).pins.ppsOut = true ∧ (passTo s e).tb.ppsRose = some (e / 1000000000 * 1000000000) := by
  obtain ⟨n, hn⟩ : ∃ n, e / 1000000000 - s.tb.sec = n + 1 := ⟨e / 1000000000 - s.tb.sec - 1, by omega⟩
  obtain ⟨hsec, hlt⟩ := passSecs_sec hns n (by omega)
  have hsel := passSecs_ppsSel n s
  simp only [he, hb, Prod.mk.injEq] at hsel
  rw [passTo, hn, passSecs_succ, advanceTo_ppsOut]
  generalize hu : advanceTo (passSecs n s) _ = u
  have hen : u.tb.ppsOutEn = true := by rw [← hu, advanceTo_ppsOutEn, hsel.1]
  have hsrc : u.tb.ppsOutSrc = false := by rw [← hu, advanceTo_ppsOutSrc, hsel.2]
  have hnow : now u = e / 1000000000 * 1000000000 := by
    have hnl : now (passSecs n s) < ((passSecs n s).tb.sec + 1) * 1000000000 := by rw [now, Nat.add_one_mul]; omega
    rw [← hu, (advanceTo_of_lt hnl).1, hsec, Nat.mod_eq_of_lt (by unfold timeSpan; omega)]
    congr 1
    omega
  refine ⟨carryEffects_ppsOut hen hsrc, ?_⟩
  rw [advanceTo_ppsRose, carryEffects_ppsRose hen hsrc, hnow]

/-- A pulse that rose at `t0` ends, where nothing has started it again (R327). -/
def pulseEnded (t0 : Nat) (u : State) : State :=
  if u.tb.ppsRose = some t0 then { u with pins := { u.pins with ppsOut := false }, tb := { u.tb with ppsRose := none } } else u

theorem pulseEnded_view (t0 : Nat) (u : State) :
    (now (pulseEnded t0 u), (pulseEnded t0 u).sch, (pulseEnded t0 u).fc, (pulseEnded t0 u).mem, (pulseEnded t0 u).jobs)
    = (now u, u.sch, u.fc, u.mem, u.jobs) :=
  ite_keeps (fun v : State => (now v, v.sch, v.fc, v.mem, v.jobs)) rfl rfl

theorem exec_ppsOutEnd {t0 : Nat} (h : s.tb.ppsRose = some t0) :
    exec .ppsOutEnd s = .next (pulseEnded t0 (passTo s (t0 + s.tb.widthMs * 1000000))) := by
  have he : exec .ppsOutEnd s = execPpsOutEnd s := rfl
  simp only [he, execPpsOutEnd, h, ppsFall, beq_iff_eq, pulseEnded]

end

/-! ### Frame syncs -/

theorem length_fire_sp (s : State) (ch : Nat) : (fire s ch).sens.sp.length = s.sens.sp.length := by
  unfold fire
  dsimp only
  rw [ite_keeps (fun u : State => u.sens.sp.length) (x := s.sens.sp.length)]
  · rw [ppsRise_sens, List.length_map, List.length_zipIdx]
  · rw [List.length_map, List.length_zipIdx]

/-- No carry changes how many ports there are. -/
theorem length_passTo_sp (s : State) (t : Nat) : (passTo s t).sens.sp.length = s.sens.sp.length := by
  rw [passTo, advanceTo_sens]
  refine Laws.passSecs_keeps (fun s => s.sens.sp.length) (fun s t => ?_) _ s
  simp only [carryEffects, ppsRise_sens]
  exact (foldl_keeps (fun s => s.sens.sp.length) fire length_fire_sp _ _).trans (by rw [advanceTo_sens])

/-- The time base where a port's pulse ends, if one lasts (R282). -/
def fsyncDue (s : State) (n : Nat) : State :=
  match (s.sens.sp.getD n {}).fsAt with
  | some t => passTo s (t + 8 * bits (fsWord s n) 23 8)
  | none => s

/-- The release sent upstream, where a pulse ends whose edges are tunnelled (R287). -/
def fsyncRelease (s : State) (n : Nat) : List (Nat × Nat × Bool) :=
  if (s.sens.sp.getD n {}).fsAt.isSome && fsTunnel s n then [(n, fsGpio s n, !fsLevel s n)] else []

theorem exec_fsyncPulseEnd (s : State) (n : Nat) : exec (.fsyncPulseEnd n) s = .next { fsyncDue s n with
    sens := { (fsyncDue s n).sens with sp := modAt (fsyncDue s n).sens.sp n (fun x => { x with fsync := fsIdle s n, fsAt := none }) }
    out := { (fsyncDue s n).out with gpio := (fsyncDue s n).out.gpio ++ fsyncRelease s n } } := rfl

theorem fsyncDue_idle {s : State} {n : Nat} (h : (s.sens.sp.getD n {}).fsAt = none) : fsyncDue s n = s := by
  rw [fsyncDue, h]

/-- What the passing of time leaves alone, the end of a pulse does. -/
theorem fsyncDue_tells {β : Type} (g : State → β) (hg : ∀ s t, g (passTo s t) = g s) (s : State) (n : Nat) :
    g (fsyncDue s n) = g s := by
  unfold fsyncDue
  split
  · exact hg _ _
  · rfl

/-- Settles O22: edges by whether they are taken (`exec_ppsInEdge`, `exec_capEdge`), a pulse of PPS_OUT by the seconds completed on
the way (`passTo_ppsRose`, `passTo_lastSec`), a frame sync by `exec_fsyncPulseEnd`. -/
theorem edgesAndPulses : Obligations.EdgesAndPulses := by
  refine ⟨fun s rising h => exec_ppsInEdge_polarity h, fun s rising l hl h => exec_ppsInEdge_near hl h,
    fun s rising hc hp hl hsrc => ?_, fun s rising hc hp hl hsrc => ?_, fun s ch f hc he hf => ⟨fun h => ?_, fun h => ?_⟩,
    fun s h => ?_, fun s t0 e h he => ?_, fun s n hn => ?_⟩
  · rw [exec_ppsInEdge hc hp hl, if_neg hsrc]
    rfl
  · refine ⟨_, exec_ppsInEdge hc hp hl, ?_⟩
    rw [if_pos hsrc]
    refine ⟨lastPps_takeSample _ _, ?_⟩
    rw [(takeSample_counts (satSample_of_lt (natAbs_ppsError s))).1, ppsError]
  · rw [exec_capEdge hc he hf, if_pos h]
  · rw [exec_capEdge hc he hf, if_neg (by omega)]
  · have hx : exec .ppsOutEnd s = execPpsOutEnd s := rfl
    rw [hx, execPpsOutEnd, h]
  · subst he
    have hv := pulseEnded_view t0 (passTo s (t0 + s.tb.widthMs * 1000000))
    simp only [Prod.mk.injEq] at hv
    obtain ⟨hnow, hsch, hfc, hmem, hjobs⟩ := hv
    have hmod := now_passTo_mod s (t0 + s.tb.widthMs * 1000000)
    unfold timeSpan at hmod
    refine ⟨_, exec_ppsOutEnd h, by rw [hnow, hmod], fun hq => ?_, fun h1 h2 hns hlt hen hsrc => ?_, by rw [hsch, passTo_sch],
      by rw [hfc, passTo_fc], by rw [hmem, passTo_mem], by rw [hjobs, passTo_jobs]⟩
    · rw [pulseEnded, if_pos (by rw [passTo_ppsRose hq, h])]
      exact ⟨rfl, rfl⟩
    · obtain ⟨hout, hrose⟩ := passTo_lastSec hns h1 h2 hen hsrc
      rw [pulseEnded, if_neg (by rw [hrose, Option.some.injEq]; omega)]
      exact ⟨hout, hrose⟩
  · have hlen : n < (fsyncDue s n).sens.sp.length := by rwa [fsyncDue_tells (fun u => u.sens.sp.length) length_passTo_sp]
    have hport : (modAt (fsyncDue s n).sens.sp n (fun x => { x with fsync := fsIdle s n, fsAt := none })).getD n {}
        = { (fsyncDue s n).sens.sp[n] with fsync := fsIdle s n, fsAt := none } := by
      rw [List.getD_eq_getElem?_getD, getElem?_modAt, if_pos rfl, List.getElem?_eq_getElem hlen]
      rfl
    refine ⟨_, exec_fsyncPulseEnd s n, ?_, ?_, fun h => ⟨?_, ?_, fun p hp => ?_⟩, fun h ha hb => ?_,
      fsyncDue_tells State.sch passTo_sch s n, fsyncDue_tells State.fc passTo_fc s n, fsyncDue_tells State.mem passTo_mem s n,
      fsyncDue_tells State.jobs passTo_jobs s n⟩
    · rw [hport]; rfl
    · rw [hport]
    · have hr : fsyncRelease s n = [] := by rw [fsyncRelease, h]; rfl
      rw [hr, fsyncDue_idle h, List.append_nil]
    · rw [fsyncDue_idle h]
    · rw [fsyncDue_idle h, List.getD_eq_getElem?_getD, getElem?_modAt, if_neg hp, ← List.getD_eq_getElem?_getD]
    · have hr : fsyncRelease s n = [(n, fsGpio s n, !fsLevel s n)] := by
        simp only [fsyncRelease, fsTunnel, h, ha, hb, Bool.and_self, if_true]
      rw [hr, List.getLast?_concat, fsLevel, Bool.not_not]
      rfl

end Sys2Proof.Proofs
end

section
/-! PROOFS. The PTP exchange (R319 to R321, R349): what each message heard does in either role, and what the interval sends. -/

namespace Sys2Proof.Proofs

open Sys2Proof Sys2Proof.Machine Sys2Proof.Laws

/-! ### Messages heard -/

/-- The state once a message of this clock's domain and transport is heard. -/
def ptpHeard (s : State) (h : PtpHdr) (m : PtpMsg) : State :=
  let s1 := if ptpMaster s then s else onSync s h.seq (ingress s (ptpPort s)) m
  if ptp1588 s then onE2e s1 h.seq (ingress s (ptpPort s)) m else onP2p s1 h.seq (ingress s (ptpPort s)) m

/-- The state once a Sync's stamps are kept. -/
def syncKept (s : State) (t1 t2 : Int) : State := { s with ts := { s.ts with sync := some (t1, t2), pendSync := none } }

section
variable {s : State} {h : PtpHdr} {m : PtpMsg}

theorem exec_ptpMessageReceive_other (hd : h.domain ≠ fld s.ts.cfg 0 15 8 ∨ h.transport ≠ fld s.ts.cfg 0 6 5) :
    exec (.ptpMessageReceive m h) s = .next s := by
  refine congrArg Host.Outcome.next (if_pos ?_)
  rcases hd with hd | hd <;> simp [hd]

section
variable (hp : s.rst.pairB = false) (hc : clocked s = true) (hd : h.domain = fld s.ts.cfg 0 15 8)
  (ht : h.transport = fld s.ts.cfg 0 6 5)
include hp hc hd ht

theorem exec_ptpMessageReceive : exec (.ptpMessageReceive m h) s = .next (settle s (ptpHeard s h m)) :=
  congrArg Host.Outcome.next (if_neg (by simp [hp, hc, hd, ht]))

/-- A message that gives no sample leaves the fault sources as they are. -/
theorem exec_ptpMessageReceive_of {t : State} (he : ptpHeard s h m = t) (hf : t.fc.fsw = s.fc.fsw) :
    exec (.ptpMessageReceive m h) s = .next t := by
  rw [exec_ptpMessageReceive hp hc hd ht, he, settle_same hf]

end

theorem syncSample_unknown (hd : s.ts.pathDelay = none) (t1 t2 : Int) : syncSample s t1 t2 = syncKept s t1 t2 := by
  simp only [syncSample, hd, syncKept]

theorem syncSample_known {d : Int} (hd : s.ts.pathDelay = some d) (hs : s.tb.src = .ptp) (t1 t2 : Int) :
    syncSample s t1 t2 = takeSample (syncKept s t1 t2) (t1 - t2 + d) := by
  simp only [syncSample, hd, hs, beq_self_eq_true, if_true, syncKept]

theorem pendSync_takeSample (s : State) (e : Int) : (takeSample s e).ts.pendSync = s.ts.pendSync :=
  congrArg (fun u => u.ts.pendSync) (offServo_takeSample s e)

/-- A slave that has a Sync's stamps, the path delay and SRC PTP takes one sample (R316, R321). -/
theorem exec_ptpMessageReceive_sample {t1 t2 d : Int} (hp : s.rst.pairB = false) (hc : clocked s = true)
    (hdo : h.domain = fld s.ts.cfg 0 15 8) (ht : h.transport = fld s.ts.cfg 0 6 5) (hm : ptpHeard s h m = syncSample s t1 t2)
    (hd : s.ts.pathDelay = some d) (hs : s.tb.src = .ptp) (he : (t1 - t2 + d).natAbs < 2 ^ 31) :
    ∃ t, exec (.ptpMessageReceive m h) s = .next t ∧ t.tb.lastE = t1 - t2 + d ∧ t.tb.samples = (s.tb.samples + 1) % 2 ^ 32
      ∧ t.ts.pendSync = none := by
  obtain ⟨hl, hn⟩ := takeSample_counts (s := syncKept s t1 t2) (satSample_of_lt he)
  refine ⟨takeSample (syncKept s t1 t2) (t1 - t2 + d), ?_, hl, hn, pendSync_takeSample _ _⟩
  rw [exec_ptpMessageReceive hp hc hdo ht, hm, syncSample_known hd hs]
  exact congrArg Host.Outcome.next (harmless_takeSample (syncKept s t1 t2) _).settle

/-! What a slave does with each message. -/

section
variable (hm : ptpMaster s = false)
include hm

theorem ptpHeard_syncOneStep (t1 : Int) :
    ptpHeard s h (.syncOneStep t1) = syncSample s t1 (ingress s (ptpPort s)) := by
  simp only [ptpHeard, hm, onSync, onE2e, onP2p, Bool.false_eq_true, if_false, ite_self]

theorem ptpHeard_syncTwoStep :
    ptpHeard s h .syncTwoStep = { s with ts := { s.ts with pendSync := some (h.seq, ingress s (ptpPort s)) } } := by
  simp only [ptpHeard, hm, onSync, onE2e, onP2p, Bool.false_eq_true, if_false, ite_self]

theorem ptpHeard_followUp {n : Nat} {t2 : Int} (hs : s.ts.pendSync = some (n, t2)) (t1 : Int) :
    ptpHeard s h (.followUp t1) = if n = h.seq then syncSample s t1 t2 else s := by
  simp only [ptpHeard, hm, onSync, onE2e, onP2p, hs, Bool.false_eq_true, if_false, ite_self, beq_iff_eq]

theorem ptpHeard_delayResp {t1 t2 t3 : Int} {n : Nat} (h5 : ptp1588 s = true) (hs : s.ts.sync = some (t1, t2))
    (hr : s.ts.req = some (n, t3)) (t4 : Int) :
    ptpHeard s h (.delayResp t4) = if n = h.seq then setDelay s (((t2 - t1) + (t4 - t3)) / 2) else s := by
  simp only [ptpHeard, hm, onSync, onE2e, h5, hs, hr, Bool.false_eq_true, if_false, if_true, Bool.not_false, Bool.and_true,
    beq_iff_eq]

end

/-- A master answers a delay request (R319). -/
theorem ptpHeard_delayReq (hm : ptpMaster s = true) (h5 : ptp1588 s = true) :
    ptpHeard s h .delayReq = ptpPut s h.seq (.delayResp (ingress s (ptpPort s))) := by
  simp only [ptpHeard, hm, onE2e, h5, if_true]

/-! The peer-to-peer mechanism, the same in either role. -/

section
variable (h5 : ptp1588 s = false)
include h5

/-- The peer messages are none of the Sync's. -/
theorem ptpHeard_peer (hm : onSync s h.seq (ingress s (ptpPort s)) m = s) :
    ptpHeard s h m = onP2p s h.seq (ingress s (ptpPort s)) m := by
  simp only [ptpHeard, hm, h5, ite_self, Bool.false_eq_true, if_false]

theorem ptpHeard_pdelayReq : ptpHeard s h .pdelayReq =
    ptpPut (ptpEvent s h.seq (.pdelayResp (ingress s (ptpPort s)))) h.seq (.pdelayRespFollowUp (egress s)) := by
  rw [ptpHeard_peer h5 rfl, onP2p]

variable {t1 : Int} (hr : s.ts.req = some (h.seq, t1))
include hr

theorem ptpHeard_pdelayRespOneStep (took : Int) : ptpHeard s h (.pdelayRespOneStep took) =
    setDelay s (((ingress s (ptpPort s) - t1) - took) / 2) := by
  rw [ptpHeard_peer h5 rfl]
  simp only [onP2p, hr, beq_self_eq_true, if_true]

theorem ptpHeard_pdelayRespTwoStep (t2 : Int) : ptpHeard s h (.pdelayRespTwoStep t2) =
    { s with ts := { s.ts with pendResp := some (h.seq, t2, ingress s (ptpPort s)) } } := by
  rw [ptpHeard_peer h5 rfl]
  simp only [onP2p, hr, beq_self_eq_true, if_true]

theorem ptpHeard_pdelayRespFollowUp {t2 t4 : Int} (hq : s.ts.pendResp = some (h.seq, t2, t4)) (t3 : Int) :
    ptpHeard s h (.pdelayRespFollowUp t3) = setDelay s (((t4 - t1) - (t3 - t2)) / 2) := by
  rw [ptpHeard_peer h5 rfl]
  simp only [onP2p, hr, hq, beq_self_eq_true, Bool.and_self, if_true]

end

end

/-! ### The interval's messages -/

/-- The messages sent, without the header that the service gives each. -/
def ptpLog (s : State) : List (Nat × PtpSend) := s.out.ptpMsgs.map (fun x => (x.seq, x.msg))

theorem ptpLog_ptpPut (s : State) (n : Nat) (m : PtpSend) : ptpLog (ptpPut s n m) = ptpLog s ++ [(n, m)] := by
  simp only [ptpLog, ptpPut, List.map_append, List.map_cons, List.map_nil]

theorem ptpLog_ptpEvent (s : State) (n : Nat) (m : PtpSend) : ptpLog (ptpEvent s n m) = ptpLog s ++ [(n, m)] := by
  simp only [ptpLog, ptpEvent, ptpPut, List.map_append, List.map_cons, List.map_nil]

/-- The MACs with the egress stamp of a message sent now latched in the port's registers (R349). -/
def stampLatched (s : State) : List EthMac :=
  modAt s.sens.eth (ptpPort s) (fun x => { x with txNs := egress s % 1000000000, txSec := egress s / 1000000000 % 2 ^ 32 })

/-- A second message at the same instant latches the same stamp. -/
theorem stampLatched_again {s t : State} (ht : ptpPort t = ptpPort s) (he : egress t = egress s)
    (hx : t.sens.eth = stampLatched s) : stampLatched t = stampLatched s := by
  rw [stampLatched, hx, ht, he, stampLatched, modAt_modAt]

theorem getElem?_stampLatched {s : State} {x : EthMac} (hx : s.sens.eth[ptpPort s]? = some x) :
    (stampLatched s)[ptpPort s]? = some { x with txNs := egress s % 1000000000, txSec := egress s / 1000000000 % 2 ^ 32 } := by
  rw [stampLatched, getElem?_modAt, if_pos rfl, hx]
  rfl

theorem getElem?_stampLatched_ne {s : State} {n : Nat} (hn : n ≠ ptpPort s) : (stampLatched s)[n]? = s.sens.eth[n]? := by
  rw [stampLatched, getElem?_modAt, if_neg hn]

theorem sendSync_eth (s : State) : (sendSync s).sens.eth = stampLatched s := rfl

theorem sendReq_eth (s : State) : (sendReq s).sens.eth = stampLatched s := rfl

theorem sendSync_ptpPort (s : State) : ptpPort (sendSync s) = ptpPort s := by
  simp only [ptpPort, sendSync, ptpPut, ptpEvent]

theorem sendSync_egress (s : State) : egress (sendSync s) = egress s := by
  simp only [egress, egrLat, ptpPort, now, sendSync, ptpPut, ptpEvent]

theorem sendReq_req (s : State) : (sendReq s).ts.req = some (s.ts.nextReq, (egress s : Int)) := rfl

theorem sendReq_tb (s : State) : (sendReq s).tb = s.tb := rfl

theorem sendSync_tb (s : State) : (sendSync s).tb = s.tb := rfl

theorem sendReq_pathDelay (s : State) : (sendReq s).ts.pathDelay = s.ts.pathDelay := rfl

theorem sendSync_pathDelay (s : State) : (sendSync s).ts.pathDelay = s.ts.pathDelay := rfl

theorem sendReq_nextSync (s : State) : (sendReq s).ts.nextSync = s.ts.nextSync := rfl

theorem sendSync_nextSync (s : State) : (sendSync s).ts.nextSync = (s.ts.nextSync + 1) % 2 ^ 16 := rfl

theorem sendSync_nextReq (s : State) : (sendSync s).ts.nextReq = s.ts.nextReq := rfl

theorem sendReq_sendSync_req (s : State) : (sendReq (sendSync s)).ts.req = some (s.ts.nextReq, (egress s : Int)) := by
  rw [sendReq_req, sendSync_egress, sendSync_nextReq]

theorem sendReq_sendSync_eth (s : State) : (sendReq (sendSync s)).sens.eth = stampLatched s :=
  (sendReq_eth (sendSync s)).trans (stampLatched_again (sendSync_ptpPort s) (sendSync_egress s) (sendSync_eth s))

theorem ptpLog_sendSync (s : State) :
    ptpLog (sendSync s) = ptpLog s ++ [(s.ts.nextSync, .sync), (s.ts.nextSync, .followUp (egress s : Int))] :=
  (ptpLog_ptpPut _ _ _).trans (by rw [ptpLog_ptpEvent, List.append_assoc]; rfl)

theorem ptpLog_sendReq (s : State) :
    ptpLog (sendReq s) = ptpLog s ++ [(s.ts.nextReq, if ptp1588 s then .delayReq else .pdelayReq)] := ptpLog_ptpEvent _ _ _

section
variable {s : State} (hp : s.rst.pairB = false) (hc : clocked s = true)
include hp hc

theorem exec_ptpSyncInterval : exec .ptpSyncInterval s = .next (
    if ptpMaster s && ptp1588 s then (if ptpMaster s then sendSync s else s)
    else sendReq (if ptpMaster s then sendSync s else s)) :=
  congrArg Host.Outcome.next (if_neg (by simp [hp, hc]))

/-- A master of the end-to-end mechanism sends Sync alone, a master of the other also its request, a slave its request alone. -/
theorem exec_ptpSyncInterval_cases :
    ptpMaster s = true ∧ ptp1588 s = true ∧ exec .ptpSyncInterval s = .next (sendSync s)
    ∨ ptpMaster s = true ∧ ptp1588 s = false ∧ exec .ptpSyncInterval s = .next (sendReq (sendSync s))
    ∨ ptpMaster s = false ∧ exec .ptpSyncInterval s = .next (sendReq s) := by
  rw [exec_ptpSyncInterval hp hc]
  cases hm : ptpMaster s
  · exact .inr (.inr ⟨rfl, rfl⟩)
  · cases h5 : ptp1588 s
    · exact .inr (.inl ⟨rfl, rfl, rfl⟩)
    · exact .inl ⟨rfl, rfl, rfl⟩

end

/-- What the interval sends, latches and keeps, in each role (R319, R321, R349). -/
theorem ptpSyncInterval_sends {s : State} {x : EthMac} (hp : s.rst.pairB = false) (hc : clocked s = true)
    (hx : s.sens.eth[ptpPort s]? = some x) : ∃ t, exec .ptpSyncInterval s = .next t
      ∧ t.sens.eth[ptpPort s]? = some { x with txNs := egress s % 1000000000, txSec := egress s / 1000000000 % 2 ^ 32 }
      ∧ (∀ n, n ≠ ptpPort s → t.sens.eth[n]? = s.sens.eth[n]?)
      ∧ ptpLog t = ptpLog s
        ++ (if ptpMaster s then [(s.ts.nextSync, .sync), (s.ts.nextSync, .followUp (egress s : Int))] else [])
        ++ (if ptp1588 s then (if ptpMaster s then [] else [(s.ts.nextReq, .delayReq)]) else [(s.ts.nextReq, .pdelayReq)])
      ∧ (ptpMaster s = true → t.ts.nextSync = (s.ts.nextSync + 1) % 2 ^ 16)
      ∧ (ptpMaster s = true → ptp1588 s = true → t.ts.req = s.ts.req)
      ∧ ((ptpMaster s = false ∨ ptp1588 s = false) → t.ts.req = some (s.ts.nextReq, (egress s : Int)))
      ∧ t.ts.pathDelay = s.ts.pathDelay ∧ t.tb = s.tb := by
  have heth {t : State} (ht : t.sens.eth = stampLatched s) : t.sens.eth[ptpPort s]? = some { x with
        txNs := egress s % 1000000000, txSec := egress s / 1000000000 % 2 ^ 32 }
      ∧ ∀ n, n ≠ ptpPort s → t.sens.eth[n]? = s.sens.eth[n]? := by
    rw [ht]
    exact ⟨getElem?_stampLatched hx, fun n hn => getElem?_stampLatched_ne hn⟩
  rcases exec_ptpSyncInterval_cases hp hc with ⟨hm, h5, hex⟩ | ⟨hm, h5, hex⟩ | ⟨hm, hex⟩
  · obtain ⟨h1, h2⟩ := heth (sendSync_eth s)
    refine ⟨_, hex, h1, h2, ?_, fun _ => rfl, fun _ _ => rfl, fun h => ?_, rfl, rfl⟩
    · simp [ptpLog_sendSync, hm, h5]
    · simp [hm, h5] at h
  · obtain ⟨h1, h2⟩ := heth (sendReq_sendSync_eth s)
    refine ⟨_, hex, h1, h2, ?_, fun _ => ?_, fun _ h => ?_, fun _ => sendReq_sendSync_req s,
      (sendReq_pathDelay _).trans (sendSync_pathDelay s), (sendReq_tb _).trans (sendSync_tb s)⟩
    · have h5' : ptp1588 (sendSync s) = false := h5
      simp [ptpLog_sendReq, ptpLog_sendSync, hm, h5, h5', sendSync_nextReq]
    · rw [sendReq_nextSync, sendSync_nextSync]
    · rw [h5] at h; cases h
  · obtain ⟨h1, h2⟩ := heth (sendReq_eth s)
    refine ⟨_, hex, h1, h2, ?_, fun h => ?_, fun h _ => ?_, fun _ => sendReq_req s, rfl, rfl⟩
    · cases h5 : ptp1588 s <;> simp [ptpLog_sendReq, hm, h5]
    · rw [hm] at h; cases h
    · rw [hm] at h; cases h

/-- Settles O23: each message by its `ptpHeard` lemma, the interval by the message log and the stamp latched. -/
theorem ptpExchange : Obligations.PtpExchange := by
  refine ⟨fun s h m hd => exec_ptpMessageReceive_other hd, fun s h hp hc hd ht r hr => ?_, fun s x e hp hc hx he => ?_⟩
  · subst hr
    have hq {m : PtpMsg} {t : State} (hm : ptpHeard s h m = t) (hf : t.fc.fsw = s.fc.fsw) :
      exec (.ptpMessageReceive m h) s = .next t := exec_ptpMessageReceive_of hp hc hd ht hm hf
    refine ⟨fun hm => ⟨fun t1 hn => ?_, fun t1 d hk hs hlt => ?_, hq (ptpHeard_syncTwoStep hm) rfl,
      fun t1 t2 d hn hk hs hlt => ?_, fun t1 n t2 hn hne => ?_, fun t1 t2 t3 t4 n h5 hs hr => ⟨fun hn => ?_, fun hn => ?_⟩⟩,
      fun hm h5 => ?_, fun h5 => ⟨fun took t1 hr => ?_, fun t2 t1 hr => ?_, fun t1 t2 t3 t4 hr hpr => ?_, ?_⟩⟩
    · exact hq ((ptpHeard_syncOneStep hm t1).trans (syncSample_unknown hn _ _)) rfl
    · obtain ⟨t, hx, hl, hn, -⟩ := exec_ptpMessageReceive_sample hp hc hd ht (ptpHeard_syncOneStep hm t1) hk hs hlt
      exact ⟨t, hx, hl, hn⟩
    · exact exec_ptpMessageReceive_sample hp hc hd ht ((ptpHeard_followUp hm hn t1).trans (if_pos rfl)) hk hs hlt
    · exact hq ((ptpHeard_followUp hm hn t1).trans (if_neg hne)) rfl
    · exact hq ((ptpHeard_delayResp hm h5 hs hr t4).trans (if_pos hn)) rfl
    · exact hq ((ptpHeard_delayResp hm h5 hs hr t4).trans (if_neg hn)) rfl
    · refine hq ((ptpHeard_delayReq hm h5).trans ?_) rfl
      rw [ptpPut, ← hd, ← ht]
    · exact hq (ptpHeard_pdelayRespOneStep h5 hr took) rfl
    · exact hq (ptpHeard_pdelayRespTwoStep h5 hr t2) rfl
    · exact hq (ptpHeard_pdelayRespFollowUp h5 hr hpr t3) rfl
    · refine ⟨_, hq (ptpHeard_pdelayReq h5) rfl, rfl, rfl, ?_⟩
      exact (ptpLog_ptpPut _ _ _).trans (by rw [ptpLog_ptpEvent, List.append_assoc]; rfl)
  · subst he
    exact ptpSyncInterval_sends hp hc hx

end Sys2Proof.Proofs
end

section
/-! PROOFS. The links of Mapin: reading a link after it is put, and the receipt of a frame whose turn it is (R328 to R332). -/

namespace Sys2Proof.Proofs

open Sys2Proof Sys2Proof.Machine Sys2Proof.Laws

/-! ### The links -/

section
variable (s : State)

@[simp] theorem linkOf_node (n : BitVec 16) : (linkOf s n).node = n := by
  unfold linkOf
  cases h : s.map.links.find? (fun l => l.node == n) with
  | none => rfl
  | some l => simpa using List.find?_some h

theorem linkOf_putLink_self {n : BitVec 16} {l : MLink} (h : l.node = n) : linkOf (putLink s l) n = l := h ▸ linkOf_putLink s l

/-- Putting a link leaves the others. -/
theorem linkOf_putLink_ne {n : BitVec 16} {l : MLink} (h : n ≠ l.node) : linkOf (putLink s l) n = linkOf s n := by
  have hn : (l.node == n) = false := beq_eq_false_iff_ne.2 h.symm
  have hf : (s.map.links.filter (fun x => x.node != l.node)).find? (fun x => x.node == n)
      = s.map.links.find? (fun x => x.node == n) := by
    rw [List.find?_filter]
    congr 1
    funext x
    by_cases hx : x.node = n <;> simp [hx, h]
  unfold linkOf
  rw [putLink_links, List.find?_cons, hn, hf]
  rfl

/-- A link put again. -/
theorem putLink_putLink {l l' : MLink} (h : l'.node = l.node) : putLink (putLink s l) l' = putLink s l' := by
  have hf : (l :: s.map.links.filter (fun x => x.node != l.node)).filter (fun x => x.node != l'.node)
      = s.map.links.filter (fun x => x.node != l'.node) := by
    rw [h, List.filter_cons_of_neg (by simp), List.filter_filter]
    simp
  unfold putLink
  dsimp only
  rw [hf]

end

/-! ### A frame whose turn it is -/

section
variable {s : State} {h : MHdr}

/-- The link once a frame's acknowledgements are taken, with no credit too many (R331). -/
def acked (s : State) (h : MHdr) : MLink := { linkOf s h.src with
  free := (linkOf s h.src).free + h.credits, lastNs := now s
  unacked := (linkOf s h.src).unacked.filter (fun f => !((h.ack - f.lseq).toNat < 2 ^ 31)) }

theorem acked_node : (acked s h).node = h.src := linkOf_node s h.src

theorem takeAcks_fit (hn : h.nak = false) (hc : (linkOf s h.src).free + h.credits ≤ allot s) :
    takeAcks s h = putLink s (acked s h) := by
  simp only [takeAcks, hn, Bool.false_eq_true, if_false, Nat.not_lt.2 hc, Nat.min_eq_left hc, acked]

theorem acceptMsg_afterAcks (x : MHeld) (hx : x.h = h) :
    acceptMsg (putLink s (acked s h)) x = onMsg (afterFrame s h x.m.len) x := by
  subst hx
  rw [acceptMsg, inOrder, linkOf_putLink_self s acked_node]
  exact congrArg (fun u => onMsg u x) (putLink_putLink s (by rfl))

theorem now_afterFrame (n : Nat) : now (afterFrame s h n) = now s := by rw [afterFrame, now, putLink_tb, ← now]

/-- A frame that a member's link takes is acted on, with its acknowledgements and its place in the sequence taken. -/
theorem receive_framed (hf : framed s h = true) (p : Nat) (m : MMsg) : receive s h p m =
    settleUnits s (onMsg (afterFrame s h m.len) { h := h, m := m, port := p, at_ := now s }) := by
  simp only [framed, Bool.and_eq_true, Bool.not_eq_true', beq_iff_eq, decide_eq_true_eq, List.isEmpty_iff] at hf
  obtain ⟨⟨⟨⟨⟨⟨hu, hp⟩, hs⟩, hl⟩, hh⟩, hn⟩, hc⟩ := hf
  simp only [receive, hu, hs, mayMsg, hp, Bool.true_or, hl, beq_self_eq_true, hh, Bool.not_true, Bool.false_eq_true, if_false,
    if_true, List.length_nil, drain, takeAcks_fit hn hc]
  exact congrArg (settleUnits s) (acceptMsg_afterAcks (s := s) ⟨h, m, p, now s⟩ rfl)

end

end Sys2Proof.Proofs
end

section
/-! PROOFS. Barriers of the group (R339 to R341): an ARRIVE, the leader's release, a member's, and a barrier that fails. -/

namespace Sys2Proof.Proofs

open Sys2Proof Sys2Proof.Machine Sys2Proof.Laws

/-! ### What ends a barrier -/

/-- A token whose result is set is not live. -/
theorem finishTok_dead (s : State) (t : Word) (st : Status) (pl : List Word) :
    ∀ x ∈ (finishTok s t st pl).cmd.tokens, x.token = t → x.live = false := by
  intro x hx ht
  have hx' : x ∈ s.cmd.tokens.map (fun x =>
      if x.token == t && x.live then { x with live := false, status := st, payload := pl } else x) :=
    mem_of_mem_trimToks hx
  obtain ⟨y, -, rfl⟩ := List.mem_map.1 hx'
  split
  · rfl
  · rename_i h
    rw [if_neg h] at ht
    simpa [ht] using h

/-- Setting a source tells the ports, and leaves the tokens. -/
theorem setSrc_cmd_tokens (s : State) (n : Nat) : (setSrc s n).cmd.tokens = s.cmd.tokens :=
  ite_keeps (fun u => u.cmd.tokens) rfl rfl

section
variable (s : State) (b : Barrier)

theorem failBarrier_tokens : ∀ x ∈ (failBarrier s b).cmd.tokens, x.token = b.token → x.live = false := by
  rw [failBarrier, setSrc_cmd_tokens]
  exact finishTok_dead s b.token .timeout []

theorem failBarrier_barriers : (failBarrier s b).map.barriers = s.map.barriers.filter (fun x => x.token != b.token) := by
  rw [failBarrier, setSrc_map]
  rfl

theorem failBarrier_barFails : (failBarrier s b).map.barFails = satAdd 0xFF s.map.barFails 1 := by
  rw [failBarrier, setSrc_map]
  rfl

theorem failBarrier_source : (failBarrier s b).fc.fsw.getLsbD 114 = true := setSrc_sets_bit _ (by decide) (by decide)

theorem failBarrier_sch : (failBarrier s b).sch = s.sch := by rw [failBarrier, setSrc_sch, finishTok_sch]

theorem failBarrier_mem : (failBarrier s b).mem = s.mem := by rw [failBarrier, setSrc_mem, finishTok_mem]

theorem failBarrier_jobs : (failBarrier s b).jobs = s.jobs := by rw [failBarrier, setSrc_jobs, finishTok_jobs]

/-- No barrier of a token is left where they are taken out. -/
theorem token_ne_of_mem_filter {l : List Barrier} : ∀ x ∈ l.filter (fun x => x.token != b.token), x.token ≠ b.token := by
  intro x hx
  simpa using (List.mem_filter.1 hx).2

end

/-! ### A release accepted -/

section
variable (s : State) (b : Barrier) (q : Word) (t : Nat)

/-- A barrier released here, before the run is armed (R339, R340). -/
def releasedHere : State :=
  finishTok { s with map := { s.map with
    barriers := s.map.barriers.filter (fun x => x.token != b.token), links := s.map.links.map (fun l => { l with fresh := false })
    cut := false } } b.token .ok (releaseWords q t)

theorem acceptRelease_idle (h : s.sch.run = .idle) : acceptRelease s b q t = armRun (releasedHere s b q t) t q :=
  if_pos (by simp [h])

theorem acceptRelease_ne (h : s.sch.run ≠ .idle) : acceptRelease s b q t = releasedHere s b q t := if_neg (by simpa using h)

/-- What arming a run leaves, a release accepted leaves as it was once released. -/
theorem acceptRelease_tells {β : Type} (g : State → β) (hg : ∀ s t q, g (armRun s t q) = g s) :
    g (acceptRelease s b q t) = g (releasedHere s b q t) := ite_keeps g (hg _ _ _) rfl

theorem acceptRelease_map : (acceptRelease s b q t).map = (releasedHere s b q t).map :=
  acceptRelease_tells s b q t State.map fun _ _ _ => rfl

theorem acceptRelease_cmd : (acceptRelease s b q t).cmd = (releasedHere s b q t).cmd :=
  acceptRelease_tells s b q t State.cmd fun _ _ _ => rfl

theorem acceptRelease_barriers : ∀ x ∈ (acceptRelease s b q t).map.barriers, x.token ≠ b.token := by
  rw [acceptRelease_map]
  exact token_ne_of_mem_filter b

theorem acceptRelease_tokens : ∀ x ∈ (acceptRelease s b q t).cmd.tokens, x.token = b.token → x.live = false := by
  rw [acceptRelease_cmd]
  exact finishTok_dead _ b.token .ok _

theorem acceptRelease_waitQ : (acceptRelease s b q t).map.waitQ = s.map.waitQ := by rw [acceptRelease_map]; rfl

theorem acceptRelease_mem : (acceptRelease s b q t).mem = s.mem := acceptRelease_tells s b q t State.mem fun _ _ _ => rfl

theorem acceptRelease_jobs : (acceptRelease s b q t).jobs = s.jobs := acceptRelease_tells s b q t State.jobs fun _ _ _ => rfl

theorem acceptRelease_fc : (acceptRelease s b q t).fc = s.fc := acceptRelease_tells s b q t State.fc fun _ _ _ => rfl

/-- Outside a run the member is armed with the release time and its frame (R339). -/
theorem acceptRelease_arms (h : s.sch.run = .idle) : (acceptRelease s b q t).sch.run = .armed
    ∧ (acceptRelease s b q t).sch.startAt = t ∧ (acceptRelease s b q t).sch.firstSeq = q
    ∧ (acceptRelease s b q t).saf.trust = .awaiting := by
  rw [acceptRelease_idle s b q t h]
  exact ⟨rfl, rfl, rfl, rfl⟩

theorem acceptRelease_sch_ne (h : s.sch.run ≠ .idle) : (acceptRelease s b q t).sch = s.sch := by
  rw [acceptRelease_ne s b q t h]
  rfl

end

/-! ### The leader's release -/

/-- A message of no request queued for each of some nodes. -/
def sentToAll (s : State) (l : List (BitVec 16)) (typ : MType) (arg : Word) (pl : List Byte) : State :=
  l.foldl (fun (s : State) (n : BitVec 16) => queueFrame s typ n 0 arg pl) s

theorem sentToAll_tells {β : Type} (g : State → β) (hg : ∀ s typ n r a pl, g (queueFrame s typ n r a pl) = g s) (s : State)
    (l : List (BitVec 16)) (typ : MType) (arg : Word) (pl : List Byte) : g (sentToAll s l typ arg pl) = g s :=
  foldl_keeps g (fun (s : State) n => queueFrame s typ n 0 arg pl) (fun _ _ => hg _ _ _ _ _ _) l s

theorem waitQ_sentToAll (s : State) (l : List (BitVec 16)) (typ : MType) (arg : Word) (pl : List Byte) :
    (sentToAll s l typ arg pl).map.waitQ = s.map.waitQ ++ l.map (fun n =>
      { typ := typ, dst := n, lseq := 0, reqId := 0, arg := arg, payload := pl }) := by
  induction l generalizing s with
  | nil => exact (List.append_nil _).symm
  | cons n l ih =>
    rw [sentToAll, List.foldl_cons]
    refine (ih _).trans ?_
    rw [List.map_cons, List.append_cons]
    rfl

section
variable {s : State} {b : Barrier}

/-- The greatest proposal, at least 1 ms ahead (R339). -/
def topProposal (s : State) (b : Barrier) : Nat := (b.arrived.map (fun x => x.2)).foldl max (now s + 1000000)

/-- The release time of a START_GROUP barrier: a whole microsecond (R339). -/
def groupStart (s : State) (b : Barrier) : Nat := (topProposal s b + 999) / 1000 * 1000

theorem le_groupStart : topProposal s b ≤ groupStart s b := by unfold groupStart; omega

/-- It is no earlier than 1 ms ahead, nor than any proposal. -/
theorem le_topProposal : now s + 1000000 ≤ topProposal s b ∧ ∀ x ∈ b.arrived, x.2 ≤ topProposal s b := by
  have h : ∀ (l : List Nat) (a : Nat), a ≤ l.foldl max a ∧ ∀ x ∈ l, x ≤ l.foldl max a := by
    intro l
    induction l with
    | nil => exact fun a => ⟨le_rfl, fun x hx => absurd hx List.not_mem_nil⟩
    | cons y l ih =>
      intro a
      obtain ⟨h1, h2⟩ := ih (max a y)
      refine ⟨(le_max_left a y).trans h1, fun x hx => ?_⟩
      rcases List.mem_cons.1 hx with rfl | hx
      · exact (le_max_right a x).trans h1
      · exact h2 x hx
  obtain ⟨h1, h2⟩ := h (b.arrived.map (fun x => x.2)) (now s + 1000000)
  exact ⟨h1, fun x hx => h2 _ (List.mem_map_of_mem hx)⟩

theorem releaseAt_group (hj : b.join = false) : releaseAt s b = (groupStart s b, b.seq) := if_neg (by simp [hj])

/-- The leader of a START_GROUP barrier, all its members having arrived, releases it (R339). -/
theorem tryRelease_group (hj : b.join = false) (hl : (groupOf s).headD 0 = s.map.nodeId)
    (ha : ∀ n ∈ groupOf s, ∃ x ∈ b.arrived, x.1 = n) : tryRelease s b = acceptRelease
      (sentToAll s (peers s) .release (BitVec.ofNat 32 b.id) (barrierPayload b.seq (groupStart s b))) b b.seq (groupStart s b) := by
  have hall : (groupOf s).all (fun n => b.arrived.any (fun x => x.1 == n)) = true := by
    simpa only [List.all_eq_true, List.any_eq_true, beq_iff_eq] using ha
  have hlead : leaderOf s b.join b.idle = s.map.nodeId := (if_pos (by simp [hj])).trans hl
  rw [tryRelease, if_pos (by rw [hlead, hall, beq_self_eq_true]; rfl), releaseAt_group hj]
  rfl

/-- A release of a START_GROUP barrier arms its leader at the time it sends to every other member. -/
theorem tryRelease_group_armed (hj : b.join = false) (hl : (groupOf s).headD 0 = s.map.nodeId)
    (ha : ∀ n ∈ groupOf s, ∃ x ∈ b.arrived, x.1 = n) (hr : s.sch.run = .idle) :
    (tryRelease s b).sch.run = .armed ∧ (tryRelease s b).sch.firstSeq = b.seq
    ∧ (tryRelease s b).sch.startAt = groupStart s b ∧ (tryRelease s b).saf.trust = .awaiting
    ∧ (∀ n ∈ peers s, ∃ f ∈ (tryRelease s b).map.waitQ, f.typ = .release ∧ f.dst = n
        ∧ f.payload = barrierPayload b.seq (groupStart s b))
    ∧ (∀ x ∈ (tryRelease s b).map.barriers, x.token ≠ b.token)
    ∧ (∀ x ∈ (tryRelease s b).cmd.tokens, x.token = b.token → x.live = false) := by
  rw [tryRelease_group hj hl ha]
  have hrun : (sentToAll s (peers s) .release (BitVec.ofNat 32 b.id) (barrierPayload b.seq (groupStart s b))).sch.run = .idle :=
    (sentToAll_tells (fun u => u.sch.run) (fun _ _ _ _ _ _ => rfl) _ _ _ _ _).trans hr
  obtain ⟨h1, h2, h3, h4⟩ := acceptRelease_arms _ b b.seq (groupStart s b) hrun
  refine ⟨h1, h3, h2, h4, fun n hn => ?_, acceptRelease_barriers _ _ _ _, acceptRelease_tokens _ _ _ _⟩
  rw [acceptRelease_waitQ, waitQ_sentToAll]
  exact ⟨_, List.mem_append_right _ (List.mem_map_of_mem hn), rfl, rfl, rfl⟩

end

/-! ### ARRIVE and RELEASE taken -/

section
variable {s : State} {h : MHdr}

/-- The barrier with a member's proposal, its last one (R339). -/
def withArrival (b : Barrier) (n : BitVec 16) (t : Nat) : Barrier :=
  { b with arrived := (n, t) :: b.arrived.filter (fun x => x.1 != n) }

/-- The state with that barrier in its place. -/
def arrivedHere (s : State) (b : Barrier) (n : BitVec 16) (t : Nat) : State :=
  { s with map := { s.map with barriers := s.map.barriers.map (fun x => if x.token == b.token then withArrival b n t else x) } }

theorem onArrive_early {t : Nat}
    (hb : s.map.barriers.find? (fun b => b.id == bits h.arg 15 0 && b.join == bit h.arg 16) = none) : onArrive s h t =
      { s with map := { s.map with early := s.map.early ++ [(bits h.arg 15 0, bit h.arg 16, h.src, h.gen, t)] } } := by
  simp only [onArrive, hb]

theorem onArrive_found {t : Nat} {b : Barrier}
    (hb : s.map.barriers.find? (fun b => b.id == bits h.arg 15 0 && b.join == bit h.arg 16) = some b) :
    onArrive s h t = tryRelease (arrivedHere s b h.src t) (withArrival b h.src t) := by
  simp only [onArrive, hb, arrivedHere, withArrival]

theorem onRelease_found {q : Word} {t : Nat} {b : Barrier} (hb : s.map.barriers.find? (fun b => b.id == bits h.arg 15 0) = some b) :
    onRelease s h q t = if t ≤ now s then failBarrier s b else acceptRelease s b q t := by
  simp only [onRelease, hb]

theorem mem_withArrival {b : Barrier} {n : BitVec 16} {t : Nat} {m : BitVec 16} (hm : m = n ∨ ∃ x ∈ b.arrived, x.1 = m) :
    ∃ x ∈ (withArrival b n t).arrived, x.1 = m := by
  by_cases he : m = n
  · exact ⟨(n, t), List.mem_cons_self, he.symm⟩
  · obtain ⟨x, hx, rfl⟩ := hm.resolve_left he
    exact ⟨x, List.mem_cons_of_mem _ (List.mem_filter.2 ⟨hx, by simpa using he⟩), rfl⟩

theorem exec_mapinArrive (hf : framed s h = true) (q : Word) (sec ns : Nat) : exec (.mapinArrive h q sec ns) s =
    .next (settleUnits s (onArrive (afterFrame s h 16) h (sec * 1000000000 + ns))) :=
  congrArg Host.Outcome.next (receive_framed hf _ _)

theorem exec_mapinRelease (hf : framed s h = true) (q : Word) (sec ns : Nat) : exec (.mapinRelease h q sec ns) s =
    .next (settleUnits s (onRelease (afterFrame s h 16) h q (sec * 1000000000 + ns))) :=
  congrArg Host.Outcome.next (receive_framed hf _ _)

end

theorem exec_barrierTimeout {s : State} {b : Barrier} {r : List Barrier} (hb : s.map.barriers = b :: r) (hp : s.rst.pairB = false) :
    exec .barrierTimeout s = .next (failBarrier (passTo s (b.startNs + 1000 * s.map.barTimeout)) b) := by
  have he : exec .barrierTimeout s = execBarrierTimeout s := rfl
  simp only [he, execBarrierTimeout, hb, hp, Bool.false_eq_true, if_false]

theorem exec_barrierTimeout_nil {s : State} (hb : s.map.barriers = []) : exec .barrierTimeout s = .next s := by
  have he : exec .barrierTimeout s = execBarrierTimeout s := rfl
  simp only [he, execBarrierTimeout, hb]

/-- Settles O55: the leader's release by `tryRelease_group_armed`, a member's by `acceptRelease` or `failBarrier`. -/
theorem mapinBarriers : Obligations.MapinBarriers := by
  refine ⟨fun s h q sec ns hf hb => ?_, fun s h q sec ns b hf hb hj hr hl ha => ?_, fun s h q sec ns b hf hb => ?_,
    fun s b r hb hp => ?_, fun s hb => exec_barrierTimeout_nil hb⟩
  · rw [exec_mapinArrive hf, onArrive_early (s := afterFrame s h 16) hb]
    rfl
  · rw [exec_mapinArrive hf, onArrive_found (s := afterFrame s h 16) hb]
    obtain ⟨h1, h2, h3, h4, h5, h6, h7⟩ := tryRelease_group_armed (s := arrivedHere (afterFrame s h 16) b h.src (sec * 1000000000 + ns))
      (b := withArrival b h.src (sec * 1000000000 + ns)) hj hl (fun n hn => mem_withArrival (ha n hn)) hr
    obtain ⟨hnow, htop⟩ := le_topProposal (s := arrivedHere (afterFrame s h 16) b h.src (sec * 1000000000 + ns))
      (b := withArrival b h.src (sec * 1000000000 + ns))
    refine ⟨_, rfl, h1, h2, ?_, fun x hx hne => ?_, ?_, ?_, h4, ?_, h6, h7⟩
    · rw [h3]; exact (htop _ List.mem_cons_self).trans le_groupStart
    · rw [h3]
      exact (htop x (List.mem_cons_of_mem _ (List.mem_filter.2 ⟨hx, by simpa using hne⟩))).trans le_groupStart
    · rw [h3]; exact hnow.trans le_groupStart
    · rw [h3]; exact Nat.mul_mod_left _ _
    · rw [h3]; exact h5
  · rw [exec_mapinRelease hf, onRelease_found (s := afterFrame s h 16) hb, now_afterFrame]
    by_cases ht : sec * 1000000000 + ns ≤ now s
    · rw [if_pos ht]
      refine ⟨_, rfl, ?_, failBarrier_tokens _ b, failBarrier_mem _ b, failBarrier_jobs _ b,
        fun _ => ⟨failBarrier_source _ b, failBarrier_sch _ b⟩, fun hlt => absurd ht (by omega)⟩
      rw [failBarrier_barriers]
      exact token_ne_of_mem_filter b
    · rw [if_neg ht]
      refine ⟨_, rfl, acceptRelease_barriers _ b _ _, acceptRelease_tokens _ b _ _, acceptRelease_mem _ b _ _,
        acceptRelease_jobs _ b _ _, fun hle => absurd hle ht, fun _ => ⟨acceptRelease_fc _ b _ _, fun hr => ?_, fun hr => ?_⟩⟩
      · obtain ⟨h1, h2, h3, -⟩ := acceptRelease_arms (afterFrame s h 16) b q (sec * 1000000000 + ns) hr
        exact ⟨h1, h2, h3⟩
      · exact acceptRelease_sch_ne (afterFrame s h 16) b q _ hr
  · refine ⟨_, exec_barrierTimeout hb hp, failBarrier_source _ b, ?_, ?_, failBarrier_tokens _ b, ?_, ?_⟩
    · rw [failBarrier_barFails, passTo_map]
    · rw [failBarrier_barriers]
      exact token_ne_of_mem_filter b
    · rw [failBarrier_sch, passTo_sch]
    · rw [failBarrier_mem, passTo_mem]

end Sys2Proof.Proofs
end

section
/-! PROOFS. RUN_CTL START_GROUP and JOIN (R339, R340, R388, R466, R544): which answer each gives, and how a member comes to its
barrier. -/

namespace Sys2Proof.Proofs

open Sys2Proof Sys2Proof.Machine Sys2Proof.Laws

/-! ### A member comes to a barrier -/

/-- The proposals that came before the member's own RUN_CTL, of generations that still stand (R339). -/
def earlyFor (s : State) (join : Bool) (id : Nat) : List (BitVec 16 × Nat) :=
  (s.map.early.filter (fun x => x.1 == id && x.2.1 == join && x.2.2.2.1 == genEntry s x.2.2.1)).map (fun x => (x.2.2.1, x.2.2.2.2))

/-- The barrier that a member's RUN_CTL opens; the one that leads it keeps its own arrival. -/
def openedBarrier (s : State) (join : Bool) (id : Nat) (seq : Word) (lead : Nat) (idle : List (BitVec 16)) : Barrier :=
  { id := id, token := BitVec.ofNat 32 s.sch.cmdSeq, join := join, seq := seq, lead := lead, startNs := now s, idle := idle
    arrived := if leaderOf s join idle = s.map.nodeId then (s.map.nodeId, now s + lead) :: earlyFor s join id else [] }

/-- The state with its token issued and the barrier in progress. -/
def barrierOpened (s : State) (p : Port) (b : Barrier) : State :=
  { (issueCmd s p).2 with map := { s.map with
      barriers := s.map.barriers ++ [b], early := s.map.early.filter (fun x => !(x.1 == b.id && x.2.1 == b.join)) } }

/-- The state once the member has come to it: its ARRIVE is queued where another node leads, and else the barrier is released
where all have arrived. -/
def barrierMet (s : State) (p : Port) (b : Barrier) : State :=
  let s1 := barrierOpened s p b
  let ld := leaderOf s b.join b.idle
  if ld = s.map.nodeId then tryRelease s1 b
  else queueFrame s1 .arrive ld 0 (BitVec.ofNat 32 (b.id + 65536 * b2n b.join)) (barrierPayload b.seq (now s + b.lead))

section
variable (s : State) (k : Pkt) (join : Bool) (id : Nat) (seq : Word) (lead : Nat) (idle : List (BitVec 16))

theorem openBarrier_eq : openBarrier s k join id seq lead idle = (barrierMet s k.port (openedBarrier s join id seq lead idle),
    some (.accepted, [BitVec.ofNat 32 s.sch.cmdSeq])) := by
  have hl : leaderOf (issueCmd s k.port).2 join idle = leaderOf s join idle := rfl
  have hn : now (issueCmd s k.port).2 = now s := rfl
  have hm : (issueCmd s k.port).2.map = s.map := rfl
  have hg (n : BitVec 16) : genEntry (issueCmd s k.port).2 n = genEntry s n := rfl
  simp only [openBarrier, hl, hn, hm, hg, beq_iff_eq]
  rfl

end

/-- A barrier that a member of the group has not come to is not released. -/
theorem tryRelease_waits {s : State} {b : Barrier} {n : BitVec 16} (hn : n ∈ groupOf s) (h : ∀ x ∈ b.arrived, x.1 ≠ n) :
    tryRelease s b = s := by
  refine if_neg ?_
  simp only [Bool.and_eq_true, List.all_eq_true, List.any_eq_true, beq_iff_eq, not_and, not_forall]
  exact fun _ => ⟨n, hn, fun ⟨x, hx, he⟩ => h x hx he⟩

section
variable {s : State} {p : Port} {b : Barrier}

/-- The leader of a barrier that others have still to come to keeps it in progress. -/
theorem barrierMet_leads (hl : leaderOf s b.join b.idle = s.map.nodeId) {n : BitVec 16} (hn : n ∈ groupOf s)
    (h : ∀ x ∈ b.arrived, x.1 ≠ n) : barrierMet s p b = barrierOpened s p b :=
  (if_pos hl).trans (tryRelease_waits (s := barrierOpened s p b) hn h)

/-- Another member sends ARRIVE to the leader (R339, R340). -/
theorem barrierMet_follows (hl : leaderOf s b.join b.idle ≠ s.map.nodeId) : barrierMet s p b =
    queueFrame (barrierOpened s p b) .arrive (leaderOf s b.join b.idle) 0 (BitVec.ofNat 32 (b.id + 65536 * b2n b.join))
      (barrierPayload b.seq (now s + b.lead)) := if_neg hl

theorem mem_barrierOpened : b ∈ (barrierOpened s p b).map.barriers := List.mem_append_right _ List.mem_cons_self

end

/-! ### The commands' answers -/

section
variable {s : State} {k : Pkt}

/-- A word without its upper half has no reserved bit of RUN_CTL's set. -/
theorem fld_high_of_lt {i : Nat} (h : (wd k.params i).toNat < 65536) : fld k.params i 31 16 = 0 :=
  (bits_top_eq_zero _ (by decide)).2 h

theorem fld_low_of_lt {i : Nat} (h : (wd k.params i).toNat < 65536) : fld k.params i 15 0 = (wd k.params i).toNat :=
  (bits_zero _ _).trans (Nat.mod_eq_of_lt h)

theorem mayArm_iff : mayArm s = true ↔ s.sch.run = .idle ∧ hasActive s = true ∧ s.saf.injFail = false ∧ anyFA s = false := by
  simp [mayArm, and_assoc]

section
variable (hw : (wd k.params 0).toNat < 65536) (hl : 1000000 ≤ (wd k.params 2).toNat)
include hw hl

theorem doStartGroup_eq : doStartGroup k s = if mayArm s = false then refuse s .wrongState []
    else if formed s = false then refuse s .notReady []
    else openBarrier s k false (wd k.params 0).toNat (wd k.params 1) (wd k.params 2).toNat := by
  simp only [doStartGroup, fld_high_of_lt hw, fld_low_of_lt hw, bne_self_eq_false, Bool.false_eq_true, if_false, Nat.not_lt.2 hl,
    Bool.not_eq_true']

end

section
variable (hw : (wd k.params 0).toNat < 65536) (hl : 1000000 ≤ (wd k.params 1).toNat) (idle : List (BitVec 16))
include hw hl

theorem doJoin_eq : doJoin k s idle = if s.sch.run ≠ .running ∧ mayArm s = false then refuse s .wrongState []
    else if formed s = false then refuse s .notReady []
    else openBarrier s k true (wd k.params 0).toNat s.sch.seq (wd k.params 1).toNat idle := by
  simp only [doJoin, fld_high_of_lt hw, fld_low_of_lt hw, bne_self_eq_false, Bool.false_eq_true, if_false, Nat.not_lt.2 hl,
    Bool.not_eq_true', Bool.or_eq_false_iff, beq_eq_false_iff_ne]

end

end

/-- A group with a member that has sent no ARRIVE: only the leader's own and those of others stand in the barrier. -/
theorem arrived_of_none_early {s : State} {join : Bool} {id lead : Nat} {seq : Word} {idle : List (BitVec 16)} {n : BitVec 16}
    (hn : n ≠ s.map.nodeId) (he : s.map.early.any (fun x => x.1 == id && x.2.1 == join && x.2.2.1 == n) = false) :
    ∀ x ∈ (openedBarrier s join id seq lead idle).arrived, x.1 ≠ n := by
  intro x hx
  unfold openedBarrier at hx
  dsimp only at hx
  split at hx
  · rcases List.mem_cons.1 hx with rfl | hx
    · exact hn.symm
    · obtain ⟨y, hy, rfl⟩ := List.mem_map.1 hx
      obtain ⟨hy, hq⟩ := List.mem_filter.1 hy
      intro hyn
      simp only [Bool.and_eq_true, beq_iff_eq] at hq
      obtain ⟨⟨h1, h2⟩, -⟩ := hq
      have hy3 : y.2.2.1 ≠ n := by simpa [h1, h2] using List.any_eq_false.1 he y hy
      exact hy3 hyn
  · exact absurd hx List.not_mem_nil

section
variable {flags : Nat} {k : Pkt} {body : State → Ans} {s s0 : State} {join : Bool} {id lead : Nat} {seq : Word}
  {idle : List (BitVec 16)} (hs : starts s 0x20 flags k = some s0) (hb : body s0 = openBarrier s0 k join id seq lead idle)
include hs hb

/-- A command that opens a barrier is accepted with the token issued. -/
theorem command_opens {t : State} (ht : barrierMet s0 k.port (openedBarrier s0 join id seq lead idle) = t)
    (hf : t.fc.fsw = s0.fc.fsw) : command 0x20 flags k body s = answered t 0x20 k .accepted [BitVec.ofNat 32 s0.sch.cmdSeq] :=
  command_starts hs (hb.trans ((openBarrier_eq _ _ _ _ _ _ _).trans (by rw [ht]))) hf

/-- The leader of a barrier that a member has still to come to keeps its own arrival. -/
theorem command_leads (hl : leaderOf s0 join idle = s0.map.nodeId) {n : BitVec 16} (hn : n ∈ groupOf s0)
    (hne : n ≠ s0.map.nodeId) (he : s0.map.early.any (fun x => x.1 == id && x.2.1 == join && x.2.2.1 == n) = false) : ∃ t,
    command 0x20 flags k body s = answered t 0x20 k .accepted [BitVec.ofNat 32 s0.sch.cmdSeq]
    ∧ (∃ b ∈ t.map.barriers, b.id = id ∧ b.join = join ∧ b.seq = seq ∧ (s0.map.nodeId, now s0 + lead) ∈ b.arrived)
    ∧ t.sch.run = s0.sch.run ∧ t.mem = s0.mem ∧ t.jobs = s0.jobs ∧ t.tb = s0.tb ∧ t.fc = s0.fc := by
  have ht := barrierMet_leads (p := k.port) (b := openedBarrier s0 join id seq lead idle) hl hn (arrived_of_none_early hne he)
  refine ⟨_, command_opens hs hb ht rfl, ⟨_, mem_barrierOpened, rfl, rfl, rfl, ?_⟩, rfl, rfl, rfl, rfl, rfl⟩
  rw [openedBarrier, if_pos hl]
  exact List.mem_cons_self

/-- Another member's ARRIVE goes to the leader with its frame and its proposed time. -/
theorem command_follows (hl : leaderOf s0 join idle ≠ s0.map.nodeId) : ∃ t,
    command 0x20 flags k body s = answered t 0x20 k .accepted [BitVec.ofNat 32 s0.sch.cmdSeq]
    ∧ (∃ b ∈ t.map.barriers, b.id = id ∧ b.join = join ∧ b.seq = seq ∧ b.token = BitVec.ofNat 32 s0.sch.cmdSeq)
    ∧ (∃ f ∈ t.map.waitQ, f.typ = .arrive ∧ f.dst = leaderOf s0 join idle ∧ f.payload = barrierPayload seq (now s0 + lead))
    ∧ t.sch.run = s0.sch.run ∧ t.mem = s0.mem ∧ t.jobs = s0.jobs ∧ t.tb = s0.tb ∧ t.fc = s0.fc := by
  have ht := barrierMet_follows (p := k.port) (b := openedBarrier s0 join id seq lead idle) hl
  exact ⟨_, command_opens hs hb ht rfl, ⟨_, mem_barrierOpened (p := k.port), rfl, rfl, rfl, rfl⟩,
    ⟨_, List.mem_append_right _ List.mem_cons_self, rfl, rfl, rfl⟩, rfl, rfl, rfl, rfl, rfl⟩

end

/-- Settles O28: the answers by `doStartGroup_eq` and `doJoin_eq`, the barrier by `barrierMet_leads` and `barrierMet_follows`. -/
theorem runBarriers : Obligations.RunBarriers := by
  refine ⟨fun k s s0 hs hw hl => ?_, fun k idle s s0 hs hw hl => ?_⟩
  · obtain ⟨c, rfl⟩ := starts_cmd hs
    have hx : exec (.runCtlStartGroup k) s = .next (command 0x20 2 k (doStartGroup k) s) := rfl
    have hd := doStartGroup_eq (s := { s with cmd := c }) hw hl
    rw [hx]
    refine ⟨fun hr => ?_, fun hr ha hi hf hn => ?_, fun hr ha hi hf hn => ?_⟩
    · refine congrArg _ (command_refuses hs (hd.trans (if_pos (Bool.eq_false_iff.2 fun hm => hr ?_))))
      exact (mayArm_iff.1 hm).1
    · have hm : mayArm { s with cmd := c } = true := mayArm_iff.2 ⟨hr, ha, hi, hf⟩
      exact congrArg _ (command_refuses hs (hd.trans ((if_neg (by simp [hm])).trans (if_pos hn))))
    · have hm : mayArm { s with cmd := c } = true := mayArm_iff.2 ⟨hr, ha, hi, hf⟩
      have hb := hd.trans ((if_neg (by simp [hm])).trans (if_neg (Bool.eq_false_iff.not.2 (not_not.2 hn))))
      refine ⟨fun hld hmiss => ?_, fun hld => ?_⟩
      · obtain ⟨n, hng, hne⟩ := List.any_eq_true.1 hmiss
        simp only [Bool.and_eq_true, bne_iff_ne, Bool.not_eq_true'] at hne
        obtain ⟨t, ht, hbar, hrun, hrest⟩ := command_leads hs hb hld hng hne.1 hne.2
        exact ⟨t, congrArg _ ht, hbar, hrun.trans hr, hrest⟩
      · obtain ⟨t, ht, hbar, hmsg, hrun, hrest⟩ := command_follows hs hb hld
        exact ⟨t, congrArg _ ht, hbar, hmsg, hrun.trans hr, hrest⟩
  · obtain ⟨c, rfl⟩ := starts_cmd hs
    have hx : exec (.runCtlJoin k idle) s = .next (command 0x20 3 k (fun s => doJoin k s idle) s) := rfl
    have hd := doJoin_eq (s := { s with cmd := c }) hw hl idle
    rw [hx]
    refine ⟨fun hr => ?_, fun hr hn => ?_, fun hr hn hld => ?_⟩
    · refine congrArg _ (command_refuses hs (hd.trans (if_pos ⟨?_, Bool.eq_false_iff.2 fun hm => ?_⟩)))
      · rcases hr with hr | hr <;> simp [hr]
      · have := (mayArm_iff.1 hm).1
        rcases hr with hr | hr <;> simp [hr] at this
    · exact congrArg _ (command_refuses hs (hd.trans ((if_neg fun h => h.1 hr).trans (if_pos hn))))
    · have hb := hd.trans ((if_neg fun h => ?_).trans (if_neg (Bool.eq_false_iff.not.2 (not_not.2 hn))))
      · obtain ⟨t, ht, ⟨b, hb, hid, hj, -, htok⟩, hrest⟩ :=
          command_follows (body := fun s => doJoin k s idle) hs hb hld
        exact ⟨t, congrArg _ ht, ⟨b, hb, hid, hj, htok⟩, hrest⟩
      · rcases hr with hr | hr
        · exact h.1 hr
        · have hm : mayArm { s with cmd := c } = true := mayArm_iff.2 hr
          rw [hm] at h
          cases h.2

end Sys2Proof.Proofs
end

section
/-! PROOFS. What Mapin sends (R328 to R332): a frame of the link sequence, the frames sent again, the keepalive; and time over
Mapin (R322). -/

namespace Sys2Proof.Proofs

open Sys2Proof Sys2Proof.Machine Sys2Proof.Laws

/-! ### The rows that a request carries -/

section
variable {s : State}

/-- Reads that meet no new error change but the credits and the counts of the stores (R220, R224, R231). -/
theorem portRead_asStored (src a n : Nat) (hf : poolsFit s.cr.pools = true) (hb : s.csramBad = []) :
    ∃ c m, portRead s src a n asIs = { s with cr := c, ms := m } := by
  unfold portRead
  generalize reqsOf a n = rs
  induction rs generalizing s with
  | nil => exact ⟨s.cr, s.ms, rfl⟩
  | cons x rs ih =>
    have hp := onlyReads_passReq src x.1 hf
    have hfit := (passReq_keeps src x.1 (Keeps.refl s)).pools hf
    have ht : reqTimed asIs x.1 x.2 = false := by simp [reqTimed, asIs]
    rw [onlyReads] at hp
    have hu : ∀ (us : List Nat) (u : State), u.csramBad = [] → ∃ m,
        us.foldl (fun s v => eccRead s v (if s.csramBad.contains v then .uncorrectable else asIs v)) u = { u with ms := m } := by
      intro us
      induction us with
      | nil => exact fun u _ => ⟨u.ms, rfl⟩
      | cons v us ih =>
        intro u hu
        obtain ⟨m, hm⟩ : ∃ m, countPoisonRead u v = { u with ms := m } := by
          unfold countPoisonRead
          split_ifs <;> exact ⟨_, rfl⟩
        have hv : eccRead u v (if u.csramBad.contains v then .uncorrectable else asIs v) = countPoisonRead u v := by
          simp only [hu, List.contains_nil, Bool.false_eq_true, if_false, asIs]
          rfl
        rw [List.foldl_cons, hv, hm]
        obtain ⟨m', hm'⟩ := ih { u with ms := m } hu
        exact ⟨m', hm'⟩
    have hbad : (passReq s src x.1).csramBad = [] := (congrArg State.csramBad hp).trans hb
    obtain ⟨m, hm⟩ := hu (protOf x.1 x.2) (passReq s src x.1) hbad
    rw [List.foldl_cons]
    dsimp only
    rw [ht, if_neg (by decide), readUnits, hm]
    obtain ⟨c', m', h'⟩ := ih (s := { passReq s src x.1 with ms := m }) hfit hbad
    refine ⟨c', m', h'.trans ?_⟩
    rw [hp]

/-- The rows of a request to write are read as they stand; another frame reads nothing. -/
theorem readRows_asStored {f : MFrame} {o : Nat → Ecc}
    (h : f.typ = .writeReq → o = asIs ∧ poolsFit s.cr.pools = true ∧ s.csramBad = []) :
    ∃ c m, readRows s f o = { s with cr := c, ms := m } := by
  unfold readRows
  split
  · rename_i r _
    by_cases hw : f.typ = .writeReq
    · obtain ⟨rfl, hf, hb⟩ := h hw
      rw [if_pos (by simp [hw])]
      exact portRead_asStored _ _ _ hf hb
    · rw [if_neg (by simpa using hw)]
      exact ⟨s.cr, s.ms, rfl⟩
  · exact ⟨s.cr, s.ms, rfl⟩

end

/-! ### A frame on the wire -/

section
variable (s : State) (l : MLink) (f : MFrame)

/-- The frame that goes, with its link's acknowledgement, credits and NAK (R329, R331, R332). -/
def wireFrame : MFrame := { f with ack := l.rxSeq, gen := s.map.gen, credits := l.owed, nak := l.nak, port := nextPort s }

/-- The state once it is on the wire, its link being `l`. -/
def onWire : State :=
  { putLink s { l with owed := 0, nak := false } with
    map := { (putLink s { l with owed := 0, nak := false }).map with turn := nextPort s + 1 }
    out := { s.out with mapin := s.out.mapin ++ [wireFrame s l f]
                        mapinWire := s.out.mapinWire ++ [(nextPort s, frameBytes s (wireFrame s l f))] } }

theorem emit_eq : emit s f = onWire s (linkOf s f.dst) f := rfl

theorem onWire_putLink {l' : MLink} (h : l'.node = l.node) : onWire (putLink s l') l f = onWire s l f := by
  have hp : putLink (putLink s l') { l with owed := 0, nak := false } = putLink s { l with owed := 0, nak := false } :=
    putLink_putLink s (by exact h.symm)
  rw [onWire, hp]
  rfl

theorem emit_putLink (h : l.node = f.dst) : emit (putLink s l) f = onWire s l f := by
  rw [emit_eq, linkOf_putLink_self s h, onWire_putLink s l f rfl]

theorem linkOf_onWire (h : l.node = f.dst) : linkOf (onWire s l f) f.dst = { l with owed := 0, nak := false } :=
  linkOf_putLink_self s (l := { l with owed := 0, nak := false }) h

end

/-! ### A frame of the link sequence -/

section
variable (s : State) (f : MFrame)

/-- The instant at which a frame's first bit leaves (R322). -/
def departs : Nat := now s + egrLat s (nextPort s)

/-- The time service with the departure of a TIME_REQ kept. -/
def sentTs : TimeService :=
  if f.typ = .timeReq then { s.ts with mapinT1 := s.ts.mapinT1 ++ [(f.reqId, f.dst, (departs s : Int))] } else s.ts

/-- A frame's payload as it goes: an answer carries its departure. -/
def sentPayload : List Byte := if f.typ = .timeResp then f.payload.take 8 ++ stampBytes (departs s) else f.payload

/-- The frame as it is kept until it is acknowledged (R331). -/
def keptFrame : MFrame := { f with payload := sentPayload s f, lseq := (linkOf s f.dst).txSeq + 1 }

/-- Its link, before what the frame says of it is said. -/
def sendLink : MLink := { linkOf s f.dst with
  txSeq := (linkOf s f.dst).txSeq + 1, free := (linkOf s f.dst).free - frameCost (keptFrame s f)
  unacked := (linkOf s f.dst).unacked ++ [keptFrame s f], greeted := (linkOf s f.dst).greeted || f.typ == .hello }

theorem stamp_eq : stamp s f = ({ s with ts := sentTs s f }, { f with payload := sentPayload s f }) := by
  obtain ⟨typ, dst, lseq, reqId, arg, payload⟩ := f
  cases typ <;> simp only [stamp, sentTs, sentPayload, departs, reduceCtorEq, if_true, if_false]

/-- The state once it is on the wire. -/
def sentOn : State := onWire { s with ts := sentTs s f } (sendLink s f) (keptFrame s f)

/-- A request is outstanding from then on (R333); nothing else comes after. -/
theorem sendFrame_tells {β : Type} (g : State → β)
    (hg : ∀ u a b c, g { u with map := { u.map with sent := a, reqs := b, waitReqs := c } } = g u) :
    g (sendFrame s f) = g (sentOn s f) := by
  have he : emit (putLink { s with ts := sentTs s f } (sendLink s f)) (keptFrame s f) = sentOn s f :=
    emit_putLink _ _ _ (linkOf_node s f.dst)
  unfold sendFrame
  rw [stamp_eq]
  refine ite_keeps g ((hg _ _ _ _).trans ?_) ?_ <;> exact congrArg g he

theorem sentOn_link : linkOf (sentOn s f) f.dst = { sendLink s f with owed := 0, nak := false } :=
  linkOf_onWire _ (sendLink s f) (keptFrame s f) (linkOf_node s f.dst)

end

/-! ### A waiting frame -/

section
variable {s : State} {f : MFrame} {o : Nat → Ecc}

theorem trySend_short (h : (linkOf s f.dst).free < frameCost f) : trySend s f o = s := if_neg (Nat.not_le.2 h)

/-- The state with a frame out of the queue, its rows read. -/
def dequeued (s : State) (f : MFrame) (c : Credits) (m : MemSys) : State :=
  { s with cr := c, ms := m, map := { s.map with waitQ := s.map.waitQ.erase f } }

variable (hc : frameCost f ≤ (linkOf s f.dst).free)
  (hr : f.typ = .writeReq → o = asIs ∧ poolsFit s.cr.pools = true ∧ s.csramBad = [])
include hc hr

theorem trySend_eq : ∃ c m, trySend s f o = sendFrame (dequeued s f c m) f := by
  obtain ⟨c, m, h⟩ := readRows_asStored hr
  refine ⟨c, m, (if_pos hc).trans ?_⟩
  rw [h]
  rfl

/-- A frame with the credits it needs goes (R328 to R332). -/
theorem trySend_sends : (trySend s f o).ts = sentTs s f
    ∧ (trySend s f o).out.mapin = s.out.mapin ++ [wireFrame s (linkOf s f.dst) (keptFrame s f)]
    ∧ (trySend s f o).out.mapinWire = s.out.mapinWire ++
        [(nextPort s, frameBytes s (wireFrame s (linkOf s f.dst) (keptFrame s f)))]
    ∧ linkOf (trySend s f o) f.dst = { sendLink s f with owed := 0, nak := false }
    ∧ (trySend s f o).map.waitQ = s.map.waitQ.erase f ∧ (trySend s f o).map.turn = nextPort s + 1
    ∧ (trySend s f o).mem = s.mem ∧ (trySend s f o).jobs = s.jobs ∧ (trySend s f o).fc = s.fc := by
  obtain ⟨c, m, h⟩ := trySend_eq hc hr
  rw [h]
  have ht {β : Type} (g : State → β) (hg : ∀ u a b c, g { u with map := { u.map with sent := a, reqs := b, waitReqs := c } } = g u) :
    g (sendFrame (dequeued s f c m) f) = g (sentOn (dequeued s f c m) f) := sendFrame_tells (dequeued s f c m) f g hg
  exact ⟨ht State.ts fun _ _ _ _ => rfl, ht (fun u => u.out.mapin) fun _ _ _ _ => rfl,
    ht (fun u => u.out.mapinWire) fun _ _ _ _ => rfl,
    (ht (fun u => linkOf u f.dst) fun _ _ _ _ => rfl).trans (sentOn_link (dequeued s f c m) f),
    ht (fun u => u.map.waitQ) fun _ _ _ _ => rfl, ht (fun u => u.map.turn) fun _ _ _ _ => rfl,
    ht State.mem fun _ _ _ _ => rfl, ht State.jobs fun _ _ _ _ => rfl, ht State.fc fun _ _ _ _ => rfl⟩

end

/-- The frame that goes next to a node: HELLO first where it is still owed (R335). -/
def nextFor (s : State) (dst : BitVec 16) (f : MFrame) : MFrame := if owesHello s dst && f.typ != .lost then helloTo s dst else f

section
variable {s : State} {dst : BitVec 16} {f : MFrame} (hf : s.map.waitQ.find? (fun f => f.dst == dst) = some f)
include hf

theorem nextFor_dst : (nextFor s dst f).dst = dst := by
  unfold nextFor
  split
  · rfl
  · simpa using List.find?_some hf

theorem exec_mapinFrameSend (hu : mapinUp s = true) (ecc : List (Nat × Ecc)) :
    exec (.mapinFrameSend dst ecc) s = .next (settle s (trySend s (nextFor s dst f) (eccFor ecc))) := by
  have he : exec (.mapinFrameSend dst ecc) s = execMapinFrameSend dst s ecc := rfl
  simp only [he, execMapinFrameSend, hu, Bool.not_true, Bool.false_eq_true, if_false, hf, nextFor]

theorem exec_mapinFrameSend_short (ecc : List (Nat × Ecc)) (h : (linkOf s dst).free < frameCost (nextFor s dst f)) :
    exec (.mapinFrameSend dst ecc) s = .next s := by
  by_cases hu : mapinUp s = true
  · rw [exec_mapinFrameSend hf hu, trySend_short (by rwa [nextFor_dst hf]), settle_same rfl]
  · exact congrArg Host.Outcome.next (if_pos (by simp [hu]))

end

/-! ### Frames sent again -/

/-- What a repetition keeps of a frame. -/
def repeated (f : MFrame) : MType × Word × List Byte := (f.typ, f.lseq, f.payload)

/-- What a repetition keeps of its link, and of the state. -/
def resendView (dst : BitVec 16) (s : State) :=
  ((linkOf s dst).txSeq, (linkOf s dst).unacked, (linkOf s dst).free, s.mem, s.jobs)

/-- Each frame goes again under its own number, and the link keeps it (R331). -/
theorem emitAll_repeats {dst : BitVec 16} {l : List MFrame} (h : ∀ f ∈ l, f.dst = dst) (s : State) : ∃ ms,
    (l.foldl emit s).out.mapin = s.out.mapin ++ ms ∧ ms.map repeated = l.map repeated
    ∧ resendView dst (l.foldl emit s) = resendView dst s := by
  induction l generalizing s with
  | nil => exact ⟨[], (List.append_nil _).symm, rfl, rfl⟩
  | cons f l ih =>
    obtain ⟨ms, h1, h2, h3⟩ := ih (fun f hf => h f (List.mem_cons_of_mem _ hf)) (emit s f)
    have hd : f.dst = dst := h f List.mem_cons_self
    refine ⟨wireFrame s (linkOf s f.dst) f :: ms, ?_, ?_, h3.trans ?_⟩
    · rw [List.foldl_cons, h1]
      exact List.append_assoc _ [_] _
    · rw [List.map_cons, h2]
      rfl
    · subst hd
      have hl : linkOf (emit s f) f.dst = { linkOf s f.dst with owed := 0, nak := false } :=
        linkOf_onWire s (linkOf s f.dst) f (linkOf_node s f.dst)
      unfold resendView
      rw [hl]
      rfl

/-! ### The keepalive -/

/-- A frame without a payload takes one credit (R332). -/
theorem frameCost_empty {f : MFrame} (h : f.payload = []) : frameCost f = 1 := by simp [frameCost, h]

section
variable {s : State} {dst : BitVec 16}

/-- LINK to a node (R331). -/
def linkTo (dst : BitVec 16) : MFrame := { typ := .link, dst := dst, lseq := 0, reqId := 0, arg := 0, payload := [] }

theorem owesHello_eq (h : dst ∈ peers s) : owesHello s dst = !(linkOf s dst).greeted := by simp [owesHello, h]

theorem exec_mapinLinkKeepalive (hu : mapinUp s = true) (hd : dst ∈ peers s) (hc : 1 ≤ (linkOf s dst).free) :
    exec (.mapinLinkKeepalive dst) s = .next (if (linkOf s dst).greeted = true
      then onWire s { linkOf s dst with free := (linkOf s dst).free - 1 } (linkTo dst) else trySend s (helloTo s dst)) := by
  have hcost : frameCost (linkTo dst) = 1 := frameCost_empty rfl
  have he : emit (putLink s { linkOf s dst with free := (linkOf s dst).free - frameCost (linkTo dst) }) (linkTo dst)
      = onWire s { linkOf s dst with free := (linkOf s dst).free - 1 } (linkTo dst) :=
    (emit_putLink _ _ _ (linkOf_node s dst)).trans (by rw [hcost])
  refine congrArg Host.Outcome.next ((if_neg (by simp [hu, hd])).trans ?_)
  rw [owesHello_eq hd]
  cases hg : (linkOf s dst).greeted
  · rfl
  · exact (if_pos (show frameCost (linkTo dst) ≤ _ from hcost ▸ hc)).trans he

theorem exec_mapinLinkKeepalive_idle (h : dst ∉ peers s ∨ (linkOf s dst).free = 0) : exec (.mapinLinkKeepalive dst) s = .next s := by
  by_cases hd : dst ∈ peers s
  · have hc : (linkOf s dst).free < 1 := by have := h.resolve_left (not_not.2 hd); omega
    refine congrArg Host.Outcome.next ?_
    by_cases hu : mapinUp s = true
    · refine (if_neg (by simp [hu, hd])).trans ?_
      split
      · exact trySend_short (f := helloTo s dst) (frameCost_empty (f := helloTo s dst) rfl ▸ hc)
      · exact if_neg (Nat.not_le.2 (frameCost_empty (f := linkTo dst) rfl ▸ hc))
    · exact if_pos (by simp [hu])
  · exact congrArg Host.Outcome.next (if_pos (by simp [hd]))

end

/-! ### Time over Mapin -/

section
variable {s : State} {h : MHdr}

theorem exec_mapinTimeReqInterval (hs : s.tb.src = .mapin) (hu : mapinUp s = true) : exec .mapinTimeReqInterval s =
    .next { s with map := { s.map with nextReq := s.map.nextReq + 1, waitQ := s.map.waitQ ++ [{
      typ := .timeReq, dst := (wd s.ts.cfg 1).extractLsb' 0 16, lseq := 0, reqId := s.map.nextReq, arg := 0, payload := [] }] } } :=
  congrArg Host.Outcome.next (if_pos (by simp [hs, hu]))

theorem exec_mapinTimeReqInterval_idle (h : s.tb.src ≠ .mapin ∨ mapinUp s = false) : exec .mapinTimeReqInterval s = .next s := by
  refine congrArg Host.Outcome.next (if_neg ?_)
  rcases h with h | h <;> simp [h]

theorem exec_mapinTimeReq (hf : framed s h = true) : exec (.mapinTimeReq h) s =
    .next (settleUnits s (onTimeReq (afterFrame s h 0) h (firstPort s) (now s))) :=
  congrArg Host.Outcome.next (receive_framed hf _ _)

theorem exec_mapinTimeResp (hf : framed s h = true) (t2 t3 : Int) : exec (.mapinTimeResp h t2 t3) s =
    .next (settleUnits s (onTimeResp (afterFrame s h 16) h (firstPort s) (now s) t2 t3)) :=
  congrArg Host.Outcome.next (receive_framed hf _ _)

/-- The state with a request answered. -/
def timeAnswered (s : State) (h : MHdr) : State :=
  { s with ts := { s.ts with mapinT1 := s.ts.mapinT1.filter (fun y => y.1 != h.reqId) } }

theorem onTimeResp_sample {x : Word × BitVec 16 × Int} {m n : Nat} {t2 t3 : Int}
    (hx : s.ts.mapinT1.find? (fun x => x.1 == h.reqId && x.2.1 == h.src) = some x) (hs : s.tb.src = .mapin) :
    onTimeResp s h m n t2 t3 = takeSample (timeAnswered s h) (((t2 - x.2.2) - (arrivedAt s m n - t3)) / 2) := by
  simp only [onTimeResp, hx, hs, beq_self_eq_true, if_true, timeAnswered]

theorem onTimeResp_none {m n : Nat} {t2 t3 : Int}
    (hx : s.ts.mapinT1.find? (fun x => x.1 == h.reqId && x.2.1 == h.src) = none) : onTimeResp s h m n t2 t3 = s := by
  simp only [onTimeResp, hx]

theorem length_stampBytes (t : Nat) : (stampBytes t).length = 8 := rfl

end

/-- Settles O52: a waiting frame by `trySend_sends`, the frames sent again by `emitAll_repeats`, time by `takeSample`. -/
theorem mapinSendsAndTime : Obligations.MapinSendsAndTime := by
  refine ⟨⟨fun s dst f g l ecc hf hl hg => ⟨fun hlt => ?_, fun hu hc hw => ?_⟩, fun s dst hu hd => ?_, fun s dst hu hd hc => ?_,
    fun s dst h => exec_mapinLinkKeepalive_idle h⟩, fun s hs hu => exec_mapinTimeReqInterval hs hu,
    fun s h => exec_mapinTimeReqInterval_idle h, fun s h hf => ?_, fun s h x t2 t3 t4 e hf hx hs ht he hlt => ?_,
    fun s h t2 t3 hf hx => ?_⟩
  · subst hl hg
    exact exec_mapinFrameSend_short hf ecc hlt
  · have hg' : g = nextFor s dst f := hg
    have hdst : g.dst = dst := hg' ▸ nextFor_dst hf
    subst hl
    clear hg
    subst hdst
    obtain ⟨hts, hm, hwire, hlink, hq, hturn, hmem, hjobs, hfc⟩ := trySend_sends (o := eccFor ecc) hc fun h => by
      obtain ⟨rfl, hrest⟩ := hw h
      exact ⟨rfl, hrest⟩
    refine ⟨trySend s g (eccFor ecc), _, sentPayload s g, ?_, rfl, fun h => if_neg h, fun h => if_pos h, fun h => ?_, fun h => ?_,
      hm, hwire, hlink, hq, hturn, hmem, hjobs, hfc⟩
    · rw [exec_mapinFrameSend hf hu, ← hg', settle_same (congrArg FaultColl.fsw hfc)]
    · rw [hts, sentTs, if_pos h]
      rfl
    · rw [hts, sentTs, if_neg h]
  · obtain ⟨ms, h1, h2, h3⟩ := emitAll_repeats hd s
    simp only [resendView, Prod.mk.injEq] at h3
    obtain ⟨htx, hun, hfree, hmem, hjobs⟩ := h3
    refine ⟨resend s dst, congrArg Host.Outcome.next (if_pos hu), ?_, ?_, htx, hun, hfree, hmem, hjobs⟩
    · rw [resend, h1, List.drop_left]
      exact h2
    · rw [resend, h1, List.take_left]
  · rw [exec_mapinLinkKeepalive hu hd hc]
    cases hg : (linkOf s dst).greeted
    · have hcost (p : List Byte) (hp : p = []) : frameCost { helloTo s dst with payload := p, lseq := (linkOf s dst).txSeq + 1 } = 1 :=
        frameCost_empty hp
      obtain ⟨-, hm, -, hlink, -⟩ := trySend_sends (o := asIs) (f := helloTo s dst)
        (frameCost_empty (f := helloTo s dst) rfl ▸ hc) (fun h => nomatch h)
      have hl : linkOf (trySend s (helloTo s dst)) dst = { sendLink s (helloTo s dst) with owed := 0, nak := false } := hlink
      refine ⟨_, _, congrArg _ (if_neg (by simp)), hm, rfl, rfl, rfl, rfl, ?_, fun _ => ⟨rfl, rfl, rfl, ?_, ?_⟩,
        fun h => absurd h (by decide)⟩
      · rw [hl]
        exact congrArg ((linkOf s dst).free - ·) (hcost _ rfl)
      · rw [hl]; rfl
      · rw [hl]; exact Bool.or_true _
    · have hl := linkOf_onWire s { linkOf s dst with free := (linkOf s dst).free - 1 } (linkTo dst) (linkOf_node s dst)
      refine ⟨_, _, congrArg _ (if_pos rfl), rfl, rfl, rfl, rfl, rfl, ?_, fun h => absurd h (by decide), fun _ => ⟨rfl, ?_⟩⟩
      · exact (congrArg MLink.free hl :)
      · exact (congrArg MLink.txSeq hl :)
  · refine ⟨_, _, exec_mapinTimeReq hf, rfl, rfl, rfl, rfl, ?_⟩
    exact List.take_left' (length_stampBytes _)
  · subst ht he
    obtain ⟨hl, hn⟩ := takeSample_counts (s := timeAnswered (afterFrame s h 16) h) (satSample_of_lt hlt)
    have hk := fun e0 => offServo_takeSample (timeAnswered (afterFrame s h 16) h) e0
    refine ⟨takeSample (timeAnswered (afterFrame s h 16) h) _, ?_, hl, hn, (congrArg (fun u => u.ts.mapinT1) (hk _) :),
      (congrArg State.mem (hk _) :), (congrArg State.sch (hk _) :)⟩
    rw [exec_mapinTimeResp hf, onTimeResp_sample (s := afterFrame s h 16) hx hs]
    rfl
  · rw [exec_mapinTimeResp hf, onTimeResp_none (s := afterFrame s h 16) hx]

end Sys2Proof.Proofs
end

section
/-! PROOFS. What background work leaves of Mapin (R241, R333, R336): the ends of jobs, the stream units, the start of transfers and
the reaction to a fatal source touch no link, no request that is outstanding and no barrier; they queue and drop requests that
wait. -/

namespace Sys2Proof.Proofs

open Sys2Proof Sys2Proof.Machine Sys2Proof.Laws

/-! ### The view -/

/-- HELLO frames that wait. -/
def hellos (l : List MFrame) : List MFrame := l.filter (fun f => f.typ == .hello)

/-- Mapin apart from the transfers that wait, and the jobs to be issued again. -/
def linkSide (s : State) : Mapin :=
  { s.map with waitQ := hellos s.map.waitQ, waitReqs := [], nextReq := 0, reissue := [] }

section
variable (s : State)

/-! ### Sources and transfers -/

theorem linkSide_setSrc (n : Nat) : linkSide (setSrc s n) = linkSide s := by simp only [linkSide, setSrc_map]

theorem linkSide_giveOne (src : Nat) (k : PoolKind) (i : Nat) (ep : Bool) : linkSide (giveOne s src k i ep) = linkSide s :=
  ite_keeps linkSide rfl (linkSide_setSrc _ 82)

theorem linkSide_closeXfer (x : Xfer) : linkSide (closeXfer s x) = linkSide s :=
  ite_keeps linkSide (linkSide_giveOne _ _ _ _ _) rfl

theorem linkSide_modXfer (id : Nat) (f : Xfer → Xfer) : linkSide (modXfer s id f) = linkSide s := rfl

theorem linkSide_trimIf (p : Xfer → Bool) : linkSide (trimIf s p) = linkSide s :=
  foldl_keeps linkSide _ (fun s x => ite_keeps linkSide rfl
    (ite_keeps linkSide (linkSide_closeXfer s x) (linkSide_modXfer s _ _))) _ _

/-- What goes with a job is a request; HELLO waits on. -/
theorem linkSide_dropWaiting (t : Word) : linkSide (dropWaiting s t) = linkSide s := by
  have h : ∀ (p : MFrame → Bool) (l : List MFrame), (∀ f, f.typ = .hello → p f = true) → hellos (l.filter p) = hellos l := by
    intro p l hp
    unfold hellos
    rw [List.filter_filter]
    refine List.filter_congr fun f _ => ?_
    cases hf : f.typ == .hello
    · rfl
    · exact hp f (by simpa using hf)
  unfold linkSide dropWaiting
  dsimp only
  rw [h]
  intro f hf
  rw [hf]
  rfl

/-! ### Ends of jobs -/

theorem linkSide_collectOne (inp : Nat) : linkSide (collectOne s inp) = linkSide s := by
  unfold collectOne
  split
  · rfl
  · refine ite_keeps linkSide rfl (ite_keeps linkSide ?_ ((linkSide_setSrc _ 82).trans ?_)) <;>
      simp only [linkSide, storeWords_map]

theorem linkSide_pushRec (inp : Nat) (r : CRec) : linkSide (pushRec s inp r) = linkSide s :=
  (show _ = linkSide (if 2 ≤ skidCount s inp then collectOne s inp else s) from rfl).trans
    (ite_keeps linkSide (linkSide_collectOne s inp) rfl)

theorem linkSide_waitEnd (w : EndWait) : linkSide (waitEnd s w) = linkSide s := ite_keeps linkSide rfl rfl

theorem linkSide_skipEntry (i : Nat) (o : JobEnd) : linkSide (skipEntry s i o) = linkSide s :=
  ite_keeps linkSide (linkSide_waitEnd s _) (linkSide_pushRec _ _ _)

theorem linkSide_releaseWalks (t : Word) : linkSide (releaseWalks s t) = linkSide s :=
  foldl_keeps linkSide _ (fun s e => by
    split
    · exact ite_keeps linkSide (show linkSide (offStore _) = linkSide (offStore s) by rw [releaseWalk_offStore]) rfl
    · rfl) _ _

theorem linkSide_writeFb (j : Job) (l : LayerCnt) (o : Nat) : linkSide (writeFb s j l o) = linkSide s := by
  simp only [linkSide, writeFb, storeWords_map]

theorem linkSide_endJob (t : Word) (o : JobEnd) (inp : Nat) : linkSide (endJob s t o inp) = linkSide s := by
  unfold endJob
  refine ite_keeps linkSide (linkSide_waitEnd s _) ?_
  split
  · rfl
  · next j _ =>
    dsimp only
    generalize hu : trimXfers _ t = u
    have hv : linkSide u = linkSide s := by
      rw [← hu]
      exact (linkSide_trimIf _ _).trans ((linkSide_dropWaiting _ _).trans
        (foldl_keeps linkSide _ (fun s l => linkSide_writeFb s j l 2) _ s))
    refine (linkSide_pushRec _ _ _).trans ((linkSide_releaseWalks _ _).trans (Eq.trans ?_ hv))
    cases j.origin <;> rfl

theorem linkSide_cascade (n : Nat) : linkSide (cascade n s) = linkSide s := by
  induction n generalizing s with
  | zero => rfl
  | succ n ih =>
    unfold cascade
    split
    · exact (ih _).trans (linkSide_endJob s _ _ _)
    · split
      · exact (ih _).trans (linkSide_skipEntry s _ _)
      · rfl

theorem linkSide_cascadeAll : linkSide (cascadeAll s) = linkSide s := ite_keeps linkSide rfl (linkSide_cascade s _)

theorem linkSide_killJob (t : Word) (o : JobEnd) (inp : Nat) : linkSide (killJob s t o inp) = linkSide s :=
  (linkSide_cascadeAll _).trans (linkSide_endJob s t o inp)

theorem linkSide_killJobs (ts : List Word) (o : JobEnd) (inp : Nat) : linkSide (killJobs s ts o inp) = linkSide s :=
  (linkSide_cascadeAll _).trans (foldl_keeps linkSide _ (fun s t => linkSide_endJob s t o inp) _ _)

/-! ### The reaction to a fatal source -/

theorem linkSide_faReact : linkSide (faReact s) = linkSide s := by
  have hg : ∀ u : State, linkSide (guiltFatal u) = linkSide u := fun u => by unfold guiltFatal; split <;> rfl
  have hc : ∀ u : State, linkSide (cancelSwap u) = linkSide u := fun u => ite_keeps linkSide rfl rfl
  have hstop : linkSide (faStopped s) = linkSide s :=
    (hc _).trans ((hg (withdraw s 4)).trans (ite_keeps linkSide rfl rfl))
  have hv : ∀ u : State, linkSide (faVerdict u) = linkSide u := fun u =>
    ite_keeps linkSide (by simp only [linkSide, writeVerdict, storeWords_map]) rfl
  have hh : ∀ u : State, linkSide (faHalt u) = linkSide u := fun u => ite_keeps linkSide rfl rfl
  rw [faReact_eq_faHalt]
  exact (hh (faAnswered s)).trans ((hv (faKilled (faStopped s))).trans ((linkSide_killJobs _ _ _ _).trans hstop))

theorem linkSide_settle (s0 : State) : linkSide (settle s0 s) = linkSide s := ite_keeps linkSide (linkSide_faReact s) rfl

/-! ### The stream units -/

theorem linkSide_streamFault (x : Xfer) : linkSide (streamFault s x) = linkSide s := by
  have hh : linkSide (holdStream s x) = linkSide s := by
    unfold holdStream
    dsimp only
    split <;> rfl
  exact ite_keeps linkSide hh (linkSide_killJob _ _ _ _)

theorem linkSide_xferReq (x : Xfer) (w : Bool) (a n off : Nat) : linkSide (xferReq s x w a n off) = linkSide s := by
  have hb : linkSide (beginXferReq s x) = linkSide s := ite_keeps linkSide rfl rfl
  have ht : ∀ u : State, linkSide (touchCheck u a) = linkSide u := fun u => ite_keeps linkSide rfl rfl
  exact (ht _).trans ((foldl_keeps linkSide (fun s l => takeCredit s l .ring l) (fun _ _ => rfl) _ _).trans hb)

theorem linkSide_storeMoved (a : Nat) (bs : List Byte) (bad : Nat → Nat → Bool) : linkSide (storeMoved s a bs bad) = linkSide s := by
  have hp : ∀ (u : State) (v : Nat), linkSide (addPoison u v) = linkSide u := fun u v => ite_keeps linkSide rfl rfl
  have hm : ∀ (u : State) (v : Nat), linkSide (markUnit u v) = linkSide u := fun u v =>
    ite_keeps linkSide (hp _ _) (ite_keeps linkSide (hp _ _) (hp _ _))
  exact ite_keeps linkSide rfl (foldl_keeps linkSide _ hm _ _)

theorem linkSide_copyStep {x : Xfer} {t : State} (h : copyStep s x = some t) : linkSide t = linkSide s := by
  unfold copyStep at h
  split at h
  · cases h
  · dsimp only at h
    split at h <;> cases h
    exact (linkSide_xferReq _ _ _ _ _ _).trans ((show _ = linkSide (storeMoved s _ _ _) from rfl).trans (linkSide_storeMoved s _ _ _))

theorem linkSide_ownRead (x : Xfer) (a n : Nat) : linkSide (ownRead s x a n) = linkSide s :=
  foldl_keeps linkSide (fun s _ => givePiece s x _) (fun _ _ => rfl) _ s

theorem linkSide_xferStep {x : Xfer} {t : State} (h : xferStep s x = some t) : linkSide t = linkSide s := by
  unfold xferStep at h
  split at h
  next s1 h1 => cases h; exact linkSide_copyStep s h1
  next =>
    dsimp only at h
    split_ifs at h <;> cases h
    · exact (linkSide_modXfer _ _ _).trans (linkSide_xferReq s _ _ _ _ _)
    · exact linkSide_streamFault s x
    · exact linkSide_killJob s _ _ _
    · exact (linkSide_modXfer _ _ _).trans (linkSide_ownRead s _ _ _)
    · exact (linkSide_modXfer _ _ _).trans (linkSide_xferReq s _ _ _ _ _)

theorem linkSide_pumpUnit (e n : Nat) : linkSide (pumpUnit e n s) = linkSide s := by
  induction n generalizing s with
  | zero => rfl
  | succ n ih =>
    unfold pumpUnit
    split
    · rename_i t ht
      obtain ⟨x, -, hx⟩ := List.exists_of_findSome?_eq_some ht
      exact (ih t).trans (linkSide_xferStep s hx)
    · rfl

theorem linkSide_closeOperands (e : Nat) : linkSide (closeOperands s e) = linkSide s := by
  have hr : ∀ u : State, linkSide (runArray u e) = linkSide u := fun u => ite_keeps linkSide rfl rfl
  have hc := foldl_keeps linkSide closeXfer linkSide_closeXfer
    (s.ms.xfers.filter (fun x => x.unit == e && x.use.isOperand && xferOver s x)) s
  exact ite_keeps linkSide ((hr _).trans hc) hc

theorem linkSide_pump (e : Nat) : linkSide (pump s e) = linkSide s := (linkSide_closeOperands _ e).trans (linkSide_pumpUnit s e _)

theorem linkSide_queueRow (unit prio : Nat) (use : XUse) (src dst len : Nat) :
    linkSide (queueRow s unit prio use src dst len) = linkSide s :=
  foldl_keeps linkSide (fun s _ => addXfer s unit prio use _ _ _) (fun _ _ => rfl) _ s

theorem linkSide_stageAhead (e : Nat) : linkSide (stageAhead s e) = linkSide s := by
  have hc : linkSide (clearStaged s e) = linkSide s := by
    unfold clearStaged
    split
    · rfl
    · exact ite_keeps linkSide rfl (linkSide_trimIf s _)
  unfold stageAhead
  dsimp only
  split
  · exact hc
  · refine ite_keeps linkSide hc ?_
    split
    · exact hc
    · refine ite_keeps linkSide hc ((linkSide_pump _ e).trans ?_)
      exact (foldl_keeps linkSide _ (fun s _ => linkSide_queueRow s _ _ _ _ _ _) _ _).trans hc

theorem linkSide_units : linkSide (units s) = linkSide s :=
  (foldl_keeps linkSide stageAhead linkSide_stageAhead _ _).trans (ite_keeps linkSide rfl (foldl_keeps linkSide pump linkSide_pump _ _))

theorem linkSide_settleUnits (s0 : State) : linkSide (settleUnits s0 s) = linkSide s :=
  (linkSide_settle _ s0).trans (linkSide_units s)

/-! ### What starts -/

theorem linkSide_queueReq (t : Word) (x : List Word) (p : Nat × Nat × Nat × Bool) : linkSide (queueReq s t x p) = linkSide s := by
  unfold linkSide queueReq hellos
  dsimp only
  rw [List.filter_append]
  split <;> exact congrArg (fun q => ({ s.map with waitQ := q, waitReqs := [], nextReq := 0, reissue := [] } : Mapin)) (List.append_nil _)

theorem linkSide_startXfers : linkSide (startXfers s) = linkSide s :=
  foldl_keeps linkSide _ (fun s j => foldl_keeps linkSide _ (fun s x => by
    split
    · rfl
    · refine ite_keeps linkSide ?_ rfl
      exact foldl_keeps linkSide _ (fun s p => linkSide_queueReq s _ _ p) _ s) _ s) _ s

theorem linkSide_runPrefetch (t : Word) (n : Nat) : linkSide (runPrefetch s t n) = linkSide s := by
  unfold runPrefetch
  split
  · rfl
  split
  · rfl
  refine ite_keeps linkSide rfl ?_
  split
  · rfl
  · refine (linkSide_pump _ _).trans ((foldl_keeps linkSide _ (fun s _ => linkSide_queueRow s _ _ _ _ _ _) _ _).trans ?_)
    exact linkSide_queueRow _ _ _ _ _ _ _

theorem linkSide_startPrefetch : linkSide (startPrefetch s) = linkSide s :=
  foldl_keeps linkSide _ (fun s (j : Job) => foldl_keeps linkSide _ (fun s n => linkSide_runPrefetch s j.token n) _ s) _ s

theorem linkSide_afterStand : linkSide (afterStand s) = linkSide s :=
  (linkSide_startXfers (startPrefetch s)).trans (linkSide_startPrefetch s)

theorem linkSide_tryDone (t : Word) (inp : Nat) : linkSide (tryDone s t inp) = linkSide s := by
  unfold tryDone
  split
  · rfl
  · exact ite_keeps linkSide (linkSide_endJob s t _ inp) rfl

theorem linkSide_reissueOne (x : Word × Job) : linkSide (reissueOne s x) = linkSide s :=
  (linkSide_tryDone _ _ _).trans (linkSide_afterStand _)

theorem linkSide_reissueJobs : linkSide (reissueJobs s) = linkSide s :=
  ite_keeps linkSide (foldl_keeps linkSide reissueOne linkSide_reissueOne _ _) rfl

end

end Sys2Proof.Proofs
end

section
/-! PROOFS. The loss of a member, and this node's own (R336, R337, R341): what goes with it, what is queued, and which sources set. -/

namespace Sys2Proof.Proofs

open Sys2Proof Sys2Proof.Machine Sys2Proof.Laws

/-! ### What the view says -/

/-- A node's entry, by what Mapin holds. -/
def entryIn (m : Mapin) (n : BitVec 16) : BitVec 8 :=
  if n == m.nodeId then m.gen else ((m.links.find? (fun l => l.node == n)).map MLink.gen).getD 0

theorem genEntry_eq (s : State) (n : BitVec 16) : genEntry s n = entryIn (linkSide s) n := by
  have h : (linkOf s n).gen = ((s.map.links.find? (fun l => l.node == n)).map MLink.gen).getD 0 := by
    unfold linkOf
    cases s.map.links.find? (fun l => l.node == n) <;> rfl
  rw [genEntry, h]
  rfl

theorem genEntry_congr {s t : State} (h : linkSide t = linkSide s) (n : BitVec 16) : genEntry t n = genEntry s n := by
  rw [genEntry_eq, genEntry_eq, h]

theorem genEntry_of_ne {s : State} {n : BitVec 16} (h : n ≠ s.map.nodeId) : genEntry s n = (linkOf s n).gen :=
  if_neg (by simpa using h)

theorem ne_of_mem_peers {s : State} {n : BitVec 16} (h : n ∈ peers s) : n ≠ s.map.nodeId := by
  simpa using (List.mem_filter.1 h).2

/-! ### Requests and barriers that end -/

/-- The requests to a node ended, in what Mapin holds (R333). -/
def reqsEnded (m : Mapin) (n : BitVec 16) : Mapin :=
  { m with reqs := m.reqs.filter (fun r => r.dst != n), waitQ := m.waitQ.filter (fun f => f.dst != n)
           timedOut := m.timedOut + (m.reqs.filter (fun r => r.dst == n)).length
           timeouts := satAdd 0xFFFF m.timeouts (m.reqs.filter (fun r => r.dst == n)).length }

/-- The barriers in progress failed (R341). -/
def barriersFailed (m : Mapin) : Mapin :=
  { m with barriers := [], barFails := if m.barriers.length = 0 then m.barFails else satAdd 0xFF m.barFails m.barriers.length }

section
variable (s : State) (n : BitVec 16)

theorem linkSide_endReqs : linkSide (endReqs s n) = reqsEnded (linkSide s) n := by
  have h : hellos (s.map.waitQ.filter (fun f => f.dst != n)) = (hellos s.map.waitQ).filter (fun f => f.dst != n) :=
    List.filter_comm _ _ _
  simp only [linkSide, endReqs, reqsEnded, h]

theorem linkSide_windowsInvalid : linkSide (windowsInvalid s n) = linkSide s := ite_keeps linkSide rfl rfl

theorem linkSide_killLost : linkSide (killLost s n) = reqsEnded (linkSide s) n := by
  have hk := linkSide_killJobs (windowsInvalid (endReqs s n) n)
    ((s.jobs.filter (lossHits s n)).map (fun j => j.token)) .killedUpstream 28
  unfold killLost
  dsimp only
  generalize killJobs _ _ _ _ = u at hk ⊢
  refine (show _ = linkSide (if u.sch.invalid.isEmpty then u else _) from rfl).trans ?_
  rw [ite_keeps linkSide rfl (linkSide_cascade u _), hk, linkSide_windowsInvalid, linkSide_endReqs]

theorem finishAll_keeps {β : Type} (g : State → β) (hg : ∀ s t st pl, g (finishTok s t st pl) = g s) (st : Status)
    (l : List Barrier) : g (l.foldl (fun (s : State) (b : Barrier) => finishTok s b.token st []) s) = g s :=
  foldl_keeps g (fun (s : State) (b : Barrier) => finishTok s b.token st []) (fun _ _ => hg _ _ _ _) l s

theorem linkSide_failBarriers (st : Status) : linkSide (failBarriers s st) = barriersFailed (linkSide s) := by
  have hm := finishAll_keeps s State.map (fun _ _ _ _ => rfl) st s.map.barriers
  unfold failBarriers
  dsimp only
  by_cases h : s.map.barriers.length = 0
  · have hb : s.map.barriers = [] := List.length_eq_zero_iff.1 h
    rw [if_pos h]
    simp only [linkSide, barriersFailed, hb, List.length_nil, if_true]
  · have hf : barriersFailed (linkSide s) =
        { linkSide s with barriers := [], barFails := satAdd 0xFF s.map.barFails s.map.barriers.length } := by
      rw [barriersFailed, if_neg (by exact h)]
      rfl
    rw [if_neg h, linkSide_setSrc, hf]
    simp only [linkSide, hm]

/-! ### Sources last -/

variable {s n} {i : Nat}

theorem killLost_fsw (h : s.fc.fsw.getLsbD i = true) : (killLost s n).fc.fsw.getLsbD i = true := by
  have h0 : (windowsInvalid (endReqs s n) n).fc.fsw.getLsbD i = true := by
    have hw : (windowsInvalid (endReqs s n) n).fc = s.fc := ite_keeps State.fc rfl rfl
    rwa [hw]
  have hk := (killJobs_bg ((s.jobs.filter (lossHits s n)).map (fun j => j.token)) .killedUpstream 28 (.refl _)).fsw i h0
  unfold killLost
  dsimp only
  generalize killJobs _ _ _ _ = u at hk ⊢
  split
  · exact hk
  · exact (cascade_bg _ (.refl u)).fsw i hk

theorem failBarriers_fsw (st : Status) (h : s.fc.fsw.getLsbD i = true) : (failBarriers s st).fc.fsw.getLsbD i = true := by
  unfold failBarriers
  dsimp only
  split
  · exact h
  · refine setSrc_mono _ 114 ?_
    rw [finishAll_keeps s State.fc (fun _ _ _ _ => rfl)]
    exact h

/-- A barrier that fails sets its source (R341). -/
theorem failBarriers_source (st : Status) (h : s.map.barriers ≠ []) : (failBarriers s st).fc.fsw.getLsbD 114 = true := by
  unfold failBarriers
  dsimp only
  rw [if_neg (by simpa using h)]
  exact setSrc_sets_bit _ (by decide) (by decide)

theorem tryDone_fsw (t : Word) (inp : Nat) (h : s.fc.fsw.getLsbD i = true) : (tryDone s t inp).fc.fsw.getLsbD i = true := by
  unfold tryDone
  split
  · exact h
  · split
    · exact (endJob_bg _ _ _ (.refl s)).fsw i h
    · exact h

theorem reissueOne_fsw (x : Word × Job) (h : s.fc.fsw.getLsbD i = true) : (reissueOne s x).fc.fsw.getLsbD i = true :=
  tryDone_fsw _ _ ((afterStand_bg (.refl _)).fsw i h)

theorem reissueJobs_fsw (h : s.fc.fsw.getLsbD i = true) : (reissueJobs s).fc.fsw.getLsbD i = true := by
  unfold reissueJobs
  split
  · generalize hu : ({ s with map := { s.map with reissue := [] } } : State) = u
    have hf : u.fc.fsw.getLsbD i = true := hu ▸ h
    clear hu h
    generalize s.map.reissue = l
    induction l generalizing u with
    | nil => exact hf
    | cons x l ih => exact ih _ (reissueOne_fsw x hf)
  · exact h

end

/-! ### A member lost -/

/-- The state with the loss announced: its source set, its entry and its ARRIVEs gone (R336, R339). -/
def lossNoted (s : State) (n : BitVec 16) : State :=
  let s1 := setSrc { s with
    map := { s.map with lost := satAdd 0xFF s.map.lost 1 }
    cmd := { s.cmd with lostEvt := s.cmd.lostEvt ++ [BitVec.ofNat 32 (n.toNat + 65536 * (linkOf s n).gen.toNat)] } } 113
  putLink { s1 with map := { s1.map with early := s1.map.early.filter (fun x => x.2.2.1 != n) } } (freshLink s1 n)

section
variable {s : State} {n : BitVec 16}

theorem memberLost_eq (h : (linkOf s n).gen ≠ 0) :
    memberLost s n = queueFrame (failBarriers (killLost (lossNoted s n) n) .peerLost) .lost n 0 0 [] := if_neg (by simpa using h)

/-- What a member's loss leaves of Mapin: nothing of it, no request to it, no barrier. -/
theorem linkSide_memberLost (h : (linkOf s n).gen ≠ 0) :
    linkSide (memberLost s n) = barriersFailed (reqsEnded (linkSide (lossNoted s n)) n) := by
  have hq (u : State) : linkSide (queueFrame u .lost n 0 0 []) = linkSide u := by
    unfold linkSide queueFrame hellos
    dsimp only
    rw [List.filter_append]
    exact congrArg (fun q => ({ u.map with waitQ := q, waitReqs := [], nextReq := 0, reissue := [] } : Mapin)) (List.append_nil _)
  rw [memberLost_eq h, hq, linkSide_failBarriers, linkSide_killLost]

theorem lossNoted_map : (lossNoted s n).map = { s.map with
    lost := satAdd 0xFF s.map.lost 1, early := s.map.early.filter (fun x => x.2.2.1 != n)
    links := freshLink s n :: s.map.links.filter (fun x => x.node != n) } := by
  have hf (u : State) (k : Nat) : freshLink (setSrc u k) n = freshLink u n := by
    unfold setSrc
    split <;> rfl
  unfold lossNoted putLink
  dsimp only
  rw [hf, setSrc_map]
  rfl

theorem memberLost_nodeId (h : (linkOf s n).gen ≠ 0) : (memberLost s n).map.nodeId = s.map.nodeId :=
  (congrArg Mapin.nodeId (linkSide_memberLost h) :).trans (congrArg Mapin.nodeId lossNoted_map :)

/-- The loss of a member clears its entry, ends the requests to it, fails every barrier and sets source 113 (R336, R341). -/
theorem memberLost_loses (hn : n ≠ s.map.nodeId) (h : (linkOf s n).gen ≠ 0) :
    entryIn (linkSide (memberLost s n)) n = 0
    ∧ (linkSide (memberLost s n)).lost = satAdd 0xFF s.map.lost 1
    ∧ (linkSide (memberLost s n)).reqs = s.map.reqs.filter (fun r => r.dst != n)
    ∧ (linkSide (memberLost s n)).timedOut = s.map.timedOut + (s.map.reqs.filter (fun r => r.dst == n)).length
    ∧ (linkSide (memberLost s n)).barriers = []
    ∧ (memberLost s n).fc.fsw.getLsbD 113 = true
    ∧ (s.map.barriers ≠ [] → (memberLost s n).fc.fsw.getLsbD 114 = true) := by
  have hside : linkSide (lossNoted s n) = { linkSide s with
      lost := satAdd 0xFF s.map.lost 1, early := s.map.early.filter (fun x => x.2.2.1 != n)
      links := freshLink s n :: s.map.links.filter (fun x => x.node != n) } := by
    rw [linkSide, lossNoted_map]
    rfl
  have hsrc : (lossNoted s n).fc.fsw.getLsbD 113 = true := setSrc_sets_bit _ (by decide) (by decide)
  have hbar : (killLost (lossNoted s n) n).map.barriers = s.map.barriers :=
    (congrArg Mapin.barriers (linkSide_killLost (lossNoted s n) n) :).trans (congrArg Mapin.barriers lossNoted_map :)
  rw [linkSide_memberLost h, hside, memberLost_eq h]
  refine ⟨?_, rfl, rfl, rfl, rfl, failBarriers_fsw _ (killLost_fsw hsrc), fun hb => failBarriers_source _ (hbar ▸ hb)⟩
  have hne : (n == s.map.nodeId) = false := beq_eq_false_iff_ne.2 hn
  have hfind : (freshLink s n :: s.map.links.filter (fun x => x.node != n)).find? (fun l => l.node == n) = some (freshLink s n) :=
    List.find?_cons_of_pos (by exact beq_self_eq_true n)
  refine (if_neg (by exact (Bool.eq_false_iff.1 hne))).trans ?_
  exact congrArg (fun o : Option MLink => (o.map MLink.gen).getD 0) hfind

end

/-! ### This node lost -/

/-- The link to a member starts afresh, with HELLO (R337). -/
def relinked (s : State) (n : BitVec 16) : State :=
  queueFrame (putLink s { freshLink s n with gen := (linkOf s n).gen, lastNs := (linkOf s n).lastNs, fresh := (linkOf s n).fresh })
    .hello n 0 (BitVec.ofNat 32 (myRank s)) []

/-- A new generation, no ARRIVE kept (R337). -/
def regenerated (s : State) : State :=
  { s with map := { s.map with gen := nextGen s.map.gen, early := [], cut := s.map.cut || s.sch.run == .running } }

theorem selfLost_eq (s : State) : selfLost s =
    reissueJobs (failBarriers ((peers s).foldl relinked ((peers s).foldl killLost (regenerated s))) .peerLost) := rfl

/-- What of Mapin says that a member is to be greeted over a fresh link. -/
def linkView (s : State) : List MLink × List MFrame := (s.map.links, hellos s.map.waitQ)

/-- A node's link is fresh, and HELLO to it waits. -/
def Afresh (n : BitVec 16) (s : State) : Prop :=
  ∃ l, (linkView s).1.find? (fun l => l.node == n) = some l ∧ l.txSeq = 0 ∧ l.unacked = []
    ∧ ∃ f ∈ (linkView s).2, f.typ = .hello ∧ f.dst = n

section
variable {s t : State} {n : BitVec 16}

theorem Afresh.congr (h : Afresh n s) (e : linkView t = linkView s) : Afresh n t := by
  unfold Afresh at h ⊢
  rwa [e]

theorem linkView_of_linkSide (e : linkSide t = linkSide s) : linkView t = linkView s :=
  congrArg (fun m : Mapin => (m.links, m.waitQ)) e

theorem Afresh.link (h : Afresh n s) : (linkOf s n).txSeq = 0 ∧ (linkOf s n).unacked = [] := by
  obtain ⟨l, hl, htx, hun, -⟩ := h
  have he : linkOf s n = l := congrArg (fun o : Option MLink => o.getD (freshLink s n)) hl
  rw [he]
  exact ⟨htx, hun⟩

theorem Afresh.hello (h : Afresh n s) : ∃ f ∈ s.map.waitQ, f.typ = .hello ∧ f.dst = n := by
  obtain ⟨-, -, -, -, f, hf, ht, hd⟩ := h
  exact ⟨f, (List.mem_filter.1 hf).1, ht, hd⟩

theorem linkView_relinked (m : BitVec 16) : linkView (relinked s m) =
    ({ freshLink s m with gen := (linkOf s m).gen, lastNs := (linkOf s m).lastNs, fresh := (linkOf s m).fresh }
      :: s.map.links.filter (fun x => x.node != m), hellos s.map.waitQ ++ [{
        typ := .hello, dst := m, lseq := 0, reqId := 0, arg := BitVec.ofNat 32 (myRank s), payload := [] }]) :=
  congrArg (Prod.mk _) (List.filter_append _ _)

theorem afresh_relinked_self : Afresh n (relinked s n) := by
  unfold Afresh
  rw [linkView_relinked]
  exact ⟨_, List.find?_cons_of_pos (by exact beq_self_eq_true n), rfl, rfl, _, List.mem_append_right _ List.mem_cons_self, rfl, rfl⟩

theorem Afresh.relinked (h : Afresh n s) (m : BitVec 16) : Afresh n (relinked s m) := by
  by_cases hm : n = m
  · exact hm ▸ afresh_relinked_self
  · obtain ⟨l, hl, htx, hun, f, hf, ht, hd⟩ := h
    unfold Afresh
    rw [linkView_relinked]
    refine ⟨l, ?_, htx, hun, f, List.mem_append_left _ hf, ht, hd⟩
    rw [List.find?_cons_of_neg (by simpa [freshLink] using Ne.symm hm), List.find?_filter]
    refine Eq.trans ?_ hl
    refine congrArg (fun p => s.map.links.find? p) (funext fun x => ?_)
    by_cases hx : x.node = n <;> simp [hx, hm]

theorem afresh_relinkAll {l : List (BitVec 16)} (hn : n ∈ l) : Afresh n (l.foldl relinked s) := by
  have hk : ∀ (l : List (BitVec 16)) (s : State), Afresh n s → Afresh n (l.foldl relinked s) := by
    intro l
    induction l with
    | nil => exact fun _ h => h
    | cons m l ih => exact fun s h => ih _ (h.relinked m)
  induction l generalizing s with
  | nil => exact absurd hn List.not_mem_nil
  | cons m l ih =>
    by_cases hm : n = m
    · subst hm
      exact hk l _ afresh_relinked_self
    · exact ih ((List.mem_cons.1 hn).resolve_left hm)

/-- What the loss of members leaves, a fold of such losses leaves. -/
theorem killAll_tells {β : Type} (g : Mapin → β) (hg : ∀ m n, g (reqsEnded m n) = g m) (l : List (BitVec 16)) (s : State) :
    g (linkSide (l.foldl killLost s)) = g (linkSide s) :=
  foldl_keeps (fun s => g (linkSide s)) killLost (fun s n => (congrArg g (linkSide_killLost s n)).trans (hg _ n)) l s

/-- No request to a node lost is left. -/
theorem killAll_reqs (l : List (BitVec 16)) (s : State) : ∀ r ∈ (l.foldl killLost s).map.reqs, r ∈ s.map.reqs ∧ r.dst ∉ l := by
  induction l generalizing s with
  | nil => exact fun r hr => ⟨hr, List.not_mem_nil⟩
  | cons n l ih =>
    intro r hr
    obtain ⟨h1, h2⟩ := ih (killLost s n) r hr
    have hk : (killLost s n).map.reqs = s.map.reqs.filter (fun r => r.dst != n) := congrArg Mapin.reqs (linkSide_killLost s n)
    rw [hk] at h1
    obtain ⟨h3, h4⟩ := List.mem_filter.1 h1
    exact ⟨h3, fun h => (List.mem_cons.1 h).elim (by simpa using h4) h2⟩

theorem relinkAll_tells {β : Type} (g : State → β) (hg : ∀ s n, g (relinked s n) = g s) (l : List (BitVec 16)) (s : State) :
    g (l.foldl relinked s) = g s := foldl_keeps g relinked hg l s

/-- LOST gives this node a new generation, ends every request and barrier, and starts each link afresh with HELLO (R337). -/
theorem selfLost_loses (s : State) : (linkSide (selfLost s)).gen = nextGen s.map.gen ∧ (linkSide (selfLost s)).barriers = []
    ∧ (∀ n ∈ peers s, Afresh n (selfLost s) ∧ ∀ r ∈ (linkSide (selfLost s)).reqs, r.dst ≠ n)
    ∧ (s.map.barriers ≠ [] → (selfLost s).fc.fsw.getLsbD 114 = true) := by
  rw [selfLost_eq]
  generalize hl : peers s = l
  generalize hu : l.foldl relinked (l.foldl killLost (regenerated s)) = u
  have hgen : u.map.gen = nextGen s.map.gen := by
    rw [← hu, relinkAll_tells (fun s => s.map.gen) (fun _ _ => rfl)]
    exact killAll_tells Mapin.gen (fun _ _ => rfl) l (regenerated s)
  have hbar : u.map.barriers = s.map.barriers := by
    rw [← hu, relinkAll_tells (fun s => s.map.barriers) (fun _ _ => rfl)]
    exact killAll_tells Mapin.barriers (fun _ _ => rfl) l (regenerated s)
  have hreqs : ∀ r ∈ u.map.reqs, r.dst ∉ l := by
    rw [← hu, relinkAll_tells (fun s => s.map.reqs) (fun _ _ => rfl)]
    exact fun r hr => (killAll_reqs l (regenerated s) r hr).2
  have hside : linkSide (reissueJobs (failBarriers u .peerLost)) = barriersFailed (linkSide u) := by
    rw [linkSide_reissueJobs, linkSide_failBarriers]
  have hview : linkView (reissueJobs (failBarriers u .peerLost)) = linkView u :=
    congrArg (fun m : Mapin => (m.links, m.waitQ)) hside
  refine ⟨?_, ?_, fun n hn => ⟨?_, ?_⟩, fun hb => reissueJobs_fsw (failBarriers_source _ (hbar ▸ hb))⟩
  · rw [hside]; exact hgen
  · rw [hside]; rfl
  · exact (hu ▸ afresh_relinkAll hn : Afresh n u).congr hview
  · rw [hside]
    exact fun r hr he => hreqs r hr (he ▸ hn)

end

end Sys2Proof.Proofs
end

section
/-! PROOFS. Mapin receiving (R328, R331, R332, R335): frames discarded, dropped, held and taken, LINK, HELLO; and the losses that it
and the timers declare (R333, R336, R337). -/

namespace Sys2Proof.Proofs

open Sys2Proof Sys2Proof.Machine Sys2Proof.Laws

/-! ### Frames discarded and dropped -/

section
variable (s : State)

theorem linkOf_setSrc (k : Nat) (n : BitVec 16) : linkOf (setSrc s k) n = linkOf s n := ite_keeps (fun u => linkOf u n) rfl rfl

theorem linkOf_badFrame (n : BitVec 16) : linkOf (badFrame s n) n = { linkOf s n with nak := true } := by
  have hl : linkOf (setSrc { s with map := { s.map with crc := satAdd 0xFFFF s.map.crc 1 } } 112) n = linkOf s n := linkOf_setSrc _ _ _
  unfold badFrame
  dsimp only
  rw [hl]
  exact linkOf_putLink_self _ (linkOf_node s n)

theorem badFrame_jobs (n : BitVec 16) : (badFrame s n).jobs = s.jobs := by rw [badFrame, putLink_jobs, setSrc_jobs]

theorem badFrame_sch (n : BitVec 16) : (badFrame s n).sch = s.sch := by rw [badFrame, putLink_sch, setSrc_sch]

/-- A message of a wrong generation is counted, with source 84 (R335). -/
theorem dropStale_counts : (dropStale s).fc.fsw.getLsbD 84 = true ∧ (dropStale s).map.stale = satAdd 0xFFFF s.map.stale 1
    ∧ (dropStale s).map.links = s.map.links ∧ (dropStale s).mem = s.mem ∧ (dropStale s).jobs = s.jobs := by
  refine ⟨setSrc_sets_bit _ (by decide) (by decide), ?_, ?_, ?_, ?_⟩
  · rw [dropStale, setSrc_map]
  · rw [dropStale, setSrc_map]
  · rw [dropStale, setSrc_mem]
  · rw [dropStale, setSrc_jobs]

end

/-! ### A message received -/

section
variable {s : State} {h : MHdr} {p : Nat} {m : MMsg} (hu : mapinUp s = true)
include hu

theorem receive_stale (hs : staleGen s h = true) : receive s h p m = settleUnits s (dropStale s) := by
  simp only [receive, hu, hs, Bool.not_true, Bool.false_eq_true, if_false, if_true]

section
variable (hs : staleGen s h = false)
include hs

theorem receive_stranger (hm : mayMsg s h.src m = false) : receive s h p m = settleUnits s s := by
  simp only [receive, hu, hs, hm, Bool.not_true, Bool.not_false, Bool.false_eq_true, if_false, if_true]

variable (hm : mayMsg s h.src m = true)
include hm

/-- A frame whose turn it is not waits, or is out of order. -/
theorem receive_unturned (hl : h.lseq ≠ (linkOf s h.src).rxSeq + 1) : receive s h p m = settleUnits s (
    if 1 < (bonded s).length ∧ (h.lseq - (linkOf s h.src).rxSeq).toNat < 2 ^ 31 ∧ h.lseq ≠ (linkOf s h.src).rxSeq
        ∧ (linkOf s h.src).held.any (fun y => y.h.lseq == h.lseq) = false then
      putLink (takeAcks s h) { linkOf (takeAcks s h) h.src with
        held := (linkOf (takeAcks s h) h.src).held ++ [{ h := h, m := m, port := p, at_ := now s }] }
    else badFrame s h.src) := by
  simp only [receive, hu, hs, hm, Bool.not_true, Bool.false_eq_true, if_false, beq_eq_false_iff_ne.2 hl, Bool.and_eq_true,
    decide_eq_true_eq, bne_iff_ne, Bool.not_eq_true', and_assoc]

/-- A frame whose turn it is is acted on, and those held after it. -/
theorem receive_turned (hl : h.lseq = (linkOf s h.src).rxSeq + 1) (hn : h.nak = false)
    (hc : (linkOf s h.src).free + h.credits ≤ allot s) : receive s h p m = settleUnits s (
      drain (linkOf s h.src).held.length h.src
        (onMsg (afterFrame s h m.len) { h := h, m := m, port := p, at_ := now s })) := by
  simp only [receive, hu, hs, hm, Bool.not_true, Bool.false_eq_true, if_false, if_true, hl, beq_self_eq_true, takeAcks_fit hn hc]
  exact congrArg (fun u => settleUnits s (drain _ h.src u)) (acceptMsg_afterAcks (s := s) ⟨h, m, p, now s⟩ rfl)

end

end

section
variable {s : State} {h : MHdr}

theorem linkOf_afterFrame (n : Nat) : linkOf (afterFrame s h n) h.src = { acked s h with
    rxSeq := h.lseq, owed := (linkOf s h.src).owed + (32 + n + 255) / 256 } := linkOf_putLink_self s (linkOf_node s h.src)

/-- A HELLO that is held is taken after the frame before it. -/
theorem drain_hello {t : State} {n : BitVec 16} {x : MHeld} (hh : (linkOf t n).held = [x])
    (hl : x.h.lseq = (linkOf t n).rxSeq + 1) (hm : x.m = .hello) :
    drain 1 n t = inOrder (putLink t { linkOf t n with held := [] }) x.h 0 := by
  have he : [x].erase x = [] := List.erase_cons_head _ _
  simp only [drain, hh, List.find?_cons, hl, beq_self_eq_true, he, acceptMsg, onMsg, hm, MMsg.len]

theorem mayMsg_member (hp : h.src ∈ peers s) (m : MMsg) : mayMsg s h.src m = true := by simp [mayMsg, hp]

end

/-! ### LINK and HELLO -/

section
variable {s : State} {h : MHdr}

theorem exec_mapinLink (hu : mapinUp s = true) (hs : staleGen s h = false) : exec (.mapinLink h) s =
    .next (settleUnits s (putLink (takeAcks s h) { linkOf (takeAcks s h) h.src with
      owed := (linkOf (takeAcks s h) h.src).owed + 1 })) := by
  have he : exec (.mapinLink h) s = .next (onLink s h) := rfl
  simp only [he, onLink, hu, hs, Bool.not_true, Bool.false_eq_true, if_false]

/-- A credit too many is a violation (R45, R332). -/
theorem takeAcks_excess (hn : h.nak = false) (hc : allot s < (linkOf s h.src).free + h.credits) :
    (takeAcks s h).fc.fsw.getLsbD 82 = true := by
  simp only [takeAcks, hn, Bool.false_eq_true, if_false, if_pos hc]
  exact setSrc_sets_bit _ (by decide) (by decide)

section
variable (hu : mapinUp s = true) (hp : h.src ∈ peers s) (hg : h.gen ≠ 0)
include hu hp hg

theorem exec_mapinHello_same (he : genEntry s h.src = h.gen) :
    exec (.mapinHello h) s = .next (receive s h (firstPort s) .hello) := by
  refine congrArg Host.Outcome.next ((if_neg (by simpa [hu, hp] using hg)).trans ?_)
  exact if_pos (by simp [he])

theorem exec_mapinHello_new (he : genEntry s h.src ≠ h.gen) : exec (.mapinHello h) s =
    .next (settleUnits s (takeHello (if genEntry s h.src == 0 then s else memberLost s h.src) h)) := by
  refine congrArg Host.Outcome.next ((if_neg (by simpa [hu, hp] using hg)).trans ?_)
  exact if_neg (by simpa using he)

end

/-- The link that begins with a HELLO (R335). -/
def helloLink (s : State) (h : MHdr) : MLink :=
  { freshLink s h.src with gen := h.gen, rxSeq := h.lseq, owed := 1, fresh := (linkOf s h.src).fresh || s.sch.run == .running }

/-- The state with the entry taken, before jobs are issued again. -/
def helloTaken (s : State) (h : MHdr) : State :=
  { putLink s (helloLink s h) with map := { (putLink s (helloLink s h)).map with
    everFormed := s.map.everFormed || formed (putLink s (helloLink s h)) } }

theorem takeHello_eq : takeHello s h = reissueJobs (helloTaken s h) := rfl

theorem linkOf_helloTaken : linkOf (helloTaken s h) h.src = helloLink s h := linkOf_putLink_self s (l := helloLink s h) rfl

theorem linkOf_helloTaken_ne {n : BitVec 16} (hn : n ≠ h.src) : linkOf (helloTaken s h) n = linkOf s n :=
  linkOf_putLink_ne s (l := helloLink s h) hn

/-- With no job to be issued again, nothing else comes of the entry. -/
theorem reissueJobs_none {u : State} (hr : u.map.reissue = []) : reissueJobs u = u := by
  have hu : ({ u with map := { u.map with reissue := [] } } : State) = u := by rw [← hr]
  unfold reissueJobs
  split
  · rw [hr, List.foldl_nil]
    exact hu
  · rfl

/-- A HELLO gives its member the entry (R335). -/
theorem genEntry_takeHello (hp : h.src ≠ s.map.nodeId) : genEntry (takeHello s h) h.src = h.gen := by
  rw [takeHello_eq, genEntry_congr (linkSide_reissueJobs _), genEntry_of_ne (s := helloTaken s h) hp, linkOf_helloTaken]
  rfl

end

/-! ### Losses declared -/

section
variable {s : State} {n : BitVec 16}

theorem linkOf_gen_passTo (t : Nat) (n : BitVec 16) (hn : n ≠ s.map.nodeId) : (linkOf (passTo s t) n).gen = (linkOf s n).gen := by
  have hm : linkSide (passTo s t) = linkSide s := by simp only [linkSide, passTo_map]
  rw [← genEntry_of_ne hn, ← genEntry_of_ne (s := passTo s t) (by rwa [passTo_map]), genEntry_congr hm]

theorem exec_mapinMemberSilent (hp : s.rst.pairB = false) (hn : n ∈ peers s) (hg : genEntry s n ≠ 0) :
    exec (.mapinMemberSilent n) s =
      .next (settleUnits s (memberLost (passTo s ((linkOf s n).lastNs + s.map.reqTimeout)) n)) :=
  congrArg Host.Outcome.next (if_neg (by simpa [hp, hn] using hg))

theorem exec_mapinMemberSilent_idle (h : s.rst.pairB = true ∨ n ∉ peers s ∨ genEntry s n = 0) :
    exec (.mapinMemberSilent n) s = .next s := by
  refine congrArg Host.Outcome.next (if_pos ?_)
  rcases h with h | h | h <;> simp [h]

theorem exec_mapinReqTimeout {id : Word} {r : MReq} (hr : s.map.reqs.find? (fun r => r.id == id) = some r)
    (hp : s.rst.pairB = false) : exec (.mapinReqTimeout id) s = .next (settleUnits s (
      if genEntry (passTo s (r.sentNs + s.map.reqTimeout)) r.dst == 0 then killLost (passTo s (r.sentNs + s.map.reqTimeout)) r.dst
      else memberLost (passTo s (r.sentNs + s.map.reqTimeout)) r.dst)) := by
  have he : exec (.mapinReqTimeout id) s = execMapinReqTimeout id s := rfl
  simp only [he, execMapinReqTimeout, hr, hp, Bool.false_eq_true, if_false]

theorem exec_mapinLost {h : MHdr} (hu : mapinUp s = true) (hs : staleGen s h = false) (hg : h.src ∈ groupOf s) :
    exec (.mapinLost h) s = .next (settleUnits s (selfLost (inOrder s h 0))) := by
  refine congrArg Host.Outcome.next ((if_neg (by simp [hu])).trans (congrArg (settleUnits s) (if_neg ?_)))
  simp [hs, hg]

/-- A request that times out ends all requests to its node; a member is lost with it (R333, R336). -/
theorem reqTimeout_loses {u : State} (hn : n ≠ u.map.nodeId) : ∃ t : State,
    (if genEntry u n == 0 then killLost u n else memberLost u n) = t
    ∧ (linkSide t).reqs = u.map.reqs.filter (fun r => r.dst != n)
    ∧ (linkSide t).timedOut = u.map.timedOut + (u.map.reqs.filter (fun r => r.dst == n)).length
    ∧ entryIn (linkSide t) n = 0 ∧ (genEntry u n ≠ 0 → t.fc.fsw.getLsbD 113 = true) := by
  by_cases hg : genEntry u n = 0
  · have hk := linkSide_killLost u n
    refine ⟨_, if_pos (by simp [hg]), by rw [hk]; rfl, by rw [hk]; rfl, ?_, fun h => absurd hg h⟩
    rw [hk]
    exact (genEntry_eq u n).symm.trans hg
  · obtain ⟨h1, -, h3, h4, -, h6, -⟩ := memberLost_loses hn (genEntry_of_ne hn ▸ hg)
    exact ⟨_, if_neg (by simpa using hg), h3, h4, h1, fun _ => h6⟩

/-- No request to a node stands among those of other nodes. -/
theorem dst_ne_of_mem_filter {l : List MReq} : ∀ r ∈ l.filter (fun r => r.dst != n), r.dst ≠ n := by
  intro r hr
  simpa using (List.mem_filter.1 hr).2

end

/-! ### The clauses on messages -/

section
variable {s : State} {h : MHdr} {a : Nat} {d : List Byte}

/-- A message out of order is discarded, a NAK owed (R331). -/
theorem writeReq_outOfOrder (hu : mapinUp s = true) (hs : staleGen s h = false) (hp : h.src ∈ peers s)
    (hl : h.lseq ≠ (linkOf s h.src).rxSeq + 1)
    (ho : (bonded s).length ≤ 1 ∨ 2 ^ 31 ≤ (h.lseq - (linkOf s h.src).rxSeq).toNat ∨ h.lseq = (linkOf s h.src).rxSeq) :
    exec (.mapinWriteReq h a d) s = .next (settleUnits s (badFrame s h.src)) := by
  refine congrArg Host.Outcome.next ((receive_unturned hu hs (mayMsg_member hp _) hl).trans ?_)
  rw [if_neg]
  rintro ⟨h1, h2, h3, -⟩
  rcases ho with ho | ho | ho
  · omega
  · exact absurd h2 (Nat.not_lt.2 ho)
  · exact h3 ho

/-- A message ahead of its turn waits, its acknowledgements taken (R331). -/
theorem writeReq_held (hu : mapinUp s = true) (hs : staleGen s h = false) (hp : h.src ∈ peers s)
    (hl : h.lseq ≠ (linkOf s h.src).rxSeq + 1) (hb : 1 < (bonded s).length)
    (hd : (h.lseq - (linkOf s h.src).rxSeq).toNat < 2 ^ 31) (hne : h.lseq ≠ (linkOf s h.src).rxSeq)
    (hh : (linkOf s h.src).held = []) (hn : h.nak = false) (hc : (linkOf s h.src).free + h.credits ≤ allot s) :
    exec (.mapinWriteReq h a d) s = .next (settleUnits s (putLink (putLink s (acked s h)) { acked s h with
      held := [{ h := h, m := .writeReq a d, port := firstPort s, at_ := now s }] })) := by
  refine congrArg Host.Outcome.next ((receive_unturned hu hs (mayMsg_member hp _) hl).trans ?_)
  have hk : (acked s h).held = [] := hh
  rw [if_pos ⟨hb, hd, hne, by rw [hh]; rfl⟩, takeAcks_fit hn hc, linkOf_putLink_self s acked_node, hk, List.nil_append]

end

/-- The state once a HELLO that was held is taken after the frame before it. -/
def heldTaken (s : State) (h : MHdr) (x : MHeld) : State :=
  inOrder (putLink (afterFrame s h 0) { linkOf (afterFrame s h 0) h.src with held := [] }) x.h 0

theorem linkOf_heldTaken {s : State} {h : MHdr} {x : MHeld} (hx : x.h.src = h.src) : linkOf (heldTaken s h x) h.src =
    { linkOf (afterFrame s h 0) h.src with
      held := [], rxSeq := x.h.lseq, owed := (linkOf (afterFrame s h 0) h.src).owed + (32 + 0 + 255) / 256 } := by
  have hin : linkOf (putLink (afterFrame s h 0) { linkOf (afterFrame s h 0) h.src with held := [] }) h.src = _ :=
    linkOf_putLink_self _ (linkOf_node _ h.src)
  unfold heldTaken inOrder
  dsimp only
  rw [hx, hin]
  exact linkOf_putLink_self _ (linkOf_node (afterFrame s h 0) h.src)

/-- A HELLO of the entry's generation, with another held after it, takes both (R331). -/
theorem hello_thenHeld {s : State} {h : MHdr} {x : MHeld} (hu : mapinUp s = true) (hp : h.src ∈ peers s)
    (hs : staleGen s h = false) (he : genEntry s h.src = h.gen) (hg : h.gen ≠ 0) (hn : h.nak = false)
    (hc : (linkOf s h.src).free + h.credits ≤ allot s) (hl : h.lseq = (linkOf s h.src).rxSeq + 1)
    (hh : (linkOf s h.src).held = [x]) (hxl : x.h.lseq = h.lseq + 1) (hm : x.m = .hello) :
    exec (.mapinHello h) s = .next (settleUnits s (heldTaken s h x)) := by
  have hlink := linkOf_afterFrame (s := s) (h := h) 0
  have hd : drain 1 h.src (afterFrame s h 0) = heldTaken s h x :=
    drain_hello (by rw [hlink]; exact hh) (by rw [hlink]; exact hxl) hm
  rw [exec_mapinHello_same hu hp hg he, receive_turned hu hs (mayMsg_member hp _) hl hn hc, hh]
  exact congrArg (fun u => Host.Outcome.next (settleUnits s u)) hd

/-- LINK brings its acknowledgements and credits, and leaves the buffer at once: its own credit is owed (R331, R332). -/
theorem link_taken {s : State} {h : MHdr} (hu : mapinUp s = true) (hs : staleGen s h = false) (hn : h.nak = false)
    (hc : (linkOf s h.src).free + h.credits ≤ allot s) : exec (.mapinLink h) s =
      .next (settleUnits s (putLink s { acked s h with owed := (linkOf s h.src).owed + 1 })) := by
  rw [exec_mapinLink hu hs, takeAcks_fit hn hc, linkOf_putLink_self s acked_node]
  exact congrArg (fun u => Host.Outcome.next (settleUnits s u)) (putLink_putLink s (by rfl))

/-- Settles O53: receipt by the `receive_` lemmas, losses by `memberLost_loses`, `reqTimeout_loses` and `selfLost_loses`. -/
theorem mapinReceivesAndLosses : Obligations.MapinReceivesAndLosses := by
  refine ⟨⟨fun s n hu => ?_, fun s h a d hu => ⟨fun hs => ?_, fun hs hp => ?_, fun hs hp hl ho => ?_,
    fun hs hp hl hb hd hne hh hn hc => ?_⟩, fun s h x hu hp hs he hg hn hc hl hh hx hxl hm =>
      ⟨_, hello_thenHeld hu hp hs he hg hn hc hl hh hxl hm, ?_, ?_, rfl, rfl⟩,
    fun s h l hu hs hn hl => ⟨fun hc => ?_, fun hc => ?_⟩,
    fun s h hu hp hg => ⟨fun he hf => ?_, fun he hr => ?_, fun h0 hne => ?_⟩⟩, fun s n hp hn hg => ?_,
    fun s n h => exec_mapinMemberSilent_idle h, fun s id r hr hp hn => ?_, fun s h hu hs hg => ?_⟩
  · obtain ⟨h1, h2, h3⟩ := badFrame_counts s n
    exact ⟨_, congrArg Host.Outcome.next (if_pos hu), h2, h1, linkOf_badFrame s n, h3, badFrame_jobs s n, badFrame_sch s n⟩
  · exact ⟨_, congrArg Host.Outcome.next (receive_stale hu hs), dropStale_counts s⟩
  · exact congrArg Host.Outcome.next (receive_stranger hu hs (by simp [mayMsg, hp]))
  · obtain ⟨h1, -, h3⟩ := badFrame_counts s h.src
    exact ⟨_, writeReq_outOfOrder hu hs hp hl ho, h1, linkOf_badFrame s h.src, h3, badFrame_jobs s h.src⟩
  · refine ⟨_, writeReq_held hu hs hp hl hb hd hne hh hn hc, rfl, rfl, rfl, ?_, ?_⟩
    · rw [linkOf_putLink_self _ (by exact acked_node)]
      rfl
    · rw [linkOf_putLink_self _ (by exact acked_node)]
  · rw [linkOf_heldTaken hx]
    exact hxl
  · rw [linkOf_heldTaken hx]
  · subst hl
    exact link_taken hu hs hn hc
  · subst hl
    exact ⟨_, exec_mapinLink hu hs, settleUnits_fsw _ _ (takeAcks_excess hn hc)⟩
  · exact (exec_mapinHello_same hu hp hg he).trans (congrArg _ (receive_framed hf _ _))
  · have ht : takeHello s h = helloTaken s h := takeHello_eq.trans (reissueJobs_none hr)
    refine ⟨helloTaken s h, ?_, ht ▸ genEntry_takeHello (ne_of_mem_peers hp), ?_, ?_, ?_, ?_,
      fun n hn => linkOf_helloTaken_ne hn, rfl, rfl, rfl⟩
    · rw [exec_mapinHello_new hu hp hg (by rw [he]; exact hg.symm), he, ← ht]
      rfl
    all_goals rw [linkOf_helloTaken]; rfl
  · have hn := ne_of_mem_peers hp
    obtain ⟨-, -, -, -, -, h6, -⟩ := memberLost_loses hn (genEntry_of_ne hn ▸ h0)
    have hnode : (memberLost s h.src).map.nodeId = s.map.nodeId := memberLost_nodeId (genEntry_of_ne hn ▸ h0)
    refine ⟨_, (exec_mapinHello_new hu hp hg hne).trans (by rw [if_neg (by simpa using h0)]), ?_, ?_⟩
    · rw [genEntry_congr (linkSide_settleUnits _ _)]
      exact genEntry_takeHello (hnode ▸ hn)
    · exact settleUnits_fsw _ _ (reissueJobs_fsw (by exact h6))
  · have hne := ne_of_mem_peers hn
    generalize hu : passTo s ((linkOf s n).lastNs + s.map.reqTimeout) = u
    have hm : u.map = s.map := by rw [← hu, passTo_map]
    have hgu : (linkOf u n).gen ≠ 0 := by
      rw [← hu, linkOf_gen_passTo _ _ hne, ← genEntry_of_ne hne]
      exact hg
    obtain ⟨h1, h2, h3, -, h5, h6, h7⟩ := memberLost_loses (s := u) (hm ▸ hne) hgu
    have hs := linkSide_settleUnits (memberLost u n) s
    rw [hm] at h2 h3 h7
    refine ⟨_, (exec_mapinMemberSilent hp hn hg).trans (by rw [hu]), ?_, settleUnits_fsw _ _ h6,
      (congrArg Mapin.lost hs).trans h2, ?_, (congrArg Mapin.barriers hs).trans h5, fun hb => settleUnits_fsw _ _ (h7 hb)⟩
    · rw [genEntry_eq, hs, h1]
    · have hreqs : (settleUnits s (memberLost u n)).map.reqs = _ := (congrArg Mapin.reqs hs : _).trans h3
      rw [hreqs]
      exact dst_ne_of_mem_filter
  · generalize hu : passTo s (r.sentNs + s.map.reqTimeout) = u
    have hm : u.map = s.map := by rw [← hu, passTo_map]
    obtain ⟨t, ht, h1, h2, h3, h4⟩ := reqTimeout_loses (u := u) (n := r.dst) (by rwa [hm])
    have hs := linkSide_settleUnits t s
    rw [hm] at h1 h2
    refine ⟨settleUnits s t, (exec_mapinReqTimeout hr hp).trans (by rw [hu, ht]), ?_, (congrArg Mapin.timedOut hs).trans h2, ?_,
      fun hg => settleUnits_fsw _ _ (h4 ?_)⟩
    · have hreqs : (settleUnits s t).map.reqs = _ := (congrArg Mapin.reqs hs : _).trans h1
      rw [hreqs]
      exact dst_ne_of_mem_filter
    · rw [genEntry_eq, hs, h3]
    · rw [genEntry_of_ne (s := u) (by rwa [hm]), ← hu, linkOf_gen_passTo _ _ hn, ← genEntry_of_ne hn]
      exact hg
  · obtain ⟨h1, h2, h3, h4⟩ := selfLost_loses (inOrder s h 0)
    have hside := linkSide_settleUnits (selfLost (inOrder s h 0)) s
    refine ⟨_, exec_mapinLost hu hs hg, (congrArg Mapin.gen hside).trans h1, (congrArg Mapin.barriers hside).trans h2, fun n hn => ?_,
      fun hb => settleUnits_fsw _ _ (h4 hb)⟩
    obtain ⟨ha, hr⟩ := h3 n hn
    have ha' := ha.congr (linkView_of_linkSide hside)
    exact ⟨ha'.link.1, ha'.link.2, fun r hrt => hr r (congrArg Mapin.reqs hside ▸ hrt), ha'.hello⟩

end Sys2Proof.Proofs
end

section
/-! PROOFS. The invariant (R220, R221, R369): what `Keeps` says of every command, and with it of every step. -/

namespace Sys2Proof.Proofs

open Sys2Proof Sys2Proof.Machine

/-- The lemma of each command, for the command that the dispatch names. -/
theorem exec_keeps (c : Instr) (s : State) : ∃ t, exec c s = .next t ∧ Keeps s t :=
  match c with
  | .echo k => execEcho_keeps k s
  | .getInfo k => execGetInfo_keeps k s
  | .getStatus k => execGetStatus_keeps k s
  | .loadFirmware k => execLoadFirmware_keeps k s
  | .firmwareLoadDone ups ecc => execFirmwareLoadDone_keeps ups ecc s
  | .fuseProgrammingDone => execFuseProgrammingDone_keeps s
  | .loadObject k => execLoadObject_keeps k s
  | .verifyObject k => execVerifyObject_keeps k s
  | .verifyObjectDone slot ecc => execVerifyObjectDone_keeps slot ecc s
  | .commitShadow k => execCommitShadow_keeps k s
  | .commitShadowDone slot ecc => execCommitShadowDone_keeps slot ecc s
  | .swapSets k => execSwapSets_keeps k s
  | .readSetInfo k ecc => execReadSetInfo_keeps k ecc s
  | .runCtlStart k => execRunCtlStart_keeps k s
  | .runCtlStop k => execRunCtlStop_keeps k s
  | .runCtlStartGroup k => execRunCtlStartGroup_keeps k s
  | .runCtlJoin k idle => execRunCtlJoin_keeps k idle s
  | .runCtlRearm k => execRunCtlRearm_keeps k s
  | .runJob k t4 ecc => execRunJob_keeps k t4 ecc s
  | .abortJob k => execAbortJob_keeps k s
  | .queryJob k => execQueryJob_keeps k s
  | .kvMap k ecc => execKvMap_keeps k ecc s
  | .kvUnmap k ecc => execKvUnmap_keeps k ecc s
  | .kvEdit k ecc => execKvEdit_keeps k ecc s
  | .timeSet k => execTimeSet_keeps k s
  | .timeAdj k => execTimeAdj_keeps k s
  | .triggerCfg k => execTriggerCfg_keeps k s
  | .scrubRange k => execScrubRange_keeps k s
  | .readFaults k => execReadFaults_keeps k s
  | .clearFaults k => execClearFaults_keeps k s
  | .runSelftest k => execRunSelftest_keeps k s
  | .loadTestPack k => execLoadTestPack_keeps k s
  | .resetDomain k => execResetDomain_keeps k s
  | .guiltReplay k => execGuiltReplay_keeps k s
  | .attest k => execAttest_keeps k s
  | .getCerts k => execGetCerts_keeps k s
  | .recordCtlStart k => execRecordCtlStart_keeps k s
  | .recordCtlStop k => execRecordCtlStop_keeps k s
  | .recordCtlQuery k => execRecordCtlQuery_keeps k s
  | .replayCtlStart k ecc => execReplayCtlStart_keeps k ecc s
  | .replayCtlStop k => execReplayCtlStop_keeps k s
  | .replayCtlQuery k => execReplayCtlQuery_keeps k s
  | .packetWordWrite p idx w => execPacketWordWrite_keeps p idx w s
  | .sspShortTransaction => execSspShortTransaction_keeps s
  | .replyBufferRead p idx framing => execReplyBufferRead_keeps p idx framing s
  | .faultEvent p => execFaultEvent_keeps p s
  | .announce => execAnnounce_keeps s
  | .peerLostEvent => execPeerLostEvent_keeps s
  | .verdictEvent => execVerdictEvent_keeps s
  | .commandTimeout p => execCommandTimeout_keeps p s
  | .cmdDrUpdate framing w => execCmdDrUpdate_keeps framing w s
  | .frameStart => execFrameStart_keeps s
  | .schedulerWatchdog => execSchedulerWatchdog_keeps s
  | .outCommit => execOutCommit_keeps s
  | .slackStart ecc => execSlackStart_keeps ecc s
  | .reservationOpen job => execReservationOpen_keeps job s
  | .jobStart job => execJobStart_keeps job s
  | .jobDeadline job => execJobDeadline_keeps job s
  | .jobBudgetExpire token => execJobBudgetExpire_keeps token s
  | .runJobTimeout token => execRunJobTimeout_keeps token s
  | .tileDispatch e e2 => execTileDispatch_keeps e e2 s
  | .tileDrainEnd e cycles upsets errs => execTileDrainEnd_keeps e cycles upsets errs s
  | .operandPoisonConsumed e => execOperandPoisonConsumed_keeps e s
  | .taskEnd e cycles upsets errs => execTaskEnd_keeps e cycles upsets errs s
  | .attentionTaskEnd e cycles upsets errs ecc => execAttentionTaskEnd_keeps e cycles upsets errs ecc s
  | .fallbackDecision token layer ecc => execFallbackDecision_keeps token layer ecc s
  | .completionRecordCollect input => execCompletionRecordCollect_keeps input s
  | .completionRecordConsume ecc => execCompletionRecordConsume_keeps ecc s
  | .walkLockGrant seqId ecc => execWalkLockGrant_keeps seqId ecc s
  | .pageFetchDone seqId entry ecc cs => execPageFetchDone_keeps seqId entry ecc cs s
  | .pageSpillDone seqId entry ecc cs => execPageSpillDone_keeps seqId entry ecc cs s
  | .streamResume e ecc => execStreamResume_keeps e ecc s
  | .ringShiftStart => execRingShiftStart_keeps s
  | .ringShiftEnd ecc => execRingShiftEnd_keeps ecc s
  | .residentLoadDone ecc => execResidentLoadDone_keeps ecc s
  | .fabricTimeout req => execFabricTimeout_keeps req s
  | .lateResponse req => execLateResponse_keeps req s
  | .creditEpochCheck pool => execCreditEpochCheck_keeps pool s
  | .scrubPassResume => execScrubPassResume_keeps s
  | .scrubUnitCheck ecc => execScrubUnitCheck_keeps ecc s
  | .bar2Write off bytes ecc => execBar2Write_keeps off bytes ecc s
  | .bar4Write off bytes ecc => execBar4Write_keeps off bytes ecc s
  | .barMemoryRead bar4 off len ecc => execBarMemoryRead_keeps bar4 off len ecc s
  | .dramApertureHiWrite w => execDramApertureHiWrite_keeps w s
  | .bar0UnassignedAccess off write => execBar0UnassignedAccess_keeps off write s
  | .registerWrite off be w who also => execRegisterWrite_keeps off be w who also s
  | .rcRegisterRead off who => execRcRegisterRead_keeps off who s
  | .tbNsRead => execTbNsRead_keeps s
  | .ptpTxNsRead mac => execPtpTxNsRead_keeps mac s
  | .addendHiWrite w => execAddendHiWrite_keeps w s
  | .servoCtrlWrite w => execServoCtrlWrite_keeps w s
  | .capPop w => execCapPop_keeps w s
  | .nodeIdWrite w => execNodeIdWrite_keeps w s
  | .cciGo port w => execCciGo_keeps port w s
  | .cciDone port nack bytes => execCciDone_keeps port nack bytes s
  | .cciTimeout port => execCciTimeout_keeps port s
  | .servoSample e => execServoSample_keeps e s
  | .servoSampleTimeout => execServoSampleTimeout_keeps s
  | .ptpMessageReceive m h => execPtpMessageReceive_keeps m h s
  | .ptpSyncInterval => execPtpSyncInterval_keeps s
  | .ppsInEdge rising => execPpsInEdge_keeps rising s
  | .capEdge ch => execCapEdge_keeps ch s
  | .triggerFire ch => execTriggerFire_keeps ch s
  | .fsyncPulseEnd n => execFsyncPulseEnd_keeps n s
  | .ppsOutEnd => execPpsOutEnd_keeps s
  | .csi2FrameStart port vc => execCsi2FrameStart_keeps port vc s
  | .csi2Line port vc dt hdr crcOk payload ovr lb word => execCsi2Line_keeps port vc dt hdr crcOk payload ovr lb word s
  | .csi2FrameEnd port vc ecc => execCsi2FrameEnd_keeps port vc ecc s
  | .ethFrameReceive mac fcsOk bytes => execEthFrameReceive_keeps mac fcsOk bytes s
  | .ethTimeClose stream => execEthTimeClose_keeps stream s
  | .sensorFrameComplete stream => execSensorFrameComplete_keeps stream s
  | .txForwardPacket port dt fits payload => execTxForwardPacket_keeps port dt fits payload s
  | .replayInject ecc => execReplayInject_keeps ecc s
  | .spLinkChange port up gear => execSpLinkChange_keeps port up gear s
  | .ethLinkChange mac up => execEthLinkChange_keeps mac up s
  | .mapinHello h => execMapinHello_keeps h s
  | .mapinLink h => execMapinLink_keeps h s
  | .mapinWriteReq h addr data => execMapinWriteReq_keeps h addr data s
  | .mapinWriteReply h => execMapinWriteReply_keeps h s
  | .mapinReadReq h addr ecc => execMapinReadReq_keeps h addr ecc s
  | .mapinReadReply h data poisoned => execMapinReadReply_keeps h data poisoned s
  | .mapinArrive h seq sec ns => execMapinArrive_keeps h seq sec ns s
  | .mapinRelease h seq sec ns => execMapinRelease_keeps h seq sec ns s
  | .mapinTimeReq h => execMapinTimeReq_keeps h s
  | .mapinTimeResp h t2 t3 => execMapinTimeResp_keeps h t2 t3 s
  | .mapinLost h => execMapinLost_keeps h s
  | .mapinBadFrame src => execMapinBadFrame_keeps src s
  | .mapinFrameSend dst ecc => execMapinFrameSend_keeps dst ecc s
  | .mapinResendTimeout dst => execMapinResendTimeout_keeps dst s
  | .mapinLinkKeepalive dst => execMapinLinkKeepalive_keeps dst s
  | .mapinTimeReqInterval => execMapinTimeReqInterval_keeps s
  | .mapinReqTimeout reqId => execMapinReqTimeout_keeps reqId s
  | .mapinMemberSilent node => execMapinMemberSilent_keeps node s
  | .barrierTimeout => execBarrierTimeout_keeps s
  | .ruleEvaluate n => execRuleEvaluate_keeps n s
  | .evidenceCopy n ecc => execEvidenceCopy_keeps n ecc s
  | .mirrorRecordBin => execMirrorRecordBin_keeps s
  | .verdictWrite => execVerdictWrite_keeps s
  | .trustLeaseExpire => execTrustLeaseExpire_keeps s
  | .safeToggle => execSafeToggle_keeps s
  | .safeMonitorTrip => execSafeMonitorTrip_keeps s
  | .katSliceStart e => execKatSliceStart_keeps e s
  | .katSliceEnd e cycles lanes flips errs => execKatSliceEnd_keeps e cycles lanes flips errs s
  | .hangOverrun e => execHangOverrun_keeps e s
  | .hangNoAck e => execHangNoAck_keeps e s
  | .domainResetComplete => execDomainResetComplete_keeps s
  | .resetStepTimeout => execResetStepTimeout_keeps s
  | .chipWarmReset => execChipWarmReset_keeps s
  | .warmResetDone ups ecc => execWarmResetDone_keeps ups ecc s
  | .controlPairMismatch pairB => execControlPairMismatch_keeps pairB s
  | .headlandLockstepFault corrected => execHeadlandLockstepFault_keeps corrected s
  | .voltageMonitorTrip rail collapsed => execVoltageMonitorTrip_keeps rail collapsed s
  | .clockMonitorTrip k => execClockMonitorTrip_keeps k s
  | .refclkEthLoss => execRefclkEthLoss_keeps s
  | .tempWarning celsius => execTempWarning_keeps celsius s
  | .tempShutdown => execTempShutdown_keeps s
  | .flowOkLow low => execFlowOkLow_keeps low s
  | .tamperTrip k => execTamperTrip_keeps k s
  | .pcieAerError uncorrectable => execPcieAerError_keeps uncorrectable s
  | .powerOn => execPowerOn_keeps s
  | .powerLoss => execPowerLoss_keeps s
  | .resetNPulse ns => execResetNPulse_keeps ns s
  | .resetRelease refSysPresent => execResetRelease_keeps refSysPresent s
  | .dramTrainingDone failed => execDramTrainingDone_keeps failed s
  | .memoryFillDone => execMemoryFillDone_keeps s
  | .startupInjectionDone failed badEngines => execStartupInjectionDone_keeps failed badEngines s
  | .perstNChange low => execPerstNChange_keeps low s
  | .jtagInstructionUpdate code tapReset => execJtagInstructionUpdate_keeps code tapReset s
  | .tokenDrWord w => execTokenDrWord_keeps w s
  | .debugUnlock => execDebugUnlock_keeps s
  | .lcAdvance => execLcAdvance_keeps s
  | .addOwner => execAddOwner_keeps s
  | .loadTestPackDone ecc => execLoadTestPackDone_keeps ecc s
  | .fabricResponse req ecc also => execFabricResponse_keeps req ecc also s
  | .secondsCarry => execSecondsCarry_keeps s
  | .pcieLinkChange up speed width reversed => execPcieLinkChange_keeps up speed width reversed s
  | .pcieConfigWrite c => execPcieConfigWrite_keeps c s
/-- A step takes the command at the front of the queue, or passes one CLK_PER cycle (R311); what is left of the queue is
all that differs of what `Keeps` compares. -/
theorem step_keeps {s t : State} (h : step s = .next t) : Keeps { s with pending := s.pending.tail } t := by
  obtain ⟨pending⟩ := s
  cases pending with
  | nil => exact Host.Outcome.next.inj h ▸ idleTick_keeps (Keeps.refl _)
  | cons c rest =>
    obtain ⟨u, hu, hk⟩ := exec_keeps c (State.mk rest ..)
    exact Host.Outcome.next.inj (hu.symm.trans h) ▸ hk

theorem inv_iff {s : State} : Machine.Inv s = true ↔
    s.mem.wf = true ∧ s.hl.mem.wf = true ∧ safeOk s = true ∧ poolsFit s.cr.pools = true := by
  simp only [Machine.Inv, Bool.and_eq_true, and_assoc]

/-- Settles O3: each part of the invariant is one that `Keeps` carries over a step. -/
theorem stepKeepsInv : Obligations.StepKeepsInv := by
  unfold Obligations.StepKeepsInv
  intro s t hinv hstep
  obtain ⟨hmem, hhl, hsafe, hpools⟩ := inv_iff.1 hinv
  have hk := step_keeps hstep
  exact inv_iff.2 ⟨hk.mem hmem, hk.hl hhl, hk.safe hsafe, hk.pools hpools⟩

/-- Settles O5: both memories and the list of pools are empty after reset, and the SAFE outputs are low. -/
theorem resetMeetsInv : Obligations.ResetMeetsInv := inv_iff.2 ⟨rfl, rfl, rfl, rfl⟩

end Sys2Proof.Proofs
end

section
/-! PROOFS. What the ends of jobs (R34, R421) and the reaction to a fatal source (R410) leave of the safety logic (R365 to R386): the
counts of slices, test packs, quarantine, rotations and the lease. -/

namespace Sys2Proof.Proofs

open Sys2Proof Sys2Proof.Machine Sys2Proof.Laws

/-! ### Ends of jobs -/

/-- An engine apart from what it holds and stages for jobs. -/
def slices (x : Engine) : Engine := { x with arr := none, drn := none, stg := none, prev := none }

/-- The safety logic, the pins, Headland, and the engines' slices. -/
def safeSide (s : State) := (s.saf, s.pins, s.hl, s.eng.map slices)

section
variable (s : State)

theorem safeSide_setSrc (n : Nat) : safeSide (setSrc s n) = safeSide s := by
  unfold setSrc
  split <;> rfl

theorem safeSide_giveOne (src : Nat) (k : PoolKind) (i : Nat) (ep : Bool) : safeSide (giveOne s src k i ep) = safeSide s :=
  ite_keeps safeSide rfl (safeSide_setSrc _ 82)

theorem safeSide_closeXfer (x : Xfer) : safeSide (closeXfer s x) = safeSide s :=
  ite_keeps safeSide (safeSide_giveOne _ _ _ _ _) rfl

theorem safeSide_modXfer (id : Nat) (f : Xfer → Xfer) : safeSide (modXfer s id f) = safeSide s := rfl

theorem safeSide_trimIf (p : Xfer → Bool) : safeSide (trimIf s p) = safeSide s :=
  foldl_keeps safeSide _ (fun s x => ite_keeps safeSide rfl
    (ite_keeps safeSide (safeSide_closeXfer s x) (safeSide_modXfer s _ _))) _ _

theorem safeSide_writeFb (j : Job) (l : LayerCnt) (o : Nat) : safeSide (writeFb s j l o) = safeSide s := by
  simp only [safeSide, writeFb, storeWords, store]

theorem safeSide_collectOne (inp : Nat) : safeSide (collectOne s inp) = safeSide s := by
  unfold collectOne
  split
  · rfl
  · refine ite_keeps safeSide rfl (ite_keeps safeSide ?_ ((safeSide_setSrc _ 82).trans ?_)) <;>
      simp only [safeSide, storeWords, store]

theorem safeSide_pushRec (inp : Nat) (r : CRec) : safeSide (pushRec s inp r) = safeSide s :=
  (show _ = safeSide (if 2 ≤ skidCount s inp then collectOne s inp else s) from rfl).trans
    (ite_keeps safeSide (safeSide_collectOne s inp) rfl)

theorem safeSide_waitEnd (w : EndWait) : safeSide (waitEnd s w) = safeSide s := ite_keeps safeSide rfl rfl

theorem safeSide_skipEntry (i : Nat) (o : JobEnd) : safeSide (skipEntry s i o) = safeSide s :=
  ite_keeps safeSide (safeSide_waitEnd s _) (safeSide_pushRec _ _ _)

theorem safeSide_releaseWalks (t : Word) : safeSide (releaseWalks s t) = safeSide s :=
  foldl_keeps safeSide _ (fun s e => by
    split
    · exact ite_keeps safeSide (show safeSide (offStore _) = safeSide (offStore s) by rw [releaseWalk_offStore]) rfl
    · rfl) _ _

theorem safeSide_endJob (t : Word) (o : JobEnd) (inp : Nat) : safeSide (endJob s t o inp) = safeSide s := by
  unfold endJob
  refine ite_keeps safeSide (safeSide_waitEnd s _) ?_
  split
  · rfl
  · next j _ =>
    dsimp only
    generalize hu : trimXfers _ t = u
    have hv : safeSide u = safeSide s := by
      rw [← hu]
      exact (safeSide_trimIf _ _).trans (foldl_keeps safeSide _ (fun s l => safeSide_writeFb s j l 2) _ s)
    refine (safeSide_pushRec _ _ _).trans ((safeSide_releaseWalks _ _).trans (Eq.trans ?_ hv))
    cases j.origin <;>
      · show (_, _, _, List.map slices (List.map _ u.eng)) = safeSide u
        rw [List.map_map]
        rfl

theorem safeSide_cascade (n : Nat) : safeSide (cascade n s) = safeSide s := by
  induction n generalizing s with
  | zero => rfl
  | succ n ih =>
    unfold cascade
    split
    · exact (ih _).trans (safeSide_endJob s _ _ _)
    · split
      · exact (ih _).trans (safeSide_skipEntry s _ _)
      · rfl

theorem safeSide_killJobs (ts : List Word) (o : JobEnd) (inp : Nat) : safeSide (killJobs s ts o inp) = safeSide s :=
  (ite_keeps safeSide rfl (safeSide_cascade _ _)).trans
    (foldl_keeps safeSide _ (fun s t => safeSide_endJob s t o inp) _ _)

/-! ### The reaction to a fatal source -/

/-- What the reaction leaves: the counts of slices, the test packs, which engines are quarantined, and where rotations stand. -/
def katSide (s : State) := (s.saf.katPassed, s.saf.katFailed, s.saf.katDeferred, (s.saf.pack, s.saf.packNext, s.saf.packLoad),
  s.eng.map (fun x => (x.quar, x.rot)))

theorem katSide_of_safeSide {s t : State} (h : safeSide t = safeSide s) : katSide t = katSide s := by
  have he : ∀ u : State, u.eng.map (fun x => (x.quar, x.rot)) = (u.eng.map slices).map (fun x => (x.quar, x.rot)) :=
    fun u => by rw [List.map_map]; rfl
  simp only [safeSide, Prod.mk.injEq] at h
  obtain ⟨hsaf, -, -, heng⟩ := h
  simp only [katSide, he, hsaf, heng]

theorem katSide_faStopped : katSide (faStopped s) = katSide s := by
  have hw : katSide (withdraw s 4) = katSide s := ite_keeps katSide rfl rfl
  have hg : ∀ u : State, katSide (guiltFatal u) = katSide u := fun u => by unfold guiltFatal; split <;> rfl
  have hc : ∀ u : State, katSide (cancelSwap u) = katSide u := fun u => ite_keeps katSide rfl rfl
  refine (hc _).trans (Eq.trans ?_ ((hg (withdraw s 4)).trans hw))
  simp only [katSide, List.map_map]
  rfl

theorem katSide_faReact : katSide (faReact s) = katSide s := by
  have hv : ∀ u : State, katSide (faVerdict u) = katSide u := fun u =>
    ite_keeps katSide (by simp only [katSide, writeVerdict, storeWords, store]) rfl
  have hh : ∀ u : State, katSide (faHalt u) = katSide u := fun u => ite_keeps katSide rfl rfl
  rw [faReact_eq_faHalt]
  exact (hh (faAnswered s)).trans ((hv (faKilled (faStopped s))).trans
    ((katSide_of_safeSide (safeSide_killJobs _ _ _ _)).trans (katSide_faStopped s)))

theorem katSide_settle (s0 : State) : katSide (settle s0 s) = katSide s := ite_keeps katSide (katSide_faReact s) rfl

theorem safeSide_faKilled : safeSide (faKilled s) = safeSide s := safeSide_killJobs s _ _ _

theorem faAnswered_eng : (faAnswered s).eng.map slices = (faStopped s).eng.map slices := by
  have hv : ∀ u : State, (faVerdict u).eng = u.eng := fun u =>
    ite_keeps State.eng (by simp only [writeVerdict, storeWords, store]) rfl
  rw [faAnswered, hv]
  exact congrArg (·.2.2.2) (safeSide_faKilled (faStopped s))

theorem faStopped_kat : (faStopped s).eng.map (fun x => x.kat) = s.eng.map (fun _ => none) := by
  have hc : ∀ u : State, (cancelSwap u).eng = u.eng := fun u => ite_keeps State.eng rfl rfl
  have hg : ∀ u : State, (guiltFatal u).eng = u.eng := fun u => by unfold guiltFatal; split <;> rfl
  have hw : (withdraw s 4).eng = s.eng := ite_keeps State.eng rfl rfl
  rw [faStopped, hc]
  show List.map _ (List.map _ (guiltFatal (withdraw s 4)).eng) = _
  rw [List.map_map, hg, hw]
  rfl

theorem faReact_eng : (faReact s).eng.map slices = (faStopped s).eng.map slices := by
  have hh : ∀ u : State, (faHalt u).eng = u.eng := fun u => ite_keeps State.eng rfl rfl
  rw [faReact_eq_faHalt, hh, faAnswered_eng]

/-- The reaction ends every slice (R410). -/
theorem faReact_kat : (faReact s).eng.map (fun x => x.kat) = s.eng.map (fun _ => none) := by
  have he : ∀ u : State, u.eng.map (fun x => x.kat) = (u.eng.map slices).map (fun x => x.kat) :=
    fun u => by rw [List.map_map]; rfl
  rw [he, faReact_eng, ← he, faStopped_kat]

/-- What a change of the engines leaves of each, it leaves of the one read. -/
theorem engOf_tells {β : Type} {f : Engine → β} {s t : State} (h : t.eng.map f = s.eng.map f) (e : Nat) :
    f (engOf t e) = f (engOf s e) := by
  have hr : ∀ u : State, f (engOf u e) = (u.eng.map f).getD e (f {}) := fun u => (List.getD_map ..).symm
  rw [hr, hr, h]

theorem engOf_faReact_kat (e : Nat) : (engOf (faReact s) e).kat = none := by
  have hr : (engOf (faReact s) e).kat = ((faReact s).eng.map (fun x => x.kat)).getD e none :=
    (List.getD_map (d := ({} : Engine)) (f := fun x : Engine => x.kat) ..).symm
  rw [hr, faReact_kat, List.map_const']
  simp only [List.getD_eq_getElem?_getD, List.getElem?_replicate]
  split <;> rfl

/-- Where trust is neither granted nor awaited, trust and the lease stand until the run halts. -/
theorem faAnswered_trust (h : untrusted s = true) :
    ((faAnswered s).saf.trust, (faAnswered s).saf.lease) = (s.saf.trust, s.saf.lease) := by
  have hg : ∀ u : State, ((guiltFatal u).saf.trust, (guiltFatal u).saf.lease) = (u.saf.trust, u.saf.lease) := fun u => by
    unfold guiltFatal
    split <;> rfl
  have hc : ∀ u : State, (cancelSwap u).saf = u.saf := fun u => ite_keeps State.saf rfl rfl
  have hs : ((faStopped s).saf.trust, (faStopped s).saf.lease) = (s.saf.trust, s.saf.lease) := by
    rw [faStopped, hc, withdraw_of_untrusted h]
    exact hg s
  have hk : (faKilled (faStopped s)).saf = (faStopped s).saf := congrArg (·.1) (safeSide_faKilled (faStopped s))
  have hv : ∀ u : State, ((faVerdict u).saf.trust, (faVerdict u).saf.lease) = (u.saf.trust, u.saf.lease) := fun u =>
    ite_keeps (fun s : State => (s.saf.trust, s.saf.lease)) (by simp only [writeVerdict, storeWords, store]) rfl
  rw [faAnswered, hv, hk, hs]

/-- The reaction grants no trust, and a lease that has ended does not come back. -/
theorem faReact_trust (h : untrusted s = true) :
    (faReact s).saf.trust ≠ .trusted ∧ (s.saf.lease = none → (faReact s).saf.lease = none) := by
  have ha := faAnswered_trust s h
  simp only [Prod.mk.injEq] at ha
  obtain ⟨ht, hl⟩ := ha
  rw [faReact_eq_faHalt, faHalt]
  split
  · exact ⟨(fun e => nomatch e), fun _ => rfl⟩
  · simp only [untrusted, Bool.and_eq_true, bne_iff_ne] at h
    exact ⟨ht ▸ h.1, fun hn => hl.trans hn⟩

end

end Sys2Proof.Proofs
end

section
/-! PROOFS. Verdicts, trust and the SAFE outputs (R365 to R373, R532). -/

namespace Sys2Proof.Proofs

open Sys2Proof Sys2Proof.Machine Sys2Proof.Laws

/-! ### The verdict -/

/-- The action of the rule that a result is of: FAIL where it is set, else HOLD (R362). -/
def failAction (s : State) (x : RuleRes) : Bool := bit (wd ((activeSet s).prog.rules.getD x.i []) 0) 8

/-- A choice among candidates names one where there are any. -/
theorem foldl_pick_isSome {α : Type} {f : Option α → α → Option α} (hf : ∀ b x, (f b x).isSome = true) (l : List α) (b : Option α) :
    (l.foldl f b).isSome = (b.isSome || !l.isEmpty) := by
  induction l generalizing b with
  | nil => simp
  | cons x l ih => rw [List.foldl_cons, ih, hf]; simp

/-- A rule decides the verdict where one with its action is violated. -/
theorem deciding_isSome (s : State) (a : Bool) :
    (deciding s a).isSome = true ↔ ∃ x ∈ s.hl.res, x.violated = true ∧ failAction s x = a := by
  unfold deciding
  dsimp only
  rw [foldl_pick_isSome]
  · simp [failAction, List.filterMap_eq_nil_iff]
  · intro b x
    cases b
    · rfl
    · dsimp only
      split <;> rfl

/-- VERDICT of the record that is due: FAIL, HOLD or PASS (R365). -/
def verdictOf (s : State) : Nat := if (deciding s true).isSome then 3 else if (deciding s false).isSome then 2 else 1

theorem verdictOf_fail {s : State} (h : ∃ x ∈ s.hl.res, x.violated = true ∧ failAction s x = true) : verdictOf s = 3 :=
  if_pos ((deciding_isSome s true).2 h)

theorem verdictOf_hold {s : State} (h : ∃ x ∈ s.hl.res, x.violated = true)
    (ha : ∀ x ∈ s.hl.res, x.violated = true → failAction s x = false) : verdictOf s = 2 := by
  obtain ⟨x, hx, hv⟩ := h
  have hf : ¬ (deciding s true).isSome = true := fun hd => by
    obtain ⟨y, hy, hyv, hya⟩ := (deciding_isSome s true).1 hd
    rw [ha y hy hyv] at hya
    cases hya
  rw [verdictOf, if_neg hf, if_pos ((deciding_isSome s false).2 ⟨x, hx, hv, ha x hx hv⟩)]

theorem verdictOf_pass {s : State} (h : ∀ x ∈ s.hl.res, x.violated = false) : verdictOf s = 1 := by
  have hn : ∀ a, ¬ (deciding s a).isSome = true := fun a hd => by
    obtain ⟨y, hy, hyv, -⟩ := (deciding_isSome s a).1 hd
    rw [h y hy] at hyv
    cases hyv
  rw [verdictOf, if_neg (hn true), if_neg (hn false)]

theorem verdictOf_le (s : State) : verdictOf s ≤ 3 := by
  unfold verdictOf
  split_ifs <;> decide

/-! ### The record (R366) -/

section
variable (s : State) (v c r w : Nat) (ev : List Word)

theorem verdictWords_length : (verdictWords s v c r w ev).length = 31 := by
  simp [verdictWords]

theorem verdictWords_seq : wd (verdictWords s v c r w ev) 0 = s.sch.seq := rfl

theorem verdictWords_verdict (hv : v ≤ 3) : fld (verdictWords s v c r w ev) 1 1 0 = v := by
  have hw : wd (verdictWords s v c r w ev) 1
      = BitVec.ofNat 32 (v + 4 * c + 16 * b2n (s.saf.trust == .trusted) + 32 * w + 2 ^ 16 * r) := rfl
  rw [fld, hw, bits, BitVec.toNat_ofNat]
  omega

end

/-! ### Trust after a verdict (R369 to R371, R373) -/

/-- What trust does not touch: the scheduler, the sets, the sources and the jobs. -/
def offTrust (s : State) := (s.sch, s.sets, s.fc, s.jobs)

theorem offTrust_withdraw (s : State) (c : Nat) : offTrust (withdraw s c) = offTrust s := ite_keeps offTrust rfl rfl

theorem offTrust_judgeTrust (s : State) (v : Nat) : offTrust (judgeTrust s v) = offTrust s :=
  ite_keeps offTrust (offTrust_withdraw s 1) (ite_keeps offTrust rfl (ite_keeps offTrust (ite_keeps offTrust rfl rfl) rfl))

theorem withdraw_trusting {s : State} (c : Nat) (h : s.saf.trust = .trusted ∨ s.saf.trust = .awaiting) :
    withdraw s c = { s with
      saf := { s.saf with trust := .withdrawn, wCause := c, wSeq := s.sch.seq, lease := none, passes := 0 }
      pins := { s.pins with safeA := false, safeB := false } } := by
  unfold withdraw
  rw [if_pos (by simpa using h)]

section
variable {s : State} {v : Nat}

theorem judgeTrust_fail : judgeTrust s 3 = withdraw s 1 := rfl

theorem judgeTrust_other (hv : v ≠ 3) (h : s.saf.trust ≠ .awaiting) : judgeTrust s v = s := by
  unfold judgeTrust
  rw [if_neg hv, if_pos (by simpa using h)]

theorem judgeTrust_untrusted (ha : s.saf.trust ≠ .awaiting) (ht : s.saf.trust ≠ .trusted) : judgeTrust s v = s := by
  by_cases hv : v = 3
  · subst hv
    exact withdraw_of_untrusted (by simp [untrusted, ha, ht]) 1
  · exact judgeTrust_other hv ha

theorem judgeTrust_pass (h : s.saf.trust = .awaiting) :
    judgeTrust s 1 = if s.saf.passes ≤ 1 then grant s else { s with saf := { s.saf with passes := s.saf.passes - 1 } } := by
  simp [judgeTrust, h]

theorem judgeTrust_hold (h : s.saf.trust = .awaiting) : judgeTrust s 2 = await s := by
  simp [judgeTrust, h]

end

theorem leaseEnd_congr {s t : State} (hs : t.sch = s.sch) (hc : t.sets = s.sets) : leaseEnd t = leaseEnd s := by
  unfold leaseEnd nextSlackStart shadowSlot tide activeSet hasActive slotOf
  rw [hs, hc]

/-- What a verdict's writing and the lease leave of trust: all but the lease. -/
def trustView (s : State) := (s.saf.trust, s.saf.passes, s.saf.wCause, s.pins)

/-- VERDICT_WRITE puts the verdict that is due on record, after trust has followed it. -/
structure Judged (s t : State) : Prop where
  trust : trustView t = trustView (judgeTrust s (verdictOf s))
  hl : t.hl.written = true ∧ t.hl.lastSeq = s.sch.seq ∧ t.hl.lastVerdict = verdictOf s
  record : ∃ u c r ev, u.sch.seq = s.sch.seq
    ∧ t.cmd.verdict = verdictWords u (verdictOf s) c r 0 ev ++ [crcWords (verdictWords u (verdictOf s) c r 0 ev)]
  lease : t.saf.trust = .trusted → t.saf.lease = some (leaseEnd s)
  rest : t.sch = s.sch ∧ t.fc = s.fc ∧ t.jobs = s.jobs

theorem judged_writeVerdict (s : State) (c r : Nat) (ev : List Word) :
    Judged s (renewLease (writeVerdict (judgeTrust s (verdictOf s)) (verdictOf s) c r 0 ev)) := by
  have hu := offTrust_judgeTrust s (verdictOf s)
  generalize huv : judgeTrust s (verdictOf s) = u at hu
  simp only [offTrust, Prod.mk.injEq] at hu
  obtain ⟨hsch, hsets, hfc, hjobs⟩ := hu
  have hl : leaseEnd (writeVerdict u (verdictOf s) c r 0 ev) = leaseEnd s := leaseEnd_congr hsch hsets
  have hw : ∃ w, writeVerdict u (verdictOf s) c r 0 ev = w ∧ trustView w = trustView u ∧ w.hl.written = true
      ∧ w.hl.lastSeq = u.sch.seq ∧ w.hl.lastVerdict = verdictOf s ∧ w.cmd.verdict = verdictWords u (verdictOf s) c r 0 ev
        ++ [crcWords (verdictWords u (verdictOf s) c r 0 ev)] ∧ w.sch = u.sch ∧ w.fc = u.fc ∧ w.jobs = u.jobs :=
    ⟨_, rfl, rfl, rfl, rfl, rfl, rfl, rfl, rfl, rfl⟩
  obtain ⟨w, hwe, ht, h1, h2, h3, hv, h4, h5, h6⟩ := hw
  rw [hwe] at hl ⊢
  unfold renewLease
  have hseq := congrArg Sched.seq hsch
  split
  · rw [hl]
    exact ⟨huv ▸ ht, ⟨h1, h2.trans hseq, h3⟩, ⟨u, c, r, ev, hseq, hv⟩, fun _ => rfl, h4.trans hsch, h5.trans hfc, h6.trans hjobs⟩
  · next hn =>
    exact ⟨huv ▸ ht, ⟨h1, h2.trans hseq, h3⟩, ⟨u, c, r, ev, hseq, hv⟩, fun he => absurd he (by simpa using hn),
      h4.trans hsch, h5.trans hfc, h6.trans hjobs⟩

theorem judged_giveVerdict (s : State) : Judged s (giveVerdict s) := by
  have h : ∃ c r ev, giveVerdict s = renewLease (writeVerdict (judgeTrust s (verdictOf s)) (verdictOf s) c r 0 ev) := by
    unfold giveVerdict verdictOf
    cases deciding s true with
    | some x => exact ⟨_, _, _, rfl⟩
    | none =>
      cases deciding s false with
      | some x => exact ⟨_, _, _, rfl⟩
      | none => exact ⟨_, _, _, rfl⟩
  obtain ⟨c, r, ev, h⟩ := h
  rw [h]
  exact judged_writeVerdict s c r ev

theorem Judged.pins {s t : State} (h : Judged s t) : t.pins = (judgeTrust s (verdictOf s)).pins := congrArg (·.2.2.2) h.trust
theorem Judged.passes {s t : State} (h : Judged s t) : t.saf.passes = (judgeTrust s (verdictOf s)).saf.passes :=
  congrArg (·.2.1) h.trust
theorem Judged.wCause {s t : State} (h : Judged s t) : t.saf.wCause = (judgeTrust s (verdictOf s)).saf.wCause :=
  congrArg (·.2.2.1) h.trust
theorem Judged.trust_eq {s t : State} (h : Judged s t) : t.saf.trust = (judgeTrust s (verdictOf s)).saf.trust :=
  congrArg (·.1) h.trust

/-- The record is of 32 words, names its frame and holds its verdict (R366). -/
theorem Judged.record_words {s t : State} (h : Judged s t) : t.cmd.verdict.length = 32 ∧ wd t.cmd.verdict 0 = s.sch.seq
    ∧ fld t.cmd.verdict 1 1 0 = verdictOf s := by
  obtain ⟨u, c, r, ev, hseq, hv⟩ := h.record
  have hl := verdictWords_length u (verdictOf s) c r 0 ev
  have hw : ∀ i < 31, wd t.cmd.verdict i = wd (verdictWords u (verdictOf s) c r 0 ev) i := fun i hi => by
    rw [hv, wd, wd, List.getD_append _ _ _ _ (by omega)]
  refine ⟨by rw [hv, List.length_append, hl]; rfl, ?_, ?_⟩
  · rw [hw 0 (by decide), verdictWords_seq, hseq]
  · rw [fld, hw 1 (by decide)]
    exact verdictWords_verdict u (verdictOf s) c r 0 ev (verdictOf_le s)

theorem exec_verdictWrite (s : State) :
    exec .verdictWrite s = .next (if judging s && verdictDue s then giveVerdict s else s) := rfl

theorem exec_verdictWrite_idle {s : State} (h : judging s = false ∨ verdictDue s = false) :
    exec .verdictWrite s = .next s := by
  rw [exec_verdictWrite, if_neg]
  rcases h with h | h <;> simp [h]

/-! ### The lease (R371, R373) -/

theorem exec_trustLeaseExpire {s : State} {l : Nat} (hl : s.saf.lease = some l) :
    exec .trustLeaseExpire s = .next (if (passTo s l).saf.trust == .trusted then settle s (setSrc (withdraw (passTo s l) 5) 106)
      else { passTo s l with saf := { (passTo s l).saf with lease := none } }) := by
  show execTrustLeaseExpire s = _
  unfold execTrustLeaseExpire
  rw [hl]

/-- Trust is withdrawn with a cause, in a frame, and no lease runs. -/
def Withdrawn (s : State) (cause : Nat) (seq : Word) : Prop :=
  s.saf.wCause = cause ∧ s.saf.wSeq = seq ∧ s.saf.lease = none ∧ s.saf.trust ≠ .trusted
    ∧ s.pins.safeA = false ∧ s.pins.safeB = false

/-- The reaction to a fatal source leaves trust withdrawn for what it was withdrawn for. -/
theorem Withdrawn.settle {s : State} {c : Nat} {q : Word} (h : Withdrawn s c q) (hu : untrusted s = true) (s0 : State) :
    Withdrawn (settle s0 s) c q := by
  obtain e | e := settle_cases s0 s <;> rw [e]
  · exact h
  · obtain ⟨hc, hq, hl, -, ha, hb⟩ := h
    obtain ⟨hc', hq', ha', hb'⟩ := faReact_untrusted hu
    obtain ⟨ht', hl'⟩ := faReact_trust s hu
    exact ⟨hc'.trans hc, hq'.trans hq, hl' hl, ht', ha' ha, hb' hb⟩

/-- A lease that expires while trust is TRUSTED: the clocks reach its end, trust is withdrawn, and source 106 is fatal. -/
theorem trustLeaseExpire_trusted {s : State} {l : Nat} (hl : s.saf.lease = some l) (ht : s.saf.trust = .trusted) :
    ∃ t, exec .trustLeaseExpire s = .next t ∧ t.fc.fsw.getLsbD 106 = true ∧ Withdrawn t 5 s.sch.seq := by
  have hp : (passTo s l).saf.trust = .trusted := by rw [passTo_saf]; exact ht
  rw [exec_trustLeaseExpire hl, if_pos (by simpa using hp)]
  refine ⟨_, rfl, settle_fsw _ _ (setSrc_sets_bit _ (by decide) (by decide)), ?_⟩
  have hw := withdraw_trusting 5 (.inl hp)
  refine Withdrawn.settle ?_ ?_ s
  · simp only [Withdrawn, setSrc_saf, setSrc_pins, hw, passTo_sch]
    decide
  · simp only [untrusted, setSrc_saf, hw]
    decide

/-- Settles O57: the verdict follows the actions of the violated rules, and trust the verdict; a lease that expires withdraws trust
where it is granted. -/
theorem verdictsTrustAndSafeOutputs : Obligations.VerdictsTrustAndSafeOutputs := by
  unfold Obligations.VerdictsTrustAndSafeOutputs
  refine ⟨⟨fun s h => exec_verdictWrite_idle h, fun s hj hd => ?_, fun s l hl ht => ?_, fun s l hl ht => ?_, fun s hl => ?_⟩,
    fun s ht hc hk => ?_, fun s h => ?_, fun s => rfl⟩
  · have h := judged_giveVerdict s
    obtain ⟨hwr, hseq, hv⟩ := h.hl
    obtain ⟨hlen, hw0, hw1⟩ := h.record_words
    obtain ⟨hsch, hfc, hjobs⟩ := h.rest
    have ht := h.trust_eq
    have hp := h.pins
    refine ⟨giveVerdict s, by rw [exec_verdictWrite, hj, hd]; rfl, hwr, hseq, hlen, hw0, hw1.trans hv.symm,
      fun hx => hv.trans (verdictOf_fail hx), fun hx ha => hv.trans (verdictOf_hold hx ha), fun hx => hv.trans (verdictOf_pass hx),
      ?_, ?_, ?_, ?_, ?_, ?_, h.lease, hsch, hfc, hjobs⟩
    · intro ha h1 hps
      rw [hv.symm.trans h1, judgeTrust_pass ha, if_pos hps] at ht hp
      exact ⟨ht, fun hc => by rw [hp, grant, hc]; exact ⟨rfl, rfl⟩⟩
    · intro ha h1 hps
      have hpass := h.passes
      rw [hv.symm.trans h1, judgeTrust_pass ha, if_neg (by omega)] at ht hp hpass
      exact ⟨ht.trans ha, hpass, hp⟩
    · intro ha h2
      have hpass := h.passes
      rw [hv.symm.trans h2, judgeTrust_hold ha] at ht hpass
      exact ⟨ht, hpass⟩
    · intro ha h3
      have hcause := h.wCause
      rw [hv.symm.trans h3, judgeTrust_fail, withdraw_trusting 1 ha.symm] at ht hp hcause
      exact ⟨ht, hcause, congrArg Pins.safeA hp, congrArg Pins.safeB hp⟩
    · intro ha h3
      rw [judgeTrust_other (hv ▸ h3) ha] at ht hp
      exact ⟨ht, hp⟩
    · intro ha hn
      rw [judgeTrust_untrusted ha hn] at ht hp
      exact ⟨ht, hp⟩
  · obtain ⟨t, he, hf, hc, hq, hn, hr, hlow⟩ := trustLeaseExpire_trusted hl ht
    exact ⟨t, he, hf, hc, hq, hn, hr, hlow⟩
  · refine ⟨_, (exec_trustLeaseExpire hl).trans (by rw [if_neg (by simpa using ht)]), rfl, ?_⟩
    simp
  · show execTrustLeaseExpire s = _
    unfold execTrustLeaseExpire
    rw [hl]
  · show execSafeToggle s = _
    simp [execSafeToggle, ht, hc, hk]
  · show execSafeToggle s = _
    unfold execSafeToggle
    rw [if_neg]
    rcases h with h | h | h <;> simp [h]

end Sys2Proof.Proofs
end

section
/-! PROOFS. Headland's inputs and rules (R356 to R362, R371, R372): the records of the mirror ring, evidence, and the evaluation of
rules. -/

namespace Sys2Proof.Proofs

open Sys2Proof Sys2Proof.Machine Sys2Proof.Laws

/-! ### The mirror ring (R357, R358) -/

theorem exec_mirrorRecordBin (s : State) :
    exec .mirrorRecordBin s = .next (if halted s || s.hl.stopped || s.hl.wr ≤ s.hl.rd then s else binRecord s) := rfl

theorem exec_mirrorRecordBin_record {s : State} (hh : halted s = false) (hs : s.hl.stopped = false) (hr : s.hl.rd < s.hl.wr) :
    exec .mirrorRecordBin s = .next (binRecord s) := by
  rw [exec_mirrorRecordBin, hh, hs, if_neg (by simpa using hr)]

/-- A cell of the grid is raised by one; a point off the grid raises none. -/
def raiseCell (c : Option Nat) (g : List Nat) : List Nat :=
  match c with
  | some c => modAt g c (· + 1)
  | none => g

/-- Points raise each cell by as many as lie in it. -/
theorem foldl_raiseCell {α : Type} (cell : α → Option Nat) (l : List α) (g : List Nat) :
    (l.foldl (fun g x => raiseCell (cell x) g) g).length = g.length
    ∧ ∀ c, c < g.length → (l.foldl (fun g x => raiseCell (cell x) g) g).getD c 0
        = g.getD c 0 + (l.filter (fun x => cell x == some c)).length := by
  induction l generalizing g with
  | nil => exact ⟨rfl, fun _ _ => rfl⟩
  | cons x l ih =>
    have hlen : (raiseCell (cell x) g).length = g.length := by
      unfold raiseCell
      split
      · exact length_modAt _ _ _
      · rfl
    obtain ⟨hl, hc⟩ := ih (raiseCell (cell x) g)
    refine ⟨hl.trans hlen, fun c hcl => ?_⟩
    rw [List.foldl_cons, hc c (hlen.symm ▸ hcl), List.filter_cons]
    cases hx : cell x with
    | none => rfl
    | some d =>
      have hg : (raiseCell (some d) g).getD c 0 = g.getD c 0 + if d = c then 1 else 0 := by
        simp only [raiseCell, List.getD_eq_getElem?_getD, getElem?_modAt, List.getElem?_eq_getElem hcl]
        by_cases hd : d = c
        · subst hd; simp
        · simp [hd, Ne.symm hd]
      rw [hg]
      by_cases hd : d = c
      · subst hd
        simp
        omega
      · simp [hd]

/-- The record at the read pointer has been consumed, its points at the offsets `os` binned. -/
def binned (s : State) (l : List Word) (os : List Nat) : State :=
  { s with hl := { s.hl with
    rd := s.hl.rd + ringSize s 0, grid := os.foldl (fun g o => raiseCell (pointCell s l (16 + o)) g) s.hl.grid } }

/-- A record of a lidar's stream with a stamp in the frame's window bins the points that it holds whole. -/
theorem binRecord_bins {s : State} {l : List Word}
    (hl : (activeSet s).prog.lidars.find? (fun l => fld l 0 5 0 == ringStream s 0) = some l) (hr : s.sch.run = .running)
    (hw : (ringStamp s 0 + stampRange - s.sch.t % stampRange) % stampRange < ttOutCommit (tide s)) :
    binRecord s = binned s l (((List.range (fld l 2 15 0)).map (fun k => fld l 1 15 0 + k * fld l 1 23 16)).filter
      (fun o => o + fld l 1 23 16 ≤ ringLen s 0)) := by
  have hin : inWindow s (ringStamp s 0) = true := decide_eq_true hw
  unfold binRecord
  simp only [hl, hr, hin, beq_self_eq_true, Bool.and_self, if_true]
  rfl

/-! ### Evidence (R361) -/

/-- What the reads of a source port leave (R216, R220, R225, R226) of trust, Headland, the run, the sets and the keys. -/
def readSide (s : State) := (s.saf, s.hl, s.sch.run, s.sets, s.sec)

section
variable (s : State) (src : Nat)

theorem readSide_setSrc (n : Nat) : readSide (setSrc s n) = readSide s := by
  unfold setSrc
  split <;> rfl

theorem readSide_giveOne (k : PoolKind) (i : Nat) (ep : Bool) : readSide (giveOne s src k i ep) = readSide s :=
  ite_keeps readSide rfl (readSide_setSrc _ 82)

theorem readSide_passReq (a : Nat) : readSide (passReq s src a) = readSide s := by
  have ht : ∀ u : State, readSide (touchCheck u a) = readSide u := fun u => ite_keeps readSide rfl rfl
  exact (ht _).trans (readSide_giveOne _ _ _ _ _)

theorem readSide_passTimeout (w : Bool) (a n : Nat) : readSide (passTimeout s src w a n) = readSide s := readSide_setSrc _ 83

theorem readSide_readUnits (a n : Nat) (o : Nat → Ecc) : readSide (readUnits s a n o) = readSide s := by
  show readSide (uncounted _) = readSide (uncounted s)
  rw [readUnits_uncounted]

theorem readSide_portRead (a n : Nat) (o : Nat → Ecc) : readSide (portRead s src a n o) = readSide s :=
  foldl_keeps readSide _ (fun s x => by
    refine ite_keeps readSide ?_ ?_
    · exact (readSide_passTimeout _ _ _ _ _).trans (readSide_passReq s src x.1)
    · exact (readSide_readUnits _ _ _ _).trans (readSide_passReq s src x.1)) _ _

theorem readSide_readAll (rs : List (Nat × Nat)) (ecc : List (Nat × Ecc)) : readSide (readAll s src rs ecc) = readSide s :=
  foldl_keeps readSide _ (fun s _ => readSide_portRead s src _ _ _) _ _

/-- Where no pool has had more credits returned than issued, reads set no fatal source and leave the scheduler. -/
theorem readAll_fits {z s : State} (src : Nat) (rs : List (Nat × Nat)) (ecc : List (Nat × Ecc))
    (hf : poolsFit s.cr.pools = true) (hh : Harmless z s) :
    Harmless z (readAll s src rs ecc) ∧ (readAll s src rs ecc).sch = s.sch := by
  unfold readAll
  induction rs generalizing s with
  | nil => exact ⟨hh, rfl⟩
  | cons x rs ih =>
    obtain ⟨hv, hp⟩ := portRead_reads src x.1 x.2 (eccFor ecc) hf hh
    obtain ⟨h1, h2⟩ := ih ((portRead_keeps src x.1 x.2 (eccFor ecc) (Keeps.refl s)).pools hf) hp
    exact ⟨h1, h2.trans (congrArg (·.1.2.1) hv)⟩

end

/-- The rows of an evidence entry, as its copy reads them. -/
def evidRows (s : State) (x : List Word) : List (Nat × Nat) :=
  (List.range (refRows (evidRef x))).map (fun k => (physOf s (refRowAddr (evidRef x) k), rowBytes (evidRef x)))

section
variable {s : State} {i : Nat} {x : List Word} {ecc : List (Nat × Ecc)}

/-- Evidence as a copy leaves it: entry `i` holds bytes. -/
def evidSet (s : State) (i : Nat) (bs : List Byte) : List (Option (List Byte)) := setAt s.hl.evid i (some bs)

theorem getD_evidSet (hi : i < s.hl.evid.length) (bs : List Byte) : (evidSet s i bs).getD i none = some bs := by
  simp only [evidSet, List.getD_eq_getElem?_getD, getElem?_setAt, if_true, List.getElem?_eq_getElem hi, Option.map_some,
    Option.getD_some]

theorem getD_evidSet_ne (bs : List Byte) : ∀ j, j ≠ i → (evidSet s i bs).getD j none = s.hl.evid.getD j none := by
  intro j hj
  simp [evidSet, List.getD_eq_getElem?_getD, getElem?_setAt, hj]

theorem copyEvidence_unended (o : Nat → Ecc) (h : (s.sch.tt.getD (evidJob x) {}).ended ≠ some .done) :
    copyEvidence s i x o = { s with hl := { s.hl with evid := evidSet s i [] } } :=
  if_pos (by simpa using h)

/-- The bytes of the rows, in order. -/
def evidBytesOf (s : State) (x : List Word) : List Byte := (evidRows s x).flatMap (fun y => s.mem.read y.1 y.2)

/-- A copy reads the rows of an entry whose job is DONE; the entry holds their bytes if all come good, and else nothing. -/
theorem copyEvidence_done (h : (s.sch.tt.getD (evidJob x) {}).ended = some .done) :
    ∃ m, copyEvidence s i x (eccFor ecc) = { readAll s srcPairB (evidRows s x) ecc with
      hl := { s.hl with mem := m, evid := evidSet s i (if readsGood s srcPairB (evidRows s x) ecc then evidBytesOf s x else []) } } := by
  have hread : ((List.range (refRows (evidRef x))).map (fun k => physOf s (refRowAddr (evidRef x) k))).foldl
      (fun u a => portRead u srcPairB a (rowBytes (evidRef x)) (eccFor ecc)) s = readAll s srcPairB (evidRows s x) ecc := by
    rw [readAll, evidRows, List.foldl_map, List.foldl_map]
  have hgood : ((List.range (refRows (evidRef x))).map (fun k => physOf s (refRowAddr (evidRef x) k))).any
      (fun a => readBad (readAll s srcPairB (evidRows s x) ecc) a (rowBytes (evidRef x)) (eccFor ecc))
      = !readsGood s srcPairB (evidRows s x) ecc := by
    rw [readsGood, ← List.not_any_eq_all_not, Bool.not_not]
    generalize readAll s srcPairB (evidRows s x) ecc = u
    simp only [evidRows, List.any_map, Function.comp_def]
  have hbytes : ((List.range (refRows (evidRef x))).map (fun k => physOf s (refRowAddr (evidRef x) k))).flatMap
      (fun a => s.mem.read a (rowBytes (evidRef x))) = evidBytesOf s x := by
    rw [evidBytesOf, evidRows, List.flatMap_map, List.flatMap_map]
  have hv := readSide_readAll s srcPairB (evidRows s x) ecc
  simp only [readSide, Prod.mk.injEq] at hv
  obtain ⟨-, hhl, -, -, -⟩ := hv
  have hmem := readAll_mem s srcPairB (evidRows s x) ecc
  unfold copyEvidence
  rw [if_neg (by rw [h]; decide)]
  dsimp only
  rw [hread, hgood]
  generalize readAll s srcPairB (evidRows s x) ecc = u at hhl hmem
  cases readsGood s srcPairB (evidRows s x) ecc
  · refine ⟨s.hl.mem, ?_⟩
    simp only [Bool.not_false, if_true, Bool.false_eq_true, if_false, evidSet, hhl]
  · refine ⟨s.hl.mem.write (0x1A_0000 + (((activeSet u).prog.evids.take i).map evidBytes).sum) (evidBytesOf s x), ?_⟩
    simp only [Bool.not_true, if_true, Bool.false_eq_true, if_false, evidSet, hhl, hmem, hbytes]

section
variable (hx : (activeSet s).prog.evids[i]? = some x) (hj : judging s = true) (he : s.hl.evid.getD i none = none)
include hx hj he

/-- An entry that has no evidence yet is copied once its job has ended. -/
theorem exec_evidenceCopy : exec (.evidenceCopy i ecc) s =
    .next (if (s.sch.tt.getD (evidJob x) {}).ended.isSome then settle s (copyEvidence s i x (eccFor ecc)) else s) := by
  show execEvidenceCopy i s ecc = _
  unfold execEvidenceCopy
  rw [hx]
  simp only [hj, he, beq_self_eq_true, Bool.and_self, Bool.true_and]

/-- The copy of an entry whose job is DONE leaves memory, trust and the scheduler, and the other entries. -/
theorem evidenceCopy_done (hi : i < s.hl.evid.length) (hd : (s.sch.tt.getD (evidJob x) {}).ended = some .done)
    (hf : poolsFit s.cr.pools = true) : ∃ t, exec (.evidenceCopy i ecc) s = .next t
      ∧ t.hl.evid.getD i none = some (if readsGood s srcPairB (evidRows s x) ecc then evidBytesOf s x else [])
      ∧ (∀ j, j ≠ i → t.hl.evid.getD j none = s.hl.evid.getD j none) ∧ t.mem = s.mem ∧ t.saf = s.saf ∧ t.sch = s.sch := by
  obtain ⟨m, hc⟩ := copyEvidence_done (i := i) (ecc := ecc) hd
  obtain ⟨hh, hs⟩ := readAll_fits srcPairB (evidRows s x) ecc hf (Harmless.of_fsw (s := s) rfl)
  have hv := readSide_readAll s srcPairB (evidRows s x) ecc
  simp only [readSide, Prod.mk.injEq] at hv
  refine ⟨_, exec_evidenceCopy hx hj he, ?_⟩
  rw [hd, Option.isSome_some, if_pos rfl, hc, (hh.congr (by rfl)).settle]
  exact ⟨getD_evidSet hi _, getD_evidSet_ne _, readAll_mem _ _ _ _, hv.1, hs⟩

end

end

/-! ### The evaluation of a rule (R362) -/

section
variable {s : State} {i : Nat} {r : List Word}

theorem exec_ruleEvaluate (hr : (activeSet s).prog.rules[i]? = some r) (hj : judging s = true) (hn : ∀ x ∈ s.hl.res, x.i ≠ i) :
    exec (.ruleEvaluate i) s = .next (evaluate s i r) := by
  have ha : s.hl.res.any (fun x => x.i == i) = false := by simpa using hn
  show execRuleEvaluate i s = _
  unfold execRuleEvaluate
  rw [hr]
  simp only [hj, ha, Bool.not_false, Bool.and_self, if_true]

theorem exec_ruleEvaluate_idle (h : judging s = false ∨ ∃ x ∈ s.hl.res, x.i = i) : exec (.ruleEvaluate i) s = .next s := by
  show execRuleEvaluate i s = _
  unfold execRuleEvaluate
  cases (activeSet s).prog.rules[i]? with
  | none => rfl
  | some r =>
    dsimp only
    rw [if_neg]
    rcases h with h | h <;> simp_all

/-- The result of a rule is noted. -/
def noted (s : State) (i : Nat) (f : Finding) : State :=
  { s with hl := { s.hl with res := s.hl.res ++ [RuleRes.mk i f.bad f.words] } }

variable {f : Finding}

theorem evaluate_none (h : evalRule s r = (s, none)) : evaluate s i r = s := by
  simp only [evaluate, h]

theorem evaluate_met (h : evalRule s r = (s, some f)) (hb : f.bad = false) : evaluate s i r = noted s i f := by
  simp only [evaluate, h, hb, Bool.not_false, if_true, noted]

theorem evaluate_violated (h : evalRule s r = (s, some f)) (hb : f.bad = true) (hd : f.dis = false) :
    evaluate s i r = violated (noted s i f) r := by
  simp only [evaluate, h, hb, hd, Bool.not_true, Bool.false_eq_true, if_false, noted]

theorem withdraw_hl (s : State) (c : Nat) : (withdraw s c).hl = s.hl := ite_keeps State.hl rfl rfl

theorem holdFound_res (s : State) : (holdFound s).hl.res = s.hl.res :=
  ite_keeps (fun s : State => s.hl.res) rfl (ite_keeps (fun s : State => s.hl.res) rfl
    ((congrArg Headland.res (withdraw_hl _ 2)).trans rfl))

theorem violated_res (s : State) (r : List Word) : (violated s r).hl.res = s.hl.res :=
  ite_keeps (fun s : State => s.hl.res) (congrArg Headland.res (withdraw_hl s 1)) (holdFound_res s)

theorem conclude_hl (s : State) : (conclude s).hl = s.hl := by
  unfold conclude
  split
  · rfl
  · exact ite_keeps State.hl rfl rfl

theorem startGuilt_hl (s : State) (x : List Word) : (startGuilt s x).hl = s.hl := conclude_hl _

/-- Whatever follows from it, an evaluated rule's result joins the frame's. -/
theorem evaluate_res (h : evalRule s r = (s, some f)) :
    (evaluate s i r).hl.res = s.hl.res ++ [{ i := i, violated := f.bad, words := f.words }] := by
  simp only [evaluate, h]
  refine ite_keeps (fun s : State => s.hl.res) rfl (ite_keeps (fun s : State => s.hl.res) ?_ (violated_res _ r))
  rw [startGuilt_hl, violated_res]

end

/-! ### JOBS_DONE, RANGE and DELTA -/

section
variable {s : State} {i : Nat} {r : List Word}

theorem evalRule_jobsDone (hk : fld r 0 7 0 = 1) : evalRule s r = evalJobsDone s r := by simp [evalRule, hk]

theorem evalRule_evidence (hk : fld r 0 7 0 = 4 ∨ fld r 0 7 0 = 5) : evalRule s r = evalEvidence s r := by
  rcases hk with hk | hk <;> simp [evalRule, hk]

theorem jobsBad_isEmpty : (jobsBad s r).isEmpty = true ↔ ∀ j ∈ ruleJobs r, jobEnd s j = none ∨ jobEnd s j = some .done := by
  simp only [jobsBad, List.isEmpty_iff, List.filter_eq_nil_iff]
  refine forall₂_congr fun j _ => ?_
  cases jobEnd s j <;> simp

/-- A JOBS_DONE rule waits while none of its jobs has failed and one has not ended. -/
theorem evalJobsDone_waits (hn : ∃ j ∈ ruleJobs r, jobEnd s j = none)
    (ha : ∀ j ∈ ruleJobs r, jobEnd s j = none ∨ jobEnd s j = some .done) : evalJobsDone s r = (s, none) := by
  have hb := jobsBad_isEmpty.2 ha
  have hw : (ruleJobs r).any (fun j => (jobEnd s j).isNone) = true := by simpa using hn
  simp only [evalJobsDone, hb, hw, Bool.not_true, Bool.not_false, Bool.and_self, if_true]

theorem evalJobsDone_met (ha : ∀ j ∈ ruleJobs r, jobEnd s j = some .done) :
    evalJobsDone s r = (s, some { bad := false, words := jobsWords s r, dis := false }) := by
  have hb := jobsBad_isEmpty.2 fun j hj => .inr (ha j hj)
  have hw : (ruleJobs r).any (fun j => (jobEnd s j).isNone) = false := by
    simp only [List.any_eq_false]
    intro j hj
    simp [ha j hj]
  simp only [evalJobsDone, hb, hw, Bool.not_true, Bool.and_false, Bool.false_eq_true, if_false]

theorem evalJobsDone_fails (ha : ∃ j ∈ ruleJobs r, jobEnd s j ≠ none ∧ jobEnd s j ≠ some .done) :
    evalJobsDone s r = (s, some { bad := true, words := jobsWords s r, dis := false }) := by
  have hb : (jobsBad s r).isEmpty = false := by
    obtain ⟨j, hj, hn, hd⟩ := ha
    refine Bool.eq_false_iff.2 fun he => ?_
    exact (jobsBad_isEmpty.1 he j hj).elim hn hd
  simp only [evalJobsDone, hb, Bool.not_false, Bool.not_true, Bool.false_and, Bool.false_eq_true, if_false]

section
variable (hk : fld r 0 7 0 = 4)
include hk

theorem evalEvidence_waits (he : s.hl.evid.getD (fld r 1 3 0) none = none) : evalEvidence s r = (s, none) := by
  unfold evalEvidence
  dsimp only
  rw [if_neg (by simp [hk]), he]

theorem evalEvidence_missing (he : s.hl.evid.getD (fld r 1 3 0) none = some []) : evalEvidence s r = (s, some missing) := by
  unfold evalEvidence
  dsimp only
  rw [if_neg (by simp [hk]), he]
  rfl

theorem evalEvidence_range {bs : List Byte} (he : s.hl.evid.getD (fld r 1 3 0) none = some bs) (hb : bs ≠ []) :
    evalEvidence s r = evalRange s r (evidRef ((activeSet s).prog.evids.getD (fld r 1 3 0) [])) bs := by
  unfold evalEvidence
  dsimp only
  rw [if_neg (by simp [hk]), he]
  dsimp only
  rw [if_neg (by simpa using hb), if_pos hk]

end

theorem evalEvidence_delta (hk : fld r 0 7 0 = 5)
    (he : s.hl.prevEvid.getD (fld r 1 3 0) none = none ∨ s.hl.prevEvid.getD (fld r 1 3 0) none = some []) :
    evalEvidence s r = (s, some { bad := false, words := [], dis := false }) := by
  have hb : evidBefore s (fld r 1 3 0) = none := by
    unfold evidBefore
    rcases he with he | he
    · rw [he]
    · rw [he]
      rfl
  simp [evalEvidence, hk, hb]

end

/-! ### What a violation withdraws (R371, R372) -/

section
variable (s : State)

/-- A frame that holds, counted. -/
def heldFrame : State :=
  { s with hl := { s.hl with holdSeen := true }, saf := { s.saf with holds := true :: s.saf.holds.drop 1 } }

/-- The program's tolerance allows the frames that hold. -/
def tolerated : Bool :=
  holdRunOf s ≤ bits (wd (activeSet s).prog.hdr 2) 3 0 && holdWinOf s ≤ bits (wd (activeSet s).prog.hdr 2) 7 4

theorem holdFound_seen (h : s.hl.holdSeen = true) : holdFound s = s := if_pos h

theorem holdFound_first (h : s.hl.holdSeen = false) :
    holdFound s = if tolerated (heldFrame s) then heldFrame s else withdraw (heldFrame s) 2 :=
  if_neg (by simp [h])

/-- What the withdrawal of trust leaves: the frames that hold, the sets, memory and the scheduler. -/
def heldView := (s.saf.holds, s.sets, s.mem, s.sch)

theorem heldView_withdraw (c : Nat) : heldView (withdraw s c) = heldView s := ite_keeps heldView rfl rfl

theorem heldView_holdFound (h : s.hl.holdSeen = false) : heldView (holdFound s) = heldView (heldFrame s) := by
  rw [holdFound_first s h]
  exact ite_keeps heldView rfl (heldView_withdraw _ 2)

/-- Whether the frames that hold are tolerated is read of the frames and the set alone. -/
theorem tolerated_congr {s t : State} (h : heldView t = heldView s) : holdRunOf t = holdRunOf s ∧ holdWinOf t = holdWinOf s := by
  simp only [heldView, Prod.mk.injEq] at h
  obtain ⟨hh, hs, -, -⟩ := h
  have ha : activeSet t = activeSet s := by unfold activeSet hasActive slotOf; rw [hs]
  exact ⟨by rw [holdRunOf, holdRunOf, hh], by rw [holdWinOf, holdWinOf, hh, ha]⟩

end

/-- What the violation of a rule does: memory and the scheduler stand; the FAIL action withdraws trust with cause 1; the HOLD action
counts the frame once, and withdraws trust with cause 2 beyond the tolerance. -/
structure Violation (s t : State) (r : List Word) : Prop where
  rest : t.mem = s.mem ∧ t.sch = s.sch
  fail : bit (wd r 0) 8 = true → (s.saf.trust = .trusted ∨ s.saf.trust = .awaiting) → t.saf.trust = .withdrawn ∧ t.saf.wCause = 1
    ∧ t.saf.wSeq = s.sch.seq ∧ t.pins.safeA = false ∧ t.pins.safeB = false
  again : bit (wd r 0) 8 = false → s.hl.holdSeen = true → t.saf = s.saf ∧ t.pins = s.pins
  first : bit (wd r 0) 8 = false → s.hl.holdSeen = false → t.saf.holds = true :: s.saf.holds.drop 1
    ∧ (holdRunOf t ≤ bits (wd (activeSet s).prog.hdr 2) 3 0 → holdWinOf t ≤ bits (wd (activeSet s).prog.hdr 2) 7 4 →
      t.saf.trust = s.saf.trust ∧ t.pins = s.pins)
    ∧ (bits (wd (activeSet s).prog.hdr 2) 3 0 < holdRunOf t → s.saf.trust = .trusted →
      t.saf.trust = .withdrawn ∧ t.saf.wCause = 2 ∧ t.pins.safeA = false ∧ t.pins.safeB = false)

theorem violation_violated (s : State) (r : List Word) : Violation s (violated s r) r := by
  cases ha : bit (wd r 0) 8 with
  | true =>
    have hv : violated s r = withdraw s 1 := if_pos ha
    rw [hv]
    refine ⟨by simp, fun _ ht => ?_, fun h => (by cases ha.symm.trans h), fun h => (by cases ha.symm.trans h)⟩
    rw [withdraw_trusting 1 ht]
    exact ⟨rfl, rfl, rfl, rfl, rfl⟩
  | false =>
    have hv : violated s r = holdFound s := if_neg (by simp [ha])
    rw [hv]
    cases hs : s.hl.holdSeen with
    | true =>
      rw [holdFound_seen s hs]
      exact ⟨⟨rfl, rfl⟩, fun h => (by cases ha.symm.trans h), fun _ _ => ⟨rfl, rfl⟩, fun _ h => (by cases hs.symm.trans h)⟩
    | false =>
      have hview := heldView_holdFound s hs
      obtain ⟨hrun, hwin⟩ := tolerated_congr hview
      have hview' := hview
      simp only [heldView, Prod.mk.injEq] at hview'
      obtain ⟨hholds, -, hmem, hsch⟩ := hview'
      refine ⟨⟨hmem, hsch⟩, fun h => (by cases ha.symm.trans h), fun _ h => (by cases hs.symm.trans h), fun _ _ => ⟨hholds, ?_, ?_⟩⟩
      · intro h1 h2
        have ht : tolerated (heldFrame s) = true := by
          rw [tolerated, ← hrun, ← hwin]
          simp only [Bool.and_eq_true, decide_eq_true_eq]
          exact ⟨h1, h2⟩
        rw [holdFound_first s hs, ht]
        exact ⟨rfl, rfl⟩
      · intro h1 htr
        have ht : tolerated (heldFrame s) = false := by
          rw [tolerated, ← hrun, ← hwin]
          simp only [Bool.and_eq_false_iff, decide_eq_false_iff_not]
          exact .inl (Nat.not_le.2 h1)
        rw [holdFound_first s hs, ht, if_neg (by decide), withdraw_trusting (s := heldFrame s) 2 (.inl htr)]
        exact ⟨rfl, rfl, rfl, rfl⟩

/-- Settles O56: records and evidence as they are read, and rules as their kinds say. -/
theorem evidenceAndRules : Obligations.EvidenceAndRules := by
  unfold Obligations.EvidenceAndRules
  refine ⟨⟨fun s h => ?_, fun s hh hs hr hl => ?_, fun s l os hh hs hr hl hrun hw hos => ?_,
    fun s i x r ecc rs hx hj hi he hre hrs => ?_⟩,
    fun s i h => exec_ruleEvaluate_idle h, fun s i r js o hr hj hn hk hjs ho => ?_,
    fun s i r ref bs hr hj hn hk href => ?_, fun s i r hr hj hn hk he => ?_⟩
  · rw [exec_mirrorRecordBin, if_pos]
    rcases h with h | h | h <;> simp [h]
  · rw [exec_mirrorRecordBin_record hh hs hr]
    simp only [binRecord, hl]
  · obtain ⟨hlen, hc⟩ := foldl_raiseCell (fun o => pointCell s l (16 + o)) os s.hl.grid
    exact ⟨binned s l os, by rw [exec_mirrorRecordBin_record hh hs hr, binRecord_bins hl hrun hw, hos], rfl, hlen, hc,
      rfl, rfl, rfl, rfl⟩
  · subst hre
    obtain rfl : rs = evidRows s x := hrs
    refine ⟨fun hn => ?_, fun hd hf hg => ?_, fun hd hf hg => ?_, fun o ho hne => ?_⟩
    · rw [exec_evidenceCopy hx hj he, hn]
      rfl
    · have h := evidenceCopy_done (ecc := ecc) hx hj he hi hd hf
      rw [hg, if_pos rfl, evidBytesOf, evidRows, List.flatMap_map] at h
      exact h
    · have h := evidenceCopy_done (ecc := ecc) hx hj he hi hd hf
      rw [hg] at h
      exact h
    · rw [exec_evidenceCopy hx hj he, ho, Option.isSome_some, if_pos rfl,
        copyEvidence_unended _ (by rw [ho]; simpa using hne), settle_same (by rfl)]
      rfl
  · obtain rfl : js = ruleJobs r := hjs
    obtain rfl : o = jobEnd s := funext ho
    have hev := exec_ruleEvaluate hr hj hn
    have hrule := evalRule_jobsDone (s := s) hk
    refine ⟨fun hno ha => ?_, fun ha => ⟨jobsWords s r, ?_⟩, fun ha => ?_⟩
    · rw [hev, evaluate_none (hrule.trans (evalJobsDone_waits hno ha))]
    · rw [hev, evaluate_met (hrule.trans (evalJobsDone_met ha)) rfl]
      rfl
    · have hf := hrule.trans (evalJobsDone_fails ha)
      obtain ⟨⟨hmem, hsch⟩, hfail, hagain, hfirst⟩ :=
        violation_violated (noted s i { bad := true, words := jobsWords s r, dis := false }) r
      rw [← evaluate_violated hf rfl rfl] at hmem hsch hfail hagain hfirst
      exact ⟨_, _, hev, evaluate_res hf, hmem, hsch, hfail, hagain, hfirst⟩
  · have hev := exec_ruleEvaluate hr hj hn
    have hrule := evalRule_evidence (s := s) (.inl hk)
    refine ⟨fun he => ?_, fun he => ⟨_, hev, evaluate_res (hrule.trans (evalEvidence_missing hk he))⟩, fun he hb => ?_⟩
    · rw [hev, evaluate_none (hrule.trans (evalEvidence_waits hk he))]
    · subst href
      exact ⟨_, _, hev, evaluate_res (hrule.trans (evalEvidence_range hk he hb))⟩
  · rw [exec_ruleEvaluate hr hj hn,
      evaluate_met ((evalRule_evidence (.inr hk)).trans (evalEvidence_delta hk he)) rfl]
    rfl

end Sys2Proof.Proofs
end

section
/-! PROOFS. Known-answer slices (R376 to R384): the start of a slice, what its tasks leave of the counts and of quarantine, and its
end. -/

namespace Sys2Proof.Proofs

open Sys2Proof Sys2Proof.Machine Sys2Proof.Laws

/-! ### The start of a slice (R379, R380, R384) -/

theorem engOf_of_getElem? {s : State} {e : Nat} {x : Engine} (h : s.eng[e]? = some x) : engOf s e = x := by
  rw [engOf, List.getD_eq_getElem?_getD, h]
  rfl

theorem exec_katSliceStart (s : State) (e : Nat) : exec (.katSliceStart e) s =
    .next (if 26 ≤ e || (engOf s e).arr.isSome || (engOf s e).drn.isSome || (engOf s e).kat.isSome || (engOf s e).resetting
        || (engOf s e).quar || sliceHeld s e || s.warm || halted s
      then s
      else match katNext s e with
      | none => s
      | some w => match katFit s e w with
        | .go => startSlice s e w
        | .wait => s
        | .defer => deferSlice s e w) := rfl

theorem exec_katSliceStart_idle {s : State} {e : Nat} (h : 26 ≤ e ∨ katNext s e = none ∨ (engOf s e).quar = true) :
    exec (.katSliceStart e) s = .next s := by
  rw [exec_katSliceStart]
  rcases h with h | h | h
  · rw [if_pos (by simp [h])]
  · rw [h]
    dsimp only
    rw [ite_self]
  · rw [if_pos (by simp [h])]

/-- A slice that is due on an idle engine is admitted by its fit. -/
theorem exec_katSliceStart_due {s : State} {e : Nat} {x : Engine} {w : KatWhy} (he : e < 26) (hx : s.eng[e]? = some x)
    (ha : x.arr = none) (hd : x.drn = none) (hk : x.kat = none) (hr : x.resetting = false) (hq : x.quar = false)
    (hh : sliceHeld s e = false) (hw : s.warm = false) (hl : halted s = false) (hn : katNext s e = some w) :
    exec (.katSliceStart e) s = .next (match katFit s e w with
      | .go => startSlice s e w
      | .wait => s
      | .defer => deferSlice s e w) := by
  rw [exec_katSliceStart, engOf_of_getElem? hx, hn, if_neg]
  simp [ha, hd, hk, hr, hq, hh, hw, hl, he]

section
variable {s : State} {e : Nat} (he : e < s.eng.length) (w : KatWhy)
include he

theorem startSlice_starts : (engOf (startSlice s e w) e).kat = some w ∧ (engOf (startSlice s e w) e).katEnt = nextSlice s e w := by
  unfold startSlice
  dsimp only
  rw [engOf_modEng _ _ _ he]
  exact ⟨rfl, rfl⟩

theorem deferSlice_defers : (engOf (deferSlice s e w) e).kat = none ∧ (engOf (deferSlice s e w) e).deferred = true := by
  have h := engOf_modEng s e
  exact ⟨congrArg Engine.kat (h _ he), congrArg Engine.deferred (h _ he)⟩

end

/-! ### What the tasks of a slice leave -/

/-- The counts of slices. -/
def katCounts (s : State) := (s.saf.katPassed, s.saf.katFailed, s.saf.katDeferred)

/-- With them which engines are quarantined. -/
def quarView (s : State) := (katCounts s, s.eng.map (fun x => x.quar))

section
variable (s : State)

theorem quarView_setSrc (n : Nat) : quarView (setSrc s n) = quarView s := by
  simp only [quarView, katCounts, setSrc_saf, setSrc_eng]

theorem quarView_modEng (e : Nat) {f : Engine → Engine} (hf : ∀ x, (f x).quar = x.quar) : quarView (modEng s e f) = quarView s := by
  show (katCounts s, (modAt s.eng e f).map (fun x => x.quar)) = quarView s
  rw [map_modAt hf]
  rfl

theorem quarView_noteRec (e : Nat) (tok : Word) (d : Desc) (check wrap sat : Nat) :
    quarView (noteRec s e tok d check wrap sat) = quarView s := by
  have hw : ∀ (r : TRec) (ws : List Word), quarView (writeTrec s r ws) = quarView s := fun r ws => by
    simp only [quarView, katCounts, writeTrec, storeWords, store]
  refine (quarView_modEng _ e ?_).trans (hw _ _)
  exact fun _ => rfl

theorem quarView_store (a : Nat) (bs : List Byte) : quarView (store s a bs) = quarView s := rfl

theorem quarView_doWrites (ws : List (Nat × List Byte)) : quarView (doWrites s ws false) = quarView s :=
  foldl_keeps quarView (fun (s : State) (w : Nat × List Byte) => if false = true then storePoisoned s w.1 w.2 else store s w.1 w.2)
    (fun s w => quarView_store s w.1 w.2) ws s

theorem quarView_sliceErr (e : Nat) (x : EngErr) : quarView (sliceErr e s x) = quarView s := by
  have hu : quarView (setSrc (bumpUc s e) (ucSource e)) = quarView s :=
    (quarView_setSrc _ _).trans (quarView_modEng _ e (fun _ => rfl))
  have hc : quarView (setSrc (bumpCe s e) (ceSource e)) = quarView s :=
    (quarView_setSrc _ _).trans (quarView_modEng _ e (fun _ => rfl))
  cases x with
  | buffer k uc => exact ite_keeps quarView rfl hc
  | basin r uc => exact ite_keeps quarView rfl (ite_keeps quarView hu hc)

/-- No unit of a clean store is poisoned. -/
theorem poisoned_clean (h : Clean s) (a n : Nat) : poisoned s a n = false := by
  simp [poisoned, h.1, h.2]

theorem noteRec_clean {s : State} (e : Nat) (tok : Word) (d : Desc) (check wrap sat : Nat) (h : Clean s) :
    Clean (noteRec s e tok d check wrap sat) := by
  simp only [Clean, noteRec, writeTrec, modEng, storeWords, store, h.1, h.2, List.filter_nil, and_self]

theorem doWrites_clean {s : State} (ws : List (Nat × List Byte)) (h : Clean s) : Clean (doWrites s ws false) := by
  unfold doWrites
  induction ws generalizing s with
  | nil => exact h
  | cons w ws ih =>
    refine ih ?_
    simp only [Bool.false_eq_true, if_false, Clean, store, h.1, h.2, List.filter_nil, and_self]

end

/-- What an item of a slice on engine `e` comes to: its record alone where something it reads is poisoned, and else also its counts,
the source of a mismatch and its writes. -/
inductive ItemRun (e : Nat) (r x : SliceRun) : Prop
  | poisoned (hp : ∃ a n, poisoned r.s a n = true) (tok : Word) (d : Desc)
      (hx : x.s = noteRec { r.s with free := r.s.free + 1 } e tok d 6 0 0)
  | ran (hb : x.bad = false) (tok : Word) (d : Desc) (c w t : Nat) (f : Engine → Engine) (hf : ∀ g, (f g).quar = g.quar) (mis : Bool)
      (ws : List (Nat × List Byte))
      (hx : x.s = doWrites (if mis then setSrc (modEng (noteRec { r.s with free := r.s.free + 1 } e tok d c w t) e f) (misSource e)
        else modEng (noteRec { r.s with free := r.s.free + 1 } e tok d c w t) e f) ws false)

section
variable (e : Nat) (lanes : List (Nat × (Nat × Nat × Word))) (flips : List (Nat × Byte))

theorem sliceItem_run (r : SliceRun) (it : List Desc × Nat) (hb : r.bad = false) : ItemRun e r (sliceItem e lanes flips r it) := by
  unfold sliceItem
  rw [if_neg (by simp [hb])]
  refine iteInduction (motive := ItemRun e r) (fun hp => ?_) (fun _ => ?_)
  · obtain ⟨g, -, hg⟩ := List.any_eq_true.1 hp
    exact .poisoned ⟨g.1, g.2, hg⟩ _ _ rfl
  · exact .ran rfl _ _ _ _ _ _ (fun _ => by exact rfl) _ _ rfl

theorem sliceItem_quarView (r : SliceRun) (it : List Desc × Nat) : quarView (sliceItem e lanes flips r it).s = quarView r.s := by
  have hn : ∀ tok d c w t, quarView (noteRec { r.s with free := r.s.free + 1 } e tok d c w t) = quarView r.s :=
    fun _ _ _ _ _ => quarView_noteRec _ _ _ _ _ _ _
  cases hb : r.bad with
  | true => rw [sliceItem, if_pos hb]
  | false =>
    cases sliceItem_run e lanes flips r it hb with
    | poisoned hp tok d hx => exact hx ▸ hn _ _ _ _ _
    | ran hb tok d c w t f hf mis ws hx =>
      have hm := (quarView_modEng _ e hf).trans (hn tok d c w t)
      rw [hx, quarView_doWrites]
      exact ite_keeps quarView ((quarView_setSrc _ _).trans hm) hm

/-- Without poison an item is run to its end. -/
theorem sliceItem_clean {r : SliceRun} (it : List Desc × Nat) (hb : r.bad = false) (hc : Clean r.s) :
    (sliceItem e lanes flips r it).bad = false ∧ Clean (sliceItem e lanes flips r it).s := by
  cases sliceItem_run e lanes flips r it hb with
  | poisoned hp tok d hx =>
    obtain ⟨a, n, hp⟩ := hp
    rw [poisoned_clean r.s hc] at hp
    cases hp
  | ran hb tok d c w t f hf mis ws hx =>
    have hm : Clean (modEng (noteRec { r.s with free := r.s.free + 1 } e tok d c w t) e f) :=
      noteRec_clean (s := { r.s with free := r.s.free + 1 }) e tok d c w t hc
    refine ⟨hb, hx ▸ doWrites_clean ws ?_⟩
    split
    · exact setSrc_clean _ hm
    · exact hm

theorem runSlice_quarView (s : State) : quarView (runSlice s e lanes flips).s = quarView s := by
  unfold runSlice
  dsimp only
  generalize (sliceItems s e).zipIdx = l
  suffices h : ∀ r : SliceRun, quarView (l.foldl (sliceItem e lanes flips) r).s = quarView r.s from h _
  induction l with
  | nil => exact fun _ => rfl
  | cons it l ih => exact fun r => (ih _).trans (sliceItem_quarView e lanes flips r it)

/-- A slice whose descriptors come poisoned runs nothing (R384). -/
theorem runSlice_poisoned {s : State} (h : slicePoisoned s e = true) :
    (runSlice s e lanes flips).bad = true ∧ (runSlice s e lanes flips).s = s := by
  unfold runSlice
  dsimp only
  generalize (sliceItems s e).zipIdx = l
  rw [h]
  suffices hl : ∀ r : SliceRun, r.bad = true → l.foldl (sliceItem e lanes flips) r = r by
    rw [hl _ rfl]
    exact ⟨rfl, rfl⟩
  induction l with
  | nil => exact fun _ _ => rfl
  | cons it l ih =>
    intro r hr
    have hi : sliceItem e lanes flips r it = r := if_pos hr
    rw [List.foldl_cons, hi, ih r hr]

/-- Without poison a slice runs to its end. -/
theorem runSlice_clean {s : State} (h : Clean s) : (runSlice s e lanes flips).bad = false := by
  unfold runSlice
  dsimp only
  generalize (sliceItems s e).zipIdx = l
  have h0 : slicePoisoned s e = false := poisoned_clean s h _ _
  rw [h0]
  suffices hl : ∀ r : SliceRun, r.bad = false → Clean r.s → (l.foldl (sliceItem e lanes flips) r).bad = false from hl _ rfl h
  induction l with
  | nil => exact fun _ hb _ => hb
  | cons it l ih =>
    intro r hb hc
    obtain ⟨hb', hc'⟩ := sliceItem_clean e lanes flips it hb hc
    exact ih _ hb' hc'

end

/-! ### The end of a slice (R378, R383, R384) -/

/-- The counts of slices and the engines. -/
def endView (s : State) := (katCounts s, s.eng)

theorem endView_conclude (s : State) : endView (conclude s) = endView s := by
  unfold conclude
  split
  · rfl
  · exact ite_keeps endView rfl rfl

theorem endView_finishTests (s : State) : endView (finishTests s) = endView s :=
  foldl_keeps endView (fun (s : State) (x : SelfTest) => finishTok s x.token .ok (testWords x)) (fun _ _ => rfl) _ s

/-- A slice that passes is counted, and leaves its engine. -/
theorem endView_slicePass (s : State) (e : Nat) (w : KatWhy) : ∃ f : Engine → Engine, (∀ x, (f x).kat = none ∧ (f x).quar = x.quar)
    ∧ endView (slicePass s e w)
      = ((satAdd 0xFFFF s.saf.katPassed 1, s.saf.katFailed, s.saf.katDeferred), modAt s.eng e f) := by
  unfold slicePass
  cases w with
  | immediate => exact ⟨_, fun _ => by exact ⟨rfl, rfl⟩, endView_conclude _⟩
  | commanded tok => exact ⟨_, fun _ => by exact ⟨rfl, rfl⟩, endView_finishTests _⟩
  | periodic | armed | startup => exact ⟨_, fun _ => by exact ⟨rfl, rfl⟩, rfl⟩

theorem endView_quarantine (s : State) (e : Nat) : endView (quarantine s e)
    = (katCounts s, modAt s.eng e (fun x => { x with quar := true, kat := none, katDue := [] })) :=
  (endView_finishTests _).trans (endView_conclude _)

section
variable {s t : State} {e : Nat}

theorem length_of_quarView (h : quarView t = quarView s) : t.eng.length = s.eng.length := by
  simp only [quarView, Prod.mk.injEq] at h
  simpa using congrArg List.length h.2

theorem engOf_quar_of_quarView (h : quarView t = quarView s) : (engOf t e).quar = (engOf s e).quar :=
  engOf_tells (congrArg (·.2) h) e

/-- The engine changed, where the change is known of the engines alone. -/
theorem engOf_of_modAt {f : Engine → Engine} (he : e < s.eng.length) (h : t.eng = modAt s.eng e f) : engOf t e = f (engOf s e) := by
  rw [engOf, h]
  exact getD_modAt he f {}

/-- A slice that consumes poison leaves its engine without a result; it counts as deferred, and its source sets (R384). -/
theorem slicePoison_ends (he : e < s.eng.length) (he' : e < 26) (w : KatWhy) :
    (engOf (slicePoison s e w) e).kat = none ∧ (engOf (slicePoison s e w) e).deferred = true
      ∧ (engOf (slicePoison s e w) e).quar = (engOf s e).quar
      ∧ katCounts (slicePoison s e w) = (s.saf.katPassed, s.saf.katFailed, satAdd 0xFF s.saf.katDeferred 1)
      ∧ (slicePoison s e w).fc.fsw.getLsbD (ucSource e) = true := by
  have hs : quarView (setSrc (bumpUc s e) (ucSource e)) = quarView s :=
    (quarView_setSrc _ _).trans (quarView_modEng _ e (fun _ => rfl))
  have hsaf : (setSrc (bumpUc s e) (ucSource e)).saf = s.saf := setSrc_saf _ _
  have hset := setSrc_sets_bit (bumpUc s e) (ucSource_named he').1 (ucSource_named he').2
  unfold slicePoison
  dsimp only
  generalize setSrc (bumpUc s e) (ucSource e) = u at hs hsaf hset
  generalize hv : modEng u e _ = v
  have hvq : quarView v = quarView s := by
    rw [← hv]
    refine (quarView_modEng u e ?_).trans hs
    exact fun _ => rfl
  have hvs : v.saf = s.saf := by rw [← hv]; exact hsaf
  have hvf : v.fc.fsw.getLsbD (ucSource e) = true := by rw [← hv]; exact hset
  have hve : e < v.eng.length := (length_of_quarView hvq).symm ▸ he
  obtain ⟨hk, hd⟩ := deferSlice_defers hve w
  refine ⟨hk, hd, ?_, ?_, hvf⟩
  · exact (congrArg Engine.quar (engOf_modEng v e _ hve)).trans (engOf_quar_of_quarView hvq)
  · show (v.saf.katPassed, v.saf.katFailed, satAdd 0xFF v.saf.katDeferred 1) = _
    rw [hvs]

theorem settle_katCounts (s t : State) : katCounts (settle s t) = katCounts t := by
  have h := katSide_settle t s
  simp only [katSide, Prod.mk.injEq] at h
  simp only [katCounts, h]

theorem settle_quar (s t : State) (e : Nat) : (engOf (settle s t) e).quar = (engOf t e).quar := by
  have h := katSide_settle t s
  simp only [katSide, Prod.mk.injEq] at h
  exact congrArg (·.1) (engOf_tells (f := fun x => (x.quar, x.rot)) h.2.2.2.2 e)

theorem settle_kat {s t : State} (h : (engOf t e).kat = none) : (engOf (settle s t) e).kat = none := by
  obtain h' | h' := settle_cases s t <;> rw [h']
  · exact h
  · exact engOf_faReact_kat t e

end

/-! ### KAT_SLICE_END -/

section
variable {s : State} {e c : Nat} {ls : List (Nat × (Nat × Nat × Word))} {fs : List (Nat × Byte)} {errs : List EngErr}

theorem exec_katSliceEnd_idle (h : (engOf s e).kat = none) : exec (.katSliceEnd e c ls fs errs) s = .next s := by
  show execKatSliceEnd e c ls fs s errs = _
  unfold execKatSliceEnd
  rw [h]
  dsimp only
  rw [ite_self]

variable {w : KatWhy}

theorem exec_katSliceEnd (hh : halted s = false) (hk : (engOf s e).kat = some w) :
    exec (.katSliceEnd e c ls fs errs) s = .next (settle s (endSlice s e c ls fs w errs)) := by
  show execKatSliceEnd e c ls fs s errs = _
  unfold execKatSliceEnd
  rw [hh, hk]
  rfl

/-- The run of the slice that ends, after the errors that decoders find. -/
def endedRun (s : State) (e c : Nat) (ls : List (Nat × (Nat × Nat × Word))) (fs : List (Nat × Byte)) (errs : List EngErr) : SliceRun :=
  runSlice (errs.foldl (sliceErr e) (elapse s c)) e ls fs

theorem endedRun_quarView : quarView (endedRun s e c ls fs errs).s = quarView s := by
  refine (runSlice_quarView e ls fs _).trans ((foldl_keeps quarView _ (fun u x => quarView_sliceErr u e x) errs _).trans ?_)
  simp only [quarView, katCounts, elapse_saf, elapse_eng]

theorem lt_of_kat (hk : (engOf s e).kat = some w) : e < s.eng.length :=
  lt_length_of_getD (d := ({} : Engine)) Engine.kat (by
    show (engOf s e).kat ≠ _
    rw [hk]
    exact fun h => nomatch h)

theorem lt_endedRun (hk : (engOf s e).kat = some w) : e < (endedRun s e c ls fs errs).s.eng.length :=
  (length_of_quarView endedRun_quarView).symm ▸ lt_of_kat hk

theorem katCounts_endedRun : katCounts (endedRun s e c ls fs errs).s = katCounts s := congrArg (·.1) endedRun_quarView

/-- A slice that failed: its engine is quarantined, and the failure is counted and sets its source (R383). -/
def sliceFail (s : State) (e : Nat) : State :=
  setSrc { quarantine s e with saf := { (quarantine s e).saf with
    katFailed := satAdd 0xFF (quarantine s e).saf.katFailed 1 } } 107

/-- How a slice ends: without a result, having passed in its time, or having failed. -/
inductive SliceEnd (s : State) (e c : Nat) (w : KatWhy) (r : SliceRun) (errs : List EngErr) (t : State) : Prop
  | poison (hb : r.bad = true ∨ sliceUc errs = true) (ht : t = slicePoison r.s e w)
  | pass (hc : c ≤ sliceLen (engOf s e).katEnt) (ht : t = slicePass r.s e w)
  | fail (ht : t = sliceFail r.s e)

theorem endSlice_ends : SliceEnd s e c w (endedRun s e c ls fs errs) errs (endSlice s e c ls fs w errs) := by
  unfold endSlice
  refine iteInduction (fun hb => ?_) (fun _ => iteInduction (fun hc => ?_) (fun _ => ?_))
  · exact .poison (by simpa [endedRun] using hb) rfl
  · simp only [Bool.and_eq_true, decide_eq_true_eq] at hc
    exact .pass hc.1.1 rfl
  · exact .fail rfl

end

end Sys2Proof.Proofs
end

section
/-! PROOFS. Known-answer slices (R376 to R384), clause by clause: their start, and what the state settles in after their end. -/

namespace Sys2Proof.Proofs

open Sys2Proof Sys2Proof.Machine Sys2Proof.Laws

/-! ### KAT_SLICE_START by the fit of the slice -/

section
variable {s : State} {e : Nat} {x : Engine} {w : KatWhy}

theorem startSlice_others (j : Nat) (h : j ≠ e) : (startSlice s e w).eng[j]? = s.eng[j]? := by
  unfold startSlice modEng
  dsimp only
  rw [getElem?_modAt, if_neg h]

theorem sliceStart_admitted (he : e < 26) (hx : s.eng[e]? = some x) (ha : x.arr = none) (hd : x.drn = none) (hk : x.kat = none)
    (hr : x.resetting = false) (hq : x.quar = false) (hh : sliceHeld s e = false) (hw : s.warm = false) (hl : halted s = false)
    (hn : katNext s e = some w) :
    (katFit s e w = .go → ∃ t, exec (.katSliceStart e) s = .next t ∧ (engOf t e).kat = some w
      ∧ (engOf t e).katEnt = nextSlice s e w ∧ (∀ j, j ≠ e → t.eng[j]? = s.eng[j]?) ∧ t.saf = s.saf ∧ t.mem = s.mem)
    ∧ (katFit s e w = .wait → exec (.katSliceStart e) s = .next s)
    ∧ (katFit s e w = .defer → ∃ t, exec (.katSliceStart e) s = .next t ∧ (engOf t e).kat = none
      ∧ (engOf t e).deferred = true ∧ t.saf = { s.saf with katDeferred := satAdd 0xFF s.saf.katDeferred 1 }) := by
  have hlt : e < s.eng.length := (List.getElem?_eq_some_iff.1 hx).1
  rw [exec_katSliceStart_due he hx ha hd hk hr hq hh hw hl hn]
  refine ⟨fun hf => ?_, fun hf => ?_, fun hf => ?_⟩ <;> rw [hf]
  · obtain ⟨hkat, hent⟩ := startSlice_starts hlt w
    exact ⟨_, rfl, hkat, hent, startSlice_others, rfl, rfl⟩
  · obtain ⟨hkat, hdef⟩ := deferSlice_defers hlt w
    exact ⟨_, rfl, hkat, hdef, rfl⟩

end

/-! ### KAT_SLICE_END by how the slice ended -/

section
variable {s t : State} {e c : Nat} {ls : List (Nat × (Nat × Nat × Word))} {fs : List (Nat × Byte)} {errs : List EngErr} {w : KatWhy}

/-- The source of an engine's uncorrectable words is not fatal. -/
theorem srcFA_ucSource (he : e < 26) : srcFA (ucSource e) = false := by
  revert e
  decide

theorem slicePoison_harmless (he : e < 26) (h : Harmless s t) : Harmless s (slicePoison t e w) := by
  have hb : Harmless s (setSrc (bumpUc t e) (ucSource e)) :=
    (h.congr (u := bumpUc t e) rfl).setSrc (ucSource_named he).1 (srcFA_ucSource he)
  exact hb.congr rfl

theorem slicePass_ends (hlt : e < s.eng.length) : (engOf (slicePass s e w) e).kat = none
    ∧ (engOf (slicePass s e w) e).quar = (engOf s e).quar
    ∧ katCounts (slicePass s e w) = (satAdd 0xFFFF s.saf.katPassed 1, s.saf.katFailed, s.saf.katDeferred) := by
  obtain ⟨f, hf, hv⟩ := endView_slicePass s e w
  simp only [endView, Prod.mk.injEq] at hv
  obtain ⟨hc, he⟩ := hv
  rw [engOf_of_modAt hlt he]
  exact ⟨(hf _).1, (hf _).2, hc⟩

theorem sliceFail_ends (hlt : e < s.eng.length) : (engOf (sliceFail s e) e).kat = none ∧ (engOf (sliceFail s e) e).quar = true
    ∧ katCounts (sliceFail s e) = (s.saf.katPassed, satAdd 0xFF s.saf.katFailed 1, s.saf.katDeferred)
    ∧ (sliceFail s e).fc.fsw.getLsbD 107 = true := by
  have hv := endView_quarantine s e
  simp only [endView, katCounts, Prod.mk.injEq] at hv
  obtain ⟨⟨hp, hf, hd⟩, he⟩ := hv
  have heng : (sliceFail s e).eng = modAt s.eng e (fun x => { x with quar := true, kat := none, katDue := [] }) := by
    rw [← he, sliceFail, setSrc_eng]
  rw [engOf_of_modAt hlt heng]
  refine ⟨rfl, rfl, ?_, setSrc_sets_bit _ (by decide) (by decide)⟩
  simp only [katCounts, sliceFail, setSrc_saf, hp, hf, hd]

/-- However a slice ends, its engine holds it no longer. -/
theorem endSlice_kat (he : e < 26) (hk : (engOf s e).kat = some w) : (engOf (endSlice s e c ls fs w errs) e).kat = none := by
  have hlt : e < (endedRun s e c ls fs errs).s.eng.length := lt_endedRun hk
  cases endSlice_ends (s := s) (e := e) (c := c) (ls := ls) (fs := fs) (errs := errs) (w := w) with
  | poison hb ht => exact ht ▸ (slicePoison_ends hlt he w).1
  | pass hc ht => exact ht ▸ (slicePass_ends hlt).1
  | fail ht => exact ht ▸ (sliceFail_ends hlt).1

theorem poisoned_congr (hp : t.poison = s.poison) (hc : t.csramBad = s.csramBad) (a n : Nat) : poisoned t a n = poisoned s a n := by
  unfold poisoned
  rw [hp, hc]

/-- A slice whose descriptors come poisoned ends as if it had not run (R384). -/
theorem endSlice_poisoned (h : slicePoisoned s e = true) :
    endSlice s e c ls fs w = slicePoison (elapse s c) e w := by
  have he : engOf (elapse s c) e = engOf s e := congrArg (·.getD e {}) (elapse_eng s c)
  have h' : slicePoisoned (elapse s c) e = true := by
    rw [slicePoisoned, he, poisoned_congr (elapse_poison s c) (elapse_csramBad s c)]
    exact h
  obtain ⟨hb, hs⟩ := runSlice_poisoned e ls fs h'
  unfold endSlice
  rw [List.foldl_nil]
  dsimp only
  rw [hb, hs, if_pos (Bool.true_or _)]

theorem endSlice_uncorrectable (h : sliceUc errs = true) :
    endSlice s e c ls fs w errs = slicePoison (endedRun s e c ls fs errs).s e w := if_pos (by rw [h, Bool.or_true])

theorem sliceEnd_poisoned (he : e < 26) (hk : (engOf s e).kat = some w) (h : slicePoisoned s e = true) :
    (engOf (settle s (endSlice s e c ls fs w)) e).deferred = true
      ∧ (settle s (endSlice s e c ls fs w)).fc.fsw.getLsbD (ucSource e) = true := by
  have hlt : e < (elapse s c).eng.length := (elapse_eng s c).symm ▸ lt_of_kat hk
  have hq : Harmless s (slicePoison (elapse s c) e w) := slicePoison_harmless he (.of_fsw (by rw [elapse_fc]))
  obtain ⟨-, hd, -, -, hf⟩ := slicePoison_ends hlt he w
  rw [endSlice_poisoned h, hq.settle]
  exact ⟨hd, hf⟩

theorem elapse_clean (h : Clean s) (n : Nat) : Clean (elapse s n) :=
  ⟨(elapse_poison s n).trans h.1, (elapse_csramBad s n).trans h.2⟩

theorem endedRun_clean (h : Clean s) : (endedRun s e c ls fs []).bad = false := by
  unfold endedRun
  rw [List.foldl_nil]
  exact runSlice_clean e ls fs (elapse_clean h c)

/-- Without poison a slice has passed, counted, or its engine is quarantined, counted, with source 107 (R378, R383). -/
theorem sliceEnd_clean (hk : (engOf s e).kat = some w) (h : Clean s) (t : State) (ht : t = settle s (endSlice s e c ls fs w)) :
    ((engOf t e).quar = (engOf s e).quar ∧ t.saf.katPassed = satAdd 0xFFFF s.saf.katPassed 1 ∧ c ≤ sliceLen (engOf s e).katEnt)
    ∨ ((engOf t e).quar = true ∧ t.saf.katFailed = satAdd 0xFF s.saf.katFailed 1 ∧ t.fc.fsw.getLsbD 107 = true) := by
  have hlt : e < (endedRun s e c ls fs []).s.eng.length := lt_endedRun hk
  have hr : (endedRun s e c ls fs []).bad = false := endedRun_clean h
  have hq : (engOf (endedRun s e c ls fs []).s e).quar = (engOf s e).quar := engOf_quar_of_quarView endedRun_quarView
  have hcnt := katCounts_endedRun (s := s) (e := e) (c := c) (ls := ls) (fs := fs) (errs := [])
  have hset := settle_katCounts s (endSlice s e c ls fs w)
  simp only [katCounts, Prod.mk.injEq] at hcnt hset
  obtain ⟨hp, hf, -⟩ := hcnt
  obtain ⟨hsp, hsf, -⟩ := hset
  subst ht
  rw [settle_quar, hsp, hsf]
  cases endSlice_ends (s := s) (e := e) (c := c) (ls := ls) (fs := fs) (errs := []) (w := w) with
  | poison hb ht =>
    rw [hr] at hb
    exact absurd hb (by simp [sliceUc])
  | pass hc ht =>
    obtain ⟨-, hpq, hpc⟩ := slicePass_ends (w := w) hlt
    simp only [katCounts, Prod.mk.injEq] at hpc
    rw [ht]
    exact .inl ⟨hpq.trans hq, by rw [hpc.1, hp], hc⟩
  | fail ht =>
    obtain ⟨-, hfq, hfc, hfs⟩ := sliceFail_ends hlt
    simp only [katCounts, Prod.mk.injEq] at hfc
    rw [ht]
    exact .inr ⟨hfq, by rw [hfc.2.1, hf], settle_fsw _ _ hfs⟩

/-- An operand that a decoder finds uncorrectable ends the slice without a result (R100, R384). -/
theorem sliceEnd_uncorrectable (he : e < 26) (hk : (engOf s e).kat = some w) (h : sliceUc errs = true) (t : State)
    (ht : t = settle s (endSlice s e c ls fs w errs)) :
    (engOf t e).quar = (engOf s e).quar ∧ t.saf.katPassed = s.saf.katPassed ∧ t.saf.katFailed = s.saf.katFailed
    ∧ t.saf.katDeferred = satAdd 0xFF s.saf.katDeferred 1 ∧ t.fc.fsw.getLsbD (ucSource e) = true := by
  have hq : (engOf (endedRun s e c ls fs errs).s e).quar = (engOf s e).quar := engOf_quar_of_quarView endedRun_quarView
  have hcnt := katCounts_endedRun (s := s) (e := e) (c := c) (ls := ls) (fs := fs) (errs := errs)
  obtain ⟨-, -, hpq, hpc, hpf⟩ := slicePoison_ends (s := (endedRun s e c ls fs errs).s) (lt_endedRun hk) he w
  have hset := settle_katCounts s (slicePoison (endedRun s e c ls fs errs).s e w)
  rw [hpc] at hset
  simp only [katCounts, Prod.mk.injEq] at hcnt hset
  obtain ⟨hp, hf, hd⟩ := hcnt
  obtain ⟨hsp, hsf, hsd⟩ := hset
  subst ht
  rw [endSlice_uncorrectable h, settle_quar, hsp, hsf, hsd, hp, hf, hd]
  exact ⟨hpq.trans hq, rfl, rfl, rfl, settle_fsw _ _ hpf⟩

end

end Sys2Proof.Proofs
end

section
/-! PROOFS. RUN_SELFTEST (R382). -/

namespace Sys2Proof.Proofs

open Sys2Proof Sys2Proof.Machine Sys2Proof.Laws

theorem mem_maskEngs {m e : Nat} : e ∈ maskEngs m ↔ e < 26 ∧ m.testBit e = true := by
  simp [maskEngs, Nat.testBit_eq_decide_div_mod_eq]

/-- A mask of engines that is neither empty nor has a reserved bit names one. -/
theorem maskEngs_ne_nil {m : Nat} (h0 : 0 < m) (h : m < 2 ^ 26) : ∃ e, e ∈ maskEngs m := by
  obtain ⟨e, he⟩ := Nat.exists_testBit_of_ne_zero h0.ne'
  refine ⟨e, mem_maskEngs.2 ⟨?_, he⟩⟩
  by_contra hlt
  rw [Nat.testBit_lt_two_pow (h.trans_le (Nat.pow_le_pow_right (by decide) (not_lt.1 hlt)))] at he
  cases he

theorem kindCode_lt (k : EngKind) : kindCode k < 7 := by
  cases k <;> decide

/-- The slices that a self-test of the engines of mask `m` owes. -/
def owedSlices (p : Pack) (m : Nat) : List (Nat × Nat) :=
  (maskEngs m).flatMap (fun e => (List.range (packSlices p (kindCode (engKind e))).length).map (fun i => (e, i)))

theorem mem_owedSlices {p : Pack} {m e i : Nat} : (e, i) ∈ owedSlices p m ↔
    e < 26 ∧ m.testBit e = true ∧ i < (packSlices p (kindCode (engKind e))).length := by
  simp only [owedSlices, List.mem_flatMap, List.mem_map, List.mem_range, mem_maskEngs, Prod.mk.injEq]
  constructor
  · rintro ⟨e, ⟨he, hm⟩, i, hi, rfl, rfl⟩
    exact ⟨he, hm, hi⟩
  · rintro ⟨he, hm, hi⟩
    exact ⟨e, ⟨he, hm⟩, i, hi, rfl, rfl⟩

theorem owedSlices_ne_nil {p : Pack} {m : Nat} (hp : ∀ j < 7, packSlices p j ≠ []) (h0 : 0 < m) (h : m < 2 ^ 26) :
    owedSlices p m ≠ [] := by
  obtain ⟨e, he⟩ := maskEngs_ne_nil h0 h
  obtain ⟨he, hm⟩ := mem_maskEngs.1 he
  exact List.ne_nil_of_mem (mem_owedSlices.2 ⟨he, hm, List.length_pos_of_ne_nil (hp _ (kindCode_lt _))⟩)

/-- No self-test has its result while each owes a slice. -/
theorem finishTests_owed {s : State} (h : ∀ x ∈ s.saf.tests, x.todo ≠ []) : finishTests s = s := by
  have hn : s.saf.tests.filter (fun x => x.todo.isEmpty) = [] := by simpa using h
  have ha : s.saf.tests.filter (fun x => !x.todo.isEmpty) = s.saf.tests := by simpa using h
  unfold finishTests
  rw [hn]
  dsimp only [List.foldl_nil]
  rw [ha]

section
variable {k : Pkt} {s s0 : State} {m : Nat}

theorem selftest_refused (h : starts s 0x53 0 k = some s0) (hm : m = (wd k.params 0).toNat)
    (hr : m = 0 ∨ 2 ^ 26 ≤ m ∨ ∃ e < 26, m.testBit e = true ∧ (engOf s e).quar = true) :
    exec (.runSelftest k) s = .next (answered s0 0x53 k .badParam [0, 2]) := by
  obtain ⟨c, rfl⟩ := starts_cmd h
  refine congrArg Host.Outcome.next (command_refuses (body := doRunSelftest k) h ?_)
  unfold doRunSelftest
  rw [← hm]
  dsimp only
  by_cases h0 : m = 0 ∨ 2 ^ 26 ≤ m
  · rw [if_pos (by simpa using h0)]
    rfl
  · obtain ⟨e, he, ht, hq⟩ : ∃ e < 26, m.testBit e = true ∧ (engOf s e).quar = true := by tauto
    rw [if_neg (by simpa using h0), if_pos (List.any_eq_true.2 ⟨e, mem_maskEngs.2 ⟨he, ht⟩, hq⟩)]
    rfl

theorem selftest_accepted (h : starts s 0x53 0 k = some s0) (hm : m = (wd k.params 0).toNat) (h0 : 0 < m) (hlt : m < 2 ^ 26)
    (hq : ∀ e < 26, m.testBit e = true → (engOf s e).quar = false) (ht : ∀ x ∈ s.saf.tests, x.todo ≠ [])
    (hp : ∀ j < 7, packSlices s.saf.pack j ≠ []) : ∃ t x,
    exec (.runSelftest k) s = .next (answered t 0x53 k .accepted [BitVec.ofNat 32 s.sch.cmdSeq])
    ∧ t.saf.tests = s.saf.tests ++ [x] ∧ x.token = BitVec.ofNat 32 s.sch.cmdSeq ∧ x.passed = [] ∧ x.failed = []
    ∧ (∀ e i, (e, i) ∈ x.todo ↔ e < 26 ∧ m.testBit e = true ∧ i < (packSlices s.saf.pack (kindCode (engKind e))).length)
    ∧ t.eng = s.eng ∧ t.mem = s.mem := by
  obtain ⟨c, rfl⟩ := starts_cmd h
  have hb : doRunSelftest k { s with cmd := c } =
      ({ (issueCmd { s with cmd := c } k.port).2 with saf := { s.saf with
        tests := s.saf.tests ++ [⟨BitVec.ofNat 32 s.sch.cmdSeq, [], [], owedSlices s.saf.pack m⟩] } },
       some (.accepted, [BitVec.ofNat 32 s.sch.cmdSeq])) := by
    have hna : (maskEngs m).any (fun e => (engOf { s with cmd := c } e).quar) = false := by
      simp only [List.any_eq_false, mem_maskEngs, Bool.not_eq_true]
      exact fun e he => hq e he.1 he.2
    unfold doRunSelftest
    rw [← hm]
    dsimp only
    rw [if_neg (by simp; omega), hna, if_neg Bool.false_ne_true]
    refine congrArg (·, _) (finishTests_owed fun x hx => ?_)
    rcases List.mem_append.1 hx with hx | hx
    · exact ht x hx
    · rw [List.mem_singleton.1 hx]
      exact owedSlices_ne_nil hp h0 hlt
  exact ⟨_, _, congrArg Host.Outcome.next (command_starts h hb rfl), rfl, rfl, rfl, rfl, fun _ _ => mem_owedSlices, rfl, rfl⟩

end

end Sys2Proof.Proofs
end

section
/-! PROOFS. What the checks of a test pack (R386) hang on: of the state, its part alone. -/

namespace Sys2Proof.Proofs

open Sys2Proof Sys2Proof.Machine Sys2Proof.Laws

section
variable {s t : State} (h : t.part = s.part)
include h

theorem isDram_of_part (a : Nat) : isDram t a = isDram s a := by
  unfold isDram dramEnd
  rw [h]

theorem inDram_of_part (a n : Nat) : inDram t a n = inDram s a n := by
  unfold inDram dramEnd
  rw [h]

theorem refAligned_of_part (r : List Word) (w : Bool) : refAligned t r w = refAligned s r w := by
  unfold refAligned
  rw [isDram_of_part h]

theorem refPlaced_of_part (n : Nat) (r : List Word) (o : Bool) : refPlaced t n r o = refPlaced s n r o := by
  unfold refPlaced
  dsimp only
  rw [inDram_of_part h]

variable (p : Plan) (i : Bool) (so : List Nat) (jo : List (List Nat)) (c : SensorCfg)

theorem ioBad_of_part (r : List Word) (w : Bool) : ioBad ⟨t, p, i, so, jo, c⟩ r w = ioBad ⟨s, p, i, so, jo, c⟩ r w := by
  unfold ioBad
  rw [refAligned_of_part h, refPlaced_of_part h]

theorem meBadIn_of_part (d : Desc) (ds : List Desc) (k o : Nat) (sr : Bool) :
    meBadIn ⟨t, p, i, so, jo, c⟩ d ds k o sr = meBadIn ⟨s, p, i, so, jo, c⟩ d ds k o sr := by
  simp only [meBadIn, refAligned_of_part h, refPlaced_of_part h]

/-- A descriptor is judged by the part. -/
theorem descBad_of_part : descBad ⟨t, p, i, so, jo, c⟩ = descBad ⟨s, p, i, so, jo, c⟩ := by
  funext ⟨d, o⟩
  have hio := ioBad_of_part h p i so jo c
  unfold descBad
  dsimp only
  generalize d.kind = kd
  cases kd <;> dsimp only
  case me =>
    rw [meBadIn_of_part h]
    rfl
  case ve =>
    simp only [veBad, hio]
    rfl
  case warp => simp only [warpBad, hio]
  case crop => simp only [cropBad, hio]
  case sort => simp only [sortBad, hio]
  case pcl =>
    simp only [pclBad, hio]
    rfl
  case ae => simp only [aeBad, hio]

/-- And so is a test pack. -/
theorem packBad_of_part (q : Pack) (bs : List Byte) : packBad t q bs = packBad s q bs := by
  unfold packBad
  simp only [descBad_of_part h]

end

end Sys2Proof.Proofs
end

section
/-! PROOFS. Test packs (R385, R386): LOAD_TEST_PACK, and the end of a pack's verification. -/

namespace Sys2Proof.Proofs

open Sys2Proof Sys2Proof.Machine Sys2Proof.Laws

/-! ### LOAD_TEST_PACK -/

section
variable {k : Pkt} {s s0 : State} {a n : Nat}

/-- The command's answer, where the high word of its address has no reserved bits. -/
theorem doLoadTestPack_of_pair (hh : (wd k.params 1).toNat < 65536) (ha : a = (wd k.params 0).toNat + (wd k.params 1).toNat * 2 ^ 32)
    (hn : n = (wd k.params 2).toNat) : doLoadTestPack k s =
      if s.saf.packLoad.isSome || s.saf.packNext.isSome then refuse s .busy []
      else if !inDram s a n || hits (setRegions s ++ seqRegions s ++ fwRegions s) a n then badWord s 2
      else ({ (issueCmd s k.port).2 with saf := { s.saf with packLoad := some (BitVec.ofNat 32 s.sch.cmdSeq, a, n) } },
        some (.accepted, [BitVec.ofNat 32 s.sch.cmdSeq])) := by
  have hz : fld k.params 1 31 16 = 0 := (bits_top_eq_zero (wd k.params 1) (by decide)).2 hh
  unfold doLoadTestPack
  rw [pair48_of_lt _ hh, ← ha, ← hn, hz]
  rfl

theorem loadTestPack_busy (h : starts s 0x54 0 k = some s0) (hh : (wd k.params 1).toNat < 65536)
    (hb : s.saf.packLoad.isSome = true ∨ s.saf.packNext.isSome = true) :
    exec (.loadTestPack k) s = .next (answered s0 0x54 k .busy []) := by
  obtain ⟨c, rfl⟩ := starts_cmd h
  refine congrArg Host.Outcome.next (command_refuses (body := doLoadTestPack k) h ?_)
  rw [doLoadTestPack_of_pair hh rfl rfl, if_pos (by simpa using hb)]

theorem loadTestPack_accepted (h : starts s 0x54 0 k = some s0) (hh : (wd k.params 1).toNat < 65536)
    (ha : a = (wd k.params 0).toNat + (wd k.params 1).toNat * 2 ^ 32) (hn : n = (wd k.params 2).toNat)
    (hl : s.saf.packLoad = none) (hx : s.saf.packNext = none) (hd : inDram s a n = true)
    (hr : hits (setRegions s ++ seqRegions s ++ fwRegions s) a n = false) :
    exec (.loadTestPack k) s = .next (answered
      { (issueCmd s0 k.port).2 with saf := { s0.saf with packLoad := some (BitVec.ofNat 32 s.sch.cmdSeq, a, n) } }
      0x54 k .accepted [BitVec.ofNat 32 s.sch.cmdSeq]) := by
  obtain ⟨c, rfl⟩ := starts_cmd h
  refine congrArg Host.Outcome.next (command_starts (body := doLoadTestPack k) h ?_ rfl)
  have hb : (!inDram { s with cmd := c } a n || hits (setRegions { s with cmd := c } ++ seqRegions { s with cmd := c }
      ++ fwRegions { s with cmd := c }) a n) = false := by
    show (!inDram s a n || hits (setRegions s ++ seqRegions s ++ fwRegions s) a n) = false
    rw [hd, hr]
    rfl
  rw [doLoadTestPack_of_pair hh ha hn, if_neg (by simp [hl, hx]), hb, if_neg Bool.false_ne_true]

end

/-! ### What the reads of a pack leave of its checks -/

section
variable {s t : State}

theorem sigRow_of_sec (h : t.sec = s.sec) (kind : Nat) (bs : List Byte) : sigRow t kind bs = sigRow s kind bs := by
  unfold sigRow anchorOk minSvnOf
  rw [h]

theorem readAll_part (s : State) (src : Nat) (rs : List (Nat × Nat)) (ecc : List (Nat × Ecc)) :
    (readAll s src rs ecc).part = s.part :=
  foldl_keeps State.part (fun s (x : Nat × Nat) => portRead s src x.1 x.2 (eccFor ecc))
    (fun s x => (portRead_keeps src x.1 x.2 _ (.refl s)).part) rs s

theorem packBad_badParam {p : Pack} {bs : List Byte} {f : Status × Nat × Nat} (h : packBad s p bs = some f) : f.1 = .badParam := by
  unfold packBad at h
  dsimp only at h
  split at h
  · cases h; rfl
  split at h
  · cases h; rfl
  split at h
  · cases h; rfl
  obtain ⟨x, -, hx⟩ := List.exists_of_findSome?_eq_some h
  obtain ⟨y, -, rfl⟩ := Option.map_eq_some_iff.1 hx
  rfl

end

/-! ### The end of a verification (R386, R499) -/

section
variable {s : State} {tok : Word} {a n : Nat}

/-- A pack's body: the bytes of its region without the signature block (R499). -/
def packBody (s : State) (a n : Nat) : List Byte := (s.mem.read a n).take (n - 2240)

/-- The state in which a pack whose signature holds is checked. -/
def signedState (s : State) : State := sigCount { s with saf := { s.saf with packLoad := none } } true

theorem packDone_unsigned (h : sigRow s 9 (s.mem.read a n) ≠ 0) : packDone s tok a n =
    finishTok (sigCount { s with saf := { s.saf with packLoad := none } } false) tok .sigFail
      (detail 0x0B (sigRow s 9 (s.mem.read a n)) 9) := by
  unfold packDone
  dsimp only
  rw [sigRow_of_sec (s := s) rfl, if_pos (by simpa using h)]

/-- A pack whose signature holds is checked in that state. -/
theorem packBad_signedState : packBad (signedState s) (parsePack a n (packBody s a n)) (packBody s a n)
    = packBad s (parsePack a n (packBody s a n)) (packBody s a n) := packBad_of_part rfl _ _

theorem packDone_rejected {f : Status × Nat × Nat} (h : sigRow s 9 (s.mem.read a n) = 0)
    (hb : packBad s (parsePack a n (packBody s a n)) (packBody s a n) = some f) :
    packDone s tok a n = finishTok (signedState s) tok f.1 (detail 0x0C f.2.1 f.2.2) := by
  have hb' := packBad_signedState.trans hb
  unfold packDone
  dsimp only
  rw [sigRow_of_sec (s := s) rfl, h, if_neg (by simp)]
  split
  · next g hg =>
    cases hb'.symm.trans hg
    rfl
  · next hg => cases hb'.symm.trans hg

theorem packDone_accepted (h : sigRow s 9 (s.mem.read a n) = 0)
    (hb : packBad s (parsePack a n (packBody s a n)) (packBody s a n) = none) :
    packDone s tok a n = finishTok (if s.sch.run == .running
      then { signedState s with saf := { (signedState s).saf with packNext := some (parsePack a n (packBody s a n)) } }
      else activatePack (signedState s) (parsePack a n (packBody s a n))) tok .ok [] := by
  have hb' := packBad_signedState.trans hb
  unfold packDone
  dsimp only
  rw [sigRow_of_sec (s := s) rfl, h, if_neg (by simp)]
  split
  · next g hg => cases hb'.symm.trans hg
  · rfl

theorem packDone_spent : ∀ x ∈ (packDone s tok a n).cmd.tokens, x.token = tok → x.live = false := by
  by_cases h : sigRow s 9 (s.mem.read a n) = 0
  · cases hb : packBad s (parsePack a n (packBody s a n)) (packBody s a n) with
    | some f =>
      rw [packDone_rejected h hb]
      exact finishTok_dead _ _ _ _
    | none =>
      rw [packDone_accepted h hb]
      exact finishTok_dead _ _ _ _
  · rw [packDone_unsigned h]
    exact finishTok_dead _ _ _ _

end

/-! ### LOAD_TEST_PACK_DONE -/

/-- The active test pack, the one that waits, and the one being verified. -/
def packSide (s : State) := (s.saf.pack, s.saf.packNext, s.saf.packLoad)

theorem packSide_settle (s t : State) : packSide (settle s t) = packSide t := congrArg (·.2.2.2.1) (katSide_settle t s)

theorem packSide_readAll (s : State) (src : Nat) (rs : List (Nat × Nat)) (ecc : List (Nat × Ecc)) :
    packSide (readAll s src rs ecc) = packSide s :=
  congrArg (fun v => (v.1.pack, v.1.packNext, v.1.packLoad)) (readSide_readAll s src rs ecc)

theorem packSide_stopPairA (s : State) : packSide (stopPairA s) = packSide s := by
  simp only [packSide, stopPairA, setSrc_saf]

section
variable {s : State} {tok : Word} {a n : Nat}

theorem packSide_unsigned (h : sigRow s 9 (s.mem.read a n) ≠ 0) :
    packSide (packDone s tok a n) = (s.saf.pack, s.saf.packNext, none)
      ∧ (packDone s tok a n).fc.fsw.getLsbD 121 = true := by
  rw [packDone_unsigned h]
  refine ⟨?_, setSrc_sets_bit _ (by decide) (by decide)⟩
  simp only [packSide, finishTok, sigCount, Bool.false_eq_true, if_false, setSrc_saf]

theorem packSide_rejected {f : Status × Nat × Nat} (h : sigRow s 9 (s.mem.read a n) = 0)
    (hb : packBad s (parsePack a n (packBody s a n)) (packBody s a n) = some f) :
    packSide (packDone s tok a n) = (s.saf.pack, s.saf.packNext, none) := by
  rw [packDone_rejected h hb]
  rfl

theorem packSide_waits (h : sigRow s 9 (s.mem.read a n) = 0) (hr : s.sch.run = .running)
    (hb : packBad s (parsePack a n (packBody s a n)) (packBody s a n) = none) :
    packSide (packDone s tok a n) = (s.saf.pack, some (parsePack a n (packBody s a n)), none) := by
  rw [packDone_accepted h hb, if_pos (by simp [hr])]
  rfl

theorem packSide_activates (h : sigRow s 9 (s.mem.read a n) = 0) (hr : s.sch.run ≠ .running)
    (hb : packBad s (parsePack a n (packBody s a n)) (packBody s a n) = none) :
    packSide (packDone s tok a n) = (parsePack a n (packBody s a n), none, none)
      ∧ (packDone s tok a n).eng = s.eng.map (fun x => { x with rot := 0 }) := by
  rw [packDone_accepted h hb, if_neg (by simpa using hr)]
  exact ⟨rfl, rfl⟩

theorem packSide_packLoad : (packSide (packDone s tok a n)).2.2 = none := by
  by_cases h : sigRow s 9 (s.mem.read a n) = 0
  · cases hb : packBad s (parsePack a n (packBody s a n)) (packBody s a n) with
    | some f => rw [packSide_rejected h hb]
    | none =>
      by_cases hr : s.sch.run = .running
      · rw [packSide_waits h hr hb]
      · rw [(packSide_activates h hr hb).1]
  · rw [(packSide_unsigned h).1]

end

/-- Where every rotation stands at its first slice, the reaction to a fatal source leaves it there. -/
theorem settle_rot {s t : State} (h : ∀ x ∈ t.eng, x.rot = 0) : ∀ x ∈ (settle s t).eng, x.rot = 0 := by
  intro x hx
  have hm : (settle s t).eng.map (fun x => (x.quar, x.rot)) = t.eng.map (fun x => (x.quar, x.rot)) :=
    congrArg (·.2.2.2.2) (katSide_settle t s)
  have hv : (x.quar, x.rot) ∈ t.eng.map (fun x => (x.quar, x.rot)) := hm ▸ List.mem_map.2 ⟨x, hx, rfl⟩
  obtain ⟨y, hy, hxy⟩ := List.mem_map.1 hv
  exact (congrArg (·.2) hxy).symm.trans (h y hy)

section
variable {s : State} {tok : Word} {a n : Nat} {ecc : List (Nat × Ecc)}

theorem loadTestPackDone_idle (h : s.saf.packLoad = none ∨ s.rst.pairA = true) :
    exec (.loadTestPackDone ecc) s = .next s := by
  refine congrArg Host.Outcome.next ?_
  split
  · rfl
  · next x hx =>
    rw [hx] at h
    rw [if_pos (by simpa using h)]

variable (hl : s.saf.packLoad = some (tok, a, n)) (hp : s.rst.pairA = false)
include hl hp

theorem exec_loadTestPackDone : exec (.loadTestPackDone ecc) s = .next (settle s
    (if readsGood s srcPairA [(a, n)] ecc then packDone (readAll s srcPairA [(a, n)] ecc) tok a n
      else stopPairA (readAll s srcPairA [(a, n)] ecc))) := by
  show execLoadTestPackDone s ecc = _
  unfold execLoadTestPackDone
  rw [hl, hp]
  dsimp only
  rw [if_neg Bool.false_ne_true, pairAGo, pairAReads_eq]
  cases readsGood s srcPairA [(a, n)] ecc <;> rfl

theorem loadTestPackDone_stops (h : readsGood s srcPairA [(a, n)] ecc = false) : ∃ t,
    exec (.loadTestPackDone ecc) s = .next t ∧ t.rst.pairA = true ∧ t.saf.packLoad = s.saf.packLoad
      ∧ t.saf.pack = s.saf.pack := by
  rw [exec_loadTestPackDone hl hp, h, if_neg Bool.false_ne_true]
  have hs : packSide (settle s (stopPairA (readAll s srcPairA [(a, n)] ecc))) = packSide s :=
    (packSide_settle _ _).trans ((packSide_stopPairA _).trans (packSide_readAll _ _ _ _))
  exact ⟨_, rfl, (settle_pairA _ _).trans (stopPairA_pairA _), congrArg (·.2.2) hs, congrArg (·.1) hs⟩

theorem loadTestPackDone_verified {p : Pack} (h : readsGood s srcPairA [(a, n)] ecc = true)
    (hpk : p = parsePack a n ((s.mem.read a n).take (n - 2240))) : ∃ t,
    exec (.loadTestPackDone ecc) s = .next t ∧ t.saf.packLoad = none ∧ (∀ x ∈ t.cmd.tokens, x.token = tok → x.live = false)
    ∧ (sigRow s 9 (s.mem.read a n) ≠ 0 → t.saf.pack = s.saf.pack ∧ t.saf.packNext = s.saf.packNext
        ∧ t.fc.fsw.getLsbD 121 = true)
    ∧ (∀ f, sigRow s 9 (s.mem.read a n) = 0 → packBad s p ((s.mem.read a n).take (n - 2240)) = some f →
        f.1 = .badParam ∧ t.saf.pack = s.saf.pack ∧ t.saf.packNext = s.saf.packNext)
    ∧ (sigRow s 9 (s.mem.read a n) = 0 → packBad s p ((s.mem.read a n).take (n - 2240)) = none →
        (s.sch.run = .running → t.saf.pack = s.saf.pack ∧ t.saf.packNext = some p)
        ∧ (s.sch.run ≠ .running → t.saf.pack = p ∧ t.saf.packNext = none ∧ ∀ x ∈ t.eng, x.rot = 0)) := by
  rw [exec_loadTestPackDone hl hp, h, if_pos rfl]
  have hread := readSide_readAll s srcPairA [(a, n)] ecc
  simp only [readSide, Prod.mk.injEq] at hread
  obtain ⟨hsaf, -, hrun, -, hsec⟩ := hread
  have hmem := readAll_mem s srcPairA [(a, n)] ecc
  have hpart := readAll_part s srcPairA [(a, n)] ecc
  generalize readAll s srcPairA [(a, n)] ecc = u at hsaf hrun hsec hmem hpart ⊢
  have hsig : sigRow u 9 (u.mem.read a n) = sigRow s 9 (s.mem.read a n) := by rw [hmem, sigRow_of_sec hsec]
  have hbody : packBody u a n = (s.mem.read a n).take (n - 2240) := by rw [packBody, hmem]
  have hbad : packBad u (parsePack a n (packBody u a n)) (packBody u a n)
      = packBad s p ((s.mem.read a n).take (n - 2240)) := by rw [hbody, hpk, packBad_of_part hpart]
  have hset := packSide_settle s (packDone u tok a n)
  have hside : ∀ {x y z}, packSide (packDone u tok a n) = (x, y, z) →
      (settle s (packDone u tok a n)).saf.pack = x ∧ (settle s (packDone u tok a n)).saf.packNext = y := fun e => by
    rw [e] at hset
    exact ⟨congrArg (·.1) hset, congrArg (·.2.1) hset⟩
  rw [← hsig, ← hbad, ← hrun, ← hsaf, hpk, ← hbody]
  refine ⟨_, rfl, (congrArg (·.2.2) hset).trans packSide_packLoad, settle_spent packDone_spent, fun hr => ?_, fun f hr hb => ?_,
    fun hr hb => ⟨fun hg => ?_, fun hg => ?_⟩⟩
  · obtain ⟨hv, hf⟩ := packSide_unsigned (tok := tok) hr
    exact ⟨(hside hv).1, (hside hv).2, settle_fsw _ _ hf⟩
  · exact ⟨packBad_badParam hb, hside (packSide_rejected hr hb)⟩
  · exact hside (packSide_waits hr hg hb)
  · obtain ⟨hv, he⟩ := packSide_activates (tok := tok) hr hg hb
    refine ⟨(hside hv).1, (hside hv).2, settle_rot fun x hx => ?_⟩
    rw [he] at hx
    obtain ⟨y, -, rfl⟩ := List.mem_map.1 hx
    rfl

end

/-! ### The obligation -/

/-- Settles O58: a slice starts by its fit and ends by the cases of `SliceEnd`, RUN_SELFTEST owes `owedSlices`, and a pack that is
verified ends by its signature, its checks and the run state. -/
theorem slicesAndTestPacks : Obligations.SlicesAndTestPacks := by
  unfold Obligations.SlicesAndTestPacks
  refine ⟨⟨?_, ?_, ?_, ?_, ?_, ?_⟩, ?_, ?_, ?_, ?_⟩
  · intro s e x w he hx ha hd hk hr hq hh hw hl hn
    exact sliceStart_admitted he hx ha hd hk hr hq hh hw hl hn
  · exact fun s e h => exec_katSliceStart_idle h
  · exact fun s e c ls fs h => exec_katSliceEnd_idle h
  · intro s e c ls fs w he hh hk
    exact ⟨_, exec_katSliceEnd hh hk, settle_kat (endSlice_kat he hk), sliceEnd_poisoned he hk,
      fun hp hc => sliceEnd_clean hk ⟨hp, hc⟩ _ rfl⟩
  · intro s e c ls fs w errs he hh hk hu
    exact ⟨_, exec_katSliceEnd hh hk, settle_kat (endSlice_kat he hk), sliceEnd_uncorrectable he hk hu _ rfl⟩
  · exact fun k s s0 m h hm => ⟨selftest_refused h hm, selftest_accepted h hm⟩
  · intro k s s0 a n h hh ha hn
    exact ⟨loadTestPack_busy h hh, loadTestPack_accepted h hh ha hn⟩
  · exact fun s ecc h => loadTestPackDone_idle h
  · exact fun s tok a n ecc hl hp h => loadTestPackDone_stops hl hp h
  · exact fun s tok a n p ecc hl hp h hpk => loadTestPackDone_verified hl hp h hpk

end Sys2Proof.Proofs
end
